-- ==== Sys2Proof/Word.lean ====
section
/-! DEFINITION. Word.lean: the bit-vector widths the manual uses, and the plainest arithmetic on them. -/

namespace Sys2Proof

/-- A byte of memory or of a record. -/
abbrev Byte := BitVec 8
/-- A 16-bit field (syndromes, network identifiers, mailbox half-words). -/
abbrev Half := BitVec 16
/-- A 32-bit register, short stamp or barge number (R5, R14, R15). -/
abbrev Word := BitVec 32
/-- A 64-bit count (TIME_NS, TRAVEL, CRC-64). -/
abbrev DWord := BitVec 64

/-- Signed 32-bit difference of two short stamps or barge numbers, as R14 and R15 compare them. -/
def sdiff (a b : Word) : Int := (a - b).toInt

end Sys2Proof
end

