-- ==== Sys2Proof/Config.lean ====
section
/-! DEFINITION. Config.lean: what one device fixes (grade, keys outside the manual) and the free values the manual leaves open.
An opaque constant here has no body: no proof can see a value of it, so a statement holds whatever it is. -/

namespace Sys2Proof

/-- The three grades of Table 00-1. -/
inductive Grade | A | M | L
  deriving DecidableEq, Repr

namespace Config

/-- The n-th draw of Seal's random source (START_NONCE of R153, LC_NONCE of R288, the device key of R287). The manual gives
no value: free. -/
opaque random : Nat → BitVec 256

/-- The root public key whose SM3 hash is fused, for a token that comes while no image is in use: the manual does not say where Seal then
reads it (R288): free. -/
opaque rootKey : BitVec 256 → BitVec 512

/-- The 4 KiB blocks of the running commit phase that are done so many TCLK cycles after it began (SE_COMMIT_STAT.PROGRESS): the pace of the
flash is the device's (R301): free. -/
opaque commitPace : Nat → Nat → Nat

/-- DEVICE_ID, fused at Alfawell test (R287): free. -/
opaque deviceId : DWord

/-- The SM3 digest of the ROM (M_ROM, R302): free. -/
opaque romDigest : BitVec 256

/-- Whether a refresh-rate indication needs more than 4× refresh or reports the device out of its range (R334). Its codes are those of
JESD209-5C, which the manual does not repeat: free. -/
opaque refreshAlarm : BitVec 5 → Bool

/-- What the 144/128 code finds in a word with n flipped bits beyond the two that R12 speaks of (0: nothing, 1: one bit it takes for
flipped, else uncorrectable): free. -/
opaque wideError : Nat → BitVec 2

/-- How far the n-th period of the internal oscillator exceeds its least (R244, R260): free within the limits of Table 12-5. -/
opaque oscStretch : Nat → Nat

/-- The n-th level of the pseudo-random sequence on SEAL_LOOP_O (R278): free. -/
opaque sealLoopBit : Nat → Bool

/-- The syndrome CROSS of ES99, which the manual names and gives no code for (R276): free. -/
opaque sinCross : BitVec 16

/-- The n-th value of a result the manual calls undefined or leaves unstated while the machine goes on: free. -/
opaque freeValue : Nat → DWord

/-- Payload bytes of a ROUTE frame, whose layout the manual does not give: free. -/
opaque routeLen : Nat

end Config
end Sys2Proof
end

