-- ==== Sys2Proof/Syntax.lean ====
section
/-! DEFINITION. Syntax.lean: the commands of the block. One constructor of `Instr` per row of spec/opcode_table.json, with the
operands the row's event carries: who sends it, which unit it reaches, and what the outside world shows (pins, packets, data
read from the accelerator, the finding of a code decoder). Operand types first. -/

namespace Sys2Proof

/-- Who makes a register or memory access: a Keeper pair, Harbour in machine or supervisor mode, or Harbour in user mode (R7, R393, R407,
R409). -/
inductive Initiator | k0 | k1 | harbour | user
  deriving DecidableEq, Repr

/-- What the 144/128 code finds in the word an access touches (R13). -/
inductive CodeFinding | clean | corrected | uncorrectable
  deriving DecidableEq, Repr

/-- What has become of the 144 stored bits of the word an access touches since it was written (R12): nothing, one bit flipped, two bits
flipped, the word stands at another address than the one it was written at, or `n` bits beyond two flipped. -/
inductive Ecc | clean | oneBit | twoBits | wrongAddress | manyBits (n : Nat)
  deriving DecidableEq, Repr

/-- What a CSI-2 receiver's header ECC finds (R53). -/
inductive HeaderEcc | clean | corrected | uncorrectable
  deriving DecidableEq, Repr

/-- One SSI frame as shifted in (R34): the raw data bits, the error bit, and whether the line stayed low at its start. -/
structure SsiFrame where
  raw : Word
  err : Bool
  stuckLow : Bool
  deriving DecidableEq, Repr

/-- The 64-bit quantities whose _LO read latches the upper half (R41, R405). -/
inductive Quantity
  | timeNs | travel | tbSite | tbZone
  | timer (c : Fin 16) | captureT (i : Fin 8) | captureS (i : Fin 8)
  | lanternCyc (u : Fin 64) | lanternCnt (u : Fin 64) (k : Fin 8)
  deriving DecidableEq, Repr

/-- A CSI-2 long packet as the receiver sees it (R55, R56): virtual channel, data type, header ECC finding, CRC-16 finding, payload. -/
structure CsiPacket where
  vc : BitVec 4
  dt : BitVec 6
  ecc : HeaderEcc
  crcBad : Bool
  payload : List Byte
  deriving DecidableEq, Repr

/-- A sensor Ethernet frame (R54): the fields a flow is matched on, the link findings, and the segment's payload. -/
structure EthFrame where
  port : Fin 4
  dstMac : BitVec 48
  vlan : Option (BitVec 12)
  etherType : Half
  udpPort : Option Half
  fcsBad : Bool
  pcsBad : Bool
  payload : List Byte
  deriving DecidableEq, Repr

/-- What the writing of an agreed copy meets at a set close (R64, R66): the two digest engines differ, or Hold reports a write error. -/
structure CloseEnv where
  digestDiffer : Bool
  holdError : Bool
  deriving DecidableEq, Repr

/-- A sensor receiver (R53). -/
inductive SensorPort | csi (c : Fin 8) | eth (e : Fin 4)
  deriving DecidableEq, Repr

/-- Who uses an outbound entry (R74): a Keeper pair, Harbour, or Mooring's own engines. -/
inductive OutUser | keeper (k : Fin 2) | harbour | engine
  deriving DecidableEq, Repr

/-- How an outbound read ends on the link (R75). -/
inductive Completion | data (v : DWord) | poisoned | unsuccessful
  deriving DecidableEq, Repr

/-- A request of the accelerator (R76); `msi` is a message-signalled interrupt (R72). -/
inductive InReq
  | msi (data : Word)
  | read (addr : DWord) (len : Nat) (ecc : Ecc)
  | write (addr : DWord) (bytes : List Byte) (ecc : Ecc)
  deriving DecidableEq, Repr

/-- What the patrol's read of a 4 KiB block of accelerator memory gives (R88), and whether the golden read failed. -/
structure PatrolRead where
  acc : Option (List Byte)
  gold : Ecc
  deriving DecidableEq, Repr

/-- What a compare of Mirror meets beside its operands (R99, R109). -/
inductive MirrorEnv | normal | halvesDisagree | storeUncorrectable
  deriving DecidableEq, Repr

/-- What one half of Mirror's comparator reports of a synthetic compare: no difference, or one with its syndrome (R110). -/
abbrev HalfReport := Option Byte

/-- What the halves report of Mirror's two glint compares (R110): the equal pair, and the pair that differs at bit k. -/
structure MirrorGlint where
  equalP : HalfReport
  equalQ : HalfReport
  bitP : HalfReport
  bitQ : HalfReport
  deriving DecidableEq, Repr

/-- What the audit reader brings back for a challenge (R157, R158). -/
inductive TileRead | bytes (b : List Byte) | companionError
  deriving DecidableEq, Repr

/-- How an audit tile's run ends (R159, R160, R163): complete, with the tile lost, or on an uncorrectable word of the companion's. -/
inductive AuditRun | complete | lost | companionError
  deriving DecidableEq, Repr

/-- The accelerator's values fetched for a barge: the bytes of each signature window's output buffer, or a failure (R178, R181). -/
inductive AccRead
  | windows (w : List (Half × List Byte))
  | unreadable
  | companionError
  deriving DecidableEq, Repr

/-- How the companion's own reads for a check end (R180): the sentinel's view in Basin is read, or a word is uncorrectable. -/
inductive ViewRead | read | companionError
  deriving DecidableEq, Repr

/-- A variant of a library model (Table 08-1): logical tiles it needs, tile entry of its run, per-tile image size in KiB, offset of
its image in the bank. -/
structure Variant where
  tiles : Nat
  entry : Nat
  partKib : Nat
  off : Nat
  deriving DecidableEq, Repr

/-- A manifest entry (Table 08-1). -/
structure Model where
  num : BitVec 12
  float : Bool
  strict : Bool
  viewLen : Word
  variants : List Variant
  deriving DecidableEq, Repr

/-- What Seal finds when it verifies a library bank (R169); a good bank gives its manifest. -/
inductive LibFinding | valid (models : List Model) | sigBad | digestBad | format | holdError
  deriving DecidableEq, Repr

/-- How a bring-in's reads of the bank end (R174): read, or a word is uncorrectable. -/
inductive LoadFinding | read | holdError
  deriving DecidableEq, Repr

/-- What the issue of a tile instruction meets: the code's finding of the fetched word, and of each of the SRAM words and of the
accumulator words it reads, in order, clean past the list's end (R138); a parity error in the sequencer's state (R135), the first column that AKT's signatures fail in (R136), and where a model's run has written its view, for a HALT (R176, R185). -/
structure IssueEnv where
  fetch : Ecc
  data : List Ecc
  acc : List Ecc
  parity : Bool
  akt : Option (Fin 32)
  view : Option (BitVec 40)
  deriving DecidableEq, Repr

/-- The end of a DMA transfer: its rows have moved, with the code's findings of the words read, or an error response (R128). -/
inductive DmaEnd | moved (es : List Ecc) | error
  deriving DecidableEq, Repr

/-- A pin the Lock chamber reads back (R208). -/
inductive GatePin | safeN | valid (v : Fin 4)
  deriving DecidableEq, Repr

/-- An SPI frame as it arrives (R209): 32 bits as shifted in, or a low period of SPI_CS_N that is not 32 cycles long. -/
inductive SpiFrame | bits (w : Word) | framing
  deriving DecidableEq, Repr

/-- The bus states that raise ES60 at once (R212). -/
inductive CanState | errorPassive | busOff
  deriving DecidableEq, Repr

/-- The error line a SOURCE_EVENT takes: the oldest line a block has asserted inside the model, or a line asserted by
something the model holds no cause of (a Harbour cache, the Hold controller, software). `barge` is the barge the block names (R227). -/
inductive EventSel
  | line
  | external (source : BitVec 7) (channel : BitVec 6) (syndrome : Half) (barge : Option Word)
  | levelOff (source : BitVec 7)
  deriving DecidableEq, Repr

/-- What is read back when Beacon's own inputs and reaction lines are driven in turn (R240): the inputs that were seen, and, for each
line alone, the outputs at their safe level: SAFE_N, the VALID pins, the brake gates, ACC_PERST_N, PWRCUT_N. -/
structure PathReadback where
  inputs : BitVec 128
  lineA : BitVec 5
  lineB : BitVec 5
  deriving DecidableEq, Repr

/-- The glint that Beacon issues by itself: one of a checker row of Table 11-5 with a unit and SEL of Table 11-11, or row 9's. -/
inductive GlintSel
  | checker (row : Fin 9) (unit : BitVec 6) (sel : Bool)
  | path (r : PathReadback)
  deriving DecidableEq, Repr

/-- What a debugger halts: a Keeper pair as one unit (R387), or one of the eight Harbour cores (R251, R393). -/
inductive HaltTarget
  | pair (k : Fin 2)
  | harbour (core : Fin 8)
  deriving DecidableEq, Repr

/-- What happens on the reaction lines (R233): one line changes by itself, or the disagreement has lasted. -/
inductive LineEvent
  | flips (lineB : Bool)
  | lasts
  deriving DecidableEq, Repr

/-- A brake node reading (R263): the class of each node and the shunt voltage in mV. -/
inductive NodeClass | low | mid | high
  deriving DecidableEq, Repr

structure BrakeReading where
  hi : NodeClass
  lo : NodeClass
  shunt : BitVec 10
  deriving DecidableEq, Repr

/-- A tamper detector (R291). -/
inductive TamperKind | mesh | voltage | clock
  deriving DecidableEq, Repr

/-- How a commit phase's operation ends (R299). -/
inductive PhaseResult | ok | failed | flashError
  deriving DecidableEq, Repr

/-- What a channel reads back at the end of each step of its start test (R280): both gates off, LSG alone, HSG alone, both off. -/
structure BrakeTest where
  off1 : BrakeReading
  lsg : BrakeReading
  hsg : BrakeReading
  off2 : BrakeReading
  deriving DecidableEq, Repr

/-- How a start step's own work comes out (R309-R315): the seal switches as read in step 4 (pattern, and the pins that float), the
readings of the brake start tests in step 5, the tiles and whether a bank that fails the march of step 6, or the FAIL code
of Table 15-3 that a step ends with. -/
inductive StepResult
  | ok
  | sealSwitches (pattern float : Byte)
  | brakeTest (readings : Vector BrakeTest 4)
  | marchFail (tiles : List (Fin 36)) (bank : Bool)
  | fail (code : BitVec 4)
  deriving DecidableEq, Repr

/-- The formats an audited layer's products may have (R145). -/
inductive AuditFmt | s8 | u8s8 | s4 | s16
  deriving DecidableEq, Repr

/-- The parameters of one output channel's requantisation (R117). -/
structure Requant where
  m : Word
  shift : BitVec 6
  z : Half
  lo : Word
  hi : Word
  deriving DecidableEq, Repr

/-- What is sealed of C = G(X)·W + b (R145): C as int32, C requantised with one record per column and optionally through RELU, or C
through a table of 65 points. -/
inductive PostOp
  | int32
  | requant (params : List Requant) (relu : Bool)
  | table (points : List Word) (shift : BitVec 5)
  deriving DecidableEq, Repr

/-- The gather G (R145): the identity, or image-to-column, by content: for each row and each of its k places the element of X taken, or
none for padding (log entry 91). -/
inductive Gather
  | identity
  | imageToColumn (rows : List (List (Option Nat)))
  deriving DecidableEq, Repr

/-- An audited layer of an audit descriptor: the manual lists what it holds and not its bytes, so the image carries it parsed. `elem` is
the bytes of a sealed element, `producer` the layer whose sealed output is X (none: the agreed copy), `k` the inner dimension. -/
structure Layer where
  num : BitVec 12
  fmt : AuditFmt
  gather : Gather
  k : Nat
  post : PostOp
  wAddr : Nat
  bAddr : Nat
  producer : Option (BitVec 12)
  tileRows : Nat
  tileCols : Nat
  tm : Nat
  tn : Nat
  elem : Nat
  stride : Nat
  project : Bool
  transpose : Bool
  rAddr : Nat
  cost : Nat
  mac : Nat
  deriving DecidableEq, Repr

/-- A golden region of an image (Table 14-6): its number, Hold address, length and SM3 digest. -/
structure Golden where
  region : Fin 64
  addr : Nat
  len : Nat
  digest : BitVec 256
  deriving DecidableEq, Repr

/-- What the sections say whose inner layout the manual does not give (log entry 99): TILEPROG's SRAM images per logical tile, HOLDDATA's
data per Hold address and the audited layers in its descriptors, GOLDREF's regions, REDUCED's layouts. -/
structure Contents where
  tilePrograms : List (Nat × List (Nat × Byte))
  holdData : List (Nat × List Byte)
  layers : List (Nat × List Layer)
  goldens : List Golden
  reduced : List (List (Nat × Word))
  deriving DecidableEq, Repr

/-- A Filpel image: its bytes, and what they say in the sections without a layout in the manual. -/
structure Image where
  bytes : List Byte
  contents : Contents
  deriving DecidableEq, Repr

/-- An own-rail reading (R316): below or above its window for more than 1 µs, or back in it. -/
inductive RailFault | below | above | inside
  deriving DecidableEq, Repr

/-- What ends a sequencer step (R319). -/
inductive SeqEvent | done | timeout | pmbusFailed
  deriving DecidableEq, Repr

/-- How an SMBus transaction ends (R323): `done` with a read's data and the packet error code that followed it. -/
inductive SmbusEnd | done (data : Half) (pec : Byte) | nack | timeout | arbitration
  deriving DecidableEq, Repr

/-- A read or a write of memory by a core, with what the word's code shows. -/
inductive MemOp | read (bytes : Nat) | write (data : List Byte)
  deriving DecidableEq, Repr

/-- How a march test or a segment of it ends (R347). `bad` carries the first failing word and whether the code or the data differed. -/
inductive MarchFinding | good | bad (word : BitVec 15) (code : Bool)
  deriving DecidableEq, Repr

/-- Scopes of STOP and BCAST frames (Table 18-3). -/
inductive Scope | cell | zone | site
  deriving DecidableEq, Repr

/-- The routing tables (R371). -/
inductive RouteTable | cell | zone | site
  deriving DecidableEq, Repr

/-- HELLO (Table 18-4). The manual lists what HELLO, CLAIM, ASSIGN, ROUTE and ROUTE_ACK carry and gives their payloads no byte
layout, so a frame is held by content. -/
structure HelloMsg where
  role : BitVec 3
  pattern : Byte
  pos : BitVec 4
  assigned : Bool
  port : Fin 4
  servos : BitVec 4
  deriving DecidableEq, Repr

/-- CLAIM: the pattern and role the node claims with, its zone number where it is a zone or site master, its ring position. -/
structure ClaimMsg where
  role : BitVec 3
  pattern : Byte
  zone : BitVec 4
  pos : BitVec 4
  deriving DecidableEq, Repr

/-- ASSIGN: the claim it answers, the code of Table 18-6 and the zone number. -/
structure AssignMsg where
  pattern : Byte
  pos : BitVec 4
  code : BitVec 3
  zone : BitVec 4
  deriving DecidableEq, Repr

/-- ROUTE: a table with its generation, its entries (Table 18-15) and what its CRC shows. -/
structure RouteMsg where
  table : RouteTable
  gen : Half
  entries : Vector Word 16
  crcBad : Bool
  deriving DecidableEq, Repr

/-- ROUTE_ACK: the entry that answers, and the code of Table 18-8. -/
structure AckMsg where
  table : RouteTable
  gen : Half
  entry : Fin 16
  code : BitVec 3
  deriving DecidableEq, Repr

/-- STOP (Table 18-7, and SCOPE and COPY of the header). -/
structure StopMsg where
  scope : Scope
  copy : BitVec 2
  origin : BitVec 12
  deliberate : Bool
  unassigned : Bool
  source : BitVec 7
  cls : BitVec 3
  starts : Half
  tOrigin : Word
  stopId : Word
  deriving DecidableEq, Repr

/-- DATA and BCAST. -/
structure DataMsg where
  dst : BitVec 12
  dstSite : Byte
  payload : List Byte
  deriving DecidableEq, Repr
structure BcastMsg where
  scope : Scope
  payload : List Byte
  deriving DecidableEq, Repr

/-- A fabric time base (R376). -/
inductive TimeBase | site | zone
  deriving DecidableEq, Repr

/-- A time message (EtherType 0x88F7): its kind, its domain, the grandmaster it names, and the link delay by which a relay corrects it, in
0.1 ns; the residence time it adds is the time from its hand-over to its departure (R365, R376). -/
inductive PtpKind | sync | followUp | announce | pdelayReq
  deriving DecidableEq, Repr
structure PtpMsg where
  kind : PtpKind
  base : TimeBase
  gm : BitVec 12
  linkDelay : Word
  deriving DecidableEq, Repr

/-- The body of a frame. -/
inductive ZBody
  | hello (m : HelloMsg)
  | claim (m : ClaimMsg)
  | assign (m : AssignMsg)
  | route (m : RouteMsg)
  | routeAck (m : AckMsg)
  | stop (m : StopMsg)
  | data (m : DataMsg)
  | bcast (m : BcastMsg)
  | ptp (m : PtpMsg)
  deriving DecidableEq, Repr

/-- The header fields every frame has (Table 18-3). -/
structure ZHead where
  src : BitVec 12
  hops : Byte
  seq : Word
  deriving DecidableEq, Repr

/-- A received Zholi frame as it came (R367): its bytes from the Zholi header on, and whether its FCS was wrong. -/
structure RawFrame where
  bytes : List Byte
  fcsBad : Bool
  deriving DecidableEq, Repr

/-- Which domain leaves reset (R327). -/
inductive Domain | k0 | k1 | harbour
  deriving DecidableEq, Repr

/-- The commands: one constructor per row of the opcode table. -/
inductive Instr
  -- Milepost
  | quadratureEdge (n : Fin 4) (a b : Bool)
  | zPulse (n : Fin 4)
  | ssiRead (n : Fin 4) (f : SsiFrame)
  | encoderLineFault (n : Fin 4)
  | singleTimeout
  | speedEstimate
  | readLoLatch (i : Initiator) (q : Quantity)
  | verdictDeadlineMissed (b : Word)
  | postReached (p : Fin 256)
  | postRelease
  | postqPop
  | tincWrite (i : Initiator) (c : Fin 16) (int : Bool) (v : Word)
  | timerCompareReached (c : Fin 16)
  | captureEdge (n : Fin 8) (rising : Bool)
  | capturePop (i : Initiator) (n : Fin 8)
  | trigPulseEnd (j : Fin 8)
  -- Sluice
  | csiFrameStart (k : Fin 32)
  | csiLongPacket (rx : Fin 8) (p : CsiPacket)
  | csiFrameEnd (k : Fin 32) (env : CloseEnv)
  | ethSegment (f : EthFrame) (env : CloseEnv)
  | ethUnmatchedFrame (f : EthFrame)
  | linkRegain (p : SensorPort)
  | sensorLinkLoss (p : SensorPort)
  | strRestart (i : Initiator) (k : Fin 32) (v : Word)
  | assemblyDeadline (b : Word)
  | lampSlotEnd
  -- Mooring
  | cfgRequest (i : Initiator) (n : Fin 2) (write : Bool) (data : Word)
  | outboundAccess (u : OutUser) (n : Fin 2) (off : BitVec 38) (op : MemOp)
  | outboundCompletion (n : Fin 2) (tag : Nat) (r : Completion)
  | completionTimeout (n : Fin 2) (tag : Nat)
  | inboundRequest (n : Fin 2) (odd : Bool) (r : InReq)
  | landingWrite
  | patrolBlock (n : Fin 2) (r : PatrolRead)
  | portStart (n : Fin 2)
  | perstDelayEnd (n : Fin 2)
  | linkUp (n : Fin 2) (speed : BitVec 3) (width : BitVec 5) (id : Word)
  | linkUpTimeout (n : Fin 2)
  | accReadyRise (n : Fin 2)
  | accBootTimeout (n : Fin 2)
  | accReadyFall (n : Fin 2)
  | accFault (n : Fin 2) (asserted : Bool)
  | accTherm (n : Fin 2) (asserted : Bool)
  | linkDown (n : Fin 2)
  | ltssmRecovery (n : Fin 2)
  | accReset (i : Initiator) (n : Fin 2) (v : Word)
  -- Mirror
  | sigRecordHandover
  | mirrorCompare (env : MirrorEnv)
  | windowDeadline (b : Word)
  | missingResult (b : Word)
  | mirrorGlint (g : MirrorGlint)
  | silentClr (i : Initiator) (v : Word)
  -- Shadow tiles: control
  | tlStart (i : Initiator) (p : Fin 36) (v : Word) (es : List Ecc)
  | tlStopAbort (i : Initiator) (p : Fin 36)
  | tlStopPause (i : Initiator) (p : Fin 36)
  | tileStopComplete (p : Fin 36) (es : List Ecc)
  | tlReset (i : Initiator) (p : Fin 36) (v : Word)
  | tileResetDone (p : Fin 36) (overrun : Bool)
  | tlDbgHalt (i : Initiator) (p : Fin 36)
  | tlDbgStep (i : Initiator) (p : Fin 36) (v : IssueEnv)
  | tlDbgResume (i : Initiator) (p : Fin 36)
  | tlEventSet (i : Initiator) (p : Fin 36) (v : Word)
  -- Shadow tiles: the issue of one instruction on a tile
  | opNop (p : Fin 36) (v : IssueEnv)
  | opHalt (p : Fin 36) (v : IssueEnv)
  | opLoop (p : Fin 36) (v : IssueEnv)
  | opJmp (p : Fin 36) (v : IssueEnv)
  | opBnz (p : Fin 36) (v : IssueEnv)
  | opWaite (p : Fin 36) (v : IssueEnv)
  | opSige (p : Fin 36) (v : IssueEnv)
  | opAddi (p : Fin 36) (v : IssueEnv)
  | opAdd (p : Fin 36) (v : IssueEnv)
  | opSub (p : Fin 36) (v : IssueEnv)
  | opMuli (p : Fin 36) (v : IssueEnv)
  | opLds (p : Fin 36) (v : IssueEnv)
  | opSts (p : Fin 36) (v : IssueEnv)
  | opWld (p : Fin 36) (v : IssueEnv)
  | opWsw (p : Fin 36) (v : IssueEnv)
  | opMma (p : Fin 36) (v : IssueEnv)
  | mmaDrained (p : Fin 36)
  | opAccr (p : Fin 36) (v : IssueEnv)
  | opAccw (p : Fin 36) (v : IssueEnv)
  | opVld (p : Fin 36) (v : IssueEnv)
  | opVst (p : Fin 36) (v : IssueEnv)
  | opVop (p : Fin 36) (v : IssueEnv)
  | opVops (p : Fin 36) (v : IssueEnv)
  | opVreq (p : Fin 36) (v : IssueEnv)
  | opVlut (p : Fin 36) (v : IssueEnv)
  | opVred (p : Fin 36) (v : IssueEnv)
  | opDma (p : Fin 36) (v : IssueEnv)
  | opDwait (p : Fin 36) (v : IssueEnv)
  | opAkt (p : Fin 36) (v : IssueEnv)
  | dmaTransferDone (p : Fin 36) (ch : Fin 4) (r : DmaEnd)
  | dmaTimeout (p : Fin 36) (ch : Fin 4)
  | cycleLimit (p : Fin 36)
  -- Audit
  | sealDeadline (b : Word)
  | sealMissingTimeout (b : Word)
  | readyqPop
  | drbgInstantiate (i : Initiator) (v : Word)
  | drbgOutRead (i : Initiator)
  | challengeExact (i : Initiator) (chal : BitVec 128)
  | challengeProject (i : Initiator) (chal : BitVec 128)
  | challengeInput (i : Initiator) (chal : BitVec 128)
  | challengeClose (i : Initiator) (chal : BitVec 128)
  | challengeReadDone (r : TileRead)
  | challengeReadError
  | auditTileDone (b : Word) (seq : Half) (r : AuditRun)
  | coveragePush (i : Initiator) (v : Word)
  | capWrite (i : Initiator) (e : Fin 64) (v : Word)
  -- Sentinels, envelopes, lamps, self-test
  | libVerify (i : Initiator) (v : Word)
  | libVerifyDone (r : LibFinding)
  | modelLoad (i : Initiator) (v : Word)
  | modelLoadDone (r : LoadFinding)
  | plausibilityEval (b : Word) (x : Fin 64) (a : AccRead) (v : ViewRead)
  | envelopeEval (b : Word) (a : AccRead)
  | lampDeadline (b : Word)
  | lampAgeTest
  | selftestStart (i : Initiator) (v : Word)
  | selftestAgeExceeded (p : Fin 36)
  -- Lock chamber
  | verdictForm (b : Word) (formersDiffer : Bool)
  | recordRelease
  | abandonRecord
  | validTimeout (v : Fin 4)
  | pinReadbackMismatch (p : GatePin)
  | spiFrameBad (f : SpiFrame)
  | mbNext (v : Half)
  | mbData
  | mbAck (v : Half)
  | ntNext (v : Half)
  | ntData
  | ntAck (v : Half)
  | mbTimeLo
  | canFrameSent (c : Fin 2)
  | canTxTimeout (c : Fin 2)
  | canBusOff (c : Fin 2) (st : CanState)
  | canFrameReceived (c : Fin 2)
  -- Beacon
  | sourceEvent (e : EventSel)
  | countWindowClose (source : BitVec 7) (channel : BitVec 6)
  | bcMaskOpen (i : Initiator) (v : Word)
  | maskIntervalEnd
  | pwrcutPulseEnd
  | reactionPathDisagree (e : LineEvent)
  | glintIssue (g : GlintSel)
  | glintWindowEnd
  | glintReadbackEnd
  | bcGlintReq (i : Initiator) (v : Word)
  | bcForce (i : Initiator) (v : Word)
  | bcRetClr (i : Initiator) (v : Word)
  -- Watchdogs and task supervisor
  | wdtKeyArm (i : Initiator) (w : Fin 4)
  | wdtKeyService (i : Initiator) (w : Fin 4)
  | wdtBadKey (i : Initiator) (w : Fin 4) (v : Half)
  | wdtLate (w : Fin 4)
  | wdtKeyLapse (w : Fin 4)
  | wdoPulseEnd
  | wdoReadbackMismatch (level : Bool)
  | wdRstClr (i : Initiator) (v : Word)
  | tsCheckin (i : Initiator) (v : Word)
  | taskBoundary (e : Fin 64)
  -- Safe I/O
  | brakeReleaseRequest (i : Initiator) (n : Fin 4)
  | brakeApplyRequest (i : Initiator) (n : Fin 4)
  | releaseLsgConfirmed (n : Fin 4) (r : BrakeReading)
  | releaseComplete (n : Fin 4) (r : BrakeReading) (c : Nat)
  | brakeReadbackFault (n : Fin 4) (r : BrakeReading)
  | testPulseStart (n : Fin 4)
  | testPulseJudge (n : Fin 4) (r : BrakeReading)
  | testPulseEnd (n : Fin 4)
  | brakeSupplyFault (mv10 : Half)
  | loAckPress
  | sinContactChange (n : Fin 8) (a b : Bool)
  | sinDiscrepancyTimeout (n : Fin 8)
  | sinTestPulse (src : Bool) (levelA levelB : BitVec 8)
  | sealLoopStep (returned : Bool)
  -- Seal: life cycle, golden regions, image commit, attestation
  | lcRequest (i : Initiator) (v : Word)
  | tamperDetect (k : TamperKind)
  | vaultWipeDone (badParts : BitVec 8)
  | vaultWipeTimeout
  | goldenVerify (i : Initiator) (v : Word)
  | goldenVerifyDone (ok : Bool)
  | commitStart (i : Initiator) (contents : Contents)
  | commitAbort (i : Initiator)
  | commitPhaseDone (r : PhaseResult)
  | attestationStart (i : Initiator)
  | attestationDone
  -- Lock cycle
  | lkBegin (i : Initiator)
  | lkLevel (i : Initiator)
  | levelDone
  | lkOpen (i : Initiator)
  | lkDiscard (i : Initiator)
  | stageExpired
  | stagedWrite (i : Initiator) (a : Nat) (v : Word)
  -- Start and Weir
  | powerGood
  | startStepComplete (r : StepResult)
  | startTimeout
  | ownRailFault (m : Fin 8) (f : RailFault)
  | brownout (powerOn : Bool)
  | tjSample (t : Half) (sensor : BitVec 3)
  | adcConversion (c : Fin 16) (code : BitVec 12)
  | adcTrig (i : Initiator) (v : Word)
  | seqCmdUp (i : Initiator)
  | seqCmdDown (i : Initiator)
  | seqStepDone (e : SeqEvent)
  | downSequenceStep
  | accEnReadbackMismatch (n : Fin 8) (level : Bool)
  | pmbusTransfer (i : Initiator) (b : Fin 2) (v : Word)
  | pmbusDone (b : Fin 2) (r : SmbusEnd)
  | pinReset
  | rstReq (i : Initiator) (v : Word)
  -- Hold, Basin, Vault
  | holdAccess (i : Initiator) (a : BitVec 40) (op : MemOp) (e : Ecc)
  | scrubRead (e : Ecc)
  | refreshRateCheck (c : Fin 16) (rate : BitVec 5)
  | zqCalibration (c : Fin 16) (ok : Bool)
  | recorderPlanAppend (i : Initiator) (v : Word) (writeFailed : Bool)
  | bankHandoverRequest (i : Initiator) (b : Fin 64) (v : Word)
  | bankHandoverComplete (b : Fin 64)
  | marchStart (i : Initiator) (v : Word)
  | marchSegmentDone (b : Fin 64) (r : MarchFinding)
  | marchDone (b : Fin 64) (r : MarchFinding)
  | bsLostClr (i : Initiator) (v : Word)
  -- Tally
  | tallyCfgWrite (i : Initiator) (u : Fin 16) (v : Word)
  | tallyStart (i : Initiator) (u : Fin 16) (v : Word)
  | tallyIn8 (i : Initiator) (u : Fin 16) (v : Byte)
  | tallyIn16 (i : Initiator) (u : Fin 16) (v : Half)
  | tallyIn32 (i : Initiator) (u : Fin 16) (v : Word)
  | tallyResLo (i : Initiator) (u : Fin 16)
  | tallyAlive (i : Initiator) (u : Fin 16)
  | tallyAliveChk (i : Initiator) (u : Fin 16) (v : Word)
  | tallyGlint (detected : Bool)
  -- Towpath
  | helloSend
  | zholiFrameBad (q : Fin 4) (x : RawFrame)
  | hello (q : Fin 4) (h : ZHead) (m : HelloMsg)
  | claim (q : Fin 4) (h : ZHead) (m : ClaimMsg)
  | claimSend
  | assign (q : Fin 4) (h : ZHead) (m : AssignMsg)
  | route (q : Fin 4) (h : ZHead) (m : RouteMsg)
  | routeAck (q : Fin 4) (h : ZHead) (m : AckMsg)
  | stop (q : Fin 4) (h : ZHead) (m : StopMsg)
  | data (q : Fin 4) (h : ZHead) (m : DataMsg)
  | bcast (q : Fin 4) (h : ZHead) (m : BcastMsg)
  | stopCopy
  | stopTx (i : Initiator) (v : Word)
  | stopCancel (i : Initiator) (v : Word)
  | ptpSync (q : Fin 4) (tb : TimeBase) (offset : BitVec 64) (gm : BitVec 12)
  | syncLoss (tb : TimeBase)
  | peerDelay (q : Fin 4) (delay : Word)
  | siteFailover
  | neighbourSilent (q : Fin 4)
  | tpLinkLoss (q : Fin 4) (pcs : Bool)
  | harbourTx (i : Initiator) (v : Word)
  -- Keeper
  | lockstepMismatch (k : Fin 2) (where_ : BitVec 16)
  | delayParityError (k : Fin 2)
  | keeperHalt (c : HaltTarget)
  | keeperResume (c : HaltTarget)
  | keeperWindowWrite (i : Initiator) (k : Fin 2) (n : Fin 4) (v : Word)
  | keeperWindowAccess (k : Fin 2) (a : Word) (write : Bool)
  -- Lantern
  | evselWrite (i : Initiator) (u : Fin 64) (k : Fin 8) (v : Word)
  | lnCtlClr (i : Initiator) (u : Fin 64)
  | lnCtlFreeze (i : Initiator) (u : Fin 64) (freeze : Bool)
  | lnBwWinWrite (i : Initiator) (v : Word)
  | bwWindowEnd
  | dumpStart (i : Initiator) (v : Word)
  | dumpDone
  -- every other register, and the remaining events
  | registerWrite (i : Initiator) (a : Nat) (bytes : Nat) (v : Word)
  | timeIntegrityFault (xtal : Bool)
  | clockMonitorFault
  | holdoverAgeExceeded (tb : TimeBase)
  | uncorrectableErrorMessage (n : Fin 2) (uncorrectable : Bool)
  | loAckPressStart
  | offTransitionPass (n : Fin 4) (r : BrakeReading)
  | domainLeavesReset (d : Domain)
  | onChipSramAccess (i : Initiator) (a : Word) (op : MemOp) (e : Ecc)
  | provisioningRequest (rootHash : BitVec 256)
  deriving DecidableEq, Repr

end Sys2Proof
end

