-- ==== Sys2Proof/Decode.lean ====
section
/-! DEFINITION. Decode.lean: the reading of a word as a command. The command table gives no row any bits: a command reaches the block
as an access or an event on its pins, not as a word. -/

namespace Sys2Proof

/-- No row of the table has bits, so no word spells a command. -/
def decodeTableWord (_nbits _w : Nat) : Option Instr := none

end Sys2Proof
end

