-- ==== Sys2Proof/Machine/Cells.lean ====
section
/-! DEFINITION. Machine/Cells.lean: sparse storage. A list of (key, value) pairs with a default for every key it does not list; the
canonical form has rising keys and lists no default value, so that equal contents are equal lists. Memory, the register file, the
stage copies and the tiles' vector state all use it. -/

namespace Sys2Proof.Machine.Cells

/-- The value at key `k`: the first listed one, else the default. -/
def get {α : Type} (d : Nat → α) : List (Nat × α) → Nat → α
  | [], k => d k
  | (a, v) :: m, k => if a = k then v else get d m k

/-- The list without key `k`. -/
def erase {α : Type} (k : Nat) : List (Nat × α) → List (Nat × α)
  | [] => []
  | (a, v) :: m => if a = k then erase k m else (a, v) :: erase k m

/-- `(k, v)` put in front of the first key above `k`. -/
def insert {α : Type} (k : Nat) (v : α) : List (Nat × α) → List (Nat × α)
  | [] => [(k, v)]
  | (a, w) :: m => if k < a then (k, v) :: (a, w) :: m else (a, w) :: insert k v m

/-- Write `v` at key `k`; writing the default removes the entry. -/
def set {α : Type} [DecidableEq α] (d : Nat → α) (m : List (Nat × α)) (k : Nat) (v : α) : List (Nat × α) :=
  if v = d k then erase k m else insert k v (erase k m)

/-- The canonical form: every key above `lo`, rising, and no default value. -/
def wfFrom {α : Type} [DecidableEq α] (d : Nat → α) : Option Nat → List (Nat × α) → Bool
  | _, [] => true
  | lo, (a, v) :: m => (match lo with | none => true | some l => l < a) && decide (v ≠ d a) && wfFrom d (some a) m

/-- The canonical form. -/
def wf {α : Type} [DecidableEq α] (d : Nat → α) (m : List (Nat × α)) : Bool := wfFrom d none m

/-- Values of `n` consecutive keys. -/
def getRange {α : Type} (d : Nat → α) (m : List (Nat × α)) (k : Nat) : Nat → List α
  | 0 => []
  | n + 1 => get d m k :: getRange d m (k + 1) n

/-- Write a list at consecutive keys. -/
def setRange {α : Type} [DecidableEq α] (d : Nat → α) (m : List (Nat × α)) (k : Nat) : List α → List (Nat × α)
  | [] => m
  | v :: vs => setRange d (set d m k v) (k + 1) vs

/-- The entries of `n` keys from `k`, their keys counted from `k`. -/
def window {α : Type} (m : List (Nat × α)) (k n : Nat) : List (Nat × α) :=
  (m.filter fun c => k ≤ c.1 && c.1 < k + n).map fun c => (c.1 - k, c.2)

/-- Drop the entries of `n` keys from `k`: each reads its default. -/
def clear {α : Type} (m : List (Nat × α)) (k n : Nat) : List (Nat × α) := m.filter fun c => c.1 < k || k + n ≤ c.1

/-- Replace the `n` keys from `k` by listed entries, their keys counted from `k`. -/
def replace {α : Type} [DecidableEq α] (d : Nat → α) (m : List (Nat × α)) (k n : Nat) (es : List (Nat × α)) : List (Nat × α) :=
  es.foldl (fun m e => set d m (k + e.1) e.2) (clear m k n)

end Sys2Proof.Machine.Cells
end

