-- ==== Sys2Proof/Machine/Crc.lean ====
section
/-! DEFINITION. Machine/Crc.lean: the five check functions of Table 17-1 (R354), the native folding (R356), the signature register of
Mirror (R97) and little-endian byte order. A CRC register is held in the low bits of a 64-bit word; a reflected function shifts right. -/

namespace Sys2Proof.Machine

/-- The `n` low bytes of a word, least significant first. -/
def bytesLE (n : Nat) (v : Nat) : List Byte :=
  match n with
  | 0 => []
  | n + 1 => BitVec.ofNat 8 v :: bytesLE n (v / 256)

/-- The `n` low bytes of a word, most significant first. -/
def bytesBE (n : Nat) (v : Nat) : List Byte := (bytesLE n v).reverse

/-- The number a byte list spells, least significant first. -/
def natLE : List Byte → Nat
  | [] => 0
  | b :: bs => b.toNat + 256 * natLE bs

/-- The number a byte list spells, most significant first. -/
def natBE (bs : List Byte) : Nat := natLE bs.reverse

/-- A field of a byte list: `n` bytes from `i`, little-endian. -/
def fieldLE (bs : List Byte) (i n : Nat) : Nat := natLE ((bs.drop i).take n)

/-- A field of a byte list: `n` bytes from `i`, most significant byte first. -/
def fieldBE (bs : List Byte) (i n : Nat) : Nat := natBE ((bs.drop i).take n)

/-- A row of Table 17-1: width, polynomial (bit-reversed where the function is reflected), initial value, reflected, final XOR. -/
structure CrcKind where
  width : Nat
  poly : DWord
  init : DWord
  refl : Bool
  xorOut : DWord
  deriving DecidableEq, Repr

/-- The all-ones value of width `w`. -/
def ones (w : Nat) : DWord := BitVec.ofNat 64 (2 ^ w - 1)

/-- CRC-8, SAE J1850. -/
def crc8 : CrcKind := ⟨8, 0x1D, 0xFF, false, 0xFF⟩
/-- CRC-16. -/
def crc16 : CrcKind := ⟨16, 0x1021, 0xFFFF, false, 0⟩
/-- CRC-32, IEEE 802.3; 0x04C1_1DB7 reversed. -/
def crc32 : CrcKind := ⟨32, 0xEDB88320, 0xFFFFFFFF, true, 0xFFFFFFFF⟩
/-- CRC-32C; 0x1EDC_6F41 reversed. -/
def crc32c : CrcKind := ⟨32, 0x82F63B78, 0xFFFFFFFF, true, 0xFFFFFFFF⟩
/-- CRC-64; 0x42F0_E1EB_A9EA_3693 reversed. -/
def crc64 : CrcKind := ⟨64, 0xC96C5795D7870F42, 0xFFFFFFFFFFFFFFFF, true, 0xFFFFFFFFFFFFFFFF⟩

/-- The packet error code of SMBus (R323): polynomial 0x07, from 0. -/
def crcSmbus : CrcKind := ⟨8, 0x07, 0, false, 0⟩

/-- The function of a TLYu_CFG.POLY code; codes 5 to 7 are refused. -/
def crcOfCode (p : Nat) : Option CrcKind :=
  match p with
  | 0 => some crc8
  | 1 => some crc16
  | 2 => some crc32
  | 3 => some crc32c
  | 4 => some crc64
  | _ => none

/-- One bit of a reflected register. -/
def crcBitR (k : CrcKind) (r : DWord) : DWord := if r.getLsbD 0 then (r >>> 1) ^^^ k.poly else r >>> 1

/-- One bit of a register that is not reflected. -/
def crcBitL (k : CrcKind) (r : DWord) : DWord :=
  (if r.getLsbD (k.width - 1) then (r <<< 1) ^^^ k.poly else r <<< 1) &&& ones k.width

/-- `n` bit steps. -/
def crcBits (k : CrcKind) : Nat → DWord → DWord
  | 0, r => r
  | n + 1, r => crcBits k n (if k.refl then crcBitR k r else crcBitL k r)

/-- Feed one byte. -/
def crcByte (k : CrcKind) (r : DWord) (b : Byte) : DWord :=
  crcBits k 8 (if k.refl then r ^^^ b.setWidth 64 else r ^^^ (b.setWidth 64 <<< (k.width - 8)))

/-- Feed bytes in order. -/
def crcFeed (k : CrcKind) (r : DWord) (bs : List Byte) : DWord := bs.foldl (crcByte k) r

/-- The result read from a register. -/
def crcOut (k : CrcKind) (r : DWord) : DWord := (r ^^^ k.xorOut) &&& ones k.width

/-- The PLAIN result over bytes. -/
def crcPlain (k : CrcKind) (bs : List Byte) : DWord := crcOut k (crcFeed k k.init bs)

/-- The NATIVE result: the 32-bit fold value first, least significant byte first (R356). -/
def crcNative (k : CrcKind) (fold : Word) (bs : List Byte) : DWord :=
  crcOut k (crcFeed k k.init (bytesLE 4 fold.toNat ++ bs))

/-- REC_CHK of the records of Mooring and the Lock chamber: CRC-32C, native, as four bytes. -/
def recChk (fold : Word) (bs : List Byte) : List Byte := bytesLE 4 (crcNative crc32c fold bs).toNat

end Sys2Proof.Machine
end

