-- ==== Sys2Proof/Machine/Policy.lean ====
section
/-! DEFINITION. Machine/Policy.lean: the default policy of the error sources (R242, Table 11-7) and what the manual says of each
source: level sources (R226), channels and retirements (Table 11-2). -/

namespace Sys2Proof.Machine

/-- Default class of source `s`: C0 to C4. -/
def polClass (s : Nat) : Nat :=
  if s ∈ [76, 96, 97, 98, 102, 120, 125, 127] then 4
  else if s ∈ [0, 1, 2, 3, 6, 7, 23, 37, 61, 62, 66, 68, 75, 80, 81, 88, 89, 95, 99, 100, 108, 109, 114, 121, 123, 124, 126] then 3
  else if s ∈ [21, 22, 24, 25, 26, 27, 28, 29, 31, 32, 33, 34, 35, 38, 48, 50, 51, 53, 54, 55, 56, 57, 58, 64, 72, 77, 92, 93,
    94, 105, 106, 107, 115, 116] then 2
  else if s ∈ [9, 13, 15, 36, 41, 65, 71, 73, 79, 84, 85, 86, 87, 101, 103] then 0
  else 1

/-- Default N of source `s`. -/
def polN (s : Nat) : Nat :=
  if s ∈ [9, 65] then 64
  else if s ∈ [4, 41, 73, 113] then 16
  else if s ∈ [16, 17, 20, 24, 25, 30, 59, 112] then 8
  else if s ∈ [11, 18, 19, 26, 42, 43, 52, 104, 122] then 4
  else if s ∈ [40, 44] then 2
  else 1

/-- Default W of source `s`, in µs; 0 where N is 1. -/
def polW (s : Nat) : Nat :=
  if polN s = 1 then 0
  else if s ∈ [24, 25, 30, 112] then 10000000
  else if s = 104 then 100000
  else 1000000

/-- Default extra mask of source `s`. -/
def polMaskOf (s : Nat) : List Nat :=
  if s ∈ [0, 2] then [88, 92]
  else if s ∈ [1, 7] then [89, 92]
  else if s ∈ [24, 25] then [30, 31, 52]
  else if s = 40 then [41, 43]
  else if s = 41 then [40, 43]
  else if s = 43 then [40, 41]
  else if s ∈ [42, 44, 45] then [40, 41, 43]
  else if s ∈ [88, 89] then [92, 93]
  else if s = 112 then [113, 118]
  else []

/-- Default masking interval, µs: 100 for every row with a mask, the safe-state set of the C3 and C4 rows included (log entry 52). -/
def polMint (s : Nat) : Nat := if (polMaskOf s).isEmpty && polClass s < 3 then 0 else 100

/-- Word `m` of the default mask. -/
def polMaskWord (s m : Nat) : Word :=
  (polMaskOf s).foldl (fun w b => if b / 32 = m then w ||| BitVec.ofNat 32 (2 ^ (b % 32)) else w) 0

/-- Level sources (R226). -/
def isLevelSource (s : Nat) : Bool := decide (s ∈ [13, 67, 102, 105, 108, 111, 120, 121, 124])

/-- Reserved sources: they never assert (R242). -/
def isReservedSource (s : Nat) : Bool := decide (s ∈ [15, 71, 79, 84, 85, 86, 87, 103])

/-- What retires with a channel (Table 11-2). -/
inductive RetKind | stream | port | tile | encoder | towpath | pair
  deriving DecidableEq, Repr

/-- The retirement Table 11-2 gives a source at severity. -/
def retKind (s : Nat) : Option RetKind :=
  if 16 ≤ s ∧ s ≤ 20 then some .stream
  else if s = 24 ∨ s = 25 then some .port
  else if 40 ≤ s ∧ s ≤ 45 then some .tile
  else if s = 104 then some .encoder
  else if s ∈ [112, 113, 118] then some .towpath
  else if s ∈ [0, 1, 2, 7] then some .pair
  else none

/-- Sources counted per channel: those of Table 11-2. A pair's and a port's sources have one channel each. -/
def perChannel (s : Nat) : Bool := (retKind s).isSome

/-- The default of the policy register at offset `o` of source `s`; POLs_CFG.LEVEL and PERCH are fixed by the source (Table 11-10). -/
def polDefault (s o : Nat) : Word :=
  match o / 4 with
  | 0 => BitVec.ofNat 32 (polClass s + 16 * polN s + (if isLevelSource s then 0x1000 else 0) + (if perChannel s then 0x2000 else 0))
  | 1 => BitVec.ofNat 32 (polW s)
  | 2 => polMaskWord s 0
  | 3 => polMaskWord s 1
  | 4 => polMaskWord s 2
  | 5 => polMaskWord s 3
  | 6 => BitVec.ofNat 32 (polMint s)
  | _ => 0

/-- The retired unit's number: the channel, or the port or pair that the source itself names. -/
def retUnit (s chan : Nat) : Nat :=
  match s with
  | 24 => 0
  | 25 => 1
  | 0 => 0
  | 2 => 0
  | 1 => 1
  | 7 => 1
  | _ => chan

end Sys2Proof.Machine
end

