-- ==== Sys2Proof/Machine/RegMap.lean ====
section
/-! DEFINITION. Machine/RegMap.lean: the register maps of the manual, written out from its register and field tables (R52, R70,
R95, R113, R144, R168, R194, R215, R243, R261, R283, R308, R329, R352, R353, R364, R383, R399, R410). `R.<name>` is a register's
address; a row gives what writes to its bits do (Table 00-5) and its reset value. Bits outside every mask are reserved or read
only (R8). The Reset column's "img" is 0 here until a start loads it (R11), and a "live" register's value is the hardware's. -/

namespace Sys2Proof.Machine

/-- One row of a register table: instances at base + stride * index for each index, `words` consecutive words, the bits of each access code. -/
structure RegRow where
  name : String
  base : Nat
  dims : List (Nat × Nat)
  words : Nat
  keeper : Bool
  rw : Word
  rws : Word
  w1c : Word
  w1s : Word
  wo : Word
  reset : Word
  deriving DecidableEq, Repr

namespace R

/-- Table 02-7: Encoder roles and units. -/
def MP_CTRL : Nat := 0x30200010
/-- Table 02-7: Quality, direction, standstill, encoder loss. -/
def MP_STAT : Nat := 0x30200014
/-- Table 02-7: Maximum permitted speed, mm/s. -/
def V_MAX : Nat := 0x30200018
/-- Table 02-7: [15:0] ABS mm/s, [23:16] PCT, [31:24] TIME ms. -/
def SPD_TOL : Nat := 0x3020001C
/-- Table 02-7: Time bound of the TRAVEL domain, µs. -/
def DL_STILL : Nat := 0x30200020
/-- Table 02-7: SINGLE grace time, ms. -/
def SINGLE_T : Nat := 0x30200024
/-- Table 02-7: Holdover age limit, ms. -/
def TB_HOLD_MAX : Nat := 0x30200028
/-- Table 02-7: TIME_NS[31:0]; latches _HI. -/
def TIME_NS_LO : Nat := 0x30200030
/-- Table 02-7: TIME_NS[63:32]. -/
def TIME_NS_HI : Nat := 0x30200034
/-- Table 02-7: TRAVEL[31:0]; latches _HI. -/
def TRAVEL_LO : Nat := 0x30200038
/-- Table 02-7: TRAVEL[63:32]. -/
def TRAVEL_HI : Nat := 0x3020003C
/-- Table 02-7: Signed speed per encoder, mm/s. -/
def SPEEDn (n : Nat) : Nat := 0x30200040 + 0x4 * n
/-- Table 02-7: [0] KTASK, [1] capture, [2] timer, [3] quality change. -/
def MP_IRQ_STAT : Nat := 0x30200050
/-- Table 02-7: Enables for MP_IRQ_STAT bits. -/
def MP_IRQ_EN : Nat := 0x30200054
/-- Table 02-7: Reading pops: [7:0] post number, [31] valid. -/
def POSTQ_POP : Nat := 0x30200060
/-- Table 02-7: TIME_NS[31:0] of the entry last popped. -/
def POSTQ_T : Nat := 0x30200064
/-- Table 02-7: TRAVEL[31:0] of the entry last popped. -/
def POSTQ_S : Nat := 0x30200068
/-- Table 02-7: Entries waiting, 0–64. -/
def POSTQ_LEVEL : Nat := 0x3020006C
/-- Table 02-7: Fabric time bases. -/
def TB_SITE_LO : Nat := 0x30200070
/-- Table 02-7: Fabric time bases. -/
def TB_ZONE_LO : Nat := 0x30200078
/-- Table 02-7: [15:0] site, [31:16] zone holdover age, ms. -/
def TB_HOLD_AGE : Nat := 0x30200080
/-- Table 02-7: Encoder n configuration. -/
def ENCn_CFG (n : Nat) : Nat := 0x30200100 + 0x40 * n
/-- Table 02-7: Scale fraction. -/
def ENCn_SCALE_LO (n : Nat) : Nat := 0x30200104 + 0x40 * n
/-- Table 02-7: Scale integer. -/
def ENCn_SCALE_HI (n : Nat) : Nat := 0x30200108 + 0x40 * n
/-- Table 02-7: Counts between Z pulses. -/
def ENCn_ZPER (n : Nat) : Nat := 0x3020010C + 0x40 * n
/-- Table 02-7: SSI read period, µs. -/
def ENCn_SSIPER (n : Nat) : Nat := 0x30200110 + 0x40 * n
/-- Table 02-7: Signed raw count. -/
def ENCn_COUNT (n : Nat) : Nat := 0x30200114 + 0x40 * n
/-- Table 02-7: [0] ILLEGAL, [1] Z_ERR, [2] SSI_ERR, [3] LINE. -/
def ENCn_STAT (n : Nat) : Nat := 0x30200118 + 0x40 * n
/-- Table 02-7: Time value (two words). -/
def POSTp_VAL_T_LO (p : Nat) : Nat := 0x30201000 + 0x20 * p
/-- Table 02-7: Travel value (two words). -/
def POSTp_VAL_S_LO (p : Nat) : Nat := 0x30201008 + 0x20 * p
/-- Table 02-7: Time period, ns. -/
def POSTp_PER_T (p : Nat) : Nat := 0x30201010 + 0x20 * p
/-- Table 02-7: Travel period, µm. -/
def POSTp_PER_S (p : Nat) : Nat := 0x30201014 + 0x20 * p
/-- Table 02-7: Domain, action, argument, slot. -/
def POSTp_CFG (p : Nat) : Nat := 0x30201018 + 0x20 * p
/-- Table 02-7: [15:0] RELEASES, [31:16] MISSED, both saturating. -/
def POSTp_STAT (p : Nat) : Nat := 0x3020101C + 0x20 * p
/-- Table 02-7: Count integer part (two words). -/
def TMRc_CNT_LO (c : Nat) : Nat := 0x30203000 + 0x20 * c
/-- Table 02-7: Increment fraction. -/
def TMRc_TINC_FRAC (c : Nat) : Nat := 0x30203008 + 0x20 * c
/-- Table 02-7: Increment integer part. -/
def TMRc_TINC_INT (c : Nat) : Nat := 0x3020300C + 0x20 * c
/-- Table 02-7: Compare value (two words). -/
def TMRc_CMP_LO (c : Nat) : Nat := 0x30203010 + 0x20 * c
/-- Table 02-7: Compare period, ns. -/
def TMRc_PER (c : Nat) : Nat := 0x30203018 + 0x20 * c
/-- Table 02-7: [0] EN, [1] IRQ, [15:8] TRIG pin mask. -/
def TMRc_CFG (c : Nat) : Nat := 0x3020301C + 0x20 * c
/-- Table 02-7: [0] EN, [2:1] edge, [15:8] FILT. -/
def CAPi_CFG (i : Nat) : Nat := 0x30204000 + 0x20 * i
/-- Table 02-7: [0] OVF; [20:16] LEVEL (RO). -/
def CAPi_STAT (i : Nat) : Nat := 0x30204004 + 0x20 * i
/-- Table 02-7: Time stamp of FIFO head (two words). -/
def CAPi_T_LO (i : Nat) : Nat := 0x30204008 + 0x20 * i
/-- Table 02-7: Travel stamp; reading _HI pops the FIFO (two words). -/
def CAPi_S_LO (i : Nat) : Nat := 0x30204010 + 0x20 * i
/-- Table 02-7: [1:0] SRC: 0 off, 1 posts, 2 timers, 3 both; [2] POL, pulse level: 1 high pulse from low, 0 low pulse from high (R50). -/
def TRIGj_CFG (j : Nat) : Nat := 0x30204200 + 0x10 * j
/-- Table 02-7: [23:0] pulse width, TCLK. -/
def TRIGj_WIDTH (j : Nat) : Nat := 0x30204204 + 0x10 * j
/-- Table 03-7: Enable and default warming count. -/
def SL_CTRL : Nat := 0x30500010
/-- Table 03-7: [0] RUNNING, [15:8] sets Assembling. -/
def SL_STAT : Nat := 0x30500014
/-- Table 03-7: [0] FRAME_ERR, [1] RESTART, [2] RETIRE, [3] RING_LOW. -/
def SL_IRQ_STAT : Nat := 0x30500018
/-- Table 03-7: Enables for SL_IRQ_STAT bits. -/
def SL_IRQ_EN : Nat := 0x3050001C
/-- Table 03-7: Next barge number to be assigned. -/
def BARGE_NEXT : Nat := 0x30500020
/-- Table 03-7: [0] SLOT_ACTIVE, [15:8] barges held, [31:16] slot remaining, 10 µs. -/
def HELD_STAT : Nat := 0x30500024
/-- Table 03-7: Input ring base in Hold, [31:0]. -/
def SL_RING_BASE_LO : Nat := 0x30500028
/-- Table 03-7: Input ring base, [39:32]. -/
def SL_RING_BASE_HI : Nat := 0x3050002C
/-- Table 03-7: Ring size, MiB, 1–4,096. -/
def SL_RING_SIZE : Nat := 0x30500030
/-- Table 03-7: Free space, KiB. -/
def SL_RING_FREE : Nat := 0x30500034
/-- Table 03-7: [0] EN, [1] C-PHY, [3:2] lanes or trios − 1, [15:8] rate, 100 Mb/s or 100 Msym/s. -/
def CSIc_CFG (c : Nat) : Nat := 0x30500100 + 0x40 * c
/-- Table 03-7: [0] SYNC_LOSS, [1] ECC_CORR, [2] ECC_UNCORR, [3] CRC. -/
def CSIc_STAT (c : Nat) : Nat := 0x30500104 + 0x40 * c
/-- Table 03-7: Discarded packets, saturating. -/
def CSIc_ERRCNT (c : Nat) : Nat := 0x30500108 + 0x40 * c
/-- Table 03-7: [0] EN, [2:1] rate: 0 10 Gb/s, 1 5 Gb/s, 2 2.5 Gb/s, [3] master. -/
def ETHe_CFG (e : Nat) : Nat := 0x30500400 + 0x40 * e
/-- Table 03-7: [0] LINK_LOSS, [1] FCS, [2] PCS. -/
def ETHe_STAT (e : Nat) : Nat := 0x30500404 + 0x40 * e
/-- Table 03-7: Unmatched and discarded frames, saturating. -/
def ETHe_ERRCNT (e : Nat) : Nat := 0x30500408 + 0x40 * e
/-- Table 03-7: Port MAC address [31:0]. -/
def ETHe_MAC_LO (e : Nat) : Nat := 0x3050040C + 0x40 * e
/-- Table 03-7: Port MAC address [47:32]. -/
def ETHe_MAC_HI (e : Nat) : Nat := 0x30500410 + 0x40 * e
/-- Table 03-7: Stream configuration. -/
def STRs_CFG (s : Nat) : Nat := 0x30501000 + 0x40 * s
/-- Table 03-7: [15:0] EtherType or UDP port, [27:16] VLAN ID, [28] VLAN_EN, [29] UDP. -/
def STRs_FLOW (s : Nat) : Nat := 0x30501004 + 0x40 * s
/-- Table 03-7: [15:0] expected STREAM_ID. -/
def STRs_ID (s : Nat) : Nat := 0x30501008 + 0x40 * s
/-- Table 03-7: [15:0] PER_MIN, [31:16] PER_MAX, 10 µs units. -/
def STRs_PER (s : Nat) : Nat := 0x3050100C + 0x40 * s
/-- Table 03-7: [15:0] TOL, µs. -/
def STRs_TOL (s : Nat) : Nat := 0x30501010 + 0x40 * s
/-- Table 03-7: Stream status. -/
def STRs_STAT (s : Nat) : Nat := 0x30501014 + 0x40 * s
/-- Table 03-7: FRAME_CNT of the last accepted frame. -/
def STRs_LASTCNT (s : Nat) : Nat := 0x30501018 + 0x40 * s
/-- Table 03-7: Failed frames, saturating. -/
def STRs_ERRCNT (s : Nat) : Nat := 0x3050101C + 0x40 * s
/-- Table 03-7: Writing 0x0000_0001 restarts the stream. -/
def STRs_RESTART (s : Nat) : Nat := 0x30501020 + 0x40 * s
/-- Table 03-7: [0] EN. -/
def SETk_CFG (k : Nat) : Nat := 0x30502000 + 0x40 * k
/-- Table 03-7: One bit per stream S0–S31. -/
def SETk_MEMBERS (k : Nat) : Nat := 0x30502004 + 0x40 * k
/-- Table 03-7: Assembly time bound, µs. -/
def SETk_ASM_T (k : Nat) : Nat := 0x30502008 + 0x40 * k
/-- Table 03-7: Assembly travel bound, µm. -/
def SETk_ASM_S (k : Nat) : Nat := 0x3050200C + 0x40 * k
/-- Table 03-7: [15:0] pairing window, µs. -/
def SETk_SKEW (k : Nat) : Nat := 0x30502010 + 0x40 * k
/-- Table 03-7: [1:0] barges Assembling, [2] ALL_RETIRED. -/
def SETk_STAT (k : Nat) : Nat := 0x30502014 + 0x40 * k
/-- Table 03-7: Last barge number opened by the set. -/
def SETk_BARGE (k : Nat) : Nat := 0x30502018 + 0x40 * k
/-- Table 04-11: [0] EN, [1] X16. -/
def MR_CTRL : Nat := 0x30600010
/-- Table 04-11: [1:0] RP0 state, [3:2] RP1 state (Table 04-7). -/
def MR_STAT : Nat := 0x30600014
/-- Table 04-11: [0] PORT_CHANGE, [1] REC_ERR, [2] BREACH, [3] PATROL. -/
def MR_IRQ_STAT : Nat := 0x30600018
/-- Table 04-11: Enables for MR_IRQ_STAT bits. -/
def MR_IRQ_EN : Nat := 0x3060001C
/-- Table 04-11: [1:0] 1 CONFLICT, 2 re-seal, 3 patrol; [3:2] copy. -/
def BREACH_CAUSE : Nat := 0x30600020
/-- Table 04-11: Barge of the last breach. -/
def BREACH_BARGE : Nat := 0x30600024
/-- Table 04-11: Port configuration. -/
def RPn_CTRL (n : Nat) : Nat := 0x30600100 + 0x100 * n
/-- Table 04-11: Port status. -/
def RPn_STAT (n : Nat) : Nat := 0x30600104 + 0x100 * n
/-- Table 04-11: [15:0] Vendor ID, [31:16] Device ID expected. -/
def RPn_ACC_ID (n : Nat) : Nat := 0x30600108 + 0x100 * n
/-- Table 04-11: [15:0] completion timeout, µs; level refuses outside 50–50,000. -/
def RPn_CPL_TO (n : Nat) : Nat := 0x3060010C + 0x100 * n
/-- Table 04-11: Recovery entries, saturating. -/
def RPn_RECOV (n : Nat) : Nat := 0x30600110 + 0x100 * n
/-- Table 04-11: DL_Down events, saturating. -/
def RPn_LINKDOWN (n : Nat) : Nat := 0x30600114 + 0x100 * n
/-- Table 04-11: [15:0] correctable, [31:16] uncorrectable messages, saturating. -/
def RPn_AER (n : Nat) : Nat := 0x30600118 + 0x100 * n
/-- Table 04-11: Writing 0x0000_0001 resets the accelerator (R93). -/
def ACC_RESETn (n : Nat) : Nat := 0x3060011C + 0x100 * n
/-- Table 04-11: [7:0] bus, [12:8] device, [15:13] function, [27:16] register byte offset. -/
def RPn_CFG_ADDR (n : Nat) : Nat := 0x30600120 + 0x100 * n
/-- Table 04-11: Configuration data; access issues the request. -/
def RPn_CFG_DATA (n : Nat) : Nat := 0x30600124 + 0x100 * n
/-- Table 04-11: [0] EN, [1] WRITE, [4:2] initiators: Keeper, Harbour, engines, [10:5] log2 size, 20–36. -/
def OBWn_e_CFG (n e : Nat) : Nat := 0x30600400 + 0x100 * n + 0x20 * e
/-- Table 04-11: [17:0] offset in the region, MiB. -/
def OBWn_e_OFF (n e : Nat) : Nat := 0x30600404 + 0x100 * n + 0x20 * e
/-- Table 04-11: Bus address (two words). -/
def OBWn_e_BUS_LO (n e : Nat) : Nat := 0x30600408 + 0x100 * n + 0x20 * e
/-- Table 04-11: [2:0] kind (Table 04-1), [8:3] log2 size, 12–40. -/
def IBWn_e_CFG (n e : Nat) : Nat := 0x30600600 + 0x100 * n + 0x20 * e
/-- Table 04-11: Bus address (two words). -/
def IBWn_e_BUS_LO (n e : Nat) : Nat := 0x30600604 + 0x100 * n + 0x20 * e
/-- Table 04-11: Companion target address (two words). -/
def IBWn_e_TGT_LO (n e : Nat) : Nat := 0x3060060C + 0x100 * n + 0x20 * e
/-- Table 04-11: [0] EN, [5:1] DEPTH − 1; level refuses DEPTH below 2. -/
def Cc_CFG (c : Nat) : Nat := 0x30600800 + 0x40 * c
/-- Table 04-11: [24:0] signature ring offset in Basin, 64-byte aligned. -/
def Cc_SIG_BASE (c : Nat) : Nat := 0x30600804 + 0x40 * c
/-- Table 04-11: [24:0] seal ring offset in Basin, 32-byte aligned. -/
def Cc_SEAL_BASE (c : Nat) : Nat := 0x30600808 + 0x40 * c
/-- Table 04-11: [15:0] seal slots, 16–16,384; [31:16] signature slots, 8–1,024. -/
def Cc_STRIP (c : Nat) : Nat := 0x3060080C + 0x40 * c
/-- Table 04-11: [4:0] next slot, [10:5] slots occupied. -/
def Cc_DLV_STAT (c : Nat) : Nat := 0x30600810 + 0x40 * c
/-- Table 04-11: TIME_NS[31:0] of the last first read of an agreed copy. -/
def Cc_TAKEN_T (c : Nat) : Nat := 0x30600814 + 0x40 * c
/-- Table 04-11: Signature records consumed. -/
def Cc_SIG_CONS (c : Nat) : Nat := 0x30600818 + 0x40 * c
/-- Table 04-11: Seal records consumed. -/
def Cc_SEAL_CONS (c : Nat) : Nat := 0x3060081C + 0x40 * c
/-- Table 04-11: [3:0] last non-ACCEPTED code (Table 04-4), [31:4] reserved. -/
def Cc_REC_LAST (c : Nat) : Nat := 0x30600820 + 0x40 * c
/-- Table 04-11: Discarded records, saturating. -/
def Cc_REC_ERR (c : Nat) : Nat := 0x30600824 + 0x40 * c
/-- Table 04-11: DUPLICATE records, saturating. -/
def Cc_DUP (c : Nat) : Nat := 0x30600828 + 0x40 * c
/-- Table 04-11: [0] RP0 patrol on, [1] RP1 patrol on. -/
def PAT_CTRL : Nat := 0x30601000
/-- Table 04-11: [12:0] rate per port, MB/s, 0–4,000. -/
def PAT_RATE : Nat := 0x30601004
/-- Table 04-11: [5:0] RP0 region in progress, [13:8] RP1 region in progress. -/
def PAT_STAT : Nat := 0x30601008
/-- Table 04-11: Region configuration. -/
def PATr_CFG (r : Nat) : Nat := 0x30601100 + 0x20 * r
/-- Table 04-11: Accelerator bus address (two words). -/
def PATr_ACC_LO (r : Nat) : Nat := 0x30601104 + 0x20 * r
/-- Table 04-11: Length, 4 KiB blocks; level refuses 0 on an enabled region. -/
def PATr_LEN (r : Nat) : Nat := 0x3060110C + 0x20 * r
/-- Table 04-11: Golden copy address in Hold (two words). -/
def PATr_GOLD_LO (r : Nat) : Nat := 0x30601110 + 0x20 * r
/-- Table 04-11: Age of the last clean pass, ms, saturating at 0xFFFF_FFFE; 0xFFFF_FFFF no pass (R88). -/
def PATr_AGE (r : Nat) : Nat := 0x30601118 + 0x20 * r
/-- Table 04-11: Region status. -/
def PATr_STAT (r : Nat) : Nat := 0x3060111C + 0x20 * r
/-- Table 05-7: Enable and glint period. -/
def MI_CTRL : Nat := 0x30700010
/-- Table 05-7: [10:0] store entries in use, [17:11] queue level, [18] GLINT_BUSY. -/
def MI_STAT : Nat := 0x30700014
/-- Table 05-7: [0] MISMATCH, [1] MISSING, [2] DIGEST, [3] SILENT, [4] ORDER, [5] COMPARATOR. -/
def MI_IRQ_STAT : Nat := 0x30700018
/-- Table 05-7: Enables for MI_IRQ_STAT bits. -/
def MI_IRQ_EN : Nat := 0x3070001C
/-- Table 05-7: Dead-signature differences, saturating. -/
def SILENT_DIV : Nat := 0x30700020
/-- Table 05-7: Barge of the last dead difference. -/
def SILENT_BARGE : Nat := 0x30700024
/-- Table 05-7: [15:0] NET_ID, [31:16] WINDOW of the last dead difference. -/
def SILENT_WIN : Nat := 0x30700028
/-- Table 05-7: Writing 0x0000_0001 clears SILENT_DIV. -/
def SILENT_CLR : Nat := 0x3070002C
/-- Table 05-7: Barge of the last failing twin result. -/
def FAIL_BARGE : Nat := 0x30700030
/-- Table 05-7: [3:0] result code (Table 05-3), [4] dead compare, [15:8] syndrome, [31:16] WINDOW. -/
def FAIL_INFO : Nat := 0x30700034
/-- Table 05-7: [15:0] NET_ID of the last failing twin result. -/
def FAIL_NET : Nat := 0x30700038
/-- Table 05-7: Real compares, wrapping. -/
def CMP_COUNT : Nat := 0x30700040
/-- Table 05-7: Late records (R106), saturating. -/
def LATE_CNT : Nat := 0x30700044
/-- Table 05-7: [15:0] glints completed, wrapping; [23:16] next k; [24] last glint failed. -/
def GLINT_STAT : Nat := 0x30700048
/-- Table 05-7: Seed of the synthetic glint operands. -/
def MI_GLINT_PAT : Nat := 0x3070004C
/-- Table 05-7: Lamp reference table in Hold, [31:0], 16-byte aligned. -/
def MI_LREF_BASE_LO : Nat := 0x30700050
/-- Table 05-7: Lamp reference table, [39:32]. -/
def MI_LREF_BASE_HI : Nat := 0x30700054
/-- Table 05-7: Network entry configuration. -/
def MNETx_CFG (x : Nat) : Nat := 0x30700100 + 0x20 * x
/-- Table 05-7: Window deadline time bound, µs. -/
def MNETx_WDL_T (x : Nat) : Nat := 0x30700104 + 0x20 * x
/-- Table 05-7: Window deadline travel bound, µm; ignored in the TIME domain. -/
def MNETx_WDL_S (x : Nat) : Nat := 0x30700108 + 0x20 * x
/-- Table 05-7: [3:0] last result code, [31:16] failing results, saturating. -/
def MNETx_STAT (x : Nat) : Nat := 0x3070010C + 0x20 * x
/-- Table 05-7: PASS results, wrapping. -/
def MNETx_PASS (x : Nat) : Nat := 0x30700110 + 0x20 * x
/-- Table 06-18: Logical index, state, role. -/
def TL_MAP (t : Nat) : Nat := 0x31000010 + 0x10000 * t
/-- Table 06-18: Program limit, save area, interrupt target, DMA time-out. -/
def TL_CFG (t : Nat) : Nat := 0x31000014 + 0x10000 * t
/-- Table 06-18: Tile status. -/
def TL_STAT (t : Nat) : Nat := 0x31000018 + 0x10000 * t
/-- Table 06-18: [3:0] ENTRY, [4] RESUME, [31:16] TAG. -/
def TL_START (t : Nat) : Nat := 0x3100001C + 0x10000 * t
/-- Table 06-18: [0] ABORT, [1] PAUSE. -/
def TL_STOP (t : Nat) : Nat := 0x31000020 + 0x10000 * t
/-- Table 06-18: Writing 0x0000_0001 resets the tile (R132). -/
def TL_RESET (t : Nat) : Nat := 0x31000024 + 0x10000 * t
/-- Table 06-18: [0] HALT; [1] STEP, reads 0. -/
def TL_DBG (t : Nat) : Nat := 0x31000028 + 0x10000 * t
/-- Table 06-18: Byte offset of the next instruction. -/
def TL_PC (t : Nat) : Nat := 0x3100002C + 0x10000 * t
/-- Table 06-18: Cycles of the current or last run, saturating. -/
def TL_CYCLES (t : Nat) : Nat := 0x31000030 + 0x10000 * t
/-- Table 06-18: [1:0] 0 DONE, 1 FAULT, 2 ABORTED, 3 PAUSED; [5:2] entry; [31:16] TAG. -/
def TL_EXIT (t : Nat) : Nat := 0x31000034 + 0x10000 * t
/-- Table 06-18: Fault bits (Table 06-14). -/
def TL_FAULT (t : Nat) : Nat := 0x31000038 + 0x10000 * t
/-- Table 06-18: PC at the first fault since TL_FAULT was last clear. -/
def TL_FAULT_PC (t : Nat) : Nat := 0x3100003C + 0x10000 * t
/-- Table 06-18: [15:0] SRAM, [31:16] accumulator corrected errors, saturating. -/
def TL_CORR (t : Nat) : Nat := 0x31000040 + 0x10000 * t
/-- Table 06-18: [0] NAN, [1] INF, [2] SAT (R122). -/
def TL_FLAGS (t : Nat) : Nat := 0x31000044 + 0x10000 * t
/-- Table 06-18: [15:0] events for WAITE. -/
def TL_EVENT (t : Nat) : Nat := 0x31000048 + 0x10000 * t
/-- Table 06-18: [15:0] flags set by SIGE. -/
def TL_SIGNAL (t : Nat) : Nat := 0x3100004C + 0x10000 * t
/-- Table 06-18: [0] DONE, [1] FAULT, [31:16] SIGNAL bits. -/
def TL_IRQ_EN (t : Nat) : Nat := 0x31000050 + 0x10000 * t
/-- Table 06-18: [0] DONE, [1] FAULT. -/
def TL_IRQ_STAT (t : Nat) : Nat := 0x31000054 + 0x10000 * t
/-- Table 06-18: [15:0] passes, wrapping; [20:16] first failing column; [21] last run failed. -/
def TL_AKT (t : Nat) : Nat := 0x31000058 + 0x10000 * t
/-- Table 06-18: [0] RETIRED, [15:8] source number that retired the tile. -/
def TL_RETIRE (t : Nat) : Nat := 0x3100005C + 0x10000 * t
/-- Table 06-18: Shared: [7:0] LOGICAL_COUNT, [15:8] ROV; 0x0120 on -A and -M, 0x0118 on -L. -/
def GEOM_TOKEN (t : Nat) : Nat := 0x31000060 + 0x10000 * t
/-- Table 06-18: Shared: tiles T0–T31, set while faulted or retired. -/
def TM_FAULT_MAP_LO (t : Nat) : Nat := 0x31000064 + 0x10000 * t
/-- Table 06-18: Shared: [3:0] tiles T32–T35. -/
def TM_FAULT_MAP_HI (t : Nat) : Nat := 0x31000068 + 0x10000 * t
/-- Table 06-18: Shared: [2:0] spares in STATE SPARE, [13:8] ACTIVE tiles. -/
def TM_SPARE (t : Nat) : Nat := 0x3100006C + 0x10000 * t
/-- Table 07-7: Enable, rerun, read retries. -/
def AU_CTRL : Nat := 0x30F00010
/-- Table 07-7: [14:0] seal store entries in use, [20:15] n_audit, [21] DRBG_BUSY. -/
def AU_STAT : Nat := 0x30F00014
/-- Table 07-7: [0] READY, [1] RESULT, [2] FAIL, [3] COVERAGE. -/
def AU_IRQ_STAT : Nat := 0x30F00018
/-- Table 07-7: Enables for AU_IRQ_STAT bits. -/
def AU_IRQ_EN : Nat := 0x30F0001C
/-- Table 07-7: Reading pops: [5:0] entry, [31] valid. -/
def AU_READYQ : Nat := 0x30F00020
/-- Table 07-7: Barge of the entry last popped. -/
def AU_READYQ_BARGE : Nat := 0x30F00024
/-- Table 07-7: START_NONCE[31:0]. -/
def AU_NONCE_LO : Nat := 0x30F00028
/-- Table 07-7: START_NONCE[63:32]. -/
def AU_NONCE_HI : Nat := 0x30F0002C
/-- Table 07-7: [5:0] entry, [8] instance: 0 choice, 1 projection; instantiates for AU_DRBG_BARGE. -/
def AU_DRBG_CMD : Nat := 0x30F00030
/-- Table 07-7: Barge of the next instantiation. -/
def AU_DRBG_BARGE : Nat := 0x30F00034
/-- Table 07-7: Next output word; the read stalls until it is ready. -/
def AU_DRBG_OUT : Nat := 0x30F00038
/-- Table 07-7: Challenge bytes 0–15; writing AU_CHAL3 queues it (R152). -/
def AU_CHALn (n : Nat) : Nat := 0x30F00040 + 0x4 * n
/-- Table 07-7: [8:0] queue level, 0–256. -/
def AU_CHALQ : Nat := 0x30F00050
/-- Table 07-7: [5:0] entry, [31:16] coverage, 0.01 %. -/
def AU_COV_PUSH : Nat := 0x30F00054
/-- Table 07-7: Barge of the last failing result. -/
def AU_FAIL_BARGE : Nat := 0x30F00058
/-- Table 07-7: [3:0] code (Table 07-2), [9:4] entry, [31:16] SEQ. -/
def AU_FAIL_INFO : Nat := 0x30F0005C
/-- Table 07-7: TCOORD of the last failing challenge. -/
def AU_FAIL_TCOORD : Nat := 0x30F00060
/-- Table 07-7: First differing element or value (R159, R160). -/
def AU_FAIL_ELEM : Nat := 0x30F00064
/-- Table 07-7: Late seals, saturating. -/
def AU_LATE : Nat := 0x30F00068
/-- Table 07-7: Discarded seals (R149), saturating. -/
def AU_XSEAL : Nat := 0x30F0006C
/-- Table 07-7: [5:0] n_audit_full. -/
def AU_TILES : Nat := 0x30F00070
/-- Table 07-7: Entry configuration. -/
def AUn_CFG (n : Nat) : Nat := 0x30F00100 + 0x40 * n
/-- Table 07-7: Audit descriptor in Hold, [31:0]. -/
def AUn_DESC_LO (n : Nat) : Nat := 0x30F00104 + 0x40 * n
/-- Table 07-7: Audit descriptor, [39:32]. -/
def AUn_DESC_HI (n : Nat) : Nat := 0x30F00108 + 0x40 * n
/-- Table 07-7: Seal deadline time bound, µs. -/
def AUn_SEAL_T (n : Nat) : Nat := 0x30F0010C + 0x40 * n
/-- Table 07-7: Seal deadline travel bound, µm; ignored in the TIME domain. -/
def AUn_SEAL_S (n : Nat) : Nat := 0x30F00110 + 0x40 * n
/-- Table 07-7: [15:0] TARGET, [31:16] FLOOR, 0.01 %; level refuses above 10,000 or FLOOR above TARGET. -/
def AUn_GOAL (n : Nat) : Nat := 0x30F00114 + 0x40 * n
/-- Table 07-7: Array cycles per barge at n_audit_full; 0 refused. -/
def AUn_BUDGET (n : Nat) : Nat := 0x30F00118 + 0x40 * n
/-- Table 07-7: [8:0] window, barges, 1–256. -/
def AUn_WIN (n : Nat) : Nat := 0x30F0011C + 0x40 * n
/-- Table 07-7: Predicted coverage, 0.01 % (R166). -/
def AUn_CAP (n : Nat) : Nat := 0x30F00120 + 0x40 * n
/-- Table 07-7: [15:0] mean coverage, [24:16] coverages in window. -/
def AUn_COV (n : Nat) : Nat := 0x30F00124 + 0x40 * n
/-- Table 07-7: [3:0] last result code, [31:16] failing results, saturating. -/
def AUn_STAT (n : Nat) : Nat := 0x30F00128 + 0x40 * n
/-- Table 07-7: PASS results, wrapping. -/
def AUn_PASS (n : Nat) : Nat := 0x30F0012C + 0x40 * n
/-- Table 08-12: Enable, library selection, rerun. -/
def SN_CTRL : Nat := 0x31300010
/-- Table 08-12: [6:0] slots RESIDENT, [7] LOAD_BUSY, [12:8] ACTIVE sentinel tiles. -/
def SN_STAT : Nat := 0x31300014
/-- Table 08-12: [0] LOAD_DONE, [1] SENT_FAIL, [2] ENV_FAIL, [3] LAMP_FAIL, [4] UNAVAIL, [5] ST_DEFER, [6] LIB_DONE. -/
def SN_IRQ_STAT : Nat := 0x31300018
/-- Table 08-12: Enables for SN_IRQ_STAT bits. -/
def SN_IRQ_EN : Nat := 0x3130001C
/-- Table 08-12: Bank A base in Hold, [31:0]. -/
def SN_LIBA_LO : Nat := 0x31300020
/-- Table 08-12: Bank A base, [39:32]. -/
def SN_LIBA_HI : Nat := 0x31300024
/-- Table 08-12: Bank B base in Hold, [31:0]. -/
def SN_LIBB_LO : Nat := 0x31300028
/-- Table 08-12: Bank B base, [39:32]. -/
def SN_LIBB_HI : Nat := 0x3130002C
/-- Table 08-12: [0] bank to verify (R169). -/
def SN_LIB_VERIFY : Nat := 0x31300030
/-- Table 08-12: [3:0] bank A, [7:4] bank B status (Table 08-2); [19:8] models in the last verified bank. -/
def SN_LIB_STAT : Nat := 0x31300034
/-- Table 08-12: Bank size, MiB, 1–16,384. -/
def SN_LIB_SIZE : Nat := 0x31300038
/-- Table 08-12: [11:0] model, [17:12] slot; starts a bring-in (R174). -/
def SN_LOAD : Nat := 0x31300040
/-- Table 08-12: [3:0] code (Table 08-3), [4] BUSY, [10:5] slot, [23:12] model. -/
def SN_LOAD_STAT : Nat := 0x31300044
/-- Table 08-12: [11:0] model shown in SN_MSTATE. -/
def SN_MSEL : Nat := 0x31300048
/-- Table 08-12: [1:0] 0 ABSENT, 1 STORED, 2 RESIDENT, 3 UNAVAILABLE; [9:4] slot; [11:10] variant. -/
def SN_MSTATE : Nat := 0x3130004C
/-- Table 08-12: Barge of the last failing result. -/
def SN_FAIL_BARGE : Nat := 0x31300050
/-- Table 08-12: [3:0] code, [4] 0 sentinel, 1 envelope; [10:5] check or table; [31:16] rule index. -/
def SN_FAIL_INFO : Nat := 0x31300054
/-- Table 08-12: Slice gate and latent-fault interval. -/
def ST_CTRL : Nat := 0x31300060
/-- Table 08-12: [5:0] physical tile (R190). -/
def ST_START : Nat := 0x31300064
/-- Table 08-12: µs to the next SAFETY post; 0xFFFF_FFFF when none. -/
def ST_NEXT_SAFE : Nat := 0x31300068
/-- Table 08-12: Refused slices, saturating. -/
def ST_DEFER : Nat := 0x3130006C
/-- Table 08-12: [5:0] tile of greatest age, [31:16] its age, 10 ms. -/
def ST_OLDEST : Nat := 0x31300070
/-- Table 08-12: [15:0] AKT age, 10 ms units, saturating; [16] no pass since start. -/
def ST_AGEp (p : Nat) : Nat := 0x31300100 + 0x4 * p
/-- Table 08-12: Logical tiles of the group, one bit each. -/
def SGg_TILES (g : Nat) : Nat := 0x31300200 + 0x10 * g
/-- Table 08-12: Group configuration. -/
def SGg_CFG (g : Nat) : Nat := 0x31300204 + 0x10 * g
/-- Table 08-12: [5:0] active count. -/
def SGg_STAT (g : Nat) : Nat := 0x31300208 + 0x10 * g
/-- Table 08-12: [11:0] model, [13:12] 0 EMPTY, 1 LOADING, 2 RESIDENT, 3 RUNNING; [15:14] variant; [18:16] group. -/
def RESr_STAT (r : Nat) : Nat := 0x31300400 + 0x8 * r
/-- Table 08-12: Runs from the slot, wrapping. -/
def RESr_RUNS (r : Nat) : Nat := 0x31300404 + 0x8 * r
/-- Table 08-12: Sentinel check configuration. -/
def SCHKx_CFG (x : Nat) : Nat := 0x31300800 + 0x20 * x
/-- Table 08-12: [11:0] model. -/
def SCHKx_MODEL (x : Nat) : Nat := 0x31300804 + 0x20 * x
/-- Table 08-12: Plausibility rules in Hold, [31:0], 32-byte aligned. -/
def SCHKx_RULES_LO (x : Nat) : Nat := 0x31300808 + 0x20 * x
/-- Table 08-12: Plausibility rules, [39:32]. -/
def SCHKx_RULES_HI (x : Nat) : Nat := 0x3130080C + 0x20 * x
/-- Table 08-12: [3:0] last code (Table 08-5), [31:16] failing results, saturating. -/
def SCHKx_STAT (x : Nat) : Nat := 0x31300810 + 0x20 * x
/-- Table 08-12: PASS results, wrapping. -/
def SCHKx_PASS (x : Nat) : Nat := 0x31300814 + 0x20 * x
/-- Table 08-12: Envelope table configuration. -/
def ENVx_CFG (x : Nat) : Nat := 0x31301000 + 0x20 * x
/-- Table 08-12: Envelope rules in Hold, [31:0], 32-byte aligned. -/
def ENVx_TAB_LO (x : Nat) : Nat := 0x31301004 + 0x20 * x
/-- Table 08-12: Envelope rules, [39:32]. -/
def ENVx_TAB_HI (x : Nat) : Nat := 0x31301008 + 0x20 * x
/-- Table 08-12: [3:0] last code (Table 08-7), [31:16] failing results, saturating. -/
def ENVx_STAT (x : Nat) : Nat := 0x3130100C + 0x20 * x
/-- Table 08-12: PASS results, wrapping. -/
def ENVx_PASS (x : Nat) : Nat := 0x31301010 + 0x20 * x
/-- Table 08-12: Lamp configuration. -/
def LMPl_CFG (l : Nat) : Nat := 0x31304000 + 0x40 * l
/-- Table 08-12: Lamp input in Hold (two words). -/
def LMPl_IN_LO (l : Nat) : Nat := 0x31304004 + 0x40 * l
/-- Table 08-12: Input length, bytes. -/
def LMPl_IN_LEN (l : Nat) : Nat := 0x3130400C + 0x40 * l
/-- Table 08-12: CRC-64 of the input without folding (two words). -/
def LMPl_DIG_LO (l : Nat) : Nat := 0x31304010 + 0x40 * l
/-- Table 08-12: Maximum interval, µs, 1–2,000,000. -/
def LMPl_MAXI_T (l : Nat) : Nat := 0x31304018 + 0x40 * l
/-- Table 08-12: Maximum interval, µm, 1–2,000,000,000. -/
def LMPl_MAXI_S (l : Nat) : Nat := 0x3130401C + 0x40 * l
/-- Table 08-12: Lamp deadline from release, µs; 0 refused. -/
def LMPl_DL_T (l : Nat) : Nat := 0x31304020 + 0x40 * l
/-- Table 08-12: Origin time stamp of the last PASS. -/
def LMPl_LAST_T (l : Nat) : Nat := 0x31304024 + 0x40 * l
/-- Table 08-12: Origin travel stamp of the last PASS. -/
def LMPl_LAST_S (l : Nat) : Nat := 0x31304028 + 0x40 * l
/-- Table 08-12: Lamp status. -/
def LMPl_STAT (l : Nat) : Nat := 0x3130402C + 0x40 * l
/-- Table 08-12: [11:0] model of the view check. -/
def LMPl_SVIEW (l : Nat) : Nat := 0x31304030 + 0x40 * l
/-- Table 08-12: Reference CRC-64 of the view (two words). -/
def LMPl_VREF_LO (l : Nat) : Nat := 0x31304034 + 0x40 * l
/-- Table 09-11: Enable, pending cap, ports. -/
def LC_CTRL : Nat := 0x30800010
/-- Table 09-11: [0] OPEN, [1] SAFE_N level, [6:2] barges PENDING, [16:7] in-flight entries. -/
def LC_STAT : Nat := 0x30800014
/-- Table 09-11: [0] FINAL, [1] REVOKE, [2] LATE, [3] OVERFLOW. -/
def LC_IRQ_STAT : Nat := 0x30800018
/-- Table 09-11: Enables for LC_IRQ_STAT bits. -/
def LC_IRQ_EN : Nat := 0x3080001C
/-- Table 09-11: RSEQ of the next record. -/
def LC_RSEQ : Nat := 0x30800020
/-- Table 09-11: NSEQ of the next notice. -/
def LC_NSEQ : Nat := 0x30800024
/-- Table 09-11: REVOKED records, saturating. -/
def LC_REVOKES : Nat := 0x30800028
/-- Table 09-11: Verdicts formed at the deadline, saturating. -/
def LC_LATE : Nat := 0x3080002C
/-- Table 09-11: Barges refused PENDING by the cap, saturating. -/
def LC_PEND_FULL : Nat := 0x30800030
/-- Table 09-11: Network entry. -/
def NETx_CFG (x : Nat) : Nat := 0x30800100 + 0x20 * x
/-- Table 09-11: Verdict deadline time bound, µs. -/
def NETx_DL_T (x : Nat) : Nat := 0x30800104 + 0x20 * x
/-- Table 09-11: Verdict deadline travel bound, µm. -/
def NETx_DL_S (x : Nat) : Nat := 0x30800108 + 0x20 * x
/-- Table 09-11: [3:0] last final code, [31:16] non-PASS finals, saturating. -/
def NETx_STAT (x : Nat) : Nat := 0x3080010C + 0x20 * x
/-- Table 09-11: PASS finals, wrapping. -/
def NETx_PASS (x : Nat) : Nat := 0x30800110 + 0x20 * x
/-- Table 09-11: VALID pin configuration. -/
def VALv_CFG (v : Nat) : Nat := 0x30800900 + 0x10 * v
/-- Table 09-11: [0] level, [1] stale, [31:16] barge[15:0] of the newest record. -/
def VALv_STAT (v : Nat) : Nat := 0x30800904 + 0x10 * v
/-- Table 09-11: [0] EN. -/
def SPI_CFG : Nat := 0x30801000
/-- Table 09-11: [10:0] records queued, [15:11] notices queued. -/
def SPI_STAT : Nat := 0x30801004
/-- Table 09-11: Controller configuration. -/
def CANc_CFG (c : Nat) : Nat := 0x30801100 + 0x40 * c
/-- Table 09-11: Nominal bit timing: [7:0] prescaler − 1, [15:8] TSEG1 − 1, [22:16] TSEG2 − 1, [29:23] SJW − 1. -/
def CANc_NBT (c : Nat) : Nat := 0x30801104 + 0x40 * c
/-- Table 09-11: Data bit timing, fields as CANc_NBT; [31] TDC_EN. -/
def CANc_DBT (c : Nat) : Nat := 0x30801108 + 0x40 * c
/-- Table 09-11: [28:0] BASE_ID, [29] extended identifiers. -/
def CANc_ID (c : Nat) : Nat := 0x3080110C + 0x40 * c
/-- Table 09-11: [28:0] LEGACY_ID. -/
def CANc_LEG_ID (c : Nat) : Nat := 0x30801110 + 0x40 * c
/-- Table 09-11: Transmit time-out, µs, 100–65,535. -/
def CANc_TX_TO (c : Nat) : Nat := 0x30801114 + 0x40 * c
/-- Table 09-11: [7:0] TEC, [15:8] REC, [16] error passive, [17] bus-off, [26:18] queue level. -/
def CANc_STAT (c : Nat) : Nat := 0x30801118 + 0x40 * c
/-- Table 09-11: Frames dropped, saturating. -/
def CANc_LOST (c : Nat) : Nat := 0x3080111C + 0x40 * c
/-- Table 11-9: Interrupt target, PWRCUT_N width, glint period. -/
def BC_CTRL : Nat := 0x30000010
/-- Table 11-9: [0] SAFE, [1] C4_TAKEN, [2] PATH, [3] GLINT_BUSY, [4] RET_FULL, [5] START_GLINT_OK. -/
def BC_STAT : Nat := 0x30000014
/-- Table 11-9: [0] EVENT, [1] SEVERE, [2] RETIRE, [3] GLINT_FAIL, [4] CONSEQ. -/
def BC_IRQ_STAT : Nat := 0x30000018
/-- Table 11-9: Enables for BC_IRQ_STAT bits. -/
def BC_IRQ_EN : Nat := 0x3000001C
/-- Table 11-9: Counted events, one bit per source (R226). -/
def ERR_STATn (n : Nat) : Nat := 0x30000020 + 0x4 * n
/-- Table 11-9: Sources that reached severity. -/
def SEVERE_STATn (n : Nat) : Nat := 0x30000030 + 0x4 * n
/-- Table 11-9: Masked events (R236). -/
def CONSEQ_STATn (n : Nat) : Nat := 0x30000040 + 0x4 * n
/-- Table 11-9: [6:0] first source counted while ERR_STAT0–3 were all clear, [31] valid. -/
def BC_FIRST : Nat := 0x30000050
/-- Table 11-9: [6:0] source, [13:8] channel, [31:16] syndrome. -/
def BC_LAST_EVT : Nat := 0x30000054
/-- Table 11-9: TIME_NS[31:0] of the last counted event. -/
def BC_EVT_T : Nat := 0x30000058
/-- Table 11-9: [7:0] source, 0xFF for R233; [10:8] class; [31] valid. -/
def BC_SAFE_CAUSE : Nat := 0x30000060
/-- Table 11-9: TIME_NS[31:0] of the first C3 or C4 of the start. -/
def BC_SAFE_T : Nat := 0x30000064
/-- Table 11-9: TRAVEL[31:0] of the same. -/
def BC_SAFE_S : Nat := 0x30000068
/-- Table 11-9: [6:0] source, [13:8] channel (R236). -/
def BC_MASK_OPEN : Nat := 0x30000070
/-- Table 11-9: [3:0] checker row of Table 11-5, [9:4] unit, [10] SEL (R241, R443, Table 11-11). -/
def BC_GLINT_REQ : Nat := 0x30000074
/-- Table 11-9: [15:0] glints, wrapping; [18:16] last failing result (Table 11-6); [25:19] its source. -/
def BC_GLINT_STAT : Nat := 0x30000078
/-- Table 11-9: [6:0] source, [13:8] channel, [31:16] key 0xF0CE; SERVICE only. -/
def BC_FORCE : Nat := 0x3000007C
/-- Table 11-9: [6:0] entries in use. -/
def BC_RET_CNT : Nat := 0x30000080
/-- Table 11-9: [5:0] entry, [31:16] key 0xC1EA; SERVICE only (R231). -/
def BC_RET_CLR : Nat := 0x30000084
/-- Table 11-9: Starts of the companion, wrapping. -/
def BC_STARTS : Nat := 0x30000088
/-- Table 11-9: Class, threshold, window unit. -/
def POLs_CFG (s : Nat) : Nat := 0x30001000 + 0x20 * s
/-- Table 11-9: [30:0] window W, µs or µm, 0–2,000,000,000; 0 only with N = 1 (R228, R237). -/
def POLs_W (s : Nat) : Nat := 0x30001004 + 0x20 * s
/-- Table 11-9: Consequence mask, sources 0–127 (four words). -/
def POLs_MASKm (s m : Nat) : Nat := 0x30001008 + 0x20 * s + 0x4 * m
/-- Table 11-9: [6:0] masking interval, µs, 0–100. -/
def POLs_MINT (s : Nat) : Nat := 0x30001018 + 0x20 * s
/-- Table 11-9: [7:0] count of the channel last counted, [13:8] that channel, [31] severe. -/
def POLs_CNT (s : Nat) : Nat := 0x3000101C + 0x20 * s
/-- Table 11-9: [6:0] source, [12:7] channel, [13] ACTIVE, [31] valid. -/
def BC_RETi_INFO (i : Nat) : Nat := 0x30003000 + 0x10 * i
/-- Table 11-9: BC_STARTS at retirement. -/
def BC_RETi_START (i : Nat) : Nat := 0x30003004 + 0x10 * i
/-- Table 11-9: TIME_NS[31:0] at retirement. -/
def BC_RETi_T (i : Nat) : Nat := 0x30003008 + 0x10 * i
/-- Table 12-6: [6:0] WDO_W, ms, 1–100; level refuses 0; factory default 10. -/
def WD_CTRL : Nat := 0x30100010
/-- Table 12-6: [0] WDO_N level, [1] pulse active, [7:4] watchdogs frozen. -/
def WD_STAT : Nat := 0x30100014
/-- Table 12-6: [3:0] failure per watchdog, [4] UNDER, [5] OVER, [6] SEQ. -/
def WD_IRQ_STAT : Nat := 0x30100018
/-- Table 12-6: Enables for WD_IRQ_STAT bits. -/
def WD_IRQ_EN : Nat := 0x3010001C
/-- Table 12-6: [15:0] watchdog domain resets, saturating. -/
def WD_RST_CNT : Nat := 0x30100020
/-- Table 12-6: [1:0] watchdog, [4:2] kind (Table 12-2), [31] valid. -/
def WD_RST_CAUSE : Nat := 0x30100024
/-- Table 12-6: BC_STARTS at the last watchdog reset. -/
def WD_RST_START : Nat := 0x30100028
/-- Table 12-6: [31:16] key 0x3C3C; SERVICE only (R250). -/
def WD_RST_CLR : Nat := 0x3010002C
/-- Table 12-6: Watchdog configuration. -/
def WDTw_CFG (w : Nat) : Nat := 0x30100100 + 0x20 * w
/-- Table 12-6: [23:0] window opening count, ticks. -/
def WDTw_OPEN (w : Nat) : Nat := 0x30100104 + 0x20 * w
/-- Table 12-6: [23:0] window closing count, ticks. -/
def WDTw_CLOSE (w : Nat) : Nat := 0x30100108 + 0x20 * w
/-- Table 12-6: [15:0] key value (R246, R247). -/
def WDTw_KEY (w : Nat) : Nat := 0x3010010C + 0x20 * w
/-- Table 12-6: [23:0] count, [24] armed, [25] frozen. -/
def WDTw_COUNT (w : Nat) : Nat := 0x30100110 + 0x20 * w
/-- Table 12-6: [2:0] LAST kind, [15:8] failures, saturating, [31:16] valid services, wrapping. -/
def WDTw_STAT (w : Nat) : Nat := 0x30100114 + 0x20 * w
/-- Table 12-6: [5:0] entity, [15:8] checkpoint value (R253). -/
def TS_CHECKIN : Nat := 0x30100200
/-- Table 12-6: [5:0] last failing entity, [7:6] 1 UNDER, 2 OVER, 3 SEQ, [8] STRAY. -/
def TS_STAT : Nat := 0x30100204
/-- Table 12-6: Entity configuration. -/
def TSe_CFG (e : Nat) : Nat := 0x30101000 + 0x20 * e
/-- Table 12-6: [23:0] cycle, µs. -/
def TSe_PER (e : Nat) : Nat := 0x30101004 + 0x20 * e
/-- Table 12-6: Checkpoints 0–3, one byte each, from [7:0]. -/
def TSe_SEQ_LO (e : Nat) : Nat := 0x30101008 + 0x20 * e
/-- Table 12-6: Checkpoints 4–7, one byte each, from [7:0]. -/
def TSe_SEQ_HI (e : Nat) : Nat := 0x3010100C + 0x20 * e
/-- Table 12-6: [15:0] NET_ID, [17:16] copy context, [18] PAIR: 0 K0, 1 K1. -/
def TSe_BIND (e : Nat) : Nat := 0x30101010 + 0x20 * e
/-- Table 12-6: [7:0] count this cycle, [10:8] expected position, [11] frozen, [31:24] sequence failures, saturating. -/
def TSe_STAT (e : Nat) : Nat := 0x30101014 + 0x20 * e
/-- Table 12-6: [15:0] under-alive, [31:16] over-alive, both saturating. -/
def TSe_FAILS (e : Nat) : Nat := 0x30101018 + 0x20 * e
/-- Table 13-8: [0] EN, [1] SIN test pulses on. -/
def SIO_CTRL : Nat := 0x30300010
/-- Table 13-8: [3:0] channels RELEASED, [7:4] channels LOCKED, [8] pulse active, [9] LO_ACK level, [10] loop good, [11] BRK_VS in window. -/
def SIO_STAT : Nat := 0x30300014
/-- Table 13-8: [0] LOCKOUT, [1] SIN_CHANGE, [2] TEST_DONE, [3] LO_REJECT. -/
def SIO_IRQ_STAT : Nat := 0x30300018
/-- Table 13-8: Enables for SIO_IRQ_STAT bits. -/
def SIO_IRQ_EN : Nat := 0x3030001C
/-- Table 13-8: [7:0] pattern at start, [15:8] FLOAT pins, [16] loop good at start, [17] MATCH. -/
def SEAL_READ : Nat := 0x30300020
/-- Table 13-8: [7:0] expected pattern. -/
def SEAL_EXPECT : Nat := 0x30300024
/-- Table 13-8: [15:0] VS_MIN, [31:16] VS_MAX, 10 mV units; level refuses VS_MIN ≥ VS_MAX. -/
def BRK_VS_CFG : Nat := 0x30300028
/-- Table 13-8: [15:0] brake supply, 10 mV units. -/
def BRK_VS : Nat := 0x3030002C
/-- Table 13-8: [15:0] last press, ms, saturating; [16] accepted; [31:24] rejected presses, saturating. -/
def LO_STAT : Nat := 0x30300030
/-- Table 13-8: Channel configuration. -/
def BRKn_CFG (n : Nat) : Nat := 0x30300100 + 0x40 * n
/-- Table 13-8: [0] RELEASE (R264, R265). -/
def BRKn_REQ (n : Nat) : Nat := 0x30300104 + 0x40 * n
/-- Table 13-8: Settle, decay and test-pulse times. -/
def BRKn_TIME (n : Nat) : Nat := 0x30300108 + 0x40 * n
/-- Table 13-8: [9:0] I_MIN, [19:10] I_MAX, [29:20] I_OFF, mV; level refuses I_OFF ≥ I_MIN or I_MIN > I_MAX. -/
def BRKn_ILIM (n : Nat) : Nat := 0x3030010C + 0x40 * n
/-- Table 13-8: Channel status. -/
def BRKn_STAT (n : Nat) : Nat := 0x30300110 + 0x40 * n
/-- Table 13-8: [9:0] shunt voltage, mV. -/
def BRKn_ISNS (n : Nat) : Nat := 0x30300114 + 0x40 * n
/-- Table 13-8: ms since the last passed test, saturating. -/
def BRKn_TEST_AGE (n : Nat) : Nat := 0x30300118 + 0x40 * n
/-- Table 13-8: [0] LOCKED, [7:4] CAUSE (Table 13-4), [15:8] BC_STARTS[7:0] at lock-out. -/
def BRKn_LOCK (n : Nat) : Nat := 0x3030011C + 0x40 * n
/-- Table 13-8: [15:0] passed, wrapping; [31:16] failed, saturating. -/
def BRKn_TESTS (n : Nat) : Nat := 0x30300120 + 0x40 * n
/-- Table 13-8: Safe input configuration. -/
def SINi_CFG (i : Nat) : Nat := 0x30300400 + 0x10 * i
/-- Table 13-8: [1:0] STATE (Table 13-5), [2] A, [3] B, [4] CROSS, [31:16] faults, saturating. -/
def SINi_STAT (i : Nat) : Nat := 0x30300404 + 0x10 * i
/-- Table 14-15: Commit and rollback control. -/
def SE_CTRL : Nat := 0x30900010
/-- Table 14-15: Seal status. -/
def SE_STAT : Nat := 0x30900014
/-- Table 14-15: [0] COMMIT_DONE, [1] ATT_DONE, [2] GOLD_DONE, [3] LK_DONE. -/
def SE_IRQ_STAT : Nat := 0x30900018
/-- Table 14-15: Enables for SE_IRQ_STAT bits. -/
def SE_IRQ_EN : Nat := 0x3090001C
/-- Table 14-15: Start report. -/
def SE_START_REP : Nat := 0x30900020
/-- Table 14-15: DEVICE_ID[31:0]. -/
def DEVICE_ID_LO : Nat := 0x30900024
/-- Table 14-15: DEVICE_ID[63:32]. -/
def DEVICE_ID_HI : Nat := 0x30900028
/-- Table 14-15: GEN of the image in use; 0 under defaults. -/
def IMAGE_GEN : Nat := 0x3090002C
/-- Table 14-15: [5:0] SEC_VER, [13:8] fused minimum. -/
def IMAGE_VER : Nat := 0x30900030
/-- Table 14-15: LC_NONCE[31:0]. -/
def LC_NONCE_LO : Nat := 0x30900034
/-- Table 14-15: LC_NONCE[63:32]. -/
def LC_NONCE_HI : Nat := 0x30900038
/-- Table 14-15: [2:0] target, [31:16] key 0x1C5E (R288). -/
def LC_REQ : Nat := 0x3090003C
/-- Table 14-15: [3:0] code (Table 14-4). -/
def LC_STAT_SEAL : Nat := 0x30900040
/-- Table 14-15: [0] mesh, [1] voltage, [2] clock, [15:8] count, saturating. -/
def TAMPER_STAT : Nat := 0x30900044
/-- Table 14-15: [15:0] wipes, saturating; [17:16] last cause: 1 tamper, 2 life cycle. -/
def WIPE_CNT : Nat := 0x30900048
/-- Table 14-15: Device public key, bytes 0–63. -/
def SE_DEVPUBn (n : Nat) : Nat := 0x30900080 + 0x4 * n
/-- Table 14-15: Image in Hold, [31:0]. -/
def SE_COMMIT_SRC_LO : Nat := 0x309000C0
/-- Table 14-15: Image in Hold, [39:32]. -/
def SE_COMMIT_SRC_HI : Nat := 0x309000C4
/-- Table 14-15: Image length, bytes. -/
def SE_COMMIT_LEN : Nat := 0x309000C8
/-- Table 14-15: [0] START, [1] ABORT. -/
def SE_COMMIT_CMD : Nat := 0x309000CC
/-- Table 14-15: Commit status. -/
def SE_COMMIT_STAT : Nat := 0x309000D0
/-- Table 14-15: Token bytes 0–127. -/
def SE_TOKENn (n : Nat) : Nat := 0x30900100 + 0x4 * n
/-- Table 14-15: Challenge bytes 0–31. -/
def SE_ATT_CHALn (n : Nat) : Nat := 0x30900200 + 0x4 * n
/-- Table 14-15: [0] START (R302). -/
def SE_ATT_CMD : Nat := 0x30900220
/-- Table 14-15: [1:0] 0 IDLE, 1 BUSY, 2 DONE, 3 REFUSED. -/
def SE_ATT_STAT : Nat := 0x30900224
/-- Table 14-15: [5:0] golden region to verify (R294). -/
def SE_GOLD_REQ : Nat := 0x30900280
/-- Table 14-15: Verified regions 0–31. -/
def SE_GOLD_OK_LO : Nat := 0x30900284
/-- Table 14-15: Verified regions 32–63. -/
def SE_GOLD_OK_HI : Nat := 0x30900288
/-- Table 14-15: Report bytes 0–255. -/
def SE_ATT_OUTn (n : Nat) : Nat := 0x30900400 + 0x4 * n
/-- Table 14-15: [2:0] 1 BEGIN, 2 LEVEL, 3 OPEN, 4 DISCARD. -/
def LK_CMD : Nat := 0x30900600
/-- Table 14-15: Lock-cycle status. -/
def LK_STAT : Nat := 0x30900604
/-- Table 14-15: First register of the conflict. -/
def LK_CONF_ADDR1 : Nat := 0x30900608
/-- Table 14-15: Other register of a relation, or 0. -/
def LK_CONF_ADDR2 : Nat := 0x3090060C
/-- Table 14-15: [15:0] stage lifetime, ms, 100–60,000. -/
def LK_HOLD : Nat := 0x30900610
/-- Table 14-15: TIME_NS[31:0] of the last open. -/
def LK_OPEN_T : Nat := 0x30900614
/-- Table 15-10: [0] EN, [1] ADC0 free-run, [2] ADC1 free-run. -/
def WR_CTRL : Nat := 0x30A00010
/-- Table 15-10: [0] READY, [4:1] start step, [12:5] own rails in window. -/
def WR_STAT : Nat := 0x30A00014
/-- Table 15-10: [0] SEQ_DONE, [1] SEQ_FAIL, [2] RAIL, [3] PMB_DONE, [4] PMB_ERR. -/
def WR_IRQ_STAT : Nat := 0x30A00018
/-- Table 15-10: Enables for WR_IRQ_STAT bits. -/
def WR_IRQ_EN : Nat := 0x30A0001C
/-- Table 15-10: [3:0] CAUSE (Table 15-7), [7:4] previous cause, [8] HOLD_KEPT. -/
def RST_CAUSE : Nat := 0x30A00020
/-- Table 15-10: Writing 0x5E7A_0001 resets the companion (R328). -/
def RST_REQ : Nat := 0x30A00024
/-- Table 15-10: [3:0] STEP (Table 15-1), [7:4] FAIL (Table 15-3), [31:16] TIME, ms. -/
def START_STAT : Nat := 0x30A00028
/-- Table 15-10: Excluded time, ms (R310). -/
def START_EXCL : Nat := 0x30A0002C
/-- Table 15-10: [15:0] ms, 1,000–60,000; factory default 10,000. -/
def START_TMO : Nat := 0x30A00030
/-- Table 15-10: [7:0] below window, [15:8] above window, one bit per OWN monitor. -/
def OWN_STAT : Nat := 0x30A00034
/-- Table 15-10: [2:0] monitor, [3] above, [31] valid; last ES120 cause. -/
def OWN_LAST : Nat := 0x30A00038
/-- Table 15-10: [15:0] hottest reading, 0.1 °C, signed; [18:16] sensor. -/
def TJ_STAT : Nat := 0x30A00040
/-- Table 15-10: [15:0] limit, 0.1 °C, signed (R317). -/
def TJ_LIMIT : Nat := 0x30A00044
/-- Table 15-10: Channel configuration. -/
def ACHc_CFG (c : Nat) : Nat := 0x30A00100 + 0x10 * c
/-- Table 15-10: [15:0] LO, [31:16] HI, mV; level refuses LO ≥ HI. -/
def ACHc_WIN (c : Nat) : Nat := 0x30A00104 + 0x10 * c
/-- Table 15-10: [15:0] OFF_MAX, mV. -/
def ACHc_OFFMAX (c : Nat) : Nat := 0x30A00108 + 0x10 * c
/-- Table 15-10: [15:0] rail, mV; [16] in window; [17] armed; [31:20] last code. -/
def ACHc_VAL (c : Nat) : Nat := 0x30A0010C + 0x10 * c
/-- Table 15-10: [15:0] channels converted once (R318). -/
def ADC_TRIG : Nat := 0x30A00200
/-- Table 15-10: Step configuration. -/
def SEQs_CFG (s : Nat) : Nat := 0x30A00300 + 0x8 * s
/-- Table 15-10: [23:0] delay after the step, µs. -/
def SEQs_DLY (s : Nat) : Nat := 0x30A00304 + 0x8 * s
/-- Table 15-10: Down-sequence timing. -/
def SEQ_CTRL : Nat := 0x30A00380
/-- Table 15-10: [3:0] step, [6:4] 0 OFF, 1 UP, 2 ON, 3 DOWN, 4 FAILED; [11:8] FAIL_STEP; [15:12] FAIL_CODE: 1 timeout, 2 PMBus, 3 PRECHK; [23:16] ACC_EN levels. -/
def SEQ_STAT : Nat := 0x30A00384
/-- Table 15-10: [0] UP, [1] DOWN (R319, R320). -/
def SEQ_CMD : Nat := 0x30A00388
/-- Table 15-10: [1:0] rate: 0 100 kHz, 1 400 kHz, 2 1 MHz; 3 refused; [2] PEC. -/
def PMBb_CFG (b : Nat) : Nat := 0x30A00400 + 0x100 * b
/-- Table 15-10: [6:0] address, [15:8] command, [17:16] 0 write byte, 1 write word, 2 read byte, 3 read word; writing starts. -/
def PMBb_XFER (b : Nat) : Nat := 0x30A00404 + 0x100 * b
/-- Table 15-10: [15:0] write data or read result. -/
def PMBb_DATA (b : Nat) : Nat := 0x30A00408 + 0x100 * b
/-- Table 15-10: [0] BUSY, [3:1] 0 OK, 1 NACK, 2 PEC, 3 TIMEOUT, 4 ARBITRATION. -/
def PMBb_STAT (b : Nat) : Nat := 0x30A0040C + 0x100 * b
/-- Table 15-10: Preset descriptor, fields as PMBb_XFER. -/
def PMBb_PREt_XFER (b t : Nat) : Nat := 0x30A00410 + 0x100 * b + 0x8 * t
/-- Table 15-10: [15:0] preset write data. -/
def PMBb_PREt_DATA (b t : Nat) : Nat := 0x30A00414 + 0x100 * b + 0x8 * t
/-- Table 16-8: [0] EN, [1] SCRUB_EN. -/
def HD_CTRL : Nat := 0x30D00010
/-- Table 16-8: [0] CAP (Table 16-1), [1] TRAINED, [2] FILLED, [3] HOLD_KEPT. -/
def HD_STAT : Nat := 0x30D00014
/-- Table 16-8: [0] UNCORR, [1] REFUSED, [2] SHORT, [3] SCRUB_PASS, [4] TEMP. -/
def HD_IRQ_STAT : Nat := 0x30D00018
/-- Table 16-8: Enables for HD_IRQ_STAT bits. -/
def HD_IRQ_EN : Nat := 0x30D0001C
/-- Table 16-8: Usable capacity, MiB. -/
def HD_USABLE : Nat := 0x30D00020
/-- Table 16-8: Corrected words, saturating. -/
def HD_CORR : Nat := 0x30D00024
/-- Table 16-8: Last uncorrectable address, [31:0]. -/
def HD_UNC_ADDR_LO : Nat := 0x30D00028
/-- Table 16-8: [7:0] address [39:32]. -/
def HD_UNC_ADDR_HI : Nat := 0x30D0002C
/-- Table 16-8: [10:0] minutes, 10–1,440. -/
def HD_SCRUB_PER : Nat := 0x30D00030
/-- Table 16-8: [15:0] minutes since last pass, saturating; [31:16] passes, wrapping. -/
def HD_SCRUB_STAT : Nat := 0x30D00034
/-- Table 16-8: [4:0] worst refresh-rate indication, [11:8] its channel. -/
def HD_TEMP : Nat := 0x30D00038
/-- Table 16-8: Arbitration weights. -/
def HD_QOS : Nat := 0x30D0003C
/-- Table 16-8: Recorder region, [31:0], 1 MiB aligned. -/
def HD_REC_BASE_LO : Nat := 0x30D00040
/-- Table 16-8: Recorder region, [39:32]. -/
def HD_REC_BASE_HI : Nat := 0x30D00044
/-- Table 16-8: [14:0] MiB, 17–16,384. -/
def HD_REC_SIZE : Nat := 0x30D00048
/-- Table 16-8: [10:0] log, MiB, 16–1,024. -/
def HD_REC_LOG : Nat := 0x30D0004C
/-- Table 16-8: Next log slot. -/
def HD_REC_HEAD : Nat := 0x30D00050
/-- Table 16-8: [15:0] log span, ms, saturating; [31:16] input span, 100 ms, saturating. -/
def HD_REC_SPAN : Nat := 0x30D00054
/-- Table 16-8: Slots lost, saturating. -/
def HD_REC_LOST : Nat := 0x30D00058
/-- Table 16-8: [0] SHORT, [1] INPUT_SHORT (R338). -/
def HD_REC_STAT : Nat := 0x30D0005C
/-- Table 16-8: Plan entry bytes 0–63; writing PUT15 appends (R337). -/
def HD_REC_PUTn (n : Nat) : Nat := 0x30D00060 + 0x4 * n
/-- Table 16-8: [0] library bank A, [1] library bank B, [2] golden region, [3] recorder. -/
def HD_WP_STAT : Nat := 0x30D000A0
/-- Table 16-8: [0] trained, [1] self-refresh, [15:8] calibration failures, saturating, [31:16] corrected words, saturating. -/
def HD_CHc_STAT (c : Nat) : Nat := 0x30D00100 + 0x10 * c
/-- Table 16-10: [0] EN. -/
def BS_CTRL : Nat := 0x30E00010
/-- Table 16-10: [6:0] hand-overs pending, [7] MARCH_BUSY, [8] WIPE_BUSY. -/
def BS_STAT : Nat := 0x30E00014
/-- Table 16-10: [0] HANDOVER_DONE, [1] REFUSED, [2] MARCH_DONE, [3] MARCH_FAIL, [4] WIPE_DONE. -/
def BS_IRQ_STAT : Nat := 0x30E00018
/-- Table 16-10: Enables for BS_IRQ_STAT bits. -/
def BS_IRQ_EN : Nat := 0x30E0001C
/-- Table 16-10: CONTENTS_LOST, banks 0–31. -/
def BS_LOST_LO : Nat := 0x30E00020
/-- Table 16-10: CONTENTS_LOST, banks 32–63. -/
def BS_LOST_HI : Nat := 0x30E00024
/-- Table 16-10: [5:0] bank whose mark is cleared. -/
def BS_LOST_CLR : Nat := 0x30E00028
/-- Table 16-10: [5:0] bank, [31] IN_PROGRESS (R349). -/
def BS_MARCH_RUN : Nat := 0x30E0002C
/-- Table 16-10: [5:0] bank, [8] PRESERVE, [9] START (R348). -/
def BS_MARCH_CMD : Nat := 0x30E00030
/-- Table 16-10: [3:0] RESULT (Table 16-5), [9:4] bank, [30:16] first failing word. -/
def BS_MARCH_STAT : Nat := 0x30E00034
/-- Table 16-10: [15:0] Basin, [31:16] Vault corrected words, saturating. -/
def BS_CORR : Nat := 0x30E00038
/-- Table 16-10: Address [31:0] of the last uncorrectable Basin or Vault word. -/
def BS_UNC_ADDR : Nat := 0x30E0003C
/-- Table 16-10: [7:0] parts verified at the last wipe, [8] WIPE_BUSY. -/
def VT_STAT : Nat := 0x30E00040
/-- Table 16-10: Initial owner and preserve mark. -/
def BANKb_CFG (b : Nat) : Nat := 0x30E00100 + 0x10 * b
/-- Table 16-10: Hand-over request (R341). -/
def BANKb_OWN (b : Nat) : Nat := 0x30E00104 + 0x10 * b
/-- Table 16-10: Bank status. -/
def BANKb_STAT (b : Nat) : Nat := 0x30E00108 + 0x10 * b
/-- Table 17-5: [0] EN. -/
def TLY_CTRL : Nat := 0x30400010
/-- Table 17-5: Two bits per unit from [1:0]: 0 none, 1 K0, 2 K1, 3 Harbour. -/
def TLY_ASSIGN : Nat := 0x30400014
/-- Table 17-5: [15:0] BUSY per unit, [19:16] unit of the next glint. -/
def TLY_STAT : Nat := 0x30400018
/-- Table 17-5: [3:0] unit of the last ES80, ES81 or ES83; [7:4] 1 engines, 2 parity, 3 access. -/
def TLY_ERR : Nat := 0x3040001C
/-- Table 17-5: Glints completed, wrapping. -/
def TLY_GLINTS : Nat := 0x30400020
/-- Table 17-5: [2:0] POLY (Table 17-1), [5:4] MODE: 0 PLAIN, 1 NATIVE, 2 COMPAT, 3 refused. -/
def TLYu_CFG (u : Nat) : Nat := 0x30400100 + 0x40 * u
/-- Table 17-5: Begins a computation; [31:0] fold value in NATIVE. -/
def TLYu_START (u : Nat) : Nat := 0x30400104 + 0x40 * u
/-- Table 17-5: Feeds [7:0]. -/
def TLYu_IN8 (u : Nat) : Nat := 0x30400108 + 0x40 * u
/-- Table 17-5: Feeds [15:0]. -/
def TLYu_IN16 (u : Nat) : Nat := 0x3040010C + 0x40 * u
/-- Table 17-5: Feeds [31:0]. -/
def TLYu_IN32 (u : Nat) : Nat := 0x30400110 + 0x40 * u
/-- Table 17-5: Result [31:0]; latches _HI (R358). -/
def TLYu_RES_LO (u : Nat) : Nat := 0x30400114 + 0x40 * u
/-- Table 17-5: Result [63:32]. -/
def TLYu_RES_HI (u : Nat) : Nat := 0x30400118 + 0x40 * u
/-- Table 17-5: [0] BUSY, [1] OPEN, [31:8] bytes fed, saturating. -/
def TLYu_STAT (u : Nat) : Nat := 0x3040011C + 0x40 * u
/-- Table 17-5: [3:0] next counter; reading advances (R362). -/
def TLYu_ALIVE (u : Nat) : Nat := 0x30400120 + 0x40 * u
/-- Table 17-5: [3:0] received counter. -/
def TLYu_ALIVE_CHK (u : Nat) : Nat := 0x30400124 + 0x40 * u
/-- Table 17-5: [1:0] 0 NONE, 1 OK, 2 REPEAT, 3 SKIP; [7:4] last accepted; [31:16] failures, saturating. -/
def TLYu_ALIVE_STAT (u : Nat) : Nat := 0x30400128 + 0x40 * u
/-- Table 18-13: Role, zone, backup, failover. -/
def TP_CFG : Nat := 0x30B00010
/-- Table 18-13: [0] PORTS_UP, [1] ROUTE_OK, [2] ACTING_SITE_MASTER, [3] STOP_SENDING. -/
def TP_STAT : Nat := 0x30B00014
/-- Table 18-13: [0] ASSIGN, [1] ROUTE, [2] STOP_RX, [3] NEIGHBOUR, [4] HRX. -/
def TP_IRQ_STAT : Nat := 0x30B00018
/-- Table 18-13: Enables for TP_IRQ_STAT bits. -/
def TP_IRQ_EN : Nat := 0x30B0001C
/-- Table 18-13: [11:0] address, [15:12] reserved, [18:16] CODE (Table 18-6). -/
def TP_ADDR : Nat := 0x30B00020
/-- Table 18-13: Stop out and in. -/
def TP_STOP_CFG : Nat := 0x30B00024
/-- Table 18-13: [1:0] scope, 0 CELL, 1 ZONE, 2 SITE; [2] CANCEL; [31:16] key 0x570F (R372). -/
def TP_STOP_TX : Nat := 0x30B00028
/-- Table 18-13: [11:0] origin, [13:12] scope, [20:14] source, [21] deliberate, [31] valid. -/
def TP_STOP_LAST : Nat := 0x30B0002C
/-- Table 18-13: TIME_NS[31:0] at receipt of that stop. -/
def TP_STOP_T : Nat := 0x30B00030
/-- Table 18-13: [15:0] stops received, [31:16] stops sent, saturating. -/
def TP_STOP_CNT : Nat := 0x30B00034
/-- Table 18-13: [15:0] zone table, [31:16] site table generation. -/
def TP_ROUTE_GEN : Nat := 0x30B00038
/-- Table 18-13: [3:0] CODE (Table 18-8), [5:4] table: 0 cell, 1 zone, 2 site. -/
def TP_ROUTE_STAT : Nat := 0x30B0003C
/-- Table 18-13: Sync interval and slew limit. -/
def TP_TIME_CFG : Nat := 0x30B00040
/-- Table 18-13: [1:0] site state, [3:2] zone state (Table 18-10), [5:4] site parent port, [7:6] zone parent port, [19:8] site grandmaster, [31:20] zone grandmaster. -/
def TP_TIME_STAT : Nat := 0x30B00044
/-- Table 18-13: Offset to the site parent, signed, 0.1 ns. -/
def TP_TOFF_SITE : Nat := 0x30B00048
/-- Table 18-13: Offset to the zone parent, signed, 0.1 ns. -/
def TP_TOFF_ZONE : Nat := 0x30B0004C
/-- Table 18-13: Rate correction, signed, ppb. -/
def TP_RATE_SITE : Nat := 0x30B00050
/-- Table 18-13: Rate correction, signed, ppb. -/
def TP_RATE_ZONE : Nat := 0x30B00054
/-- Table 18-13: [7:0] per-link limit, ns, 1–255; factory default 3. -/
def TP_TOFF_LIM : Nat := 0x30B00058
/-- Table 18-13: [5:0] Basin bank, refused unless owned by HARBOUR; [15:8] transmit slots, [23:16] receive slots, 1–255. -/
def TP_HQ : Nat := 0x30B00060
/-- Table 18-13: [7:0] next transmit slot to fill. -/
def TP_HTX_PROD : Nat := 0x30B00064
/-- Table 18-13: [7:0] next transmit slot to be sent. -/
def TP_HTX_CONS : Nat := 0x30B00068
/-- Table 18-13: [7:0] next receive slot to be written. -/
def TP_HRX_PROD : Nat := 0x30B0006C
/-- Table 18-13: [7:0] next receive slot to read. -/
def TP_HRX_CONS : Nat := 0x30B00070
/-- Table 18-13: Frames dropped on a full receive ring, saturating. -/
def TP_HRX_DROP : Nat := 0x30B00074
/-- Table 18-13: [11:0] bridge node, [12] EN, [23:16] SITE_ID (R380). -/
def TP_BRIDGE : Nat := 0x30B00078
/-- Table 18-13: [0] EN, [1] RS_FEC. -/
def TPq_CFG (q : Nat) : Nat := 0x30B00100 + 0x40 * q
/-- Table 18-13: [15:0] delay asymmetry, signed, 0.1 ns. -/
def TPq_ASYM (q : Nat) : Nat := 0x30B00104 + 0x40 * q
/-- Table 18-13: Port MAC address [31:0]. -/
def TPq_MAC_LO (q : Nat) : Nat := 0x30B00108 + 0x40 * q
/-- Table 18-13: Port MAC address [47:32]. -/
def TPq_MAC_HI (q : Nat) : Nat := 0x30B0010C + 0x40 * q
/-- Table 18-13: [0] LINK, [1] NEIGHBOUR, [13:2] neighbour address, [14] neighbour assigned, [18:15] neighbour ring position. -/
def TPq_STAT (q : Nat) : Nat := 0x30B00110 + 0x40 * q
/-- Table 18-13: Mean link delay, 0.1 ns. -/
def TPq_PDELAY (q : Nat) : Nat := 0x30B00114 + 0x40 * q
/-- Table 18-13: [15:0] frames failed, [31:16] PCS errors, saturating. -/
def TPq_ERR (q : Nat) : Nat := 0x30B00118 + 0x40 * q
/-- Table 18-13: Frames received, wrapping. -/
def TPq_FRAMES (q : Nat) : Nat := 0x30B0011C + 0x40 * q
/-- Table 18-13: Cell table entry, node n. -/
def TP_CRTn (n : Nat) : Nat := 0x30B00400 + 0x4 * n
/-- Table 18-13: Zone table entry, cell c. -/
def TP_ZRTc (c : Nat) : Nat := 0x30B00440 + 0x4 * c
/-- Table 18-13: Site table entry, zone z. -/
def TP_SRTz (z : Nat) : Nat := 0x30B00480 + 0x4 * z
/-- Table 19-4: [0] SPC (R390). -/
def KC_CTRL : Nat := 0x31400010
/-- Table 19-4: [1:0] K0 state, [3:2] K1 state (Table 19-6). -/
def KC_STAT : Nat := 0x31400014
/-- Table 19-4: [17:0] Harbour write permission (R395). -/
def KC_HWPERM : Nat := 0x31400018
/-- Table 19-4: [15:0] K0, [31:16] K1 corrected TCM words, saturating. -/
def KC_TCM_CORR : Nat := 0x3140001C
/-- Table 19-4: Last compare failure of pair p. -/
def KC_Kp_MISM (p : Nat) : Nat := 0x31400020 + 0x4 * p
/-- Table 19-4: Window n of pair p (R391, R392). -/
def KC_Kp_KWn_CFG (p n : Nat) : Nat := 0x31400100 + 0x20 * p + 0x8 * n
/-- Table 20-4: [0] EN. -/
def LN_CTRL : Nat := 0x30C00010
/-- Table 20-4: [0] DUMP_BUSY. -/
def LN_STAT : Nat := 0x30C00014
/-- Table 20-4: [0] DUMP_DONE, [1] DUMP_SKIP, [2] OVF. -/
def LN_IRQ_STAT : Nat := 0x30C00018
/-- Table 20-4: Enables for LN_IRQ_STAT bits. -/
def LN_IRQ_EN : Nat := 0x30C0001C
/-- Table 20-4: User read: [0] tiles, [1] Hold, [2] root ports, [3] Sluice, [4] Towpath, [5] dump bank (R407, R409). -/
def LN_PERM : Nat := 0x30C00020
/-- Table 20-4: [0] freeze every programmable counter. -/
def LN_FREEZE : Nat := 0x30C00024
/-- Table 20-4: [19:0] window, µs, 1–1,000,000; 0 ignored (R406). -/
def LN_BW_WIN : Nat := 0x30C00028
/-- Table 20-4: [5:0] bank, [6] EN (R409). -/
def LN_DUMP_CFG : Nat := 0x30C00030
/-- Table 20-4: Writing 0x0000_0001 starts a dump. -/
def LN_DUMP_NOW : Nat := 0x30C00034
/-- Table 20-4: [5:0] next slot. -/
def LN_DUMP_HEAD : Nat := 0x30C00038
/-- Table 20-4: DSEQ of the next dump. -/
def LN_DUMP_SEQ : Nat := 0x30C0003C
/-- Table 20-4: Dumps skipped, saturating. -/
def LN_DUMP_SKIP : Nat := 0x30C00040
/-- Table 20-4: Cycle count [31:0]; latches _HI. -/
def LNu_CYC_LO (u : Nat) : Nat := 0x30C01000 + 0x100 * u
/-- Table 20-4: Cycle count [63:32]. -/
def LNu_CYC_HI (u : Nat) : Nat := 0x30C01004 + 0x100 * u
/-- Table 20-4: [0] FREEZE; [1] CLR, reads 0 (R405). -/
def LNu_CTL (u : Nat) : Nat := 0x30C01008 + 0x100 * u
/-- Table 20-4: [7:0] wrap per counter. -/
def LNu_OVF (u : Nat) : Nat := 0x30C0100C + 0x100 * u
/-- Table 20-4: Count [31:0]; latches _HI. -/
def LNu_CNTk_LO (u k : Nat) : Nat := 0x30C01010 + 0x100 * u + 0x8 * k
/-- Table 20-4: [15:0] count [47:32]. -/
def LNu_CNTk_HI (u k : Nat) : Nat := 0x30C01014 + 0x100 * u + 0x8 * k
/-- Table 20-4: Event selection. -/
def LNu_EVSELk (u k : Nat) : Nat := 0x30C01050 + 0x100 * u + 0x4 * k
/-- Table 20-4: Read bandwidth of the last window, MB/s. -/
def LNu_BW_RD (u : Nat) : Nat := 0x30C01070 + 0x100 * u
/-- Table 20-4: Write bandwidth of the last window, MB/s. -/
def LNu_BW_WR (u : Nat) : Nat := 0x30C01074 + 0x100 * u

end R

/-- Rows of Table 02-7, part 1. -/
def rows02_7a : List RegRow := [
  ⟨"ID", 0x30200000, [], 1, false, 0x0, 0x0, 0x0, 0x0, 0x0, 0x4D500720⟩,
  ⟨"VERSION", 0x30200004, [], 1, false, 0x0, 0x0, 0x0, 0x0, 0x0, 0xA1⟩,
  ⟨"MP_CTRL", 0x30200010, [], 1, true, 0x0, 0x3F, 0x0, 0x0, 0x0, 0x0⟩,
  ⟨"MP_STAT", 0x30200014, [], 1, false, 0x0, 0x0, 0x0, 0x0, 0x0, 0x0⟩,
  ⟨"V_MAX", 0x30200018, [], 1, true, 0x0, 0xFFFFFFFF, 0x0, 0x0, 0x0, 0x0⟩,
  ⟨"SPD_TOL", 0x3020001C, [], 1, true, 0x0, 0xFFFFFFFF, 0x0, 0x0, 0x0, 0x0⟩,
  ⟨"DL_STILL", 0x30200020, [], 1, true, 0x0, 0xFFFFFFFF, 0x0, 0x0, 0x0, 0x0⟩,
  ⟨"SINGLE_T", 0x30200024, [], 1, true, 0x0, 0xFFFFFFFF, 0x0, 0x0, 0x0, 0x0⟩,
  ⟨"TB_HOLD_MAX", 0x30200028, [], 1, true, 0x0, 0xFFFFFFFF, 0x0, 0x0, 0x0, 0x0⟩,
  ⟨"TIME_NS_LO", 0x30200030, [], 1, false, 0x0, 0x0, 0x0, 0x0, 0x0, 0x0⟩,
  ⟨"TIME_NS_HI", 0x30200034, [], 1, false, 0x0, 0x0, 0x0, 0x0, 0x0, 0x0⟩,
  ⟨"TRAVEL_LO", 0x30200038, [], 1, false, 0x0, 0x0, 0x0, 0x0, 0x0, 0x0⟩,
  ⟨"TRAVEL_HI", 0x3020003C, [], 1, false, 0x0, 0x0, 0x0, 0x0, 0x0, 0x0⟩,
  ⟨"SPEEDn", 0x30200040, [(0x4, 4)], 1, false, 0x0, 0x0, 0x0, 0x0, 0x0, 0x0⟩,
  ⟨"MP_IRQ_STAT", 0x30200050, [], 1, false, 0x0, 0x0, 0xF, 0x0, 0x0, 0x0⟩,
  ⟨"MP_IRQ_EN", 0x30200054, [], 1, false, 0xF, 0x0, 0x0, 0x0, 0x0, 0x0⟩,
  ⟨"POSTQ_POP", 0x30200060, [], 1, false, 0x0, 0x0, 0x0, 0x0, 0x0, 0x0⟩,
  ⟨"POSTQ_T", 0x30200064, [], 1, false, 0x0, 0x0, 0x0, 0x0, 0x0, 0x0⟩,
  ⟨"POSTQ_S", 0x30200068, [], 1, false, 0x0, 0x0, 0x0, 0x0, 0x0, 0x0⟩,
  ⟨"POSTQ_LEVEL", 0x3020006C, [], 1, false, 0x0, 0x0, 0x0, 0x0, 0x0, 0x0⟩,
  ⟨"TB_SITE_LO", 0x30200070, [], 2, false, 0x0, 0x0, 0x0, 0x0, 0x0, 0x0⟩,
  ⟨"TB_ZONE_LO", 0x30200078, [], 2, false, 0x0, 0x0, 0x0, 0x0, 0x0, 0x0⟩,
  ⟨"TB_HOLD_AGE", 0x30200080, [], 1, false, 0x0, 0x0, 0x0, 0x0, 0x0, 0x0⟩,
  ⟨"ENCn_CFG", 0x30200100, [(0x40, 4)], 1, true, 0x0, 0xFF07FFFF, 0x0, 0x0, 0x0, 0x0⟩]
/-- Rows of Table 02-7, part 2. -/
def rows02_7b : List RegRow := [
  ⟨"ENCn_SCALE_LO", 0x30200104, [(0x40, 4)], 1, true, 0x0, 0xFFFFFFFF, 0x0, 0x0, 0x0, 0x0⟩,
  ⟨"ENCn_SCALE_HI", 0x30200108, [(0x40, 4)], 1, true, 0x0, 0xFFFFFFFF, 0x0, 0x0, 0x0, 0x0⟩,
  ⟨"ENCn_ZPER", 0x3020010C, [(0x40, 4)], 1, true, 0x0, 0xFFFFFFFF, 0x0, 0x0, 0x0, 0x0⟩,
  ⟨"ENCn_SSIPER", 0x30200110, [(0x40, 4)], 1, true, 0x0, 0xFFFFFFFF, 0x0, 0x0, 0x0, 0x0⟩,
  ⟨"ENCn_COUNT", 0x30200114, [(0x40, 4)], 1, false, 0x0, 0x0, 0x0, 0x0, 0x0, 0x0⟩,
  ⟨"ENCn_STAT", 0x30200118, [(0x40, 4)], 1, false, 0x0, 0x0, 0xF, 0x0, 0x0, 0x0⟩,
  ⟨"POSTp_VAL_T_LO", 0x30201000, [(0x20, 256)], 2, true, 0x0, 0xFFFFFFFF, 0x0, 0x0, 0x0, 0x0⟩,
  ⟨"POSTp_VAL_S_LO", 0x30201008, [(0x20, 256)], 2, true, 0x0, 0xFFFFFFFF, 0x0, 0x0, 0x0, 0x0⟩,
  ⟨"POSTp_PER_T", 0x30201010, [(0x20, 256)], 1, true, 0x0, 0xFFFFFFFF, 0x0, 0x0, 0x0, 0x0⟩,
  ⟨"POSTp_PER_S", 0x30201014, [(0x20, 256)], 1, true, 0x0, 0xFFFFFFFF, 0x0, 0x0, 0x0, 0x0⟩,
  ⟨"POSTp_CFG", 0x30201018, [(0x20, 256)], 1, true, 0x0, 0xFFFFFFFF, 0x0, 0x0, 0x0, 0x0⟩,
  ⟨"POSTp_STAT", 0x3020101C, [(0x20, 256)], 1, false, 0x0, 0x0, 0x0, 0x0, 0x0, 0x0⟩,
  ⟨"TMRc_CNT_LO", 0x30203000, [(0x20, 16)], 2, false, 0x0, 0x0, 0x0, 0x0, 0x0, 0x0⟩,
  ⟨"TMRc_TINC_FRAC", 0x30203008, [(0x20, 16)], 1, false, 0xFFFFFFFF, 0x0, 0x0, 0x0, 0x0, 0x55555555⟩,
  ⟨"TMRc_TINC_INT", 0x3020300C, [(0x20, 16)], 1, false, 0xFFFFFFFF, 0x0, 0x0, 0x0, 0x0, 0x1⟩,
  ⟨"TMRc_CMP_LO", 0x30203010, [(0x20, 16)], 2, false, 0xFFFFFFFF, 0x0, 0x0, 0x0, 0x0, 0x0⟩,
  ⟨"TMRc_PER", 0x30203018, [(0x20, 16)], 1, false, 0xFFFFFFFF, 0x0, 0x0, 0x0, 0x0, 0x0⟩,
  ⟨"TMRc_CFG", 0x3020301C, [(0x20, 16)], 1, false, 0xFF03, 0x0, 0x0, 0x0, 0x0, 0x0⟩,
  ⟨"CAPi_CFG", 0x30204000, [(0x20, 8)], 1, true, 0x0, 0xFF07, 0x0, 0x0, 0x0, 0x0⟩,
  ⟨"CAPi_STAT", 0x30204004, [(0x20, 8)], 1, false, 0x0, 0x0, 0x1, 0x0, 0x0, 0x0⟩,
  ⟨"CAPi_T_LO", 0x30204008, [(0x20, 8)], 2, false, 0x0, 0x0, 0x0, 0x0, 0x0, 0x0⟩,
  ⟨"CAPi_S_LO", 0x30204010, [(0x20, 8)], 2, false, 0x0, 0x0, 0x0, 0x0, 0x0, 0x0⟩,
  ⟨"TRIGj_CFG", 0x30204200, [(0x10, 8)], 1, true, 0x0, 0x7, 0x0, 0x0, 0x0, 0x0⟩,
  ⟨"TRIGj_WIDTH", 0x30204204, [(0x10, 8)], 1, true, 0x0, 0xFFFFFF, 0x0, 0x0, 0x0, 0x0⟩]
/-- Rows of Table 02-7. -/
def rows02_7 : List RegRow := rows02_7a ++ rows02_7b
/-- Rows of Table 03-7, part 1. -/
def rows03_7a : List RegRow := [
  ⟨"ID", 0x30500000, [], 1, false, 0x0, 0x0, 0x0, 0x0, 0x0, 0x534C0720⟩,
  ⟨"VERSION", 0x30500004, [], 1, false, 0x0, 0x0, 0x0, 0x0, 0x0, 0xA1⟩,
  ⟨"SL_CTRL", 0x30500010, [], 1, true, 0x0, 0xF1, 0x0, 0x0, 0x0, 0x0⟩,
  ⟨"SL_STAT", 0x30500014, [], 1, false, 0x0, 0x0, 0x0, 0x0, 0x0, 0x0⟩,
  ⟨"SL_IRQ_STAT", 0x30500018, [], 1, false, 0x0, 0x0, 0xF, 0x0, 0x0, 0x0⟩,
  ⟨"SL_IRQ_EN", 0x3050001C, [], 1, false, 0xF, 0x0, 0x0, 0x0, 0x0, 0x0⟩,
  ⟨"BARGE_NEXT", 0x30500020, [], 1, false, 0x0, 0x0, 0x0, 0x0, 0x0, 0x1⟩,
  ⟨"HELD_STAT", 0x30500024, [], 1, false, 0x0, 0x0, 0x0, 0x0, 0x0, 0x0⟩,
  ⟨"SL_RING_BASE_LO", 0x30500028, [], 1, true, 0x0, 0xFFFFFFFF, 0x0, 0x0, 0x0, 0x0⟩,
  ⟨"SL_RING_BASE_HI", 0x3050002C, [], 1, true, 0x0, 0xFF, 0x0, 0x0, 0x0, 0x0⟩,
  ⟨"SL_RING_SIZE", 0x30500030, [], 1, true, 0x0, 0xFFFFFFFF, 0x0, 0x0, 0x0, 0x0⟩,
  ⟨"SL_RING_FREE", 0x30500034, [], 1, false, 0x0, 0x0, 0x0, 0x0, 0x0, 0x0⟩,
  ⟨"CSIc_CFG", 0x30500100, [(0x40, 8)], 1, true, 0x0, 0xFF0F, 0x0, 0x0, 0x0, 0x0⟩,
  ⟨"CSIc_STAT", 0x30500104, [(0x40, 8)], 1, false, 0x0, 0x0, 0xF, 0x0, 0x0, 0x0⟩,
  ⟨"CSIc_ERRCNT", 0x30500108, [(0x40, 8)], 1, false, 0x0, 0x0, 0x0, 0x0, 0x0, 0x0⟩,
  ⟨"ETHe_CFG", 0x30500400, [(0x40, 4)], 1, true, 0x0, 0xF, 0x0, 0x0, 0x0, 0x0⟩,
  ⟨"ETHe_STAT", 0x30500404, [(0x40, 4)], 1, false, 0x0, 0x0, 0x7, 0x0, 0x0, 0x0⟩,
  ⟨"ETHe_ERRCNT", 0x30500408, [(0x40, 4)], 1, false, 0x0, 0x0, 0x0, 0x0, 0x0, 0x0⟩,
  ⟨"ETHe_MAC_LO", 0x3050040C, [(0x40, 4)], 1, true, 0x0, 0xFFFFFFFF, 0x0, 0x0, 0x0, 0x0⟩,
  ⟨"ETHe_MAC_HI", 0x30500410, [(0x40, 4)], 1, true, 0x0, 0xFFFF, 0x0, 0x0, 0x0, 0x0⟩,
  ⟨"STRs_CFG", 0x30501000, [(0x40, 32)], 1, true, 0x0, 0x1FFFFFFF, 0x0, 0x0, 0x0, 0x0⟩,
  ⟨"STRs_FLOW", 0x30501004, [(0x40, 32)], 1, true, 0x0, 0x3FFFFFFF, 0x0, 0x0, 0x0, 0x0⟩,
  ⟨"STRs_ID", 0x30501008, [(0x40, 32)], 1, true, 0x0, 0xFFFF, 0x0, 0x0, 0x0, 0x0⟩,
  ⟨"STRs_PER", 0x3050100C, [(0x40, 32)], 1, true, 0x0, 0xFFFFFFFF, 0x0, 0x0, 0x0, 0x0⟩]
/-- Rows of Table 03-7, part 2. -/
def rows03_7b : List RegRow := [
  ⟨"STRs_TOL", 0x30501010, [(0x40, 32)], 1, true, 0x0, 0xFFFF, 0x0, 0x0, 0x0, 0x0⟩,
  ⟨"STRs_STAT", 0x30501014, [(0x40, 32)], 1, false, 0x0, 0x0, 0x0, 0x0, 0x0, 0x0⟩,
  ⟨"STRs_LASTCNT", 0x30501018, [(0x40, 32)], 1, false, 0x0, 0x0, 0x0, 0x0, 0x0, 0x0⟩,
  ⟨"STRs_ERRCNT", 0x3050101C, [(0x40, 32)], 1, false, 0x0, 0x0, 0x0, 0x0, 0x0, 0x0⟩,
  ⟨"STRs_RESTART", 0x30501020, [(0x40, 32)], 1, true, 0x0, 0x0, 0x0, 0x0, 0xFFFFFFFF, 0x0⟩,
  ⟨"SETk_CFG", 0x30502000, [(0x40, 16)], 1, true, 0x0, 0x1, 0x0, 0x0, 0x0, 0x0⟩,
  ⟨"SETk_MEMBERS", 0x30502004, [(0x40, 16)], 1, true, 0x0, 0xFFFFFFFF, 0x0, 0x0, 0x0, 0x0⟩,
  ⟨"SETk_ASM_T", 0x30502008, [(0x40, 16)], 1, true, 0x0, 0xFFFFFFFF, 0x0, 0x0, 0x0, 0x0⟩,
  ⟨"SETk_ASM_S", 0x3050200C, [(0x40, 16)], 1, true, 0x0, 0xFFFFFFFF, 0x0, 0x0, 0x0, 0x0⟩,
  ⟨"SETk_SKEW", 0x30502010, [(0x40, 16)], 1, true, 0x0, 0xFFFF, 0x0, 0x0, 0x0, 0x0⟩,
  ⟨"SETk_STAT", 0x30502014, [(0x40, 16)], 1, false, 0x0, 0x0, 0x0, 0x0, 0x0, 0x0⟩,
  ⟨"SETk_BARGE", 0x30502018, [(0x40, 16)], 1, false, 0x0, 0x0, 0x0, 0x0, 0x0, 0x0⟩]
/-- Rows of Table 03-7. -/
def rows03_7 : List RegRow := rows03_7a ++ rows03_7b
/-- Rows of Table 04-11, part 1. -/
def rows04_11a : List RegRow := [
  ⟨"ID", 0x30600000, [], 1, false, 0x0, 0x0, 0x0, 0x0, 0x0, 0x4D520720⟩,
  ⟨"VERSION", 0x30600004, [], 1, false, 0x0, 0x0, 0x0, 0x0, 0x0, 0xA1⟩,
  ⟨"MR_CTRL", 0x30600010, [], 1, true, 0x0, 0x3, 0x0, 0x0, 0x0, 0x0⟩,
  ⟨"MR_STAT", 0x30600014, [], 1, false, 0x0, 0x0, 0x0, 0x0, 0x0, 0x0⟩,
  ⟨"MR_IRQ_STAT", 0x30600018, [], 1, false, 0x0, 0x0, 0xF, 0x0, 0x0, 0x0⟩,
  ⟨"MR_IRQ_EN", 0x3060001C, [], 1, false, 0xF, 0x0, 0x0, 0x0, 0x0, 0x0⟩,
  ⟨"BREACH_CAUSE", 0x30600020, [], 1, false, 0x0, 0x0, 0x0, 0x0, 0x0, 0x0⟩,
  ⟨"BREACH_BARGE", 0x30600024, [], 1, false, 0x0, 0x0, 0x0, 0x0, 0x0, 0x0⟩,
  ⟨"RPn_CTRL", 0x30600100, [(0x100, 2)], 1, true, 0x0, 0xFFFFFF7F, 0x0, 0x0, 0x0, 0x0⟩,
  ⟨"RPn_STAT", 0x30600104, [(0x100, 2)], 1, false, 0x0, 0x0, 0x0, 0x0, 0x0, 0x0⟩,
  ⟨"RPn_ACC_ID", 0x30600108, [(0x100, 2)], 1, true, 0x0, 0xFFFFFFFF, 0x0, 0x0, 0x0, 0x0⟩,
  ⟨"RPn_CPL_TO", 0x3060010C, [(0x100, 2)], 1, true, 0x0, 0xFFFF, 0x0, 0x0, 0x0, 0x0⟩,
  ⟨"RPn_RECOV", 0x30600110, [(0x100, 2)], 1, false, 0x0, 0x0, 0x0, 0x0, 0x0, 0x0⟩,
  ⟨"RPn_LINKDOWN", 0x30600114, [(0x100, 2)], 1, false, 0x0, 0x0, 0x0, 0x0, 0x0, 0x0⟩,
  ⟨"RPn_AER", 0x30600118, [(0x100, 2)], 1, false, 0x0, 0x0, 0x0, 0x0, 0x0, 0x0⟩,
  ⟨"ACC_RESETn", 0x3060011C, [(0x100, 2)], 1, true, 0x0, 0x0, 0x0, 0x0, 0xFFFFFFFF, 0x0⟩,
  ⟨"RPn_CFG_ADDR", 0x30600120, [(0x100, 2)], 1, false, 0xFFFFFFF, 0x0, 0x0, 0x0, 0x0, 0x0⟩,
  ⟨"RPn_CFG_DATA", 0x30600124, [(0x100, 2)], 1, false, 0x0, 0x0, 0x0, 0x0, 0x0, 0x0⟩,
  ⟨"OBWn_e_CFG", 0x30600400, [(0x100, 2), (0x20, 8)], 1, true, 0x0, 0x7FF, 0x0, 0x0, 0x0, 0x0⟩,
  ⟨"OBWn_e_OFF", 0x30600404, [(0x100, 2), (0x20, 8)], 1, true, 0x0, 0x3FFFF, 0x0, 0x0, 0x0, 0x0⟩,
  ⟨"OBWn_e_BUS_LO", 0x30600408, [(0x100, 2), (0x20, 8)], 2, true, 0x0, 0xFFFFFFFF, 0x0, 0x0, 0x0, 0x0⟩,
  ⟨"IBWn_e_CFG", 0x30600600, [(0x100, 2), (0x20, 8)], 1, true, 0x0, 0x1FF, 0x0, 0x0, 0x0, 0x0⟩,
  ⟨"IBWn_e_BUS_LO", 0x30600604, [(0x100, 2), (0x20, 8)], 2, true, 0x0, 0xFFFFFFFF, 0x0, 0x0, 0x0, 0x0⟩,
  ⟨"IBWn_e_TGT_LO", 0x3060060C, [(0x100, 2), (0x20, 8)], 2, true, 0x0, 0xFFFFFFFF, 0x0, 0x0, 0x0, 0x0⟩]
/-- Rows of Table 04-11, part 2. -/
def rows04_11b : List RegRow := [
  ⟨"Cc_CFG", 0x30600800, [(0x40, 4)], 1, true, 0x0, 0x3F, 0x0, 0x0, 0x0, 0x0⟩,
  ⟨"Cc_SIG_BASE", 0x30600804, [(0x40, 4)], 1, true, 0x0, 0x1FFFFFF, 0x0, 0x0, 0x0, 0x0⟩,
  ⟨"Cc_SEAL_BASE", 0x30600808, [(0x40, 4)], 1, true, 0x0, 0x1FFFFFF, 0x0, 0x0, 0x0, 0x0⟩,
  ⟨"Cc_STRIP", 0x3060080C, [(0x40, 4)], 1, true, 0x0, 0xFFFFFFFF, 0x0, 0x0, 0x0, 0x0⟩,
  ⟨"Cc_DLV_STAT", 0x30600810, [(0x40, 4)], 1, false, 0x0, 0x0, 0x0, 0x0, 0x0, 0x0⟩,
  ⟨"Cc_TAKEN_T", 0x30600814, [(0x40, 4)], 1, false, 0x0, 0x0, 0x0, 0x0, 0x0, 0x0⟩,
  ⟨"Cc_SIG_CONS", 0x30600818, [(0x40, 4)], 1, false, 0x0, 0x0, 0x0, 0x0, 0x0, 0x0⟩,
  ⟨"Cc_SEAL_CONS", 0x3060081C, [(0x40, 4)], 1, false, 0x0, 0x0, 0x0, 0x0, 0x0, 0x0⟩,
  ⟨"Cc_REC_LAST", 0x30600820, [(0x40, 4)], 1, false, 0x0, 0x0, 0x0, 0x0, 0x0, 0x0⟩,
  ⟨"Cc_REC_ERR", 0x30600824, [(0x40, 4)], 1, false, 0x0, 0x0, 0x0, 0x0, 0x0, 0x0⟩,
  ⟨"Cc_DUP", 0x30600828, [(0x40, 4)], 1, false, 0x0, 0x0, 0x0, 0x0, 0x0, 0x0⟩,
  ⟨"PAT_CTRL", 0x30601000, [], 1, true, 0x0, 0x3, 0x0, 0x0, 0x0, 0x0⟩,
  ⟨"PAT_RATE", 0x30601004, [], 1, true, 0x0, 0x1FFF, 0x0, 0x0, 0x0, 0x0⟩,
  ⟨"PAT_STAT", 0x30601008, [], 1, false, 0x0, 0x0, 0x0, 0x0, 0x0, 0x0⟩,
  ⟨"PATr_CFG", 0x30601100, [(0x20, 64)], 1, true, 0x0, 0xFFFFFFFF, 0x0, 0x0, 0x0, 0x0⟩,
  ⟨"PATr_ACC_LO", 0x30601104, [(0x20, 64)], 2, true, 0x0, 0xFFFFFFFF, 0x0, 0x0, 0x0, 0x0⟩,
  ⟨"PATr_LEN", 0x3060110C, [(0x20, 64)], 1, true, 0x0, 0xFFFFFFFF, 0x0, 0x0, 0x0, 0x0⟩,
  ⟨"PATr_GOLD_LO", 0x30601110, [(0x20, 64)], 2, true, 0x0, 0xFFFFFFFF, 0x0, 0x0, 0x0, 0x0⟩,
  ⟨"PATr_AGE", 0x30601118, [(0x20, 64)], 1, false, 0x0, 0x0, 0x0, 0x0, 0x0, 0x0⟩,
  ⟨"PATr_STAT", 0x3060111C, [(0x20, 64)], 1, false, 0x0, 0x0, 0x0, 0x0, 0x0, 0x0⟩]
/-- Rows of Table 04-11. -/
def rows04_11 : List RegRow := rows04_11a ++ rows04_11b
/-- Rows of Table 05-7. -/
def rows05_7 : List RegRow := [
  ⟨"ID", 0x30700000, [], 1, false, 0x0, 0x0, 0x0, 0x0, 0x0, 0x4D490720⟩,
  ⟨"VERSION", 0x30700004, [], 1, false, 0x0, 0x0, 0x0, 0x0, 0x0, 0xA1⟩,
  ⟨"MI_CTRL", 0x30700010, [], 1, true, 0x0, 0xFF01, 0x0, 0x0, 0x0, 0x0⟩,
  ⟨"MI_STAT", 0x30700014, [], 1, false, 0x0, 0x0, 0x0, 0x0, 0x0, 0x0⟩,
  ⟨"MI_IRQ_STAT", 0x30700018, [], 1, false, 0x0, 0x0, 0x3F, 0x0, 0x0, 0x0⟩,
  ⟨"MI_IRQ_EN", 0x3070001C, [], 1, false, 0x3F, 0x0, 0x0, 0x0, 0x0, 0x0⟩,
  ⟨"SILENT_DIV", 0x30700020, [], 1, false, 0x0, 0x0, 0x0, 0x0, 0x0, 0x0⟩,
  ⟨"SILENT_BARGE", 0x30700024, [], 1, false, 0x0, 0x0, 0x0, 0x0, 0x0, 0x0⟩,
  ⟨"SILENT_WIN", 0x30700028, [], 1, false, 0x0, 0x0, 0x0, 0x0, 0x0, 0x0⟩,
  ⟨"SILENT_CLR", 0x3070002C, [], 1, true, 0x0, 0x0, 0x0, 0x0, 0xFFFFFFFF, 0x0⟩,
  ⟨"FAIL_BARGE", 0x30700030, [], 1, false, 0x0, 0x0, 0x0, 0x0, 0x0, 0x0⟩,
  ⟨"FAIL_INFO", 0x30700034, [], 1, false, 0x0, 0x0, 0x0, 0x0, 0x0, 0x0⟩,
  ⟨"FAIL_NET", 0x30700038, [], 1, false, 0x0, 0x0, 0x0, 0x0, 0x0, 0x0⟩,
  ⟨"CMP_COUNT", 0x30700040, [], 1, false, 0x0, 0x0, 0x0, 0x0, 0x0, 0x0⟩,
  ⟨"LATE_CNT", 0x30700044, [], 1, false, 0x0, 0x0, 0x0, 0x0, 0x0, 0x0⟩,
  ⟨"GLINT_STAT", 0x30700048, [], 1, false, 0x0, 0x0, 0x0, 0x0, 0x0, 0x0⟩,
  ⟨"MI_GLINT_PAT", 0x3070004C, [], 1, true, 0x0, 0xFFFFFFFF, 0x0, 0x0, 0x0, 0x0⟩,
  ⟨"MI_LREF_BASE_LO", 0x30700050, [], 1, true, 0x0, 0xFFFFFFFF, 0x0, 0x0, 0x0, 0x0⟩,
  ⟨"MI_LREF_BASE_HI", 0x30700054, [], 1, true, 0x0, 0xFF, 0x0, 0x0, 0x0, 0x0⟩,
  ⟨"MNETx_CFG", 0x30700100, [(0x20, 64)], 1, true, 0x0, 0x3FF7FFFF, 0x0, 0x0, 0x0, 0x0⟩,
  ⟨"MNETx_WDL_T", 0x30700104, [(0x20, 64)], 1, true, 0x0, 0xFFFFFFFF, 0x0, 0x0, 0x0, 0x0⟩,
  ⟨"MNETx_WDL_S", 0x30700108, [(0x20, 64)], 1, true, 0x0, 0xFFFFFFFF, 0x0, 0x0, 0x0, 0x0⟩,
  ⟨"MNETx_STAT", 0x3070010C, [(0x20, 64)], 1, false, 0x0, 0x0, 0x0, 0x0, 0x0, 0x0⟩,
  ⟨"MNETx_PASS", 0x30700110, [(0x20, 64)], 1, false, 0x0, 0x0, 0x0, 0x0, 0x0, 0x0⟩]
/-- Rows of Table 06-18, part 1. -/
def rows06_18a : List RegRow := [
  ⟨"ID", 0x31000000, [(0x10000, 36)], 1, false, 0x0, 0x0, 0x0, 0x0, 0x0, 0x53540720⟩,
  ⟨"VERSION", 0x31000004, [(0x10000, 36)], 1, false, 0x0, 0x0, 0x0, 0x0, 0x0, 0xA1⟩,
  ⟨"TL_MAP", 0x31000010, [(0x10000, 36)], 1, true, 0x0, 0x1FF, 0x0, 0x0, 0x0, 0x0⟩,
  ⟨"TL_CFG", 0x31000014, [(0x10000, 36)], 1, true, 0x0, 0xFFFF03FF, 0x0, 0x0, 0x0, 0x0⟩,
  ⟨"TL_STAT", 0x31000018, [(0x10000, 36)], 1, false, 0x0, 0x0, 0x0, 0x0, 0x0, 0x0⟩,
  ⟨"TL_START", 0x3100001C, [(0x10000, 36)], 1, true, 0x0, 0x0, 0x0, 0x0, 0xFFFF001F, 0x0⟩,
  ⟨"TL_STOP", 0x31000020, [(0x10000, 36)], 1, true, 0x0, 0x0, 0x0, 0x0, 0x3, 0x0⟩,
  ⟨"TL_RESET", 0x31000024, [(0x10000, 36)], 1, true, 0x0, 0x0, 0x0, 0x0, 0xFFFFFFFF, 0x0⟩,
  ⟨"TL_DBG", 0x31000028, [(0x10000, 36)], 1, true, 0x1, 0x0, 0x0, 0x0, 0x0, 0x0⟩,
  ⟨"TL_PC", 0x3100002C, [(0x10000, 36)], 1, false, 0x0, 0x0, 0x0, 0x0, 0x0, 0x0⟩,
  ⟨"TL_CYCLES", 0x31000030, [(0x10000, 36)], 1, false, 0x0, 0x0, 0x0, 0x0, 0x0, 0x0⟩,
  ⟨"TL_EXIT", 0x31000034, [(0x10000, 36)], 1, false, 0x0, 0x0, 0x0, 0x0, 0x0, 0x0⟩,
  ⟨"TL_FAULT", 0x31000038, [(0x10000, 36)], 1, true, 0x0, 0x0, 0x7FF, 0x0, 0x0, 0x0⟩,
  ⟨"TL_FAULT_PC", 0x3100003C, [(0x10000, 36)], 1, false, 0x0, 0x0, 0x0, 0x0, 0x0, 0x0⟩,
  ⟨"TL_CORR", 0x31000040, [(0x10000, 36)], 1, false, 0x0, 0x0, 0x0, 0x0, 0x0, 0x0⟩,
  ⟨"TL_FLAGS", 0x31000044, [(0x10000, 36)], 1, false, 0x0, 0x0, 0x7, 0x0, 0x0, 0x0⟩,
  ⟨"TL_EVENT", 0x31000048, [(0x10000, 36)], 1, true, 0x0, 0x0, 0x0, 0xFFFF, 0x0, 0x0⟩,
  ⟨"TL_SIGNAL", 0x3100004C, [(0x10000, 36)], 1, false, 0x0, 0x0, 0xFFFF, 0x0, 0x0, 0x0⟩,
  ⟨"TL_IRQ_EN", 0x31000050, [(0x10000, 36)], 1, false, 0xFFFF0003, 0x0, 0x0, 0x0, 0x0, 0x0⟩,
  ⟨"TL_IRQ_STAT", 0x31000054, [(0x10000, 36)], 1, false, 0x0, 0x0, 0x3, 0x0, 0x0, 0x0⟩,
  ⟨"TL_AKT", 0x31000058, [(0x10000, 36)], 1, false, 0x0, 0x0, 0x0, 0x0, 0x0, 0x0⟩,
  ⟨"TL_RETIRE", 0x3100005C, [(0x10000, 36)], 1, false, 0x0, 0x0, 0x0, 0x0, 0x0, 0x0⟩,
  ⟨"GEOM_TOKEN", 0x31000060, [(0x10000, 36)], 1, true, 0x0, 0xFFFF, 0x0, 0x0, 0x0, 0x0⟩,
  ⟨"TM_FAULT_MAP_LO", 0x31000064, [(0x10000, 36)], 1, false, 0x0, 0x0, 0x0, 0x0, 0x0, 0x0⟩]
/-- Rows of Table 06-18, part 2. -/
def rows06_18b : List RegRow := [
  ⟨"TM_FAULT_MAP_HI", 0x31000068, [(0x10000, 36)], 1, false, 0x0, 0x0, 0x0, 0x0, 0x0, 0x0⟩,
  ⟨"TM_SPARE", 0x3100006C, [(0x10000, 36)], 1, false, 0x0, 0x0, 0x0, 0x0, 0x0, 0x0⟩]
/-- Rows of Table 06-18. -/
def rows06_18 : List RegRow := rows06_18a ++ rows06_18b
/-- Rows of Table 07-7, part 1. -/
def rows07_7a : List RegRow := [
  ⟨"ID", 0x30F00000, [], 1, false, 0x0, 0x0, 0x0, 0x0, 0x0, 0x41550720⟩,
  ⟨"VERSION", 0x30F00004, [], 1, false, 0x0, 0x0, 0x0, 0x0, 0x0, 0xA1⟩,
  ⟨"AU_CTRL", 0x30F00010, [], 1, true, 0x0, 0xF, 0x0, 0x0, 0x0, 0x0⟩,
  ⟨"AU_STAT", 0x30F00014, [], 1, false, 0x0, 0x0, 0x0, 0x0, 0x0, 0x0⟩,
  ⟨"AU_IRQ_STAT", 0x30F00018, [], 1, false, 0x0, 0x0, 0xF, 0x0, 0x0, 0x0⟩,
  ⟨"AU_IRQ_EN", 0x30F0001C, [], 1, false, 0xF, 0x0, 0x0, 0x0, 0x0, 0x0⟩,
  ⟨"AU_READYQ", 0x30F00020, [], 1, false, 0x0, 0x0, 0x0, 0x0, 0x0, 0x0⟩,
  ⟨"AU_READYQ_BARGE", 0x30F00024, [], 1, false, 0x0, 0x0, 0x0, 0x0, 0x0, 0x0⟩,
  ⟨"AU_NONCE_LO", 0x30F00028, [], 1, false, 0x0, 0x0, 0x0, 0x0, 0x0, 0x0⟩,
  ⟨"AU_NONCE_HI", 0x30F0002C, [], 1, false, 0x0, 0x0, 0x0, 0x0, 0x0, 0x0⟩,
  ⟨"AU_DRBG_CMD", 0x30F00030, [], 1, true, 0x0, 0x0, 0x0, 0x0, 0x13F, 0x0⟩,
  ⟨"AU_DRBG_BARGE", 0x30F00034, [], 1, true, 0xFFFFFFFF, 0x0, 0x0, 0x0, 0x0, 0x0⟩,
  ⟨"AU_DRBG_OUT", 0x30F00038, [], 1, false, 0x0, 0x0, 0x0, 0x0, 0x0, 0x0⟩,
  ⟨"AU_CHALn", 0x30F00040, [(0x4, 4)], 1, true, 0x0, 0x0, 0x0, 0x0, 0xFFFFFFFF, 0x0⟩,
  ⟨"AU_CHALQ", 0x30F00050, [], 1, false, 0x0, 0x0, 0x0, 0x0, 0x0, 0x0⟩,
  ⟨"AU_COV_PUSH", 0x30F00054, [], 1, true, 0x0, 0x0, 0x0, 0x0, 0xFFFF003F, 0x0⟩,
  ⟨"AU_FAIL_BARGE", 0x30F00058, [], 1, false, 0x0, 0x0, 0x0, 0x0, 0x0, 0x0⟩,
  ⟨"AU_FAIL_INFO", 0x30F0005C, [], 1, false, 0x0, 0x0, 0x0, 0x0, 0x0, 0x0⟩,
  ⟨"AU_FAIL_TCOORD", 0x30F00060, [], 1, false, 0x0, 0x0, 0x0, 0x0, 0x0, 0x0⟩,
  ⟨"AU_FAIL_ELEM", 0x30F00064, [], 1, false, 0x0, 0x0, 0x0, 0x0, 0x0, 0x0⟩,
  ⟨"AU_LATE", 0x30F00068, [], 1, false, 0x0, 0x0, 0x0, 0x0, 0x0, 0x0⟩,
  ⟨"AU_XSEAL", 0x30F0006C, [], 1, false, 0x0, 0x0, 0x0, 0x0, 0x0, 0x0⟩,
  ⟨"AU_TILES", 0x30F00070, [], 1, true, 0x0, 0x3F, 0x0, 0x0, 0x0, 0x0⟩,
  ⟨"AUn_CFG", 0x30F00100, [(0x40, 64)], 1, true, 0x0, 0xFFFFFF, 0x0, 0x0, 0x0, 0x0⟩]
/-- Rows of Table 07-7, part 2. -/
def rows07_7b : List RegRow := [
  ⟨"AUn_DESC_LO", 0x30F00104, [(0x40, 64)], 1, true, 0x0, 0xFFFFFFFF, 0x0, 0x0, 0x0, 0x0⟩,
  ⟨"AUn_DESC_HI", 0x30F00108, [(0x40, 64)], 1, true, 0x0, 0xFF, 0x0, 0x0, 0x0, 0x0⟩,
  ⟨"AUn_SEAL_T", 0x30F0010C, [(0x40, 64)], 1, true, 0x0, 0xFFFFFFFF, 0x0, 0x0, 0x0, 0x0⟩,
  ⟨"AUn_SEAL_S", 0x30F00110, [(0x40, 64)], 1, true, 0x0, 0xFFFFFFFF, 0x0, 0x0, 0x0, 0x0⟩,
  ⟨"AUn_GOAL", 0x30F00114, [(0x40, 64)], 1, true, 0x0, 0xFFFFFFFF, 0x0, 0x0, 0x0, 0x0⟩,
  ⟨"AUn_BUDGET", 0x30F00118, [(0x40, 64)], 1, true, 0x0, 0xFFFFFFFF, 0x0, 0x0, 0x0, 0x0⟩,
  ⟨"AUn_WIN", 0x30F0011C, [(0x40, 64)], 1, true, 0x0, 0x1FF, 0x0, 0x0, 0x0, 0x0⟩,
  ⟨"AUn_CAP", 0x30F00120, [(0x40, 64)], 1, true, 0xFFFFFFFF, 0x0, 0x0, 0x0, 0x0, 0x2710⟩,
  ⟨"AUn_COV", 0x30F00124, [(0x40, 64)], 1, false, 0x0, 0x0, 0x0, 0x0, 0x0, 0x0⟩,
  ⟨"AUn_STAT", 0x30F00128, [(0x40, 64)], 1, false, 0x0, 0x0, 0x0, 0x0, 0x0, 0x0⟩,
  ⟨"AUn_PASS", 0x30F0012C, [(0x40, 64)], 1, false, 0x0, 0x0, 0x0, 0x0, 0x0, 0x0⟩]
/-- Rows of Table 07-7. -/
def rows07_7 : List RegRow := rows07_7a ++ rows07_7b
/-- Rows of Table 08-12, part 1. -/
def rows08_12a : List RegRow := [
  ⟨"ID", 0x31300000, [], 1, false, 0x0, 0x0, 0x0, 0x0, 0x0, 0x534E0720⟩,
  ⟨"VERSION", 0x31300004, [], 1, false, 0x0, 0x0, 0x0, 0x0, 0x0, 0xA1⟩,
  ⟨"SN_CTRL", 0x31300010, [], 1, true, 0x0, 0x7, 0x0, 0x0, 0x0, 0x0⟩,
  ⟨"SN_STAT", 0x31300014, [], 1, false, 0x0, 0x0, 0x0, 0x0, 0x0, 0x0⟩,
  ⟨"SN_IRQ_STAT", 0x31300018, [], 1, false, 0x0, 0x0, 0x7F, 0x0, 0x0, 0x0⟩,
  ⟨"SN_IRQ_EN", 0x3130001C, [], 1, false, 0x7F, 0x0, 0x0, 0x0, 0x0, 0x0⟩,
  ⟨"SN_LIBA_LO", 0x31300020, [], 1, true, 0x0, 0xFFFFFFFF, 0x0, 0x0, 0x0, 0x0⟩,
  ⟨"SN_LIBA_HI", 0x31300024, [], 1, true, 0x0, 0xFF, 0x0, 0x0, 0x0, 0x0⟩,
  ⟨"SN_LIBB_LO", 0x31300028, [], 1, true, 0x0, 0xFFFFFFFF, 0x0, 0x0, 0x0, 0x0⟩,
  ⟨"SN_LIBB_HI", 0x3130002C, [], 1, true, 0x0, 0xFF, 0x0, 0x0, 0x0, 0x0⟩,
  ⟨"SN_LIB_VERIFY", 0x31300030, [], 1, false, 0x0, 0x0, 0x0, 0x0, 0x1, 0x0⟩,
  ⟨"SN_LIB_STAT", 0x31300034, [], 1, false, 0x0, 0x0, 0x0, 0x0, 0x0, 0x0⟩,
  ⟨"SN_LIB_SIZE", 0x31300038, [], 1, true, 0x0, 0xFFFFFFFF, 0x0, 0x0, 0x0, 0x0⟩,
  ⟨"SN_LOAD", 0x31300040, [], 1, true, 0x0, 0x0, 0x0, 0x0, 0x3FFFF, 0x0⟩,
  ⟨"SN_LOAD_STAT", 0x31300044, [], 1, false, 0x0, 0x0, 0x0, 0x0, 0x0, 0x0⟩,
  ⟨"SN_MSEL", 0x31300048, [], 1, false, 0xFFF, 0x0, 0x0, 0x0, 0x0, 0x0⟩,
  ⟨"SN_MSTATE", 0x3130004C, [], 1, false, 0x0, 0x0, 0x0, 0x0, 0x0, 0x0⟩,
  ⟨"SN_FAIL_BARGE", 0x31300050, [], 1, false, 0x0, 0x0, 0x0, 0x0, 0x0, 0x0⟩,
  ⟨"SN_FAIL_INFO", 0x31300054, [], 1, false, 0x0, 0x0, 0x0, 0x0, 0x0, 0x0⟩,
  ⟨"ST_CTRL", 0x31300060, [], 1, true, 0x0, 0xFFFFFF01, 0x0, 0x0, 0x0, 0x0⟩,
  ⟨"ST_START", 0x31300064, [], 1, true, 0x0, 0x0, 0x0, 0x0, 0x3F, 0x0⟩,
  ⟨"ST_NEXT_SAFE", 0x31300068, [], 1, false, 0x0, 0x0, 0x0, 0x0, 0x0, 0x0⟩,
  ⟨"ST_DEFER", 0x3130006C, [], 1, false, 0x0, 0x0, 0x0, 0x0, 0x0, 0x0⟩,
  ⟨"ST_OLDEST", 0x31300070, [], 1, false, 0x0, 0x0, 0x0, 0x0, 0x0, 0x0⟩]
/-- Rows of Table 08-12, part 2. -/
def rows08_12b : List RegRow := [
  ⟨"ST_AGEp", 0x31300100, [(0x4, 36)], 1, false, 0x0, 0x0, 0x0, 0x0, 0x0, 0x0⟩,
  ⟨"SGg_TILES", 0x31300200, [(0x10, 8)], 1, true, 0x0, 0xFFFFFFFF, 0x0, 0x0, 0x0, 0x0⟩,
  ⟨"SGg_CFG", 0x31300204, [(0x10, 8)], 1, true, 0x0, 0x3FF7FFF, 0x0, 0x0, 0x0, 0x0⟩,
  ⟨"SGg_STAT", 0x31300208, [(0x10, 8)], 1, false, 0x0, 0x0, 0x0, 0x0, 0x0, 0x0⟩,
  ⟨"RESr_STAT", 0x31300400, [(0x8, 64)], 1, false, 0x0, 0x0, 0x0, 0x0, 0x0, 0x0⟩,
  ⟨"RESr_RUNS", 0x31300404, [(0x8, 64)], 1, false, 0x0, 0x0, 0x0, 0x0, 0x0, 0x0⟩,
  ⟨"SCHKx_CFG", 0x31300800, [(0x20, 64)], 1, true, 0x0, 0xFF0FFFFF, 0x0, 0x0, 0x0, 0x0⟩,
  ⟨"SCHKx_MODEL", 0x31300804, [(0x20, 64)], 1, true, 0x0, 0xFFF, 0x0, 0x0, 0x0, 0x0⟩,
  ⟨"SCHKx_RULES_LO", 0x31300808, [(0x20, 64)], 1, true, 0x0, 0xFFFFFFFF, 0x0, 0x0, 0x0, 0x0⟩,
  ⟨"SCHKx_RULES_HI", 0x3130080C, [(0x20, 64)], 1, true, 0x0, 0xFF, 0x0, 0x0, 0x0, 0x0⟩,
  ⟨"SCHKx_STAT", 0x31300810, [(0x20, 64)], 1, false, 0x0, 0x0, 0x0, 0x0, 0x0, 0x0⟩,
  ⟨"SCHKx_PASS", 0x31300814, [(0x20, 64)], 1, false, 0x0, 0x0, 0x0, 0x0, 0x0, 0x0⟩,
  ⟨"ENVx_CFG", 0x31301000, [(0x20, 64)], 1, true, 0x0, 0xFF03FFFF, 0x0, 0x0, 0x0, 0x0⟩,
  ⟨"ENVx_TAB_LO", 0x31301004, [(0x20, 64)], 1, true, 0x0, 0xFFFFFFFF, 0x0, 0x0, 0x0, 0x0⟩,
  ⟨"ENVx_TAB_HI", 0x31301008, [(0x20, 64)], 1, true, 0x0, 0xFF, 0x0, 0x0, 0x0, 0x0⟩,
  ⟨"ENVx_STAT", 0x3130100C, [(0x20, 64)], 1, false, 0x0, 0x0, 0x0, 0x0, 0x0, 0x0⟩,
  ⟨"ENVx_PASS", 0x31301010, [(0x20, 64)], 1, false, 0x0, 0x0, 0x0, 0x0, 0x0, 0x0⟩,
  ⟨"LMPl_CFG", 0x31304000, [(0x40, 256)], 1, true, 0x0, 0xFFFFFF03, 0x0, 0x0, 0x0, 0x0⟩,
  ⟨"LMPl_IN_LO", 0x31304004, [(0x40, 256)], 2, true, 0x0, 0xFFFFFFFF, 0x0, 0x0, 0x0, 0x0⟩,
  ⟨"LMPl_IN_LEN", 0x3130400C, [(0x40, 256)], 1, true, 0x0, 0xFFFFFFFF, 0x0, 0x0, 0x0, 0x0⟩,
  ⟨"LMPl_DIG_LO", 0x31304010, [(0x40, 256)], 2, true, 0x0, 0xFFFFFFFF, 0x0, 0x0, 0x0, 0x0⟩,
  ⟨"LMPl_MAXI_T", 0x31304018, [(0x40, 256)], 1, true, 0x0, 0xFFFFFFFF, 0x0, 0x0, 0x0, 0x0⟩,
  ⟨"LMPl_MAXI_S", 0x3130401C, [(0x40, 256)], 1, true, 0x0, 0xFFFFFFFF, 0x0, 0x0, 0x0, 0x0⟩,
  ⟨"LMPl_DL_T", 0x31304020, [(0x40, 256)], 1, true, 0x0, 0xFFFFFFFF, 0x0, 0x0, 0x0, 0x0⟩]
/-- Rows of Table 08-12, part 3. -/
def rows08_12c : List RegRow := [
  ⟨"LMPl_LAST_T", 0x31304024, [(0x40, 256)], 1, false, 0x0, 0x0, 0x0, 0x0, 0x0, 0x0⟩,
  ⟨"LMPl_LAST_S", 0x31304028, [(0x40, 256)], 1, false, 0x0, 0x0, 0x0, 0x0, 0x0, 0x0⟩,
  ⟨"LMPl_STAT", 0x3130402C, [(0x40, 256)], 1, false, 0x0, 0x0, 0x0, 0x0, 0x0, 0x0⟩,
  ⟨"LMPl_SVIEW", 0x31304030, [(0x40, 256)], 1, true, 0x0, 0xFFF, 0x0, 0x0, 0x0, 0x0⟩,
  ⟨"LMPl_VREF_LO", 0x31304034, [(0x40, 256)], 2, true, 0x0, 0xFFFFFFFF, 0x0, 0x0, 0x0, 0x0⟩]
/-- Rows of Table 08-12. -/
def rows08_12 : List RegRow := rows08_12a ++ rows08_12b ++ rows08_12c
/-- Rows of Table 09-11, part 1. -/
def rows09_11a : List RegRow := [
  ⟨"ID", 0x30800000, [], 1, false, 0x0, 0x0, 0x0, 0x0, 0x0, 0x4C430720⟩,
  ⟨"VERSION", 0x30800004, [], 1, false, 0x0, 0x0, 0x0, 0x0, 0x0, 0xA1⟩,
  ⟨"LC_CTRL", 0x30800010, [], 1, true, 0x0, 0x3F, 0x0, 0x0, 0x0, 0x0⟩,
  ⟨"LC_STAT", 0x30800014, [], 1, false, 0x0, 0x0, 0x0, 0x0, 0x0, 0x0⟩,
  ⟨"LC_IRQ_STAT", 0x30800018, [], 1, false, 0x0, 0x0, 0xF, 0x0, 0x0, 0x0⟩,
  ⟨"LC_IRQ_EN", 0x3080001C, [], 1, false, 0xF, 0x0, 0x0, 0x0, 0x0, 0x0⟩,
  ⟨"LC_RSEQ", 0x30800020, [], 1, false, 0x0, 0x0, 0x0, 0x0, 0x0, 0x1⟩,
  ⟨"LC_NSEQ", 0x30800024, [], 1, false, 0x0, 0x0, 0x0, 0x0, 0x0, 0x1⟩,
  ⟨"LC_REVOKES", 0x30800028, [], 1, false, 0x0, 0x0, 0x0, 0x0, 0x0, 0x0⟩,
  ⟨"LC_LATE", 0x3080002C, [], 1, false, 0x0, 0x0, 0x0, 0x0, 0x0, 0x0⟩,
  ⟨"LC_PEND_FULL", 0x30800030, [], 1, false, 0x0, 0x0, 0x0, 0x0, 0x0, 0x0⟩,
  ⟨"NETx_CFG", 0x30800100, [(0x20, 64)], 1, true, 0x0, 0x7FFFFFFF, 0x0, 0x0, 0x0, 0x0⟩,
  ⟨"NETx_DL_T", 0x30800104, [(0x20, 64)], 1, true, 0x0, 0xFFFFFFFF, 0x0, 0x0, 0x0, 0x0⟩,
  ⟨"NETx_DL_S", 0x30800108, [(0x20, 64)], 1, true, 0x0, 0xFFFFFFFF, 0x0, 0x0, 0x0, 0x0⟩,
  ⟨"NETx_STAT", 0x3080010C, [(0x20, 64)], 1, false, 0x0, 0x0, 0x0, 0x0, 0x0, 0x0⟩,
  ⟨"NETx_PASS", 0x30800110, [(0x20, 64)], 1, false, 0x0, 0x0, 0x0, 0x0, 0x0, 0x0⟩,
  ⟨"VALv_CFG", 0x30800900, [(0x10, 4)], 1, true, 0x0, 0xFFFFFF, 0x0, 0x0, 0x0, 0x0⟩,
  ⟨"VALv_STAT", 0x30800904, [(0x10, 4)], 1, false, 0x0, 0x0, 0x0, 0x0, 0x0, 0x0⟩,
  ⟨"SPI_CFG", 0x30801000, [], 1, true, 0x0, 0x1, 0x0, 0x0, 0x0, 0x0⟩,
  ⟨"SPI_STAT", 0x30801004, [], 1, false, 0x0, 0x0, 0x0, 0x0, 0x0, 0x0⟩,
  ⟨"CANc_CFG", 0x30801100, [(0x40, 2)], 1, true, 0x0, 0x1FF, 0x0, 0x0, 0x0, 0x0⟩,
  ⟨"CANc_NBT", 0x30801104, [(0x40, 2)], 1, true, 0x0, 0x3FFFFFFF, 0x0, 0x0, 0x0, 0x0⟩,
  ⟨"CANc_DBT", 0x30801108, [(0x40, 2)], 1, true, 0x0, 0xBFFFFFFF, 0x0, 0x0, 0x0, 0x0⟩,
  ⟨"CANc_ID", 0x3080110C, [(0x40, 2)], 1, true, 0x0, 0x3FFFFFFF, 0x0, 0x0, 0x0, 0x0⟩]
/-- Rows of Table 09-11, part 2. -/
def rows09_11b : List RegRow := [
  ⟨"CANc_LEG_ID", 0x30801110, [(0x40, 2)], 1, true, 0x0, 0x1FFFFFFF, 0x0, 0x0, 0x0, 0x0⟩,
  ⟨"CANc_TX_TO", 0x30801114, [(0x40, 2)], 1, true, 0x0, 0xFFFFFFFF, 0x0, 0x0, 0x0, 0x0⟩,
  ⟨"CANc_STAT", 0x30801118, [(0x40, 2)], 1, false, 0x0, 0x0, 0x0, 0x0, 0x0, 0x0⟩,
  ⟨"CANc_LOST", 0x3080111C, [(0x40, 2)], 1, false, 0x0, 0x0, 0x0, 0x0, 0x0, 0x0⟩]
/-- Rows of Table 09-11. -/
def rows09_11 : List RegRow := rows09_11a ++ rows09_11b
/-- Rows of Table 11-9, part 1. -/
def rows11_9a : List RegRow := [
  ⟨"ID", 0x30000000, [], 1, false, 0x0, 0x0, 0x0, 0x0, 0x0, 0x42430720⟩,
  ⟨"VERSION", 0x30000004, [], 1, false, 0x0, 0x0, 0x0, 0x0, 0x0, 0xA1⟩,
  ⟨"BC_CTRL", 0x30000010, [], 1, true, 0x0, 0xFFFF03, 0x0, 0x0, 0x0, 0x0⟩,
  ⟨"BC_STAT", 0x30000014, [], 1, false, 0x0, 0x0, 0x0, 0x0, 0x0, 0x0⟩,
  ⟨"BC_IRQ_STAT", 0x30000018, [], 1, false, 0x0, 0x0, 0x1F, 0x0, 0x0, 0x0⟩,
  ⟨"BC_IRQ_EN", 0x3000001C, [], 1, false, 0x1F, 0x0, 0x0, 0x0, 0x0, 0x0⟩,
  ⟨"ERR_STATn", 0x30000020, [(0x4, 4)], 1, true, 0x0, 0x0, 0xFFFFFFFF, 0x0, 0x0, 0x0⟩,
  ⟨"SEVERE_STATn", 0x30000030, [(0x4, 4)], 1, true, 0x0, 0x0, 0xFFFFFFFF, 0x0, 0x0, 0x0⟩,
  ⟨"CONSEQ_STATn", 0x30000040, [(0x4, 4)], 1, true, 0x0, 0x0, 0xFFFFFFFF, 0x0, 0x0, 0x0⟩,
  ⟨"BC_FIRST", 0x30000050, [], 1, false, 0x0, 0x0, 0x0, 0x0, 0x0, 0x0⟩,
  ⟨"BC_LAST_EVT", 0x30000054, [], 1, false, 0x0, 0x0, 0x0, 0x0, 0x0, 0x0⟩,
  ⟨"BC_EVT_T", 0x30000058, [], 1, false, 0x0, 0x0, 0x0, 0x0, 0x0, 0x0⟩,
  ⟨"BC_SAFE_CAUSE", 0x30000060, [], 1, false, 0x0, 0x0, 0x0, 0x0, 0x0, 0x0⟩,
  ⟨"BC_SAFE_T", 0x30000064, [], 1, false, 0x0, 0x0, 0x0, 0x0, 0x0, 0x0⟩,
  ⟨"BC_SAFE_S", 0x30000068, [], 1, false, 0x0, 0x0, 0x0, 0x0, 0x0, 0x0⟩,
  ⟨"BC_MASK_OPEN", 0x30000070, [], 1, true, 0x0, 0x0, 0x0, 0x0, 0x3F7F, 0x0⟩,
  ⟨"BC_GLINT_REQ", 0x30000074, [], 1, true, 0x0, 0x0, 0x0, 0x0, 0x7FF, 0x0⟩,
  ⟨"BC_GLINT_STAT", 0x30000078, [], 1, false, 0x0, 0x0, 0x0, 0x0, 0x0, 0x0⟩,
  ⟨"BC_FORCE", 0x3000007C, [], 1, true, 0x0, 0x0, 0x0, 0x0, 0xFFFF3F7F, 0x0⟩,
  ⟨"BC_RET_CNT", 0x30000080, [], 1, false, 0x0, 0x0, 0x0, 0x0, 0x0, 0x0⟩,
  ⟨"BC_RET_CLR", 0x30000084, [], 1, true, 0x0, 0x0, 0x0, 0x0, 0xFFFF003F, 0x0⟩,
  ⟨"BC_STARTS", 0x30000088, [], 1, false, 0x0, 0x0, 0x0, 0x0, 0x0, 0x0⟩,
  ⟨"POLs_CFG", 0x30001000, [(0x20, 128)], 1, true, 0x0, 0xFFF, 0x0, 0x0, 0x0, 0x0⟩,
  ⟨"POLs_W", 0x30001004, [(0x20, 128)], 1, true, 0x0, 0x7FFFFFFF, 0x0, 0x0, 0x0, 0x0⟩]
/-- Rows of Table 11-9, part 2. -/
def rows11_9b : List RegRow := [
  ⟨"POLs_MASKm", 0x30001008, [(0x20, 128), (0x4, 4)], 1, true, 0x0, 0xFFFFFFFF, 0x0, 0x0, 0x0, 0x0⟩,
  ⟨"POLs_MINT", 0x30001018, [(0x20, 128)], 1, true, 0x0, 0x7F, 0x0, 0x0, 0x0, 0x0⟩,
  ⟨"POLs_CNT", 0x3000101C, [(0x20, 128)], 1, false, 0x0, 0x0, 0x0, 0x0, 0x0, 0x0⟩,
  ⟨"BC_RETi_INFO", 0x30003000, [(0x10, 64)], 1, false, 0x0, 0x0, 0x0, 0x0, 0x0, 0x0⟩,
  ⟨"BC_RETi_START", 0x30003004, [(0x10, 64)], 1, false, 0x0, 0x0, 0x0, 0x0, 0x0, 0x0⟩,
  ⟨"BC_RETi_T", 0x30003008, [(0x10, 64)], 1, false, 0x0, 0x0, 0x0, 0x0, 0x0, 0x0⟩]
/-- Rows of Table 11-9. -/
def rows11_9 : List RegRow := rows11_9a ++ rows11_9b
/-- Rows of Table 12-6, part 1. -/
def rows12_6a : List RegRow := [
  ⟨"ID", 0x30100000, [], 1, false, 0x0, 0x0, 0x0, 0x0, 0x0, 0x57440720⟩,
  ⟨"VERSION", 0x30100004, [], 1, false, 0x0, 0x0, 0x0, 0x0, 0x0, 0xA1⟩,
  ⟨"WD_CTRL", 0x30100010, [], 1, true, 0x0, 0x7F, 0x0, 0x0, 0x0, 0x0⟩,
  ⟨"WD_STAT", 0x30100014, [], 1, false, 0x0, 0x0, 0x0, 0x0, 0x0, 0x0⟩,
  ⟨"WD_IRQ_STAT", 0x30100018, [], 1, false, 0x0, 0x0, 0x7F, 0x0, 0x0, 0x0⟩,
  ⟨"WD_IRQ_EN", 0x3010001C, [], 1, false, 0x7F, 0x0, 0x0, 0x0, 0x0, 0x0⟩,
  ⟨"WD_RST_CNT", 0x30100020, [], 1, false, 0x0, 0x0, 0x0, 0x0, 0x0, 0x0⟩,
  ⟨"WD_RST_CAUSE", 0x30100024, [], 1, false, 0x0, 0x0, 0x0, 0x0, 0x0, 0x0⟩,
  ⟨"WD_RST_START", 0x30100028, [], 1, false, 0x0, 0x0, 0x0, 0x0, 0x0, 0x0⟩,
  ⟨"WD_RST_CLR", 0x3010002C, [], 1, true, 0x0, 0x0, 0x0, 0x0, 0xFFFF0000, 0x0⟩,
  ⟨"WDTw_CFG", 0x30100100, [(0x20, 4)], 1, true, 0x0, 0x1F, 0x0, 0x0, 0x0, 0x0⟩,
  ⟨"WDTw_OPEN", 0x30100104, [(0x20, 4)], 1, true, 0x0, 0xFFFFFF, 0x0, 0x0, 0x0, 0x0⟩,
  ⟨"WDTw_CLOSE", 0x30100108, [(0x20, 4)], 1, true, 0x0, 0xFFFFFF, 0x0, 0x0, 0x0, 0x0⟩,
  ⟨"WDTw_KEY", 0x3010010C, [(0x20, 4)], 1, false, 0x0, 0x0, 0x0, 0x0, 0xFFFF, 0x0⟩,
  ⟨"WDTw_COUNT", 0x30100110, [(0x20, 4)], 1, false, 0x0, 0x0, 0x0, 0x0, 0x0, 0x0⟩,
  ⟨"WDTw_STAT", 0x30100114, [(0x20, 4)], 1, false, 0x0, 0x0, 0x0, 0x0, 0x0, 0x0⟩,
  ⟨"TS_CHECKIN", 0x30100200, [], 1, true, 0x0, 0x0, 0x0, 0x0, 0xFF3F, 0x0⟩,
  ⟨"TS_STAT", 0x30100204, [], 1, false, 0x0, 0x0, 0x0, 0x0, 0x0, 0x0⟩,
  ⟨"TSe_CFG", 0x30101000, [(0x20, 64)], 1, true, 0x0, 0xFFFFFFFF, 0x0, 0x0, 0x0, 0x0⟩,
  ⟨"TSe_PER", 0x30101004, [(0x20, 64)], 1, true, 0x0, 0xFFFFFF, 0x0, 0x0, 0x0, 0x0⟩,
  ⟨"TSe_SEQ_LO", 0x30101008, [(0x20, 64)], 1, true, 0x0, 0xFFFFFFFF, 0x0, 0x0, 0x0, 0x0⟩,
  ⟨"TSe_SEQ_HI", 0x3010100C, [(0x20, 64)], 1, true, 0x0, 0xFFFFFFFF, 0x0, 0x0, 0x0, 0x0⟩,
  ⟨"TSe_BIND", 0x30101010, [(0x20, 64)], 1, true, 0x0, 0x7FFFF, 0x0, 0x0, 0x0, 0x0⟩,
  ⟨"TSe_STAT", 0x30101014, [(0x20, 64)], 1, false, 0x0, 0x0, 0x0, 0x0, 0x0, 0x0⟩]
/-- Rows of Table 12-6, part 2. -/
def rows12_6b : List RegRow := [
  ⟨"TSe_FAILS", 0x30101018, [(0x20, 64)], 1, false, 0x0, 0x0, 0x0, 0x0, 0x0, 0x0⟩]
/-- Rows of Table 12-6. -/
def rows12_6 : List RegRow := rows12_6a ++ rows12_6b
/-- Rows of Table 13-8. -/
def rows13_8 : List RegRow := [
  ⟨"ID", 0x30300000, [], 1, false, 0x0, 0x0, 0x0, 0x0, 0x0, 0x53490720⟩,
  ⟨"VERSION", 0x30300004, [], 1, false, 0x0, 0x0, 0x0, 0x0, 0x0, 0xA1⟩,
  ⟨"SIO_CTRL", 0x30300010, [], 1, true, 0x0, 0x3, 0x0, 0x0, 0x0, 0x0⟩,
  ⟨"SIO_STAT", 0x30300014, [], 1, false, 0x0, 0x0, 0x0, 0x0, 0x0, 0x0⟩,
  ⟨"SIO_IRQ_STAT", 0x30300018, [], 1, false, 0x0, 0x0, 0xF, 0x0, 0x0, 0x0⟩,
  ⟨"SIO_IRQ_EN", 0x3030001C, [], 1, false, 0xF, 0x0, 0x0, 0x0, 0x0, 0x0⟩,
  ⟨"SEAL_READ", 0x30300020, [], 1, false, 0x0, 0x0, 0x0, 0x0, 0x0, 0x0⟩,
  ⟨"SEAL_EXPECT", 0x30300024, [], 1, true, 0x0, 0xFF, 0x0, 0x0, 0x0, 0x0⟩,
  ⟨"BRK_VS_CFG", 0x30300028, [], 1, true, 0x0, 0xFFFFFFFF, 0x0, 0x0, 0x0, 0x0⟩,
  ⟨"BRK_VS", 0x3030002C, [], 1, false, 0x0, 0x0, 0x0, 0x0, 0x0, 0x0⟩,
  ⟨"LO_STAT", 0x30300030, [], 1, false, 0x0, 0x0, 0x0, 0x0, 0x0, 0x0⟩,
  ⟨"BRKn_CFG", 0x30300100, [(0x40, 4)], 1, true, 0x0, 0xFFF01, 0x0, 0x0, 0x0, 0x0⟩,
  ⟨"BRKn_REQ", 0x30300104, [(0x40, 4)], 1, true, 0x1, 0x0, 0x0, 0x0, 0x0, 0x0⟩,
  ⟨"BRKn_TIME", 0x30300108, [(0x40, 4)], 1, true, 0x0, 0x3FFFFFFF, 0x0, 0x0, 0x0, 0x0⟩,
  ⟨"BRKn_ILIM", 0x3030010C, [(0x40, 4)], 1, true, 0x0, 0x3FFFFFFF, 0x0, 0x0, 0x0, 0x0⟩,
  ⟨"BRKn_STAT", 0x30300110, [(0x40, 4)], 1, false, 0x0, 0x0, 0x0, 0x0, 0x0, 0x0⟩,
  ⟨"BRKn_ISNS", 0x30300114, [(0x40, 4)], 1, false, 0x0, 0x0, 0x0, 0x0, 0x0, 0x0⟩,
  ⟨"BRKn_TEST_AGE", 0x30300118, [(0x40, 4)], 1, false, 0x0, 0x0, 0x0, 0x0, 0x0, 0x0⟩,
  ⟨"BRKn_LOCK", 0x3030011C, [(0x40, 4)], 1, false, 0x0, 0x0, 0x0, 0x0, 0x0, 0x11⟩,
  ⟨"BRKn_TESTS", 0x30300120, [(0x40, 4)], 1, false, 0x0, 0x0, 0x0, 0x0, 0x0, 0x0⟩,
  ⟨"SINi_CFG", 0x30300400, [(0x10, 8)], 1, true, 0x0, 0x1FFFF07, 0x0, 0x0, 0x0, 0x0⟩,
  ⟨"SINi_STAT", 0x30300404, [(0x10, 8)], 1, false, 0x0, 0x0, 0x0, 0x0, 0x0, 0x0⟩]
/-- Rows of Table 14-15, part 1. -/
def rows14_15a : List RegRow := [
  ⟨"ID", 0x30900000, [], 1, false, 0x0, 0x0, 0x0, 0x0, 0x0, 0x53450720⟩,
  ⟨"VERSION", 0x30900004, [], 1, false, 0x0, 0x0, 0x0, 0x0, 0x0, 0xA1⟩,
  ⟨"SE_CTRL", 0x30900010, [], 1, true, 0x0, 0x3, 0x0, 0x0, 0x0, 0x0⟩,
  ⟨"SE_STAT", 0x30900014, [], 1, false, 0x0, 0x0, 0x0, 0x0, 0x0, 0x0⟩,
  ⟨"SE_IRQ_STAT", 0x30900018, [], 1, false, 0x0, 0x0, 0xF, 0x0, 0x0, 0x0⟩,
  ⟨"SE_IRQ_EN", 0x3090001C, [], 1, false, 0xF, 0x0, 0x0, 0x0, 0x0, 0x0⟩,
  ⟨"SE_START_REP", 0x30900020, [], 1, false, 0x0, 0x0, 0x0, 0x0, 0x0, 0x0⟩,
  ⟨"DEVICE_ID_LO", 0x30900024, [], 1, false, 0x0, 0x0, 0x0, 0x0, 0x0, 0x0⟩,
  ⟨"DEVICE_ID_HI", 0x30900028, [], 1, false, 0x0, 0x0, 0x0, 0x0, 0x0, 0x0⟩,
  ⟨"IMAGE_GEN", 0x3090002C, [], 1, false, 0x0, 0x0, 0x0, 0x0, 0x0, 0x0⟩,
  ⟨"IMAGE_VER", 0x30900030, [], 1, false, 0x0, 0x0, 0x0, 0x0, 0x0, 0x0⟩,
  ⟨"LC_NONCE_LO", 0x30900034, [], 1, false, 0x0, 0x0, 0x0, 0x0, 0x0, 0x0⟩,
  ⟨"LC_NONCE_HI", 0x30900038, [], 1, false, 0x0, 0x0, 0x0, 0x0, 0x0, 0x0⟩,
  ⟨"LC_REQ", 0x3090003C, [], 1, true, 0x0, 0x0, 0x0, 0x0, 0xFFFF0007, 0x0⟩,
  ⟨"LC_STAT", 0x30900040, [], 1, false, 0x0, 0x0, 0x0, 0x0, 0x0, 0x0⟩,
  ⟨"TAMPER_STAT", 0x30900044, [], 1, false, 0x0, 0x0, 0x0, 0x0, 0x0, 0x0⟩,
  ⟨"WIPE_CNT", 0x30900048, [], 1, false, 0x0, 0x0, 0x0, 0x0, 0x0, 0x0⟩,
  ⟨"SE_DEVPUBn", 0x30900080, [(0x4, 16)], 1, false, 0x0, 0x0, 0x0, 0x0, 0x0, 0x0⟩,
  ⟨"SE_COMMIT_SRC_LO", 0x309000C0, [], 1, false, 0xFFFFFFFF, 0x0, 0x0, 0x0, 0x0, 0x0⟩,
  ⟨"SE_COMMIT_SRC_HI", 0x309000C4, [], 1, false, 0xFF, 0x0, 0x0, 0x0, 0x0, 0x0⟩,
  ⟨"SE_COMMIT_LEN", 0x309000C8, [], 1, false, 0xFFFFFFFF, 0x0, 0x0, 0x0, 0x0, 0x0⟩,
  ⟨"SE_COMMIT_CMD", 0x309000CC, [], 1, false, 0x0, 0x0, 0x0, 0x0, 0x3, 0x0⟩,
  ⟨"SE_COMMIT_STAT", 0x309000D0, [], 1, false, 0x0, 0x0, 0x0, 0x0, 0x0, 0x0⟩,
  ⟨"SE_TOKENn", 0x30900100, [(0x4, 32)], 1, false, 0x0, 0x0, 0x0, 0x0, 0xFFFFFFFF, 0x0⟩]
/-- Rows of Table 14-15, part 2. -/
def rows14_15b : List RegRow := [
  ⟨"SE_ATT_CHALn", 0x30900200, [(0x4, 8)], 1, false, 0xFFFFFFFF, 0x0, 0x0, 0x0, 0x0, 0x0⟩,
  ⟨"SE_ATT_CMD", 0x30900220, [], 1, false, 0x0, 0x0, 0x0, 0x0, 0x1, 0x0⟩,
  ⟨"SE_ATT_STAT", 0x30900224, [], 1, false, 0x0, 0x0, 0x0, 0x0, 0x0, 0x0⟩,
  ⟨"SE_GOLD_REQ", 0x30900280, [], 1, false, 0x0, 0x0, 0x0, 0x0, 0x3F, 0x0⟩,
  ⟨"SE_GOLD_OK_LO", 0x30900284, [], 1, false, 0x0, 0x0, 0x0, 0x0, 0x0, 0x0⟩,
  ⟨"SE_GOLD_OK_HI", 0x30900288, [], 1, false, 0x0, 0x0, 0x0, 0x0, 0x0, 0x0⟩,
  ⟨"SE_ATT_OUTn", 0x30900400, [(0x4, 64)], 1, false, 0x0, 0x0, 0x0, 0x0, 0x0, 0x0⟩,
  ⟨"LK_CMD", 0x30900600, [], 1, true, 0x0, 0x0, 0x0, 0x0, 0x7, 0x0⟩,
  ⟨"LK_STAT", 0x30900604, [], 1, false, 0x0, 0x0, 0x0, 0x0, 0x0, 0x0⟩,
  ⟨"LK_CONF_ADDR1", 0x30900608, [], 1, false, 0x0, 0x0, 0x0, 0x0, 0x0, 0x0⟩,
  ⟨"LK_CONF_ADDR2", 0x3090060C, [], 1, false, 0x0, 0x0, 0x0, 0x0, 0x0, 0x0⟩,
  ⟨"LK_HOLD", 0x30900610, [], 1, true, 0x0, 0xFFFF, 0x0, 0x0, 0x0, 0x0⟩,
  ⟨"LK_OPEN_T", 0x30900614, [], 1, false, 0x0, 0x0, 0x0, 0x0, 0x0, 0x0⟩]
/-- Rows of Table 14-15. -/
def rows14_15 : List RegRow := rows14_15a ++ rows14_15b
/-- Rows of Table 15-10, part 1. -/
def rows15_10a : List RegRow := [
  ⟨"ID", 0x30A00000, [], 1, false, 0x0, 0x0, 0x0, 0x0, 0x0, 0x57520720⟩,
  ⟨"VERSION", 0x30A00004, [], 1, false, 0x0, 0x0, 0x0, 0x0, 0x0, 0xA1⟩,
  ⟨"WR_CTRL", 0x30A00010, [], 1, true, 0x0, 0x7, 0x0, 0x0, 0x0, 0x0⟩,
  ⟨"WR_STAT", 0x30A00014, [], 1, false, 0x0, 0x0, 0x0, 0x0, 0x0, 0x0⟩,
  ⟨"WR_IRQ_STAT", 0x30A00018, [], 1, false, 0x0, 0x0, 0x1F, 0x0, 0x0, 0x0⟩,
  ⟨"WR_IRQ_EN", 0x30A0001C, [], 1, false, 0x1F, 0x0, 0x0, 0x0, 0x0, 0x0⟩,
  ⟨"RST_CAUSE", 0x30A00020, [], 1, false, 0x0, 0x0, 0x0, 0x0, 0x0, 0x1⟩,
  ⟨"RST_REQ", 0x30A00024, [], 1, true, 0x0, 0x0, 0x0, 0x0, 0xFFFFFFFF, 0x0⟩,
  ⟨"START_STAT", 0x30A00028, [], 1, false, 0x0, 0x0, 0x0, 0x0, 0x0, 0x0⟩,
  ⟨"START_EXCL", 0x30A0002C, [], 1, false, 0x0, 0x0, 0x0, 0x0, 0x0, 0x0⟩,
  ⟨"START_TMO", 0x30A00030, [], 1, true, 0x0, 0xFFFF, 0x0, 0x0, 0x0, 0x0⟩,
  ⟨"OWN_STAT", 0x30A00034, [], 1, false, 0x0, 0x0, 0x0, 0x0, 0x0, 0x0⟩,
  ⟨"OWN_LAST", 0x30A00038, [], 1, false, 0x0, 0x0, 0x0, 0x0, 0x0, 0x0⟩,
  ⟨"TJ_STAT", 0x30A00040, [], 1, false, 0x0, 0x0, 0x0, 0x0, 0x0, 0x0⟩,
  ⟨"TJ_LIMIT", 0x30A00044, [], 1, true, 0x0, 0xFFFF, 0x0, 0x0, 0x0, 0x0⟩,
  ⟨"ACHc_CFG", 0x30A00100, [(0x10, 16)], 1, true, 0x0, 0xFFFF003F, 0x0, 0x0, 0x0, 0x0⟩,
  ⟨"ACHc_WIN", 0x30A00104, [(0x10, 16)], 1, true, 0x0, 0xFFFFFFFF, 0x0, 0x0, 0x0, 0x0⟩,
  ⟨"ACHc_OFFMAX", 0x30A00108, [(0x10, 16)], 1, true, 0x0, 0xFFFF, 0x0, 0x0, 0x0, 0x0⟩,
  ⟨"ACHc_VAL", 0x30A0010C, [(0x10, 16)], 1, false, 0x0, 0x0, 0x0, 0x0, 0x0, 0x0⟩,
  ⟨"ADC_TRIG", 0x30A00200, [], 1, true, 0x0, 0x0, 0x0, 0x0, 0xFFFF, 0x0⟩,
  ⟨"SEQs_CFG", 0x30A00300, [(0x8, 16)], 1, true, 0x0, 0xFFFFFF0F, 0x0, 0x0, 0x0, 0x0⟩,
  ⟨"SEQs_DLY", 0x30A00304, [(0x8, 16)], 1, true, 0x0, 0xFFFFFF, 0x0, 0x0, 0x0, 0x0⟩,
  ⟨"SEQ_CTRL", 0x30A00380, [], 1, true, 0x0, 0xFFFFFF01, 0x0, 0x0, 0x0, 0x0⟩,
  ⟨"SEQ_STAT", 0x30A00384, [], 1, false, 0x0, 0x0, 0x0, 0x0, 0x0, 0x0⟩]
/-- Rows of Table 15-10, part 2. -/
def rows15_10b : List RegRow := [
  ⟨"SEQ_CMD", 0x30A00388, [], 1, true, 0x0, 0x0, 0x0, 0x0, 0x3, 0x0⟩,
  ⟨"PMBb_CFG", 0x30A00400, [(0x100, 2)], 1, true, 0x0, 0x7, 0x0, 0x0, 0x0, 0x0⟩,
  ⟨"PMBb_XFER", 0x30A00404, [(0x100, 2)], 1, true, 0x0, 0x0, 0x0, 0x0, 0x3FF7F, 0x0⟩,
  ⟨"PMBb_DATA", 0x30A00408, [(0x100, 2)], 1, true, 0xFFFF, 0x0, 0x0, 0x0, 0x0, 0x0⟩,
  ⟨"PMBb_STAT", 0x30A0040C, [(0x100, 2)], 1, false, 0x0, 0x0, 0x0, 0x0, 0x0, 0x0⟩,
  ⟨"PMBb_PREt_XFER", 0x30A00410, [(0x100, 2), (0x8, 8)], 1, true, 0x0, 0x3FF7F, 0x0, 0x0, 0x0, 0x0⟩,
  ⟨"PMBb_PREt_DATA", 0x30A00414, [(0x100, 2), (0x8, 8)], 1, true, 0x0, 0xFFFF, 0x0, 0x0, 0x0, 0x0⟩]
/-- Rows of Table 15-10. -/
def rows15_10 : List RegRow := rows15_10a ++ rows15_10b
/-- Rows of Table 16-8, part 1. -/
def rows16_8a : List RegRow := [
  ⟨"ID", 0x30D00000, [], 1, false, 0x0, 0x0, 0x0, 0x0, 0x0, 0x484C0720⟩,
  ⟨"VERSION", 0x30D00004, [], 1, false, 0x0, 0x0, 0x0, 0x0, 0x0, 0xA1⟩,
  ⟨"HD_CTRL", 0x30D00010, [], 1, true, 0x0, 0x3, 0x0, 0x0, 0x0, 0x0⟩,
  ⟨"HD_STAT", 0x30D00014, [], 1, false, 0x0, 0x0, 0x0, 0x0, 0x0, 0x0⟩,
  ⟨"HD_IRQ_STAT", 0x30D00018, [], 1, false, 0x0, 0x0, 0x1F, 0x0, 0x0, 0x0⟩,
  ⟨"HD_IRQ_EN", 0x30D0001C, [], 1, false, 0x1F, 0x0, 0x0, 0x0, 0x0, 0x0⟩,
  ⟨"HD_USABLE", 0x30D00020, [], 1, false, 0x0, 0x0, 0x0, 0x0, 0x0, 0x0⟩,
  ⟨"HD_CORR", 0x30D00024, [], 1, false, 0x0, 0x0, 0x0, 0x0, 0x0, 0x0⟩,
  ⟨"HD_UNC_ADDR_LO", 0x30D00028, [], 1, false, 0x0, 0x0, 0x0, 0x0, 0x0, 0x0⟩,
  ⟨"HD_UNC_ADDR_HI", 0x30D0002C, [], 1, false, 0x0, 0x0, 0x0, 0x0, 0x0, 0x0⟩,
  ⟨"HD_SCRUB_PER", 0x30D00030, [], 1, true, 0x0, 0x7FF, 0x0, 0x0, 0x0, 0x0⟩,
  ⟨"HD_SCRUB_STAT", 0x30D00034, [], 1, false, 0x0, 0x0, 0x0, 0x0, 0x0, 0x0⟩,
  ⟨"HD_TEMP", 0x30D00038, [], 1, false, 0x0, 0x0, 0x0, 0x0, 0x0, 0x0⟩,
  ⟨"HD_QOS", 0x30D0003C, [], 1, true, 0x0, 0xFFFF, 0x0, 0x0, 0x0, 0x0⟩,
  ⟨"HD_REC_BASE_LO", 0x30D00040, [], 1, true, 0x0, 0xFFFFFFFF, 0x0, 0x0, 0x0, 0x0⟩,
  ⟨"HD_REC_BASE_HI", 0x30D00044, [], 1, true, 0x0, 0xFF, 0x0, 0x0, 0x0, 0x0⟩,
  ⟨"HD_REC_SIZE", 0x30D00048, [], 1, true, 0x0, 0x7FFF, 0x0, 0x0, 0x0, 0x0⟩,
  ⟨"HD_REC_LOG", 0x30D0004C, [], 1, true, 0x0, 0x7FF, 0x0, 0x0, 0x0, 0x0⟩,
  ⟨"HD_REC_HEAD", 0x30D00050, [], 1, false, 0x0, 0x0, 0x0, 0x0, 0x0, 0x0⟩,
  ⟨"HD_REC_SPAN", 0x30D00054, [], 1, false, 0x0, 0x0, 0x0, 0x0, 0x0, 0x0⟩,
  ⟨"HD_REC_LOST", 0x30D00058, [], 1, false, 0x0, 0x0, 0x0, 0x0, 0x0, 0x0⟩,
  ⟨"HD_REC_STAT", 0x30D0005C, [], 1, false, 0x0, 0x0, 0x0, 0x0, 0x0, 0x0⟩,
  ⟨"HD_REC_PUTn", 0x30D00060, [(0x4, 16)], 1, true, 0x0, 0x0, 0x0, 0x0, 0xFFFFFFFF, 0x0⟩,
  ⟨"HD_WP_STAT", 0x30D000A0, [], 1, false, 0x0, 0x0, 0x0, 0x0, 0x0, 0x0⟩]
/-- Rows of Table 16-8, part 2. -/
def rows16_8b : List RegRow := [
  ⟨"HD_CHc_STAT", 0x30D00100, [(0x10, 16)], 1, false, 0x0, 0x0, 0x0, 0x0, 0x0, 0x0⟩]
/-- Rows of Table 16-8. -/
def rows16_8 : List RegRow := rows16_8a ++ rows16_8b
/-- Rows of Table 16-10. -/
def rows16_10 : List RegRow := [
  ⟨"ID", 0x30E00000, [], 1, false, 0x0, 0x0, 0x0, 0x0, 0x0, 0x42530720⟩,
  ⟨"VERSION", 0x30E00004, [], 1, false, 0x0, 0x0, 0x0, 0x0, 0x0, 0xA1⟩,
  ⟨"BS_CTRL", 0x30E00010, [], 1, true, 0x0, 0x1, 0x0, 0x0, 0x0, 0x0⟩,
  ⟨"BS_STAT", 0x30E00014, [], 1, false, 0x0, 0x0, 0x0, 0x0, 0x0, 0x0⟩,
  ⟨"BS_IRQ_STAT", 0x30E00018, [], 1, false, 0x0, 0x0, 0x1F, 0x0, 0x0, 0x0⟩,
  ⟨"BS_IRQ_EN", 0x30E0001C, [], 1, false, 0x1F, 0x0, 0x0, 0x0, 0x0, 0x0⟩,
  ⟨"BS_LOST_LO", 0x30E00020, [], 1, false, 0x0, 0x0, 0x0, 0x0, 0x0, 0x0⟩,
  ⟨"BS_LOST_HI", 0x30E00024, [], 1, false, 0x0, 0x0, 0x0, 0x0, 0x0, 0x0⟩,
  ⟨"BS_LOST_CLR", 0x30E00028, [], 1, true, 0x0, 0x0, 0x0, 0x0, 0x3F, 0x0⟩,
  ⟨"BS_MARCH_RUN", 0x30E0002C, [], 1, false, 0x0, 0x0, 0x0, 0x0, 0x0, 0x0⟩,
  ⟨"BS_MARCH_CMD", 0x30E00030, [], 1, false, 0x0, 0x0, 0x0, 0x0, 0x33F, 0x0⟩,
  ⟨"BS_MARCH_STAT", 0x30E00034, [], 1, false, 0x0, 0x0, 0x0, 0x0, 0x0, 0x0⟩,
  ⟨"BS_CORR", 0x30E00038, [], 1, false, 0x0, 0x0, 0x0, 0x0, 0x0, 0x0⟩,
  ⟨"BS_UNC_ADDR", 0x30E0003C, [], 1, false, 0x0, 0x0, 0x0, 0x0, 0x0, 0x0⟩,
  ⟨"VT_STAT", 0x30E00040, [], 1, false, 0x0, 0x0, 0x0, 0x0, 0x0, 0x0⟩,
  ⟨"BANKb_CFG", 0x30E00100, [(0x10, 64)], 1, true, 0x0, 0x1F, 0x0, 0x0, 0x0, 0x0⟩,
  ⟨"BANKb_OWN", 0x30E00104, [(0x10, 64)], 1, false, 0x1F, 0x0, 0x0, 0x0, 0x0, 0x0⟩,
  ⟨"BANKb_STAT", 0x30E00108, [(0x10, 64)], 1, false, 0x0, 0x0, 0x0, 0x0, 0x0, 0x0⟩]
/-- Rows of Table 17-5. -/
def rows17_5 : List RegRow := [
  ⟨"ID", 0x30400000, [], 1, false, 0x0, 0x0, 0x0, 0x0, 0x0, 0x54590720⟩,
  ⟨"VERSION", 0x30400004, [], 1, false, 0x0, 0x0, 0x0, 0x0, 0x0, 0xA1⟩,
  ⟨"TLY_CTRL", 0x30400010, [], 1, true, 0x0, 0x1, 0x0, 0x0, 0x0, 0x0⟩,
  ⟨"TLY_ASSIGN", 0x30400014, [], 1, true, 0x0, 0xFFFFFFFF, 0x0, 0x0, 0x0, 0x0⟩,
  ⟨"TLY_STAT", 0x30400018, [], 1, false, 0x0, 0x0, 0x0, 0x0, 0x0, 0x0⟩,
  ⟨"TLY_ERR", 0x3040001C, [], 1, false, 0x0, 0x0, 0x0, 0x0, 0x0, 0x0⟩,
  ⟨"TLY_GLINTS", 0x30400020, [], 1, false, 0x0, 0x0, 0x0, 0x0, 0x0, 0x0⟩,
  ⟨"TLYu_CFG", 0x30400100, [(0x40, 16)], 1, false, 0x37, 0x0, 0x0, 0x0, 0x0, 0x0⟩,
  ⟨"TLYu_START", 0x30400104, [(0x40, 16)], 1, false, 0x0, 0x0, 0x0, 0x0, 0xFFFFFFFF, 0x0⟩,
  ⟨"TLYu_IN8", 0x30400108, [(0x40, 16)], 1, false, 0x0, 0x0, 0x0, 0x0, 0xFFFFFFFF, 0x0⟩,
  ⟨"TLYu_IN16", 0x3040010C, [(0x40, 16)], 1, false, 0x0, 0x0, 0x0, 0x0, 0xFFFFFFFF, 0x0⟩,
  ⟨"TLYu_IN32", 0x30400110, [(0x40, 16)], 1, false, 0x0, 0x0, 0x0, 0x0, 0xFFFFFFFF, 0x0⟩,
  ⟨"TLYu_RES_LO", 0x30400114, [(0x40, 16)], 1, false, 0x0, 0x0, 0x0, 0x0, 0x0, 0x0⟩,
  ⟨"TLYu_RES_HI", 0x30400118, [(0x40, 16)], 1, false, 0x0, 0x0, 0x0, 0x0, 0x0, 0x0⟩,
  ⟨"TLYu_STAT", 0x3040011C, [(0x40, 16)], 1, false, 0x0, 0x0, 0x0, 0x0, 0x0, 0x0⟩,
  ⟨"TLYu_ALIVE", 0x30400120, [(0x40, 16)], 1, false, 0x0, 0x0, 0x0, 0x0, 0x0, 0x0⟩,
  ⟨"TLYu_ALIVE_CHK", 0x30400124, [(0x40, 16)], 1, false, 0x0, 0x0, 0x0, 0x0, 0xF, 0x0⟩,
  ⟨"TLYu_ALIVE_STAT", 0x30400128, [(0x40, 16)], 1, false, 0x0, 0x0, 0x0, 0x0, 0x0, 0x0⟩]
/-- Rows of Table 18-13, part 1. -/
def rows18_13a : List RegRow := [
  ⟨"ID", 0x30B00000, [], 1, false, 0x0, 0x0, 0x0, 0x0, 0x0, 0x54500720⟩,
  ⟨"VERSION", 0x30B00004, [], 1, false, 0x0, 0x0, 0x0, 0x0, 0x0, 0xA1⟩,
  ⟨"TP_CFG", 0x30B00010, [], 1, true, 0x0, 0x3FF01FF, 0x0, 0x0, 0x0, 0x0⟩,
  ⟨"TP_STAT", 0x30B00014, [], 1, false, 0x0, 0x0, 0x0, 0x0, 0x0, 0x0⟩,
  ⟨"TP_IRQ_STAT", 0x30B00018, [], 1, false, 0x0, 0x0, 0x1F, 0x0, 0x0, 0x0⟩,
  ⟨"TP_IRQ_EN", 0x30B0001C, [], 1, false, 0x1F, 0x0, 0x0, 0x0, 0x0, 0x0⟩,
  ⟨"TP_ADDR", 0x30B00020, [], 1, false, 0x0, 0x0, 0x0, 0x0, 0x0, 0x0⟩,
  ⟨"TP_STOP_CFG", 0x30B00024, [], 1, true, 0x0, 0x7F, 0x0, 0x0, 0x0, 0x0⟩,
  ⟨"TP_STOP_TX", 0x30B00028, [], 1, true, 0x0, 0x0, 0x0, 0x0, 0xFFFF0007, 0x0⟩,
  ⟨"TP_STOP_LAST", 0x30B0002C, [], 1, false, 0x0, 0x0, 0x0, 0x0, 0x0, 0x0⟩,
  ⟨"TP_STOP_T", 0x30B00030, [], 1, false, 0x0, 0x0, 0x0, 0x0, 0x0, 0x0⟩,
  ⟨"TP_STOP_CNT", 0x30B00034, [], 1, false, 0x0, 0x0, 0x0, 0x0, 0x0, 0x0⟩,
  ⟨"TP_ROUTE_GEN", 0x30B00038, [], 1, false, 0x0, 0x0, 0x0, 0x0, 0x0, 0x0⟩,
  ⟨"TP_ROUTE_STAT", 0x30B0003C, [], 1, false, 0x0, 0x0, 0x0, 0x0, 0x0, 0x0⟩,
  ⟨"TP_TIME_CFG", 0x30B00040, [], 1, true, 0x0, 0xFF1F, 0x0, 0x0, 0x0, 0x0⟩,
  ⟨"TP_TIME_STAT", 0x30B00044, [], 1, false, 0x0, 0x0, 0x0, 0x0, 0x0, 0x0⟩,
  ⟨"TP_TOFF_SITE", 0x30B00048, [], 1, false, 0x0, 0x0, 0x0, 0x0, 0x0, 0x0⟩,
  ⟨"TP_TOFF_ZONE", 0x30B0004C, [], 1, false, 0x0, 0x0, 0x0, 0x0, 0x0, 0x0⟩,
  ⟨"TP_RATE_SITE", 0x30B00050, [], 1, false, 0x0, 0x0, 0x0, 0x0, 0x0, 0x0⟩,
  ⟨"TP_RATE_ZONE", 0x30B00054, [], 1, false, 0x0, 0x0, 0x0, 0x0, 0x0, 0x0⟩,
  ⟨"TP_TOFF_LIM", 0x30B00058, [], 1, true, 0x0, 0xFF, 0x0, 0x0, 0x0, 0x0⟩,
  ⟨"TP_HQ", 0x30B00060, [], 1, true, 0x0, 0xFFFF3F, 0x0, 0x0, 0x0, 0x0⟩,
  ⟨"TP_HTX_PROD", 0x30B00064, [], 1, false, 0xFF, 0x0, 0x0, 0x0, 0x0, 0x0⟩,
  ⟨"TP_HTX_CONS", 0x30B00068, [], 1, false, 0x0, 0x0, 0x0, 0x0, 0x0, 0x0⟩]
/-- Rows of Table 18-13, part 2. -/
def rows18_13b : List RegRow := [
  ⟨"TP_HRX_PROD", 0x30B0006C, [], 1, false, 0x0, 0x0, 0x0, 0x0, 0x0, 0x0⟩,
  ⟨"TP_HRX_CONS", 0x30B00070, [], 1, false, 0xFF, 0x0, 0x0, 0x0, 0x0, 0x0⟩,
  ⟨"TP_HRX_DROP", 0x30B00074, [], 1, false, 0x0, 0x0, 0x0, 0x0, 0x0, 0x0⟩,
  ⟨"TP_BRIDGE", 0x30B00078, [], 1, true, 0x0, 0xFF1FFF, 0x0, 0x0, 0x0, 0x0⟩,
  ⟨"TPq_CFG", 0x30B00100, [(0x40, 4)], 1, true, 0x0, 0x3, 0x0, 0x0, 0x0, 0x0⟩,
  ⟨"TPq_ASYM", 0x30B00104, [(0x40, 4)], 1, true, 0x0, 0xFFFF, 0x0, 0x0, 0x0, 0x0⟩,
  ⟨"TPq_MAC_LO", 0x30B00108, [(0x40, 4)], 1, true, 0x0, 0xFFFFFFFF, 0x0, 0x0, 0x0, 0x0⟩,
  ⟨"TPq_MAC_HI", 0x30B0010C, [(0x40, 4)], 1, true, 0x0, 0xFFFF, 0x0, 0x0, 0x0, 0x0⟩,
  ⟨"TPq_STAT", 0x30B00110, [(0x40, 4)], 1, false, 0x0, 0x0, 0x0, 0x0, 0x0, 0x0⟩,
  ⟨"TPq_PDELAY", 0x30B00114, [(0x40, 4)], 1, false, 0x0, 0x0, 0x0, 0x0, 0x0, 0x0⟩,
  ⟨"TPq_ERR", 0x30B00118, [(0x40, 4)], 1, false, 0x0, 0x0, 0x0, 0x0, 0x0, 0x0⟩,
  ⟨"TPq_FRAMES", 0x30B0011C, [(0x40, 4)], 1, false, 0x0, 0x0, 0x0, 0x0, 0x0, 0x0⟩,
  ⟨"TP_CRTn", 0x30B00400, [(0x4, 16)], 1, false, 0x0, 0x0, 0x0, 0x0, 0x0, 0x0⟩,
  ⟨"TP_ZRTc", 0x30B00440, [(0x4, 16)], 1, false, 0x0, 0x0, 0x0, 0x0, 0x0, 0x0⟩,
  ⟨"TP_SRTz", 0x30B00480, [(0x4, 16)], 1, false, 0x0, 0x0, 0x0, 0x0, 0x0, 0x0⟩]
/-- Rows of Table 18-13. -/
def rows18_13 : List RegRow := rows18_13a ++ rows18_13b
/-- Rows of Table 19-4. -/
def rows19_4 : List RegRow := [
  ⟨"ID", 0x31400000, [], 1, false, 0x0, 0x0, 0x0, 0x0, 0x0, 0x4B430720⟩,
  ⟨"VERSION", 0x31400004, [], 1, false, 0x0, 0x0, 0x0, 0x0, 0x0, 0xA1⟩,
  ⟨"KC_CTRL", 0x31400010, [], 1, true, 0x0, 0x1, 0x0, 0x0, 0x0, 0x0⟩,
  ⟨"KC_STAT", 0x31400014, [], 1, false, 0x0, 0x0, 0x0, 0x0, 0x0, 0x0⟩,
  ⟨"KC_HWPERM", 0x31400018, [], 1, true, 0x0, 0x3FFFF, 0x0, 0x0, 0x0, 0x0⟩,
  ⟨"KC_TCM_CORR", 0x3140001C, [], 1, false, 0x0, 0x0, 0x0, 0x0, 0x0, 0x0⟩,
  ⟨"KC_Kp_MISM", 0x31400020, [(0x4, 2)], 1, false, 0x0, 0x0, 0x0, 0x0, 0x0, 0x0⟩,
  ⟨"KC_Kp_KWn_CFG", 0x31400100, [(0x20, 2), (0x8, 4)], 1, true, 0x7FF0003, 0x0, 0x0, 0x0, 0x0, 0x0⟩]
/-- Rows of Table 20-4. -/
def rows20_4 : List RegRow := [
  ⟨"ID", 0x30C00000, [], 1, false, 0x0, 0x0, 0x0, 0x0, 0x0, 0x4C4E0720⟩,
  ⟨"VERSION", 0x30C00004, [], 1, false, 0x0, 0x0, 0x0, 0x0, 0x0, 0xA1⟩,
  ⟨"LN_CTRL", 0x30C00010, [], 1, true, 0x0, 0x1, 0x0, 0x0, 0x0, 0x0⟩,
  ⟨"LN_STAT", 0x30C00014, [], 1, false, 0x0, 0x0, 0x0, 0x0, 0x0, 0x0⟩,
  ⟨"LN_IRQ_STAT", 0x30C00018, [], 1, false, 0x0, 0x0, 0x7, 0x0, 0x0, 0x0⟩,
  ⟨"LN_IRQ_EN", 0x30C0001C, [], 1, false, 0x7, 0x0, 0x0, 0x0, 0x0, 0x0⟩,
  ⟨"LN_PERM", 0x30C00020, [], 1, true, 0x0, 0x3F, 0x0, 0x0, 0x0, 0x0⟩,
  ⟨"LN_FREEZE", 0x30C00024, [], 1, false, 0x1, 0x0, 0x0, 0x0, 0x0, 0x0⟩,
  ⟨"LN_BW_WIN", 0x30C00028, [], 1, false, 0xFFFFF, 0x0, 0x0, 0x0, 0x0, 0x3E8⟩,
  ⟨"LN_DUMP_CFG", 0x30C00030, [], 1, true, 0x0, 0x7F, 0x0, 0x0, 0x0, 0x0⟩,
  ⟨"LN_DUMP_NOW", 0x30C00034, [], 1, false, 0x0, 0x0, 0x0, 0x0, 0xFFFFFFFF, 0x0⟩,
  ⟨"LN_DUMP_HEAD", 0x30C00038, [], 1, false, 0x0, 0x0, 0x0, 0x0, 0x0, 0x0⟩,
  ⟨"LN_DUMP_SEQ", 0x30C0003C, [], 1, false, 0x0, 0x0, 0x0, 0x0, 0x0, 0x1⟩,
  ⟨"LN_DUMP_SKIP", 0x30C00040, [], 1, false, 0x0, 0x0, 0x0, 0x0, 0x0, 0x0⟩,
  ⟨"LNu_CYC_LO", 0x30C01000, [(0x100, 64)], 1, false, 0x0, 0x0, 0x0, 0x0, 0x0, 0x0⟩,
  ⟨"LNu_CYC_HI", 0x30C01004, [(0x100, 64)], 1, false, 0x0, 0x0, 0x0, 0x0, 0x0, 0x0⟩,
  ⟨"LNu_CTL", 0x30C01008, [(0x100, 64)], 1, false, 0x1, 0x0, 0x0, 0x0, 0x0, 0x0⟩,
  ⟨"LNu_OVF", 0x30C0100C, [(0x100, 64)], 1, false, 0x0, 0x0, 0xFF, 0x0, 0x0, 0x0⟩,
  ⟨"LNu_CNTk_LO", 0x30C01010, [(0x100, 64), (0x8, 8)], 1, false, 0x0, 0x0, 0x0, 0x0, 0x0, 0x0⟩,
  ⟨"LNu_CNTk_HI", 0x30C01014, [(0x100, 64), (0x8, 8)], 1, false, 0x0, 0x0, 0x0, 0x0, 0x0, 0x0⟩,
  ⟨"LNu_EVSELk", 0x30C01050, [(0x100, 64), (0x4, 8)], 1, false, 0x7FF, 0x0, 0x0, 0x0, 0x0, 0x0⟩,
  ⟨"LNu_BW_RD", 0x30C01070, [(0x100, 64)], 1, false, 0x0, 0x0, 0x0, 0x0, 0x0, 0x0⟩,
  ⟨"LNu_BW_WR", 0x30C01074, [(0x100, 64)], 1, false, 0x0, 0x0, 0x0, 0x0, 0x0, 0x0⟩]

/-- The rows of the block whose window holds address `a` (Table 19-2): 1 MiB per block, 64 KiB per tile (Table 06-18). -/
def rowsAt (a : Nat) : List RegRow :=
  if 0x31000000 ≤ a ∧ a < 0x31240000 then rows06_18 else
  if a / 0x100000 = 0x302 then rows02_7 else
  if a / 0x100000 = 0x305 then rows03_7 else
  if a / 0x100000 = 0x306 then rows04_11 else
  if a / 0x100000 = 0x307 then rows05_7 else
  if a / 0x100000 = 0x30F then rows07_7 else
  if a / 0x100000 = 0x313 then rows08_12 else
  if a / 0x100000 = 0x308 then rows09_11 else
  if a / 0x100000 = 0x300 then rows11_9 else
  if a / 0x100000 = 0x301 then rows12_6 else
  if a / 0x100000 = 0x303 then rows13_8 else
  if a / 0x100000 = 0x309 then rows14_15 else
  if a / 0x100000 = 0x30A then rows15_10 else
  if a / 0x100000 = 0x30D then rows16_8 else
  if a / 0x100000 = 0x30E then rows16_10 else
  if a / 0x100000 = 0x304 then rows17_5 else
  if a / 0x100000 = 0x30B then rows18_13 else
  if a / 0x100000 = 0x314 then rows19_4 else
  if a / 0x100000 = 0x30C then rows20_4 else
  []

/-- Whether `d` is an offset of an instance: strides falling, each index within its count, then one of the words. -/
def offsetIn : List (Nat × Nat) → Nat → Nat → Bool
  | [], words, d => d % 4 == 0 && d < 4 * words
  | (stride, count) :: rest, words, d =>
    d / stride < count && offsetIn rest words (d - stride * (d / stride))

/-- The row of the register at address `a`, if one is assigned there. -/
def regRow (a : Nat) : Option RegRow :=
  (rowsAt a).find? fun r => r.base ≤ a && offsetIn r.dims r.words (a - r.base)

/-- The rows whose Reset column is a number other than 0. -/
def rowsNonzero : List RegRow := [
  ⟨"ID", 0x30200000, [], 1, false, 0x0, 0x0, 0x0, 0x0, 0x0, 0x4D500720⟩,
  ⟨"VERSION", 0x30200004, [], 1, false, 0x0, 0x0, 0x0, 0x0, 0x0, 0xA1⟩,
  ⟨"TMRc_TINC_FRAC", 0x30203008, [(0x20, 16)], 1, false, 0xFFFFFFFF, 0x0, 0x0, 0x0, 0x0, 0x55555555⟩,
  ⟨"TMRc_TINC_INT", 0x3020300C, [(0x20, 16)], 1, false, 0xFFFFFFFF, 0x0, 0x0, 0x0, 0x0, 0x1⟩,
  ⟨"ID", 0x30500000, [], 1, false, 0x0, 0x0, 0x0, 0x0, 0x0, 0x534C0720⟩,
  ⟨"VERSION", 0x30500004, [], 1, false, 0x0, 0x0, 0x0, 0x0, 0x0, 0xA1⟩,
  ⟨"BARGE_NEXT", 0x30500020, [], 1, false, 0x0, 0x0, 0x0, 0x0, 0x0, 0x1⟩,
  ⟨"ID", 0x30600000, [], 1, false, 0x0, 0x0, 0x0, 0x0, 0x0, 0x4D520720⟩,
  ⟨"VERSION", 0x30600004, [], 1, false, 0x0, 0x0, 0x0, 0x0, 0x0, 0xA1⟩,
  ⟨"ID", 0x30700000, [], 1, false, 0x0, 0x0, 0x0, 0x0, 0x0, 0x4D490720⟩,
  ⟨"VERSION", 0x30700004, [], 1, false, 0x0, 0x0, 0x0, 0x0, 0x0, 0xA1⟩,
  ⟨"ID", 0x31000000, [(0x10000, 36)], 1, false, 0x0, 0x0, 0x0, 0x0, 0x0, 0x53540720⟩,
  ⟨"VERSION", 0x31000004, [(0x10000, 36)], 1, false, 0x0, 0x0, 0x0, 0x0, 0x0, 0xA1⟩,
  ⟨"ID", 0x30F00000, [], 1, false, 0x0, 0x0, 0x0, 0x0, 0x0, 0x41550720⟩,
  ⟨"VERSION", 0x30F00004, [], 1, false, 0x0, 0x0, 0x0, 0x0, 0x0, 0xA1⟩,
  ⟨"AUn_CAP", 0x30F00120, [(0x40, 64)], 1, true, 0xFFFFFFFF, 0x0, 0x0, 0x0, 0x0, 0x2710⟩,
  ⟨"ID", 0x31300000, [], 1, false, 0x0, 0x0, 0x0, 0x0, 0x0, 0x534E0720⟩,
  ⟨"VERSION", 0x31300004, [], 1, false, 0x0, 0x0, 0x0, 0x0, 0x0, 0xA1⟩,
  ⟨"ID", 0x30800000, [], 1, false, 0x0, 0x0, 0x0, 0x0, 0x0, 0x4C430720⟩,
  ⟨"VERSION", 0x30800004, [], 1, false, 0x0, 0x0, 0x0, 0x0, 0x0, 0xA1⟩,
  ⟨"LC_RSEQ", 0x30800020, [], 1, false, 0x0, 0x0, 0x0, 0x0, 0x0, 0x1⟩,
  ⟨"LC_NSEQ", 0x30800024, [], 1, false, 0x0, 0x0, 0x0, 0x0, 0x0, 0x1⟩,
  ⟨"ID", 0x30000000, [], 1, false, 0x0, 0x0, 0x0, 0x0, 0x0, 0x42430720⟩,
  ⟨"VERSION", 0x30000004, [], 1, false, 0x0, 0x0, 0x0, 0x0, 0x0, 0xA1⟩] ++ [
  ⟨"ID", 0x30100000, [], 1, false, 0x0, 0x0, 0x0, 0x0, 0x0, 0x57440720⟩,
  ⟨"VERSION", 0x30100004, [], 1, false, 0x0, 0x0, 0x0, 0x0, 0x0, 0xA1⟩,
  ⟨"ID", 0x30300000, [], 1, false, 0x0, 0x0, 0x0, 0x0, 0x0, 0x53490720⟩,
  ⟨"VERSION", 0x30300004, [], 1, false, 0x0, 0x0, 0x0, 0x0, 0x0, 0xA1⟩,
  ⟨"BRKn_LOCK", 0x3030011C, [(0x40, 4)], 1, false, 0x0, 0x0, 0x0, 0x0, 0x0, 0x11⟩,
  ⟨"ID", 0x30900000, [], 1, false, 0x0, 0x0, 0x0, 0x0, 0x0, 0x53450720⟩,
  ⟨"VERSION", 0x30900004, [], 1, false, 0x0, 0x0, 0x0, 0x0, 0x0, 0xA1⟩,
  ⟨"ID", 0x30A00000, [], 1, false, 0x0, 0x0, 0x0, 0x0, 0x0, 0x57520720⟩,
  ⟨"VERSION", 0x30A00004, [], 1, false, 0x0, 0x0, 0x0, 0x0, 0x0, 0xA1⟩,
  ⟨"RST_CAUSE", 0x30A00020, [], 1, false, 0x0, 0x0, 0x0, 0x0, 0x0, 0x1⟩,
  ⟨"ID", 0x30D00000, [], 1, false, 0x0, 0x0, 0x0, 0x0, 0x0, 0x484C0720⟩,
  ⟨"VERSION", 0x30D00004, [], 1, false, 0x0, 0x0, 0x0, 0x0, 0x0, 0xA1⟩,
  ⟨"ID", 0x30E00000, [], 1, false, 0x0, 0x0, 0x0, 0x0, 0x0, 0x42530720⟩,
  ⟨"VERSION", 0x30E00004, [], 1, false, 0x0, 0x0, 0x0, 0x0, 0x0, 0xA1⟩,
  ⟨"ID", 0x30400000, [], 1, false, 0x0, 0x0, 0x0, 0x0, 0x0, 0x54590720⟩,
  ⟨"VERSION", 0x30400004, [], 1, false, 0x0, 0x0, 0x0, 0x0, 0x0, 0xA1⟩,
  ⟨"ID", 0x30B00000, [], 1, false, 0x0, 0x0, 0x0, 0x0, 0x0, 0x54500720⟩,
  ⟨"VERSION", 0x30B00004, [], 1, false, 0x0, 0x0, 0x0, 0x0, 0x0, 0xA1⟩,
  ⟨"ID", 0x31400000, [], 1, false, 0x0, 0x0, 0x0, 0x0, 0x0, 0x4B430720⟩,
  ⟨"VERSION", 0x31400004, [], 1, false, 0x0, 0x0, 0x0, 0x0, 0x0, 0xA1⟩,
  ⟨"ID", 0x30C00000, [], 1, false, 0x0, 0x0, 0x0, 0x0, 0x0, 0x4C4E0720⟩,
  ⟨"VERSION", 0x30C00004, [], 1, false, 0x0, 0x0, 0x0, 0x0, 0x0, 0xA1⟩,
  ⟨"LN_BW_WIN", 0x30C00028, [], 1, false, 0xFFFFF, 0x0, 0x0, 0x0, 0x0, 0x3E8⟩,
  ⟨"LN_DUMP_SEQ", 0x30C0003C, [], 1, false, 0x0, 0x0, 0x0, 0x0, 0x0, 0x1⟩]

/-- Fields whose chapter states a factory default for an "img" value (R11): register address and word. GEOM_TOKEN is that of -A and
-M; a part of grade L starts from 0x0118 (Table 06-18, `Machine.gradeToken`). -/
def factoryDefaults : List (Nat × Word) := [
  (R.SL_CTRL, 0x30), (R.MI_CTRL, 0xA00), (R.BC_CTRL, 0xA0A00), (R.WD_CTRL, 10), (R.START_TMO, 10000),
  (R.TP_TOFF_LIM, 3), (R.TP_TIME_CFG, 0x6405), (R.GEOM_TOKEN 0, 0x120)]

/-- The value a register holds before anything has written it: the Reset column (R11), the factory default of an "img" field, the
default policy of a source (R242), else 0 (log entry 1). -/
def resetOf (a : Nat) : Word :=
  if 0x30001000 ≤ a ∧ a < 0x30002000 then polDefault ((a - 0x30001000) / 0x20) ((a - 0x30001000) % 0x20)
  else match rowsNonzero.find? fun r => r.base ≤ a && offsetIn r.dims r.words (a - r.base) with
    | some r => r.reset
    | none => match factoryDefaults.find? (·.1 = a) with
      | some p => p.2
      | none => 0

/-- Whether address `a` lies in a block register window (Table 19-2). -/
def inRegWindow (a : Nat) : Bool := (rowsAt a).isEmpty == false

end Sys2Proof.Machine
end

