-- ==== Sys2Proof/Machine/State.lean ====
section
/-! DEFINITION. Machine/State.lean: the state of the companion as plain data, why a step can stop, and the state after power-on
reset. Registers whose cells software or hardware simply writes live in `regs`, by address (Machine/RegMap.lean gives names and
reset values); what the manual gives the part beside its registers has a field of its own here. -/

namespace Sys2Proof.Machine

/-! ### Values shared by several blocks -/

/-- A pair of short stamps: TIME_NS[31:0] and TRAVEL[31:0]. -/
structure Stamp where
  t : Word
  s : Word
  deriving DecidableEq, Repr

/-- The response of the last register or memory access (R7, R9, R13). -/
inductive BusResp | none | ok (data : DWord) | error
  deriving DecidableEq, Repr

/-- Frame status codes (Table 03-3). -/
inductive FrameStatus
  | ok | linkBad | hdrBad | segBad | lenBad | checkBad | seqRepeat | stampBad | seqGap | restarted | late | retired
  deriving DecidableEq, Repr

/-- Deadline domains (R42). -/
inductive DlDomain | time | travel | both
  deriving DecidableEq, Repr

/-! ### Milepost -/

/-- TRAVEL quality (Table 02-1). -/
inductive TravelQ | measured | single | estimated
  deriving DecidableEq, Repr

/-- One encoder interface: what R33 to R38 need beside its registers. `moved` is the signed sum of its counts; `hist` its value at
the last ten speed estimates, newest first; `rev` how far it stands inside the hysteresis band of R35. -/
structure Encoder where
  lost : Bool
  a : Bool
  b : Bool
  dir : Bool
  rev : Nat
  zSeen : Bool
  zCount : Word
  ssiLast : Option Word
  ssiRun : Nat
  /-- The cycle of the last SSI read (R34). -/
  ssiAt : Option Nat
  moved : DWord
  hist : List DWord
  deriving DecidableEq, Repr

/-- An entry of the Keeper release queue (R47). -/
structure QEntry where
  post : BitVec 8
  t : Word
  s : Word
  deriving DecidableEq, Repr

/-- The posts' registers and their bounds no longer used, as they stood before an open, and the registers the open has written. -/
structure PostTable where
  regs : List (Nat × Word)
  tUnused : List (Fin 256)
  sUnused : List (Fin 256)
  written : List Nat
  deriving DecidableEq, Repr

/-- Milepost. `reached` lists the posts that wait for their release with the cycles they were reached in; `postTable` is the table at the
start of this cycle where an open has changed it since (R44); `released` is the post released in this cycle (R46). -/
structure Milepost where
  travel : DWord
  travelFrac : Word
  estRem : Nat
  quality : TravelQ
  singleSince : Nat
  opened : Bool
  encs : Vector Encoder 4
  lastDir : Bool
  failRun : Nat
  stillRun : Nat
  /-- The cycle of the last speed estimate (R36). -/
  speedAt : Option Nat
  timeOk : Bool
  latches : List ((Initiator × Quantity) × Word)
  reached : List (Fin 256 × Nat)
  postTable : Option PostTable
  released : Option (Fin 256)
  postTUnused : List (Fin 256)
  postSUnused : List (Fin 256)
  keeperQ : List QEntry
  timers : Vector (BitVec 96) 16
  caps : Vector (List (DWord × DWord)) 8
  /-- Per trigger pin, the cycle at which the running pulse ends. -/
  trigs : Vector (Option Nat) 8
  deriving DecidableEq, Repr

/-! ### Sluice and barges -/

/-- A frame in progress on a stream (R56). -/
structure Frame where
  sofTime : DWord
  sof : Stamp
  barge : Option Word
  payload : List Byte
  header : Option (List Byte)
  /-- The first failure met so far, in the order of Table 03-3. -/
  bad : Option FrameStatus
  nextSeg : Nat
  cnt : Word
  stamp : DWord
  /-- Placed by R61 rule 1 as a candidate retransmission. -/
  retx : Bool
  /-- The assembly deadline of its barge (LATE, Table 03-3). -/
  asm : Stamp
  deriving DecidableEq, Repr

/-- One stream: its sequence state (R57 to R60). -/
structure Stream where
  frame : Option Frame
  lastCnt : Word
  lastStamp : DWord
  lastSof : DWord
  /-- A restart is due at the next frame; `quiet` when it raises no ES17 (R59). -/
  restartDue : Bool
  restartQuiet : Bool
  warmLeft : Nat
  last : FrameStatus
  lost : Nat
  retired : Bool
  deriving DecidableEq, Repr

/-- A buffer of the input ring (R66), by offset from the ring's base; a freed one stays until a copy overwrites it (R336). -/
structure RingBuf where
  barge : Word
  start : Nat
  len : Nat
  freed : Bool
  at_ : Nat
  deriving DecidableEq, Repr

/-- A receiver's lock or a port's link: not yet had, had, or lost since (R59 restarts a stream when it is regained). -/
inductive LinkState | never | up | lost
  deriving DecidableEq, Repr

structure Sluice where
  streams : Vector Stream 32
  csiLock : Vector LinkState 8
  ethLink : Vector LinkState 4
  ringWrite : Nat
  ring : List RingBuf
  slotEnd : Option Nat
  /-- Lamp barges whose slot has not begun, and their slots in 10 µs. -/
  lampWait : List (Word × Nat)
  suspended : Bool
  allRetired : Vector Bool 16
  deriving DecidableEq, Repr

/-- A member of a barge (R19). `status` none: still arriving. -/
structure Member where
  stream : Fin 32
  status : Option FrameStatus
  warm : Bool
  cnt : Word
  sof : Stamp
  header : List Byte
  payload : List Byte
  deriving DecidableEq, Repr

/-- A signature record (Table 04-5), parsed, with the stamps of its landing cycle and its slot. -/
structure SigRec where
  copy : Fin 4
  last : Bool
  dead : Bool
  net : Half
  barge : Word
  window : Half
  coreset : Byte
  digest : DWord
  sig : BitVec 128
  outAddr : DWord
  landed : Stamp
  slot : Nat
  deriving DecidableEq, Repr

/-- The key of an accepted record with its bytes (R81). -/
inductive RecKey
  | sig (copy : Fin 4) (net : Half) (window : Half) (dead : Bool)
  | sealRec (copy : Fin 4) (tcoord : Word)
  deriving DecidableEq, Repr

/-- Stages of a barge (Table 01-1): Assembling; closed and held behind a lamp slot; delivered; not delivered. -/
inductive Stage | assembling | held | delivered | undelivered
  deriving DecidableEq, Repr

/-- What the Sluice kind reports (R197). -/
inductive SluiceOutcome | none | pass | warming | fail
  deriving DecidableEq, Repr

/-- The progress of a barge's audit (R162, R163). `entry` is the Audit entry, its configuration and its seal deadline taken at
the barge's delivery, its governing configuration from the commitment on. -/
structure AuditRec where
  entry : Option (Fin 64)
  cfg : Word
  /-- The Hold address of the descriptor that governs it. -/
  desc : Nat
  sealDl : Stamp
  complete : Bool
  deadline : Option Nat
  issued : Nat
  drawn : Nat
  ended : Nat
  closed : Bool
  incomplete : Bool
  deriving DecidableEq, Repr

/-- One entry of the in-flight table (R195). Deadlines are absolute short stamps taken at assignment or delivery. -/
structure Barge where
  num : Word
  lamp : Option (Fin 256)
  set : Fin 16
  net : Option (Fin 64)
  netCfg : Word
  domain : DlDomain
  origin : Stamp
  asm : Stamp
  verdict : Stamp
  window : Stamp
  stage : Stage
  members : List Member
  bufAddr : DWord
  bufLen : Nat
  digest : DWord
  ctxs : List (Fin 4)
  mnet : Option (Fin 64)
  mnetCfg : Word
  taken : List (Fin 4)
  sluice : SluiceOutcome
  ringRefused : Bool
  portLeft : Bool
  safeState : Bool
  namedC2 : Bool
  formerBad : Bool
  accepted : List (RecKey × List Byte)
  winDone : List Half
  windowPast : Option Nat
  twin : BitVec 4
  audit : BitVec 4
  /-- Sentinel checks that have reported: check, code, GEOM_TOKEN tag of the run that gave it. -/
  checks : List (Fin 64 × BitVec 4 × Option Half)
  /-- Sentinel checks for which no run was started while their group was broken (R218). -/
  gap : List (Fin 64)
  /-- The cycles in which its sentinel checks reported: of several failing events in one cycle the lower code stands (R180). -/
  sentAt : List (Fin 64 × Nat)
  env : BitVec 4
  lampRes : BitVec 4
  /-- Mirror's own code of the lamp's result (R108). -/
  lampTwin : BitVec 4
  lampWins : List (Fin 4 × Half)
  viewOk : Bool
  lampDue : Word
  au : AuditRec
  refLast : Bool
  outTag : DWord
  outAddrs : List (Half × DWord)
  pendRseq : Option Word
  pendRefused : Bool
  /-- The verdict and cause already final though the record is not yet formed (R78, R198). -/
  final : Option (BitVec 4 × BitVec 4)
  /-- The cycle in which `final` was settled: a cause of the same cycle that stands earlier in the decision still wins (R198). -/
  finalAt : Nat
  formed : Bool
  /-- The cycles in which the twin and the audit result were given: of several failing events in one cycle the lowest code stands
  (R102, R162). -/
  twinAt : Nat
  auditAt : Nat
  /-- The copies and windows whose dead record Mirror has taken (R104). -/
  deadIn : List (Fin 4 × Half)
  deriving DecidableEq, Repr

/-! ### Mooring -/

/-- Port states (Table 04-7). -/
inductive PortState | off | training | waitReady | serving
  deriving DecidableEq, Repr

/-- An outstanding outbound read (R75). -/
structure OutRead where
  tag : Nat
  user : OutUser
  /-- Bytes asked for. -/
  len : Nat
  issued : Nat
  deriving DecidableEq, Repr

/-- A request the companion has put on the link: configuration (R73) or memory (R74). -/
inductive LinkReq
  | cfg (addr : Word) (write : Bool) (data : Word)
  | mem (addr : DWord) (op : MemOp)
  deriving DecidableEq, Repr

structure Port where
  state : PortState
  /-- A start of R91 has begun; ACC_PERST_N is still held low. -/
  starting : Bool
  perst : Bool
  perstLow : Nat
  entered : Nat
  readyLowSeen : Bool
  ready : Bool
  fault : Bool
  therm : Bool
  speed : BitVec 3
  width : BitVec 5
  retired : Bool
  heldOff : Bool
  epoch : Word
  reads : List OutRead
  nextTag : Nat
  lastReq : Option LinkReq
  /-- The patrol's region in progress on the port, and its next block (R88); the cycle of its last read. -/
  patrol : Option (Fin 64 × Nat)
  patrolRead : Option Nat
  deriving DecidableEq, Repr

/-- A filled delivery slot (R78, R79). -/
structure Slot where
  idx : Nat
  barge : Word
  bytes : List Byte
  deriving DecidableEq, Repr

/-- A copy context's delivery queue, and the landing slots that still hold a record Mooring keeps (R81, R112). -/
structure Ctx where
  next : Nat
  slots : List Slot
  sigBusy : List Nat
  sealBusy : List Nat
  deriving DecidableEq, Repr

/-- A strip ring: the copy context, seal ring or signature ring, slot, offset in the slot. -/
structure RingAt where
  ctx : Fin 4
  isSeal : Bool
  slot : Nat
  off : Nat
  deriving DecidableEq, Repr

/-- A write that landed in a LANDING window and awaits Mooring's tests: where it lies in a strip, and whether its slot still held an
unconsumed record as it landed. -/
structure Landed where
  port : Fin 2
  addr : BitVec 40
  bytes : List Byte
  at_ : Nat
  now : Stamp
  ring : Option RingAt
  overrun : Bool
  /-- What has become of the words that the write merges into (R13). -/
  ecc : Ecc
  deriving DecidableEq, Repr

/-- A patrol region (R88). `cleanAt` is the cycle of the last clean pass. -/
structure Region where
  cleanAt : Option Nat
  dirty : Bool
  retry : Option Nat
  diffBlk : Nat
  passDiff : Bool
  passErr : Bool
  deriving DecidableEq, Repr

/-- What the last inbound request was answered with (R76, R77, R332). -/
inductive InResp | none | written | data (bytes : List Byte) | poisoned | unsupported
  deriving DecidableEq, Repr

structure Mooring where
  resp : InResp
  ports : Vector Port 2
  ctxs : Vector Ctx 4
  landed : List Landed
  /-- Barges ever delivered to a copy in this start, with their networks, for UNKNOWN (Table 04-4). -/
  delivered : List (Fin 4 × Word × Half)
  /-- Accepted signature records waiting for hand-over to Mirror. -/
  handover : List SigRec
  regions : Vector Region 64
  railsUp : Option Nat
  deriving DecidableEq, Repr

/-! ### Mirror -/

structure Mirror where
  /-- Compares waiting, in order of hand-over (R112). -/
  queue : List SigRec
  /-- The pairing store (R99). -/
  store : List SigRec
  /-- Windows whose dead compare is skipped (R104): barge, network, window. -/
  deadSkip : List (Word × Half × Half)
  deriving DecidableEq, Repr

/-! ### Shadow tiles -/

/-- Run states of a tile (Table 06-13); `stopping` is a run that ABORT or PAUSE ends. -/
inductive TileRun | off | idle | running | stopping | halted | faulted | retired | resetting
  deriving DecidableEq, Repr

/-- A DMA channel of a tile (R128). -/
structure DmaChan where
  busy : Bool
  desc : List Byte
  started : Nat
  deriving DecidableEq, Repr

/-- An MMA not yet drained (R124 to R126): its weight buffer, format code and ZERO; the address and stride of its vectors, its first
row and its number of vectors; the cycle of its first vector, and that by which the last has passed into the array; the index of its
first free value. -/
structure MmaFlight where
  buf : Bool
  fmt : Nat
  zero : Bool
  base : Word
  stride : Word
  row : Nat
  n : Nat
  start : Nat
  passAt : Nat
  free : Nat
  deriving DecidableEq, Repr

/-- A weight load in progress (R124, R126): the buffer, the format code, where the rows stand, the next group of rows, and the banks it
reads in this cycle. -/
structure WeightLoad where
  buf : Fin 2
  fmt : Nat
  base : Word
  stride : Word
  next : Nat
  banks : Half
  deriving DecidableEq, Repr

/-- An active loop (R125): its counter, the iterations left, and its body; whether its first pass is over, and the words the loop
buffer holds by offset (R130). -/
structure LoopFrame where
  lc : Fin 8
  left : Nat
  start : Nat
  stop : Nat
  again : Bool
  words : List (Nat × Nat)
  deriving DecidableEq, Repr

/-- A physical tile: what R114 to R138 need beside its registers. Sparse lists: vector registers by 64*v + lane, accumulators by
32*row + column; a weight buffer holds the bytes the loader read, row after row, and `wfmt` their format. -/
structure Tile where
  run : TileRun
  pc : Nat
  areg : Vector Word 16
  loops : List LoopFrame
  vreg : List (Nat × Word)
  acc : List (Nat × Word)
  wbuf : Vector (List (Nat × Byte)) 2
  wfmt : Vector (BitVec 4) 2
  active : Bool
  loader : Option WeightLoad
  flight : List MmaFlight
  dma : Vector DmaChan 4
  entry : BitVec 4
  tag : Half
  saved : Bool
  stopPause : Bool
  /-- The next instruction issues from this cycle on; until `retireTo` the last one issues, until `wasteTo` a taken jump's bubbles pass
  (R124). -/
  freeAt : Nat
  retireTo : Nat
  wasteTo : Nat
  /-- The cycles at which the registers' results, and the last vector store, are there. -/
  aAt : Vector Nat 16
  vAt : Vector Nat 16
  storeTo : Nat
  /-- Banks that the next instruction has lost and tries again, the bank an STS holds for one more cycle and that cycle, and the banks of
  the cycles that a multi-cycle access still has to go, with its destination (R130). -/
  lost : Option Half
  held : Half × Nat
  groups : List Half
  groupDst : Fin 16
  /-- STEP writes whose instruction has not issued yet (R134), and the end of a resume in progress (R133). -/
  steps : Nat
  resumeTo : Nat
  /-- Bytes that the DMA channels have moved, for Lantern's 16-byte counts. -/
  dmaMoved : Nat
  deriving DecidableEq, Repr

/-- A write to tile SRAM in this cycle: its physical address, its length, and the bytes it replaced, listed from its address on. -/
structure PortWrite where
  addr : Nat
  len : Nat
  old : List (Nat × Byte)
  deriving DecidableEq, Repr

/-- The writes of this cycle on the sequencer ports and on the network ports (R130). -/
structure PortCycle where
  seq : List PortWrite
  net : List PortWrite
  deriving DecidableEq, Repr

/-! ### Audit -/

/-- A stored seal (R149). -/
structure SealEntry where
  ctx : Fin 4
  barge : Word
  net : Half
  tcoord : Word
  addr : DWord
  val : DWord
  deriving DecidableEq, Repr

/-- Challenge methods (Table 07-1). -/
inductive ChalMethod | exact | project | input | close
  deriving DecidableEq, Repr

/-- A queued or running challenge (Table 07-1). -/
structure Challenge where
  method : ChalMethod
  transpose : Bool
  entry : Fin 64
  atile : BitVec 5
  barge : Word
  tcoord : Word
  seq : Half
  tries : Nat
  reissued : Bool
  /-- The agreed copy of its barge, in Hold. -/
  copyAddr : Nat
  copyLen : Nat
  /-- The descriptor that governs its barge. -/
  desc : Nat
  deriving DecidableEq, Repr

/-- A Hash_DRBG instance with SM3 (R153) and the words of the last request not yet consumed. -/
structure Drbg where
  v : BitVec 440
  c : BitVec 440
  ctr : Nat
  left : List Word
  deriving DecidableEq, Repr

/-- A tile read back and re-sealed, where it stands in a Basin bank of the tile group (R157). -/
structure ReadTile where
  barge : Word
  tcoord : Word
  addr : Nat
  len : Nat
  deriving DecidableEq, Repr

/-- The matrix R of a barge's projected layer, as written at its delivery (R156). -/
structure Projection where
  barge : Word
  layer : BitVec 12
  bytes : List Byte
  deriving DecidableEq, Repr

structure Audit where
  store : List SealEntry
  readyQ : List (Fin 64 × Word)
  popped : Word
  drbg : Option Drbg
  queue : List Challenge
  reading : Option Challenge
  running : List Challenge
  tiles : List ReadTile
  mats : List Projection
  cover : Vector (List Half) 64
  startNonce : DWord
  deriving DecidableEq, Repr

/-! ### Sentinels and lamps -/

/-- Resident slot states (RESr_STAT). -/
inductive ResState | empty | loading | resident | running
  deriving DecidableEq, Repr

structure ResSlot where
  state : ResState
  model : BitVec 12
  variant : BitVec 2
  group : Fin 8
  deriving DecidableEq, Repr

/-- A reference of rate rules (R182): a barge of a network, its origin stamps and the accelerator's values read for it. -/
structure RateRef where
  net : Half
  barge : Word
  origin : Stamp
  values : List (Half × List Byte)
  deriving DecidableEq, Repr

/-- A plausibility rule that exceeded on a barge (R179). -/
structure Exceed where
  check : Fin 64
  rule : Nat
  barge : Word
  deriving DecidableEq, Repr

/-- How far the run of a model is: tiles still have to exit DONE, all have, or it is lost to a tile fault (R176, R177). -/
inductive RunOutcome | going | done | lost
  deriving DecidableEq, Repr

/-- The run of a resident model for a check of a barge, or, with no check, for a lamp's view (R176, R177, R185, R219). -/
structure SnRun where
  slot : Fin 64
  barge : Word
  check : Option (Fin 64)
  /-- GEOM_TOKEN at its start. -/
  token : Half
  tiles : List (Fin 36)
  /-- Tiles that have started and not ended, and tiles that have exited DONE. -/
  live : List (Fin 36)
  halted : List (Fin 36)
  /-- TL_FLAGS of its tiles. -/
  flags : BitVec 3
  rerun : Bool
  /-- Where its view is, once written, and VIEW_LEN. -/
  view : Option (BitVec 40)
  len : Nat
  outcome : RunOutcome
  deriving DecidableEq, Repr

structure Sentinels where
  verifying : Option Bool
  manifestA : List Model
  manifestB : List Model
  slots : Vector ResSlot 64
  load : Option (Fin 64 × BitVec 12 × BitVec 2)
  unavail : List (BitVec 12)
  /-- Real barges delivered in this start with their networks, newest first (R179, R182). -/
  order : List (Half × Word)
  exceeds : List Exceed
  refs : List RateRef
  aktAt : Vector (Option Nat) 36
  aktLate : List (Fin 36)
  runs : List SnRun
  /-- The measurement of the library's manifest taken at the last open (R171). -/
  measure : List Byte
  /-- Spares made ACTIVE that have not passed a slice yet (R192). -/
  unproved : List (Fin 36)
  deriving DecidableEq, Repr

/-! ### Lock chamber -/

/-- A formed record with what its release needs. -/
structure Rec where
  bytes : List Byte
  barge : Word
  isFinal : Bool
  pass : Bool
  pend : Bool
  net : Option (Fin 64)
  lamp : Bool
  rseq : Word
  start : Bool
  deriving DecidableEq, Repr

structure ValPin where
  level : Bool
  stale : Bool
  barge : Option Word
  released : Nat
  deriving DecidableEq, Repr

/-- The newest barge of a network that has a released record, and what the record said (R207). -/
structure Newest where
  net : Fin 64
  barge : Word
  pass : Bool
  pend : Bool
  released : Nat
  deriving DecidableEq, Repr

/-- One frame of a CAN queue: identifier, data, and the priority of a notice (R212). -/
structure CanFrame where
  id : BitVec 29
  ext : Bool
  fd : Bool
  bytes : List Byte
  notice : Bool
  deriving DecidableEq, Repr

structure Can where
  queue : List CanFrame
  onBus : Option CanFrame
  started : Nat
  tec : Byte
  rec_ : Byte
  passive : Bool
  busOff : Bool
  alive : BitVec 4
  deriving DecidableEq, Repr

/-- A mailbox window (R210): its bytes, the sequence number that acknowledges it, the pointer. -/
structure Window where
  bytes : List Byte
  key : Option Half
  ptr : Nat
  deriving DecidableEq, Repr

/-- A check that reported after its barge's final verdict (R28): its kind by mask bit (R196; 7 a record that landed), barge, code. -/
structure LateResult where
  kind : Nat
  barge : Word
  code : BitVec 4
  deriving DecidableEq, Repr

/-- The Lock chamber. `closed`: SAFE_N has been low since READY (R205). `late` is the log of R28, for which the manual names no place
(log entry 86), and `gone` keeps the entries of released barges whose checks may still report to it. -/
structure Chamber where
  closed : Bool
  late : List LateResult
  gone : List Barge
  formed : List Rec
  records : List Rec
  recWin : Window
  mbLost : Nat
  mbLostSeen : Bool
  notices : List (Word × List Byte)
  ntWin : Window
  ntLost : Nat
  spiSt : BitVec 2
  spiCnt : BitVec 6
  spiData : Half
  crcErrs : Nat
  frameErrs : Nat
  timeHi : Half
  valids : Vector ValPin 4
  newest : List Newest
  cans : Vector Can 2
  /-- GEOM_TOKEN of a network's previous final record (R220). -/
  tokens : List (Fin 64 × Half)
  deriving DecidableEq, Repr

/-! ### Beacon -/

/-- An asserted error line: source, channel, syndrome, the barges its block names (none: every barge without a final verdict, R227), and
the cycle in which it was asserted. -/
structure Line where
  src : BitVec 7
  chan : BitVec 6
  syn : Half
  barges : Option (List Word)
  at_ : Nat
  deriving DecidableEq, Repr

/-- A counter of a source and channel (R228). -/
structure Counter where
  src : BitVec 7
  chan : BitVec 6
  isOpen : Bool
  start : Word
  count : Nat
  deriving DecidableEq, Repr

/-- An open consequence mask (R236): `from_` is the first cycle it acts in, `until_` the first it no longer does. -/
structure MaskOpen where
  src : BitVec 7
  chan : BitVec 6
  bits : BitVec 128
  from_ : Nat
  until_ : Nat
  deriving DecidableEq, Repr

/-- A glint in progress (R238). -/
structure Glint where
  /-- BC_GLINT_REQ's [10:0] of the checker; whether this is its start glint (R240). -/
  key : BitVec 11
  atStart : Bool
  src : BitVec 7
  chan : BitVec 6
  syn : Half
  fail : BitVec 7
  /-- POLs_CFG, POLs_W, POLs_MASK0-3 and POLs_MINT of the failure source when the glint was issued (R414). -/
  cfg : Word
  win : Word
  mask : BitVec 128
  mint : Nat
  windowEnd : Nat
  length : Nat
  good : Bool
  other : Bool
  readback : Bool
  asserted : Bool
  /-- The glinted unit has run its test (R110, R361). -/
  ran : Bool
  deriving DecidableEq, Repr

structure Beacon where
  lines : List Line
  levels : List (BitVec 7)
  counters : List Counter
  retired : List (BitVec 7 × BitVec 6)
  masks : List MaskOpen
  safe : Bool
  c4Taken : Bool
  path : Bool
  /-- The two reaction lines: each alone forces the outputs (R233); the cycle since which they disagree. -/
  lineA : Bool
  lineB : Bool
  split : Option Nat
  safeSaved : Bool
  /-- The cycle of the first C3 or C4 (R232). -/
  safeAt : Nat
  /-- Sources whose counters an open clears once their glint is judged (R414). -/
  deferred : List (BitVec 7)
  /-- BC_LAST_EVT: it shows a syndrome, which may be a free value. -/
  lastEvt : Word
  pwrcut : Option Nat
  glints : List Glint
  /-- The BC_RETi entries in use, oldest first (R231); RR with them. -/
  retOrder : List (Fin 64)
  retFull : Bool
  /-- No start glint has failed (R240). -/
  startGlintOk : Bool
  /-- The checkers, by BC_GLINT_REQ's [10:0], that passed their start glint. -/
  passed : List (BitVec 11)
  /-- The cycle of each checker's last start or periodic glint. -/
  issued : List (BitVec 11 × Nat)
  /-- Per Keeper pair, the cycle from which its periodic glints fall due (R413). -/
  glintFrom : Vector Nat 2
  deriving DecidableEq, Repr

/-! ### Watchdogs and tasks -/

/-- Kinds of watchdog failure (Table 12-2). -/
inductive WdtKind | none | late | early | badKey | keyLapse
  deriving DecidableEq, Repr

/-- A watchdog: the cycle its count started from 0 (none: not counting), the arm cycle, and the cycle at which a halt froze it. -/
structure Watchdog where
  /-- The tick at which the count was 0; none while its domain is in reset. -/
  base : Option Nat
  /-- The tick of the arm. -/
  armed : Option Nat
  /-- The tick at which the count froze (R251). -/
  frozen : Option Nat
  /-- The tick in which an armed watchdog failed LATE (R246). -/
  lateAt : Option Nat
  deriving DecidableEq, Repr

/-- A task entity: the check-ins of its cycle, and the cycles at which its cycle began and at which a halt froze it (R255, R259). -/
structure Entity where
  count : Nat
  overRaised : Bool
  expected : Nat
  first : Bool
  frozen : Option Nat
  seqFails : Nat
  began : Nat
  /-- The cycle of a post release that ends this cycle (R255). -/
  endAt : Option Nat
  deriving DecidableEq, Repr

structure Watchdogs where
  dogs : Vector Watchdog 4
  /-- Ticks of the internal oscillator since reset (R244), the TCLK cycles to the next, and the periods begun. -/
  ticks : Nat
  oscLeft : Nat
  /-- The tick at which a WDO_N pulse ends (R248). -/
  wdo : Option Nat
  /-- The cycle since which WDO_N reads other than driven, and whether ES95 has been raised for it (R249). -/
  wdoBad : Option (Nat × Bool)
  /-- The tick in which WD_RST_CAUSE was last written (R248). -/
  causeAt : Option Nat
  /-- The domains that a watchdog's reset holds: K0, K1, Harbour (R248). -/
  held : Vector Bool 3
  entities : Vector Entity 64
  deriving DecidableEq, Repr

/-! ### Safe I/O -/

/-- Brake channel states (Table 13-3); RELEASING in its two steps (R267). -/
inductive BrakeState | off | applied | releasing1 | releasing2 | released | test | locked
  deriving DecidableEq, Repr

/-- Whether a reading is as Table 13-2 expects, and the cycle since which it has been so. -/
structure Watch where
  ok : Bool
  from_ : Nat
  deriving DecidableEq, Repr

/-- A brake channel. Cycles: `since` of the last gate change, `judge` when a test pulse not yet judged began, `offFrom` when an off
transition not yet passed began, `tpFrom` of the last entry to RELEASED or pass, `testAt` of the last passed test. -/
structure Brake where
  state : BrakeState
  hsg : Bool
  lsg : Bool
  since : Nat
  /-- The gates went on at the end of a test pulse (R269). -/
  afterPulse : Bool
  judge : Option Nat
  offFrom : Option Nat
  /-- Cycles of the TP_PER count before `tpFrom`; it runs only while RELEASED (R269). -/
  tpRan : Nat
  tpFrom : Nat
  testAt : Nat
  reading : BrakeReading
  nodes : Watch
  current : Watch
  /-- The cycle of the first sample since the last gate change whose nodes were right (R267). -/
  rightAt : Option Nat
  deriving DecidableEq, Repr

/-- Safe-input states (Table 13-5). -/
inductive SinState | demand | permit | discrepant | fault
  deriving DecidableEq, Repr

structure Sin where
  state : SinState
  a : Bool
  b : Bool
  cross : Bool
  faults : Nat
  since : Nat
  /-- Failures on consecutive pulses of SIN_TPA and of SIN_TPB (R276). -/
  badA : Nat
  badB : Nat
  deriving DecidableEq, Repr

structure SafeIo where
  brakes : Vector Brake 4
  sins : Vector Sin 8
  supply : Half
  pressAt : Option Nat
  pressValid : Bool
  sealPattern : Byte
  sealFloat : Byte
  loopGoodStart : Bool
  sealMatch : Bool
  loopGood : Bool
  loopBad : Nat
  loopPos : Nat
  /-- The cycles of the last seal loop step and of the last pulses of SIN_TPA and SIN_TPB (R276, R278). -/
  loopAt : Option Nat
  tpaAt : Option Nat
  tpbAt : Option Nat
  /-- Every enabled brake channel has passed its start test (R280). -/
  startTested : Bool
  deriving DecidableEq, Repr

/-! ### Seal, image and lock cycles -/

/-- Life-cycle states (Table 14-1). -/
inductive Life | blank | provisioned | field | service | scrapped
  deriving DecidableEq, Repr

/-- An intact intent or commit record (Table 14-8). -/
structure FlashRecord where
  slotB : Bool
  secVer : BitVec 6
  gen : Word
  length : Nat
  digest : BitVec 256
  deriving DecidableEq, Repr

/-- A flash slot and its record sector (Tables 14-7 to 14-9): the data where an image is programmed, the intent and the commit record
where they are intact, and whether the sector is blank. -/
structure FlashSlot where
  data : Option Image
  intent : Option FlashRecord
  commit : Option FlashRecord
  blank : Bool
  deriving DecidableEq, Repr

/-- Phases of a commit (R299). -/
inductive CommitPhase | idle | check | intent | erase | program | verify | record | done
  deriving DecidableEq, Repr

/-- What asks the SM3 engine for a digest (R284). -/
inductive Sm3Job | golden | library | attest | commit
  deriving DecidableEq, Repr

/-- Seal. `life` is the state in effect: the OTP state, and SERVICE from start step 2 on where FIELD meets `svc`. OTP beside it:
`rootHash`, `wrapped`, `minVer`. Vault part 0: `deviceKey`, `siteSeed`. `startRep` is SE_START_REP; `golds` are the golden regions
waiting for the SM3 engine, oldest first. -/
structure SealBlock where
  life : Life
  svc : Bool
  nonce : DWord
  token : Vector Word 32
  wrapped : Option (BitVec 256)
  deviceKey : Option (BitVec 256)
  rootHash : Option (BitVec 256)
  siteSeed : Option (BitVec 256)
  slotA : FlashSlot
  slotB : FlashSlot
  useB : Option Bool
  defaults : Bool
  startRep : Word
  minVer : BitVec 6
  /-- A wipe of the Vault runs: when it began. -/
  wiping : Option Nat
  wipeCause : BitVec 2
  commit : CommitPhase
  commitResult : BitVec 4
  commitAbort : Bool
  /-- Address, length and contents of the image in Hold, as at START, and the record that CHECK has made of it. -/
  commitSrc : Nat
  commitLen : Nat
  commitContents : Contents
  commitRec : Option FlashRecord
  /-- The report in progress: bytes 0 to 191 (R302). -/
  attReq : Option (List Byte)
  attOut : List Byte
  golds : List (Fin 64)
  /-- The requests that the SM3 engine has before it, in order of arrival (R284). -/
  sm3 : List Sm3Job
  /-- The cycle at which the commit's phase began. -/
  phaseAt : Nat
  deriving DecidableEq, Repr

/-- Lock-cycle states (LK_STAT). -/
inductive LkState | idle | filling | levelling | levelled
  deriving DecidableEq, Repr

structure LockCycle where
  state : LkState
  /-- The cycle of the last open: two requests in one cycle are one open (R305). -/
  openedAt : Option Nat
  owner : Option Initiator
  code : BitVec 4
  opens : Half
  begun : Nat
  /-- The written stage copies, by register address (R303). -/
  stage : List (Nat × Word)
  deriving DecidableEq, Repr

/-! ### Start and Weir -/

/-- Sequencer states (SEQ_STAT). -/
inductive SeqState | off | up | on | down | failed
  deriving DecidableEq, Repr

/-- An ADC channel: the rail in mV, the last code, runs of values inside and outside the window. -/
structure Adc where
  mv : Half
  code : BitVec 12
  inWin : Bool
  armed : Bool
  goodRun : Nat
  badRun : Nat
  deriving DecidableEq, Repr

/-- A transaction of a PMBus master: a sequencer preset, or what the Keeper wrote to PMBb_XFER. -/
inductive PmbXfer | preset (t : Fin 8) | keeper (w : Word)
  deriving DecidableEq, Repr

/-- A PMBus master: the transaction that runs, a preset and a Keeper transaction that wait, and the bytes the master sends for the one that
runs, or last ran (R323). -/
structure Pmbus where
  run : Option PmbXfer
  preset : Option (Fin 8)
  keeper : Option Word
  sent : List Byte
  deriving DecidableEq, Repr

/-- A lamp of start step 10 (R314): how often it has been released, and its barge. -/
structure StartLamp where
  lamp : Fin 256
  tries : Nat
  barge : Option Word
  deriving DecidableEq, Repr

/-- Weir and the start sequencer. `step` is START_STAT.STEP, 0 before the start; `fail` its FAIL code. `fillAt` is the end of the
Hold fill; `excl` the excluded time in cycles (R310, R314). `seqTab` is the table an up sequence began with, `seqDelay` says that
its step's delay runs, `seqPmb` how its preset ended, `raised` the ACC_EN pins in order of raising. -/
structure Weir where
  step : BitVec 4
  fail : BitVec 4
  ready : Bool
  safeSinceStart : Bool
  startTime : Half
  step9At : Option Nat
  /-- BARGE_NEXT at READY: the barges before it are the start's lamps (R314). -/
  readyNext : Word
  fillAt : Option Nat
  excl : Nat
  lamps : List StartLamp
  ownBelow : Byte
  ownAbove : Byte
  tjLast : Half
  tjSensor : BitVec 3
  tjRun : Nat
  tjAt : Option Nat
  adcs : Vector Adc 16
  adcDue : List (Fin 16)
  /-- The last round-robin channel of each ADC, and the cycle of its last conversion (R318). -/
  adcLast : Vector (Option (Fin 16)) 2
  adcAt : Vector (Option Nat) 2
  seq : SeqState
  seqTab : List (Word × Word)
  seqStep : Nat
  seqDelay : Bool
  seqPmb : Option (BitVec 3)
  seqFailed : Bool
  seqFailStep : BitVec 4
  seqFailCode : BitVec 4
  seqSince : Nat
  raised : List (Fin 8)
  accEn : Byte
  /-- Since when each pin's readback has differed from its level, and whether ES123 has told (R322). -/
  accBad : Vector (Option (Nat × Bool)) 8
  pmbs : Vector Pmbus 2
  deriving DecidableEq, Repr

/-! ### Memories -/

/-- A core's access that waits for its target (R313, R344, R347). -/
structure Waiting where
  who : Initiator
  addr : Nat
  op : MemOp
  ecc : Ecc
  deriving DecidableEq, Repr

/-- A log slot to be written (R337): `chk` where bytes 60 to 63 are its SLOT_CHK. -/
structure LogSlot where
  chk : Bool
  body : List Byte
  deriving DecidableEq, Repr

/-- Hold (HD_STAT): `raw144` is HD_STAT.CAP (Table 16-1). -/
structure Hold where
  raw144 : Bool
  trained : Vector Bool 16
  filled : Bool
  /-- Words found uncorrectable and not rewritten since, by address (R332, R333). -/
  unc : List Nat
  waits : List Waiting
  scrub : Nat
  scrubPassAt : Nat
  /-- The cycle at which the scrub's pass began. -/
  scrubFrom : Nat
  /-- Cycles of each channel's last refresh-rate read and calibration (R334). -/
  rateAt : Vector (Option Nat) 16
  zqAt : Vector (Option Nat) 16
  /-- The last refresh-rate indication of each channel (R334). -/
  rates : Vector (BitVec 5) 16
  /-- Cycles at which the log's slots were written, newest first. -/
  recTimes : List Nat
  /-- Slots formed before the fill ends, oldest first. -/
  recWait : List LogSlot
  /-- A reset has placed Hold in self-refresh; a channel leaves it when it is trained (R326). -/
  selfRefresh : Bool
  /-- The image's KEEPER section as step 7 copied it; where in Hold, the manual does not say (R309, R327). -/
  keeper : List Byte
  deriving DecidableEq, Repr

/-- A Basin bank (R340 to R350). Owners are the codes of Table 16-3. -/
structure Bank where
  owner : BitVec 4
  next : Option (BitVec 4)
  clear : Bool
  code : BitVec 4
  failed : Bool
  refused : Nat
  /-- The cycle at which the pending hand-over was accepted, and the one at which the bank was found idle. -/
  askedAt : Nat
  idleAt : Option Nat
  deriving DecidableEq, Repr

/-- A march test that runs on a bank (R347): preserving or not, and the segment under test. -/
structure March where
  bank : Fin 64
  preserve : Bool
  seg : Nat
  /-- The cycle at which the run began. -/
  begun : Nat
  deriving DecidableEq, Repr

structure Basin where
  banks : Vector Bank 64
  marches : List March
  waits : List Waiting
  vaultOk : Byte
  deriving DecidableEq, Repr

/-! ### Tally -/

structure TallyUnit where
  crc : DWord
  isOpen : Bool
  fed : Nat
  /-- The cycle at which the engine has taken every feed (R357). -/
  busyTo : Nat
  /-- An engine or parity error stands since the last TLYu_START (R360). -/
  faulty : Bool
  alive : BitVec 4
  lastAlive : Option (BitVec 4)
  deriving DecidableEq, Repr

structure Tally where
  units : Vector TallyUnit 16
  nextGlint : Fin 16
  deriving DecidableEq, Repr

/-! ### Towpath -/

structure TpPort where
  link : Bool
  disabled : Bool
  neighbour : Option (BitVec 12)
  nAssigned : Bool
  nPos : BitVec 4
  lastHello : Nat
  pdelay : Word
  /-- The cycle of the last measurement. -/
  pdelayAt : Option Nat
  deriving DecidableEq, Repr

/-- The stop state of an origin (R373): STARTS, STOP_ID and the copies seen. -/
structure StopSeen where
  origin : BitVec 12
  starts : Half
  id : Word
  copies : BitVec 4
  deriving DecidableEq, Repr

/-- A stop this node sends (R372): the next copy and the cycle it is due. -/
structure StopSend where
  scope : Scope
  source : BitVec 7
  cls : BitVec 3
  deliberate : Bool
  id : Word
  tOrigin : Word
  next : BitVec 2
  due : Nat
  /-- Whether copy 3 follows copies 0 to 2: not once the stop is cancelled. -/
  repeats : Bool
  /-- The cycle of copy 0. -/
  from_ : Nat
  deriving DecidableEq, Repr

/-- A servo (R376, R377). -/
inductive ServoState | free | acquire | locked | holdover
  deriving DecidableEq, Repr

/-- Its time base is TIME_NS + `base` + the rate correction (ppb) since `at_`; `holding` is the cycle holdover age counts from. -/
structure Servo where
  state : ServoState
  base : DWord
  at_ : Nat
  rate : Word
  offset : Word
  stepped : Bool
  run : Nat
  parent : Fin 4
  gm : BitVec 12
  lastSync : Nat
  holding : Option Nat
  deriving DecidableEq, Repr

/-- A frame handed to a port in cycle `at_`; `bad` where its tail fails the receiver's checks (R367). -/
structure Zholi where
  at_ : Nat
  bad : Bool
  src : BitVec 12
  hops : Byte
  seq : Word
  body : ZBody
  deriving DecidableEq, Repr

/-- Towpath. `upAt` is the end of start step 4, from which it runs; `zoneHere` says that the zone master is in a cell master's cell;
`acks` are the table entries that acknowledged the latest generation. -/
structure Towpath where
  upAt : Option Nat
  addr : Option (BitVec 12)
  code : BitVec 3
  claimAt : Option Nat
  pos : Vector (BitVec 4) 2
  zoneHere : Bool
  ports : Vector TpPort 4
  cell : Vector Word 16
  zone : Vector Word 16
  site : Vector Word 16
  gens : Vector Half 3
  acks : List (RouteTable × Fin 16)
  seen : List StopSeen
  sending : List StopSend
  stopId : Word
  servos : Vector Servo 2
  acting : Bool
  siteSeenAt : Nat
  /-- The site master as its HELLO, its table or its Sync has shown it (R378). -/
  siteMaster : Option (BitVec 12)
  /-- The cycle of the last Sync this node sent as the grandmaster of each time base. -/
  syncAt : Vector (Option Nat) 2
  /-- The cycle of the last HELLO_SEND. -/
  helloAt : Option Nat
  /-- TP_STOP_CFG before the last open (R381). -/
  inBefore : Word
  seq : Word
  /-- Frames handed to the ports, newest last. -/
  out : List (Fin 4 × Zholi)
  deriving DecidableEq, Repr

/-! ### Keeper and Lantern -/

/-- Pair states (Table 19-6). -/
inductive PairState | active | standby | lost | halted
  deriving DecidableEq, Repr

/-- Harbour's platform region (R394): the MTIMER's count, the cycle since which it has counted on, its compare values by core; the
message-signalled interrupts delivered to the IMSICs, oldest first. -/
structure Platform where
  mtime : DWord
  mtimeAt : Nat
  mtimecmp : Vector DWord 8
  msis : List Word
  deriving DecidableEq, Repr

structure Keeper where
  pairs : Vector PairState 2
  before : Vector PairState 2
  /-- Harbour cores that a debugger holds halted (R251). -/
  harbourHalted : List (Fin 8)
  /-- Address of the last window access as translated (R391). -/
  lastAddr : Option (BitVec 40)
  platform : Platform
  deriving DecidableEq, Repr

structure Lantern where
  cyc : DWord
  cnt : Vector (Vector (BitVec 48) 8) 64
  bwBytes : Vector (Nat × Nat) 64
  /-- Bytes counted since the start, read and written: the 64-byte counts take whole units of them (R402). -/
  total : Vector (Nat × Nat) 64
  /-- The level events asserted in the last cycle, by unit, for rising edges (R402). -/
  levels : List (Fin 64 × Nat)
  /-- Units cleared in this cycle, and LNu_EVSELk values that a write of this cycle replaced (R401, R405). -/
  cleared : List (Fin 64)
  selOld : List (Nat × Word)
  bwSince : Nat
  dump : Option (List Byte)
  dumpBusy : Bool
  deriving DecidableEq, Repr

/-! ### The whole machine -/

/-- The companion. `cycle` counts TCLK cycles since the start; `fused` are the tiles fused off, eight on grade L (R1, R139). Fields of
the model, not of the manual: `freeIdx` and `draws` count the free values and random draws used, `hwSets` the bits of status
registers that hardware has set in this cycle, by register address (R10). `pending` holds the commands that wait, oldest first. -/
structure State where
  grade : Grade
  fused : List (Fin 36)
  cycle : Nat
  bus : BusResp
  regs : List (Nat × Word)
  mem : List Host.Cell
  mp : Milepost
  sl : Sluice
  barges : List Barge
  mr : Mooring
  mi : Mirror
  tiles : Vector Tile 36
  au : Audit
  sn : Sentinels
  lc : Chamber
  bc : Beacon
  wd : Watchdogs
  sio : SafeIo
  se : SealBlock
  lk : LockCycle
  wr : Weir
  hd : Hold
  bs : Basin
  ty : Tally
  tp : Towpath
  kc : Keeper
  ln : Lantern
  freeIdx : Nat
  draws : Nat
  hwSets : List (Nat × Word)
  ports : PortCycle
  pending : List Instr
  deriving DecidableEq, Repr

/-- Why the machine stops. -/
inductive Fault
  /-- Raised by no command: the manual gives every command of the table an effect. Safe: it claims nothing. -/
  | none
  deriving DecidableEq, Repr

/-- Why a command has no meaning. -/
inductive Refusal
  /-- The command of this mnemonic has no meaning yet: raised by exec's arm alone. Safe: nothing is claimed of it. -/
  | notModelled (mnemonic : String)
  deriving DecidableEq, Repr

/-! ### The state after power-on reset

Registers that are cells read their reset values (Machine/RegMap.lean). The part has not started: PWROK has not risen. -/

/-- Milepost after reset: TIME_OK, quality MEASURED (R37, R40). -/
def Milepost.reset : Milepost where
  travel := 0
  travelFrac := 0
  estRem := 0
  quality := .measured
  singleSince := 0
  opened := false
  encs := Vector.replicate 4 ⟨false, false, false, false, 0, false, 0, none, 0, none, 0, []⟩
  lastDir := false
  failRun := 0
  stillRun := 0
  speedAt := none
  timeOk := true
  latches := []
  reached := []
  postTable := none
  released := none
  postTUnused := []
  postSUnused := []
  keeperQ := []
  timers := Vector.replicate 16 0
  caps := Vector.replicate 8 []
  trigs := Vector.replicate 8 none

/-- Sluice after reset: it opens no barges before READY (R69). -/
def Sluice.reset : Sluice where
  streams := Vector.replicate 32 ⟨none, 0, 0, 0, false, false, 0, .ok, 0, false⟩
  csiLock := Vector.replicate 8 .never
  ethLink := Vector.replicate 4 .never
  ringWrite := 0
  ring := []
  slotEnd := none
  lampWait := []
  suspended := true
  allRetired := Vector.replicate 16 false

/-- A root port after reset: OFF, ACC_PERST_N low (Table 04-7). -/
def Port.reset : Port where
  state := .off
  starting := false
  perst := true
  perstLow := 0
  entered := 0
  readyLowSeen := false
  ready := false
  fault := false
  therm := false
  speed := 0
  width := 0
  retired := false
  heldOff := false
  epoch := 0
  reads := []
  nextTag := 0
  lastReq := none
  patrol := none
  patrolRead := none

/-- Mooring after reset. -/
def Mooring.reset : Mooring where
  resp := .none
  ports := Vector.replicate 2 .reset
  ctxs := Vector.replicate 4 ⟨0, [], [], []⟩
  landed := []
  delivered := []
  handover := []
  regions := Vector.replicate 64 ⟨none, false, none, 0, false, false⟩
  railsUp := none

/-- A tile after reset: OFF (Table 06-13). -/
def Tile.reset : Tile where
  run := .off
  pc := 0
  areg := Vector.replicate 16 0
  loops := []
  vreg := []
  acc := []
  wbuf := Vector.replicate 2 []
  wfmt := Vector.replicate 2 0
  active := false
  loader := none
  flight := []
  dma := Vector.replicate 4 ⟨false, [], 0⟩
  entry := 0
  tag := 0
  saved := false
  stopPause := false
  freeAt := 0
  retireTo := 0
  wasteTo := 0
  aAt := Vector.replicate 16 0
  vAt := Vector.replicate 16 0
  storeTo := 0
  lost := none
  held := (0, 0)
  groups := []
  groupDst := 0
  steps := 0
  resumeTo := 0
  dmaMoved := 0

/-- Audit after reset. -/
def Audit.reset : Audit where
  store := []
  readyQ := []
  popped := 0
  drbg := none
  queue := []
  reading := none
  running := []
  tiles := []
  mats := []
  cover := Vector.replicate 64 []
  startNonce := 0

/-- The sentinels after reset: no library, every slot EMPTY. -/
def Sentinels.reset : Sentinels where
  verifying := none
  manifestA := []
  manifestB := []
  slots := Vector.replicate 64 ⟨.empty, 0, 0, 0⟩
  load := none
  unavail := []
  order := []
  exceeds := []
  refs := []
  aktAt := Vector.replicate 36 none
  aktLate := []
  measure := List.replicate 32 0
  runs := []
  unproved := []

/-- The lock chamber after reset: SAFE_N and the VALID pins low. -/
def Chamber.reset : Chamber where
  closed := false
  late := []
  gone := []
  formed := []
  records := []
  recWin := ⟨[], none, 0⟩
  mbLost := 0
  mbLostSeen := false
  notices := []
  ntWin := ⟨[], none, 0⟩
  ntLost := 0
  spiSt := 0
  spiCnt := 0
  spiData := 0
  crcErrs := 0
  frameErrs := 0
  timeHi := 0
  valids := Vector.replicate 4 ⟨false, false, none, 0⟩
  newest := []
  cans := Vector.replicate 2 ⟨[], none, 0, 0, 0, false, false, 0⟩
  tokens := []

/-- Beacon after reset. -/
def Beacon.reset : Beacon where
  lines := []
  levels := []
  counters := []
  retired := []
  masks := []
  safe := false
  c4Taken := false
  path := false
  lineA := false
  lineB := false
  split := none
  safeSaved := false
  safeAt := 0
  deferred := []
  lastEvt := 0
  pwrcut := none
  glints := []
  retOrder := []
  retFull := false
  startGlintOk := true
  passed := []
  issued := []
  glintFrom := Vector.replicate 2 0

/-- The watchdogs and task entities after reset. -/
def Watchdogs.reset : Watchdogs where
  dogs := Vector.replicate 4 ⟨none, none, none, none⟩
  ticks := 0
  oscLeft := 0
  wdo := none
  wdoBad := none
  causeAt := none
  held := Vector.replicate 3 false
  entities := Vector.replicate 64 ⟨0, false, 0, true, none, 0, 0, none⟩

/-- Safe I/O after reset: every brake channel disabled, every safe input in DEMAND. -/
def SafeIo.reset : SafeIo where
  brakes := Vector.replicate 4 ⟨.off, false, false, 0, false, none, none, 0, 0, 0, ⟨.low, .low, 0⟩, ⟨false, 0⟩, ⟨false, 0⟩, none⟩
  sins := Vector.replicate 8 ⟨.demand, false, false, false, 0, 0, 0, 0⟩
  supply := 0
  pressAt := none
  pressValid := false
  sealPattern := 0
  sealFloat := 0
  loopGoodStart := false
  sealMatch := false
  loopGood := false
  loopBad := 0
  loopPos := 0
  loopAt := none
  tpaAt := none
  tpbAt := none
  startTested := false

/-- Seal as shipped: BLANK, both flash slots erased (Table 14-1). -/
def SealBlock.reset : SealBlock where
  life := .blank
  svc := false
  nonce := 0
  token := Vector.replicate 32 0
  wrapped := none
  deviceKey := none
  rootHash := none
  siteSeed := none
  slotA := ⟨none, none, none, true⟩
  slotB := ⟨none, none, none, true⟩
  useB := none
  defaults := false
  startRep := 0
  minVer := 0
  wiping := none
  wipeCause := 0
  commit := .idle
  commitResult := 0
  commitAbort := false
  commitSrc := 0
  commitLen := 0
  commitContents := ⟨[], [], [], [], []⟩
  commitRec := none
  attReq := none
  attOut := []
  golds := []
  sm3 := []
  phaseAt := 0

/-- Weir after reset: step 0, no rail up. -/
def Weir.reset : Weir where
  step := 0
  fail := 0
  ready := false
  safeSinceStart := false
  startTime := 0
  step9At := none
  readyNext := 1
  fillAt := none
  excl := 0
  lamps := []
  ownBelow := 0
  ownAbove := 0
  tjLast := 0
  tjSensor := 0
  tjRun := 0
  tjAt := none
  adcs := Vector.replicate 16 ⟨0, 0, false, false, 0, 0⟩
  adcDue := []
  adcLast := Vector.replicate 2 none
  adcAt := Vector.replicate 2 none
  seq := .off
  seqTab := []
  seqStep := 0
  seqDelay := false
  seqPmb := none
  seqFailed := false
  seqFailStep := 0
  seqFailCode := 0
  seqSince := 0
  raised := []
  accEn := 0
  accBad := Vector.replicate 8 none
  pmbs := Vector.replicate 2 ⟨none, none, none, []⟩

/-- Hold after reset: RAW64 (log entry 71), neither trained nor filled. -/
def Hold.reset : Hold where
  raw144 := false
  trained := Vector.replicate 16 false
  filled := false
  unc := []
  waits := []
  scrub := 0
  scrubPassAt := 0
  scrubFrom := 0
  rateAt := Vector.replicate 16 none
  zqAt := Vector.replicate 16 none
  rates := Vector.replicate 16 0
  recTimes := []
  recWait := []
  selfRefresh := false
  keeper := []

/-- Basin and the Vault after reset. -/
def Basin.reset : Basin where
  banks := Vector.replicate 64 ⟨0, none, false, 0, false, 0, 0, none⟩
  marches := []
  waits := []
  vaultOk := 0

/-- Tally after reset. -/
def Tally.reset : Tally where
  units := Vector.replicate 16 ⟨0, false, 0, 0, false, 0, none⟩
  nextGlint := 0

/-- Towpath after reset. -/
def Towpath.reset : Towpath where
  upAt := none
  addr := none
  code := 0
  claimAt := none
  pos := Vector.replicate 2 0
  zoneHere := false
  ports := Vector.replicate 4 ⟨false, false, none, false, 0, 0, 0, none⟩
  cell := Vector.replicate 16 0
  zone := Vector.replicate 16 0
  site := Vector.replicate 16 0
  gens := Vector.replicate 3 0
  acks := []
  seen := []
  sending := []
  stopId := 0
  servos := Vector.replicate 2 ⟨.free, 0, 0, 0, 0, false, 0, 0, 0, 0, none⟩
  acting := false
  siteSeenAt := 0
  siteMaster := none
  syncAt := Vector.replicate 2 none
  helloAt := none
  inBefore := 0
  seq := 0
  out := []

/-- Both Keeper pairs ACTIVE. -/
def Keeper.reset : Keeper where
  pairs := Vector.replicate 2 .active
  before := Vector.replicate 2 .active
  harbourHalted := []
  lastAddr := none
  platform := ⟨0, 0, Vector.replicate 8 0, []⟩

/-- Lantern after reset. -/
def Lantern.reset : Lantern where
  cyc := 0
  cnt := Vector.replicate 64 (Vector.replicate 8 0)
  bwBytes := Vector.replicate 64 (0, 0)
  total := Vector.replicate 64 (0, 0)
  levels := []
  cleared := []
  selOld := []
  bwSince := 0
  dump := none
  dumpBusy := false

/-- The machine right after power-on reset (RST_CAUSE 1): an SKK-720-A as shipped, waiting for PWROK. -/
def State.reset : State where
  grade := .A
  fused := []
  cycle := 0
  bus := .none
  regs := []
  mem := []
  mp := .reset
  sl := .reset
  barges := []
  mr := .reset
  mi := ⟨[], [], []⟩
  tiles := Vector.replicate 36 .reset
  au := .reset
  sn := .reset
  lc := .reset
  bc := .reset
  wd := .reset
  sio := .reset
  se := .reset
  lk := ⟨.idle, none, none, 0, 0, 0, []⟩
  wr := .reset
  hd := .reset
  bs := .reset
  ty := .reset
  tp := .reset
  kc := .reset
  ln := .reset
  freeIdx := 0
  draws := 0
  hwSets := []
  ports := ⟨[], []⟩
  pending := []

end Sys2Proof.Machine
end

