-- ==== Sys2Proof/Machine/Ops.lean ====
section
/-! DEFINITION. Machine/Ops.lean: the named operations over registers, memory, time, the error lines and the barge table that
every block's meanings use. -/

namespace Sys2Proof.Machine

/-- A step's outcome. -/
abbrev Out := Host.Outcome State Fault Refusal

/-! ### Bit fields -/

/-- Field [hi:lo] of a word. -/
def bits (w : Word) (hi lo : Nat) : Nat := (w.toNat >>> lo) % 2 ^ (hi - lo + 1)

/-- The mask of field [hi:lo]. -/
def fieldMask (hi lo : Nat) : Word := BitVec.ofNat 32 ((2 ^ (hi - lo + 1) - 1) <<< lo)

/-- A word with field [hi:lo] replaced. -/
def putBits (w : Word) (hi lo v : Nat) : Word :=
  (w &&& ~~~ fieldMask hi lo) ||| (BitVec.ofNat 32 (v <<< lo) &&& fieldMask hi lo)

/-- A flag as a bit. -/
def bit (b : Bool) : Nat := if b then 1 else 0

namespace State

/-! ### Registers -/

/-- The value in effect of the register at address `a`. -/
def reg (s : State) (a : Nat) : Word := Cells.get resetOf s.regs a

/-- Write the register at address `a`. -/
def setReg (s : State) (a : Nat) (v : Word) : State := { s with regs := Cells.set resetOf s.regs a v }

/-- Field [hi:lo] of a register. -/
def fld (s : State) (a hi lo : Nat) : Nat := bits (s.reg a) hi lo

/-- Bit `b` of a register. -/
def flag (s : State) (a b : Nat) : Bool := (s.reg a).getLsbD b

/-- Two registers as a 64-bit quantity, _LO at `a`. -/
def reg64 (s : State) (a : Nat) : DWord := s.reg (a + 4) ++ s.reg a

/-- Write a 64-bit quantity. -/
def setReg64 (s : State) (a : Nat) (v : DWord) : State := (s.setReg a (v.setWidth 32)).setReg (a + 4) ((v >>> 32).setWidth 32)

/-- Replace field [hi:lo] of a register. -/
def setFld (s : State) (a hi lo v : Nat) : State := s.setReg a (putBits (s.reg a) hi lo v)

/-- Hardware sets the bits of a mask; that it did so in this cycle is remembered for R10. -/
def orReg (s : State) (a : Nat) (m : Word) : State := { s.setReg a (s.reg a ||| m) with hwSets := (a, m) :: s.hwSets }

/-- The bits of a register that hardware has set in this cycle. -/
def setNow (s : State) (a : Nat) : Word := s.hwSets.foldl (fun w p => if p.1 = a then w ||| p.2 else w) 0

/-- Clear the bits of a mask. -/
def clearReg (s : State) (a : Nat) (m : Word) : State := s.setReg a (s.reg a &&& ~~~ m)

/-- Hardware sets bit `b` of a status register. -/
def setBit (s : State) (a b : Nat) : State := s.orReg a (BitVec.ofNat 32 (2 ^ b))

/-- Add to a saturating count in field [hi:lo]. -/
def satAdd (s : State) (a hi lo n : Nat) : State :=
  s.setFld a hi lo (min (s.fld a hi lo + n) (2 ^ (hi - lo + 1) - 1))

/-- Add 1 to a wrapping count in field [hi:lo]. -/
def wrapInc (s : State) (a hi lo : Nat) : State := s.setFld a hi lo (s.fld a hi lo + 1)

/-! ### Time and travel -/

/-- TIME_NS: 4 every 3 TCLK cycles since the start (R40). -/
def timeNs (s : State) : DWord := BitVec.ofNat 64 (4 * s.cycle / 3)

/-- The short stamps of this cycle. -/
def now (s : State) : Stamp := ⟨s.timeNs.setWidth 32, s.mp.travel.setWidth 32⟩

end State

/-- TCLK cycles in n ns, µs and ms (750 MHz, R4). -/
def nsCycles (n : Nat) : Nat := (3 * n + 3) / 4
def usCycles (n : Nat) : Nat := 750 * n
def msCycles (n : Nat) : Nat := 750000 * n

/-- What the 144/128 code finds (R12). More than two flipped bits are beyond what the manual promises: free. -/
def codeFinding : Ecc → CodeFinding
  | .clean => .clean
  | .oneBit => .corrected
  | .twoBits => .uncorrectable
  | .wrongAddress => .uncorrectable
  | .manyBits n => match (Config.wideError n).toNat with
    | 0 => .clean
    | 1 => .corrected
    | _ => .uncorrectable

/-- GEOM_TOKEN as a grade starts with it (Table 06-18). -/
def gradeToken : Grade → Word
  | .A => 0x120
  | .M => 0x120
  | .L => 0x118

/-- Whole milliseconds since cycle `c`. -/
def msSince (s : State) (c : Nat) : Nat := (s.cycle - c) / 750000

/-- The deadline test on a short stamp (R14). -/
def late (now dl : Word) : Bool := decide (0 ≤ sdiff now dl)

/-- The deadline test for a pair (R43). -/
def missed (d : DlDomain) (now dl : Stamp) : Bool :=
  late now.t dl.t || (match d with | .time => false | _ => late now.s dl.s)

/-- An absolute pair: origin plus bounds, the time bound in µs and the travel bound in µm. -/
def deadline (origin : Stamp) (us um : Word) : Stamp := ⟨origin.t + us * 1000#32, origin.s + um⟩

namespace State

/-! ### Free values and error lines -/

/-- The next free value, and the state that has used it. -/
def free (s : State) : DWord × State := (Config.freeValue s.freeIdx, { s with freeIdx := s.freeIdx + 1 })

/-- The next draw of Seal's random source. -/
def draw (s : State) : BitVec 256 × State := (Config.random s.draws, { s with draws := s.draws + 1 })

/-- Assert an error line whose syndrome the manual states. -/
def raiseSyn (s : State) (src : Nat) (chan : Nat) (syn : Half) (barges : Option (List Word)) : State :=
  { s with bc := { s.bc with lines := s.bc.lines ++ [⟨BitVec.ofNat 7 src, BitVec.ofNat 6 chan, syn, barges, s.cycle⟩] } }

/-- Assert an error line whose syndrome the manual leaves to the block: a free value (log entry 5). -/
def raiseOn (s : State) (src chan : Nat) (barges : Option (List Word)) : State :=
  s.free.2.raiseSyn src chan (s.free.1.setWidth 16) barges

/-- Assert an error line of a channel, naming no barge. -/
def raise (s : State) (src chan : Nat) : State := s.raiseOn src chan none

/-- Assert an error line that names one barge. -/
def raiseFor (s : State) (src : Nat) (b : Word) : State := s.raiseOn src 0 (some [b])

/-- Drive the line of a level source (R226): a rising edge is one event. -/
def level (s : State) (src : Nat) (on : Bool) : State :=
  if on then
    if s.bc.levels.contains (BitVec.ofNat 7 src) then s
    else ({ s with bc := { s.bc with levels := s.bc.levels ++ [BitVec.ofNat 7 src] } }).raise src 0
  else { s with bc := { s.bc with levels := s.bc.levels.filter (· ≠ BitVec.ofNat 7 src) } }

/-! ### Bus responses and who may write -/

/-- Answer an access with data. -/
def busOk (s : State) (v : DWord) : State := { s with bus := .ok v }

/-- A SCRAPPED device answers no access but the reads of R290. -/
def scrapped (s : State) : Bool := s.se.life == .scrapped

/-- A bus error response; to a Keeper access it raises ES5 (Table 11-7). -/
def busError (s : State) (i : Initiator) : State :=
  if s.scrapped then { s with bus := .none }
  else match i with
    | .harbour => { s with bus := .error }
    | .user => { s with bus := .error }
    | .k0 => ({ s with bus := .error }).raise 5 0
    | .k1 => ({ s with bus := .error }).raise 5 0

/-- A refused access: a bus error response, and ES10 from Harbour (R7, R395). -/
def refuse (s : State) (i : Initiator) : State :=
  match i with
  | .k0 => s.busError i
  | .k1 => s.busError i
  | _ => if s.scrapped then s.busError i else (s.busError i).raise 10 0

/-- Harbour stands in reset until the training of step 7 ends (R313); under the factory defaults it runs the recovery loader (R296). -/
def harbourHeld (s : State) : Bool := s.wr.step < 8 && !s.se.defaults

/-- Whether an initiator's requests are served: a lost pair's tag is refused (R388), Harbour makes none in reset (R313), and a SCRAPPED device
runs only its ROM (R290). -/
def admitted (s : State) (i : Initiator) : Bool :=
  !s.scrapped && match i with
  | .k0 => decide (s.kc.pairs[0] ≠ .lost)
  | .k1 => decide (s.kc.pairs[1] ≠ .lost)
  | _ => !s.harbourHeld

end State

/-- Whether an initiator is a Keeper pair. -/
def isKeeper : Initiator → Bool
  | .k0 => true
  | .k1 => true
  | _ => false

namespace State

/-- A write to a Keeper-only register: `ok` from K0 or K1, refused from Harbour (R7) and from a lost pair. -/
def keeperWrite (s : State) (i : Initiator) (ok : State → State) : State :=
  if isKeeper i && s.admitted i then ok (s.busOk 0) else s.refuse i

/-- The bit of KC_HWPERM that covers a block window (R395). -/
def hwBit (a : Nat) : Option Nat :=
  if 0x30000000 ≤ a ∧ a < 0x31000000 then some (a / 0x100000 - 0x300)
  else if 0x31000000 ≤ a ∧ a < 0x31240000 then some 16
  else if a / 0x100000 = 0x313 then some 17
  else none

/-- Whether an initiator may write a register of the window of `a` that is not Keeper-only (R395): under the factory defaults Harbour's recovery
loader commits an image through Seal's (R296). -/
def mayWrite (s : State) (i : Initiator) (a : Nat) : Bool :=
  s.admitted i && (isKeeper i || (s.se.defaults && a / 0x100000 == 0x309) || match hwBit a with | some k => s.flag R.KC_HWPERM k | none => false)

/-- A write to a register that is not Keeper-only. -/
def openWrite (s : State) (i : Initiator) (a : Nat) (ok : State → State) : State :=
  if s.mayWrite i a then ok (s.busOk 0) else s.refuse i

/-! ### Memory -/

end State

/-- What a byte of memory that nothing has written reads as (log entry 2). -/
def memDefault (_ : Nat) : Byte := 0

/-- Memory keeps its canonical form. -/
abbrev Memory.wf (m : List Host.Cell) : Prop := Cells.wf memDefault m = true

namespace State

/-- One byte of the physical map. -/
def byte (s : State) (a : Nat) : Byte := Cells.get memDefault s.mem a

/-- `n` bytes from address `a`. -/
def bytes (s : State) (a n : Nat) : List Byte := Cells.getRange memDefault s.mem a n

/-- Store bytes from address `a`. -/
def store (s : State) (a : Nat) (bs : List Byte) : State := { s with mem := Cells.setRange memDefault s.mem a bs }

/-- Every byte of a range reads 0 again. -/
def wipe (s : State) (a n : Nat) : State := { s with mem := Cells.clear s.mem a n }

/-- Copy `n` bytes from `src` to `dst`. -/
def copyMem (s : State) (src n dst : Nat) : State :=
  { s with mem := Cells.replace memDefault s.mem dst n (Cells.window s.mem src n) }

/-! ### Barges -/

/-- The in-flight entry of a barge number. -/
def barge? (s : State) (b : Word) : Option Barge := s.barges.find? (·.num = b)

/-- Change the in-flight entry of a barge number. -/
def updBarge (s : State) (b : Word) (f : Barge → Barge) : State :=
  { s with barges := s.barges.map fun x => if x.num = b then f x else x }

/-- Do something with a barge's entry, if it is in flight. -/
def withBarge (s : State) (b : Word) (f : Barge → State) : State :=
  match s.barge? b with
  | some x => f x
  | none => s

/-- A Keeper pair is halted by a debugger in the FIELD state (R208). -/
def fieldHalt (s : State) : Bool := s.se.life == .field && s.kc.pairs.any (· == .halted)

/-- SAFE_N: high once READY, outside the safe state, while neither reaction line is asserted (R233) and no FIELD halt holds it low (R208). -/
def safeHigh (s : State) : Bool := s.wr.ready && !s.bc.safe && !s.bc.lineA && !s.bc.lineB && !s.fieldHalt

/-- The next value of a wrapping sequence number that skips 0. -/
def nextSeq (w : Word) : Word := if w + 1 = 0 then 1 else w + 1

end State

/-- SERVICE, or PROVISIONED, which behaves as SERVICE (Table 14-1). -/
def inService (s : State) : Bool := s.se.life == .service || s.se.life == .provisioned

/-- Fold over the numbers below n. -/
def foldN {α : Type} (n : Nat) (f : α → Nat → α) (a : α) : α := (List.range n).foldl f a

/-- The least element of a list of words by a measure. -/
def minBy {α : Type} (f : α → α → Bool) : List α → Option α
  | [] => none
  | x :: xs => match minBy f xs with
    | none => some x
    | some y => if f y x then some y else some x

/-- A periodic read is due: its period has passed since the last. -/
def readDue (s : State) (last : Option Nat) (period : Nat) : Bool :=
  match last with
  | some c => decide (period ≤ s.cycle - c)
  | none => true

/-- The extent of an operation. -/
def opLen : MemOp → Nat
  | .read n => n
  | .write d => d.length
def isWrite : MemOp → Bool
  | .read _ => false
  | .write _ => true

end Sys2Proof.Machine
end

