-- ==== Sys2Proof/Machine/Counters.lean ====
section
/-! DEFINITION. Machine/Counters.lean: what a Lantern unit's counters do with an event or with bytes (R400 to R406). Lantern's own
commands are in Machine/Lantern.lean. -/

namespace Sys2Proof.Machine

/-- Change Lantern's state. -/
def updLn (s : State) (f : Lantern → Lantern) : State := { s with ln := f s.ln }

/-- The selection of a counter that governs this cycle: a write takes effect from the next (R401). -/
def lnSel (s : State) (u k : Nat) : Word :=
  match s.ln.selOld.find? fun x => x.1 = R.LNu_EVSELk u k with
  | some x => x.2
  | none => s.reg (R.LNu_EVSELk u k)

/-- Counter k of a unit is enabled (Table 20-5), neither Lantern nor the unit is frozen, and no CLR has fallen in this cycle (R405). -/
def lnRuns (s : State) (u k : Nat) : Bool :=
  s.flag R.LN_CTRL 0 && (lnSel s u k).getLsbD 8 && !s.flag (R.LNu_CTL u) 0 && !s.flag R.LN_FREEZE 0 && !s.ln.cleared.contains (Fin.ofNat 64 u)

/-- An odd counter that counts its even partner's wraps (R404). -/
def lnChained (s : State) (u k : Nat) : Bool := k % 2 == 1 && (lnSel s u k).getLsbD 10

/-- Add to one counter: 48 bits, LNu_OVF and LN_IRQ_STAT.OVF on a wrap. The second component: how often it wrapped. -/
def lnAdd (s : State) (u : Fin 64) (k : Fin 8) (n : Nat) : State × Nat :=
  let v := s.ln.cnt[u][k].toNat + n
  let s := updLn s fun l => { l with cnt := l.cnt.set u (l.cnt[u].set k (BitVec.ofNat 48 v)) }
  (if v < 2 ^ 48 then s else (s.setBit (R.LNu_OVF u) k).setBit R.LN_IRQ_STAT 2, v / 2 ^ 48)

/-- Add to a counter, and its wraps to the odd partner that is chained to it. -/
def lnCountOn (u : Fin 64) (n : Nat) (s : State) (k : Nat) : State :=
  let (s, w) := lnAdd s u (Fin.ofNat 8 k) n
  if 0 < w ∧ k % 2 = 0 ∧ lnChained s u (k + 1) = true ∧ lnRuns s u (k + 1) = true then (lnAdd s u (Fin.ofNat 8 (k + 1)) w).1 else s

/-- Event `ev` of unit `u`, `n` times (R401, R402). `edge` tells the rising edges of a level event from its cycles. -/
def lnEvent (s : State) (u : Fin 64) (ev n : Nat) (edge : Option Bool) : State :=
  if n = 0 then s
  else
    ((List.range 8).filter fun k =>
      lnRuns s u k && !lnChained s u k && bits (lnSel s u k) 7 0 == ev &&
      (match edge with | some e => (lnSel s u k).getLsbD 9 == e | none => true)).foldl (lnCountOn u n) s

/-- Bytes through a port unit: its bandwidth window, and RD_64B and WR_64B in whole units of all bytes so far (R402, R406). -/
def lnBytes (s : State) (u : Fin 64) (rd wr : Nat) : State :=
  let t := s.ln.total[u]
  let b := s.ln.bwBytes[u]
  let s := updLn s fun l => { l with total := l.total.set u (t.1 + rd, t.2 + wr), bwBytes := l.bwBytes.set u (b.1 + rd, b.2 + wr) }
  lnEvent (lnEvent s u 0x20 ((t.1 + rd) / 64 - t.1 / 64) none) u 0x21 ((t.2 + wr) / 64 - t.2 / 64) none

/-- A tile's unit, and a root port's. -/
def lnTile (p : Fin 36) : Fin 64 := Fin.ofNat 64 p.val
def lnPort (n : Fin 2) : Fin 64 := Fin.ofNat 64 (52 + n.val)
def lnHold (c : Nat) : Fin 64 := Fin.ofNat 64 (36 + c % 16)
def lnTp (q : Fin 4) : Fin 64 := Fin.ofNat 64 (56 + q.val)

/-- A unit that reads 0: a tile fused off, a reserved unit (Table 20-1). -/
def lnReadsZero (s : State) (u : Nat) : Bool := decide (60 ≤ u) || (decide (u < 36) && s.fused.contains (Fin.ofNat 36 u))

/-- The Lantern unit kinds of LN_PERM: tiles, Hold, root ports, Sluice, Towpath. -/
def lnKind (u : Nat) : Nat :=
  if u < 36 then 0 else if u < 52 then 1 else if u < 54 then 2 else if u < 56 then 3 else 4

/-- A port's event that Beacon hears of (event 0x24). -/
def lnErr (s : State) (u : Fin 64) : State := lnEvent s u 0x24 1 none

/-- Level events in one TCLK cycle (R402): each asserted one counts the cycle, and a rising edge where it was not asserted in the last. -/
def lnLevels (s : State) (now : List (Fin 64 × Nat)) : State :=
  now.foldl (fun t x =>
    let t := lnEvent t x.1 x.2 1 (some false)
    if s.ln.levels.contains x then t else lnEvent t x.1 x.2 1 (some true)) s

end Sys2Proof.Machine
end

