-- ==== Sys2Proof/Machine/Banks.lean ====
section
/-! DEFINITION. Machine/Banks.lean: who may reach a Basin bank (R340, R341), Hold's words, and what a write to Hold does beside storing
(R169, R332). -/

namespace Sys2Proof.Machine

/-- Base of Basin; bank b lies at +0x8_0000·b. -/
def basinBase : Nat := 0x20000000

/-- Who makes an access to Basin. -/
inductive BankUser | core (i : Initiator) | mooringIn | sluice | tiles | lantern
  deriving DecidableEq, Repr

/-- The owner code of a user (Table 16-3). -/
def ownerOf : BankUser → Nat
  | .core .k0 => 0
  | .core .k1 => 1
  | .core _ => 2
  | .mooringIn => 3
  | .sluice => 4
  | .tiles => 5
  | .lantern => 6

/-- Whether a range lies in Basin. -/
def inBasin (a n : Nat) : Bool := decide (basinBase ≤ a ∧ a + n ≤ basinBase + 0x2000000)

/-- The banks a range of `n` bytes from `a` touches. -/
def banksOf (a n : Nat) : List (Fin 64) :=
  (List.range 64).filterMap fun b =>
    let lo := basinBase + 0x80000 * b
    if a < lo + 0x80000 ∧ lo < a + n then some (Fin.ofNat 64 b) else none

/-- Whether a core may read a bank that it does not own: K0 and K1 every one, Harbour the dump bank, in user mode while LN_PERM.DUMP is
set (R340, R409). -/
def mayDump (s : State) (i : Initiator) (b : Fin 64) : Bool :=
  isKeeper i || (s.bs.banks[b].owner == 6 && (i == .harbour || s.flag R.LN_PERM 5))

/-- Whether a user may read or write a bank that has no hand-over pending (R340, R409). -/
def mayBank (s : State) (u : BankUser) (write : Bool) (b : Fin 64) : Bool :=
  s.bs.banks[b].owner.toNat == ownerOf u || (!write && (match u with | .core i => mayDump s i b | _ => false))

/-- Change a bank. -/
def updBank (s : State) (b : Fin 64) (f : Bank → Bank) : State :=
  { s with bs := { s.bs with banks := s.bs.banks.set b (f s.bs.banks[b]) } }

/-- The march test that runs on a bank. -/
def marchOn (s : State) (b : Fin 64) : Option March := s.bs.marches.find? (·.bank = b)

/-- A destroying run on the bank (R347). -/
def destroying (s : State) (b : Fin 64) : Bool :=
  match marchOn s b with
  | some m => !m.preserve
  | none => false

/-- Banks that answer every access with a bus error: hand-over pending, a destroying run, FAILED (R341, R347, R350). -/
def bankBlocked (s : State) (b : Fin 64) : Bool := s.bs.banks[b].next.isSome || destroying s b || s.bs.banks[b].failed

/-- Whether every bank a range touches admits the access. -/
def banksAdmit (s : State) (u : BankUser) (write : Bool) (a n : Nat) : Bool :=
  (banksOf a n).all fun b => !bankBlocked s b && mayBank s u write b

/-- One refusal more that BANKb_STAT counts. -/
def bankCount (s : State) (b : Fin 64) : State := updBank s b fun x => { x with refused := min (x.refused + 1) 0xFFFF }

/-- ES74 and BS_IRQ_STAT.REFUSED (R340). -/
def basinRefused (s : State) : State := (s.setBit R.BS_IRQ_STAT 1).raise 74 0

/-- What a refused access leaves: counted without ES74 on a bank whose hand-over is pending, whoever makes it (R341); else ES74 from a user
that the bank does not admit (R340); counted without ES74 from its owner during a destroying run (R347); nothing on a FAILED bank (R350). -/
def bankRefusal (s : State) (u : BankUser) (write : Bool) (a n : Nat) : State :=
  match (banksOf a n).find? fun b => s.bs.banks[b].next.isSome with
  | some b => bankCount s b
  | none =>
    if (banksOf a n).any fun b => !mayBank s u write b then basinRefused s
    else match (banksOf a n).find? (destroying s) with
      | some b => bankCount s b
      | none => if (banksOf a n).any (bankBlocked s) then s else basinRefused s

/-- Ranges [a, a+n) and [b, b+m) meet. -/
def meets (a n b m : Nat) : Bool := decide (a < b + m ∧ b < a + n ∧ 0 < m)

/-- An access to Basin waits: the image buffer until the end of step 7 (R344), the segment a preserving run tests (R347). -/
def basinWaits (s : State) (a n : Nat) : Bool :=
  (banksOf a n).any fun b =>
    (decide (b.val < 32) && !s.hd.filled) ||
    (match marchOn s b with
      | some m => m.preserve && meets a n (basinBase + 0x80000 * b.val + 4096 * m.seg) 4096
      | none => false)

/-- A write that covers whole words reads none of them (R13). -/
def wholeWords (a n : Nat) : Bool := a % 16 == 0 && n % 16 == 0

/-! ### Hold (Table 16-1) -/

def holdBase : Nat := 0x0100000000
def holdTop (s : State) : Nat := if s.hd.raw144 then 0x2100000000 else 0x0F38E00000

/-- Whether a range lies in Hold. -/
def inHold (s : State) (a n : Nat) : Bool := decide (holdBase ≤ a ∧ a + n ≤ holdTop s)

/-- The 16-byte words a range touches, by address. -/
def wordsOf (a n : Nat) : List Nat := (List.range ((a + n + 15) / 16 - a / 16)).map fun k => 16 * (a / 16 + k)

/-- Change Hold's state. -/
def updHd (s : State) (f : Hold → Hold) : State := { s with hd := f s.hd }

/-- The channel of an address: A[12:9] XOR A[16:13] of its usable offset (R330). -/
def holdChannel (a : Nat) : Nat := ((a - holdBase) >>> 9) % 16 ^^^ ((a - holdBase) >>> 13) % 16

/-- Data bytes of a range through the Hold channels, which interleave every 512 bytes (R330, Table 20-1). -/
def holdBytes (s : State) (a n : Nat) (write : Bool) : State :=
  foldN ((a + n + 511) / 512 - a / 512) (fun s k =>
    let lo := max a (512 * (a / 512 + k))
    let len := min (a + n) (512 * (a / 512 + k + 1)) - lo
    lnBytes s (lnHold (holdChannel lo)) (if write then 0 else len) (if write then len else 0)) s

/-- A corrected word: counted, and one event on ES65 (R13). -/
def holdCorrected (s : State) (a : Nat) : State :=
  (((lnErr s (lnHold (holdChannel a))).satAdd R.HD_CORR 31 0 1).satAdd (R.HD_CHc_STAT (holdChannel a)) 31 16 1).raise 65 0

/-- An uncorrectable word: ES64, HD_UNC_ADDR (R332). -/
def holdUncorrectable (s : State) (a : Nat) : State :=
  let s := updHd (lnErr s (lnHold (holdChannel a))) fun h => { h with unc := if h.unc.contains (16 * (a / 16)) then h.unc else h.unc ++ [16 * (a / 16)] }
  let s := (s.setReg R.HD_UNC_ADDR_LO (BitVec.ofNat 32 a)).setReg R.HD_UNC_ADDR_HI (BitVec.ofNat 32 (a / 2 ^ 32))
  (s.setBit R.HD_IRQ_STAT 0).raise 64 0

/-- An uncorrectable Hold word in a range (R332). -/
def holdUncIn (s : State) (a len : Nat) : Option Nat := s.hd.unc.find? fun w => w < a + len && a < w + 16

/-- A read of a range of Hold has met an uncorrectable word: one found before, else one of the range, which one the manual does not say: free. -/
def holdBadRead (s : State) (a n : Nat) : State :=
  match holdUncIn s a n with
  | some w => holdUncorrectable s w
  | none => holdUncorrectable s.free.2 (a + 16 * (s.free.1.toNat % max 1 (n / 16)))

/-- What the code shows of a range of Hold: an uncorrectable word stays so until it is rewritten whole. -/
def holdEcc (s : State) (a n : Nat) (e : Ecc) : CodeFinding := if (holdUncIn s a n).isSome then .uncorrectable else codeFinding e

/-- The words of a write are good again. -/
def holdRewritten (s : State) (a n : Nat) : State := updHd s fun h => { h with unc := h.unc.filter fun w => !(wordsOf a n).contains w }

/-- Basin's corrected and uncorrectable words (R13). -/
def basinCorrected (s : State) : State := (s.satAdd R.BS_CORR 15 0 1).raise 73 0
def basinUncorrectable (s : State) (a : Nat) : State := (s.setReg R.BS_UNC_ADDR (BitVec.ofNat 32 a)).raise 72 0

/-! ### The library banks (R169) -/

/-- The active bank, and a bank's base, size and status. -/
def activeBank (s : State) : Bool := s.flag R.SN_CTRL 1
def bankBase (s : State) (b : Bool) : Nat :=
  if b then (s.reg R.SN_LIBB_LO).toNat + 2 ^ 32 * s.fld R.SN_LIBB_HI 7 0
  else (s.reg R.SN_LIBA_LO).toNat + 2 ^ 32 * s.fld R.SN_LIBA_HI 7 0
def libSize (s : State) : Nat := 1048576 * (s.reg R.SN_LIB_SIZE).toNat
def setLibStat (s : State) (b : Bool) (code : Nat) : State := if b then s.setFld R.SN_LIB_STAT 7 4 code else s.setFld R.SN_LIB_STAT 3 0 code

/-! ### The regions that refuse writes (R170, R294, R335) -/

/-- The image in the slot in use. -/
def usedImage (s : State) : Option Image :=
  match s.se.useB with
  | none => none
  | some b => if b then s.se.slotB.data else s.se.slotA.data

/-- Whether Seal has verified golden region `k` in this start. -/
def goldVerified (s : State) (k : Nat) : Bool := if k < 32 then s.flag R.SE_GOLD_OK_LO k else s.flag R.SE_GOLD_OK_HI (k - 32)

/-- The golden regions of the image in use. -/
def goldens (s : State) : List Golden := match usedImage s with | some im => im.contents.goldens | none => []

/-- A range of Hold touches a golden region of which `p` holds. -/
def touchesGolden (s : State) (p : Nat → Bool) (a n : Nat) : Bool :=
  (goldens s).any fun g => p g.region.val && decide (a < g.addr + g.len ∧ g.addr < a + n)

/-- What the Hold controller lets no initiator write: the active library bank, a verified golden region (R170, R335). -/
def shutHold (s : State) (a n : Nat) : Bool :=
  meets a n (bankBase s (activeBank s)) (libSize s) || touchesGolden s (goldVerified s ·) a n

/-- What a refused write to Hold leaves: ES70. -/
def holdRefusal (s : State) : State := (s.setBit R.HD_IRQ_STAT 1).raise 70 0

/-- A request reaches the SM3 engine, which serves one at a time in order of arrival (R284); it is dropped; it is the one in service. -/
def sm3Ask (s : State) (j : Sm3Job) : State := { s with se := { s.se with sm3 := s.se.sm3 ++ [j] } }
def sm3Drop (s : State) (j : Sm3Job) : State := { s with se := { s.se with sm3 := s.se.sm3.erase j } }
def sm3Serves (s : State) (j : Sm3Job) : Bool := s.se.sm3.head?.all (· == j)

/-- A write into a library bank returns its status to NONE, and ends a verification of it (R169). -/
def libraryTouched (s : State) (a n : Nat) : State :=
  let b := !activeBank s
  if meets a n (bankBase s b) (libSize s) then
    let s := setLibStat s b 0
    if s.sn.verifying = some b then sm3Drop { s with sn := { s.sn with verifying := none } } .library else s
  else s

/-- Write Hold: counted on its channels, the words written are good again, and a library bank among them is no longer verified, whoever writes (R169). -/
def putHold (s : State) (a : Nat) (bs : List Byte) : State :=
  libraryTouched (holdRewritten (holdBytes (s.store a bs) a bs.length true) a bs.length) a bs.length

end Sys2Proof.Machine
end

