-- ==== Sys2Proof/Machine/Brakes.lean ====
section
/-! DEFINITION. Machine/Brakes.lean: the shared operations of the brake channels (R262 to R272): release conditions, off-demand,
lock-out. Their commands are in Machine/SafeIo.lean. -/

namespace Sys2Proof.Machine

/-- Change a brake channel. -/
def updBrake (s : State) (n : Fin 4) (f : Brake → Brake) : State :=
  { s with sio := { s.sio with brakes := s.sio.brakes.set n (f s.sio.brakes[n]) } }

/-- BRKn_LOCK.LOCKED. -/
def isLocked (s : State) (n : Fin 4) : Bool := s.flag (R.BRKn_LOCK n) 0

/-- BRK_VS lies within VS_MIN to VS_MAX. -/
def supplyInWindow (s : State) : Bool :=
  decide (s.fld R.BRK_VS_CFG 15 0 ≤ s.sio.supply.toNat ∧ s.sio.supply.toNat ≤ s.fld R.BRK_VS_CFG 31 16)

/-- A safe input is in PERMIT; a disabled input reads DEMAND (Table 13-10). -/
def sinPermits (s : State) (i : Nat) : Bool :=
  s.flag (R.SINi_CFG i) 0 && s.sio.sins[Fin.ofNat 8 i].state == .permit

/-- The conditions of R264 but for RELEASE itself. -/
def mayRelease (s : State) (n : Fin 4) : Bool :=
  s.flag (R.BRKn_CFG n) 0 && s.safeHigh && !isLocked s n && supplyInWindow s &&
  (List.range 8).all (fun i => !s.flag (R.BRKn_CFG n) (8 + i) || sinPermits s i) &&
  (List.range 4).all (fun v => !s.flag (R.BRKn_CFG n) (16 + v) || s.lc.valids[Fin.ofNat 4 v].level)

/-- Whether a channel has left APPLIED under R264. -/
def leftApplied (b : Brake) : Bool :=
  match b.state with
  | .releasing1 => true
  | .releasing2 => true
  | .released => true
  | .test => true
  | _ => false

/-! ### Readings (R262, R263) -/

/-- Both-off evidence: FBH not HIGH and FBL not LOW (R262). -/
def bothOff (r : BrakeReading) : Bool := r.hi != .high && r.lo != .low

/-- Table 13-2: the node classes expected for the gates driven. -/
def nodesAsExpected (hsg lsg : Bool) (r : BrakeReading) : Bool :=
  match hsg, lsg with
  | false, false => bothOff r
  | false, true => r.hi == .low && r.lo == .low
  | true, false => r.hi == .high && r.lo == .high
  | true, true => r.hi == .high && r.lo == .low

/-- The shunt voltage lies in I_MIN to I_MAX; it is below I_OFF. -/
def currentOn (s : State) (n : Fin 4) (r : BrakeReading) : Bool :=
  decide (s.fld (R.BRKn_ILIM n) 9 0 ≤ r.shunt.toNat ∧ r.shunt.toNat ≤ s.fld (R.BRKn_ILIM n) 19 10)
def currentOff (s : State) (n : Fin 4) (r : BrakeReading) : Bool := decide (r.shunt.toNat < s.fld (R.BRKn_ILIM n) 29 20)

/-- Table 13-2: the shunt voltage expected for the gates driven. -/
def currentAsExpected (s : State) (n : Fin 4) (hsg lsg : Bool) (r : BrakeReading) : Bool :=
  if hsg && lsg then currentOn s n r else currentOff s n r

/-- What a new sample makes of a watch. -/
def Watch.see (w : Watch) (now : Nat) (ok : Bool) : Watch := if w.ok = ok then w else ⟨ok, now⟩

/-- Record a reading (BRKn_STAT.FBH, FBL, BRKn_ISNS). -/
def readBrake (s : State) (n : Fin 4) (r : BrakeReading) : State :=
  updBrake s n fun b => { b with reading := r
                                 nodes := b.nodes.see s.cycle (nodesAsExpected b.hsg b.lsg r)
                                 rightAt := if b.rightAt.isNone && nodesAsExpected b.hsg b.lsg r then some s.cycle else b.rightAt
                                 current := b.current.see s.cycle (currentAsExpected s n b.hsg b.lsg r) }

/-- The TP_PER count of a channel (R269). -/
def tpCount (s : State) (b : Brake) : Nat := b.tpRan + (if b.state = .released then s.cycle - b.tpFrom else 0)

/-- A channel enters a state with its gates driven so: its TP_PER count stands still outside RELEASED, and its last reading is held
against the new gates from now on. -/
def enterBrake (s : State) (n : Fin 4) (st : BrakeState) (hsg lsg : Bool) : State :=
  updBrake s n fun b =>
    let b := { b with tpRan := tpCount s b, tpFrom := s.cycle, state := st, afterPulse := false }
    if b.hsg = hsg ∧ b.lsg = lsg then b
    else { b with hsg := hsg, lsg := lsg, since := s.cycle, rightAt := none
                  nodes := ⟨nodesAsExpected hsg lsg b.reading, s.cycle⟩
                  current := ⟨currentAsExpected s n hsg lsg b.reading, s.cycle⟩ }

/-- When an entry to APPLIED or LOCKED began (R268): now, or with the test pulse that it ends (R271). -/
def offBegan (s : State) (b : Brake) : Nat := if b.state = .test then b.since else s.cycle

/-- Both gates off; the state becomes `st`. A running test keeps its judgement (R271); an off transition begins (R268). -/
def gatesOff (s : State) (n : Fin 4) (st : BrakeState) : State :=
  let c := offBegan s s.sio.brakes[n]
  updBrake (enterBrake s n st false false) n fun b => { b with offFrom := if st = .off then none else some c }

/-- An off-demand (R264) from a cause other than a Keeper write: APPLIED, and RELEASE cleared in hardware (R265). -/
def offDemand (s : State) (n : Fin 4) : State :=
  (gatesOff s n .applied).setFld (R.BRKn_REQ n) 0 0 0

/-- Every channel whose release conditions fail in this cycle (R264, R265). -/
def brakesCheck (s : State) : State :=
  foldN 4 (fun s n =>
    let n := Fin.ofNat 4 n
    if leftApplied s.sio.brakes[n] && !mayRelease s n then offDemand s n else s) s

/-- Lock a channel out (R272): both gates off, LOCKED with its cause (Table 13-4) and BC_STARTS. A channel already locked keeps its cause. -/
def lockChannel (s : State) (n : Fin 4) (cause : Nat) : State :=
  if isLocked s n then s
  else
    let s := (gatesOff s n (if s.flag (R.BRKn_CFG n) 0 then .locked else .off)).setFld (R.BRKn_REQ n) 0 0 0
    (s.setReg (R.BRKn_LOCK n) (BitVec.ofNat 32 (1 + 16 * cause + 256 * s.fld R.BC_STARTS 7 0))).setBit R.SIO_IRQ_STAT 0

/-- A failed start test locks the channel with cause START (R280), one locked before too. -/
def lockStart (s : State) (n : Fin 4) : State := (lockChannel s n 7).setFld (R.BRKn_LOCK n) 7 4 7

/-- Lock every channel (R272). -/
def lockAll (s : State) (cause : Nat) : State := foldN 4 (fun s n => lockChannel s (Fin.ofNat 4 n) cause) s

/-- The brake supply out of its window (R272, R279): ES102, and every channel locked. -/
def supplyFault (s : State) : State := lockAll (s.level 102 true) 5

end Sys2Proof.Machine
end

