-- ==== Sys2Proof/Machine/Drbg.lean ====
section
/-! DEFINITION. Machine/Drbg.lean: SM3 (GB/T 32905) and the Hash_DRBG of NIST SP 800-90A with it (R153, R154). Both are named by
the manual and stand here as their standards give them (log entry 40). -/

namespace Sys2Proof.Machine

namespace Sm3

def p0 (x : Word) : Word := x ^^^ x.rotateLeft 9 ^^^ x.rotateLeft 17
def p1 (x : Word) : Word := x ^^^ x.rotateLeft 15 ^^^ x.rotateLeft 23
def ff (j : Nat) (x y z : Word) : Word := if j < 16 then x ^^^ y ^^^ z else (x &&& y) ||| (x &&& z) ||| (y &&& z)
def gg (j : Nat) (x y z : Word) : Word := if j < 16 then x ^^^ y ^^^ z else (x &&& y) ||| (~~~x &&& z)
def tj (j : Nat) : Word := if j < 16 then 0x79CC4519 else 0x7A879D8A

/-- The message padded to whole 64-byte blocks. -/
def pad (m : List Byte) : List Byte :=
  let z := (119 - m.length % 64) % 64
  m ++ [0x80] ++ List.replicate z 0 ++ bytesBE 8 (8 * m.length)

/-- The first sixteen words of a block. -/
def words (bs : List Byte) : Nat → List Word
  | 0 => []
  | n + 1 => BitVec.ofNat 32 (natBE (bs.take 4)) :: words (bs.drop 4) n

/-- Extend the schedule (newest first) by `n` words. -/
def extend : Nat → List Word → List Word
  | 0, w => w
  | n + 1, w =>
    let g := fun i => (w[i]?).getD 0
    extend n ((p1 (g 15 ^^^ g 8 ^^^ (g 2).rotateLeft 15) ^^^ (g 12).rotateLeft 7 ^^^ g 5) :: w)

/-- The eight chaining words. -/
structure V8 where
  a : Word
  b : Word
  c : Word
  d : Word
  e : Word
  f : Word
  g : Word
  h : Word
  deriving DecidableEq, Repr

def iv : V8 := ⟨0x7380166F, 0x4914B2B9, 0x172442D7, 0xDA8A0600, 0xA96F30BC, 0x163138AA, 0xE38DEE4D, 0xB0FB0E4E⟩

/-- One round with words w and w'. -/
def round (v : V8) (j : Nat) (w w4 : Word) : V8 :=
  let r12 := v.a.rotateLeft 12
  let ss1 := (r12 + v.e + (tj j).rotateLeft (j % 32)).rotateLeft 7
  let tt1 := ff j v.a v.b v.c + v.d + (ss1 ^^^ r12) + (w ^^^ w4)
  let tt2 := gg j v.e v.f v.g + v.h + ss1 + w
  ⟨tt1, v.a, v.b.rotateLeft 9, v.c, p0 tt2, v.e, v.f.rotateLeft 19, v.g⟩

/-- The rounds from `j` over the schedule in order. -/
def rounds : Nat → V8 → Nat → List Word → V8
  | 0, v, _, _ => v
  | n + 1, v, j, w => rounds n (round v j ((w[0]?).getD 0) ((w[4]?).getD 0)) (j + 1) w.tail

def xor8 (x y : V8) : V8 :=
  ⟨x.a ^^^ y.a, x.b ^^^ y.b, x.c ^^^ y.c, x.d ^^^ y.d, x.e ^^^ y.e, x.f ^^^ y.f, x.g ^^^ y.g, x.h ^^^ y.h⟩

/-- Compress `n` blocks. -/
def blocks : Nat → V8 → List Byte → V8
  | 0, v, _ => v
  | n + 1, v, bs =>
    let w := (extend 52 (words (bs.take 64) 16).reverse).reverse
    blocks n (xor8 (rounds 64 v 0 w) v) (bs.drop 64)

/-- The 32-byte digest. -/
def hash (m : List Byte) : List Byte :=
  let p := pad m
  let v := blocks (p.length / 64) iv p
  [v.a, v.b, v.c, v.d, v.e, v.f, v.g, v.h].flatMap fun w => bytesBE 4 w.toNat

end Sm3

namespace Drbg

/-- Hash_df to 440 bits: two hash blocks, the leftmost 55 bytes. -/
def df (m : List Byte) : BitVec 440 :=
  let h := fun (c : Byte) => Sm3.hash (c :: bytesBE 4 440 ++ m)
  BitVec.ofNat 440 (natBE ((h 1 ++ h 2).take 55))

/-- An instance from its seed material. -/
def instantiate (material : List Byte) : Drbg :=
  let v := df material
  ⟨v, df (0 :: bytesBE 55 v.toNat), 1, []⟩

/-- One Generate request of 256 bits: eight words, each four bytes little-endian (R153). -/
def generate (d : Drbg) : Drbg :=
  let vb := bytesBE 55 d.v.toNat
  let out := Sm3.hash vb
  let h := natBE (Sm3.hash (3 :: vb))
  let v := BitVec.ofNat 440 (d.v.toNat + h + d.c.toNat + d.ctr)
  ⟨v, d.c, d.ctr + 1, (List.range 8).map fun i => BitVec.ofNat 32 (fieldLE out (4 * i) 4)⟩

/-- The next output word. -/
def next (d : Drbg) : Word × Drbg :=
  match d.left with
  | w :: ws => (w, { d with left := ws })
  | [] =>
    let g := generate d
    ((g.left.head?).getD 0, { g with left := g.left.tail })

/-- `n` words. -/
def take : Nat → Drbg → List Word
  | 0, _ => []
  | n + 1, d => (next d).1 :: take n (next d).2

end Drbg

/-- The instance of a barge and a network: SITE_SEED, START_NONCE ‖ BARGE ‖ NET_ID little-endian, and the instance byte (R153). -/
def auditInstance (seed : BitVec 256) (nonce : DWord) (barge : Word) (net : Half) (inst : Byte) : Drbg :=
  Drbg.instantiate (bytesLE 32 seed.toNat ++ bytesLE 8 nonce.toNat ++ bytesLE 4 barge.toNat ++ bytesLE 2 net.toNat ++ [inst])

/-- R154: whether word `x` gives an index below `n`, and which. -/
def drawIndex (x : Word) (n : Nat) : Option Nat :=
  if x.toNat < 2 ^ 32 - 2 ^ 32 % n then some (x.toNat % n) else none

end Sys2Proof.Machine
end

