-- ==== Sys2Proof/Machine/Recorder.lean ====
section
/-! DEFINITION. Machine/Recorder.lean: the black-box recorder's log in Hold (R336 to R339). -/

namespace Sys2Proof.Machine

/-- A list cut or filled with zeros to `n` bytes. -/
def padTo (n : Nat) (bs : List Byte) : List Byte := (bs ++ List.replicate n 0).take n

/-- Slots of the log: HD_REC_LOG MiB of 64 bytes. -/
def logSlots (s : State) : Nat := 16384 * s.fld R.HD_REC_LOG 10 0

/-- The recorder region's base. -/
def recBase (s : State) : Nat := (s.reg R.HD_REC_BASE_LO).toNat + 2 ^ 32 * s.fld R.HD_REC_BASE_HI 7 0

/-- Milliseconds the log reaches back, once the ring has wrapped (HD_REC_SPAN). -/
def logSpanMs (s : State) : Nat :=
  if s.hd.recTimes.length = logSlots s then
    match s.hd.recTimes.getLast? with
    | some c => msSince s c
    | none => 0
  else 0

/-- A slot of 60 bytes with its SLOT_CHK, the slot index folded first (Table 16-2). -/
def withSlotChk (body : List Byte) (i : Nat) : List Byte := padTo 60 body ++ recChk (BitVec.ofNat 32 i) (padTo 60 body)

/-- The 64 bytes of slot `i`. -/
def logSlotBytes (x : LogSlot) (i : Nat) : List Byte := if x.chk then withSlotChk x.body i else padTo 64 x.body

/-- HD_IRQ_STAT.SHORT: a slot overwrites one younger than 60 s (R338, log entry 101). -/
def noteShort (s : State) : State :=
  if s.hd.recTimes.length = logSlots s ∧ logSpanMs s < 60000 then s.setBit R.HD_IRQ_STAT 2 else s

/-- A slot whose write fails: ES69, HD_REC_LOST; HD_REC_HEAD stays (R337, log entry 101). -/
def slotLost (s : State) : State := (s.satAdd R.HD_REC_LOST 31 0 1).raise 69 0

/-- Write one 64-byte slot at HD_REC_HEAD and advance it (R337). A log of no slots (no image) keeps nothing; a write that the controller
refuses fails (R335). -/
def writeSlot (s : State) (x : LogSlot) : State :=
  if logSlots s = 0 then s
  else
    let i := (s.reg R.HD_REC_HEAD).toNat % logSlots s
    let a := recBase s + 64 * i
    if shutHold s a 64 then slotLost (holdRefusal s)
    else
      let s := noteShort (putHold s a (logSlotBytes x i))
      let s := { s with hd := { s.hd with recTimes := (s.cycle :: s.hd.recTimes).take (logSlots s) } }
      s.setReg R.HD_REC_HEAD (BitVec.ofNat 32 ((i + 1) % logSlots s))

/-- A slot is written, or waits for the end of the fill: Hold takes none before (R313, R337, log entry 101). -/
def logSlot (s : State) (x : LogSlot) : State :=
  if s.hd.filled then writeSlot s x else { s with hd := { s.hd with recWait := s.hd.recWait ++ [x] } }

/-- A verdict or start record, verbatim. -/
def logRecord (s : State) (rec : List Byte) : State := logSlot s ⟨false, rec⟩

/-- A notice. -/
def logNotice (s : State) (n : List Byte) : State := logSlot s ⟨true, n⟩

/-- A barge's delivery: the record, the contexts written, the Hold address of the agreed copy, the time. -/
def logDelivery (s : State) (rec : List Byte) (ctxs : Nat) (copy : Nat) : State :=
  logSlot s ⟨true, (padTo 32 rec ++ bytesLE 8 ctxs ++ bytesLE 5 copy ++ [0, 0, 0] ++ bytesLE 4 s.now.t.toNat)⟩

/-- An event that Beacon counts (KIND 0x0B). -/
def logEvent (s : State) (src chan cls : Nat) (severe : Bool) (barge : Word) (syn : Half) : State :=
  logSlot s ⟨true, ([0x0B, BitVec.ofNat 8 src, BitVec.ofNat 8 chan, BitVec.ofNat 8 (cls + 8 * bit severe)] ++
    bytesLE 4 barge.toNat ++ (syn.setWidth 8 :: (syn >>> 8).setWidth 8 :: [0, 0]) ++ bytesLE 4 s.now.t.toNat ++ bytesLE 4 s.now.s.toNat)⟩

/-- Age in ms of the oldest agreed copy still intact in the input ring. -/
def inputSpanMs (s : State) : Nat :=
  match s.sl.ring.head? with
  | some b => msSince s b.at_
  | none => 0

end Sys2Proof.Machine
end

