-- ==== Sys2Proof/Machine/Flow.lean ====
section
/-! DEFINITION. Machine/Flow.lean: what every block does to a barge: its table entry, delivery (R63 to R67, R78, R156), the
decision (R198), the verdict record (R199), its release (R200), and how a port leaves SERVING (R92). -/

namespace Sys2Proof.Machine

/-! ### Table look-ups -/

/-- The first of 64 entries with a property. -/
def find64 (p : Nat → Bool) : Option (Fin 64) := ((List.range 64).find? p).map (Fin.ofNat 64)

/-- The enabled network a set feeds (R196), and the one of a NET_ID. -/
def netOfSet (s : State) (k : Nat) : Option (Fin 64) :=
  find64 fun x => s.flag (R.NETx_CFG x) 16 && s.fld (R.NETx_CFG x) 23 20 == k
def netOfId (s : State) (id : Nat) : Option (Fin 64) :=
  find64 fun x => s.flag (R.NETx_CFG x) 16 && s.fld (R.NETx_CFG x) 15 0 == id

/-- The enabled Mirror, Audit and envelope entries of a NET_ID. -/
def mnetOfId (s : State) (id : Nat) : Option (Fin 64) :=
  find64 fun x => s.flag (R.MNETx_CFG x) 16 && s.fld (R.MNETx_CFG x) 15 0 == id
def auOfId (s : State) (id : Nat) : Option (Fin 64) :=
  find64 fun x => s.flag (R.AUn_CFG x) 16 && s.fld (R.AUn_CFG x) 15 0 == id
def envOfId (s : State) (id : Nat) : Option (Fin 64) :=
  find64 fun x => s.flag (R.ENVx_CFG x) 16 && s.fld (R.ENVx_CFG x) 15 0 == id

/-- The sentinel checks of a NET_ID (R176). -/
def schksOfId (s : State) (id : Nat) : List Nat :=
  (List.range 64).filter fun x => s.flag (R.SCHKx_CFG x) 16 && s.fld (R.SCHKx_CFG x) 15 0 == id

/-- The enabled lamps that exercise a NET_ID. -/
def lampsOfId (s : State) (id : Nat) : List Nat :=
  (List.range 256).filter fun l => s.flag (R.LMPl_CFG l) 0 && s.fld (R.LMPl_CFG l) 31 16 == id

/-- A barge's NET_ID. -/
def netId (x : Barge) : Nat := bits x.netCfg 15 0

/-- NETx_CFG.EARLY and the required kinds of a barge, as at its assignment (R203, R412). -/
def isEarly (x : Barge) : Bool := x.netCfg.getLsbD 17
def reqMask (x : Barge) : Nat := bits x.netCfg 30 24

/-- GEOM_TOKEN in effect: one register in every tile window. -/
def geomToken (s : State) : Half := (s.reg (R.GEOM_TOKEN 0)).setWidth 16

/-- A check's code under the token in effect: RUN_FAULT when its run's tag differs (R219). -/
def underToken (token : Half) (c : BitVec 4 × Option Half) : BitVec 4 :=
  match c.2 with
  | some t => if t = token then c.1 else 6
  | none => c.1

/-- A verdict that the checks gave (Table 09-3). -/
def byChecks : Option (BitVec 4 × BitVec 4) → Bool
  | some v => v.2 = 1 || v.2 = 2 || v.2 = 3
  | none => false

/-- A result that R219 discards stands in a barge's evidence: it is judged again under the new token. -/
def tokenStale (s : State) (x : Barge) : Bool := x.checks.any fun c => underToken (geomToken s) c.2 != c.2.1

/-- A refused delivery, whose verdict is final in the cycle of the refusal (R78): cause NOT_DELIVERED, or a lamp's (Table 09-3). -/
def refusedNow (x : Barge) : Bool := x.stage == .undelivered && !x.ringRefused && x.final.any fun f => f.2 = 5 || f.2 = 9

/-- Whether a barge's verdict is final: its record is formed, or it was settled in an earlier cycle (R28, R198) or by a refused
delivery (R78), or decided again after its formers differed (R199). -/
def isFinal (s : State) (x : Barge) : Bool :=
  x.formed || x.formerBad ||
  (x.final.isSome && (decide (x.finalAt < s.cycle) || refusedNow x) && !(byChecks x.final && tokenStale s x))

/-- The entry of a barge without a final verdict that an earlier line of the decision now holds for: what was settled in this cycle
gives way to it (R198). -/
def named (s : State) (f : Barge → Barge) (x : Barge) : Barge := if isFinal s x then x else { f x with final := none }

/-- SINGLE-plus-sentinel mode of a barge's Mirror entry: the twin kind is not applicable (R24, R107). -/
def singleBarge (x : Barge) : Bool := x.mnetCfg.getLsbD 18

/-- A released barge whose checks may still report (R28). -/
def goneBarge (s : State) (b : Word) : Option Barge := s.lc.gone.find? (·.num = b)

/-- Do something with a barge's entry, or with the entry it had at its release. -/
def withEntry (s : State) (b : Word) (f : Barge → State) : State :=
  match s.barge? b <|> goneBarge s b with
  | some x => f x
  | none => s

/-- Change a barge's entry, or the one it had at its release. -/
def updEntry (s : State) (b : Word) (f : Barge → Barge) : State :=
  match s.barge? b with
  | some _ => s.updBarge b f
  | none => { s with lc := { s.lc with gone := s.lc.gone.map fun x => if x.num = b then f x else x } }

/-- A check of a kind has been logged late for a barge. -/
def loggedLate (s : State) (kind : Nat) (b : Word) : Bool := s.lc.late.any fun l => l.kind = kind && l.barge = b

/-- A check that reports after the final verdict is logged with the barge number and discarded (R28). -/
def logLate (s : State) (kind : Nat) (b : Word) (code : BitVec 4) : State :=
  { s with lc := { s.lc with late := s.lc.late ++ [⟨kind, b, code⟩] } }

/-- Of two failing events found in one cycle the lower code is the result (R102, R162): `old` was given in cycle `c`. -/
def lowerNow (s : State) (c : Nat) (fails : BitVec 4 → Bool) (old new : BitVec 4) : Bool :=
  decide (c = s.cycle) && fails old && fails new && decide (new < old)

/-- A late result: one of a kind that gives one result per barge (twin, envelope) is logged once. -/
def logOnce (s : State) (kind : Nat) (b : Word) (code : BitVec 4) : State :=
  if (kind = 1 || kind = 4) && loggedLate s kind b then s else logLate s kind b code

/-- A check of kind `kind` reports `code` for a barge: `f` takes it while the barge's record is not formed, else it is late (R28). -/
def reporting (s : State) (kind : Nat) (b : Word) (code : BitVec 4) (f : Barge → State) : State :=
  match s.barge? b with
  | some x => if x.formed then logOnce s kind b code else f x
  | none => logOnce s kind b code

/-- The token of the full geometry (R220). -/
def fullToken (s : State) : Half := if s.grade = .L then 0x0118 else 0x0120

/-! ### Golden regions (R294) -/

/-- A range lies in one verified golden region. -/
def inVerified (s : State) (a n : Nat) : Bool :=
  (goldens s).any fun g => goldVerified s g.region.val && decide (g.addr ≤ a ∧ a + n ≤ g.addr + g.len)

/-- The golden copy of a patrol region is verified. -/
def patrolVerified (s : State) (r : Nat) : Bool :=
  inVerified s (s.reg64 (R.PATr_GOLD_LO r)).toNat (4096 * (s.reg (R.PATr_LEN r)).toNat)

/-- A lamp's input lies in a golden region not yet verified. -/
def lampUnverified (s : State) (l : Nat) : Bool :=
  touchesGolden s (!goldVerified s ·) (s.reg64 (R.LMPl_IN_LO l)).toNat (s.reg (R.LMPl_IN_LEN l)).toNat

/-- The audited layers of the descriptor at a Hold address. -/
def descLayers (s : State) (a : Nat) : List Layer :=
  match usedImage s with
  | none => []
  | some im => match im.contents.layers.find? (·.1 = a) with
    | some p => p.2
    | none => []

/-- The descriptor that an Audit entry names, and its audited layers. -/
def descOf (s : State) (e : Nat) : Nat := (s.reg64 (R.AUn_DESC_LO e)).toNat
def auditLayers (s : State) (e : Fin 64) : List Layer := descLayers s (descOf s e)

/-- Whether a layer is checked by projection under an entry's METHOD (R148). -/
def projected (cfg : Word) (l : Layer) : Bool :=
  match bits cfg 18 17 with
  | 0 => false
  | 1 => true
  | _ => l.project

/-! ### Evidence and the decision (R197, R198) -/

/-- What a check kind reports. -/
inductive KindOut | none | pass | fail | unch
  deriving DecidableEq, Repr

/-- Twin codes (Table 05-3): PASS is pass, every other code is fail. -/
def twinKind (c : BitVec 4) : KindOut := if c = 0 then .none else if c = 1 then .pass else .fail

/-- Audit codes (R162). -/
def auditKind (c : BitVec 4) : KindOut :=
  if c = 0 then .none else if c = 1 then .pass else if c ≤ 6 then .fail else .unch

/-- Sentinel codes of one check (Table 08-5). -/
def sentKind (c : BitVec 4) : KindOut :=
  if c = 0 then .none else if c = 1 then .pass else if c ≤ 3 then .fail else .unch

/-- Envelope codes (Table 08-7). -/
def envKind (c : BitVec 4) : KindOut :=
  if c = 0 then .none else if c = 1 then .pass else if c ≤ 4 then .fail else .unch

/-- The codes of a barge's sentinel checks; 0 where a check has not reported. -/
def sentCodes (s : State) (x : Barge) : List (BitVec 4) :=
  (schksOfId s (netId x)).map fun i =>
    match x.checks.find? fun c => c.1.val = i with
    | some c => underToken (geomToken s) c.2
    | none => 0

/-- The lowest code of one outcome. -/
def lowestCode (k : KindOut) (cs : List (BitVec 4)) : BitVec 4 :=
  match minBy (fun a b => decide (a < b)) (cs.filter fun c => sentKind c = k) with
  | some c => c
  | none => 0

/-- The sentinel kind over a network's checks (R180) and the code the record shows: the lowest of the deciding outcome. -/
def sentOutcome (cs : List (BitVec 4)) : KindOut × BitVec 4 :=
  if cs.any (fun c => sentKind c = .fail) then (.fail, lowestCode .fail cs)
  else if cs.isEmpty || cs.any (fun c => c = 0) then (.none, 0)
  else if cs.any (fun c => sentKind c = .unch) then (.unch, lowestCode .unch cs)
  else (.pass, 1)

/-- The lamp-age test of one lamp (R187). -/
def lampFresh (s : State) (l : Nat) : Bool :=
  s.flag (R.LMPl_STAT l) 4 &&
  !late s.now.t (s.reg (R.LMPl_LAST_T l) + s.reg (R.LMPl_MAXI_T l) * 1000#32) &&
  !late s.now.s (s.reg (R.LMPl_LAST_S l) + s.reg (R.LMPl_MAXI_S l))

/-- The lamp-age kind of a network (R187); it never passes without a lamp (R196). -/
def lampAgeOk (s : State) (id : Nat) : Bool := !(lampsOfId s id).isEmpty && (lampsOfId s id).all (lampFresh s)

/-- PATr_AGE (R88); no clean pass counts while the golden copy is not verified (R294). -/
def patAge (s : State) (r : Fin 64) : Nat :=
  match if patrolVerified s r.val then s.mr.regions[r].cleanAt else none with
  | none => 0xFFFFFFFF
  | some c => min (msSince s c) 0xFFFFFFFE

/-- The regions of a network: enabled, and named by NET_ID[13:0]. -/
def regionsOfId (s : State) (id : Nat) : List Nat :=
  (List.range 64).filter fun r => s.flag (R.PATr_CFG r) 0 && s.fld (R.PATr_CFG r) 15 2 == id % 16384

/-- The weight-patrol-age kind of a network (R89); it never passes for want of a region. -/
def patrolAgeOk (s : State) (id : Nat) : Bool :=
  !(regionsOfId s id).isEmpty && (regionsOfId s id).all fun r =>
    let g := s.mr.regions[Fin.ofNat 64 r]
    !g.dirty && g.cleanAt.isSome && decide (patAge s (Fin.ofNat 64 r) ≤ 100 * s.fld (R.PATr_CFG r) 31 16)

/-- A flag as an age kind's outcome. -/
def ageKind (ok : Bool) : KindOut := if ok then .pass else .fail

/-- The Sluice kind in the masks: warming counts as reported, neither pass nor fail. -/
def sluiceKind : SluiceOutcome → KindOut
  | .none => .none
  | .pass => .pass
  | .warming => .unch
  | .fail => .fail

/-- The seven kinds in mask order (R196); ages only where the decision read them. -/
def kinds (s : State) (x : Barge) (ages : Bool) : List KindOut :=
  [sluiceKind x.sluice, if singleBarge x then .none else twinKind x.twin, auditKind x.audit, (sentOutcome (sentCodes s x)).1, envKind x.env,
   if ages then ageKind (lampAgeOk s (netId x)) else .none, if ages then ageKind (patrolAgeOk s (netId x)) else .none]

/-- The mask of the kinds with a property. -/
def maskOf (p : KindOut → Bool) : List KindOut → Nat
  | [] => 0
  | k :: ks => bit (p k) + 2 * maskOf p ks

/-- The kinds reported. -/
def repMask (ks : List KindOut) : Nat := maskOf (· != .none) ks
def failMask (ks : List KindOut) : Nat := maskOf (· == .fail) ks
def unchMask (ks : List KindOut) : Nat := maskOf (· == .unch) ks

/-- A decided verdict (Table 09-1), its cause (Table 09-3), and whether the ages were read. -/
structure Verdict where
  code : BitVec 4
  cause : BitVec 4
  ages : Bool
  deriving DecidableEq, Repr

/-- A lamp's verdict (R186). -/
def lampVerdict (r : BitVec 4) : Option Verdict :=
  if r = 0 then none else some ⟨if r = 1 then 1 else if r = 7 then 7 else 2, 9, false⟩

/-- The decision of R198 from the line that reads the ages on. A failure at the missed deadline is R27's: cause DEADLINE. -/
def decideChecks (s : State) (x : Barge) : Option Verdict :=
  let ks := kinds s x true
  let req := reqMask x
  let done := decide (req &&& repMask ks = req)
  let dl := missed x.domain s.now x.verdict
  if x.sluice = .warming then
    if done then some ⟨4, 1, true⟩ else if dl then some ⟨4, 3, true⟩ else none
  else if req &&& failMask ks ≠ 0 then some ⟨2, if done then 1 else if dl then 3 else 2, true⟩
  else if done then some ⟨if req &&& unchMask ks ≠ 0 then 3 else 1, 1, true⟩
  else if dl then some ⟨3, 3, true⟩
  else none

/-- The chamber is closed: SAFE_N low once READY, or low at any time since (R205). It reopens at the next READY alone. -/
def chamberClosed (s : State) : Bool := s.wr.ready && (s.lc.closed || !s.safeHigh)

/-- Something has reported to a barge's entry: the decision is evaluated on a result (R198). -/
def anyReport (x : Barge) : Bool := x.sluice != .none || x.twin != 0 || x.audit != 0 || !x.checks.isEmpty || x.env != 0

/-- The decision of R198; none: wait. -/
def decideBarge (s : State) (x : Barge) : Option Verdict :=
  if x.safeState || chamberClosed s then some ⟨7, 7, false⟩
  else if x.portLeft then some ⟨7, 8, false⟩
  else if x.namedC2 then some ⟨2, 6, false⟩
  else if x.lamp.isSome then lampVerdict x.lampRes
  else if x.ringRefused then some ⟨2, 5, false⟩
  else if x.sluice = .fail then some ⟨2, 4, false⟩
  else if x.stage = .undelivered then some ⟨if x.sluice = .warming then 4 else 2, 5, false⟩
  else if anyReport x || missed x.domain s.now x.verdict then decideChecks s x
  else none

/-- Verdicts that are final when reported: a failure of a required kind, an input failure, a refused delivery, a lamp's result other
than PASS (R78, R186, R198). -/
def finalAtOnce (v : Verdict) : Bool :=
  v.cause = 4 || v.cause = 5 || (v.cause = 9 && v.code != 1) || (v.code = 2 && (v.cause = 1 || v.cause = 2 || v.cause = 3))

/-- The decision after a result has reached a barge's entry. Of several causes in one cycle the first line of the decision wins. -/
def settle (s : State) (b : Word) : State :=
  s.withBarge b fun x =>
    if isFinal s x then s
    else match decideBarge s x with
      | some v => if finalAtOnce v then s.updBarge b fun x => { x with final := some (v.code, v.cause), finalAt := s.cycle } else s
      | none => s

/-! ### Lamp results (R185 to R187) -/

/-- Give a lamp barge its result: once, recorded in LMPl_STAT; a PASS renews LAST and re-arms ES53, any result other than PASS or
ABANDONED raises ES55. -/
def giveLamp (s : State) (b : Word) (code : BitVec 4) : State :=
  s.withBarge b fun x =>
    match x.lamp with
    | none => s
    | some l =>
      if x.formed then logLate s 5 b code
      else if x.lampRes ≠ 0 then s
      else
        let s := (s.updBarge b fun x => { x with lampRes := code }).setFld (R.LMPl_STAT l) 3 0 code.toNat
        let s :=
          if code = 1 then
            (((s.setFld (R.LMPl_STAT l) 4 4 1).setFld (R.LMPl_STAT l) 5 5 0).setReg (R.LMPl_LAST_T l) x.origin.t).setReg (R.LMPl_LAST_S l) x.origin.s
          else s.satAdd (R.LMPl_STAT l) 31 16 1
        let s := if code = 1 ∨ code = 7 then s else (s.setBit R.SN_IRQ_STAT 3).raiseFor 55 b
        settle s b

/-! ### Assignment -/

/-- The next barge number is taken (R15). -/
def takeBarge (s : State) : Word × State :=
  let n := s.reg R.BARGE_NEXT
  (n, s.setReg R.BARGE_NEXT (State.nextSeq n))

/-- The deadline domain of a NETx_CFG value (R42). -/
def domainOf (cfg : Word) : DlDomain :=
  match bits cfg 19 18 with
  | 0 => .time
  | 1 => .travel
  | _ => .both

/-- The verdict deadline of an entry (R42): DL_STILL is the time bound in the TRAVEL domain. -/
def verdictDeadline (s : State) (x : Fin 64) (origin : Stamp) : Stamp :=
  let us := if domainOf (s.reg (R.NETx_CFG x)) = .travel then s.reg R.DL_STILL else s.reg (R.NETx_DL_T x)
  deadline origin us (s.reg (R.NETx_DL_S x))

/-- A fresh audit record. -/
def noAudit : AuditRec := ⟨none, 0, 0, ⟨0, 0⟩, false, none, 0, 0, 0, false, false⟩

/-- An in-flight entry as it is when its number is assigned (R195). -/
def newEntry (num : Word) (origin : Stamp) (netCfg mnetCfg : Word) : Barge :=
  { num := num, lamp := none, set := 0, net := none, netCfg := netCfg, domain := domainOf netCfg, origin := origin,
    asm := origin, verdict := origin, window := origin, stage := .assembling, members := [], bufAddr := 0, bufLen := 0,
    digest := 0, ctxs := [], mnet := none, mnetCfg := mnetCfg, taken := [], sluice := .none, ringRefused := false,
    portLeft := false, safeState := false, namedC2 := false, formerBad := false, accepted := [], winDone := [],
    windowPast := none, twin := 0, audit := 0, checks := [], gap := [], sentAt := [], env := 0, lampRes := 0, lampTwin := 0, lampWins := [], viewOk := false,
    lampDue := 0, au := noAudit, refLast := false, outTag := 0, outAddrs := [], pendRseq := none, pendRefused := false,
    final := none, finalAt := 0, formed := false, twinAt := 0, auditAt := 0, deadIn := [] }

/-- The Mirror entry's configuration for a NET_ID, 0 without one. -/
def mnetCfgOf (s : State) (id : Nat) : Word :=
  match mnetOfId s id with
  | some m => s.reg (R.MNETx_CFG m)
  | none => 0

/-- A new barge of set `k` and network `x`, its origin now (R18, R61). -/
def openBarge (s : State) (k : Fin 16) (x : Fin 64) (origin : Stamp) : Word × State :=
  let t := takeBarge s
  let cfg := s.reg (R.NETx_CFG x)
  let b := { newEntry t.1 origin cfg (mnetCfgOf s (bits cfg 15 0)) with
    set := k, net := some x, verdict := verdictDeadline s x origin,
    asm := deadline origin (s.reg (R.SETk_ASM_T k)) (s.reg (R.SETk_ASM_S k)) }
  (t.1, ({ t.2 with barges := t.2.barges ++ [b] }).setReg (R.SETk_BARGE k) t.1)

/-! ### Delivery (R65, R67, R78) -/

/-- The copy contexts a Mirror entry names: CTX_A, and CTX_B unless SINGLE is set (R196). -/
def bargeCtxs (cfg : Word) : List (Fin 4) :=
  let a := Fin.ofNat 4 (bits cfg 21 20)
  if cfg.getLsbD 18 then [a] else [a, Fin.ofNat 4 (bits cfg 23 22)]

/-- The root port of a context. -/
def portOf (c : Fin 4) : Fin 2 := Fin.ofNat 2 (c.val / 2)

/-- Whether a port is SERVING. -/
def serving (s : State) (n : Fin 2) : Bool := s.mr.ports[n].state == .serving

/-- DEPTH of a context's delivery queue. -/
def depthOf (s : State) (c : Fin 4) : Nat := s.fld (R.Cc_CFG c) 5 1 + 1

/-- A context's next slot; an open that lowers DEPTH takes it back to slot 0 (R77, log entry 90). -/
def nextSlot (s : State) (c : Fin 4) : Nat := if s.mr.ctxs[c].next < depthOf s c then s.mr.ctxs[c].next else 0

/-- Whether a context's next slot still holds an unreleased barge. -/
def slotFull (s : State) (c : Fin 4) : Bool := s.mr.ctxs[c].slots.any fun t => t.idx = nextSlot s c

/-- The inbound entry of port `n` that covers a bus address (R76). -/
def ibEntry (s : State) (n : Nat) (bus : Nat) : Option Nat :=
  (List.range 8).find? fun e =>
    let b := (s.reg64 (R.IBWn_e_BUS_LO n e)).toNat
    s.fld (R.IBWn_e_CFG n e) 2 0 != 0 && b ≤ bus && decide (bus < b + 2 ^ s.fld (R.IBWn_e_CFG n e) 8 3)

/-- The bus address at which a Hold address is reached through a DATA window of port `n` (Table 04-3). -/
def busAddr (s : State) (n : Nat) (a : Nat) : Nat :=
  let hit := (List.range 8).find? fun e =>
    let t := (s.reg64 (R.IBWn_e_TGT_LO n e)).toNat
    s.fld (R.IBWn_e_CFG n e) 2 0 == 1 && t ≤ a && decide (a < t + 2 ^ s.fld (R.IBWn_e_CFG n e) 8 3)
  match hit with
  | some e => (s.reg64 (R.IBWn_e_BUS_LO n e)).toNat + a - (s.reg64 (R.IBWn_e_TGT_LO n e)).toNat
  | none => a

/-- The delivery record of a barge (Table 04-3) whose agreed copy is at bus address `bus`. -/
def deliveryRecord (s : State) (x : Barge) (bus : Nat) : List Byte :=
  let warm := x.members.any (·.warm)
  let members := match x.lamp with | some l => s.fld (R.LMPl_CFG l) 15 8 | none => x.members.length
  let set := match x.lamp with | some _ => 0 | none => x.set.val
  let body := [0x01, BitVec.ofNat 8 (bit x.lamp.isSome + 2 * bit warm), BitVec.ofNat 8 set, BitVec.ofNat 8 members] ++
    bytesLE 4 x.num.toNat ++ bytesLE 8 bus ++ bytesLE 4 x.bufLen ++ bytesLE 8 x.digest.toNat
  body ++ recChk x.num body

/-- Fill the next slot of a context, in cyclic order over Cc_CFG.DEPTH (R78). -/
def fillSlot (rec : List Byte) (b : Word) (net : Half) (s : State) (c : Fin 4) : State :=
  let x := s.mr.ctxs[c]
  let x := { x with slots := x.slots ++ [⟨nextSlot s c, b, rec⟩], next := (nextSlot s c + 1) % depthOf s c }
  { s with mr := { s.mr with ctxs := s.mr.ctxs.set c x, delivered := s.mr.delivered ++ [(c, b, net)] } }

/-- The matrix R of a layer goes to its area of the tile group's Basin; a bank that refuses the write leaves the barge without it (R156,
R340). The area holds the R of one barge: Audit keeps each barge's own until its end (DESIGN CHOICE, log entry 91). -/
def putMatrix (s : State) (b : Word) (l : Layer) (bs : List Byte) : State :=
  if !inBasin l.rAddr bs.length then s
  else if banksAdmit s .tiles true l.rAddr bs.length then
    let s := s.store l.rAddr bs
    { s with au := { s.au with mats := s.au.mats ++ [⟨b, l.num, bs⟩] } }
  else bankRefusal s .tiles true l.rAddr bs.length

/-- The matrices R of a barge's projected layers, written at delivery (R156): 32 rows of P bytes each, in descriptor order. Without
SITE_SEED the generator refuses and there are none (R292). -/
def writeMatrices (s : State) (seed : BitVec 256) (e : Fin 64) (x : Barge) : State :=
  let rng := auditInstance seed s.au.startNonce x.num (BitVec.ofNat 16 (netId x)) 2
  let step := fun (p : State × Drbg) (l : Layer) =>
    if projected (s.reg (R.AUn_CFG e)) l then
      let n := 8 * max l.tm l.tn
      let bs := (Drbg.take n p.2).flatMap fun w => bytesLE 4 w.toNat
      (putMatrix p.1 x.num l bs, (List.range n).foldl (fun d _ => (Drbg.next d).2) p.2)
    else p
  ((auditLayers s e).foldl step (s, rng)).1

/-- A barge that is not delivered (R78, R92); a full queue raises ES28 naming it. A lamp's result is NOT_DELIVERED. -/
def undeliver (s : State) (b : Word) (full : Bool) : State :=
  let s := s.updBarge b fun x => { x with stage := .undelivered }
  let s := settle s b
  let s := if full then s.raiseFor 28 b else s
  giveLamp s b 5

/-- The Audit entry a barge's delivery takes; a lamp, and a network with no audited layer (Table 01-2), take the configuration alone,
which names the reference copy (R149). -/
def auditAtDelivery (s : State) (x : Barge) : AuditRec :=
  match auOfId s (netId x) with
  | none => noAudit
  | some e =>
    if x.lamp.isSome || (auditLayers s e).isEmpty then { noAudit with cfg := s.reg (R.AUn_CFG e) }
    else { noAudit with entry := some e, cfg := s.reg (R.AUn_CFG e), desc := descOf s e,
                        sealDl := deadline x.origin (s.reg (R.AUn_SEAL_T e)) (s.reg (R.AUn_SEAL_S e)) }

/-- Deliver a barge to the contexts of its network's Mirror entry, or refuse it (R65, R78). -/
def deliver (s : State) (b : Word) : State :=
  s.withBarge b fun x =>
    if isFinal s x || x.final.isSome || x.safeState || x.portLeft then s
    else match mnetOfId s (netId x) with
    | none => undeliver s b false
    | some m =>
      if x.lamp.any (fun l => lampUnverified s l.val) then undeliver s b false else
      let cfg := putBits (s.reg (R.MNETx_CFG m)) 18 18 (bits x.mnetCfg 18 18)
      let ctxs := bargeCtxs cfg
      if ctxs.any (fun c => !serving s (portOf c)) then undeliver s b false
      else if ctxs.any (slotFull s) then undeliver s b true
      else
        let dr := deliveryRecord s x (busAddr s (portOf (Fin.ofNat 4 (bits cfg 21 20))).val x.bufAddr.toNat)
        let au := auditAtDelivery s x
        let s := ctxs.foldl (fillSlot dr b (BitVec.ofNat 16 (netId x))) s
        let s := s.updBarge b fun x =>
          { x with stage := .delivered, ctxs := ctxs, mnet := some m, mnetCfg := cfg, au := au,
                   window := deadline x.origin (s.reg (R.MNETx_WDL_T m)) (s.reg (R.MNETx_WDL_S m)) }
        let s := logDelivery s dr (ctxs.foldl (fun m c => m ||| 2 ^ c.val) 0) x.bufAddr.toNat
        let s := match au.entry, s.se.siteSeed with | some e, some seed => writeMatrices s seed e x | _, _ => s
        let s := if x.lamp.isSome then s
          else { s with sn := { s.sn with order := (BitVec.ofNat 16 (netId x), b) :: s.sn.order } }
        settle s b

/-! ### The agreed copy (R63, R64, R66) -/

/-- One member of the agreed copy: stamp block (Table 03-4), header, payload. -/
def memberBytes (b : Word) (m : Member) : List Byte :=
  let code := match m.status with
    | some .ok => 0
    | some .seqGap => 8
    | some .restarted => 9
    | _ => 0
  bytesLE 4 b.toNat ++ bytesLE 4 m.sof.t.toNat ++ bytesLE 4 m.sof.s.toNat ++
  [BitVec.ofNat 8 m.stream.val, BitVec.ofNat 8 (code + 16 * bit m.warm)] ++ bytesLE 2 ((m.payload.length + 1023) / 1024) ++
  m.header ++ m.payload

/-- The agreed copy of a barge: its members in set order, ascending stream. -/
def copyBytes (x : Barge) : List Byte :=
  (List.range 32).flatMap fun i => (x.members.filter fun m => m.stream.val = i).flatMap (memberBytes x.num)

/-- The ring's base in Hold and its size in bytes. -/
def ringBase (s : State) : Nat := (s.reg R.SL_RING_BASE_LO).toNat + 2 ^ 32 * s.fld R.SL_RING_BASE_HI 7 0
def ringSize (s : State) : Nat := 1048576 * (s.reg R.SL_RING_SIZE).toNat

/-- Start of the oldest buffer not yet freed. -/
def ringOldest (s : State) : Option Nat := (s.sl.ring.find? fun r => !r.freed).map (·.start)

/-- Where a copy of `len` bytes goes, or nowhere (R66). -/
def ringPlace (s : State) (len : Nat) : Option Nat :=
  let w := s.sl.ringWrite
  match ringOldest s with
  | none => if w + len ≤ ringSize s then some w else if len ≤ ringSize s then some 0 else none
  | some o =>
    if o < w then (if w + len ≤ ringSize s then some w else if len ≤ o then some 0 else none)
    else if w + len ≤ o then some w else none

/-- Bytes the next copy can use (SL_RING_FREE). -/
def ringFree (s : State) : Nat :=
  let w := s.sl.ringWrite
  match ringOldest s with
  | none => ringSize s
  | some o => if o < w then max (ringSize s - w) o else o - w

/-- SL_IRQ_STAT.RING_LOW: set with every copy after which the free space is below an eighth of the ring, not with the fall alone
(DESIGN CHOICE, log entry 89). -/
def ringLow (s : State) : State := if ringFree s * 8 < ringSize s then s.setBit R.SL_IRQ_STAT 3 else s

/-- Write a copy into the ring at offset `at`: the bytes, the buffer's entry, and the freed copies it overwrites. -/
def ringWrite (s : State) (b : Word) (start : Nat) (bs : List Byte) : State :=
  let keep := fun (r : RingBuf) => !r.freed || r.start + r.len ≤ start || start + bs.length ≤ r.start
  let s := putHold s (ringBase s + start) bs
  ringLow { s with sl := { s.sl with ringWrite := start + bs.length,
                                     ring := s.sl.ring.filter keep ++ [⟨b, start, bs.length, false, s.cycle⟩] } }

/-- Free a barge's buffer (R30, R66). -/
def ringRelease (s : State) (b : Word) : State :=
  { s with sl := { s.sl with ring := s.sl.ring.map fun r => if r.barge = b then { r with freed := true } else r } }

/-- The input ring or Hold cannot take the copy (R66): ES22, FAIL with cause NOT_DELIVERED. -/
def ringRefuse (s : State) (b : Word) : State :=
  settle ((s.updBarge b fun x => { x with stage := .undelivered, ringRefused := true, sluice := .fail }).raiseFor 22 b) b

/-- The set of a barge closes (R63 to R67): the copy and its digest are written, then it is delivered or held behind a lamp slot. -/
def closeSet (s : State) (b : Word) (env : CloseEnv) : State :=
  s.withBarge b fun x =>
    let bs := copyBytes x
    match if env.holdError then none else ringPlace s bs.length with
    | none => ringRefuse s b
    | some start =>
      if shutHold s (ringBase s + start) bs.length then ringRefuse (holdRefusal s) b else
      let s := ringWrite s b start bs
      let warm := x.members.any (·.warm)
      let s := s.updBarge b fun x =>
        { x with bufAddr := BitVec.ofNat 64 (ringBase s + start), bufLen := bs.length, digest := crcNative crc64 b bs,
                 stage := .held, sluice := if env.digestDiffer then .fail else if warm then .warming else .pass }
      if env.digestDiffer then settle ((s.updBarge b fun x => { x with stage := .undelivered }).raiseFor 23 b) b
      else if s.sl.slotEnd.isSome then settle s b
      else deliver s b

/-- A barge's input set fails (R20, R61): FAIL on the Sluice kind, ES21. -/
def failSet (s : State) (b : Word) : State :=
  settle ((s.updBarge b fun x => { x with stage := .undelivered, sluice := .fail }).raiseFor 21 b) b

/-! ### Lamp releases (R67, R183) -/

/-- Begin a lamp's slot and deliver it. -/
def startSlot (s : State) (b : Word) (slot : Nat) : State :=
  deliver { s with sl := { s.sl with slotEnd := some (s.cycle + usCycles (10 * slot)) } } b

/-- The digest of a lamp input with the barge number folded first, combined from the CRC without folding (R183). -/
def lampDigest (dig : DWord) (b : Word) (len : Nat) : DWord :=
  let d := crcFeed crc64 crc64.init (bytesLE 4 b.toNat) ^^^ crc64.init
  dig ^^^ crcFeed crc64 d (List.replicate len 0)

/-- A lamp takes the next barge number at its release; its slot starts at once or behind the slot that runs (R67, R183). -/
def releaseLamp (s : State) (l : Fin 256) (slot : Nat) : State :=
  let t := takeBarge s
  let id := s.fld (R.LMPl_CFG l) 31 16
  let cfg := match netOfId s id with | some x => s.reg (R.NETx_CFG x) | none => BitVec.ofNat 32 id
  let o := s.now
  let dl := deadline o (s.reg (R.LMPl_DL_T l)) 0
  let len := (s.reg (R.LMPl_IN_LEN l)).toNat
  let b := { newEntry t.1 o cfg (mnetCfgOf s id) with
    lamp := some l, net := netOfId s id, domain := .time, verdict := dl, stage := .held, lampDue := dl.t,
    bufAddr := s.reg64 (R.LMPl_IN_LO l), bufLen := len, digest := lampDigest (s.reg64 (R.LMPl_DIG_LO l)) t.1 len,
    viewOk := !s.flag (R.LMPl_CFG l) 1 }
  let s := { t.2 with barges := t.2.barges ++ [b] }
  if s.sl.slotEnd.isSome then { s with sl := { s.sl with lampWait := s.sl.lampWait ++ [(t.1, slot)] } }
  else startSlot s t.1 slot

/-! ### The verdict record (R199, R200) -/

/-- The TRAVEL_Q code (Table 02-1). -/
def qualityCode : TravelQ → Nat
  | .measured => 0
  | .single => 1
  | .estimated => 2

/-- The masks and result codes a record shows: REP, FAILED, UNCH, SENT_CODE. A lamp barge reports its own kind alone (R186). -/
def recordMasks (s : State) (x : Barge) (ages : Bool) : Nat × Nat × Nat × Nat :=
  if x.lamp.isSome then
    (32 * bit (x.lampRes != 0), 32 * bit (x.lampRes != 0 && x.lampRes != 1 && x.lampRes != 7), 0, x.lampRes.toNat)
  else
    let ks := kinds s x ages
    (repMask ks, failMask ks, unchMask ks, (sentOutcome (sentCodes s x)).2.toNat)

/-- Record forming (Table 09-2): bytes 0 to 59 and REC_CHK. -/
def recordBytes (s : State) (x : Barge) (verdict cause base : BitVec 4) (fin ages : Bool) (rseq ref : Word) : List Byte :=
  let m := recordMasks s x ages
  let token := geomToken s
  let prev := match s.lc.tokens.find? fun p => some p.1 = x.net with | some p => p.2 | none => fullToken s
  let now := s.now
  let marginS := if x.domain = .time then 0x7FFFFFFF#32 else x.verdict.s - now.s
  let hitS := match x.domain with | .time => false | _ => late now.s x.verdict.s
  let body :=
    [0x05, BitVec.ofNat 8 (verdict.toNat + 16 * bit fin + 32 * bit x.lamp.isSome + 64 * bit (isEarly x))] ++
    bytesLE 2 (netId x) ++ bytesLE 4 x.num.toNat ++ bytesLE 4 rseq.toNat ++
    [BitVec.ofNat 8 (reqMask x), BitVec.ofNat 8 m.1, BitVec.ofNat 8 m.2.1, BitVec.ofNat 8 m.2.2.1,
     BitVec.ofNat 8 (x.twin.toNat + 16 * x.audit.toNat), BitVec.ofNat 8 (m.2.2.2 + 16 * x.env.toNat),
     BitVec.ofNat 8 (cause.toNat + 16 * base.toNat),
     BitVec.ofNat 8 (qualityCode s.mp.quality + 4 * bit (token != prev) + 8 * bit (late now.t x.verdict.t) + 16 * bit hitS)] ++
    bytesLE 4 x.origin.t.toNat ++ bytesLE 4 x.origin.s.toNat ++ bytesLE 4 now.t.toNat ++ bytesLE 4 now.s.toNat ++
    bytesLE 4 (x.verdict.t - now.t).toNat ++ bytesLE 4 marginS.toNat ++ bytesLE 2 token.toNat ++ [0, 0] ++
    bytesLE 4 ref.toNat ++ bytesLE 8 x.outTag.toNat
  body ++ recChk x.num body

/-- RSEQ of the next record, and the state that has used it. -/
def takeRseq (s : State) : Word × State :=
  let n := s.reg R.LC_RSEQ
  (n, s.setReg R.LC_RSEQ (State.nextSeq n))

/-- The statistics of a final record: LC_IRQ_STAT, NETx_STAT, NETx_PASS, LC_LATE, LC_REVOKES, ES56 and ES57. -/
def finalStats (s : State) (x : Barge) (verdict cause : BitVec 4) : State :=
  let s := s.setBit R.LC_IRQ_STAT 0
  let s := match x.net with
    | none => s
    | some n =>
      let s := s.setFld (R.NETx_STAT n) 3 0 verdict.toNat
      if verdict = 1 then s.wrapInc (R.NETx_PASS n) 31 0 else s.satAdd (R.NETx_STAT n) 31 16 1
  let s := if cause = 3 then ((s.setBit R.LC_IRQ_STAT 2).satAdd R.LC_LATE 31 0 1).raiseFor 56 x.num else s
  if verdict = 6 then ((s.setBit R.LC_IRQ_STAT 1).satAdd R.LC_REVOKES 31 0 1).raiseFor 57 x.num else s

/-- The replacement of R180: checks whose run's tag differs from the token in effect now show RUN_FAULT. -/
def retag (s : State) (x : Barge) : State :=
  let stale := x.checks.filter fun c => underToken (geomToken s) c.2 != c.2.1
  let s := stale.foldl (fun s c =>
    ((s.setFld (R.SCHKx_STAT c.1) 3 0 6).setReg R.SN_FAIL_BARGE x.num).setReg R.SN_FAIL_INFO (BitVec.ofNat 32 (6 + 32 * c.1.val))) s
  let tok := geomToken s
  let gone := fun (e : Exceed) => e.barge = x.num && stale.any fun c => c.1 = e.check
  let s := { s with sn := { s.sn with exceeds := s.sn.exceeds.filter (!gone ·) } }
  s.updBarge x.num fun y => { y with checks := y.checks.map fun c => (c.1, underToken tok c.2, c.2.2) }

/-- Form a barge's final record (R198, R199, R202): a barge that was PENDING gets PASS or REVOKED, with REF_RSEQ. A barge whose
record is formed takes no later result (R28); its queued challenges are dropped (R163). -/
def formFinal (s : State) (b : Word) (v : Verdict) : State :=
  s.withBarge b fun x0 =>
    let s := retag s x0
    let x := match s.barge? b with | some y => y | none => x0
    let revoked := x.pendRseq.isSome && v.code != 1
    let code := if revoked then 6 else v.code
    let r := takeRseq s
    let bs := recordBytes s x code v.cause (if revoked then v.code else 0) true v.ages r.1 (x.pendRseq.getD 0)
    let vr : Rec := ⟨bs, b, true, code = 1, false, x.net, x.lamp.isSome, r.1, false⟩
    let s := r.2
    let toks := match x.net with
      | none => s.lc.tokens
      | some n => (n, geomToken s) :: s.lc.tokens.filter (·.1 ≠ n)
    let s := { s with lc := { s.lc with formed := s.lc.formed ++ [vr], tokens := toks },
                      au := { s.au with queue := s.au.queue.filter (·.barge ≠ b), reading := s.au.reading.filter (·.barge ≠ b) } }
    let s := s.updBarge b fun x => { x with formed := true, final := some (v.code, v.cause), finalAt := s.cycle }
    finalStats s x code v.cause

/-- Barges that count as PENDING: from the PENDING record to the release of the final one (R202). -/
def pendingCount (s : State) : Nat := (s.barges.filter (·.pendRseq.isSome)).length

/-- Whether a barge meets the conditions of R201 other than the cap. -/
def pendable (s : State) (x : Barge) : Bool :=
  isEarly x && x.lamp.isNone && x.sluice == .pass && x.refLast && x.pendRseq.isNone && !x.pendRefused && !x.formed && x.final.isNone &&
  (decideBarge s x).isNone && s.safeHigh && !chamberClosed s && decide (reqMask x &&& failMask (kinds s x true) = 0)

/-- Form the PENDING record of a barge that meets R201, or count it against the full cap. -/
def tryPending (s : State) (b : Word) : State :=
  s.withBarge b fun x =>
    if !pendable s x then s
    else if s.fld R.LC_CTRL 5 1 ≤ pendingCount s then
      (s.updBarge b fun x => { x with pendRefused := true }).satAdd R.LC_PEND_FULL 31 0 1
    else
      let r := takeRseq s
      let bs := recordBytes s x 5 0 0 false true r.1 0
      let pr : Rec := ⟨bs, b, false, false, true, x.net, false, r.1, false⟩
      let s := { r.2 with lc := { r.2.lc with formed := r.2.lc.formed ++ [pr] } }
      s.updBarge b fun x => { x with pendRseq := some r.1 }

/-! ### Reports -/

/-- Report a twin result to the entry. -/
def reportTwin (s : State) (b : Word) (code : BitVec 4) : State :=
  settle (s.updBarge b fun x => { x with twin := code, twinAt := s.cycle }) b

/-- Report an audit result to the entry. -/
def reportAudit (s : State) (b : Word) (code : BitVec 4) : State :=
  settle (s.updBarge b fun x => { x with audit := code, auditAt := s.cycle }) b

/-! ### A port leaves SERVING (R92) -/

/-- The contexts of a port. -/
def portCtxs (n : Fin 2) : List (Fin 4) := [Fin.ofNat 4 (2 * n.val), Fin.ofNat 4 (2 * n.val + 1)]

/-- Whether a barge was delivered to a context of the port. -/
def onPort (n : Fin 2) (x : Barge) : Bool := x.stage == .delivered && x.ctxs.any fun c => portOf c = n

/-- The lamps whose network is served by the port's contexts. -/
def lampOnPort (s : State) (n : Fin 2) (l : Nat) : Bool :=
  (bargeCtxs (mnetCfgOf s (s.fld (R.LMPl_CFG l) 31 16))).any fun c => portOf c = n

/-- Change a port. -/
def updPort (s : State) (n : Fin 2) (f : Port → Port) : State :=
  { s with mr := { s.mr with ports := s.mr.ports.set n (f s.mr.ports[n]) } }

/-- ACC_PERST_N is driven low and the port is OFF; PERST_DLY counts from here. -/
def portOff (s : State) (n : Fin 2) : State :=
  let t := updPort s n fun p => { p with state := .off, starting := false, perst := true, perstLow := s.cycle, entered := s.cycle, speed := 0,
                                         width := 0, readyLowSeen := false, patrol := none }
  if s.mr.ports[n].state == .off then t else t.setBit R.MR_IRQ_STAT 0

/-- Barges on the port without a final verdict end ABANDONED; a lamp's result is ABANDONED (R92, Table 08-8). -/
def abandonPort (s : State) (n : Fin 2) : State :=
  let hit := s.barges.filter fun x => onPort n x && !isFinal s x
  hit.foldl (fun s x =>
    giveLamp (s.updBarge x.num (named s fun y => { y with portLeft := true })) x.num 7) s

/-- Both queues of the port are emptied; the next delivery to each context uses slot 0. -/
def emptyQueues (s : State) (n : Fin 2) : State :=
  (portCtxs n).foldl (fun (s : State) (c : Fin 4) =>
    { s with mr := { s.mr with ctxs := s.mr.ctxs.set c { s.mr.ctxs[c] with slots := [], next := 0 } } }) s

/-- The patrol ages of the port's regions mean no pass, and the pass under way is abandoned (R88, R92). -/
def agePort (s : State) (n : Fin 2) : State :=
  foldN 64 (fun s r =>
    if s.fld (R.PATr_CFG r) 1 1 = n.val then
      let g := s.mr.regions[Fin.ofNat 64 r]
      { s with mr := { s.mr with regions := s.mr.regions.set (Fin.ofNat 64 r) { g with cleanAt := none, passDiff := false, passErr := false } } }
    else s) s

/-- PASSED clears on a lamp (R187): it fails the age test from now on, and ES53 asserts where it did not fail before (R188). -/
def lampLoses (s : State) (l : Nat) : State :=
  let s' := s.setFld (R.LMPl_STAT l) 4 4 0
  if s.flag (R.LMPl_CFG l) 0 && !s.flag (R.LMPl_STAT l) 5 then (s'.setFld (R.LMPl_STAT l) 5 5 1).raise 53 0 else s'

/-- PASSED clears on every lamp the port serves (R187). -/
def lampsLose (s : State) (n : Fin 2) : State :=
  foldN 256 (fun s l => if lampOnPort s n l && s.flag (R.LMPl_STAT l) 4 then lampLoses s l else s) s

/-- Leave SERVING (R92), whatever the cause. -/
def leaveServing (s : State) (n : Fin 2) : State :=
  if serving s n then lampsLose (agePort (emptyQueues (abandonPort (portOff s n) n) n) n) n else portOff s n

end Sys2Proof.Machine
end

