-- ==== Sys2Proof/Machine/Results.lean ====
section
/-! DEFINITION. Machine/Results.lean: how Mirror and Audit give a barge its result (R102, R108, R162), with their registers. -/

namespace Sys2Proof.Machine

/-- Table 05-3 in the lamp's codes (Table 08-8, R108): PASS, DIGEST and the missing codes have a counterpart, the rest is MISMATCH. -/
def lampOfTwin (code : BitVec 4) : BitVec 4 :=
  if code = 1 then 1 else if code = 3 then 3 else if code = 4 ∨ code = 5 ∨ code = 6 then 4 else 2

/-- FAIL_BARGE, FAIL_INFO and FAIL_NET of a failing Mirror result. -/
def mirrorFail (s : State) (x : Barge) (code : BitVec 4) (syn win : Nat) (dead : Bool) : State :=
  ((s.setReg R.FAIL_BARGE x.num).setReg R.FAIL_INFO
      (BitVec.ofNat 32 (code.toNat + 16 * bit dead + 256 * (syn % 256) + 65536 * win))).setReg R.FAIL_NET (BitVec.ofNat 32 (netId x))

/-- MNETx_STAT and MNETx_PASS of a twin result; `again` where it takes the place of a failing one of the same cycle. -/
def mnetStat (s : State) (m : Option (Fin 64)) (code : BitVec 4) (again : Bool) : State :=
  match m with
  | none => s
  | some m =>
    let s := s.setFld (R.MNETx_STAT m) 3 0 code.toNat
    if code = 1 then s.wrapInc (R.MNETx_PASS m) 31 0 else if again then s else s.satAdd (R.MNETx_STAT m) 31 16 1

/-- A failing Mirror code. -/
def twinFails (c : BitVec 4) : Bool := twinKind c = .fail

/-- Mirror's result of a lamp (R108), in the lamp's codes. -/
def giveLampTwin (s : State) (x : Barge) (l : Fin 256) (code : BitVec 4) (syn win : Nat) (dead : Bool) : State :=
  let note := fun (s : State) => s.updBarge x.num fun y => { y with lampTwin := code, twinAt := s.cycle }
  let fail := fun (s : State) => if code = 1 then s else mirrorFail s x code syn win dead
  if x.lampRes = 0 then note (giveLamp (fail s) x.num (lampOfTwin code))
  else if x.lampTwin ≠ 0 && lowerNow s x.twinAt twinFails x.lampTwin code then
    note ((fail (s.updBarge x.num fun y => { y with lampRes := lampOfTwin code })).setFld (R.LMPl_STAT l) 3 0 (lampOfTwin code).toNat)
  else s

/-- Give a barge Mirror's result, once (R102): the twin result, or the lamp's (R108). `syn` and `win` are the failing compare's. After
the final verdict it is logged (R28). -/
def giveTwin (s : State) (b : Word) (code : BitVec 4) (syn win : Nat) (dead : Bool) : State :=
  reporting s 1 b code fun x =>
    match x.lamp with
    | some l => giveLampTwin s x l code syn win dead
    | none =>
      let again := x.twin != 0
      if again && !lowerNow s x.twinAt twinFails x.twin code then s
      else
        let s := if code = 1 then s else mirrorFail s x code syn win dead
        reportTwin (mnetStat s x.mnet code again) b code

/-- The challenge a failing audit result comes from: its SEQ and TCOORD. -/
structure AuditAt where
  seq : Half
  tcoord : Word
  deriving DecidableEq, Repr

/-- AU_FAIL_BARGE, AU_FAIL_INFO and, where a challenge failed, AU_FAIL_TCOORD. -/
def auditFail (s : State) (b : Word) (e : Fin 64) (code : BitVec 4) (w : Option AuditAt) : State :=
  let seq := match w with | some a => a.seq.toNat | none => 0
  let s := ((s.setReg R.AU_FAIL_BARGE b).setReg R.AU_FAIL_INFO
      (BitVec.ofNat 32 (code.toNat + 16 * e.val + 65536 * seq))).setBit R.AU_IRQ_STAT 2
  match w with
  | some a => s.setReg R.AU_FAIL_TCOORD a.tcoord
  | none => s

/-- A failing audit code. -/
def auditFails (c : BitVec 4) : Bool := auditKind c = .fail

/-- AU_IRQ_STAT.RESULT, AUn_STAT and AUn_PASS of an audit result; `again` as for `mnetStat`. -/
def auditStat (s : State) (e : Fin 64) (code : BitVec 4) (again : Bool) : State :=
  let s := (s.setBit R.AU_IRQ_STAT 1).setFld (R.AUn_STAT e) 3 0 code.toNat
  if code = 1 then s.wrapInc (R.AUn_PASS e) 31 0 else if auditFails code && !again then s.satAdd (R.AUn_STAT e) 31 16 1 else s

/-- A CONFLICT or a patrol breach fails the audit check at any time before the final verdict: a result other than a failing one gives way to
it (R87, R152; DEDUCED against R162's "never changes", log entry 26). -/
def breachOver (x : Barge) (code : BitVec 4) (w : Option AuditAt) : Bool := code = 3 && w.isNone && x.audit != 0 && !auditFails x.audit

/-- Give a barge its audit result, once (R162); a later failing event shows in the AU_FAIL registers alone, and one after the final
verdict is logged (R28). -/
def giveAudit (s : State) (b : Word) (code : BitVec 4) (w : Option AuditAt) : State :=
  reporting s 2 b code fun x =>
    match x.au.entry with
    | none => s
    | some e =>
      let s := if auditFails code then auditFail s b e code w else s
      let again := x.audit != 0 && !breachOver x code w
      if again && !lowerNow s x.auditAt auditFails x.audit code then s
      else reportAudit (auditStat s e code again) b code

/-- A breach of hold-until-released (R87): its registers, ES27 naming the barge, and the audit result BREACH where the barge has an
audit. Causes: 1 CONFLICT, 2 re-seal, 3 patrol. -/
def breach (s : State) (cause copy : Nat) (b : Word) (w : Option AuditAt) : State :=
  let s := (s.setReg R.BREACH_CAUSE (BitVec.ofNat 32 (cause + 4 * copy))).setReg R.BREACH_BARGE b
  giveAudit ((s.setBit R.MR_IRQ_STAT 2).raiseFor 27 b) b 3 w

end Sys2Proof.Machine
end

