-- ==== Sys2Proof/Machine/Float.lean ====
section
/-! DEFINITION. Machine/Float.lean: exact binary floating-point values and one rounding, to nearest with ties to even (R118, R121,
R181). Subnormals are kept; a value is exact until it is rounded into a format. -/

namespace Sys2Proof.Machine

/-- A value: NaN, an infinity, or (-1)^neg * m * 2^e. -/
inductive FVal | nan | inf (neg : Bool) | fin (neg : Bool) (m : Nat) (e : Int)
  deriving DecidableEq, Repr

/-- A format: mantissa bits, bias, the largest finite magnitude code, the code of its infinity (none: NaN instead), its canonical NaN,
and its sign bit's weight. -/
structure FFmt where
  mant : Nat
  bias : Int
  maxFin : Nat
  infCode : Option Nat
  nanCode : Nat
  sign : Nat
  deriving DecidableEq, Repr

def f32 : FFmt := ⟨23, 127, 0x7F7FFFFF, some 0x7F800000, 0x7FC00000, 0x80000000⟩
def bf16 : FFmt := ⟨7, 127, 0x7F7F, some 0x7F80, 0x7FC0, 0x8000⟩
def e4m3 : FFmt := ⟨3, 7, 0x7E, none, 0x7F, 0x80⟩
def e5m2 : FFmt := ⟨2, 15, 0x7B, some 0x7C, 0x7E, 0x80⟩
def f64 : FFmt := ⟨52, 1023, 0x7FEFFFFFFFFFFFFF, some 0x7FF0000000000000, 0x7FF8000000000000, 0x8000000000000000⟩

namespace FVal

/-- The value a code stands for (Table 06-2 and the IEEE layouts). -/
def decode (f : FFmt) (c : Nat) : FVal :=
  let neg := decide (f.sign ≤ c)
  let mag := c % f.sign
  let emin := 1 - f.bias - f.mant
  if mag ≤ f.maxFin then
    if mag < 2 ^ f.mant then .fin neg mag emin
    else .fin neg (2 ^ f.mant + mag % 2 ^ f.mant) (emin + (mag / 2 ^ f.mant : Nat) - 1)
  else if f.infCode = some mag then .inf neg
  else .nan

/-- m * 2^-k rounded to nearest, ties to even. -/
def rne (m k : Nat) : Nat :=
  let q := m / 2 ^ k
  let r := m % 2 ^ k
  if 2 * r < 2 ^ k then q else if 2 ^ k < 2 * r then q + 1 else q + q % 2

/-- The magnitude code of m * 2^e rounded into a format, not limited to its largest finite code. -/
def magCode (f : FFmt) (m : Nat) (e : Int) : Nat :=
  if m = 0 then 0
  else
    let emin := 1 - f.bias - f.mant
    let q := max (e + (Nat.log2 m : Nat) - f.mant) emin
    let n := if q ≤ e then m * 2 ^ (e - q).toNat else rne m (q - e).toNat
    n + (q - emin).toNat * 2 ^ f.mant

/-- A sign applied to a magnitude code. -/
def signed (f : FFmt) (neg : Bool) (mag : Nat) : Nat := if neg then f.sign + mag else mag

/-- Whether a finite value overflows a format. -/
def overflows (f : FFmt) (v : FVal) : Bool :=
  match v with
  | .fin _ m e => decide (f.maxFin < magCode f m e)
  | _ => false

/-- The code of a value in a format: overflow gives the infinity, NaN where the format has none. -/
def encode (f : FFmt) (v : FVal) : Nat :=
  match v with
  | .nan => f.nanCode
  | .inf neg => match f.infCode with
    | some c => signed f neg c
    | none => f.nanCode
  | .fin neg m e =>
    if f.maxFin < magCode f m e then
      match f.infCode with
      | some c => signed f neg c
      | none => f.nanCode
    else signed f neg (magCode f m e)

/-- A value rounded into a format. -/
def round (f : FFmt) (v : FVal) : FVal := decode f (encode f v)

/-- A value that is an integer. -/
def ofInt (n : Int) : FVal := .fin (decide (n < 0)) n.natAbs 0

/-- The signed mantissa at exponent `e0` of a finite value whose own exponent is not below it. -/
def at_ (neg : Bool) (m : Nat) (e e0 : Int) : Int :=
  let v : Int := (m * 2 ^ (e - e0).toNat : Nat)
  if neg then -v else v

/-- The negated value. -/
def neg : FVal → FVal
  | .nan => .nan
  | .inf s => .inf (!s)
  | .fin s m e => .fin (!s) m e

/-- Magnitude. -/
def abs : FVal → FVal
  | .nan => .nan
  | .inf _ => .inf false
  | .fin _ m e => .fin false m e

/-- The exact sum; an exactly zero one is +0 unless both terms are -0 (R118). -/
def add : FVal → FVal → FVal
  | .nan, _ => .nan
  | _, .nan => .nan
  | .inf a, .inf b => if a = b then .inf a else .nan
  | .inf a, .fin .. => .inf a
  | .fin .., .inf b => .inf b
  | .fin sa ma ea, .fin sb mb eb =>
    let e0 := min ea eb
    let t := at_ sa ma ea e0 + at_ sb mb eb e0
    if t = 0 then .fin (sa && sb && decide (ma = 0 ∧ mb = 0)) 0 e0 else .fin (decide (t < 0)) t.natAbs e0

/-- The exact product. -/
def mul : FVal → FVal → FVal
  | .nan, _ => .nan
  | _, .nan => .nan
  | .inf a, .inf b => .inf (a != b)
  | .inf a, .fin b m _ => if m = 0 then .nan else .inf (a != b)
  | .fin a m _, .inf b => if m = 0 then .nan else .inf (a != b)
  | .fin a m e, .fin b n g => .fin (a != b) (m * n) (e + g)

/-- first ≤ second; false when either is NaN. -/
def le : FVal → FVal → Bool
  | .nan, _ => false
  | _, .nan => false
  | .inf a, .inf b => a || !b
  | .inf a, .fin .. => a
  | .fin .., .inf b => !b
  | .fin sa ma ea, .fin sb mb eb =>
    let e0 := min ea eb
    decide (at_ sa ma ea e0 ≤ at_ sb mb eb e0)

/-- first < second; false when either is NaN. -/
def lt : FVal → FVal → Bool
  | .nan, _ => false
  | _, .nan => false
  | a, b => !le b a

/-- n / d rounded into a format: 128 quotient bits and a sticky one decide the rounding. -/
def quot (f : FFmt) (n : Int) (d : Nat) : FVal :=
  let q := n.natAbs * 2 ^ 128 / d
  let sticky := if n.natAbs * 2 ^ 128 % d = 0 then 0 else 1
  round f (.fin (decide (n < 0)) (2 * q + sticky) (-129))

end FVal

end Sys2Proof.Machine
end

