-- ==== Sys2Proof/Machine/TileMath.lean ====
section
/-! DEFINITION. Machine/TileMath.lean: the arithmetic of a tile (R115 to R122): array formats, vector functions, requantisation,
conversions, with the flags each leaves. -/

namespace Sys2Proof.Machine

/-- A result with the TL_FLAGS it sets: [0] NAN, [1] INF, [2] SAT (R122). -/
structure Lane where
  val : Word
  flags : BitVec 3
  deriving DecidableEq, Repr

/-- A result without flags. -/
def Lane.plain (w : Word) : Lane := ⟨w, 0⟩

def isNan (v : FVal) : Bool := v == .nan
def isInf : FVal → Bool
  | .inf _ => true
  | _ => false

/-- A float32 lane's value. -/
def lane (w : Word) : FVal := .decode f32 w.toNat

/-- A value rounded to float32, with its flags: a NaN, or a finite value that overflowed. -/
def toLane (v : FVal) : Lane :=
  ⟨BitVec.ofNat 32 (v.encode f32), if isNan v then 1 else if v.overflows f32 then 2 else 0⟩

/-- As `toLane`, when operands may have been NaN. -/
def toLaneOf (ops : List FVal) (v : FVal) : Lane :=
  let r := toLane v
  ⟨r.val, if ops.any isNan then r.flags ||| 1 else r.flags⟩

/-! ### The array (R115 to R120) -/

/-- Array formats (Table 06-1). -/
inductive ArrFmt | s8 | u8s8 | s4 | s16 | e4m3 | e5m2 | bf16
  deriving DecidableEq, Repr

/-- The format of a code; 7 is refused. -/
def arrFmt (c : Nat) : Option ArrFmt :=
  match c with
  | 0 => some .s8
  | 1 => some .u8s8
  | 2 => some .s4
  | 3 => some .s16
  | 4 => some .e4m3
  | 5 => some .e5m2
  | 6 => some .bf16
  | _ => none

def ArrFmt.code : ArrFmt → BitVec 4
  | .s8 => 0
  | .u8s8 => 1
  | .s4 => 2
  | .s16 => 3
  | .e4m3 => 4
  | .e5m2 => 5
  | .bf16 => 6

/-- Rows of a weight block, bytes of one of its rows, bytes of an activation vector, array cycles of a vector, loader cycles. -/
def ArrFmt.rows (f : ArrFmt) : Nat := if f = .s4 then 64 else 32
def ArrFmt.wide (f : ArrFmt) : Bool := f = .s16 || f = .bf16
def ArrFmt.rowBytes (f : ArrFmt) : Nat := if f = .s4 then 16 else if f.wide then 64 else 32
def ArrFmt.vecBytes (f : ArrFmt) : Nat := if f.wide then 64 else 32
def ArrFmt.vecCycles (f : ArrFmt) : Nat := if f.wide then 4 else 1
def ArrFmt.loadCycles (f : ArrFmt) : Nat := if f.wide then 64 else 32

/-- Whether weights loaded as one format serve an MMA of another: U8S8 takes S8 weights (R115). -/
def sameWeights (loaded : BitVec 4) (f : ArrFmt) : Bool :=
  loaded == f.code || (f == .u8s8 && loaded == 0) || (f == .s8 && loaded == 1)

/-- Byte `i` of a list, 0 past its end. -/
def byteAt (bs : List Byte) (i : Nat) : Byte := (bs[i]?).getD 0

/-- Element `i` of packed integer elements; activations of U8S8 are unsigned. -/
def intElem (f : ArrFmt) (act : Bool) (bs : List Byte) (i : Nat) : Int :=
  match f with
  | .s4 => let b := byteAt bs (i / 2)
           (if i % 2 = 0 then b.setWidth 4 else (b >>> 4).setWidth 4 : BitVec 4).toInt
  | .s16 => (BitVec.ofNat 16 (fieldLE bs (2 * i) 2)).toInt
  | .u8s8 => if act then (byteAt bs i).toNat else (byteAt bs i).toInt
  | _ => (byteAt bs i).toInt

/-- Element `i` of packed float elements. -/
def floatElem (f : ArrFmt) (bs : List Byte) (i : Nat) : FVal :=
  match f with
  | .e4m3 => .decode e4m3 (byteAt bs i).toNat
  | .e5m2 => .decode e5m2 (byteAt bs i).toNat
  | _ => .decode bf16 (fieldLE bs (2 * i) 2)

/-- R116: the exact sum of products and the old value, modulo 2^32. -/
def macInt (f : ArrFmt) (x : List Byte) (w : Nat → List Byte) (n : Nat) (old : Word) : Lane :=
  .plain (BitVec.ofInt 32 ((List.range f.rows).foldl (fun t k => t + intElem f true x k * intElem f false (w k) n) old.toInt))

/-- R119: the exact column sum rounded once, then added to the old value with a second rounding; `none`: written over it. -/
def macSmall (f : ArrFmt) (x : List Byte) (w : Nat → List Byte) (n : Nat) (old : Option Word) : Lane :=
  let ps := (List.range 32).map fun k => (floatElem f x k).mul (floatElem f (w k) n)
  let sum := match ps with
    | [] => .fin false 0 0
    | p :: rest => rest.foldl FVal.add p
  let a := toLane sum
  match old with
  | none => a
  | some o =>
    let b := toLaneOf [lane o] ((lane o).add (lane a.val))
    ⟨b.val, a.flags ||| b.flags⟩

/-- R120: products rounded to float32, added one at a time in ascending k, each addition rounded. -/
def macBf16 (x : List Byte) (w : Nat → List Byte) (n : Nat) (old : Word) : Lane :=
  (List.range 32).foldl (fun (r : Lane) k =>
    let p := toLane ((floatElem .bf16 x k).mul (floatElem .bf16 (w k) n))
    let a := toLaneOf [lane r.val] ((lane r.val).add (lane p.val))
    ⟨a.val, r.flags ||| p.flags ||| a.flags⟩) ⟨old, 0⟩

/-- One lane of one vector through the array. With ZERO the row is written over: the sum starts from 0. -/
def mac (f : ArrFmt) (zero : Bool) (x : List Byte) (w : Nat → List Byte) (n : Nat) (old : Word) : Lane :=
  match f with
  | .e4m3 => macSmall .e4m3 x w n (if zero then none else some old)
  | .e5m2 => macSmall .e5m2 x w n (if zero then none else some old)
  | .bf16 => macBf16 x w n (if zero then 0 else old)
  | f => macInt f x w n (if zero then 0 else old)

/-! ### Requantisation and the table (R117, Table 06-4) -/

/-- R117 of one lane; a result that the limits change sets SAT. -/
def requant (a : Word) (m : Word) (sh : Nat) (z : Half) (lo hi : Word) : Lane :=
  let p := a.toInt * m.toInt
  let p := if sh = 0 then p else (p + 2 ^ (sh - 1)) / 2 ^ sh
  let q := p + z.toInt
  let r := min (max q lo.toInt) hi.toInt
  ⟨BitVec.ofInt 32 r, if r = q then 0 else 4⟩

/-- Piecewise-linear table of 65 points: exact, floor; the result wraps as integer results do (R116). -/
def lut (t : Nat → Word) (sh : Nat) (x : Word) : Word :=
  let i := min (max (x.toInt / 2 ^ sh) 0) 63
  let f := x.toInt - i * 2 ^ sh
  let y0 := (t i.toNat).toInt
  let y1 := (t (i.toNat + 1)).toInt
  BitVec.ofInt 32 (y0 + (y1 - y0) * f / 2 ^ sh)

/-! ### Vector functions (Table 06-5) -/

/-- Float maximum: NaN if either is, +0 above -0 (R118). -/
def fmax (a b : FVal) : FVal :=
  if isNan a || isNan b then .nan
  else match a, b with
    | .fin true 0 _, y => if y.le a then (if a.lt y then y else match y with | .fin false 0 _ => y | _ => a) else y
    | x, y => if y.le x then x else y
def fmin (a b : FVal) : FVal := (fmax a.neg b.neg).neg

/-- FRELU. -/
def frelu : FVal → FVal
  | .nan => .nan
  | .inf true => .fin false 0 0
  | .inf false => .inf false
  | .fin true _ _ => .fin false 0 0
  | .fin false m e => .fin false m e

/-- The all-ones or all-zero word of a comparison. -/
def maskWord (b : Bool) : Word := if b then 0xFFFFFFFF else 0

/-- A VOP function of two lanes; none where FN is undefined. -/
def vfun (fn : Nat) (a b : Word) : Option Lane :=
  let x := lane a
  let y := lane b
  match fn with
  | 0x00 => some (.plain (a + b))
  | 0x01 => some (.plain (a - b))
  | 0x02 => some (.plain (a * b))
  | 0x03 => some (.plain (if b.toInt ≤ a.toInt then a else b))
  | 0x04 => some (.plain (if a.toInt ≤ b.toInt then a else b))
  | 0x05 => some (.plain (a <<< (b.toNat % 32)))
  | 0x06 => some (.plain (a.sshiftRight (b.toNat % 32)))
  | 0x07 => some (.plain (a >>> (b.toNat % 32)))
  | 0x08 => some (.plain (a &&& b))
  | 0x09 => some (.plain (a ||| b))
  | 0x0A => some (.plain (a ^^^ b))
  | 0x0B => some (.plain (maskWord (decide (b.toInt < a.toInt))))
  | 0x0C => some (.plain (if 0 ≤ a.toInt then a else 0))
  | 0x10 => some (toLaneOf [x, y] (x.add y))
  | 0x11 => some (toLaneOf [x, y] (x.add y.neg))
  | 0x12 => some (toLaneOf [x, y] (x.mul y))
  | 0x13 => some (toLaneOf [x, y] (fmax x y))
  | 0x14 => some (toLaneOf [x, y] (fmin x y))
  | 0x15 => some (toLaneOf [x] (frelu x))
  | 0x16 => some ⟨maskWord (y.lt x), if isNan x || isNan y then 1 else 0⟩
  | _ => none

/-! ### VLD and VST forms (Table 06-6) -/

/-- Bytes of an element; none for an undefined form. -/
def formBytes (fn : Nat) : Option Nat :=
  match fn with
  | 0 => some 4
  | 1 => some 2
  | 2 => some 2
  | 3 => some 1
  | 4 => some 1
  | 5 => some 2
  | 6 => some 1
  | 7 => some 1
  | _ => none

/-- A loaded element widened. A NaN loaded is a NaN consumed. -/
def widen (fn : Nat) (c : Nat) : Lane :=
  match fn with
  | 1 => .plain ((BitVec.ofNat 16 c).signExtend 32)
  | 3 => .plain ((BitVec.ofNat 8 c).signExtend 32)
  | 5 => toLane (.decode bf16 c)
  | 6 => toLane (.decode e4m3 c)
  | 7 => toLane (.decode e5m2 c)
  | _ => .plain (BitVec.ofNat 32 c)

/-- R121: a float32 lane rounded into a narrow format, saturating where SATFP is set (never for bfloat16). -/
def narrowFloat (f : FFmt) (satfp : Bool) (w : Word) : Nat × BitVec 3 :=
  let v := lane w
  if isNan v then (f.nanCode, 1)
  else if isInf v || v.overflows f then
    let neg := match v with | .inf n => n | .fin n _ _ => n | .nan => false
    if satfp then (FVal.signed f neg f.maxFin, 4)
    else match f.infCode with
      | some c => (FVal.signed f neg c, if isInf v then 0 else 2)
      | none => (f.nanCode, 1)
  else (v.encode f, 0)

/-- A lane narrowed for a store. -/
def narrow (fn : Nat) (satfp : Bool) (w : Word) : Nat × BitVec 3 :=
  match fn with
  | 0 => (w.toNat, 0)
  | 1 => (w.toNat % 65536, 0)
  | 2 => (w.toNat % 65536, 0)
  | 3 => (w.toNat % 256, 0)
  | 4 => (w.toNat % 256, 0)
  | 5 => narrowFloat bf16 false w
  | 6 => narrowFloat e4m3 satfp w
  | _ => narrowFloat e5m2 satfp w

/-- The function of a VRED code: integer sum, signed maximum, float sum. -/
def redFun (fn : Nat) (a b : Word) : Option Lane :=
  match fn with
  | 0 => some (.plain (a + b))
  | 1 => some (.plain (if b.toInt ≤ a.toInt then a else b))
  | 2 => some (toLaneOf [lane a, lane b] ((lane a).add (lane b)))
  | _ => none

/-- Halve a list of lanes: lane i with lane i + n/2. -/
def halve (fn : Nat) (l : List Lane) : List Lane :=
  let h := l.length / 2
  (List.range h).map fun i =>
    let a := (l[i]?).getD (.plain 0)
    let b := (l[i + h]?).getD (.plain 0)
    match redFun fn a.val b.val with
    | some r => ⟨r.val, a.flags ||| b.flags ||| r.flags⟩
    | none => a

/-- VRED of 64 lanes. -/
def reduce (fn : Nat) (v : List Word) : Lane :=
  let l := halve fn (halve fn (halve fn (halve fn (halve fn (halve fn (v.map .plain))))))
  (l[0]?).getD (.plain 0)

end Sys2Proof.Machine
end

