-- ==== Sys2Proof/Machine/AuditMath.lean ====
section
/-! DEFINITION. Machine/AuditMath.lean: what an audit tile computes (R145, R147, R159, R160): C = G(X)·W + b with the golden W and b, its
post-operation, and the projection check. -/

namespace Sys2Proof.Machine

/-- The array format of an audited layer's products (Table 06-1). -/
def arrOf : AuditFmt → ArrFmt
  | .s8 => .s8
  | .u8s8 => .u8s8
  | .s4 => .s4
  | .s16 => .s16

/-- Columns of a layer's output: n. -/
def layerCols (l : Layer) : Nat := l.tileCols * l.tn

/-- The TCOORD of a tile (Table 04-6). -/
def coordOf (layer row col : Nat) : Word := BitVec.ofNat 32 (layer * 2 ^ 20 + row * 2 ^ 10 + col)

/-- Fields of a TCOORD: layer, tile row, tile column (Table 04-6). -/
def tcLayer (t : Word) : Nat := bits t 31 20
def tcRow (t : Word) : Nat := bits t 19 10
def tcCol (t : Word) : Nat := bits t 9 0

/-- Element `i` of packed elements whose byte `j` is `rd j`; activations of U8S8 are unsigned. -/
def packedElem (f : AuditFmt) (act : Bool) (rd : Nat → Byte) (i : Nat) : Int :=
  match f with
  | .s4 => intElem .s4 act [rd (i / 2)] (i % 2)
  | .s16 => intElem .s16 act [rd (2 * i), rd (2 * i + 1)] 0
  | f => intElem (arrOf f) act [rd i] 0

/-- Bytes that `n` packed elements take. -/
def packedLen (f : AuditFmt) (n : Nat) : Nat :=
  match f with
  | .s4 => (n + 1) / 2
  | .s16 => 2 * n
  | _ => n

/-- The tile read back for a barge and a TCOORD. -/
def readTile (s : State) (b t : Word) : Option (List Byte) :=
  (s.au.tiles.find? fun x => x.barge = b && x.tcoord = t).map fun x => s.bytes x.addr x.len

/-- The values of a list that are all there. -/
def allSome {α : Type} : List (Option α) → Option (List α)
  | [] => some []
  | x :: xs => match x, allSome xs with
    | some a, some as => some (a :: as)
    | _, _ => none

/-- Element `j` of a layer's input X (R147): of the agreed copy, or of the producing layer's sealed tiles as read back, row-major. -/
def inputElem (s : State) (c : Challenge) (ls : List Layer) (l : Layer) (j : Nat) : Option Int :=
  match l.producer with
  | none => some (packedElem l.fmt true (fun i => s.byte (c.copyAddr + i)) j)
  | some p => match ls.find? (·.num = p) with
    | none => none
    | some q =>
      let row := j / layerCols q
      let col := j % layerCols q
      (readTile s c.barge (coordOf q.num.toNat (row / q.tm) (col / q.tn))).map fun bs =>
        let at_ := q.elem * (row % q.tm * q.tn + col % q.tn)
        packedElem l.fmt true (fun i => (bs[at_ + i]?).getD 0) 0

/-- Row `r` of G(X), k elements (R145). -/
def gatherRow (s : State) (c : Challenge) (ls : List Layer) (l : Layer) (r : Nat) : Option (List Int) :=
  match l.gather with
  | .identity => allSome ((List.range l.k).map fun q => inputElem s c ls l (l.k * r + q))
  | .imageToColumn rows =>
    allSome ((List.range l.k).map fun q => match ((rows[r]?).getD [])[q]? with
      | none => none
      | some none => some 0
      | some (some j) => inputElem s c ls l j)

/-- The golden weight of row `q` and column `n` (log entry 91), and the golden bias of a column. -/
def weight (s : State) (l : Layer) (q n : Nat) : Int := packedElem l.fmt false (fun i => s.byte (l.wAddr + i)) (layerCols l * q + n)
def bias (s : State) (l : Layer) (n : Nat) : Int := (BitVec.ofNat 32 (natLE (s.bytes (l.bAddr + 4 * n) 4))).toInt

/-- The sum of products of two lists. -/
def dot (xs ys : List Int) : Int := (xs.zip ys).foldl (fun t p => t + p.1 * p.2) 0

/-- A value of C from a row of G(X), modulo 2^32 (R116). -/
def cValue (s : State) (l : Layer) (row : List Int) (n : Nat) : Word :=
  BitVec.ofInt 32 (dot row ((List.range l.k).map fun q => weight s l q n) + bias s l n)

/-- The post-operation of column `n` (R145). -/
def postOp (p : PostOp) (n : Nat) (v : Word) : Word :=
  match p with
  | .int32 => v
  | .table pts sh => lut (fun i => (pts[i]?).getD 0) sh.toNat v
  | .requant ps relu => match ps[n]? with
    | none => v
    | some r =>
      let w := (requant v r.m r.shift.toNat r.z r.lo r.hi).val
      if relu && decide (w.toInt < 0) then 0 else w

/-- The rows of G(X) a tile takes. -/
def tileA (s : State) (c : Challenge) (ls : List Layer) (l : Layer) : Option (List (List Int)) :=
  allSome ((List.range l.tm).map fun r => gatherRow s c ls l (l.tm * tcRow c.tcoord + r))

/-- EXACT (R159): the row-major index of the first element that differs from the bytes read. -/
def exactDiff (s : State) (c : Challenge) (l : Layer) (a : List (List Int)) (bs : List Byte) : Option Nat :=
  (List.range (l.tm * l.tn)).find? fun i =>
    let n := l.tn * tcCol c.tcoord + i % l.tn
    let v := postOp l.post n (cValue s l ((a[i / l.tn]?).getD []) n)
    (bs.drop (l.elem * i)).take l.elem != bytesLE l.elem v.toNat

/-- The matrix R of a barge's layer (R156). -/
def matrixOf (s : State) (b : Word) (l : Layer) : Option (List Byte) :=
  (s.au.mats.find? fun m => m.barge = b && m.layer = l.num).map (·.bytes)

/-- Row `i` of R, P signed bytes (R156). -/
def rRow (m : List Byte) (l : Layer) (i : Nat) : List Int :=
  (List.range (max l.tm l.tn)).map fun j => ((m[max l.tm l.tn * i + j]?).getD 0).toInt

/-- The sealed C of a tile, rows of int32. -/
def sealedRow (l : Layer) (bs : List Byte) (r : Nat) : List Int :=
  (List.range l.tn).map fun n => (BitVec.ofNat 32 (fieldLE bs (4 * (l.tn * r + n)) 4)).toInt

/-- Column `n` of a list of rows. -/
def colOf (m : List (List Int)) (n : Nat) : List Int := m.map fun r => (r[n]?).getD 0

/-- PROJECT (R160): the row-major index of the first value in which the two sides differ modulo 2^32. -/
def projectDiff (s : State) (c : Challenge) (l : Layer) (m : List Byte) (a : List (List Int)) (bs : List Byte) : Option Nat :=
  let n0 := l.tn * tcCol c.tcoord
  let rs := (List.range 32).map (rRow m l)
  let cs := (List.range l.tm).map (sealedRow l bs)
  let col := fun n => (List.range l.k).map fun q => weight s l q (n0 + n)
  let b := (List.range l.tn).map fun n => bias s l (n0 + n)
  let differ := fun (x y : Int) => BitVec.ofInt 32 x != BitVec.ofInt 32 y
  if c.transpose then
    (List.range (l.tm * 32)).find? fun i =>
      let r := (rs[i % 32]?).getD []
      let br := (List.range l.k).map fun q => dot ((List.range l.tn).map fun n => weight s l q (n0 + n)) r
      differ (dot ((cs[i / 32]?).getD []) r) (dot ((a[i / 32]?).getD []) br + dot b r)
  else
    (List.range (32 * l.tn)).find? fun i =>
      let r := (rs[i / l.tn]?).getD []
      let ra := (List.range l.k).map fun q => dot r (colOf a q)
      differ (dot r (colOf cs (i % l.tn))) (dot ra (col (i % l.tn)) + dot r (List.replicate l.tm 1) * (b[i % l.tn]?).getD 0)

/-- The layer of a challenge's tile. -/
def chalLayer (s : State) (c : Challenge) : Option Layer := (descLayers s c.desc).find? fun l => l.num.toNat = tcLayer c.tcoord

/-- The bytes that elements `i` to `i + n - 1` of packed elements stand in: the first, and how many. -/
def packedSpan (f : AuditFmt) (i n : Nat) : Nat × Nat :=
  match f with
  | .s4 => (i / 2, (i + n + 1) / 2 - i / 2)
  | .s16 => (2 * i, 2 * n)
  | _ => (i, n)

/-- The elements of the agreed copy that a tile's rows take: ranges of them. -/
def copySpans (c : Challenge) (l : Layer) : List (Nat × Nat) :=
  if l.producer.isSome then []
  else match l.gather with
    | .identity => [packedSpan l.fmt (l.k * (l.tm * tcRow c.tcoord)) (l.k * l.tm)]
    | .imageToColumn rows => (List.range l.tm).flatMap fun r =>
        (((rows[l.tm * tcRow c.tcoord + r]?).getD []).filterMap id).map fun j => packedSpan l.fmt j 1

/-- What the check of a tile reads in Hold (R147): its columns of the golden weights and of the bias, and its rows' elements of the agreed
copy. -/
def checkReads (c : Challenge) (l : Layer) : List (Nat × Nat) :=
  let n0 := l.tn * tcCol c.tcoord
  ((List.range l.k).map fun q => let p := packedSpan l.fmt (layerCols l * q + n0) l.tn; (l.wAddr + p.1, p.2)) ++
  [(l.bAddr + 4 * n0, 4 * l.tn)] ++ (copySpans c l).map fun p => (c.copyAddr + p.1, p.2)

/-- The uncorrectable word that the check meets: of the golden weights, the bias or the agreed copy (R158). -/
def companionBad (s : State) (c : Challenge) (l : Layer) : Option Nat := (checkReads c l).findSome? fun r => holdUncIn s r.1 r.2

/-- The check of a challenge on its tile: none where the companion cannot make it, else the first difference found, if any. -/
def auditCheck (s : State) (c : Challenge) : Option (Option Nat) :=
  match chalLayer s c, readTile s c.barge c.tcoord with
  | some l, some bs =>
    if (companionBad s c l).isSome then none
    else (tileA s c (descLayers s c.desc) l).bind fun a =>
      if c.method = .project then (matrixOf s c.barge l).map fun m => projectDiff s c l m a bs
      else some (exactDiff s c l a bs)
  | _, _ => none

end Sys2Proof.Machine
end

