-- ==== Sys2Proof/Machine/Masks.lean ====
section
/-! DEFINITION. Machine/Masks.lean: the consequence masks of Beacon (R236), which a block's own retry opens too. -/

namespace Sys2Proof.Machine

/-- POLs_MASK0-3 as one 128-bit mask. -/
def polMask (s : State) (src : Nat) : BitVec 128 :=
  BitVec.ofNat 128 ((s.reg (R.POLs_MASKm src 0)).toNat + 2 ^ 32 * (s.reg (R.POLs_MASKm src 1)).toNat +
    2 ^ 64 * (s.reg (R.POLs_MASKm src 2)).toNat + 2 ^ 96 * (s.reg (R.POLs_MASKm src 3)).toNat)

/-- Open an interval of `us` microseconds from the next cycle on; an empty one opens nothing. -/
def openInterval (s : State) (src chan : Nat) (mask : BitVec 128) (us : Nat) : State :=
  if mask = 0 ∨ us = 0 then s
  else
    let m : MaskOpen := ⟨BitVec.ofNat 7 src, BitVec.ofNat 6 chan, mask, s.cycle + 1, s.cycle + usCycles us⟩
    { s with bc := { s.bc with masks := s.bc.masks ++ [m] } }

/-- Open the consequence mask of a source and channel: at a hardware retry, a retirement, a class reaction, or the Keeper's write (R236). -/
def openMask (s : State) (src chan : Nat) : State := openInterval s src chan (polMask s src) (s.fld (R.POLs_MINT src) 6 0)

/-- A glint's window is open (R238); a unit's own test runs once in it (R110, R361). -/
def windowOn (s : State) (g : Glint) : Bool := !g.readback && decide (s.cycle < g.windowEnd)

/-- Whether Beacon holds a glint window open on a source (R238). -/
def glintOpen (s : State) (src : Nat) : Bool := s.bc.glints.any fun g => g.src.toNat = src && windowOn s g

/-- The unit that a glint names has run its test. -/
def glintRan (s : State) (x : Glint) : State :=
  { s with bc := { s.bc with glints := s.bc.glints.map fun g => if g.src = x.src ∧ g.chan = x.chan then { g with ran := true } else g } }

end Sys2Proof.Machine
end

