-- ==== Sys2Proof/Machine/Mirror.lean ====
section
/-! DEFINITION. Machine/Mirror.lean: pairing the signature records of the twin copies and comparing them (R96 to R113). -/

namespace Sys2Proof.Machine

/-! ### Barges and windows -/

/-- MI_CTRL.EN. -/
def mirrorOn (s : State) : Bool := s.flag R.MI_CTRL 0

/-- Window count, SINGLE and whether dead signatures are compared, of the entry in effect at the barge's delivery (R412, R104, R108). -/
def windowsOf (x : Barge) : Nat := bits x.mnetCfg 29 24 + 1
def isSingle (x : Barge) : Bool := x.mnetCfg.getLsbD 18
def deadEnabled (x : Barge) : Bool := x.mnetCfg.getLsbD 17 && !isSingle x && x.lamp.isNone

/-- The first copy context of a barge's entry. -/
def ctxA (x : Barge) : Fin 4 := Fin.ofNat 4 (bits x.mnetCfg 21 20)

/-- WINDOW below WINDOWS, and LAST exactly on the last one (R100). -/
def orderOk (x : Barge) (r : SigRec) : Bool :=
  decide (r.window.toNat < windowsOf x) && r.last == decide (r.window.toNat + 1 = windowsOf x)

/-- A record that landed after the window deadline (R106); lamp injections have none (R185). -/
def windowLate (x : Barge) (r : SigRec) : Bool := x.lamp.isNone && missed x.domain r.landed x.window

/-- Whether the live record of the same copy and window has been handed over before. -/
def liveBefore (s : State) (x : Barge) (r : SigRec) : Bool :=
  x.accepted.any (fun a => a.1 == .sig r.copy r.net r.window false) &&
  s.mr.handover.all fun h => h.barge != r.barge || h.copy != r.copy || h.window != r.window || h.dead

/-- The stored record of the other copy for the same barge, window and kind. -/
def partner (s : State) (r : SigRec) : Option SigRec :=
  s.mi.store.find? fun p => p.barge = r.barge && p.window = r.window && p.dead = r.dead && p.copy ≠ r.copy

/-- Change Mirror's own state. -/
def updMi (s : State) (f : Mirror → Mirror) : State := { s with mi := f s.mi }

/-- Store a first record, but of a released barge, whose entries are free (R99); queue a compare; free a partner's entry. -/
def storeRec (r : SigRec) (s : State) : State :=
  if (s.barge? r.barge).isNone then s else updMi s fun m => { m with store := m.store ++ [r] }
def queueRec (r : SigRec) (s : State) : State := updMi s fun m => { m with queue := m.queue ++ [r] }
def freeRec (p : SigRec) (s : State) : State := updMi s fun m => { m with store := m.store.filter (· ≠ p) }

/-- An event of Mirror that names its barge, with its bit of MI_IRQ_STAT. -/
def mirrorEvent (s : State) (es irq : Nat) (syn : Nat) (b : Word) : State :=
  (s.setBit R.MI_IRQ_STAT irq).raiseSyn es 0 (BitVec.ofNat 16 syn) (some [b])

/-! ### SIG_RECORD_HANDOVER (R100, R104, R106, R107) -/

/-- A dead record that stands before its live record: it is there; the second of a window is compared. -/
def takeDead (s : State) (r : SigRec) : State :=
  let s := updEntry s r.barge fun x => { x with deadIn := x.deadIn ++ [(r.copy, r.window)] }
  if s.mi.deadSkip.contains (r.barge, r.net, r.window) then s
  else if (partner s r).isSome then queueRec r s else storeRec r s

/-- R104: a live record without its dead record raises ES39, and the window's dead compare is skipped for both copies. -/
def skipDead (s : State) (x : Barge) (r : SigRec) : State :=
  if deadEnabled x && !x.deadIn.contains (r.copy, r.window) then
    (updMi s fun m =>
      { m with deadSkip := (r.barge, r.net, r.window) :: m.deadSkip.filter (· ≠ (r.barge, r.net, r.window)),
               store := m.store.filter fun p => !(p.dead && p.barge == r.barge && p.window == r.window) }).raiseFor 39 r.barge
  else s

/-- A live record: the second of a window is compared; one of a SINGLE entry or of a lamp is compared by itself. -/
def takeLive (s : State) (x : Barge) (r : SigRec) : State :=
  let s := skipDead s x r
  if isSingle x || x.lamp.isSome || (partner s r).isSome then queueRec r s else storeRec r s

/-- Mirror takes one record. A dead record after its live one raises ES39 and is discarded, whatever else it meets (R104). -/
def takeRecord (s : State) (r : SigRec) : State :=
  withEntry s r.barge fun x =>
    let after := r.dead && deadEnabled x && liveBefore s x r
    if !mirrorOn s then s
    else
      let s := if after then s.raiseFor 39 r.barge else s
      if windowLate x r then s.satAdd R.LATE_CNT 31 0 1
      else if r.dead && !deadEnabled x then s
      else if !orderOk x r then
        giveTwin ((s.setBit R.MI_IRQ_STAT 4).raiseFor 35 r.barge) r.barge 7 0 r.window.toNat r.dead
      else if after then s
      else if r.dead then takeDead s r
      else takeLive s x r

/-- The queue of compares is full (R112). -/
def mirrorFull (s : State) : Bool := decide (64 ≤ s.mi.queue.length)

/-- The landing slot of a signature record is freed, and the record counts as consumed (R79, R81, R112). -/
def freeSigSlot (s : State) (c : Fin 4) (slot : Nat) : State :=
  let x := s.mr.ctxs[c]
  ({ s with mr := { s.mr with ctxs := s.mr.ctxs.set c { x with sigBusy := x.sigBusy.filter (· ≠ slot) } } }).wrapInc (R.Cc_SIG_CONS c) 31 0

/-- The glint window that Beacon holds open for Mirror (R238); its syndrome is the bit k. -/
def mirrorWindow (s : State) : Option Glint := s.bc.glints.find? fun g => (g.src == 32 || g.src == 34) && windowOn s g

/-- SIG_RECORD_HANDOVER: Mooring hands over its oldest accepted record and frees its slot, unless the queue is full; while a glint runs it
waits (R111). -/
def execSigRecordHandover (s : State) : Out :=
  .next (match s.mr.handover with
    | [] => s
    | r :: rest =>
      if mirrorFull s || (mirrorWindow s).isSome then s
      else takeRecord (freeSigSlot { s with mr := { s.mr with handover := rest } } r.copy r.slot) r)

/-! ### MIRROR_COMPARE (R101 to R109) -/

/-- The lowest set bit of a vector, 0 for none. -/
def lowBit {w : Nat} (v : BitVec w) : Nat := ((List.range w).find? fun i => v.getLsbD i).getD 0

/-- The 256 differing bits of a compare: SIG, A's digest, B's digest (R101). -/
def diffBits (sig : BitVec 128) (da db : DWord) : BitVec 256 := db ++ (da ++ sig)

/-- Note a window compared with no difference, and give PASS with the last of them (R102). -/
def windowDone (s : State) (b : Word) (w : Half) : State :=
  let s := updEntry s b fun x => { x with winDone := if x.winDone.contains w then x.winDone else x.winDone ++ [w] }
  withEntry s b fun x => if x.winDone.length = windowsOf x then giveTwin s b 1 0 0 false else s

/-- Digest and signature differences of a live compare, and its result. -/
def liveResult (s : State) (b : Word) (w : Half) (sig : BitVec 128) (da db : DWord) : State :=
  let syn := lowBit (diffBits sig da db)
  let s := if sig ≠ 0 then mirrorEvent s 32 0 syn b else s
  let s := if da ≠ 0 ∨ db ≠ 0 then mirrorEvent s 34 2 syn b else s
  if sig ≠ 0 then giveTwin s b 2 syn w.toNat false
  else if da ≠ 0 ∨ db ≠ 0 then giveTwin s b 3 syn w.toNat false
  else windowDone s b w

/-- The dead compare: a SIG difference alone counts as silent divergence (R105). -/
def deadResult (s : State) (b : Word) (net w : Half) (sig : BitVec 128) (da db : DWord) : State :=
  let syn := lowBit (diffBits sig da db)
  let s := if da ≠ 0 ∨ db ≠ 0 then mirrorEvent s 34 2 syn b else s
  let s := if sig ≠ 0 then
      let s := ((s.satAdd R.SILENT_DIV 31 0 1).setReg R.SILENT_BARGE b).setReg R.SILENT_WIN (BitVec.ofNat 32 (net.toNat + 65536 * w.toNat))
      mirrorEvent s 36 3 syn b
    else s
  if da ≠ 0 ∨ db ≠ 0 then giveTwin s b 3 syn w.toNat true else s

/-- Two records of a window, A's first. -/
def inCtxOrder (x : Barge) (r p : SigRec) : SigRec × SigRec := if r.copy = ctxA x then (r, p) else (p, r)

/-- The compare of a pair (R101, R105). -/
def comparePair (s : State) (x : Barge) (r p : SigRec) : State :=
  let ab := inCtxOrder x r p
  let sig := ab.1.sig ^^^ ab.2.sig
  let da := ab.1.digest ^^^ x.digest
  let db := ab.2.digest ^^^ x.digest
  if r.dead then deadResult s x.num r.net r.window sig da db else liveResult s x.num r.window sig da db

/-- Where the reference signature of a lamp's window stands, and the signature (R108). -/
def lampRefAt (s : State) (l : Fin 256) (w : Half) : Nat :=
  (s.reg R.MI_LREF_BASE_LO).toNat + 2 ^ 32 * s.fld R.MI_LREF_BASE_HI 7 0 + 16 * (64 * l.val + w.toNat)
def lampRef (s : State) (l : Fin 256) (w : Half) : BitVec 128 := BitVec.ofNat 128 (natLE (s.bytes (lampRefAt s l w) 16))

/-- Every window of every copy of a lamp barge has passed. -/
def lampAllDone (x : Barge) : Bool := decide (x.lampWins.length = windowsOf x * x.ctxs.length)

/-- Note a passed window of a lamp; the last one gives PASS where the view has passed too (R185). -/
def lampWindow (s : State) (r : SigRec) : State :=
  let s := s.updBarge r.barge fun x =>
    { x with lampWins := if x.lampWins.contains (r.copy, r.window) then x.lampWins else x.lampWins ++ [(r.copy, r.window)] }
  s.withBarge r.barge fun x => if lampAllDone x && x.viewOk then giveTwin s r.barge 1 0 0 false else s

/-- A lamp's live record against its reference and the other copy (R108). A reference that cannot be read is ES64 and no equal of it
(log entry 104). -/
def compareLamp (s : State) (x : Barge) (l : Fin 256) (r : SigRec) (p : Option SigRec) : State :=
  let dr := r.sig ^^^ lampRef s l r.window
  let dp := match p with | some q => r.sig ^^^ q.sig | none => 0
  let dd := r.digest ^^^ x.digest
  let pos := if r.copy = ctxA x then 128 else 192
  if (holdUncIn s (lampRefAt s l r.window) 16).isSome then
    giveTwin (holdBadRead s (lampRefAt s l r.window) 16) x.num 2 0 r.window.toNat false
  else if dr ≠ 0 ∨ dp ≠ 0 then giveTwin s x.num 2 (lowBit (if dr ≠ 0 then dr else dp)) r.window.toNat false
  else if dd ≠ 0 then giveTwin s x.num 3 (pos + lowBit dd) r.window.toNat false
  else lampWindow s r

/-- A normal compare of the record at the head of the queue. -/
def compareRec (s : State) (x : Barge) (r : SigRec) : State :=
  let p := partner s r
  let s := s.wrapInc R.CMP_COUNT 31 0
  let s := match p with | some q => freeRec q s | none => s
  match x.lamp with
  | some l => compareLamp (if p.isNone && !isSingle x then storeRec r s else s) x l r p
  | none =>
    if isSingle x then liveResult s x.num r.window 0 (r.digest ^^^ x.digest) 0
    else match p with
      | some q => comparePair s x r q
      | none => s

/-- The next bit k. -/
def glintBit (s : State) : Nat := s.fld R.GLINT_STAT 23 16

/-- The source on which a difference at bit k is signalled (R110). -/
def glintSource (k : Nat) : Nat := if k < 128 then 32 else 34

/-- MIRROR_COMPARE: the oldest compare, once no glint runs (R111); an uncorrectable store entry gives STORE (R99), disagreeing halves
give DUAL (R109). -/
def execMirrorCompare (env : MirrorEnv) (s : State) : Out :=
  .next (match if (mirrorWindow s).isSome then [] else s.mi.queue with
    | [] => s
    | r :: rest =>
      let s := updMi s fun m => { m with queue := rest }
      withEntry s r.barge fun x =>
        match env, partner s r with
        | .storeUncorrectable, some p => giveTwin ((freeRec p s).raiseFor 38 r.barge) r.barge 8 0 r.window.toNat r.dead
        | .halvesDisagree, p =>
          let s := s.wrapInc R.CMP_COUNT 31 0
          let s := match p with | some q => freeRec q s | none => s
          giveTwin ((s.setBit R.MI_IRQ_STAT 5).raiseFor 37 r.barge) r.barge 9 0 r.window.toNat r.dead
        | _, _ => compareRec s x r)

/-! ### Window deadlines (R106) -/

/-- WINDOW_DEADLINE: the 1 µs wait begins. -/
def execWindowDeadline (b : Word) (s : State) : Out :=
  .next (withEntry s b fun x =>
    if mirrorOn s && x.stage == .delivered && x.lamp.isNone && x.windowPast.isNone && missed x.domain s.now x.window then
      updEntry s b fun x => { x with windowPast := some s.cycle }
    else s)

/-- Whether a copy has a live record of a window that landed in time; of a released barge, whose store entries are free, one that was
accepted. -/
def hasLive (s : State) (x : Barge) (c : Fin 4) (w : Nat) : Bool :=
  x.winDone.any (fun d => d.toNat = w) ||
  ((s.barge? x.num).isNone && x.accepted.any fun a => a.1 == .sig c (BitVec.ofNat 16 (netId x)) (BitVec.ofNat 16 w) false) ||
  (s.mi.store ++ s.mi.queue ++ s.mr.handover).any fun r =>
    r.barge = x.num && r.copy = c && r.window.toNat = w && !r.dead && !windowLate x r

/-- Whether a copy lacks a live record. -/
def lacksLive (s : State) (x : Barge) (c : Fin 4) : Bool := (List.range (windowsOf x)).any fun w => !hasLive s x c w

/-- MISSING_A, MISSING_B, MISSING_BOTH, or none missing; a SINGLE entry has CTX_A alone. -/
def missingCode (s : State) (x : Barge) : BitVec 4 :=
  match x.ctxs with
  | [] => 0
  | [a] => if lacksLive s x a then 4 else 0
  | a :: b :: _ => match lacksLive s x a, lacksLive s x b with
    | true, true => 6
    | true, false => 4
    | false, true => 5
    | false, false => 0

/-- MISSING_RESULT: 1 µs after the window deadline. -/
def execMissingResult (b : Word) (s : State) : Out :=
  .next (withEntry s b fun x =>
    match x.windowPast with
    | none => s
    | some c =>
      let code := missingCode s x
      if s.cycle - c < usCycles 1 || x.twin != 0 || code == 0 || loggedLate s 1 b then s
      else giveTwin ((s.setBit R.MI_IRQ_STAT 1).raiseFor 33 b) b code 0 0 false)

/-! ### Glints and SILENT_CLR (R105, R109, R110) -/

/-- The operands of the synthetic compares, from the seed in MI_GLINT_PAT: both of the equal pair are the first, the other pair is the
first and one that differs from it at bit k (R110; the seed is repeated over the 256 bits: DESIGN CHOICE, log entry 53). -/
def glintOperands (s : State) (k : Nat) : BitVec 256 × BitVec 256 :=
  let p := (s.reg R.MI_GLINT_PAT ++ s.reg R.MI_GLINT_PAT) ++ (s.reg R.MI_GLINT_PAT ++ s.reg R.MI_GLINT_PAT)
  let a : BitVec 256 := p ++ p
  (a, a ^^^ BitVec.ofNat 256 (2 ^ k))

/-- The syndrome that the pair differing at bit k must report (R101). -/
def glintSyndrome (s : State) (k : Nat) : Byte := BitVec.ofNat 8 (lowBit ((glintOperands s k).1 ^^^ (glintOperands s k).2))

/-- Both compares of a glint come out as they must: no difference, and a difference with syndrome k, in both halves (R110). -/
def glintGood (g : MirrorGlint) (k : Byte) : Bool :=
  g.equalP == none && g.equalQ == none && g.bitP == some k && g.bitQ == some k

/-- What a compare's halves signal: ES37 where they disagree (R109), else the difference they report, on its source. -/
def mirrorGlintPair (src : Nat) (p q : HalfReport) (s : State) : State :=
  if p != q then (s.setBit R.MI_IRQ_STAT 5).raise 37 0
  else match p with
    | none => s
    | some j => s.raiseSyn src 0 (j.setWidth 16) none

/-- MIRROR_GLINT (R110): the two synthetic compares, once inside the window Beacon has opened; without one nothing runs (log entry 53). A
difference reported on the equal pair raises ES37. -/
def execMirrorGlint (g : MirrorGlint) (s : State) : Out :=
  .next (match (mirrorWindow s).filter (!·.ran) with
    | none => s
    | some x =>
      let s := glintRan s x
      let s := (s.wrapInc R.GLINT_STAT 15 0).setFld R.GLINT_STAT 24 24 (bit (!glintGood g (glintSyndrome s x.syn.toNat)))
      let s := mirrorGlintPair x.src.toNat g.equalP g.equalQ s
      let s := if g.equalP == g.equalQ && g.equalP.isSome then (s.setBit R.MI_IRQ_STAT 5).raise 37 0 else s
      mirrorGlintPair x.src.toNat g.bitP g.bitQ s)

/-- SILENT_CLR (Table 05-7). -/
def execSilentClr (i : Initiator) (v : Word) (s : State) : Out :=
  .next (s.keeperWrite i fun s => if v = 1 then s.setReg R.SILENT_DIV 0 else s)

end Sys2Proof.Machine
end

