-- ==== Sys2Proof/Machine/Windows.lean ====
section
/-! DEFINITION. Machine/Windows.lean: the outbound windows (R71, R74): the entry an access hits, and what Mooring's own engines reach. -/

namespace Sys2Proof.Machine

/-- MR_CTRL.X16 disables RP1 (R71). -/
def portPresent (s : State) (n : Fin 2) : Bool := n == 0 || !s.flag R.MR_CTRL 1

/-- ES24 or ES25, the port's link source. -/
def linkSource (n : Fin 2) : Nat := 24 + n.val

/-- An event on a port's link source, which Lantern counts (Table 20-2). -/
def linkEvent (s : State) (n : Fin 2) : State := (lnErr s (lnPort n)).raise (linkSource n) 0

/-- A user's bit in OBWn_e_CFG. -/
def userBit : OutUser → Nat
  | .keeper _ => 2
  | .harbour => 3
  | .engine => 4

/-- The enabled outbound entry of port `n` that holds a region offset (R74). -/
def obEntry (s : State) (n : Nat) (off : Nat) : Option Nat :=
  (List.range 8).find? fun e =>
    let lo := 0x100000 * s.fld (R.OBWn_e_OFF n e) 17 0
    s.flag (R.OBWn_e_CFG n e) 0 && lo ≤ off && decide (off < lo + 2 ^ s.fld (R.OBWn_e_CFG n e) 10 5)

/-- The bus address an entry maps an offset to. -/
def obBus (s : State) (n e off : Nat) : Nat :=
  (s.reg64 (R.OBWn_e_BUS_LO n e)).toNat + off - 0x100000 * s.fld (R.OBWn_e_OFF n e) 17 0

/-- An entry of port `n` that Mooring's engines may use and that maps onto a bus address. -/
def engineEntry (s : State) (n : Fin 2) (bus : Nat) : Option Nat :=
  (List.range 8).find? fun e =>
    let lo := (s.reg64 (R.OBWn_e_BUS_LO n e)).toNat
    s.flag (R.OBWn_e_CFG n e) 0 && s.flag (R.OBWn_e_CFG n e) (userBit .engine) && lo ≤ bus &&
    decide (bus < lo + 2 ^ s.fld (R.OBWn_e_CFG n e) 10 5)

/-- Such entries cover `len` bytes from a bus address; at most `fuel` of them meet end to end. -/
def engineCovers (s : State) (n : Fin 2) : Nat → Nat → Nat → Bool
  | 0, _, len => len == 0
  | fuel + 1, bus, len =>
    len == 0 ||
    match engineEntry s n bus with
    | none => false
    | some e =>
      let stop := (s.reg64 (R.OBWn_e_BUS_LO n e)).toNat + 2 ^ s.fld (R.OBWn_e_CFG n e) 10 5
      decide (bus + len ≤ stop) || engineCovers s n fuel stop (bus + len - stop)

/-- A read of the weight patrol or the audit reader is sent on the link (R74, R88, R157). -/
def engineReach (s : State) (n : Fin 2) (bus len : Nat) : Bool := portPresent s n && engineCovers s n 8 bus len

end Sys2Proof.Machine
end

