-- ==== Sys2Proof/Machine/Audit.lean ====
section
/-! DEFINITION. Machine/Audit.lean: the seal store, the generator, challenges and coverage (R145 to R168, R442). -/

namespace Sys2Proof.Machine

/-! ### Seals and the commitment (R149 to R151) -/

/-- AU_CTRL.EN. -/
def auditOn (s : State) : Bool := s.flag R.AU_CTRL 0

/-- Whether a TCOORD names a tile of an audited layer (R150). -/
def inGrid (ls : List Layer) (t : Word) : Bool :=
  ls.any fun l => l.num.toNat == tcLayer t && tcRow t < l.tileRows && tcCol t < l.tileCols

/-- The tiles an entry's descriptor has in all. -/
def tileCount (ls : List Layer) : Nat := (ls.map fun l => l.tileRows * l.tileCols).sum

/-- The audited copy context of a barge's entry. -/
def auditCtx (x : Barge) : Fin 4 := Fin.ofNat 4 (bits x.au.cfg 20 19)

/-- The reference copy of a barge's network: CTX of its Audit entry where one exists, else CTX_A. -/
def refCtx (x : Barge) : Fin 4 := if x.au.entry.isSome || x.au.cfg.getLsbD 16 then auditCtx x else ctxA x

/-- The audit reader's failed reads of a barge's values, each an event of the reference copy's port (R75): READ_RETRY retries follow the
first (log entry 26). Where no outbound entry reaches them nothing is read (R74). -/
def valuesFail (s : State) (x : Barge) : State :=
  let n := portOf (refCtx x)
  if x.outAddrs.any fun a => engineReach s n a.2.toNat 1 then foldN (s.fld R.AU_CTRL 3 2 + 1) (fun s _ => linkEvent s n) s else s

/-- Stored seals of a barge. -/
def sealsOf (s : State) (b : Word) : List SealEntry := s.au.store.filter (·.barge = b)

/-- Change Audit's own state. -/
def updAu (s : State) (f : Audit → Audit) : State := { s with au := f s.au }

/-- Change a barge's audit record. -/
def updAuRec (s : State) (b : Word) (f : AuditRec → AuditRec) : State := updEntry s b fun x => { x with au := f x.au }

/-- The entry as it now stands has come to govern a barge: its commitment is complete, or its seal deadline was reached (R163). -/
def governed (a : AuditRec) : Bool := a.complete || a.deadline.isSome

/-- The audited layers of a barge's descriptor: the one that governs it, else the one its entry now names (R163). -/
def layersOf (s : State) (x : Barge) (e : Fin 64) : List Layer := if governed x.au then descLayers s x.au.desc else auditLayers s e

/-- The commitment of a barge completes (R150): its entry, as now in effect, governs it to the end (R163). -/
def commitSeals (s : State) (b : Word) (e : Fin 64) : State :=
  let cfg := s.reg (R.AUn_CFG e)
  let desc := descOf s e
  let s := updAuRec s b fun a => { a with complete := true, cfg := cfg, desc := desc }
  (updAu s fun a => { a with readyQ := a.readyQ ++ [(e, b)] }).setBit R.AU_IRQ_STAT 0

/-- An accepted seal (R149 to R151): discarded and counted, late and counted, out of range, or stored. -/
def storeSeal (s : State) (r : SealEntry) (landed : Stamp) : State :=
  let x := s.barge? r.barge
  match x, x.bind (·.au.entry) with
  | some x, some e =>
    if !auditOn s || auditCtx x != r.ctx then s.satAdd R.AU_XSEAL 31 0 1
    else if missed x.domain landed x.au.sealDl then s.satAdd R.AU_LATE 31 0 1
    else if !inGrid (layersOf s x e) r.tcoord then giveAudit (s.raiseFor 51 r.barge) r.barge 5 none
    else if x.au.closed then s
    else
      let s := updAu s fun a => { a with store := a.store ++ [r] }
      if !x.au.complete && (sealsOf s r.barge).length == tileCount (layersOf s x e) then commitSeals s r.barge e else s
  | _, _ => s.satAdd R.AU_XSEAL 31 0 1

/-- SEAL_DEADLINE (R151, R163): the deadline is noted; the entry now in effect governs the barge. -/
def execSealDeadline (b : Word) (s : State) : Out :=
  .next (withEntry s b fun x =>
    match x.au.entry with
    | none => s
    | some e =>
      if x.au.complete || x.au.closed || x.au.deadline.isSome || !missed x.domain s.now x.au.sealDl then s
      else
        let cfg := s.reg (R.AUn_CFG e)
        let desc := descOf s e
        updAuRec s b fun a => { a with deadline := some s.cycle, cfg := cfg, desc := desc })

/-- SEAL_MISSING_TIMEOUT (R151): 1 µs later the commitment is still incomplete; the barge's list is closed and no tile is drawn. -/
def execSealMissingTimeout (b : Word) (s : State) : Out :=
  .next (withEntry s b fun x =>
    match x.au.deadline with
    | none => s
    | some c =>
      if x.au.complete || x.au.closed || s.cycle - c < usCycles 1 then s
      else
        let s := updAuRec s b fun a => { a with closed := true }
        if x.formed then logLate s 2 b 4 else giveAudit (s.raiseFor 51 b) b 4 none)

/-- READYQ_POP: a read of AU_READYQ returns the oldest entry with [31] set and pops it; an empty queue reads 0. -/
def execReadyqPop (s : State) : Out :=
  .next (match s.au.readyQ with
    | [] => s.busOk 0
    | (e, b) :: rest => (updAu s fun a => { a with readyQ := rest, popped := b }).busOk (BitVec.ofNat 64 (2 ^ 31 + e.val)))

/-! ### The generator (R153) -/

/-- The NET_ID of an instance: of the entry that governs the barge of AU_DRBG_BARGE (R163), else of the entry as it stands. -/
def drbgNet (s : State) (e : Nat) : Half :=
  let cfg := match s.barge? (s.reg R.AU_DRBG_BARGE) with
    | some x => if x.au.entry = some (Fin.ofNat 64 e) && governed x.au then x.au.cfg else s.reg (R.AUn_CFG e)
    | none => s.reg (R.AUn_CFG e)
  BitVec.ofNat 16 (bits cfg 15 0)

/-- DRBG_INSTANTIATE: the choice or projection instance of an entry's network, for AU_DRBG_BARGE. Without SITE_SEED the generator
refuses: a bus error response, and no instance (R292, log entry 91). -/
def execDrbgInstantiate (i : Initiator) (v : Word) (s : State) : Out :=
  .next (s.keeperWrite i fun s =>
    match s.se.siteSeed with
    | none => updAu (s.busError i) fun a => { a with drbg := none }
    | some seed =>
      let net := drbgNet s (bits v 5 0)
      let inst : Byte := if v.getLsbD 8 then 2 else 1
      let d := auditInstance seed s.au.startNonce (s.reg R.AU_DRBG_BARGE) net inst
      updAu s fun a => { a with drbg := some d })

/-- DRBG_OUT_READ: the next output word. With no instance ever made the read stalls: no response (log entry 54). -/
def execDrbgOutRead (i : Initiator) (s : State) : Out :=
  .next (if !s.admitted i then s.refuse i
    else match s.au.drbg with
      | none => { s with bus := .none }
      | some d => (updAu s fun a => { a with drbg := some (Drbg.next d).2 }).busOk ((Drbg.next d).1.setWidth 64))

/-! ### Challenges (R152, R442) -/

/-- Fields of a challenge (Table 07-1). -/
def chalBytes (c : BitVec 128) : List Byte := bytesLE 16 c.toNat
def chalEntry (c : BitVec 128) : Fin 64 := Fin.ofNat 64 ((c >>> 16).toNat % 64)
def chalTile (c : BitVec 128) : BitVec 5 := (c >>> 24).setWidth 5
def chalBarge (c : BitVec 128) : Word := (c >>> 32).setWidth 32
def chalCoord (c : BitVec 128) : Word := (c >>> 64).setWidth 32
def chalSeq (c : BitVec 128) : Half := (c >>> 96).setWidth 16
def chalTranspose (c : BitVec 128) : Bool := c.getLsbD 10

/-- CHK: CRC-16 in native mode, BARGE folded first, over bytes 0 to 13. -/
def chkOk (c : BitVec 128) : Bool := (crcNative crc16 (chalBarge c) ((chalBytes c).take 14)).toNat == (c >>> 112).toNat

/-- Whether a write of AU_CHAL3 is refused (R152). -/
def chalRefused (s : State) (close : Bool) (c : BitVec 128) : Bool :=
  let done := match s.barge? (chalBarge c) with | some x => x.au.complete | none => false
  let sealed := (sealsOf s (chalBarge c)).any (·.tcoord = chalCoord c)
  !done || (!close && !sealed) || !chkOk c || decide (256 ≤ s.au.queue.length)

/-- The result once every challenge before CLOSE has ended (R162); without SITE_SEED it is INCOMPLETE (R292). -/
def auditEnd (s : State) (b : Word) : State :=
  s.withBarge b fun x =>
    if x.au.closed && x.au.ended == x.au.issued then
      giveAudit s b (if x.au.incomplete || s.se.siteSeed.isNone then 7 else if x.au.drawn = 0 then 8 else 1) none
    else s

/-- Queue a challenge of a method; CLOSE ends the list. A barge with its final record takes none (R163). -/
def queueChallenge (i : Initiator) (m : ChalMethod) (c : BitVec 128) (s : State) : State :=
  s.keeperWrite i fun s =>
    let b := chalBarge c
    if chalRefused s (m == .close) c then s.busError i
    else s.withBarge b fun x =>
      if x.formed then s
      else if m = .close then auditEnd (updAuRec s b fun a => { a with closed := true }) b
      else
        let ch : Challenge := ⟨m, chalTranspose c, chalEntry c, chalTile c, b, chalCoord c, chalSeq c, 0, false, x.bufAddr.toNat, x.bufLen, x.au.desc⟩
        let s := updAuRec s b fun a => { a with issued := a.issued + 1, drawn := if m = .input then a.drawn else a.drawn + 1 }
        updAu s fun a => { a with queue := a.queue ++ [ch] }

/-- CHALLENGE_EXACT, CHALLENGE_PROJECT, CHALLENGE_INPUT, CHALLENGE_CLOSE: a write of AU_CHAL3 with the challenge's sixteen bytes. -/
def execChallengeExact (i : Initiator) (c : BitVec 128) (s : State) : Out := .next (queueChallenge i .exact c s)
def execChallengeProject (i : Initiator) (c : BitVec 128) (s : State) : Out := .next (queueChallenge i .project c s)
def execChallengeInput (i : Initiator) (c : BitVec 128) (s : State) : Out := .next (queueChallenge i .input c s)
def execChallengeClose (i : Initiator) (c : BitVec 128) (s : State) : Out := .next (queueChallenge i .close c s)

/-! ### Reading and re-sealing (R157, R158) -/

/-- The challenge being read: one whose read is retried, else the oldest queued. -/
def readHead (s : State) : Option Challenge :=
  match s.au.reading with
  | some c => some c
  | none => s.au.queue.head?

/-- That challenge is read no longer. -/
def takeRead (s : State) : State :=
  updAu s fun a => match a.reading with
    | some _ => { a with reading := none }
    | none => { a with queue := a.queue.tail }

/-- A challenge ends. -/
def endChallenge (s : State) (b : Word) : State := auditEnd (updAuRec s b fun a => { a with ended := a.ended + 1 }) b

/-- What a challenge's result does while its barge's record is not formed; later it is logged alone, with its code (R28, R163). -/
def challengeResult (s : State) (c : Challenge) (code : BitVec 4) (f : Barge → State) : State :=
  reporting s 2 c.barge code fun x => endChallenge (f x) c.barge

/-- A challenge ends in a failing result. -/
def failChallenge (s : State) (c : Challenge) (code : BitVec 4) (es : Nat) : State :=
  challengeResult s c code fun _ => giveAudit (s.raiseFor es c.barge) c.barge code (some ⟨c.seq, c.tcoord⟩)

/-- A challenge ends matching. -/
def passChallenge (s : State) (c : Challenge) : State := challengeResult s c 1 fun _ => s

/-- A challenge ends INCOMPLETE on the companion's side (R158, R163). -/
def incompleteChallenge (s : State) (c : Challenge) : State :=
  challengeResult s c 7 fun _ => updAuRec (s.raiseFor 52 c.barge) c.barge fun a => { a with incomplete := true }

/-- The re-seal of the bytes read (R157): CRC-64 native, TCOORD folded first. -/
def resealOk (s : State) (c : Challenge) (bs : List Byte) : Bool :=
  match (sealsOf s c.barge).find? (·.tcoord = c.tcoord) with
  | some e => e.val == crcNative crc64 c.tcoord bs
  | none => false

/-- A re-seal that differs (R157, R87). -/
def resealBreach (s : State) (c : Challenge) : State :=
  challengeResult s c 3 fun x => breach s 2 (auditCtx x).val c.barge (some ⟨c.seq, c.tcoord⟩)

/-- The port of the audited copy whose memory a challenge's tile stands in. -/
def chalPort (s : State) (c : Challenge) : Fin 2 :=
  match (sealsOf s c.barge).find? (·.tcoord = c.tcoord) with
  | some e => portOf e.ctx
  | none => 0

/-- Every row of the tile, at the TILE_ADDR of its stored seal and with the descriptor's shape and stride, is reached through an outbound
entry that Mooring's engines may use (R74, R157). -/
def tileReached (s : State) (c : Challenge) : Bool :=
  match (sealsOf s c.barge).find? (·.tcoord = c.tcoord), chalLayer s c with
  | some e, some l => (List.range l.tm).all fun r => engineReach s (portOf e.ctx) (e.addr.toNat + l.stride * r) (l.elem * l.tn)
  | _, _ => false

/-- A read that ends in error (R158): retried up to AU_CTRL.READ_RETRY times, then UNREADABLE with ES52. -/
def readFailed (s : State) (c : Challenge) : State :=
  let s := takeRead s
  if c.tries < s.fld R.AU_CTRL 3 2 then updAu s fun a => { a with reading := some { c with tries := c.tries + 1 } }
  else failChallenge s c 6 52

/-- Ranges of Basin in use by Audit: the areas of R and the tiles that stand there. -/
def auditAreas (s : State) (c : Challenge) : List (Nat × Nat) :=
  ((descLayers s c.desc).map fun l => (l.rAddr, 32 * max l.tm l.tn)) ++ s.au.tiles.map fun x => (x.addr, x.len)

/-- Where a tile of `n` bytes is written (R157): in the lowest Basin bank of the tile group that admits the write and has room for it, behind
everything of Audit that the bank holds. The manual does not give the place (DESIGN CHOICE, log entry 91). -/
def tilePlace (s : State) (c : Challenge) (n : Nat) : Option Nat :=
  (List.range 64).findSome? fun b =>
    let lo := basinBase + 0x80000 * b
    let at_ := (auditAreas s c).foldl (fun m r => if meets r.1 r.2 lo 0x80000 then max m (r.1 + r.2) else m) lo
    if at_ + n ≤ lo + 0x80000 && banksAdmit s .tiles true at_ n then some at_ else none

/-- The tile read is written into a Basin bank of the tile group (R157). -/
def keepTile (c : Challenge) (a : Nat) (bs : List Byte) (s : State) : State :=
  updAu (s.store a bs) fun x => { x with
    tiles := ⟨c.barge, c.tcoord, a, bs.length⟩ :: x.tiles.filter fun t => !(t.barge = c.barge && t.tcoord = c.tcoord) }

/-- Tiles and matrices of barges that are gone and have no challenge running are dropped. -/
def pruneTiles (s : State) : State :=
  let stays := fun (b : Word) => (s.barge? b).isSome || s.au.running.any (·.barge = b)
  updAu s fun a => { a with tiles := a.tiles.filter fun x => stays x.barge, mats := a.mats.filter fun m => stays m.barge }

/-- The tile read and where it is to stand: an equal one passes to its audit tile, an INPUT challenge ends (R157). -/
def tileRead (s : State) (c : Challenge) (bs : List Byte) (a : Nat) : State :=
  let s := keepTile c a bs s
  if !resealOk s c bs then resealBreach s c
  else if c.method = .input then passChallenge s c
  else updAu s fun a => { a with running := a.running ++ [c] }

/-- CHALLENGE_READ_DONE. The bytes are those the link brought; a tile no entry reaches is not read (R74), and one for which no bank of the
tile group has a place leaves its challenge INCOMPLETE (R158). -/
def execChallengeReadDone (r : TileRead) (s : State) : Out :=
  .next (match readHead s with
    | none => s
    | some c =>
      if !tileReached s c then readFailed s c
      else match r with
        | .companionError => incompleteChallenge (takeRead s) c
        | .bytes bs =>
          let s := lnBytes (takeRead s) (lnPort (chalPort s c)) bs.length 0
          match tilePlace s c bs.length with
          | none => incompleteChallenge s c
          | some a => tileRead s c bs a)

/-- CHALLENGE_READ_ERROR: a read that the link ends in error raises its port's link source (R75). -/
def execChallengeReadError (s : State) : Out :=
  .next (match readHead s with
    | none => s
    | some c => readFailed (if tileReached s c then linkEvent s (chalPort s c) else s) c)

/-! ### Audit tiles (R159, R160, R163) -/

/-- An ACTIVE tile with role AUDIT (Table 06-19). -/
def isAuditTile (s : State) (p : Nat) : Bool :=
  s.fld (R.TL_MAP p) 6 5 == 1 && s.fld (R.TL_MAP p) 8 7 == 0

/-- Logical numbers of the ACTIVE audit tiles. -/
def auditTiles (s : State) : List Nat :=
  ((List.range 36).filter (isAuditTile s)).map fun p => s.fld (R.TL_MAP p) 4 0

/-- n_audit (R155). -/
def nAudit (s : State) : Nat := (auditTiles s).length

/-- Another audit tile than `t`, the next above it, else the lowest. -/
def otherTile (s : State) (t : Nat) : Option Nat :=
  let ts := (auditTiles s).filter (· ≠ t)
  match minBy (fun a b => decide (a < b)) (ts.filter (t < ·)) with
  | some u => some u
  | none => minBy (fun a b => decide (a < b)) ts

/-- A running challenge by barge and SEQ. -/
def runningOf (s : State) (b : Word) (q : Half) : Option Challenge := s.au.running.find? fun c => c.barge = b && c.seq = q

/-- A running challenge runs no longer. -/
def stopChallenge (s : State) (c : Challenge) : State := updAu s fun a => { a with running := a.running.filter (· ≠ c) }

/-- A challenge whose audit tile is lost (R163): reissued once to another audit tile where RERUN_EN is set, else INCOMPLETE. -/
def loseChallenge (s : State) (c : Challenge) : State :=
  let s := stopChallenge s c
  match if s.flag R.AU_CTRL 1 && !c.reissued then otherTile s c.atile.toNat else none with
  | some t => updAu s fun a => { a with running := a.running ++ [{ c with atile := BitVec.ofNat 5 t, reissued := true }] }
  | none => pruneTiles (incompleteChallenge s c)

/-- An audit tile stops with a fault or is retired: the challenges that run on it are lost (R163). -/
def loseAuditTile (s : State) (l : Nat) : State := (s.au.running.filter (·.atile.toNat = l)).foldl loseChallenge s

/-- An INPUT challenge of the barge still waits for its read. -/
def inputsWait (s : State) (b : Word) : Bool :=
  (s.au.queue ++ s.au.reading.toList).any fun c => c.barge = b && c.method = .input

/-- The audit tile's read of an uncorrectable Hold word is that word's event (R332). -/
def noteBad (s : State) (c : Challenge) : State :=
  match (chalLayer s c).bind (companionBad s c) with
  | some a => holdUncorrectable s a
  | none => s

/-- The check of a complete run (R159, R160): INCOMPLETE where the companion's side could not make it, without SITE_SEED too (R292), else
the first difference. -/
def judgeChallenge (s : State) (c : Challenge) : State :=
  match if s.se.siteSeed.isNone then none else auditCheck s c with
  | none => incompleteChallenge (noteBad (stopChallenge s c) c) c
  | some none => passChallenge (stopChallenge s c) c
  | some (some k) => failChallenge ((stopChallenge s c).setReg R.AU_FAIL_ELEM (BitVec.ofNat 32 k)) c 2 48

/-- AUDIT_TILE_DONE (R159, R160, R162, R163): the challenge's result; a run that still needs the sealed input of its layer goes on. -/
def execAuditTileDone (b : Word) (q : Half) (r : AuditRun) (s : State) : Out :=
  .next (match runningOf s b q with
    | none => s
    | some c => match r with
      | .lost => loseChallenge s c
      | .companionError => pruneTiles (incompleteChallenge (stopChallenge s c) c)
      | .complete => if inputsWait s b then s else pruneTiles (judgeChallenge s c))

/-! ### Coverage (R165, R166) -/

/-- COVERAGE_PUSH: the mean of the last WIN coverages, rounded down; below FLOOR with a full window it raises ES50. Coverages pushed since
the entry was enabled are kept for a WIN that an open raises: 511, the most it can name. -/
def execCoveragePush (i : Initiator) (v : Word) (s : State) : Out :=
  .next (s.keeperWrite i fun s =>
    let e := Fin.ofNat 64 (bits v 5 0)
    let win := s.fld (R.AUn_WIN e) 8 0
    let all := ((v >>> 16).setWidth 16 :: s.au.cover[e]).take 511
    let l := all.take win
    let mean := (l.map BitVec.toNat).sum / max l.length 1
    let s := updAu s fun a => { a with cover := a.cover.set e all }
    let s := s.setReg (R.AUn_COV e) (BitVec.ofNat 32 (mean + 65536 * l.length))
    if win ≤ l.length && mean < s.fld (R.AUn_GOAL e) 31 16 then (s.setBit R.AU_IRQ_STAT 3).raise 50 0 else s)

/-- CAP_WRITE: a write below FLOOR raises ES50. -/
def execCapWrite (i : Initiator) (e : Fin 64) (v : Word) (s : State) : Out :=
  .next (s.keeperWrite i fun s =>
    let s := s.setReg (R.AUn_CAP e) v
    if v.toNat < s.fld (R.AUn_GOAL e) 31 16 then (s.setBit R.AU_IRQ_STAT 3).raise 50 0 else s)

end Sys2Proof.Machine
end

