-- ==== Sys2Proof/Machine/Chamber.lean ====
section
/-! DEFINITION. Machine/Chamber.lean: the Lock chamber's commands (R27, R195 to R213): verdicts, release, pins, the safety SPI
mailbox and the CAN controllers. -/

namespace Sys2Proof.Machine

/-! ### VERDICT_FORM, VERDICT_DEADLINE_MISSED, ABANDON_RECORD -/

/-- The verdict a barge's record would carry now: the one already final, else the decision. -/
def verdictNow (s : State) (x : Barge) : Option Verdict :=
  match if isFinal s x then x.final else none with
  | some f => some ⟨f.1, f.2, f.2 = 1 || f.2 = 2 || f.2 = 3⟩
  | none => decideBarge s x

/-- The lower barge number, by signed difference (R15). -/
def bargeBefore (x y : Barge) : Bool := decide (sdiff x.num y.num < 0)

/-- While the chamber is closed the records of PENDING barges are formed before all others, each group in barge-number order (R29,
R205). -/
def closedBefore (x y : Barge) : Bool :=
  if x.pendRseq.isSome == y.pendRseq.isSome then bargeBefore x y else x.pendRseq.isSome

/-- A lamp barge of the start (R314). -/
def startLamp (s : State) (x : Barge) : Bool := decide (sdiff x.num s.wr.readyNext < 0)

/-- Whether a barge's record may be formed now: a reaction's records go item by item in order (R29, R205), and those of the start's lamps in
barge-number order (R314). -/
def itsTurn (s : State) (x : Barge) : Bool :=
  if startLamp s x then s.barges.all fun y => y.formed || !bargeBefore y x
  else if chamberClosed s then s.barges.all fun y => y.formed || !closedBefore y x
  else if x.namedC2 && !isFinal s x then s.barges.all fun y => y.formed || isFinal s y || !y.namedC2 || !bargeBefore y x
  else true

/-- VERDICT_FORM (R198, R199, R201): the record of a decided barge is formed; formers that differ raise ES61 and the barge is decided
again as ABANDONED; a barge that still waits gets its PENDING record where R201 allows. Records follow the start record (R314). -/
def execVerdictForm (b : Word) (formersDiffer : Bool) (s : State) : Out :=
  .next (s.withBarge b fun x =>
    if x.formed || !s.wr.ready || !itsTurn s x then s
    else if formersDiffer then
      if (verdictNow s x).isSome || pendable s x then
        (s.updBarge b fun x => { x with formerBad := true, final := some (7, 10), finalAt := s.cycle }).raiseFor 61 b
      else s
    else match verdictNow s x with
      | some v => formFinal s b v
      | none => tryPending s b)

/-- VERDICT_DEADLINE_MISSED (R27, R43): the verdict is formed at once from the evidence present. -/
def execVerdictDeadlineMissed (b : Word) (s : State) : Out :=
  .next (s.withBarge b fun x =>
    if x.formed || !s.wr.ready || !missed x.domain s.now x.verdict || !itsTurn s x then s
    else match verdictNow s x with
      | some v => formFinal s b v
      | none => s)

/-- Barges that end ABANDONED and have no record yet; with the chamber closed every barge without a record waits for its turn. -/
def toAbandon (s : State) : List Barge :=
  s.barges.filter fun x => !x.formed && (chamberClosed s || (!isFinal s x && (x.safeState || x.portLeft)))

/-- The next barge to abandon (R29, R205): at C3 and C4 the PENDING ones first, each group in barge-number order. -/
def nextAbandon (s : State) : Option Barge := minBy (if chamberClosed s then closedBefore else bargeBefore) (toAbandon s)

/-- ABANDON_RECORD (R92, R202, R205). -/
def execAbandonRecord (s : State) : Out :=
  .next (if !s.wr.ready then s
    else match nextAbandon s with
      | none => s
      | some x => match verdictNow s x with
        | some v => formFinal s x.num v
        | none => s)

/-! ### Output queues -/

/-- Change a CAN controller. -/
def updCan (s : State) (c : Fin 2) (f : Can → Can) : State :=
  { s with lc := { s.lc with cans := s.lc.cans.set c (f s.lc.cans[c]) } }

/-- Put a waiting frame on an idle bus. -/
def canNext (now : Nat) (c : Can) : Can :=
  match c.onBus, c.busOff, c.queue with
  | none, false, f :: rest => { c with onBus := some f, queue := rest, started := now }
  | _, _, _ => c

/-- A frame enters the queue; a notice goes ahead of every record (R212). -/
def canInsert (f : CanFrame) (q : List CanFrame) : List CanFrame :=
  if f.notice then q.filter (·.notice) ++ [f] ++ q.filter (fun x => !x.notice) else q ++ [f]

/-- Queue a frame; a full queue drops it, counts it and raises ES58 (R212). -/
def canQueue (s : State) (c : Fin 2) (f : CanFrame) (b : Option (List Word)) : State :=
  if s.lc.cans[c].queue.length < 256 then
    updCan s c fun x => canNext s.cycle { x with queue := canInsert f x.queue }
  else ((s.satAdd (R.CANc_LOST c) 31 0 1).setBit R.LC_IRQ_STAT 3).raiseOn 58 0 b

/-- An identifier BASE_ID + k (R212). -/
def canId (s : State) (c : Fin 2) (k : Nat) : BitVec 29 := BitVec.ofNat 29 (s.fld (R.CANc_ID c) 28 0 + k)

/-- Byte 14 of a record, its verdict, and its margin in whole ms clamped to 0-65,535 (R213). -/
def recFailed (r : List Byte) : Byte := (r[14]?).getD 0
def recVerdict (r : List Byte) : Nat := fieldLE r 1 1 % 16
def recMarginMs (r : List Byte) : Nat :=
  let m := (BitVec.ofNat 32 (fieldLE r 36 4)).toInt
  if m < 0 then 0 else min (m.toNat / 1000000) 65535

/-- The SKK-310 legacy frame (Table 09-7a). -/
def legacyBytes (alive : BitVec 4) (r : List Byte) : List Byte :=
  let v := match recVerdict r with | 1 => 1 | 2 => 2 | _ => 3
  let body := [BitVec.ofNat 8 (alive.toNat + 16 * v)] ++ (r.drop 4).take 2 ++ [recFailed r] ++ bytesLE 2 (recMarginMs r) ++ [0]
  body ++ bytesLE 1 (crcPlain crc8 body).toNat

/-- The barges an overflow of a record names. -/
def recBarges (r : Rec) : Option (List Word) := if r.start then none else some [r.barge]

/-- Send a record on a CAN controller (R212, R213). -/
def canRecord (r : Rec) (s : State) (c : Nat) : State :=
  let c := Fin.ofNat 2 c
  let cfg := s.reg (R.CANc_CFG c)
  let ext := s.flag (R.CANc_ID c) 29
  if !cfg.getLsbD 0 then s
  else if cfg.getLsbD 1 then
    if r.isFinal && !r.start && r.net == some (Fin.ofNat 64 (bits cfg 7 2)) then
      let f : CanFrame := ⟨BitVec.ofNat 29 (s.fld (R.CANc_LEG_ID c) 28 0), ext, false, legacyBytes s.lc.cans[c].alive r.bytes, false⟩
      canQueue (updCan s c fun x => { x with alive := x.alive + 1 }) c f (recBarges r)
    else s
  else canQueue s c ⟨canId s c (if r.start then 2 else 1), ext, true, r.bytes, false⟩ (recBarges r)

/-- Queue a record in the SPI mailbox of 1,024; a full one loses it with ES58 (R210). -/
def spiRecord (r : Rec) (s : State) : State :=
  if !s.flag R.SPI_CFG 0 then s
  else if s.lc.records.length < 1024 then { s with lc := { s.lc with records := s.lc.records ++ [r] } }
  else
    let s := { s with lc := { s.lc with mbLost := min (s.lc.mbLost + 1) 0xFFFF, mbLostSeen := true } }
    (s.setBit R.LC_IRQ_STAT 3).raiseOn 58 0 (recBarges r)

/-! ### VALID pins (R207) -/

/-- Change a VALID pin. -/
def updVal (s : State) (v : Fin 4) (f : ValPin → ValPin) : State :=
  { s with lc := { s.lc with valids := s.lc.valids.set v (f s.lc.valids[v]) } }

/-- Whether a record is of the newest barge the pin has seen. -/
def newestFor (p : ValPin) (r : Rec) : Bool :=
  match p.barge with
  | none => true
  | some o => decide (0 ≤ sdiff r.barge o)

/-- One pin follows a released record of its network; an older barge's record never moves it. -/
def valRecord (r : Rec) (s : State) (v : Nat) : State :=
  let v := Fin.ofNat 4 v
  let cfg := s.reg (R.VALv_CFG v)
  if cfg.getLsbD 0 && !r.lamp && !r.start && r.net == some (Fin.ofNat 64 (bits cfg 7 2)) && newestFor s.lc.valids[v] r then
    updVal s v fun _ => ⟨s.safeHigh && (r.pass || (r.pend && cfg.getLsbD 1)), false, some r.barge, s.cycle⟩
  else s

/-- The newest released record of each network, by signed barge-number difference. -/
def noteNewest (r : Rec) (s : State) : State :=
  match r.net, r.lamp || r.start with
  | some n, false =>
    if s.lc.newest.any fun o => o.net = n && decide (sdiff r.barge o.barge < 0) then s
    else { s with lc := { s.lc with newest := ⟨n, r.barge, r.pass, r.pend, s.cycle⟩ :: s.lc.newest.filter (·.net ≠ n) } }
  | _, _ => s

/-- A pin as its configuration and the newest released record of its network give it: after an open that writes VALv_CFG. -/
def valRefresh (s : State) (v : Fin 4) : State :=
  let cfg := s.reg (R.VALv_CFG v)
  match s.lc.newest.find? (·.net = Fin.ofNat 64 (bits cfg 7 2)) with
  | none => updVal s v fun _ => ⟨false, false, none, s.cycle⟩
  | some o =>
    let live := decide (msSince s o.released < bits cfg 23 8)
    updVal s v fun _ => ⟨cfg.getLsbD 0 && s.safeHigh && live && (o.pass || (o.pend && cfg.getLsbD 1)), !live, some o.barge, o.released⟩

/-! ### RECORD_RELEASE (R200) -/

/-- What a final record's release ends: the buffer (R30), the delivery slots (R79), the pairing store (R99), the seal store (R149),
the in-flight entry (R195). Checks that still run report to the log of R28. -/
def endBarge (s : State) (b : Word) : State :=
  let s := ringRelease s b
  let ctxs := s.mr.ctxs.map fun c => { c with slots := c.slots.filter (·.barge ≠ b) }
  { s with
    mr := { s.mr with ctxs := ctxs },
    sn := { s.sn with runs := s.sn.runs.filter fun u => u.barge ≠ b || u.check.isSome },
    lc := { s.lc with gone := s.lc.gone ++ s.barges.filter fun x => x.num = b && x.lamp.isNone && x.stage == .delivered },
    mi := { s.mi with store := s.mi.store.filter (·.barge ≠ b), deadSkip := s.mi.deadSkip.filter (·.1 ≠ b) },
    au := { s.au with store := s.au.store.filter (·.barge ≠ b),
                      tiles := s.au.tiles.filter fun t => t.barge ≠ b || s.au.running.any (·.barge = b),
                      mats := s.au.mats.filter fun t => t.barge ≠ b || s.au.running.any (·.barge = b) },
    barges := s.barges.filter (·.num ≠ b) }

/-- Release one record: every enabled port's queue, the VALID pins, the recorder; a final one ends its barge. -/
def releaseRec (s : State) (r : Rec) : State :=
  let s := foldN 2 (canRecord r) (spiRecord r s)
  let s := logRecord (noteNewest r (foldN 4 (valRecord r) s)) r.bytes
  let s := brakesCheck s
  if r.isFinal && !r.start then endBarge s r.barge else s

/-- RECORD_RELEASE (R200): the oldest formed record, once the companion has been READY (R206, R314). -/
def execRecordRelease (s : State) : Out :=
  .next (if !s.wr.ready then s
    else match s.lc.formed with
      | [] => s
      | r :: rest => releaseRec { s with lc := { s.lc with formed := rest } } r)

/-- The start record (R206): KIND 0x06, BARGE 0, RSEQ 1, START_NONCE and the reset cause of Table 15-7. -/
def startRecord (s : State) : List Byte :=
  let body := padTo 60 ([0x06] ++ List.replicate 7 0 ++ bytesLE 4 1 ++ List.replicate 8 0 ++ bytesLE 8 s.au.startNonce.toNat ++
    [BitVec.ofNat 8 (s.fld R.RST_CAUSE 3 0)])
  body ++ recChk 0 body

/-- The first record of a start goes to every port ahead of any other; the next RSEQ is 2 (R199, R206). -/
def formStart (s : State) : State :=
  let r : Rec := ⟨startRecord s, 0, false, false, false, none, false, 1, true⟩
  ({ s with lc := { s.lc with formed := r :: s.lc.formed } }).setReg R.LC_RSEQ 2

/-- VALID_TIMEOUT (R207): TMO ms have passed since the record that holds the pin high; ES63. -/
def execValidTimeout (v : Fin 4) (s : State) : Out :=
  .next (if s.lc.valids[v].level ∧ s.fld (R.VALv_CFG v) 23 8 ≤ msSince s s.lc.valids[v].released then
    brakesCheck ((updVal s v fun p => { p with level := false, stale := true }).raise 63 0)
  else s)

/-- PIN_READBACK_MISMATCH (R208): a readback differed for more than 8 cycles; ES62. The pin is the syndrome the block reports. -/
def execPinReadbackMismatch (_ : GatePin) (s : State) : Out := .next (s.raise 62 0)

/-! ### The safety SPI port (R209, R210) -/

/-- SPI_CFG.EN: the port answers. -/
def spiOn (s : State) : Bool := s.flag R.SPI_CFG 0

/-- The status and data the next frame will carry; each received frame counts. -/
def spiReply (s : State) (st : BitVec 2) (data : Half) : State :=
  { s with lc := { s.lc with spiSt := st, spiData := data, spiCnt := s.lc.spiCnt + 1 } }

/-- Half-word `i` of a window: byte 2i in [7:0]. -/
def halfAt (bs : List Byte) (i : Nat) : Half := BitVec.ofNat 16 (fieldLE bs (2 * i) 2)

/-- MB_NEXT: 0x0001 loads the oldest unacknowledged record. Any other value, or an empty queue, is refused (log entry 46). -/
def execMbNext (v : Half) (s : State) : Out :=
  .next (if !spiOn s then s
    else match s.lc.records with
      | r :: _ =>
        if v = 1 then spiReply { s with lc := { s.lc with recWin := ⟨r.bytes, some (r.rseq.setWidth 16), 0⟩ } } 0 0 else spiReply s 2 0
      | [] => spiReply s 2 0)

/-- A read of a window of `n` half-words: data and the window with its pointer advanced; beyond the end 0 with ST 2. -/
def winRead (n : Nat) (w : Window) : BitVec 2 × Half × Window :=
  if w.key.isSome ∧ w.ptr < n then (0, halfAt w.bytes w.ptr, { w with ptr := w.ptr + 1 }) else (2, 0, w)

/-- MB_DATA. -/
def execMbData (s : State) : Out :=
  .next (if !spiOn s then s
    else
      let r := winRead 32 s.lc.recWin
      spiReply { s with lc := { s.lc with recWin := r.2.2 } } r.1 r.2.1)

/-- The empty window. -/
def noWindow : Window := ⟨[], none, 0⟩

/-- MB_ACK: RSEQ[15:0] of the windowed record removes it; any other value is refused. -/
def execMbAck (v : Half) (s : State) : Out :=
  .next (if !spiOn s then s
    else if s.lc.recWin.key = some v then
      spiReply { s with lc := { s.lc with records := s.lc.records.tail, recWin := noWindow } } 0 0
    else spiReply s 2 0)

/-- NT_NEXT. -/
def execNtNext (v : Half) (s : State) : Out :=
  .next (if !spiOn s then s
    else match s.lc.notices with
      | n :: _ =>
        if v = 1 then spiReply { s with lc := { s.lc with ntWin := ⟨n.2, some (n.1.setWidth 16), 0⟩ } } 0 0 else spiReply s 2 0
      | [] => spiReply s 2 0)

/-- NT_DATA. -/
def execNtData (s : State) : Out :=
  .next (if !spiOn s then s
    else
      let r := winRead 16 s.lc.ntWin
      spiReply { s with lc := { s.lc with ntWin := r.2.2 } } r.1 r.2.1)

/-- NT_ACK: removes the windowed notice where the queue still holds it. -/
def execNtAck (v : Half) (s : State) : Out :=
  .next (if !spiOn s then s
    else if s.lc.ntWin.key = some v then
      spiReply { s with lc := { s.lc with notices := s.lc.notices.filter (fun n => n.1.setWidth 16 ≠ v), ntWin := noWindow } } 0 0
    else spiReply s 2 0)

/-- MB_TIME_LO (R41, Table 09-7): TIME_NS[15:0], with [31:16] latched for MB_TIME_HI. -/
def execMbTimeLo (s : State) : Out :=
  .next (if !spiOn s then s
    else spiReply { s with lc := { s.lc with timeHi := (s.timeNs >>> 16).setWidth 16 } } 0 (s.timeNs.setWidth 16))

/-- The bytes of a frame's bits [31:8], the first shifted first. -/
def spiBody (w : Word) : List Byte := [(w >>> 24).setWidth 8, (w >>> 16).setWidth 8, (w >>> 8).setWidth 8]

/-- The CRC-8 of a frame (Table 09-4). -/
def spiCrc (w : Word) : Byte := (crcPlain crc8 (spiBody w)).setWidth 8

/-- MB_STAT (Table 09-7): READY, SAFE_N low, records lost since the last read, a notice waiting. -/
def mbStat (s : State) : Half :=
  BitVec.ofNat 16 (bit s.wr.ready + 2 * bit (!s.safeHigh) + 4 * bit s.lc.mbLostSeen + 8 * bit (!s.lc.notices.isEmpty))

/-- The mailbox registers a read of which only returns its value (Table 09-7). -/
def mbPlain (s : State) (a : Nat) : Option Half :=
  match a with
  | 0x00 => some 0x720C
  | 0x02 => some (BitVec.ofNat 16 s.lc.records.length)
  | 0x04 => some (BitVec.ofNat 16 s.lc.recWin.ptr)
  | 0x07 => some (BitVec.ofNat 16 s.lc.mbLost)
  | 0x08 => some (BitVec.ofNat 16 s.lc.notices.length)
  | 0x0C => some (BitVec.ofNat 16 s.lc.ntLost)
  | 0x0D => some (BitVec.ofNat 16 (s.lc.crcErrs + 256 * s.lc.frameErrs))
  | 0x0F => some s.lc.timeHi
  | _ => none

/-- A read of a mailbox register over SPI: a write-only or unassigned address gives ST 2 (R209; log entry 46). -/
def spiRead (a : Nat) (s : State) : Out :=
  match a with
  | 0x01 => .next (spiReply { s with lc := { s.lc with mbLostSeen := false } } 0 (mbStat s))
  | 0x05 => execMbData s
  | 0x0A => execNtData s
  | 0x0E => execMbTimeLo s
  | _ => .next (match mbPlain s a with
    | some v => spiReply s 0 v
    | none => spiReply s 2 0)

/-- A write of a mailbox register over SPI: to a read-only or unassigned address ST 2, no effect (R209). -/
def spiWrite (a : Nat) (v : Half) (s : State) : Out :=
  match a with
  | 0x03 => execMbNext v s
  | 0x06 => execMbAck v s
  | 0x09 => execNtNext v s
  | 0x0B => execNtAck v s
  | _ => .next (spiReply s 2 0)

/-- The 32 bits the next frame shifts out (Table 09-4): ST, FCNT and RDATA of the frame before, and their CRC. -/
def spiMiso (s : State) : Word :=
  let w := BitVec.ofNat 32 (s.lc.spiSt.toNat * 2 ^ 30 + s.lc.spiCnt.toNat * 2 ^ 24 + s.lc.spiData.toNat * 2 ^ 8)
  w ||| (spiCrc w).setWidth 32

/-- SPI_FRAME_BAD (R209): a frame with a CRC error, or one that is not 32 cycles long, has no effect but MB_ERR, the status and ES59.
A frame whose CRC is right acts on the register it names (log entry 88). -/
def execSpiFrameBad (f : SpiFrame) (s : State) : Out :=
  if !spiOn s then .next s
  else match f with
    | .framing => .next ((spiReply { s with lc := { s.lc with frameErrs := min (s.lc.frameErrs + 1) 255 } } 3 0).raise 59 0)
    | .bits w =>
      if spiCrc w ≠ w.setWidth 8 then
        .next ((spiReply { s with lc := { s.lc with crcErrs := min (s.lc.crcErrs + 1) 255 } } 1 0).raise 59 0)
      else if w.getLsbD 31 then spiWrite (bits w 30 24) ((w >>> 8).setWidth 16) s
      else spiRead (bits w 30 24) s

/-! ### CAN (R212) -/

/-- A controller after a frame has left: its transmit error count falls, a bus-off one that recovers starts afresh (log entry 47). -/
def canLeft (c : Can) : Can :=
  let tec := if c.busOff then 0 else if c.tec = 0 then 0 else c.tec - 1
  { c with onBus := none, busOff := false, tec := tec, passive := c.passive && !c.busOff && decide (128 ≤ tec.toNat) }

/-- CAN_FRAME_SENT: the frame on the bus has left; the next one starts. A bus-off controller needs AUTO_REC. -/
def execCanFrameSent (c : Fin 2) (s : State) : Out :=
  .next (let x := s.lc.cans[c]
    if x.busOff then
      if s.flag (R.CANc_CFG c) 8 then updCan s c fun x => canNext s.cycle (canLeft { x with queue := x.queue.tail }) else s
    else if x.onBus.isSome then updCan s c fun x => canNext s.cycle (canLeft x) else s)

/-- CAN_TX_TIMEOUT (R212): the frame on the bus has not left within CANc_TX_TO; ES60. -/
def execCanTxTimeout (c : Fin 2) (s : State) : Out :=
  .next (if s.lc.cans[c].onBus.isSome ∧ usCycles (s.fld (R.CANc_TX_TO c) 15 0) ≤ s.cycle - s.lc.cans[c].started then s.raise 60 0
    else s)

/-- CAN_BUS_OFF (R212): error passive or bus-off; ES60. A frame on the bus waits again. -/
def execCanBusOff (c : Fin 2) (st : CanState) (s : State) : Out :=
  .next (match st with
    | .errorPassive => (updCan s c fun x => { x with passive := true, tec := if x.tec.toNat < 128 then 128 else x.tec }).raise 60 0
    | .busOff => (updCan s c fun x =>
        { x with busOff := true, tec := 255, onBus := none,
                 queue := match x.onBus with | some f => f :: x.queue | none => x.queue }).raise 60 0)

/-- CAN_FRAME_RECEIVED (R212): acknowledged and discarded. -/
def execCanFrameReceived (c : Fin 2) (s : State) : Out :=
  .next (updCan s c fun x => { x with rec_ := if x.rec_ = 0 then 0 else x.rec_ - 1 })

/-! ### Closure (R205) -/

/-- SAFE_N is low: the chamber closes until the next READY, and every barge without a final verdict ends ABANDONED, a lamp's result with
it. -/
def closeChamber (s : State) : State :=
  let open_ := (s.barges.filter (!isFinal s ·)).map (·.num)
  let s := { s with lc := { s.lc with closed := true }, barges := s.barges.map (named s fun x => { x with safeState := true }) }
  open_.foldl (fun s b => giveLamp s b 7) s

/-- The VALID pins fall with SAFE_N (R207), the brakes follow (R264), and the chamber closes (R205). -/
def pinsFollow (s : State) : State :=
  brakesCheck (if s.safeHigh then s
    else
      let s := { s with lc := { s.lc with valids := s.lc.valids.map fun p => { p with level := false } } }
      if s.wr.ready then closeChamber s else s)

/-! ### Notices (R211) -/

/-- A notice's bytes (Table 09-5). -/
def noticeBytes (cls : Nat) (src : BitVec 7) (now : Stamp) (first last nseq : Word) : List Byte :=
  let body := [0x07, BitVec.ofNat 8 cls, src.setWidth 8, 0] ++ bytesLE 4 now.t.toNat ++ bytesLE 4 now.s.toNat ++
    bytesLE 4 first.toNat ++ bytesLE 4 last.toNat ++ bytesLE 4 nseq.toNat ++ [0, 0, 0, 0]
  body ++ recChk nseq body

/-- A notice on a CAN controller: BASE_ID + 0, a 32-byte frame (R212); legacy controllers send none (R213). -/
def canNotice (bs : List Byte) (s : State) (c : Nat) : State :=
  let c := Fin.ofNat 2 c
  if s.flag (R.CANc_CFG c) 0 && !s.flag (R.CANc_CFG c) 1 then
    canQueue s c ⟨canId s c 0, s.flag (R.CANc_ID c) 29, true, bs, true⟩ none
  else s

/-- Form a notice: the queue of 16 drops its oldest when full (R211). -/
def formNotice (s : State) (cls : Nat) (src : BitVec 7) (first last : Word) : State :=
  let n := s.reg R.LC_NSEQ
  let bs := noticeBytes cls src s.now first last n
  let s := s.setReg R.LC_NSEQ (State.nextSeq n)
  let full := 16 ≤ s.lc.notices.length
  let q := if full then s.lc.notices.tail else s.lc.notices
  let s := { s with lc := { s.lc with notices := q ++ [(n, bs)], ntLost := if full then min (s.lc.ntLost + 1) 0xFFFF else s.lc.ntLost } }
  logNotice (foldN 2 (canNotice bs) s) bs

end Sys2Proof.Machine
end

