-- ==== Sys2Proof/Machine/Sluice.lean ====
section
/-! DEFINITION. Machine/Sluice.lean: receivers, streams, frame checks and the assembling of barges (R53 to R70). -/

namespace Sys2Proof.Machine

/-! ### Streams -/

/-- Change a stream. -/
def updStr (s : State) (i : Fin 32) (f : Stream → Stream) : State :=
  { s with sl := { s.sl with streams := s.sl.streams.set i (f s.sl.streams[i]) } }

/-- SL_CTRL.EN and STRs_CFG.EN. -/
def strOn (s : State) (i : Nat) : Bool := s.flag R.SL_CTRL 0 && s.flag (R.STRs_CFG i) 0

/-- STRs_CFG.KIND: Ethernet. -/
def isEth (s : State) (i : Nat) : Bool := s.flag (R.STRs_CFG i) 1

/-- The enabled streams of a receiver or port. -/
def streamsOf (s : State) (eth : Bool) (port : Nat) : List Nat :=
  (List.range 32).filter fun i => strOn s i && isEth s i == eth && s.fld (R.STRs_CFG i) 4 2 == port

/-- The warming count W (R60). -/
def warmCount (s : State) (i : Nat) : Nat :=
  if s.fld (R.STRs_CFG i) 19 16 = 0 then s.fld R.SL_CTRL 7 4 else s.fld (R.STRs_CFG i) 19 16

/-- The stream restarts: its next frame that is no retransmission is the restarting frame, and the next W accepted frames are warming
(R59, R60). -/
def dueRestart (s : State) (quiet : Bool) (i : Nat) : State :=
  updStr s (Fin.ofNat 32 i) fun x =>
    { x with restartDue := true, restartQuiet := quiet && (x.restartQuiet || !x.restartDue), warmLeft := warmCount s i }

/-- The data types of Table 03-1, by their CSI-2 codes: YUV422 8-bit, RGB888, RAW8 to RAW16, embedded data, user-defined 0x30 to 0x37
(log entry 89). -/
def supportedType (dt : Nat) : Bool := [0x12, 0x1E, 0x24, 0x2A, 0x2B, 0x2C, 0x2D, 0x2E].contains dt || decide (0x30 ≤ dt ∧ dt ≤ 0x37)

/-- The bytes of a sensor Ethernet frame on the link: addresses, type, tag, IP and UDP headers, payload, FCS (log entry 89). -/
def ethBytes (f : EthFrame) : Nat := 18 + 4 * bit f.vlan.isSome + 28 * bit f.udpPort.isSome + f.payload.length

/-- Count a discarded packet or frame of a receiver or port. -/
def countDiscard (s : State) (eth : Bool) (port : Nat) : State :=
  if eth then s.satAdd (R.ETHe_ERRCNT port) 31 0 1 else s.satAdd (R.CSIc_ERRCNT port) 31 0 1

/-- Frames accepted: OK, SEQ_GAP and RESTARTED (Table 03-3). -/
def acceptedStatus : FrameStatus → Bool
  | .ok => true
  | .seqGap => true
  | .restarted => true
  | _ => false

/-- The source of a status (R56 to R59). -/
def statusSource (eth : Bool) : FrameStatus → Option Nat
  | .linkBad => some (if eth then 20 else 16)
  | .hdrBad => some 18
  | .segBad => some 18
  | .lenBad => some 18
  | .checkBad => some 18
  | .seqRepeat => some 17
  | .seqGap => some 17
  | .stampBad => some 19
  | _ => none

/-- An event of a stream, on its channel; Lantern counts it on the unit of its receivers or ports (Table 20-2). -/
def strEvent (s : State) (i es : Nat) : State := (lnErr s (if isEth s i then 55 else 54)).raise es i

/-- The error a status raises, on the stream's channel. -/
def raiseStatus (s : State) (i : Nat) (eth : Bool) (st : FrameStatus) : State :=
  match statusSource eth st with
  | some es => strEvent s i es
  | none => s

/-! ### Placement (R61) -/

/-- The enabled set that lists a stream. -/
def setOf (s : State) (i : Nat) : Option Nat :=
  (List.range 16).find? fun k => s.flag (R.SETk_CFG k) 0 && s.flag (R.SETk_MEMBERS k) i

/-- A barge still Assembling. -/
def assembling (s : State) (x : Barge) : Bool := x.stage == .assembling && !isFinal s x && !x.safeState

/-- The Assembling barges of a set, oldest first. -/
def assemblingOf (s : State) (k : Nat) : List Barge := s.barges.filter fun x => assembling s x && x.set.val = k

/-- The member of a stream in a barge. -/
def memberOf (x : Barge) (i : Nat) : Option Member := x.members.find? fun m => m.stream.val = i

/-- Whether the barge's assembly deadline is reached: either bound (R20). -/
def asmPast (s : State) (x : Barge) : Bool := missed .both s.now x.asm

/-- A failed member's barge that a new frame may replace (R61 rule 1); `cnt` is an Ethernet frame's FRAME_CNT. -/
def replaceable (s : State) (i : Nat) (cnt : Option Word) (x : Barge) : Bool :=
  match memberOf x i with
  | none => false
  | some m => match m.status with
    | none => false
    | some st => !acceptedStatus st && !asmPast s x &&
        (s.flag (R.STRs_CFG i) 15 || (s.flag (R.STRs_CFG i) 28 && cnt == some m.cnt))

/-- Whether a frame is a candidate retransmission of the member it replaces (R57, R61). -/
def isRetx (s : State) (i : Nat) (cnt : Option Word) (x : Barge) : Bool :=
  s.flag (R.STRs_CFG i) 28 && (match memberOf x i with | some m => cnt == some m.cnt | none => false)

/-- The barge whose failed member a new frame replaces: the one whose FRAME_CNT it carries first (R61 rule 1). -/
def replacedIn (s : State) (k i : Nat) (cnt : Option Word) : Option Barge :=
  match (assemblingOf s k).find? fun x => replaceable s i cnt x && isRetx s i cnt x with
  | some x => some x
  | none => (assemblingOf s k).find? (replaceable s i cnt)

/-- A barge that lacks the member and whose origin lies no more than SKEW before now (R61 rule 2). -/
def joinable (s : State) (k i : Nat) (x : Barge) : Bool :=
  (memberOf x i).isNone && decide (sdiff s.now.t x.origin.t ≤ 1000 * (s.fld (R.SETk_SKEW k) 15 0 : Int))

/-- Put a member that has begun to arrive into a barge. -/
def placeMember (s : State) (b : Word) (i : Fin 32) : State :=
  s.updBarge b fun x =>
    { x with members := x.members.filter (fun m => m.stream ≠ i) ++ [⟨i, none, false, 0, s.now, [], []⟩] }

/-- The replacement of a failed frame is the retry of its source, which opens that source's mask (R229, R236). -/
def retryMask (s : State) (x : Barge) (i : Fin 32) : State :=
  match (memberOf x i).bind (·.status) with
  | none => s
  | some st => match statusSource (isEth s i) st with
    | none => s
    | some es => openMask s es i

/-- A third Assembling barge would open: the oldest closes FAIL with ES21. -/
def overrun (s : State) (k : Nat) : State :=
  match assemblingOf s k with
  | x :: _ :: _ => failSet s x.num
  | _ => s

/-- Place a start of frame (R61): the barge it goes to, if any, and whether it is a candidate retransmission. -/
def placeFrame (s : State) (i : Fin 32) (cnt : Option Word) : Option Word × Bool × State :=
  match setOf s i with
  | none => (none, false, s)
  | some k => match netOfSet s k with
    | none => (none, false, s)
    | some x =>
      if s.sl.suspended || !s.wr.ready then (none, false, s)
      else match replacedIn s k i cnt with
        | some b => (some b.num, isRetx s i cnt b, placeMember (retryMask s b i) b.num i)
        | none => match (assemblingOf s k).find? (joinable s k i) with
          | some b => (some b.num, false, placeMember s b.num i)
          | none =>
            let o := openBarge (overrun s k) (Fin.ofNat 16 k) x s.now
            (some o.1, false, placeMember o.2 o.1 i)

/-- A frame begins (R18, R61). -/
def startFrame (s : State) (i : Fin 32) (header : Option (List Byte)) (cnt : Option Word) (stamp : DWord) : State :=
  let p := placeFrame s i cnt
  let asm := match p.1.bind p.2.2.barge? with | some x => x.asm | none => s.now
  updStr p.2.2 i fun x =>
    { x with frame := some ⟨s.timeNs, s.now, p.1, [], header, none, 0, cnt.getD 0, stamp, p.2.1, asm⟩ }

/-! ### Header and status (R55 to R60, R445) -/

/-- Fields of the end-to-end header (Table 03-2), most significant byte first. -/
def hdrLast (h : List Byte) : Bool := ((h[3]?).getD 0).getLsbD 0
def hdrRestart (h : List Byte) : Bool := ((h[3]?).getD 0).getLsbD 1
def hdrSegment (h : List Byte) : Nat := fieldBE h 6 2
def hdrCnt (h : List Byte) : Word := BitVec.ofNat 32 (fieldBE h 8 4)
def hdrStamp (h : List Byte) : DWord := BitVec.ofNat 64 (fieldBE h 12 8)
def hdrLen (h : List Byte) : Nat := fieldBE h 20 4

/-- MAGIC, VER, STREAM_ID and the reserved fields are right, and the header is 32 bytes. -/
def hdrOk (s : State) (i : Nat) (h : List Byte) : Bool :=
  h.length == 32 && fieldBE h 0 2 == 0x534B && fieldBE h 2 1 == 1 && fieldBE h 3 1 < 4 &&
  fieldBE h 4 2 == s.fld (R.STRs_ID i) 15 0 && fieldBE h 28 4 == 0

/-- CHECK: CRC-32C, FRAME_CNT folded first, over header bytes 0-23 and the payload. -/
def checkOk (h payload : List Byte) : Bool :=
  fieldBE h 24 4 == (crcNative crc32c (hdrCnt h) (h.take 24 ++ payload)).toNat

/-- The link and header checks of a finished CSI-2 frame; LAST and SEGMENT must be as Table 03-2 says. -/
def csiStatus (s : State) (i : Nat) (f : Frame) : FrameStatus :=
  match f.bad, f.header with
  | some b, _ => b
  | none, none => .hdrBad
  | none, some h =>
    if !hdrOk s i h || !hdrLast h || hdrSegment h ≠ 0 then .hdrBad
    else if hdrLen h ≠ f.payload.length then .lenBad
    else if !checkOk h f.payload then .checkBad
    else .ok

/-- The stamp test of R58 over `d` frame periods. -/
def stampOk (s : State) (i : Nat) (x : Stream) (f : Frame) (d : Nat) : Bool :=
  let ds := (f.stamp - x.lastStamp).toInt
  let da := (f.sofTime - x.lastSof).toInt
  decide ((d * s.fld (R.STRs_PER i) 15 0 * 10000 : Nat) ≤ ds ∧ ds ≤ (d * s.fld (R.STRs_PER i) 31 16 * 10000 : Nat) ∧
    (ds - da).natAbs ≤ 1000 * s.fld (R.STRs_TOL i) 15 0)

/-- The sequence checks of a frame that has passed the others: status, lost frames, restart (R57 to R59). -/
structure SeqResult where
  status : FrameStatus
  lost : Nat
  es17 : Bool
  deriving DecidableEq, Repr

/-- R57 to R59 for a frame whose header asks for a restart or not: a RESTART flag restarts the stream even on a retransmission. A restart that
is due is one with it, so that where it is due without ES17 the flag raises none (DESIGN CHOICE, log entry 89). -/
def seqCheck (s : State) (i : Nat) (x : Stream) (f : Frame) (restart : Bool) : SeqResult :=
  let d := (f.cnt - x.lastCnt).toNat
  let gap := s.fld (R.STRs_CFG i) 27 20 + 1
  if f.retx && !restart then ⟨.ok, 0, false⟩
  else if x.restartDue then ⟨.restarted, 0, !x.restartQuiet⟩
  else if restart then ⟨.restarted, 0, true⟩
  else if d = 0 then ⟨.seqRepeat, 0, false⟩
  else if gap < d ∧ d ≠ 1 then ⟨.restarted, 0, true⟩
  else if !stampOk s i x f d then ⟨.stampBad, 0, false⟩
  else if d = 1 then ⟨.ok, 0, false⟩
  else ⟨.seqGap, d - 1, false⟩

/-- Warming frames still to come, a frame that passed the sequence checks included: W where the frame itself restarts the stream (R60). -/
def warmBefore (w : Nat) (r : SeqResult) (x : Stream) : Nat := if r.status = .restarted && !x.restartDue then w else x.warmLeft

/-- The stream after a frame that passed the sequence checks: last values, warming count (R57, R60, R445). A restart that is due waits
for the next frame that is no retransmission. -/
def seqUpdate (w : Nat) (r : SeqResult) (f : Frame) (x : Stream) : Stream :=
  let ahead := !f.retx || r.status == .restarted || decide (0 < sdiff f.cnt x.lastCnt)
  let left := warmBefore w r x
  { x with lastCnt := if ahead then f.cnt else x.lastCnt, lastStamp := if ahead then f.stamp else x.lastStamp,
           lastSof := if ahead then f.sofTime else x.lastSof,
           restartDue := r.status != .restarted && x.restartDue, restartQuiet := r.status != .restarted && x.restartQuiet,
           lost := min (x.lost + r.lost) 0xFFFF, warmLeft := left - 1 }

/-- Whether a frame that finishes now is one of the warming frames. -/
def isWarm (w : Nat) (r : SeqResult) (x : Stream) : Bool := decide (0 < warmBefore w r x)

/-- Record a frame's status in its barge's member. -/
def memberDone (s : State) (i : Fin 32) (f : Frame) (st : FrameStatus) (warm : Bool) : State :=
  match f.barge with
  | none => s
  | some b => s.updBarge b fun x => { x with members := x.members.map fun m =>
      if m.stream = i then { m with status := some st, warm := warm, cnt := f.cnt, header := f.header.getD [], payload := f.payload } else m }

/-- Every member of the barge's set has arrived and passed (R19). -/
def setComplete (s : State) (x : Barge) : Bool :=
  (List.range 32).all fun i => !s.flag (R.SETk_MEMBERS x.set) i ||
    (match memberOf x i with
     | some m => (match m.status with | some st => acceptedStatus st | none => false)
     | none => false)

/-- Close the set of a frame's barge where it is complete. -/
def tryClose (s : State) (f : Frame) (env : CloseEnv) : State :=
  match f.barge with
  | none => s
  | some b => s.withBarge b fun x => if assembling s x && setComplete s x then closeSet s b env else s

/-- Whether a frame ends after its barge's assembly deadline (LATE). -/
def frameLate (s : State) (f : Frame) : Bool := f.barge.isSome && missed .both s.now f.asm

/-- A frame that fails a check before the sequence checks, or a sequence check. -/
def frameFails (s : State) (i : Fin 32) (f : Frame) (st : FrameStatus) : State :=
  let s := updStr s i fun x => { x with frame := none, last := st }
  let s := (s.satAdd (R.STRs_ERRCNT i) 31 0 1).setBit R.SL_IRQ_STAT 0
  memberDone (raiseStatus s i (isEth s i) st) i f st false

/-- Finish a frame whose link, header and check results stand: sequence, lateness, then its barge (R57 to R60, R63, R445). -/
def finishFrame (s : State) (i : Fin 32) (f : Frame) (st : FrameStatus) (env : CloseEnv) : State :=
  if st ≠ .ok then frameFails s i f st
  else
    let x := s.sl.streams[i]
    let w := warmCount s i
    let r := seqCheck s i x f (hdrRestart (f.header.getD []))
    if !acceptedStatus r.status then frameFails s i f r.status
    else
      let warm := isWarm w r x
      let late := frameLate s f
      let s := updStr s i fun x => seqUpdate w r f { x with frame := none, last := if late then .late else r.status }
      let s := if r.es17 || r.status == .seqGap then strEvent s i 17 else s
      let s := if r.status = .restarted then s.setBit R.SL_IRQ_STAT 1 else s
      if late then memberDone ((s.satAdd (R.STRs_ERRCNT i) 31 0 1).setBit R.SL_IRQ_STAT 0) i f .late warm
      else tryClose (memberDone s i f r.status warm) f env

/-- A frame of a retired stream: RETIRED at once, no Beacon source (R56, R68). It counts as a failed frame and sets no FRAME_ERR
(log entry 89). -/
def frameRetired (s : State) (i : Fin 32) : State :=
  let s' := (updStr s i fun x => { x with frame := none, last := .retired }).satAdd (R.STRs_ERRCNT i) 31 0 1
  match s.sl.streams[i].frame with
  | some f => memberDone s' i f .retired false
  | none => s'

/-- No set close meets an error. -/
def calm : CloseEnv := ⟨false, false⟩

/-! ### CSI-2 -/

/-- An enabled CSI-2 stream of an enabled receiver. -/
def csiOn (s : State) (i : Nat) : Bool := strOn s i && !isEth s i && s.flag (R.CSIc_CFG (s.fld (R.STRs_CFG i) 4 2)) 0

/-- CSI_FRAME_START (R56, R61): a frame without Frame End ends LINK_BAD first. -/
def execCsiFrameStart (i : Fin 32) (s : State) : Out :=
  .next (if !csiOn s i then s
    else if s.sl.streams[i].retired then frameRetired s i
    else
      let s := match s.sl.streams[i].frame with
        | some f => finishFrame s i f .linkBad calm
        | none => s
      startFrame s i none none 0)

/-- Mark a frame in progress with its first failure. -/
def markBad (st : FrameStatus) (x : Stream) : Stream :=
  { x with frame := x.frame.map fun f => { f with bad := match f.bad with | none => some st | some b => some b } }

/-- A stream takes a packet as its payload: its own data type, of those supported (R53). -/
def isPayload (s : State) (p : CsiPacket) (i : Nat) : Bool := s.fld (R.STRs_CFG i) 14 9 == p.dt.toNat && supportedType p.dt.toNat

/-- A 0x12 packet, which is the header until another packet takes its place. -/
def seatHeader (h : List Byte) (f : Frame) : Frame := { f with header := some h, cnt := hdrCnt h, stamp := hdrStamp h }

/-- A frame with a packet of its data type: payload. Where that type is 0x12 itself, the packet before turns out to be payload and this one
is the header so far (R55). -/
def takePayload (p : CsiPacket) (f : Frame) : Frame :=
  if p.dt = 0x12 then seatHeader p.payload { f with payload := f.payload ++ f.header.getD [] }
  else { f with payload := f.payload ++ p.payload, header := none }

/-- A packet's effect on one stream of its virtual channel: payload, header, or another data type (R55, R56). The 0x12 packet that no
payload packet follows is the header; a discarded packet after it does not unseat it, and what is wrong with a packet of neither type does not
make the frame LINK_BAD (DESIGN CHOICE, log entry 89). -/
def csiPacketOn (rx : Fin 8) (p : CsiPacket) (s : State) (i : Nat) : State :=
  let k := Fin.ofNat 32 i
  let x := s.sl.streams[k]
  let bad := p.ecc == .uncorrectable || p.crcBad
  let payload := isPayload s p i
  let f := if payload then takePayload p else seatHeader p.payload
  if x.retired then s
  else if payload && x.frame.isNone then
    strEvent (updStr (countDiscard s false rx) k fun x => { x with last := .linkBad }) i 16
  else if payload || p.dt == 0x12 then
    let s := updStr s k fun x => { x with frame := x.frame.map f }
    if bad then updStr s k (markBad .linkBad) else s
  else s

/-- Whether no stream on the packet's channel takes it: another data type, or a header outside a frame. -/
def csiUnused (s : State) (p : CsiPacket) (on : List Nat) : Bool :=
  on.all fun i => !isPayload s p i && (p.dt != 0x12 || s.sl.streams[Fin.ofNat 32 i].frame.isNone)

/-- Whether a frame in progress takes the packet. -/
def csiTaken (s : State) (p : CsiPacket) (on : List Nat) : Bool :=
  on.any fun i => (isPayload s p i || p.dt == 0x12) && s.sl.streams[Fin.ofNat 32 i].frame.isSome

/-- The 0x12 packets seated as headers in frames of streams of another data type, each once. -/
def seated (s : State) (on : List Nat) : List (List Byte) :=
  ((on.filter fun i => s.fld (R.STRs_CFG i) 14 9 != 0x12).filterMap fun i => s.sl.streams[Fin.ofNat 32 i].frame.bind (·.header)).eraseDups

/-- Seated packets that a packet unseats turn out to be no headers, and are discarded and counted (R55). -/
def countUnseated (rx : Fin 8) (p : CsiPacket) (on : List Nat) (before : List (List Byte)) (s : State) : State :=
  let now := if p.dt = 0x12 then [] else seated s on
  foldN (before.filter (!now.contains ·)).length (fun s _ => countDiscard s false rx) s

/-- CSI_LONG_PACKET (R54 to R56). -/
def execCsiLongPacket (rx : Fin 8) (p : CsiPacket) (s : State) : Out :=
  .next (if !s.flag R.SL_CTRL 0 || !s.flag (R.CSIc_CFG rx) 0 then s
    else
      let s := match p.ecc with
        | .clean => s
        | .corrected => s.setBit (R.CSIc_STAT rx) 1
        | .uncorrectable => s.setBit (R.CSIc_STAT rx) 2
      let s := if p.crcBad then s.setBit (R.CSIc_STAT rx) 3 else s
      let on := (streamsOf s false rx).filter fun i => s.fld (R.STRs_CFG i) 8 5 == p.vc.toNat
      let s := if csiUnused s p on then countDiscard s false rx else s
      let s := if csiTaken s p on then lnBytes s 54 p.payload.length 0 else s
      countUnseated rx p on (seated s on) (on.foldl (csiPacketOn rx p) s))

/-- CSI_FRAME_END (R56, R57, R63): without a frame it is discarded and counted, LINK_BAD in LAST, one ES16. -/
def execCsiFrameEnd (i : Fin 32) (env : CloseEnv) (s : State) : Out :=
  .next (if !csiOn s i || s.sl.streams[i].retired then s
    else match s.sl.streams[i].frame with
      | some f => finishFrame s i f (csiStatus s i f) env
      | none =>
        strEvent (updStr (countDiscard s false (s.fld (R.STRs_CFG i) 4 2)) i fun x => { x with last := .linkBad }) i 16)

/-! ### Sensor Ethernet -/

/-- The port's own MAC address. -/
def portMac (s : State) (e : Nat) : Nat := (s.reg (R.ETHe_MAC_LO e)).toNat + 2 ^ 32 * s.fld (R.ETHe_MAC_HI e) 15 0

/-- Whether a frame belongs to the flow of a stream (R54). -/
def flowMatch (s : State) (f : EthFrame) (i : Nat) : Bool :=
  let flow := s.reg (R.STRs_FLOW i)
  f.dstMac.toNat == portMac s f.port &&
  (!flow.getLsbD 28 || f.vlan == some (BitVec.ofNat 12 (bits flow 27 16))) &&
  (if flow.getLsbD 29 then f.udpPort == some (BitVec.ofNat 16 (bits flow 15 0)) else f.etherType.toNat == bits flow 15 0)

/-- The enabled stream a sensor Ethernet frame belongs to; pause frames and frames above 9,216 bytes belong to none (Table 03-1). Of two that it
matches, the one of lowest number (DESIGN CHOICE, log entry 89). -/
def flowOf (s : State) (f : EthFrame) : Option Nat :=
  if f.etherType = 0x8808 ∨ 9216 < ethBytes f then none else (streamsOf s true f.port).find? (flowMatch s f)

/-- The first check a segment fails (R56), against the frame in progress. -/
def segStatus (s : State) (i : Nat) (e : EthFrame) (f : Frame) : Option FrameStatus :=
  let h := e.payload.take 32
  let body := e.payload.drop 32
  if e.fcsBad || e.pcsBad then some .linkBad
  else if !hdrOk s i h then some .hdrBad
  else if hdrSegment h ≠ f.nextSeg ∨ hdrCnt h ≠ f.cnt ∨ hdrStamp h ≠ f.stamp then some .segBad
  else if hdrLen h ≠ body.length then some .lenBad
  else if !checkOk h body then some .checkBad
  else none

/-- Take a segment into the frame in progress; LAST ends the frame. -/
def takeSegment (s : State) (i : Fin 32) (e : EthFrame) (env : CloseEnv) : State :=
  match s.sl.streams[i].frame with
  | none => s
  | some f =>
    let st := match f.bad with | some b => some b | none => segStatus s i e f
    let f := { f with bad := st, nextSeg := f.nextSeg + 1, payload := f.payload ++ e.payload.drop 32 }
    if hdrLast (e.payload.take 32) then finishFrame s i f (f.bad.getD .ok) env
    else updStr s i fun x => { x with frame := some f }

/-- Link errors a frame shows on its port. -/
def ethErrors (s : State) (e : EthFrame) : State :=
  let s := if e.fcsBad then s.setBit (R.ETHe_STAT e.port) 1 else s
  if e.pcsBad then s.setBit (R.ETHe_STAT e.port) 2 else s

/-- ETH_SEGMENT (R54 to R57, R61): segment 0 ends an unfinished frame SEG_BAD and starts a new one; a later segment without a frame
is discarded, SEG_BAD in LAST, one ES18, and so is one too short to show segment 0 (log entry 89); a frame of no stream is discarded and
counted. -/
def execEthSegment (e : EthFrame) (env : CloseEnv) (s : State) : Out :=
  .next (if !s.flag R.SL_CTRL 0 || !s.flag (R.ETHe_CFG e.port) 0 then s
    else
      let s := ethErrors s e
      match flowOf s e with
      | none => countDiscard s true e.port
      | some i =>
        let k := Fin.ofNat 32 i
        let s := lnBytes s 55 (ethBytes e) 0
        let h := e.payload.take 32
        let first := decide (32 ≤ e.payload.length) && hdrSegment h == 0
        if s.sl.streams[k].retired then (if first then frameRetired s k else s)
        else if first then
          let s := match s.sl.streams[k].frame with
            | some f => finishFrame s k f (f.bad.getD .segBad) calm
            | none => s
          takeSegment (startFrame s k (some h) (some (hdrCnt h)) (hdrStamp h)) k e env
        else if s.sl.streams[k].frame.isSome then takeSegment s k e env
        else strEvent (updStr (countDiscard s true e.port) k fun x => { x with last := .segBad }) i 18)

/-- ETH_UNMATCHED_FRAME (R54): discarded and counted; no Beacon source. -/
def execEthUnmatchedFrame (e : EthFrame) (s : State) : Out :=
  .next (if !s.flag R.SL_CTRL 0 || !s.flag (R.ETHe_CFG e.port) 0 || (flowOf s e).isSome then s else countDiscard s true e.port)

/-! ### Links, restarts, deadlines -/

/-- A receiver's lock or a port's link. -/
def linkState (s : State) (p : SensorPort) : LinkState :=
  match p with
  | .csi c => s.sl.csiLock[c]
  | .eth e => s.sl.ethLink[e]

/-- Set a receiver's lock or a port's link. -/
def setLink (s : State) (p : SensorPort) (l : LinkState) : State :=
  match p with
  | .csi c => { s with sl := { s.sl with csiLock := s.sl.csiLock.set c l } }
  | .eth e => { s with sl := { s.sl with ethLink := s.sl.ethLink.set e l } }

/-- The streams of a receiver or port. -/
def linkStreams (s : State) (p : SensorPort) : List Nat :=
  match p with
  | .csi c => streamsOf s false c
  | .eth e => streamsOf s true e

/-- LINK_REGAIN (R59): after a loss every stream of the receiver or port restarts at its next frame, and ES17 asserts with that frame, not with
the regain (DESIGN CHOICE, log entry 89). -/
def execLinkRegain (p : SensorPort) (s : State) : Out :=
  .next (
    let t := setLink s p .up
    if linkState s p = .lost then (linkStreams s p).foldl (fun s i => dueRestart s false i) t else t)

/-- SENSOR_LINK_LOSS (R56, Table 03-6): frames in progress are LINK_BAD; ES16 or ES20 on each stream of the receiver or port. -/
def execSensorLinkLoss (p : SensorPort) (s : State) : Out :=
  .next (
    let s := setLink s p .lost
    let s := match p with | .csi c => s.setBit (R.CSIc_STAT c) 0 | .eth e => s.setBit (R.ETHe_STAT e) 0
    let es := match p with | .csi _ => 16 | .eth _ => 20
    (linkStreams s p).foldl (fun s i =>
      if s.sl.streams[Fin.ofNat 32 i].retired then s
      else strEvent (updStr s (Fin.ofNat 32 i) (markBad .linkBad)) i es) s)

/-- STR_RESTART (R59): a Keeper write of 1 restarts the stream without ES17. -/
def execStrRestart (i : Initiator) (k : Fin 32) (v : Word) (s : State) : Out :=
  .next (s.keeperWrite i fun s => if v = 1 then dueRestart s true k else s)

/-- An Ethernet frame of the barge whose LAST has not arrived takes status LATE at the deadline, unless a segment has failed (R56). The deadline
is the frame's own: its barge may have closed and be gone. -/
def lateFrames (s : State) (b : Word) : State :=
  foldN 32 (fun s i =>
    let k := Fin.ofNat 32 i
    match s.sl.streams[k].frame with
    | some f => if isEth s i && f.barge == some b && frameLate s f then finishFrame s k f (f.bad.getD .ok) calm else s
    | none => s) s

/-- ASSEMBLY_DEADLINE (R20, R56): a barge with a member missing or failed ends FAIL on the Sluice kind; ES21. -/
def execAssemblyDeadline (b : Word) (s : State) : Out :=
  .next (
    let t := lateFrames s b
    match s.barge? b with
    | some x => if asmPast s x && assembling s x then failSet t b else t
    | none => t)

/-- The real barges held behind the slot. -/
def heldBarges (s : State) : List Barge := s.barges.filter fun x => x.stage == .held && x.lamp.isNone && !isFinal s x

/-- The barge numbers of a list in rising order (R15), by selection. -/
def inOrder : Nat → List Barge → List Word
  | 0, _ => []
  | n + 1, xs => match minBy (fun x y => decide (sdiff x.num y.num < 0)) xs with
    | none => []
    | some x => x.num :: inOrder n (xs.filter (·.num ≠ x.num))

/-- LAMP_SLOT_END (R67): the held barges are delivered in barge-number order, then a lamp that waited starts its slot. -/
def execLampSlotEnd (s : State) : Out :=
  .next (match s.sl.slotEnd with
    | none => s
    | some e =>
      if s.cycle < e then s
      else
        let s := { s with sl := { s.sl with slotEnd := none } }
        let s := (inOrder (heldBarges s).length (heldBarges s)).foldl deliver s
        match s.sl.lampWait with
        | [] => s
        | (b, slot) :: rest => startSlot { s with sl := { s.sl with lampWait := rest } } b slot)

/-- Every stream restarts under R59 without ES17: Sluice resumes (R69), or a port enters SERVING (R92). -/
def restartAll (s : State) (p : Nat → Bool) : State := foldN 32 (fun s i => if p i then dueRestart s true i else s) s

end Sys2Proof.Machine
end

