-- ==== Sys2Proof/Machine/Sm2.lean ====
section
/-! DEFINITION. Machine/Sm2.lean: SM2 on the recommended 256-bit curve of GB/T 32918.5 over SM3 (R284): keys, signatures, and decryption
of C1, C3, C2. The curve's numbers and the algorithms are those of the standard, which the manual names (log entry 99). -/

namespace Sys2Proof.Machine.Sm2

/-! ### The curve -/

/-- The field's prime, the coefficients, the order and the base point. -/
def p : Nat := 0xFFFFFFFEFFFFFFFFFFFFFFFFFFFFFFFFFFFFFFFF00000000FFFFFFFFFFFFFFFF
def a : Nat := 0xFFFFFFFEFFFFFFFFFFFFFFFFFFFFFFFFFFFFFFFF00000000FFFFFFFFFFFFFFFC
def b : Nat := 0x28E9FA9E9D9F5E344D5A9E4BCF6509A7F39789F515AB8F92DDBCBD414D940E93
def order : Nat := 0xFFFFFFFEFFFFFFFFFFFFFFFFFFFFFFFF7203DF6B21C6052B53BBF40939D54123
def gx : Nat := 0x32C4AE2C1F1981195F9904466A39C9948FE30BBFF2660BE1715A4589334C74C7
def gy : Nat := 0xBC3736A2F4F6779C59BDCEE36B692153D0A9877CC62A474002DF32E52139F0A0

/-- A point: none is the point at infinity. -/
abbrev Point := Option (Nat × Nat)

/-- The base point. -/
def G : Point := some (gx, gy)

/-- `base` to the power `e` modulo `m`, on fuel for the bits of `e`. -/
def powMod (m : Nat) : Nat → Nat → Nat → Nat
  | 0, _, _ => 1 % m
  | f + 1, base, e =>
    if e = 0 then 1 % m
    else
      let h := powMod m f (base * base % m) (e / 2)
      if e % 2 = 1 then base * h % m else h

/-- The inverse modulo a prime. -/
def inv (m x : Nat) : Nat := powMod m 256 (x % m) (m - 2)

/-- `x - y` modulo `m`. -/
def sub (m x y : Nat) : Nat := (x + (m - y % m)) % m

/-- The sum of two points. -/
def add : Point → Point → Point
  | none, q => q
  | q, none => q
  | some (x1, y1), some (x2, y2) =>
    if x1 = x2 ∧ (y1 + y2) % p = 0 then none
    else
      let l := if x1 = x2 ∧ y1 = y2 then (3 * x1 * x1 + a) * inv p (2 * y1) % p else sub p y2 y1 * inv p (sub p x2 x1) % p
      let x3 := sub p (l * l) (x1 + x2)
      some (x3, sub p (l * sub p x1 x3) y1)

/-- `k` times a point, on fuel for the bits of `k`. -/
def mul : Nat → Nat → Point → Point
  | 0, _, _ => none
  | f + 1, k, q =>
    if k = 0 then none
    else
      let h := mul f (k / 2) (add q q)
      if k % 2 = 1 then add q h else h

/-- A point of the curve other than infinity. -/
def onCurve (x y : Nat) : Bool := decide (x < p ∧ y < p) && y * y % p == (x * x * x + a * x + b) % p

/-! ### Bytes: big-endian (R284) -/

/-- A point from the 64 bytes x, y. -/
def pointOf (bs : List Byte) : Nat × Nat := (natBE (bs.take 32), natBE ((bs.drop 32).take 32))

/-- The bytes x, y of a point; zeros for infinity. -/
def pointBytes : Point → List Byte
  | some (x, y) => bytesBE 32 x ++ bytesBE 32 y
  | none => List.replicate 64 0

/-- A public key as R284 writes it, from a private key. -/
def publicKey (d : Nat) : BitVec 512 := BitVec.ofNat 512 (natBE (pointBytes (mul 256 d G)))

/-- A private key from a random draw: 1 to n - 2. -/
def keyFrom (r : BitVec 256) : BitVec 256 := BitVec.ofNat 256 (r.toNat % (order - 2) + 1)

/-! ### Signatures -/

/-- The signer's identifier "SKK-720", 56 bits (R284). -/
def ident : List Byte := [0x53, 0x4B, 0x4B, 0x2D, 0x37, 0x32, 0x30]

/-- The digest of the identifier, the curve and the public key. -/
def zOf (id : List Byte) (pub : List Byte) : List Byte :=
  Sm3.hash (bytesBE 2 (8 * id.length) ++ id ++ bytesBE 32 a ++ bytesBE 32 b ++ bytesBE 32 gx ++ bytesBE 32 gy ++ pub)

/-- The number a signature is over. -/
def digestOf (id pub msg : List Byte) : Nat := natBE (Sm3.hash (zOf id pub ++ msg))

/-- r and s of a signature with private key `d` and random number `k`. -/
def signWith (id : List Byte) (d k : Nat) (msg : List Byte) : Nat × Nat :=
  let e := digestOf id (pointBytes (mul 256 d G)) msg
  let r := match mul 256 k G with | some (x, _) => (e + x) % order | none => 0
  (r, inv order (1 + d) * sub order k (r * d) % order)

/-- The 64 signature bytes r, s under the identifier of R284. -/
def sign (d : BitVec 256) (random : BitVec 256) (msg : List Byte) : List Byte :=
  let x := signWith ident d.toNat (random.toNat % (order - 1) + 1) msg
  bytesBE 32 x.1 ++ bytesBE 32 x.2

/-- Whether a signature verifies. -/
def verifyWith (id pub msg : List Byte) (r s : Nat) : Bool :=
  let q := pointOf pub
  let t := (r + s) % order
  decide (1 ≤ r ∧ r < order ∧ 1 ≤ s ∧ s < order ∧ t ≠ 0) && onCurve q.1 q.2 &&
  match add (mul 256 s G) (mul 256 t (some q)) with
  | some (x, _) => (digestOf id pub msg + x) % order == r
  | none => false

/-- Whether the 64 bytes r, s are a signature of `msg` by the owner of a public key. -/
def verify (pub : BitVec 512) (msg sig : List Byte) : Bool :=
  let x := pointOf sig
  verifyWith ident (bytesBE 64 pub.toNat) msg x.1 x.2

/-! ### Decryption in the order C1, C3, C2 -/

/-- The key stream for a message of at most 32 bytes: one SM3 block. -/
def stream (q : Point) : List Byte := Sm3.hash (pointBytes q ++ bytesBE 4 1)

/-- The message of 32 bytes, as a little-endian number (R284), that 128 bytes of C1, C3, C2 hold for a private key; none where C1 is no point
or C3 does not agree. -/
def decrypt (d : BitVec 256) (c : List Byte) : Option (BitVec 256) :=
  let c1 := pointOf c
  if onCurve c1.1 c1.2 then
    let q := mul 256 d.toNat (some c1)
    let m := (((c.drop 96).take 32).zip (stream q)).map fun x => x.1 ^^^ x.2
    let xy := pointBytes q
    if Sm3.hash (xy.take 32 ++ m ++ xy.drop 32) = (c.drop 64).take 32 ∧ m.length = 32 then some (BitVec.ofNat 256 (natLE m)) else none
  else none

end Sys2Proof.Machine.Sm2
end

