-- ==== Sys2Proof/Machine/ImageFile.lean ====
section
/-! DEFINITION. Machine/ImageFile.lean: the Filpel image as bytes (R293, Tables 14-5 and 14-6): header, section table, the sections whose
layout the manual gives, digest and signature. -/

namespace Sys2Proof.Machine

/-! ### Digests and keys -/

/-- The SM3 digest of bytes, as a number whose first byte is the most significant. -/
def sm3Nat (bs : List Byte) : Nat := natBE (Sm3.hash bs)

/-- A public key's SM3 hash; keys are written big-endian (R284). -/
def keyHash (k : BitVec 512) : BitVec 256 := BitVec.ofNat 256 (sm3Nat (bytesBE 64 k.toNat))

/-! ### The header (Table 14-5) -/

def imageMagic (im : Image) : Nat := fieldLE im.bytes 0 4
def imageFormat (im : Image) : Nat := fieldLE im.bytes 4 2
def imageLength (im : Image) : Nat := fieldLE im.bytes 8 4
def imageSections (im : Image) : Nat := fieldLE im.bytes 12 2
def imageSecVer (im : Image) : BitVec 6 := BitVec.ofNat 6 (fieldLE im.bytes 7 1)
def imageRootPub (im : Image) : BitVec 512 := BitVec.ofNat 512 (fieldBE im.bytes 24 64)

/-- GRADES accepts a grade. -/
def imageGrade (im : Image) (g : Grade) : Bool :=
  (fieldLE im.bytes 6 1).testBit (match g with | .A => 0 | .M => 1 | .L => 2)

/-- MAGIC, FORMAT and LENGTH are valid: LENGTH is that of the bytes, with header, section table and signature in it, at most 16 MiB; the
table has 1 to 64 entries. -/
def headerOk (im : Image) : Bool :=
  decide (imageMagic im = 0x46504C31 ∧ imageFormat im = 1 ∧ imageLength im = im.bytes.length ∧ im.bytes.length ≤ 16777216 ∧
    1 ≤ imageSections im ∧ imageSections im ≤ 64 ∧ 128 + 16 * imageSections im + 64 ≤ im.bytes.length)

/-! ### Sections (Table 14-6) -/

/-- An entry of the section table. -/
structure SectionEntry where
  kind : Nat
  off : Nat
  len : Nat
  crc : Nat
  deriving DecidableEq, Repr

/-- Entry `k` of the table. -/
def sectionAt (im : Image) (k : Nat) : SectionEntry :=
  let f := fun i n => fieldLE im.bytes (128 + 16 * k + i) n
  ⟨f 0 2, f 4 4, f 8 4, f 12 4⟩

/-- The table. -/
def sectionTable (im : Image) : List SectionEntry := (List.range (imageSections im)).map (sectionAt im)

/-- A section's bytes. -/
def sectionBytes (im : Image) (e : SectionEntry) : List Byte := (im.bytes.drop e.off).take e.len

/-- The first section of a type; empty where the image has none. -/
def sectionOf (im : Image) (kind : Nat) : List Byte :=
  match (sectionTable im).find? (·.kind = kind) with
  | some e => sectionBytes im e
  | none => []

/-- A section of a type of Table 14-6 that lies inside the image and matches its CRC, TYPE folded first. -/
def sectionOk (im : Image) (e : SectionEntry) : Bool :=
  decide (1 ≤ e.kind ∧ e.kind ≤ 9 ∧ e.off + e.len ≤ im.bytes.length) &&
  (crcNative crc32c (BitVec.ofNat 32 e.kind) (sectionBytes im e)).toNat == e.crc

/-- REGS, KEEPER, TILEPROG, KEYS and SEEDS stand exactly once. -/
def onceEach (im : Image) : Bool := [1, 2, 3, 7, 8].all fun k => ((sectionTable im).filter (·.kind = k)).length == 1

/-- The 8-byte records of REGS: an address, then its value. -/
def imageRegs (im : Image) : List (Nat × Word) :=
  let bs := sectionOf im 1
  (List.range (bs.length / 8)).map fun i => (fieldLE bs (8 * i) 4, BitVec.ofNat 32 (fieldLE bs (8 * i + 4) 4))

/-- The Keeper runtime. -/
def imageKeeper (im : Image) : List Byte := sectionOf im 2

/-- The entry of SEEDS for a device: DEVICE_ID, then 128 bytes encrypted to its key. -/
def imageSeed (im : Image) (device : DWord) : Option (List Byte) :=
  let bs := sectionOf im 8
  ((List.range (min (bs.length / 136) 4096)).find? fun i => fieldLE bs (136 * i) 8 == device.toNat).map fun i =>
    (bs.drop (136 * i + 8)).take 128

/-- The SITE_SEED that a device's private key decrypts (R292). -/
def siteSeedOf (im : Image) (key : Option (BitVec 256)) : Option (BitVec 256) :=
  match key, imageSeed im Config.deviceId with
  | some d, some c => Sm2.decrypt d c
  | _, _ => none

/-! ### Digest and signature -/

/-- SM3 over the whole image. -/
def imageDigest (im : Image) : BitVec 256 := BitVec.ofNat 256 (sm3Nat im.bytes)

/-- The signature verifies under the header's root key, over every byte before it, and the key has the fused hash. -/
def imageSigned (rootHash : Option (BitVec 256)) (im : Image) : Bool :=
  let n := im.bytes.length - 64
  rootHash == some (keyHash (imageRootPub im)) && Sm2.verify (imageRootPub im) (im.bytes.take n) (im.bytes.drop n)

end Sys2Proof.Machine
end

