-- ==== Sys2Proof/Machine/Tally.lean ====
section
/-! DEFINITION. Machine/Tally.lean: the Tally units (R354 to R364). -/

namespace Sys2Proof.Machine

/-- The owner code of an initiator in TLY_ASSIGN (Table 17-5). -/
def ownerCode : Initiator → Nat
  | .k0 => 1
  | .k1 => 2
  | _ => 3

/-- Whether a unit's owner is the initiator (R359). -/
def ownsUnit (s : State) (i : Initiator) (u : Fin 16) : Bool :=
  s.fld R.TLY_ASSIGN (2 * u.val + 1) (2 * u.val) == ownerCode i

/-- Change a unit's state. -/
def updUnit (s : State) (u : Fin 16) (f : TallyUnit → TallyUnit) : State :=
  { s with ty := { s.ty with units := s.ty.units.set u (f s.ty.units[u]) } }

/-- ES83 with the unit as syndrome, recorded in TLY_ERR (R359, Table 17-5). -/
def tallyForeign (s : State) (i : Initiator) (u : Fin 16) : State :=
  (((s.busError i).raiseSyn 83 0 (BitVec.ofNat 16 u.val) none).setFld R.TLY_ERR 3 0 u.val).setFld R.TLY_ERR 7 4 3

/-- A write to a unit's register: the interconnect's permission, then the unit's owner (R359, R395). -/
def tallyWrite (s : State) (i : Initiator) (u : Fin 16) (ok : State → State) : State :=
  if s.mayWrite i (R.TLYu_CFG u) then
    if ownsUnit s i u then ok (s.busOk 0) else tallyForeign s i u
  else s.refuse i

/-- A read of a unit's register with an effect: open to K0, K1 and the owner (R359). -/
def tallyRead (s : State) (i : Initiator) (u : Fin 16) (ok : State → State) : State :=
  if s.admitted i && (isKeeper i || ownsUnit s i u) then ok s else s.refuse i

/-- The unit's polynomial. -/
def unitKind (s : State) (u : Fin 16) : CrcKind := (crcOfCode (s.fld (R.TLYu_CFG u) 2 0)).getD crc8

/-- The unit's mode: 0 PLAIN, 1 NATIVE, 2 COMPAT. -/
def unitMode (s : State) (u : Fin 16) : Nat := s.fld (R.TLYu_CFG u) 5 4

/-- Whether a TLYu_CFG value is accepted: a polynomial of Table 17-1, a mode below 3, COMPAT with CRC-8 alone (R362). -/
def cfgAccepted (v : Word) : Bool :=
  bits v 2 0 < 5 && bits v 5 4 < 3 && (bits v 5 4 != 2 || bits v 2 0 == 0)

/-- TALLY_CFG_WRITE (R358, R362). -/
def execTallyCfgWrite (i : Initiator) (u : Fin 16) (v : Word) (s : State) : Out :=
  .next (tallyWrite s i u fun s =>
    if cfgAccepted v then
      updUnit (s.setReg (R.TLYu_CFG u) (v &&& 0x37)) u fun t => { t with isOpen := false, alive := 0, lastAlive := none }
    else s.busError i)

/-- The engine takes 8 bits a cycle, after what it still holds (R357). -/
def busyFor (now n : Nat) (t : TallyUnit) : TallyUnit := { t with busyTo := max now t.busyTo + n }

/-- The unit after a TLYu_START write: initial value, and in NATIVE the written value folded first (R356). -/
def startUnit (k : CrcKind) (mode : Nat) (v : Word) (t : TallyUnit) : TallyUnit :=
  { t with crc := if mode = 1 then crcFeed k k.init (bytesLE 4 v.toNat) else k.init, isOpen := true, fed := 0, faulty := false }

/-- TALLY_START (R356, R358). -/
def execTallyStart (i : Initiator) (u : Fin 16) (v : Word) (s : State) : Out :=
  .next (tallyWrite s i u fun s => updUnit s u fun t => busyFor s.cycle (if unitMode s u = 1 then 4 else 0) (startUnit (unitKind s u) (unitMode s u) v t))

/-- Feed bytes to a unit; with no computation begun it is refused with a bus error response (R357). -/
def feedUnit (s : State) (i : Initiator) (u : Fin 16) (bs : List Byte) : State :=
  if s.ty.units[u].isOpen then
    updUnit s u fun t => busyFor s.cycle bs.length { t with crc := crcFeed (unitKind s u) t.crc bs, fed := min (t.fed + bs.length) 0xFFFFFF }
  else s.busError i

/-- TALLY_IN8 (R357). -/
def execTallyIn8 (i : Initiator) (u : Fin 16) (v : Byte) (s : State) : Out :=
  .next (tallyWrite s i u fun s => feedUnit s i u [v])

/-- TALLY_IN16: the less significant byte enters first (R355). -/
def execTallyIn16 (i : Initiator) (u : Fin 16) (v : Half) (s : State) : Out :=
  .next (tallyWrite s i u fun s => feedUnit s i u (bytesLE 2 v.toNat))

/-- TALLY_IN32: the least significant byte enters first (R355). -/
def execTallyIn32 (i : Initiator) (u : Fin 16) (v : Word) (s : State) : Out :=
  .next (tallyWrite s i u fun s => feedUnit s i u (bytesLE 4 v.toNat))

/-- The result of a unit (R356, R358). -/
def unitResult (s : State) (u : Fin 16) : DWord := crcOut (unitKind s u) s.ty.units[u].crc

/-- TALLY_RES_LO: the low word is returned, the high word latched; 0 with a bus error response after an engine or parity error
(R358, R360). With no computation begun the registers keep what they hold (log entry 21). -/
def execTallyResLo (i : Initiator) (u : Fin 16) (s : State) : Out :=
  .next (tallyRead s i u fun s =>
    if s.ty.units[u].faulty then s.busError i
    else if s.ty.units[u].isOpen then
      (s.setReg64 (R.TLYu_RES_LO u) (unitResult s u)).busOk (((unitResult s u).setWidth 32).setWidth 64)
    else s.busOk ((s.reg (R.TLYu_RES_LO u)).setWidth 64))

/-- TALLY_ALIVE (R362): in COMPAT the next value, advancing modulo 16; else 0. -/
def execTallyAlive (i : Initiator) (u : Fin 16) (s : State) : Out :=
  .next (tallyRead s i u fun s =>
    if unitMode s u = 2 then
      updUnit (s.busOk (s.ty.units[u].alive.setWidth 64)) u fun t => { t with alive := t.alive + 1 }
    else s.busOk 0)

/-- The judgement of a received alive value: 1 OK, 2 REPEAT, 3 SKIP (R362). -/
def aliveCode (last : Option (BitVec 4)) (v : BitVec 4) : Nat :=
  match last with
  | none => 1
  | some l => if v = l + 1 then 1 else if v = l then 2 else 3

/-- TALLY_ALIVE_CHK (R362). -/
def execTallyAliveChk (i : Initiator) (u : Fin 16) (v : Word) (s : State) : Out :=
  .next (tallyWrite s i u fun s =>
    if unitMode s u = 2 then
      let code := aliveCode s.ty.units[u].lastAlive (v.setWidth 4)
      let s := updUnit s u fun t => { t with lastAlive := some (v.setWidth 4) }
      let s := (s.setFld (R.TLYu_ALIVE_STAT u) 1 0 code).setFld (R.TLYu_ALIVE_STAT u) 7 4 (bits v 3 0)
      if code = 1 then s else (s.satAdd (R.TLYu_ALIVE_STAT u) 31 16 1).raise 82 0
    else s)

/-- The unit that the open glint names, by its syndrome's low bits (R361). -/
def glintedUnit (s : State) : Fin 16 :=
  match s.bc.glints.find? fun g => g.src = 80 && windowOn s g with
  | some g => Fin.ofNat 16 (g.syn.toNat % 16)
  | none => s.ty.nextGlint

/-- The window on ES80 in which the unit's test has not run yet. -/
def tallyWindow (s : State) : Option Glint := s.bc.glints.find? fun g => g.src = 80 && windowOn s g && !g.ran

/-- TALLY_GLINT (R361): the expected event when the unit finds the inverted bit, once in a window; unit state is not touched, feeds wait
6 TCLK. Without a window that Beacon has opened nothing runs (log entry 53). -/
def execTallyGlint (detected : Bool) (s : State) : Out :=
  .next (match tallyWindow s with
    | none => s
    | some g =>
      let u := Fin.ofNat 16 (g.syn.toNat % 16)
      let s := (updUnit (glintRan s g) u (busyFor s.cycle 6)).wrapInc R.TLY_GLINTS 31 0
      if detected then s.raiseSyn 80 0 (BitVec.ofNat 16 (0x10 + u.val)) none else s)

/-- End a unit's computation and clear its configuration: a domain reset of its owner, or a change of owner (R359). -/
def endUnit (s : State) (u : Fin 16) : State :=
  updUnit (s.setReg (R.TLYu_CFG u) 0) u fun t => { t with isOpen := false, alive := 0, lastAlive := none }

/-- End the computations of every unit an owner code holds (R359, R388). -/
def endUnitsOf (s : State) (owner : Nat) : State :=
  foldN 16 (fun s u => if s.fld R.TLY_ASSIGN (2 * u + 1) (2 * u) == owner then endUnit s (Fin.ofNat 16 u) else s) s

end Sys2Proof.Machine
end

