-- ==== Sys2Proof/Machine/Resets.lean ====
section
/-! DEFINITION. Machine/Resets.lean: what several blocks do to a Keeper pair or Harbour: freezing what it runs (R251, R259), a
domain reset (R307, R327, R359), the loss of a pair (R388, R389). -/

namespace Sys2Proof.Machine

/-! ### The lock-cycle stage -/

/-- The stage returns to IDLE with a status code (Table 14-13). -/
def dropStage (s : State) (code : BitVec 4) : State :=
  { s with lk := { s.lk with state := .idle, owner := none, code := code, stage := [] } }

/-- A stage the initiator owns is discarded (R307, R388). -/
def dropStageOf (s : State) (i : Initiator) : State :=
  if s.lk.owner = some i ∧ s.lk.state ≠ .idle then dropStage s 7 else s

/-! ### Watchdogs and entities freeze with their domain -/

/-- Change a watchdog. -/
def updDog (s : State) (w : Fin 4) (f : Watchdog → Watchdog) : State :=
  { s with wd := { s.wd with dogs := s.wd.dogs.set w (f s.wd.dogs[w]) } }

/-- WDTw_CFG.DOM: 0 K0, 1 K1, 2 Harbour. -/
def dogDomain (s : State) (w : Nat) : Nat := s.fld (R.WDTw_CFG w) 4 3

/-- Change an entity. -/
def updEntity (s : State) (e : Fin 64) (f : Entity → Entity) : State :=
  { s with wd := { s.wd with entities := s.wd.entities.set e (f s.wd.entities[e]) } }

/-- A Keeper entity bound to a pair (TSe_BIND.PAIR). -/
def boundTo (s : State) (e k : Nat) : Bool := !s.flag (R.TSe_CFG e) 1 && s.fld (R.TSe_BIND e) 18 18 == k

/-- A domain that freezes what watches it: a core held halted by a debugger (R251), or a lost pair, which is held in reset (R388). -/
def pairStopped (s : State) (k : Fin 2) : Bool := s.kc.pairs[k] == .halted || s.kc.pairs[k] == .lost
def domainStopped (s : State) (dom : Nat) : Bool :=
  match dom with
  | 0 => pairStopped s 0
  | 1 => pairStopped s 1
  | _ => !s.kc.harbourHalted.isEmpty

/-- A watchdog freezes its count and arm with its domain, and goes on from its frozen values (R251). -/
def syncDog (stopped : Bool) (now : Nat) (d : Watchdog) : Watchdog :=
  match stopped, d.frozen with
  | true, none => { d with frozen := some now }
  | false, some c => { d with base := d.base.map (· + (now - c)), armed := d.armed.map (· + (now - c)), frozen := none }
  | _, _ => d

/-- An entity freezes its cycle and count in the same way (R259). -/
def syncEntity (stopped : Bool) (now : Nat) (x : Entity) : Entity :=
  match stopped, x.frozen with
  | true, none => { x with frozen := some now }
  | false, some c => { x with frozen := none, began := x.began + (now - c), endAt := x.endAt.map (· + (now - c)) }
  | _, _ => x

/-- Every watchdog and Keeper entity follows the domain it is bound to, as the domains and the bindings now stand (R251, R259). -/
def syncFreeze (s : State) : State :=
  let s := foldN 4 (fun s w => updDog s (Fin.ofNat 4 w) (syncDog (domainStopped s (dogDomain s w)) s.wd.ticks)) s
  foldN 64 (fun s e => updEntity s (Fin.ofNat 64 e)
    (syncEntity ((boundTo s e 0 && pairStopped s 0) || (boundTo s e 1 && pairStopped s 1)) s.cycle)) s

/-! ### Pairs -/

/-- The initiator and the tag code of pair `k`. -/
def pairInit (k : Fin 2) : Initiator := if k = 0 then .k0 else .k1

/-- The pair that is not `k`. -/
def otherPair (k : Fin 2) : Fin 2 := if k = 0 then 1 else 0

/-- Set a pair's state; what it runs freezes or goes on with it. -/
def setPair (s : State) (k : Fin 2) (p : PairState) : State := syncFreeze { s with kc := { s.kc with pairs := s.kc.pairs.set k p } }

/-- Base of a pair's TCM. -/
def tcmBase (k : Fin 2) : Nat := 0x10000000 + 0x100000 * k.val

/-- A pair becomes standby: it owns no lock cycle (R327, R389). -/
def standby (s : State) (k : Fin 2) : State := setPair (dropStageOf s (pairInit k)) k .standby

/-- A Keeper pair's domain reset (R307, R327, R359): cores and TCM cleared, its stage discarded, its Tally units ended. A lost pair is held in
reset already (R388). -/
def pairReset (s : State) (k : Fin 2) : State :=
  if s.kc.pairs[k] = .lost then s
  else
    let s := standby s k
    let s := s.wipe (tcmBase k) 0x80000
    endUnitsOf s (ownerCode (pairInit k))

/-- Harbour's domain reset: ES14 (Table 15-8), its Tally units ended (R359). -/
def harbourReset (s : State) : State := (endUnitsOf s 3).raise 14 0

/-- The survivor of a pair's loss without SPC is standby (R389); one that a debugger holds becomes it when it runs again. -/
def survive (s : State) (k : Fin 2) : State :=
  if s.kc.pairs[k] == .halted then
    let s := dropStageOf s (pairInit k)
    { s with kc := { s.kc with before := s.kc.before.set k .standby } }
  else standby s k

/-- Reads that a lost pair has outstanding are ended; its released writes stand (R388). -/
def endPairReads (s : State) (k : Fin 2) : State :=
  let stays := fun (w : Waiting) => w.who != pairInit k || isWrite w.op
  { s with
    mr := { s.mr with ports := s.mr.ports.map fun p => { p with reads := p.reads.filter (·.user ≠ .keeper k) } }
    hd := { s.hd with waits := s.hd.waits.filter stays }
    bs := { s.bs with waits := s.bs.waits.filter stays } }

/-- The loss of a pair (R388, R389). -/
def losePair (s : State) (k : Fin 2) : State :=
  if s.kc.pairs[k] = .lost then s
  else
    let s := endPairReads (setPair (dropStageOf s (pairInit k)) k .lost) k
    let s := endUnitsOf s (ownerCode (pairInit k))
    if s.flag R.KC_CTRL 0 || s.kc.pairs[otherPair k] == .lost then s else survive s (otherPair k)


end Sys2Proof.Machine
end

