-- ==== Sys2Proof/Machine/Watchdogs.lean ====
section
/-! DEFINITION. Machine/Watchdogs.lean: the four watchdogs and the task supervisor (R244 to R259), and a domain that leaves
reset (R327). -/

namespace Sys2Proof.Machine

/-! ### Watchdogs -/

/-- The tick a watchdog's count stands at. -/
def dogNow (s : State) (w : Fin 4) : Nat := (s.wd.dogs[w].frozen).getD s.wd.ticks

/-- WDTw_COUNT: ticks since the count was 0 (R244). -/
def dogCount (s : State) (w : Fin 4) : Nat :=
  match s.wd.dogs[w].base with
  | some b => dogNow s w - b
  | none => 0

/-- The period of the oscillator's n-th tick in TCLK cycles: 0.95 to 1.05 µs (Table 12-5), otherwise free (log entry 97). -/
def oscPeriod (n : Nat) : Nat := 713 + Config.oscStretch n % 75

/-- The internal oscillator in one TCLK cycle (R244). -/
def tickOsc (s : State) : State :=
  { s with wd := if s.wd.oscLeft ≤ 1 then { s.wd with ticks := s.wd.ticks + 1, oscLeft := oscPeriod s.wd.ticks }
                 else { s.wd with oscLeft := s.wd.oscLeft - 1 } }

/-- Codes of Table 12-2. -/
def wdtCode : WdtKind → Nat
  | .none => 0
  | .late => 1
  | .early => 2
  | .badKey => 3
  | .keyLapse => 4

/-- WDTw_CFG.EN. -/
def dogOn (s : State) (w : Fin 4) : Bool := s.flag (R.WDTw_CFG w) 0

/-- A watchdog's failure holds the domain in reset already, so this one asks for the same domain reset (R248). -/
def domainHeld (s : State) (w : Fin 4) : Bool := s.wd.held[Fin.ofNat 3 (dogDomain s w)]

/-- A domain reset begins, or is over. -/
def holdDomain (s : State) (d : Fin 3) (on : Bool) : State := { s with wd := { s.wd with held := s.wd.held.set d on } }

/-- WD_RST_CAUSE of a watchdog and a kind. -/
def rstCause (w : Fin 4) (k : WdtKind) : Word := 0x80000000#32 ||| BitVec.ofNat 32 (w.val + 4 * wdtCode k)

/-- Whether WD_RST_CAUSE was written by a failure in this tick. -/
def causedNow (s : State) : Bool := s.wd.causeAt == some s.wd.ticks

/-- WD_RST_CAUSE: of the failures of one tick, the lower-numbered watchdog's (R248). -/
def nameCause (s : State) (w : Fin 4) (k : WdtKind) : State :=
  if causedNow s && decide (s.fld R.WD_RST_CAUSE 1 0 < w.val) then s
  else { s.setReg R.WD_RST_CAUSE (rstCause w k) with wd := { s.wd with causeAt := some s.wd.ticks } }

/-- The reset a failure requests of its domain (R248): WD_RST_CNT, WD_RST_CAUSE, WD_RST_START, and the domain's own reset, once per
domain reset; a domain that another watchdog holds in reset already gets none. -/
def dogReset (s : State) (w : Fin 4) (k : WdtKind) : State :=
  if domainHeld s w then (if causedNow s then nameCause s w k else s)
  else
    let s := s.satAdd R.WD_RST_CNT 15 0 1
    let s := nameCause s w k
    let s := holdDomain (s.setReg R.WD_RST_START (s.reg R.BC_STARTS)) (Fin.ofNat 3 (dogDomain s w)) true
    match dogDomain s w with
    | 0 => pairReset s 0
    | 1 => pairReset s 1
    | _ => harbourReset s

/-- Whether a glint window open on a watchdog's source absorbs a failure, whose outputs are then gated (R252). -/
def glintGates (s : State) (w : Fin 4) (k : WdtKind) : Bool :=
  s.bc.glints.any fun g =>
    g.src.toNat == 88 + w.val && decide (s.cycle < g.windowEnd) && g.syn.toNat == wdtCode k

/-- A watchdog failure (R248); an absorbed one drives no WDO_N pulse and no reset (R252). -/
def dogFail (s : State) (w : Fin 4) (k : WdtKind) : State :=
  let live := !glintGates s w k
  let s := s.raiseSyn (88 + w.val) 0 (BitVec.ofNat 16 (wdtCode k)) none
  let s := (s.setFld (R.WDTw_STAT w) 2 0 (wdtCode k)).satAdd (R.WDTw_STAT w) 15 8 1
  let s := s.setBit R.WD_IRQ_STAT w
  let s := if s.flag (R.WDTw_CFG w) 1 && live then
    { s with wd := { s.wd with wdo := some (s.wd.ticks + 1000 * s.fld R.WD_CTRL 6 0), wdoBad := if s.wd.wdo.isNone then none else s.wd.wdoBad } }
    else s
  let rst := s.flag (R.WDTw_CFG w) 2 && live
  let s := updDog s w fun d => { d with base := if rst then none else some (dogNow s w), armed := none }
  if rst then dogReset s w k else s

/-- A valid service (R246). -/
def dogServed (s : State) (w : Fin 4) : State :=
  (updDog s w fun d => { d with base := some (dogNow s w), armed := none }).wrapInc (R.WDTw_STAT w) 31 16

/-- A write to WDTw_KEY (R246, R247): an initiator outside the watched domain gets a bus error and nothing else happens to the watchdog; one
of Harbour's that KC_HWPERM does not permit raises ES10 too (R395). Harbour services its own watchdog whatever KC_HWPERM says (log entry
105). A second write in the tick in which the armed watchdog failed LATE is judged by that failure, and one past the 10 ticks of its arm by
the lapse (log entry 96). -/
def keyWrite (i : Initiator) (w : Fin 4) (v : Half) (s : State) : State :=
  if ownerCode i ≠ dogDomain s w + 1 ∨ !s.admitted i then (if s.mayWrite i (R.WDTw_KEY w) then s.busError i else s.refuse i)
  else
    let s := s.busOk 0
    if !dogOn s w then s
    else match s.wd.dogs[w].armed with
      | none =>
        if v = 0x5A5A then updDog s w fun d => { d with armed := some (dogNow s w) }
        else if v = 0xA5A5 ∧ s.wd.dogs[w].lateAt = some s.wd.ticks then updDog s w fun d => { d with lateAt := none }
        else dogFail s w .badKey
      | some a =>
        if 10 ≤ dogNow s w - a then dogFail s w .keyLapse
        else if v ≠ 0xA5A5 then dogFail s w .badKey
        else if dogCount s w < s.fld (R.WDTw_OPEN w) 23 0 then dogFail s w .early
        else if s.fld (R.WDTw_CLOSE w) 23 0 ≤ dogCount s w then dogFail s w .late
        else dogServed s w

/-- WDT_KEY_ARM, WDT_KEY_SERVICE, WDT_BAD_KEY: the three kinds of key write. -/
def execWdtKeyArm (i : Initiator) (w : Fin 4) (s : State) : Out := .next (keyWrite i w 0x5A5A s)
def execWdtKeyService (i : Initiator) (w : Fin 4) (s : State) : Out := .next (keyWrite i w 0xA5A5 s)
def execWdtBadKey (i : Initiator) (w : Fin 4) (v : Half) (s : State) : Out := .next (keyWrite i w v s)

/-- WDT_LATE (R246): the count reaches CLOSE with no valid service. -/
def execWdtLate (w : Fin 4) (s : State) : Out :=
  .next (if dogOn s w && s.wd.dogs[w].base.isSome && s.wd.dogs[w].frozen.isNone && decide (s.fld (R.WDTw_CLOSE w) 23 0 ≤ dogCount s w) then
    let armed := s.wd.dogs[w].armed.isSome
    updDog (dogFail s w .late) w fun d => { d with lateAt := if armed then some s.wd.ticks else none }
  else s)

/-- WDT_KEY_LAPSE (R247): armed, and no second write within 10 ticks. -/
def execWdtKeyLapse (w : Fin 4) (s : State) : Out :=
  .next (match s.wd.dogs[w].armed with
    | some a => if dogOn s w && s.wd.dogs[w].frozen.isNone && decide (10 ≤ dogNow s w - a) then dogFail s w .keyLapse else s
    | none => s)

/-- WDO_PULSE_END (R248). -/
def execWdoPulseEnd (s : State) : Out :=
  .next (match s.wd.wdo with
    | some e => if e ≤ s.wd.ticks then { s with wd := { s.wd with wdo := none, wdoBad := none } } else s
    | none => s)

/-- WDO_READBACK_MISMATCH (R249): WDO_N reads `level`; ES95 once for each readback that has differed from the driven level for more
than 8 cycles. -/
def execWdoReadbackMismatch (level : Bool) (s : State) : Out :=
  .next (if level = s.wd.wdo.isNone then { s with wd := { s.wd with wdoBad := none } }
    else match s.wd.wdoBad with
      | none => { s with wd := { s.wd with wdoBad := some (s.cycle, false) } }
      | some (c, told) =>
        if !told && decide (8 ≤ s.cycle - c) then ({ s with wd := { s.wd with wdoBad := some (c, true) } }).raise 95 0 else s)

/-- WD_RST_CLR (R250): the key 0x3C3C in SERVICE clears the three registers; outside SERVICE it is refused. -/
def execWdRstClr (i : Initiator) (v : Word) (s : State) : Out :=
  .next (s.keeperWrite i fun s =>
    if !inService s then s.busError i
    else if bits v 31 16 = 0x3C3C then
      ((s.setReg R.WD_RST_CNT 0).setReg R.WD_RST_CAUSE 0).setReg R.WD_RST_START 0
    else s)

/-! ### The task supervisor -/

/-- TS_STAT names the last failing entity: 1 UNDER, 2 OVER, 3 SEQ. -/
def taskStat (s : State) (e : Fin 64) (k : Nat) : State :=
  ((s.setFld R.TS_STAT 5 0 e).setFld R.TS_STAT 7 6 k).setBit R.WD_IRQ_STAT (3 + k)

/-- Count one check-in of an entity; the one that exceeds MAX is above-alive, once per cycle (R256). -/
def countCheckin (s : State) (e : Fin 64) : State :=
  let x := s.wd.entities[e]
  let above := decide (s.fld (R.TSe_CFG e) 26 19 < x.count + 1) && !x.overRaised
  let s := updEntity s e fun x => { x with count := x.count + 1, overRaised := x.overRaised || above }
  if above then taskStat ((s.satAdd (R.TSe_FAILS e) 31 16 1).raiseSyn 93 0 (BitVec.ofNat 16 e.val) none) e 2 else s

/-- ES94 (R257). -/
def seqFail (s : State) (e : Fin 64) : State :=
  taskStat ((updEntity s e fun x => { x with seqFails := min (x.seqFails + 1) 255 }).raiseSyn 94 0 (BitVec.ofNat 16 e.val) none) e 3

/-- The checkpoint an entity expects. -/
def expectedPoint (s : State) (e : Fin 64) : Nat :=
  let p := s.wd.entities[e].expected
  ((s.reg64 (R.TSe_SEQ_LO e)) >>> (8 * p)).toNat % 256

/-- The checkpoint order of a check-in (R257). -/
def seqCheckin (s : State) (e : Fin 64) (v : Nat) : State :=
  let n := s.fld (R.TSe_CFG e) 30 27
  if n = 0 then s
  else if v = expectedPoint s e then updEntity s e fun x => { x with expected := (x.expected + 1) % n }
  else updEntity (seqFail s e) e fun x => { x with expected := 0 }

/-- Whether an entity is judged now: an accelerator entity only while its port is SERVING (R254), none while frozen (R259). -/
def judged (s : State) (e : Fin 64) : Bool :=
  s.flag (R.TSe_CFG e) 0 && s.wd.entities[e].frozen.isNone &&
  (!s.flag (R.TSe_CFG e) 1 || s.mr.ports[Fin.ofNat 2 (s.fld (R.TSe_BIND e) 17 16 / 2)].state == .serving)

/-- An entity's boundary at cycle `at_` (R255 to R257); the first cycle is judged for over-alive only. -/
def boundary (s : State) (e : Fin 64) (at_ : Nat) : State :=
  let x := s.wd.entities[e]
  let s := if !x.first && decide (x.count < s.fld (R.TSe_CFG e) 18 11) then
    taskStat ((s.satAdd (R.TSe_FAILS e) 15 0 1).raiseSyn 92 0 (BitVec.ofNat 16 e.val) none) e 1 else s
  let s := if !x.first && s.flag (R.TSe_CFG e) 31 && s.fld (R.TSe_CFG e) 30 27 != 0 && x.expected != 0 then seqFail s e else s
  updEntity s e fun x => { x with count := 0, overRaised := false, first := false, began := at_, endAt := none }

/-- The cycle in which an entity's cycle ends (R255): PER µs after its start, or at the release of its post. -/
def endsAt (s : State) (e : Fin 64) : Option Nat :=
  if s.flag (R.TSe_CFG e) 2 then s.wd.entities[e].endAt
  else some (s.wd.entities[e].began + usCycles (s.fld (R.TSe_PER e) 23 0))

/-- A record that landed by cycle `c` is not tested yet, so an accelerator entity's boundary in that cycle is not judged yet (R254). -/
def landsBy (s : State) (e : Fin 64) (c : Nat) : Bool := s.flag (R.TSe_CFG e) 1 && s.mr.landed.any fun l => decide (l.at_ ≤ c)

/-- A boundary is judged once its TCLK cycle is over in cycle `now`, since that cycle's check-ins count towards the cycle that ends (R255). -/
def closeBy (s : State) (e : Fin 64) (now : Nat) : State :=
  match endsAt s e with
  | some c => if judged s e && decide (c < now) && !landsBy s e c then boundary s e c else s
  | none => s
def closePast (s : State) (e : Fin 64) : State := closeBy s e s.cycle

/-- TASK_BOUNDARY (R255). -/
def execTaskBoundary (e : Fin 64) (s : State) : Out := .next (closePast s e)

/-- A standby pair runs no safety task (R327). -/
def runsTasks (s : State) (i : Initiator) : Bool :=
  match i with
  | .k0 => s.kc.pairs[0] != .standby
  | .k1 => s.kc.pairs[1] != .standby
  | _ => true

/-- TS_CHECKIN (R253, R257); a standby pair's has no effect. -/
def execTsCheckin (i : Initiator) (v : Word) (s : State) : Out :=
  .next (s.keeperWrite i fun s =>
    let e := Fin.ofNat 64 (bits v 5 0)
    if !runsTasks s i then s
    else if !s.flag (R.TSe_CFG e) 0 || s.flag (R.TSe_CFG e) 1 then s.setFld R.TS_STAT 8 8 1
    else if s.wd.entities[e].frozen.isSome then s
    else seqCheckin (countCheckin (closePast s e) e) e (bits v 15 8))

/-- An accepted LAST record counts for its accelerator entities, in its landing cycle (R254). -/
def accelCheckin (s : State) (net : Half) (c : Fin 4) (landed : Nat) : State :=
  foldN 64 (fun s e =>
    let k := Fin.ofNat 64 e
    if judged s k && s.flag (R.TSe_CFG e) 1 && s.fld (R.TSe_BIND e) 15 0 == net.toNat && s.fld (R.TSe_BIND e) 17 16 == c.val then
      countCheckin (closeBy s k landed) k else s) s

/-- Boundaries that fall at the release of a post (R255). -/
def postBoundaries (s : State) (p : Nat) : State :=
  foldN 64 (fun s e =>
    let k := Fin.ofNat 64 e
    if judged s k && s.flag (R.TSe_CFG e) 2 && s.fld (R.TSe_CFG e) 10 3 == p then
      updEntity (closePast s k) k fun x => { x with endAt := some s.cycle } else s) s

/-- An entity starts afresh (R254, R255): count 0, its first cycle. -/
def freshEntity (now : Nat) (x : Entity) : Entity :=
  { x with count := 0, overRaised := false, expected := 0, first := true, began := now, endAt := none,
           frozen := x.frozen.map fun _ => now }

/-- The cycles of the accelerator entities of a port restart as it enters SERVING (R254). -/
def restartEntities (s : State) (n : Fin 2) : State :=
  foldN 64 (fun s e =>
    if s.flag (R.TSe_CFG e) 1 && s.fld (R.TSe_BIND e) 17 16 / 2 == n.val then updEntity s (Fin.ofNat 64 e) (freshEntity s.cycle) else s) s

/-! ### DOMAIN_LEAVES_RESET -/

/-- Watchdogs whose count waits for a domain restart at 0 (R248). -/
def restartDogs (s : State) (dom : Nat) : State :=
  foldN 4 (fun s w =>
    let k := Fin.ofNat 4 w
    if dogDomain s w = dom && dogOn s k && s.wd.dogs[k].base.isNone then updDog s k fun d => { d with base := some (dogNow s k) } else s) s

/-- The KEEPER section of the image in use, which step 3 loads into both TCMs. -/
def keeperSection (s : State) : List Byte :=
  match (match s.se.useB with | some true => s.se.slotB.data | some false => s.se.slotA.data | none => none) with
  | some im => imageKeeper im
  | none => []

/-- A pair's TCM is loaded. -/
def loadTcm (s : State) (bs : List Byte) (k : Fin 2) : State := s.store (tcmBase k) bs

/-- A pair that leaves its reset glints its comparator and delay registers, rows 0 and 1 or 2 and 3 of Table 11-5 (R327). -/
def pairGlints (s : State) (k : Fin 2) : State :=
  { s with bc := { s.bc with issued := s.bc.issued.filter fun x => x.1.toNat / 2 != k.val, glintFrom := s.bc.glintFrom.set k s.cycle } }

/-- A standby pair restarts at its ROM entry; its TCM is reloaded from the KEEPER section in Hold (R327). -/
def pairRestarts (s : State) (k : Fin 2) : State := if s.kc.pairs[k] = .standby then pairGlints (loadTcm s s.hd.keeper k) k else s

/-- DOMAIN_LEAVES_RESET (R248, R327): a Keeper pair that the reset left standby glints its checkers and reloads its TCM; the watchdogs
restart. -/
def execDomainLeavesReset (d : Domain) (s : State) : Out :=
  .next (match d with
    | .k0 => holdDomain (restartDogs (pairRestarts s 0) 0) 0 false
    | .k1 => holdDomain (restartDogs (pairRestarts s 1) 1) 1 false
    | .harbour => holdDomain (restartDogs s 2) 2 false)

end Sys2Proof.Machine
end

