-- ==== Sys2Proof/Machine/Mooring.lean ====
section
/-! DEFINITION. Machine/Mooring.lean: the accelerator's attachment (R71 to R95): configuration requests, windows, landing records,
the weight patrol and the port states. -/

namespace Sys2Proof.Machine

/-- Change Mooring's own state. -/
def updMr (s : State) (f : Mooring → Mooring) : State := { s with mr := f s.mr }

/-- MR_CTRL.EN, RPn_CTRL.EN, and the port is present (R91). -/
def portEnabled (s : State) (n : Fin 2) : Bool := s.flag R.MR_CTRL 0 && s.flag (R.RPn_CTRL n) 0 && portPresent s n

/-! ### CFG_REQUEST, OUTBOUND_ACCESS and their ends (R73 to R75) -/

/-- A new outstanding read. -/
def addRead (s : State) (n : Fin 2) (u : OutUser) (len : Nat) : State :=
  updPort s n fun p => { p with reads := p.reads ++ [⟨p.nextTag, u, len, s.cycle⟩], nextTag := p.nextTag + 1 }

/-- A request goes out on the link; a write is posted, a read waits for its completion. -/
def sendReq (s : State) (n : Fin 2) (u : OutUser) (write : Bool) (len : Nat) (q : LinkReq) : State :=
  let s := updPort s n fun p => { p with lastReq := some q }
  if write then lnBytes (s.busOk 0) (lnPort n) 0 len else addRead { s with bus := .none } n u len

/-- The user of an initiator. -/
def userOf : Initiator → OutUser
  | .k0 => .keeper 0
  | .k1 => .keeper 1
  | _ => .harbour

/-- CFG_REQUEST (R73): Harbour's writes need CFG_OPEN; a refused one gets a bus error response and raises ES26. -/
def execCfgRequest (i : Initiator) (n : Fin 2) (write : Bool) (data : Word) (s : State) : Out :=
  .next (
    let q : LinkReq := .cfg (s.reg (R.RPn_CFG_ADDR n)) write data
    if !s.admitted i then s.refuse i
    else if write && !s.mayWrite i (R.RPn_CFG_DATA n) then s.refuse i
    else if write && !isKeeper i && !s.flag (R.RPn_CTRL n) 6 then (s.busError i).raise 26 0
    else sendReq s n (userOf i) write 4 q)

/-- An error response to an outbound user; a Keeper's raises ES5. -/
def outError (s : State) (u : OutUser) : State :=
  match u with
  | .keeper k => s.busError (pairInit k)
  | .harbour => s.busError .harbour
  | .engine => { s with bus := .error }

/-- Whether bus addresses reach into a patrol region of the port. -/
def inRegion (s : State) (n : Fin 2) (bus len r : Nat) : Bool :=
  s.flag (R.PATr_CFG r) 0 && s.fld (R.PATr_CFG r) 1 1 == n.val &&
  meets bus len (s.reg64 (R.PATr_ACC_LO r)).toNat (4096 * (s.reg (R.PATr_LEN r)).toNat)

/-- Change a patrol region. -/
def updRegion (s : State) (r : Fin 64) (f : Region → Region) : State :=
  updMr s fun m => { m with regions := m.regions.set r (f m.regions[r]) }

/-- A write into the region in progress restarts its pass from its first block (R89). -/
def restartPass (s : State) (n : Fin 2) (bus len : Nat) : State :=
  match s.mr.ports[n].patrol with
  | none => s
  | some (r, _) =>
    if inRegion s n bus len r then
      updRegion (updPort s n fun p => { p with patrol := some (r, 0) }) r fun g => { g with passDiff := false, passErr := false }
    else s

/-- The interconnect takes a user's request: a lost pair's tag is refused (R388). -/
def userAdmitted (s : State) : OutUser → Bool
  | .keeper k => s.admitted (pairInit k)
  | .harbour => s.admitted .harbour
  | .engine => true

/-- OUTBOUND_ACCESS (R71, R74): sent through the entry it hits, or refused with a bus error response. -/
def execOutboundAccess (u : OutUser) (n : Fin 2) (off : BitVec 38) (op : MemOp) (s : State) : Out :=
  let write := isWrite op
  .next (if !userAdmitted s u then outError s u else match if portPresent s n then obEntry s n off.toNat else none with
    | none => outError s u
    | some e =>
      let cfg := s.reg (R.OBWn_e_CFG n e)
      if !cfg.getLsbD (userBit u) || (write && !cfg.getLsbD 1) then outError s u
      else
        let bus := obBus s n e off.toNat
        let s := sendReq s n u write (opLen op) (.mem (BitVec.ofNat 64 bus) op)
        if write then restartPass s n bus (opLen op) else s)

/-- Take an outstanding read off a port. -/
def dropRead (s : State) (n : Fin 2) (tag : Nat) : State := updPort s n fun p => { p with reads := p.reads.filter (·.tag ≠ tag) }

/-- A read ends in error: an error response and the port's link source (R75). -/
def readFails (s : State) (n : Fin 2) (r : OutRead) : State := linkEvent (outError (dropRead s n r.tag) r.user) n

/-- The outstanding read of a tag. -/
def readOf (s : State) (n : Fin 2) (tag : Nat) : Option OutRead := s.mr.ports[n].reads.find? (·.tag = tag)

/-- OUTBOUND_COMPLETION (R75). -/
def execOutboundCompletion (n : Fin 2) (tag : Nat) (r : Completion) (s : State) : Out :=
  .next (match readOf s n tag with
    | none => s
    | some x => match r with
      | .data v => (lnBytes (dropRead s n tag) (lnPort n) x.len 0).busOk v
      | _ => readFails s n x)

/-- COMPLETION_TIMEOUT (R75): RPn_CPL_TO µs without a completion. -/
def execCompletionTimeout (n : Fin 2) (tag : Nat) (s : State) : Out :=
  .next (match readOf s n tag with
    | none => s
    | some x => if usCycles (s.fld (R.RPn_CPL_TO n) 15 0) ≤ s.cycle - x.issued then readFails s n x else s)

/-! ### INBOUND_REQUEST (R76, R77, R79, R332) -/

/-- The request is answered with Unsupported Request; nothing else changes but ES26. -/
def unsupported (s : State) : State := (updMr s fun m => { m with resp := .unsupported }).raise 26 0

/-- Byte `o` of a port's delivery page (Table 04-2). -/
def pageByte (s : State) (n : Fin 2) (o : Nat) : Byte :=
  let word := fun (w : Word) => BitVec.ofNat 8 (w.toNat / 256 ^ (o % 4))
  if o < 0x800 then
    match s.mr.ctxs[Fin.ofNat 4 (2 * n.val + o / 0x400)].slots.find? fun t => t.idx = o % 0x400 / 32 with
    | some t => (t.bytes[o % 32]?).getD 0
    | none => 0
  else match (o - 0x800) / 4 with
    | 0 => word (s.reg (R.Cc_SIG_CONS (2 * n.val)))
    | 1 => word (s.reg (R.Cc_SEAL_CONS (2 * n.val)))
    | 2 => word (s.reg (R.Cc_SIG_CONS (2 * n.val + 1)))
    | 3 => word (s.reg (R.Cc_SEAL_CONS (2 * n.val + 1)))
    | 4 => word s.mr.ports[n].epoch
    | _ => 0

/-- The page's bytes of a read. -/
def pageBytes (s : State) (n : Fin 2) (o len : Nat) : List Byte := (List.range len).map fun k => pageByte s n (o + k)

/-- A read of a barge's agreed copy that a copy context has not read before. -/
def firstTake (c : Fin 4) (a len : Nat) (x : Barge) : Bool :=
  x.ctxs.contains c && !x.taken.contains c && meets a len x.bufAddr.toNat x.bufLen

/-- The first inbound read of a barge's agreed copy by a copy is stamped in Cc_TAKEN_T (R79); one read may be the first of several. -/
def stampTaken (s : State) (c : Fin 4) (a len : Nat) : State :=
  if s.barges.any (firstTake c a len) then
    ({ s with barges := s.barges.map fun x => if firstTake c a len x then { x with taken := x.taken ++ [c] } else x }).setReg
      (R.Cc_TAKEN_T c) s.now.t
  else s

/-- A read of a DATA entry, from Hold: the bytes, or a poisoned completion with ES64 (R13, R332). -/
def dataRead (s : State) (c : Fin 4) (a len : Nat) (e : Ecc) : State :=
  let s := holdBytes (stampTaken s c a len) a len false
  let data := fun (s : State) => updMr s fun m => { m with resp := .data (s.bytes a len) }
  match holdEcc s a len e with
  | .clean => data s
  | .corrected => data (holdCorrected s a)
  | .uncorrectable => holdBadRead (updMr s fun m => { m with resp := .poisoned }) a len

/-- The slots that a write of `n` bytes at `a` touches in one ring of `count` slots of `size` bytes from `base`, with the offset at which it
begins in its first slot; a write that does not begin in that slot begins past its end. -/
def ringAt (c : Fin 4) (isSeal : Bool) (base count size a n : Nat) : List RingAt :=
  if meets a n base (count * size) then
    let first := (a - base) / size
    let last := min (count - 1) ((a + n - 1 - base) / size)
    (List.range (last + 1 - first)).map fun k => ⟨c, isSeal, first + k, if k = 0 ∧ base ≤ a then (a - base) % size else size⟩
  else []

/-- The slots of the landing strips that a write touches, whichever port's window it was written through (R81). -/
def stripAt (s : State) (a n : Nat) : List RingAt :=
  (List.finRange 4).flatMap fun (c : Fin 4) =>
    if !s.flag (R.Cc_CFG c) 0 then []
    else ringAt c false (basinBase + s.fld (R.Cc_SIG_BASE c) 24 0) (s.fld (R.Cc_STRIP c) 31 16) 64 a n ++
      ringAt c true (basinBase + s.fld (R.Cc_SEAL_BASE c) 24 0) (s.fld (R.Cc_STRIP c) 15 0) 32 a n

/-- A slot still holds a record that Mooring has not consumed. -/
def slotBusy (s : State) (a : RingAt) : Bool :=
  (if a.isSeal then s.mr.ctxs[a.ctx].sealBusy else s.mr.ctxs[a.ctx].sigBusy).contains a.slot

/-- A slot now holds a record. -/
def holdSlot (s : State) (a : RingAt) : State :=
  let x := s.mr.ctxs[a.ctx]
  let x := if a.isSeal then { x with sealBusy := x.sealBusy ++ [a.slot] } else { x with sigBusy := x.sigBusy ++ [a.slot] }
  updMr s fun m => { m with ctxs := m.ctxs.set a.ctx x }

/-- A write to a LANDING entry lands, to be tested as a record; its first slot holds it, unless a slot it touches still held an earlier record
(OVERRUN). -/
def landWrite (s : State) (n : Fin 2) (a : Nat) (bs : List Byte) (e : Ecc) : State :=
  if !banksAdmit s .mooringIn true a bs.length then unsupported (bankRefusal s .mooringIn true a bs.length)
  else
    let slots := stripAt s a bs.length
    let overrun := slots.any (slotBusy s)
    let l : Landed := ⟨n, BitVec.ofNat 40 a, bs, s.cycle, s.now, slots.head?, overrun, e⟩
    let s := match slots.head? with | some r => if overrun then s else holdSlot s r | none => s
    updMr s fun m => { m with resp := .written, landed := m.landed ++ [l] }

/-- Where a request of at most `most` bytes lies in its entry: the entry, the offset; none where it hits no entry or crosses its end, or
asks for more than the port supports (Table 23-8, log entry 79). -/
def inboundAt (s : State) (n : Fin 2) (most addr len : Nat) : Option (Nat × Nat) :=
  match if len ≤ most then ibEntry s n addr else none with
  | none => none
  | some e =>
    let o := addr - (s.reg64 (R.IBWn_e_BUS_LO n e)).toNat
    if o + len ≤ 2 ^ s.fld (R.IBWn_e_CFG n e) 8 3 then some (e, o) else none

/-- The payload of a request's answer, as the port's Lantern unit counts it: received by a write, sent by a completion. -/
def inboundBytes (n : Fin 2) (len : Nat) (s : State) : State :=
  match s.mr.resp with
  | .written => lnBytes s (lnPort n) len 0
  | .data bs => lnBytes s (lnPort n) 0 bs.length
  | _ => s

/-- A message-signalled interrupt reaches Harbour's IMSICs (R72, R394). -/
def deliverMsi (s : State) (d : Word) : State :=
  { s with kc := { s.kc with platform := { s.kc.platform with msis := s.kc.platform.msis ++ [d] } } }

/-- INBOUND_REQUEST: by the kind of the entry it hits (Table 04-1). `odd` tells the port's second copy. A message-signalled interrupt
goes to Harbour's interrupt controller and means nothing for supervision (R72). -/
def execInboundRequest (n : Fin 2) (odd : Bool) (r : InReq) (s : State) : Out :=
  .next (
    let c := Fin.ofNat 4 (2 * n.val + bit odd)
    match r with
    | .msi d => deliverMsi (updMr s fun m => { m with resp := .written }) d
    | .read a len ecc => match inboundAt s n 512 a.toNat len with
      | none => unsupported s
      | some (e, o) => match s.fld (R.IBWn_e_CFG n e) 2 0 with
        | 1 => inboundBytes n len (dataRead s c ((s.reg64 (R.IBWn_e_TGT_LO n e)).toNat + o) len ecc)
        | 2 => inboundBytes n len (updMr s fun m => { m with resp := .data (pageBytes s n o len) })
        | _ => unsupported s
    | .write a bs ecc => match inboundAt s n 256 a.toNat bs.length with
      | none => unsupported s
      | some (e, o) =>
        if s.fld (R.IBWn_e_CFG n e) 2 0 = 3 ∧ serving s n = true then
          inboundBytes n bs.length (landWrite s n ((s.reg64 (R.IBWn_e_TGT_LO n e)).toNat + o) bs ecc)
        else unsupported s)

/-! ### LANDING_WRITE (R80, R81, R87) -/

/-- Fields of a record (Tables 04-5, 04-6). -/
def recNet (bs : List Byte) : Half := BitVec.ofNat 16 (fieldLE bs 2 2)
def recBargeOf (bs : List Byte) : Word := BitVec.ofNat 32 (fieldLE bs 4 4)

/-- REC_CHK of a record: over bytes 0 to 43, or 0 to 19 and 24 to 31. -/
def recordChkOk (isSeal : Bool) (bs : List Byte) : Bool :=
  if isSeal then (bs.drop 20).take 4 == recChk (recBargeOf bs) (bs.take 20 ++ bs.drop 24)
  else bs.drop 44 == recChk (recBargeOf bs) (bs.take 44)

/-- The record's key. -/
def recKey (isSeal : Bool) (c : Fin 4) (bs : List Byte) : RecKey :=
  if isSeal then .sealRec c (BitVec.ofNat 32 (fieldLE bs 8 4))
  else .sig c (recNet bs) (BitVec.ofNat 16 (fieldLE bs 8 2)) (((bs[1]?).getD 0).getLsbD 3)

/-- Bytes of the record accepted under a key. -/
def acceptedAs (x : Barge) (k : RecKey) : Option (List Byte) := (x.accepted.find? (·.1 = k)).map (·.2)

/-- The paired copy's record of the same window has the same CORESET. -/
def sameCoreset (x : Barge) (c : Fin 4) (bs : List Byte) : Bool :=
  x.accepted.any fun a => match a.1 with
    | .sig d net w _ => d != c && net == recNet bs && w.toNat == fieldLE bs 8 2 && a.2[10]? == bs[10]?
    | .sealRec _ _ => false

/-- Status of a record whose form is right (Table 04-4, from UNKNOWN on). -/
def knownCode (s : State) (a : RingAt) (bs : List Byte) : Nat :=
  let b := recBargeOf bs
  if !s.mr.delivered.contains (a.ctx, b, recNet bs) then 6
  else match s.barge? b with
    | none => 7
    | some x =>
      if isFinal s x then 7
      else match acceptedAs x (recKey a.isSeal a.ctx bs) with
        | some old => if old = bs then 8 else 9
        | none => if !a.isSeal && sameCoreset x a.ctx bs then 10 else 0

/-- The first test of Table 04-4 that fails, 0 for ACCEPTED; `overrun` says that the slot still held a record. -/
def landingCode (s : State) (a : RingAt) (overrun : Bool) (bs : List Byte) : Nat :=
  if overrun then 1
  else if a.off ≠ 0 ∨ bs.length ≠ (if a.isSeal then 32 else 48) then 2
  else if fieldLE bs 0 1 ≠ (if a.isSeal then 3 else 2) then 3
  else if fieldLE bs 1 1 % 4 ≠ a.ctx.val then 4
  else if !recordChkOk a.isSeal bs then 5
  else knownCode s a bs

/-- The slot of a seal record is freed, and the record counts as consumed (Table 04-2). -/
def freeSealSlot (s : State) (c : Fin 4) (slot : Nat) : State :=
  let x := s.mr.ctxs[c]
  ({ s with mr := { s.mr with ctxs := s.mr.ctxs.set c { x with sealBusy := x.sealBusy.filter (· ≠ slot) } } }).wrapInc (R.Cc_SEAL_CONS c) 31 0

/-- A slot is freed: its record counts as consumed, a discarded one too (log entry 90). -/
def consumeSlot (s : State) (a : RingAt) : State := if a.isSeal then freeSealSlot s a.ctx a.slot else freeSigSlot s a.ctx a.slot

/-- An accepted signature record, parsed. -/
def sigOf (a : RingAt) (bs : List Byte) (now : Stamp) : SigRec :=
  let f := (bs[1]?).getD 0
  ⟨a.ctx, f.getLsbD 2, f.getLsbD 3, recNet bs, recBargeOf bs, BitVec.ofNat 16 (fieldLE bs 8 2), (bs[10]?).getD 0,
    BitVec.ofNat 64 (fieldLE bs 12 8), BitVec.ofNat 128 (fieldLE bs 20 16), BitVec.ofNat 64 (fieldLE bs 36 8), now, a.slot⟩

/-- An accepted seal, parsed. -/
def sealOf (a : RingAt) (bs : List Byte) : SealEntry :=
  ⟨a.ctx, recBargeOf bs, recNet bs, BitVec.ofNat 32 (fieldLE bs 8 4), BitVec.ofNat 64 (fieldLE bs 12 8), BitVec.ofNat 64 (fieldLE bs 24 8)⟩


/-- A live record of the reference copy: its output address, and with LAST the barge's tag (R201, Table 09-2). -/
def refRecord (x : Barge) (r : SigRec) : Barge :=
  if r.copy = refCtx x ∧ !r.dead then
    let x := { x with outAddrs := x.outAddrs ++ [(r.window, r.outAddr)] }
    if r.last then { x with refLast := true, outTag := r.sig.setWidth 64 } else x
  else x

/-- An accepted signature record goes to Mirror, which frees its slot at the hand-over; one with LAST is a check-in of its accelerator entities (R81, R254), and may let the
barge become PENDING (R201). -/
def acceptSig (s : State) (r : SigRec) (landed : Nat) : State :=
  let s := updMr s fun m => { m with handover := m.handover ++ [r] }
  let s := s.updBarge r.barge fun x => refRecord x r
  let s := if r.last then accelCheckin s r.net r.copy landed else s
  if s.wr.ready then tryPending s r.barge else s

/-- A record with a code other than ACCEPTED (R81, R87). A CORESET rejection fails the twin check: the copy's record is discarded, so it is
missing (log entry 90). -/
def rejectRec (s : State) (a : RingAt) (code : Nat) (bs : List Byte) : State :=
  let b := recBargeOf bs
  let s := ((s.setReg (R.Cc_REC_LAST a.ctx) (BitVec.ofNat 32 code)).satAdd (R.Cc_REC_ERR a.ctx) 31 0 1).setBit R.MR_IRQ_STAT 1
  match code with
  | 7 => logLate s 7 b 7
  | 8 => s.satAdd (R.Cc_DUP a.ctx) 31 0 1
  | 9 => breach s 1 a.ctx.val b none
  | 10 =>
    let t := s.raiseFor 26 b
    t.withBarge b fun x => giveTwin t b (if a.ctx = ctxA x then 4 else 5) 0 (fieldLE bs 8 2) (((bs[1]?).getD 0).getLsbD 3)
  | _ => s.raise 26 0

/-- A landed write is stored in Basin. One of less than whole words merges: a corrected word is counted, and an uncorrectable one refuses the
write (R13). -/
def landStore (s : State) (l : Landed) : State :=
  let a := l.addr.toNat
  match if wholeWords a l.bytes.length then .clean else codeFinding l.ecc with
  | .clean => s.store a l.bytes
  | .corrected => basinCorrected (s.store a l.bytes)
  | .uncorrectable => basinUncorrectable s a

/-- Test one landed write as a record. -/
def landRecord (s : State) (l : Landed) (a : RingAt) : State :=
  let code := landingCode s a l.overrun l.bytes
  if code = 1 then rejectRec s a code l.bytes
  else
    let s := landStore s l
    if code ≠ 0 then rejectRec (consumeSlot s a) a code l.bytes
    else
      let k := recKey a.isSeal a.ctx l.bytes
      let s := s.updBarge (recBargeOf l.bytes) fun x => { x with accepted := x.accepted ++ [(k, l.bytes)] }
      if a.isSeal then storeSeal (consumeSlot s a) (sealOf a l.bytes) l.now else acceptSig s (sigOf a l.bytes l.now) l.at_

/-- LANDING_WRITE (R81): the oldest landed write, once its bank takes it (R344, R347). A write outside every strip is plain memory (log
entry 55). -/
def execLandingWrite (s : State) : Out :=
  .next (match s.mr.landed with
    | [] => s
    | l :: rest =>
      if basinWaits s l.addr.toNat l.bytes.length then s
      else
        let s := updMr s fun m => { m with landed := rest }
        match l.ring with
        | none => landStore s l
        | some a => landRecord s l a)

/-! ### PATROL_BLOCK (R88, R89) -/

/-- The enabled regions of a port, ascending. -/
def portRegions (s : State) (n : Fin 2) : List Nat :=
  (List.range 64).filter fun r => s.flag (R.PATr_CFG r) 0 && s.fld (R.PATr_CFG r) 1 1 == n.val

/-- The region after `r` in the port's round. -/
def nextRegion (s : State) (n : Fin 2) (r : Nat) : Option (Fin 64) :=
  let rs := portRegions s n
  ((match rs.find? (r < ·) with | some q => some q | none => rs.head?)).map (Fin.ofNat 64)

/-- The region and block the patrol reads now: where it stands, or after an open that took its region or shortened it, the next
region from its first block. -/
def patrolAt (s : State) (n : Fin 2) : Option (Fin 64 × Nat) :=
  match s.mr.ports[n].patrol with
  | some (r, k) =>
    if (portRegions s n).contains r.val && decide (k < (s.reg (R.PATr_LEN r)).toNat) then some (r, k)
    else (nextRegion s n r.val).map fun q => (q, 0)
  | none => ((portRegions s n).head?).map fun r => (Fin.ofNat 64 r, 0)

/-- Outstanding barges of a region's network on its port, with a context of theirs there, in barge order (R87). -/
def outstanding (s : State) (n : Fin 2) (r : Fin 64) : List Barge :=
  s.barges.filter fun x => netId x % 16384 == s.fld (R.PATr_CFG r) 15 2 &&
    (portCtxs n).any fun c => s.mr.ctxs[c].slots.any (·.barge = x.num)

/-- A change found while barges are outstanding is a breach of each (R87). BREACH_CAUSE shows the first context on the port of the
lowest of them (log entry 90). -/
def patrolBreach (s : State) (n : Fin 2) (r : Fin 64) : State :=
  let xs := outstanding s n r
  match minBy (fun x y => decide (sdiff x.num y.num < 0)) xs with
  | none => s
  | some x =>
    let copy := match x.ctxs.find? fun c => portOf c = n with | some c => c.val | none => 0
    let s := (s.setReg R.BREACH_CAUSE (BitVec.ofNat 32 (3 + 4 * copy))).setReg R.BREACH_BARGE x.num
    let s := (s.setBit R.MR_IRQ_STAT 2).raiseOn 27 0 (some (xs.map (·.num)))
    xs.foldl (fun s y => giveAudit s y.num 3 none) s

/-- The accelerator's and the golden address of block `k` of a region. -/
def patBus (s : State) (r : Fin 64) (k : Nat) : Nat := (s.reg64 (R.PATr_ACC_LO r)).toNat + 4096 * k
def patGold (s : State) (r : Fin 64) (k : Nat) : Nat := (s.reg64 (R.PATr_GOLD_LO r)).toNat + 4096 * k

/-- The patrol's read of a block through the outbound window: one that no entry carries ends in error unsent, one that the link ends in
error raises the port's link source too (R74, R75). -/
def patrolFetch (s : State) (n : Fin 2) (r : Fin 64) (k : Nat) (rd : PatrolRead) : Option (List Byte) × State :=
  if !engineReach s n (patBus s r k) 4096 then (none, s)
  else match rd.acc with
    | none => (none, linkEvent s n)
    | some bs => (some bs, s)

/-- Its read of the golden copy: a corrected word is counted, and an uncorrectable one, found now or before, is Hold's error too (R13, R332). -/
def goldFetch (s : State) (r : Fin 64) (k : Nat) (rd : PatrolRead) : Option (List Byte) × State :=
  let a := patGold s r k
  let s := holdBytes s a 4096 false
  match holdEcc s a 4096 rd.gold with
  | .clean => (some (s.bytes a 4096), s)
  | .corrected => (some (s.bytes a 4096), holdCorrected s a)
  | .uncorrectable => (none, holdBadRead s a 4096)

/-- What a block's compare leaves in its region. -/
def patrolResult (s : State) (n : Fin 2) (r : Fin 64) (k : Nat) (rd : PatrolRead) : State :=
  let p := patrolFetch s n r k rd
  let q := goldFetch p.2 r k rd
  let s := q.2
  match p.1, q.1 with
  | none, _ => (updRegion s r fun g => { g with passErr := true, retry := some k }).raise 30 0
  | _, none => (updRegion s r fun g => { g with passErr := true, retry := some k }).raise 30 0
  | some bs, some golden =>
    let s := updRegion s r fun g => { g with retry := if g.retry = some k then none else g.retry }
    if bs = golden then s
    else
      let s := updRegion s r fun g => { g with dirty := true, diffBlk := if g.passDiff then g.diffBlk else k, passDiff := true }
      patrolBreach ((s.setBit R.MR_IRQ_STAT 3).raise 29 0) n r

/-- After a block: the next one, or the end of the pass, which clears DIRTY and starts the age where it was clean. -/
def patrolNext (s : State) (n : Fin 2) (r : Fin 64) (k : Nat) : State :=
  if k + 1 < (s.reg (R.PATr_LEN r)).toNat then updPort s n fun p => { p with patrol := some (r, k + 1) }
  else
    let s := updRegion s r fun g =>
      if g.passDiff || g.passErr then { g with passDiff := false, passErr := false }
      else { g with dirty := false, cleanAt := if patrolVerified s r.val then some s.cycle else g.cleanAt }
    let q := nextRegion s n r
    updPort s n fun p => { p with patrol := q.map fun r => (r, 0) }

/-- PAT_RATE allows the next block: 4,096 bytes at its MB/s have passed since the last one's read (R88). -/
def patrolDue (s : State) (n : Fin 2) : Bool :=
  match s.mr.ports[n].patrolRead with
  | none => true
  | some c => decide (usCycles 4096 ≤ (s.cycle - c) * s.fld R.PAT_RATE 12 0)

/-- PATROL_BLOCK: while the port is SERVING and its patrol is on at a rate above 0. -/
def execPatrolBlock (n : Fin 2) (rd : PatrolRead) (s : State) : Out :=
  .next (if !serving s n || !s.flag R.PAT_CTRL n.val || s.fld R.PAT_RATE 12 0 == 0 || !patrolDue s n then s
    else match patrolAt s n with
      | none => s
      | some (r, k) =>
        let s := updPort s n fun p => { p with patrolRead := some s.cycle }
        let got := match rd.acc with | some bs => bs.length | none => 0
        patrolNext (patrolResult (lnBytes s (lnPort n) got 0) n r k rd) n r k)

/-! ### Port states (R91 to R94) -/

/-- Whether a port may start (R91, R93, R94). -/
def mayStart (s : State) (n : Fin 2) : Bool :=
  let p := s.mr.ports[n]
  portEnabled s n && s.mr.railsUp.isSome && p.state == .off && !p.heldOff && !p.retired

/-- PORT_START: ACC_PERST_N is held low, PERST_DLY runs. -/
def execPortStart (n : Fin 2) (s : State) : Out :=
  .next (if mayStart s n then updPort s n fun p => { p with starting := true, perst := true } else s)

/-- When PERST_DLY counts from: the later of the pin's fall and the rails' completion. -/
def perstFrom (s : State) (n : Fin 2) : Nat := max s.mr.ports[n].perstLow (s.mr.railsUp.getD 0)

/-- A port enters a state. -/
def enterPort (s : State) (n : Fin 2) (st : PortState) : State :=
  (updPort s n fun p => { p with state := st, entered := s.cycle }).setBit R.MR_IRQ_STAT 0

/-- PERST_DELAY_END: the pin goes high, the port trains. -/
def execPerstDelayEnd (n : Fin 2) (s : State) : Out :=
  .next (if mayStart s n && s.mr.ports[n].starting && decide (msCycles (10 * s.fld (R.RPn_CTRL n) 15 8) ≤ s.cycle - perstFrom s n) then
    enterPort (updPort s n fun p => { p with starting := false, perst := false }) n .training
  else s)

/-- A link or identity failure of a start step; retraining is the source's retry (R91, R229). -/
def linkFail (s : State) (n : Fin 2) : State := openMask (linkEvent (portOff s n) n) (linkSource n) 0

/-- LINK_UP_T has passed since TRAINING was entered. -/
def trainLate (s : State) (n : Fin 2) : Bool :=
  decide (msCycles (s.fld (R.RPn_CTRL n) 23 16) ≤ s.cycle - s.mr.ports[n].entered)

/-- The lanes of a port: eight, or sixteen of RP0 with X16 (R71, Table 23-8); a link trains no wider. -/
def trainedWidth (s : State) (width : BitVec 5) : BitVec 5 := if s.flag R.MR_CTRL 1 || decide (width.toNat ≤ 8) then width else 8

/-- LINK_UP (R91 steps 2 and 3). -/
def execLinkUp (n : Fin 2) (speed : BitVec 3) (width : BitVec 5) (id : Word) (s : State) : Out :=
  .next (
    let c := s.reg (R.RPn_CTRL n)
    let width := trainedWidth s width
    if s.mr.ports[n].state != .training then s
    else if trainLate s n || speed.toNat < bits c 3 1 || width.toNat < 4 * 2 ^ bits c 5 4 || id != s.reg (R.RPn_ACC_ID n) then linkFail s n
    else enterPort (updPort s n fun p => { p with speed := speed, width := width, readyLowSeen := !p.ready }) n .waitReady)

/-- LINK_UP_TIMEOUT. -/
def execLinkUpTimeout (n : Fin 2) (s : State) : Out :=
  .next (if s.mr.ports[n].state == .training && trainLate s n then linkFail s n else s)

/-- Whether an input set feeds a port: its network's Mirror entry names a context there. -/
def feedsPort (s : State) (n : Fin 2) (k : Nat) : Bool :=
  s.flag (R.SETk_CFG k) 0 &&
  (match netOfSet s k with
   | some x => (bargeCtxs (mnetCfgOf s (s.fld (R.NETx_CFG x) 15 0))).any fun c => portOf c = n
   | none => false)

/-- Whether a stream is a member of such a set. -/
def streamFeeds (s : State) (n : Fin 2) (i : Nat) : Bool :=
  (List.range 16).any fun k => feedsPort s n k && s.flag (R.SETk_MEMBERS k) i

/-- The port enters SERVING: EPOCH, the streams of its sets and its entities' cycles restart (R92, R254). -/
def enterServing (s : State) (n : Fin 2) : State :=
  let s := enterPort (updPort s n fun p => { p with epoch := p.epoch + 1, patrol := none }) n .serving
  restartEntities (restartAll s (streamFeeds s n)) n

/-- ACC_BOOT_T has passed since WAIT_READY was entered. -/
def bootLate (s : State) (n : Fin 2) : Bool :=
  decide (msCycles (100 * s.fld (R.RPn_CTRL n) 31 24) ≤ s.cycle - s.mr.ports[n].entered)

/-- ACC_READY_RISE (R91 step 4): a level already high at entry to WAIT_READY does not count, and a rise after ACC_BOOT_T is late. -/
def execAccReadyRise (n : Fin 2) (s : State) : Out :=
  .next (
    let late := s.mr.ports[n].state == .waitReady && bootLate s n
    let go := s.mr.ports[n].state == .waitReady && s.mr.ports[n].readyLowSeen
    let s := updPort s n fun p => { p with ready := true }
    if late then (portOff s n).raise 31 0 else if go then enterServing s n else s)

/-- ACC_BOOT_TIMEOUT. -/
def execAccBootTimeout (n : Fin 2) (s : State) : Out :=
  .next (if s.mr.ports[n].state == .waitReady && bootLate s n then (portOff s n).raise 31 0 else s)

/-- ACC_READY_FALL. -/
def execAccReadyFall (n : Fin 2) (s : State) : Out :=
  .next (
    let s := updPort s n fun p => { p with ready := false, readyLowSeen := p.readyLowSeen || p.state == .waitReady }
    if serving s n then (leaveServing s n).raise 31 0 else s)

/-- ACC_FAULT (R91, R92): the level of ACC_FAULT_N; its assertion ends SERVING or the start step, and is ignored in OFF. -/
def execAccFault (n : Fin 2) (asserted : Bool) (s : State) : Out :=
  .next (
    let rise := asserted && !s.mr.ports[n].fault && s.mr.ports[n].state != .off
    let s := updPort s n fun p => { p with fault := asserted }
    if rise then (leaveServing s n).raise 31 0 else s)

/-- ACC_THERM (R92). -/
def execAccTherm (n : Fin 2) (asserted : Bool) (s : State) : Out :=
  .next (
    let rise := asserted && !s.mr.ports[n].therm
    let s := updPort s n fun p => { p with therm := asserted }
    if rise then s.raise 31 0 else s)

/-- Whether the port has a link. -/
def linkIsUp (s : State) (n : Fin 2) : Bool := s.mr.ports[n].state == .waitReady || s.mr.ports[n].state == .serving

/-- Reads outstanding when the link goes down end at once (R75). -/
def endReads (s : State) (n : Fin 2) : State := s.mr.ports[n].reads.foldl (fun s r => readFails s n r) s

/-- LINK_DOWN (R92, R94): DL_Down. -/
def execLinkDown (n : Fin 2) (s : State) : Out :=
  .next (
    let up := linkIsUp s n
    let s := endReads s n
    if up then openMask (linkEvent (leaveServing (s.satAdd (R.RPn_LINKDOWN n) 31 0 1) n) n) (linkSource n) 0 else s)

/-- LTSSM_RECOVERY (R94). -/
def execLtssmRecovery (n : Fin 2) (s : State) : Out :=
  .next (if linkIsUp s n then openMask (linkEvent (s.satAdd (R.RPn_RECOV n) 31 0 1) n) (linkSource n) 0 else s)

/-- ACC_RESET (R92, R93): a Keeper write of 1; ACC_PERST_N low for PERST_DLY from now. -/
def execAccReset (i : Initiator) (n : Fin 2) (v : Word) (s : State) : Out :=
  .next (s.keeperWrite i fun s => if v = 1 then leaveServing s n else s)

/-- UNCORRECTABLE_ERROR_MESSAGE (Table 04-11): counted in RPn_AER; an uncorrectable one raises the link source. -/
def execUncorrectableErrorMessage (n : Fin 2) (uncorrectable : Bool) (s : State) : Out :=
  .next (if !linkIsUp s n then s
    else if uncorrectable then linkEvent (s.satAdd (R.RPn_AER n) 31 16 1) n
    else s.satAdd (R.RPn_AER n) 15 0 1)

end Sys2Proof.Machine
end

