-- ==== Sys2Proof/Machine/Rails.lean ====
section
/-! DEFINITION. Machine/Rails.lean: how the accelerator's rails go down (R320, R321) and how a start fails (R311): what Beacon's
reactions, Weir's sequencer and the start sequencer share. -/

namespace Sys2Proof.Machine

/-- Change Weir's state. -/
def updWr (s : State) (f : Weir → Weir) : State := { s with wr := f s.wr }

/-- A field [hi:lo] of step `k` of the table an up sequence began with. -/
def seqField (s : State) (k hi lo : Nat) : Nat :=
  match s.wr.seqTab[k]? with
  | some p => bits p.1 hi lo
  | none => 0

/-- The channels that the WAIT_IN steps after step `k` arm, up to the next EN_HIGH step: those its pins enable. -/
def channelsAfter (s : State) (k : Nat) : List Nat :=
  let rest := ((List.range 16).filter (k < ·)).takeWhile fun j => seqField s j 3 0 != 1 && seqField s j 3 0 != 0
  (List.range 16).filter fun c => rest.any fun j => seqField s j 3 0 == 2 && (seqField s j 31 16).testBit c

/-- The channels disarmed when a pin falls. -/
def channelsOfPin (s : State) (pin : Nat) : List Nat :=
  match (List.range 16).find? fun k => seqField s k 3 0 == 1 && (seqField s k 31 16).testBit pin with
  | some k => channelsAfter s k
  | none => []

/-- ACHc_CFG.FILT. -/
def filt (s : State) (c : Nat) : Nat := s.fld (R.ACHc_CFG c) 4 1

/-- ES121's line: an armed channel has shown FILT values in a row outside its window (R318). -/
def adcLevel (s : State) : State :=
  s.level 121 ((List.range 16).any fun k => s.wr.adcs[Fin.ofNat 16 k].armed && decide (filt s k ≤ s.wr.adcs[Fin.ofNat 16 k].badRun))

/-- Disarm the channels of which `p` holds (R318). -/
def disarm (s : State) (p : Nat → Bool) : State :=
  adcLevel <| updWr s fun w => { w with adcs := w.adcs.mapFinIdx fun c x _ => if p c then { x with armed := false, goodRun := 0, badRun := 0 } else x }

/-- The down sequence starts (R320): ACC_PERST_N low on every port; DOWN_LEAD runs from here. One that already runs goes on. -/
def startDown (s : State) : State :=
  if s.wr.seq = .down then s
  else
    let s := foldN 2 (fun s n => leaveServing s (Fin.ofNat 2 n)) s
    updWr { s with mr := { s.mr with railsUp := none } } fun w => { w with seq := .down, seqDelay := false, seqSince := s.cycle }

/-- A C4 reaction: ACC_EN0-7 low together (R321); the sequencer is OFF and every channel disarmed (log entry 70). -/
def cutRails (s : State) : State :=
  let s := disarm { s with mr := { s.mr with railsUp := none } } fun _ => true
  updWr s fun w => { w with accEn := 0, raised := [], seq := .off, seqDelay := false }

/-- A step of the start fails (R311): the start ends, and rails that stand go down in sequence. -/
def startFail (s : State) (code : BitVec 4) : State :=
  if s.wr.ready || s.wr.fail != 0 then s
  else
    let s := updWr s fun w => { w with fail := code }
    if s.wr.seq = .up ∨ s.wr.seq = .on then startDown s else s

/-- A C3 or C4 reaction during the start ends it with SAFE_STATE (Table 15-3); a C3 starts no down sequence (R320). -/
def startSafe (s : State) : State :=
  updWr s fun w => { w with safeSinceStart := true, fail := if !w.ready && w.fail == 0 && w.step != 0 then 0xB else w.fail }

end Sys2Proof.Machine
end

