-- ==== Sys2Proof/Machine/SafeIo.lean ====
section
/-! DEFINITION. Machine/SafeIo.lean: the brake channels' commands, LO_ACK, safe inputs and the seal loop (R262 to R278). -/

namespace Sys2Proof.Machine

/-! ### Times and readings -/

/-- SETTLE and DECAY of a channel, in TCLK cycles (Table 13-9). -/
def settleTime (s : State) (n : Fin 4) : Nat := usCycles (10 * s.fld (R.BRKn_TIME n) 7 0)
def decay (s : State) (n : Fin 4) : Nat := msCycles (s.fld (R.BRKn_TIME n) 15 8)
/-- TP_W and TP_PER. -/
def pulseWidth (s : State) (n : Fin 4) : Nat := usCycles (10 * s.fld (R.BRKn_TIME n) 23 16)
def pulsePeriod (s : State) (n : Fin 4) : Nat := msCycles (1000 * s.fld (R.BRKn_TIME n) 29 24)

/-! ### Release and apply -/

/-- BRAKE_RELEASE_REQUEST (R264, R265, R267): RELEASE is set; LSG goes on alone when every condition holds, else RELEASE is cleared again. -/
def execBrakeReleaseRequest (i : Initiator) (n : Fin 4) (s : State) : Out :=
  .next (s.keeperWrite i fun s =>
    let s := s.setFld (R.BRKn_REQ n) 0 0 1
    if leftApplied s.sio.brakes[n] then s
    else if mayRelease s n && s.sio.brakes[n].state == .applied then
      updBrake (enterBrake s n .releasing1 false true) n fun b => { b with offFrom := none }
    else s.setFld (R.BRKn_REQ n) 0 0 0)

/-- BRAKE_APPLY_REQUEST (R264): a Keeper write of RELEASE = 0; both gates off, APPLIED. -/
def execBrakeApplyRequest (i : Initiator) (n : Fin 4) (s : State) : Out :=
  .next (s.keeperWrite i fun s =>
    let s := s.setFld (R.BRKn_REQ n) 0 0 0
    if leftApplied s.sio.brakes[n] then gatesOff s n .applied else s)

/-- The syndrome of ES96 to ES98: the channel and both classes (R263; its bit places are log entry 98's). -/
def brakeSyn (n : Fin 4) (r : BrakeReading) : Half :=
  let cls := fun (c : NodeClass) => match c with | .low => 0 | .mid => 1 | .high => 2
  BitVec.ofNat 16 (n.val + 4 * cls r.hi + 16 * cls r.lo)

/-- A fault of a channel (R272): its source asserts, and the channel locks itself out. -/
def brakeFault (s : State) (n : Fin 4) (src cause : Nat) : State :=
  lockChannel (s.raiseSyn src n (brakeSyn n s.sio.brakes[n].reading) none) n cause

/-- RELEASE_LSG_CONFIRMED (R267): both nodes read LOW within SETTLE, HSG goes on; later, the step has failed. -/
def execReleaseLsgConfirmed (n : Fin 4) (r : BrakeReading) (s : State) : Out :=
  let age := s.cycle - s.sio.brakes[n].since
  let s := readBrake s n r
  .next (if s.sio.brakes[n].state ≠ .releasing1 then s
    else if settleTime s n < age then brakeFault s n 96 2
    else if r.hi = .low ∧ r.lo = .low then enterBrake s n .releasing2 true true
    else s)

/-- The cycles after the last gate change at which the nodes were first right: `c` as the block's own samples have it, or the first of the
readings that came earlier. -/
def firstRight (b : Brake) (c : Nat) : Nat :=
  match b.rightAt with
  | some x => min c (x - b.since)
  | none => c

/-- RELEASE_COMPLETE (R267): FBH HIGH and FBL LOW within SETTLE, first at `c` cycles after HSG went on, the current in its range within
DECAY: RELEASED; later, the step has failed. -/
def execReleaseComplete (n : Fin 4) (r : BrakeReading) (c : Nat) (s : State) : Out :=
  let b := s.sio.brakes[n]
  let age := s.cycle - b.since
  let s := readBrake s n r
  .next (if b.state ≠ .releasing2 then s
    else if decide (settleTime s n < age) && decide (settleTime s n < firstRight b c) then brakeFault s n 96 2
    else if decay s n < age then brakeFault s n 97 3
    else if nodesAsExpected true true r ∧ currentOn s n r then enterBrake s n .released true true
    else s)

/-- A watch has been wrong for longer than a time. -/
def Watch.wrongFor (w : Watch) (now t : Nat) : Bool := !w.ok && decide (t < now - w.from_)

/-- Whether a node class is wrong for longer than SETTLE (R263, R267): in every state but OFF; after a pulse only once DECAY is over
(R269). -/
def switchFault (s : State) (n : Fin 4) : Bool :=
  let b := s.sio.brakes[n]
  b.state != .off && b.nodes.wrongFor s.cycle (settleTime s n) && (!b.afterPulse || decide (decay s n < s.cycle - b.since))

/-- Whether the shunt voltage is wrong for longer than SETTLE (R263), after a gate change once DECAY is over (R267, R268, Table 13-2);
not judged in a pulse (R269). -/
def currentFault (s : State) (n : Fin 4) : Bool :=
  let b := s.sio.brakes[n]
  b.state != .off && b.state != .test && b.current.wrongFor s.cycle (settleTime s n) &&
  (b.state == .releasing1 || decide (decay s n < s.cycle - b.since))

/-- BRAKE_READBACK_FAULT (R263, R272): a reading that leaves a class or the shunt voltage wrong beyond its time: ES96 or ES97. -/
def execBrakeReadbackFault (n : Fin 4) (r : BrakeReading) (s : State) : Out :=
  let s := readBrake s n r
  .next (if switchFault s n then brakeFault s n 96 2
    else if currentFault s n then brakeFault s n 97 3
    else s)

/-! ### Test pulses (R269 to R271) -/

/-- TEST_PULSE_START (R269, R270): TP_PER is over on a RELEASED channel, no other pulse runs, and DECAY has passed since RELEASED. -/
def execTestPulseStart (n : Fin 4) (s : State) : Out :=
  let b := s.sio.brakes[n]
  .next (if b.state = .released ∧ pulsePeriod s n ≤ tpCount s b ∧ decay s n ≤ s.cycle - b.tpFrom ∧
      s.sio.brakes.all (fun x => x.state != .test) then
    updBrake (enterBrake s n .test false false) n fun b => { b with judge := some s.cycle }
  else s)

/-- A passed test (R269): counted, the age 0, the TP_PER count restarted. -/
def testPassed (s : State) (n : Fin 4) : State :=
  ((updBrake s n fun b => { b with testAt := s.cycle, tpRan := 0, tpFrom := s.cycle }).wrapInc (R.BRKn_TESTS n) 15 0).setBit R.SIO_IRQ_STAT 2

/-- TEST_PULSE_JUDGE (R269, R271): at SETTLE after the gates went off, even when an off-demand has come meanwhile. -/
def execTestPulseJudge (n : Fin 4) (r : BrakeReading) (s : State) : Out :=
  let s := readBrake s n r
  .next (match s.sio.brakes[n].judge with
    | none => s
    | some c =>
      if s.cycle - c < settleTime s n then s
      else
        let s := updBrake s n fun b => { b with judge := none }
        if bothOff r then testPassed s n
        else brakeFault ((s.satAdd (R.BRKn_TESTS n) 31 16 1).setBit R.SIO_IRQ_STAT 2) n 98 4)

/-- TEST_PULSE_END (R269): TP_W is over, the test is judged and no off-demand fell; both gates go on together. -/
def execTestPulseEnd (n : Fin 4) (s : State) : Out :=
  let b := s.sio.brakes[n]
  .next (if b.state = .test ∧ b.judge = none ∧ pulseWidth s n ≤ s.cycle - b.since then
    updBrake (enterBrake s n .released true true) n fun b => { b with afterPulse := true }
  else s)

/-- OFF_TRANSITION_PASS (R268): both-off evidence that came within SETTLE and persists, and the current below I_OFF within DECAY, count
as a passed test. -/
def execOffTransitionPass (n : Fin 4) (r : BrakeReading) (s : State) : Out :=
  let s := readBrake s n r
  let b := s.sio.brakes[n]
  .next (match b.offFrom with
    | none => s
    | some c =>
      if b.nodes.ok && b.current.ok && decide (b.nodes.from_ ≤ c + settleTime s n ∧ b.current.from_ ≤ c + decay s n) then
        testPassed (updBrake s n fun b => { b with offFrom := none }) n
      else s)

/-- BRAKE_SUPPLY_FAULT (R272): the measured supply; outside its window the line of ES102 is asserted and every channel locks. -/
def execBrakeSupplyFault (mv10 : Half) (s : State) : Out :=
  let s := { s with sio := { s.sio with supply := mv10 } }
  .next (if supplyInWindow s then s.level 102 false else supplyFault s)

/-! ### LO_ACK (R274) -/

/-- LO_ACK_PRESS_START (R274): the debounced rising edge; remembers whether the companion was READY with a channel LOCKED. -/
def execLoAckPressStart (s : State) : Out :=
  .next { s with sio := { s.sio with pressAt := some s.cycle, pressValid := s.wr.ready && (List.range 4).any fun n => isLocked s (Fin.ofNat 4 n) } }

/-- What a channel must show for its lock-out to be cleared (R274): both-off evidence, no current, the supply in its window, and none
of its own ES96 to ES98 or ES102 asserted, be it a line that waits for Beacon or a reading wrong beyond its time (log entry 98). -/
def mayUnlock (s : State) (n : Fin 4) : Bool :=
  let r := s.sio.brakes[n].reading
  bothOff r && currentOff s n r && supplyInWindow s && !s.bc.levels.contains 102 && !switchFault s n && !currentFault s n &&
  s.bc.lines.all (fun l => l.chan.toNat != n.val || (l.src != 96 && l.src != 97 && l.src != 98))

/-- Clear a channel's lock-out, or leave it and set LO_REJECT. -/
def unlockOne (s : State) (n : Nat) : State :=
  let n := Fin.ofNat 4 n
  if !isLocked s n then s
  else if mayUnlock s n then
    gatesOff (s.setReg (R.BRKn_LOCK n) 0) n (if s.flag (R.BRKn_CFG n) 0 then .applied else .off)
  else s.setBit R.SIO_IRQ_STAT 3

/-- LO_ACK_PRESS (R274): the falling edge ends a press. -/
def execLoAckPress (s : State) : Out :=
  .next (match s.sio.pressAt with
    | none => s
    | some c =>
      let d := s.cycle - c
      let valid := s.sio.pressValid
      let s := { s with sio := { s.sio with pressAt := none, pressValid := false } }
      let s := s.setFld R.LO_STAT 15 0 (min (d / 750000) 0xFFFF)
      if d < msCycles 200 ∨ msCycles 3000 < d then
        ((s.setFld R.LO_STAT 16 16 0).satAdd R.LO_STAT 31 24 1).raise 101 0
      else if valid then foldN 4 unlockOne (s.setFld R.LO_STAT 16 16 1)
      else (s.setFld R.LO_STAT 16 16 0).satAdd R.LO_STAT 31 24 1)

/-! ### Safe inputs (R275, R276) -/

/-- Change a safe input. -/
def updSin (s : State) (n : Fin 8) (f : Sin → Sin) : State :=
  { s with sio := { s.sio with sins := s.sio.sins.set n (f s.sio.sins[n]) } }

/-- The state the two contacts give (R275); FAULT is left only with both in the demand position. -/
def sinNext (anti : Bool) (old : SinState) (a b : Bool) : SinState :=
  let bp := b != anti
  match old, a, bp with
  | _, false, false => .demand
  | .fault, _, _ => .fault
  | _, true, true => .permit
  | _, _, _ => .discrepant

/-- An input becomes FAULT: counted, ES99 (with syndrome CROSS for a cross-short), brakes on it apply. -/
def sinFault (s : State) (n : Fin 8) (cross : Bool) : State :=
  let s := updSin s n fun x => { x with state := .fault, cross := x.cross || cross, faults := min (x.faults + 1) 0xFFFF }
  let s := s.setBit R.SIO_IRQ_STAT 1
  brakesCheck (if cross then s.raiseSyn 99 0 Config.sinCross none else s.raise 99 0)

/-- DISC has passed since the contacts first disagreed (R275). -/
def discOver (s : State) (n : Fin 8) : Bool :=
  s.sio.sins[n].state == .discrepant && decide (msCycles (s.fld (R.SINi_CFG n) 24 16) ≤ s.cycle - s.sio.sins[n].since)

/-- The filtered contacts of an enabled input now read `a` and `b`; brakes on it follow at once (R264). -/
def sinContacts (n : Fin 8) (a b : Bool) (s : State) : State :=
  let st := sinNext (s.flag (R.SINi_CFG n) 1) s.sio.sins[n].state a b
  let changed := st != s.sio.sins[n].state
  let s := updSin s n fun x =>
    { x with state := st, a := a, b := b, cross := x.cross && st == .fault,
             since := if st == .discrepant && x.state != .discrepant then s.cycle else x.since }
  brakesCheck (if changed then s.setBit R.SIO_IRQ_STAT 1 else s)

/-- SIN_CONTACT_CHANGE (R275): an input whose contacts have disagreed past DISC is FAULT before it takes them. -/
def execSinContactChange (n : Fin 8) (a b : Bool) (s : State) : Out :=
  .next (if s.flag (R.SINi_CFG n) 0 then sinContacts n a b (if discOver s n then sinFault s n false else s)
    else updSin s n fun x => { x with a := a, b := b })

/-- SIN_DISCREPANCY_TIMEOUT (R275): the contacts have not agreed within DISC. -/
def execSinDiscrepancyTimeout (n : Fin 8) (s : State) : Out :=
  .next (if discOver s n then sinFault s n false else s)

/-- Whether an input fails a pulse (R276): its own contact, closed, still reads high, or the other contact, closed, follows the pulse. -/
def pulseFails (x : Sin) (src la lb : Bool) : Bool :=
  if src then (x.b && lb) || (x.a && !la) else (x.a && la) || (x.b && !lb)

/-- One input's check in a pulse of SIN_TPA (src clear) or SIN_TPB (src set). -/
def pulseOne (src : Bool) (la lb : BitVec 8) (s : State) (n : Nat) : State :=
  let bad := pulseFails s.sio.sins[Fin.ofNat 8 n] src (la.getLsbD n) (lb.getLsbD n)
  let n := Fin.ofNat 8 n
  if s.flag (R.SINi_CFG n) 0 && s.flag (R.SINi_CFG n) 2 && s.flag R.SIO_CTRL 1 then
    let run := if bad then (if src then s.sio.sins[n].badB else s.sio.sins[n].badA) + 1 else 0
    let s := updSin s n fun x => if src then { x with badB := run } else { x with badA := run }
    if 2 ≤ run && s.sio.sins[n].state != .fault then sinFault s n true else s
  else s

/-- Whether a cycle count has passed since an event, if there was one. -/
def since? (s : State) (at_ : Option Nat) (n : Nat) : Bool := match at_ with | some c => decide (n ≤ s.cycle - c) | none => true

/-- A source's pulse is due: every 10 ms, SIN_TPB 5 ms after SIN_TPA. -/
def pulseDue (s : State) (src : Bool) : Bool :=
  s.flag R.SIO_CTRL 1 &&
  if src then s.sio.tpaAt.isSome && since? s s.sio.tpaAt (msCycles 5) && since? s s.sio.tpbAt (msCycles 10)
  else since? s s.sio.tpaAt (msCycles 10)

/-- SIN_TEST_PULSE (R276): a source pulses low; the levels read on the A and B contacts during the pulse. -/
def execSinTestPulse (src : Bool) (levelA levelB : BitVec 8) (s : State) : Out :=
  .next (if pulseDue s src then
    let s := foldN 8 (pulseOne src levelA levelB) s
    { s with sio := if src then { s.sio with tpbAt := some s.cycle } else { s.sio with tpaAt := some s.cycle } }
  else s)

/-! ### The seal loop (R278) -/

/-- The return of one step against the level driven; three wrong in a row are an open loop, which blocks READY, and after READY raises
ES100. -/
def sealLoop (good : Bool) (s : State) : State :=
  let run := if good then 0 else s.sio.loopBad + 1
  let s := { s with sio := { s.sio with
    loopBad := run, loopPos := s.sio.loopPos + 1, loopAt := some s.cycle
    loopGood := if good then true else if 3 ≤ run then false else s.sio.loopGood } }
  if run = 3 then (if s.wr.ready then s.raise 100 0 else if 5 ≤ s.wr.step then startFail s 4 else s) else s

/-- SEAL_LOOP_STEP (R278): every 10 µs, what SEAL_LOOP_I shows within 2 µs. -/
def execSealLoopStep (returned : Bool) (s : State) : Out :=
  .next (if s.wr.step ≠ 0 ∧ since? s s.sio.loopAt (usCycles 10) then sealLoop (returned == Config.sealLoopBit s.sio.loopPos) s else s)

end Sys2Proof.Machine
end

