-- ==== Sys2Proof/Machine/Groups.lean ====
section
/-! DEFINITION. Machine/Groups.lean: logical and physical tiles (R139), sentinel groups, resident slots and the fit of a model
(R169 to R175). -/

namespace Sys2Proof.Machine

/-! ### Tiles -/

/-- TL_MAP.STATE ACTIVE, its logical index and role of physical tile `p`. -/
def tileActive (s : State) (p : Nat) : Bool := s.fld (R.TL_MAP p) 6 5 == 1
def tileLogical (s : State) (p : Nat) : Nat := s.fld (R.TL_MAP p) 4 0
def tileRole (s : State) (p : Nat) : Nat := s.fld (R.TL_MAP p) 8 7

/-- The ACTIVE tile that holds a logical index. -/
def holder (s : State) (l : Nat) : Option Nat := (List.range 36).find? fun p => tileActive s p && tileLogical s p == l

/-- Change a tile. -/
def updTile (s : State) (p : Fin 36) (f : Tile → Tile) : State := { s with tiles := s.tiles.set p (f s.tiles[p]) }

/-- Base of a tile's SRAM (R144). -/
def tileBase (p : Nat) : Nat := 0x40000000 + 0x400000 * p

/-! ### Groups and slots -/

/-- Enabled group, its role, slots per tile, slot size in bytes, and its first slot's SRAM offset (Table 08-14). -/
def groupOn (s : State) (g : Nat) : Bool := s.flag (R.SGg_CFG g) 0
def groupLamp (s : State) (g : Nat) : Bool := s.flag (R.SGg_CFG g) 1
def groupSlots (s : State) (g : Nat) : Nat := s.fld (R.SGg_CFG g) 7 2
def slotBytes (s : State) (g : Nat) : Nat := 16384 * s.fld (R.SGg_CFG g) 14 8
def slotOffset (s : State) (g i : Nat) : Nat := 4096 * s.fld (R.SGg_CFG g) 25 16 + i * slotBytes s g

/-- Logical tiles that the layout in effect gives a group (GEOM_TOKEN.LOGICAL_COUNT), and its active ones. -/
def groupTiles (s : State) (g : Nat) : List Nat :=
  (List.range 32).filter fun l => s.flag (R.SGg_TILES g) l && decide (l < s.fld (R.GEOM_TOKEN 0) 7 0)
def groupActive (s : State) (g : Nat) : List Nat := (groupTiles s g).filter fun l => (holder s l).isSome

/-- A group whose active count differs from the count its layout gives it (R218, R444). -/
def groupBroken (s : State) (g : Nat) : Bool := (groupTiles s g).any fun l => (holder s l).isNone

/-- The first resident slot of group `g`: slots are numbered in order of group and then index. -/
def slotFirst (s : State) (g : Nat) : Nat := ((List.range g).map fun h => if groupOn s h then groupSlots s h else 0).sum

/-- The group a resident slot belongs to. -/
def slotGroup (s : State) (r : Nat) : Option Nat :=
  (List.range 8).find? fun g => groupOn s g && slotFirst s g ≤ r && r < slotFirst s g + groupSlots s g

/-! ### The library (R169, R173) -/

/-- The manifest of a bank, and the model of a number in the active one. -/
def manifest (s : State) (b : Bool) : List Model := if b then s.sn.manifestB else s.sn.manifestA
def modelOf (s : State) (m : BitVec 12) : Option Model := (manifest s (activeBank s)).find? (·.num = m)

/-- The variant a group would use: of those that fit, the one with the largest TILES (R173). -/
def fitVariant (s : State) (g : Nat) (m : Model) : Option (Nat × Variant) :=
  let n := (groupActive s g).length
  let fits := (List.range m.variants.length).filterMap fun i =>
    match m.variants[i]? with
    | some v => if v.tiles ≤ n && 1024 * v.partKib ≤ slotBytes s g then some (i, v) else none
    | none => none
  minBy (fun a b => decide (b.2.tiles < a.2.tiles)) fits

/-- Change a resident slot. -/
def updSlot (s : State) (r : Fin 64) (f : ResSlot → ResSlot) : State :=
  { s with sn := { s.sn with slots := s.sn.slots.set r (f s.sn.slots[r]) } }

/-- The variant a slot holds. -/
def slotVariant (s : State) (x : ResSlot) : Option Variant := (modelOf s x.model).bind fun m => m.variants[x.variant.toNat]?

/-- Logical tiles a slot's model runs on: the lowest active ones of its group (R173). -/
def slotTiles (s : State) (x : ResSlot) : List Nat :=
  match slotVariant s x with
  | some v => (groupActive s x.group.val).take v.tiles
  | none => []

/-- The resident slot whose model runs from tile entry `e` on physical tile `p`. -/
def slotOfEntry (s : State) (p : Nat) (e : Nat) : Option (Fin 64) :=
  find64 fun r =>
    let x := s.sn.slots[Fin.ofNat 64 r]
    (x.state == .resident || x.state == .running) && (slotTiles s x).contains (tileLogical s p) &&
      (match slotVariant s x with | some v => v.entry == e | none => false)

/-- A slot empty of any model. -/
def emptySlot : ResSlot := ⟨.empty, 0, 0, 0⟩

/-- A tile leaves ACTIVE: every slot whose model uses it is emptied (R175). `l` is the logical index it held. -/
def emptySlotsOf (s : State) (l : Nat) : State :=
  { s with sn := { s.sn with slots := s.sn.slots.map fun x =>
      if x.state != .empty && (groupTiles s x.group.val).contains l && ((slotTiles s x).contains l || (slotTiles s x).isEmpty) then emptySlot else x } }

/-- The models a sentinel check or a lamp view check names, each with the groups it may run in (R171, R175). -/
def namedModels (s : State) : List (BitVec 12 × List Nat) :=
  ((List.range 64).filterMap fun x =>
    if s.flag (R.SCHKx_CFG x) 16 then some (BitVec.ofNat 12 (s.fld (R.SCHKx_MODEL x) 11 0), [s.fld (R.SCHKx_CFG x) 19 17]) else none) ++
  ((List.range 256).filterMap fun l =>
    if s.flag (R.LMPl_CFG l) 0 && s.flag (R.LMPl_CFG l) 1 then
      some (BitVec.ofNat 12 (s.fld (R.LMPl_SVIEW l) 11 0), (List.range 8).filter fun g => groupOn s g && groupLamp s g)
    else none)

/-- Whether a named model fits one of its groups. -/
def modelFits (s : State) (m : BitVec 12) (gs : List Nat) : Bool :=
  match modelOf s m with
  | some d => gs.any fun g => (fitVariant s g d).isSome
  | none => false

/-- The test of every named model after a lock-cycle open (R175): one that no longer fits every group it is named for becomes
UNAVAILABLE, with ES55 once. -/
def retestModels (s : State) : State :=
  let named := namedModels s
  ((named.map (·.1)).eraseDups).foldl (fun s m =>
    if named.all fun n => n.1 != m || modelFits s n.1 n.2 then { s with sn := { s.sn with unavail := s.sn.unavail.filter (· ≠ m) } }
    else if s.sn.unavail.contains m then s
    else (({ s with sn := { s.sn with unavail := s.sn.unavail ++ [m] } }).setBit R.SN_IRQ_STAT 4).raise 55 0) s

end Sys2Proof.Machine
end

