-- ==== Sys2Proof/Machine/Guards.lean ====
section
/-! DEFINITION. Machine/Guards.lean: the regions of Hold that refuse writes (R170, R294, R335). -/

namespace Sys2Proof.Machine

/-- The recorder region (R336). -/
def inRecorder (s : State) (a n : Nat) : Bool := meets a n (recBase s) (1048576 * s.fld R.HD_REC_SIZE 14 0)

/-- A write from a core or a tile that the Hold controller refuses (R335). -/
def holdProtected (s : State) (a n : Nat) : Bool :=
  shutHold s a n || inRecorder s a n

/-- What an access refused on the network leaves: at Basin the bank's refusal, at Hold the protection's, at the Vault ES74 (R340, R335, R345). -/
def extRefusal (s : State) (write : Bool) (a n : Nat) : State :=
  if basinBase ≤ a ∧ a + n ≤ basinBase + 0x2000000 then bankRefusal s .tiles write a n
  else if meets a n 0x24000000 0x200000 then (if s.se.wiping.isSome then s else basinRefused s)
  else if write && inHold s a n && holdProtected s a n then holdRefusal s
  else s

end Sys2Proof.Machine
end

