-- ==== Sys2Proof/Machine/Runs.lean ====
section
/-! DEFINITION. Machine/Runs.lean: the runs of resident models on their tiles: for a sentinel check (R176, R177, R218, R219) and for a
lamp's view (R185). -/

namespace Sys2Proof.Machine

/-! ### RESr_STAT -/

/-- A run from a resident slot begins on a tile: the slot is RUNNING, and a new run counts in RESr_RUNS. -/
def slotRuns (s : State) (r : Fin 64) : State :=
  if s.sn.slots[r].state = .running then s
  else (updSlot s r fun x => { x with state := .running }).wrapInc (R.RESr_RUNS r) 31 0

/-- A run ends on tile `p`: its slot is RESIDENT again once no other tile of its model runs the entry. -/
def slotRests (s : State) (p : Fin 36) (e : Nat) : State :=
  match slotOfEntry s p.val e with
  | none => s
  | some r =>
    let busy := (slotTiles s s.sn.slots[r]).any fun l => match holder s l with
      | some q => q != p.val && s.tiles[Fin.ofNat 36 q].run == .running && s.tiles[Fin.ofNat 36 q].entry.toNat == e
      | none => false
    if busy then s else updSlot s r fun x => { x with state := .resident }

/-! ### Which barge a run is for

The runtime starts a check's model when the barge's input set closes, and a lamp's model when the lamp is released. A run that begins
is the oldest such barge's that has none yet (log entry 94). -/

/-- Model and group of a check are those of a slot. -/
def checkOf (s : State) (x : ResSlot) (c : Fin 64) : Bool :=
  s.fld (R.SCHKx_MODEL c) 11 0 == x.model.toNat && s.fld (R.SCHKx_CFG c) 19 17 == x.group.val

/-- The run of a barge's check, or of a lamp's view. -/
def runOf (s : State) (b : Word) (c : Option (Fin 64)) : Option SnRun := s.sn.runs.find? fun u => u.barge = b && u.check = c

/-- Of barge `y`, the check that waits for a run of a slot's model, from the close of its input set on (R176), or the lamp view. -/
def awaits (s : State) (x : ResSlot) (y : Barge) : Option (Word × Option (Fin 64)) :=
  if y.formed || !(y.stage == .delivered || (y.stage == .held && y.lamp.isNone)) then none
  else match y.lamp with
    | some l =>
      if groupLamp s x.group.val && !y.viewOk && y.lampRes = 0 && s.fld (R.LMPl_SVIEW l) 11 0 = x.model.toNat &&
        (runOf s y.num none).isNone then some (y.num, none) else none
    | none => (((schksOfId s (netId y)).map (Fin.ofNat 64)).find? fun c =>
        checkOf s x c && !groupBroken s x.group.val && !y.gap.contains c && !y.checks.any (·.1 = c) &&
        (runOf s y.num (some c)).isNone).map fun c => (y.num, some c)

/-! ### A run -/

/-- Change the run of a tile that is still going. -/
def updRuns (s : State) (f : SnRun → SnRun) : State := { s with sn := { s.sn with runs := s.sn.runs.map f } }

/-- Physical tiles of a slot's model. -/
def slotPhys (s : State) (x : ResSlot) : List (Fin 36) := (slotTiles s x).filterMap fun l => (holder s l).map (Fin.ofNat 36)

/-- VIEW_LEN of a slot's model. -/
def viewLen (s : State) (x : ResSlot) : Nat := match modelOf s x.model with | some m => m.viewLen.toNat | none => 0

/-- A tile starts: it joins the run of its slot that is going, or begins the run of the barge that waits for one. -/
def joinRun (s : State) (p : Fin 36) (r : Fin 64) : State :=
  let mine := fun (u : SnRun) => u.slot = r && u.outcome = .going && u.tiles.contains p
  if s.sn.runs.any mine then
    updRuns s fun u => if mine u then { u with live := p :: u.live.filter (· ≠ p), halted := u.halted.filter (· ≠ p) } else u
  else
    let x := s.sn.slots[r]
    match s.barges.findSome? (awaits s x) with
    | none => s
    | some (b, c) =>
      { s with sn := { s.sn with runs := s.sn.runs ++ [⟨r, b, c, geomToken s, slotPhys s x, [p], [], 0, false, none, viewLen s x, .going⟩] } }

/-- No run of a model counts as begun on tile `p`: its slot's group is broken (R218), or a tile of its group is a spare that has not yet
passed its slice (R192). -/
def noRunFrom (s : State) (p : Fin 36) (r : Fin 64) : Bool :=
  groupBroken s s.sn.slots[r].group.val || s.sn.unproved.contains p

/-- A run from tile entry `e` begins on tile `p`. -/
def slotBegins (s : State) (p : Fin 36) (e : Nat) : State :=
  match slotOfEntry s p.val e with
  | none => s
  | some r => if noRunFrom s p r then s else joinRun (slotRuns s r) p r

/-- How a tile's part of a run ends. -/
inductive TileEnd | done (view : Option (BitVec 40)) | fault | dropped
  deriving DecidableEq, Repr

/-- The run that a tile is in. -/
def runOn (s : State) (p : Fin 36) : Option SnRun := s.sn.runs.find? fun u => u.outcome = .going && u.live.contains p

/-- Put a run in the place of the one of the same barge and check, or take it out. -/
def putRun (s : State) (u : SnRun) : State := updRuns s fun x => if x.barge = u.barge && x.check = u.check then u else x
def dropRun (s : State) (u : SnRun) : State :=
  { s with sn := { s.sn with runs := s.sn.runs.filter fun x => !(x.barge = u.barge && x.check = u.check) } }

/-- The view of a lamp's run (R185): its CRC-64, MODEL folded first, equal to LMPl_VREF passes; the lamp passes with its windows. -/
def lampView (s : State) (b : Word) (view : Option (List Byte)) : State :=
  s.withBarge b fun x =>
    match x.lamp with
    | none => s
    | some l =>
      let model := BitVec.ofNat 32 (s.fld (R.LMPl_SVIEW l) 11 0)
      let ok := match view with
        | some v => crcNative crc64 model v == s.reg64 (R.LMPl_VREF_LO l)
        | none => false
      if !s.flag (R.LMPl_CFG l) 1 then s
      else if ok then
        let s := s.updBarge b fun x => { x with viewOk := true }
        if lampAllDone x then giveTwin s b 1 0 0 false else s
      else giveLamp s b 6

/-- The view that a run has written to Basin. -/
def runView (s : State) (u : SnRun) : Option (List Byte) := u.view.map fun a => s.bytes a.toNat u.len

/-- A run is lost to a tile fault: its check reports RUN_FAULT, its lamp SVIEW (R177, Table 08-8). -/
def loseRun (s : State) (u : SnRun) : State :=
  match u.check with
  | some _ => putRun s { u with outcome := .lost }
  | none => lampView (dropRun s u) u.barge none

/-- A run is complete: every tile has exited DONE (R176). -/
def completeRun (s : State) (u : SnRun) : State :=
  match u.check with
  | some _ => putRun s { u with outcome := .done }
  | none => lampView (dropRun s u) u.barge (runView s u)

/-- Tile `p` ends its part of a run. A first fault lets the run be started once more where SN_CTRL.RERUN is set (R177); one that is
stopped or reset otherwise is no run of the barge any more. -/
def runEnds (s : State) (p : Fin 36) (how : TileEnd) : State :=
  match runOn s p with
  | none => s
  | some u => match how with
    | .dropped => dropRun s u
    | .fault =>
      if s.flag R.SN_CTRL 2 && !u.rerun then putRun s { u with rerun := true, live := [], halted := [], flags := 0 } else loseRun s u
    | .done v =>
      let u := { u with live := u.live.filter (· ≠ p), halted := p :: u.halted, flags := u.flags ||| (s.reg (R.TL_FLAGS p.val)).setWidth 3,
                        view := match v with | some a => some a | none => u.view }
      if u.tiles.all u.halted.contains then completeRun s u else putRun s u

/-- A run from tile entry `e` ends on tile `p`. -/
def slotEnds (s : State) (p : Fin 36) (e : Nat) (how : TileEnd) : State := runEnds (slotRests s p e) p how

/-- A tile leaves service: the runs that need it are lost. -/
def loseRunsOn (s : State) (p : Fin 36) : State := (s.sn.runs.filter fun u => u.outcome = .going && u.tiles.contains p).foldl loseRun s

/-! ### Broken groups (R218, R444) -/

/-- No LAMP group is whole. -/
def lampGroupsBroken (s : State) : Bool := (List.range 8).all fun g => !(groupOn s g && groupLamp s g) || groupBroken s g

/-- A lamp view check on a broken group ends SVIEW. -/
def lampGaps (s : State) : State :=
  if !lampGroupsBroken s then s
  else (s.barges.filter fun y => y.lamp.isSome && y.lampRes = 0 && !y.viewOk).foldl (fun s y => lampView s y.num none) s

/-- The sentinel checks of a barge whose set has closed for which no run could be started before its group is whole again: the group the
check was bound to in the gap, and the one it is bound to after it. -/
def gapChecks (o s : State) (y : Barge) : List (Fin 64) :=
  if y.lamp.isSome || y.formed || !(y.stage == .delivered || y.stage == .held) then []
  else ((schksOfId o (netId y)).map (Fin.ofNat 64)).filter fun c =>
    groupBroken o (o.fld (R.SCHKx_CFG c) 19 17) && !groupBroken s (s.fld (R.SCHKx_CFG c) 19 17) && (runOf o y.num (some c)).isNone

/-- The open that makes groups whole again: the barges of the gap keep RUN_FAULT (R218). -/
def markGap (o s : State) : State := { s with barges := s.barges.map fun y => { y with gap := y.gap ++ gapChecks o s y } }

end Sys2Proof.Machine
end

