-- ==== Sys2Proof/Machine/Tiles.lean ====
section
/-! DEFINITION. Machine/Tiles.lean: running, stopping, checkpointing and resetting a Shadow tile, its faults and its DMA channels
(R114, R128, R132 to R138). The instructions are in TileOps.lean. -/

namespace Sys2Proof.Machine

/-! ### Tile SRAM (R129) -/

def sramSize : Nat := 0x400000
def saveBase : Nat := 0x3DC000
def tileByte (p a : Nat) : Nat := tileBase p + a

/-- TL_CFG: end of the program region, whether the save area is reserved, the DMA time-out in cycles. -/
def progLimit (s : State) (p : Nat) : Nat := 4096 * s.fld (R.TL_CFG p) 7 0
def saveOn (s : State) (p : Nat) : Bool := s.flag (R.TL_CFG p) 8
def dmaLimit (s : State) (p : Nat) : Nat := usCycles (s.fld (R.TL_CFG p) 31 16)

/-! The two ports of a bank (R130). A byte stands for its word: what the manual says of one word written on both ports holds of the
bytes both write (log entry 92). -/

/-- The byte that stood at `a` before the first of these writes of the cycle, if one covers it. -/
def oldByte (ws : List PortWrite) (a : Nat) : Option Byte :=
  (ws.find? fun w => w.addr ≤ a && decide (a < w.addr + w.len)).map fun w => Cells.get memDefault w.old (a - w.addr)

/-- Bytes read on one port: those that the other port writes in this cycle read as they stood before. -/
def portBytes (s : State) (other : List PortWrite) (a n : Nat) : List Byte :=
  if other.isEmpty then s.bytes a n else (List.range n).map fun i => (oldByte other (a + i)).getD (s.byte (a + i))

/-- A write of this cycle, with the bytes it replaces. -/
def portWrite (s : State) (a n : Nat) : PortWrite := ⟨a, n, Cells.window s.mem a n⟩

/-- Bytes and a word that a tile's sequencer reads. -/
def sram (s : State) (p a n : Nat) : List Byte := portBytes s s.ports.net (tileByte p a) n
def sramWord (s : State) (p a : Nat) : Word := BitVec.ofNat 32 (natLE (sram s p a 4))

/-- Any write into the save area clears SAVED (R133). -/
def clearSaved (s : State) (p : Fin 36) (a n : Nat) : State :=
  if saveBase < a + n ∧ a < sramSize then updTile s p fun t => { t with saved := false } else s

/-- A write on the sequencer port: a byte that the network port writes in this cycle keeps the network's value. -/
def sramWrite (s : State) (p : Fin 36) (a : Nat) (bs : List Byte) : State :=
  let b := tileByte p a
  let w := portWrite s b bs.length
  let kept := if s.ports.net.isEmpty then bs
    else bs.zipIdx.map fun x => if (oldByte s.ports.net (b + x.2)).isSome then s.byte (b + x.2) else x.1
  let s := s.store b kept
  clearSaved { s with ports := { s.ports with seq := s.ports.seq ++ [w] } } p a bs.length

/-- Remember a write on a network port. -/
def netWrites (s : State) (a n : Nat) : State := { s with ports := { s.ports with net := s.ports.net ++ [portWrite s a n] } }

/-- A write on the network port. -/
def sramNet (s : State) (p : Fin 36) (a : Nat) (bs : List Byte) : State :=
  clearSaved ((netWrites s (tileByte p a) bs.length).store (tileByte p a) bs) p a bs.length

/-- A copy read from `src` on a network port: the bytes a sequencer writes in this cycle arrive as they stood before. -/
def netCopy (s : State) (src n dst : Nat) : State :=
  s.ports.seq.foldr (fun w t => foldN w.len (fun t i =>
    if src ≤ w.addr + i ∧ w.addr + i < src + n then t.store (dst + (w.addr + i - src)) [Cells.get memDefault w.old i] else t) t)
    (s.copyMem src n dst)

/-- A copy into a tile's SRAM on its network port. -/
def copyIn (s : State) (p : Fin 36) (src n a : Nat) : State := clearSaved (netCopy (netWrites s (tileByte p a) n) src n (tileByte p a)) p a n

/-- Whether a program may read, or write, `n` bytes at `a`: inside the SRAM, outside the save area while it is reserved; a write
also outside the entry table and the program region (R129). -/
def mayRead (s : State) (p a n : Nat) : Bool := a + n ≤ sramSize && (!saveOn s p || a + n ≤ saveBase)
def protectedAt (s : State) (p a n : Nat) : Bool := a < 0x80 || (decide (a < progLimit s p) && decide (0x100 < a + n))
def mayWriteSram (s : State) (p a n : Nat) : Bool := mayRead s p a n && !protectedAt s p a n

/-! ### Faults (R135) -/

/-- The source of each fault bit (Table 06-17). -/
def faultSource (b : Nat) : Nat :=
  match b with
  | 0 => 40
  | 1 => 40
  | 2 => 42
  | 3 => 42
  | 4 => 42
  | 5 => 43
  | 6 => 43
  | 7 => 44
  | 8 => 45
  | 9 => 45
  | _ => 47

/-- TL_EXIT of a run's end: 0 DONE, 1 FAULT, 2 ABORTED, 3 PAUSED. -/
def tileExit (s : State) (p : Fin 36) (code : Nat) : State :=
  let t := s.tiles[p]
  s.setReg (R.TL_EXIT p.val) (BitVec.ofNat 32 (code + 4 * t.entry.toNat + 65536 * t.tag.toNat))

/-- A tile that is OFF or RETIRED is held in reset: it detects no fault and raises no source. -/
def tileHeld (s : State) (p : Fin 36) : Bool := s.tiles[p].run == .off || s.tiles[p].run == .retired

/-- A fault's bit, the PC at the first fault since TL_FAULT was clear, its source on the tile's channel. -/
def markFault (s : State) (p : Fin 36) (b : Nat) : State :=
  let s := if s.reg (R.TL_FAULT p.val) = 0 then s.setReg (R.TL_FAULT_PC p.val) (BitVec.ofNat 32 s.tiles[p].pc) else s
  ((s.setBit (R.TL_FAULT p.val) b).setBit (R.TL_IRQ_STAT p.val) 1).raise (faultSource b) p.val

/-- A tile stops: what Audit runs on it is lost (R163). -/
def tileLost (s : State) (p : Fin 36) : State := if tileActive s p.val then loseAuditTile s (tileLogical s p.val) else s

/-- A run that ends or is stopped in cycle `now` while it is RUNNING: the cycle's issue work is discarded (Table 20-2). -/
def discard (now : Nat) (t : Tile) : Tile := if t.run = .running then { t with retireTo := 0, wasteTo := now + 1 } else { t with retireTo := 0, wasteTo := 0 }

/-- A fault: it is marked, the tile is FAULTED with exit code FAULT, its work is lost. A tile held in reset detects none. -/
def tileFault (s : State) (p : Fin 36) (b : Nat) : State :=
  if tileHeld s p then s
  else
    let s := markFault s p b
    let e := s.tiles[p].entry.toNat
    tileLost (slotEnds (tileExit (updTile s p fun t => { discard s.cycle t with run := .faulted }) p 1) p e .fault) p

/-- A corrected error: TL_CORR, and one event on ES41 (R138). -/
def tileCorrected (s : State) (p : Fin 36) (acc : Bool) : State :=
  if tileHeld s p then s
  else
    let s := if acc then s.satAdd (R.TL_CORR p.val) 31 16 1 else s.satAdd (R.TL_CORR p.val) 15 0 1
    (lnEvent s (lnTile p) 0x09 1 none).raise 41 p.val

/-- What an instruction's access to SRAM, or to the accumulator file, meets. -/
def tileEcc (s : State) (p : Fin 36) (acc : Bool) (e : Ecc) (ok : State → State) : State :=
  match codeFinding e with
  | .clean => ok s
  | .corrected => ok (tileCorrected s p acc)
  | .uncorrectable => tileFault s p (bit acc)

/-- What an access that reads several words meets: each corrected word counts, and an uncorrectable one faults. -/
def badWord (es : List Ecc) : Bool := es.any fun e => codeFinding e == .uncorrectable
def correctedWords (es : List Ecc) : Nat := es.countP fun e => codeFinding e == .corrected
def tileCounts (s : State) (p : Fin 36) (acc : Bool) (es : List Ecc) : State := foldN (correctedWords es) (fun s _ => tileCorrected s p acc) s
def tileEccs (s : State) (p : Fin 36) (acc : Bool) (es : List Ecc) (ok : State → State) : State :=
  if badWord es then tileFault (tileCounts s p acc es) p (bit acc) else ok (tileCounts s p acc es)

/-! ### Starting and ending a run (R132, R133) -/

/-- Entry table (Table 06-9). -/
def entryStart (s : State) (p e : Nat) : Nat := (sramWord s p (8 * e)).toNat
def entryLimit (s : State) (p e : Nat) : Nat := (sramWord s p (8 * e + 4)).toNat

/-- Units that still hold a run back: MMAs not drained, busy DMA channels. -/
def arrayBusy (t : Tile) : Bool := !t.flight.isEmpty
def dmaBusy (t : Tile) : Bool := t.dma.any (·.busy)

/-- A little-endian word's bytes as SRAM entries from offset `k`. -/
def wordCells (k v : Nat) : List (Nat × Byte) := (List.range 4).map fun i => (k + i, (bytesLE 4 v)[i]?.getD 0)

/-- Sparse words as SRAM entries. -/
def wordsCells (k : Nat) (ws : List (Nat × Word)) : List (Nat × Byte) := ws.flatMap fun w => wordCells (k + 4 * w.1) w.2.toNat

/-- The loop counter words of the save area: counter, iterations left, body bounds. -/
def loopCells (ls : List LoopFrame) : List (Nat × Byte) :=
  (List.range ls.length).flatMap fun i => match ls[i]? with
    | some f => wordCells (0x80 + 16 * i) (256 + f.lc.val) ++ wordCells (0x84 + 16 * i) f.left ++ wordCells (0x88 + 16 * i) f.start ++
        wordCells (0x8C + 16 * i) f.stop
    | none => []

/-- The save area's content (Table 06-10). The header's words stand in the order the table names them; the selector word carries
the buffers' formats too. -/
def saveCells (s : State) (p : Fin 36) : List (Nat × Byte) :=
  let t := s.tiles[p]
  let head := [0x53564531, (geomToken s).toNat, (s.reg (R.TL_CFG p.val)).toNat, t.entry.toNat, t.tag.toNat, t.pc,
    (s.reg (R.TL_CYCLES p.val)).toNat, bit t.active + 16 * t.wfmt[0].toNat + 256 * t.wfmt[1].toNat, (s.reg (R.TL_FLAGS p.val)).toNat]
  ((List.range 9).flatMap fun i => wordCells (4 * i) (head[i]?.getD 0)) ++
  ((List.range 16).flatMap fun i => wordCells (0x40 + 4 * i) (t.areg[i]?.getD 0).toNat) ++ loopCells t.loops ++
  wordsCells 0x100 t.vreg ++ t.wbuf[0].map (fun c => (0x1100 + c.1, c.2)) ++ t.wbuf[1].map (fun c => (0x1900 + c.1, c.2)) ++
  wordsCells 0x2100 t.acc

/-- Write the save area and set SAVED. -/
def saveTile (s : State) (p : Fin 36) : State :=
  let s := { s with mem := Cells.replace memDefault s.mem (tileByte p.val saveBase) 0x22100 (saveCells s p) }
  updTile s p fun t => { t with saved := true }

/-- Words that are not 0 in `n` bytes of the save area from offset `k`. -/
def savedWords (s : State) (p : Fin 36) (k n : Nat) : List (Nat × Word) :=
  let keys := ((Cells.window s.mem (tileByte p.val (saveBase + k)) n).map fun c => c.1 / 4).eraseDups
  keys.map fun i => (i, sramWord s p.val (saveBase + k + 4 * i))

/-- Word `i` of the save area. -/
def saveWord (s : State) (p : Fin 36) (i : Nat) : Nat := (sramWord s p.val (saveBase + 4 * i)).toNat

/-- The loops of the save area. -/
def savedLoops (s : State) (p : Fin 36) : List LoopFrame :=
  (List.range 8).filterMap fun i =>
    let w := saveWord s p (32 + 4 * i)
    if w < 256 then none else some ⟨Fin.ofNat 8 w, saveWord s p (33 + 4 * i), saveWord s p (34 + 4 * i), saveWord s p (35 + 4 * i), false, []⟩

/-- A run issues, unless TL_DBG.HALT holds it (R134). -/
def issuing (s : State) (p : Nat) : TileRun := if s.flag (R.TL_DBG p) 0 then .halted else .running

/-- A run begins or goes on: nothing of an earlier one still issues. -/
def freshIssue (t : Tile) : Tile := { t with retireTo := 0, wasteTo := 0, lost := none, groups := [], steps := 0, resumeTo := 0, stopPause := false }

/-- Reload the saved state (R133): issue goes on after 556 cycles (Table 06-16), in which the tile shows SAVING; the header's entry, tag,
PC, cycle count and flags, and every register and buffer. -/
def loadTile (s : State) (p : Fin 36) : State :=
  let sel := saveWord s p 7
  let s := (s.setReg (R.TL_CYCLES p.val) (BitVec.ofNat 32 (saveWord s p 6))).setReg (R.TL_FLAGS p.val) (BitVec.ofNat 32 (saveWord s p 8))
  updTile s p fun t =>
    { t with entry := BitVec.ofNat 4 (saveWord s p 3), tag := BitVec.ofNat 16 (saveWord s p 4), pc := saveWord s p 5, areg := Vector.ofFn fun i => BitVec.ofNat 32 (saveWord s p (16 + i.val)), loops := savedLoops s p,
             vreg := savedWords s p 0x100 0x1000, acc := savedWords s p 0x2100 0x20000,
             wbuf := #v[Cells.window s.mem (tileByte p.val (saveBase + 0x1100)) 0x800, Cells.window s.mem (tileByte p.val (saveBase + 0x1900)) 0x800],
             wfmt := #v[BitVec.ofNat 4 (sel / 16), BitVec.ofNat 4 (sel / 256)], active := decide (sel % 2 = 1), run := issuing s p.val,
             freeAt := s.cycle + 556, resumeTo := s.cycle + 556 }

/-- Begin a run from an entry; the first issue follows after 4 cycles (Table 06-16). -/
def beginRun (s : State) (p : Fin 36) (e : BitVec 4) (tag : Half) : State :=
  let s := s.setReg (R.TL_CYCLES p.val) 0
  slotBegins (updTile s p fun t =>
    { freshIssue t with run := issuing s p.val, pc := entryStart s p.val e.toNat, entry := e, tag := tag, saved := false, loops := [],
                        freeAt := s.cycle + 4 })
    p e.toNat

/-- Whether a checkpoint may be resumed: the header's magic and GEOM_TOKEN. -/
def saveGood (s : State) (p : Fin 36) : Bool := saveWord s p 0 == 0x53564531 && saveWord s p 1 == (geomToken s).toNat

/-- A start that fails with a fault: the run has the entry and the tag of the write. -/
def failStart (s : State) (p : Fin 36) (e : BitVec 4) (tag : Half) (b : Nat) : State :=
  tileFault (updTile s p fun t => { t with entry := e, tag := tag, run := .running }) p b

/-- Resume a checkpoint, or fault SAVE. -/
def resumeRun (s : State) (p : Fin 36) (e : BitVec 4) (tag : Half) : State :=
  let s := updTile s p freshIssue
  if saveGood s p then slotBegins (loadTile s p) p (saveWord s p 3 % 16) else failStart s p e tag 10

/-- TL_START (R132, R133): `es` is what the code finds of the words it reads, the entry's and, with RESUME, those of the save area (R138).
What it starts on a spare that has not passed its slice, or in a broken group, is no run of a model (R192, R218): `slotBegins`. -/
def execTlStart (i : Initiator) (p : Fin 36) (v : Word) (es : List Ecc) (s : State) : Out :=
  .next (s.keeperWrite i fun s =>
    let t := s.tiles[p]
    let e := bits v 3 0
    if t.run ≠ .idle ∨ entryStart s p.val e = 0 ∨ (v.getLsbD 4 ∧ ¬ t.saved) then s.busError i
    else
      let s := tileCounts s p false es
      if badWord es then failStart s p (BitVec.ofNat 4 e) (BitVec.ofNat 16 (bits v 31 16)) 0
      else if v.getLsbD 4 then resumeRun s p (BitVec.ofNat 4 e) (BitVec.ofNat 16 (bits v 31 16))
      else beginRun s p (BitVec.ofNat 4 e) (BitVec.ofNat 16 (bits v 31 16)))

/-- Stop issue at the next boundary; only a run can be stopped. An ABORT leaves the tile RUNNING: what the instruction it ends would
still have taken of the issue is discarded. -/
def stopRun (s : State) (p : Fin 36) (pause : Bool) : State :=
  let t := s.tiles[p]
  if t.run = .running ∨ t.run = .halted then
    updTile s p fun t =>
      { discard s.cycle t with run := .stopping, stopPause := pause, steps := 0,
                               wasteTo := if pause then (discard s.cycle t).wasteTo else max t.freeAt (discard s.cycle t).wasteTo }
  else s

/-- TL_STOP_ABORT (R132). -/
def execTlStopAbort (i : Initiator) (p : Fin 36) (s : State) : Out := .next (s.keeperWrite i fun s => stopRun s p false)

/-- TL_STOP_PAUSE (R133): refused with SAVE_EN clear. -/
def execTlStopPause (i : Initiator) (p : Fin 36) (s : State) : Out :=
  .next (s.keeperWrite i fun s => if saveOn s p.val then stopRun s p true else s.busError i)

/-! ### The weight loader (R126, R130) -/

/-- Address of row `k` from a base with a stride, as 32-bit addresses. -/
def rowAddr (base stride : Word) (k : Nat) : Nat := (base + BitVec.ofNat 32 k * stride).toNat

/-- A default for bytes of a weight buffer. -/
def noByte (_ : Nat) : Byte := 0

/-- The banks that `n` bytes at `a` stand in: bank = address[7:4]. -/
def bankMask (a n : Nat) : Half := (List.range ((a + n + 15) / 16 - a / 16)).foldl (fun m k => m ||| BitVec.ofNat 16 (2 ^ ((a / 16 + k) % 16))) 0

/-- The rows of one cycle of the loader: one, in S4 two. -/
def loadRows (f : ArrFmt) (g : Nat) : List Nat := if f = .s4 then [2 * g, 2 * g + 1] else [g]

/-- Load the rows of the loader's next cycle into its buffer. -/
def loadGroup (s : State) (p : Fin 36) (l : WeightLoad) (f : ArrFmt) : State :=
  updTile s p fun t =>
    { t with wbuf := t.wbuf.set l.buf ((loadRows f l.next).foldl (fun b k =>
        Cells.setRange noByte b (f.rowBytes * k) (sram s p.val (rowAddr l.base l.stride k) f.rowBytes)) t.wbuf[l.buf]) }

/-- The banks of the loader's next cycle. -/
def loadBanks (l : WeightLoad) (f : ArrFmt) : Half :=
  (loadRows f l.next).foldl (fun m k => m ||| bankMask (rowAddr l.base l.stride k) f.rowBytes) 0

/-- One cycle of the loader, beside the banks `taken` that the array reads: its rows are loaded, or it loses a bank and tries again. -/
def loaderCycle (s : State) (p : Fin 36) (taken : Half) : State :=
  match s.tiles[p].loader with
  | none => s
  | some l => match arrFmt l.fmt with
    | none => s
    | some f =>
      if f.loadCycles ≤ l.next then updTile s p fun t => { t with loader := none }
      else if loadBanks l f &&& taken ≠ 0 then lnEvent (updTile s p fun t => { t with loader := some { l with banks := 0 } }) (lnTile p) 0x07 1 none
      else updTile (loadGroup s p l f) p fun t => { t with loader := some { l with next := l.next + 1, banks := loadBanks l f } }

/-- TILE_STOP_COMPLETE (R132, R133): the array has drained and every DMA channel has ended; IDLE with ABORTED, or saved with PAUSED. `es` is
what the code finds of the accumulator words that a pause reads (R138). A weight load still going on ends before the save. -/
def execTileStopComplete (p : Fin 36) (es : List Ecc) (s : State) : Out :=
  .next (let t := s.tiles[p]
    if t.run ≠ .stopping ∨ arrayBusy t ∨ dmaBusy t then s
    else
      let idle := fun (s : State) (code : Nat) => tileExit (updTile s p fun t => { t with run := .idle }) p code
      if t.stopPause then
        tileEccs (foldN 65 (fun s _ => loaderCycle s p 0) s) p true es fun s => slotRests (idle (saveTile s p) 3) p t.entry.toNat
      else slotEnds (idle s 2) p t.entry.toNat .dropped)

/-! ### DMA (R128) -/

/-- Fields of a descriptor (Table 06-7). -/
def dmaExt (d : List Byte) : Nat := fieldLE d 0 5
def dmaLoc (d : List Byte) : Nat := fieldLE d 8 4
def dmaLen (d : List Byte) : Nat := fieldLE d 12 2
def dmaRows (d : List Byte) : Nat := fieldLE d 14 2
def dmaExtStride (d : List Byte) : Int := (BitVec.ofNat 32 (fieldLE d 16 4)).toInt
def dmaLocStride (d : List Byte) : Int := (BitVec.ofNat 32 (fieldLE d 20 4)).toInt
def dmaOut (d : List Byte) : Bool := fieldLE d 24 1 % 2 = 1

/-- Whether a descriptor keeps the rules of Table 06-7. -/
def dmaForm (d : List Byte) : Bool :=
  decide (dmaExt d % 16 = 0 ∧ dmaLoc d % 16 = 0 ∧ dmaLen d % 16 = 0 ∧ 16 ≤ dmaLen d ∧ 1 ≤ dmaRows d ∧
    dmaExtStride d % 16 = 0 ∧ dmaLocStride d % 16 = 0 ∧ dmaLoc d < sramSize ∧
    fieldLE d 5 3 = 0 ∧ fieldLE d 24 1 < 2 ∧ fieldLE d 25 7 = 0)

/-- A bank that a transfer begun in cycle `c` may reach: the tile group's, with no hand-over accepted since or before (R341). -/
def dmaBank (s : State) (c : Nat) (b : Fin 64) : Bool :=
  s.bs.banks[b].owner == 5 && !s.bs.banks[b].failed && !destroying s b && (s.bs.banks[b].next.isNone || decide (c < s.bs.banks[b].askedAt))

/-- Whether a row's EXT side may be reached by a transfer begun in cycle `c`: Hold, a Basin bank owned by the tile group, another tile's SRAM. -/
def extAllowed (s : State) (p : Nat) (c : Nat) (write : Bool) (a n : Nat) : Bool :=
  (inHold s a n && !(write && holdProtected s a n)) ||
  (inBasin a n && (banksOf a n).all (dmaBank s c)) ||
  (List.range 36).any fun q =>
    q != p && decide (tileBase q ≤ a ∧ a + n ≤ tileBase q + sramSize) && !(write && protectedAt s q (a - tileBase q) n)

/-- What row `r` of a transfer meets: none where it may move, else the fault bit. -/
def rowFault (s : State) (p : Nat) (c : Nat) (d : List Byte) (r : Nat) : Option Nat :=
  let e := (dmaExt d : Int) + r * dmaExtStride d
  let l := (dmaLoc d : Int) + r * dmaLocStride d
  if e < 0 ∨ ¬ extAllowed s p c (dmaOut d) e.toNat (dmaLen d) then some 5
  else if l < 0 ∨ sramSize < l.toNat + dmaLen d ∨ (¬ dmaOut d ∧ protectedAt s p l.toNat (dmaLen d)) then some 3
  else none

/-- The tile whose SRAM aperture holds a physical address. -/
def apertureOf (a : Nat) : Option (Fin 36) :=
  if tileBase 0 ≤ a ∧ a < tileBase 36 then some (Fin.ofNat 36 ((a - tileBase 0) / sramSize)) else none

/-- Lantern's counts of `n` bytes moved by a tile's channel: 16-byte words, and on the Hold channels (Table 20-2). -/
def dmaCount (s : State) (p : Fin 36) (d : List Byte) (e n : Nat) : State :=
  let m := s.tiles[p].dmaMoved
  let s := lnEvent (updTile s p fun t => { t with dmaMoved := m + n }) (lnTile p) 0x08 ((m + n) / 16 - m / 16) none
  if inHold s e n then holdBytes s e n (dmaOut d) else s

/-- Move `n` bytes of row `r`. -/
def moveRow (s : State) (p : Fin 36) (d : List Byte) (r n : Nat) : State :=
  let e := ((dmaExt d : Int) + r * dmaExtStride d).toNat
  let l := ((dmaLoc d : Int) + r * dmaLocStride d).toNat
  let s := dmaCount s p d e n
  if dmaOut d then
    match apertureOf e with
    | some q => copyIn s q (tileByte p.val l) n (e - tileBase q.val)
    | none => libraryTouched (holdRewritten (netCopy s (tileByte p.val l) n e) e n) e n
  else copyIn s p e n l

/-- Move rows from `r` on until one is refused; its fault bit, if any. A target that refuses the row raises its own source. -/
def moveRows (p : Fin 36) (c : Nat) (d : List Byte) : Nat → Nat → State → State × Option Nat
  | 0, _, s => (s, none)
  | n + 1, r, s =>
    match rowFault s p.val c d r with
    | some b => (extRefusal s (dmaOut d) ((dmaExt d : Int) + r * dmaExtStride d).toNat (dmaLen d), some b)
    | none => moveRows p c d n (r + 1) (moveRow s p d r (dmaLen d))

/-- A transfer that an error ends: the words already written stay written; how many the manual leaves open, so a free number of
16-byte words has moved. -/
def movePart (s : State) (p : Fin 36) (c : Nat) (d : List Byte) : State :=
  let total := dmaRows d * (dmaLen d / 16)
  let k := s.free.1.toNat % (total + 1)
  let full := k / max 1 (dmaLen d / 16)
  let rest := 16 * (k % max 1 (dmaLen d / 16))
  let m := moveRows p c d full 0 s.free.2
  match m.2, rowFault m.1 p.val c d full with
  | none, none => if rest = 0 then m.1 else moveRow m.1 p d full rest
  | _, _ => m.1

/-- Free a channel. -/
def freeChan (s : State) (p : Fin 36) (ch : Fin 4) : State :=
  updTile s p fun t => { t with dma := t.dma.set ch ⟨false, [], 0⟩ }

/-- A channel's error: a fault, but while the tile waits to stop the channel counts as ended, and the stop goes on (R132, R133; log
entry 93). -/
def dmaFault (s : State) (p : Fin 36) (b : Nat) : State := if s.tiles[p].run = .stopping then markFault s p b else tileFault s p b

/-- The physical address of the 16-byte word `k` of those that a transfer reads. -/
def dmaSource (p : Nat) (d : List Byte) (k : Nat) : Nat :=
  let w := max 1 (dmaLen d / 16)
  let row := if dmaOut d then (tileByte p 0 : Int) + dmaLoc d + (k / w : Nat) * dmaLocStride d else (dmaExt d : Int) + (k / w : Nat) * dmaExtStride d
  (row + 16 * (k % w : Nat)).toNat

/-- The word of a transfer that the code finds bad: one of Hold found before, else one of those read, which one the manual does not say:
free. -/
def dmaBadWord (s : State) (p : Nat) (d : List Byte) : Nat × State :=
  let known := if dmaOut d then none else (List.range (dmaRows d)).findSome? fun (r : Nat) =>
    holdUncIn s ((dmaExt d : Int) + r * dmaExtStride d).toNat (dmaLen d)
  match known with
  | some w => (w, s)
  | none => (dmaSource p d (s.free.1.toNat % max 1 (dmaRows d * (dmaLen d / 16))), s.free.2)

/-- A corrected word, and an uncorrectable one, that the network read at `a`: Hold's, a tile's or Basin's (R13, R138, R332). -/
def netCorrected (s : State) (a : Nat) : State :=
  if holdBase ≤ a then holdCorrected s a
  else match apertureOf a with
    | some q => tileCorrected s q false
    | none => basinCorrected s
def netUncorrectable (s : State) (a : Nat) : State :=
  if holdBase ≤ a then holdUncorrectable s a
  else match apertureOf a with
    | some q => tileFault s q 0
    | none => basinUncorrectable s a

/-- What the code finds of the words a transfer reads: an uncorrectable word of Hold stays so (R332). -/
def dmaFinding (s : State) (d : List Byte) (es : List Ecc) : CodeFinding :=
  let bad := !dmaOut d && (List.range (dmaRows d)).any fun (r : Nat) =>
    (holdUncIn s ((dmaExt d : Int) + r * dmaExtStride d).toNat (dmaLen d)).isSome
  if bad || badWord es then .uncorrectable else if correctedWords es = 0 then .clean else .corrected

/-- The corrected words of a transfer, each counted where it stands: which of those read, the manual does not say. -/
def dmaCorrected (s : State) (p : Nat) (d : List Byte) (es : List Ecc) : State :=
  foldN (correctedWords es) (fun s _ =>
    netCorrected s.free.2 (dmaSource p d (s.free.1.toNat % max 1 (dmaRows d * (dmaLen d / 16))))) s

/-- Every row moves, up to one that is refused. -/
def moveAll (s : State) (p : Fin 36) (c : Nat) (d : List Byte) : State :=
  let m := moveRows p c d (dmaRows d) 0 s
  match m.2 with
  | none => m.1
  | some b => dmaFault m.1 p b

/-- A transfer waits for Basin words that are not yet served (R344, R347). -/
def dmaWaits (s : State) (d : List Byte) : Bool :=
  (List.range (dmaRows d)).any fun (r : Nat) => basinWaits s ((dmaExt d : Int) + r * dmaExtStride d).toNat (dmaLen d)

/-- A transfer that an uncorrectable word ends. -/
def dmaBad (s : State) (p : Fin 36) (c : Nat) (d : List Byte) : State :=
  let w := dmaBadWord (movePart s p c d) p.val d
  dmaFault (netUncorrectable w.2 w.1) p 5

/-- DMA_TRANSFER_DONE (R128): the rows move and the channel is idle; a refused target, a response error or an uncorrectable word ends
the transfer with DMA_ERR. -/
def execDmaTransferDone (p : Fin 36) (ch : Fin 4) (r : DmaEnd) (s : State) : Out :=
  .next (let c := s.tiles[p].dma[ch]
    if !c.busy || (dmaForm c.desc && dmaWaits s c.desc) then s
    else
      let s := freeChan s p ch
      if !dmaForm c.desc then dmaFault s p 5
      else match r with
        | .error => dmaFault (movePart s p c.started c.desc) p 5
        | .moved es =>
          if dmaFinding s c.desc es = .uncorrectable then dmaBad (dmaCorrected s p.val c.desc es) p c.started c.desc
          else moveAll (dmaCorrected s p.val c.desc es) p c.started c.desc)

/-- DMA_TIMEOUT (R128): after TL_CFG.DMA_TO. -/
def execDmaTimeout (p : Fin 36) (ch : Fin 4) (s : State) : Out :=
  .next (let c := s.tiles[p].dma[ch]
    if c.busy ∧ dmaLimit s p.val ≤ s.cycle - c.started then
      dmaFault (if dmaForm c.desc then movePart (freeChan s p ch) p c.started c.desc else freeChan s p ch) p 6
    else s)

/-! ### Reset, debug, events, limits -/

/-- End a channel's transfer with an error: ES43. -/
def killChan (p : Fin 36) (s : State) (ch : Nat) : State :=
  let c := s.tiles[p].dma[Fin.ofNat 4 ch]
  if c.busy then
    (if dmaForm c.desc then movePart (freeChan s p (Fin.ofNat 4 ch)) p c.started c.desc else freeChan s p (Fin.ofNat 4 ch)).raise 43 p.val
  else s

/-- A tile's registers, loops, weight buffers and accumulator file cleared; SRAM stays. -/
def clearTile (t : Tile) : Tile :=
  { t with areg := Vector.replicate 16 0, loops := [], vreg := [], acc := [], wbuf := #v[[], []], wfmt := #v[0, 0], active := false,
           loader := none, flight := [], saved := false, stopPause := false, freeAt := 0, retireTo := 0, wasteTo := 0,
           aAt := Vector.replicate 16 0, vAt := Vector.replicate 16 0, storeTo := 0, lost := none, held := (0, 0), groups := [],
           groupDst := 0, steps := 0, resumeTo := 0 }

/-- TL_RESET (R132): 0x0000_0001 resets the tile; one that is OFF or RETIRED is held in reset already. -/
def execTlReset (i : Initiator) (p : Fin 36) (v : Word) (s : State) : Out :=
  .next (s.keeperWrite i fun s =>
    let t := s.tiles[p]
    if v ≠ 1 ∨ t.run = .off ∨ t.run = .retired then s
    else
      let s := foldN 4 (killChan p) s
      slotEnds ((updTile s p fun t => { clearTile t with run := .resetting }).setReg (R.TL_FAULT p.val) 0) p t.entry.toNat .dropped)

/-- TILE_RESET_DONE: the tile is IDLE; one that overruns its maximum raises ES47 and is still RESETTING. -/
def execTileResetDone (p : Fin 36) (overrun : Bool) (s : State) : Out :=
  .next (if s.tiles[p].run ≠ .resetting then s
    else if overrun then s.raise 47 p.val
    else updTile s p fun t => { t with run := .idle })

/-- TL_DBG_HALT and TL_DBG_RESUME (R134). -/
def execTlDbgHalt (i : Initiator) (p : Fin 36) (s : State) : Out :=
  .next (s.keeperWrite i fun s =>
    let s := s.setReg (R.TL_DBG p.val) 1
    if s.tiles[p].run = .running then updTile s p fun t => { t with run := .halted } else s)

def execTlDbgResume (i : Initiator) (p : Fin 36) (s : State) : Out :=
  .next (s.keeperWrite i fun s =>
    let s := s.setReg (R.TL_DBG p.val) 0
    if s.tiles[p].run = .halted then updTile s p fun t => { t with run := .running, steps := 0 } else s)

/-- TL_EVENT_SET: a write sets the events whose bits are 1. -/
def execTlEventSet (i : Initiator) (p : Fin 36) (v : Word) (s : State) : Out :=
  .next (s.keeperWrite i fun s => s.setReg (R.TL_EVENT p.val) (s.reg (R.TL_EVENT p.val) ||| (v &&& 0xFFFF)))

/-- MMA_DRAINED (R125): 40 cycles after its last vector the oldest MMA has written its last row. -/
def execMmaDrained (p : Fin 36) (s : State) : Out :=
  .next (match s.tiles[p].flight with
    | f :: rest => if f.passAt + 40 ≤ s.cycle then updTile s p fun t => { t with flight := rest } else s
    | [] => s)

/-- CYCLE_LIMIT (R137): a run that reaches its entry's CYC_MAX; the count stands while the tile is halted. -/
def execCycleLimit (p : Fin 36) (s : State) : Out :=
  .next (let t := s.tiles[p]
    let m := entryLimit s p.val t.entry.toNat
    if t.run = .running ∧ m ≠ 0 ∧ m ≤ (s.reg (R.TL_CYCLES p.val)).toNat then tileFault s p 7 else s)

end Sys2Proof.Machine
end

