-- ==== Sys2Proof/Machine/Milepost.lean ====
section
/-! DEFINITION. Machine/Milepost.lean: encoders, TRAVEL, time, timers, capture and trigger pins (R33 to R50). Posts are in
Machine/Posts.lean, deadlines in Machine/Chamber.lean. -/

namespace Sys2Proof.Machine

/-! ### Encoders (R33 to R38) -/

/-- Change an encoder's state. -/
def updEnc (s : State) (n : Fin 4) (f : Encoder → Encoder) : State :=
  { s with mp := { s.mp with encs := s.mp.encs.set n (f s.mp.encs[n]) } }

/-- ENCn_CFG.EN. -/
def encEnabled (s : State) (n : Fin 4) : Bool := s.flag (R.ENCn_CFG n) 0

/-- Enabled and not lost: an encoder whose EN is clear counts as lost for the quality (R37). -/
def encPresent (s : State) (n : Fin 4) : Bool := encEnabled s n && !s.mp.encs[n].lost

/-- The primary and the secondary encoder (Table 02-8). -/
def priEnc (s : State) : Fin 4 := Fin.ofNat 4 (s.fld R.MP_CTRL 1 0)
def secEnc (s : State) : Fin 4 := Fin.ofNat 4 (s.fld R.MP_CTRL 3 2)
/-- MP_CTRL.DIVERSE. -/
def diverse (s : State) : Bool := s.flag R.MP_CTRL 4

/-- The encoder TRAVEL follows: the primary, or the secondary once the primary is lost (R38). -/
def travelSource (s : State) : Option (Fin 4) :=
  if encPresent s (priEnc s) then some (priEnc s)
  else if encPresent s (secEnc s) then some (secEnc s) else none

/-- The quality the encoders as they stand give (Table 02-1, R38); SINGLE_T of 0 skips SINGLE. -/
def qualityNow (s : State) : TravelQ :=
  let grace := if s.reg R.SINGLE_T = 0 then TravelQ.estimated else TravelQ.single
  if encPresent s (priEnc s) then
    if diverse s && !encPresent s (secEnc s) then grace else .measured
  else if encPresent s (secEnc s) then grace else .estimated

/-- Change the quality: ES106 and MP_IRQ_STAT[3] on a change (R37). -/
def setQuality (s : State) (q : TravelQ) : State :=
  if q = s.mp.quality then s
  else (({ s with mp := { s.mp with quality := q, singleSince := s.cycle } }).setBit R.MP_IRQ_STAT 3).raise 106 0

/-- The quality after a loss: it only falls, and ESTIMATED stays until the next start (R38). -/
def worseQuality (s : State) : TravelQ :=
  match s.mp.quality, qualityNow s with
  | .measured, q => q
  | .single, .estimated => .estimated
  | .single, _ => if (travelSource s).isSome then .single else .estimated
  | .estimated, _ => .estimated

/-- An encoder is lost (R37, R38): the source and the quality of TRAVEL follow, from the first open on. -/
def loseEncoder (s : State) (n : Fin 4) : State :=
  if s.mp.encs[n].lost then s
  else
    let s := updEnc s n fun e => { e with lost := true }
    if s.mp.opened then setQuality s (worseQuality s) else s

/-- An encoder error: its bit of ENCn_STAT and ES104 on its channel (R33, R34). -/
def encError (s : State) (n : Fin 4) (b : Nat) : State := (s.setBit (R.ENCn_STAT n) b).raise 104 n

/-- The hysteresis of R35: an encoder moves `m` counts in direction `reverse`; answers the counts that are travel. Before the first
movement of a start the last one counts as forward (log entry 87). -/
def hystMove (h : Nat) (e : Encoder) (reverse : Bool) (m : Nat) : Encoder × Nat :=
  if reverse = e.dir then ({ e with rev := e.rev - m }, m - e.rev)
  else if e.rev + m ≤ h then ({ e with rev := e.rev + m }, 0)
  else ({ e with dir := reverse, rev := 0 }, e.rev + m - h)

/-- Add scaled counts to TRAVEL (R35): the scale is 32.32 µm per count. -/
def addTravel (s : State) (counts : Nat) (scale : DWord) : State :=
  let whole := s.mp.travel.toNat * 2 ^ 32 + s.mp.travelFrac.toNat + counts * scale.toNat
  { s with mp := { s.mp with travel := BitVec.ofNat 64 (whole / 2 ^ 32), travelFrac := BitVec.ofNat 32 whole } }

/-- ENCn_SCALE, integer and fraction. -/
def encScale (s : State) (n : Fin 4) : DWord := s.reg64 (R.ENCn_SCALE_LO n)

/-- An encoder moves by `m` counts (R35): its position, the direction, and TRAVEL where it is the source and the quality is not ESTIMATED.
While it is ESTIMATED, MP_STAT.DIR keeps the direction of the source's last movement (DESIGN CHOICE, log entry 87). -/
def encMove (s : State) (n : Fin 4) (reverse : Bool) (m : Nat) : State :=
  let hm := hystMove (s.fld (R.ENCn_CFG n) 11 8) s.mp.encs[n] reverse m
  let source := travelSource s = some n && s.mp.quality != .estimated
  let s := updEnc s n fun _ =>
    { hm.1 with moved := if reverse then hm.1.moved - BitVec.ofNat 64 m else hm.1.moved + BitVec.ofNat 64 m }
  if source then
    addTravel { s with mp := { s.mp with lastDir := reverse } } hm.2 (encScale s n)
  else s

/-- Whether an edge to levels (a, b) turns forward (log entry 7), before INVERT. -/
def edgeForward (e : Encoder) (a b : Bool) : Bool := if a != e.a then a != b else a == b

/-- One count of a quadrature input. Every count since the last Z pulse counts against ENCn_ZPER, whatever its direction (log entry 12). -/
def quadCount (s : State) (n : Fin 4) (a b : Bool) : State :=
  let reverse := (!edgeForward s.mp.encs[n] a b) != s.flag (R.ENCn_CFG n) 2
  let c := s.reg (R.ENCn_COUNT n)
  let s := s.setReg (R.ENCn_COUNT n) (if reverse then c - 1 else c + 1)
  let s := updEnc s n fun e => { e with a := a, b := b, zCount := e.zCount + 1 }
  encMove s n reverse 1

/-- QUADRATURE_EDGE (R33, R35): the filtered sample of encoder `n` now shows levels `a` and `b`. An input that is not an enabled
quadrature one counts nothing; its levels are what the first edge after the enabling open is judged against. -/
def execQuadratureEdge (n : Fin 4) (a b : Bool) (s : State) : Out :=
  .next (if !encEnabled s n || s.flag (R.ENCn_CFG n) 1 then updEnc s n fun e => { e with a := a, b := b }
    else if a != s.mp.encs[n].a && b != s.mp.encs[n].b then
      encError (updEnc s n fun e => { e with a := a, b := b }) n 0
    else if a == s.mp.encs[n].a && b == s.mp.encs[n].b then s
    else quadCount s n a b)

/-- Z_PULSE (R33): with Z checking on, a pulse not after exactly ENCn_ZPER counts since the previous one is a Z error. The first pulse
after the open that enables the encoder is not judged (DESIGN CHOICE, log entry 12). -/
def execZPulse (n : Fin 4) (s : State) : Out :=
  .next (if !encEnabled s n || s.flag (R.ENCn_CFG n) 1 then s
    else
      let bad := s.flag (R.ENCn_CFG n) 3 && s.mp.encs[n].zSeen && s.mp.encs[n].zCount != s.reg (R.ENCn_ZPER n)
      let s := updEnc s n fun e => { e with zSeen := true, zCount := 0 }
      if bad then encError s n 1 else s)

/-- Binary from Gray code, over 32 bits. -/
def grayDecode (g : Word) : Word :=
  let x := g ^^^ (g >>> 16)
  let x := x ^^^ (x >>> 8)
  let x := x ^^^ (x >>> 4)
  let x := x ^^^ (x >>> 2)
  x ^^^ (x >>> 1)

/-- The value of an SSI frame: its data bits, Gray-decoded where the encoder says so (R34). -/
def ssiValue (s : State) (n : Fin 4) (f : SsiFrame) : Word :=
  let w := s.fld (R.ENCn_CFG n) 16 12 + 1
  let raw := BitVec.ofNat 32 (f.raw.toNat % 2 ^ w)
  if s.flag (R.ENCn_CFG n) 17 then grayDecode raw else raw

/-- The signed difference of two SSI values of the encoder's width, the shorter way round. -/
def ssiDelta (w : Nat) (new old : Word) : Int :=
  let d := (new.toNat + 2 ^ w - old.toNat) % 2 ^ w
  if 2 * d < 2 ^ w then (d : Int) else (d : Int) - (2 ^ w : Nat)

/-- Whether a difference of counts is more than the read period allows at V_MAX (R34, log entry 8). -/
def ssiTooFar (s : State) (n : Fin 4) (d : Int) : Bool :=
  decide ((s.reg R.V_MAX).toNat * (s.reg (R.ENCn_SSIPER n)).toNat * 2 ^ 32 < d.natAbs * (encScale s n).toNat * 1000)

/-- An SSI read is due: the encoder is an enabled SSI one, and ENCn_SSIPER µs have passed since its last read (R34). -/
def ssiDue (s : State) (n : Fin 4) : Bool :=
  encEnabled s n && s.flag (R.ENCn_CFG n) 1 && readDue s s.mp.encs[n].ssiAt (usCycles (s.reg (R.ENCn_SSIPER n)).toNat)

/-- SSI_READ (R34): an error raises ES104, the third in a row loses the encoder; an accepted value is the new count and moves TRAVEL.
ENCn_COUNT holds the value as read; INVERT turns the direction of the movement alone (DESIGN CHOICE, log entry 87). -/
def execSsiRead (n : Fin 4) (f : SsiFrame) (s : State) : Out :=
  .next (if !ssiDue s n then s
    else
      let s := updEnc s n fun e => { e with ssiAt := some s.cycle }
      let e := s.mp.encs[n]
      let w := s.fld (R.ENCn_CFG n) 16 12 + 1
      let v := ssiValue s n f
      let d := match e.ssiLast with | some o => ssiDelta w v o | none => 0
      if (s.flag (R.ENCn_CFG n) 18 && f.err) || f.stuckLow || ssiTooFar s n d then
        let s := encError (updEnc s n fun e => { e with ssiRun := e.ssiRun + 1 }) n 2
        if 3 ≤ e.ssiRun + 1 then loseEncoder s n else s
      else
        let s := (updEnc s n fun e => { e with ssiRun := 0, ssiLast := some v }).setReg (R.ENCn_COUNT n) v
        if d = 0 then s else encMove s n ((decide (d < 0)) != s.flag (R.ENCn_CFG n) 2) d.natAbs)

/-- ENCODER_LINE_FAULT (R37): ES104, and the encoder is lost. -/
def execEncoderLineFault (n : Fin 4) (s : State) : Out :=
  .next (if encEnabled s n then loseEncoder (encError s n 3) n else s)

/-- SINGLE_TIMEOUT (R38): SINGLE has lasted SINGLE_T. -/
def execSingleTimeout (s : State) : Out :=
  .next (if s.mp.quality = .single ∧ (s.reg R.SINGLE_T).toNat ≤ msSince s s.mp.singleSince then setQuality s .estimated else s)

/-- The speed of an encoder over the last 1 ms, mm/s: scaled movement since the tenth estimate before (R36). -/
def speedOf (s : State) (n : Fin 4) : Int :=
  let e := s.mp.encs[n]
  let d := (e.moved - (e.hist[9]?).getD 0).toInt
  Int.tdiv (d * (encScale s n).toNat) (2 ^ 32 : Nat)

/-- Update the estimate of encoder `n` and its history. A disabled encoder's SPEEDn keeps its last estimate (DESIGN CHOICE, log entry 87). -/
def estimateOne (s : State) (n : Nat) : State :=
  let n := Fin.ofNat 4 n
  if encEnabled s n then
    let v := speedOf s n
    updEnc (s.setReg (R.SPEEDn n) (BitVec.ofInt 32 v)) n fun e => { e with hist := (e.moved :: e.hist).take 10 }
  else s

/-- The published estimate. -/
def speed (s : State) (n : Fin 4) : Int := (s.reg (R.SPEEDn n)).toInt

/-- A failing estimate of the diverse check (R36). -/
def speedFails (s : State) : Bool :=
  let p := speed s (priEnc s)
  let q := speed s (secEnc s)
  decide (max (s.fld R.SPD_TOL 15 0 * 100) (s.fld R.SPD_TOL 23 16 * max p.natAbs q.natAbs) < (p - q).natAbs * 100)

/-- Above V_MAX (R36). -/
def overspeed (s : State) (n : Fin 4) : Bool := encEnabled s n && decide ((s.reg R.V_MAX).toNat < (speed s n).natAbs)

/-- An estimate is due: every 100 µs (R36). -/
def speedDue (s : State) : Bool := readDue s s.mp.speedAt (usCycles 100)

/-- One estimate: every encoder's speed, the diverse check with ES105 as a level source, ES108, and the standstill count (R36). -/
def estimateAll (s : State) : State :=
  let s := foldN 4 estimateOne { s with mp := { s.mp with speedAt := some s.cycle } }
  let failing := diverse s && s.mp.quality == .measured && speedFails s
  let run := if failing then s.mp.failRun + 1 else 0
  let still := match travelSource s with
    | some n => if (speed s n).natAbs < 1 then s.mp.stillRun + 1 else 0
    | none => 0
  let s := { s with mp := { s.mp with failRun := run, stillRun := still } }
  let s := s.level 105 (failing && decide (max 1 (10 * s.fld R.SPD_TOL 31 24) ≤ run))
  s.level 108 (overspeed s (priEnc s) || overspeed s (secEnc s))

/-- SPEED_ESTIMATE (R36). -/
def execSpeedEstimate (s : State) : Out := .next (if speedDue s then estimateAll s else s)

/-! ### Time (R40, R41) -/

/-- TIME_INTEGRITY_FAULT (R40): ES109; TIME_OK falls where the counters differ. -/
def execTimeIntegrityFault (xtal : Bool) (s : State) : Out :=
  .next (({ s with mp := { s.mp with timeOk := s.mp.timeOk && xtal } }).raise 109 0)

/-- The oldest stamp of a capture FIFO. -/
def capHead (s : State) (i : Fin 8) : DWord × DWord := s.mp.caps[i].head?.getD (0, 0)

/-- A fabric time base: TIME_NS with the servo's offset and the rate correction, in ppb, since it was last set (R376). -/
def tbValue (s : State) (i : Fin 2) : DWord :=
  let v := s.tp.servos[i]
  s.timeNs + v.base + BitVec.ofInt 64 (v.rate.toInt * (4 * (s.cycle - v.at_) / 3 : Nat) / 1000000000)

/-- The value of a 64-bit quantity (R41, R405). -/
def quantity (s : State) : Quantity → DWord
  | .timeNs => s.timeNs
  | .travel => s.mp.travel
  | .tbSite => tbValue s 0
  | .tbZone => tbValue s 1
  | .timer c => (s.mp.timers[c] >>> 32).setWidth 64
  | .captureT i => (capHead s i).1
  | .captureS i => (capHead s i).2
  | .lanternCyc u => if lnReadsZero s u then 0 else s.ln.cyc
  | .lanternCnt u k => if lnReadsZero s u then 0 else (s.ln.cnt[u][k]).setWidth 64

/-- A Harbour core in user mode reads a Lantern unit's counters only while LN_PERM permits it (R407). -/
def mayReadQuantity (s : State) (i : Initiator) : Quantity → Bool
  | .lanternCyc u => i != .user || s.flag R.LN_PERM (lnKind u)
  | .lanternCnt u _ => i != .user || s.flag R.LN_PERM (lnKind u)
  | _ => true

/-- READ_LO_LATCH (R41): the low half is returned, the upper half latched for this initiator alone. -/
def execReadLoLatch (i : Initiator) (q : Quantity) (s : State) : Out :=
  .next (if s.admitted i && mayReadQuantity s i q then
    let v := quantity s q
    let s := { s with mp := { s.mp with latches := ((i, q), (v >>> 32).setWidth 32) :: s.mp.latches.filter (·.1 ≠ (i, q)) } }
    s.busOk ((v.setWidth 32).setWidth 64)
  else s.refuse i)

/-- The latched upper half of a quantity for an initiator. -/
def latched (s : State) (i : Initiator) (q : Quantity) : Word :=
  match s.mp.latches.find? (·.1 = (i, q)) with
  | some p => p.2
  | none => 0

/-! ### Trigger pins, timers, capture (R48 to R50) -/

/-- Whether trigger pins may pulse: READY, SAFE_N high, and the first open of the start done (R50). -/
def trigLive (s : State) : Bool := s.safeHigh && s.mp.opened

/-- Pulse pin `j` from a source (bit 0 posts, bit 1 timers of TRIGj_CFG.SRC); a running pulse only restarts its width (R50). -/
def trigPulse (s : State) (j : Nat) (srcBit : Nat) : State :=
  if trigLive s && s.flag (R.TRIGj_CFG j) srcBit then
    { s with mp := { s.mp with trigs := s.mp.trigs.set (Fin.ofNat 8 j) (some (s.cycle + s.fld (R.TRIGj_WIDTH j) 23 0)) } }
  else s

/-- Pulse every pin of a mask. -/
def trigMask (s : State) (mask : Nat) (srcBit : Nat) : State :=
  foldN 8 (fun s j => if mask.testBit j then trigPulse s j srcBit else s) s

/-- The level of pin `j` (R50): high impedance before the first open of a start; then the pulse level TRIGj_CFG.POL while a pulse runs,
else its opposite. -/
def trigLevel (s : State) (j : Fin 8) : Option Bool :=
  if !s.mp.opened then none
  else if s.mp.trigs[j].isSome && trigLive s then some (s.flag (R.TRIGj_CFG j) 2) else some (!s.flag (R.TRIGj_CFG j) 2)

/-- TRIG_PULSE_END (R50): the width count expires. -/
def execTrigPulseEnd (j : Fin 8) (s : State) : Out :=
  .next (match s.mp.trigs[j] with
    | some e => if e ≤ s.cycle then { s with mp := { s.mp with trigs := s.mp.trigs.set j none } } else s
    | none => s)

/-- TINC_WRITE (R48): the increment changes from the next cycle, the count does not. -/
def execTincWrite (i : Initiator) (c : Fin 16) (int : Bool) (v : Word) (s : State) : Out :=
  let a := if int then R.TMRc_TINC_INT c else R.TMRc_TINC_FRAC c
  .next (s.openWrite i a fun s => s.setReg a v)

/-- The integer part of a timer's count. -/
def timerCount (s : State) (c : Fin 16) : DWord := (s.mp.timers[c] >>> 32).setWidth 64

/-- Whether a timer's compare is reached (R48). -/
def timerReached (s : State) (c : Fin 16) : Bool :=
  s.flag (R.TMRc_CFG c) 0 && decide (0 ≤ (timerCount s c - s.reg64 (R.TMRc_CMP_LO c)).toInt)

/-- TIMER_COMPARE_REACHED (R48): the interrupt flag, the chosen TRIG pins, and CMP advanced by a nonzero TMR_PER. -/
def execTimerCompareReached (c : Fin 16) (s : State) : Out :=
  .next (if timerReached s c then
    let s := if s.flag (R.TMRc_CFG c) 1 then s.setBit R.MP_IRQ_STAT 2 else s
    let s := trigMask s (s.fld (R.TMRc_CFG c) 15 8) 1
    if s.reg (R.TMRc_PER c) = 0 then s
    else s.setReg64 (R.TMRc_CMP_LO c) (s.reg64 (R.TMRc_CMP_LO c) + (s.reg (R.TMRc_PER c)).setWidth 64)
  else s)

/-- Whether an input's edge select takes an edge: 0 rising, 1 falling, else both (log entry 9). -/
def edgeTaken (sel : Nat) (rising : Bool) : Bool :=
  match sel with
  | 0 => rising
  | 1 => !rising
  | _ => true

/-- TIME_NS `d` cycles ago. -/
def timeBefore (s : State) (d : Nat) : DWord := BitVec.ofNat 64 (4 * (s.cycle - d) / 3)

/-- CAPTURE_EDGE (R49): stamped, corrected for the filter and the 3-cycle input delay; a full FIFO drops it with OVF and ES110. -/
def execCaptureEdge (n : Fin 8) (rising : Bool) (s : State) : Out :=
  .next (if s.flag (R.CAPi_CFG n) 0 && edgeTaken (s.fld (R.CAPi_CFG n) 2 1) rising then
    if s.mp.caps[n].length < 16 then
      let stamp := (timeBefore s (s.fld (R.CAPi_CFG n) 15 8 + 3), s.mp.travel)
      ({ s with mp := { s.mp with caps := s.mp.caps.set n (s.mp.caps[n] ++ [stamp]) } }).setBit R.MP_IRQ_STAT 1
    else (s.setBit (R.CAPi_STAT n) 0).raise 110 0
  else s)

/-- CAPTURE_POP (R41, R49, Table 02-7): the read of CAPi_S_HI returns the upper half this initiator's read of CAPi_S_LO latched, and
pops the FIFO. -/
def execCapturePop (i : Initiator) (n : Fin 8) (s : State) : Out :=
  if !s.admitted i then .next (s.refuse i) else
  let s := s.busOk ((latched s i (.captureS n)).setWidth 64)
  .next { s with mp := { s.mp with caps := s.mp.caps.set n s.mp.caps[n].tail } }

/-- POSTQ_POP (R47): the oldest entry is removed and its stamps exposed; an empty queue reads 0. -/
def execPostqPop (s : State) : Out :=
  .next (match s.mp.keeperQ with
    | [] => s.busOk 0
    | e :: rest =>
      let s := { s with mp := { s.mp with keeperQ := rest } }
      ((s.setReg R.POSTQ_T e.t).setReg R.POSTQ_S e.s).busOk (0x80000000 ||| e.post.setWidth 64))

/-- MP_STAT (Table 02-9): STILL once a thousand estimates in a row, 100 ms, were below 1 mm/s. -/
def mpStat (s : State) : Word :=
  BitVec.ofNat 32 ((match s.mp.quality with | .measured => 0 | .single => 1 | .estimated => 2) + 4 * bit (decide (1000 ≤ s.mp.stillRun)) +
    8 * bit s.mp.lastDir + 16 * bit s.mp.encs[0].lost + 32 * bit s.mp.encs[1].lost + 64 * bit s.mp.encs[2].lost +
    128 * bit s.mp.encs[3].lost + 256 * bit s.mp.timeOk)

/-! ### One TCLK cycle of Milepost -/

/-- The timers advance by TINC (R48). -/
def tickTimer (s : State) (c : Nat) : State :=
  let c := Fin.ofNat 16 c
  let inc := (s.reg (R.TMRc_TINC_INT c) ++ s.reg (R.TMRc_TINC_FRAC c)).setWidth 96
  { s with mp := { s.mp with timers := s.mp.timers.set c (s.mp.timers[c] + inc) } }

/-- TRAVEL advances by V_MAX while the quality is ESTIMATED (R38): V_MAX mm/s is V_MAX / 750,000 µm per TCLK cycle. -/
def tickTravel (s : State) : State :=
  if s.mp.quality = .estimated then
    let t := s.mp.estRem + (s.reg R.V_MAX).toNat
    { s with mp := { s.mp with travel := s.mp.travel + BitVec.ofNat 64 (t / 750000), estRem := t % 750000 } }
  else s

end Sys2Proof.Machine
end

