-- ==== Sys2Proof/Machine/Towpath.lean ====
section
/-! DEFINITION. Machine/Towpath.lean: addresses, routing tables, stops, fabric time and Harbour's rings (R365 to R383). Frames a node
sends stand in `tp.out` with their port; ports 0 and 1 are the cell ring (east, west), 2 and 3 the zone or site ring. -/

namespace Sys2Proof.Machine

/-! ### Ports, roles and sending -/

/-- Change Towpath's state. -/
def updTp (s : State) (f : Towpath → Towpath) : State := { s with tp := f s.tp }

/-- Change a port. -/
def updTpPort (s : State) (q : Fin 4) (f : TpPort → TpPort) : State := updTp s fun t => { t with ports := t.ports.set q (f t.ports[q]) }

/-- Towpath runs from the end of start step 4, when it is enabled (R374). -/
def tpOn (s : State) : Bool := s.flag R.TP_CFG 8 && s.tp.upAt.isSome

/-- A port that carries frames. -/
def tpUsable (s : State) (q : Fin 4) : Bool := tpOn s && s.flag (R.TPq_CFG q.val) 0 && !s.tp.ports[q].disabled

/-- TP_CFG.ROLE (Table 18-2), and what it makes the node. -/
def tpRole (s : State) : Nat := s.fld R.TP_CFG 2 0
def isCellMaster (s : State) : Bool := tpRole s == 2
def isZoneMaster (s : State) : Bool := tpRole s == 3 || tpRole s == 4
def isSiteMaster (s : State) : Bool := tpRole s == 4 || s.tp.acting

/-- SEAL_CFG's node and cell numbers (R369). -/
def sealNode (p : Byte) : BitVec 4 := p.setWidth 4
def sealCell (p : Byte) : BitVec 4 := (p >>> 4).setWidth 4

/-- The node's address, or while it has none the one it claims: a member's and a cell master's zone is not yet known, and 0. -/
def ownAddr (s : State) : BitVec 12 :=
  s.tp.addr.getD ((if isZoneMaster s then BitVec.ofNat 4 (s.fld R.TP_CFG 7 4) else 0) ++ s.sio.sealPattern)

/-- The zone, cell and node numbers of an address (R17). -/
def addrZone (a : BitVec 12) : BitVec 4 := (a >>> 8).setWidth 4
def addrCell (a : BitVec 12) : BitVec 4 := (a >>> 4).setWidth 4
def addrNode (a : BitVec 12) : BitVec 4 := a.setWidth 4

/-- A number of 4 bits as a table index. -/
def idx16 (n : BitVec 4) : Fin 16 := Fin.ofNat 16 n.toNat

/-- The other port of a port's ring, and whether the ring is the zone or site ring. -/
def otherPort (q : Fin 4) : Fin 4 := if q = 0 then 1 else if q = 1 then 0 else if q = 2 then 3 else 2
def upperPort (q : Fin 4) : Bool := decide (2 ≤ q.val)

/-- The strict priority of a frame: STOP, then time messages, then HELLO, CLAIM, ASSIGN, ROUTE and ROUTE_ACK, then DATA and BCAST (R368). -/
def tpPrio : ZBody → Nat
  | .stop _ => 0
  | .ptp _ => 1
  | .data _ => 3
  | .bcast _ => 3
  | _ => 2

/-- Payload bytes of a frame. Those whose layout the manual does not give fit the Ethernet minimum, but a ROUTE's. -/
def payloadLen : ZBody → Nat
  | .stop _ => 16
  | .data m => m.payload.length
  | .bcast m => m.payload.length
  | .route _ => Config.routeLen
  | _ => 0

/-- Bytes from destination MAC to FCS (Table 20-1): Ethernet header, Zholi header, payload, PCHK, padding, FCS. -/
def frameLen (b : ZBody) : Nat := max 60 (14 + 16 + payloadLen b + 4) + 4

/-- TCLK cycles that a frame takes on the wire: at 25 Gb/s, with the preamble and the gap before it (log entry 107). -/
def wireCycles (b : ZBody) : Nat := (6 * (frameLen b + 20) + 24) / 25

/-- The frames handed out, each with the cycle at which port `q` begins to send it; 0 for other ports' frames. `e`: the port is free. -/
def departures (q : Fin 4) : Nat → List (Fin 4 × Zholi) → List ((Fin 4 × Zholi) × Nat)
  | _, [] => []
  | e, y :: ys =>
    if y.1 = q then (y, max e y.2.at_) :: departures q (max e y.2.at_ + wireCycles y.2.body) ys
    else (y, 0) :: departures q e ys

/-- Queue a frame behind those already on the wire, which are never cut short, and behind those that wait and have its priority or a
higher one (R368). -/
def queueFrame (out : List (Fin 4 × Zholi)) (x : Fin 4 × Zholi) : List (Fin 4 × Zholi) :=
  let ps := departures x.1 0 out
  let before := fun (p : (Fin 4 × Zholi) × Nat) => p.1.1 != x.1 || decide (p.2 < x.2.at_) || decide (tpPrio p.1.2.body ≤ tpPrio x.2.body)
  (ps.filter before).map (·.1) ++ x :: (ps.filter (!before ·)).map (·.1)

/-- A port has a frame on its wire or waiting in a cycle; one that waits for the wire. -/
def portSends (out : List (Fin 4 × Zholi)) (q : Fin 4) (now : Nat) : Bool :=
  (departures q 0 out).any fun p => p.1.1 == q && decide (p.1.2.at_ ≤ now ∧ now < p.2 + wireCycles p.1.2.body)
def portHolds (out : List (Fin 4 × Zholi)) (q : Fin 4) (now : Nat) : Bool :=
  (departures q 0 out).any fun p => p.1.1 == q && decide (p.1.2.at_ ≤ now ∧ now < p.2)

/-- Hand a frame to the ports named, of those that carry frames. -/
def handTo (s : State) (ports : List (Fin 4)) (f : Zholi) : State :=
  (ports.filter (tpUsable s)).foldl (fun s q => lnBytes (updTp s fun t => { t with out := queueFrame t.out (q, f) }) (lnTp q) 0 (frameLen f.body)) s

/-- A frame of this node's own: 64 hops, the next SEQ (Table 18-3). -/
def originate (s : State) (ports : List (Fin 4)) (body : ZBody) : State :=
  handTo (updTp s fun t => { t with seq := t.seq + 1 }) ports ⟨s.cycle, false, ownAddr s, 64, s.tp.seq, body⟩

/-- Forward a received frame: HOPS one less (R367). -/
def forward (s : State) (ports : List (Fin 4)) (h : ZHead) (body : ZBody) : State := handTo s ports ⟨s.cycle, false, h.src, h.hops - 1, h.seq, body⟩

/-- A frame seen on the site ring from the site master (R378). -/
def siteSeen (s : State) : State := updTp s fun t => { t with siteSeenAt := s.cycle }

/-- A frame's sender is the site master, seen on the site ring. -/
def fromSiteMaster (s : State) (q : Fin 4) (src : BitVec 12) : Bool := upperPort q && isZoneMaster s && s.tp.siteMaster == some src

/-- Count a received frame (TPq_FRAMES). -/
def countFrame (s : State) (q : Fin 4) (b : ZBody) : State :=
  (lnBytes s (lnTp q) (frameLen b) 0).setReg (R.TPq_FRAMES q.val) (s.reg (R.TPq_FRAMES q.val) + 1)

/-- Take a frame that passed its checks: counted, and with HOPS at 0 discarded and counted as failed, without an event (R367). One of the
site master's on the site ring shows that it is there (R378). -/
def receive (s : State) (q : Fin 4) (h : ZHead) (b : ZBody) (ok : State → State) : State :=
  if !tpUsable s q then s
  else
    let s := countFrame s q b
    if h.hops = 0 then s.satAdd (R.TPq_ERR q.val) 15 0 1
    else ok (if fromSiteMaster s q h.src then siteSeen s else s)

/-- Whether a frame is this node's own, come round its ring. -/
def isOwn (s : State) (h : ZHead) : Bool := h.src == ownAddr s

/-- TP_LINK_LOSS (Table 18-12): a PCS error is counted; ES112 for the port. -/
def execTpLinkLoss (q : Fin 4) (pcs : Bool) (s : State) : Out :=
  .next (if !tpUsable s q then s
    else (let s := lnErr s (lnTp q); if pcs then s.satAdd (R.TPq_ERR q.val) 31 16 1 else updTpPort s q fun p => { p with link := false }).raise 112 q.val)

/-! ### Routing tables (R371) -/

/-- A table, its index among the generations, its code in TP_ROUTE_STAT. -/
def tableIdx : RouteTable → Fin 3
  | .cell => 0
  | .zone => 1
  | .site => 2
def tableOf (s : State) : RouteTable → Vector Word 16
  | .cell => s.tp.cell
  | .zone => s.tp.zone
  | .site => s.tp.site
def setTable (s : State) (t : RouteTable) (v : Vector Word 16) : State :=
  updTp s fun x => match t with
    | .cell => { x with cell := v }
    | .zone => { x with zone := v }
    | .site => { x with site := v }

/-- An entry (Table 18-15), and its fields. -/
def mkEntry (pos : BitVec 4) (refused : Bool) (addr : BitVec 12) : Word :=
  BitVec.ofNat 32 (1 + 2 * pos.toNat + 32 * bit refused + 65536 * addr.toNat)
def entPresent (e : Word) : Bool := e.getLsbD 0
def entPos (e : Word) : Nat := bits e 4 1
def entRefused (e : Word) : Bool := e.getLsbD 5
def entAddr (e : Word) : BitVec 12 := BitVec.ofNat 12 (bits e 27 16)

/-- Set a generation; TP_ROUTE_GEN shows the zone and site tables'. -/
def setGen (s : State) (t : RouteTable) (g : Half) : State :=
  let s := updTp s fun x => { x with gens := x.gens.set (tableIdx t) g }
  s.setReg R.TP_ROUTE_GEN (s.tp.gens[2] ++ s.tp.gens[1])

/-- Whether the node is the master that builds a table. -/
def buildsTable (s : State) : RouteTable → Bool
  | .cell => isCellMaster s
  | .zone => isZoneMaster s
  | .site => isSiteMaster s

/-- Where a master sends its table: the cell table on its cell ring, the zone table into the cell ring towards the zone ring's
gateway, the site table onto both rings. -/
def tablePorts : RouteTable → List (Fin 4)
  | .cell => [0, 1]
  | .zone => [0, 1]
  | .site => [0, 1, 2, 3]

/-- Send a new table: its generation one on, every acknowledgement open (R371, R378). -/
def newTable (s : State) (t : RouteTable) : State :=
  let s := setGen s t (s.tp.gens[tableIdx t] + 1)
  let s := updTp s fun x => { x with acks := x.acks.filter (·.1 ≠ t) }
  originate s (tablePorts t) (.route ⟨t, s.tp.gens[tableIdx t], tableOf s t, false⟩)

/-- A new table from a master, after a change. -/
def newTables (s : State) : State :=
  [RouteTable.cell, .zone, .site].foldl (fun s t => if buildsTable s t then newTable s t else s) s

/-- The node's own index in a table, if it has an entry there: nodes in their cell table, cell masters in the zone table, zone
masters in the site table; and the ring position that entry shows. -/
def ownEntry (s : State) : RouteTable → Option (Fin 16 × BitVec 4)
  | .cell => some (idx16 (sealNode s.sio.sealPattern), s.tp.pos[0])
  | .zone => if isCellMaster s then some (idx16 (sealCell s.sio.sealPattern), s.tp.pos[1]) else none
  | .site => if isZoneMaster s then some (idx16 (addrZone (ownAddr s)), s.tp.pos[1]) else none

/-- TP_STAT.ROUTE_OK: every present node but the master itself and those refused has acknowledged the latest generation with OK (R371). -/
def routeOk (s : State) (t : RouteTable) : Bool :=
  (List.range 16).all fun n =>
    let e := (tableOf s t)[Fin.ofNat 16 n]
    !entPresent e || entRefused e || (ownEntry s t).map (·.1) == some (Fin.ofNat 16 n) || s.tp.acks.contains (t, Fin.ofNat 16 n)

/-- The ports of a table's ring as the node sees it. -/
def tableRing (s : State) : RouteTable → List (Fin 4)
  | .cell => [0, 1]
  | .zone => if isCellMaster s then [2, 3] else []
  | .site => if isZoneMaster s then [2, 3] else []

/-- The index of a neighbour in a table. -/
def entryOfAddr : RouteTable → BitVec 12 → Fin 16
  | .cell, a => idx16 (addrNode a)
  | .zone, a => idx16 (addrCell a)
  | .site, a => idx16 (addrZone a)

/-- SELF: the own entry differs from the node's address or ring position (Table 18-8). -/
def selfWrong (s : State) (m : RouteMsg) : Bool :=
  match ownEntry s m.table with
  | none => false
  | some (n, pos) =>
    let e := m.entries[n]
    match s.tp.addr with
    | some a => !entPresent e || entAddr e != a || entPos e != pos.toNat
    | none => entPresent e && entPos e != pos.toNat

/-- NEIGHBOUR: an assigned neighbour's entry differs from what its HELLO showed. -/
def neighbourWrong (s : State) (m : RouteMsg) : Bool :=
  (tableRing s m.table).any fun q =>
    match s.tp.ports[q].neighbour with
    | some a =>
      let e := m.entries[entryOfAddr m.table a]
      s.tp.ports[q].nAssigned && (!entPresent e || entAddr e != a || entPos e != s.tp.ports[q].nPos.toNat)
    | none => false

/-- DUPLICATE: two present entries share a position or an address. -/
def duplicateEntry (m : RouteMsg) : Bool :=
  (List.range 16).any fun i => (List.range 16).any fun j =>
    let a := m.entries[Fin.ofNat 16 i]
    let b := m.entries[Fin.ofNat 16 j]
    decide (i < j) && entPresent a && entPresent b && (entPos a == entPos b || entAddr a == entAddr b)

/-- The first check of Table 18-8 that fails, or OK. -/
def routeCode (s : State) (m : RouteMsg) : BitVec 3 :=
  if m.crcBad then 2
  else if (m.gen - s.tp.gens[tableIdx m.table]).toInt ≤ 0 then 3
  else if selfWrong s m then 4
  else if neighbourWrong s m then 5
  else if duplicateEntry m then 6
  else 1

/-- Where a ring frame that no table routes goes on: the other port of its ring and, at a gateway, the other ring. -/
def relayPorts (s : State) (q : Fin 4) (gateway : Bool) : List (Fin 4) :=
  otherPort q :: (if gateway && tpRole s ≥ 2 then (if upperPort q then [0, 1] else [2, 3]) else [])

/-- A zone master's hops east from the old site master, as the site table in effect has them. -/
def siteHops (s : State) (a : BitVec 12) : Option Nat :=
  let e := s.tp.site[idx16 (addrZone a)]
  if entPresent e then some (entPos e) else none

/-- A site master that stands farther from the old one than this backup does is not deferred to (R378). -/
def fartherThanOwn (s : State) (src : BitVec 12) : Bool :=
  s.flag R.TP_CFG 3 && match siteHops s src, siteHops s (ownAddr s) with
    | some a, some b => decide (b < a)
    | _, _ => false

/-- A zone master hears of a site master: it is there, and a backup that has taken over defers to it, where the change of grandmaster puts its
servo in HOLDOVER (R377); unless the backup is the nearer of the two (R378). -/
def hearSite (s : State) (src : BitVec 12) : State :=
  if fartherThanOwn s src then s
  else
    let s := updTp (siteSeen s) fun t => { t with siteMaster := some src }
    if s.tp.acting then
      updTp s fun t =>
        let v := t.servos[0]
        { t with acting := false,
                 servos := t.servos.set 0 { v with state := .holdover, run := 0, holding := some (v.holding.getD s.cycle), gm := src } }
    else s

/-- ROUTE (R371): checked, acknowledged, in effect where it passes, and passed on round the rings. -/
def execRoute (q : Fin 4) (h : ZHead) (m : RouteMsg) (s : State) : Out :=
  .next (receive s q h (.route m) fun s =>
    if isOwn s h then s
    else
      let s := if upperPort q && m.table == .site && isZoneMaster s then hearSite s h.src else s
      let c := routeCode s m
      let s := s.setReg R.TP_ROUTE_STAT (BitVec.ofNat 32 (c.toNat + 16 * (tableIdx m.table).val))
      let s := s.setBit R.TP_IRQ_STAT 1
      let s := if c = 1 then setGen (setTable s m.table m.entries) m.table m.gen else s
      let s := if c = 1 ∨ c = 3 then s else s.raise 115 0
      let s := match ownEntry s m.table with
        | some (n, _) => originate s [q] (.routeAck ⟨m.table, m.gen, n, c⟩)
        | none => originate s [q] (.routeAck ⟨m.table, m.gen, idx16 (sealNode s.sio.sealPattern), c⟩)
      forward s (relayPorts s q (m.table != .cell)) h (.route m))

/-- ROUTE_ACK (R371): the master notes an OK for its latest generation, of the node whose entry it is; others pass it on. -/
def execRouteAck (q : Fin 4) (h : ZHead) (m : AckMsg) (s : State) : Out :=
  .next (receive s q h (.routeAck m) fun s =>
    if isOwn s h then s
    else if buildsTable s m.table then
      if m.code = 1 ∧ m.gen = s.tp.gens[tableIdx m.table] ∧ entAddr (tableOf s m.table)[m.entry] = h.src then
        updTp s fun t => { t with acks := t.acks.filter (· ≠ (m.table, m.entry)) ++ [(m.table, m.entry)] }
      else s
    else forward s (relayPorts s q (m.table != .cell)) h (.routeAck m))

/-! ### HELLO (R366) -/

/-- The role a node shows: an acting site master shows the site master's. -/
def shownRole (s : State) : BitVec 3 := if s.tp.acting then 4 else BitVec.ofNat 3 (tpRole s)

/-- A servo's code (Table 18-10). -/
def servoCode : ServoState → Nat
  | .free => 0
  | .acquire => 1
  | .locked => 2
  | .holdover => 3

/-- The ring position shown on a port. -/
def portPos (s : State) (q : Fin 4) : BitVec 4 := if upperPort q then s.tp.pos[1] else s.tp.pos[0]

/-- HELLO_SEND: every 1 ms, one HELLO on each enabled port (Table 18-4). -/
def execHelloSend (s : State) : Out :=
  .next <| if !readDue s s.tp.helloAt (msCycles 1) then s else updTp (
    [(0 : Fin 4), 1, 2, 3].foldl (fun s q =>
    if tpUsable s q then originate s [q] (.hello ⟨shownRole s, s.sio.sealPattern, portPos s q, s.tp.addr.isSome, q,
      BitVec.ofNat 4 (servoCode s.tp.servos[0].state + 4 * servoCode s.tp.servos[1].state)⟩)
    else s) s) fun t => { t with helloAt := some s.cycle }

/-- Whether this node is the origin of the ring: the cell master of its cell ring, the cell master with the zone master in its
cell of the zone ring, the site master of the site ring (R366). -/
def ringOrigin (s : State) (upper : Bool) : Bool :=
  if upper then (isCellMaster s && s.tp.zoneHere) || isSiteMaster s else isCellMaster s

/-- The ring position counted from the west neighbour's: one hop further east. -/
def learnPos (s : State) (q : Fin 4) (m : HelloMsg) : State :=
  if q = 1 ∨ q = 3 then
    let u : Fin 2 := if upperPort q then 1 else 0
    updTp s fun t => { t with pos := t.pos.set u (if ringOrigin s (upperPort q) then 0 else m.pos + 1) }
  else s

/-- HELLO: the neighbour's address, assignment and position are learned; a change makes a master send new tables. -/
def execHello (q : Fin 4) (h : ZHead) (m : HelloMsg) (s : State) : Out :=
  .next (receive s q h (.hello m) fun s =>
    let p := s.tp.ports[q]
    let changed := p.neighbour != some h.src || p.nAssigned != m.assigned || p.nPos != m.pos
    let s := updTpPort s q fun p =>
      { p with link := true, neighbour := some h.src, nAssigned := m.assigned, nPos := m.pos, lastHello := s.cycle }
    let s := learnPos s q m
    let s := if upperPort q && m.role == 4 && isZoneMaster s then hearSite s h.src else s
    if changed then newTables s else s)

/-- NEIGHBOUR_SILENT (R375): no HELLO for 4 ms on a port that had a neighbour. -/
def execNeighbourSilent (q : Fin 4) (s : State) : Out :=
  .next (if tpUsable s q && s.tp.ports[q].neighbour.isSome && decide (s.tp.ports[q].lastHello + msCycles 4 ≤ s.cycle) then
    ((updTpPort (lnErr s (lnTp q)) q fun p => { p with neighbour := none, nAssigned := false }).setBit R.TP_IRQ_STAT 3).raise 118 q.val
  else s)

/-! ### Addresses (R369, R370) -/

/-- Claims within 100 ms of the master's own end of step 4 count as simultaneous. -/
def simultaneous (s : State) : Bool :=
  match s.tp.upAt with
  | some c => decide (s.cycle < c + msCycles 100)
  | none => false

/-- An ASSIGN, with ES116 at the master where it refuses. -/
def sendAssign (s : State) (ports : List (Fin 4)) (m : AssignMsg) : State :=
  let s := originate s ports (.assign m)
  if m.code = 1 then s else s.raise 116 0

/-- Change one entry of a table. -/
def setEntry (s : State) (t : RouteTable) (n : Fin 16) (e : Word) : State := setTable s t ((tableOf s t).set n e)


/-- CLAIM_SEND (R370): the first claim, and again every 100 ms in which no ASSIGN came. -/
def execClaimSend (s : State) : Out :=
  let due := match s.tp.claimAt with
    | none => true
    | some c => decide (c + msCycles 100 ≤ s.cycle)
  let zone := if isZoneMaster s then BitVec.ofNat 4 (s.fld R.TP_CFG 7 4) else 0
  let claim (u : Fin 2) : ZBody := .claim ⟨BitVec.ofNat 3 (tpRole s), s.sio.sealPattern, zone, s.tp.pos[u]⟩
  .next (if !tpOn s || tpRole s == 0 || s.tp.addr.isSome || !(s.tp.code == 0 || s.tp.code == 6) || !due then s
    else
      let s' := updTp s fun t => { t with code := if t.claimAt.isSome then 6 else 0, claimAt := some s.cycle }
      let own := mkEntry 0 false (ownAddr s)
      if isCellMaster s then
        originate (setEntry s' .cell (idx16 (sealNode s.sio.sealPattern)) own) (if s.tp.zoneHere then [0, 1, 2, 3] else [2, 3]) (claim 1)
      else if tpRole s == 3 then originate (originate s' [0, 1] (claim 0)) [2, 3] (claim 1)
      else if tpRole s == 4 then originate (setEntry s' .site (idx16 (addrZone (ownAddr s))) own) [0, 1] (claim 0)
      else originate s' [0, 1] (claim 0))

/-- Every present entry of a master's table is refused with a code: a whole cell or zone (Table 18-6). -/
def refuseAll (s : State) (t : RouteTable) (code : BitVec 3) : State :=
  foldN 16 (fun s n =>
    let n := Fin.ofNat 16 n
    let e := (tableOf s t)[n]
    if entPresent e && !entRefused e then
      sendAssign (setEntry s t n (mkEntry (BitVec.ofNat 4 (entPos e)) true (entAddr e))) (tablePorts t)
        ⟨(entAddr e).setWidth 8, BitVec.ofNat 4 (entPos e), code, addrZone (entAddr e)⟩
    else s) s

/-- ASSIGN for this node: its address stands from ASSIGNED on; a refusal is ES116, and a refused master's cell or zone goes with it. -/
def takeAssign (s : State) (m : AssignMsg) : State :=
  let fresh := s.tp.code != m.code
  let zone := if isZoneMaster s then BitVec.ofNat 4 (s.fld R.TP_CFG 7 4) else m.zone
  let s := updTp s fun t => { t with code := m.code, addr := if m.code = 1 && t.addr.isNone then some (zone ++ s.sio.sealPattern) else t.addr }
  let s := s.setBit R.TP_IRQ_STAT 0
  if m.code = 1 then
    if isCellMaster s && fresh then
      newTable (setEntry s .cell (idx16 (sealNode s.sio.sealPattern)) (mkEntry 0 false (ownAddr s))) .cell
    else s
  else if fresh then
    let s := s.raise 116 0
    if isCellMaster s && (m.code == 4 || m.code == 5) then refuseAll s .cell m.code
    else if isZoneMaster s && m.code == 5 then refuseAll s .zone m.code
    else s
  else s

/-- An entry already in a table is refused with the claim that conflicts with it; the master's own entry is its own refusal. -/
def refuseEntry (s : State) (t : RouteTable) (ports : List (Fin 4)) (dup : BitVec 3) (n : Fin 16) (z : BitVec 4) : State :=
  let e := (tableOf s t)[n]
  let m : AssignMsg := ⟨(entAddr e).setWidth 8, BitVec.ofNat 4 (entPos e), dup, z⟩
  let s := sendAssign (setEntry s t n (mkEntry (BitVec.ofNat 4 (entPos e)) true (entAddr e))) ports m
  if (ownEntry s t).map (·.1) = some n then takeAssign s m else s

/-- A claim judged by the master of table `t`: `n` is the entry it claims, `dup` the code of a conflict there, `addr` the address. -/
def judgeClaim (s : State) (t : RouteTable) (ports : List (Fin 4)) (dup : BitVec 3) (n : Fin 16) (addr : BitVec 12) (m : ClaimMsg) : State :=
  let e := (tableOf s t)[n]
  let z := addrZone addr
  if !entPresent e then newTable (sendAssign (setEntry s t n (mkEntry m.pos false addr)) ports ⟨m.pattern, m.pos, 1, z⟩) t
  else if entPos e = m.pos.toNat then
    if entRefused e then s else sendAssign s ports ⟨m.pattern, m.pos, 1, z⟩
  else if simultaneous s then
    let s := if entRefused e then s else refuseEntry s t ports dup n z
    newTable (sendAssign s ports ⟨m.pattern, m.pos, dup, z⟩) t
  else newTable (sendAssign s ports ⟨m.pattern, m.pos, dup, z⟩) t

/-- A master whose whole cell or zone is refused refuses every claim in it (Table 18-6). -/
def wholeRefused (s : State) : Bool := s.tp.code == 4 || s.tp.code == 5

/-- A claim of a node of the cell, judged by its cell master. One that knows no zone yet answers only a zone or site master,
whose zone is its own. -/
def judgeNode (s : State) (m : ClaimMsg) : State :=
  let master := decide (m.role = 3 ∨ m.role = 4)
  let s := if master then updTp s fun t => { t with zoneHere := true } else s
  if wholeRefused s then sendAssign s [0, 1] ⟨m.pattern, m.pos, s.tp.code, m.zone⟩
  else match (if master then some m.zone else s.tp.addr.map addrZone) with
  | none => s
  | some z =>
    if sealCell m.pattern ≠ sealCell s.sio.sealPattern then newTable (sendAssign s [0, 1] ⟨m.pattern, m.pos, 3, z⟩) .cell
    else judgeClaim s .cell [0, 1] 2 (idx16 (sealNode m.pattern)) (z ++ m.pattern) m

/-- A cell master's claim, judged by its zone master. -/
def judgeCell (s : State) (m : ClaimMsg) : State :=
  if s.tp.code = 5 then sendAssign s [0, 1] ⟨m.pattern, m.pos, 5, m.zone⟩
  else judgeClaim s .zone [0, 1] 4 (idx16 (sealCell m.pattern)) (addrZone (ownAddr s) ++ m.pattern) m

/-- CLAIM (R370): judged by the responsible master, passed on by the others. -/
def execClaim (q : Fin 4) (h : ZHead) (m : ClaimMsg) (s : State) : Out :=
  .next (receive s q h (.claim m) fun s =>
    if isOwn s h && m.pattern == s.sio.sealPattern && m.pos == portPos s q then s
    else if isCellMaster s && !upperPort q && m.role ≠ 2 then judgeNode s m
    else if isZoneMaster s && !upperPort q && m.role == 2 then judgeCell s m
    else if isSiteMaster s && upperPort q && m.role == 3 then
      judgeClaim s .site [2, 3] 5 (idx16 m.zone) (m.zone ++ m.pattern) m
    else forward s (relayPorts s q (isCellMaster s && upperPort q && s.tp.zoneHere)) h (.claim m))

/-- ASSIGN (R369, R370): for this node where pattern and ring position are its own; passed on otherwise. -/
def execAssign (q : Fin 4) (h : ZHead) (m : AssignMsg) (s : State) : Out :=
  .next (receive s q h (.assign m) fun s =>
    let pos := if isCellMaster s then s.tp.pos[1] else portPos s q
    if isOwn s h then s
    else if m.pattern == s.sio.sealPattern && m.pos == pos then takeAssign s m
    else forward s (relayPorts s q (isCellMaster s && s.tp.zoneHere)) h (.assign m))

/-! ### Stops (R372 to R374) -/

/-- What is kept of an origin's stops. -/
def seenOf (s : State) (a : BitVec 12) : Option StopSeen := s.tp.seen.find? (·.origin == a)

/-- A stop not seen before: other STARTS, or a greater STOP_ID. -/
def newStop (x : Option StopSeen) (m : StopMsg) : Bool :=
  match x with
  | none => true
  | some x => x.starts != m.starts || decide (0 < sdiff m.stopId x.id)

/-- A copy is new when its stop is, or when its COPY has not been seen for that stop (R373). -/
def newCopy (x : Option StopSeen) (m : StopMsg) : Bool :=
  newStop x m || (match x with | some x => x.id == m.stopId && !x.copies.getLsbD m.copy.toNat | none => true)

/-- Note copies of a stop as seen. -/
def noteStop (s : State) (a : BitVec 12) (starts : Half) (id : Word) (copies : BitVec 4) : State :=
  updTp s fun t => { t with seen := t.seen.filter (·.origin != a) ++ [⟨a, starts, id, copies⟩] }

/-- Note a new copy. -/
def noteCopy (s : State) (m : StopMsg) : State :=
  let old := if newStop (seenOf s m.origin) m then 0 else ((seenOf s m.origin).map (·.copies)).getD 0
  noteStop s m.origin m.starts m.stopId (old ||| BitVec.ofNat 4 (2 ^ m.copy.toNat))

/-- Whether this node lies in a stop's scope (R373). -/
def inScope (s : State) (m : StopMsg) : Bool :=
  match s.tp.addr with
  | none => true
  | some a =>
    m.unassigned || (match m.scope with
      | .cell => addrZone a == addrZone m.origin && addrCell a == addrCell m.origin
      | .zone => addrZone a == addrZone m.origin
      | .site => true)

/-- Whether a stop's origin counts as of this gateway's zone. -/
def zoneOfStop (s : State) (m : StopMsg) : Bool :=
  match s.tp.addr with
  | none => true
  | some a => m.unassigned || addrZone a == addrZone m.origin

/-- The ports a new copy is forwarded on (R374): on round its ring, and across a gateway. -/
def stopPorts (s : State) (q : Fin 4) (m : StopMsg) : List (Fin 4) :=
  let across :=
    if isCellMaster s then
      if upperPort q then m.scope == .site || (m.scope == .zone && zoneOfStop s m) else m.scope != .cell
    else if isZoneMaster s then m.scope == .site
    else false
  otherPort q :: (if across then (if upperPort q then [0, 1] else [2, 3]) else [])

/-- A scope's code (Table 18-3) and its IN bit in TP_STOP_CFG. -/
def scopeCode : Scope → Nat
  | .cell => 0
  | .zone => 1
  | .site => 2
def scopeOf : Nat → Option Scope
  | 0 => some .cell
  | 1 => some .zone
  | 2 => some .site
  | _ => none

/-- The first new copy of a stop in scope: ES114 under its IN bit, TP_STOP_LAST, TP_STOP_T. -/
def honourStop (s : State) (m : StopMsg) : State :=
  let cfg := if s.lk.openedAt = some s.cycle then s.tp.inBefore else s.reg R.TP_STOP_CFG
  let s := if cfg.getLsbD (4 + scopeCode m.scope) then s.raise 114 0 else s
  let s := s.setReg R.TP_STOP_LAST
    (BitVec.ofNat 32 (m.origin.toNat + 2 ^ 12 * scopeCode m.scope + 2 ^ 14 * m.source.toNat + 2 ^ 21 * bit m.deliberate + 2 ^ 31))
  ((s.setReg R.TP_STOP_T s.now.t).satAdd R.TP_STOP_CNT 15 0 1).setBit R.TP_IRQ_STAT 2

/-- STOP (R373, R374): a new copy is forwarded, and acted on in scope; any other is dropped. -/
def execStop (q : Fin 4) (h : ZHead) (m : StopMsg) (s : State) : Out :=
  .next (receive s q h (.stop m) fun s =>
    let seen := seenOf s m.origin
    if !newCopy seen m then s
    else
      let t := forward (noteCopy s m) (stopPorts s q m) h (.stop m)
      if newStop seen m && inScope s m then honourStop t m else t)

/-- One copy of a stop of this node, on TP0 and TP1 together; a gateway carries its own across as it does others' (R374, log entry 43). -/
def sendCopy (s : State) (x : StopSend) (copy : BitVec 2) : State :=
  let across := (isCellMaster s && x.scope != .cell) || (isZoneMaster s && x.scope == .site)
  originate s ([0, 1] ++ if across then [2, 3] else []) (.stop ⟨x.scope, copy, ownAddr s, x.deliberate, s.tp.addr.isNone, x.source, x.cls,
    (s.reg R.BC_STARTS).setWidth 16, x.tOrigin, x.id⟩)

/-- STOP_SEND (R372): copy 0 at once; copy 1 follows 500 ns later. Copies that come back round the ring are not new here. -/
def stopSend (s : State) (scope : Scope) (source : BitVec 7) (cls : BitVec 3) (deliberate : Bool) : State :=
  if !tpOn s then s
  else
    let id := s.tp.stopId + 1
    let x : StopSend := ⟨scope, source, cls, deliberate, id, (tbValue s 0).setWidth 32, 1, s.cycle + nsCycles 500, true, s.cycle⟩
    let s := updTp s fun t => { t with stopId := id, sending := t.sending ++ [x] }
    let s := noteStop s (ownAddr s) ((s.reg R.BC_STARTS).setWidth 16) id 0xF
    (sendCopy s x 0).satAdd R.TP_STOP_CNT 31 16 1

/-- The copy after this one: 500 ns to copies 1 and 2, then copy 3 every 1 ms from copy 0 on (Table 18-11), unless the stop is cancelled. -/
def nextCopy (now : Nat) (x : StopSend) : Option StopSend :=
  if x.next = 3 then some { x with due := now + msCycles 1 }
  else if x.next = 2 ∧ !x.repeats then none
  else some { x with next := x.next + 1, due := if x.next = 2 then x.from_ + msCycles 1 else now + nsCycles 500 }

/-- CANCEL ends a written stop's repeats (R372). -/
def cancelStop (x : StopSend) : Option StopSend :=
  if !x.deliberate then some x else if x.next = 3 then none else some { x with repeats := false }

/-- STOP_COPY: every stop whose next copy is due sends it. -/
def execStopCopy (s : State) : Out :=
  let due := s.tp.sending.filter (decide <| ·.due ≤ s.cycle)
  let s' := due.foldl (fun t x => sendCopy t x x.next) s
  .next (updTp s' fun t => { t with sending := t.sending.filterMap fun x => if x.due ≤ s.cycle then nextCopy s.cycle x else some x })

/-- A Keeper write to TP_STOP_TX: with the key, CANCEL ends the written stops' repeats, else a scope sends one. -/
def stopTxWrite (s : State) (i : Initiator) (v : Word) : State :=
  s.keeperWrite i fun s =>
    if bits v 31 16 ≠ 0x570F then s
    else if v.getLsbD 2 then updTp s fun t => { t with sending := t.sending.filterMap cancelStop }
    else match scopeOf (bits v 1 0) with
      | some c => stopSend s c 0 0 true
      | none => s

/-- STOP_TX and STOP_CANCEL (R372). -/
def execStopTx (i : Initiator) (v : Word) (s : State) : Out := .next (stopTxWrite s i v)
def execStopCancel (i : Initiator) (v : Word) (s : State) : Out := .next (stopTxWrite s i v)

/-! ### Data and Harbour's rings (R380) -/

/-- The size of a ring by a table: one above its greatest position. -/
def ringLen (v : Vector Word 16) : Nat := v.toList.foldl (fun n e => if entPresent e then max n (entPos e + 1) else n) 1

/-- The shorter direction from one position to another: east on a tie. -/
def shorter (len src dst : Nat) (east west : Fin 4) : Fin 4 :=
  let d := (dst + len - src % len) % len
  if d ≤ len - d then east else west

/-- The way round a ring to an entry, if the table has it. -/
def towards (s : State) (t : RouteTable) (n : Fin 16) : Option (Fin 4) :=
  let v := tableOf s t
  if entPresent v[n] then
    match t with
    | .cell => some (shorter (ringLen v) s.tp.pos[0].toNat (entPos v[n]) 0 1)
    | _ => some (shorter (ringLen v) s.tp.pos[1].toNat (entPos v[n]) 2 3)
  else none

/-- The port a frame to `dst` leaves by, at a node with an address. -/
def routePort (s : State) (own dst : BitVec 12) : Option (Fin 4) :=
  let zm := entAddr s.tp.site[idx16 (addrZone own)]
  let master : Fin 4 := shorter (ringLen s.tp.cell) s.tp.pos[0].toNat 0 0 1
  if addrZone dst = addrZone own then
    if addrCell dst = addrCell own then towards s .cell (idx16 (addrNode dst))
    else if isCellMaster s then towards s .zone (idx16 (addrCell dst))
    else some master
  else if isZoneMaster s then towards s .site (idx16 (addrZone dst))
  else if addrCell zm = addrCell own then towards s .cell (idx16 (addrNode zm))
  else if isCellMaster s then towards s .zone (idx16 (addrCell zm))
  else some master

/-- Where a DATA frame goes: to its node, or for another site to the bridge (R380). -/
def dataTarget (s : State) (m : DataMsg) : Option (BitVec 12) :=
  if m.dstSite.toNat = s.fld R.TP_BRIDGE 23 16 then some m.dst
  else if s.flag R.TP_BRIDGE 12 then some (BitVec.ofNat 12 (s.fld R.TP_BRIDGE 11 0))
  else none

/-- A frame's header as a slot holds it (Table 18-3). -/
def headerBytes (src dst : BitVec 12) (type scope : Nat) (hops dstSite : Byte) (seq : Word) (len : Nat) : List Byte :=
  let b := [BitVec.ofNat 8 (16 + type), BitVec.ofNat 8 scope] ++ bytesBE 2 dst.toNat ++ bytesBE 2 src.toNat ++
    [hops, dstSite] ++ bytesBE 4 seq.toNat ++ bytesBE 2 len
  b ++ bytesBE 2 (crcNative crc16 seq b).toNat

/-- The bank of Harbour's rings, whether Harbour has it, and the counts of transmit and receive slots. -/
def hqBank (s : State) : Fin 64 := Fin.ofNat 64 (s.fld R.TP_HQ 5 0)
def hqOurs (s : State) : Bool := s.bs.banks[hqBank s].owner == 2 && !bankBlocked s (hqBank s)
def hqTx (s : State) : Nat := s.fld R.TP_HQ 15 8
def hqRx (s : State) : Nat := s.fld R.TP_HQ 23 16
def hqSlot (s : State) (n : Nat) : Nat := basinBase + 0x80000 * (hqBank s).val + 512 * n

/-- Deliver a frame to Harbour: the next receive slot, behind the transmit slots; dropped and counted on a full ring. -/
def toHarbour (s : State) (frame : List Byte) : State :=
  let p := s.fld R.TP_HRX_PROD 7 0
  if !hqOurs s || hqRx s == 0 || (p + 1) % hqRx s == s.fld R.TP_HRX_CONS 7 0 then s.satAdd R.TP_HRX_DROP 31 0 1
  else
    let s := s.store (hqSlot s (hqTx s + p)) (frame.take 512)
    (s.setReg R.TP_HRX_PROD (BitVec.ofNat 32 ((p + 1) % hqRx s))).setBit R.TP_IRQ_STAT 4

/-- DATA (R367, R371, R380): delivered at its node, else on by the tables; a node that cannot route passes it on round its ring. -/
def execData (q : Fin 4) (h : ZHead) (m : DataMsg) (s : State) : Out :=
  .next (receive s q h (.data m) fun s =>
    if isOwn s h then s
    else
      let on := forward s [otherPort q] h (.data m)
      match s.tp.addr, dataTarget s m with
      | none, _ => on
      | some _, none => s
      | some own, some dst =>
        if own = dst then toHarbour s (headerBytes h.src m.dst 7 0 h.hops m.dstSite h.seq m.payload.length ++ m.payload)
        else match routePort s own dst with
          | some r => forward s [r] h (.data m)
          | none => on)

/-- Whether a broadcast's scope takes in this node. -/
def bcastScope (s : State) (src : BitVec 12) (c : Scope) : Bool :=
  match s.tp.addr with
  | none => false
  | some a => match c with
    | .cell => addrZone a == addrZone src && addrCell a == addrCell src
    | .zone => addrZone a == addrZone src
    | .site => true

/-- BCAST (R367): on round its ring eastwards and through the gateways its scope passes, and to Harbour. -/
def execBcast (q : Fin 4) (h : ZHead) (m : BcastMsg) (s : State) : Out :=
  .next (receive s q h (.bcast m) fun s =>
    if isOwn s h then s
    else
      let across := if upperPort q then [(0 : Fin 4)] else [2]
      let gate := if isCellMaster s then m.scope == .site || (m.scope == .zone && (!upperPort q || addrZone (ownAddr s) == addrZone h.src))
        else isZoneMaster s && m.scope == .site
      let t := forward s (otherPort q :: (if gate then across else [])) h (.bcast m)
      if bcastScope s h.src m.scope then
        toHarbour t (headerBytes h.src 0 8 (scopeCode m.scope) h.hops 0 h.seq m.payload.length ++ m.payload)
      else t)

/-- The ports of its cell ring that a node sends a frame on as soon as the header has passed HCHK (R367): a STOP copy that is new, a
DATA frame whose way goes on round this ring, a BCAST. -/
def cutPorts (s : State) (q : Fin 4) (h : ZHead) : ZBody → List (Fin 4)
  | .stop m => if newCopy (seenOf s m.origin) m then [otherPort q] else []
  | .data m =>
    match s.tp.addr, dataTarget s m with
    | none, _ => [otherPort q]
    | some _, none => []
    | some own, some dst =>
      if own = dst then []
      else match routePort s own dst with
        | some r => if upperPort r then [] else [r]
        | none => [otherPort q]
  | .bcast _ => if isOwn s h then [] else [otherPort q]
  | _ => []

/-! The checks of a received frame (R354, R367, Table 18-3): multi-byte fields stand most significant byte first. -/

/-- The header has come, and passes HCHK. -/
def headPasses (bs : List Byte) : Bool :=
  decide (16 ≤ bs.length) && fieldBE bs 14 2 == (crcNative crc16 (BitVec.ofNat 32 (fieldBE bs 8 4)) (bs.take 14)).toNat

/-- VER, TYPE and LEN are good, and the payload and PCHK have come. -/
def formPasses (bs : List Byte) : Bool :=
  let t := fieldBE bs 0 1 % 16
  fieldBE bs 0 1 / 16 == 1 && decide (1 ≤ t ∧ t ≤ 8) && decide (fieldBE bs 12 2 ≤ 256) && decide (20 + fieldBE bs 12 2 ≤ bs.length)

/-- The frame's payload. -/
def payloadOf (bs : List Byte) : List Byte := (bs.drop 16).take (fieldBE bs 12 2)

/-- PCHK: over the payload, SEQ folded first. -/
def payloadPasses (bs : List Byte) : Bool :=
  fieldBE bs (16 + fieldBE bs 12 2) 4 == (crcNative crc32c (BitVec.ofNat 32 (fieldBE bs 8 4)) (payloadOf bs)).toNat

/-- The whole frame passes its checks. -/
def framePasses (x : RawFrame) : Bool := !x.fcsBad && headPasses x.bytes && formPasses x.bytes && payloadPasses x.bytes

/-- A STOP's payload (Table 18-7). -/
def stopOf (bs : List Byte) : Option StopMsg :=
  let p := payloadOf bs
  (scopeOf (fieldBE bs 1 1 % 4)).map fun c =>
    ⟨c, BitVec.ofNat 2 (fieldBE bs 1 1 / 4), BitVec.ofNat 12 (fieldBE p 0 2), (fieldBE p 2 1).testBit 0, (fieldBE p 2 1).testBit 1,
     BitVec.ofNat 7 (fieldBE p 3 1), BitVec.ofNat 3 (fieldBE p 4 1), BitVec.ofNat 16 (fieldBE p 5 2), BitVec.ofNat 32 (fieldBE p 8 4),
     BitVec.ofNat 32 (fieldBE p 12 4)⟩

/-- The frame that a node of the cell ring sends on cut-through (R367): a STOP, DATA or BCAST whose header passes HCHK. -/
def cutFrame (bs : List Byte) : Option (ZHead × ZBody) :=
  if !headPasses bs then none
  else
    let h : ZHead := ⟨BitVec.ofNat 12 (fieldBE bs 4 2), BitVec.ofNat 8 (fieldBE bs 6 1), BitVec.ofNat 32 (fieldBE bs 8 4)⟩
    match fieldBE bs 0 1 % 16 with
    | 6 => (stopOf bs).map fun m => (h, .stop m)
    | 7 => some (h, .data ⟨BitVec.ofNat 12 (fieldBE bs 2 2), BitVec.ofNat 8 (fieldBE bs 7 1), payloadOf bs⟩)
    | 8 => (scopeOf (fieldBE bs 1 1 % 4)).map fun c => (h, .bcast ⟨c, payloadOf bs⟩)
    | _ => none

/-- The bytes of a STOP, DATA or BCAST frame as a node sends it (Tables 18-3, 18-7), from the Zholi header to PCHK; none of a frame whose
payload the manual does not lay out. -/
def stopBytes (m : StopMsg) : List Byte :=
  bytesBE 2 m.origin.toNat ++ [BitVec.ofNat 8 (bit m.deliberate + 2 * bit m.unassigned), m.source.setWidth 8, m.cls.setWidth 8] ++
    bytesBE 2 m.starts.toNat ++ [0] ++ bytesBE 4 m.tOrigin.toNat ++ bytesBE 4 m.stopId.toNat
def zholiBytes (f : Zholi) : Option (List Byte) :=
  let whole := fun (dst : BitVec 12) (type scope : Nat) (site : Byte) (p : List Byte) =>
    headerBytes f.src dst type scope f.hops site f.seq p.length ++ p ++ bytesBE 4 (crcNative crc32c f.seq p).toNat
  match f.body with
  | .stop m => some (whole 0 6 (scopeCode m.scope + 4 * m.copy.toNat) 0 (stopBytes m))
  | .data m => some (whole m.dst 7 0 m.dstSite m.payload)
  | .bcast m => some (whole 0 8 (scopeCode m.scope) 0 m.payload)
  | _ => none

/-- ZHOLI_FRAME_BAD (R367): a frame that fails a check is discarded, counted, ES113 for its port. On the cell ring a STOP, DATA or BCAST
whose header passes HCHK has gone on with its bad tail. -/
def execZholiFrameBad (q : Fin 4) (x : RawFrame) (s : State) : Out :=
  .next (if !tpUsable s q || framePasses x then s
    else
      let t := ((lnErr s (lnTp q)).satAdd (R.TPq_ERR q.val) 15 0 1).raise 113 q.val
      match cutFrame x.bytes with
      | none => t
      | some (h, body) =>
        if upperPort q || h.hops == 0 || isOwn s h then t
        else handTo t (cutPorts s q h body) ⟨s.cycle, true, h.src, h.hops - 1, h.seq, body⟩)

/-- Send one filled transmit slot: DATA and BCAST only, with the node's own SRC, HOPS and SEQ. -/
def sendSlot (s : State) (n : Nat) : State :=
  let hdr := s.bytes (hqSlot s n) 16
  let body := s.bytes (hqSlot s n + 16) (min 256 (fieldBE hdr 12 2))
  let type := fieldBE hdr 0 1 % 16
  if type = 7 then
    let m : DataMsg := ⟨BitVec.ofNat 12 (fieldBE hdr 2 2), BitVec.ofNat 8 (fieldBE hdr 7 1), body⟩
    match s.tp.addr, dataTarget s m with
    | some own, some dst => match routePort s own dst with
      | some r => originate s [r] (.data m)
      | none => s
    | _, _ => s
  else if type = 8 then
    match scopeOf (fieldBE hdr 1 1 % 4) with
    | some c => originate s (0 :: (if (isCellMaster s && c != .cell) || (isZoneMaster s && c == .site) then [2] else [])) (.bcast ⟨c, body⟩)
    | none => s
  else s

/-- HARBOUR_TX: a write to TP_HTX_PROD hands the slots from TP_HTX_CONS up to it to the ports. -/
def execHarbourTx (i : Initiator) (v : Word) (s : State) : Out :=
  .next (s.openWrite i R.TP_HTX_PROD fun s =>
    let s := s.setReg R.TP_HTX_PROD (v &&& 0xFF#32)
    if !hqOurs s || hqTx s == 0 || !tpOn s then s
    else
      let c := s.fld R.TP_HTX_CONS 7 0
      let p := bits v 7 0 % hqTx s
      let n := (p + hqTx s - c % hqTx s) % hqTx s
      (foldN n (fun s k => sendSlot s ((c + k) % hqTx s)) s).setReg R.TP_HTX_CONS (BitVec.ofNat 32 p))

/-! ### Time (R376 to R378) -/

/-- Which servo runs a time base, and its PTP domain's enable. -/
def servoIdx : TimeBase → Fin 2
  | .site => 0
  | .zone => 1
def timeEnabled (s : State) (tb : TimeBase) : Bool := tpOn s && s.flag R.TP_TIME_CFG (3 + (servoIdx tb).val)

/-- Whether the node is the grandmaster of a time base. -/
def isGm (s : State) : TimeBase → Bool
  | .site => isSiteMaster s
  | .zone => isZoneMaster s

/-- Change a servo. -/
def updServo (s : State) (k : Fin 2) (f : Servo → Servo) : State := updTp s fun t => { t with servos := t.servos.set k (f t.servos[k]) }

/-- The time base goes on from its present value at a new rate. -/
def setRate (s : State) (k : Fin 2) (rate : Word) : State :=
  updServo s k fun v => { v with base := tbValue s k - s.timeNs, at_ := s.cycle, rate := rate }

/-- A servo enters HOLDOVER (R377); its age counts from the first entry since it was last locked. -/
def toHoldover (s : State) (k : Fin 2) : State :=
  updServo s k fun v => { v with state := .holdover, run := 0, holding := some (v.holding.getD s.cycle) }

/-- The servo's correction: a value the manual does not give, within ±SLEW_MAX ppm (R376). -/
def slewRate (s : State) (r : DWord) : Word :=
  let lim : Int := 1000 * s.fld R.TP_TIME_CFG 15 8
  BitVec.ofInt 32 (max (-lim) (min lim (r.setWidth 32).toInt))

/-- Holdover age, in ms, and ES111's level (R377, Table 02-6). -/
def holdAge (s : State) (k : Fin 2) : Nat :=
  match s.tp.servos[k].holding with
  | some c => msSince s c
  | none => 0
def holdLevel (s : State) : State :=
  s.level 111 (decide ((s.reg R.TB_HOLD_MAX).toNat < holdAge s 0) || decide ((s.reg R.TB_HOLD_MAX).toNat < holdAge s 1))

/-- One valid Sync in ACQUIRE or LOCKED: the runs of R377 and Table 18-10. `off` is in 0.1 ns. -/
def servoSync (s : State) (k : Fin 2) (off : Int) : State :=
  let lim : Nat := 10 * s.fld R.TP_TOFF_LIM 7 0
  let v := s.tp.servos[k]
  let s := { (setRate s k (slewRate s s.free.1)) with freeIdx := s.freeIdx + 1 }
  match v.state with
  | .acquire =>
    if off.natAbs < lim then
      if v.run + 1 = 16 then holdLevel (updServo s k fun v => { v with state := .locked, run := 0, holding := none })
      else updServo s k fun v => { v with run := v.run + 1 }
    else updServo s k fun v => { v with run := 0 }
  | .locked =>
    if lim < off.natAbs then
      if v.run + 1 = 8 then (updServo s k fun v => { v with state := .acquire, run := 0 }).raise 117 0
      else updServo s k fun v => { v with run := v.run + 1 }
    else updServo s k fun v => { v with run := 0 }
  | _ => s

/-- The first entry to ACQUIRE: one step, only where the offset then exceeds 1 µs (R376). -/
def firstAcquire (s : State) (k : Fin 2) (off : Int) : State :=
  let step (v : Servo) : DWord := if !v.stepped && decide (10000 < off.natAbs) then v.base - BitVec.ofInt 64 (off / 10) else v.base
  updServo s k fun v => { v with state := .acquire, run := 0, stepped := true, base := step v }

/-- Hand a time message to ports. -/
def sendTime (s : State) (ports : List (Fin 4)) (m : PtpMsg) : State := handTo s ports ⟨s.cycle, false, ownAddr s, 0, 0, .ptp m⟩

/-- A two-step Sync with its Follow_Up (R365). -/
def sendSync (s : State) (ports : List (Fin 4)) (tb : TimeBase) (gm : BitVec 12) (delay : Word) : State :=
  sendTime (sendTime s ports ⟨.sync, tb, gm, delay⟩) ports ⟨.followUp, tb, gm, delay⟩

/-- Where a Sync received on port `q` is relayed: on round its ring, and across a gateway; the zone base stays in its zone. -/
def timeRelay (s : State) (q : Fin 4) (tb : TimeBase) : List (Fin 4) := relayPorts s q (tb == .site || isCellMaster s)

/-- The Sync interval in TCLK cycles. -/
def syncInterval (s : State) : Nat := 750000000 / 2 ^ s.fld R.TP_TIME_CFG 2 0

/-- A grandmaster sends its Sync every interval, and an Announce for identity with it (log entry 107). -/
def gmSends (s : State) (tb : TimeBase) : State :=
  let k := servoIdx tb
  if !timeEnabled s tb || !isGm s tb || !readDue s s.tp.syncAt[k] (syncInterval s) then s
  else
    let ports : List (Fin 4) := match tb with | .site => [0, 1, 2, 3] | .zone => [0, 1]
    let s := updTp s fun t => { t with syncAt := t.syncAt.set k (some s.cycle) }
    sendTime (sendSync s ports tb (ownAddr s) 0) ports ⟨.announce, tb, ownAddr s, 0⟩
def tickTime (s : State) : State := gmSends (gmSends s .site) .zone

/-- The Sync and the Follow_Up that came, counted. -/
def countSync (s : State) (q : Fin 4) (tb : TimeBase) (gm : BitVec 12) : State :=
  countFrame (countFrame s q (.ptp ⟨.sync, tb, gm, 0⟩)) q (.ptp ⟨.followUp, tb, gm, 0⟩)

/-- PTP_SYNC (R376, R377): a valid Sync from the time parent, its offset corrected by TPq_ASYM; it is relayed with the link's delay (R365). -/
def execPtpSync (q : Fin 4) (tb : TimeBase) (offset : BitVec 64) (gm : BitVec 12) (s : State) : Out :=
  let k := servoIdx tb
  let off : Int := offset.toInt - (BitVec.ofNat 16 (s.fld (R.TPq_ASYM q.val) 15 0)).toInt
  .next (if !tpUsable s q then s
    else if !timeEnabled s tb || isGm s tb then countSync s q tb gm
    else
      let old := s.tp.servos[k]
      let s := sendSync (countSync s q tb gm) (timeRelay s q tb) tb gm s.tp.ports[q].pdelay
      let s := if upperPort q && tb == .site && isZoneMaster s then hearSite s gm else s
      let s := updServo s k fun v => { v with parent := q, gm := gm, lastSync := s.cycle, offset := BitVec.ofInt 32 off }
      match old.state with
      | .free => firstAcquire s k off
      | .holdover =>
        if old.run + 1 = 8 then updServo s k fun v => { v with state := .acquire, run := 0 }
        else updServo s k fun v => { v with run := old.run + 1 }
      | _ => if old.gm ≠ gm then toHoldover s k else servoSync s k off)

/-- SYNC_LOSS (R377): no valid Sync for 3 intervals in ACQUIRE or LOCKED; in HOLDOVER the run of valid Syncs is broken. -/
def execSyncLoss (tb : TimeBase) (s : State) : Out :=
  let k := servoIdx tb
  let v := s.tp.servos[k]
  .next (if !timeEnabled s tb || isGm s tb || decide (s.cycle < v.lastSync + 3 * syncInterval s) then s
    else match v.state with
      | .free => s
      | .holdover => updServo s k fun v => { v with run := 0 }
      | _ => toHoldover s k)

/-- PEER_DELAY: the link delay measured every 1 s, in 0.1 ns. -/
def execPeerDelay (q : Fin 4) (delay : Word) (s : State) : Out :=
  .next (if tpUsable s q && readDue s s.tp.ports[q].pdelayAt (msCycles 1000) then
    let m : PtpMsg := ⟨.pdelayReq, .site, 0, 0⟩
    let s := countFrame (countFrame (sendTime s [q] m) q (.ptp m)) q (.ptp m)
    updTpPort s q fun p => { p with pdelay := delay, pdelayAt := some s.cycle }
  else s)

/-- HOLDOVER_AGE_EXCEEDED (R377): ES111 stands while an age is above TB_HOLD_MAX. -/
def execHoldoverAgeExceeded (tb : TimeBase) (s : State) : Out :=
  .next (if (s.reg R.TB_HOLD_MAX).toNat < holdAge s (servoIdx tb) then holdLevel s else s)

/-- SITE_FAILOVER (R378): TB_SITE runs on from its own value at the nominal rate, and a new site table goes out. -/
def execSiteFailover (s : State) : Out :=
  .next (if tpOn s && tpRole s == 3 && s.flag R.TP_CFG 3 && !s.tp.acting &&
      decide (s.tp.siteSeenAt + msCycles (s.fld R.TP_CFG 25 16) ≤ s.cycle) then
    let s := updTp s fun t => { t with acting := true }
    let s := setRate s 0 0
    let s := holdLevel (updServo s 0 fun v => { v with state := .free, run := 0, gm := ownAddr s, holding := none })
    newTable s .site
  else s)

end Sys2Proof.Machine
end

