-- ==== Sys2Proof/Machine/Beacon.lean ====
section
/-! DEFINITION. Machine/Beacon.lean: events, counting to severity, retirement, the reaction classes, consequence masks and glints
(R226 to R243, R413, R414, R443). A block's error line waits in `bc.lines` until SOURCE_EVENT takes it. -/

namespace Sys2Proof.Machine

/-- Change Beacon's state. -/
def updBc (s : State) (f : Beacon → Beacon) : State := { s with bc := f s.bc }

/-! ### Counting (R228) -/

/-- Whether a source has a channel of this number (Table 11-2). -/
def channelExists (src chan : Nat) : Bool :=
  match retKind src with
  | some .stream => decide (chan < 32)
  | some .tile => decide (chan < 36)
  | some .encoder => decide (chan < 4)
  | some .towpath => decide (chan < 4)
  | _ => true

/-- Whether a source's channel is retired: its events are ignored (R229). -/
def unitRetired (s : State) (src chan : Nat) : Bool :=
  match retKind src with
  | none => false
  | some k => s.bc.retired.any fun r => retKind r.1.toNat == some k && retUnit r.1.toNat r.2.toNat == retUnit src chan

/-- Now, in a window's unit: µs of TIME_NS, or µm of TRAVEL with POLs_CFG.WUNIT. -/
def windowNow (s : State) (cfg : Word) : Word :=
  if cfg.getLsbD 3 then s.now.s else BitVec.ofNat 32 (s.timeNs.toNat / 1000)

/-- The window of a counter has not ended. -/
def windowOpen (s : State) (cfg win : Word) (c : Counter) : Bool := c.isOpen && decide (sdiff (windowNow s cfg) (c.start + win) < 0)

/-- The channel a counter is kept under; a source of a pair or of a port has one, under 0. -/
def countChan (src : Nat) (chan : BitVec 6) : BitVec 6 := if perChannel src && retUnit src 63 == 63 then chan else 0

/-- The counter of a source and channel. -/
def counterOf (s : State) (src : BitVec 7) (chan : BitVec 6) : Option Counter := s.bc.counters.find? fun c => c.src == src && c.chan == chan

/-- The counter after one more event: one more in an open window, else 1 in a new one. -/
def countUp (s : State) (cfg win : Word) (src : BitVec 7) (chan : BitVec 6) : Counter :=
  match counterOf s src chan with
  | some c => if windowOpen s cfg win c then { c with count := c.count + 1 } else ⟨src, chan, true, windowNow s cfg, 1⟩
  | none => ⟨src, chan, true, windowNow s cfg, 1⟩

/-- Store a counter; where it became severe, a source without a retirement has it cleared, a retired channel's stops (R229). POLs_CNT
shows it. -/
def putCounter (s : State) (c : Counter) (severe : Bool) : State :=
  let cleared := severe && (retKind c.src.toNat).isNone
  let rest := s.bc.counters.filter fun x => !(x.src == c.src && x.chan == c.chan)
  let s := updBc s fun b => { b with counters := if cleared then rest else rest ++ [c] }
  s.setReg (R.POLs_CNT c.src.toNat) (BitVec.ofNat 32 ((if cleared then 0 else min c.count 255) + 256 * c.chan.toNat + 2 ^ 31 * bit severe))

/-- COUNT_WINDOW_CLOSE (R228): the window's test fails. -/
def execCountWindowClose (source : BitVec 7) (channel : BitVec 6) (s : State) : Out :=
  let cfg := s.reg (R.POLs_CFG source.toNat)
  let win := s.reg (R.POLs_W source.toNat)
  .next (updBc s fun b => { b with counters := b.counters.map fun c =>
    if c.src == source && c.chan == countChan source.toNat channel && !windowOpen s cfg win c then { c with isOpen := false } else c })

/-! ### Retirement (R229, R231) -/

/-- BC_RETi_INFO of an entry: valid and ACTIVE. -/
def retValid (s : State) (i : Nat) : Bool := s.flag (R.BC_RETi_INFO i) 31
def retActive (s : State) (i : Nat) : Bool := s.flag (R.BC_RETi_INFO i) 13

/-- The next entry: the first not in use, else the oldest that is not ACTIVE. -/
def retEntry (s : State) : Option (Fin 64) :=
  match (List.finRange 64).find? fun i => !retValid s i.val with
  | some i => some i
  | none => s.bc.retOrder.find? fun i => !retActive s i.val

/-- RETIREMENT's record: an entry with ACTIVE, or RET_FULL. -/
def writeRetirement (s : State) (src chan : Nat) : State :=
  let s := s.setBit R.BC_IRQ_STAT 2
  match retEntry s with
  | none => updBc s fun b => { b with retFull := true }
  | some i =>
    let s := s.setReg (R.BC_RETi_INFO i) (BitVec.ofNat 32 (src + 2 ^ 7 * chan + 2 ^ 13 + 2 ^ 31))
    let s := (s.setReg (R.BC_RETi_START i) (s.reg R.BC_STARTS)).setReg (R.BC_RETi_T i) s.now.t
    let s := updBc s fun b => { b with retOrder := b.retOrder.filter (· ≠ i) ++ [i] }
    s.setReg R.BC_RET_CNT (BitVec.ofNat 32 ((List.range 64).filter (retValid s)).length)

/-- A stream is RETIRED, with the frame it has in progress; ES21 once when its set has no other enabled member (R68, log entry 89). -/
def retireStream (s : State) (n : Fin 32) : State :=
  let s := if s.sl.streams[n].frame.isSome then frameRetired s n else s
  let s := (updStr s n fun x => { x with retired := true }).setBit R.SL_IRQ_STAT 2
  match setOf s n.val with
  | none => s
  | some k =>
    let kk := Fin.ofNat 16 k
    let members := (List.range 32).filter fun i => strOn s i && setOf s i == some k
    if members.all (fun i => s.sl.streams[Fin.ofNat 32 i].retired) && !s.sl.allRetired[kk] then
      ({ s with sl := { s.sl with allRetired := s.sl.allRetired.set kk true } }).raise 21 0
    else s

/-- A tile is RETIRED and held in reset; slots of models that use it are emptied; ES46 when no spare is left (R140, R142, R175). -/
def retireTile (s : State) (p : Fin 36) (src : Nat) : State :=
  let s := if tileActive s p.val then tileLost (emptySlotsOf s (tileLogical s p.val)) p else s
  let s := foldN 4 (killChan p) s
  let s := updTile s p fun t => { clearTile t with run := .retired }
  let s := s.setReg (R.TL_RETIRE p.val) (BitVec.ofNat 32 (1 + 256 * src))
  let s := lampGaps (loseRunsOn (s.setFld (R.TL_MAP p.val) 6 5 2) p)
  let s := { s with sn := { s.sn with unproved := s.sn.unproved.filter (· ≠ p) } }
  if (List.range 36).any fun q => s.fld (R.TL_MAP q) 6 5 == 0 then s else s.raise 46 0

/-- The retirement of Table 11-2. -/
def retireUnit (s : State) (src chan : Nat) : State :=
  match retKind src with
  | none => s
  | some k =>
    let s := writeRetirement (updBc s fun b => { b with retired := b.retired ++ [(BitVec.ofNat 7 src, BitVec.ofNat 6 chan)] }) src chan
    match k with
    | .stream => retireStream s (Fin.ofNat 32 chan)
    | .port => updPort (leaveServing s (Fin.ofNat 2 (retUnit src chan))) (Fin.ofNat 2 (retUnit src chan)) fun p => { p with retired := true }
    | .tile => retireTile s (Fin.ofNat 36 chan) src
    | .encoder => loseEncoder s (Fin.ofNat 4 chan)
    | .towpath => updTpPort s (Fin.ofNat 4 chan) fun p => { p with disabled := true }
    | .pair => losePair s (Fin.ofNat 2 (retUnit src chan))

/-! ### Reactions (Table 11-1) -/

/-- The barges an event names: those its block reports, or every one without a final verdict (R227). -/
def namedBarges (s : State) (l : Line) : List Word :=
  match l.barges with
  | some bs => bs
  | none => (s.barges.filter (!isFinal s ·)).map (·.num)

/-- C2: the barges named FAIL unless their verdict is final (R29). -/
def failNamed (s : State) (bs : List Word) : State :=
  { s with barges := s.barges.map fun x => if bs.contains x.num then named s (fun x => { x with namedC2 := true }) x else x }

/-- The notice of a reaction: the lowest and highest barge named, 0 when none (R211). -/
def noticeOf (s : State) (cls src : Nat) (bs : List Word) : State :=
  let first := minBy (fun a b => decide (sdiff a b < 0)) bs
  let last := minBy (fun a b => decide (sdiff b a < 0)) bs
  formNotice s cls src (first.getD 0) (last.getD 0)

/-- BC_SAFE_CAUSE, _T and _S: the first C3 or C4; a higher class in the same cycle takes its place (R232, R233). -/
def saveSafe (s : State) (src cls : Nat) : State :=
  let higher := s.bc.safe && s.bc.safeAt == s.cycle && decide (s.fld R.BC_SAFE_CAUSE 10 8 < cls)
  if s.bc.safeSaved && !higher then s
  else
    let s := updBc s fun b => { b with safeSaved := true, safeAt := s.cycle }
    let s := s.setReg R.BC_SAFE_CAUSE (BitVec.ofNat 32 (src + 256 * cls + 2 ^ 31))
    (s.setReg R.BC_SAFE_T s.now.t).setReg R.BC_SAFE_S s.now.s

/-- Sources of the safe-state set (R236). -/
def safeSet : List Nat := [24, 25, 28, 30, 31, 63]

/-- A set of sources as a mask. -/
def maskOfSet (xs : List Nat) : BitVec 128 := xs.foldl (fun m k => m ||| BitVec.ofNat 128 (2 ^ k)) 0

/-- What either reaction line alone forces (R233): SAFE_N and VALID0–3 low, brake gates off, ACC_PERST_N low and the ports held OFF. -/
def safeOutputs (s : State) : State :=
  pinsFollow (foldN 2 (fun s n => updPort (leaveServing s (Fin.ofNat 2 n)) (Fin.ofNat 2 n) fun p => { p with heldOff := true }) s)

/-- Both reaction lines asserted: their outputs, Sluice opens no barges, TRIG pins inactive, every barge without a final verdict
ABANDONED (Table 11-1, R29). -/
def enterSafe (s : State) : State :=
  let s := updBc s fun b => { b with safe := true, lineA := true, lineB := true, split := none }
  let s := closeChamber s
  let s := { s with sl := { s.sl with suspended := true } }
  let s := { s with mp := { s.mp with trigs := s.mp.trigs.map fun _ => none } }
  safeOutputs (startSafe s)

/-- C4: the PWRCUT_N pulse, restarted where one runs, lock-out of every brake channel (R232), ACC_EN0-7 low (R321). -/
def takeC4 (s : State) : State :=
  let s := updBc s fun b => { b with c4Taken := true, pwrcut := some (s.cycle + msCycles (s.fld R.BC_CTRL 15 8)) }
  lockAll (cutRails s) 6

/-- The stop a C3 or C4 reaction sends; ES114 sends none of its own (R372). -/
def reactionStop (s : State) (src cls : Nat) : State :=
  match (if src = 114 then 0 else if cls = 4 then s.fld R.TP_STOP_CFG 3 2 else s.fld R.TP_STOP_CFG 1 0) with
  | 0 => s
  | n + 1 => match scopeOf n with
    | some c => stopSend s c (BitVec.ofNat 7 src) (BitVec.ofNat 3 cls) false
    | none => s

/-- A C3 or C4 reaction of a source (0xFF: the reaction path). -/
def safeReaction (s : State) (src : Nat) (chan cls : Nat) : State :=
  let s := saveSafe s src cls
  let s := openInterval s src chan (maskOfSet (safeSet.filter (· ≠ src))) 100
  let s := enterSafe s
  let s := if cls = 4 then takeC4 s else s
  reactionStop s src cls

/-- The class reaction of a source that became severe. -/
def react (s : State) (cls : Nat) (l : Line) : State :=
  let src := l.src.toNat
  let s := if 1 ≤ cls then s.setBit R.BC_IRQ_STAT 1 else s
  let bs := namedBarges s l
  let s := if cls = 2 then failNamed s bs else s
  let s := if 2 ≤ cls then noticeOf s cls src bs else s
  if 3 ≤ cls then safeReaction s src l.chan.toNat (min cls 4) else s

/-- Bit `src` of a four-word status register. -/
def setSource (s : State) (reg : Nat → Nat) (src : Nat) : State := s.setBit (reg (src / 32)) (src % 32)

/-- A policy: POLs_CFG, POLs_W, POLs_MASK0-3 and POLs_MINT. -/
structure Policy where
  cfg : Word
  win : Word
  mask : BitVec 128
  mint : Nat
  deriving DecidableEq, Repr

/-- The policy in effect. -/
def policyOf (s : State) (src : Nat) : Policy := ⟨s.reg (R.POLs_CFG src), s.reg (R.POLs_W src), polMask s src, s.fld (R.POLs_MINT src) 6 0⟩

/-- A counter became severe (R229): SEVERE_STAT, the retirement, the mask, the class reaction once; ES121 starts the down
sequence (R320). -/
def severe (s : State) (p : Policy) (l : Line) : State :=
  let s := setSource s R.SEVERE_STATn l.src.toNat
  let s := retireUnit s l.src.toNat l.chan.toNat
  let s := if l.src = 121 then startDown s else s
  react (openInterval s l.src.toNat l.chan.toNat p.mask p.mint) (bits p.cfg 2 0) l

/-- The lowest barge an event names, for its log entry (Table 16-4); 0 when none. -/
def lineBarge (s : State) (l : Line) : Word := (minBy (fun a b => decide (sdiff a b < 0)) (namedBarges s l)).getD 0

/-- A spare that fails its first slice is retired at once (R192). -/
def spareFails (s : State) (l : Line) : Bool :=
  l.src = 45 && s.sn.unproved.any (fun p => p.val = l.chan.toNat) && s.flag (R.TL_AKT l.chan.toNat) 21

/-- Count an event under a policy (R226, R228, R229): ERR_STAT, BC_FIRST, BC_LAST_EVT, BC_EVT_T, the log, the counter. -/
def countEvent (s : State) (p : Policy) (l : Line) : State :=
  let src := l.src.toNat
  let clear := (List.range 4).all fun k => s.reg (R.ERR_STATn k) == 0
  let s := if clear then s.setReg R.BC_FIRST (BitVec.ofNat 32 (src + 2 ^ 31)) else s
  let s := setSource s R.ERR_STATn src
  let s := updBc s fun b => { b with lastEvt := l.syn ++ ((0 : BitVec 2) ++ l.chan ++ ((0 : BitVec 1) ++ l.src)) }
  let s := s.setReg R.BC_EVT_T s.now.t
  let c := countUp s p.cfg p.win l.src (countChan src l.chan)
  let sev := decide (bits p.cfg 11 4 ≤ c.count) || spareFails s l
  let s := putCounter s c sev
  let s := logEvent s src l.chan.toNat (bits p.cfg 2 0) sev (lineBarge s l) l.syn
  if sev then severe s p l
  else if 1 ≤ bits p.cfg 2 0 then s.setBit R.BC_IRQ_STAT 0
  else s

/-! ### Masks (R236) -/

/-- Whether an open mask covers an event. -/
def maskCovers (now : Nat) (src chan : Nat) (m : MaskOpen) : Bool :=
  decide (m.from_ ≤ now ∧ now < m.until_) && m.bits.getLsbD src &&
  !(perChannel src && retKind src == retKind m.src.toNat && retUnit m.src.toNat m.chan.toNat != retUnit src chan)

/-- Whether any does. -/
def isMasked (s : State) (src chan : Nat) : Bool := s.bc.masks.any (maskCovers s.cycle src chan)

/-- A masked event sets CONSEQ_STAT. -/
def maskedEvent (s : State) (l : Line) : State := (setSource s R.CONSEQ_STATn l.src.toNat).setBit R.BC_IRQ_STAT 4

/-- An event past retirement and glints. -/
def plainEvent (s : State) (l : Line) : State :=
  if isMasked s l.src.toNat l.chan.toNat then maskedEvent s l
  else countEvent s (policyOf s l.src.toNat) l

/-! ### Glint windows on an event (R238, R239) -/

/-- The glint open on a source and channel. -/
def glintOn (s : State) (l : Line) : Option Glint := s.bc.glints.find? fun g => g.src == l.src && g.chan == l.chan

/-- Change it. -/
def updGlint (s : State) (l : Line) (f : Glint → Glint) : State :=
  updBc s fun b => { b with glints := b.glints.map fun g => if g.src == l.src && g.chan == l.chan then f g else g }

/-- One event (R226 to R229): reserved sources and retired channels give none; the injected syndrome on the glinted channel inside
the window is absorbed; every other is a real event. The window is judged by the cycle in which the line was asserted (R111, R252). -/
def takeEvent (s : State) (l : Line) : State :=
  if isReservedSource l.src.toNat || !channelExists l.src.toNat l.chan.toNat || unitRetired s l.src.toNat l.chan.toNat then s
  else match glintOn s l with
    | none => plainEvent s l
    | some g =>
      if l.at_ + g.length < g.windowEnd || decide (g.windowEnd + g.length ≤ l.at_) then plainEvent s l
      else if g.windowEnd ≤ l.at_ then plainEvent (updGlint s l fun g => { g with asserted := true }) l
      else if l.syn = g.syn then updGlint s l fun g => { g with good := true }
      else plainEvent (updGlint s l fun g => { g with other := true }) l

/-- What an engine or parity error does to its Tally unit (R360); a glint leaves unit state alone (R361). -/
def tallyFault (s : State) (l : Line) : State :=
  let glinted := match glintOn s l with | some g => windowOn s g && l.syn == g.syn | none => false
  if (l.src = 80 ∨ l.src = 81) ∧ glinted = false then
    let u := Fin.ofNat 16 (l.syn.toNat % 16)
    (updUnit s u fun t => { t with faulty := true }).setReg R.TLY_ERR (BitVec.ofNat 32 (u.val + 16 * (if l.src = 80 then 1 else 2)))
  else s

/-- SOURCE_EVENT (R226): the oldest line a block has asserted, or one from outside the model; a level source only on its rising edge;
when ES120's line falls every own rail is back in its window. -/
def execSourceEvent (e : EventSel) (s : State) : Out :=
  .next (match e with
    | .line => match s.bc.lines with
      | [] => s
      | l :: rest => takeEvent (updBc s fun b => { b with lines := rest }) l
    | .external src chan syn b =>
      let l : Line := ⟨src, chan, syn, b.map fun b => [b], s.cycle⟩
      if isLevelSource src.toNat then
        if s.bc.levels.contains src then s
        else takeEvent (updBc s fun b => { b with levels := b.levels ++ [src] }) l
      else takeEvent (tallyFault s l) l
    | .levelOff src =>
      let s := updBc s fun b => { b with levels := b.levels.filter (· ≠ src) }
      if src = 120 then updWr s fun w => { w with ownBelow := 0, ownAbove := 0 } else s)

/-- BC_MASK_OPEN (R236): the source in [6:0], the channel in [13:8]. -/
def execBcMaskOpen (i : Initiator) (v : Word) (s : State) : Out :=
  .next (s.keeperWrite i fun s => openMask s (bits v 6 0) (bits v 13 8))

/-- MASK_INTERVAL_END (R236): ended intervals go; every level source they masked whose line still stands, and which no interval
masks now, counts one event. -/
def execMaskIntervalEnd (s : State) : Out :=
  let ended := s.bc.masks.filter fun m => decide (m.until_ ≤ s.cycle)
  let t := updBc s fun b => { b with masks := b.masks.filter fun m => decide (s.cycle < m.until_) }
  let ks := s.bc.levels.filter fun k => ended.any (fun m => m.bits.getLsbD k.toNat) && !isMasked t k.toNat 0
  .next (ks.foldl (fun s k => takeEvent s.free.2 ⟨k, 0, s.free.1.setWidth 16, none, s.cycle⟩) t)

/-- PWRCUT_PULSE_END (R232). -/
def execPwrcutPulseEnd (s : State) : Out :=
  .next (match s.bc.pwrcut with
    | some c => if c ≤ s.cycle then updBc s fun b => { b with pwrcut := none } else s
    | none => s)

/-- A reaction line changes by itself (R233): while it stands alone it forces the outputs, and the chamber, once closed, stays so until
READY (R205); where it falls back and the companion is not in the safe state, nothing holds the outputs. -/
def lineFlips (lineB : Bool) (s : State) : State :=
  let s := updBc s fun b => if lineB then { b with lineB := !b.lineB } else { b with lineA := !b.lineA }
  let s := updBc s fun b => { b with split := if b.lineA == b.lineB then none else some s.cycle }
  if s.bc.lineA || s.bc.lineB then safeOutputs s
  else if s.bc.safe then s
  else { s with mr := { s.mr with ports := s.mr.ports.map fun p => { p with heldOff := false } } }

/-- The C3 event of a lasting disagreement: BC_STAT.PATH, the log, and the reactions of class C3 under source 0xFF. -/
def pathFails (s : State) : State :=
  let s := updBc s fun b => { b with path := true }
  let open_ := (s.barges.filter (!isFinal s ·)).map (·.num)
  let low := (minBy (fun a b => decide (sdiff a b < 0)) open_).getD 0
  let s := logEvent (s.setBit R.BC_IRQ_STAT 1) 0xFF 0 3 true low 0
  safeReaction (noticeOf s 3 0xFF open_) 0xFF 0 3

/-- REACTION_PATH_DISAGREE (R233): a line changes, or the two have disagreed for more than 2 TCLK. -/
def execReactionPathDisagree (e : LineEvent) (s : State) : Out :=
  .next (match e with
    | .flips b => lineFlips b s
    | .lasts => match s.bc.split with
      | some c => if 2 < s.cycle - c then pathFails s else s
      | none => s)

/-! ### Glints (R238, R240, R241, R443) -/

/-- What a row of Table 11-5 glints: source, channel, injected syndrome where the manual gives one, window, failure source. -/
structure GlintTarget where
  src : Nat
  chan : Nat
  syn : Option Half
  window : Nat
  fail : Nat
  deriving DecidableEq, Repr

/-- The code decoders of row 6: the corrected and uncorrectable sources of each memory. -/
def decoderSources (unit : Nat) : Nat × Nat :=
  match unit with
  | 0 => (4, 3)
  | 1 => (4, 3)
  | 2 => (73, 72)
  | 3 => (73, 75)
  | 4 => (65, 64)
  | 5 => (119, 119)
  | _ => (41, 40)

/-- Rows of Table 11-5 and units of Table 11-11. -/
def glintTarget (s : State) (row unit : Nat) (sel : Bool) : GlintTarget :=
  match row with
  | 0 => ⟨0, 0, none, 64, 2⟩
  | 1 => ⟨2, 0, none, 64, 2⟩
  | 2 => ⟨1, 0, none, 64, 7⟩
  | 3 => ⟨7, 0, none, 64, 7⟩
  | 4 => ⟨glintSource (glintBit s), 0, some (BitVec.ofNat 16 (glintBit s)), 4, 37⟩
  | 5 => ⟨80, 0, some (BitVec.ofNat 16 (0x10 + unit)), 32, 80⟩
  | 6 =>
    let k := if sel then (decoderSources unit).2 else (decoderSources unit).1
    ⟨k, if 6 ≤ unit then unit - 6 else 0, none, 64, k⟩
  | 7 => ⟨88 + unit, 0, some 2, 1024, 88 + unit⟩
  | _ => ⟨96 + bit sel, unit, none, msCycles 1, 96 + bit sel⟩

/-- Whether a row takes a unit and selector (Table 11-11). -/
def glintNamed (row unit : Nat) (sel : Bool) : Bool :=
  match row with
  | 0 => unit == 0 && !sel
  | 1 => unit == 0 && !sel
  | 2 => unit == 0 && !sel
  | 3 => unit == 0 && !sel
  | 4 => unit == 0 && !sel
  | 5 => decide (unit < 16) && !sel
  | 6 => decide (unit < 42)
  | 7 => decide (unit < 4) && !sel
  | 8 => decide (unit < 4)
  | _ => false

/-- The pair a row glints. -/
def glintPair (row : Nat) : Option (Fin 2) := if row < 2 then some 0 else if row < 4 then some 1 else none

/-- SKIPPED (Table 11-6): a retired channel, a tile held OFF, a pair halted or LOST, a glint of the source still open. -/
def glintSkipped (s : State) (row unit : Nat) (t : GlintTarget) : Bool :=
  unitRetired s t.src t.chan || s.bc.glints.any (fun g => g.src.toNat == t.src) ||
  (match glintPair row with
    | some k => s.kc.pairs[k] == .halted || s.kc.pairs[k] == .lost
    | none => false) ||
  (row == 6 && decide (6 ≤ unit) && s.tiles[Fin.ofNat 36 (unit - 6)].run == .off)

/-- BC_GLINT_REQ's [10:0] of a checker: row, unit and SEL. -/
def glintKey (row unit : Nat) (sel : Bool) : BitVec 11 := BitVec.ofNat 11 (row + 16 * unit + 1024 * bit sel)

/-- A result (Table 11-6) in BC_GLINT_STAT; SKIPPED is a failing one only of a start glint, which anything but OK fails (R240); a brake
channel's locks it with cause START (R280). -/
def glintStat (s : State) (key : BitVec 11) (atStart : Bool) (code src : Nat) : State :=
  let s := s.wrapInc R.BC_GLINT_STAT 15 0
  if code = 0 then if atStart then updBc s fun b => { b with passed := b.passed ++ [key] } else s
  else if code = 5 && !atStart then s
  else
    let s := ((s.setFld R.BC_GLINT_STAT 18 16 code).setFld R.BC_GLINT_STAT 25 19 src).setBit R.BC_IRQ_STAT 3
    if atStart then
      let s := updBc s fun b => { b with startGlintOk := false }
      if key.toNat % 16 = 8 then lockChannel s (Fin.ofNat 4 (key.toNat / 16)) 7 else s
    else s

/-- Mirror's glint takes the next bit k and advances it (R110, Table 11-11). -/
def advanceBit (s : State) (row : Nat) : State := if row = 4 then s.setFld R.GLINT_STAT 23 16 (glintBit s + 1) else s

/-- Issue a glint: a window on its source, judged under the policy of now (R414); or SKIPPED. -/
def issueGlint (s : State) (row unit : Nat) (sel atStart : Bool) : State :=
  let t := glintTarget s row unit sel
  if glintSkipped s row unit t then glintStat s (glintKey row unit sel) atStart 5 t.src
  else
    let (syn, s) := match t.syn with
      | some v => (v, s)
      | none => (s.free.1.setWidth 16, s.free.2)
    let p := policyOf s t.fail
    let g : Glint :=
      { key := glintKey row unit sel, atStart, src := BitVec.ofNat 7 t.src, chan := BitVec.ofNat 6 t.chan, syn, fail := BitVec.ofNat 7 t.fail,
        cfg := p.cfg, win := p.win, mask := p.mask, mint := p.mint, windowEnd := s.cycle + t.window, length := t.window,
        good := false, other := false, readback := false, asserted := false, ran := false }
    updBc (advanceBit s row) fun b => { b with glints := b.glints ++ [g] }

/-- The checkers that a start glints (R240, R280), by BC_GLINT_REQ's [10:0]: every unit of rows 0 to 8 but the tiles in no use and the
brake channels not enabled (log entry 95), and row 9. -/
def startChecks (s : State) : List (BitVec 11) :=
  let both := fun (row unit : Nat) => [glintKey row unit false, glintKey row unit true]
  let tile := fun (p : Fin 36) => if s.tiles[p].run == .off || s.tiles[p].run == .retired then [] else both 6 (6 + p.val)
  (List.range 5).map (glintKey · 0 false) ++ (List.range 16).map (glintKey 5 · false) ++ (List.range 6).flatMap (both 6) ++
  (List.finRange 36).flatMap tile ++ (List.range 4).map (glintKey 7 · false) ++
  (List.range 4).flatMap (fun n => if s.flag (R.BRKn_CFG n) 0 then both 8 n else []) ++ [9]

/-- The Periodic column of Table 11-5, in TCLK cycles. -/
def glintPeriod (s : State) (row : Nat) : Option Nat :=
  if row < 4 then some (msCycles 10)
  else if row = 4 then some (msCycles (10 * s.fld R.MI_CTRL 15 8))
  else if row < 7 then some (msCycles (10 * s.fld R.BC_CTRL 23 16))
  else none

/-- The last start or periodic glint of a checker. -/
def lastGlint (s : State) (key : BitVec 11) : Option Nat := (s.bc.issued.find? fun x => x.1 == key).map (·.2)

/-- The Tally units are glinted in ascending order, one per period (R361). -/
def tallyTurn (s : State) (unit : Nat) : Bool :=
  s.ty.nextGlint.val == unit && (match glintPeriod s 5 with
    | some p => !s.bc.issued.any fun x => x.1.toNat % 16 == 5 && decide (s.cycle < x.2 + p)
    | none => false)

/-- Whether a start or periodic glint is due: a start glint once from step 5 on; a periodic one its period after the last, and a
pair's 10 ms after the pair next runs (R413). Glints of one source do not overlap (R240). -/
def glintDue (s : State) (row unit : Nat) (sel : Bool) : Bool :=
  let held := match glintPair row with
    | some k => decide (s.cycle < s.bc.glintFrom[k])
    | none => false
  (match lastGlint s (glintKey row unit sel) with
    | none => if s.wr.ready then (glintPeriod s row).isSome else (5 ≤ s.wr.step && (startChecks s).contains (glintKey row unit sel) && (row != 8 || s.sio.startTested))
    | some c => match glintPeriod s row with
      | some p => (if row = 5 then tallyTurn s unit else decide (p ≤ s.cycle - c)) && !held
      | none => false) &&
  !s.bc.glints.any (fun g => g.src.toNat == (glintTarget s row unit sel).src)

/-- Note the cycle of a start or periodic glint, and the turn of the Tally units. -/
def noteGlint (s : State) (key : BitVec 11) : State :=
  let s := if key.toNat % 16 = 5 then { s with ty := { s.ty with nextGlint := Fin.ofNat 16 (key.toNat / 16 % 16 + 1) } } else s
  updBc s fun b => { b with issued := b.issued.filter (·.1 ≠ key) ++ [(key, s.cycle)] }

/-- Row 9 at a start (R240): every input seen, and every output at its safe level for each reaction line alone; otherwise result NONE,
on the lowest input not seen. -/
def pathGlint (s : State) (r : PathReadback) : State :=
  if s.wr.ready || s.wr.step < 5 || (lastGlint s 9).isSome then s
  else
    let s := noteGlint s 9
    match (List.range 128).find? fun k => !r.inputs.getLsbD k with
    | some k => glintStat s 9 true 1 k
    | none =>
      if r.lineA = 0x1F ∧ r.lineB = 0x1F then glintStat s 9 true 0 0 else glintStat s 9 true 1 (s.fld R.BC_GLINT_STAT 25 19)

/-- GLINT_ISSUE (R238, R240): a start or periodic glint. -/
def execGlintIssue (g : GlintSel) (s : State) : Out :=
  .next (match g with
    | .checker row unit sel =>
      if glintNamed row.val unit.toNat sel && glintDue s row.val unit.toNat sel then
        let key := glintKey row.val unit.toNat sel
        issueGlint (noteGlint s key) row.val unit.toNat sel (!s.wr.ready && (lastGlint s key).isNone)
      else s
    | .path r => pathGlint s r)

/-- GLINT_WINDOW_END (R238): the readback runs for the same length again. -/
def execGlintWindowEnd (s : State) : Out :=
  let f := fun (g : Glint) => if g.windowEnd ≤ s.cycle then { g with readback := true } else g
  .next (updBc s fun b => { b with glints := b.glints.map f })

/-- A glint's result code. -/
def glintCode (g : Glint) : Nat :=
  if !g.good && !g.other then 1
  else if g.good && g.other then 2
  else if g.other then 3
  else if g.asserted then 4
  else 0

/-- Counters whose clearing waited for this glint (R414). -/
def clearDeferred (s : State) : State :=
  let open_ := fun (k : BitVec 7) => s.bc.glints.any fun g => g.src == k || g.fail == k
  let ks := s.bc.deferred.filter (!open_ ·)
  let s := ks.foldl (fun s k => s.setReg (R.POLs_CNT k.toNat) 0) s
  updBc s fun b => { b with counters := b.counters.filter fun c => !ks.contains c.src
                            deferred := b.deferred.filter open_ }

/-- A glint is judged: its result, and for any other than OK one real event on its failure source, under the policy of its issue. -/
def judgeGlint (s : State) (g : Glint) : State :=
  let s := updBc s fun b => { b with glints := b.glints.filter fun x => !(x.src == g.src && x.chan == g.chan) }
  let s := glintStat s g.key g.atStart (glintCode g) g.src.toNat
  let s :=
    if glintCode g = 0 || unitRetired s g.fail.toNat g.chan.toNat then s
    else if isMasked s g.fail.toNat g.chan.toNat then maskedEvent s ⟨g.fail, g.chan, 0, none, s.cycle⟩
    else countEvent s.free.2 ⟨g.cfg, g.win, g.mask, g.mint⟩ ⟨g.fail, g.chan, s.free.1.setWidth 16, none, s.cycle⟩
  clearDeferred s

/-- A glint ends: the lines of its channel still waiting are taken first, so that it is judged on everything asserted in its window and
its readback. -/
def endGlint (s : State) (g : Glint) : State :=
  let mine := fun (l : Line) => l.src == g.src && l.chan == g.chan
  let s := (s.bc.lines.filter mine).foldl takeEvent (updBc s fun b => { b with lines := b.lines.filter (!mine ·) })
  match s.bc.glints.find? fun x => x.src == g.src && x.chan == g.chan with
  | some x => judgeGlint s x
  | none => s

/-- GLINT_READBACK_END (R238): every glint whose readback has ended. -/
def execGlintReadbackEnd (s : State) : Out :=
  .next ((s.bc.glints.filter fun g => g.readback && decide (g.windowEnd + g.length ≤ s.cycle)).foldl endGlint s)

/-- BC_GLINT_REQ (R241, R443): one on-demand glint, or a bus error. -/
def execBcGlintReq (i : Initiator) (v : Word) (s : State) : Out :=
  .next (s.keeperWrite i fun t =>
    let row := bits v 3 0
    let unit := bits v 9 4
    let sel := v.getLsbD 10
    if glintNamed row unit sel then issueGlint t row unit sel false else s.busError i)

/-- BC_FORCE (R241): a real event with the full reaction; refused without the key or outside SERVICE. -/
def execBcForce (i : Initiator) (v : Word) (s : State) : Out :=
  .next (s.keeperWrite i fun t =>
    if bits v 31 16 ≠ 0xF0CE ∨ !inService s then s.busError i
    else takeEvent t.free.2 ⟨BitVec.ofNat 7 (bits v 6 0), BitVec.ofNat 6 (bits v 13 8), t.free.1.setWidth 16, none, t.cycle⟩)

/-- BC_RET_CLR (R231): clears ACTIVE and TL_RETIRE of a tile's retirement, whose counters start afresh; refused otherwise. -/
def execBcRetClr (i : Initiator) (v : Word) (s : State) : Out :=
  .next (s.keeperWrite i fun t =>
    let e := bits v 5 0
    let info := s.reg (R.BC_RETi_INFO e)
    if bits v 31 16 ≠ 0xC1EA ∨ !inService s ∨ !info.getLsbD 31 ∨ !info.getLsbD 13 ∨ retKind (bits info 6 0) ≠ some .tile then s.busError i
    else
      let chan := BitVec.ofNat 6 (bits info 12 7)
      let p := Fin.ofNat 36 chan.toNat
      let t := (t.clearReg (R.BC_RETi_INFO e) 0x2000#32).setReg (R.TL_RETIRE p.val) 0
      let tile := fun (src : BitVec 7) (c : BitVec 6) => retKind src.toNat == some .tile && c == chan
      let t := updBc t fun b => { b with retired := b.retired.filter fun r => !tile r.1 r.2
                                         counters := b.counters.filter fun c => !tile c.src c.chan }
      let t := ((List.range 128).filter fun k => retKind k == some .tile && t.fld (R.POLs_CNT k) 13 8 == chan.toNat).foldl
        (fun t k => t.setReg (R.POLs_CNT k) 0) t
      updTile t p fun x => { x with run := .off })

end Sys2Proof.Machine
end

