-- ==== Sys2Proof/Machine/Keeper.lean ====
section
/-! DEFINITION. Machine/Keeper.lean: the Keeper pairs' own checks, a debugger's halt, the Keeper's address windows (R384 to R392),
and the clock monitors (R242). -/

namespace Sys2Proof.Machine

/-! ### Lockstep (R385, R386) -/

/-- Whether a pair's checks are judged: not while it is halted (R387), nor while it is held in reset (R388). -/
def pairChecked (s : State) (k : Fin 2) : Bool := s.kc.pairs[k] != .halted && s.kc.pairs[k] != .lost

/-- The source of a compare mismatch of a pair, and of a disagreement of its halves or a parity error (R385, R386). -/
def mismatchSource (k : Fin 2) : Nat := k.val
def checkerSource (k : Fin 2) : Nat := if k = 0 then 2 else 7

/-- An access that the matching stage holds never leaves the pair. -/
def suppress (s : State) : State := { s with bus := .none }

/-- KC_Kp_MISM records the groups and the halves of the last failure, and counts it. -/
def recordMismatch (s : State) (k : Fin 2) (w : Nat) : State := (s.setFld (R.KC_Kp_MISM k.val) 5 0 w).satAdd (R.KC_Kp_MISM k.val) 31 16 1

/-- LOCKSTEP_MISMATCH: `where_` as KC_Kp_MISM[5:0] shows it. Both halves report a mismatch: ES0 or ES1; the halves disagree: ES2
or ES7; neither reports one: the outputs agree. -/
def execLockstepMismatch (k : Fin 2) (where_ : BitVec 16) (s : State) : Out :=
  let halves := where_.toNat / 16 % 4
  let w := where_.toNat % 8 + 16 * halves
  .next (if !pairChecked s k || halves == 0 then s
    else (recordMismatch (suppress s) k w).raise (if halves = 3 then mismatchSource k else checkerSource k) 0)

/-- DELAY_PARITY_ERROR. -/
def execDelayParityError (k : Fin 2) (s : State) : Out :=
  .next (if !pairChecked s k then s else ((suppress s).setBit (R.KC_Kp_MISM k.val) 3).raise (checkerSource k) 0)

/-! ### A debugger's halt (R387, R208, R251, R259) -/

/-- A pair stops as one unit; its watchdogs and entities freeze. In FIELD it raises ES6 and SAFE_N is held low. A lost pair is held in
reset. -/
def haltPair (k : Fin 2) (s : State) : State :=
  if !pairChecked s k then s
  else
    let s := { s with kc := { s.kc with before := s.kc.before.set k s.kc.pairs[k] } }
    let s := setPair s k .halted
    pinsFollow (if s.se.life == .field then s.raise 6 0 else s)

/-- KEEPER_HALT: a pair, or a Harbour core, whose watchdogs freeze (R251, log entry 96). The debug port is closed in SCRAPPED
(Table 23-8). -/
def execKeeperHalt (c : HaltTarget) (s : State) : Out :=
  .next (if s.se.life == .scrapped then s
    else match c with
      | .pair k => haltPair k s
      | .harbour n => if s.kc.harbourHalted.contains n then s
        else syncFreeze { s with kc := { s.kc with harbourHalted := s.kc.harbourHalted ++ [n] } })

/-- A pair runs again as it was, what froze goes on, and its glints fall due again after 10 ms (R413). -/
def resumePair (k : Fin 2) (s : State) : State :=
  if s.kc.pairs[k] != .halted then s
  else
    let s := setPair s k s.kc.before[k]
    pinsFollow { s with bc := { s.bc with glintFrom := s.bc.glintFrom.set k (s.cycle + msCycles 10) } }

/-- KEEPER_RESUME: a pair, or a Harbour core. -/
def execKeeperResume (c : HaltTarget) (s : State) : Out :=
  .next (match c with
    | .pair k => resumePair k s
    | .harbour n => syncFreeze { s with kc := { s.kc with harbourHalted := s.kc.harbourHalted.filter (· ≠ n) } })

/-! ### Address windows (R391, R392) -/

/-- KEEPER_WINDOW_WRITE: only the pair itself writes its windows. -/
def execKeeperWindowWrite (i : Initiator) (k : Fin 2) (n : Fin 4) (v : Word) (s : State) : Out :=
  .next (if i = pairInit k ∧ s.admitted i then (s.busOk 0).setReg (R.KC_Kp_KWn_CFG k n) (v &&& 0x07FF0003#32) else s.refuse i)

/-- The 40-bit address a Keeper address names (R391); none where its window refuses it. -/
def keeperAddr (s : State) (k : Fin 2) (a : Word) (write : Bool) : Option (BitVec 40) :=
  if a.getLsbD 31 then
    let w := R.KC_Kp_KWn_CFG k (bits a 30 29)
    if s.flag w 0 && (!write || s.flag w 1) then some (BitVec.ofNat 40 (s.fld w 26 16 * 2 ^ 29 + bits a 28 0)) else none
  else some (a.setWidth 40)

/-- KEEPER_WINDOW_ACCESS: the address goes on as translated, or the access is refused with ES5. -/
def execKeeperWindowAccess (k : Fin 2) (a : Word) (write : Bool) (s : State) : Out :=
  .next (if !s.admitted (pairInit k) then s.busError (pairInit k)
    else match keeperAddr s k a write with
      | some p => { s.busOk 0 with kc := { s.kc with lastAddr := some p } }
      | none => s.busError (pairInit k))

/-! ### Clock monitors (R242) -/

/-- CLOCK_MONITOR_FAULT: a PLL loses lock, or a monitor reports a fault. -/
def execClockMonitorFault (s : State) : Out := .next (s.raise 127 0)

end Sys2Proof.Machine
end

