-- ==== Sys2Proof/Machine/Lantern.lean ====
section
/-! DEFINITION. Machine/Lantern.lean: Lantern's commands, its bandwidth windows and dumps (R400 to R410). -/

namespace Sys2Proof.Machine

/-- Keep the selection that governs this cycle. -/
def keepSel (s : State) (a : Nat) : State :=
  if s.ln.selOld.any (·.1 = a) then s else updLn s fun l => { l with selOld := l.selOld ++ [(a, s.reg a)] }

/-- EVSEL_WRITE (R401): from the next cycle on the counter counts under the new selection. LN60 to LN63 are reserved (R8, Table 20-1). -/
def execEvselWrite (i : Initiator) (u : Fin 64) (k : Fin 8) (v : Word) (s : State) : Out :=
  .next (s.openWrite i (R.LNu_EVSELk u k) fun s => if 60 ≤ u.val then s else (keepSel s (R.LNu_EVSELk u k)).setReg (R.LNu_EVSELk u k) (v &&& 0x7FF#32))

/-- LN_CTL_CLR (R405): the eight programmable counters and LNu_OVF become 0, and stay so in this cycle. -/
def execLnCtlClr (i : Initiator) (u : Fin 64) (s : State) : Out :=
  .next (s.openWrite i (R.LNu_CTL u) fun s => (updLn s fun l => { l with cnt := l.cnt.set u (Vector.replicate 8 0), cleared := l.cleared ++ [u] }).setReg (R.LNu_OVF u) 0)

/-- LN_CTL_FREEZE (R405). -/
def execLnCtlFreeze (i : Initiator) (u : Fin 64) (freeze : Bool) (s : State) : Out :=
  .next (s.openWrite i (R.LNu_CTL u) fun s => s.setFld (R.LNu_CTL u) 0 0 (bit freeze))

/-- The windows of every port unit begin anew. -/
def newWindows (s : State) : State := updLn s fun l => { l with bwBytes := Vector.replicate 64 (0, 0), bwSince := s.cycle }

/-- LN_BW_WIN_WRITE (R406): a nonzero length starts the first window of that length; 0 is ignored. -/
def execLnBwWinWrite (i : Initiator) (v : Word) (s : State) : Out :=
  .next (s.openWrite i R.LN_BW_WIN fun s =>
    if v &&& 0xFFFFF#32 = 0 then s else newWindows (s.setReg R.LN_BW_WIN (v &&& 0xFFFFF#32)))

/-- A port unit (Table 20-1). -/
def lnIsPort (u : Nat) : Bool := decide (36 ≤ u ∧ u < 60)

/-- BW_WINDOW_END (R406): the bytes of the window by its length in µs, rounded down, in MB/s. -/
def execBwWindowEnd (s : State) : Out :=
  let w := s.fld R.LN_BW_WIN 19 0
  .next (if s.cycle < s.ln.bwSince + usCycles w then s
    else
      let s' := foldN 64 (fun t u => if lnIsPort u then
          (t.setReg (R.LNu_BW_RD u) (BitVec.ofNat 32 (s.ln.bwBytes[Fin.ofNat 64 u].1 / w))).setReg
            (R.LNu_BW_WR u) (BitVec.ofNat 32 (s.ln.bwBytes[Fin.ofNat 64 u].2 / w))
        else t) s
      newWindows s')

/-- A unit's 128 bytes of a dump slot (Table 20-3); a FUSED tile reads 0 (Table 20-1). -/
def dumpUnit (s : State) (u : Nat) : List Byte :=
  let k := Fin.ofNat 64 u
  if s.fused.any (·.val = u) then List.replicate 128 0 else
  bytesLE 8 s.ln.cyc.toNat ++ (s.ln.cnt[k].toList.flatMap fun c => bytesLE 8 c.toNat) ++
    bytesLE 4 (if lnIsPort u then (s.reg (R.LNu_BW_RD u)).toNat else 0) ++
    bytesLE 4 (if lnIsPort u then (s.reg (R.LNu_BW_WR u)).toNat else 0) ++
    bytesLE 1 (s.fld (R.LNu_OVF u) 7 0) ++ List.replicate 47 0

/-- A dump slot (Table 20-3): header, DCHK over all but itself, and units 0 to 59. -/
def dumpBytes (s : State) (post : Byte) : List Byte :=
  let seq := s.reg R.LN_DUMP_SEQ
  let head := [0x0C, post] ++ bytesLE 2 (geomToken s).toNat ++ bytesLE 4 seq.toNat ++ bytesLE 8 s.timeNs.toNat ++
    bytesLE 8 s.mp.travel.toNat ++ List.replicate 36 0
  let body := List.replicate 64 0 ++ (List.range 60).flatMap (dumpUnit s) ++ List.replicate 384 0
  head ++ bytesLE 4 (crcNative crc32c seq (head ++ body)).toNat ++ body

/-- A dump falls due (R408): captured in this cycle, or skipped while the one before is still being written. -/
def dumpNow (s : State) (post : Byte) : State :=
  if !s.flag R.LN_DUMP_CFG 6 then s
  else if s.ln.dumpBusy then (s.satAdd R.LN_DUMP_SKIP 31 0 1).setBit R.LN_IRQ_STAT 1
  else
    let s := updLn s fun l => { l with dump := some (dumpBytes s post), dumpBusy := true }
    s.setReg R.LN_DUMP_SEQ (s.reg R.LN_DUMP_SEQ + 1)

/-- DUMP_START by a write of 0x0000_0001 to LN_DUMP_NOW; a DUMP post starts one at its release. -/
def execDumpStart (i : Initiator) (v : Word) (s : State) : Out :=
  .next (s.openWrite i R.LN_DUMP_NOW fun s => if v = 1 then dumpNow s 0xFF else s)

/-- DUMP_DONE (R408): the capture stands in the next slot of the bank. -/
def execDumpDone (s : State) : Out :=
  .next (match s.ln.dump with
    | none => s
    | some bs =>
      let h := s.fld R.LN_DUMP_HEAD 5 0
      let a := basinBase + 0x80000 * s.fld R.LN_DUMP_CFG 5 0 + 0x2000 * h
      let s := if banksAdmit s .lantern true a bs.length then s.store a bs else bankRefusal s .lantern true a bs.length
      let s := updLn s fun l => { l with dump := none, dumpBusy := false }
      (s.setReg R.LN_DUMP_HEAD (BitVec.ofNat 32 ((h + 1) % 64))).setBit R.LN_IRQ_STAT 0)

/-- Counters in one TCLK cycle: CYC always (R400), and the level events asserted in it (R402). -/
def tickLantern (now : List (Fin 64 × Nat)) (s : State) : State :=
  updLn (lnLevels s now) fun l => { l with cyc := l.cyc + 1, levels := now, cleared := [], selOld := [] }

end Sys2Proof.Machine
end

