-- ==== Sys2Proof/Machine/Sentinels.lean ====
section
/-! DEFINITION. Machine/Sentinels.lean: the sentinel library, resident models, plausibility rules, envelopes, lamps and self-test
slices (R169 to R193). -/

namespace Sys2Proof.Machine

/-- SN_CTRL.EN. -/
def sentOn (s : State) : Bool := s.flag R.SN_CTRL 0

/-! ### The library (R169) -/

/-- LIB_VERIFY: the inactive bank is read by Seal; naming the active bank is refused. -/
def execLibVerify (i : Initiator) (v : Word) (s : State) : Out :=
  .next (s.openWrite i R.SN_LIB_VERIFY fun s =>
    let b := v.getLsbD 0
    if b = activeBank s then s.busError i
    else setLibStat (if s.sn.verifying.isSome then s else sm3Ask { s with sn := { s.sn with verifying := some b } } .library) b 1)

/-- Status of a finding (Table 08-2). -/
def libCode : LibFinding → Nat
  | .valid _ => 2
  | .sigBad => 3
  | .digestBad => 4
  | .format => 5
  | .holdError => 6

/-- A verified bank's manifest. -/
def setManifest (s : State) (b : Bool) (ms : List Model) : State :=
  let s := s.setFld R.SN_LIB_STAT 19 8 ms.length
  { s with sn := if b then { s.sn with manifestB := ms } else { s.sn with manifestA := ms } }

/-- Whether a model keeps the manifest's rules and its images lie in the bank (Table 08-1): one to four variants in descending TILES, of
1 to 32 tiles, 1 to 1,024 KiB a part; an image is one CRC-64 per part and the parts. -/
def modelFormed (s : State) (m : Model) : Bool :=
  decide (1 ≤ m.variants.length ∧ m.variants.length ≤ 4) &&
  (m.variants.all fun v => decide (1 ≤ v.tiles ∧ v.tiles ≤ 32 ∧ v.entry < 16 ∧ 1 ≤ v.partKib ∧ v.partKib ≤ 1024 ∧
    v.off + v.tiles * (8 + 1024 * v.partKib) ≤ libSize s)) &&
  (m.variants.zip (m.variants.drop 1)).all fun p => decide (p.2.tiles ≤ p.1.tiles)

/-- What Seal makes of its finding: a bank whose manifest breaks a rule is FORMAT. -/
def libFinding (s : State) : LibFinding → LibFinding
  | .valid ms => if decide (ms.length ≤ 4096) && ms.all (modelFormed s) then .valid ms else .format
  | r => r

/-- Seal's reading of a library bank: an uncorrectable word found before is met again (R332). -/
def libRead (s : State) (b : Bool) (r : LibFinding) : LibFinding :=
  if (holdUncIn s (bankBase s b) (libSize s)).isSome then .holdError else r

/-- LIB_VERIFY_DONE, once the SM3 engine serves it (R284). -/
def execLibVerifyDone (r : LibFinding) (s : State) : Out :=
  .next (match if sm3Serves s .library then s.sn.verifying else none with
    | none => s
    | some b =>
      let s := sm3Drop { s with sn := { s.sn with verifying := none } } .library
      let r := libRead s b (libFinding s r)
      let s := if r = .holdError then holdBadRead s (bankBase s b) (libSize s) else s
      let s := (setLibStat s b (libCode r)).setBit R.SN_IRQ_STAT 6
      match r with
      | .valid ms => setManifest s b ms
      | _ => s)

/-! ### Bring-in (R173, R174) -/

/-- SN_LOAD_STAT of a request. -/
def loadStat (s : State) (code busy slot model : Nat) : State :=
  s.setReg R.SN_LOAD_STAT (BitVec.ofNat 32 (code + 16 * busy + 32 * slot + 4096 * model))

/-- The code a write of SN_LOAD is refused with (Table 08-3), else the group and variant it loads. -/
def loadPlan (s : State) (m : BitVec 12) (r : Fin 64) : Nat ⊕ (Nat × Nat) :=
  match modelOf s m, slotGroup s r.val with
  | none, _ => .inl 3
  | _, none => .inl 2
  | some d, some g => match fitVariant s g d with
    | none => .inl 2
    | some v => if s.sn.slots[r].state = .running then .inl 4 else .inr (g, v.1)

/-- MODEL_LOAD: a Keeper write to SN_LOAD; a refused one changes SN_LOAD_STAT alone. The runtime makes none into a group that a
retirement has broken (R218). -/
def execModelLoad (i : Initiator) (v : Word) (s : State) : Out :=
  .next (s.keeperWrite i fun s =>
    let m := BitVec.ofNat 12 (bits v 11 0)
    let r := Fin.ofNat 64 (bits v 17 12)
    if ((slotGroup s r.val).map (groupBroken s)).getD false then { s with bus := .none }
    else if s.sn.load.isSome then s.setFld R.SN_LOAD_STAT 3 0 1
    else match loadPlan s m r with
      | .inl c => loadStat s c 0 r.val m.toNat
      | .inr (g, k) =>
        let x : ResSlot := ⟨.loading, m, BitVec.ofNat 2 k, Fin.ofNat 8 g⟩
        loadStat { updSlot s r (fun _ => x) with sn := { (updSlot s r fun _ => x).sn with load := some (r, m, BitVec.ofNat 2 k) } } 1 1 r.val m.toNat)

/-- The parts of a variant, copied into the slot's region on each of its tiles. -/
def copyParts (s : State) (r : Fin 64) : State :=
  let x := s.sn.slots[r]
  match slotVariant s x with
  | none => s
  | some v =>
    let base := bankBase s (activeBank s) + v.off + 8 * v.tiles
    let at_ := slotOffset s x.group.val (r.val - slotFirst s x.group.val)
    let ts := slotTiles s x
    foldN ts.length (fun s k =>
      match holder s (ts[k]?.getD 0) with
      | some p => copyIn s (Fin.ofNat 36 p) (base + 1024 * v.partKib * k) (1024 * v.partKib) at_
      | none => s) s

/-- Every part of the slot's variant has the CRC-64 that stands for it before the parts: native mode, MODEL folded first (Table 08-1). -/
def partsMatch (s : State) (r : Fin 64) : Bool :=
  let x := s.sn.slots[r]
  match slotVariant s x with
  | none => false
  | some v =>
    let at_ := bankBase s (activeBank s) + v.off
    (List.range v.tiles).all fun k =>
      crcNative crc64 (x.model.setWidth 32) (s.bytes (at_ + 8 * v.tiles + 1024 * v.partKib * k) (1024 * v.partKib)) ==
      BitVec.ofNat 64 (natLE (s.bytes (at_ + 8 * k) 8))

/-- The image of a slot's variant in the active bank: its address and length. -/
def slotImage (s : State) (r : Fin 64) : Nat × Nat :=
  match slotVariant s s.sn.slots[r] with
  | none => (0, 0)
  | some v => (bankBase s (activeBank s) + v.off, v.tiles * (8 + 1024 * v.partKib))

/-- A bring-in's reading of the library: an uncorrectable word found before is met again (R332). -/
def loadRead (s : State) (r : Fin 64) (f : LoadFinding) : LoadFinding :=
  if (holdUncIn s (slotImage s r).1 (slotImage s r).2).isSome then .holdError else f

/-- MODEL_LOAD_DONE: RESIDENT only when every part matches; else the slot is EMPTY, with ES55. A slot emptied while the bring-in ran
(R175) stays EMPTY, and the model does not fit as its group now stands. -/
def execModelLoadDone (f : LoadFinding) (s : State) : Out :=
  .next (match s.sn.load with
    | none => s
    | some (r, m, _) =>
      let s := ({ s with sn := { s.sn with load := none } }).setBit R.SN_IRQ_STAT 0
      match loadRead s r f with
      | .read =>
        if s.sn.slots[r].state = .loading ∧ ¬ partsMatch s r then (loadStat (updSlot s r fun _ => emptySlot) 5 0 r.val m.toNat).raise 55 0
        else if s.sn.slots[r].state = .loading then loadStat (updSlot (copyParts s r) r fun x => { x with state := .resident }) 0 0 r.val m.toNat
        else loadStat s 2 0 r.val m.toNat
      | .holdError =>
        (loadStat (updSlot (holdBadRead s (slotImage s r).1 (slotImage s r).2) r fun _ => emptySlot) 6 0 r.val m.toNat).raise 55 0)

/-! ### Plausibility (R176 to R180) -/

/-- A plausibility rule (Table 08-4). -/
structure PlausRule where
  op : Nat
  row0 : Nat
  col0 : Nat
  rows : Nat
  cols : Nat
  tol : Nat
  sThr : Nat
  aThr : Nat
  persist : Nat
  cntMax : Nat
  aWin : Half
  aPitch : Nat
  sPitch : Nat
  deriving DecidableEq, Repr

def plausRule (bs : List Byte) : PlausRule :=
  ⟨fieldLE bs 0 1, fieldLE bs 4 2, fieldLE bs 6 2, fieldLE bs 8 2, fieldLE bs 10 2, fieldLE bs 12 1, fieldLE bs 13 1, fieldLE bs 14 1,
   fieldLE bs 15 1 % 16, fieldLE bs 16 4, BitVec.ofNat 16 (fieldLE bs 20 2), fieldLE bs 24 4, fieldLE bs 28 4⟩

/-- The rules of a check, from its table in Hold. -/
def checkRules (s : State) (x : Fin 64) : List PlausRule :=
  let base := (s.reg (R.SCHKx_RULES_LO x)).toNat + 2 ^ 32 * s.fld (R.SCHKx_RULES_HI x) 7 0
  (List.range (s.fld (R.SCHKx_CFG x) 31 24)).map fun i => plausRule (s.bytes (base + 32 * i) 32)

/-- Whether a cell counts: accelerator's value `a`, sentinel's value `v`. -/
def cellCounts (r : PlausRule) (a v : Nat) : Bool :=
  match r.op with
  | 1 => decide (r.tol < a - v + (v - a))
  | 2 => decide (r.sThr ≤ v ∧ a < r.aThr)
  | 3 => decide (r.aThr ≤ a ∧ v < r.sThr)
  | _ => false

/-- A rule's count over its zone; a cell past the end of a view reads 0. -/
def ruleCount (r : PlausRule) (acc view : List Byte) : Nat :=
  foldN r.rows (fun n i => foldN r.cols (fun n j =>
    let row := r.row0 + i
    let col := r.col0 + j
    if cellCounts r (byteAt acc (row * r.aPitch + col)).toNat (byteAt view (row * r.sPitch + col)).toNat then n + 1 else n) n) 0

/-- The values of a signature window among those fetched. -/
def winOf (ws : List (Half × List Byte)) (w : Half) : Option (List Byte) := (ws.find? (·.1 = w)).map (·.2)

/-- The barges of a network delivered before barge `b`, newest first. -/
def earlier (s : State) (net : Half) (b : Word) : List Word :=
  (((s.sn.order.filter (·.1 = net)).map (·.2)).dropWhile (· ≠ b)).drop 1

/-- Whether a rule exceeded on a barge. -/
def exceeded (s : State) (x : Fin 64) (i : Nat) (b : Word) : Bool := s.sn.exceeds.any fun e => e.check = x && e.rule = i && e.barge = b

/-- What one rule gives on a barge: 1 pass, 2 PLAUS, 3 UNREADABLE, 4 SUSPECT; 0 where it is not evaluated (R179). -/
def ruleCode (s : State) (x : Fin 64) (b : Barge) (ws : List (Half × List Byte)) (view : List Byte) (i : Nat) (r : PlausRule) : Nat × Bool :=
  if b.sluice = .warming ∧ 2 ≤ r.persist then (0, false)
  else match winOf ws r.aWin with
    | none => (3, false)
    | some a =>
      if ruleCount r a view ≤ r.cntMax then (1, false)
      else
        let before := (earlier s (BitVec.ofNat 16 (netId b)) b.num).take (r.persist - 1)
        if before.length = r.persist - 1 ∧ before.all (exceeded s x i) then (2, true) else (4, true)

/-- Note the exceedances of a barge. -/
def noteExceeds (s : State) (x : Fin 64) (b : Word) (cs : List (Nat × Bool)) : State :=
  let new := (List.range cs.length).filterMap fun i =>
    if (cs[i]?.getD (0, false)).2 then some (⟨x, i, b⟩ : Exceed) else none
  { s with sn := { s.sn with exceeds := s.sn.exceeds ++ new } }

/-- The lowest failing code of a check's rules and its rule, SUSPECT where none fails but one exceeds, else PASS (R180). -/
def worstRule (cs : List (Nat × Bool)) : Nat × Nat :=
  let first := fun c => (List.range cs.length).find? fun i => (cs[i]?.getD (0, false)).1 = c
  match first 2, first 3, first 4 with
  | some i, _, _ => (2, i)
  | none, some i, _ => (3, i)
  | none, none, some i => (4, i)
  | none, none, none => (1, 0)

/-- A late result of a check: logged, and its run is over (R28). -/
def lateSent (s : State) (b : Word) (x : Fin 64) (code : BitVec 4) : State :=
  let s := updEntry (logLate s 3 b code) b fun y => { y with checks := if y.checks.any (·.1 = x) then y.checks else y.checks ++ [(x, code, none)] }
  { s with sn := { s.sn with runs := s.sn.runs.filter fun u => !(u.barge = b && u.check = some x) } }

/-- Record a check's result: SCHKx_STAT, SCHKx_PASS, SN_FAIL_BARGE, SN_FAIL_INFO, the barge's evidence; once, and in the place of a higher
failing code of the same cycle (R180). After the final verdict it is logged (R28). -/
def giveSent (s : State) (b : Word) (x : Fin 64) (code : BitVec 4) (rule : Nat) (tag : Option Half) : State :=
  if (s.barge? b).all (·.formed) then lateSent s b x code
  else s.withBarge b fun y =>
  let again := y.checks.any fun c => c.1 = x && sentKind c.2.1 = .fail
  let s := s.setFld (R.SCHKx_STAT x) 3 0 code.toNat
  let s := if code = 1 then s.wrapInc (R.SCHKx_PASS x) 31 0 else s
  let s := if sentKind code = .fail then
      (((if again then s else s.satAdd (R.SCHKx_STAT x) 31 16 1).setReg R.SN_FAIL_BARGE b).setReg R.SN_FAIL_INFO
        (BitVec.ofNat 32 (code.toNat + 32 * x.val + 65536 * rule))).setBit R.SN_IRQ_STAT 1
    else s
  let s := if code = 2 then s.raiseFor 54 b else s
  settle (s.updBarge b fun y => { y with checks := y.checks.filter (·.1 ≠ x) ++ [(x, code, tag)]
                                         sentAt := (x, s.cycle) :: y.sentAt.filter (·.1 ≠ x) }) b

/-- FLAGS of a run (R178): NAN, or INF or SAT of a STRICT model. -/
def flagsBad (s : State) (x : Fin 64) (f : BitVec 3) : Bool :=
  let strict := match modelOf s (BitVec.ofNat 12 (s.fld (R.SCHKx_MODEL x) 11 0)) with
    | some m => m.strict
    | none => false
  f.getLsbD 0 || (strict && (f.getLsbD 1 || f.getLsbD 2))

/-- The codes a check's complete run gives by itself, and the one its fetched values give once the reference record has landed. -/
def runCodes (s : State) (x : Fin 64) (v : ViewRead) (u : SnRun) : List (BitVec 4) :=
  (if flagsBad s x u.flags then [7] else []) ++ if v = .companionError then [8] else []
def readCode : AccRead → List (BitVec 4)
  | .unreadable => [3]
  | .companionError => [8]
  | .windows _ => []

/-- The run of a barge's check that is complete. -/
def doneRun (s : State) (b : Word) (x : Fin 64) : Option SnRun := (runOf s b (some x)).filter (·.outcome = .done)


/-- The model of a check is UNAVAILABLE (R175). -/
def checkUnavailable (s : State) (x : Fin 64) : Bool := s.sn.unavail.contains (BitVec.ofNat 12 (s.fld (R.SCHKx_MODEL x) 11 0))

/-- A run that waits to be started once more (R177). -/
def awaitsRerun (u : SnRun) : Bool := u.outcome = .going && u.rerun && u.live.isEmpty && u.halted.isEmpty

/-- RUN_FAULT: the check's run is lost (R177), or its group is or was broken and no run of the barge is under way or complete (R218). -/
def checkLost (s : State) (y : Barge) (x : Fin 64) : Bool :=
  let broken := groupBroken s (s.fld (R.SCHKx_CFG x) 19 17)
  match runOf s y.num (some x) with
  | some u => u.outcome = .lost || (awaitsRerun u && broken)
  | none => y.gap.contains x || broken

/-- The codes that a check has before any rule is looked at: of UNAVAILABLE, RUN_FAULT, its run and the fetched values the lowest is the
result (R180). -/
def preCodes (s : State) (x : Fin 64) (y : Barge) (a : AccRead) (v : ViewRead) : List (BitVec 4) :=
  (if checkUnavailable s x then [5] else []) ++ (if checkLost s y x then [6] else []) ++
  (match doneRun s y.num x with | some u => runCodes s x v u | none => []) ++ if y.refLast then readCode a else []


/-- Whether a check of a barge may report `code` now: once, or in the place of a higher failing code of the same cycle (R180). -/
def mayReport (s : State) (y : Barge) (x : Fin 64) (code : BitVec 4) : Bool :=
  match y.checks.find? (·.1 = x) with
  | none => true
  | some c => y.sentAt.contains (x, s.cycle) && c.2.1 != 1 && code != 1 && decide (code < c.2.1)

/-- Both views present: every rule is counted. -/
def evalViews (s : State) (b : Barge) (x : Fin 64) (ws : List (Half × List Byte)) (tag : Half) (view : List Byte) : State :=
  let rs := checkRules s x
  let cs := (List.range rs.length).map fun i => match rs[i]? with
    | some r => ruleCode s x b ws view i r
    | none => (0, false)
  let w := worstRule cs
  if mayReport s b x (BitVec.ofNat 4 w.1) then
    giveSent (if b.formed then s else noteExceeds s x b.num cs) b.num x (BitVec.ofNat 4 w.1) w.2 (some tag)
  else s

/-- The audit reader failed to read a barge's values: events of the reference copy's port (R75). -/
def valuesRead (s : State) (y : Barge) (a : AccRead) : State := if a = .unreadable then valuesFail s y else s

/-- Whether a check of a barge runs: its set was delivered, and its network has the check. -/
def checkOpen (s : State) (y : Barge) (x : Fin 64) : Bool :=
  sentOn s && y.lamp.isNone && y.stage == .delivered && (schksOfId s (netId y)).contains x.val

/-- PLAUSIBILITY_EVAL (R176 to R180): the check's one result for the barge, from the complete run of its model and the accelerator's
values; until both are there it waits. -/
def execPlausibilityEval (b : Word) (x : Fin 64) (a : AccRead) (v : ViewRead) (s : State) : Out :=
  .next (withEntry s b fun y =>
    if !checkOpen s y x then s
    else
      let u := doneRun s b x
      let s := if y.refLast && (y.checks.find? (·.1 = x)).isNone then valuesRead s y a else s
      match minBy (fun c d => decide (c < d)) (preCodes s x y a v), a, u.bind (runView s) with
      | some c, _, _ => if mayReport s y x c then giveSent s b x c 0 (u.map (·.token)) else s
      | none, .windows ws, some view =>
        if y.refLast then evalViews s y x ws ((u.map (·.token)).getD 0) view else s
      | none, _, _ => s)

/-! ### Envelopes (R181, R182) -/

/-- An envelope rule (Table 08-6). -/
structure EnvRule where
  op : Nat
  type : Nat
  win : Half
  off : Nat
  count : Nat
  stride : Nat
  lo : FVal
  hi : FVal
  ps : FVal
  deriving DecidableEq, Repr

def envRule (bs : List Byte) : EnvRule :=
  ⟨fieldLE bs 0 1, fieldLE bs 1 1, BitVec.ofNat 16 (fieldLE bs 2 2), fieldLE bs 4 4, fieldLE bs 8 2, fieldLE bs 10 2,
   .decode f32 (fieldLE bs 12 4), .decode f32 (fieldLE bs 16 4), .decode f32 (fieldLE bs 20 4)⟩

/-- The rules of a table, from Hold. -/
def envRules (s : State) (e : Fin 64) : List EnvRule :=
  let base := (s.reg (R.ENVx_TAB_LO e)).toNat + 2 ^ 32 * s.fld (R.ENVx_TAB_HI e) 7 0
  (List.range (s.fld (R.ENVx_CFG e) 31 24)).map fun i => envRule (s.bytes (base + 32 * i) 32)

/-- Bytes of an element type. -/
def typeBytes (t : Nat) : Nat := if t ≤ 1 then 1 else if t = 2 ∨ t = 5 then 2 else 4

/-- An element, exact; none past the end of its window. -/
def envElem (t : Nat) (bs : List Byte) (o : Nat) : Option FVal :=
  let n := typeBytes t
  if bs.length < o + n then none
  else
    let c := fieldLE bs o n
    some (match t with
      | 0 => .ofInt (BitVec.ofNat 8 c).toInt
      | 1 => .ofInt c
      | 2 => .ofInt (BitVec.ofNat 16 c).toInt
      | 3 => .ofInt (BitVec.ofNat 32 c).toInt
      | 4 => .decode f32 c
      | _ => .decode bf16 c)

/-- A sum and a product rounded to float64. -/
def add64 (a b : FVal) : FVal := (a.add b).round f64
def mul64 (a b : FVal) : FVal := (a.mul b).round f64

/-- A RATE element's bound: ABS + PT·Δt + PS·Δs. -/
def rateBound (r : EnvRule) (dt ds : FVal) : FVal := add64 (add64 r.lo (mul64 r.hi dt)) (mul64 r.ps ds)

/-- The first failing code of a rule's elements: 2 RANGE, 3 RATE, 4 UNREADABLE; 0 none. `old` is the reference's window of a RATE rule. -/
def envElems (r : EnvRule) (cur : List Byte) (old : Option (List Byte)) (dt ds : FVal) : Nat :=
  foldN r.count (fun c j =>
    if c ≠ 0 then c
    else
      let o := r.off + j * r.stride
      match envElem r.type cur o, old with
      | none, _ => 4
      | some v, none => if r.lo.le v && v.le r.hi then 0 else 2
      | some v, some w => match envElem r.type w o with
        | none => 4
        | some u => if ((v.add u.neg).round f64).abs.le (rateBound r dt ds) then 0 else 3) 0

/-- What a rule gives. -/
def envCode (r : EnvRule) (ws : List (Half × List Byte)) (ref : Option RateRef) (dt ds : FVal) : Nat :=
  match winOf ws r.win with
  | none => 4
  | some cur =>
    if r.op = 1 then envElems r cur none dt ds
    else match ref with
      | none => 0
      | some f => match winOf f.values r.win with
        | none => 4
        | some w => envElems r cur (some w) dt ds

/-- The reference barge (R182): delivered immediately before, its values read, its origin within 2,000 ms. -/
def envRef (s : State) (y : Barge) : Option RateRef :=
  match earlier s (BitVec.ofNat 16 (netId y)) y.num with
  | [] => none
  | p :: _ => (s.sn.refs.find? fun f => f.barge = p && f.net.toNat = netId y).bind fun f =>
    let d := sdiff y.origin.t f.origin.t
    if 0 ≤ d ∧ d ≤ 2000000000 then some f else none

/-- This barge's values become the network's reference. -/
def setRef (s : State) (y : Barge) (ws : List (Half × List Byte)) : State :=
  let net := BitVec.ofNat 16 (netId y)
  { s with sn := { s.sn with refs := ⟨net, y.num, y.origin, ws⟩ :: s.sn.refs.filter (·.net ≠ net) } }

/-- Record an envelope result; after the final verdict it is logged (R28). -/
def giveEnv (s : State) (b : Word) (e : Fin 64) (code : BitVec 4) (rule : Nat) : State :=
  reporting s 4 b code fun _ =>
  let s := s.setFld (R.ENVx_STAT e) 3 0 code.toNat
  let s := if code = 1 then s.wrapInc (R.ENVx_PASS e) 31 0 else s
  let s := if envKind code = .fail then
      (((s.satAdd (R.ENVx_STAT e) 31 16 1).setReg R.SN_FAIL_BARGE b).setReg R.SN_FAIL_INFO
        (BitVec.ofNat 32 (code.toNat + 16 + 32 * e.val + 65536 * rule))).setBit R.SN_IRQ_STAT 2
    else s
  let s := if code = 2 ∨ code = 3 then s.raiseFor 54 b else s
  settle (s.updBarge b fun y => { y with env := code }) b

/-- The result over a table: the lowest failing code and its first rule, NO_HISTORY, or PASS. -/
def envJudge (s : State) (y : Barge) (e : Fin 64) (ws : List (Half × List Byte)) : Nat × Nat :=
  let rs := envRules s e
  let warm := y.sluice == .warming
  let ref := if warm then none else envRef s y
  let dt := match ref with | some f => FVal.quot f64 (sdiff y.origin.t f.origin.t) 1000000 | none => .ofInt 0
  let ds := match ref with | some f => FVal.quot f64 (sdiff y.origin.s f.origin.s) 1000000 | none => .ofInt 0
  let cs := rs.map fun r => envCode r ws ref dt ds
  let first := fun c => (List.range cs.length).find? fun i => cs[i]?.getD 0 = c
  match first 2, first 3, first 4 with
  | some i, _, _ => (2, i)
  | none, some i, _ => (3, i)
  | none, none, some i => (4, i)
  | none, none, none =>
    if !warm && ref.isNone && rs.any (·.op ≠ 1) && !s.flag (R.ENVx_CFG e) 17 then (5, 0) else (1, 0)

/-- ENVELOPE_EVAL (R181, R182): the network's one envelope result. Values read become the reference whatever the result. -/
def execEnvelopeEval (b : Word) (a : AccRead) (s : State) : Out :=
  .next (withEntry s b fun y =>
    match envOfId s (netId y) with
    | none => s
    | some e =>
      if !sentOn s || y.lamp.isSome || y.stage != .delivered || !y.refLast || y.env != 0 || loggedLate s 4 b then s
      else match a with
        | .unreadable => giveEnv (valuesRead s y a) b e 4 0
        | .companionError => giveEnv s b e 6 0
        | .windows ws =>
          let w := envJudge s y e ws
          giveEnv (setRef s y ws) b e (BitVec.ofNat 4 w.1) w.2)

/-! ### Lamps (R185, R188) -/

/-- Whether a lamp barge lacks a live record: one not compared and not waiting. -/
def lampLacks (s : State) (x : Barge) : Bool :=
  x.ctxs.any fun c => (List.range (windowsOf x)).any fun w =>
    !(x.lampWins.any fun d => d.1 = c && d.2.toNat = w) &&
    !((s.mi.queue ++ s.mr.handover).any fun r => r.barge = x.num && r.copy = c && r.window.toNat = w && !r.dead)

/-- LAMP_DEADLINE: DL_T after its release a live record is absent, so the lamp is MISSING. -/
def execLampDeadline (b : Word) (s : State) : Out :=
  .next (s.withBarge b fun x =>
    if x.lamp.isSome && x.stage == .delivered && late s.now.t x.lampDue && lampLacks s x then giveLamp s b 4 else s)

/-- The age test of one lamp: ES53 once when a passed lamp first fails it. -/
def ageLamp (s : State) (l : Nat) : State :=
  if s.flag (R.LMPl_CFG l) 0 && s.flag (R.LMPl_STAT l) 4 && !s.flag (R.LMPl_STAT l) 5 && !lampFresh s l then
    (s.setFld (R.LMPl_STAT l) 5 5 1).raise 53 0
  else s

/-- LAMP_AGE_TEST: every enabled lamp. -/
def execLampAgeTest (s : State) : Out := .next (foldN 256 ageLamp s)

/-! ### Self-test slices (R190 to R192) -/

/-- Nanoseconds until a TIME bound, and microseconds until a TRAVEL bound at V_MAX; 0 once reached. -/
def usToTime (s : State) (p : Nat) : Nat := (s.reg64 (R.POSTp_VAL_T_LO p) - s.timeNs).toInt.toNat / 1000
def usToTravel (s : State) (p : Nat) : Option Nat :=
  let v := (s.reg R.V_MAX).toNat
  let d := ((s.reg64 (R.POSTp_VAL_S_LO p)).toInt - s.mp.travel.toInt).toNat
  if v = 0 then (if d = 0 then some 0 else none) else some (d * 1000 / v)

/-- The bound of one post. -/
def usToPost (s : State) (p : Nat) : Option Nat :=
  let n := Fin.ofNat 256 p
  match s.fld (R.POSTp_CFG p) 2 1 with
  | 0 => some (usToTime s p)
  | 1 => usToTravel s p
  | _ =>
    let t := if s.mp.postTUnused.contains n then none else some (usToTime s p)
    let d := if s.mp.postSUnused.contains n then none else usToTravel s p
    match t, d with
    | some a, some b => some (min a b)
    | some a, none => some a
    | none, d => d

/-- ST_NEXT_SAFE: microseconds to the next SAFETY post; none without one. -/
def nextSafe (s : State) : Option Nat :=
  minBy (fun a b => decide (a < b)) ((List.range 256).filterMap fun p =>
    if s.flag (R.POSTp_CFG p) 0 && s.flag (R.POSTp_CFG p) 3 then usToPost s p else none)

/-- Whether the gate allows a slice: ST_NEXT_SAFE at least 3 µs + GUARD. -/
def gateOpen (s : State) : Bool :=
  match nextSafe s with
  | none => true
  | some us => decide (3 + s.fld R.ST_CTRL 15 8 ≤ us)

/-- Whether a tile has work queued: a challenge that names its logical index. -/
def workQueued (s : State) (p : Nat) : Bool :=
  tileActive s p && tileRole s p == 0 &&
    (s.au.queue ++ s.au.running ++ s.au.reading.toList).any fun c => c.atile.toNat == tileLogical s p

/-- SELFTEST_START: the AKT program at tile entry 15 starts on an IDLE tile, or the slice is deferred. -/
def execSelftestStart (i : Initiator) (v : Word) (s : State) : Out :=
  .next (s.keeperWrite i fun s =>
    let p := Fin.ofNat 36 (bits v 5 0)
    if bits v 5 0 < 36 ∧ s.flag R.ST_CTRL 0 ∧ s.tiles[p].run = .idle ∧ ¬ workQueued s p.val ∧ gateOpen s ∧ entryStart s p.val 15 ≠ 0 then
      beginRun s p 15 0
    else (s.satAdd R.ST_DEFER 31 0 1).setBit R.SN_IRQ_STAT 5)

/-- ST_AGEp in 10 ms units; a tile with no pass since the start is as old as the start. -/
def aktAge (s : State) (p : Fin 36) : Nat := (s.cycle - (s.sn.aktAt[p]).getD 0) / msCycles 10

/-- SELFTEST_AGE_EXCEEDED: an ACTIVE tile older than LFI; ES49 once per exceedance. -/
def execSelftestAgeExceeded (p : Fin 36) (s : State) : Out :=
  .next (if tileActive s p.val && decide (s.fld R.ST_CTRL 31 16 < aktAge s p) && !s.sn.aktLate.contains p then
    ({ s with sn := { s.sn with aktLate := s.sn.aktLate ++ [p] } }).raise 49 0
  else s)

end Sys2Proof.Machine
end

