-- ==== Sys2Proof/Machine/Level.lean ====
section
/-! DEFINITION. Machine/Level.lean: the level step (R304): every refusal rule of the manual, over the set an open would put in
effect. Where a rule states no code, the codes of Table 14-13 are read by their meanings (log entry 60). -/

namespace Sys2Proof.Machine

/-- A conflict: its code (Table 14-13), the first register involved and the other of a relation, or 0. -/
structure Conflict where
  code : Nat
  a : Nat
  b : Nat
  deriving DecidableEq, Repr

namespace Level

/-- A conflict where `bad` holds. -/
def range (bad : Bool) (a : Nat) : List Conflict := if bad then [⟨1, a, 0⟩] else []
def relation (bad : Bool) (a b : Nat) : List Conflict := if bad then [⟨2, min a b, max a b⟩] else []
def capacity (bad : Bool) (a : Nat) : List Conflict := if bad then [⟨3, a, 0⟩] else []
def reference (bad : Bool) (a b : Nat) : List Conflict := if bad then [⟨4, if b = 0 then a else min a b, if b = 0 then 0 else max a b⟩] else []
def state (bad : Bool) (a b : Nat) : List Conflict := if bad then [⟨5, if b = 0 then a else min a b, if b = 0 then 0 else max a b⟩] else []
/-- A relation inside one register. -/
def within (bad : Bool) (a : Nat) : List Conflict := if bad then [⟨2, a, 0⟩] else []

/-- Field [hi:lo] of `a` lies outside lo to hi. -/
def outside (v : State) (a hi lo mn mx : Nat) : Bool := decide (v.fld a hi lo < mn ∨ mx < v.fld a hi lo)
/-- A whole register lies outside a range. -/
def wordOutside (v : State) (a mn mx : Nat) : Bool := decide ((v.reg a).toNat < mn ∨ mx < (v.reg a).toNat)

/-- Conflicts of the numbers below `n` for which `p` holds. -/
def each (n : Nat) (p : Nat → Bool) (f : Nat → List Conflict) : List Conflict := ((List.range n).filter p).flatMap f

/-- A number below `k` for which `p` holds. -/
def before (k : Nat) (p : Nat → Bool) : Option Nat := (List.range k).find? p

/-- Time bounds lie in 1 to 2,000,000 µs, travel bounds in 1 to 2,000,000,000 µm (R42). -/
def badTime (v : State) (a : Nat) : Bool := wordOutside v a 1 2000000
def badTravel (v : State) (a : Nat) : Bool := wordOutside v a 1 2000000000

/-! ### Milepost (R34, R39, R42, R45) -/

/-- Enabled SSI encoder (R34). -/
def ssiOn (v : State) (n : Nat) : Bool := v.flag (R.ENCn_CFG n) 0 && v.flag (R.ENCn_CFG n) 1
def postOn (v : State) (p : Nat) : Bool := v.flag (R.POSTp_CFG p) 0

def milepost (v : State) : List Conflict :=
  range (v.reg R.V_MAX == 0) R.V_MAX ++
  within (diverse v && priEnc v == secEnc v) R.MP_CTRL ++
  range (badTime v R.DL_STILL) R.DL_STILL ++
  range (wordOutside v R.SINGLE_T 0 60000) R.SINGLE_T ++
  each 4 (ssiOn v) (fun n =>
    range (decide (v.fld (R.ENCn_CFG n) 16 12 < 9) || outside v (R.ENCn_CFG n) 31 24 3 99) (R.ENCn_CFG n)) ++
  each 4 (fun _ => true) (fun n => range (wordOutside v (R.ENCn_SSIPER n) 10 1000) (R.ENCn_SSIPER n)) ++
  each 256 (fun _ => true) (fun p => range (outside v (R.POSTp_CFG p) 2 1 0 2 || outside v (R.POSTp_CFG p) 7 4 0 6 ||
    outside v (R.POSTp_CFG p) 31 24 0 200) (R.POSTp_CFG p)) ++
  each 8 (fun _ => true) (fun j => range (v.fld (R.TRIGj_WIDTH j) 23 0 == 0) (R.TRIGj_WIDTH j))

/-! ### Sluice and the barge flow (R22, R62) -/

def setOn (v : State) (k : Nat) : Bool := v.flag (R.SETk_CFG k) 0
def netOn (v : State) (x : Nat) : Bool := v.flag (R.NETx_CFG x) 16

/-- The register of a network's verdict time bound: DL_STILL in the TRAVEL domain (R42). -/
def netTime (v : State) (x : Nat) : Nat := if v.fld (R.NETx_CFG x) 19 18 = 1 then R.DL_STILL else R.NETx_DL_T x
/-- Whether its travel bound is used. -/
def usesTravel (v : State) (x : Nat) : Bool := v.fld (R.NETx_CFG x) 19 18 != 0

def sluice (v : State) : List Conflict :=
  range (outside v R.SL_CTRL 7 4 1 15) R.SL_CTRL ++
  range (wordOutside v R.SL_RING_SIZE 1 4096) R.SL_RING_SIZE ++
  each 8 (fun _ => true) (fun c =>
    let a := R.CSIc_CFG c
    range (if v.flag a 1 then v.fld a 3 2 == 3 || decide (26 < v.fld a 15 8) else v.fld a 3 2 == 2 || decide (45 < v.fld a 15 8)) a) ++
  each 4 (fun e => v.fld (R.ETHe_CFG e) 2 1 == 3) (fun e => range true (R.ETHe_CFG e)) ++
  each 32 (fun _ => true) (fun k =>
    let eth := v.flag (R.STRs_CFG k) 1
    range ((eth && outside v (R.STRs_CFG k) 4 2 0 3) || (!eth && v.flag (R.STRs_CFG k) 28)) (R.STRs_CFG k)) ++
  each 16 (fun _ => true) (fun k =>
    range (badTime v (R.SETk_ASM_T k)) (R.SETk_ASM_T k) ++
    range (badTravel v (R.SETk_ASM_S k)) (R.SETk_ASM_S k) ++
    relation (decide ((v.reg (R.SETk_ASM_T k)).toNat ≤ v.fld (R.SETk_SKEW k) 15 0)) (R.SETk_SKEW k) (R.SETk_ASM_T k) ++
    (match before k fun j => (v.reg (R.SETk_MEMBERS j) &&& v.reg (R.SETk_MEMBERS k)) != 0 with
      | some j => reference true (R.SETk_MEMBERS j) (R.SETk_MEMBERS k)
      | none => [])) ++
  each 64 (fun x => netOn v x && setOn v (v.fld (R.NETx_CFG x) 23 20)) (fun x =>
    let k := v.fld (R.NETx_CFG x) 23 20
    relation (decide ((v.reg (netTime v x)).toNat ≤ (v.reg (R.SETk_ASM_T k)).toNat)) (R.SETk_ASM_T k) (netTime v x) ++
    relation (usesTravel v x && decide ((v.reg (R.NETx_DL_S x)).toNat ≤ (v.reg (R.SETk_ASM_S k)).toNat)) (R.SETk_ASM_S k) (R.NETx_DL_S x))

/-! ### Mooring (R71, R74, R76, R79, R90) -/

def x16 (v : State) : Bool := v.flag R.MR_CTRL 1
def obOn (v : State) (n e : Nat) : Bool := v.flag (R.OBWn_e_CFG n e) 0
def ibKind (v : State) (n e : Nat) : Nat := v.fld (R.IBWn_e_CFG n e) 2 0
def ibOn (v : State) (n e : Nat) : Bool := ibKind v n e != 0
def ibSize (v : State) (n e : Nat) : Nat := 2 ^ v.fld (R.IBWn_e_CFG n e) 8 3
def ibBus (v : State) (n e : Nat) : Nat := (v.reg64 (R.IBWn_e_BUS_LO n e)).toNat
def ibTgt (v : State) (n e : Nat) : Nat := (v.reg64 (R.IBWn_e_TGT_LO n e)).toNat
def obLo (v : State) (n e : Nat) : Nat := 0x100000 * v.fld (R.OBWn_e_OFF n e) 17 0
def obSize (v : State) (n e : Nat) : Nat := 2 ^ v.fld (R.OBWn_e_CFG n e) 10 5

/-- Two ranges share an address. -/
def overlap (a n b m : Nat) : Bool := decide (a < b + m ∧ b < a + n)

/-- The owner a bank has, or will have at the first open of the start (R343). -/
def ownerAt (s v : State) (b : Nat) : Nat := if s.mp.opened then s.bs.banks[Fin.ofNat 64 b].owner.toNat else v.fld (R.BANKb_CFG b) 3 0

/-- A range lies wholly in Basin banks of Mooring inbound. -/
def landingOk (s v : State) (a n : Nat) : Bool :=
  decide (basinBase ≤ a ∧ a + n ≤ basinBase + 0x80000 * 64) && (banksOf a n).all fun b => ownerAt s v b.val == 3

/-- The bus address of a companion address through the DATA windows of port `n`. -/
def dataBus (v : State) (n a : Nat) : Option Nat :=
  ((List.range 8).find? fun e => ibKind v n e == 1 && ibTgt v n e ≤ a && decide (a < ibTgt v n e + ibSize v n e)).map fun e =>
    ibBus v n e + (a - ibTgt v n e)

/-- Where a DATA window of port `n` begins or ends inside a range. -/
def edges (v : State) (n a len : Nat) : List Nat :=
  ((List.range 8).filter fun e => ibKind v n e == 1).flatMap fun e =>
    [ibTgt v n e, ibTgt v n e + ibSize v n e].filter fun x => a < x && decide (x < a + len)

/-- A range is reachable at the same bus addresses through DATA windows of every port named (R79, R183). -/
def reachable (v : State) (ports : List Nat) (a len : Nat) : Bool :=
  (a :: ports.flatMap fun n => edges v n a len).all fun x =>
    match ports with
    | [] => true
    | n :: rest => (dataBus v n x).isSome && rest.all fun m => dataBus v m x == dataBus v n x

/-- The ports of a Mirror entry's contexts. -/
def mnetPorts (v : State) (x : Nat) : List Nat := (bargeCtxs (v.reg (R.MNETx_CFG x))).map fun c => (portOf c).val
def mnetOn (v : State) (x : Nat) : Bool := v.flag (R.MNETx_CFG x) 16
def patOn (v : State) (r : Nat) : Bool := v.flag (R.PATr_CFG r) 0

/-- One port's own fields and windows. -/
def mooringPort (s v : State) (n : Nat) : List Conflict :=
  let c := R.RPn_CTRL n
  range (outside v c 3 1 1 5 || outside v c 5 4 0 2 || decide (v.fld c 15 8 < 10) || outside v c 23 16 1 255 || outside v c 31 24 1 255) c ++
  relation (v.fld c 5 4 == 2 && !x16 v) R.MR_CTRL c ++
  range (outside v (R.RPn_CPL_TO n) 15 0 50 50000) (R.RPn_CPL_TO n) ++
  reference ((n == 0 || !x16 v) && ((List.range 8).filter fun e => ibKind v n e == 2).length != 1) (R.IBWn_e_CFG n 0) 0 ++
  each 8 (fun _ => true) (fun e => range (outside v (R.OBWn_e_CFG n e) 10 5 20 36) (R.OBWn_e_CFG n e)) ++
  each 8 (obOn v n) (fun e =>
    relation (obLo v n e % obSize v n e != 0) (R.OBWn_e_CFG n e) (R.OBWn_e_OFF n e) ++
    (match before e fun d => obOn v n d && overlap (obLo v n d) (obSize v n d) (obLo v n e) (obSize v n e) with
      | some d => relation true (R.OBWn_e_CFG n d) (R.OBWn_e_CFG n e)
      | none => [])) ++
  each 8 (fun _ => true) (fun e =>
    let a := R.IBWn_e_CFG n e
    range (outside v a 2 0 0 3 || outside v a 8 3 12 40 || (ibKind v n e == 2 && v.fld a 8 3 != 12)) a) ++
  each 8 (ibOn v n) (fun e =>
    let a := R.IBWn_e_CFG n e
    relation (ibKind v n e == 1 && !inHold s (ibTgt v n e) (ibSize v n e)) a (R.IBWn_e_TGT_LO n e) ++
    relation (ibKind v n e == 3 && !landingOk s v (ibTgt v n e) (ibSize v n e)) a (R.IBWn_e_TGT_LO n e) ++
    (match before e fun d => ibOn v n d && overlap (ibBus v n d) (ibSize v n d) (ibBus v n e) (ibSize v n e) with
      | some d => relation true (R.IBWn_e_CFG n d) a
      | none => []))

/-- The patrol of one port: one round takes at most half the smallest AGE_MAX (R90). A region of `len` blocks takes
len × 4,096 / PAT_RATE µs. -/
def patrolPort (v : State) (n : Nat) : List Conflict :=
  let mine := (List.range 64).filter fun r => patOn v r && v.fld (R.PATr_CFG r) 1 1 == n
  let total := (mine.map fun r => 4096 * (v.reg (R.PATr_LEN r)).toNat).sum
  match minBy (fun a b => decide (v.fld (R.PATr_CFG a) 31 16 < v.fld (R.PATr_CFG b) 31 16)) mine with
  | none => []
  | some r => relation (decide (50000 * v.fld (R.PATr_CFG r) 31 16 * v.fld R.PAT_RATE 12 0 < total)) R.PAT_RATE (R.PATr_CFG r)

def mooring (s v : State) : List Conflict :=
  mooringPort s v 0 ++ mooringPort s v 1 ++
  (if x16 v then
    each 2 (fun c => v.flag (R.Cc_CFG (c + 2)) 0) (fun c => state true R.MR_CTRL (R.Cc_CFG (c + 2))) ++
    each 8 (obOn v 1) (fun e => state true R.MR_CTRL (R.OBWn_e_CFG 1 e)) ++
    each 8 (ibOn v 1) (fun e => state true R.MR_CTRL (R.IBWn_e_CFG 1 e)) ++
    each 64 (fun r => patOn v r && v.flag (R.PATr_CFG r) 1) (fun r => state true R.MR_CTRL (R.PATr_CFG r))
  else []) ++
  each 4 (fun _ => true) (fun c =>
    range (outside v (R.Cc_CFG c) 5 1 1 31) (R.Cc_CFG c) ++
    range (v.fld (R.Cc_SIG_BASE c) 24 0 % 64 != 0) (R.Cc_SIG_BASE c) ++
    range (v.fld (R.Cc_SEAL_BASE c) 24 0 % 32 != 0) (R.Cc_SEAL_BASE c) ++
    range (outside v (R.Cc_STRIP c) 15 0 16 16384 || outside v (R.Cc_STRIP c) 31 16 8 1024) (R.Cc_STRIP c)) ++
  range (outside v R.PAT_RATE 12 0 0 4000) R.PAT_RATE ++
  each 64 (fun _ => true) (fun r =>
    range (v.fld (R.PATr_CFG r) 31 16 == 0) (R.PATr_CFG r) ++ range (patOn v r && v.reg (R.PATr_LEN r) == 0) (R.PATr_LEN r)) ++
  patrolPort v 0 ++ patrolPort v 1 ++
  each 64 (fun x => mnetOn v x && !v.flag (R.MNETx_CFG x) 18) (fun x =>
    relation (!reachable v (mnetPorts v x) (ringBase v) (ringSize v)) R.SL_RING_BASE_LO (R.MNETx_CFG x))

/-! ### Mirror and the networks (R25, R98, R196, R201) -/

/-- The enabled NETx entry of a network identifier. -/
def netOf (v : State) (id : Nat) : Option Nat := (netOfId v id).map (·.val)
def mnetOf (v : State) (id : Nat) : Option Nat := (mnetOfId v id).map (·.val)

/-- A bound of a barge's own check against the network's verdict deadline: not above it, or strictly below it (R98, R151). -/
def bounded (v : State) (x tReg sReg : Nat) (strict : Bool) : List Conflict :=
  let beyond := fun a b => decide ((v.reg b).toNat < (v.reg a).toNat) || (strict && v.reg a == v.reg b)
  relation (!badTime v tReg && beyond tReg (netTime v x)) tReg (netTime v x) ++
  (if usesTravel v x then (if badTravel v sReg then range true sReg else relation (beyond sReg (R.NETx_DL_S x)) sReg (R.NETx_DL_S x)) else [])

def mnetId (v : State) (x : Nat) : Nat := v.fld (R.MNETx_CFG x) 15 0
def ctxOn (v : State) (c : Nat) : Bool := v.flag (R.Cc_CFG c) 0
def depth (v : State) (c : Nat) : Nat := v.fld (R.Cc_CFG c) 5 1 + 1

/-- The store demand of a Mirror entry (R98). -/
def demand (v : State) (x : Nat) : Nat :=
  let a := R.MNETx_CFG x
  depth v (v.fld a 21 20) * (v.fld a 29 24 + 1) * (if v.flag a 17 then 2 else 1)

def mirror (v : State) : List Conflict :=
  let on := (List.range 64).filter (mnetOn v)
  range (outside v R.MI_CTRL 15 8 1 255) R.MI_CTRL ++
  range (v.fld R.MI_LREF_BASE_LO 3 0 != 0) R.MI_LREF_BASE_LO ++
  each 64 (fun _ => true) (fun x => range (badTime v (R.MNETx_WDL_T x)) (R.MNETx_WDL_T x)) ++
  each 64 (mnetOn v) (fun x =>
    let a := R.MNETx_CFG x
    let single := v.flag a 18
    (match before x fun y => mnetOn v y && mnetId v y == mnetId v x with
      | some y => reference true (R.MNETx_CFG y) a
      | none => []) ++
    within (!single && v.fld a 21 20 == v.fld a 23 22) a ++
    reference (!ctxOn v (v.fld a 21 20)) a (R.Cc_CFG (v.fld a 21 20)) ++
    reference (!single && !ctxOn v (v.fld a 23 22)) a (R.Cc_CFG (v.fld a 23 22)) ++
    (match netOf v (mnetId v x) with
      | some n => bounded v n (R.MNETx_WDL_T x) (R.MNETx_WDL_S x) false
      | none => reference true a 0) ++
    reference ((lampsOfId v (mnetId v x)).isEmpty) a 0) ++
  capacity (decide (1024 < (on.map (demand v)).sum)) (R.MNETx_CFG (on.headD 0))

def nets (v : State) : List Conflict :=
  range ((List.range 64).any (fun x => netOn v x && v.flag (R.NETx_CFG x) 17) && outside v R.LC_CTRL 5 1 1 16) R.LC_CTRL ++
  each 64 (fun _ => true) (fun x =>
    range (outside v (R.NETx_CFG x) 19 18 0 2) (R.NETx_CFG x) ++
    range (badTime v (netTime v x)) (netTime v x) ++
    range (usesTravel v x && badTravel v (R.NETx_DL_S x)) (R.NETx_DL_S x)) ++
  each 64 (netOn v) (fun x =>
    let a := R.NETx_CFG x
    let id := v.fld a 15 0
    range (!v.flag a 24 || !v.flag a 29 || !v.flag a 30) a ++
    (match before x fun y => netOn v y && (v.fld (R.NETx_CFG y) 23 20 == v.fld a 23 20 || v.fld (R.NETx_CFG y) 13 0 == v.fld a 13 0) with
      | some y => reference true (R.NETx_CFG y) a
      | none => []) ++
    (match mnetOf v id with
      | none => reference true a 0
      | some m => relation (v.flag (R.MNETx_CFG m) 18 && (v.flag a 25 || !v.flag a 27)) (R.MNETx_CFG m) a) ++
    reference ((regionsOfId v id).isEmpty) a 0) ++
  each 4 (fun _ => true) (fun p => range (v.fld (R.VALv_CFG p) 23 8 == 0) (R.VALv_CFG p)) ++
  each 2 (fun _ => true) (fun c => range (wordOutside v (R.CANc_TX_TO c) 100 65535) (R.CANc_TX_TO c)) ++
  each 2 (fun c => v.flag (R.CANc_CFG c) 0) (fun c =>
    let n := v.fld (R.CANc_CFG c) 7 2
    relation (v.flag (R.CANc_CFG c) 1 && netOn v n && v.flag (R.NETx_CFG n) 17) (R.NETx_CFG n) (R.CANc_CFG c))

/-! ### Audit (R149, R151) -/

def auOn (v : State) (e : Nat) : Bool := v.flag (R.AUn_CFG e) 16
def auId (v : State) (e : Nat) : Nat := v.fld (R.AUn_CFG e) 15 0

/-- Seals of one barge of an entry. -/
def sealCount (v : State) (e : Nat) : Nat := ((auditLayers v (Fin.ofNat 64 e)).map fun l => l.tileRows * l.tileCols).sum

def audit (v : State) : List Conflict :=
  let on := (List.range 64).filter (auOn v)
  each 64 (fun _ => true) (fun e =>
    range (v.fld (R.AUn_CFG e) 18 17 == 3) (R.AUn_CFG e) ++
    range (outside v (R.AUn_GOAL e) 15 0 0 10000 || outside v (R.AUn_GOAL e) 31 16 0 10000) (R.AUn_GOAL e) ++
    within (decide (v.fld (R.AUn_GOAL e) 15 0 < v.fld (R.AUn_GOAL e) 31 16)) (R.AUn_GOAL e) ++
    range (v.reg (R.AUn_BUDGET e) == 0) (R.AUn_BUDGET e) ++
    range (outside v (R.AUn_WIN e) 8 0 1 256) (R.AUn_WIN e) ++
    range (badTime v (R.AUn_SEAL_T e)) (R.AUn_SEAL_T e)) ++
  each 64 (auOn v) (fun e =>
    let a := R.AUn_CFG e
    let c := v.fld a 20 19
    (match before e fun d => auOn v d && auId v d == auId v e with
      | some d => reference true (R.AUn_CFG d) a
      | none => []) ++
    reference (!ctxOn v c) a (R.Cc_CFG c) ++
    (match netOf v (auId v e) with
      | some n => bounded v n (R.AUn_SEAL_T e) (R.AUn_SEAL_S e) true
      | none => reference true a 0)) ++
  capacity (decide (16384 < (on.map fun e => sealCount v e * depth v (v.fld (R.AUn_CFG e) 20 19)).sum)) (R.AUn_CFG (on.headD 0))

/-! ### Shadow tiles and sentinel groups (R139, R172, R444) -/

/-- A tile that Beacon has retired, or that is fused off. -/
def tileOut (s : State) (p : Nat) : Bool := s.flag (R.TL_RETIRE p) 0 || s.fused.contains (Fin.ofNat 36 p)

/-- An index whose holder retired and that no ACTIVE tile has held since (R444). It is let pass in a lock cycle of the Keeper that keeps
the count in effect; a stage of the start, or one that installs another layout, must hold every index it keeps. -/
def unheld (s v : State) (l : Nat) : Bool :=
  s.lk.owner.isSome && v.fld (R.GEOM_TOKEN 0) 7 0 == s.fld (R.GEOM_TOKEN 0) 7 0 && (holder s l).isNone &&
  (List.range 36).any fun p => s.fld (R.TL_MAP p) 6 5 == 2 && tileLogical s p == l

/-- The tiles that would hold a logical index. -/
def holders (v : State) (l : Nat) : List Nat := (List.range 36).filter fun p => tileActive v p && tileLogical v p == l

def tiles (s v : State) : List Conflict :=
  let g := R.GEOM_TOKEN 0
  let n := v.fld g 7 0
  let written := fun a => s.lk.stage.any (·.1 = a)
  range (v.fld g 15 8 != 1 || decide ((if s.grade = .L then 24 else 32) < n)) g ++
  each 36 (fun _ => true) (fun p =>
    let a := R.TL_MAP p
    range (v.fld a 8 7 == 3 || (written a && decide (1 < v.fld a 6 5) && !tileOut s p)) a ++
    state (tileActive v p && tileOut s p) a 0 ++
    relation (tileActive v p && decide (n ≤ tileLogical v p)) a g ++
    range (outside v (R.TL_CFG p) 7 0 1 255 || outside v (R.TL_CFG p) 31 16 1 65535) (R.TL_CFG p)) ++
  each n (fun l => (holders v l).length != 1 && !((holders v l).isEmpty && unheld s v l)) (fun l =>
    match holders v l with
    | _ :: q :: _ => reference true g (R.TL_MAP q)
    | _ => reference true g 0)

/-- Space of a group's slots on one tile (Table 06-8). -/
def regionOk (v : State) (g p : Nat) : Bool :=
  progLimit v p ≤ slotOffset v g 0 && decide (slotOffset v g (groupSlots v g) ≤ if saveOn v p then saveBase else sramSize)

def groups (v : State) : List Conflict :=
  let on := (List.range 8).filter (groupOn v)
  each 8 (fun _ => true) (fun g => range (outside v (R.SGg_CFG g) 7 2 1 32 || outside v (R.SGg_CFG g) 14 8 1 64) (R.SGg_CFG g)) ++
  each 8 (groupOn v) (fun g =>
    let a := R.SGg_CFG g
    (match before g fun h => groupOn v h && (v.reg (R.SGg_TILES h) &&& v.reg (R.SGg_TILES g)) != 0 with
      | some h => reference true (R.SGg_TILES h) (R.SGg_TILES g)
      | none => []) ++
    (groupTiles v g).flatMap fun l => match holder v l with
      | none => []
      | some p =>
        relation (tileRole v p != (if groupLamp v g then 2 else 1)) (R.TL_MAP p) a ++
        relation (!regionOk v g p) (R.TL_CFG p) a) ++
  capacity (decide (64 < (on.map (groupSlots v)).sum)) (R.SGg_CFG (on.headD 0))

/-! ### Sentinels, envelopes, lamps, self-test (R171, R178, R181 to R185, R191) -/

def libStat (s : State) (b : Bool) : Nat := if b then s.fld R.SN_LIB_STAT 7 4 else s.fld R.SN_LIB_STAT 3 0

/-- A model of the bank that would be selected. -/
def modelIn (v : State) (m : Nat) : Option Model := modelOf v (BitVec.ofNat 12 m)

/-- An envelope rule that R181 refuses: limits of a RANGE rule, allowances of a RATE rule. -/
def envBad (r : EnvRule) : Bool :=
  let zero : FVal := .fin false 0 0
  let nan := r.lo == .nan || r.hi == .nan || (r.op == 2 && r.ps == .nan)
  nan || (if r.op == 2 then r.lo.lt zero || r.hi.lt zero || r.ps.lt zero else r.hi.lt r.lo)

def schkOn (v : State) (x : Nat) : Bool := v.flag (R.SCHKx_CFG x) 16
def envOn (v : State) (x : Nat) : Bool := v.flag (R.ENVx_CFG x) 16
def lampOn (v : State) (l : Nat) : Bool := v.flag (R.LMPl_CFG l) 0

def sentinels (s v : State) : List Conflict :=
  state (activeBank v != activeBank s && libStat s (activeBank v) != 2) R.SN_CTRL 0 ++
  range (wordOutside v R.SN_LIB_SIZE 1 16384) R.SN_LIB_SIZE ++
  range (v.fld R.ST_CTRL 31 16 == 0) R.ST_CTRL ++
  each 64 (fun _ => true) (fun x =>
    range (v.fld (R.SCHKx_CFG x) 31 24 == 0) (R.SCHKx_CFG x) ++
    range (v.fld (R.SCHKx_RULES_LO x) 4 0 != 0) (R.SCHKx_RULES_LO x) ++
    range (v.fld (R.ENVx_CFG x) 31 24 == 0) (R.ENVx_CFG x) ++
    range (v.fld (R.ENVx_TAB_LO x) 4 0 != 0) (R.ENVx_TAB_LO x)) ++
  each 64 (schkOn v) (fun x =>
    let a := R.SCHKx_CFG x
    let k := Fin.ofNat 64 x
    relation (groupOn v (v.fld a 19 17) && groupLamp v (v.fld a 19 17)) (R.SGg_CFG (v.fld a 19 17)) a ++
    reference ((netOf v (v.fld a 15 0)).isNone) a 0 ++
    reference ((modelIn v (v.fld (R.SCHKx_MODEL x) 11 0)).isNone) (R.SCHKx_MODEL x) 0 ++
    capacity (decide (65536 < ((checkRules v k).map fun r => r.rows * r.cols).sum)) a) ++
  each 64 (envOn v) (fun x =>
    let a := R.ENVx_CFG x
    let rs := envRules v (Fin.ofNat 64 x)
    (match before x fun y => envOn v y && v.fld (R.ENVx_CFG y) 15 0 == v.fld a 15 0 with
      | some y => reference true (R.ENVx_CFG y) a
      | none => []) ++
    reference ((netOf v (v.fld a 15 0)).isNone) a 0 ++
    range (rs.any envBad) a ++
    capacity (decide (65536 < (rs.map fun r => r.count * typeBytes r.type).sum)) a)

/-- The post that releases a lamp. -/
def isLampPost (v : State) (p : Nat) : Bool := postOn v p && v.fld (R.POSTp_CFG p) 7 4 == 2
def lampPost (v : State) (l : Nat) : Option Nat := (List.range 256).find? fun p => isLampPost v p && v.fld (R.POSTp_CFG p) 23 8 == l

/-- The intervals of R184, in ns and nm: the lead is 4 ms + DL_T µs, charged to travel at V_MAX mm/s. -/
def lampInterval (v : State) (l p : Nat) : List Conflict :=
  let lead := 4000 + (v.reg (R.LMPl_DL_T l)).toNat
  relation (decide (1000 * (v.reg (R.LMPl_MAXI_T l)).toNat ≤ (v.reg (R.POSTp_PER_T p)).toNat + 1000 * lead))
    (R.POSTp_PER_T p) (R.LMPl_MAXI_T l) ++
  relation (decide (1000 * (v.reg (R.LMPl_MAXI_S l)).toNat ≤ 1000 * (v.reg (R.POSTp_PER_S p)).toNat + (v.reg R.V_MAX).toNat * lead))
    (R.POSTp_PER_S p) (R.LMPl_MAXI_S l)

/-- Lamps and their posts. The limit of R42 is tested on every lamp's DL_T but that of a lamp that is disabled (DESIGN CHOICE, log entry 36). -/
def lamps (v : State) : List Conflict :=
  each 256 (isLampPost v) (fun p =>
    let a := R.POSTp_CFG p
    let l := v.fld a 23 8
    range (v.fld a 2 1 != 2) a ++
    range (v.reg (R.POSTp_PER_T p) == 0) (R.POSTp_PER_T p) ++
    range (v.reg (R.POSTp_PER_S p) == 0) (R.POSTp_PER_S p) ++
    (if l < 256 ∧ lampOn v l then reference false 0 0 else reference true a (if l < 256 then R.LMPl_CFG l else 0))) ++
  each 256 (fun _ => true) (fun l =>
    range (outside v (R.LMPl_CFG l) 15 8 1 32) (R.LMPl_CFG l) ++
    range (wordOutside v (R.LMPl_MAXI_T l) 1 2000000) (R.LMPl_MAXI_T l) ++
    range (wordOutside v (R.LMPl_MAXI_S l) 1 2000000000) (R.LMPl_MAXI_S l) ++
    range (v.reg (R.LMPl_DL_T l) == 0) (R.LMPl_DL_T l)) ++
  each 256 (lampOn v) (fun l =>
    let a := R.LMPl_CFG l
    reference ((netOf v (v.fld a 31 16)).isNone) a 0 ++
    (match lampPost v l with
      | some p => lampInterval v l p
      | none => reference true a 0) ++
    (match mnetOf v (v.fld a 31 16) with
      | some m => relation (!reachable v (mnetPorts v m) (v.reg64 (R.LMPl_IN_LO l)).toNat (v.reg (R.LMPl_IN_LEN l)).toNat)
          (R.MNETx_CFG m) (R.LMPl_IN_LO l)
      | none => []) ++
    (if v.flag a 1 then
      match modelIn v (v.fld (R.LMPl_SVIEW l) 11 0) with
      | none => reference true (R.LMPl_SVIEW l) 0
      | some m => relation m.float a (R.LMPl_SVIEW l)
    else []))

/-! ### Beacon, watchdogs, tasks (R237, R245, R258) -/

/-- Mask of the sources whose default class is C4. -/
def c4Mask : BitVec 128 := (List.range 128).foldl (fun m k => if polClass k = 4 then m ||| BitVec.ofNat 128 (2 ^ k) else m) 0

/-- Which of a source's four mask registers holds the first bit of `m`. -/
def maskRegOf (k : Nat) (m : BitVec 128) : Nat :=
  R.POLs_MASKm k (((List.range 4).find? fun j => (m >>> (32 * j)).setWidth 32 != (0 : Word)).getD 0)

def policy (v : State) : List Conflict :=
  range (outside v R.BC_CTRL 1 0 0 2 || outside v R.BC_CTRL 15 8 1 100 || outside v R.BC_CTRL 23 16 1 255) R.BC_CTRL ++
  each 128 (fun _ => true) (fun k =>
    let a := R.POLs_CFG k
    let cls := v.fld a 2 0
    let n := v.fld a 11 4
    let harbour := (8 ≤ k && k ≤ 15) || k == 90 || (k == 91 && v.fld (R.WDTw_CFG 3) 4 3 == 2)
    let m := polMask v k
    range (decide (4 < cls) || n == 0 || (3 ≤ polClass k && decide (cls < polClass k)) || (harbour && decide (1 < cls))) a ++
    range (decide (2000000000 < v.fld (R.POLs_W k) 30 0)) (R.POLs_W k) ++
    relation (v.fld (R.POLs_W k) 30 0 == 0 && decide (1 < n)) a (R.POLs_W k) ++
    (let bad := m &&& (c4Mask ||| BitVec.ofNat 128 (2 ^ k))
     within (bad != 0) (maskRegOf k bad)) ++
    range (decide (100 < v.fld (R.POLs_MINT k) 6 0)) (R.POLs_MINT k) ++
    relation (v.fld (R.POLs_MINT k) 6 0 == 0 && m != 0) (maskRegOf k m) (R.POLs_MINT k))

def watchdogs (v : State) : List Conflict :=
  range (outside v R.WD_CTRL 6 0 1 100) R.WD_CTRL ++
  each 2 (fun w => v.fld (R.WDTw_CFG w) 2 0 != 7) (fun w => range true (R.WDTw_CFG w)) ++
  each 4 (fun _ => true) (fun w =>
    let dom := v.fld (R.WDTw_CFG w) 4 3
    range (if w < 3 then dom != w else dom == 3) (R.WDTw_CFG w) ++
    range (v.fld (R.WDTw_OPEN w) 23 0 == 0) (R.WDTw_OPEN w) ++
    relation (decide (v.fld (R.WDTw_CLOSE w) 23 0 ≤ v.fld (R.WDTw_OPEN w) 23 0)) (R.WDTw_OPEN w) (R.WDTw_CLOSE w))

/-- Whether an enabled Mirror or Audit entry has the identifier and context (R258). -/
def netCtx (v : State) (id c : Nat) : Bool :=
  (List.range 64).any fun x =>
    (mnetOn v x && mnetId v x == id && (bargeCtxs (v.reg (R.MNETx_CFG x))).any fun k => k.val == c) ||
    (auOn v x && auId v x == id && v.fld (R.AUn_CFG x) 20 19 == c)

def tasks (v : State) : List Conflict :=
  each 64 (fun _ => true) (fun e =>
    let a := R.TSe_CFG e
    let p := v.fld a 10 3
    range (v.fld a 26 19 == 0 || decide (8 < v.fld a 30 27)) a ++
    within (decide (v.fld a 26 19 < v.fld a 18 11) || (v.flag a 1 && v.fld a 30 27 != 0)) a ++
    range (!v.flag a 2 && decide (v.fld (R.TSe_PER e) 23 0 < 100)) (R.TSe_PER e) ++
    relation (v.flag a 2 && v.fld (R.POSTp_CFG p) 2 1 == 1) a (R.POSTp_CFG p) ++
    reference (v.flag a 1 && !netCtx v (v.fld (R.TSe_BIND e) 15 0) (v.fld (R.TSe_BIND e) 17 16)) (R.TSe_BIND e) 0)

/-! ### Safe I/O, Seal, Weir (R317, R319) -/

def safeIo (v : State) : List Conflict :=
  within (decide (v.fld R.BRK_VS_CFG 31 16 ≤ v.fld R.BRK_VS_CFG 15 0)) R.BRK_VS_CFG ++
  each 4 (fun _ => true) (fun n =>
    let t := R.BRKn_TIME n
    let i := R.BRKn_ILIM n
    range (outside v t 7 0 1 50 || outside v t 15 8 1 100 || outside v t 23 16 10 100 || outside v t 29 24 1 60) t ++
    within (decide (v.fld t 23 16 ≤ v.fld t 7 0)) t ++
    within (decide (v.fld i 9 0 ≤ v.fld i 29 20) || decide (v.fld i 19 10 < v.fld i 9 0)) i) ++
  each 8 (fun _ => true) (fun i =>
    let a := R.SINi_CFG i
    range (outside v a 15 8 1 200 || outside v a 24 16 5 500) a ++ relation (v.flag a 2 && !v.flag R.SIO_CTRL 1) R.SIO_CTRL a)

/-- Greatest TJ_LIMIT of the grade, 0.1 °C (Table 00-1). -/
def tjMax : Grade → Int
  | .A => 1250
  | .M => 1100
  | .L => 1100

/-- Steps of the sequencer table up to its END. -/
def seqAction (v : State) (k : Nat) : Nat := v.fld (R.SEQs_CFG k) 3 0
def seqSteps (v : State) : List Nat := (List.range 16).takeWhile fun k => seqAction v k != 0

/-- Pins an earlier EN_HIGH step has raised. -/
def raisedBefore (v : State) (k : Nat) : Nat :=
  (((seqSteps v).filter fun j => j < k && seqAction v j == 1).map fun j => v.fld (R.SEQs_CFG j) 23 16).foldl (· ||| ·) 0

def weir (s v : State) : List Conflict :=
  range (outside v R.LK_HOLD 15 0 100 60000) R.LK_HOLD ++
  range (outside v R.START_TMO 15 0 1000 60000) R.START_TMO ++
  range (decide (tjMax s.grade < (BitVec.ofNat 16 (v.fld R.TJ_LIMIT 15 0)).toInt)) R.TJ_LIMIT ++
  range (outside v R.SEQ_CTRL 31 16 100 10000) R.SEQ_CTRL ++
  each 16 (fun _ => true) (fun c =>
    range (v.fld (R.ACHc_CFG c) 4 1 == 0 || v.fld (R.ACHc_CFG c) 31 16 == 0) (R.ACHc_CFG c) ++
    within (decide (v.fld (R.ACHc_WIN c) 31 16 ≤ v.fld (R.ACHc_WIN c) 15 0)) (R.ACHc_WIN c)) ++
  each 16 (fun _ => true) (fun k =>
    range (decide (6 < seqAction v k) || ((seqAction v k == 2 || seqAction v k == 4) && v.fld (R.SEQs_CFG k) 15 8 == 0)) (R.SEQs_CFG k)) ++
  (seqSteps v).flatMap (fun k => within (seqAction v k == 1 && (v.fld (R.SEQs_CFG k) 23 16 &&& raisedBefore v k) != 0) (R.SEQs_CFG k)) ++
  each 2 (fun b => v.fld (R.PMBb_CFG b) 1 0 == 3) (fun b => range true (R.PMBb_CFG b))

/-! ### Hold, Basin, Towpath, Keeper, Lantern (R336, R343, R344, R366, R381, R395, R409) -/

def hold (v : State) : List Conflict :=
  let base := (v.reg R.HD_REC_BASE_LO).toNat + 2 ^ 32 * v.fld R.HD_REC_BASE_HI 7 0
  let lo := base + 0x100000 * v.fld R.HD_REC_LOG 10 0
  let hi := base + 0x100000 * v.fld R.HD_REC_SIZE 14 0
  range (outside v R.HD_SCRUB_PER 10 0 10 1440) R.HD_SCRUB_PER ++
  range (v.fld R.HD_QOS 3 0 == 0 || v.fld R.HD_QOS 7 4 == 0 || v.fld R.HD_QOS 11 8 == 0 || v.fld R.HD_QOS 15 12 == 0) R.HD_QOS ++
  range (outside v R.HD_REC_SIZE 14 0 17 16384) R.HD_REC_SIZE ++
  range (outside v R.HD_REC_LOG 10 0 16 1024) R.HD_REC_LOG ++
  range (v.fld R.HD_REC_BASE_LO 19 0 != 0) R.HD_REC_BASE_LO ++
  relation (decide (ringBase v < lo ∨ hi < ringBase v + ringSize v)) R.SL_RING_BASE_LO R.HD_REC_BASE_LO

def basin (s v : State) : List Conflict :=
  each 64 (fun _ => true) (fun b =>
    let a := R.BANKb_CFG b
    range (decide (6 < v.fld a 3 0) || (v.flag a 4 && decide (b < 32))) a ++
    state (s.mp.opened && v.fld a 3 0 != s.fld a 3 0) a 0)

/-- The port enables Table 18-2 gives a role. -/
def rolePorts (role q : Nat) : Bool :=
  match role with
  | 0 => false
  | 1 => decide (q < 2)
  | _ => true

def towpath (s v : State) : List Conflict :=
  let c := R.TP_CFG
  let role := v.fld c 2 0
  range (decide (4 < role) || (v.flag c 3 && outside v c 25 16 10 1000)) c ++
  within (v.flag c 3 && role != 3) c ++
  each 4 (fun q => decide (role ≤ 4) && v.flag (R.TPq_CFG q) 0 != rolePorts role q) (fun q => relation true c (R.TPq_CFG q)) ++
  within (decide (v.fld R.TP_STOP_CFG 3 2 < v.fld R.TP_STOP_CFG 1 0)) R.TP_STOP_CFG ++
  range (outside v R.TP_TIME_CFG 2 0 3 7 || outside v R.TP_TIME_CFG 15 8 1 100) R.TP_TIME_CFG ++
  range (outside v R.TP_TOFF_LIM 7 0 1 255) R.TP_TOFF_LIM ++
  range (outside v R.TP_HQ 15 8 1 255 || outside v R.TP_HQ 23 16 1 255) R.TP_HQ ++
  relation (ownerAt s v (v.fld R.TP_HQ 5 0) != 2) R.TP_HQ (R.BANKb_CFG (v.fld R.TP_HQ 5 0)) ++
  (if s.mp.opened then
    state (v.fld c 7 0 != s.fld c 7 0) c 0 ++
    each 4 (fun q => v.flag (R.TPq_CFG q) 0 != s.flag (R.TPq_CFG q) 0) (fun q => state true (R.TPq_CFG q) 0) ++
    state (v.reg R.TP_HQ != s.reg R.TP_HQ) R.TP_HQ 0
  else [])

def keeperLantern (s v : State) : List Conflict :=
  range ((v.reg R.KC_HWPERM &&& 0x1010B) != 0) R.KC_HWPERM ++
  state (v.flag R.LN_DUMP_CFG 6 && ownerAt s v (v.fld R.LN_DUMP_CFG 5 0) != 6) R.LN_DUMP_CFG 0

/-- Every refusal rule, over the view `v` that an open would put in effect, with the hardware as it is in `s`. -/
def all (s v : State) : List Conflict :=
  milepost v ++ sluice v ++ mooring s v ++ mirror v ++ nets v ++ audit v ++ tiles s v ++ groups v ++ sentinels s v ++ lamps v ++
  policy v ++ watchdogs v ++ tasks v ++ safeIo v ++ weir s v ++ hold v ++ basin s v ++ towpath s v ++ keeperLantern s v

/-- The conflict whose first register has the lowest address (R304). -/
def first (cs : List Conflict) : Option Conflict :=
  cs.foldl (fun m c => match m with
    | none => some c
    | some d => if c.a < d.a then some c else some d) none

end Level

/-- Value a written stage copy puts in effect: only staged bits change (R6). -/
def stagedValue (s : State) (a : Nat) (v : Word) : Word :=
  let m := match regRow a with | some r => r.rws | none => 0
  (s.reg a &&& ~~~m) ||| (v &&& m)

/-- The registers with every written stage copy in place. -/
def withStage (s : State) : State := s.lk.stage.foldl (fun v p => v.setReg p.1 (stagedValue s p.1 p.2)) s

/-- LEVEL's judgement of the stage: the conflict it stops at, if any. -/
def levelStage (s : State) : Option Conflict := Level.first (Level.all s (withStage s))

end Sys2Proof.Machine
end

