-- ==== Sys2Proof/Machine/LockCycle.lean ====
section
/-! DEFINITION. Machine/LockCycle.lean: the lock-cycle controller (R303 to R307) and what an open changes in every block. -/

namespace Sys2Proof.Machine

/-! ### What an open changes beside the registers

Each function takes the state before the open, `o`, and the state that already shows the new registers, `s`. -/

/-- Counters of the sources whose N, W or WUNIT change are cleared (R230); those of a source with a glint open once the glint's
result is counted (R414). -/
def openCounters (o s : State) : State :=
  let changed := fun (k : Nat) => bits (o.reg (R.POLs_CFG k)) 11 3 != bits (s.reg (R.POLs_CFG k)) 11 3 || o.reg (R.POLs_W k) != s.reg (R.POLs_W k)
  let glinted := fun (k : BitVec 7) => s.bc.glints.any fun g => g.src == k || g.fail == k
  let ks := (List.range 128).filter changed
  let s := ks.foldl (fun s k => if glinted (BitVec.ofNat 7 k) then s else s.setReg (R.POLs_CNT k) 0) s
  { s with bc := { s.bc with
      counters := s.bc.counters.filter fun c => !(changed c.src.toNat && !glinted c.src)
      deferred := s.bc.deferred ++ (ks.map (BitVec.ofNat 7)).filter glinted } }

/-- A watchdog that waits for its domain to leave reset, and that the open binds to another, counts on at once unless that one is held
too (R248). -/
def movedDog (s : State) (w : Fin 4) (now : Nat) (d : Watchdog) : Watchdog :=
  if d.base.isNone && !domainHeld s w then { d with base := some now } else d

/-- A watchdog's count starts at 0 at the open that enables it, or that changes its OPEN or CLOSE (R244). -/
def openDog (o : State) (s : State) (w : Nat) : State :=
  let k := Fin.ofNat 4 w
  let moved := o.reg (R.WDTw_OPEN w) != s.reg (R.WDTw_OPEN w) || o.reg (R.WDTw_CLOSE w) != s.reg (R.WDTw_CLOSE w)
  let now := dogNow s k
  if !dogOn s k then (if dogOn o k then updDog s k fun d => { d with base := none, armed := none } else s)
  else if !dogOn o k then updDog s k fun d => { d with base := some now, armed := none }
  else
    let s := if moved then updDog s k fun d => { d with base := d.base.map fun _ => now } else s
    if dogDomain o w != dogDomain s w then updDog s k (movedDog s k now) else s

/-- The registers of an entity. -/
def entityRegs (s : State) (e : Nat) : List Word :=
  [s.reg (R.TSe_CFG e), s.reg (R.TSe_PER e), s.reg (R.TSe_SEQ_LO e), s.reg (R.TSe_SEQ_HI e), s.reg (R.TSe_BIND e)]

/-- An entity's cycle is counted from the open that enables it; a changed one judges its next boundary for over-alive only (R255, R257). -/
def openEntity (o : State) (s : State) (e : Nat) : State :=
  let k := Fin.ofNat 64 e
  if !s.flag (R.TSe_CFG e) 0 then s
  else if !o.flag (R.TSe_CFG e) 0 then updEntity s k (freshEntity s.cycle)
  else if entityRegs o e != entityRegs s e then updEntity s k fun x => { x with first := true }
  else s

/-- The first frame after a stream is enabled restarts it, without ES17 (R59). -/
def openStream (o : State) (s : State) (i : Nat) : State := if strOn s i && !strOn o i then dueRestart s true i else s

/-- A change of a Tally unit's owner ends its computation (R359). -/
def openUnit (o : State) (s : State) (u : Nat) : State :=
  if o.fld R.TLY_ASSIGN (2 * u + 1) (2 * u) != s.fld R.TLY_ASSIGN (2 * u + 1) (2 * u) then endUnit s (Fin.ofNat 16 u) else s

/-- A manifest entry in the form of Table 08-1. -/
def modelBytes (m : Model) : List Byte :=
  padTo 64 (bytesLE 2 m.num.toNat ++ [BitVec.ofNat 8 (bit m.float + 2 * bit m.strict), BitVec.ofNat 8 m.variants.length] ++
    bytesLE 4 m.viewLen.toNat ++ padTo 48 (m.variants.flatMap fun v =>
      [BitVec.ofNat 8 v.tiles, BitVec.ofNat 8 v.entry] ++ bytesLE 2 v.partKib ++ bytesLE 4 v.off ++ [0, 0, 0, 0]))

/-- M_LIBRARY: the manifest of the bank selected at the last open, or zeros where none is VALID (R171, R302). -/
def libraryMeasure (s : State) : List Byte :=
  if Level.libStat s (activeBank s) = 2 then Sm3.hash ((manifest s (activeBank s)).flatMap modelBytes) else List.replicate 32 0

/-- A new selection of the library empties every resident slot (R171). -/
def openLibrary (o s : State) : State :=
  if activeBank o != activeBank s then { s with sn := { s.sn with slots := s.sn.slots.map fun _ => emptySlot } } else s

/-- The coverages of an Audit entry count from its enabling (R165). -/
def openCover (o : State) (s : State) (e : Nat) : State :=
  if s.flag (R.AUn_CFG e) 16 && !o.flag (R.AUn_CFG e) 16 then
    let s := s.setReg (R.AUn_COV e) 0
    { s with au := { s.au with cover := s.au.cover.set (Fin.ofNat 64 e) [] } }
  else s

/-- The registers of posts. -/
def isPostReg (a : Nat) : Bool := decide (0x30201000 ≤ a ∧ a < 0x30203000)

/-- The table of posts before the first open of this cycle, and the registers that the opens of the cycle have written (R44). -/
def keepTable (o : State) : Option PostTable :=
  let w := (o.lk.stage.map (·.1)).filter isPostReg
  match o.mp.postTable with
  | some t => some { t with written := t.written ++ w }
  | none => some ⟨o.regs.filter fun c => isPostReg c.1, o.mp.postTUnused, o.mp.postSUnused, w⟩

/-- An encoder that an open enables has no past: no Z pulse, no SSI value and no estimates before it (R33, R34, R36). -/
def openEncoder (o : State) (s : State) (n : Nat) : State :=
  if s.flag (R.ENCn_CFG n) 0 && !o.flag (R.ENCn_CFG n) 0 then
    updEnc s (Fin.ofNat 4 n) fun e => { e with zSeen := false, zCount := 0, ssiLast := none, ssiRun := 0, ssiAt := none, hist := [] }
  else s

/-- A post whose registers are written uses its bounds again (R45; log entry 87); the posts of this cycle are tested on the table before
the open (R44). -/
def openPosts (o s : State) : State :=
  let fresh := fun (p : Fin 256) => o.lk.stage.any fun x => R.POSTp_VAL_T_LO p ≤ x.1 && decide (x.1 < R.POSTp_VAL_T_LO p + 0x20)
  { s with mp := { s.mp with postTable := keepTable o, postTUnused := s.mp.postTUnused.filter (!fresh ·),
                             postSUnused := s.mp.postSUnused.filter (!fresh ·) } }

/-- A VALID pin whose configuration is written follows its new network (R207). -/
def openVal (o : State) (s : State) (v : Nat) : State :=
  if o.lk.stage.any (·.1 = R.VALv_CFG v) then valRefresh s (Fin.ofNat 4 v) else s

/-- A safe input takes the state its contacts give under the new configuration (R275). -/
def openSin (o : State) (s : State) (i : Nat) : State :=
  let k := Fin.ofNat 8 i
  if s.reg (R.SINi_CFG i) = o.reg (R.SINi_CFG i) then s
  else if !s.flag (R.SINi_CFG i) 0 then updSin s k fun x => { x with state := .demand, cross := false, badA := 0, badB := 0 }
  else
    let old := if o.flag (R.SINi_CFG i) 0 then s.sio.sins[k].state else .demand
    let st := sinNext (s.flag (R.SINi_CFG i) 1) old s.sio.sins[k].a s.sio.sins[k].b
    updSin s k fun x => { x with state := st, since := if st == .discrepant && x.state != .discrepant then s.cycle else x.since }

/-- A brake channel that is enabled is APPLIED, or LOCKED where lock-out is in force; one that is disabled is OFF (Table 13-3). -/
def openBrake (o : State) (s : State) (n : Nat) : State :=
  let k := Fin.ofNat 4 n
  match o.flag (R.BRKn_CFG n) 0, s.flag (R.BRKn_CFG n) 0 with
  | false, true => gatesOff s k (if isLocked s k then .locked else .applied)
  | true, false => (gatesOff s k .off).setFld (R.BRKn_REQ n) 0 0 0
  | _, _ => s

/-- The initial owners of the Basin banks, at the first open of a start (R343). -/
def openBanks (o s : State) : State :=
  if o.mp.opened then s
  else foldN 64 (fun s b => updBank s (Fin.ofNat 64 b) fun x => { x with owner := BitVec.ofNat 4 (s.fld (R.BANKb_CFG b) 3 0) }) s

/-- Tiles: one that becomes ACTIVE leaves OFF and, as a spare chosen after the start, has a slice to pass (R192); one that leaves ACTIVE is held in reset (Table 06-13); a retired or fused tile keeps
its state. -/
def openTile (o : State) (s : State) (p : Nat) : State :=
  let k := Fin.ofNat 36 p
  if Level.tileOut o p then s.setFld (R.TL_MAP p) 6 5 (o.fld (R.TL_MAP p) 6 5)
  else if tileActive s p && s.tiles[k].run == .off then
    let s := updTile s k fun t => { t with run := .idle }
    if o.wr.ready then { s with sn := { s.sn with unproved := s.sn.unproved ++ [k] } } else s
  else if tileActive o p && !tileActive s p then
    let s := loseRunsOn (updTile (tileLost s k) k fun t => { clearTile t with run := .off }) k
    { s with sn := { s.sn with unproved := s.sn.unproved.filter (· ≠ k) } }
  else s

/-- Slots of the models that use a tile which the open takes from its logical index are emptied (R175): on the old mapping. -/
def openSlots (o : State) (v : State) : State :=
  foldN 36 (fun s p =>
    if tileActive o p && (!tileActive v p || tileLogical v p != tileLogical o p) then emptySlotsOf s (tileLogical o p) else s) o

/-- A port that the new registers no longer enable leaves SERVING, or is OFF, without a source (R92). -/
def openPort (v : State) (s : State) (n : Nat) : State :=
  let k := Fin.ofNat 2 n
  if !portEnabled v k && (s.mr.ports[k].state != .off || s.mr.ports[k].starting) then leaveServing s k else s

/-- TRAVEL's quality: at the first open from the encoders as they stand, later as any loss gives it (R37, R38). -/
def openQuality (o s : State) : State :=
  if o.mp.opened then setQuality s (worseQuality s)
  else setQuality { s with mp := { s.mp with opened := true } } (qualityNow s)

/-- Every written stage copy in effect, and what follows from it in each block. -/
def applyStage (o : State) : State :=
  let v := withStage o
  let s := foldN 2 (openPort v) (openSlots o v)
  let s := { s with regs := v.regs }
  let s := foldN 36 (openTile o) s
  let s := openBanks o (openPosts o (openLibrary o (openCounters o s)))
  let s := foldN 4 (openEncoder o) s
  let s := foldN 4 (openDog o) s
  let s := syncFreeze (foldN 64 (openEntity o) s)
  let s := foldN 32 (openStream o) s
  let s := foldN 64 (openCover o) (foldN 16 (openUnit o) s)
  let s := foldN 4 (openVal o) s
  let s := foldN 8 (openSin o) s
  let s := foldN 4 (openBrake o) s
  let s := retestModels (brakesCheck (markGap o (openQuality o s)))
  { s with sn := { s.sn with measure := libraryMeasure s } }

/-- A stop of this cycle is judged under the IN bits before the open (R381). -/
def keepStopCfg (s : State) : State :=
  if s.lk.openedAt = some s.cycle then s else { s with tp := { s.tp with inBefore := s.reg R.TP_STOP_CFG } }

/-- The open (R305): applied whole, the stage back to IDLE with status OPENED. -/
def openStage (s : State) : State :=
  let s := applyStage (keepStopCfg s)
  let s := { s with lk := { s.lk with state := .idle, owner := none, code := 0xA, opens := s.lk.opens + 1, stage := [], openedAt := some s.cycle } }
  (s.setReg R.LK_OPEN_T s.now.t).setBit R.SE_IRQ_STAT 3

/-- The open of a levelled stage, after the checks of R306: STALE, back to FILLING, where one now fails. -/
def tryOpen (s : State) : State :=
  match levelStage s with
  | some _ => { s with lk := { s.lk with state := .filling, code := 6 } }
  | none => openStage s

/-! ### LK_CMD (R303) -/

/-- An initiator may command a lock cycle: a Keeper pair that is not a standby pair (R327). -/
def lockWrite (s : State) (i : Initiator) (ok : State → State) : State :=
  s.keeperWrite i fun t =>
    let k : Fin 2 := if i = .k1 then 1 else 0
    if s.kc.pairs[k] = .standby then s.busError i else ok t

/-- LK_BEGIN: from IDLE only; every stage copy holds the value in effect, none is written. -/
def execLkBegin (i : Initiator) (s : State) : Out :=
  .next (lockWrite s i fun t =>
    if s.lk.state ≠ .idle then s.busError i
    else { t with lk := { t.lk with state := .filling, owner := some i, begun := t.cycle, stage := [] } })

/-- LK_LEVEL: from FILLING, by the owner. -/
def execLkLevel (i : Initiator) (s : State) : Out :=
  .next (lockWrite s i fun t =>
    if s.lk.state = .filling ∧ s.lk.owner = some i then { t with lk := { t.lk with state := .levelling } } else s.busError i)

/-- LEVEL_DONE (R304): LEVEL_OK and LEVELLED, or the first conflict's code and registers and FILLING. -/
def execLevelDone (s : State) : Out :=
  .next (if s.lk.state ≠ .levelling then s
    else match levelStage s with
      | none => ({ s with lk := { s.lk with state := .levelled, code := 0 } }).setBit R.SE_IRQ_STAT 3
      | some c =>
        let s := { s with lk := { s.lk with state := .filling, code := BitVec.ofNat 4 c.code } }
        ((s.setReg R.LK_CONF_ADDR1 (BitVec.ofNat 32 c.a)).setReg R.LK_CONF_ADDR2 (BitVec.ofNat 32 c.b)).setBit R.SE_IRQ_STAT 3)

/-- LK_OPEN (R303, R305, R306): of a levelled stage, by its owner; with no levelled stage it only sets NOT_LEVELLED, but in the cycle of
a LOCKOPEN post's open the two are one open. -/
def execLkOpen (i : Initiator) (s : State) : Out :=
  .next (lockWrite s i fun t =>
    if s.lk.state = .idle then (if s.lk.openedAt = some s.cycle then t else { t with lk := { t.lk with code := 9 } })
    else if s.lk.owner ≠ some i then s.busError i
    else if s.lk.state = .levelled then tryOpen t
    else { t with lk := { t.lk with code := 9 } })

/-- LK_DISCARD: by the owner, outside IDLE. -/
def execLkDiscard (i : Initiator) (s : State) : Out :=
  .next (lockWrite s i fun t =>
    if s.lk.state ≠ .idle ∧ s.lk.owner = some i then dropStage t 7 else s.busError i)

/-- STAGE_EXPIRED: LK_HOLD milliseconds after BEGIN. -/
def execStageExpired (s : State) : Out :=
  .next (if s.lk.state ≠ .idle ∧ msCycles (s.fld R.LK_HOLD 15 0) ≤ s.cycle - s.lk.begun then dropStage s 8 else s)

/-- GEOM_TOKEN and the shared tile registers answer in every tile window (Table 06-18): their home is tile 0's. -/
def homeAddr (a : Nat) : Nat :=
  if 0x31000000 ≤ a ∧ a < 0x31240000 ∧ 0x60 ≤ a % 0x10000 ∧ a % 0x10000 < 0x70 then 0x31000000 + a % 0x10000 else a

/-- Whether a register has staged bits. -/
def isStaged (a : Nat) : Bool := match regRow a with | some r => r.rws != 0 | none => false

/-- Put a value into a stage copy and mark it written. -/
def stageCopy (s : State) (a : Nat) (v : Word) : State :=
  { s with lk := { s.lk with state := .filling, stage := s.lk.stage.filter (·.1 ≠ a) ++ [(a, v)] } }

/-- STAGED_WRITE (R303): the owner's, while FILLING or LEVELLED; every other is refused. -/
def execStagedWrite (i : Initiator) (a : Nat) (v : Word) (s : State) : Out :=
  .next (if !isStaged (homeAddr a) then s
    else lockWrite s i fun t =>
      if s.lk.owner = some i ∧ (s.lk.state = .filling ∨ s.lk.state = .levelled) then stageCopy t (homeAddr a) v
      else s.busError i)

end Sys2Proof.Machine
end

