-- ==== Sys2Proof/Machine/Memory.lean ====
section
/-! DEFINITION. Machine/Memory.lean: accesses of the cores to Hold and to the on-chip memories, the scrub and calibration of Hold, the
recorder's plan entries, hand-overs and march tests of Basin (R12, R13, R330 to R350, R396, R397). -/

namespace Sys2Proof.Machine

/-- An access that its target does not take yet: no response until it is served. -/
def accessWaits (s : State) : State := { s with bus := .none }

/-- The data of a read: up to 8 bytes, little-endian. -/
def readData (s : State) (a n : Nat) : State := s.busOk (BitVec.ofNat 64 (natLE (s.bytes a (min n 8))))


/-- Whether an operation reads stored words: a read, or a write that merges. -/
def opReads (a : Nat) : MemOp → Bool
  | .read _ => true
  | .write d => !wholeWords a d.length

/-! ### Hold (R330 to R335) -/


/-- Serve an admitted operation (R13). -/
def holdServe (s : State) (a : Nat) : MemOp → State
  | .read n => readData (holdBytes s a n false) a n
  | .write d => (putHold s a d).busOk 0

/-- One of a pair's windows maps onto a range, and admits the operation (R391). -/
def windowReaches (s : State) (k : Fin 2) (a n : Nat) (write : Bool) : Bool :=
  (List.range 4).any fun w =>
    let c := R.KC_Kp_KWn_CFG k w
    s.flag c 0 && (!write || s.flag c 1) && s.fld c 26 16 == a / 2 ^ 29 && (a + (n - 1)) / 2 ^ 29 == a / 2 ^ 29

/-- A Keeper pair reaches Hold through its windows KW0 to KW3 alone (R391, R397). -/
def reachesHold (s : State) (i : Initiator) (a n : Nat) (write : Bool) : Bool :=
  match i with
  | .k0 => windowReaches s 0 a n write
  | .k1 => windowReaches s 1 a n write
  | _ => true

/-- An admitted access to Hold is served (R332, R335): its protections, and what the code finds. -/
def holdAdmitted (i : Initiator) (a : Nat) (op : MemOp) (e : Ecc) (s : State) : State :=
  let n := opLen op
  if isWrite op && holdProtected s a n then holdRefusal (s.busError i)
  else match if opReads a op then holdEcc s a n e else .clean with
    | .clean => holdServe s a op
    | .corrected => holdServe (holdCorrected s a) a op
    | .uncorrectable => (holdUncorrectable s ((holdUncIn s a n).getD a)).busError i

/-- An access of a core to Hold (R330, R396, R397): until the fill ends it waits (R313). -/
def holdAccess (i : Initiator) (a : Nat) (op : MemOp) (e : Ecc) (s : State) : State :=
  let n := opLen op
  if !s.admitted i || !inHold s a n || !reachesHold s i a n (isWrite op) then s.refuse i
  else if !s.hd.filled then updHd (accessWaits s) fun h => { h with waits := h.waits ++ [⟨i, a, op, e⟩] }
  else holdAdmitted i a op e s

/-- HOLD_ACCESS: at a physical address. -/
def execHoldAccess (i : Initiator) (a : BitVec 40) (op : MemOp) (e : Ecc) (s : State) : Out := .next (holdAccess i a.toNat op e s)

/-- Usable bytes of Hold. -/
def holdUsable (s : State) : Nat := holdTop s - holdBase

/-- HD_SCRUB_PER in TCLK cycles. -/
def scrubPeriod (s : State) : Nat := msCycles (60000 * s.fld R.HD_SCRUB_PER 10 0)

/-- The next word of the scrub is due: the words of a pass spread over HD_SCRUB_PER (R333, Table 16-7; log entry 101). -/
def scrubDue (s : State) : Bool := decide (s.hd.scrub * scrubPeriod s ≤ holdUsable s * (s.cycle - s.hd.scrubFrom))

/-- The scrub moves to the next word; past the last one a pass is complete. -/
def scrubNext (s : State) : State :=
  if s.hd.scrub + 16 < holdUsable s then updHd s fun h => { h with scrub := h.scrub + 16 }
  else ((updHd s fun h => { h with scrub := 0, scrubPassAt := s.cycle, scrubFrom := h.scrubFrom + scrubPeriod s }).wrapInc R.HD_SCRUB_STAT 31 16).setBit R.HD_IRQ_STAT 3

/-- SCRUB_READ (R333): from the end of the fill, while HD_CTRL enables it. A write-back of a corrected word changes no data. -/
def execScrubRead (e : Ecc) (s : State) : Out :=
  .next (if !s.hd.filled || !s.flag R.HD_CTRL 0 || !s.flag R.HD_CTRL 1 || !scrubDue s then s
    else
      let a := holdBase + s.hd.scrub
      match holdEcc s a 16 e with
      | .clean => scrubNext s
      | .corrected => scrubNext (holdCorrected s a)
      | .uncorrectable => scrubNext (holdUncorrectable s a))

/-- REFRESH_RATE_CHECK (R334): every 16 ms; ES67's line stands while any device's indication calls for it. -/
def execRefreshRateCheck (c : Fin 16) (rate : BitVec 5) (s : State) : Out :=
  .next <| if !readDue s s.hd.rateAt[c] (msCycles 16) then s else
  let s := updHd s fun h => { h with rates := h.rates.set c rate, rateAt := h.rateAt.set c (some s.cycle) }
  let bad := s.hd.rates.any Config.refreshAlarm
  (if Config.refreshAlarm rate then (lnErr s (lnHold c.val)).setBit R.HD_IRQ_STAT 4 else s).level 67 bad

/-- ZQ_CALIBRATION (R334): every 100 ms; a failure is counted and raises ES66. -/
def execZqCalibration (c : Fin 16) (ok : Bool) (s : State) : Out :=
  .next (if !readDue s s.hd.zqAt[c] (msCycles 100) then s else
    let s := updHd s fun h => { h with zqAt := h.zqAt.set c (some s.cycle) }
    if ok then s else ((lnErr s (lnHold c.val)).satAdd (R.HD_CHc_STAT c) 15 8 1).raise 66 0)

/-- RECORDER_PLAN_APPEND (R337): the write to HD_REC_PUT15; a slot whose write fails raises ES69 and is lost. -/
def execRecorderPlanAppend (i : Initiator) (v : Word) (writeFailed : Bool) (s : State) : Out :=
  .next (s.keeperWrite i fun s =>
    let s := s.setReg (R.HD_REC_PUTn 15) v
    if writeFailed then slotLost s
    else logSlot s ⟨true, (List.range 15).flatMap fun n => bytesLE 4 (s.reg (R.HD_REC_PUTn n)).toNat⟩)

/-! ### Basin hand-over (R341, R342) -/

/-- Refuse a hand-over with its code: ES74, a bus error response. -/
def handoverRefused (s : State) (i : Initiator) (b : Fin 64) (code : BitVec 4) : State :=
  (((updBank s b fun x => { x with code := code }).busError i).setBit R.BS_IRQ_STAT 1).raise 74 0

/-- A bank named by an enabled LANDING entry, a landing strip or the Lantern dump (IN_USE). -/
def bankInUse (s : State) (b : Fin 64) : Bool :=
  let lo := basinBase + 0x80000 * b.val
  (List.range 2).any (fun n => (List.range 8).any fun e =>
    s.fld (R.IBWn_e_CFG n e) 2 0 == 3 && meets (s.reg64 (R.IBWn_e_TGT_LO n e)).toNat (2 ^ s.fld (R.IBWn_e_CFG n e) 8 3) lo 0x80000) ||
  (List.range 4).any (fun c => s.flag (R.Cc_CFG c) 0 &&
    (meets lo 0x80000 (basinBase + s.fld (R.Cc_SIG_BASE c) 24 0) (64 * s.fld (R.Cc_STRIP c) 31 16) ||
     meets lo 0x80000 (basinBase + s.fld (R.Cc_SEAL_BASE c) 24 0) (32 * s.fld (R.Cc_STRIP c) 15 0))) ||
  (s.flag R.LN_DUMP_CFG 6 && s.fld R.LN_DUMP_CFG 5 0 == b.val)

/-- Whether an initiator acts for a bank's owner: the owner, or a Keeper pair for a hardware owner. -/
def actsFor (s : State) (i : Initiator) (b : Fin 64) : Bool :=
  let o := s.bs.banks[b].owner.toNat
  if o ≤ 2 then o == ownerOf (.core i) else isKeeper i

/-- A DMA transfer in progress on a tile targets the bank. -/
def dmaTargets (s : State) (p : Fin 36) (b : Fin 64) : Bool :=
  s.tiles[p].dma.any fun c => c.busy && (List.range (dmaRows c.desc)).any fun r =>
    meets ((dmaExt c.desc : Int) + r * dmaExtStride c.desc).toNat (dmaLen c.desc) (basinBase + 0x80000 * b.val) 0x80000

/-- The bank of the tile group that the audit read in progress is to write its tile to: the lowest (log entry 91). -/
def auditTarget (s : State) : Option (Fin 64) :=
  if s.au.reading.isSome then (List.finRange 64).find? fun b => s.bs.banks[b].owner == 5 && !s.bs.banks[b].failed && !destroying s b else none

/-- No DMA transfer, inbound request, audit read or dump that targets the bank is in progress (R341). -/
def bankIdle (s : State) (b : Fin 64) : Bool :=
  !(List.range 36).any (fun p => dmaTargets s (Fin.ofNat 36 p) b) &&
  !s.mr.landed.any (fun l => (banksOf l.addr.toNat l.bytes.length).contains b) &&
  auditTarget s != some b && !(s.ln.dumpBusy && s.fld R.LN_DUMP_CFG 5 0 == b.val) &&
  !s.bs.waits.any (fun w => (banksOf w.addr (opLen w.op)).contains b)

/-- BANK_HANDOVER_REQUEST: the code of a write to BANKb_OWN (Table 16-4); 0 accepts it. -/
def handoverCode (s : State) (i : Initiator) (b : Fin 64) (v : Word) : BitVec 4 :=
  let x := s.bs.banks[b]
  if !actsFor s i b then 1
  else if x.next.isSome then (if bits v 3 0 = x.owner.toNat then 0 else 2)
  else if bankInUse s b then 3
  else if (marchOn s b).isSome then 4
  else if x.failed then 5
  else if 6 < bits v 3 0 then 6
  else 0

def execBankHandoverRequest (i : Initiator) (b : Fin 64) (v : Word) (s : State) : Out :=
  .next (s.openWrite i (R.BANKb_OWN b) fun t =>
    let c := handoverCode s i b v
    if c ≠ 0 then handoverRefused s i b c
    else
      let t := t.setReg (R.BANKb_OWN b) (v &&& 0x1F#32)
      if s.bs.banks[b].next.isSome then updBank t b fun x => { x with next := none, clear := false, code := 0, idleAt := none }
      else updBank t b fun x => { x with
        next := some (BitVec.ofNat 4 (bits v 3 0)), clear := v.getLsbD 4, code := 0, askedAt := t.cycle,
        idleAt := if bankIdle s b then some t.cycle else none })

/-- The clear of a bank that is idle has not run its 32,768 TCLK from the cycle at which it was found idle (Table 16-7). -/
def clearRuns (s : State) (b : Fin 64) : Bool :=
  s.bs.banks[b].clear && !s.bs.banks[b].idleAt.any fun c => decide (32768 ≤ s.cycle - c)

/-- BANK_HANDOVER_COMPLETE: at idle the bank is cleared if asked, and passes to its new owner. -/
def execBankHandoverComplete (b : Fin 64) (s : State) : Out :=
  .next (match s.bs.banks[b].next with
    | none => s
    | some o =>
      if !bankIdle s b then s
      else if clearRuns s b then updBank s b fun x => { x with idleAt := some (x.idleAt.getD s.cycle) }
      else
        let s := if s.bs.banks[b].clear then s.wipe (basinBase + 0x80000 * b.val) 0x80000 else s
        (updBank s b fun x => { x with owner := o, next := none, clear := false, idleAt := none }).setBit R.BS_IRQ_STAT 0)

/-! ### March tests (R347 to R350) -/

/-- Change Basin's state. -/
def updBs (s : State) (f : Basin → Basin) : State := { s with bs := f s.bs }

/-- BS_MARCH_STAT of a bank. -/
def marchStat (s : State) (b : Fin 64) (result word : Nat) : State :=
  s.setReg R.BS_MARCH_STAT (BitVec.ofNat 32 (result + 16 * b.val + 2 ^ 16 * word))

/-- A run begins; a preserving one is marked in BS_MARCH_RUN (R349). -/
def beginMarch (s : State) (b : Fin 64) (preserve : Bool) : State :=
  let s := updBs s fun x => { x with marches := x.marches ++ [⟨b, preserve, 0, s.cycle⟩] }
  if preserve then s.setReg R.BS_MARCH_RUN (BitVec.ofNat 32 (b.val + 2 ^ 31)) else s

/-- Step 6 tests a bank preserving: the image buffer and the banks marked PRESERVE (R312). -/
def marchKeeps (s : State) (b : Nat) : Bool := decide (b < 32) || s.flag (R.BANKb_CFG b) 4

/-- MARCH_START: a write to BS_MARCH_CMD after READY, by the owner or a Keeper core for a hardware owner, while the bank's engine is
free; else REFUSED. -/
def execMarchStart (i : Initiator) (v : Word) (s : State) : Out :=
  .next (s.openWrite i R.BS_MARCH_CMD fun t =>
    let b := Fin.ofNat 64 (bits v 5 0)
    if !v.getLsbD 9 then t
    else if !s.wr.ready || !actsFor s i b || s.bs.marches.any (fun m => m.bank.val % 8 == b.val % 8) then
      marchStat (s.busError i) b 5 0
    else
      beginMarch t b (v.getLsbD 8))

/-- Mark a bank's contents lost. -/
def bankLost (s : State) (b : Fin 64) : State := if b.val < 32 then s.setBit R.BS_LOST_LO b.val else s.setBit R.BS_LOST_HI (b.val - 32)

/-- A run ends: its result and interrupts, and BS_MARCH_RUN where it was preserving. -/
def marchEnds (s : State) (m : March) (result word : Nat) : State :=
  let s := updBs s fun x => { x with marches := x.marches.filter (·.bank ≠ m.bank) }
  let s := if m.preserve && s.fld R.BS_MARCH_RUN 5 0 == m.bank.val then s.setReg R.BS_MARCH_RUN 0 else s
  let s := (marchStat s m.bank result word).setBit R.BS_IRQ_STAT 2
  if result = 1 then s else s.setBit R.BS_IRQ_STAT 3

/-- A run of step 6 is over: its engine goes on with its next bank. -/
def marchGoesOn (s : State) (b : Fin 64) : State :=
  if s.wr.step = 6 ∧ b.val + 8 < 64 then beginMarch s (Fin.ofNat 64 (b.val + 8)) (marchKeeps s (b.val + 8)) else s

/-- A run that fails raises ES77 and marks its bank FAILED after READY (R350); before, the bank ends the start (R312). -/
def marchFailed (s : State) (m : March) (result word : Nat) : State :=
  let t := marchEnds s m result word
  if s.wr.ready then updBank (t.raise 77 0) m.bank fun x => { x with failed := true } else startFail t 7

/-- TCLK cycles of a run, and of a segment of a preserving one (Table 16-7). -/
def marchLen (m : March) : Nat := if m.preserve then 524288 else 458752
def segLen : Nat := 4096

/-- BS_LOST_CLR (R349). -/
def execBsLostClr (i : Initiator) (v : Word) (s : State) : Out :=
  .next (s.keeperWrite i fun s =>
    let b := bits v 5 0
    if b < 32 then s.clearReg R.BS_LOST_LO (BitVec.ofNat 32 (2 ^ b)) else s.clearReg R.BS_LOST_HI (BitVec.ofNat 32 (2 ^ (b - 32))))

/-! ### On-chip memories (R340, R345, R397) -/

/-- The regions of the map below 4 GiB that cores read and write as memory (Table 19-2). -/
inductive ChipMem | rom | tcm (k : Fin 2) | basin | vault | platform | tile (p : Fin 36)
  deriving DecidableEq, Repr

/-- The region a range lies in; none is reserved, or a block window. -/
def chipMem (a n : Nat) : Option ChipMem :=
  let within := fun (lo size : Nat) => decide (lo ≤ a ∧ a + n ≤ lo + size)
  if within 0 0x40000 then some .rom
  else if within 0x10000000 0x80000 then some (.tcm 0)
  else if within 0x10100000 0x80000 then some (.tcm 1)
  else if within basinBase 0x2000000 then some .basin
  else if within 0x24000000 0x200000 then some .vault
  else if within 0x32000000 0x1000000 then some .platform
  else if 0x40000000 ≤ a then
    let p := (a - 0x40000000) / 0x400000
    if p < 36 ∧ within (tileBase p) 0x400000 then some (.tile (Fin.ofNat 36 p)) else none
  else none

/-- Table 19-3 allows the operation, but for Basin and the Vault, whose rules follow. -/
def chipAllowed (i : Initiator) (write : Bool) : ChipMem → Bool
  | .rom => !write
  | .tcm k => i == pairInit k || (isKeeper i && !write)
  | .platform => !isKeeper i
  | .tile _ => isKeeper i || !write
  | _ => true

/-- The corrected-word count and source of a memory (R13). -/
def chipCorrected (s : State) : ChipMem → State
  | .tcm k => (if k = 0 then s.satAdd R.KC_TCM_CORR 15 0 1 else s.satAdd R.KC_TCM_CORR 31 16 1).raise 4 0
  | .basin => basinCorrected s
  | .vault => (s.satAdd R.BS_CORR 31 16 1).raise 73 0
  | .tile p => tileCorrected s p false
  | _ => s

/-- What an uncorrectable word does beside the reader's bus error: the memory's source; a tile stops, SRAM_UNC (R138). -/
def chipUncorrectable (s : State) (a : Nat) : ChipMem → State
  | .tcm _ => s.raise 3 0
  | .basin => basinUncorrectable s a
  | .vault => (s.setReg R.BS_UNC_ADDR (BitVec.ofNat 32 a)).raise 75 0
  | .tile p => tileFault s p 0
  | _ => s

/-- The MTIMER's count: 25 MHz, one in 30 TCLK cycles (R394). -/
def mtimeNow (s : State) : DWord := s.kc.platform.mtime + BitVec.ofNat 64 ((s.cycle - s.kc.platform.mtimeAt) / 30)

/-- The MTIMER register that a range of the platform region lies in, and the offset there: 0 to 7 the compare values, 8 the count, as the
ACLINT lays them out (log entry 106). -/
def mtimerAt (a n : Nat) : Option (Nat × Nat) :=
  let o := a - 0x32800000
  let k := if o < 64 then o / 8 else 8
  if 0x32800000 ≤ a ∧ (o < 64 ∨ (0x7FF8 ≤ o ∧ o < 0x8000)) ∧ o % 8 + n ≤ 8 then some (k, o % 8) else none

/-- An MTIMER register. -/
def mtimerReg (s : State) (k : Nat) : DWord := if k < 8 then s.kc.platform.mtimecmp[Fin.ofNat 8 k] else mtimeNow s

/-- Write an MTIMER register. -/
def setMtimer (s : State) (k : Nat) (v : DWord) : State :=
  let x := s.kc.platform
  { s with kc := { s.kc with platform :=
    if k < 8 then { x with mtimecmp := x.mtimecmp.set (Fin.ofNat 8 k) v } else { x with mtime := v, mtimeAt := s.cycle } } }

/-- An access to the platform region (R394). What the registers of the APLIC and the IMSICs hold is not the manual's: a read is free. -/
def platformServe (s : State) (a : Nat) (op : MemOp) : State :=
  match mtimerAt a (opLen op), op with
  | some (k, o), .read n => s.busOk (BitVec.ofNat 64 (natLE (((bytesLE 8 (mtimerReg s k).toNat).drop o).take n)))
  | some (k, o), .write d =>
    let old := bytesLE 8 (mtimerReg s k).toNat
    (setMtimer s k (BitVec.ofNat 64 (natLE (old.take o ++ d ++ old.drop (o + d.length))))).busOk 0
  | none, .read _ => s.free.2.busOk s.free.1
  | none, .write _ => s.busOk 0

/-- Serve an operation on a region; what the ROM holds is not the manual's: a free value. -/
def chipServe (s : State) (a : Nat) (m : ChipMem) (op : MemOp) : State :=
  match m, op with
  | .rom, .read _ => s.free.2.busOk s.free.1
  | .platform, op => platformServe s a op
  | .tile p, .write d => (sramNet s p (a - tileBase p.val) d).busOk 0
  | .tile _, .read n => s.busOk (BitVec.ofNat 64 (natLE (portBytes s s.ports.seq a (min n 8))))
  | _, .read n => readData s a n
  | _, .write d => (s.store a d).busOk 0

/-- The outcome of the word code on an admitted operation (R13). -/
def chipAccess (s : State) (i : Initiator) (a : Nat) (m : ChipMem) (op : MemOp) (e : Ecc) : State :=
  match if opReads a op then codeFinding e else .clean with
  | .clean => chipServe s a m op
  | .corrected => chipServe (chipCorrected s m) a m op
  | .uncorrectable => (chipUncorrectable s a m).busError i


/-- The Vault admits an access: parts 1 to 7, a Keeper pair, no wipe running (R345). -/
def vaultAdmits (s : State) (i : Initiator) (a : Nat) : Bool := isKeeper i && decide (0x24040000 ≤ a) && s.se.wiping.isNone

/-- An access to Basin: refused, waiting or served. -/
def basinAccess (i : Initiator) (a : Nat) (op : MemOp) (e : Ecc) (s : State) : State :=
  if !banksAdmit s (.core i) (isWrite op) a (opLen op) then bankRefusal (s.busError i) (.core i) (isWrite op) a (opLen op)
  else if basinWaits s a (opLen op) then updBs (accessWaits s) fun x => { x with waits := x.waits ++ [⟨i, a, op, e⟩] }
  else chipAccess s i a .basin op e

/-- An access that has waited and was admitted: served, or refused on a bank that has failed since (R350). -/
def serveOne (s : State) (w : Waiting) : State :=
  if basinWaits s w.addr (opLen w.op) then updBs s fun x => { x with waits := x.waits ++ [w] }
  else if (banksOf w.addr (opLen w.op)).any (fun b => s.bs.banks[b].failed) then s.busError w.who
  else chipAccess s w.who w.addr .basin w.op w.ecc

/-- Serve Basin's waiting accesses whose targets take them now, oldest first. -/
def serveBasin (s : State) : State := s.bs.waits.foldl serveOne (updBs s fun x => { x with waits := [] })

/-- Serve Hold's waiting accesses once it is filled, oldest first (R313); they were admitted as they came, and stand (R388). -/
def serveHold (s : State) : State :=
  s.hd.waits.foldl (fun s w => holdAdmitted w.who w.addr w.op w.ecc s) (updHd s fun h => { h with waits := [] })

/-- MARCH_SEGMENT_DONE (R347): the next segment, and the accesses that waited for this one; a restore that fails ends the run with
RESTORE, ES72 and CONTENTS_LOST (R350). -/
def execMarchSegmentDone (b : Fin 64) (r : MarchFinding) (s : State) : Out :=
  .next (match marchOn s b with
    | none => s
    | some m =>
      if !m.preserve || 128 ≤ m.seg || decide (s.cycle - m.begun < segLen * (m.seg + 1)) then s
      else serveBasin (match r with
        | .good => updBs s fun x => { x with marches := x.marches.map fun y => if y.bank = b then { y with seg := y.seg + 1 } else y }
        | .bad w _ => let t := bankLost ((marchEnds s m 4 w.toNat).raise 72 0) b; if s.wr.ready then t else startFail t 7))

/-- MARCH_DONE (R350): a destroying run leaves zeros; a failing one raises ES77 and marks the bank FAILED. -/
def execMarchDone (b : Fin 64) (r : MarchFinding) (s : State) : Out :=
  .next (match marchOn s b with
    | none => s
    | some m =>
      if s.cycle - m.begun < marchLen m ∨ (m.preserve ∧ m.seg < 128) then s
      else
        let s := if m.preserve then s else s.wipe (basinBase + 0x80000 * b.val) 0x80000
        match r with
        | .good => marchGoesOn (marchEnds s m 1 0) b
        | .bad w code => marchFailed s m (if code then 3 else 2) w.toNat)

/-- ON_CHIP_SRAM_ACCESS: served, waiting or refused (R340, R341, R345, R347, R396, R397). -/
def execOnChipSramAccess (i : Initiator) (a : Word) (op : MemOp) (e : Ecc) (s : State) : Out :=
  let a := a.toNat
  let n := opLen op
  .next (match chipMem a n with
    | none => s.refuse i
    | some m =>
      if !s.admitted i || !chipAllowed i (isWrite op) m then s.refuse i
      else match m with
        | .basin => basinAccess i a op e s
        | .vault =>
          if vaultAdmits s i a then chipAccess s i a m op e
          else if s.se.wiping.isSome then s.busError i
          else ((s.busError i).setBit R.BS_IRQ_STAT 1).raise 74 0
        | _ => chipAccess s i a m op e)

end Sys2Proof.Machine
end

