-- ==== Sys2Proof/Machine/Weir.lean ====
section
/-! DEFINITION. Machine/Weir.lean: own rails and temperature (R316, R317), the rail ADCs (R318), the accelerator sequencer
(R319, R320, R322) and the PMBus masters (R323). -/

namespace Sys2Proof.Machine

/-! ### Own rails and temperature -/

/-- Drive a level line whose syndrome the manual states. -/
def levelSyn (s : State) (src : Nat) (syn : Half) : State :=
  if s.bc.levels.contains (BitVec.ofNat 7 src) then s
  else ({ s with bc := { s.bc with levels := s.bc.levels ++ [BitVec.ofNat 7 src] } }).raiseSyn src 0 syn none

/-- A rail's bits of OWN_STAT as its monitor now reads. -/
def setOwn (w : Weir) (m : Fin 8) (f : RailFault) : Weir :=
  let b := BitVec.ofNat 8 (2 ^ m.val)
  { w with ownBelow := if f = .below then w.ownBelow ||| b else w.ownBelow &&& ~~~b
           ownAbove := if f = .above then w.ownAbove ||| b else w.ownAbove &&& ~~~b }

/-- OWN_RAIL_FAULT (R316): the rail and direction are the syndrome, in OWN_LAST's form; ES120's line stands while any rail is outside.
VDD2H or VDDQ outside its window before Hold is retrained clears HOLD_KEPT (R326). -/
def execOwnRailFault (m : Fin 8) (f : RailFault) (s : State) : Out :=
  let code := m.val + 8 * bit (f == .above)
  let s := updWr s fun w => setOwn w m f
  .next (if f = .inside then (if s.wr.ownBelow = 0 ∧ s.wr.ownAbove = 0 then s.level 120 false else s)
    else
      let s := (s.setReg R.OWN_LAST (BitVec.ofNat 32 (code + 2 ^ 31))).setBit R.WR_IRQ_STAT 2
      let s := if (m = 4 ∨ m = 5) ∧ s.hd.trained.all (!·) then s.setFld R.RST_CAUSE 8 8 0 else s
      levelSyn s 120 (BitVec.ofNat 16 code))

/-- TJ_SAMPLE (R317): the hottest reading, every 100 µs; two above TJ_LIMIT in a row assert ES124. -/
def execTjSample (t : Half) (sensor : BitVec 3) (s : State) : Out :=
  .next <| if !readDue s s.wr.tjAt (usCycles 100) then s else
  let above := decide ((BitVec.ofNat 16 (s.fld R.TJ_LIMIT 15 0)).toInt < t.toInt)
  let run := if above then s.wr.tjRun + 1 else 0
  (updWr s fun w => { w with tjLast := t, tjSensor := sensor, tjRun := run, tjAt := some s.cycle }).level 124 (decide (2 ≤ run))

/-! ### The ADCs (R318) -/

/-- Conversions inserted ahead of the round-robin. -/
def adcInsert (s : State) (mask : Nat) : State :=
  updWr s fun w => { w with adcDue := w.adcDue ++ ((List.range 16).filter mask.testBit).map (Fin.ofNat 16) }

/-- ADC_TRIG. -/
def execAdcTrig (i : Initiator) (v : Word) (s : State) : Out := .next (s.keeperWrite i fun s => adcInsert s (bits v 15 0))

/-- The ADC of a channel, and the channels it converts: those enabled, ascending. -/
def adcOf (c : Fin 16) : Fin 2 := if c.val < 8 then 0 else 1
def adcChannels (s : State) (a : Fin 2) : List (Fin 16) := (List.finRange 16).filter fun c => adcOf c == a && s.flag (R.ACHc_CFG c.val) 0

/-- The channel an ADC converts next (R318): the oldest insertion, else, in free-run, the next of the round-robin. -/
def adcNext (s : State) (a : Fin 2) : Option (Fin 16) :=
  let cs := adcChannels s a
  match s.wr.adcDue.find? cs.contains with
  | some c => some c
  | none =>
    if !s.flag R.WR_CTRL (1 + a.val) then none
    else match s.wr.adcLast[a] with
      | none => cs.head?
      | some l => match cs.find? (l < ·) with
        | some c => some c
        | none => cs.head?

/-- An ADC runs at 1 MS/s: its next conversion ends 1 µs after its last at the earliest. -/
def adcFree (s : State) (a : Fin 2) : Bool :=
  match s.wr.adcAt[a] with
  | some t => decide (usCycles 1 ≤ s.cycle - t)
  | none => true

/-- A channel's conversion is its ADC's next one. -/
def adcConverts (s : State) (c : Fin 16) : Bool := s.flag R.WR_CTRL 0 && adcFree s (adcOf c) && adcNext s (adcOf c) == some c

/-- A conversion is done: an insertion is served, or the round-robin moves on. -/
def adcDone (w : Weir) (c : Fin 16) (now : Nat) : Weir :=
  let a := adcOf c
  let w := { w with adcAt := w.adcAt.set a (some now) }
  if w.adcDue.contains c then { w with adcDue := w.adcDue.erase c } else { w with adcLast := w.adcLast.set a (some c) }

/-- ADC_CONVERSION (R318): the rail's value, its runs inside and outside the window on an armed channel, and ES121's line. -/
def execAdcConversion (c : Fin 16) (code : BitVec 12) (s : State) : Out :=
  .next (if !adcConverts s c then s
    else
      let mv := code.toNat * s.fld (R.ACHc_CFG c) 31 16 / 4096
      let inside := decide (s.fld (R.ACHc_WIN c) 15 0 ≤ mv ∧ mv ≤ s.fld (R.ACHc_WIN c) 31 16)
      let x := s.wr.adcs[c]
      let x := { x with mv := BitVec.ofNat 16 mv, code := code, inWin := inside,
                        goodRun := if x.armed && inside then x.goodRun + 1 else 0,
                        badRun := if x.armed && !inside then x.badRun + 1 else 0 }
      let s := updWr s fun w => adcDone { w with adcs := w.adcs.set c x } c s.cycle
      adcLevel s)

/-! ### The PMBus masters (R323) -/

/-- Change a master. -/
def updPmb (s : State) (b : Fin 2) (f : Pmbus → Pmbus) : State := updWr s fun w => { w with pmbs := w.pmbs.set b (f w.pmbs[b]) }

/-- The descriptor of a transaction: PMBb_XFER, or the preset's. -/
def xferWord (s : State) (b : Fin 2) : PmbXfer → Word
  | .preset t => s.reg (R.PMBb_PREt_XFER b t)
  | .keeper w => w

/-- The data of a write: PMBb_DATA, or the preset's. -/
def xferData (s : State) (b : Fin 2) : PmbXfer → Nat
  | .preset t => s.fld (R.PMBb_PREt_DATA b t) 15 0
  | .keeper _ => s.fld (R.PMBb_DATA b) 15 0

/-- PMBb_CFG.PEC, and the code over bytes. -/
def pecOn (s : State) (b : Fin 2) : Bool := s.flag (R.PMBb_CFG b) 2
def pecOf (bs : List Byte) : Byte := (crcFeed crcSmbus crcSmbus.init bs).setWidth 8

/-- The bytes that a master sends (SMBus 3.1): the address with its write bit, the command, then a write's data and its packet error code, or
the address with its read bit. -/
def smbusSent (s : State) (b : Fin 2) (x : PmbXfer) : List Byte :=
  let w := xferWord s b x
  let head := [BitVec.ofNat 8 (2 * bits w 6 0), BitVec.ofNat 8 (bits w 15 8)]
  let coded := fun (bs : List Byte) => if pecOn s b then bs ++ [pecOf bs] else bs
  match bits w 17 16 with
  | 0 => coded (head ++ bytesLE 1 (xferData s b x))
  | 1 => coded (head ++ bytesLE 2 (xferData s b x))
  | _ => head ++ [BitVec.ofNat 8 (2 * bits w 6 0 + 1)]

/-- Start what waits, a preset before a Keeper transaction, where nothing runs. -/
def pmbStart (s : State) (b : Fin 2) : State :=
  let s := updPmb s b fun p =>
    match p.run, p.preset, p.keeper with
    | none, some t, _ => { p with run := some (.preset t), preset := none, sent := smbusSent s b (.preset t) }
    | none, none, some w => { p with run := some (.keeper w), keeper := none, sent := smbusSent s b (.keeper w) }
    | _, _, _ => p
  s.setFld (R.PMBb_STAT b) 0 0 (bit s.wr.pmbs[b].run.isSome)

/-- PMBUS_TRANSFER: a Keeper write to PMBb_XFER; it waits while a transaction runs. -/
def execPmbusTransfer (i : Initiator) (b : Fin 2) (v : Word) (s : State) : Out :=
  .next (s.keeperWrite i fun s => pmbStart (updPmb s b fun p => { p with keeper := some v }) b)

/-- A read's bytes as the slave sends them: a byte or a word; none of a write. -/
def readBytes (x : Word) (d : Half) : List Byte :=
  match bits x 17 16 with
  | 2 => bytesLE 1 d.toNat
  | 3 => bytesLE 2 d.toNat
  | _ => []

/-- The packet error code after a read's data is wrong. -/
def pecBad (s : State) (b : Fin 2) (x : Word) (d : Half) (pec : Byte) : Bool :=
  pecOn s b && decide (2 ≤ bits x 17 16) && pecOf (s.wr.pmbs[b].sent ++ readBytes x d) != pec

/-- PMBb_STAT[3:1]. -/
def smbusCode (s : State) (b : Fin 2) (x : Word) : SmbusEnd → Nat
  | .done d pec => if pecBad s b x d pec then 2 else 0
  | .nack => 1
  | .timeout => 3
  | .arbitration => 4

/-- The result of a read that ends OK in PMBb_DATA: a byte or a word. -/
def pmbData (s : State) (b : Fin 2) (x : Word) : SmbusEnd → State
  | .done d _ => if 2 ≤ bits x 17 16 then s.setReg (R.PMBb_DATA b) (BitVec.ofNat 32 (natLE (readBytes x d))) else s
  | _ => s

/-- PMBUS_DONE: the result, ES122 for every end but OK, and the next transaction. -/
def execPmbusDone (b : Fin 2) (r : SmbusEnd) (s : State) : Out :=
  .next (match s.wr.pmbs[b].run with
    | none => s
    | some x =>
      let c := smbusCode s b (xferWord s b x) r
      let s := if c = 0 then pmbData s b (xferWord s b x) r else s
      let s := (s.setFld (R.PMBb_STAT b) 3 1 c).setBit R.WR_IRQ_STAT (if c = 0 then 3 else 4)
      let s := if c = 0 then s else s.raise 122 0
      let s := match x with
        | .preset _ => updWr s fun w => { w with seqPmb := some (BitVec.ofNat 3 c) }
        | .keeper _ => s
      pmbStart (updPmb s b fun p => { p with run := none }) b)

/-! ### The sequencer (R319, R320) -/

/-- A step fails: ES123, FAIL_STEP and FAIL_CODE, the down sequence; in start step 8 the start fails with SEQUENCE. -/
def seqFails (s : State) (code : BitVec 4) : State :=
  let s := updWr s fun w => { w with seqFailed := true, seqFailStep := BitVec.ofNat 4 w.seqStep, seqFailCode := code }
  let s := (s.setBit R.WR_IRQ_STAT 1).raise 123 0
  let s := if s.wr.step = 8 then startFail s 9 else s
  startDown s

/-- The up sequence is complete: Mooring hears of it (R91), start step 8 ends. -/
def seqComplete (s : State) : State :=
  let s := (updWr s fun w => { w with seq := .on, seqDelay := false }).setBit R.WR_IRQ_STAT 0
  let s := { s with mr := { s.mr with railsUp := some s.cycle } }
  if s.wr.step = 8 ∧ s.wr.fail = 0 then updWr s fun w => { w with step := 9, step9At := some s.cycle } else s

/-- Channels of a step's ARG. -/
def argChannels (s : State) (k : Nat) : List Nat := (List.range 16).filter (seqField s k 31 16).testBit

/-- OFF_MAX of a channel, and its value, in mV. -/
def offMax (s : State) (c : Nat) : Nat := s.fld (R.ACHc_OFFMAX c) 15 0
def railMv (s : State) (c : Nat) : Nat := s.wr.adcs[Fin.ofNat 16 c].mv.toNat

/-- Drive the pins of an EN_HIGH step high; the safe state of a C4 holds them low (R321). -/
def raisePins (s : State) (k : Nat) : State :=
  let pins := (List.range 8).filter fun p => (seqField s k 23 16).testBit p && !s.bc.c4Taken
  updWr s fun w => { w with accEn := pins.foldl (fun m p => m ||| BitVec.ofNat 8 (2 ^ p)) w.accEn,
                            raised := w.raised ++ (pins.map (Fin.ofNat 8)).filter (!w.raised.contains ·) }

/-- The delay after a step runs. -/
def seqDelays (s : State) : State := updWr s fun w => { w with seqDelay := true, seqSince := s.cycle }

/-- Step `k` begins: its action (Table 15-5). -/
def seqBegin (s : State) (k : Nat) : State :=
  let s := updWr s fun w => { w with seqStep := k, seqDelay := false, seqSince := s.cycle, seqPmb := none }
  match seqField s k 3 0 with
  | 0 => seqComplete s
  | 1 =>
    if (channelsAfter s k).any fun c => s.flag (R.ACHc_CFG c) 5 && decide (offMax s c < railMv s c) then seqFails s 3
    else seqDelays (raisePins s k)
  | 2 =>
    updWr s fun w => { w with adcs := w.adcs.mapFinIdx fun c x _ =>
      if (argChannels s k).contains c then { x with armed := true, goodRun := 0, badRun := 0 } else x }
  | 3 =>
    let b := Fin.ofNat 2 (seqField s k 19 19)
    pmbStart (updPmb s b fun p => { p with preset := some (Fin.ofNat 8 (seqField s k 18 16)) }) b
  | 5 =>
    if (argChannels s k).any fun c => s.flag (R.ACHc_CFG c) 5 && decide (offMax s c ≤ railMv s c) then seqFails s 3 else seqDelays s
  | 6 => seqDelays s
  | _ => s

/-- What the step waits for is met. -/
def seqMet (s : State) (k : Nat) : Bool :=
  match seqField s k 3 0 with
  | 2 => (argChannels s k).all fun c => decide (filt s c ≤ s.wr.adcs[Fin.ofNat 16 c].goodRun)
  | 3 => s.wr.seqPmb == some 0
  | 4 => (argChannels s k).all fun c => decide (railMv s c < offMax s c)
  | _ => false

/-- A wait step. -/
def seqWaits (s : State) (k : Nat) : Bool := seqField s k 3 0 == 2 || seqField s k 3 0 == 4

/-- SEQs_DLY of a step of the table. -/
def seqDly (s : State) (k : Nat) : Nat :=
  match s.wr.seqTab[k]? with
  | some p => bits p.2 23 0
  | none => 0

/-- The step after `k`, or the end of the table. -/
def seqAfter (s : State) (k : Nat) : State := if k + 1 < 16 then seqBegin s (k + 1) else seqComplete s

/-- SEQ_STEP_DONE (R319): a delay ends, a wait is met, or a step fails. -/
def execSeqStepDone (e : SeqEvent) (s : State) : Out :=
  let k := s.wr.seqStep
  .next (if s.wr.seq ≠ .up then s
    else match e with
      | .done =>
        if s.wr.seqDelay then (if usCycles (seqDly s k) ≤ s.cycle - s.wr.seqSince then seqAfter s k else s)
        else if seqMet s k then (if seqWaits s k && decide (msCycles (seqField s k 15 8) < s.cycle - s.wr.seqSince) then seqFails s 1 else seqDelays s)
        else s
      | .timeout =>
        if !s.wr.seqDelay && seqWaits s k && !seqMet s k && decide (msCycles (seqField s k 15 8) ≤ s.cycle - s.wr.seqSince) then seqFails s 1
        else s
      | .pmbusFailed => match s.wr.seqPmb with
        | some c => if !s.wr.seqDelay && c != 0 then seqFails s 2 else s
        | none => s)

/-- An up sequence begins from SEQ0, with the table in effect. -/
def startUp (s : State) : State :=
  let tab := (List.range 16).map fun k => (s.reg (R.SEQs_CFG k), s.reg (R.SEQs_DLY k))
  seqBegin (updWr s fun w => { w with seq := .up, seqTab := tab, seqFailed := false, seqFailStep := 0, seqFailCode := 0 }) 0

/-- SEQ_CMD_UP (R319): refused unless OFF; a failed start, or one that has not trained Hold, runs no sequence (R311, R313). -/
def execSeqCmdUp (i : Initiator) (s : State) : Out :=
  .next (s.keeperWrite i fun t =>
    if s.wr.seq ≠ .off then s.busError i
    else if s.wr.fail = 0 ∧ 8 ≤ s.wr.step.toNat then startUp t
    else t)

/-- SEQ_CMD_DOWN (R320). -/
def execSeqCmdDown (i : Initiator) (s : State) : Out := .next (s.keeperWrite i startDown)

/-- The down sequence ends: OFF, or FAILED where a failed step started it. -/
def downEnds (s : State) : State :=
  updWr (disarm s fun _ => true) fun w => { w with seq := if w.seqFailed then .failed else .off, seqFailed := false, seqDelay := false }

/-- The last pin raised falls, with its channels; the sequence ends with the last. -/
def pinFalls (s : State) : State :=
  match s.wr.raised.getLast? with
  | none => downEnds s
  | some p =>
    let s := disarm s fun c => (channelsOfPin s p.val).contains c
    let s := updWr s fun w => { w with accEn := w.accEn &&& ~~~(BitVec.ofNat 8 (2 ^ p.val)), raised := w.raised.dropLast,
                                       seqDelay := true, seqSince := s.cycle }
    if s.wr.raised.isEmpty then downEnds s else s

/-- DOWN_SEQUENCE_STEP (R320): DOWN_LEAD, then DOWN_GAP, has passed. -/
def execDownSequenceStep (s : State) : Out :=
  let wait := if s.wr.seqDelay then msCycles (s.fld R.SEQ_CTRL 15 8) else usCycles (s.fld R.SEQ_CTRL 31 16)
  .next (if s.wr.seq = .down ∧ wait ≤ s.cycle - s.wr.seqSince then pinFalls s else s)

/-- ACC_EN_READBACK_MISMATCH (R322): pin `n` reads `level`; ES123 once for each readback that has differed from the driven level for
more than 8 cycles. -/
def execAccEnReadbackMismatch (n : Fin 8) (level : Bool) (s : State) : Out :=
  let bad := fun (s : State) (x : Option (Nat × Bool)) => updWr s fun w => { w with accBad := w.accBad.set n x }
  .next (if level = s.wr.accEn.getLsbD n.val then bad s none
    else match s.wr.accBad[n] with
      | none => bad s (some (s.cycle, false))
      | some (c, told) => if !told && decide (8 ≤ s.cycle - c) then (bad s (some (c, true))).raise 123 0 else s)

end Sys2Proof.Machine
end

