-- ==== Sys2Proof/Machine/Posts.lean ====
section
/-! DEFINITION. Machine/Posts.lean: the schedule of posts: reaching, release, re-arming (R44 to R47). -/

namespace Sys2Proof.Machine

/-- Change Milepost's state. -/
def updMp (s : State) (f : Milepost → Milepost) : State := { s with mp := f s.mp }

/-- POSTp_CFG.EN, SAFETY, ACTION, ARG. -/
def postEnabled (s : State) (p : Nat) : Bool := s.flag (R.POSTp_CFG p) 0
def postSafety (s : State) (p : Nat) : Bool := s.flag (R.POSTp_CFG p) 3
def postAction (s : State) (p : Nat) : Nat := s.fld (R.POSTp_CFG p) 7 4
def postArg (s : State) (p : Nat) : Nat := s.fld (R.POSTp_CFG p) 23 8

/-- The domain of a post: 0 TIME, 1 TRAVEL, 2 EITHER. -/
def postDomain (s : State) (p : Nat) : Nat := s.fld (R.POSTp_CFG p) 2 1

/-- A 64-bit bound is reached: the signed difference is not negative. -/
def bound64 (now val : DWord) : Bool := decide (0 ≤ (now - val).toInt)

/-- Whether a post uses its time bound and its travel bound; an EITHER post loses a bound of no period at its first release (R45). -/
def usesT (s : State) (p : Nat) : Bool :=
  postDomain s p == 0 || (postDomain s p == 2 && !s.mp.postTUnused.contains (Fin.ofNat 256 p))
def usesS (s : State) (p : Nat) : Bool :=
  postDomain s p == 1 || (postDomain s p == 2 && !s.mp.postSUnused.contains (Fin.ofNat 256 p))

/-- A post's value is reached (R44). -/
def postDue (s : State) (p : Nat) : Bool :=
  postEnabled s p &&
  ((usesT s p && bound64 s.timeNs (s.reg64 (R.POSTp_VAL_T_LO p))) || (usesS s p && bound64 s.mp.travel (s.reg64 (R.POSTp_VAL_S_LO p))))

/-- The state with the table of posts as it stood at the start of this cycle (R44). -/
def atCycleStart (s : State) : State :=
  match s.mp.postTable with
  | some t => { s with regs := t.regs, mp := { s.mp with postTUnused := t.tUnused, postSUnused := t.sUnused } }
  | none => s

/-- The posts' registers as a table has them, in place of those they have now. -/
def withPosts (s : State) (t : PostTable) : State :=
  (t.regs.filter fun c => isPostReg c.1).foldl (fun s c => s.setReg c.1 c.2) { s with regs := s.regs.filter fun c => !isPostReg c.1 }

/-- A post's own work of a release, under the table at the start of the cycle (R44): where an open of this cycle has changed the table, `f`
runs on the table before it, and what the open has written stands after it. -/
def underTable (f : State → State) (s : State) : State :=
  match s.mp.postTable with
  | none => f s
  | some t =>
    let r := f (updMp (withPosts s t) fun m => { m with postTUnused := t.tUnused, postSUnused := t.sUnused })
    let kept := fun (p : Fin 256) => !t.written.any fun a => R.POSTp_VAL_T_LO p ≤ a && decide (a < R.POSTp_VAL_T_LO p + 0x20)
    let r := t.written.foldl (fun r a => r.setReg a (s.reg a)) r
    { r with mp := { r.mp with postTUnused := r.mp.postTUnused.filter kept, postSUnused := r.mp.postSUnused.filter kept } }

/-- POST_REACHED (R44): from READY on (R315) a reached post waits for its release. The table at the start of the cycle is tested; a post
released in this cycle is tested again in the next. -/
def execPostReached (p : Fin 256) (s : State) : Out :=
  .next (if s.wr.ready && postDue (atCycleStart s) p.val && !(s.mp.reached.any (·.1 = p)) && s.mp.released != some p then
    updMp s fun m => { m with reached := m.reached ++ [(p, s.cycle)] } else s)

/-! ### Re-arming (R45) -/

/-- A value after its period is added, advanced by whole periods to the first unreached one, and the periods skipped. -/
def advance (now val : DWord) (per : Word) : DWord × Nat :=
  let v := val + per.setWidth 64
  if bound64 now v then
    let k := (now - v).toNat / per.toNat + 1
    (v + BitVec.ofNat 64 (k * per.toNat), k)
  else (v, 0)

/-- Re-arm one bound from a base value. -/
def rearm (s : State) (a : Nat) (now base : DWord) (per : Word) : State × Nat :=
  let r := advance now base per
  (s.setReg64 a r.1, r.2)

/-- Re-arm a post at its release, and the periods skipped; one of no period is disabled. -/
def rearmPost (s : State) (p : Nat) : State × Nat :=
  let pt := s.reg (R.POSTp_PER_T p)
  let ps := s.reg (R.POSTp_PER_S p)
  let off := s.setFld (R.POSTp_CFG p) 0 0 0
  match postDomain s p with
  | 0 => if pt = 0 then (off, 0) else rearm s (R.POSTp_VAL_T_LO p) s.timeNs (s.reg64 (R.POSTp_VAL_T_LO p)) pt
  | 1 => if ps = 0 then (off, 0) else rearm s (R.POSTp_VAL_S_LO p) s.mp.travel (s.reg64 (R.POSTp_VAL_S_LO p)) ps
  | _ =>
    let k := Fin.ofNat 256 p
    if pt = 0 ∧ ps = 0 then (off, 0)
    else
      let s := if pt = 0 then updMp s fun m => { m with postTUnused := k :: m.postTUnused.filter (· ≠ k) }
        else s.setReg64 (R.POSTp_VAL_T_LO p) (s.timeNs + pt.setWidth 64)
      let s := if ps = 0 then updMp s fun m => { m with postSUnused := k :: m.postSUnused.filter (· ≠ k) }
        else s.setReg64 (R.POSTp_VAL_S_LO p) (s.mp.travel + ps.setWidth 64)
      (s, 0)

/-- MISSED of a post increases. -/
def postMissed (s : State) (p n : Nat) : State := s.satAdd (R.POSTp_STAT p) 31 16 n

/-- MISSED by one, the action undone. -/
def postLost (s : State) (p : Nat) : State := postMissed s p 1

/-! ### Release (R46, Table 02-3) -/

/-- KTASK: the release queue and the interrupt, or MISSED and ES107 where the queue is full (R47). -/
def postTask (s : State) (p : Nat) : State :=
  if 64 ≤ s.mp.keeperQ.length then (postLost s p).raise 107 0
  else (updMp s fun m => { m with keeperQ := m.keeperQ ++ [⟨BitVec.ofNat 8 p, s.now.t, s.now.s⟩] }).setBit R.MP_IRQ_STAT 0

/-- The action of a post of POSTp_CFG `cfg`: ACTION [7:4], ARG [23:8], SLOT [31:24]. -/
def postAct (s : State) (p : Nat) (cfg : Word) : State :=
  match bits cfg 7 4 with
  | 1 => postTask s p
  | 2 =>
    if s.sl.suspended || !s.wr.ready then postLost s p
    else lampGaps <| releaseLamp s (Fin.ofNat 256 (bits cfg 23 8)) (bits cfg 31 24)
  | 3 => if s.lk.state = .levelled then tryOpen s else if s.lk.state = .idle ∧ s.lk.openedAt = some s.cycle then s else postLost s p
  | 4 => adcInsert s (bits cfg 23 8)
  | 5 => trigMask s (bits cfg 23 8 % 256) 0
  | 6 => dumpNow s (BitVec.ofNat 8 p)
  | _ => s

/-- A released post is counted and re-armed; periods skipped are MISSED, with ES107 where SAFETY is set (R45). -/
def rearmRelease (p : Nat) (s : State) : State :=
  let safety := postSafety s p
  let r := rearmPost (s.satAdd (R.POSTp_STAT p) 15 0 1) p
  if r.2 = 0 then r.1
  else
    let s := postMissed r.1 p r.2
    if safety then s.raise 107 0 else s

/-- One post is released: counted and re-armed, the task boundaries at it, its action, all of the table at the start of the cycle (R44). -/
def releasePost (s : State) (p : Nat) : State :=
  let cfg := (atCycleStart s).reg (R.POSTp_CFG p)
  postAct (postBoundaries (underTable (rearmRelease p) s) p) p cfg

/-- The post released next: of those reached before this cycle, SAFETY first, then ascending (R46). Posts of several cycles that still
wait are sorted together, and one that an open of an earlier cycle has rewritten while it waited is released as its registers now stand
(DESIGN CHOICE, log entry 87). -/
def nextPost (s : State) : Option (Fin 256) :=
  let low := minBy fun (a b : Fin 256) => decide (a.val < b.val)
  let waiting := (s.mp.reached.filter fun p => p.2 < s.cycle).map (·.1)
  match low (waiting.filter fun p => postSafety (atCycleStart s) p.val) with
  | some p => some p
  | none => low waiting

/-- POST_RELEASE (R46): one post per TCLK cycle. -/
def execPostRelease (s : State) : Out :=
  .next (if s.mp.released.isSome then s
    else match nextPost s with
    | none => s
    | some p => releasePost (updMp s fun m => { m with reached := m.reached.filter (·.1 ≠ p), released := some p }) p.val)

/-! ### READY (R315) -/

/-- A reached post of nonzero period is advanced without MISSED or ES107; one of zero periods is left to its one release. -/
def readyPost (s : State) (p : Nat) : State :=
  if !postDue s p then s
  else if (s.reg (R.POSTp_PER_T p) == 0 || !usesT s p) && (s.reg (R.POSTp_PER_S p) == 0 || !usesS s p) then s
  else (rearmPost s p).1

end Sys2Proof.Machine
end

