-- ==== Sys2Proof/Machine/StartImage.lean ====
section
/-! DEFINITION. Machine/StartImage.lean: how Seal judges the flash slots at a start and settles the layout it applies (R293, R295,
R297, R444, Table 14-9). -/

namespace Sys2Proof.Machine

/-- Every record of a REGS or REDUCED section names a register with a staged field (R293). -/
def recordsStaged (rs : List (Nat × Word)) : Bool := rs.all fun r => isStaged (homeAddr r.1)

/-- A well-formed image (R293). -/
def imageFormed (im : Image) : Bool :=
  headerOk im && (sectionTable im).all (sectionOk im) && onceEach im && (imageSeed im Config.deviceId).isSome &&
  recordsStaged (imageRegs im) && im.contents.reduced.all recordsStaged

/-- The HOLDDATA section in Hold. -/
def storeHoldData (s : State) (im : Image) : State := im.contents.holdData.foldl (fun s p => s.store p.1 p.2) s

/-! ### The stage of a start -/

/-- A stage with one more record: the last record of an address stands. -/
def putStage (st : List (Nat × Word)) (a : Nat) (v : Word) : List (Nat × Word) := st.filter (·.1 ≠ a) ++ [(a, v)]

/-- Records as a stage. -/
def stageOf (rs : List (Nat × Word)) : List (Nat × Word) := rs.foldl (fun st r => putStage st (homeAddr r.1) r.2) []

/-- A value in a stage; 0 for a register it does not write. -/
def stageAt (st : List (Nat × Word)) (a : Nat) : Word := match st.find? (·.1 = a) with | some r => r.2 | none => 0

/-- What a stage makes of tile `p`: STATE and LOGICAL. -/
def mapState (st : List (Nat × Word)) (p : Nat) : Nat := bits (stageAt st (R.TL_MAP p)) 6 5
def mapLogical (st : List (Nat × Word)) (p : Nat) : Nat := bits (stageAt st (R.TL_MAP p)) 4 0

/-- Give tile `p` the LOGICAL and ROLE of a TL_MAP value, ACTIVE. -/
def mapTo (st : List (Nat × Word)) (p : Nat) (v : Word) : List (Nat × Word) := putStage st (R.TL_MAP p) (putBits v 6 5 1)

/-- Tile `p` out of use. -/
def mapOut (st : List (Nat × Word)) (p : Nat) : List (Nat × Word) := putStage st (R.TL_MAP p) (putBits (stageAt st (R.TL_MAP p)) 6 5 2)

/-- The tiles below 36 of which `p` holds. -/
def tilesWith (p : Nat → Bool) : List Nat := (List.range 36).filter p

/-- The level of a stage at a start: the conflicts, on the image's own data (R304, R307). -/
def startConflicts (s : State) (b : Bool) (im : Image) (st : List (Nat × Word)) : List Conflict :=
  let t := { s with se := { s.se with useB := some b }, lk := { s.lk with stage := st } }
  let t := storeHoldData t im
  Level.all t (withStage t)

/-- Every conflict is a retired tile made ACTIVE: STATE on its TL_MAP (R297). -/
def onlyRetired (s : State) (cs : List Conflict) : Bool :=
  cs.all fun c => c.code == 5 && (List.range 36).any fun p => c.a == R.TL_MAP p && s.flag (R.TL_RETIRE p) 0

/-- Spares take the indices of retired tiles, the lowest spare first (R141, R297). -/
def placeSpares (s : State) (st : List (Nat × Word)) : List (Nat × Word) :=
  (tilesWith fun p => mapState st p == 1 && s.flag (R.TL_RETIRE p) 0).foldl (fun st p =>
    match (tilesWith fun q => mapState st q == 0 && !Level.tileOut s q).head? with
    | some q => mapTo (mapOut st p) q (stageAt st (R.TL_MAP p))
    | none => mapOut st p) st

/-- What a reduced layout states for the index that tile `p` holds in the full layout: its TL_MAP record (R444). -/
def layoutFor (lay : List (Nat × Word)) (full : List (Nat × Word)) (l : Nat) : Option Word :=
  match (tilesWith fun p => mapState full p == 1 && mapLogical full p == l).head? with
  | some p => (lay.find? (·.1 = R.TL_MAP p)).map (·.2)
  | none => none

/-- A record of a layout keeps its index. -/
def keeps (v : Word) : Bool := bits v 6 5 == 1

/-- Whether an address is a TL_MAP. -/
def isTlMap (a : Nat) : Bool := (List.range 36).any fun p => a == R.TL_MAP p

/-- A reduced layout applied by logical index to the placed stage (R444). -/
def applyReduced (full placed : List (Nat × Word)) (rs : List (Nat × Word)) : List (Nat × Word) :=
  let lay := stageOf rs
  let active := tilesWith fun p => mapState placed p == 1
  let held := active.map (mapLogical placed)
  let stated := fun p => layoutFor lay full (mapLogical placed p)
  let dropped := active.filter fun p => match stated p with | some v => !keeps v | none => false
  let orphan := (List.range 32).filterMap fun l =>
    match layoutFor lay full l with
    | some v => if keeps v && !held.contains l then some v else none
    | none => none
  let st := active.foldl (fun st p => match stated p with
    | some v => if keeps v then mapTo st p v else st
    | none => st) placed
  let st := (dropped.zip orphan).foldl (fun st x => mapTo st x.1 x.2) st
  let st := (dropped.drop orphan.length).foldl (fun st p => putStage st (R.TL_MAP p) 0) st
  (lay.filter fun r => !isTlMap r.1).foldl (fun st r => putStage st r.1 r.2) st

/-- LOGICAL_COUNT that a layout states. -/
def layoutCount (rs : List (Nat × Word)) : Nat := bits (stageAt (stageOf rs) (R.GEOM_TOKEN 0)) 7 0

/-- The reduced layouts in descending LOGICAL_COUNT. -/
def byCount (lays : List (List (Nat × Word))) : List (List (Nat × Word)) :=
  ((List.range 256).reverse).flatMap fun c => lays.filter fun l => layoutCount l == c

/-- The stage a start applies for an image, and whether it is a reduced layout; none where nothing levels (R295, R297). -/
def startStage (s : State) (b : Bool) (im : Image) : Option (List (Nat × Word) × Bool) :=
  let full := stageOf (imageRegs im)
  let cs := startConflicts s b im full
  if cs.isEmpty then some (full, false)
  else if !onlyRetired s cs then none
  else
    let placed := placeSpares s full
    if (startConflicts s b im placed).isEmpty then some (placed, false)
    else ((byCount im.contents.reduced).map (applyReduced full placed)).findSome? fun st =>
      if (startConflicts s b im st).isEmpty then some (st, true) else none

/-! ### The slots (R295, Table 14-9) -/

/-- How a slot is judged. -/
inductive SlotResult
  | invalid
  | rollback
  | levelRefused
  | valid (stage : List (Nat × Word)) (reduced : Bool)
  deriving DecidableEq, Repr

/-- A slot of the flash. -/
def slotOf (s : State) (b : Bool) : FlashSlot := if b then s.se.slotB else s.se.slotA

/-- The slot's commit record is intact, with a matching SLOT, and the SM3 of the slot's LENGTH bytes is its DIGEST (R295). -/
def slotIntact (b : Bool) (x : FlashSlot) : Bool :=
  match x.commit, x.data with
  | some r, some im => r.slotB == b && decide (r.length ≤ im.bytes.length) && sm3Nat (im.bytes.take r.length) == r.digest.toNat
  | _, _ => false

/-- Judge a slot, in the order of R295. -/
def judgeSlot (s : State) (b : Bool) : SlotResult :=
  let x := slotOf s b
  match x.data with
  | none => .invalid
  | some im =>
    if !slotIntact b x || !imageFormed im || !imageSigned s.se.rootHash im then .invalid
    else if imageSecVer im < s.se.minVer then .rollback
    else if !imageGrade im s.grade then .invalid
    else match startStage s b im with
      | some r => .valid r.1 r.2
      | none => .levelRefused

/-- The slot judged first: the one whose commit record is intact, of two the greater GEN (R295). -/
def firstSlot (s : State) : Bool :=
  match s.se.slotA.commit, s.se.slotB.commit with
  | some a, some b => decide (0 < sdiff b.gen a.gen)
  | none, some _ => true
  | _, none => false

/-- Bits of SE_START_REP that a judgement adds. -/
def judgedRep : SlotResult → Nat
  | .rollback => 2 ^ 5
  | .levelRefused => 2 ^ 6
  | .valid _ true => 2 ^ 7
  | _ => 0

/-- What the record sectors say of a commit that a reset met (Table 14-9). -/
def sectorRep (x : FlashSlot) : Nat :=
  if x.commit.isSome then 0 else if x.intent.isSome then 2 ^ 2 else if x.blank then 0 else 2 ^ 3

/-- Bits joined. -/
def joinBits (xs : List Nat) : Nat := xs.foldl (· ||| ·) 0

/-- The outcome of the judging: the slot, its stage, and SE_START_REP. -/
def selectSlot (s : State) : Option (Bool × List (Nat × Word)) × Nat :=
  let b := firstSlot s
  let sectors := joinBits [sectorRep s.se.slotA, sectorRep s.se.slotB]
  let r := judgeSlot s b
  match r with
  | .valid st _ => (some (b, st), joinBits [sectors, bit b, judgedRep r])
  | _ =>
    let q := judgeSlot s (!b)
    match q with
    | .valid st _ => (some (!b, st), joinBits [sectors, bit (!b), 2 * bit (slotOf s b).commit.isSome, judgedRep r, judgedRep q])
    | _ => (none, joinBits [sectors, 2 ^ 4, judgedRep r, judgedRep q])

end Sys2Proof.Machine
end

