-- ==== Sys2Proof/Machine/Restart.lean ====
section
/-! DEFINITION. Machine/Restart.lean: companion resets (R324 to R328) and what each preserves (Table 15-8). -/

namespace Sys2Proof.Machine

/-- Causes of Table 15-7. -/
inductive ResetCause | powerOn | brownout | pin | software | lifeCycle
  deriving DecidableEq, Repr

/-- RST_CAUSE.CAUSE. -/
def causeCode : ResetCause → Nat
  | .powerOn => 1
  | .brownout => 2
  | .pin => 3
  | .software => 4
  | .lifeCycle => 5

/-- The retained registers (access RR). -/
def rrFixed : List Nat :=
  [R.SILENT_DIV, R.BC_SAFE_CAUSE, R.BC_SAFE_T, R.BC_SAFE_S, R.BC_RET_CNT, R.BC_STARTS, R.WD_RST_CNT, R.WD_RST_CAUSE, R.WD_RST_START,
   R.TAMPER_STAT, R.WIPE_CNT, R.RST_CAUSE, R.OWN_LAST, R.HD_REC_HEAD, R.BS_LOST_LO, R.BS_LOST_HI, R.BS_MARCH_RUN, R.TP_STOP_LAST,
   R.TP_STOP_T]

/-- Whether a register is retained across every reset but POWER_ON. -/
def isRetained (a : Nat) : Bool :=
  rrFixed.contains a || (List.range 36).any (fun p => a == R.TL_RETIRE p) || (List.range 4).any (fun n => a == R.BRKn_LOCK n) ||
  (List.range 64).any (fun i => a == R.BC_RETi_INFO i || a == R.BC_RETi_START i || a == R.BC_RETi_T i)

/-- VDD2H and VDDQ stand in their windows, from the self-refresh on. -/
def holdRailsGood (s : State) : Bool := (s.wr.ownBelow ||| s.wr.ownAbove) &&& 0x30 == 0

/-- HOLD_KEPT after a reset: Hold held data, or was still kept, and its rails stay (R326). -/
def holdKept (s : State) (c : ResetCause) : Bool :=
  c != .powerOn && holdRailsGood s && (s.hd.trained.all id || s.flag R.RST_CAUSE 8)

/-- The Basin banks a reset keeps: those marked PRESERVE, while the core supply stands (Table 15-8). -/
def bankKept (s : State) (c : ResetCause) (b : Nat) : Bool :=
  c != .powerOn && c != .brownout && decide (32 ≤ b) && s.flag (R.BANKb_CFG b) 4

/-- Whether a byte of memory outlives a reset. -/
def byteKept (s : State) (c : ResetCause) (a : Nat) : Bool :=
  if holdBase ≤ a then holdKept s c
  else decide (basinBase ≤ a ∧ a < basinBase + 0x2000000) && bankKept s c ((a - basinBase) / 0x80000)

/-- TL_MAP.STATE of the tiles that are out of use: FUSED (R139) or RETIRED (R140). -/
def markTiles (fused : List (Fin 36)) (t : State) : State :=
  foldN 36 (fun (t : State) p =>
    if fused.contains (Fin.ofNat 36 p) then t.setFld (R.TL_MAP p) 6 5 3
    else if t.flag (R.TL_RETIRE p) 0 then t.setFld (R.TL_MAP p) 6 5 2
    else t) t

/-- The registers after a reset: the retained ones, RST_CAUSE with the cause, the one before and HOLD_KEPT, the grade's GEOM_TOKEN, and
TL_MAP.STATE of the tiles that are out of use. -/
def regsAfter (s : State) (c : ResetCause) : List (Nat × Word) :=
  let t : State := { s with regs := if c == ResetCause.powerOn then [] else s.regs.filter fun p => isRetained p.1 }
  let prev := if c == ResetCause.powerOn then 0 else s.fld R.RST_CAUSE 3 0
  let t := t.setReg R.RST_CAUSE (BitVec.ofNat 32 (causeCode c + 16 * prev + 256 * bit (holdKept s c)))
  (markTiles s.fused (t.setReg (R.GEOM_TOKEN 0) (gradeToken s.grade))).regs

/-- The tiles fused off on a part of a grade (R1): none on -A and -M, eight on -L. The manual does not say which eight: they are
those that `pick` names first, the list filled up by tile number. -/
def fusedTiles (g : Grade) (pick : List (Fin 36)) : List (Fin 36) :=
  match g with
  | .A => []
  | .M => []
  | .L => ((pick ++ List.finRange 36).foldl (fun l p => if l.contains p then l else l ++ [p]) []).take 8

/-- A part as shipped: its grade, and the tiles Alfawell fused off. -/
def State.shipped (g : Grade) (pick : List (Fin 36)) : State :=
  let s : State := { State.reset with grade := g, fused := fusedTiles g pick }
  { s with regs := regsAfter s .powerOn }

/-- The slot a commit writes: the one not in use (R299); slot A where none is. -/
def targetB (s : State) : Bool := match s.se.useB with | some b => !b | none => false

/-- A slot of the flash after the reset of a commit to it (Table 14-9). What a reset leaves of a sector being erased, or of a commit
record being programmed, is a free value. -/
def slotAfter (s : State) (x : FlashSlot) : FlashSlot :=
  match s.se.commit with
  | .intent => { x with intent := none, commit := none, blank := s.free.1.getLsbD 0 }
  | .erase => { x with data := none }
  | .program => { x with data := none }
  | .record => { x with commit := if s.free.1.getLsbD 0 then s.se.commitRec else none }
  | _ => x

/-- Seal after a reset: OTP and flash stand, the Vault is lost, a commit is cancelled (R300). -/
def sealAfter (s : State) (c : ResetCause) : SealBlock :=
  { SealBlock.reset with
    life := if s.se.life = .service then .field else s.se.life
    svc := c != .powerOn && s.se.svc
    rootHash := s.se.rootHash
    wrapped := s.se.wrapped
    minVer := s.se.minVer
    slotA := if targetB s then s.se.slotA else slotAfter s s.se.slotA
    slotB := if targetB s then slotAfter s s.se.slotB else s.se.slotB }

/-- Milepost after a reset: the encoder lines as they stand. -/
def milepostAfter (s : State) : Milepost :=
  { Milepost.reset with encs := s.mp.encs.map fun e => ⟨false, e.a, e.b, false, 0, false, 0, none, 0, none, 0, []⟩ }

/-- A port after a reset: the accelerator's pins as they stand; RETIRED until the start, lost with the always-on domain (R94, Table 15-8). -/
def portAfter (c : ResetCause) (p : Port) : Port :=
  { Port.reset with ready := p.ready, fault := p.fault, therm := p.therm, retired := c != .powerOn && p.retired }

/-- The copies in a kept input ring: intact until Sluice writes over them (R338, R339). -/
def ringAfter (s : State) (c : ResetCause) : List RingBuf :=
  if holdKept s c then s.sl.ring.map fun r => { r with freed := true, at_ := 0 } else []

/-- Safe I/O after a reset: contacts, brake supply and seal loop as they stand. -/
def safeIoAfter (s : State) : SafeIo :=
  { SafeIo.reset with
    sins := s.sio.sins.map fun x => ⟨.demand, x.a, x.b, false, 0, 0, 0, 0⟩
    brakes := s.sio.brakes.map fun x => ⟨.off, false, false, 0, false, none, none, 0, 0, 0, x.reading, ⟨false, 0⟩, ⟨false, 0⟩, none⟩
    supply := s.sio.supply
    loopGood := s.sio.loopGood
    loopBad := s.sio.loopBad
    loopPos := s.sio.loopPos }

/-- A companion reset (R324 to R326). Every output takes its safe level, the down sequence completes within it, and the part waits
for the start. BC_SAFE_CAUSE is not overwritten before the next READY (R233). -/
def companionReset (s : State) (c : ResetCause) : State :=
  { State.reset with
    grade := s.grade
    fused := s.fused
    regs := regsAfter s c
    mem := s.mem.filter fun x => byteKept s c x.1
    mp := milepostAfter s
    sl := { Sluice.reset with csiLock := s.sl.csiLock, ethLink := s.sl.ethLink, ring := ringAfter s c }
    mr := { Mooring.reset with ports := s.mr.ports.map (portAfter c) }
    tiles := s.tiles.mapFinIdx fun p _ _ => { Tile.reset with run := if c != .powerOn && s.flag (R.TL_RETIRE p) 0 then .retired else .off }
    sio := safeIoAfter s
    se := sealAfter s c
    bc := { Beacon.reset with safeSaved := c != .powerOn && s.bc.safeSaved, retOrder := if c = .powerOn then [] else s.bc.retOrder }
    wr := { Weir.reset with ownBelow := s.wr.ownBelow, ownAbove := s.wr.ownAbove }
    hd := { Hold.reset with raw144 := s.hd.raw144, selfRefresh := c != .powerOn, recTimes := if holdKept s c then s.hd.recTimes.map fun _ => 0 else [] }
    tp := { Towpath.reset with ports := s.tp.ports.map fun q => ⟨q.link, false, none, false, 0, 0, 0, none⟩ }
    freeIdx := s.freeIdx + 1
    draws := s.draws
    pending := s.pending }

/-- BROWNOUT (R316): VDD_AON below its power-on threshold resets as POWER_ON, any other rail as BROWNOUT. -/
def execBrownout (powerOn : Bool) (s : State) : Out := .next (companionReset s (if powerOn then .powerOn else .brownout))

/-- PIN_RESET (R324). -/
def execPinReset (s : State) : Out := .next (companionReset s .pin)

/-- RST_REQ (R328): a pair that became a standby pair may write it too (R389). -/
def execRstReq (i : Initiator) (v : Word) (s : State) : Out :=
  .next (s.keeperWrite i fun t => if v = 0x5E7A0001 then companionReset t .software else s.busError i)

end Sys2Proof.Machine
end

