-- ==== Sys2Proof/Machine/Start.lean ====
section
/-! DEFINITION. Machine/Start.lean: the start sequence (R309 to R315): each step's completion, its failures, READY. -/

namespace Sys2Proof.Machine

/-- Enter a step. -/
def toStep (s : State) (k : BitVec 4) : State := updWr s fun w => { w with step := k }

/-! ### Step 1: RAILS -/

/-- Retirements marked "until the next start" end: ACTIVE stays on the tiles' entries alone (R231). -/
def endRetirements (s : State) : State :=
  let tile := fun (i : Nat) => retKind (s.fld (R.BC_RETi_INFO i) 6 0) == some .tile
  let s := foldN 64 (fun s i => if retActive s i && !tile i then s.setFld (R.BC_RETi_INFO i) 13 13 0 else s) s
  let live := (List.range 64).filter (retActive s)
  updBc s fun b => { b with retired := live.map fun i => (BitVec.ofNat 7 (s.fld (R.BC_RETi_INFO i) 6 0), BitVec.ofNat 6 (s.fld (R.BC_RETi_INFO i) 12 7)) }

/-- POWER_GOOD (R309): PWROK with every own rail in its window; the start begins. TIME_NS restarts, LC_NONCE and START_NONCE are
drawn (R153, R288), Lantern counts from here (R400, R406), and the Vault's engine clears it (R346). -/
def execPowerGood (s : State) : Out :=
  .next (if s.wr.step ≠ 0 then s
    else
      let ports := s.mr.ports.map fun p => { p with retired := false }
      let s := { s with cycle := 0 }
      let s := newWindows (updLn s fun l => { l with cyc := 0 })
      let s := { s with se := { s.se with wiping := some 0, wipeCause := 0 } }
      let s := { s with mr := { s.mr with ports := ports } }
      let s := endRetirements (s.wrapInc R.BC_STARTS 31 0)
      let d := s.draw
      let s := { d.2 with au := { d.2.au with startNonce := d.1.setWidth 64 } }
      let d := s.draw
      let s := { d.2 with se := { d.2.se with nonce := d.1.setWidth 64 } }
      toStep (updWr s fun w => { w with ownBelow := 0, ownAbove := 0 }) 1)

/-! ### Steps 1 to 4 -/

/-- Base of the Vault; part p at +0x4_0000·p. -/
def vaultBase : Nat := 0x24000000

/-- The Vault cleared, every part verified (R346); its keys are gone. -/
def clearVault (s : State) (verified : Byte) : State :=
  let s := s.wipe vaultBase 0x200000
  let s := { s with se := { s.se with deviceKey := none, siteSeed := none } }
  { s with bs := { s.bs with vaultOk := verified } }

/-- Step 2: the life-cycle state is decided (R286), the device key unwrapped (R292). A BLANK or SCRAPPED device runs only the ROM
(Table 14-1, R290). -/
def stepRom (s : State) : State :=
  match s.se.life with
  | .blank => s
  | .scrapped => s
  | _ =>
    let life := if s.se.svc && s.se.life == .field then .service else s.se.life
    toStep { s with se := { s.se with life := life, deviceKey := s.se.wrapped } } 3

/-- Put a stage into effect as a lock cycle of the start (R307). -/
def openStart (s : State) (st : List (Nat × Word)) : State := openStage { s with lk := { s.lk with stage := st } }

/-- Step 3: the slots are judged; the selected image's seed is in the Vault, its REGS in effect, its runtime in both TCMs. No valid
slot: the factory defaults (R295, R296). -/
def stepImage (s : State) : State :=
  let r := selectSlot s
  let s := { s with se := { s.se with startRep := BitVec.ofNat 32 r.2 } }
  match r.1 with
  | none => startFail { s with se := { s.se with defaults := true } } 3
  | some (b, st) =>
    let seed := match (slotOf s b).data with | some im => siteSeedOf im s.se.deviceKey | none => none
    let s := { s with se := { s.se with useB := some b, siteSeed := seed } }
    let s := openStart s st
    toStep (loadTcm (loadTcm s (keeperSection s) 0) (keeperSection s) 1) 4

/-- Step 4: the seal switches as read with both pulls, and the seal loop (R277, R278); Towpath runs from its end. -/
def stepSeal (s : State) (pattern float : Byte) : State :=
  let ok := pattern.toNat == s.fld R.SEAL_EXPECT 7 0
  let s := { s with sio := { s.sio with sealPattern := pattern, sealFloat := float, sealMatch := ok, loopGoodStart := s.sio.loopGood } }
  if !ok || float != 0 || !s.sio.loopGood then startFail s 4
  else toStep (updTp s fun t => { t with upAt := some s.cycle, siteSeenAt := s.cycle }) 5

/-! ### Steps 5 and 6 -/

/-- Mark a bank's contents lost. -/
def markLost (s : State) (b : Nat) : State := if b < 32 then s.setBit R.BS_LOST_LO b else s.setBit R.BS_LOST_HI (b - 32)

/-- Before step 6 (R349): a run that a reset cut short, and the PRESERVE banks of a BROWNOUT start. -/
def lostBanks (s : State) : State :=
  let s := if s.flag R.BS_MARCH_RUN 31 then (markLost (s.setReg R.BS_MARCH_RUN 0) (s.fld R.BS_MARCH_RUN 5 0)).raise 78 0 else s
  if s.fld R.RST_CAUSE 3 0 = 2 then foldN 64 (fun s b => if s.flag (R.BANKb_CFG b) 4 then markLost s b else s) s else s

/-- Step 6 begins the runs of banks 0 to 7; each engine goes on with its next bank as a run ends (R312). -/
def stepMarch (s : State) : State := foldN 8 (fun s b => beginMarch s (Fin.ofNat 64 b) (marchKeeps s b)) s

/-- Brake channels the image enables. -/
def brakesOn (s : State) : List (Fin 4) := (List.finRange 4).filter fun n => s.flag (R.BRKn_CFG n.val) 0

/-- Step 5: the brake supply in its window (R279), every start test passed (R280), every checker glinted with result OK (R240). -/
def stepGlint (s : State) : State :=
  if !supplyInWindow s then supplyFault s
  else if !s.bc.startGlintOk then startFail s 5
  else if !s.bc.glints.isEmpty || !(s.sio.startTested || (brakesOn s).isEmpty) || !(startChecks s).all s.bc.passed.contains then s
  else stepMarch (toStep (lostBanks s) 6)

/-- A channel's start test (R280): in each of the four gate steps the readback is as Table 13-2 has it; the coil is never energised, and the
gates have been off since before the reset. -/
def brakeTestOk (s : State) (n : Fin 4) (t : BrakeTest) : Bool :=
  nodesAsExpected false false t.off1 && currentOff s n t.off1 && nodesAsExpected false true t.lsg && currentOff s n t.lsg &&
  nodesAsExpected true false t.hsg && currentOff s n t.hsg && nodesAsExpected false false t.off2 && currentOff s n t.off2

/-- The brake start tests, once BRK_VS lies in its window (R279): a channel that fails is locked with cause START. -/
def brakeStart (s : State) (ts : Vector BrakeTest 4) : State :=
  if !supplyInWindow s then supplyFault s
  else
    let bad := (brakesOn s).filter fun n => !brakeTestOk s n ts[n]
    if bad.isEmpty then { s with sio := { s.sio with startTested := true } }
    else startFail (bad.foldl lockStart s) 6

/-- The runs of step 6 end: the destroying ones leave zeros, in the SRAM and accumulators of every tile in use and in the banks not marked
PRESERVE outside the image buffer (R312). -/
def marchAll (s : State) : State :=
  let s := foldN 36 (fun s p =>
    if Level.tileOut s p then s else (updTile s (Fin.ofNat 36 p) fun t => { t with acc := Tile.reset.acc }).wipe (tileBase p) sramSize) s
  let s := foldN 64 (fun s b => if marchKeeps s b then s else s.wipe (basinBase + 0x80000 * b) 0x80000) s
  (updBs s fun x => { x with marches := [] }).setReg R.BS_MARCH_RUN 0

/-- The geometry of R297 after a retirement in step 6: the image's layout again, on spares or reduced, or no layout. -/
def relevel (s : State) : State :=
  match s.se.useB with
  | none => startFail s 7
  | some b => match (slotOf s b).data with
    | none => startFail s 7
    | some im => match startStage s b im with
      | none => startFail s 7
      | some (st, red) =>
        let s := if red then { s with se := { s.se with startRep := s.se.startRep ||| 0x80#32 } } else s
        toStep (marchAll (openStart s st)) 7

/-- A failing bank ends the start; failing tiles are retired (R312, log entry 72). -/
def marchFails (s : State) (tiles : List (Fin 36)) (bank : Bool) : State :=
  if bank then startFail s 7
  else
    let bad := tiles.filter fun p => !Level.tileOut s p.val
    if bad.isEmpty then s else relevel (bad.foldl (fun s p => retireUnit s 40 p.val) s)

/-! ### Step 7: HOLD -/

/-- Step 7's training has succeeded: the sequencer starts where AUTO_UP says so (R313, R319). -/
def stepTrained (s : State) : State :=
  let s := { s with hd := { s.hd with trained := Vector.replicate 16 true } }
  if s.flag R.SEQ_CTRL 0 then startUp (toStep s 8)
  else updWr (toStep s 9) fun w => { w with step9At := some s.cycle }

/-- The recorder region's size in bytes. -/
def recSize (s : State) : Nat := 1048576 * s.fld R.HD_REC_SIZE 14 0

/-- A kept log slot that names an agreed copy: the ring offset after that copy (R339). -/
def copyEnd (s : State) (i : Nat) : Option Nat :=
  let slot := s.bytes (recBase s + 64 * i) 64
  let copy := fieldLE slot 40 5
  if fieldLE slot 0 1 = 1 ∧ fieldLE slot 1 1 % 2 = 0 ∧ ringBase s ≤ copy then some (copy + fieldLE slot 16 4 - ringBase s) else none

/-- Where Sluice writes its first copy: after the last copy that the kept log names. -/
def ringResume (s : State) : Nat :=
  let n := logSlots s
  let head := (s.reg R.HD_REC_HEAD).toNat
  ((List.range n).findSome? fun k => copyEnd s ((head + n - 1 - k) % n)).getD 0

/-- The image's tile programs in the SRAM of the tiles that hold their indices (R309). -/
def loadTiles (s : State) (im : Image) : State :=
  im.contents.tilePrograms.foldl (fun s x => match holder s x.1 with
    | some p => x.2.foldl (fun s c => s.store (tileBase p + c.1) [c.2]) s
    | none => s) s

/-- Hold cleared by the fill: the recorder region stays where it is kept. -/
def clearHold (s : State) (kept : Bool) : State :=
  let inRec := fun (a : Nat) => kept && decide (recBase s ≤ a ∧ a < recBase s + recSize s)
  { s with mem := s.mem.filter fun c => decide (c.1 < holdBase) || inRec c.1 }

/-- The fill ends (R313, R339, R344): Hold is zero but for a kept recorder region, the image's data is in place, the image buffer is
cleared and released, the scrub begins; log slots and accesses that waited are served. -/
def fillEnds (s : State) : State :=
  let kept := s.flag R.RST_CAUSE 8
  let waiting := s.hd.recWait
  let s := clearHold s kept
  let s := if kept then { s with sl := { s.sl with ringWrite := ringResume s } } else s.setReg R.HD_REC_HEAD 0
  let s := updHd s fun h => { h with filled := true, trained := Vector.replicate 16 true, unc := [], scrub := 0, scrubPassAt := s.cycle, scrubFrom := s.cycle, recWait := [],
                                     recTimes := if kept then h.recTimes else [] }
  let s := updWr (s.wipe basinBase 0x1000000) fun w => { w with fillAt := some s.cycle }
  let s := match usedImage s with
    | none => s
    | some im => updHd (loadTiles (storeHoldData s im) im) fun h => { h with keeper := imageKeeper im }
  serveBasin (serveHold (waiting.foldl writeSlot s))

/-! ### Steps 9 and 10 -/

/-- Every enabled port SERVING, or the accelerator left unpowered (AUTO_UP clear). -/
def linksUp (s : State) : Bool :=
  !s.flag R.SEQ_CTRL 0 || (List.range 2).all fun n => !portEnabled s (Fin.ofNat 2 n) || serving s (Fin.ofNat 2 n)

/-- The slot of a lamp's release at the start: its LAMP post's SLOT (log entry 73). -/
def startSlotOf (s : State) (l : Nat) : Nat :=
  match Level.lampPost s l with
  | some p => s.fld (R.POSTp_CFG p) 31 24
  | none => 0

/-- Results of the lamps released so far: a PASS is done with, another result frees the lamp for its second release, or, at the
second, fails the start. -/
def lampResults (s : State) : State :=
  let result := fun (x : StartLamp) => match x.barge with
    | none => (0 : BitVec 4)
    | some b => match s.barge? b with | some y => y.lampRes | none => 0
  let bad := s.wr.lamps.any fun x => result x != 0 && result x != 1 && decide (2 ≤ x.tries)
  let left := (s.wr.lamps.filter fun x => result x != 1).map fun x => if result x = 0 then x else { x with barge := none }
  let s := updWr s fun w => { w with lamps := left }
  if bad then startFail s 0xA else s

/-- Whether the next lamp to release waits for its golden region (R314). -/
def lampWaits (s : State) : Bool :=
  match s.wr.lamps.find? fun x => x.barge.isNone with
  | some x => lampUnverified s x.lamp.val
  | none => false

/-- Release the lamps that wait, in ascending order, up to one that waits for its golden region. -/
def lampReleases : List StartLamp → State → List StartLamp × State
  | [], s => ([], s)
  | x :: xs, s =>
    if x.barge.isSome then let r := lampReleases xs s; (x :: r.1, r.2)
    else if lampUnverified s x.lamp.val then (x :: xs, s)
    else
      let b := s.reg R.BARGE_NEXT
      let r := lampReleases xs (lampGaps (releaseLamp s x.lamp (startSlotOf s x.lamp.val)))
      ({ x with barge := some b, tries := x.tries + 1 } :: r.1, r.2)

/-- The start sequencer's work in step 10. -/
def lampPump (s : State) : State :=
  if s.wr.step ≠ 10 ∨ s.wr.fail ≠ 0 ∨ s.wr.ready then s
  else
    let s := lampResults s
    if s.wr.fail ≠ 0 then s
    else
      let r := lampReleases s.wr.lamps s
      updWr r.2 fun w => { w with lamps := r.1 }

/-- Step 10 begins: every enabled lamp waits for its release, in ascending number. -/
def stepLamps (s : State) : State :=
  let ls := ((List.range 256).filter fun l => s.flag (R.LMPl_CFG l) 0).map fun l => (⟨Fin.ofNat 256 l, 0, none⟩ : StartLamp)
  lampPump (updWr (toStep s 10) fun w => { w with lamps := ls })

/-- The fused minimum security version rises to the running image's (R298). -/
def rollForward (s : State) : State :=
  match usedImage s with
  | some im => if s.flag R.SE_CTRL 1 && decide (s.se.minVer < imageSecVer im) then { s with se := { s.se with minVer := imageSecVer im } } else s
  | none => s

/-- READY (R309): SAFE_N may rise, Sluice opens barges, the start record is formed, reached posts are advanced, and the fused
minimum version follows the image where ROLL_ADV says so (R69, R93, R206, R298, R315). -/
def becomeReady (s : State) : State :=
  let ms := (s.cycle - s.wr.excl) / 750000
  let s := updWr s fun w => { w with ready := true, readyNext := s.reg R.BARGE_NEXT, startTime := BitVec.ofNat 16 (min ms 0xFFFF) }
  let s := restartAll { s with sl := { s.sl with suspended := false } } fun _ => true
  let s := { s with mr := { s.mr with ports := s.mr.ports.map fun p => { p with heldOff := false } } }
  rollForward (foldN 256 readyPost (formStart (updBc s fun b => { b with safeSaved := false })))

/-- Step 10: every lamp has passed. -/
def stepReady (s : State) : State :=
  let s := lampPump s
  if s.wr.fail ≠ 0 ∨ !s.wr.lamps.isEmpty then s
  else if s.wr.safeSinceStart then startFail s 0xB
  else becomeReady s

/-! ### START_STEP_COMPLETE and START_TIMEOUT -/

/-- The codes of Table 15-3 with which each step's own work can fail. -/
def failCodes (step : BitVec 4) : List (BitVec 4) :=
  match step.toNat with
  | 5 => [5, 6]
  | 6 => [7]
  | 7 => [8]
  | 8 => [8]
  | 9 => [8]
  | n => if 1 ≤ n ∧ n ≤ 4 then [BitVec.ofNat 4 n] else []

/-- A step succeeds. -/
def stepOk (s : State) : State :=
  match s.wr.step.toNat with
  | 1 => toStep (if s.se.wiping.isSome then clearVault { s with se := { s.se with wiping := none } } 0xFF else s) 2
  | 2 => stepRom s
  | 3 => stepImage s
  | 5 => stepGlint s
  | 6 => toStep (marchAll s) 7
  | 7 => stepTrained s
  | 8 => if s.hd.filled then s else fillEnds s
  | 9 => if !s.hd.filled then fillEnds s else if linksUp s then stepLamps s else s
  | 10 => stepReady s
  | _ => s

/-- A step's work fails; a training failure asserts ES66 (R334), and a fill that fails beside step 8 or 9 is a failure of step 7 (Table 15-1). -/
def stepFails (s : State) (code : BitVec 4) : State :=
  if !(failCodes s.wr.step).contains code || (8 ≤ s.wr.step && s.hd.filled) then s
  else
    let s := if s.wr.step = 7 then s.raise 66 0 else s
    startFail (if code = 8 then toStep s 7 else s) code

/-- START_STEP_COMPLETE (R309, R311). In steps 8 and 9 the first completion is the fill's, which runs beside them
and goes on where one of them fails. Under the factory defaults Hold is trained and filled too: the recovery loader commits an image from it
(R296, log entry 103). -/
def execStartStepComplete (r : StepResult) (s : State) : Out :=
  .next (if s.wr.ready then s
    else if s.wr.fail ≠ 0 then (if r == .ok && (8 ≤ s.wr.step || s.se.defaults) && !s.hd.filled then fillEnds s else s)
    else match r with
      | .ok => stepOk s
      | .sealSwitches p f => if s.wr.step = 4 then stepSeal s p f else s
      | .brakeTest ts => if s.wr.step = 5 then brakeStart s ts else s
      | .marchFail ts b => if s.wr.step = 6 then marchFails s ts b else s
      | .fail code => stepFails s code)

/-- START_TIMEOUT (R311): START_TMO milliseconds after step 9 was entered. -/
def execStartTimeout (s : State) : Out :=
  .next (match s.wr.step9At with
    | some c => if !s.wr.ready && decide (msCycles (s.fld R.START_TMO 15 0) ≤ s.cycle - c) then startFail s 0xC else s
    | none => s)

/-- What a cycle of the start excludes from START_STAT.TIME: an accelerator's boot after the fill, and a lamp's wait for its golden
region (R310, R314). -/
def startExcludes (s : State) : Bool :=
  s.wr.fail == 0 && !s.wr.ready &&
  ((s.wr.step == 9 && s.hd.filled && (List.range 2).any fun n => s.mr.ports[Fin.ofNat 2 n].state == .waitReady) ||
   (s.wr.step == 10 && lampWaits s))

/-- The start's part of one TCLK cycle. -/
def tickStart (s : State) : State :=
  let s := if startExcludes s then updWr s fun w => { w with excl := w.excl + 1 } else s
  lampPump s

end Sys2Proof.Machine
end

