-- ==== Sys2Proof/Machine/Seal.lean ====
section
/-! DEFINITION. Machine/Seal.lean: life-cycle requests (R285 to R289), provisioning (R287), tamper and Vault wipes (R291, R346),
golden regions (R294), image commits (R299 to R301), attestation (R302). -/

namespace Sys2Proof.Machine

/-- Change Seal's state. -/
def updSe (s : State) (f : SealBlock → SealBlock) : State := { s with se := f s.se }

/-! ### Wipes (R291, R292, R346) -/

/-- A wipe counts in WIPE_CNT with its cause: 1 tamper, 2 life cycle. -/
def countWipe (s : State) (cause : Nat) : State := (s.satAdd R.WIPE_CNT 15 0 1).setFld R.WIPE_CNT 17 16 cause

/-- A wipe starts, or restarts from its first word; the keys are gone. -/
def startWipe (s : State) (cause : Nat) : State :=
  updSe (countWipe s cause) fun x =>
    { x with wiping := some s.cycle, wipeCause := BitVec.ofNat 2 cause, deviceKey := none, siteSeed := none }

/-- TAMPER_STAT's bit of a detector. -/
def tamperBit : TamperKind → Nat
  | .mesh => 0
  | .voltage => 1
  | .clock => 2

/-- TAMPER_DETECT (R291): the wipe without Beacon, TAMPER_STAT, ES125. -/
def execTamperDetect (k : TamperKind) (s : State) : Out :=
  .next ((startWipe ((s.setBit R.TAMPER_STAT (tamperBit k)).satAdd R.TAMPER_STAT 15 8 1) 1).raise 125 0)

/-- VAULT_WIPE_DONE (R346): 12,288 TCLK after the wipe began; a part that reads back not zero raises ES76. -/
def execVaultWipeDone (badParts : BitVec 8) (s : State) : Out :=
  .next (match s.se.wiping with
    | none => s
    | some c =>
      if s.cycle - c < 12288 then s
      else
        let s := clearVault (updSe s fun x => { x with wiping := none }) (~~~badParts)
        let s := s.setBit R.BS_IRQ_STAT 4
        if badParts = 0 then s else s.raise 76 0)

/-- VAULT_WIPE_TIMEOUT (R291): 50 µs after the cause; the clear of step 1 has none. -/
def execVaultWipeTimeout (s : State) : Out :=
  .next (match s.se.wiping with
    | none => s
    | some c => if s.se.wipeCause ≠ 0 ∧ usCycles 50 ≤ s.cycle - c then s.raise 76 0 else s)

/-! ### Life cycle (R285 to R289) -/

/-- State codes of Table 14-1. -/
def lifeCode : Life → Nat
  | .blank => 0
  | .provisioned => 1
  | .field => 2
  | .service => 3
  | .scrapped => 4

/-- Bytes of the token buffer SE_TOKEN0-31. -/
def tokenBytes (s : State) : List Byte := s.se.token.toList.flatMap fun w => bytesLE 4 w.toNat

/-- The transitions of Table 14-2 by LC_REQ: whether there is one from the state in effect to a target. -/
def isTransition (l : Life) (target : Nat) : Bool :=
  match l, target with
  | .provisioned, 2 => true
  | .field, 3 => true
  | .service, 2 => true
  | .provisioned, 4 => true
  | .field, 4 => true
  | .service, 4 => true
  | _, _ => false

/-- The root public key whose hash is fused: ROOT_PUB of the image in use, which has that hash (R295); with no image a free value (log
entry 67). -/
def rootPublic (s : State) (h : BitVec 256) : BitVec 512 :=
  match usedImage s with
  | some im => imageRootPub im
  | none => Config.rootKey h

/-- A token's first failing check (R288): LC_STAT's code, 1 where all pass. -/
def tokenCode (s : State) (target : Nat) : Nat :=
  let t := tokenBytes s
  let signed := match s.se.rootHash with | some h => Sm2.verify (rootPublic s h) (t.take 64) (t.drop 64) | none => false
  if !signed then 2
  else if fieldLE t 4 8 ≠ Config.deviceId.toNat then 3
  else if fieldLE t 12 8 ≠ s.se.nonce.toNat then 4
  else if fieldLE t 0 1 = 9 ∧ fieldLE t 1 1 % 8 = target ∧ isTransition s.se.life target then 1
  else 5

/-- A commit is in progress. -/
def committing (s : State) : Bool := s.se.commit != .idle && s.se.commit != .done

/-- The code a request gets (Table 14-4): SERVICE to FIELD needs no token. -/
def lcCode (s : State) (v : Word) : Nat :=
  if committing s then 6
  else if bits v 31 16 ≠ 0x1C5E then 5
  else if s.se.life = .service ∧ bits v 2 0 = 2 then 1
  else tokenCode s (bits v 2 0)

/-- Record the new state; SCRAPPED makes the wrapped key unrecoverable (R290). -/
def recordLife (target : Nat) (x : SealBlock) : SealBlock :=
  match target with
  | 3 => { x with svc := true }
  | 4 => { x with life := .scrapped, svc := false, wrapped := none }
  | _ => { x with life := .field, svc := false }

/-- LC_REQUEST (R288, R289): an accepted transition wipes the Vault, records the new state and resets the companion. -/
def execLcRequest (i : Initiator) (v : Word) (s : State) : Out :=
  .next (s.keeperWrite i fun s =>
    let c := lcCode s v
    if c = 1 then companionReset (updSe (clearVault (countWipe s 2) 0xFF) (recordLife (bits v 2 0))) .lifeCycle
    else s.setReg R.LC_STAT_SEAL (BitVec.ofNat 32 c))

/-- PROVISIONING_REQUEST (R287, R289): BLANK to PROVISIONED while the ROM loader runs; as every accepted transition it wipes the Vault,
records the state and resets the companion. -/
def execProvisioningRequest (rootHash : BitVec 256) (s : State) : Out :=
  .next (if s.se.life = .blank ∧ s.wr.step = 2 then
    let d := s.draw
    companionReset (updSe (clearVault (countWipe d.2 2) 0xFF) fun x =>
      { x with rootHash := some rootHash, wrapped := some (Sm2.keyFrom d.1), life := .provisioned }) .lifeCycle
  else s)

/-- SE_DEVPUB: the device public key, once the device is provisioned. -/
def devicePublic (s : State) : BitVec 512 := match s.se.wrapped with | some k => Sm2.publicKey k.toNat | none => 0

/-! ### Golden regions (R294) -/

/-- GOLDEN_VERIFY: a write to SE_GOLD_REQ; requests are served in order. -/
def execGoldenVerify (i : Initiator) (v : Word) (s : State) : Out :=
  .next (s.openWrite i R.SE_GOLD_REQ fun s => sm3Ask (updSe s fun x => { x with golds := x.golds ++ [Fin.ofNat 64 (bits v 5 0)] }) .golden)

/-- The region's bytes in Hold have the image's digest. -/
def goldMatches (s : State) (k : Fin 64) : Bool :=
  (goldens s).any fun g => g.region == k && sm3Nat (s.bytes g.addr g.len) == g.digest.toNat

/-- A golden region cannot be read: a word of it is uncorrectable, found now or before (R332). -/
def goldUnread (s : State) (k : Fin 64) (ok : Bool) : Option Golden :=
  (goldens s).find? fun g => g.region == k && (!ok || (holdUncIn s g.addr g.len).isSome)

/-- GOLDEN_VERIFY_DONE, once the SM3 engine serves it (R284): `ok` says that every word of the region could be read. -/
def execGoldenVerifyDone (ok : Bool) (s : State) : Out :=
  .next (match if sm3Serves s .golden then s.se.golds else [] with
    | [] => s
    | k :: rest =>
      let s := (sm3Drop (updSe s fun x => { x with golds := rest }) .golden).setBit R.SE_IRQ_STAT 2
      match goldUnread s k ok with
      | some g => holdBadRead s g.addr g.len
      | none => if goldMatches s k then (if k.val < 32 then s.setBit R.SE_GOLD_OK_LO k.val else s.setBit R.SE_GOLD_OK_HI (k.val - 32)) else s)

/-! ### Commits (R299 to R301) -/

/-- SE_COMMIT_STAT's PHASE and RESULT. -/
def phaseCode : CommitPhase → Nat
  | .idle => 0
  | .check => 1
  | .intent => 2
  | .erase => 3
  | .program => 4
  | .verify => 5
  | .record => 6
  | .done => 7

/-- Enter a phase with a result. -/
def toPhase (s : State) (p : CommitPhase) (result : Nat) : State :=
  let s := updSe s fun x => { x with commit := p, commitResult := BitVec.ofNat 4 result, phaseAt := s.cycle }
  s.setReg R.SE_COMMIT_STAT (BitVec.ofNat 32 (phaseCode p + 16 * result))

/-- SE_COMMIT_STAT.PROGRESS: 4 KiB blocks done in a phase that works through the image. -/
def commitProgress (s : State) : Nat :=
  match s.se.commit with
  | .idle => 0
  | .intent => 0
  | .record => 0
  | .done => 0
  | p => min ((s.se.commitLen + 4095) / 4096) (Config.commitPace (phaseCode p) (s.cycle - s.se.phaseAt)) % 8192

/-- A commit ends without DONE: the phase returns to IDLE, the result stands. -/
def commitEnds (s : State) (result : Nat) : State :=
  (toPhase (sm3Drop (updSe s fun x => { x with commitAbort := false }) .commit) .idle result).setBit R.SE_IRQ_STAT 0

/-- Change the target slot. -/
def updTarget (s : State) (f : FlashSlot → FlashSlot) : State :=
  updSe s fun x => if targetB s then { x with slotB := f x.slotB } else { x with slotA := f x.slotA }

/-- What an operation cut short leaves of the target, as a reset in the phase would. -/
def spoilTarget (s : State) : State :=
  let t := updTarget s fun x => { slotAfter s x with commit := if s.se.commit = .check then x.commit else none }
  { t with freeIdx := t.freeIdx + 1 }

/-- An ABORT leaves the target without a commit record, in whichever phase it takes effect (R300). -/
def abortTarget (s : State) : State := updTarget (spoilTarget s) fun x => { x with commit := none }

/-- IMAGE_GEN: GEN of the image in use. -/
def imageGen (s : State) : Word := match s.se.useB with | some b => (match (slotOf s b).commit with | some r => r.gen | none => 0) | none => 0

/-- COMMIT_START (R299): accepted with COMMIT_EN, and by the recovery loader of a start under the factory defaults (R296). A START
while a commit runs is ignored (log entry 76). -/
def execCommitStart (i : Initiator) (contents : Contents) (s : State) : Out :=
  .next (s.openWrite i R.SE_COMMIT_CMD fun s =>
    if committing s then s
    else if !s.flag R.SE_CTRL 0 && !s.se.defaults then toPhase s .idle 5
    else
      let src := (s.reg64 R.SE_COMMIT_SRC_LO).toNat % 2 ^ 40
      toPhase (updSe (sm3Ask s .commit) fun x => { x with
        commitSrc := src, commitLen := (s.reg R.SE_COMMIT_LEN).toNat, commitContents := contents, commitRec := none, commitAbort := false }) .check 0)

/-- COMMIT_ABORT (R300): takes effect at the next boundary. -/
def execCommitAbort (i : Initiator) (s : State) : Out :=
  .next (s.openWrite i R.SE_COMMIT_CMD fun s => if committing s then updSe s fun x => { x with commitAbort := true } else s)

/-- The image as it stands in Hold. -/
def commitImage (s : State) : Image := ⟨s.bytes s.se.commitSrc s.se.commitLen, s.se.commitContents⟩

/-- CHECK's result: 0 where the image may be committed. -/
def checkCode (s : State) (im : Image) : Nat :=
  if !imageFormed im then 4
  else if !imageSigned s.se.rootHash im then 2
  else if !imageGrade im s.grade then 4
  else if imageSecVer im < s.se.minVer then 3
  else 0

/-- The record of a commit: the target, the image's SEC_VER, length and digest as CHECK takes them, and the next GEN (Table 14-8). -/
def commitRecord (s : State) (im : Image) : FlashRecord := ⟨targetB s, imageSecVer im, imageGen s + 1, im.bytes.length, imageDigest im⟩

/-- What the target slot reads back has the digest taken in CHECK. -/
def readBackOk (s : State) : Bool :=
  match (slotOf s (targetB s)).data, s.se.commitRec with
  | some im, some r => imageDigest im == r.digest
  | _, _ => false

/-- A phase's operation has succeeded. -/
def phaseOk (s : State) : State :=
  match s.se.commit with
  | .check =>
    let im := commitImage s
    if checkCode s im = 0 then toPhase (sm3Drop (updSe s fun x => { x with commitRec := some (commitRecord s im) }) .commit) .intent 0
    else commitEnds s (checkCode s im)
  | .intent => toPhase (updTarget s fun x => { x with intent := s.se.commitRec, commit := none, blank := false }) .erase 0
  | .erase => toPhase (updTarget s fun x => { x with data := none }) .program 0
  | .program => toPhase (sm3Ask (updTarget s fun x => { x with data := some (commitImage s) }) .commit) .verify 0
  | .verify => if readBackOk s then toPhase (sm3Drop s .commit) .record 0 else commitEnds s 7
  | .record => (toPhase (updTarget s fun x => { x with commit := s.se.commitRec }) .done 1).setBit R.SE_IRQ_STAT 0
  | _ => s

/-- The result of a phase whose operation fails: VERIFY_BAD, FLASH_ERR, and FORMAT for an image CHECK cannot read. -/
def phaseFault : CommitPhase → Nat
  | .check => 4
  | .verify => 7
  | _ => 6

/-- A phase whose digest the SM3 engine has not come to (R284). -/
def phaseWaits (s : State) : Bool := (s.se.commit == .check || s.se.commit == .verify) && !sm3Serves s .commit

/-- COMMIT_PHASE_DONE (R299, R301): the phase's operation ends, or the abort that waits for its boundary. A flash status error, or an
operation past four times its limit, ends every phase that works on the flash with FLASH_ERR; CHECK does not. -/
def execCommitPhaseDone (r : PhaseResult) (s : State) : Out :=
  .next (if !committing s then s
    else if s.se.commitAbort then commitEnds (abortTarget s) 8
    else if phaseWaits s then s
    else match r with
      | .ok => phaseOk s
      | .failed => commitEnds (spoilTarget s) (phaseFault s.se.commit)
      | .flashError => if s.se.commit = .check then s else commitEnds (spoilTarget s) 6)

/-! ### Attestation (R302) -/

/-- M_IMAGE and M_KEEPER of the image in use; zeros under the defaults. -/
def imageMeasure (s : State) : List Byte :=
  match usedImage s with
  | some im => bytesBE 32 (imageDigest im).toNat ++ Sm3.hash (imageKeeper im)
  | none => List.replicate 64 0

/-- GRADE's code. -/
def gradeCode : Grade → Nat
  | .A => 0
  | .M => 1
  | .L => 2

/-- SE_ATT_CHAL0-7. -/
def challengeBytes (s : State) : List Byte := (List.range 8).flatMap fun n => bytesLE 4 (s.reg (R.SE_ATT_CHALn n)).toNat

/-- Bytes 0 to 191 of the report (Table 14-11). -/
def reportBody (s : State) : List Byte :=
  let ver := match usedImage s with | some im => (imageSecVer im).toNat | none => 0
  [0x08, 0x01, BitVec.ofNat 8 (lifeCode s.se.life), BitVec.ofNat 8 (gradeCode s.grade)] ++ bytesLE 2 (geomToken s).toNat ++
  [BitVec.ofNat 8 ver, s.se.minVer.setWidth 8] ++ bytesLE 8 Config.deviceId.toNat ++ bytesLE 4 (s.reg R.BC_STARTS).toNat ++
  bytesLE 8 s.au.startNonce.toNat ++ [s.se.startRep.setWidth 8, BitVec.ofNat 8 (s.fld R.TAMPER_STAT 15 8), 0, 0] ++
  challengeBytes s ++ bytesBE 32 Config.romDigest.toNat ++ imageMeasure s ++ s.sn.measure

/-- ATTESTATION_START: refused while one runs, or with no device key in the Vault. -/
def execAttestationStart (i : Initiator) (s : State) : Out :=
  .next (s.openWrite i R.SE_ATT_CMD fun s =>
    if s.se.attReq.isSome ∨ s.se.deviceKey.isNone then s.setReg R.SE_ATT_STAT 3
    else (sm3Ask (updSe s fun x => { x with attReq := some (reportBody s) }) .attest).setReg R.SE_ATT_STAT 1)

/-- ATTESTATION_DONE, once the SM3 engine serves it (R284): the report with the device key's signature in SE_ATT_OUT; refused where a wipe has
taken the key meanwhile. -/
def execAttestationDone (s : State) : Out :=
  .next (match if sm3Serves s .attest then s.se.attReq else none with
    | none => s
    | some body =>
      let s := sm3Drop (updSe s fun x => { x with attReq := none }) .attest
      match s.se.deviceKey with
      | none => s.setReg R.SE_ATT_STAT 3
      | some k =>
        let d := s.draw
        ((updSe d.2 fun x => { x with attOut := body ++ Sm2.sign k d.1 body }).setReg R.SE_ATT_STAT 2).setBit R.SE_IRQ_STAT 1)

end Sys2Proof.Machine
end

