-- ==== Sys2Proof/Machine/TileOps.lean ====
section
/-! DEFINITION. Machine/TileOps.lean: the issue of one tile instruction (R123 to R127, R129, R136, Table 06-4). Every OP command asks
that the tile issues now; an instruction that waits, or a tile that fetches another opcode, leaves the state as it is. -/

namespace Sys2Proof.Machine

/-! ### The instruction word (Table 06-3) -/

/-- A fetched instruction's fields. -/
structure Word64 where
  op : Nat
  d : Fin 16
  p : Fin 16
  q : Fin 16
  fn : Nat
  x : Nat
  imm : Word
  deriving DecidableEq, Repr

def splitWord (w : Nat) : Word64 :=
  ⟨w >>> 58 % 64, Fin.ofNat 16 (w >>> 54), Fin.ofNat 16 (w >>> 50), Fin.ofNat 16 (w >>> 46), w >>> 40 % 64, w >>> 32 % 256, BitVec.ofNat 32 w⟩

/-- A body of up to 16 instructions that holds the PC runs from the loop buffer (R130). -/
def fromBuffer (pc : Nat) (f : LoopFrame) : Bool := f.stop - f.start ≤ 128 && f.start ≤ pc && pc < f.stop

/-- The word that the loop buffer holds for the PC, once the body's first pass is over. -/
def buffered (t : Tile) : Option Nat :=
  t.loops.findSome? fun f => if f.again && fromBuffer t.pc f then (f.words.find? fun w => w.1 == t.pc).map (·.2) else none

/-- The word at the tile's PC: the loop buffer's, else that in SRAM; none outside the program region or off an 8-byte boundary (R129). -/
def fetchWord (s : State) (p : Fin 36) : Option Nat :=
  let pc := s.tiles[p].pc
  if 0x100 ≤ pc ∧ pc + 8 ≤ progLimit s p.val ∧ pc % 8 = 0 then
    match buffered s.tiles[p] with
    | some w => some w
    | none => some (natLE (sram s p.val pc 8))
  else none

/-- The instruction at the tile's PC. -/
def fetch (s : State) (p : Fin 36) : Option Word64 := (fetchWord s p).map splitWord

/-- The loop buffer takes the word that issues at the PC. -/
def bufferWord (w : Nat) (t : Tile) : Tile :=
  { t with loops := t.loops.map fun f => if fromBuffer t.pc f then { f with words := (t.pc, w) :: f.words.filter (·.1 != t.pc) } else f }

/-- Opcodes of Table 06-4. -/
def isOpcode (op : Nat) : Bool :=
  op ≤ 0x06 || (0x08 ≤ op && op ≤ 0x0D) || (0x10 ≤ op && op ≤ 0x14) || (0x18 ≤ op && op ≤ 0x1E) || op == 0x20 || op == 0x21 || op == 0x28

/-- The fields an opcode uses, the limit of its FN, and the bits of IMM and X it reads. -/
structure Uses where
  d : Bool
  p : Bool
  q : Bool
  fn : Nat
  x : Nat
  imm : Nat

def all32 : Nat := 2 ^ 32

/-- The fields of each opcode (Table 06-4); `fn`, `x` and `imm` are one above the largest value. -/
def usesOf (op : Nat) : Uses :=
  match op with
  | 0x02 => ⟨true, false, false, 1, 256, 2 ^ 24⟩
  | 0x03 => ⟨false, false, false, 1, 1, all32⟩
  | 0x04 => ⟨false, true, false, 1, 1, all32⟩
  | 0x05 => ⟨false, false, false, 16, 1, 1⟩
  | 0x06 => ⟨false, false, false, 16, 1, 1⟩
  | 0x08 => ⟨true, true, false, 1, 1, all32⟩
  | 0x09 => ⟨true, true, true, 1, 1, 1⟩
  | 0x0A => ⟨true, true, true, 1, 1, 1⟩
  | 0x0B => ⟨true, true, false, 1, 1, all32⟩
  | 0x0C => ⟨true, true, false, 1, 1, all32⟩
  | 0x0D => ⟨false, true, true, 1, 1, all32⟩
  | 0x10 => ⟨false, true, true, 7, 1, all32⟩
  | 0x12 => ⟨true, true, true, 16, 1, 4097⟩
  | 0x13 => ⟨true, true, false, 1, 1, 1024⟩
  | 0x14 => ⟨true, false, true, 1, 1, 1024⟩
  | 0x18 => ⟨true, true, false, 8, 1, all32⟩
  | 0x19 => ⟨false, true, true, 8, 2, all32⟩
  | 0x1A => ⟨true, true, true, 0x17, 1, 1⟩
  | 0x1B => ⟨true, true, false, 0x17, 1, all32⟩
  | 0x1C => ⟨true, true, true, 1, 1, 1⟩
  | 0x1D => ⟨true, true, true, 1, 1, 32⟩
  | 0x1E => ⟨true, true, false, 3, 1, 1⟩
  | 0x20 => ⟨false, true, false, 4, 1, all32⟩
  | 0x21 => ⟨false, false, false, 4, 1, 1⟩
  | _ => ⟨false, false, false, 1, 1, 1⟩

/-- R123: no used field out of its range, no unused one nonzero, and a defined FN. -/
def legal (w : Word64) : Bool :=
  let u := usesOf w.op
  isOpcode w.op && (u.d || w.d == 0) && (u.p || w.p == 0) && (u.q || w.q == 0) && w.fn < u.fn && w.x < u.x && w.imm.toNat < u.imm &&
  (match w.op with
   | 0x02 => w.d.val < 8 && 1 ≤ w.x
   | 0x12 => 1 ≤ w.imm.toNat && w.fn % 8 != 7
   | 0x1A => (vfun w.fn 0 0).isSome
   | 0x1B => (vfun w.fn 0 0).isSome
   | _ => true)

/-! ### When an instruction issues (R124, Table 06-4) -/

/-- Scalar and vector registers an opcode reads. -/
def readsA (w : Word64) : List (Fin 16) :=
  match w.op with
  | 0x04 => [w.p]
  | 0x08 => [w.p]
  | 0x09 => [w.p, w.q]
  | 0x0A => [w.p, w.q]
  | 0x0B => [w.p]
  | 0x0C => [w.p]
  | 0x0D => [w.p, w.q]
  | 0x10 => [w.p, w.q]
  | 0x12 => [w.d, w.p, w.q]
  | 0x13 => [w.p]
  | 0x14 => [w.d]
  | 0x18 => [w.p]
  | 0x19 => [w.p]
  | 0x1C => [w.q]
  | 0x1D => [w.q]
  | 0x20 => [w.p]
  | _ => []
def readsV (w : Word64) : List (Fin 16) :=
  match w.op with
  | 0x14 => [w.q]
  | 0x19 => [w.q]
  | 0x1A => [w.p, w.q]
  | 0x1B => [w.p]
  | 0x1C => [w.p]
  | 0x1D => [w.p]
  | 0x1E => [w.p]
  | _ => []

/-- Latency of the result: a scalar register's, a vector register's. -/
def latencyA (w : Word64) : Option Nat :=
  match w.op with
  | 0x08 => some 1
  | 0x09 => some 1
  | 0x0A => some 1
  | 0x0B => some 2
  | 0x0C => some 4
  | _ => none
def latencyV (w : Word64) : Option Nat :=
  match w.op with
  | 0x13 => some 2
  | 0x18 => some 4
  | 0x1A => some (if 0x10 ≤ w.fn then 4 else 2)
  | 0x1B => some (if 0x10 ≤ w.fn then 4 else 2)
  | 0x1C => some 6
  | 0x1D => some 5
  | 0x1E => some 6
  | _ => none

/-- Its source registers are ready. -/
def regsReady (t : Tile) (now : Nat) (w : Word64) : Bool :=
  (readsA w).all (fun r => decide (t.aAt[r] ≤ now)) && (readsV w).all fun r => decide (t.vAt[r] ≤ now)

/-! ### Issue -/

/-- Scalar register `r`; A0 reads as 0. -/
def areg (t : Tile) (r : Fin 16) : Word := if r = 0 then 0 else t.areg[r]

/-- Write a scalar register; a write of A0 is ignored. -/
def setA (s : State) (p : Fin 36) (r : Fin 16) (v : Word) : State :=
  if r = 0 then s else updTile s p fun t => { t with areg := t.areg.set r v }

/-- Leave the bodies that end at `pc`, or repeat the innermost (no overhead per iteration). -/
def loopStep (pc : Nat) : List LoopFrame → Nat × List LoopFrame
  | [] => (pc, [])
  | f :: rest =>
    if f.stop ≠ pc then (pc, f :: rest)
    else if 1 < f.left then (f.start, { f with left := f.left - 1, again := true } :: rest)
    else loopStep pc rest

/-- The next instruction in sequence. -/
def seqNext (s : State) (p : Fin 36) (pc : Nat) : State :=
  let r := loopStep pc s.tiles[p].loops
  updTile s p fun t => { t with pc := r.1, loops := r.2 }

/-- An instruction completes and the PC goes on. -/
def goOn (s : State) (p : Fin 36) : State := seqNext s p (s.tiles[p].pc + 8)

/-- A taken jump cancels every active loop whose body does not contain the target. -/
def jumpTo (s : State) (p : Fin 36) (target : Nat) : State :=
  updTile s p fun t => { t with pc := target, loops := t.loops.filter fun f => f.start ≤ target && target < f.stop }

/-- Address A[P] + IMM. -/
def addrOf (t : Tile) (w : Word64) : Nat := (areg t w.p + w.imm).toNat

/-- Sticky TL_FLAGS. -/
def tileFlags (s : State) (p : Fin 36) (f : BitVec 3) : State := s.orReg (R.TL_FLAGS p.val) (f.setWidth 32)

/-! ### Vector registers and the accumulator file -/

def noWord (_ : Nat) : Word := 0
def vlane (t : Tile) (v : Fin 16) (i : Nat) : Word := Cells.get noWord t.vreg (64 * v.val + i)
def accLane (t : Tile) (row i : Nat) : Word := Cells.get noWord t.acc (32 * row + i)
def vlanes (t : Tile) (v : Fin 16) : List Word := (List.range 64).map (vlane t v)

/-- Write 64 lanes. -/
def setV (s : State) (p : Fin 36) (v : Fin 16) (ls : List Word) : State :=
  updTile s p fun t => { t with vreg := Cells.setRange noWord t.vreg (64 * v.val) ls }

/-- Write 64 lanes with their flags. -/
def setLanes (s : State) (p : Fin 36) (v : Fin 16) (ls : List Lane) : State :=
  tileFlags (setV s p v (ls.map (·.val))) p (ls.foldl (fun f l => f ||| l.flags) 0)

/-- Write one accumulator row. -/
def setAcc (t : Tile) (row : Nat) (ls : List Word) : Tile := { t with acc := Cells.setRange noWord t.acc (32 * row) ls }

/-! ### Waiting for a unit, and the issue cycles -/


/-- The unit, event, channel or drain that an instruction waits for (Table 06-4, R126). -/
def unitBusy (s : State) (p : Fin 36) (w : Word64) : Bool :=
  let t := s.tiles[p]
  match w.op with
  | 0x01 => arrayBusy t || dmaBusy t || decide (s.cycle < t.storeTo)
  | 0x05 => !s.flag (R.TL_EVENT p.val) w.fn
  | 0x10 => t.loader.isSome || t.flight.any fun m => m.buf == !t.active && decide (s.cycle < m.passAt)
  | 0x11 => t.loader.isSome
  | 0x12 => t.flight.any fun m => decide (s.cycle + 1 < m.passAt)
  | 0x13 => arrayBusy t
  | 0x14 => arrayBusy t
  | 0x20 => t.dma[Fin.ofNat 4 w.fn].busy
  | 0x21 => t.dma[Fin.ofNat 4 w.fn].busy
  | 0x28 => arrayBusy t
  | _ => false

/-- A jump is taken. -/
def jumps (t : Tile) (w : Word64) : Bool := w.op == 0x03 || (w.op == 0x04 && areg t w.p != 0)

/-- Cycles for which an instruction blocks the next one. -/
def issueCycles (t : Tile) (w : Word64) : Nat :=
  if jumps t w then 3
  else match w.op with
    | 0x1C => 4
    | 0x1D => 2
    | 0x20 => 2
    | 0x28 => 2112
    | _ => 1

/-- An instruction issues in this cycle: when the next may, and when its result is there. A taken jump's bubbles follow its own slot; a
vector store is written after 2 cycles (Table 06-11). -/
def markIssue (now : Nat) (w : Word64) (t : Tile) : Tile :=
  let n := issueCycles t w
  { t with
    freeAt := now + n
    retireTo := now + (if jumps t w then 1 else n)
    wasteTo := now + n
    aAt := match latencyA w with | some l => t.aAt.set w.d (now + l) | none => t.aAt
    vAt := match latencyV w with | some l => t.vAt.set w.d (now + l) | none => t.vAt
    storeTo := if w.op = 0x19 then now + 2 else t.storeTo
    lost := none }

/-! ### Control -/

/-- HALT: ends the run with exit code DONE once the array has drained and every channel is idle. -/
def haltRun (s : State) (p : Fin 36) (view : Option (BitVec 40)) : State :=
  let e := s.tiles[p].entry.toNat
  let s := goOn s p
  let s := (tileExit (updTile s p fun t => { t with run := .idle, loops := [] }) p 0).setBit (R.TL_IRQ_STAT p.val) 0
  slotEnds s p e (.done view)

/-- LOOP: the next X instructions IMM times. -/
def doLoop (s : State) (p : Fin 36) (w : Word64) : State :=
  let t := s.tiles[p]
  let start := t.pc + 8
  let stop := start + 8 * w.x
  let past : Bool := match t.loops with
    | f :: _ => decide (f.stop < stop)
    | [] => false
  if past ∨ 8 ≤ t.loops.length then tileFault s p 2
  else if w.imm.toNat = 0 then seqNext s p stop
  else updTile s p fun t => { t with pc := start, loops := ⟨Fin.ofNat 8 w.d.val, w.imm.toNat, start, stop, false, []⟩ :: t.loops }

/-- WAITE: the event it waited for is cleared. -/
def doWaite (s : State) (p : Fin 36) (w : Word64) : State := goOn (s.clearReg (R.TL_EVENT p.val) (BitVec.ofNat 32 (2 ^ w.fn))) p

/-! ### Scalar memory -/

/-- LDS: 4-byte aligned. -/
def doLds (s : State) (p : Fin 36) (w : Word64) (e : List Ecc) : State :=
  let a := addrOf s.tiles[p] w
  if a % 4 ≠ 0 ∨ ¬ mayRead s p.val a 4 then tileFault s p 3
  else tileEccs s p false e fun s => goOn (setA s p w.d (sramWord s p.val a)) p

/-- STS: its bank stays busy in the next cycle too. -/
def doSts (s : State) (p : Fin 36) (w : Word64) (e : List Ecc) : State :=
  let t := s.tiles[p]
  let a := addrOf t w
  if a % 4 ≠ 0 ∨ ¬ mayWriteSram s p.val a 4 then tileFault s p 3
  else tileEccs s p false e fun s =>
    goOn (updTile (sramWrite s p a (bytesLE 4 (areg t w.q).toNat)) p fun t => { t with held := (bankMask a 4, s.cycle + 1) }) p

/-! ### The array -/

/-- Whether `n` rows of `len` bytes may be read, each 16-byte aligned. -/
def rowsOk (s : State) (p : Nat) (base stride : Word) (n len : Nat) : Bool :=
  (List.range n).all fun k => rowAddr base stride k % 16 == 0 && mayRead s p (rowAddr base stride k) len

/-- The buffer that MMAs do not use. -/
def idleBuf (t : Tile) : Fin 2 := if t.active then 0 else 1
def activeBuf (t : Tile) : Fin 2 := if t.active then 1 else 0

/-- A lane whose value the manual leaves open: weights loaded as another format. -/
def openLane (i : Nat) : Lane := .plain ((Config.freeValue i).setWidth 32)

/-- One vector added into, or written over, one accumulator row. -/
def mmaRow (m : MmaFlight) (f : ArrFmt) (x : List Byte) (j : Nat) (t : Tile) : Tile × BitVec 3 :=
  let b : Fin 2 := if m.buf then 1 else 0
  let wrows := (List.range f.rows).map fun k => Cells.getRange noByte t.wbuf[b] (f.rowBytes * k) f.rowBytes
  let wrow := fun k => (wrows[k]?).getD []
  let known := sameWeights t.wfmt[b] f || t.wbuf[b].isEmpty
  let ls := (List.range 32).map fun n =>
    if known then mac f m.zero x wrow n (accLane t (m.row + j) n) else openLane (m.free + 32 * j + n)
  (setAcc t (m.row + j) (ls.map (·.val)), ls.foldl (fun g l => g ||| l.flags) 0)

/-- The vector of an MMA that enters the array in a cycle. -/
def vectorAt (m : MmaFlight) (f : ArrFmt) (now : Nat) : Option Nat :=
  let k := now - m.start
  if m.start ≤ now ∧ k % f.vecCycles = 0 ∧ k / f.vecCycles < m.n then some (k / f.vecCycles) else none

/-- Vector `j` of an MMA is read and passes into the array; what it makes of its row is written by the time the MMA has drained. -/
def vectorIn (s : State) (p : Fin 36) (m : MmaFlight) (f : ArrFmt) (j : Nat) : State :=
  let r := mmaRow m f (sram s p.val (rowAddr m.base m.stride j) f.vecBytes) j s.tiles[p]
  tileFlags (lnEvent (updTile s p fun _ => r.1) (lnTile p) 0x05 1 none) p r.2

/-- One cycle of the array. -/
def arrayCycle (s : State) (p : Fin 36) : State :=
  s.tiles[p].flight.foldl (fun s m => match arrFmt m.fmt with
    | none => s
    | some f => match vectorAt m f s.cycle with
      | some j => vectorIn s p m f j
      | none => s) s

/-- The banks that the array reads in a cycle. -/
def arrayBanks (t : Tile) (now : Nat) : Half :=
  t.flight.foldl (fun b m => match arrFmt m.fmt with
    | none => b
    | some f => match vectorAt m f now with
      | some j => b ||| bankMask (rowAddr m.base m.stride j) f.vecBytes
      | none => b) 0

/-- WLD (R126): the loader's first cycle is that of the issue. -/
def doWld (s : State) (p : Fin 36) (w : Word64) (e : List Ecc) : State :=
  let t := s.tiles[p]
  match arrFmt w.fn with
  | none => tileFault s p 2
  | some f =>
    let base := areg t w.p + w.imm
    if !rowsOk s p.val base (areg t w.q) f.rows f.rowBytes then tileFault s p 3
    else tileEccs s p false e fun s =>
      goOn (loaderCycle (updTile s p fun t =>
        { t with wfmt := t.wfmt.set (idleBuf t) f.code,
                 loader := some ⟨idleBuf t, w.fn, base, areg t w.q, 0, 0⟩ }) p (arrayBanks s.tiles[p] s.cycle)) p

/-- WSW. -/
def doWsw (s : State) (p : Fin 36) : State := goOn (updTile s p fun t => { t with active := !t.active }) p

/-- MMA (R125 to R127): its vectors enter the array from the next cycle on. Without ZERO it reads the accumulator rows it adds into. -/
def doMma (s : State) (p : Fin 36) (w : Word64) (e acc : List Ecc) : State :=
  let t := s.tiles[p]
  match arrFmt (w.fn % 8) with
  | none => tileFault s p 2
  | some f =>
    let n := w.imm.toNat
    let row := (areg t w.d).toNat
    if areg t w.q % 16 ≠ 0 ∨ ¬ rowsOk s p.val (areg t w.p) (areg t w.q) n f.vecBytes then tileFault s p 3
    else if 1024 < row + n then tileFault s p 4
    else tileEccs s p false e fun s => tileEccs s p true (if w.fn < 8 then acc else []) fun s =>
      let m : MmaFlight := ⟨s.tiles[p].active, w.fn % 8, decide (8 ≤ w.fn), areg t w.p, areg t w.q, row, n, s.cycle + 1,
        s.cycle + 1 + f.vecCycles * n, s.freeIdx⟩
      goOn (updTile { s with freeIdx := s.freeIdx + 32 * n } p fun t => { t with flight := t.flight ++ [m] }) p

/-- ACCR: two rows into a vector register. -/
def doAccr (s : State) (p : Fin 36) (w : Word64) (e : List Ecc) : State :=
  let t := s.tiles[p]
  let r0 := (areg t w.p).toNat
  let r1 := r0 + w.imm.toNat
  if 1024 ≤ r0 ∨ 1024 ≤ r1 then tileFault s p 4
  else tileEccs s p true e fun s =>
    goOn (setV s p w.d ((List.range 32).map (accLane t r0) ++ (List.range 32).map (accLane t r1))) p

/-- ACCW: a vector register into two rows. -/
def doAccw (s : State) (p : Fin 36) (w : Word64) : State :=
  let t := s.tiles[p]
  let r0 := (areg t w.d).toNat
  let r1 := r0 + w.imm.toNat
  if 1024 ≤ r0 ∨ 1024 ≤ r1 then tileFault s p 4
  else goOn (updTile s p fun t => setAcc (setAcc t r0 ((vlanes t w.q).take 32)) r1 ((vlanes t w.q).drop 32)) p

/-! ### The vector unit -/

/-- VLD. -/
def doVld (s : State) (p : Fin 36) (w : Word64) (e : List Ecc) : State :=
  let a := addrOf s.tiles[p] w
  match formBytes w.fn with
  | none => tileFault s p 2
  | some k =>
    if a % 16 ≠ 0 ∨ ¬ mayRead s p.val a (64 * k) then tileFault s p 3
    else tileEccs s p false e fun s =>
      let bs := sram s p.val a (64 * k)
      goOn (setLanes s p w.d ((List.range 64).map fun i => widen w.fn (fieldLE bs (k * i) k))) p

/-- VST. -/
def doVst (s : State) (p : Fin 36) (w : Word64) (e : List Ecc) : State :=
  let t := s.tiles[p]
  let a := addrOf t w
  match formBytes w.fn with
  | none => tileFault s p 2
  | some k =>
    if a % 16 ≠ 0 ∨ ¬ mayWriteSram s p.val a (64 * k) then tileFault s p 3
    else tileEccs s p false e fun s =>
      let rs := (vlanes t w.q).map (narrow w.fn (decide (w.x = 1)))
      let s := sramWrite s p a (rs.flatMap fun r => bytesLE k r.1)
      goOn (tileFlags s p (rs.foldl (fun f r => f ||| r.2) 0)) p

/-- VOP and VOPS: a function of each lane and its second operand. -/
def doVop (s : State) (p : Fin 36) (w : Word64) (second : Nat → Word) : State :=
  let t := s.tiles[p]
  goOn (setLanes s p w.d ((List.range 64).map fun i =>
    match vfun w.fn (vlane t w.p i) (second i) with
    | some l => l
    | none => .plain 0)) p

/-- VREQ: one 16-byte record per lane at A[Q]; the result of a shift above 63 is open. -/
def doVreq (s : State) (p : Fin 36) (w : Word64) (e : List Ecc) : State :=
  let t := s.tiles[p]
  let a := (areg t w.q).toNat
  if a % 16 ≠ 0 ∨ ¬ mayRead s p.val a 1024 then tileFault s p 3
  else tileEccs s p false e fun s =>
    let one := fun i =>
      let r := sram s p.val (a + 16 * i) 16
      let wd := fun k => BitVec.ofNat 32 (fieldLE r k 4)
      let sh := fieldLE r 6 1
      if 63 < sh then openLane (s.freeIdx + i) else requant (vlane t w.p i) (wd 0) sh (BitVec.ofNat 16 (fieldLE r 4 2)) (wd 8) (wd 12)
    goOn (setLanes { s with freeIdx := s.freeIdx + 64 } p w.d ((List.range 64).map one)) p

/-- VLUT: 65 points at A[Q]. -/
def doVlut (s : State) (p : Fin 36) (w : Word64) (e : List Ecc) : State :=
  let t := s.tiles[p]
  let a := (areg t w.q).toNat
  if a % 16 ≠ 0 ∨ ¬ mayRead s p.val a 260 then tileFault s p 3
  else tileEccs s p false e fun s =>
    goOn (setV s p w.d ((vlanes t w.p).map (lut (fun i => sramWord s p.val (a + 4 * i)) w.imm.toNat))) p

/-- VRED. -/
def doVred (s : State) (p : Fin 36) (w : Word64) : State :=
  let r := reduce w.fn (vlanes s.tiles[p] w.p)
  goOn (tileFlags (setV s p w.d (r.val :: List.replicate 63 0)) p r.flags) p

/-! ### DMA and AKT -/

/-- DMA: a 32-byte aligned descriptor. -/
def doDma (s : State) (p : Fin 36) (w : Word64) (e : List Ecc) : State :=
  let t := s.tiles[p]
  let a := addrOf t w
  let ch := Fin.ofNat 4 w.fn
  if a % 32 ≠ 0 ∨ ¬ mayRead s p.val a 32 then tileFault s p 3
  else tileEccs s p false e fun s =>
    goOn (updTile s p fun t => { t with dma := t.dma.set ch ⟨true, sram s p.val a 32, s.cycle⟩ }) p

/-- AKT's overwritten storage: both weight buffers and rows 960 to 1,023 hold values the manual does not give. -/
def aktScratch (s : State) (p : Fin 36) : State :=
  let fv := fun k => Config.freeValue (s.freeIdx + k)
  let buf := fun b => (List.range 2048).map fun k => (fv (2048 * b + k)).setWidth 8
  let s2 := updTile s p fun t =>
    { t with acc := Cells.setRange noWord t.acc (32 * 960) ((List.range 2048).map fun k => (fv (4096 + k)).setWidth 32),
             wbuf := #v[Cells.setRange noByte [] 0 (buf 0), Cells.setRange noByte [] 0 (buf 1)] }
  { s2 with freeIdx := s.freeIdx + 6144 }

/-- A passed AKT renews the tile's age, and proves a spare (R191, R192). -/
def aktPassed (s : State) (p : Fin 36) : State :=
  let keep := fun (q : Fin 36) => q != p
  let sn := { s.sn with aktAt := s.sn.aktAt.set p (some s.cycle), aktLate := s.sn.aktLate.filter keep, unproved := s.sn.unproved.filter keep }
  { s with sn := sn }

/-- AKT (R136, R191): a pass counts in TL_AKT and renews the tile's age; a mismatch names the first failing column and faults. -/
def doAkt (s : State) (p : Fin 36) (fail : Option (Fin 32)) : State :=
  let s := aktScratch s p
  match fail with
  | none =>
    let s := (s.wrapInc (R.TL_AKT p.val) 15 0).setFld (R.TL_AKT p.val) 21 21 0
    goOn (aktPassed s p) p
  | some c => tileFault ((s.setFld (R.TL_AKT p.val) 20 16 c.val).setFld (R.TL_AKT p.val) 21 21 1) p 9

/-! ### Issue by opcode -/

/-! ### The banks on the sequencer port (R130) -/

/-- The banks that an instruction's SRAM access takes in each cycle of its issue. -/
def accessBanks (t : Tile) (w : Word64) : List Half :=
  let form := fun k => 64 * (formBytes k).getD 0
  match w.op with
  | 0x0C => [bankMask (addrOf t w) 4]
  | 0x0D => [bankMask (addrOf t w) 4]
  | 0x18 => [bankMask (addrOf t w) (form w.fn)]
  | 0x19 => [bankMask (addrOf t w) (form w.fn)]
  | 0x1C => (List.range 4).map fun k => bankMask ((areg t w.q).toNat + 256 * k) 256
  | 0x1D => [bankMask (areg t w.q).toNat 256, bankMask ((areg t w.q).toNat + 256) 4]
  | 0x20 => [bankMask (addrOf t w) 32]
  | _ => []

/-- The banks that requests before the vector unit's, the scalar unit's and the fetch's hold in this cycle. -/
def busyBanks (t : Tile) (now : Nat) : Half :=
  arrayBanks t now ||| (match t.loader with | some l => l.banks | none => 0) ||| (if t.held.2 = now then t.held.1 else 0)

/-- The banks that an instruction's access loses in this cycle, of those it has not had yet. -/
def accessLost (t : Tile) (now : Nat) (w : Word64) : Half := t.lost.getD ((accessBanks t w).head?.getD 0) &&& busyBanks t now

/-- The fetch at the PC loses its bank. -/
def fetchLost (t : Tile) (now : Nat) : Bool := (buffered t).isNone && bankMask t.pc 8 &&& busyBanks t now != 0

/-- A multi-cycle access goes on: in its next cycle it takes its next banks, or tries those again that it lost, one cycle later than it
would have. -/
def accessCycle (s : State) (p : Fin 36) : State :=
  match s.tiles[p].groups with
  | [] => s
  | m :: rest =>
    let lost := m &&& busyBanks s.tiles[p] s.cycle
    if lost = 0 then updTile s p fun t => { t with groups := rest }
    else lnEvent (updTile s p fun t =>
      { t with groups := lost :: rest, freeAt := t.freeAt + 1, retireTo := t.retireTo + 1, wasteTo := t.wasteTo + 1,
               vAt := t.vAt.set t.groupDst (t.vAt[t.groupDst] + 1) }) (lnTile p) 0x07 1 none

/-! ### Issue by opcode -/

/-- An issue that meets nothing. -/
def quiet : IssueEnv := ⟨.clean, [], [], false, none, none⟩

/-- Issue a legal instruction. -/
def issueWord (s : State) (p : Fin 36) (w : Word64) (v : IssueEnv) : State :=
  let t := s.tiles[p]
  let e := v.data
  match w.op with
  | 0x00 => goOn s p
  | 0x01 => haltRun s p v.view
  | 0x02 => doLoop s p w
  | 0x03 => jumpTo s p w.imm.toNat
  | 0x04 => if areg t w.p ≠ 0 then jumpTo s p w.imm.toNat else goOn s p
  | 0x05 => doWaite s p w
  | 0x06 => goOn (s.setBit (R.TL_SIGNAL p.val) w.fn) p
  | 0x08 => goOn (setA s p w.d (areg t w.p + w.imm)) p
  | 0x09 => goOn (setA s p w.d (areg t w.p + areg t w.q)) p
  | 0x0A => goOn (setA s p w.d (areg t w.p - areg t w.q)) p
  | 0x0B => goOn (setA s p w.d (areg t w.p * w.imm)) p
  | 0x0C => doLds s p w e
  | 0x0D => doSts s p w e
  | 0x10 => doWld s p w e
  | 0x11 => doWsw s p
  | 0x12 => doMma s p w e v.acc
  | 0x13 => doAccr s p w v.acc
  | 0x14 => doAccw s p w
  | 0x18 => doVld s p w e
  | 0x19 => doVst s p w e
  | 0x1A => doVop s p w (vlane t w.q)
  | 0x1B => doVop s p w fun _ => w.imm
  | 0x1C => doVreq s p w e
  | 0x1D => doVlut s p w e
  | 0x1E => doVred s p w
  | 0x20 => doDma s p w e
  | 0x21 => goOn s p
  | 0x28 => doAkt s p v.akt
  | _ => tileFault s p 2

/-- An instruction whose fetch is done does not issue yet: a source register is not ready, a unit is busy, or its access lost a bank
(R124, R130). -/
def operandWaits (s : State) (p : Fin 36) (w : Word64) : Bool :=
  legal w && (!regsReady s.tiles[p] s.cycle w || unitBusy s p w || accessLost s.tiles[p] s.cycle w != 0)

/-- An instruction does not issue yet: the last one still issues, the fetch lost its bank, or an operand or a unit is waited for. -/
def issueWaits (s : State) (p : Fin 36) (w : Word64) : Bool :=
  decide (s.cycle < s.tiles[p].freeAt) || fetchLost s.tiles[p] s.cycle || operandWaits s p w

/-- What the code finds of the fetched word; a word of the loop buffer is not read again. -/
def fetchEcc (t : Tile) (v : IssueEnv) : Ecc := if (buffered t).isSome then .clean else v.fetch

/-- A legal instruction takes its issue cycles. -/
def takeIssue (now : Nat) (w : Word64) (raw : Nat) (t : Tile) : Tile :=
  { markIssue now w (bufferWord raw t) with groups := (accessBanks t w).tail, groupDst := w.d }

/-- Issue the instruction at PC, or fault: a bad fetch ADDR, an uncorrectable word SRAM_UNC, an illegal word ILLEGAL (R123, R129,
R138). -/
def issueFetched (s : State) (p : Fin 36) (v : IssueEnv) : Option Nat → State
  | none => tileFault s p 3
  | some raw => tileEcc s p false (fetchEcc s.tiles[p] v) fun s =>
    let w := splitWord raw
    if legal w then issueWord (updTile s p (takeIssue s.cycle w raw)) p w v else tileFault s p 2

/-- What the tile does at its PC: a parity error of the sequencer faults SEQ_PARITY (R135); an instruction that waits stays. -/
def issueNow (s : State) (p : Fin 36) (v : IssueEnv) : State :=
  if v.parity then tileFault s p 8
  else match fetchWord s p with
    | none => if s.cycle < s.tiles[p].freeAt then s else issueFetched s p v none
    | some raw => if issueWaits s p (splitWord raw) then s else issueFetched s p v (some raw)

/-- The top-down slot of a RUNNING tile's cycle (R403): 1 RETIRED, an instruction issues; 2 WASTED, a taken jump's bubble or the discarded
issue of an ended run; 4 BACK, an instruction waits for an operand, a unit or its access's bank; else 3 FRONT, the fetch's bank among
it. -/
def tdSlot (s : State) (p : Fin 36) : Nat :=
  let t := s.tiles[p]
  if s.cycle < t.retireTo then 1
  else if s.cycle < t.wasteTo then 2
  else if s.cycle < t.freeAt ∨ t.run = .stopping then 3
  else match fetch s p with
    | some w => if fetchLost t s.cycle then 3 else if operandWaits s p w then 4 else 3
    | none => 3

/-- The tile's cycle is RUNNING (R403): that in which ABORT, PAUSE or a fault ended the run is one too. -/
def slotted (s : State) (p : Fin 36) : Bool :=
  let t := s.tiles[p]
  match t.run with
  | .running => decide (t.resumeTo ≤ s.cycle)
  | .stopping => !t.stopPause || decide (s.cycle < t.wasteTo)
  | .faulted => decide (s.cycle < t.wasteTo)
  | _ => false

/-- The tile issues in this cycle: RUNNING, or HALTED with a STEP that still waits (R134). -/
def issues (t : Tile) : Bool := t.run == .running || (t.run == .halted && t.steps != 0)

/-- At a cycle's end: an instruction that only a bank held back has lost it, and tries again (R130). -/
def bankRetry (s : State) (p : Fin 36) : State :=
  let t := s.tiles[p]
  let again := fun s => lnEvent s (lnTile p) 0x07 1 none
  if !issues t || decide (s.cycle < t.freeAt) then s
  else match fetch s p with
    | none => s
    | some w =>
      if fetchLost t s.cycle then again s
      else if legal w && regsReady t s.cycle w && !unitBusy s p w && accessLost t s.cycle w != 0 then
        again (updTile s p fun t => { t with lost := some (accessLost t s.cycle w) })
      else s

/-- What the units of a tile do by themselves in a cycle: the array reads, then the loader, then the multi-cycle access. -/
def tileCycle (s : State) (p : Fin 36) : State :=
  let s := arrayCycle s p
  accessCycle (loaderCycle s p (arrayBanks s.tiles[p] s.cycle)) p

/-- Whether something issued between these two states. -/
def issued (s t : State) (p : Fin 36) : Bool := s.tiles[p].freeAt != t.tiles[p].freeAt || t.tiles[p].run != .running

/-- A STEP that waits issues its instruction; the tile stays HALTED unless the run ends (R134). -/
def stepIssue (s : State) (p : Fin 36) (v : IssueEnv) : State :=
  let r := updTile s p fun t => { t with run := .running }
  let n := issueNow r p v
  if !issued r n p then s
  else if n.tiles[p].run = .running then updTile n p fun t => { t with run := .halted, steps := t.steps - 1 }
  else updTile n p fun t => { t with steps := 0, wasteTo := 0 }

/-- The issue an OP command of opcode `op` asks for: of a tile that issues, and of that opcode unless the fetch itself faults. -/
def issueOp (op : Nat) (p : Fin 36) (v : IssueEnv) (s : State) : State :=
  if !issues s.tiles[p] then s
  else
    let go := if s.tiles[p].run = .running then issueNow s p v else stepIssue s p v
    match fetch s p with
    | some w => if w.op = op ∨ ¬ isOpcode w.op then go else s
    | none => go

def execOpNop (p : Fin 36) (v : IssueEnv) (s : State) : Out := .next (issueOp 0x00 p v s)
def execOpHalt (p : Fin 36) (v : IssueEnv) (s : State) : Out := .next (issueOp 0x01 p v s)
def execOpLoop (p : Fin 36) (v : IssueEnv) (s : State) : Out := .next (issueOp 0x02 p v s)
def execOpJmp (p : Fin 36) (v : IssueEnv) (s : State) : Out := .next (issueOp 0x03 p v s)
def execOpBnz (p : Fin 36) (v : IssueEnv) (s : State) : Out := .next (issueOp 0x04 p v s)
def execOpWaite (p : Fin 36) (v : IssueEnv) (s : State) : Out := .next (issueOp 0x05 p v s)
def execOpSige (p : Fin 36) (v : IssueEnv) (s : State) : Out := .next (issueOp 0x06 p v s)
def execOpAddi (p : Fin 36) (v : IssueEnv) (s : State) : Out := .next (issueOp 0x08 p v s)
def execOpAdd (p : Fin 36) (v : IssueEnv) (s : State) : Out := .next (issueOp 0x09 p v s)
def execOpSub (p : Fin 36) (v : IssueEnv) (s : State) : Out := .next (issueOp 0x0A p v s)
def execOpMuli (p : Fin 36) (v : IssueEnv) (s : State) : Out := .next (issueOp 0x0B p v s)
def execOpLds (p : Fin 36) (v : IssueEnv) (s : State) : Out := .next (issueOp 0x0C p v s)
def execOpSts (p : Fin 36) (v : IssueEnv) (s : State) : Out := .next (issueOp 0x0D p v s)
def execOpWld (p : Fin 36) (v : IssueEnv) (s : State) : Out := .next (issueOp 0x10 p v s)
def execOpWsw (p : Fin 36) (v : IssueEnv) (s : State) : Out := .next (issueOp 0x11 p v s)
def execOpMma (p : Fin 36) (v : IssueEnv) (s : State) : Out := .next (issueOp 0x12 p v s)
def execOpAccr (p : Fin 36) (v : IssueEnv) (s : State) : Out := .next (issueOp 0x13 p v s)
def execOpAccw (p : Fin 36) (v : IssueEnv) (s : State) : Out := .next (issueOp 0x14 p v s)
def execOpVld (p : Fin 36) (v : IssueEnv) (s : State) : Out := .next (issueOp 0x18 p v s)
def execOpVst (p : Fin 36) (v : IssueEnv) (s : State) : Out := .next (issueOp 0x19 p v s)
def execOpVop (p : Fin 36) (v : IssueEnv) (s : State) : Out := .next (issueOp 0x1A p v s)
def execOpVops (p : Fin 36) (v : IssueEnv) (s : State) : Out := .next (issueOp 0x1B p v s)
def execOpVreq (p : Fin 36) (v : IssueEnv) (s : State) : Out := .next (issueOp 0x1C p v s)
def execOpVlut (p : Fin 36) (v : IssueEnv) (s : State) : Out := .next (issueOp 0x1D p v s)
def execOpVred (p : Fin 36) (v : IssueEnv) (s : State) : Out := .next (issueOp 0x1E p v s)
def execOpDma (p : Fin 36) (v : IssueEnv) (s : State) : Out := .next (issueOp 0x20 p v s)
def execOpDwait (p : Fin 36) (v : IssueEnv) (s : State) : Out := .next (issueOp 0x21 p v s)
def execOpAkt (p : Fin 36) (v : IssueEnv) (s : State) : Out := .next (issueOp 0x28 p v s)

/-- TL_DBG_STEP (R134): each write issues one instruction of a halted tile, at once or, where it waits, with the OP command of a later
cycle; the tile stays HALTED unless the run ends. -/
def execTlDbgStep (i : Initiator) (p : Fin 36) (v : IssueEnv) (s : State) : Out :=
  .next (s.keeperWrite i fun s =>
    if s.tiles[p].run ≠ .halted then s
    else stepIssue (updTile s p fun t => { t with steps := t.steps + 1 }) p v)

end Sys2Proof.Machine
end

