-- ==== Sys2Proof/Machine/Registers.lean ====
section
/-! DEFINITION. Machine/Registers.lean: a write to a block register (R5 to R10, R395, R396). A register whose write has a command of
its own is written through that command's meaning. -/

namespace Sys2Proof.Machine

/-- The instance number of address `a` in a row of `n` registers from `base`, `stride` bytes apart. -/
def instanceAt (base stride n a : Nat) : Option Nat :=
  if base ≤ a ∧ (a - base) % stride = 0 ∧ (a - base) / stride < n then some ((a - base) / stride) else none

/-- A challenge from the buffered words and the written AU_CHAL3 (Table 07-1), by its METHOD. -/
def chalWrite (i : Initiator) (v : Word) (s : State) : Out :=
  let c : BitVec 128 := v ++ s.reg (R.AU_CHALn 2) ++ s.reg (R.AU_CHALn 1) ++ s.reg (R.AU_CHALn 0)
  match c.toNat / 256 % 4 with
  | 0 => execChallengeExact i c s
  | 1 => execChallengeProject i c s
  | 2 => execChallengeInput i c s
  | _ => execChallengeClose i c s

/-- TL_STOP: ABORT before PAUSE. -/
def tlStopWrite (i : Initiator) (p : Fin 36) (v : Word) (s : State) : Out :=
  if v.getLsbD 0 then execTlStopAbort i p s
  else if v.getLsbD 1 then execTlStopPause i p s
  else .next (s.keeperWrite i id)

/-- TL_DBG: HALT clear lets the tile run; HALT set halts it, and STEP issues one instruction of a halted tile. -/
def tlDbgWrite (i : Initiator) (p : Fin 36) (v : Word) (s : State) : Out :=
  if !v.getLsbD 0 then execTlDbgResume i p s
  else if v.getLsbD 1 && s.tiles[p].run == .halted then execTlDbgStep i p quiet s
  else execTlDbgHalt i p s

/-- BRKn_REQ. -/
def brakeWrite (i : Initiator) (n : Fin 4) (v : Word) (s : State) : Out :=
  if v.getLsbD 0 then execBrakeReleaseRequest i n s else execBrakeApplyRequest i n s

/-- LK_CMD: a code other than its four is a bus error (R303). -/
def lkWrite (i : Initiator) (v : Word) (s : State) : Out :=
  match v.toNat % 8 with
  | 1 => execLkBegin i s
  | 2 => execLkLevel i s
  | 3 => execLkOpen i s
  | 4 => execLkDiscard i s
  | _ => .next (s.keeperWrite i fun s => s.busError i)

/-- SEQ_CMD: DOWN before UP. -/
def seqWrite (i : Initiator) (v : Word) (s : State) : Out :=
  if v.getLsbD 1 then execSeqCmdDown i s
  else if v.getLsbD 0 then execSeqCmdUp i s
  else .next (s.keeperWrite i id)

/-- SE_COMMIT_CMD: ABORT. A START is COMMIT_START's, which carries the image (log entry 78). -/
def commitWrite (i : Initiator) (v : Word) (s : State) : Out :=
  if v.getLsbD 1 then execCommitAbort i s else .next (s.openWrite i R.SE_COMMIT_CMD id)

/-- SE_ATT_CMD. -/
def attWrite (i : Initiator) (v : Word) (s : State) : Out :=
  if v.getLsbD 0 then execAttestationStart i s else .next (s.openWrite i R.SE_ATT_CMD id)

/-- LNu_CTL: FREEZE as written, and CLR. -/
def lnCtlWrite (i : Initiator) (u : Fin 64) (v : Word) (s : State) : Out :=
  match execLnCtlFreeze i u (v.getLsbD 0) s with
  | .next t => if v.getLsbD 1 && s.mayWrite i (R.LNu_CTL u) then execLnCtlClr i u t else .next t
  | o => o

/-- The write commands of tiles, by address. -/
def tileRoute (i : Initiator) (a : Nat) (v : Word) (s : State) : Option Out :=
  (instanceAt (R.TL_START 0) 0x10000 36 a).map (fun p => execTlStart i (Fin.ofNat 36 p) v [] s) <|>
  (instanceAt (R.TL_STOP 0) 0x10000 36 a).map (fun p => tlStopWrite i (Fin.ofNat 36 p) v s) <|>
  (instanceAt (R.TL_RESET 0) 0x10000 36 a).map (fun p => execTlReset i (Fin.ofNat 36 p) v s) <|>
  (instanceAt (R.TL_DBG 0) 0x10000 36 a).map (fun p => tlDbgWrite i (Fin.ofNat 36 p) v s) <|>
  (instanceAt (R.TL_EVENT 0) 0x10000 36 a).map (fun p => execTlEventSet i (Fin.ofNat 36 p) v s)

/-- The write commands of Tally, by address; the units' other registers take no value, and answer only their owner (R359). -/
def tallyRoute (i : Initiator) (a : Nat) (v : Word) (s : State) : Option Out :=
  (instanceAt (R.TLYu_CFG 0) 0x40 16 a).map (fun u => execTallyCfgWrite i (Fin.ofNat 16 u) v s) <|>
  (instanceAt (R.TLYu_START 0) 0x40 16 a).map (fun u => execTallyStart i (Fin.ofNat 16 u) v s) <|>
  (instanceAt (R.TLYu_IN8 0) 0x40 16 a).map (fun u => execTallyIn8 i (Fin.ofNat 16 u) (v.setWidth 8) s) <|>
  (instanceAt (R.TLYu_IN16 0) 0x40 16 a).map (fun u => execTallyIn16 i (Fin.ofNat 16 u) (v.setWidth 16) s) <|>
  (instanceAt (R.TLYu_IN32 0) 0x40 16 a).map (fun u => execTallyIn32 i (Fin.ofNat 16 u) v s) <|>
  (instanceAt (R.TLYu_ALIVE_CHK 0) 0x40 16 a).map (fun u => execTallyAliveChk i (Fin.ofNat 16 u) v s) <|>
  (if R.TLYu_CFG 0 ≤ a ∧ a < R.TLYu_CFG 16 then some (.next (tallyWrite s i (Fin.ofNat 16 ((a - R.TLYu_CFG 0) / 0x40)) id)) else none)

/-- The write commands of registers that stand in a row of several, by address. -/
def rowRoute (i : Initiator) (a : Nat) (v : Word) (s : State) : Option Out :=
  (instanceAt (R.TMRc_TINC_FRAC 0) 0x20 16 a).map (fun c => execTincWrite i (Fin.ofNat 16 c) false v s) <|>
  (instanceAt (R.TMRc_TINC_INT 0) 0x20 16 a).map (fun c => execTincWrite i (Fin.ofNat 16 c) true v s) <|>
  (instanceAt (R.STRs_RESTART 0) 0x40 32 a).map (fun k => execStrRestart i (Fin.ofNat 32 k) v s) <|>
  (instanceAt (R.ACC_RESETn 0) 0x100 2 a).map (fun n => execAccReset i (Fin.ofNat 2 n) v s) <|>
  (instanceAt (R.RPn_CFG_DATA 0) 0x100 2 a).map (fun n => execCfgRequest i (Fin.ofNat 2 n) true v s) <|>
  (instanceAt (R.AUn_CAP 0) 0x40 64 a).map (fun e => execCapWrite i (Fin.ofNat 64 e) v s) <|>
  (instanceAt (R.WDTw_KEY 0) 0x20 4 a).map (fun w => execWdtBadKey i (Fin.ofNat 4 w) (v.setWidth 16) s) <|>
  (instanceAt (R.BRKn_REQ 0) 0x40 4 a).map (fun n => brakeWrite i (Fin.ofNat 4 n) v s) <|>
  (instanceAt (R.PMBb_XFER 0) 0x100 2 a).map (fun b => execPmbusTransfer i (Fin.ofNat 2 b) v s) <|>
  (instanceAt (R.BANKb_OWN 0) 0x10 64 a).map (fun b => execBankHandoverRequest i (Fin.ofNat 64 b) v s) <|>
  (instanceAt (R.KC_Kp_KWn_CFG 0 0) 8 4 a).map (fun n => execKeeperWindowWrite i 0 (Fin.ofNat 4 n) v s) <|>
  (instanceAt (R.KC_Kp_KWn_CFG 1 0) 8 4 a).map (fun n => execKeeperWindowWrite i 1 (Fin.ofNat 4 n) v s) <|>
  (instanceAt (R.LNu_CTL 0) 0x100 64 a).map (fun u => lnCtlWrite i (Fin.ofNat 64 u) v s) <|>
  (if R.LNu_EVSELk 0 0 ≤ a ∧ (a - R.LNu_EVSELk 0 0) / 0x100 < 64 ∧ (a - R.LNu_EVSELk 0 0) % 0x100 < 0x20 then
    some (execEvselWrite i (Fin.ofNat 64 ((a - R.LNu_EVSELk 0 0) / 0x100)) (Fin.ofNat 8 ((a - R.LNu_EVSELk 0 0) % 0x100 / 4)) v s)
  else none)

/-- The write commands of single registers, by address. -/
def singleRoute (i : Initiator) (a : Nat) (v : Word) (s : State) : Option Out :=
  (([(R.SILENT_CLR, execSilentClr), (R.AU_DRBG_CMD, execDrbgInstantiate), (R.AU_CHALn 3, chalWrite),
    (R.AU_COV_PUSH, execCoveragePush), (R.SN_LIB_VERIFY, execLibVerify), (R.SN_LOAD, execModelLoad), (R.ST_START, execSelftestStart),
    (R.BC_MASK_OPEN, execBcMaskOpen), (R.BC_GLINT_REQ, execBcGlintReq), (R.BC_FORCE, execBcForce), (R.BC_RET_CLR, execBcRetClr),
    (R.WD_RST_CLR, execWdRstClr), (R.TS_CHECKIN, execTsCheckin), (R.LC_REQ, execLcRequest), (R.SE_COMMIT_CMD, commitWrite),
    (R.SE_ATT_CMD, attWrite), (R.SE_GOLD_REQ, execGoldenVerify), (R.LK_CMD, lkWrite), (R.RST_REQ, execRstReq),
    (R.ADC_TRIG, execAdcTrig), (R.SEQ_CMD, seqWrite), (R.HD_REC_PUTn 15, fun i v s => execRecorderPlanAppend i v false s),
    (R.BS_LOST_CLR, execBsLostClr), (R.BS_MARCH_CMD, execMarchStart), (R.TP_STOP_TX, execStopTx), (R.TP_HTX_PROD, execHarbourTx),
    (R.LN_BW_WIN, execLnBwWinWrite), (R.LN_DUMP_NOW, execDumpStart)] : List (Nat × (Initiator → Word → State → Out))).find?
    (·.1 = a)).map fun f => f.2 i v s

/-- The command of a write to a register that has one. -/
def writeRoute (i : Initiator) (a : Nat) (v : Word) (s : State) : Option Out :=
  if 0x31000000 ≤ a ∧ a < 0x31240000 then tileRoute i a v s
  else if a / 0x100000 = 0x304 then tallyRoute i a v s
  else rowRoute i a v s <|> singleRoute i a v s

/-- What a permitted write does to a register's bits: RW takes the value, W1C clears but where hardware has set the bit in the same
cycle (R10, `set`), W1S sets; RO, RR and reserved bits stay (Table 00-5, R6, R8). A write-only word that a later command uses is kept:
a read answers 0 for it (`shownAt`). -/
def accessWrite (r : RegRow) (old set v : Word) : Word :=
  ((((old &&& ~~~ (r.rw ||| r.wo)) ||| (v &&& (r.rw ||| r.wo))) &&& ~~~ (v &&& r.w1c &&& ~~~ set)) ||| (v &&& r.w1s))

/-- A permitted write of a register with no command of its own; SE_TOKENn is Seal's own buffer. -/
def plainWrite (r : RegRow) (a : Nat) (v : Word) (s : State) : State :=
  match instanceAt (R.SE_TOKENn 0) 4 32 a with
  | some n => { s with se := { s.se with token := s.se.token.set (Fin.ofNat 32 n) v } }
  | none => s.setReg (homeAddr a) (accessWrite r (s.reg (homeAddr a)) (s.setNow (homeAddr a)) v)

/-- A write of a register with no command of its own: Keeper-only fields take it from a Keeper pair alone (R7), the others from
Harbour too where KC_HWPERM permits (R395). An unassigned offset ignores it (R9). -/
def registerWrite (i : Initiator) (a : Nat) (v : Word) (s : State) : State :=
  match regRow a with
  | none => s.openWrite i a id
  | some r => if r.keeper then s.keeperWrite i (plainWrite r a v) else s.openWrite i a (plainWrite r a v)

/-- Whether a write to the word at `a` is permitted (R7, R395). -/
def writeAllowed (s : State) (i : Initiator) (a : Nat) : Bool :=
  s.mayWrite i a && (isKeeper i || match regRow (a - a % 4) with | some r => !r.keeper | none => true)

/-- REGISTER_WRITE. Outside the block windows the map has no register: a bus error (R396). Narrow or unaligned: a bus error and no
effect (R9); one of Harbour's that is not permitted raises ES10 as any other (R395). -/
def execRegisterWrite (i : Initiator) (a : Nat) (bytes : Nat) (v : Word) (s : State) : Out :=
  if !inRegWindow a then .next (s.refuse i)
  else if bytes ≠ 4 ∨ a % 4 ≠ 0 then .next (if writeAllowed s i a then s.busError i else s.refuse i)
  else if isStaged (homeAddr a) then execStagedWrite i a v s
  else match writeRoute i a v s with
    | some o => o
    | none => .next (registerWrite i a v s)

end Sys2Proof.Machine
end

