-- ==== Sys2Proof/Machine/Dispatch.lean ====
section
/-! DEFINITION. Machine/Dispatch.lean: which meaning each command has, one arm per constructor. -/

namespace Sys2Proof.Machine

/-- The effect of a command on everything but the queue. -/
def exec (i : Instr) (s : State) : Host.Outcome State Fault Refusal :=
  match i with
  | .quadratureEdge n a b => Sys2Proof.Machine.execQuadratureEdge n a b s
  | .zPulse n => Sys2Proof.Machine.execZPulse n s
  | .ssiRead n f => Sys2Proof.Machine.execSsiRead n f s
  | .encoderLineFault n => Sys2Proof.Machine.execEncoderLineFault n s
  | .singleTimeout => Sys2Proof.Machine.execSingleTimeout s
  | .speedEstimate => Sys2Proof.Machine.execSpeedEstimate s
  | .readLoLatch who q => Sys2Proof.Machine.execReadLoLatch who q s
  | .verdictDeadlineMissed b => Sys2Proof.Machine.execVerdictDeadlineMissed b s
  | .postReached p => Sys2Proof.Machine.execPostReached p s
  | .postRelease => Sys2Proof.Machine.execPostRelease s
  | .postqPop => Sys2Proof.Machine.execPostqPop s
  | .tincWrite who c int v => Sys2Proof.Machine.execTincWrite who c int v s
  | .timerCompareReached c => Sys2Proof.Machine.execTimerCompareReached c s
  | .captureEdge n rising => Sys2Proof.Machine.execCaptureEdge n rising s
  | .capturePop who n => Sys2Proof.Machine.execCapturePop who n s
  | .trigPulseEnd j => Sys2Proof.Machine.execTrigPulseEnd j s
  | .csiFrameStart k => Sys2Proof.Machine.execCsiFrameStart k s
  | .csiLongPacket rx p => Sys2Proof.Machine.execCsiLongPacket rx p s
  | .csiFrameEnd k env => Sys2Proof.Machine.execCsiFrameEnd k env s
  | .ethSegment f env => Sys2Proof.Machine.execEthSegment f env s
  | .ethUnmatchedFrame f => Sys2Proof.Machine.execEthUnmatchedFrame f s
  | .linkRegain p => Sys2Proof.Machine.execLinkRegain p s
  | .sensorLinkLoss p => Sys2Proof.Machine.execSensorLinkLoss p s
  | .strRestart who k v => Sys2Proof.Machine.execStrRestart who k v s
  | .assemblyDeadline b => Sys2Proof.Machine.execAssemblyDeadline b s
  | .lampSlotEnd => Sys2Proof.Machine.execLampSlotEnd s
  | .cfgRequest who n write data => Sys2Proof.Machine.execCfgRequest who n write data s
  | .outboundAccess u n off op => Sys2Proof.Machine.execOutboundAccess u n off op s
  | .outboundCompletion n tag r => Sys2Proof.Machine.execOutboundCompletion n tag r s
  | .completionTimeout n tag => Sys2Proof.Machine.execCompletionTimeout n tag s
  | .inboundRequest n odd r => Sys2Proof.Machine.execInboundRequest n odd r s
  | .landingWrite => Sys2Proof.Machine.execLandingWrite s
  | .patrolBlock n r => Sys2Proof.Machine.execPatrolBlock n r s
  | .portStart n => Sys2Proof.Machine.execPortStart n s
  | .perstDelayEnd n => Sys2Proof.Machine.execPerstDelayEnd n s
  | .linkUp n speed width id => Sys2Proof.Machine.execLinkUp n speed width id s
  | .linkUpTimeout n => Sys2Proof.Machine.execLinkUpTimeout n s
  | .accReadyRise n => Sys2Proof.Machine.execAccReadyRise n s
  | .accBootTimeout n => Sys2Proof.Machine.execAccBootTimeout n s
  | .accReadyFall n => Sys2Proof.Machine.execAccReadyFall n s
  | .accFault n asserted => Sys2Proof.Machine.execAccFault n asserted s
  | .accTherm n asserted => Sys2Proof.Machine.execAccTherm n asserted s
  | .linkDown n => Sys2Proof.Machine.execLinkDown n s
  | .ltssmRecovery n => Sys2Proof.Machine.execLtssmRecovery n s
  | .accReset who n v => Sys2Proof.Machine.execAccReset who n v s
  | .sigRecordHandover => Sys2Proof.Machine.execSigRecordHandover s
  | .mirrorCompare env => Sys2Proof.Machine.execMirrorCompare env s
  | .windowDeadline b => Sys2Proof.Machine.execWindowDeadline b s
  | .missingResult b => Sys2Proof.Machine.execMissingResult b s
  | .mirrorGlint g => Sys2Proof.Machine.execMirrorGlint g s
  | .silentClr who v => Sys2Proof.Machine.execSilentClr who v s
  | .tlStart who p v es => Sys2Proof.Machine.execTlStart who p v es s
  | .tlStopAbort who p => Sys2Proof.Machine.execTlStopAbort who p s
  | .tlStopPause who p => Sys2Proof.Machine.execTlStopPause who p s
  | .tileStopComplete p es => Sys2Proof.Machine.execTileStopComplete p es s
  | .tlReset who p v => Sys2Proof.Machine.execTlReset who p v s
  | .tileResetDone p overrun => Sys2Proof.Machine.execTileResetDone p overrun s
  | .tlDbgHalt who p => Sys2Proof.Machine.execTlDbgHalt who p s
  | .tlDbgStep who p v => Sys2Proof.Machine.execTlDbgStep who p v s
  | .tlDbgResume who p => Sys2Proof.Machine.execTlDbgResume who p s
  | .tlEventSet who p v => Sys2Proof.Machine.execTlEventSet who p v s
  | .opNop p v => Sys2Proof.Machine.execOpNop p v s
  | .opHalt p v => Sys2Proof.Machine.execOpHalt p v s
  | .opLoop p v => Sys2Proof.Machine.execOpLoop p v s
  | .opJmp p v => Sys2Proof.Machine.execOpJmp p v s
  | .opBnz p v => Sys2Proof.Machine.execOpBnz p v s
  | .opWaite p v => Sys2Proof.Machine.execOpWaite p v s
  | .opSige p v => Sys2Proof.Machine.execOpSige p v s
  | .opAddi p v => Sys2Proof.Machine.execOpAddi p v s
  | .opAdd p v => Sys2Proof.Machine.execOpAdd p v s
  | .opSub p v => Sys2Proof.Machine.execOpSub p v s
  | .opMuli p v => Sys2Proof.Machine.execOpMuli p v s
  | .opLds p v => Sys2Proof.Machine.execOpLds p v s
  | .opSts p v => Sys2Proof.Machine.execOpSts p v s
  | .opWld p v => Sys2Proof.Machine.execOpWld p v s
  | .opWsw p v => Sys2Proof.Machine.execOpWsw p v s
  | .opMma p v => Sys2Proof.Machine.execOpMma p v s
  | .mmaDrained p => Sys2Proof.Machine.execMmaDrained p s
  | .opAccr p v => Sys2Proof.Machine.execOpAccr p v s
  | .opAccw p v => Sys2Proof.Machine.execOpAccw p v s
  | .opVld p v => Sys2Proof.Machine.execOpVld p v s
  | .opVst p v => Sys2Proof.Machine.execOpVst p v s
  | .opVop p v => Sys2Proof.Machine.execOpVop p v s
  | .opVops p v => Sys2Proof.Machine.execOpVops p v s
  | .opVreq p v => Sys2Proof.Machine.execOpVreq p v s
  | .opVlut p v => Sys2Proof.Machine.execOpVlut p v s
  | .opVred p v => Sys2Proof.Machine.execOpVred p v s
  | .opDma p v => Sys2Proof.Machine.execOpDma p v s
  | .opDwait p v => Sys2Proof.Machine.execOpDwait p v s
  | .opAkt p v => Sys2Proof.Machine.execOpAkt p v s
  | .dmaTransferDone p ch r => Sys2Proof.Machine.execDmaTransferDone p ch r s
  | .dmaTimeout p ch => Sys2Proof.Machine.execDmaTimeout p ch s
  | .cycleLimit p => Sys2Proof.Machine.execCycleLimit p s
  | .sealDeadline b => Sys2Proof.Machine.execSealDeadline b s
  | .sealMissingTimeout b => Sys2Proof.Machine.execSealMissingTimeout b s
  | .readyqPop => Sys2Proof.Machine.execReadyqPop s
  | .drbgInstantiate who v => Sys2Proof.Machine.execDrbgInstantiate who v s
  | .drbgOutRead who => Sys2Proof.Machine.execDrbgOutRead who s
  | .challengeExact who chal => Sys2Proof.Machine.execChallengeExact who chal s
  | .challengeProject who chal => Sys2Proof.Machine.execChallengeProject who chal s
  | .challengeInput who chal => Sys2Proof.Machine.execChallengeInput who chal s
  | .challengeClose who chal => Sys2Proof.Machine.execChallengeClose who chal s
  | .challengeReadDone r => Sys2Proof.Machine.execChallengeReadDone r s
  | .challengeReadError => Sys2Proof.Machine.execChallengeReadError s
  | .auditTileDone b seq r => Sys2Proof.Machine.execAuditTileDone b seq r s
  | .coveragePush who v => Sys2Proof.Machine.execCoveragePush who v s
  | .capWrite who e v => Sys2Proof.Machine.execCapWrite who e v s
  | .libVerify who v => Sys2Proof.Machine.execLibVerify who v s
  | .libVerifyDone r => Sys2Proof.Machine.execLibVerifyDone r s
  | .modelLoad who v => Sys2Proof.Machine.execModelLoad who v s
  | .modelLoadDone r => Sys2Proof.Machine.execModelLoadDone r s
  | .plausibilityEval b x a v => Sys2Proof.Machine.execPlausibilityEval b x a v s
  | .envelopeEval b a => Sys2Proof.Machine.execEnvelopeEval b a s
  | .lampDeadline b => Sys2Proof.Machine.execLampDeadline b s
  | .lampAgeTest => Sys2Proof.Machine.execLampAgeTest s
  | .selftestStart who v => Sys2Proof.Machine.execSelftestStart who v s
  | .selftestAgeExceeded p => Sys2Proof.Machine.execSelftestAgeExceeded p s
  | .verdictForm b formersDiffer => Sys2Proof.Machine.execVerdictForm b formersDiffer s
  | .recordRelease => Sys2Proof.Machine.execRecordRelease s
  | .abandonRecord => Sys2Proof.Machine.execAbandonRecord s
  | .validTimeout v => Sys2Proof.Machine.execValidTimeout v s
  | .pinReadbackMismatch p => Sys2Proof.Machine.execPinReadbackMismatch p s
  | .spiFrameBad f => Sys2Proof.Machine.execSpiFrameBad f s
  | .mbNext v => Sys2Proof.Machine.execMbNext v s
  | .mbData => Sys2Proof.Machine.execMbData s
  | .mbAck v => Sys2Proof.Machine.execMbAck v s
  | .ntNext v => Sys2Proof.Machine.execNtNext v s
  | .ntData => Sys2Proof.Machine.execNtData s
  | .ntAck v => Sys2Proof.Machine.execNtAck v s
  | .mbTimeLo => Sys2Proof.Machine.execMbTimeLo s
  | .canFrameSent c => Sys2Proof.Machine.execCanFrameSent c s
  | .canTxTimeout c => Sys2Proof.Machine.execCanTxTimeout c s
  | .canBusOff c st => Sys2Proof.Machine.execCanBusOff c st s
  | .canFrameReceived c => Sys2Proof.Machine.execCanFrameReceived c s
  | .sourceEvent e => Sys2Proof.Machine.execSourceEvent e s
  | .countWindowClose source channel => Sys2Proof.Machine.execCountWindowClose source channel s
  | .bcMaskOpen who v => Sys2Proof.Machine.execBcMaskOpen who v s
  | .maskIntervalEnd => Sys2Proof.Machine.execMaskIntervalEnd s
  | .pwrcutPulseEnd => Sys2Proof.Machine.execPwrcutPulseEnd s
  | .reactionPathDisagree e => Sys2Proof.Machine.execReactionPathDisagree e s
  | .glintIssue g => Sys2Proof.Machine.execGlintIssue g s
  | .glintWindowEnd => Sys2Proof.Machine.execGlintWindowEnd s
  | .glintReadbackEnd => Sys2Proof.Machine.execGlintReadbackEnd s
  | .bcGlintReq who v => Sys2Proof.Machine.execBcGlintReq who v s
  | .bcForce who v => Sys2Proof.Machine.execBcForce who v s
  | .bcRetClr who v => Sys2Proof.Machine.execBcRetClr who v s
  | .wdtKeyArm who w => Sys2Proof.Machine.execWdtKeyArm who w s
  | .wdtKeyService who w => Sys2Proof.Machine.execWdtKeyService who w s
  | .wdtBadKey who w v => Sys2Proof.Machine.execWdtBadKey who w v s
  | .wdtLate w => Sys2Proof.Machine.execWdtLate w s
  | .wdtKeyLapse w => Sys2Proof.Machine.execWdtKeyLapse w s
  | .wdoPulseEnd => Sys2Proof.Machine.execWdoPulseEnd s
  | .wdoReadbackMismatch level => Sys2Proof.Machine.execWdoReadbackMismatch level s
  | .wdRstClr who v => Sys2Proof.Machine.execWdRstClr who v s
  | .tsCheckin who v => Sys2Proof.Machine.execTsCheckin who v s
  | .taskBoundary e => Sys2Proof.Machine.execTaskBoundary e s
  | .brakeReleaseRequest who n => Sys2Proof.Machine.execBrakeReleaseRequest who n s
  | .brakeApplyRequest who n => Sys2Proof.Machine.execBrakeApplyRequest who n s
  | .releaseLsgConfirmed n r => Sys2Proof.Machine.execReleaseLsgConfirmed n r s
  | .releaseComplete n r c => Sys2Proof.Machine.execReleaseComplete n r c s
  | .brakeReadbackFault n r => Sys2Proof.Machine.execBrakeReadbackFault n r s
  | .testPulseStart n => Sys2Proof.Machine.execTestPulseStart n s
  | .testPulseJudge n r => Sys2Proof.Machine.execTestPulseJudge n r s
  | .testPulseEnd n => Sys2Proof.Machine.execTestPulseEnd n s
  | .brakeSupplyFault mv10 => Sys2Proof.Machine.execBrakeSupplyFault mv10 s
  | .loAckPress => Sys2Proof.Machine.execLoAckPress s
  | .sinContactChange n a b => Sys2Proof.Machine.execSinContactChange n a b s
  | .sinDiscrepancyTimeout n => Sys2Proof.Machine.execSinDiscrepancyTimeout n s
  | .sinTestPulse src levelA levelB => Sys2Proof.Machine.execSinTestPulse src levelA levelB s
  | .sealLoopStep returned => Sys2Proof.Machine.execSealLoopStep returned s
  | .lcRequest who v => Sys2Proof.Machine.execLcRequest who v s
  | .tamperDetect k => Sys2Proof.Machine.execTamperDetect k s
  | .vaultWipeDone badParts => Sys2Proof.Machine.execVaultWipeDone badParts s
  | .vaultWipeTimeout => Sys2Proof.Machine.execVaultWipeTimeout s
  | .goldenVerify who v => Sys2Proof.Machine.execGoldenVerify who v s
  | .goldenVerifyDone ok => Sys2Proof.Machine.execGoldenVerifyDone ok s
  | .commitStart who contents => Sys2Proof.Machine.execCommitStart who contents s
  | .commitAbort who => Sys2Proof.Machine.execCommitAbort who s
  | .commitPhaseDone r => Sys2Proof.Machine.execCommitPhaseDone r s
  | .attestationStart who => Sys2Proof.Machine.execAttestationStart who s
  | .attestationDone => Sys2Proof.Machine.execAttestationDone s
  | .lkBegin who => Sys2Proof.Machine.execLkBegin who s
  | .lkLevel who => Sys2Proof.Machine.execLkLevel who s
  | .levelDone => Sys2Proof.Machine.execLevelDone s
  | .lkOpen who => Sys2Proof.Machine.execLkOpen who s
  | .lkDiscard who => Sys2Proof.Machine.execLkDiscard who s
  | .stageExpired => Sys2Proof.Machine.execStageExpired s
  | .stagedWrite who a v => Sys2Proof.Machine.execStagedWrite who a v s
  | .powerGood => Sys2Proof.Machine.execPowerGood s
  | .startStepComplete r => Sys2Proof.Machine.execStartStepComplete r s
  | .startTimeout => Sys2Proof.Machine.execStartTimeout s
  | .ownRailFault m f => Sys2Proof.Machine.execOwnRailFault m f s
  | .brownout powerOn => Sys2Proof.Machine.execBrownout powerOn s
  | .tjSample t sensor => Sys2Proof.Machine.execTjSample t sensor s
  | .adcConversion c code => Sys2Proof.Machine.execAdcConversion c code s
  | .adcTrig who v => Sys2Proof.Machine.execAdcTrig who v s
  | .seqCmdUp who => Sys2Proof.Machine.execSeqCmdUp who s
  | .seqCmdDown who => Sys2Proof.Machine.execSeqCmdDown who s
  | .seqStepDone e => Sys2Proof.Machine.execSeqStepDone e s
  | .downSequenceStep => Sys2Proof.Machine.execDownSequenceStep s
  | .accEnReadbackMismatch n level => Sys2Proof.Machine.execAccEnReadbackMismatch n level s
  | .pmbusTransfer who b v => Sys2Proof.Machine.execPmbusTransfer who b v s
  | .pmbusDone b r => Sys2Proof.Machine.execPmbusDone b r s
  | .pinReset => Sys2Proof.Machine.execPinReset s
  | .rstReq who v => Sys2Proof.Machine.execRstReq who v s
  | .holdAccess who a op e => Sys2Proof.Machine.execHoldAccess who a op e s
  | .scrubRead e => Sys2Proof.Machine.execScrubRead e s
  | .refreshRateCheck c rate => Sys2Proof.Machine.execRefreshRateCheck c rate s
  | .zqCalibration c ok => Sys2Proof.Machine.execZqCalibration c ok s
  | .recorderPlanAppend who v writeFailed => Sys2Proof.Machine.execRecorderPlanAppend who v writeFailed s
  | .bankHandoverRequest who b v => Sys2Proof.Machine.execBankHandoverRequest who b v s
  | .bankHandoverComplete b => Sys2Proof.Machine.execBankHandoverComplete b s
  | .marchStart who v => Sys2Proof.Machine.execMarchStart who v s
  | .marchSegmentDone b r => Sys2Proof.Machine.execMarchSegmentDone b r s
  | .marchDone b r => Sys2Proof.Machine.execMarchDone b r s
  | .bsLostClr who v => Sys2Proof.Machine.execBsLostClr who v s
  | .tallyCfgWrite who u v => Sys2Proof.Machine.execTallyCfgWrite who u v s
  | .tallyStart who u v => Sys2Proof.Machine.execTallyStart who u v s
  | .tallyIn8 who u v => Sys2Proof.Machine.execTallyIn8 who u v s
  | .tallyIn16 who u v => Sys2Proof.Machine.execTallyIn16 who u v s
  | .tallyIn32 who u v => Sys2Proof.Machine.execTallyIn32 who u v s
  | .tallyResLo who u => Sys2Proof.Machine.execTallyResLo who u s
  | .tallyAlive who u => Sys2Proof.Machine.execTallyAlive who u s
  | .tallyAliveChk who u v => Sys2Proof.Machine.execTallyAliveChk who u v s
  | .tallyGlint detected => Sys2Proof.Machine.execTallyGlint detected s
  | .helloSend => Sys2Proof.Machine.execHelloSend s
  | .zholiFrameBad q x => Sys2Proof.Machine.execZholiFrameBad q x s
  | .hello q h m => Sys2Proof.Machine.execHello q h m s
  | .claim q h m => Sys2Proof.Machine.execClaim q h m s
  | .claimSend => Sys2Proof.Machine.execClaimSend s
  | .assign q h m => Sys2Proof.Machine.execAssign q h m s
  | .route q h m => Sys2Proof.Machine.execRoute q h m s
  | .routeAck q h m => Sys2Proof.Machine.execRouteAck q h m s
  | .stop q h m => Sys2Proof.Machine.execStop q h m s
  | .data q h m => Sys2Proof.Machine.execData q h m s
  | .bcast q h m => Sys2Proof.Machine.execBcast q h m s
  | .stopCopy => Sys2Proof.Machine.execStopCopy s
  | .stopTx who v => Sys2Proof.Machine.execStopTx who v s
  | .stopCancel who v => Sys2Proof.Machine.execStopCancel who v s
  | .ptpSync q tb offset gm => Sys2Proof.Machine.execPtpSync q tb offset gm s
  | .syncLoss tb => Sys2Proof.Machine.execSyncLoss tb s
  | .peerDelay q delay => Sys2Proof.Machine.execPeerDelay q delay s
  | .siteFailover => Sys2Proof.Machine.execSiteFailover s
  | .neighbourSilent q => Sys2Proof.Machine.execNeighbourSilent q s
  | .tpLinkLoss q pcs => Sys2Proof.Machine.execTpLinkLoss q pcs s
  | .harbourTx who v => Sys2Proof.Machine.execHarbourTx who v s
  | .lockstepMismatch k where_ => Sys2Proof.Machine.execLockstepMismatch k where_ s
  | .delayParityError k => Sys2Proof.Machine.execDelayParityError k s
  | .keeperHalt c => Sys2Proof.Machine.execKeeperHalt c s
  | .keeperResume c => Sys2Proof.Machine.execKeeperResume c s
  | .keeperWindowWrite who k n v => Sys2Proof.Machine.execKeeperWindowWrite who k n v s
  | .keeperWindowAccess k a write => Sys2Proof.Machine.execKeeperWindowAccess k a write s
  | .evselWrite who u k v => Sys2Proof.Machine.execEvselWrite who u k v s
  | .lnCtlClr who u => Sys2Proof.Machine.execLnCtlClr who u s
  | .lnCtlFreeze who u freeze => Sys2Proof.Machine.execLnCtlFreeze who u freeze s
  | .lnBwWinWrite who v => Sys2Proof.Machine.execLnBwWinWrite who v s
  | .bwWindowEnd => Sys2Proof.Machine.execBwWindowEnd s
  | .dumpStart who v => Sys2Proof.Machine.execDumpStart who v s
  | .dumpDone => Sys2Proof.Machine.execDumpDone s
  | .registerWrite who a bytes v => Sys2Proof.Machine.execRegisterWrite who a bytes v s
  | .timeIntegrityFault xtal => Sys2Proof.Machine.execTimeIntegrityFault xtal s
  | .clockMonitorFault => Sys2Proof.Machine.execClockMonitorFault s
  | .holdoverAgeExceeded tb => Sys2Proof.Machine.execHoldoverAgeExceeded tb s
  | .uncorrectableErrorMessage n uncorrectable => Sys2Proof.Machine.execUncorrectableErrorMessage n uncorrectable s
  | .loAckPressStart => Sys2Proof.Machine.execLoAckPressStart s
  | .offTransitionPass n r => Sys2Proof.Machine.execOffTransitionPass n r s
  | .domainLeavesReset d => Sys2Proof.Machine.execDomainLeavesReset d s
  | .onChipSramAccess who a op e => Sys2Proof.Machine.execOnChipSramAccess who a op e s
  | .provisioningRequest rootHash => Sys2Proof.Machine.execProvisioningRequest rootHash s

end Sys2Proof.Machine
end

