-- ==== Sys2Proof/Machine/Tick.lean ====
section
/-! DEFINITION. Machine/Tick.lean: what one TCLK cycle (R4) does by itself, whatever is commanded. -/

namespace Sys2Proof.Machine

/-- TL_CYCLES counts while a run is in progress (Table 06-18). -/
def tickTile (s : State) (p : Nat) : State :=
  let k := Fin.ofNat 36 p
  if s.tiles[k].run == .running || s.tiles[k].run == .stopping then s.satAdd (R.TL_CYCLES p) 31 0 1 else s

/-- The tiles' retries of the cycle that ends, and their units' work in the one that begins. -/
def endTiles (s : State) : State := foldN 36 (fun s p => bankRetry s (Fin.ofNat 36 p)) s
def beginTiles (s : State) : State := foldN 36 (fun s p => tileCycle s (Fin.ofNat 36 p)) s

/-- The level events of the cycle that ends (Table 20-2): each RUNNING tile's top-down slot (R403), ARRAY_BUSY, and the ports with a read
outstanding or a frame in flight. -/
def levelEvents (s : State) : List (Fin 64 × Nat) :=
  (List.finRange 36).flatMap (fun p =>
    (if slotted s p then [(lnTile p, tdSlot s p)] else []) ++ (if arrayBusy s.tiles[p] then [(lnTile p, 0x06)] else [])) ++
  (List.finRange 2).flatMap (fun n => if s.mr.ports[n].reads.isEmpty then [] else [(lnPort n, 0x22)]) ++
  (List.finRange 16).flatMap (fun c => if s.hd.waits.any fun w => holdChannel w.addr == c.val then [(lnHold c.val, 0x22), (lnHold c.val, 0x23)] else []) ++
  (List.finRange 4).flatMap (fun q => (if portSends s.tp.out q s.cycle then [(lnTp q, 0x22)] else []) ++
    (if portHolds s.tp.out q s.cycle then [(lnTp q, 0x23)] else [])) ++
  [false, true].flatMap fun eth =>
    if (List.finRange 32).any fun i => isEth s i.val == eth && s.sl.streams[i].frame.isSome then [(if eth then 55 else 54, 0x22)] else []

/-- One TCLK cycle: time, the timers, an estimated TRAVEL, the tiles' cycle counts, Lantern's counts, the start. -/
def tick (s : State) : State :=
  let now := levelEvents s
  let s := endTiles s
  let s := { s with cycle := s.cycle + 1, hwSets := [], ports := ⟨[], []⟩, mp := { s.mp with postTable := none, released := none } }
  let s := foldN 16 tickTimer (tickTravel (tickOsc s))
  let s := beginTiles (foldN 36 tickTile s)
  tickStart (tickLantern now (tickTime s))

end Sys2Proof.Machine
end

