-- ==== Sys2Proof/Machine/View.lean ====
section
/-! DEFINITION. Machine/View.lean: what a read of a block register returns (R6, R8, R9, R290, R395, R407), with every live register
computed from the state. A read without an effect is no command of the table: the view answers it (log entry 84). -/

namespace Sys2Proof.Machine

/-- A row of live registers: base, stride, count, and the value of each. -/
structure LiveRow where
  base : Nat
  stride : Nat
  count : Nat
  value : Nat → Nat

/-- One live register. -/
def live (a v : Nat) : LiveRow := ⟨a, 4, 1, fun _ => v⟩

/-- A 64-bit quantity at _LO; _HI is the half this initiator latched (R41, R405). -/
def liveHalves (s : State) (i : Initiator) (q : Nat → Quantity) (a stride count : Nat) : List LiveRow :=
  [⟨a, stride, count, fun n => (quantity s (q n)).toNat % 2 ^ 32⟩, ⟨a + 4, stride, count, fun n => (latched s i (q n)).toNat⟩]

/-- A saturating value of a field of `w` bits. -/
def sat (w n : Nat) : Nat := min n (2 ^ w - 1)

/-- The mask of the indices below `n` of which `p` holds. -/
def maskBelow (n : Nat) (p : Nat → Bool) : Nat := (List.range n).foldl (fun m k => m + bit (p k) * 2 ^ k) 0

/-- The word of bytes at an offset of a byte list, the lowest first. -/
def wordAt (bs : List Byte) (n : Nat) : Nat := fieldLE bs (4 * n) 4

/-! ### Milepost (Table 02-7) -/

def liveMilepost (s : State) (i : Initiator) : List LiveRow :=
  [live R.MP_STAT (mpStat s).toNat, live R.POSTQ_LEVEL s.mp.keeperQ.length,
   live R.POSTQ_POP (match s.mp.keeperQ with | e :: _ => 0x80000000 + e.post.toNat | [] => 0),
   live R.TB_HOLD_AGE (sat 16 (holdAge s 0) + 0x10000 * sat 16 (holdAge s 1)),
   ⟨R.CAPi_STAT 0, 0x20, 8, fun n => s.fld (R.CAPi_STAT n) 0 0 + 0x10000 * s.mp.caps[Fin.ofNat 8 n].length⟩] ++
  liveHalves s i (fun _ => .timeNs) R.TIME_NS_LO 8 1 ++ liveHalves s i (fun _ => .travel) R.TRAVEL_LO 8 1 ++
  liveHalves s i (fun _ => .tbSite) R.TB_SITE_LO 8 1 ++ liveHalves s i (fun _ => .tbZone) R.TB_ZONE_LO 8 1 ++
  liveHalves s i (fun n => .timer (Fin.ofNat 16 n)) (R.TMRc_CNT_LO 0) 0x20 16 ++
  liveHalves s i (fun n => .captureT (Fin.ofNat 8 n)) (R.CAPi_T_LO 0) 0x20 8 ++
  liveHalves s i (fun n => .captureS (Fin.ofNat 8 n)) (R.CAPi_S_LO 0) 0x20 8

/-! ### Sluice (Tables 03-7, 03-10) -/

/-- Status codes (Table 03-3). -/
def frameCode : FrameStatus → Nat
  | .ok => 0x0
  | .linkBad => 0x1
  | .hdrBad => 0x2
  | .segBad => 0x3
  | .lenBad => 0x4
  | .checkBad => 0x5
  | .seqRepeat => 0x6
  | .stampBad => 0x7
  | .seqGap => 0x8
  | .restarted => 0x9
  | .late => 0xA
  | .retired => 0xB

def strStat (x : Stream) : Nat :=
  frameCode x.last + 16 * x.warmLeft + 256 * bit (decide (0 < x.warmLeft)) + 512 * bit x.retired + 65536 * sat 16 x.lost

/-- What is left of a lamp's slot, in 10 µs. -/
def slotLeft (s : State) : Nat :=
  match s.sl.slotEnd with
  | some e => sat 16 ((e - s.cycle) / usCycles 10)
  | none => 0

/-- Sluice's. HELD_STAT's barges held are all that wait behind the slot, lamps and barges whose verdict is final included (DESIGN CHOICE, log
entry 89). -/
def liveSluice (s : State) : List LiveRow :=
  [live R.SL_STAT (bit (s.flag R.SL_CTRL 0 && !s.sl.suspended) +
     256 * ((List.range 16).filter fun k => !(assemblingOf s k).isEmpty).length),
   live R.HELD_STAT (bit s.sl.slotEnd.isSome + 256 * sat 8 (s.barges.filter (·.stage == .held)).length + 65536 * slotLeft s),
   live R.SL_RING_FREE (ringFree s / 1024),
   ⟨R.STRs_STAT 0, 0x40, 32, fun n => strStat s.sl.streams[Fin.ofNat 32 n]⟩,
   ⟨R.STRs_LASTCNT 0, 0x40, 32, fun n => s.sl.streams[Fin.ofNat 32 n].lastCnt.toNat⟩,
   ⟨R.SETk_STAT 0, 0x40, 16, fun k => sat 2 (assemblingOf s k).length + 4 * bit s.sl.allRetired[Fin.ofNat 16 k]⟩]

/-! ### Mooring (Tables 04-11 to 04-14) -/

/-- Codes of Table 04-7. -/
def portCode : PortState → Nat
  | .off => 0
  | .training => 1
  | .waitReady => 2
  | .serving => 3

/-- RPn_STAT (Table 04-13); rate and width read 0 while the link is down. -/
def portStat (p : Port) : Nat :=
  portCode p.state + 4 * p.speed.toNat + 32 * p.width.toNat + 1024 * bit p.perst + 2048 * bit p.ready + 4096 * bit p.fault +
  8192 * bit p.therm + 16384 * bit p.retired

def patrolRegion (s : State) (n : Fin 2) : Nat := match s.mr.ports[n].patrol with | some (r, _) => r.val | none => 0

def liveMooring (s : State) : List LiveRow :=
  [live R.MR_STAT (portCode s.mr.ports[0].state + 4 * portCode s.mr.ports[1].state),
   ⟨R.RPn_STAT 0, 0x100, 2, fun n => portStat s.mr.ports[Fin.ofNat 2 n]⟩,
   ⟨R.Cc_DLV_STAT 0, 0x40, 4, fun c => nextSlot s (Fin.ofNat 4 c) + 32 * s.mr.ctxs[Fin.ofNat 4 c].slots.length⟩,
   live R.PAT_STAT (patrolRegion s 0 + 256 * patrolRegion s 1),
   ⟨R.PATr_AGE 0, 0x20, 64, fun r => patAge s (Fin.ofNat 64 r)⟩,
   ⟨R.PATr_STAT 0, 0x20, 64, fun r => let x := s.mr.regions[Fin.ofNat 64 r]
      bit x.dirty + 2 * bit x.retry.isSome + 4 * (x.diffBlk % 2 ^ 30)⟩]

/-! ### Mirror (Table 05-7) -/

def liveMirror (s : State) : List LiveRow :=
  [live R.MI_STAT (s.mi.store.length + 2048 * s.mi.queue.length + 2 ^ 18 * bit (glintOpen s 32 || glintOpen s 34))]

/-! ### Shadow tiles (Tables 06-13, 06-18, 06-21) -/

/-- State codes (Table 06-13): an abort still shows RUNNING, a pause or a resume in progress SAVING. -/
def tileCode (t : Tile) (now : Nat) : Nat :=
  match t.run with
  | .off => 0
  | .idle => 1
  | .running => if now < t.resumeTo then 7 else 2
  | .stopping => if t.stopPause then 7 else 2
  | .halted => if now < t.resumeTo then 7 else 3
  | .faulted => 4
  | .retired => 5
  | .resetting => 6

def tlStat (s : State) (p : Nat) : Nat :=
  let t := s.tiles[Fin.ofNat 36 p]
  tileCode t s.cycle + 8 * t.entry.toNat + 128 * bit (arrayBusy t) +
  256 * maskBelow 4 (fun c => t.dma[Fin.ofNat 4 c].busy) + 4096 * bit t.saved + 2 ^ 24 * p

/-- TM_FAULT_MAP: tiles faulted or retired (R140). -/
def faultMap (s : State) (lo n : Nat) : Nat :=
  maskBelow n fun k => let t := s.tiles[Fin.ofNat 36 (lo + k)]; t.run == .faulted || t.run == .retired || s.flag (R.TL_RETIRE (lo + k)) 0

/-- The STATE field of TL_MAP as hardware shows it: RETIRED and FUSED over what is set. -/
def mapShown (s : State) (p : Nat) : Nat :=
  if s.fused.contains (Fin.ofNat 36 p) then 3 else if s.flag (R.TL_RETIRE p) 0 then 2 else s.fld (R.TL_MAP p) 6 5

def countTiles (p : Nat → Bool) : Nat := ((List.range 36).filter p).length

def liveTiles (s : State) : List LiveRow :=
  [⟨R.TL_STAT 0, 0x10000, 36, tlStat s⟩,
   ⟨R.TL_PC 0, 0x10000, 36, fun p => s.tiles[Fin.ofNat 36 p].pc⟩,
   live (R.TM_FAULT_MAP_LO 0) (faultMap s 0 32), live (R.TM_FAULT_MAP_HI 0) (faultMap s 32 4),
   live (R.TM_SPARE 0) (sat 3 (countTiles fun p => mapShown s p == 0) + 256 * countTiles fun p => mapShown s p == 1)]

/-! ### Audit (Table 07-7) -/

def liveAudit (s : State) : List LiveRow :=
  [live R.AU_STAT (s.au.store.length + 2 ^ 15 * nAudit s),
   live R.AU_READYQ (match s.au.readyQ with | (e, _) :: _ => 0x80000000 + e.val | [] => 0),
   live R.AU_READYQ_BARGE s.au.popped.toNat,
   live R.AU_NONCE_LO (s.au.startNonce.toNat % 2 ^ 32), live R.AU_NONCE_HI (s.au.startNonce.toNat / 2 ^ 32),
   live R.AU_CHALQ s.au.queue.length]

/-! ### Sentinels and lamps (Table 08-12) -/

def resCode : ResState → Nat
  | .empty => 0
  | .loading => 1
  | .resident => 2
  | .running => 3

/-- SN_MSTATE: the model SN_MSEL names. -/
def modelState (s : State) : Nat :=
  let m := BitVec.ofNat 12 (s.fld R.SN_MSEL 11 0)
  match (List.range 64).find? fun r => let x := s.sn.slots[Fin.ofNat 64 r]; (x.state == .resident || x.state == .running) && x.model == m with
  | some r => 2 + 16 * r + 1024 * s.sn.slots[Fin.ofNat 64 r].variant.toNat
  | none => if s.sn.unavail.contains m then 3 else if (modelOf s m).isSome then 1 else 0

/-- The ACTIVE tile of greatest AKT age, the lowest number among equals. -/
def oldestTile (s : State) : Nat :=
  (List.range 36).foldl (fun b p => if tileActive s p && (!tileActive s b || decide (aktAge s (Fin.ofNat 36 b) < aktAge s (Fin.ofNat 36 p))) then p else b) 0

def liveSentinels (s : State) : List LiveRow :=
  [live R.SN_STAT ((s.sn.slots.toList.filter fun x => x.state == .resident || x.state == .running).length + 128 * bit s.sn.load.isSome +
     256 * countTiles fun p => tileActive s p && tileRole s p == 1),
   live R.SN_MSTATE (modelState s),
   live R.ST_NEXT_SAFE (match nextSafe s with | some us => min us 0xFFFFFFFE | none => 0xFFFFFFFF),
   live R.ST_OLDEST (oldestTile s + 65536 * sat 16 (aktAge s (Fin.ofNat 36 (oldestTile s)))),
   ⟨R.ST_AGEp 0, 4, 36, fun p => sat 16 (aktAge s (Fin.ofNat 36 p)) + 65536 * bit s.sn.aktAt[Fin.ofNat 36 p].isNone⟩,
   ⟨R.SGg_STAT 0, 0x10, 8, fun g => (groupActive s g).length⟩,
   ⟨R.RESr_STAT 0, 8, 64, fun r => let x := s.sn.slots[Fin.ofNat 64 r]
      x.model.toNat + 2 ^ 12 * resCode x.state + 2 ^ 14 * x.variant.toNat + 2 ^ 16 * x.group.val⟩]

/-! ### Lock chamber (Table 09-11) -/

/-- LC_STAT.OPEN: READY, and not closed since (R205). -/
def chamberOpen (s : State) : Bool := s.wr.ready && !chamberClosed s

def liveChamber (s : State) : List LiveRow :=
  [live R.LC_STAT (bit (chamberOpen s) + 2 * bit s.safeHigh + 4 * sat 5 (pendingCount s) + 128 * sat 10 s.barges.length),
   ⟨R.VALv_STAT 0, 0x10, 4, fun v => let x := s.lc.valids[Fin.ofNat 4 v]
      bit x.level + 2 * bit x.stale + 65536 * ((x.barge.getD 0).toNat % 65536)⟩,
   live R.SPI_STAT (s.lc.records.length + 2048 * s.lc.notices.length),
   ⟨R.CANc_STAT 0, 0x40, 2, fun c => let x := s.lc.cans[Fin.ofNat 2 c]
      x.tec.toNat + 256 * x.rec_.toNat + 65536 * bit x.passive + 131072 * bit x.busOff + 262144 * sat 9 x.queue.length⟩]

/-! ### Beacon (Tables 11-9, 11-10) -/

/-- BC_STAT.START_GLINT_OK: every checker of this configuration has passed its start glint and none has failed it (R240). -/
def startGlintsOk (s : State) : Bool := s.bc.startGlintOk && (startChecks s).all s.bc.passed.contains

def liveBeacon (s : State) : List LiveRow :=
  [live R.BC_STAT (bit s.bc.safe + 2 * bit s.bc.c4Taken + 4 * bit s.bc.path + 8 * bit (!s.bc.glints.isEmpty) + 16 * bit s.bc.retFull +
     32 * bit (startGlintsOk s)),
   live R.BC_LAST_EVT s.bc.lastEvt.toNat]

/-! ### Watchdogs and tasks (Tables 12-6 to 12-8) -/

def liveWatchdogs (s : State) : List LiveRow :=
  [live R.WD_STAT (bit s.wd.wdo.isNone + 2 * bit s.wd.wdo.isSome + 16 * maskBelow 4 fun w => s.wd.dogs[Fin.ofNat 4 w].frozen.isSome),
   ⟨R.WDTw_COUNT 0, 0x20, 4, fun w => let x := Fin.ofNat 4 w
      dogCount s x % 2 ^ 24 + 2 ^ 24 * bit s.wd.dogs[x].armed.isSome + 2 ^ 25 * bit s.wd.dogs[x].frozen.isSome⟩,
   ⟨R.TSe_STAT 0, 0x20, 64, fun e => let x := s.wd.entities[Fin.ofNat 64 e]
      sat 8 x.count + 256 * (x.expected % 8) + 2048 * bit x.frozen.isSome + 2 ^ 24 * sat 8 x.seqFails⟩]

/-! ### Safe I/O (Tables 13-3, 13-5, 13-8, 13-10) -/

/-- Codes of Table 13-3. -/
def brakeCode : BrakeState → Nat
  | .off => 0
  | .applied => 1
  | .releasing1 => 2
  | .releasing2 => 2
  | .released => 3
  | .test => 4
  | .locked => 5

/-- Node classes (Table 13-2). -/
def nodeCode : NodeClass → Nat
  | .low => 0
  | .mid => 1
  | .high => 2

/-- Codes of Table 13-5. -/
def sinCode : SinState → Nat
  | .demand => 0
  | .permit => 1
  | .discrepant => 2
  | .fault => 3

def brkStat (b : Brake) : Nat :=
  brakeCode b.state + 8 * bit b.hsg + 16 * bit b.lsg + 32 * nodeCode b.reading.hi + 128 * nodeCode b.reading.lo

def liveSafeIo (s : State) : List LiveRow :=
  [live R.SIO_STAT (maskBelow 4 (fun n => s.sio.brakes[Fin.ofNat 4 n].state == .released) + 16 * maskBelow 4 (fun n => isLocked s (Fin.ofNat 4 n)) +
     256 * bit (s.sio.brakes.any (·.state == .test)) + 512 * bit s.sio.pressAt.isSome + 1024 * bit s.sio.loopGood + 2048 * bit (supplyInWindow s)),
   live R.SEAL_READ (s.sio.sealPattern.toNat + 256 * s.sio.sealFloat.toNat + 65536 * bit s.sio.loopGoodStart + 131072 * bit s.sio.sealMatch),
   live R.BRK_VS s.sio.supply.toNat,
   ⟨R.BRKn_STAT 0, 0x40, 4, fun n => brkStat s.sio.brakes[Fin.ofNat 4 n]⟩,
   ⟨R.BRKn_ISNS 0, 0x40, 4, fun n => sat 10 s.sio.brakes[Fin.ofNat 4 n].reading.shunt.toNat⟩,
   ⟨R.BRKn_TEST_AGE 0, 0x40, 4, fun n => sat 32 (msSince s s.sio.brakes[Fin.ofNat 4 n].testAt)⟩,
   ⟨R.SINi_STAT 0, 0x10, 8, fun n => let x := s.sio.sins[Fin.ofNat 8 n]
      sinCode x.state + 4 * bit x.a + 8 * bit x.b + 16 * bit x.cross + 65536 * sat 16 x.faults⟩]

/-! ### Seal and lock cycles (Tables 14-12, 14-15 to 14-17) -/

def seStat (s : State) : Nat :=
  lifeCode s.se.life + 8 * bit (s.se.useB == some true) + 16 * bit s.se.defaults + 32 * bit s.se.deviceKey.isSome +
  64 * bit s.se.siteSeed.isSome + 128 * bit s.se.svc

def lkCode : LkState → Nat
  | .idle => 0
  | .filling => 1
  | .levelling => 2
  | .levelled => 3

def lkStat (s : State) : Nat :=
  lkCode s.lk.state + 4 * bit (s.lk.owner == some .k1) + 16 * s.lk.code.toNat + 65536 * s.lk.opens.toNat

def halves (a : Nat) (v : DWord) : List LiveRow := [live a (v.toNat % 2 ^ 32), live (a + 4) (v.toNat / 2 ^ 32)]

/-- SEC_VER of the image in use. -/
def usedVer (s : State) : Nat := match usedImage s with | some im => (imageSecVer im).toNat | none => 0

def liveSeal (s : State) : List LiveRow :=
  [live R.SE_COMMIT_STAT ((s.reg R.SE_COMMIT_STAT).toNat % 256 + 256 * commitProgress s), live R.SE_STAT (seStat s), live R.SE_START_REP s.se.startRep.toNat, live R.IMAGE_GEN (imageGen s).toNat,
   live R.IMAGE_VER (usedVer s + 256 * s.se.minVer.toNat), live R.LK_STAT (lkStat s),
   ⟨R.SE_DEVPUBn 0, 4, 16, fun n => wordAt (bytesBE 64 (devicePublic s).toNat) n⟩,
   ⟨R.SE_ATT_OUTn 0, 4, 64, fun n => wordAt s.se.attOut n⟩] ++
  halves R.DEVICE_ID_LO Config.deviceId ++ halves R.LC_NONCE_LO s.se.nonce

/-! ### Weir and the start (Table 15-10) -/

def seqCode : SeqState → Nat
  | .off => 0
  | .up => 1
  | .on => 2
  | .down => 3
  | .failed => 4

/-- START_STAT.TIME: the start so far, without the excluded time; once READY what it took (R310). -/
def startMs (s : State) : Nat := if s.wr.ready then s.wr.startTime.toNat else sat 16 ((s.cycle - s.wr.excl) / 750000)

def liveWeir (s : State) : List LiveRow :=
  [live R.WR_STAT (bit s.wr.ready + 2 * s.wr.step.toNat + 32 * maskBelow 8 fun k => !s.wr.ownBelow.getLsbD k && !s.wr.ownAbove.getLsbD k),
   live R.START_STAT (s.wr.step.toNat + 16 * s.wr.fail.toNat + 65536 * startMs s),
   live R.START_EXCL (sat 32 (s.wr.excl / 750000)),
   live R.OWN_STAT (s.wr.ownBelow.toNat + 256 * s.wr.ownAbove.toNat),
   live R.TJ_STAT (s.wr.tjLast.toNat + 65536 * s.wr.tjSensor.toNat),
   ⟨R.ACHc_VAL 0, 0x10, 16, fun c => let x := s.wr.adcs[Fin.ofNat 16 c]
      x.mv.toNat + 2 ^ 16 * bit x.inWin + 2 ^ 17 * bit x.armed + 2 ^ 20 * x.code.toNat⟩,
   live R.SEQ_STAT (sat 4 s.wr.seqStep + 16 * seqCode s.wr.seq + 256 * s.wr.seqFailStep.toNat + 4096 * s.wr.seqFailCode.toNat +
     65536 * s.wr.accEn.toNat)]

/-! ### Hold, Basin and the Vault (Tables 16-8, 16-10, 16-11) -/

/-- The channel of the worst refresh-rate indication, the lowest among equals. -/
def worstChannel (s : State) : Nat :=
  (List.range 16).foldl (fun b c => if s.hd.rates[Fin.ofNat 16 b].toNat < s.hd.rates[Fin.ofNat 16 c].toNat then c else b) 0

/-- HD_WP_STAT: the protections in force (R335). -/
def protections (s : State) : Nat :=
  bit (decide (0 < libSize s) && !activeBank s) + 2 * bit (decide (0 < libSize s) && activeBank s) +
  4 * bit ((List.range 64).any (goldVerified s)) + 8 * bit (decide (0 < s.fld R.HD_REC_SIZE 14 0))

def trainedAll (s : State) : Bool := s.hd.trained.all id

def chanStat (s : State) (c : Nat) : Nat := bit s.hd.trained[Fin.ofNat 16 c] + 2 * bit (s.hd.selfRefresh && !s.hd.trained[Fin.ofNat 16 c]) + 256 * s.fld (R.HD_CHc_STAT c) 15 8 + 65536 * s.fld (R.HD_CHc_STAT c) 31 16

def liveHold (s : State) : List LiveRow :=
  [live R.HD_STAT (bit s.hd.raw144 + 2 * bit (trainedAll s) + 4 * bit s.hd.filled + 8 * bit (s.flag R.RST_CAUSE 8)),
   live R.HD_USABLE (holdUsable s / 1048576),
   live R.HD_SCRUB_STAT (sat 16 (msSince s s.hd.scrubPassAt / 60000) + 65536 * s.fld R.HD_SCRUB_STAT 31 16),
   live R.HD_TEMP (s.hd.rates[Fin.ofNat 16 (worstChannel s)].toNat + 256 * worstChannel s),
   live R.HD_REC_SPAN (sat 16 (logSpanMs s) + 65536 * sat 16 (inputSpanMs s / 100)),
   live R.HD_REC_STAT (bit (decide (logSpanMs s < 60000)) + 2 * bit (decide (inputSpanMs s < 60000))),
   live R.HD_WP_STAT (protections s),
   ⟨R.HD_CHc_STAT 0, 0x10, 16, chanStat s⟩]

def lostBit (s : State) (b : Nat) : Bool := if b < 32 then s.flag R.BS_LOST_LO b else s.flag R.BS_LOST_HI (b - 32)

def bankStat (s : State) (b : Nat) : Nat :=
  let x := s.bs.banks[Fin.ofNat 64 b]
  x.owner.toNat + 16 * bit x.next.isSome + 32 * (x.next.getD 0).toNat + 512 * bit x.failed + 1024 * bit (marchOn s (Fin.ofNat 64 b)).isSome +
  2048 * bit (lostBit s b) + 4096 * x.code.toNat + 65536 * sat 16 x.refused

def liveBasin (s : State) : List LiveRow :=
  [live R.BS_STAT ((s.bs.banks.toList.filter (·.next.isSome)).length + 128 * bit (!s.bs.marches.isEmpty) + 256 * bit s.se.wiping.isSome),
   live R.VT_STAT (s.bs.vaultOk.toNat + 256 * bit s.se.wiping.isSome),
   ⟨R.BANKb_STAT 0, 0x10, 64, bankStat s⟩]

/-! ### Tally (Table 17-5) -/

def tallyBusy (s : State) (u : Nat) : Bool := decide (s.cycle < s.ty.units[Fin.ofNat 16 u].busyTo)

def liveTally (s : State) : List LiveRow :=
  [live R.TLY_STAT (maskBelow 16 (tallyBusy s) + 65536 * s.ty.nextGlint.val),
   ⟨R.TLYu_STAT 0, 0x40, 16, fun u => let x := s.ty.units[Fin.ofNat 16 u]
      bit (tallyBusy s u) + 2 * bit x.isOpen + 256 * sat 24 x.fed⟩,
   ⟨R.TLYu_RES_LO 0, 0x40, 16, fun u => let x := Fin.ofNat 16 u
      if s.ty.units[x].isOpen then (unitResult s x).toNat % 2 ^ 32 else (s.reg (R.TLYu_RES_LO u)).toNat⟩,
   ⟨R.TLYu_ALIVE 0, 0x40, 16, fun u => if unitMode s (Fin.ofNat 16 u) = 2 then s.ty.units[Fin.ofNat 16 u].alive.toNat else 0⟩]

/-! ### Towpath (Tables 18-10, 18-13, 18-15) -/

def servoStat (s : State) : Nat :=
  let a := s.tp.servos[0]
  let b := s.tp.servos[1]
  let gm := fun (tb : TimeBase) (v : Servo) => if isGm s tb then (ownAddr s).toNat else v.gm.toNat
  servoCode a.state + 4 * servoCode b.state + 16 * a.parent.val + 64 * b.parent.val + 256 * gm .site a + 2 ^ 20 * gm .zone b

/-- The tables this node keeps for its ring. -/
def masteredTables (s : State) : List RouteTable :=
  (if isCellMaster s then [.cell] else []) ++ (if isZoneMaster s then [.zone] else []) ++ (if isSiteMaster s then [.site] else [])

/-- TP_STAT.ROUTE_OK: a master whose every table all its present nodes have acknowledged (R371). -/
def routesOk (s : State) : Bool := !(masteredTables s).isEmpty && (masteredTables s).all (routeOk s)

def tpPortStat (s : State) (q : Nat) : Nat :=
  let p := s.tp.ports[Fin.ofNat 4 q]
  bit p.link + 2 * bit p.neighbour.isSome + 4 * (p.neighbour.getD 0).toNat + 2 ^ 14 * bit p.nAssigned + 2 ^ 15 * p.nPos.toNat

def liveTowpath (s : State) : List LiveRow :=
  [live R.TP_STAT (bit (s.tp.ports.any (·.link)) + 2 * bit (routesOk s) + 4 * bit s.tp.acting + 8 * bit (!s.tp.sending.isEmpty)),
   live R.TP_ADDR ((s.tp.addr.getD 0).toNat + 65536 * s.tp.code.toNat),
   live R.TP_TIME_STAT (servoStat s),
   live R.TP_TOFF_SITE s.tp.servos[0].offset.toNat, live R.TP_TOFF_ZONE s.tp.servos[1].offset.toNat,
   live R.TP_RATE_SITE s.tp.servos[0].rate.toNat, live R.TP_RATE_ZONE s.tp.servos[1].rate.toNat,
   ⟨R.TPq_STAT 0, 0x40, 4, tpPortStat s⟩,
   ⟨R.TPq_PDELAY 0, 0x40, 4, fun q => s.tp.ports[Fin.ofNat 4 q].pdelay.toNat⟩,
   ⟨R.TP_CRTn 0, 4, 16, fun n => s.tp.cell[Fin.ofNat 16 n].toNat⟩,
   ⟨R.TP_ZRTc 0, 4, 16, fun n => s.tp.zone[Fin.ofNat 16 n].toNat⟩,
   ⟨R.TP_SRTz 0, 4, 16, fun n => s.tp.site[Fin.ofNat 16 n].toNat⟩]

/-! ### Keeper control and Lantern (Tables 19-4, 19-6, 20-4) -/

def pairCode : PairState → Nat
  | .active => 0
  | .standby => 1
  | .lost => 2
  | .halted => 3

def liveLantern (s : State) (i : Initiator) : List LiveRow :=
  [live R.LN_STAT (bit s.ln.dumpBusy)] ++
  liveHalves s i (fun u => .lanternCyc (Fin.ofNat 64 u)) (R.LNu_CYC_LO 0) 0x100 64 ++
  (List.range 8).flatMap fun k => liveHalves s i (fun u => .lanternCnt (Fin.ofNat 64 u) (Fin.ofNat 8 k)) (R.LNu_CNTk_LO 0 k) 0x100 64

/-! ### The read -/

/-- The live registers of the window of `a`. -/
def liveRows (s : State) (i : Initiator) (a : Nat) : List LiveRow :=
  if 0x31000000 ≤ a ∧ a < 0x31240000 then liveTiles s
  else match a / 0x100000 with
    | 0x302 => liveMilepost s i
    | 0x305 => liveSluice s
    | 0x306 => liveMooring s
    | 0x307 => liveMirror s
    | 0x30F => liveAudit s
    | 0x313 => liveSentinels s
    | 0x308 => liveChamber s
    | 0x300 => liveBeacon s
    | 0x301 => liveWatchdogs s
    | 0x303 => liveSafeIo s
    | 0x309 => liveSeal s
    | 0x30A => liveWeir s
    | 0x30D => liveHold s
    | 0x30E => liveBasin s
    | 0x304 => liveTally s
    | 0x30B => liveTowpath s
    | 0x314 => [live R.KC_STAT (pairCode s.kc.pairs[0] + 4 * pairCode s.kc.pairs[1])]
    | 0x30C => liveLantern s i
    | _ => []

/-- The live value of the register at `a`, if it has one. -/
def liveAt (s : State) (i : Initiator) (a : Nat) : Option Word :=
  (liveRows s i a).findSome? fun r => (instanceAt r.base r.stride r.count a).map fun n => BitVec.ofNat 32 (r.value n)

/-- The value shown at a register's home: live, or its cell without its write-only bits (R6); an unassigned offset shows 0 (R9). Of a
write-1-to-set register the bits set show. -/
def shownAt (s : State) (i : Initiator) (a : Nat) : Word :=
  match regRow a with
  | none => 0
  | some r => match liveAt s i a with
    | some v => v
    | none => match instanceAt (R.TL_MAP 0) 0x10000 36 a with
      | some p => putBits (s.reg a) 6 5 (mapShown s p)
      | none => s.reg a &&& ~~~ r.wo

/-- What the register at `a` shows: a Lantern unit that reads 0 shows 0. -/
def shown (s : State) (i : Initiator) (a : Nat) : Word :=
  if 0x30C01000 ≤ a ∧ a < 0x30C05000 ∧ lnReadsZero s ((a - 0x30C01000) / 0x100) then 0 else shownAt s i (homeAddr a)

/-- Whether a Harbour core in user mode may read the register at `a`: outside Lantern always; a unit while LN_PERM permits (R407). -/
def userMayRead (s : State) (a : Nat) : Bool :=
  a / 0x100000 != 0x30C ||
    (decide (0x30C01000 ≤ a ∧ a < 0x30C05000) && s.flag R.LN_PERM (lnKind ((a - 0x30C01000) / 0x100)))

/-- Whether an initiator may read the register at `a`: Tally units answer K0, K1 and their owner (R359). -/
def mayReadReg (s : State) (i : Initiator) (a : Nat) : Bool :=
  s.admitted i && (!decide (0x30400100 ≤ a ∧ a < 0x30400500) || isKeeper i || ownsUnit s i (Fin.ofNat 16 ((a - 0x30400100) / 0x40)))

/-- The registers a SCRAPPED device answers (R290). -/
def scrapRegs : List Nat := [R.SE_STAT, R.DEVICE_ID_LO, R.DEVICE_ID_HI, R.LC_STAT_SEAL]

/-- The result of a unit with an engine or parity error reads 0 with a bus error response (R360). -/
def resultFaulty (s : State) (a : Nat) : Bool :=
  [R.TLYu_RES_LO 0, R.TLYu_RES_HI 0].any fun b => match instanceAt b 0x40 16 a with
    | some u => s.ty.units[Fin.ofNat 16 u].faulty
    | none => false

/-- What a read of `bytes` bytes at address `a` does; `user`: by a Harbour core in user mode. A SCRAPPED device answers R290's registers
alone. Outside the block windows there is no register (R396), and a narrow or unaligned access fails (R9). A read that R407 refuses raises
ES10. -/
def readAccess (s : State) (i : Initiator) (user : Bool) (a bytes : Nat) : State :=
  if s.scrapped then (if scrapRegs.contains a ∧ bytes = 4 then s.busOk ((shown s i a).setWidth 64) else { s with bus := .none })
  else if !inRegWindow a || !mayReadReg s i a then s.refuse i
  else if bytes ≠ 4 || a % 4 ≠ 0 || resultFaulty s a then s.busError i
  else if (user && !isKeeper i || i == .user) && !userMayRead s a then s.refuse i
  else s.busOk ((shown s i a).setWidth 64)

/-- The response of a read. -/
def readRegister (s : State) (i : Initiator) (user : Bool) (a bytes : Nat) : BusResp := (readAccess s i user a bytes).bus

/-! ### The safety outputs (Table 23-4) -/

/-- The levels of the safety outputs, high true; a trigger pin without a level is at high impedance. -/
structure SafetyPins where
  safeN : Bool
  valid : Vector Bool 4
  hsg : Vector Bool 4
  lsg : Vector Bool 4
  perstN : Vector Bool 2
  accEn : Byte
  pwrcutN : Bool
  wdoN : Bool
  trig : Vector (Option Bool) 8
  deriving DecidableEq, Repr

/-- What the outputs show in a state (R437, R290). -/
def safetyPins (s : State) : SafetyPins where
  safeN := s.safeHigh && !s.scrapped
  valid := s.lc.valids.map fun x => x.level && !s.scrapped
  hsg := s.sio.brakes.map fun b => b.hsg && !s.scrapped
  lsg := s.sio.brakes.map fun b => b.lsg && !s.scrapped
  perstN := s.mr.ports.map fun p => !p.perst
  accEn := if s.scrapped then 0 else s.wr.accEn
  pwrcutN := s.bc.pwrcut.isNone
  wdoN := s.wd.wdo.isNone
  trig := Vector.ofFn (trigLevel s)

end Sys2Proof.Machine
end

