-- ==== Sys2Proof/Machine/Parts.lean ====
section
/-! DEFINITION. Machine/Parts.lean: the parts of the state, and which of them each command may change. -/

namespace Sys2Proof.Machine

/-- The parts of the state, the queue and the model's own counters aside. -/
inductive Part | bus | mp | sl | barges | mr | mi | tiles | au | sn | lc | bc | wd | sio | se | lk | wr | hd | bs | ty | tp | kc | ln | cycle | ports | regs | mem
  deriving DecidableEq, Repr

/-- What a companion reset may change: every part. -/
def everyPart : List Part :=
  [.bus, .mp, .sl, .barges, .mr, .mi, .tiles, .au, .sn, .lc, .bc, .wd, .sio, .se, .lk, .wr, .hd, .bs, .ty, .tp, .kc, .ln, .cycle, .ports, .regs, .mem]

/-- The parts of the state a command may change: with the block it is of, those its effects reach by the rules. -/
def partsOf (c : Instr) : List Part :=
  match c with
  | .quadratureEdge _ _ _ | .zPulse _ | .ssiRead _ _ | .encoderLineFault _ | .singleTimeout | .speedEstimate | .captureEdge _ _ =>
    [.mp, .bc, .regs]
  | .readLoLatch _ _ | .capturePop _ _ => [.bus, .mp, .bc]
  | .verdictDeadlineMissed _ | .verdictForm _ _ | .abandonRecord => [.barges, .au, .sn, .lc, .bc, .regs]
  | .postReached _ | .trigPulseEnd _ => [.mp]
  | .postRelease => [.mp, .sl, .barges, .mr, .tiles, .au, .sn, .lc, .bc, .wd, .sio, .se, .lk, .wr, .hd, .bs, .ty, .tp, .ln, .regs, .mem]
  | .postqPop => [.bus, .mp, .regs]
  | .tincWrite _ _ _ _ | .silentClr _ _ | .tlEventSet _ _ _ | .capWrite _ _ _ | .wdRstClr _ _ | .bsLostClr _ _ | .tallyResLo _ _
  | .lockstepMismatch _ _ | .delayParityError _ | .keeperWindowWrite _ _ _ _ | .lnCtlFreeze _ _ _ => [.bus, .bc, .regs]
  | .timerCompareReached _ => [.mp, .regs]
  | .csiFrameStart _ | .csiFrameEnd _ _ | .ethSegment _ _ | .assemblyDeadline _ | .lampSlotEnd =>
    [.sl, .barges, .mr, .au, .sn, .lc, .bc, .se, .hd, .bs, .ln, .regs, .mem]
  | .csiLongPacket _ _ | .sensorLinkLoss _ => [.sl, .bc, .ln, .regs]
  | .ethUnmatchedFrame _ => [.regs]
  | .linkRegain _ => [.sl]
  | .strRestart _ _ _ => [.bus, .sl, .bc]
  | .cfgRequest _ _ _ _ | .outboundAccess _ _ _ _ | .outboundCompletion _ _ _ | .completionTimeout _ _ => [.bus, .mr, .bc, .ln, .regs]
  | .inboundRequest _ _ _ => [.barges, .mr, .bc, .hd, .bs, .kc, .ln, .regs]
  | .landingWrite => [.barges, .mr, .au, .lc, .bc, .wd, .regs, .mem]
  | .patrolBlock _ _ => [.barges, .mr, .lc, .bc, .hd, .ln, .regs]
  | .portStart _ => [.mr]
  | .perstDelayEnd _ => [.mr, .regs]
  | .linkUp _ _ _ _ | .linkUpTimeout _ => [.mr, .bc, .ln, .regs]
  | .accReadyRise _ => [.sl, .mr, .bc, .wd, .regs]
  | .accBootTimeout _ => [.mr, .bc, .regs]
  | .accReadyFall _ | .accFault _ _ => [.barges, .mr, .lc, .bc, .regs]
  | .accTherm _ _ => [.mr, .bc]
  | .linkDown _ => [.bus, .barges, .mr, .lc, .bc, .ln, .regs]
  | .ltssmRecovery _ | .uncorrectableErrorMessage _ _ => [.bc, .ln, .regs]
  | .accReset _ _ _ => [.bus, .barges, .mr, .lc, .bc, .regs]
  | .sigRecordHandover => [.barges, .mr, .mi, .lc, .bc, .regs]
  | .mirrorCompare _ => [.barges, .mi, .lc, .bc, .hd, .ln, .regs]
  | .windowDeadline _ | .sealDeadline _ => [.barges, .lc]
  | .missingResult _ | .sealMissingTimeout _ | .lampDeadline _ => [.barges, .lc, .bc, .regs]
  | .mirrorGlint _ | .lampAgeTest => [.bc, .regs]
  | .tlStart _ _ _ _ => [.bus, .barges, .tiles, .au, .sn, .lc, .bc, .ln, .regs]
  | .tlStopAbort _ _ | .tlStopPause _ _ => [.bus, .tiles, .bc]
  | .tileStopComplete _ _ => [.barges, .tiles, .au, .sn, .lc, .bc, .ln, .regs, .mem]
  | .tlReset _ _ _ => [.bus, .barges, .tiles, .sn, .lc, .bc, .se, .hd, .bs, .ln, .ports, .regs, .mem]
  | .tileResetDone _ _ => [.tiles, .bc]
  | .tlDbgHalt _ _ | .tlDbgResume _ _ | .bcRetClr _ _ => [.bus, .tiles, .bc, .regs]
  | .tlDbgStep _ _ _ => [.bus, .barges, .tiles, .au, .sn, .lc, .bc, .ln, .ports, .regs, .mem]
  | .opNop _ _ | .opHalt _ _ | .opLoop _ _ | .opJmp _ _ | .opBnz _ _ | .opWaite _ _ | .opSige _ _ | .opAddi _ _ | .opAdd _ _
  | .opSub _ _ | .opMuli _ _ | .opLds _ _ | .opSts _ _ | .opWld _ _ | .opWsw _ _ | .opMma _ _ | .opAccr _ _ | .opAccw _ _
  | .opVld _ _ | .opVst _ _ | .opVop _ _ | .opVops _ _ | .opVreq _ _ | .opVlut _ _ | .opVred _ _ | .opDma _ _ | .opDwait _ _
  | .opAkt _ _ => [.barges, .tiles, .au, .sn, .lc, .bc, .ln, .ports, .regs, .mem]
  | .mmaDrained _ => [.tiles]
  | .dmaTransferDone _ _ _ | .dmaTimeout _ _ => [.barges, .tiles, .au, .sn, .lc, .bc, .se, .hd, .bs, .ln, .ports, .regs, .mem]
  | .cycleLimit _ => [.barges, .tiles, .au, .sn, .lc, .bc, .regs]
  | .readyqPop => [.bus, .au]
  | .drbgInstantiate _ _ | .drbgOutRead _ => [.bus, .au, .bc]
  | .challengeExact _ _ | .challengeProject _ _ | .challengeInput _ _ | .challengeClose _ _ => [.bus, .barges, .au, .lc, .bc, .regs]
  | .challengeReadDone _ => [.barges, .au, .lc, .bc, .ln, .regs, .mem]
  | .challengeReadError => [.barges, .au, .lc, .bc, .ln, .regs]
  | .auditTileDone _ _ _ => [.barges, .au, .lc, .bc, .hd, .ln, .regs]
  | .coveragePush _ _ => [.bus, .au, .bc, .regs]
  | .libVerify _ _ => [.bus, .sn, .bc, .se, .regs]
  | .libVerifyDone _ => [.sn, .bc, .se, .hd, .ln, .regs]
  | .modelLoad _ _ => [.bus, .sn, .bc, .regs]
  | .modelLoadDone _ => [.tiles, .sn, .bc, .hd, .ln, .ports, .regs, .mem]
  | .plausibilityEval _ _ _ _ | .envelopeEval _ _ => [.barges, .sn, .lc, .bc, .ln, .regs]
  | .selftestStart _ _ => [.bus, .tiles, .sn, .bc, .regs]
  | .selftestAgeExceeded _ => [.sn, .bc]
  | .recordRelease => [.sl, .barges, .mr, .mi, .au, .sn, .lc, .bc, .sio, .se, .hd, .ln, .regs, .mem]
  | .validTimeout _ => [.lc, .bc, .sio, .regs]
  | .pinReadbackMismatch _ | .canTxTimeout _ | .countWindowClose _ _ | .pwrcutPulseEnd | .glintWindowEnd | .vaultWipeTimeout
  | .clockMonitorFault | .holdoverAgeExceeded _ => [.bc]
  | .spiFrameBad _ | .canBusOff _ _ => [.lc, .bc]
  | .mbNext _ | .mbData | .mbAck _ | .ntNext _ | .ntData | .ntAck _ | .mbTimeLo | .canFrameSent _ | .canFrameReceived _ => [.lc]
  | .sourceEvent _ | .maskIntervalEnd | .glintReadbackEnd =>
    [.mp, .sl, .barges, .mr, .tiles, .au, .sn, .lc, .bc, .wd, .sio, .se, .lk, .wr, .hd, .bs, .ty, .tp, .kc, .ln, .ports, .regs, .mem]
  | .bcMaskOpen _ _ => [.bus, .bc]
  | .reactionPathDisagree _ => [.mp, .sl, .barges, .mr, .sn, .lc, .bc, .sio, .se, .wr, .hd, .tp, .ln, .regs, .mem]
  | .glintIssue _ => [.bc, .sio, .ty, .regs]
  | .bcGlintReq _ _ | .brakeReleaseRequest _ _ | .brakeApplyRequest _ _ => [.bus, .bc, .sio, .regs]
  | .bcForce _ _ | .startStepComplete _ =>
    [.bus, .mp, .sl, .barges, .mr, .tiles, .au, .sn, .lc, .bc, .wd, .sio, .se, .lk, .wr, .hd, .bs, .ty, .tp, .kc, .ln, .ports, .regs, .mem]
  | .wdtKeyArm _ _ | .wdtKeyService _ _ | .wdtBadKey _ _ _ => [.bus, .bc, .wd, .lk, .ty, .kc, .regs, .mem]
  | .wdtLate _ | .wdtKeyLapse _ => [.bc, .wd, .lk, .ty, .kc, .regs, .mem]
  | .wdoPulseEnd => [.wd]
  | .wdoReadbackMismatch _ => [.bc, .wd]
  | .tsCheckin _ _ => [.bus, .bc, .wd, .regs]
  | .taskBoundary _ => [.bc, .wd, .regs]
  | .releaseLsgConfirmed _ _ | .releaseComplete _ _ _ | .brakeReadbackFault _ _ | .testPulseJudge _ _ | .brakeSupplyFault _
  | .loAckPress | .sinContactChange _ _ _ | .sinDiscrepancyTimeout _ | .sinTestPulse _ _ _ => [.bc, .sio, .regs]
  | .testPulseStart _ | .testPulseEnd _ | .loAckPressStart => [.sio]
  | .sealLoopStep _ => [.barges, .mr, .lc, .bc, .sio, .wr, .regs]
  | .lcRequest _ _ | .brownout _ | .pinReset | .rstReq _ _ | .registerWrite _ _ _ _ | .provisioningRequest _ => everyPart
  | .tamperDetect _ => [.bc, .se, .regs]
  | .vaultWipeDone _ => [.bc, .se, .bs, .regs, .mem]
  | .goldenVerify _ _ | .commitAbort _ => [.bus, .bc, .se]
  | .goldenVerifyDone _ => [.bc, .se, .hd, .ln, .regs]
  | .commitStart _ _ | .attestationStart _ => [.bus, .bc, .se, .regs]
  | .commitPhaseDone _ | .attestationDone => [.se, .regs]
  | .lkBegin _ | .lkLevel _ | .lkDiscard _ | .stagedWrite _ _ _ => [.bus, .bc, .lk]
  | .levelDone => [.lk, .regs]
  | .lkOpen _ => [.bus, .mp, .sl, .barges, .mr, .tiles, .au, .sn, .lc, .bc, .wd, .sio, .lk, .bs, .ty, .tp, .regs]
  | .stageExpired => [.lk]
  | .powerGood => [.mr, .au, .bc, .se, .wr, .ln, .cycle, .regs]
  | .startTimeout | .seqStepDone _ => [.barges, .mr, .lc, .bc, .wr, .regs]
  | .ownRailFault _ _ | .pmbusDone _ _ => [.bc, .wr, .regs]
  | .tjSample _ _ | .adcConversion _ _ | .downSequenceStep | .accEnReadbackMismatch _ _ => [.bc, .wr]
  | .adcTrig _ _ => [.bus, .bc, .wr]
  | .seqCmdUp _ | .seqCmdDown _ => [.bus, .barges, .mr, .lc, .bc, .wr, .regs]
  | .pmbusTransfer _ _ _ => [.bus, .bc, .wr, .regs]
  | .holdAccess _ _ _ _ | .recorderPlanAppend _ _ _ => [.bus, .sn, .bc, .se, .hd, .ln, .regs, .mem]
  | .scrubRead _ | .refreshRateCheck _ _ | .zqCalibration _ _ => [.bc, .hd, .ln, .regs]
  | .bankHandoverRequest _ _ _ | .marchStart _ _ => [.bus, .bc, .bs, .regs]
  | .bankHandoverComplete _ => [.bs, .regs, .mem]
  | .marchSegmentDone _ _ => [.bus, .barges, .mr, .tiles, .au, .sn, .lc, .bc, .wr, .bs, .kc, .ln, .ports, .regs, .mem]
  | .marchDone _ _ => [.barges, .mr, .lc, .bc, .wr, .bs, .regs, .mem]
  | .tallyCfgWrite _ _ _ | .tallyStart _ _ _ | .tallyIn8 _ _ _ | .tallyIn16 _ _ _ | .tallyIn32 _ _ _ | .tallyAliveChk _ _ _ =>
    [.bus, .bc, .ty, .regs]
  | .tallyAlive _ _ => [.bus, .bc, .ty]
  | .tallyGlint _ => [.bc, .ty, .regs]
  | .helloSend | .hello _ _ _ | .claimSend | .routeAck _ _ _ | .stopCopy | .peerDelay _ _ => [.tp, .ln, .regs]
  | .zholiFrameBad _ _ | .claim _ _ _ | .assign _ _ _ | .route _ _ _ | .stop _ _ _ | .ptpSync _ _ _ _ | .siteFailover
  | .neighbourSilent _ | .tpLinkLoss _ _ => [.bc, .tp, .ln, .regs]
  | .data _ _ _ | .bcast _ _ _ => [.tp, .ln, .regs, .mem]
  | .stopTx _ _ | .stopCancel _ _ | .harbourTx _ _ => [.bus, .bc, .tp, .ln, .regs]
  | .syncLoss _ => [.tp]
  | .keeperHalt _ | .keeperResume _ => [.barges, .lc, .bc, .wd, .sio, .kc, .regs]
  | .keeperWindowAccess _ _ _ => [.bus, .bc, .kc]
  | .evselWrite _ _ _ _ | .lnCtlClr _ _ | .lnBwWinWrite _ _ | .dumpStart _ _ => [.bus, .bc, .ln, .regs]
  | .bwWindowEnd => [.ln, .regs]
  | .dumpDone => [.bc, .bs, .ln, .regs, .mem]
  | .timeIntegrityFault _ => [.mp, .bc]
  | .offTransitionPass _ _ => [.sio, .regs]
  | .domainLeavesReset _ => [.bc, .wd, .mem]
  | .onChipSramAccess _ _ _ _ => [.bus, .barges, .tiles, .au, .sn, .lc, .bc, .bs, .kc, .ln, .ports, .regs, .mem]

end Sys2Proof.Machine
end

