-- ==== Sys2Proof/Safety.lean ====
section
/-! DEFINITION. Safety.lean: what a safe run of the block is, and the frame of a command, in the terms the statements use. -/

namespace Sys2Proof.Machine

/-- The safe state: SAFE_N low, and no brake channel's gates on. -/
def SafeState (s : State) : Prop := s.safeHigh = false ∧ ∀ n : Fin 4, s.sio.brakes[n].hsg = false ∧ s.sio.brakes[n].lsg = false

/-- No VALID pin is high while SAFE_N is low (R207). -/
def PinsFollow (s : State) : Prop := s.safeHigh = true ∨ ∀ v : Fin 4, s.lc.valids[v].level = false

/-- A brake gate is on only while the channel's release conditions hold (R264). -/
def GatesGuarded (s : State) : Prop := ∀ n : Fin 4, s.sio.brakes[n].hsg = true → mayRelease s n = true

/-- Memory and the register file stand in their canonical forms. -/
def Canonical (s : State) : Prop := Memory.wf s.mem ∧ Cells.wf resetOf s.regs = true

/-- A part of two states is the same. -/
def Part.Same (s t : State) : Part → Prop
  | .bus => t.bus = s.bus
  | .mp => t.mp = s.mp
  | .sl => t.sl = s.sl
  | .barges => t.barges = s.barges
  | .mr => t.mr = s.mr
  | .mi => t.mi = s.mi
  | .tiles => t.tiles = s.tiles
  | .au => t.au = s.au
  | .sn => t.sn = s.sn
  | .lc => t.lc = s.lc
  | .bc => t.bc = s.bc
  | .wd => t.wd = s.wd
  | .sio => t.sio = s.sio
  | .se => t.se = s.se
  | .lk => t.lk = s.lk
  | .wr => t.wr = s.wr
  | .hd => t.hd = s.hd
  | .bs => t.bs = s.bs
  | .ty => t.ty = s.ty
  | .tp => t.tp = s.tp
  | .kc => t.kc = s.kc
  | .ln => t.ln = s.ln
  | .cycle => t.cycle = s.cycle
  | .ports => t.ports = s.ports
  | .regs => t.regs = s.regs
  | .mem => t.mem = s.mem

/-- Everything that may happen between `s` and `t` is a change of the parts `ps`: the grade, the fused tiles, the queue and every other part stand, and
memory and the register file keep their canonical forms. -/
structure Keeps (ps : List Part) (s t : State) : Prop where
  grade : t.grade = s.grade
  fused : t.fused = s.fused
  queue : t.pending = s.pending
  canon : Canonical s → Canonical t
  part : ∀ q, q ∉ ps → q.Same s t

/-- The frame of a command that went from `s` to `t`, register by register and byte by byte: a register changes only where `regs` lists
its address, a part of the state only where `parts` lists it, a byte of memory only inside a range (start, length) of `mem`. -/
structure OnlyChanges (s t : State) (regs : List Nat) (parts : List Part) (mem : List (Nat × Nat)) : Prop where
  grade : t.grade = s.grade
  fused : t.fused = s.fused
  queue : t.pending = s.pending
  reg : ∀ a, a ∉ regs → t.reg a = s.reg a
  part : ∀ q, q ∉ .regs :: .mem :: parts → q.Same s t
  byte : ∀ a, (∀ r ∈ mem, a < r.1 ∨ r.1 + r.2 ≤ a) → t.byte a = s.byte a

/-- Between `s` and `t` one error line was asserted: source `src`, channel `chan`. -/
def Asserts (s t : State) (src chan : Nat) : Prop :=
  ∃ syn bs, t.bc.lines = s.bc.lines ++ [⟨BitVec.ofNat 7 src, BitVec.ofNat 6 chan, syn, bs, s.cycle⟩]

/-- Every next state an outcome gives has `P`. -/
structure AllNext (o : Out) (P : State → Prop) : Prop where
  all : ∀ t, o = .next t → P t

/-- The command `c`, from `s`, answers a next state of which `P` holds. -/
def Runs (c : Instr) (s : State) (P : State → Prop) : Prop := ∃ t, exec c s = .next t ∧ P t

end Sys2Proof.Machine
end

