-- ==== Sys2Proof/Certificates/Slice0/Obligations.lean ====
section
/-! DEFINITION. Certificates/Slice0/Obligations.lean: the statements for the provers. Each states what commands of one family do, as a
next state they answer with its registers, fields and frame, under hypotheses on the state and the operands alone. -/

open Sys2Proof Sys2Proof.Machine

/-- A step takes the command at the front of the queue and answers what exec answers on the state with the queue's rest; on an empty queue one TCLK cycle
passes (log entry 10, the model's choice for the time-driven effects); no word spells a command, so `withFetchWord` changes nothing. -/
def Obligations.StepRunsTheFrontCommand : Prop :=
  (∀ (s : State) (c : Instr) (rest : List Instr), step { s with pending := c :: rest } = exec c { s with pending := rest }) ∧
  (∀ s : State, s.pending = [] → ∃ t, step s = .next t ∧ t = tick s ∧ t.cycle = s.cycle + 1 ∧ t.pending = []) ∧
  (∀ (s : State) (n w : Nat), decodeTableWord n w = none ∧ s.withFetchWord n w = s)

/-- R11 and the reset columns of the register tables: after power-on the identifiers, the timer increments and the Lantern window hold their stated values, the outputs are
at their safe levels, no command waits, nothing is listed, and the canonical forms hold. Values the manual does not give are the model's (log entries 1 to 3). -/
def Obligations.ResetLeavesTheStatedState : Prop :=
  Canonical State.reset ∧ State.reset.mem = [] ∧ State.reset.regs = [] ∧ State.reset.pending = [] ∧ SafeState State.reset ∧
  PinsFollow State.reset ∧ State.reset.wr.step = 0 ∧ State.reset.wr.ready = false ∧ State.reset.wr.accEn = 0 ∧
  State.reset.reg 0x30200000 = 0x4D500720#32 ∧ State.reset.reg 0x30200004 = 0xA1#32 ∧
  (∀ c : Fin 16, State.reset.reg (R.TMRc_TINC_INT c) = 1 ∧ State.reset.reg (R.TMRc_TINC_FRAC c) = 0x55555555#32) ∧
  State.reset.reg R.LN_BW_WIN = 1000#32 ∧
  (∀ r ∈ rowsNonzero, r.dims = [] → r.words = 1 → State.reset.reg r.base = r.reset)

/-- Every command answers a next state from every state, and may change only the parts `partsOf` names for it: the grade, the fused tiles, the queue and every other part stand, and the
canonical forms of memory and the register file are kept (R5 to R9: a command of one block reaches another only where a rule says so). -/
def Obligations.EveryCommandAnswersAndKeepsItsFrame : Prop :=
  ∀ (c : Instr) (s : State), ∃ t, exec c s = .next t ∧ Keeps (partsOf c) s t

/-- The memory and the register file keep their canonical forms under every step, a command's and a cycle's; a step takes at most the front command off the queue, and never
changes the grade or the tiles fused off (R1: a part is of one grade). -/
def Obligations.EveryStepKeepsTheCanonicalForms : Prop :=
  ∀ s t : State, Canonical s → step s = .next t → Canonical t ∧ t.grade = s.grade ∧ t.fused = s.fused ∧ t.pending = s.pending.tail

/-- R234, R208: once Beacon is in the safe state no step takes it out and SAFE_N stays low, but for a companion reset, which puts the part back before its start with SAFE_N low. -/
def Obligations.TheSafeStateIsLeftOnlyByAReset : Prop :=
  ∀ s t : State, s.bc.safe = true → step s = .next t →
    (t.bc.safe = true ∨ (t.wr.step = 0 ∧ t.wr.ready = false)) ∧ t.safeHigh = false

/-- R298: READY with ROLL_ADV set raises the fused minimum to the running image's SEC_VER where that is higher; no step ever lowers it. -/
def Obligations.TheMinimumVersionNeverFalls : Prop :=
  (∀ s t : State, step s = .next t → s.se.minVer ≤ t.se.minVer) ∧
  (∀ (s : State) (im : Image),
    s.wr.ready = false → s.wr.fail = 0 → s.wr.step = 10 → s.wr.lamps = [] → s.wr.safeSinceStart = false → usedImage s = some im →
    Runs (.startStepComplete .ok) s fun t =>
      t.wr.ready = true ∧
      t.se.minVer = if s.flag R.SE_CTRL 1 && decide (s.se.minVer < imageSecVer im) then imageSecVer im else s.se.minVer)

/-- R7: a write of Harbour to a Keeper-only register, staged or not, with a command of its own or not, is a bus error with ES10 and changes nothing else. -/
def Obligations.HarbourNeverWritesAKeeperOnlyField : Prop :=
  (∀ (s : State) (h : Initiator) (a : Nat) (r : RegRow) (v : Word), isKeeper h = false → s.scrapped = false → regRow a = some r → r.keeper = true → a % 4 = 0 →
    (isStaged (homeAddr a) = true ∨ (writeRoute h a v s).isNone = true) →
    Runs (.registerWrite h a 4 v) s fun t => t.bus = .error ∧ Asserts s t 10 0 ∧ OnlyChanges s t [] [.bus, .bc] []) ∧
  (∀ (s : State) (h : Initiator) (a : Nat) (v : Word), isKeeper h = false → s.scrapped = false → isStaged (homeAddr a) = true →
    Runs (.stagedWrite h a v) s fun t => t.bus = .error ∧ Asserts s t 10 0 ∧ OnlyChanges s t [] [.bus, .bc] []) ∧
  (∀ (s : State) (h : Initiator) (v : Word) (x : BitVec 128) (n : Fin 2) (w : Fin 4) (k : Fin 32) (p : Fin 36) (e : Fin 64) (f : Bool)
    (d : IssueEnv) (z : List Ecc), isKeeper h = false → s.scrapped = false →
    ∀ c ∈ ([
       .silentClr h v, .strRestart h k v, .accReset h n v, .drbgInstantiate h v,
       .challengeExact h x, .challengeProject h x, .challengeInput h x, .challengeClose h x,
       .coveragePush h v, .capWrite h e v, .modelLoad h v, .selftestStart h v, .tlStart h p v z,
       .tlStopAbort h p, .tlStopPause h p, .tlReset h p v, .tlDbgHalt h p, .tlDbgResume h p,
       .tlDbgStep h p d, .tlEventSet h p v, .bcMaskOpen h v, .bcGlintReq h v, .bcForce h v,
       .bcRetClr h v, .wdRstClr h v, .tsCheckin h v, .brakeReleaseRequest h w,
       .brakeApplyRequest h w, .lcRequest h v, .lkBegin h, .lkLevel h, .lkOpen h,
       .lkDiscard h, .adcTrig h v, .seqCmdUp h, .seqCmdDown h, .pmbusTransfer h n v,
       .rstReq h v, .recorderPlanAppend h v f, .bsLostClr h v, .stopTx h v, .stopCancel h v,
       .keeperWindowWrite h n w v] : List Instr),
      Runs c s fun t => t.bus = .error ∧ Asserts s t 10 0 ∧ OnlyChanges s t [] [.bus, .bc] [])

/-- R392: only the pair writes its windows; the other pair gets a bus error and ES5, Harbour one and ES10, and nothing changes; a change governs the accesses after it. -/
def Obligations.WindowRegistersBelongToTheirPair : Prop :=
  (∀ (s : State) (k : Fin 2) (n : Fin 4) (v a : Word) (w : Bool),
    s.admitted (pairInit k) = true → a.getLsbD 31 = true → bits a 30 29 = n.val →
    Runs (.keeperWindowWrite (pairInit k) k n v) s fun t =>
      t.reg (R.KC_Kp_KWn_CFG k n) = v &&& 0x07FF0003#32 ∧ t.bus = .ok 0 ∧ OnlyChanges s t [R.KC_Kp_KWn_CFG k n] [.bus] [] ∧
      (v.getLsbD 0 = true → (w = true → v.getLsbD 1 = true) → Runs (.keeperWindowAccess k a w) t fun u =>
        u.kc.lastAddr = some (BitVec.ofNat 40 (bits v 26 16 * 2 ^ 29 + bits a 28 0))) ∧
      ((v.getLsbD 0 = false ∨ (w = true ∧ v.getLsbD 1 = false)) → Runs (.keeperWindowAccess k a w) t fun u =>
        u.bus = .error ∧ Asserts t u 5 0 ∧ OnlyChanges t u [] [.bus, .bc] [])) ∧
  (∀ (s : State) (i : Initiator) (k : Fin 2) (n : Fin 4) (v : Word), s.scrapped = false → isKeeper i = true → i ≠ pairInit k →
    Runs (.keeperWindowWrite i k n v) s fun t => t.bus = .error ∧ Asserts s t 5 0 ∧ OnlyChanges s t [] [.bus, .bc] []) ∧
  (∀ (s : State) (i : Initiator) (k : Fin 2) (n : Fin 4) (v : Word), s.scrapped = false → isKeeper i = false →
    Runs (.keeperWindowWrite i k n v) s fun t => t.bus = .error ∧ Asserts s t 10 0 ∧ OnlyChanges s t [] [.bus, .bc] [])

/-- R6, R9, R290, R310, R359: what a read of a register shows. Reserved and write-only bits and unassigned offsets read 0, a narrow or unaligned read fails, a read changes nothing
(`readRegister` answers a word and no state), Tally units answer only Keepers and their owner, a SCRAPPED device answers four registers alone, the others not at all (log entry 84). -/
def Obligations.ReadsOfRegisters : Prop :=
  (∀ (s : State) (i : Initiator) (u : Bool) (a n : Nat), s.scrapped = false → inRegWindow a = true → (n ≠ 4 ∨ a % 4 ≠ 0) →
    readRegister s i u a n = .error) ∧
  (∀ (s : State) (i : Initiator) (a : Nat), s.scrapped = false → s.admitted i = true → a / 0x100000 ≠ 0x304 → inRegWindow a = true → a % 4 = 0 →
    (a < 0x30C01000 ∨ 0x30C05000 ≤ a) → (i = .user → userMayRead s a = true) → regRow (homeAddr a) = none → readRegister s i false a 4 = .ok 0) ∧
  (∀ (s : State) (i : Initiator) (a : Nat) (r : RegRow), s.scrapped = false → s.admitted i = true → a / 0x100000 ≠ 0x304 → inRegWindow a = true →
    a % 4 = 0 → (a < 0x30C01000 ∨ 0x30C05000 ≤ a) → (i = .user → userMayRead s a = true) → regRow (homeAddr a) = some r → liveAt s i (homeAddr a) = none →
    instanceAt (R.TL_MAP 0) 0x10000 36 (homeAddr a) = none →
    readRegister s i false a 4 = .ok ((s.reg (homeAddr a) &&& ~~~ r.wo).setWidth 64)) ∧
  (∀ (s : State) (i : Initiator) (u : Bool) (a n : Nat), s.scrapped = true → a ∉ [R.SE_STAT, R.DEVICE_ID_LO, R.DEVICE_ID_HI, R.LC_STAT_SEAL] →
    readRegister s i u a n = .none) ∧
  (∀ (s : State) (i : Initiator) (a : Nat), s.scrapped = false → inRegWindow a = true → mayReadReg s i a = true → a % 4 = 0 → isKeeper i = false →
    userMayRead s a = false → (readAccess s i true a 4).bus = .error ∧ Asserts s (readAccess s i true a 4) 10 0)

/-- R22, R25, R39, R62: a stage that breaks one of these rules never levels: LEVEL ends in FILLING with a conflict. Each rule is judged on the registers as the stage would leave them. -/
def Obligations.LevelRefusesWhatTheRulesName : Prop :=
  ∀ s : State, s.lk.state = .levelling →
    (let v := withStage s
     v.reg R.V_MAX = 0 ∨ (diverse v = true ∧ priEnc v = secEnc v) ∨
     (∃ x k : Nat, x < 64 ∧ Level.netOn v x = true ∧ k = v.fld (R.NETx_CFG x) 23 20 ∧ Level.setOn v k = true ∧
       ((v.reg (Level.netTime v x)).toNat ≤ (v.reg (R.SETk_ASM_T k)).toNat ∨
        (Level.usesTravel v x = true ∧ (v.reg (R.NETx_DL_S x)).toNat ≤ (v.reg (R.SETk_ASM_S k)).toNat))) ∨
     (∃ k : Nat, k < 16 ∧
       ((v.reg (R.SETk_ASM_T k)).toNat ≤ v.fld (R.SETk_SKEW k) 15 0 ∨
        v.reg (R.SETk_ASM_T k) = 0 ∨ 2000000 < (v.reg (R.SETk_ASM_T k)).toNat ∨
        v.reg (R.SETk_ASM_S k) = 0 ∨ 2000000000 < (v.reg (R.SETk_ASM_S k)).toNat ∨
        ∃ j : Nat, j < k ∧ v.reg (R.SETk_MEMBERS j) &&& v.reg (R.SETk_MEMBERS k) ≠ 0)) ∨
     (∃ x m : Nat, x < 64 ∧ Level.netOn v x = true ∧ Level.mnetOf v (v.fld (R.NETx_CFG x) 15 0) = some m ∧
       v.flag (R.MNETx_CFG m) 18 = true ∧ v.flag (R.NETx_CFG x) 27 = false)) →
    Runs .levelDone s fun t => t.lk.state = .filling ∧ t.lk.stage = s.lk.stage ∧
      OnlyChanges s t [R.LK_CONF_ADDR1, R.LK_CONF_ADDR2, R.SE_IRQ_STAT] [.lk] []

/-- R306: the checks are made again in the open cycle; where one fails nothing is applied, the status is STALE and the stage is FILLING again. -/
def Obligations.AStaleStageIsNotOpened : Prop :=
  ∀ (s : State) (i : Initiator), isKeeper i = true → s.admitted i = true → s.kc.pairs[(if i = .k1 then 1 else 0 : Fin 2)] ≠ .standby →
    s.lk.state = .levelled → s.lk.owner = some i → levelStage s ≠ none →
    Runs (.lkOpen i) s fun t => t.lk = { s.lk with state := .filling, code := 6 } ∧ t.bus = .ok 0 ∧ OnlyChanges s t [] [.bus, .lk] []

/-- R286: a full power loss clears SVC, and a device that was in SERVICE starts in FIELD. -/
def Obligations.LossOfTheAlwaysOnDomainEndsService : Prop :=
  (∀ s : State, Runs (.brownout true) s fun t => t.se.svc = false ∧ (s.se.life = .service → t.se.life = .field)) ∧
  (∀ s : State, s.wr.ready = false → s.wr.fail = 0 → s.wr.step = 2 → s.se.deviceKey = none → s.se.life = .field → s.se.svc = false →
    Runs (.startStepComplete .ok) s fun t => t.se.life = .field ∧ t.wr.step = 3)

/-- R33, R35: an edge of one input of an enabled quadrature encoder is one count, up or down as the levels and INVERT say (which order is
forward is the model's reading, log entry 7); while the encoder is the source of TRAVEL and moves on in its direction, TRAVEL with its
fraction grows by ENCn_SCALE. Both inputs changing in one sample is an illegal transition: ENCn_STAT bit 0 and ES104, and no travel.
R33, R34, R37, R38: a Z pulse after exactly ENCn_ZPER counts restarts the count, any other sets ENCn_STAT bit 1 and asserts ES104; a good SSI
frame becomes the count, a frame whose line stays low is an error of its own run; a line fault loses the encoder; SINGLE ends in
ESTIMATED with ES106. -/
def Obligations.EncodersCountReadAndAreLost : Prop :=
  (∀ (s : State) (n : Fin 4) (a b : Bool),
    encEnabled s n = true → s.flag (R.ENCn_CFG n) 1 = false → ((a != s.mp.encs[n].a) = !(b != s.mp.encs[n].b)) →
    Runs (.quadratureEdge n a b) s fun t =>
      let back := (!edgeForward s.mp.encs[n] a b) != s.flag (R.ENCn_CFG n) 2
      t.reg (R.ENCn_COUNT n) = (if back then s.reg (R.ENCn_COUNT n) - 1 else s.reg (R.ENCn_COUNT n) + 1) ∧ t.mp.encs[n].a = a ∧
      t.mp.encs[n].b = b ∧ (∀ k : Fin 4, k ≠ n → t.mp.encs[k] = s.mp.encs[k]) ∧
      (travelSource s = some n → s.mp.quality ≠ .estimated → s.mp.encs[n].dir = back → s.mp.encs[n].rev = 0 →
        (t.mp.travel ++ t.mp.travelFrac).toNat = ((s.mp.travel ++ s.mp.travelFrac).toNat + (encScale s n).toNat) % 2 ^ 96) ∧
      (travelSource s ≠ some n → t.mp.travel = s.mp.travel ∧ t.mp.travelFrac = s.mp.travelFrac) ∧
      OnlyChanges s t [R.ENCn_COUNT n] [.mp] []) ∧
  (∀ (s : State) (n : Fin 4) (a b : Bool),
    encEnabled s n = true → s.flag (R.ENCn_CFG n) 1 = false → a ≠ s.mp.encs[n].a → b ≠ s.mp.encs[n].b →
    Runs (.quadratureEdge n a b) s fun t =>
      t.reg (R.ENCn_STAT n) = s.reg (R.ENCn_STAT n) ||| 1#32 ∧ Asserts s t 104 n.val ∧ t.mp.travel = s.mp.travel ∧
      OnlyChanges s t [R.ENCn_STAT n] [.mp, .bc] []) ∧
  (∀ (s : State) (n : Fin 4) (a b : Bool),
    (encEnabled s n = false ∨ s.flag (R.ENCn_CFG n) 1 = true) →
    Runs (.quadratureEdge n a b) s fun t =>
      t.mp.encs[n] = { s.mp.encs[n] with a := a, b := b } ∧ (∀ k : Fin 4, k ≠ n → t.mp.encs[k] = s.mp.encs[k]) ∧
      t.mp.travel = s.mp.travel ∧ OnlyChanges s t [] [.mp] []) ∧
  (∀ (s : State) (n : Fin 4),
    encEnabled s n = true → s.flag (R.ENCn_CFG n) 1 = false → s.flag (R.ENCn_CFG n) 3 = true → s.mp.encs[n].zSeen = true →
    s.mp.encs[n].zCount = s.reg (R.ENCn_ZPER n) →
    Runs (.zPulse n) s fun t =>
      t.mp.encs[n].zCount = 0 ∧ t.mp.encs[n].zSeen = true ∧ (∀ k : Fin 4, k ≠ n → t.mp.encs[k] = s.mp.encs[k]) ∧
      OnlyChanges s t [] [.mp] []) ∧
  (∀ (s : State) (n : Fin 4),
    encEnabled s n = true → s.flag (R.ENCn_CFG n) 1 = false → s.flag (R.ENCn_CFG n) 3 = true → s.mp.encs[n].zSeen = true →
    s.mp.encs[n].zCount ≠ s.reg (R.ENCn_ZPER n) →
    Runs (.zPulse n) s fun t =>
      t.reg (R.ENCn_STAT n) = s.reg (R.ENCn_STAT n) ||| 2#32 ∧ Asserts s t 104 n.val ∧ t.mp.encs[n].zCount = 0 ∧
      OnlyChanges s t [R.ENCn_STAT n] [.mp, .bc] []) ∧
  (∀ (s : State) (n : Fin 4) (f : SsiFrame),
    ssiDue s n = true → f.err = false → f.stuckLow = false → s.mp.encs[n].ssiLast = none →
    Runs (.ssiRead n f) s fun t =>
      t.reg (R.ENCn_COUNT n) = ssiValue s n f ∧ t.mp.encs[n].ssiLast = some (ssiValue s n f) ∧ t.mp.encs[n].ssiRun = 0 ∧
      t.mp.travel = s.mp.travel ∧ OnlyChanges s t [R.ENCn_COUNT n] [.mp] []) ∧
  (∀ (s : State) (n : Fin 4) (f : SsiFrame),
    ssiDue s n = true → f.stuckLow = true → s.mp.encs[n].ssiRun = 0 →
    Runs (.ssiRead n f) s fun t =>
      t.reg (R.ENCn_STAT n) = s.reg (R.ENCn_STAT n) ||| 4#32 ∧ Asserts s t 104 n.val ∧ t.mp.encs[n].ssiRun = 1 ∧
      t.mp.encs[n].lost = s.mp.encs[n].lost ∧ OnlyChanges s t [R.ENCn_STAT n] [.mp, .bc] []) ∧
  (∀ (s : State) (n : Fin 4),
    encEnabled s n = true →
    Runs (.encoderLineFault n) s fun t =>
      t.mp.encs[n].lost = true ∧ t.reg (R.ENCn_STAT n) = s.reg (R.ENCn_STAT n) ||| 8#32 ∧ t.mp.travel = s.mp.travel ∧
      OnlyChanges s t [R.ENCn_STAT n, R.MP_IRQ_STAT] [.mp, .bc] []) ∧
  (∀ (s : State),
    s.mp.quality = .single → (s.reg R.SINGLE_T).toNat ≤ msSince s s.mp.singleSince →
    Runs (.singleTimeout) s fun t =>
      t.mp.quality = .estimated ∧ t.mp.singleSince = s.cycle ∧ t.reg R.MP_IRQ_STAT = s.reg R.MP_IRQ_STAT ||| 8#32 ∧
      Asserts s t 106 0 ∧ t.mp.travel = s.mp.travel ∧ OnlyChanges s t [R.MP_IRQ_STAT] [.mp, .bc] [])

/-- R36: each estimate is the scaled movement of the last 1 ms; one is due every 100 µs. R40: a difference of the time counters raises ES109. R41: a read of a _LO register
returns the low half and latches the upper half for that initiator alone.
R48: a write to TINC changes the increment and never the count; a reached compare sets the interrupt and advances CMP by TMR_PER. R49: an
accepted edge is stamped; a full FIFO drops it with ES110. R50: a pulse ends when its width has passed. -/
def Obligations.SpeedTimeLatchesTimersAndCaptures : Prop :=
  (∀ (s : State),
    speedDue s = true →
    Runs (.speedEstimate) s fun t =>
      (∀ n : Fin 4, encEnabled s n = true → t.reg (R.SPEEDn n) = BitVec.ofInt 32 (speedOf s n)) ∧
      (∀ n : Fin 4, encEnabled s n = false → t.mp.encs[n] = s.mp.encs[n]) ∧ t.mp.travel = s.mp.travel ∧
      OnlyChanges s t [R.SPEEDn 0, R.SPEEDn 1, R.SPEEDn 2, R.SPEEDn 3] [.mp, .bc] []) ∧
  (∀ (s : State),
    speedDue s = false →
    Runs (.speedEstimate) s fun t =>
      t = s ∧ OnlyChanges s t [] [] []) ∧
  (∀ (s : State) (x : Bool),
    Runs (.timeIntegrityFault x) s fun t =>
      Asserts s t 109 0 ∧ t.mp.timeOk = (s.mp.timeOk && x) ∧ t.timeNs = s.timeNs ∧ OnlyChanges s t [] [.mp, .bc] []) ∧
  (∀ (s : State) (i : Initiator) (q : Quantity),
    s.admitted i = true → mayReadQuantity s i q = true →
    Runs (.readLoLatch i q) s fun t =>
      t.bus = .ok (((quantity s q).setWidth 32).setWidth 64) ∧ latched t i q = (quantity s q >>> 32).setWidth 32 ∧
      (∀ j r, (j, r) ≠ (i, q) → latched t j r = latched s j r) ∧ OnlyChanges s t [] [.bus, .mp] []) ∧
  (∀ (s : State) (i : Initiator) (c : Fin 16) (v : Word),
    s.mayWrite i (R.TMRc_TINC_INT c) = true →
    Runs (.tincWrite i c true v) s fun t =>
      t.reg (R.TMRc_TINC_INT c) = v ∧ t.mp.timers = s.mp.timers ∧ t.bus = .ok 0 ∧ OnlyChanges s t [R.TMRc_TINC_INT c] [.bus] []) ∧
  (∀ (s : State) (i : Initiator) (c : Fin 16) (v : Word),
    s.mayWrite i (R.TMRc_TINC_FRAC c) = true →
    Runs (.tincWrite i c false v) s fun t =>
      t.reg (R.TMRc_TINC_FRAC c) = v ∧ t.mp.timers = s.mp.timers ∧ t.bus = .ok 0 ∧ OnlyChanges s t [R.TMRc_TINC_FRAC c] [.bus] []) ∧
  (∀ (s : State) (c : Fin 16),
    timerReached s c = true → s.flag (R.TMRc_CFG c) 1 = true → s.reg (R.TMRc_PER c) ≠ 0 →
    Runs (.timerCompareReached c) s fun t =>
      t.reg R.MP_IRQ_STAT = s.reg R.MP_IRQ_STAT ||| 4#32 ∧
      t.reg64 (R.TMRc_CMP_LO c) = s.reg64 (R.TMRc_CMP_LO c) + (s.reg (R.TMRc_PER c)).setWidth 64 ∧ t.mp.timers = s.mp.timers ∧
      OnlyChanges s t [R.MP_IRQ_STAT, R.TMRc_CMP_LO c, R.TMRc_CMP_LO c + 4] [.mp] []) ∧
  (∀ (s : State) (n : Fin 8) (rising : Bool),
    s.flag (R.CAPi_CFG n) 0 = true → edgeTaken (s.fld (R.CAPi_CFG n) 2 1) rising = true → s.mp.caps[n].length < 16 →
    Runs (.captureEdge n rising) s fun t =>
      t.mp.caps[n] = s.mp.caps[n] ++ [(timeBefore s (s.fld (R.CAPi_CFG n) 15 8 + 3), s.mp.travel)] ∧
      (∀ k : Fin 8, k ≠ n → t.mp.caps[k] = s.mp.caps[k]) ∧ t.reg R.MP_IRQ_STAT = s.reg R.MP_IRQ_STAT ||| 2#32 ∧
      OnlyChanges s t [R.MP_IRQ_STAT] [.mp] []) ∧
  (∀ (s : State) (n : Fin 8) (rising : Bool),
    s.flag (R.CAPi_CFG n) 0 = true → edgeTaken (s.fld (R.CAPi_CFG n) 2 1) rising = true → 16 ≤ s.mp.caps[n].length →
    Runs (.captureEdge n rising) s fun t =>
      (t.reg (R.CAPi_STAT n)) = s.reg (R.CAPi_STAT n) ||| 1#32 ∧ Asserts s t 110 0 ∧ OnlyChanges s t [R.CAPi_STAT n] [.bc] []) ∧
  (∀ (s : State) (i : Initiator) (n : Fin 8) (h : DWord × DWord) (rest : List (DWord × DWord)),
    s.admitted i = true → s.mp.caps[n] = h :: rest →
    Runs (.capturePop i n) s fun t =>
      t.bus = .ok ((latched s i (.captureS n)).setWidth 64) ∧ t.mp.caps[n] = rest ∧
      (∀ k : Fin 8, k ≠ n → t.mp.caps[k] = s.mp.caps[k]) ∧ OnlyChanges s t [] [.bus, .mp] []) ∧
  (∀ (s : State) (j : Fin 8) (e : Nat),
    s.mp.trigs[j] = some e → e ≤ s.cycle →
    Runs (.trigPulseEnd j) s fun t =>
      t.mp.trigs[j] = none ∧ (∀ k : Fin 8, k ≠ j → t.mp.trigs[k] = s.mp.trigs[k]) ∧ OnlyChanges s t [] [.mp] [])

/-- R44, R315: from READY on a post whose value is reached, by the table at the start of the cycle, waits for its release; one post is released a cycle (R46). R45 to R47: a release of a KTASK post in the TIME domain is queued
with its stamps, the value re-armed by its period; POSTQ_POP takes the oldest entry. -/
def Obligations.PostsReachReleaseAndPop : Prop :=
  (∀ (s : State) (p : Fin 256),
    s.wr.ready = true → postDue (atCycleStart s) p.val = true → (s.mp.reached.any fun e => decide (e.1 = p)) = false →
    s.mp.released ≠ some p →
    Runs (.postReached p) s fun t =>
      t.mp = { s.mp with reached := s.mp.reached ++ [(p, s.cycle)] } ∧ OnlyChanges s t [] [.mp] []) ∧
  (∀ (s : State) (p : Fin 256),
    s.mp.released = none → nextPost s = some p → postDomain s p.val = 0 → postAction s p.val = 1 → s.mp.postTable = none →
    s.reg (R.POSTp_PER_T p.val) ≠ 0 → bound64 s.timeNs (s.reg64 (R.POSTp_VAL_T_LO p.val) + (s.reg (R.POSTp_PER_T p.val)).setWidth 64) = false →
    s.mp.keeperQ.length < 64 →
    Runs (.postRelease) s fun t =>
      t.mp.keeperQ = s.mp.keeperQ ++ [⟨BitVec.ofNat 8 p.val, s.now.t, s.now.s⟩] ∧
      (t.mp.reached = s.mp.reached.filter (fun e => decide (e.1 ≠ p))) ∧ t.mp.released = some p ∧
      t.reg64 (R.POSTp_VAL_T_LO p.val) = s.reg64 (R.POSTp_VAL_T_LO p.val) + (s.reg (R.POSTp_PER_T p.val)).setWidth 64 ∧
      (t.reg R.MP_IRQ_STAT).getLsbD 0 = true) ∧
  (∀ (s : State) (p : Fin 256),
    s.mp.released = none → nextPost s = some p → postAction (atCycleStart s) p.val = 1 → s.mp.keeperQ.length < 64 →
    Runs (.postRelease) s fun t =>
      t.mp.keeperQ = s.mp.keeperQ ++ [⟨BitVec.ofNat 8 p.val, s.now.t, s.now.s⟩] ∧
      (t.mp.reached = s.mp.reached.filter (fun e => decide (e.1 ≠ p))) ∧ t.mp.released = some p ∧
      (t.reg R.MP_IRQ_STAT).getLsbD 0 = true) ∧
  (∀ (s : State),
    s.mp.released.isSome = true →
    Runs (.postRelease) s fun t =>
      t = s ∧ OnlyChanges s t [] [] []) ∧
  (∀ (s : State) (e : QEntry) (rest : List QEntry),
    s.mp.keeperQ = e :: rest →
    Runs (.postqPop) s fun t =>
      t.bus = .ok (0x80000000#64 ||| e.post.setWidth 64) ∧ t.reg R.POSTQ_T = e.t ∧ t.reg R.POSTQ_S = e.s ∧
      t.mp = { s.mp with keeperQ := rest } ∧ OnlyChanges s t [R.POSTQ_T, R.POSTQ_S] [.bus, .mp] []) ∧
  (∀ (s : State),
    s.mp.keeperQ = [] →
    Runs (.postqPop) s fun t =>
      t.bus = .ok 0 ∧ OnlyChanges s t [] [.bus] [])

/-- R55, R56, R61: a frame start on an enabled CSI-2 stream opens a frame, in no barge where no enabled set lists the stream, else in a new barge
of its set's network where none is Assembling (R15, R18); a clean long packet of the payload's data type adds its bytes, and an earlier 0x12
packet it follows was no header: discarded, or on a stream of data type 0x12 payload, the new one being the header so far; a CRC error is
the frame's first failure.
R56, R57, R63: a frame end with the checks of Table 03-3 passed and the next count leaves the stream OK and not counting an error; a failed
check leaves its status in LAST, one more error, SL_IRQ_STAT bit 0 and its source on the stream's channel; a frame end without a frame is
discarded. -/
def Obligations.CsiFramesBeginFillAndEnd : Prop :=
  (∀ (s : State) (k : Fin 32),
    csiOn s k = true → s.sl.streams[k].retired = false → s.sl.streams[k].frame = none → setOf s k = none →
    Runs (.csiFrameStart k) s fun t =>
      t.sl.streams[k].frame = some ⟨s.timeNs, s.now, none, [], none, none, 0, 0, 0, false, s.now⟩ ∧
      (∀ j : Fin 32, j ≠ k → t.sl.streams[j] = s.sl.streams[j]) ∧ OnlyChanges s t [] [.sl] []) ∧
  (∀ (s : State) (k : Fin 32) (n : Fin 16) (x : Fin 64),
    csiOn s k = true → s.sl.streams[k].retired = false → s.sl.streams[k].frame = none → setOf s k = some n.val →
    netOfSet s n = some x → s.sl.suspended = false → s.wr.ready = true → assemblingOf s n = [] → (∀ y ∈ s.barges, y.num ≠ s.reg R.BARGE_NEXT) →
    Runs (.csiFrameStart k) s fun t =>
      t.reg R.BARGE_NEXT = State.nextSeq (s.reg R.BARGE_NEXT) ∧ t.reg (R.SETk_BARGE n) = s.reg R.BARGE_NEXT ∧
      t.barges.take s.barges.length = s.barges ∧
      ((t.barges.drop s.barges.length).map (fun y => (y.num, y.net, y.origin, y.members)) = [(s.reg R.BARGE_NEXT, some x, s.now, [⟨k, none, false, 0, s.now, [], []⟩])]) ∧
      t.sl.streams[k].frame.map (·.barge) = some (some (s.reg R.BARGE_NEXT)) ∧
      OnlyChanges s t [R.BARGE_NEXT, R.SETk_BARGE n] [.sl, .barges] []) ∧
  (∀ (s : State) (rx : Fin 8) (p : CsiPacket) (k : Fin 32) (f : Frame),
    s.flag R.SL_CTRL 0 = true → s.flag (R.CSIc_CFG rx) 0 = true → (streamsOf s false rx).filter (fun i => s.fld (R.STRs_CFG i) 8 5 == p.vc.toNat) = [k.val] →
    s.fld (R.STRs_CFG k) 14 9 = p.dt.toNat → supportedType p.dt.toNat = true → s.sl.streams[k].retired = false →
    s.sl.streams[k].frame = some f → p.ecc = .clean → p.crcBad = false → p.dt ≠ 0x12 →
    Runs (.csiLongPacket rx p) s fun t =>
      t.sl.streams[k].frame = some { f with payload := f.payload ++ p.payload, header := none } ∧
      (∀ j : Fin 32, j ≠ k → t.sl.streams[j] = s.sl.streams[j]) ∧
      t.fld (R.CSIc_ERRCNT rx) 31 0 = min (s.fld (R.CSIc_ERRCNT rx) 31 0 + bit f.header.isSome) 0xFFFFFFFF ∧
      OnlyChanges s t [R.CSIc_ERRCNT rx, R.LNu_OVF 54, R.LN_IRQ_STAT] [.sl, .ln] []) ∧
  (∀ (s : State) (rx : Fin 8) (p : CsiPacket) (k : Fin 32) (f : Frame),
    s.flag R.SL_CTRL 0 = true → s.flag (R.CSIc_CFG rx) 0 = true → (streamsOf s false rx).filter (fun i => s.fld (R.STRs_CFG i) 8 5 == p.vc.toNat) = [k.val] →
    s.fld (R.STRs_CFG k) 14 9 = 0x12 → s.sl.streams[k].retired = false → s.sl.streams[k].frame = some f →
    p.ecc = .clean → p.crcBad = false → p.dt = 0x12 →
    Runs (.csiLongPacket rx p) s fun t =>
      t.sl.streams[k].frame = some { f with payload := f.payload ++ f.header.getD [], header := some p.payload, cnt := hdrCnt p.payload, stamp := hdrStamp p.payload } ∧
      (∀ j : Fin 32, j ≠ k → t.sl.streams[j] = s.sl.streams[j]) ∧ OnlyChanges s t [R.LNu_OVF 54, R.LN_IRQ_STAT] [.sl, .ln] []) ∧
  (∀ (s : State) (rx : Fin 8) (p : CsiPacket) (k : Fin 32) (f : Frame),
    s.flag R.SL_CTRL 0 = true → s.flag (R.CSIc_CFG rx) 0 = true → (streamsOf s false rx).filter (fun i => s.fld (R.STRs_CFG i) 8 5 == p.vc.toNat) = [k.val] →
    s.fld (R.STRs_CFG k) 14 9 = p.dt.toNat → supportedType p.dt.toNat = true → s.sl.streams[k].retired = false →
    s.sl.streams[k].frame = some f → p.ecc = .clean → p.crcBad = true →
    Runs (.csiLongPacket rx p) s fun t =>
      t.reg (R.CSIc_STAT rx) = s.reg (R.CSIc_STAT rx) ||| 8#32 ∧
      t.sl.streams[k].frame.map (·.bad) = some (some (f.bad.getD .linkBad)) ∧
      OnlyChanges s t [R.CSIc_STAT rx, R.CSIc_ERRCNT rx, R.LNu_OVF 54, R.LN_IRQ_STAT] [.sl, .ln] []) ∧
  (∀ (s : State) (k : Fin 32) (env : CloseEnv) (f : Frame),
    csiOn s k = true → s.sl.streams[k].retired = false → s.sl.streams[k].frame = some f → f.barge = none →
    f.retx = false → csiStatus s k f = .ok → hdrRestart (f.header.getD []) = false → s.sl.streams[k].restartDue = false →
    f.cnt - s.sl.streams[k].lastCnt = 1 → stampOk s k s.sl.streams[k] f 1 = true →
    Runs (.csiFrameEnd k env) s fun t =>
      t.sl.streams[k].frame = none ∧ t.sl.streams[k].last = .ok ∧ t.sl.streams[k].lastCnt = f.cnt ∧
      t.sl.streams[k].lost = min s.sl.streams[k].lost 0xFFFF ∧ t.sl.streams[k].warmLeft = s.sl.streams[k].warmLeft - 1 ∧
      (∀ j : Fin 32, j ≠ k → t.sl.streams[j] = s.sl.streams[j]) ∧ OnlyChanges s t [] [.sl] []) ∧
  (∀ (s : State) (k : Fin 32) (env : CloseEnv) (f : Frame) (es : Nat),
    csiOn s k = true → s.sl.streams[k].retired = false → s.sl.streams[k].frame = some f → f.barge = none →
    statusSource false (csiStatus s k f) = some es →
    Runs (.csiFrameEnd k env) s fun t =>
      t.sl.streams[k].frame = none ∧ t.sl.streams[k].last = csiStatus s k f ∧
      t.fld (R.STRs_ERRCNT k) 31 0 = min (s.fld (R.STRs_ERRCNT k) 31 0 + 1) 0xFFFFFFFF ∧
      t.reg R.SL_IRQ_STAT = s.reg R.SL_IRQ_STAT ||| 1#32 ∧ Asserts s t es k ∧ t.sl.streams[k].lastCnt = s.sl.streams[k].lastCnt ∧
      OnlyChanges s t [R.STRs_ERRCNT k, R.SL_IRQ_STAT, R.LNu_OVF 54, R.LN_IRQ_STAT] [.sl, .bc, .ln] []) ∧
  (∀ (s : State) (k : Fin 32) (env : CloseEnv),
    csiOn s k = true → s.sl.streams[k].retired = false → s.sl.streams[k].frame = none →
    Runs (.csiFrameEnd k env) s fun t =>
      t.sl.streams[k].last = .linkBad ∧ Asserts s t 16 k ∧
      t.fld (R.CSIc_ERRCNT (s.fld (R.STRs_CFG k) 4 2)) 31 0 = min (s.fld (R.CSIc_ERRCNT (s.fld (R.STRs_CFG k) 4 2)) 31 0 + 1) 0xFFFFFFFF ∧
      OnlyChanges s t [R.CSIc_ERRCNT (s.fld (R.STRs_CFG k) 4 2), R.LNu_OVF 54, R.LN_IRQ_STAT] [.sl, .bc, .ln] [])

/-- R54 to R56: segment 0 of a matched flow whose checks pass opens a frame with its payload; a later segment without a frame is discarded with
SEG_BAD and ES18; a frame of no stream is discarded and counted.
R59: a regained link and a Keeper's STR_RESTART make restarts due, the latter without ES17. R56, Table 03-6: a lost link fails the frames in
progress, with ES16 or ES20 on each of its streams. R67: a slot that ends with nothing held or waiting just ends. -/
def Obligations.EthernetSegmentsLinksAndRestarts : Prop :=
  (∀ (s : State) (e : EthFrame) (env : CloseEnv) (k : Fin 32),
    s.flag R.SL_CTRL 0 = true → s.flag (R.ETHe_CFG e.port) 0 = true → flowOf s e = some k.val → e.fcsBad = false →
    e.pcsBad = false → s.sl.streams[k].retired = false → s.sl.streams[k].frame = none → setOf s k = none →
    32 ≤ e.payload.length → hdrSegment (e.payload.take 32) = 0 → hdrOk s k (e.payload.take 32) = true →
    hdrLast (e.payload.take 32) = false → hdrLen (e.payload.take 32) = (e.payload.drop 32).length → checkOk (e.payload.take 32) (e.payload.drop 32) = true →
    Runs (.ethSegment e env) s fun t =>
      let h := e.payload.take 32
      t.sl.streams[k].frame = some ⟨s.timeNs, s.now, none, e.payload.drop 32, some h, none, 1, hdrCnt h, hdrStamp h, false, s.now⟩ ∧
      (∀ j : Fin 32, j ≠ k → t.sl.streams[j] = s.sl.streams[j]) ∧ OnlyChanges s t [R.LNu_OVF 55, R.LN_IRQ_STAT] [.sl, .ln] []) ∧
  (∀ (s : State) (e : EthFrame) (env : CloseEnv) (k : Fin 32),
    s.flag R.SL_CTRL 0 = true → s.flag (R.ETHe_CFG e.port) 0 = true → flowOf s e = some k.val → e.fcsBad = false →
    e.pcsBad = false → s.sl.streams[k].retired = false → s.sl.streams[k].frame = none → (e.payload.length < 32 ∨ hdrSegment (e.payload.take 32) ≠ 0) →
    Runs (.ethSegment e env) s fun t =>
      t.sl.streams[k].last = .segBad ∧ Asserts s t 18 k ∧
      t.fld (R.ETHe_ERRCNT e.port) 31 0 = min (s.fld (R.ETHe_ERRCNT e.port) 31 0 + 1) 0xFFFFFFFF ∧
      OnlyChanges s t [R.ETHe_ERRCNT e.port, R.LNu_OVF 55, R.LN_IRQ_STAT] [.sl, .bc, .ln] []) ∧
  (∀ (s : State) (e : EthFrame),
    s.flag R.SL_CTRL 0 = true → s.flag (R.ETHe_CFG e.port) 0 = true → flowOf s e = none →
    Runs (.ethUnmatchedFrame e) s fun t =>
      t.fld (R.ETHe_ERRCNT e.port) 31 0 = min (s.fld (R.ETHe_ERRCNT e.port) 31 0 + 1) 0xFFFFFFFF ∧
      OnlyChanges s t [R.ETHe_ERRCNT e.port] [] []) ∧
  (∀ (s : State) (p : SensorPort),
    linkState s p = .lost →
    Runs (.linkRegain p) s fun t =>
      linkState t p = .up ∧
      (∀ k : Fin 32, k.val ∈ linkStreams s p → t.sl.streams[k] = { s.sl.streams[k] with restartDue := true, restartQuiet := false, warmLeft := warmCount s k }) ∧
      (∀ k : Fin 32, k.val ∉ linkStreams s p → t.sl.streams[k] = s.sl.streams[k]) ∧ OnlyChanges s t [] [.sl] []) ∧
  (∀ (s : State) (p : SensorPort),
    linkState s p ≠ .lost →
    Runs (.linkRegain p) s fun t =>
      linkState t p = .up ∧ t.sl.streams = s.sl.streams ∧ OnlyChanges s t [] [.sl] []) ∧
  (∀ (s : State) (k : Fin 32),
    csiOn s k = true → s.sl.streams[k].retired = true → s.sl.streams[k].frame = none →
    Runs (.csiFrameStart k) s fun t =>
      t.sl.streams[k].last = .retired ∧ t.fld (R.STRs_ERRCNT k) 31 0 = min (s.fld (R.STRs_ERRCNT k) 31 0 + 1) 0xFFFFFFFF ∧
      (∀ j : Fin 32, j ≠ k → t.sl.streams[j] = s.sl.streams[j]) ∧ OnlyChanges s t [R.STRs_ERRCNT k] [.sl] []) ∧
  (∀ (s : State) (c : Fin 8),
    Runs (.sensorLinkLoss (.csi c)) s fun t =>
      t.sl.csiLock[c] = .lost ∧ t.reg (R.CSIc_STAT c) = s.reg (R.CSIc_STAT c) ||| 1#32 ∧
      (∀ k : Fin 32, k.val ∈ linkStreams s (.csi c) → s.sl.streams[k].retired = false → t.sl.streams[k] = markBad .linkBad s.sl.streams[k]) ∧
      ((t.bc.lines.drop s.bc.lines.length).map (fun l => (l.src, l.chan)) = ((linkStreams s (.csi c)).filter fun i => !s.sl.streams[Fin.ofNat 32 i].retired).map (fun i => (16#7, BitVec.ofNat 6 i))) ∧
      OnlyChanges s t [R.CSIc_STAT c, R.LNu_OVF 54, R.LN_IRQ_STAT] [.sl, .bc, .ln] []) ∧
  (∀ (s : State) (e : Fin 4),
    Runs (.sensorLinkLoss (.eth e)) s fun t =>
      t.sl.ethLink[e] = .lost ∧ t.reg (R.ETHe_STAT e) = s.reg (R.ETHe_STAT e) ||| 1#32 ∧
      (∀ k : Fin 32, k.val ∈ linkStreams s (.eth e) → s.sl.streams[k].retired = false → t.sl.streams[k] = markBad .linkBad s.sl.streams[k]) ∧
      ((t.bc.lines.drop s.bc.lines.length).map (fun l => (l.src, l.chan)) = ((linkStreams s (.eth e)).filter fun i => !s.sl.streams[Fin.ofNat 32 i].retired).map (fun i => (20#7, BitVec.ofNat 6 i))) ∧
      OnlyChanges s t [R.ETHe_STAT e, R.LNu_OVF 55, R.LN_IRQ_STAT] [.sl, .bc, .ln] []) ∧
  (∀ (s : State) (i : Initiator) (k : Fin 32),
    isKeeper i = true → s.admitted i = true →
    Runs (.strRestart i k 1#32) s fun t =>
      t.sl.streams[k].restartDue = true ∧
      t.sl.streams[k].restartQuiet = (s.sl.streams[k].restartQuiet || !s.sl.streams[k].restartDue) ∧
      t.sl.streams[k].warmLeft = warmCount s k ∧ t.bus = .ok 0 ∧ (∀ j : Fin 32, j ≠ k → t.sl.streams[j] = s.sl.streams[j]) ∧
      OnlyChanges s t [] [.bus, .sl] []) ∧
  (∀ (s : State) (e : Nat),
    s.sl.slotEnd = some e → e ≤ s.cycle → heldBarges s = [] → s.sl.lampWait = [] →
    Runs (.lampSlotEnd) s fun t =>
      t.sl = { s.sl with slotEnd := none } ∧ OnlyChanges s t [] [.sl] []) ∧
  (∀ (s : State) (b : Word) (x : Barge),
    s.barge? b = some x → assembling s x = true → asmPast s x = true → (∀ k : Fin 32, s.sl.streams[k].frame = none) →
    Runs (.assemblyDeadline b) s fun t =>
      ((t.barge? b).map (fun y => (y.stage, y.sluice)) = some (.undelivered, .fail)) ∧ (∀ y ∈ s.barges, y.num ≠ b → y ∈ t.barges) ∧
      Asserts s t 21 0 ∧ OnlyChanges s t [] [.barges, .bc] [])

/-- R73 to R75: a configuration request and an outbound access through a matching entry go out on the link, a write posted, a read outstanding
under a new tag; an access that hits no entry gets an error; a completion answers the read, a failed one or a timeout ends it in error with
ES24 or ES25. -/
def Obligations.LinkRequestsAndReads : Prop :=
  (∀ (s : State) (i : Initiator) (n : Fin 2) (d : Word),
    s.admitted i = true →
    Runs (.cfgRequest i n false d) s fun t =>
      t.mr.ports[n].lastReq = some (.cfg (s.reg (R.RPn_CFG_ADDR n)) false d) ∧
      t.mr.ports[n].reads = s.mr.ports[n].reads ++ [⟨s.mr.ports[n].nextTag, userOf i, 4, s.cycle⟩] ∧ t.bus = .none ∧
      OnlyChanges s t [] [.bus, .mr] []) ∧
  (∀ (s : State) (i : Initiator) (n : Fin 2) (d : Word),
    s.admitted i = true → s.mayWrite i (R.RPn_CFG_DATA n) = true → (isKeeper i = true ∨ s.flag (R.RPn_CTRL n) 6 = true) →
    Runs (.cfgRequest i n true d) s fun t =>
      t.mr.ports[n].lastReq = some (.cfg (s.reg (R.RPn_CFG_ADDR n)) true d) ∧ t.mr.ports[n].reads = s.mr.ports[n].reads ∧
      t.bus = .ok 0 ∧ OnlyChanges s t [R.LNu_OVF (lnPort n), R.LN_IRQ_STAT] [.bus, .mr, .ln] []) ∧
  (∀ (s : State) (u : OutUser) (n : Fin 2) (off : BitVec 38) (e len : Nat),
    userAdmitted s u = true → portPresent s n = true → obEntry s n off.toNat = some e → s.flag (R.OBWn_e_CFG n e) (userBit u) = true →
    Runs (.outboundAccess u n off (.read len)) s fun t =>
      t.mr.ports[n].lastReq = some (.mem (BitVec.ofNat 64 (obBus s n e off.toNat)) (.read len)) ∧
      t.mr.ports[n].reads = s.mr.ports[n].reads ++ [⟨s.mr.ports[n].nextTag, u, len, s.cycle⟩] ∧ OnlyChanges s t [] [.bus, .mr] []) ∧
  (∀ (s : State) (u : OutUser) (n : Fin 2) (off : BitVec 38) (e : Nat) (d : List Byte),
    userAdmitted s u = true → portPresent s n = true → obEntry s n off.toNat = some e → s.flag (R.OBWn_e_CFG n e) (userBit u) = true →
    s.flag (R.OBWn_e_CFG n e) 1 = true →
    Runs (.outboundAccess u n off (.write d)) s fun t =>
      t.mr.ports[n].lastReq = some (.mem (BitVec.ofNat 64 (obBus s n e off.toNat)) (.write d)) ∧
      t.mr.ports[n].reads = s.mr.ports[n].reads ∧ t.bus = .ok 0 ∧
      OnlyChanges s t [R.LNu_OVF (lnPort n), R.LN_IRQ_STAT] [.bus, .mr, .ln] []) ∧
  (∀ (s : State) (u : OutUser) (n : Fin 2) (off : BitVec 38) (op : MemOp),
    s.scrapped = false → (portPresent s n = false ∨ obEntry s n off.toNat = none) → (∀ k, u ≠ .keeper k) →
    Runs (.outboundAccess u n off op) s fun t =>
      t.bus = .error ∧ OnlyChanges s t [] [.bus] []) ∧
  (∀ (s : State) (n : Fin 2) (tag : Nat) (r : OutRead) (v : DWord),
    readOf s n tag = some r →
    Runs (.outboundCompletion n tag (.data v)) s fun t =>
      t.bus = .ok v ∧ t.mr.ports[n].reads = s.mr.ports[n].reads.filter (·.tag ≠ tag) ∧
      OnlyChanges s t [R.LNu_OVF (lnPort n), R.LN_IRQ_STAT] [.bus, .mr, .ln] []) ∧
  (∀ (s : State) (n : Fin 2) (tag : Nat) (r : OutRead),
    readOf s n tag = some r → r.user = .harbour → s.scrapped = false →
    Runs (.outboundCompletion n tag .poisoned) s fun t =>
      t.bus = .error ∧ t.mr.ports[n].reads = s.mr.ports[n].reads.filter (·.tag ≠ tag) ∧ Asserts s t (24 + n.val) 0 ∧
      OnlyChanges s t [R.LNu_OVF (lnPort n), R.LN_IRQ_STAT] [.bus, .mr, .ln, .bc] []) ∧
  (∀ (s : State) (n : Fin 2) (tag : Nat) (r : OutRead),
    readOf s n tag = some r → (∀ k, r.user ≠ .keeper k) → s.scrapped = false → usCycles (s.fld (R.RPn_CPL_TO n) 15 0) ≤ s.cycle - r.issued →
    Runs (.completionTimeout n tag) s fun t =>
      t.bus = .error ∧ t.mr.ports[n].reads = s.mr.ports[n].reads.filter (·.tag ≠ tag) ∧ Asserts s t (24 + n.val) 0 ∧
      OnlyChanges s t [R.LNu_OVF (lnPort n), R.LN_IRQ_STAT] [.bus, .mr, .ln, .bc] [])

/-- R76, R77: a read of a DATA entry is answered with Hold's bytes, poisoned over an uncorrectable word (R13, R332), a write to a LANDING entry lands while SERVING, anything outside every entry
is an Unsupported Request with ES26. R81: a landed record is stored and its tests decide. R88, R89: a clean block moves the patrol on, a
differing one makes its region dirty with ES29. -/
def Obligations.InboundRequestsLandingAndPatrol : Prop :=
  (∀ (s : State) (n : Fin 2) (odd : Bool) (a : DWord) (len e o : Nat) (c : Ecc),
    inboundAt s n 512 a.toNat len = some (e, o) → s.fld (R.IBWn_e_CFG n e) 2 0 = 1 → holdEcc s ((s.reg64 (R.IBWn_e_TGT_LO n e)).toNat + o) len c = .clean →
    s.barges = [] →
    Runs (.inboundRequest n odd (.read a len c)) s fun t =>
      t.mr.resp = .data (s.bytes ((s.reg64 (R.IBWn_e_TGT_LO n e)).toNat + o) len) ∧
      OnlyChanges s t ([R.LNu_OVF (lnPort n), R.LN_IRQ_STAT] ++ (List.range 16).map (fun c => R.LNu_OVF (36 + c))) [.mr, .ln] []) ∧
  (∀ (s : State) (n : Fin 2) (odd : Bool) (a : DWord) (len e o w : Nat) (c : Ecc),
    inboundAt s n 512 a.toNat len = some (e, o) → s.fld (R.IBWn_e_CFG n e) 2 0 = 1 → holdUncIn s ((s.reg64 (R.IBWn_e_TGT_LO n e)).toNat + o) len = some w →
    s.barges = [] →
    Runs (.inboundRequest n odd (.read a len c)) s fun t =>
      t.mr.resp = .poisoned ∧ t.reg R.HD_UNC_ADDR_LO = BitVec.ofNat 32 w ∧ t.reg R.HD_IRQ_STAT = s.reg R.HD_IRQ_STAT ||| 1#32 ∧
      Asserts s t 64 0 ∧
      OnlyChanges s t ([R.LNu_OVF (lnPort n), R.LN_IRQ_STAT, R.HD_UNC_ADDR_LO, R.HD_UNC_ADDR_HI, R.HD_IRQ_STAT] ++ (List.range 16).map (fun c => R.LNu_OVF (36 + c))) [.mr, .ln, .hd, .bc] []) ∧
  (∀ (s : State) (n : Fin 2) (odd : Bool) (a : DWord) (bs : List Byte) (e o : Nat) (c : Ecc),
    inboundAt s n 256 a.toNat bs.length = some (e, o) → s.fld (R.IBWn_e_CFG n e) 2 0 = 3 → serving s n = true →
    banksAdmit s .mooringIn true ((s.reg64 (R.IBWn_e_TGT_LO n e)).toNat + o) bs.length = true →
    Runs (.inboundRequest n odd (.write a bs c)) s fun t =>
      let ring := stripAt s ((s.reg64 (R.IBWn_e_TGT_LO n e)).toNat + o) bs.length
      t.mr.resp = .written ∧
      t.mr.landed = s.mr.landed ++ [⟨n, BitVec.ofNat 40 ((s.reg64 (R.IBWn_e_TGT_LO n e)).toNat + o), bs, s.cycle, s.now, ring.head?, ring.any (slotBusy s), c⟩] ∧
      OnlyChanges s t [R.LNu_OVF (lnPort n), R.LN_IRQ_STAT] [.mr, .ln] []) ∧
  (∀ (s : State) (n : Fin 2) (odd : Bool) (d : Word),
    Runs (.inboundRequest n odd (.msi d)) s fun t =>
      t.mr.resp = .written ∧ t.kc.platform.msis = s.kc.platform.msis ++ [d] ∧ OnlyChanges s t [] [.mr, .kc] []) ∧
  (∀ (s : State) (n : Fin 2) (odd : Bool) (a : DWord) (len : Nat) (c : Ecc),
    inboundAt s n 512 a.toNat len = none →
    Runs (.inboundRequest n odd (.read a len c)) s fun t =>
      t.mr.resp = .unsupported ∧ Asserts s t 26 0 ∧ OnlyChanges s t [] [.mr, .bc] []) ∧
  (∀ (s : State) (l : Landed) (rest : List Landed) (a : RingAt),
    s.mr.landed = l :: rest → l.ring = some a → basinWaits s l.addr.toNat l.bytes.length = false → (wholeWords l.addr.toNat l.bytes.length = true ∨ codeFinding l.ecc = .clean) →
    2 ≤ landingCode s a l.overrun l.bytes → landingCode s a l.overrun l.bytes ≤ 6 →
    Runs (.landingWrite) s fun t =>
      t.reg (R.Cc_REC_LAST a.ctx) = BitVec.ofNat 32 (landingCode s a l.overrun l.bytes) ∧
      t.fld (R.Cc_REC_ERR a.ctx) 31 0 = min (s.fld (R.Cc_REC_ERR a.ctx) 31 0 + 1) 0xFFFFFFFF ∧
      t.reg R.MR_IRQ_STAT = s.reg R.MR_IRQ_STAT ||| 2#32 ∧ t.mr.landed = rest ∧ slotBusy t a = false ∧
      t.bytes l.addr.toNat l.bytes.length = l.bytes ∧ Asserts s t 26 0 ∧
      t.reg (if a.isSeal then R.Cc_SEAL_CONS a.ctx else R.Cc_SIG_CONS a.ctx) = s.reg (if a.isSeal then R.Cc_SEAL_CONS a.ctx else R.Cc_SIG_CONS a.ctx) + 1 ∧
      OnlyChanges s t [R.Cc_REC_LAST a.ctx, R.Cc_REC_ERR a.ctx, R.MR_IRQ_STAT, if a.isSeal then R.Cc_SEAL_CONS a.ctx else R.Cc_SIG_CONS a.ctx] [.mr, .bc] [(l.addr.toNat, l.bytes.length)]) ∧
  (∀ (s : State) (l : Landed) (rest : List Landed) (a : RingAt),
    s.mr.landed = l :: rest → l.ring = some a → basinWaits s l.addr.toNat l.bytes.length = false → (wholeWords l.addr.toNat l.bytes.length = true ∨ codeFinding l.ecc = .clean) →
    a.isSeal = false → landingCode s a l.overrun l.bytes = 0 → (sigOf a l.bytes l.now).last = false →
    s.wr.ready = false →
    Runs (.landingWrite) s fun t =>
      t.mr.handover = s.mr.handover ++ [sigOf a l.bytes l.now] ∧ t.mr.landed = rest ∧
      t.bytes l.addr.toNat l.bytes.length = l.bytes ∧
      ((t.barge? (recBargeOf l.bytes)).map (·.accepted) = (s.barge? (recBargeOf l.bytes)).map (fun x => x.accepted ++ [(recKey false a.ctx l.bytes, l.bytes)])) ∧
      OnlyChanges s t [] [.mr, .barges] [(l.addr.toNat, l.bytes.length)]) ∧
  (∀ (s : State) (n : Fin 2) (bs : List Byte) (r : Fin 64) (k : Nat) (g : Ecc),
    serving s n = true → s.flag R.PAT_CTRL n.val = true → s.fld R.PAT_RATE 12 0 ≠ 0 → patrolDue s n = true →
    patrolAt s n = some (r, k) → engineReach s n (patBus s r k) 4096 = true → holdEcc s (patGold s r k) 4096 g = .clean →
    bs = s.bytes (patGold s r k) 4096 → k + 1 < (s.reg (R.PATr_LEN r)).toNat →
    Runs (.patrolBlock n ⟨some bs, g⟩) s fun t =>
      t.mr.ports[n].patrol = some (r, k + 1) ∧ t.mr.regions[r].dirty = s.mr.regions[r].dirty ∧
      t.mr.regions[r].cleanAt = s.mr.regions[r].cleanAt ∧
      OnlyChanges s t ([R.LNu_OVF (lnPort n), R.LN_IRQ_STAT] ++ (List.range 16).map (fun c => R.LNu_OVF (36 + c))) [.mr, .ln] []) ∧
  (∀ (s : State) (n : Fin 2) (bs : List Byte) (r : Fin 64) (k : Nat) (g : Ecc),
    serving s n = true → s.flag R.PAT_CTRL n.val = true → s.fld R.PAT_RATE 12 0 ≠ 0 → patrolDue s n = true →
    patrolAt s n = some (r, k) → engineReach s n (patBus s r k) 4096 = true → holdEcc s (patGold s r k) 4096 g = .clean →
    bs ≠ s.bytes (patGold s r k) 4096 → outstanding s n r = [] →
    Runs (.patrolBlock n ⟨some bs, g⟩) s fun t =>
      t.mr.regions[r].dirty = true ∧ (t.reg R.MR_IRQ_STAT).getLsbD 3 = true ∧ Asserts s t 29 0 ∧
      OnlyChanges s t ([R.MR_IRQ_STAT, R.LNu_OVF (lnPort n), R.LN_IRQ_STAT] ++ (List.range 16).map (fun c => R.LNu_OVF (36 + c))) [.mr, .ln, .bc] [])

/-- R91: OFF, held for PERST_DLY, TRAINING, WAIT_READY, SERVING: each step on its condition; a link that is late or ACC_READY that does not rise
in time takes the port to OFF with its source.
R92: whatever ends SERVING drives ACC_PERST_N low, abandons every barge on the port and empties its queues; ACC_READY falling, ACC_FAULT_N,
DL_Down and the Keeper's ACC_RESET do so. R94: recoveries and error messages count. -/
def Obligations.PortStatesFromOffToServingAndBack : Prop :=
  (∀ (s : State) (n : Fin 2),
    mayStart s n = true →
    Runs (.portStart n) s fun t =>
      t.mr.ports[n].starting = true ∧ t.mr.ports[n].perst = true ∧ t.mr.ports[n].state = s.mr.ports[n].state ∧
      OnlyChanges s t [] [.mr] []) ∧
  (∀ (s : State) (n : Fin 2),
    mayStart s n = true → s.mr.ports[n].starting = true → msCycles (10 * s.fld (R.RPn_CTRL n) 15 8) ≤ s.cycle - perstFrom s n →
    Runs (.perstDelayEnd n) s fun t =>
      t.mr.ports[n].state = .training ∧ t.mr.ports[n].perst = false ∧ t.mr.ports[n].entered = s.cycle ∧
      t.reg R.MR_IRQ_STAT = s.reg R.MR_IRQ_STAT ||| 1#32 ∧ OnlyChanges s t [R.MR_IRQ_STAT] [.mr] []) ∧
  (∀ (s : State) (n : Fin 2) (sp : BitVec 3) (wd : BitVec 5) (id : Word),
    s.mr.ports[n].state = .training → trainLate s n = false → s.fld (R.RPn_CTRL n) 3 1 ≤ sp.toNat → 4 * 2 ^ s.fld (R.RPn_CTRL n) 5 4 ≤ (trainedWidth s wd).toNat →
    id = s.reg (R.RPn_ACC_ID n) →
    Runs (.linkUp n sp wd id) s fun t =>
      t.mr.ports[n].state = .waitReady ∧ t.mr.ports[n].speed = sp ∧ t.mr.ports[n].width = trainedWidth s wd ∧
      t.reg R.MR_IRQ_STAT = s.reg R.MR_IRQ_STAT ||| 1#32 ∧ OnlyChanges s t [R.MR_IRQ_STAT] [.mr] []) ∧
  (∀ (s : State) (n : Fin 2),
    s.mr.ports[n].state = .training → trainLate s n = true →
    Runs (.linkUpTimeout n) s fun t =>
      t.mr.ports[n].state = .off ∧ t.mr.ports[n].perst = true ∧ Asserts s t (24 + n.val) 0 ∧
      t.reg R.MR_IRQ_STAT = s.reg R.MR_IRQ_STAT ||| 1#32 ∧
      OnlyChanges s t [R.MR_IRQ_STAT, R.LNu_OVF (lnPort n), R.LN_IRQ_STAT] [.mr, .ln, .bc] []) ∧
  (∀ (s : State) (n : Fin 2),
    s.mr.ports[n].state = .waitReady → bootLate s n = false → s.mr.ports[n].readyLowSeen = true →
    Runs (.accReadyRise n) s fun t =>
      t.mr.ports[n].state = .serving ∧ t.mr.ports[n].epoch = s.mr.ports[n].epoch + 1 ∧ t.mr.ports[n].ready = true ∧
      (∀ k : Fin 32, streamFeeds s n k.val = true → t.sl.streams[k].restartDue = true) ∧
      (∀ k : Fin 32, streamFeeds s n k.val = false → t.sl.streams[k] = s.sl.streams[k]) ∧
      OnlyChanges s t [R.MR_IRQ_STAT] [.mr, .sl, .wd] []) ∧
  (∀ (s : State) (n : Fin 2),
    s.mr.ports[n].state = .waitReady → bootLate s n = true →
    Runs (.accBootTimeout n) s fun t =>
      t.mr.ports[n].state = .off ∧ t.mr.ports[n].perst = true ∧ Asserts s t 31 0 ∧ OnlyChanges s t [R.MR_IRQ_STAT] [.mr, .bc] []) ∧
  (∀ (s : State) (n : Fin 2),
    serving s n = true →
    Runs (.accReadyFall n) s fun t =>
      t.mr.ports[n].state = .off ∧ t.mr.ports[n].perst = true ∧ t.mr.ports[n].ready = false ∧
      (∀ c ∈ portCtxs n, t.mr.ctxs[c].slots = [] ∧ t.mr.ctxs[c].next = 0) ∧
      (∀ x ∈ s.barges, onPort n x = true → isFinal s x = false → (∀ z ∈ s.barges, z.num = x.num → z = x) → ∀ y ∈ t.barges, y.num = x.num → y.portLeft = true) ∧
      t.lc.records = s.lc.records ∧ ((t.bc.lines.getLast?.map fun l => (l.src, l.chan)) = some (31#7, 0#6)) ∧
      OnlyChanges s t (R.MR_IRQ_STAT :: (List.range 256).map R.LMPl_STAT) [.mr, .barges, .bc, .lc] []) ∧
  (∀ (s : State) (n : Fin 2),
    serving s n = true → s.mr.ports[n].fault = false →
    Runs (.accFault n true) s fun t =>
      t.mr.ports[n].state = .off ∧ t.mr.ports[n].perst = true ∧ t.mr.ports[n].fault = true ∧
      ((t.bc.lines.getLast?.map fun l => (l.src, l.chan)) = some (31#7, 0#6)) ∧
      OnlyChanges s t (R.MR_IRQ_STAT :: (List.range 256).map R.LMPl_STAT) [.mr, .barges, .bc, .lc] []) ∧
  (∀ (s : State) (n : Fin 2),
    s.mr.ports[n].therm = false →
    Runs (.accTherm n true) s fun t =>
      t.mr.ports[n].therm = true ∧ t.mr.ports[n].state = s.mr.ports[n].state ∧ Asserts s t 31 0 ∧ OnlyChanges s t [] [.mr, .bc] []) ∧
  (∀ (s : State) (n : Fin 2),
    serving s n = true → s.mr.ports[n].reads = [] →
    Runs (.linkDown n) s fun t =>
      t.mr.ports[n].state = .off ∧ t.mr.ports[n].perst = true ∧
      t.fld (R.RPn_LINKDOWN n) 31 0 = min (s.fld (R.RPn_LINKDOWN n) 31 0 + 1) 0xFFFFFFFF ∧
      ((t.bc.lines.getLast?.map fun l => (l.src, l.chan)) = some (BitVec.ofNat 7 (24 + n.val), 0#6)) ∧
      OnlyChanges s t (R.RPn_LINKDOWN n :: R.LNu_OVF (lnPort n) :: R.LN_IRQ_STAT :: R.MR_IRQ_STAT :: (List.range 256).map R.LMPl_STAT) [.mr, .barges, .bc, .lc, .ln] []) ∧
  (∀ (s : State) (n : Fin 2),
    linkIsUp s n = true →
    Runs (.ltssmRecovery n) s fun t =>
      t.fld (R.RPn_RECOV n) 31 0 = min (s.fld (R.RPn_RECOV n) 31 0 + 1) 0xFFFFFFFF ∧ t.mr = s.mr ∧ Asserts s t (24 + n.val) 0 ∧
      OnlyChanges s t [R.RPn_RECOV n, R.LNu_OVF (lnPort n), R.LN_IRQ_STAT] [.bc, .ln] []) ∧
  (∀ (s : State) (i : Initiator) (n : Fin 2),
    isKeeper i = true → s.admitted i = true →
    Runs (.accReset i n 1#32) s fun t =>
      t.mr.ports[n].state = .off ∧ t.mr.ports[n].perst = true ∧ t.mr.ports[n].perstLow = s.cycle ∧ t.bus = .ok 0 ∧
      ((∀ l : Fin 256, lampOnPort s n l.val = false ∨ s.flag (R.LMPl_STAT l.val) 4 = false) → t.bc.lines = s.bc.lines) ∧
      OnlyChanges s t (R.MR_IRQ_STAT :: (List.range 256).map R.LMPl_STAT) [.bus, .mr, .barges, .bc, .lc] []) ∧
  (∀ (s : State) (n : Fin 2),
    linkIsUp s n = true →
    Runs (.uncorrectableErrorMessage n true) s fun t =>
      t.fld (R.RPn_AER n) 31 16 = min (s.fld (R.RPn_AER n) 31 16 + 1) 0xFFFF ∧ Asserts s t (24 + n.val) 0 ∧
      OnlyChanges s t [R.RPn_AER n, R.LNu_OVF (lnPort n), R.LN_IRQ_STAT] [.bc, .ln] [])

/-- R100 to R103: Mirror stores the first live record of a window and queues the second; a compare with no difference on the last window gives
PASS; a signature difference gives MISMATCH with ES32 and the fail registers.
R106: a window deadline starts the 1 µs wait, after it a missing copy is the result with ES33. R109: disagreeing halves give DUAL with ES37.
R110: a good glint raises its source with the bit as syndrome and moves the bit on. R105: SILENT_CLR zeroes SILENT_DIV. -/
def Obligations.MirrorComparesDeadlinesAndGlints : Prop :=
  (∀ (s : State) (r : SigRec) (rest : List SigRec) (x : Barge),
    s.mr.handover = r :: rest → mirrorFull s = false → mirrorWindow s = none → mirrorOn s = true → s.barge? r.barge = some x →
    windowLate x r = false → orderOk x r = true → r.dead = false → deadEnabled x = false → isSingle x = false →
    x.lamp = none → partner s r = none →
    Runs (.sigRecordHandover) s fun t =>
      t.mi = { s.mi with store := s.mi.store ++ [r] } ∧ t.mr.handover = rest ∧
      t.mr.ctxs[r.copy].sigBusy = s.mr.ctxs[r.copy].sigBusy.filter (· ≠ r.slot) ∧
      t.reg (R.Cc_SIG_CONS r.copy) = s.reg (R.Cc_SIG_CONS r.copy) + 1 ∧ OnlyChanges s t [R.Cc_SIG_CONS r.copy] [.mr, .mi] []) ∧
  (∀ (s : State) (r p : SigRec) (rest : List SigRec) (x : Barge),
    s.mr.handover = r :: rest → mirrorFull s = false → mirrorWindow s = none → mirrorOn s = true → s.barge? r.barge = some x →
    windowLate x r = false → orderOk x r = true → r.dead = false → deadEnabled x = false → partner s r = some p →
    Runs (.sigRecordHandover) s fun t =>
      t.mi = { s.mi with queue := s.mi.queue ++ [r] } ∧ t.mr.handover = rest ∧
      t.mr.ctxs[r.copy].sigBusy = s.mr.ctxs[r.copy].sigBusy.filter (· ≠ r.slot) ∧
      t.reg (R.Cc_SIG_CONS r.copy) = s.reg (R.Cc_SIG_CONS r.copy) + 1 ∧ OnlyChanges s t [R.Cc_SIG_CONS r.copy] [.mr, .mi] []) ∧
  (∀ (s : State) (r p : SigRec) (rest : List SigRec) (x : Barge) (m : Fin 64),
    mirrorWindow s = none → s.mi.queue = r :: rest → s.barge? r.barge = some x → x.formed = false → x.lamp = none →
    isSingle x = false → r.dead = false → partner s r = some p → x.twin = 0 → x.mnet = some m → r.digest = x.digest →
    p.digest = x.digest → r.sig = p.sig → x.winDone.contains r.window = false → x.winDone.length + 1 = windowsOf x →
    Runs (.mirrorCompare .normal) s fun t =>
      (t.barge? r.barge).map (·.twin) = some 1 ∧ t.reg R.CMP_COUNT = s.reg R.CMP_COUNT + 1 ∧
      t.reg (R.MNETx_PASS m) = s.reg (R.MNETx_PASS m) + 1 ∧ t.fld (R.MNETx_STAT m) 3 0 = 1 ∧ t.mi.queue = rest ∧
      t.mi.store = s.mi.store.filter (· ≠ p) ∧ OnlyChanges s t [R.CMP_COUNT, R.MNETx_STAT m, R.MNETx_PASS m] [.barges, .mi] []) ∧
  (∀ (s : State) (r p : SigRec) (rest : List SigRec) (x : Barge) (m : Fin 64),
    mirrorWindow s = none → s.mi.queue = r :: rest → s.barge? r.barge = some x → x.formed = false → x.lamp = none →
    isSingle x = false → r.dead = false → partner s r = some p → x.twin = 0 → x.mnet = some m → r.digest = x.digest →
    p.digest = x.digest → r.sig ≠ p.sig →
    Runs (.mirrorCompare .normal) s fun t =>
      (t.barge? r.barge).map (·.twin) = some 2 ∧ t.reg R.CMP_COUNT = s.reg R.CMP_COUNT + 1 ∧
      (t.reg R.MI_IRQ_STAT).getLsbD 0 = true ∧ t.reg R.FAIL_BARGE = r.barge ∧ t.reg R.FAIL_NET = BitVec.ofNat 32 (netId x) ∧
      t.fld (R.MNETx_STAT m) 3 0 = 2 ∧ Asserts s t 32 0 ∧ t.mi.queue = rest ∧ t.mi.store = s.mi.store.filter (· ≠ p) ∧
      OnlyChanges s t [R.CMP_COUNT, R.MI_IRQ_STAT, R.FAIL_BARGE, R.FAIL_INFO, R.FAIL_NET, R.MNETx_STAT m] [.barges, .mi, .bc] []) ∧
  (∀ (s : State) (b : Word) (x : Barge),
    s.barge? b = some x → mirrorOn s = true → x.stage = .delivered → x.lamp = none → x.windowPast = none →
    missed x.domain s.now x.window = true →
    Runs (.windowDeadline b) s fun t =>
      (t.barge? b).map (·.windowPast) = some (some s.cycle) ∧ (∀ y ∈ s.barges, y.num ≠ b → y ∈ t.barges) ∧
      OnlyChanges s t [] [.barges] []) ∧
  (∀ (s : State) (b : Word) (x : Barge) (m : Fin 64) (c : Nat),
    s.barge? b = some x → x.formed = false → x.lamp = none → x.windowPast = some c → usCycles 1 ≤ s.cycle - c →
    x.twin = 0 → missingCode s x ≠ 0 → loggedLate s 1 b = false → x.mnet = some m →
    Runs (.missingResult b) s fun t =>
      (t.barge? b).map (·.twin) = some (missingCode s x) ∧ (t.reg R.MI_IRQ_STAT).getLsbD 1 = true ∧ t.reg R.FAIL_BARGE = b ∧
      Asserts s t 33 0 ∧ OnlyChanges s t [R.MI_IRQ_STAT, R.FAIL_BARGE, R.FAIL_INFO, R.FAIL_NET, R.MNETx_STAT m] [.barges, .bc] []) ∧
  (∀ (s : State) (r : SigRec) (rest : List SigRec) (x : Barge) (m : Fin 64),
    mirrorWindow s = none → s.mi.queue = r :: rest → s.barge? r.barge = some x → x.formed = false → x.lamp = none →
    x.twin = 0 → x.mnet = some m → partner s r = none →
    Runs (.mirrorCompare .halvesDisagree) s fun t =>
      (t.barge? r.barge).map (·.twin) = some 9 ∧ t.reg R.CMP_COUNT = s.reg R.CMP_COUNT + 1 ∧
      (t.reg R.MI_IRQ_STAT).getLsbD 5 = true ∧ Asserts s t 37 0 ∧
      OnlyChanges s t [R.CMP_COUNT, R.MI_IRQ_STAT, R.FAIL_BARGE, R.FAIL_INFO, R.FAIL_NET, R.MNETx_STAT m] [.barges, .mi, .bc] []) ∧
  (∀ (s : State) (e : MirrorEnv),
    (mirrorWindow s).isSome = true →
    Runs (.mirrorCompare e) s fun t =>
      t = s ∧ OnlyChanges s t [] [] []) ∧
  (∀ (s : State) (g : Glint) (h : MirrorGlint),
    mirrorWindow s = some g → g.ran = false → h.equalP = none → h.equalQ = none → h.bitP ≠ h.bitQ →
    Runs (.mirrorGlint h) s fun t =>
      t.fld R.GLINT_STAT 15 0 = (s.fld R.GLINT_STAT 15 0 + 1) % 65536 ∧ t.fld R.GLINT_STAT 24 24 = 1 ∧
      (t.reg R.MI_IRQ_STAT).getLsbD 5 = true ∧ Asserts s t 37 0 ∧ OnlyChanges s t [R.GLINT_STAT, R.MI_IRQ_STAT] [.bc] []) ∧
  (∀ (s : State) (g : Glint) (h : MirrorGlint),
    mirrorWindow s = some g → g.ran = false → g.syn.toNat < 256 → glintGood h (g.syn.setWidth 8) = true →
    Runs (.mirrorGlint h) s fun t =>
      t.fld R.GLINT_STAT 15 0 = (s.fld R.GLINT_STAT 15 0 + 1) % 65536 ∧ t.fld R.GLINT_STAT 23 16 = s.fld R.GLINT_STAT 23 16 ∧
      t.fld R.GLINT_STAT 24 24 = 0 ∧ Asserts s t g.src.toNat 0 ∧
      (t.bc.lines.getLast?.map (·.syn)) = some ((g.syn.setWidth 8).setWidth 16) ∧ OnlyChanges s t [R.GLINT_STAT] [.bc] []) ∧
  (∀ (s : State) (i : Initiator),
    isKeeper i = true → s.admitted i = true →
    Runs (.silentClr i 1#32) s fun t =>
      t.reg R.SILENT_DIV = 0 ∧ t.bus = .ok 0 ∧ OnlyChanges s t [R.SILENT_DIV] [.bus] [])

/-- R123 to R125, Table 06-4: a running tile that fetches a legal instruction issues it and goes on to the next in sequence, which is the
start of the innermost loop whose body it has ended: NOP, the scalar arithmetic (A0 stays 0), LOOP, JMP, BNZ, WAITE, SIGE, HALT. -/
def Obligations.TileScalarAndControl : Prop :=
  (∀ (s : State) (p : Fin 36) (raw : Nat) (w : Word64) (v : IssueEnv),
    s.tiles[p].run = .running → fetchWord s p = some raw → splitWord raw = w → w.op = 0x00 → legal w = true →
    issueWaits s p w = false → v.parity = false → codeFinding v.fetch = .clean →
    Runs (.opNop p v) s fun t =>
      let x := takeIssue s.cycle w raw s.tiles[p]; let n := loopStep (x.pc + 8) x.loops
      t.tiles[p] = { x with pc := n.1, loops := n.2 } ∧ (∀ q : Fin 36, q ≠ p → t.tiles[q] = s.tiles[q]) ∧
      OnlyChanges s t [] [.tiles] []) ∧
  (∀ (s : State) (p : Fin 36) (raw : Nat) (w : Word64) (v : IssueEnv),
    s.tiles[p].run = .running → fetchWord s p = some raw → splitWord raw = w → w.op = 0x08 → legal w = true →
    issueWaits s p w = false → v.parity = false → codeFinding v.fetch = .clean →
    Runs (.opAddi p v) s fun t =>
      let x := takeIssue s.cycle w raw s.tiles[p]; let n := loopStep (x.pc + 8) x.loops
      t.tiles[p] = { x with areg := if w.d = 0 then x.areg else x.areg.set w.d (areg x w.p + w.imm), pc := n.1, loops := n.2 } ∧
      (∀ q : Fin 36, q ≠ p → t.tiles[q] = s.tiles[q]) ∧ OnlyChanges s t [] [.tiles] []) ∧
  (∀ (s : State) (p : Fin 36) (raw : Nat) (w : Word64) (v : IssueEnv),
    s.tiles[p].run = .running → fetchWord s p = some raw → splitWord raw = w → w.op = 0x09 → legal w = true →
    issueWaits s p w = false → v.parity = false → codeFinding v.fetch = .clean →
    Runs (.opAdd p v) s fun t =>
      let x := takeIssue s.cycle w raw s.tiles[p]; let n := loopStep (x.pc + 8) x.loops
      t.tiles[p] = { x with areg := if w.d = 0 then x.areg else x.areg.set w.d (areg x w.p + areg x w.q), pc := n.1, loops := n.2 } ∧
      (∀ q : Fin 36, q ≠ p → t.tiles[q] = s.tiles[q]) ∧ OnlyChanges s t [] [.tiles] []) ∧
  (∀ (s : State) (p : Fin 36) (raw : Nat) (w : Word64) (v : IssueEnv),
    s.tiles[p].run = .running → fetchWord s p = some raw → splitWord raw = w → w.op = 0x0A → legal w = true →
    issueWaits s p w = false → v.parity = false → codeFinding v.fetch = .clean →
    Runs (.opSub p v) s fun t =>
      let x := takeIssue s.cycle w raw s.tiles[p]; let n := loopStep (x.pc + 8) x.loops
      t.tiles[p] = { x with areg := if w.d = 0 then x.areg else x.areg.set w.d (areg x w.p - areg x w.q), pc := n.1, loops := n.2 } ∧
      (∀ q : Fin 36, q ≠ p → t.tiles[q] = s.tiles[q]) ∧ OnlyChanges s t [] [.tiles] []) ∧
  (∀ (s : State) (p : Fin 36) (raw : Nat) (w : Word64) (v : IssueEnv),
    s.tiles[p].run = .running → fetchWord s p = some raw → splitWord raw = w → w.op = 0x0B → legal w = true →
    issueWaits s p w = false → v.parity = false → codeFinding v.fetch = .clean →
    Runs (.opMuli p v) s fun t =>
      let x := takeIssue s.cycle w raw s.tiles[p]; let n := loopStep (x.pc + 8) x.loops
      t.tiles[p] = { x with areg := if w.d = 0 then x.areg else x.areg.set w.d (areg x w.p * w.imm), pc := n.1, loops := n.2 } ∧
      (∀ q : Fin 36, q ≠ p → t.tiles[q] = s.tiles[q]) ∧ OnlyChanges s t [] [.tiles] []) ∧
  (∀ (s : State) (p : Fin 36) (raw : Nat) (w : Word64) (v : IssueEnv),
    s.tiles[p].run = .running → fetchWord s p = some raw → splitWord raw = w → w.op = 0x02 → legal w = true →
    issueWaits s p w = false → v.parity = false → codeFinding v.fetch = .clean → s.tiles[p].loops = [] →
    w.imm ≠ 0 →
    Runs (.opLoop p v) s fun t =>
      let x := takeIssue s.cycle w raw s.tiles[p]
      t.tiles[p] = { x with pc := x.pc + 8, loops := [⟨Fin.ofNat 8 w.d.val, w.imm.toNat, x.pc + 8, x.pc + 8 + 8 * w.x, false, []⟩] } ∧
      (∀ q : Fin 36, q ≠ p → t.tiles[q] = s.tiles[q]) ∧ OnlyChanges s t [] [.tiles] []) ∧
  (∀ (s : State) (p : Fin 36) (raw : Nat) (w : Word64) (v : IssueEnv),
    s.tiles[p].run = .running → fetchWord s p = some raw → splitWord raw = w → w.op = 0x03 → legal w = true →
    issueWaits s p w = false → v.parity = false → codeFinding v.fetch = .clean →
    Runs (.opJmp p v) s fun t =>
      let x := takeIssue s.cycle w raw s.tiles[p]
      (t.tiles[p] = { x with pc := w.imm.toNat, loops := x.loops.filter fun f => f.start ≤ w.imm.toNat && w.imm.toNat < f.stop }) ∧
      (∀ q : Fin 36, q ≠ p → t.tiles[q] = s.tiles[q]) ∧ OnlyChanges s t [] [.tiles] []) ∧
  (∀ (s : State) (p : Fin 36) (raw : Nat) (w : Word64) (v : IssueEnv),
    s.tiles[p].run = .running → fetchWord s p = some raw → splitWord raw = w → w.op = 0x04 → legal w = true →
    issueWaits s p w = false → v.parity = false → codeFinding v.fetch = .clean →
    Runs (.opBnz p v) s fun t =>
      let x := takeIssue s.cycle w raw s.tiles[p]; let n := loopStep (x.pc + 8) x.loops
      t.tiles[p].pc = (if areg x w.p ≠ 0 then w.imm.toNat else n.1) ∧ t.tiles[p].areg = x.areg ∧
      (∀ q : Fin 36, q ≠ p → t.tiles[q] = s.tiles[q]) ∧ OnlyChanges s t [] [.tiles] []) ∧
  (∀ (s : State) (p : Fin 36) (raw : Nat) (w : Word64) (v : IssueEnv),
    s.tiles[p].run = .running → fetchWord s p = some raw → splitWord raw = w → w.op = 0x05 → legal w = true →
    issueWaits s p w = false → v.parity = false → codeFinding v.fetch = .clean →
    Runs (.opWaite p v) s fun t =>
      let x := takeIssue s.cycle w raw s.tiles[p]; let n := loopStep (x.pc + 8) x.loops
      t.reg (R.TL_EVENT p) = s.reg (R.TL_EVENT p) &&& ~~~ BitVec.ofNat 32 (2 ^ w.fn) ∧
      t.tiles[p] = { x with pc := n.1, loops := n.2 } ∧ (∀ q : Fin 36, q ≠ p → t.tiles[q] = s.tiles[q]) ∧
      OnlyChanges s t [R.TL_EVENT p] [.tiles] []) ∧
  (∀ (s : State) (p : Fin 36) (raw : Nat) (w : Word64) (v : IssueEnv),
    s.tiles[p].run = .running → fetchWord s p = some raw → splitWord raw = w → w.op = 0x06 → legal w = true →
    issueWaits s p w = false → v.parity = false → codeFinding v.fetch = .clean →
    Runs (.opSige p v) s fun t =>
      let x := takeIssue s.cycle w raw s.tiles[p]; let n := loopStep (x.pc + 8) x.loops
      t.reg (R.TL_SIGNAL p) = s.reg (R.TL_SIGNAL p) ||| BitVec.ofNat 32 (2 ^ w.fn) ∧
      t.tiles[p] = { x with pc := n.1, loops := n.2 } ∧ (∀ q : Fin 36, q ≠ p → t.tiles[q] = s.tiles[q]) ∧
      OnlyChanges s t [R.TL_SIGNAL p] [.tiles] []) ∧
  (∀ (s : State) (p : Fin 36) (raw : Nat) (w : Word64) (v : IssueEnv),
    s.tiles[p].run = .running → fetchWord s p = some raw → splitWord raw = w → w.op = 0x01 → legal w = true →
    issueWaits s p w = false → v.parity = false → codeFinding v.fetch = .clean → runOn s p = none →
    Runs (.opHalt p v) s fun t =>
      let x := takeIssue s.cycle w raw s.tiles[p]; let n := loopStep (x.pc + 8) x.loops
      t.tiles[p].run = .idle ∧ t.tiles[p].loops = [] ∧ t.tiles[p].pc = n.1 ∧
      t.reg (R.TL_EXIT p) = BitVec.ofNat 32 (4 * x.entry.toNat + 65536 * x.tag.toNat) ∧
      t.reg (R.TL_IRQ_STAT p) = s.reg (R.TL_IRQ_STAT p) ||| 1#32 ∧ (∀ q : Fin 36, q ≠ p → t.tiles[q] = s.tiles[q]) ∧
      OnlyChanges s t [R.TL_EXIT p, R.TL_IRQ_STAT p] [.tiles, .sn] []) ∧
  (∀ (s : State) (p : Fin 36) (raw : Nat) (w : Word64) (v : IssueEnv) (u : SnRun) (c : Fin 64),
    s.tiles[p].run = .running → fetchWord s p = some raw → splitWord raw = w → w.op = 0x01 → legal w = true →
    issueWaits s p w = false → v.parity = false → codeFinding v.fetch = .clean → runOn s p = some u →
    u.check = some c → (u.tiles.all fun q => (p :: u.halted).contains q) = true →
    Runs (.opHalt p v) s fun t =>
      let x := takeIssue s.cycle w raw s.tiles[p]; let n := loopStep (x.pc + 8) x.loops
      t.tiles[p].run = .idle ∧
      (t.sn.runs = s.sn.runs.map (fun r => if r.barge = u.barge && r.check = u.check then { u with live := u.live.filter (· ≠ p), halted := p :: u.halted, flags := u.flags ||| (s.reg (R.TL_FLAGS p)).setWidth 3, view := (match v.view with | some a => some a | none => u.view), outcome := .done } else r)) ∧
      (∀ q : Fin 36, q ≠ p → t.tiles[q] = s.tiles[q]) ∧ OnlyChanges s t [R.TL_EXIT p, R.TL_IRQ_STAT p] [.tiles, .sn] [])

/-- R121, R122, R125, R129, Table 06-4: LDS and STS move an aligned word of the tile's SRAM; VLD, VST, VOP, VOPS, VREQ, VLUT, VRED act on all
64 lanes; a value outside the SRAM a program may use is not written. The address is A[P] + IMM, or A[Q] for VREQ and VLUT. -/
def Obligations.TileMemoryAndVectors : Prop :=
  (∀ (s : State) (p : Fin 36) (raw : Nat) (w : Word64) (v : IssueEnv),
    s.tiles[p].run = .running → fetchWord s p = some raw → splitWord raw = w → w.op = 0x0C → legal w = true →
    issueWaits s p w = false → v.parity = false → codeFinding v.fetch = .clean → badWord v.data = false →
    correctedWords v.data = 0 → addrOf s.tiles[p] w % 4 = 0 → mayRead s p (addrOf s.tiles[p] w) 4 = true →
    Runs (.opLds p v) s fun t =>
      let x := takeIssue s.cycle w raw s.tiles[p]; let n := loopStep (x.pc + 8) x.loops
      t.tiles[p] = { x with areg := if w.d = 0 then x.areg else x.areg.set w.d (sramWord s p (addrOf x w)), pc := n.1, loops := n.2 } ∧
      (∀ q : Fin 36, q ≠ p → t.tiles[q] = s.tiles[q]) ∧ OnlyChanges s t [] [.tiles] []) ∧
  (∀ (s : State) (p : Fin 36) (raw : Nat) (w : Word64) (v : IssueEnv),
    s.tiles[p].run = .running → fetchWord s p = some raw → splitWord raw = w → w.op = 0x0D → legal w = true →
    issueWaits s p w = false → v.parity = false → codeFinding v.fetch = .clean → badWord v.data = false →
    correctedWords v.data = 0 → addrOf s.tiles[p] w % 4 = 0 → mayWriteSram s p (addrOf s.tiles[p] w) 4 = true →
    Runs (.opSts p v) s fun t =>
      let x := takeIssue s.cycle w raw s.tiles[p]; let n := loopStep (x.pc + 8) x.loops
      (s.ports.net = [] → t.bytes (tileByte p (addrOf x w)) 4 = bytesLE 4 (areg x w.q).toNat) ∧
      (∀ i : Fin 4, (oldByte s.ports.net (tileByte p (addrOf x w) + i)).isSome = true → t.byte (tileByte p (addrOf x w) + i) = s.byte (tileByte p (addrOf x w) + i)) ∧
      t.tiles[p].pc = n.1 ∧ t.tiles[p].areg = x.areg ∧ t.tiles[p].held = (bankMask (addrOf x w) 4, s.cycle + 1) ∧
      (∀ q : Fin 36, q ≠ p → t.tiles[q] = s.tiles[q]) ∧ OnlyChanges s t [] [.tiles, .ports] [(tileByte p (addrOf s.tiles[p] w), 4)]) ∧
  (∀ (s : State) (p : Fin 36) (raw : Nat) (w : Word64) (v : IssueEnv) (k : Nat),
    s.tiles[p].run = .running → fetchWord s p = some raw → splitWord raw = w → w.op = 0x18 → legal w = true →
    issueWaits s p w = false → v.parity = false → codeFinding v.fetch = .clean → badWord v.data = false →
    correctedWords v.data = 0 → formBytes w.fn = some k → addrOf s.tiles[p] w % 16 = 0 → mayRead s p (addrOf s.tiles[p] w) (64 * k) = true →
    Runs (.opVld p v) s fun t =>
      let x := takeIssue s.cycle w raw s.tiles[p]; let n := loopStep (x.pc + 8) x.loops
      (∀ i : Fin 64, vlane t.tiles[p] w.d i = (widen w.fn (fieldLE (sram s p (addrOf x w) (64 * k)) (k * i) k)).val) ∧
      t.tiles[p].pc = n.1 ∧ t.tiles[p].areg = x.areg ∧ (∀ q : Fin 36, q ≠ p → t.tiles[q] = s.tiles[q]) ∧
      OnlyChanges s t [R.TL_FLAGS p] [.tiles] []) ∧
  (∀ (s : State) (p : Fin 36) (raw : Nat) (w : Word64) (v : IssueEnv) (k : Nat),
    s.tiles[p].run = .running → fetchWord s p = some raw → splitWord raw = w → w.op = 0x19 → legal w = true →
    issueWaits s p w = false → v.parity = false → codeFinding v.fetch = .clean → badWord v.data = false →
    correctedWords v.data = 0 → formBytes w.fn = some k → addrOf s.tiles[p] w % 16 = 0 → mayWriteSram s p (addrOf s.tiles[p] w) (64 * k) = true →
    Runs (.opVst p v) s fun t =>
      let x := takeIssue s.cycle w raw s.tiles[p]; let n := loopStep (x.pc + 8) x.loops
      ((s.ports.net = [] → t.bytes (tileByte p (addrOf x w)) (64 * k) = (vlanes x w.q).flatMap (fun r => bytesLE k (narrow w.fn (decide (w.x = 1)) r).1))) ∧
      t.tiles[p].pc = n.1 ∧ t.tiles[p].vreg = x.vreg ∧ (∀ q : Fin 36, q ≠ p → t.tiles[q] = s.tiles[q]) ∧
      OnlyChanges s t [R.TL_FLAGS p] [.tiles, .ports] [(tileByte p (addrOf s.tiles[p] w), 64 * k)]) ∧
  (∀ (s : State) (p : Fin 36) (raw : Nat) (w : Word64) (v : IssueEnv),
    s.tiles[p].run = .running → fetchWord s p = some raw → splitWord raw = w → w.op = 0x1A → legal w = true →
    issueWaits s p w = false → v.parity = false → codeFinding v.fetch = .clean →
    Runs (.opVop p v) s fun t =>
      let x := takeIssue s.cycle w raw s.tiles[p]; let n := loopStep (x.pc + 8) x.loops
      ((∀ i : Fin 64, some (vlane t.tiles[p] w.d i) = (vfun w.fn (vlane x w.p i) (vlane x w.q i)).map (·.val))) ∧
      t.tiles[p].pc = n.1 ∧ t.tiles[p].acc = x.acc ∧ (∀ q : Fin 36, q ≠ p → t.tiles[q] = s.tiles[q]) ∧
      OnlyChanges s t [R.TL_FLAGS p] [.tiles] []) ∧
  (∀ (s : State) (p : Fin 36) (raw : Nat) (w : Word64) (v : IssueEnv),
    s.tiles[p].run = .running → fetchWord s p = some raw → splitWord raw = w → w.op = 0x1B → legal w = true →
    issueWaits s p w = false → v.parity = false → codeFinding v.fetch = .clean →
    Runs (.opVops p v) s fun t =>
      let x := takeIssue s.cycle w raw s.tiles[p]; let n := loopStep (x.pc + 8) x.loops
      ((∀ i : Fin 64, some (vlane t.tiles[p] w.d i) = (vfun w.fn (vlane x w.p i) w.imm).map (·.val))) ∧ t.tiles[p].pc = n.1 ∧
      t.tiles[p].acc = x.acc ∧ (∀ q : Fin 36, q ≠ p → t.tiles[q] = s.tiles[q]) ∧ OnlyChanges s t [R.TL_FLAGS p] [.tiles] []) ∧
  (∀ (s : State) (p : Fin 36) (raw : Nat) (w : Word64) (v : IssueEnv),
    s.tiles[p].run = .running → fetchWord s p = some raw → splitWord raw = w → w.op = 0x1C → legal w = true →
    issueWaits s p w = false → v.parity = false → codeFinding v.fetch = .clean → badWord v.data = false →
    correctedWords v.data = 0 → (areg s.tiles[p] w.q).toNat % 16 = 0 → mayRead s p (areg s.tiles[p] w.q).toNat 1024 = true →
    Runs (.opVreq p v) s fun t =>
      let x := takeIssue s.cycle w raw s.tiles[p]; let n := loopStep (x.pc + 8) x.loops; let r := fun (i : Fin 64) => sram s p ((areg x w.q).toNat + 16 * i) 16
      (∀ i : Fin 64, (fieldLE (r i) 6 1) ≤ 63 → vlane t.tiles[p] w.d i = (requant (vlane x w.p i) (BitVec.ofNat 32 (fieldLE (r i) 0 4)) (fieldLE (r i) 6 1)
        (BitVec.ofNat 16 (fieldLE (r i) 4 2)) (BitVec.ofNat 32 (fieldLE (r i) 8 4)) (BitVec.ofNat 32 (fieldLE (r i) 12 4))).val) ∧
      t.tiles[p].pc = n.1 ∧ (∀ q : Fin 36, q ≠ p → t.tiles[q] = s.tiles[q]) ∧ OnlyChanges s t [R.TL_FLAGS p] [.tiles] []) ∧
  (∀ (s : State) (p : Fin 36) (raw : Nat) (w : Word64) (v : IssueEnv),
    s.tiles[p].run = .running → fetchWord s p = some raw → splitWord raw = w → w.op = 0x1D → legal w = true →
    issueWaits s p w = false → v.parity = false → codeFinding v.fetch = .clean → badWord v.data = false →
    correctedWords v.data = 0 → (areg s.tiles[p] w.q).toNat % 16 = 0 → mayRead s p (areg s.tiles[p] w.q).toNat 260 = true →
    Runs (.opVlut p v) s fun t =>
      let x := takeIssue s.cycle w raw s.tiles[p]; let n := loopStep (x.pc + 8) x.loops
      ((∀ i : Fin 64, vlane t.tiles[p] w.d i = lut (fun j => sramWord s p ((areg x w.q).toNat + 4 * j)) w.imm.toNat (vlane x w.p i))) ∧
      t.tiles[p].pc = n.1 ∧ t.tiles[p].acc = x.acc ∧ (∀ q : Fin 36, q ≠ p → t.tiles[q] = s.tiles[q]) ∧
      OnlyChanges s t [] [.tiles] []) ∧
  (∀ (s : State) (p : Fin 36) (raw : Nat) (w : Word64) (v : IssueEnv),
    s.tiles[p].run = .running → fetchWord s p = some raw → splitWord raw = w → w.op = 0x1E → legal w = true →
    issueWaits s p w = false → v.parity = false → codeFinding v.fetch = .clean →
    Runs (.opVred p v) s fun t =>
      let x := takeIssue s.cycle w raw s.tiles[p]; let n := loopStep (x.pc + 8) x.loops
      vlane t.tiles[p] w.d 0 = (reduce w.fn (vlanes x w.p)).val ∧ (∀ i : Fin 64, i ≠ 0 → vlane t.tiles[p] w.d i = 0) ∧
      t.tiles[p].pc = n.1 ∧ (∀ q : Fin 36, q ≠ p → t.tiles[q] = s.tiles[q]) ∧ OnlyChanges s t [R.TL_FLAGS p] [.tiles] [])

/-- R115 to R120, R125 to R128, R136: WLD fills the buffer that MMAs do not use and WSW swaps them; an MMA of one vector adds each column's
products into its accumulator row and holds the array; ACCR and ACCW move two rows; DMA takes a descriptor on an idle channel; AKT counts a
pass, or faults. -/
def Obligations.TileArrayDmaAndAkt : Prop :=
  (∀ (s : State) (p : Fin 36) (raw : Nat) (w : Word64) (v : IssueEnv) (f : ArrFmt),
    s.tiles[p].run = .running → fetchWord s p = some raw → splitWord raw = w → w.op = 0x10 → legal w = true →
    issueWaits s p w = false → v.parity = false → codeFinding v.fetch = .clean → badWord v.data = false →
    correctedWords v.data = 0 → arrFmt w.fn = some f → rowsOk s p (areg s.tiles[p] w.p + w.imm) (areg s.tiles[p] w.q) f.rows f.rowBytes = true →
    Runs (.opWld p v) s fun t =>
      let x := takeIssue s.cycle w raw s.tiles[p]; let n := loopStep (x.pc + 8) x.loops; let l : WeightLoad := ⟨idleBuf x, w.fn, areg x w.p + w.imm, areg x w.q, 0, 0⟩; let clash := decide (loadBanks l f &&& arrayBanks s.tiles[p] s.cycle ≠ 0)
      t.tiles[p].wfmt = x.wfmt.set (idleBuf x) f.code ∧
      t.tiles[p].loader = some (if clash then l else { l with next := 1, banks := loadBanks l f }) ∧
      (t.tiles[p].wbuf = (if clash then x.wbuf else x.wbuf.set (idleBuf x) ((loadRows f 0).foldl (fun b k => Cells.setRange noByte b (f.rowBytes * k) (sram s p (rowAddr l.base l.stride k) f.rowBytes)) x.wbuf[idleBuf x]))) ∧
      t.tiles[p].active = x.active ∧ t.tiles[p].pc = n.1 ∧ (∀ q : Fin 36, q ≠ p → t.tiles[q] = s.tiles[q]) ∧
      OnlyChanges s t [R.LNu_OVF (lnTile p), R.LN_IRQ_STAT] [.tiles, .ln] []) ∧
  (∀ (s : State) (p : Fin 36) (taken : Half) (l : WeightLoad) (f : ArrFmt) (i : Fin f.rowBytes) (k : Nat), s.tiles[p].loader = some l → arrFmt l.fmt = some f → l.next < f.loadCycles →
    k ∈ loadRows f l.next → loadBanks l f &&& taken = 0 → (loaderCycle s p taken).tiles[p].loader = some { l with next := l.next + 1, banks := loadBanks l f } ∧
    some (Cells.get noByte (loaderCycle s p taken).tiles[p].wbuf[l.buf] (f.rowBytes * k + i)) = (sram s p (rowAddr l.base l.stride k) f.rowBytes)[i.val]?) ∧
  (∀ (s : State) (p : Fin 36) (raw : Nat) (w : Word64) (v : IssueEnv),
    s.tiles[p].run = .running → fetchWord s p = some raw → splitWord raw = w → w.op = 0x11 → legal w = true →
    issueWaits s p w = false → v.parity = false → codeFinding v.fetch = .clean →
    Runs (.opWsw p v) s fun t =>
      let x := takeIssue s.cycle w raw s.tiles[p]; let n := loopStep (x.pc + 8) x.loops
      t.tiles[p] = { x with active := !x.active, pc := n.1, loops := n.2 } ∧ (∀ q : Fin 36, q ≠ p → t.tiles[q] = s.tiles[q]) ∧
      OnlyChanges s t [] [.tiles] []) ∧
  (∀ (s : State) (p : Fin 36) (raw : Nat) (w : Word64) (v : IssueEnv) (f : ArrFmt),
    s.tiles[p].run = .running → fetchWord s p = some raw → splitWord raw = w → w.op = 0x12 → legal w = true →
    issueWaits s p w = false → v.parity = false → codeFinding v.fetch = .clean → badWord v.data = false →
    correctedWords v.data = 0 → arrFmt (w.fn % 8) = some f → areg s.tiles[p] w.q % 16 = 0 → rowsOk s p (areg s.tiles[p] w.p) (areg s.tiles[p] w.q) w.imm.toNat f.vecBytes = true →
    (areg s.tiles[p] w.d).toNat + w.imm.toNat ≤ 1024 → (w.fn < 8 → badWord v.acc = false ∧ correctedWords v.acc = 0) →
    Runs (.opMma p v) s fun t =>
      let x := takeIssue s.cycle w raw s.tiles[p]; let n := loopStep (x.pc + 8) x.loops
      t.tiles[p] = { x with flight := x.flight ++ [⟨x.active, w.fn % 8, decide (8 ≤ w.fn), areg x w.p, areg x w.q, (areg x w.d).toNat, w.imm.toNat, s.cycle + 1, s.cycle + 1 + f.vecCycles * w.imm.toNat, s.freeIdx⟩], pc := n.1, loops := n.2 } ∧
      (∀ q : Fin 36, q ≠ p → t.tiles[q] = s.tiles[q]) ∧ OnlyChanges s t [] [.tiles] []) ∧
  (∀ (s : State) (p : Fin 36) (m : MmaFlight) (f : ArrFmt) (j : Nat) (k : Fin 32), let b : Fin 2 := if m.buf then 1 else 0
    sameWeights s.tiles[p].wfmt[b] f = true → accLane (vectorIn s p m f j).tiles[p] (m.row + j) k = (mac f m.zero (sram s p (rowAddr m.base m.stride j) f.vecBytes)
      (fun i => Cells.getRange noByte s.tiles[p].wbuf[b] (f.rowBytes * i) f.rowBytes) k (accLane s.tiles[p] (m.row + j) k)).val) ∧
  (∀ (s : State) (p : Fin 36) (raw : Nat) (w : Word64) (v : IssueEnv),
    s.tiles[p].run = .running → fetchWord s p = some raw → splitWord raw = w → w.op = 0x13 → legal w = true →
    issueWaits s p w = false → v.parity = false → codeFinding v.fetch = .clean → badWord v.acc = false →
    correctedWords v.acc = 0 → (areg s.tiles[p] w.p).toNat < 1024 → (areg s.tiles[p] w.p).toNat + w.imm.toNat < 1024 →
    Runs (.opAccr p v) s fun t =>
      let x := takeIssue s.cycle w raw s.tiles[p]; let n := loopStep (x.pc + 8) x.loops; let r0 := (areg x w.p).toNat; let r1 := r0 + w.imm.toNat
      (∀ i : Fin 64, vlane t.tiles[p] w.d i = if i.val < 32 then accLane x r0 i else accLane x r1 (i.val - 32)) ∧
      t.tiles[p].pc = n.1 ∧ t.tiles[p].acc = x.acc ∧ (∀ q : Fin 36, q ≠ p → t.tiles[q] = s.tiles[q]) ∧
      OnlyChanges s t [] [.tiles] []) ∧
  (∀ (s : State) (p : Fin 36) (raw : Nat) (w : Word64) (v : IssueEnv),
    s.tiles[p].run = .running → fetchWord s p = some raw → splitWord raw = w → w.op = 0x14 → legal w = true →
    issueWaits s p w = false → v.parity = false → codeFinding v.fetch = .clean → (areg s.tiles[p] w.d).toNat < 1024 →
    (areg s.tiles[p] w.d).toNat + w.imm.toNat < 1024 →
    Runs (.opAccw p v) s fun t =>
      let x := takeIssue s.cycle w raw s.tiles[p]; let n := loopStep (x.pc + 8) x.loops; let r0 := (areg x w.d).toNat; let r1 := r0 + w.imm.toNat
      (∀ i : Fin 32, (w.imm ≠ 0 → accLane t.tiles[p] r0 i = vlane x w.q i) ∧ accLane t.tiles[p] r1 i = vlane x w.q (i.val + 32)) ∧
      t.tiles[p].pc = n.1 ∧ t.tiles[p].vreg = x.vreg ∧ (∀ q : Fin 36, q ≠ p → t.tiles[q] = s.tiles[q]) ∧
      OnlyChanges s t [] [.tiles] []) ∧
  (∀ (s : State) (p : Fin 36) (raw : Nat) (w : Word64) (v : IssueEnv),
    s.tiles[p].run = .running → fetchWord s p = some raw → splitWord raw = w → w.op = 0x20 → legal w = true →
    issueWaits s p w = false → v.parity = false → codeFinding v.fetch = .clean → badWord v.data = false →
    correctedWords v.data = 0 → addrOf s.tiles[p] w % 32 = 0 → mayRead s p (addrOf s.tiles[p] w) 32 = true →
    Runs (.opDma p v) s fun t =>
      let x := takeIssue s.cycle w raw s.tiles[p]; let n := loopStep (x.pc + 8) x.loops
      t.tiles[p] = { x with dma := x.dma.set (Fin.ofNat 4 w.fn) ⟨true, sram s p (addrOf x w) 32, s.cycle⟩, pc := n.1, loops := n.2 } ∧
      (∀ q : Fin 36, q ≠ p → t.tiles[q] = s.tiles[q]) ∧ OnlyChanges s t [] [.tiles] []) ∧
  (∀ (s : State) (p : Fin 36) (raw : Nat) (w : Word64) (v : IssueEnv),
    s.tiles[p].run = .running → fetchWord s p = some raw → splitWord raw = w → w.op = 0x21 → legal w = true →
    issueWaits s p w = false → v.parity = false → codeFinding v.fetch = .clean →
    Runs (.opDwait p v) s fun t =>
      let x := takeIssue s.cycle w raw s.tiles[p]; let n := loopStep (x.pc + 8) x.loops
      t.tiles[p] = { x with pc := n.1, loops := n.2 } ∧ (∀ q : Fin 36, q ≠ p → t.tiles[q] = s.tiles[q]) ∧
      OnlyChanges s t [] [.tiles] []) ∧
  (∀ (s : State) (p : Fin 36) (raw : Nat) (w : Word64) (v : IssueEnv),
    s.tiles[p].run = .running → fetchWord s p = some raw → splitWord raw = w → w.op = 0x28 → legal w = true →
    issueWaits s p w = false → v.parity = false → codeFinding v.fetch = .clean → v.akt = none →
    Runs (.opAkt p v) s fun t =>
      let x := takeIssue s.cycle w raw s.tiles[p]; let n := loopStep (x.pc + 8) x.loops
      t.fld (R.TL_AKT p) 15 0 = (s.fld (R.TL_AKT p) 15 0 + 1) % 65536 ∧ t.fld (R.TL_AKT p) 21 21 = 0 ∧
      t.sn.aktAt[p] = some s.cycle ∧ t.tiles[p].pc = n.1 ∧ t.tiles[p].vreg = x.vreg ∧
      (∀ q : Fin 36, q ≠ p → t.tiles[q] = s.tiles[q]) ∧ OnlyChanges s t [R.TL_AKT p] [.tiles, .sn] []) ∧
  (∀ (s : State) (p : Fin 36) (raw : Nat) (w : Word64) (v : IssueEnv) (k : Fin 32),
    s.tiles[p].run = .running → fetchWord s p = some raw → splitWord raw = w → w.op = 0x28 → legal w = true →
    issueWaits s p w = false → v.parity = false → codeFinding v.fetch = .clean → v.akt = some k → runOn s p = none →
    (s.au.running.filter fun c => decide (c.atile.toNat = tileLogical s p)) = [] →
    Runs (.opAkt p v) s fun t =>
      t.fld (R.TL_AKT p) 20 16 = k.val ∧ t.fld (R.TL_AKT p) 21 21 = 1 ∧ t.tiles[p].run = .faulted ∧
      (t.reg (R.TL_FAULT p)).getLsbD 9 = true ∧ Asserts s t 45 p ∧ (∀ q : Fin 36, q ≠ p → t.tiles[q] = s.tiles[q]) ∧
      OnlyChanges s t [R.TL_AKT p, R.TL_FAULT p, R.TL_FAULT_PC p, R.TL_IRQ_STAT p, R.TL_EXIT p] [.tiles, .sn, .bc] [])

/-- R132 to R134: TL_START begins a run of an IDLE tile at its entry; TL_STOP ends issue and the run ends with its exit code once array and
channels are idle, saved where it was a pause; TL_RESET clears the tile; the debug commands halt, step and resume; TL_EVENT_SET sets. -/
def Obligations.TileRunsStopsAndResets : Prop :=
  (∀ (s : State) (i : Initiator) (p : Fin 36) (v : Word) (es : List Ecc),
    isKeeper i = true → s.admitted i = true → s.tiles[p].run = .idle → entryStart s p (bits v 3 0) ≠ 0 →
    v.getLsbD 4 = false → badWord es = false → correctedWords es = 0 →
    Runs (.tlStart i p v es) s fun t =>
      t.tiles[p].run = issuing s p ∧ t.tiles[p].freeAt = s.cycle + 4 ∧ t.tiles[p].pc = entryStart s p (bits v 3 0) ∧
      t.tiles[p].entry.toNat = bits v 3 0 ∧ t.tiles[p].tag.toNat = bits v 31 16 ∧ t.tiles[p].loops = [] ∧ t.tiles[p].saved = false ∧
      t.reg (R.TL_CYCLES p) = 0 ∧ (s.sn.unproved.contains p = true → t.sn.runs = s.sn.runs) ∧
      (∀ q : Fin 36, q ≠ p → t.tiles[q] = s.tiles[q]) ∧ t.bus = .ok 0 ∧
      OnlyChanges s t ((R.TL_CYCLES p :: (List.range 64).map R.RESr_RUNS)) [.bus, .tiles, .sn] []) ∧
  (∀ (s : State) (i : Initiator) (p : Fin 36) (v : Word) (es : List Ecc),
    isKeeper i = true → s.admitted i = true → s.tiles[p].run = .idle → entryStart s p (bits v 3 0) ≠ 0 →
    v.getLsbD 4 = true → s.tiles[p].saved = true → saveGood s p = true → badWord es = false → correctedWords es = 0 →
    Runs (.tlStart i p v es) s fun t =>
      t.tiles[p].run = issuing s p ∧ t.tiles[p].entry = BitVec.ofNat 4 (saveWord s p 3) ∧
      t.tiles[p].tag = BitVec.ofNat 16 (saveWord s p 4) ∧ t.tiles[p].pc = saveWord s p 5 ∧
      t.reg (R.TL_CYCLES p) = BitVec.ofNat 32 (saveWord s p 6) ∧ t.reg (R.TL_FLAGS p) = BitVec.ofNat 32 (saveWord s p 8) ∧
      t.tiles[p].freeAt = s.cycle + 556 ∧ t.tiles[p].resumeTo = s.cycle + 556 ∧ (∀ q : Fin 36, q ≠ p → t.tiles[q] = s.tiles[q]) ∧
      t.bus = .ok 0 ∧ OnlyChanges s t ((R.TL_FLAGS p :: R.TL_CYCLES p :: (List.range 64).map R.RESr_RUNS)) [.bus, .tiles, .sn] []) ∧
  (∀ (s : State) (i : Initiator) (p : Fin 36) (v : Word) (es : List Ecc),
    isKeeper i = true → s.admitted i = true → (s.tiles[p].run ≠ .idle ∨ entryStart s p (bits v 3 0) = 0 ∨ (v.getLsbD 4 = true ∧ s.tiles[p].saved = false)) →
    Runs (.tlStart i p v es) s fun t =>
      t.bus = .error ∧ Asserts s t 5 0 ∧ OnlyChanges s t [] [.bus, .bc] []) ∧
  (∀ (s : State) (i : Initiator) (p : Fin 36) (v : Word) (es : List Ecc),
    isKeeper i = true → s.admitted i = true → s.tiles[p].run = .idle → entryStart s p (bits v 3 0) ≠ 0 →
    v.getLsbD 4 = false → badWord es = true → correctedWords es = 0 → runOn s p = none → (s.au.running.filter fun c => decide (c.atile.toNat = tileLogical s p)) = [] →
    Runs (.tlStart i p v es) s fun t =>
      t.tiles[p].run = .faulted ∧ (t.reg (R.TL_FAULT p)).getLsbD 0 = true ∧
      t.reg (R.TL_EXIT p) = BitVec.ofNat 32 (1 + 4 * bits v 3 0 + 65536 * bits v 31 16) ∧ Asserts s t 40 p ∧
      (∀ q : Fin 36, q ≠ p → t.tiles[q] = s.tiles[q]) ∧
      OnlyChanges s t [R.TL_FAULT p, R.TL_FAULT_PC p, R.TL_IRQ_STAT p, R.TL_EXIT p] [.bus, .tiles, .sn, .bc] []) ∧
  (∀ (s : State) (i : Initiator) (p : Fin 36),
    isKeeper i = true → s.admitted i = true → (s.tiles[p].run = .running ∨ s.tiles[p].run = .halted) →
    Runs (.tlStopAbort i p) s fun t =>
      t.tiles[p] = { discard s.cycle s.tiles[p] with run := .stopping, stopPause := false, steps := 0, wasteTo := max s.tiles[p].freeAt (discard s.cycle s.tiles[p]).wasteTo } ∧
      (∀ q : Fin 36, q ≠ p → t.tiles[q] = s.tiles[q]) ∧ OnlyChanges s t [] [.bus, .tiles] []) ∧
  (∀ (s : State) (i : Initiator) (p : Fin 36),
    isKeeper i = true → s.admitted i = true → saveOn s p = true → (s.tiles[p].run = .running ∨ s.tiles[p].run = .halted) →
    Runs (.tlStopPause i p) s fun t =>
      t.tiles[p] = { discard s.cycle s.tiles[p] with run := .stopping, stopPause := true, steps := 0 } ∧
      (∀ q : Fin 36, q ≠ p → t.tiles[q] = s.tiles[q]) ∧ OnlyChanges s t [] [.bus, .tiles] []) ∧
  (∀ (s : State) (p : Fin 36) (es : List Ecc),
    s.tiles[p].run = .stopping → arrayBusy s.tiles[p] = false → dmaBusy s.tiles[p] = false → s.tiles[p].stopPause = false →
    Runs (.tileStopComplete p es) s fun t =>
      t.tiles[p] = { s.tiles[p] with run := .idle } ∧
      t.reg (R.TL_EXIT p) = BitVec.ofNat 32 (2 + 4 * s.tiles[p].entry.toNat + 65536 * s.tiles[p].tag.toNat) ∧
      (∀ q : Fin 36, q ≠ p → t.tiles[q] = s.tiles[q]) ∧ OnlyChanges s t [R.TL_EXIT p] [.tiles, .sn] []) ∧
  (∀ (s : State) (p : Fin 36) (es : List Ecc),
    s.tiles[p].run = .stopping → arrayBusy s.tiles[p] = false → dmaBusy s.tiles[p] = false → s.tiles[p].stopPause = true →
    badWord es = false → correctedWords es = 0 →
    Runs (.tileStopComplete p es) s fun t =>
      t.tiles[p].run = .idle ∧ t.tiles[p].saved = true ∧ t.tiles[p].pc = s.tiles[p].pc ∧ t.tiles[p].areg = s.tiles[p].areg ∧
      t.tiles[p].acc = s.tiles[p].acc ∧
      t.reg (R.TL_EXIT p) = BitVec.ofNat 32 (3 + 4 * s.tiles[p].entry.toNat + 65536 * s.tiles[p].tag.toNat) ∧
      (∀ q : Fin 36, q ≠ p → t.tiles[q] = s.tiles[q]) ∧
      OnlyChanges s t [R.TL_EXIT p] [.tiles, .sn] [(tileByte p saveBase, 0x22100)]) ∧
  (∀ (s : State) (i : Initiator) (p : Fin 36),
    isKeeper i = true → s.admitted i = true → s.tiles[p].run ≠ .off → s.tiles[p].run ≠ .retired → dmaBusy s.tiles[p] = false →
    Runs (.tlReset i p 1#32) s fun t =>
      t.tiles[p] = { clearTile s.tiles[p] with run := .resetting } ∧ t.reg (R.TL_FAULT p) = 0 ∧
      (∀ q : Fin 36, q ≠ p → t.tiles[q] = s.tiles[q]) ∧ OnlyChanges s t [R.TL_FAULT p] [.bus, .tiles, .sn] []) ∧
  (∀ (s : State) (p : Fin 36),
    s.tiles[p].run = .resetting →
    Runs (.tileResetDone p false) s fun t =>
      t.tiles[p] = { s.tiles[p] with run := .idle } ∧ (∀ q : Fin 36, q ≠ p → t.tiles[q] = s.tiles[q]) ∧
      OnlyChanges s t [] [.tiles] []) ∧
  (∀ (s : State) (i : Initiator) (p : Fin 36),
    isKeeper i = true → s.admitted i = true → s.tiles[p].run = .running →
    Runs (.tlDbgHalt i p) s fun t =>
      t.tiles[p] = { s.tiles[p] with run := .halted } ∧ t.reg (R.TL_DBG p) = 1 ∧ (∀ q : Fin 36, q ≠ p → t.tiles[q] = s.tiles[q]) ∧
      OnlyChanges s t [R.TL_DBG p] [.bus, .tiles] []) ∧
  (∀ (s : State) (i : Initiator) (p : Fin 36) (raw : Nat) (w : Word64) (v : IssueEnv),
    isKeeper i = true → s.admitted i = true → s.tiles[p].run = .halted → fetchWord s p = some raw → splitWord raw = w →
    w.op = 0x08 → legal w = true → issueWaits s p w = false → v.parity = false → codeFinding v.fetch = .clean →
    Runs (.tlDbgStep i p v) s fun t =>
      let x := takeIssue s.cycle w raw s.tiles[p]; let n := loopStep (x.pc + 8) x.loops
      t.tiles[p] = { x with areg := if w.d = 0 then x.areg else x.areg.set w.d (areg x w.p + w.imm), pc := n.1, loops := n.2 } ∧
      (∀ q : Fin 36, q ≠ p → t.tiles[q] = s.tiles[q]) ∧ OnlyChanges s t [] [.bus, .tiles] []) ∧
  (∀ (s : State) (i : Initiator) (p : Fin 36),
    isKeeper i = true → s.admitted i = true → s.tiles[p].run = .halted →
    Runs (.tlDbgResume i p) s fun t =>
      t.tiles[p] = { s.tiles[p] with run := .running, steps := 0 } ∧ t.reg (R.TL_DBG p) = 0 ∧
      (∀ q : Fin 36, q ≠ p → t.tiles[q] = s.tiles[q]) ∧ OnlyChanges s t [R.TL_DBG p] [.bus, .tiles] []) ∧
  (∀ (s : State) (i : Initiator) (p : Fin 36) (v : Word),
    isKeeper i = true → s.admitted i = true →
    Runs (.tlEventSet i p v) s fun t =>
      t.reg (R.TL_EVENT p) = s.reg (R.TL_EVENT p) ||| (v &&& 0xFFFF#32) ∧ OnlyChanges s t [R.TL_EVENT p] [.bus] [])

/-- R125, R128, R137: a one-row transfer moves its bytes and frees its channel; a transfer past its limit faults with ES43; an MMA drains 40 cycles
after its last vector; a run past its entry's limit faults with ES44. -/
def Obligations.TileDmaEndsAndLimits : Prop :=
  (∀ (s : State) (p : Fin 36) (ch : Fin 4) (es : List Ecc),
    s.ports.seq = [] → dmaFinding s s.tiles[p].dma[ch].desc es = .clean → dmaWaits s s.tiles[p].dma[ch].desc = false →
    s.tiles[p].dma[ch].busy = true → dmaForm s.tiles[p].dma[ch].desc = true → dmaRows s.tiles[p].dma[ch].desc = 1 →
    dmaOut s.tiles[p].dma[ch].desc = false → rowFault s p s.tiles[p].dma[ch].started s.tiles[p].dma[ch].desc 0 = none →
    Runs (.dmaTransferDone p ch (.moved es)) s fun t =>
      let d := s.tiles[p].dma[ch].desc
      t.bytes (tileByte p (dmaLoc d)) (dmaLen d) = s.bytes (dmaExt d) (dmaLen d) ∧ t.tiles[p].dma[ch] = ⟨false, [], 0⟩ ∧
      t.tiles[p].run = s.tiles[p].run ∧ (∀ q : Fin 36, q ≠ p → t.tiles[q] = s.tiles[q]) ∧
      OnlyChanges s t (R.LN_IRQ_STAT :: (List.range 64).map R.LNu_OVF) [.tiles, .ln, .ports] [(tileByte p (dmaLoc s.tiles[p].dma[ch].desc), dmaLen s.tiles[p].dma[ch].desc)]) ∧
  (∀ (s : State) (p : Fin 36) (ch : Fin 4),
    s.tiles[p].dma[ch].busy = true → dmaForm s.tiles[p].dma[ch].desc = false → dmaLimit s p ≤ s.cycle - s.tiles[p].dma[ch].started →
    s.tiles[p].run = .running → runOn s p = none → (s.au.running.filter fun c => decide (c.atile.toNat = tileLogical s p)) = [] →
    Runs (.dmaTimeout p ch) s fun t =>
      t.tiles[p].dma[ch] = ⟨false, [], 0⟩ ∧ t.tiles[p].run = .faulted ∧ (t.reg (R.TL_FAULT p)).getLsbD 6 = true ∧
      t.reg (R.TL_EXIT p) = BitVec.ofNat 32 (1 + 4 * s.tiles[p].entry.toNat + 65536 * s.tiles[p].tag.toNat) ∧ Asserts s t 43 p ∧
      (∀ q : Fin 36, q ≠ p → t.tiles[q] = s.tiles[q]) ∧
      OnlyChanges s t [R.TL_FAULT p, R.TL_FAULT_PC p, R.TL_IRQ_STAT p, R.TL_EXIT p] [.tiles, .sn, .bc] []) ∧
  (∀ (s : State) (p : Fin 36) (ch : Fin 4),
    s.tiles[p].dma[ch].busy = true → dmaLimit s p ≤ s.cycle - s.tiles[p].dma[ch].started → s.tiles[p].run = .running →
    Runs (.dmaTimeout p ch) s fun t =>
      t.tiles[p].dma[ch] = ⟨false, [], 0⟩ ∧ t.tiles[p].run = .faulted ∧ (t.reg (R.TL_FAULT p)).getLsbD 6 = true) ∧
  (∀ (s : State) (p : Fin 36) (ch : Fin 4),
    s.tiles[p].dma[ch].busy = true → dmaForm s.tiles[p].dma[ch].desc = false → dmaLimit s p ≤ s.cycle - s.tiles[p].dma[ch].started →
    s.tiles[p].run = .stopping →
    Runs (.dmaTimeout p ch) s fun t =>
      t.tiles[p] = { s.tiles[p] with dma := s.tiles[p].dma.set ch ⟨false, [], 0⟩ } ∧ (t.reg (R.TL_FAULT p)).getLsbD 6 = true ∧
      Asserts s t 43 p ∧ (∀ q : Fin 36, q ≠ p → t.tiles[q] = s.tiles[q]) ∧
      OnlyChanges s t [R.TL_FAULT p, R.TL_FAULT_PC p, R.TL_IRQ_STAT p] [.tiles, .bc] []) ∧
  (∀ (s : State) (p : Fin 36) (f : MmaFlight) (rest : List MmaFlight),
    s.tiles[p].flight = f :: rest → f.passAt + 40 ≤ s.cycle →
    Runs (.mmaDrained p) s fun t =>
      t.tiles[p] = { s.tiles[p] with flight := rest } ∧ (∀ q : Fin 36, q ≠ p → t.tiles[q] = s.tiles[q]) ∧
      OnlyChanges s t [] [.tiles] []) ∧
  (∀ (s : State) (p : Fin 36),
    s.tiles[p].run = .running → entryLimit s p s.tiles[p].entry.toNat ≠ 0 → entryLimit s p s.tiles[p].entry.toNat ≤ (s.reg (R.TL_CYCLES p)).toNat →
    runOn s p = none → (s.au.running.filter fun c => decide (c.atile.toNat = tileLogical s p)) = [] →
    Runs (.cycleLimit p) s fun t =>
      t.tiles[p].run = .faulted ∧ (t.reg (R.TL_FAULT p)).getLsbD 7 = true ∧ Asserts s t 44 p ∧
      (∀ q : Fin 36, q ≠ p → t.tiles[q] = s.tiles[q]) ∧
      OnlyChanges s t [R.TL_FAULT p, R.TL_FAULT_PC p, R.TL_IRQ_STAT p, R.TL_EXIT p] [.tiles, .sn, .bc] []) ∧
  (∀ (s : State) (p : Fin 36) (u : SnRun) (c : Fin 64),
    s.tiles[p].run = .running → entryLimit s p s.tiles[p].entry.toNat ≠ 0 → entryLimit s p s.tiles[p].entry.toNat ≤ (s.reg (R.TL_CYCLES p)).toNat →
    runOn s p = some u → u.check = some c → (s.flag R.SN_CTRL 2 = false ∨ u.rerun = true) → (s.au.running.filter fun c => decide (c.atile.toNat = tileLogical s p)) = [] →
    Runs (.cycleLimit p) s fun t =>
      t.tiles[p].run = .faulted ∧
      (t.sn.runs = s.sn.runs.map (fun r => if r.barge = u.barge && r.check = u.check then { u with outcome := .lost } else r)) ∧
      Asserts s t 44 p ∧ (∀ q : Fin 36, q ≠ p → t.tiles[q] = s.tiles[q]) ∧
      OnlyChanges s t [R.TL_FAULT p, R.TL_FAULT_PC p, R.TL_IRQ_STAT p, R.TL_EXIT p] [.tiles, .sn, .bc] []) ∧
  (∀ (s : State) (p : Fin 36) (u : SnRun),
    s.tiles[p].run = .running → entryLimit s p s.tiles[p].entry.toNat ≠ 0 → entryLimit s p s.tiles[p].entry.toNat ≤ (s.reg (R.TL_CYCLES p)).toNat →
    runOn s p = some u → s.flag R.SN_CTRL 2 = true → u.rerun = false → (s.au.running.filter fun c => decide (c.atile.toNat = tileLogical s p)) = [] →
    Runs (.cycleLimit p) s fun t =>
      t.tiles[p].run = .faulted ∧
      (t.sn.runs = s.sn.runs.map (fun r => if r.barge = u.barge && r.check = u.check then { u with rerun := true, live := [], halted := [], flags := 0 } else r)) ∧
      Asserts s t 44 p ∧ (∀ q : Fin 36, q ≠ p → t.tiles[q] = s.tiles[q]) ∧
      OnlyChanges s t [R.TL_FAULT p, R.TL_FAULT_PC p, R.TL_IRQ_STAT p, R.TL_EXIT p] [.tiles, .sn, .bc] []) ∧
  (∀ (s : State) (p : Fin 36) (w : Word64) (v : IssueEnv),
    s.tiles[p].run = .running → fetch s p = some w → w.op = 0 → legal w = false → issueWaits s p w = false →
    v.parity = false → codeFinding v.fetch = .clean → runOn s p = none → (s.au.running.filter fun c => decide (c.atile.toNat = tileLogical s p)) = [] →
    Runs (.opNop p v) s fun t =>
      t.tiles[p].run = .faulted ∧ (t.reg (R.TL_FAULT p)).getLsbD 2 = true ∧ Asserts s t 42 p ∧
      (∀ q : Fin 36, q ≠ p → t.tiles[q] = s.tiles[q]) ∧
      OnlyChanges s t [R.TL_FAULT p, R.TL_FAULT_PC p, R.TL_IRQ_STAT p, R.TL_EXIT p] [.tiles, .sn, .bc] []) ∧
  (∀ (s : State) (p : Fin 36) (w : Word64) (v : IssueEnv),
    s.tiles[p].run = .running → fetch s p = some w → w.op = 0 → v.parity = true → runOn s p = none →
    (s.au.running.filter fun c => decide (c.atile.toNat = tileLogical s p)) = [] →
    Runs (.opNop p v) s fun t =>
      t.tiles[p].run = .faulted ∧ (t.reg (R.TL_FAULT p)).getLsbD 8 = true ∧ Asserts s t 45 p ∧
      (∀ q : Fin 36, q ≠ p → t.tiles[q] = s.tiles[q]) ∧
      OnlyChanges s t [R.TL_FAULT p, R.TL_FAULT_PC p, R.TL_IRQ_STAT p, R.TL_EXIT p] [.tiles, .sn, .bc] []) ∧
  (∀ (s : State) (p : Fin 36) (w : Word64) (v : IssueEnv),
    s.tiles[p].run = .running → fetch s p = some w → w.op = 0 → issueWaits s p w = true → v.parity = false →
    Runs (.opNop p v) s fun t =>
      t = s ∧ OnlyChanges s t [] [] [])

/-- R150, R151: a missed seal deadline is noted with the entry then in effect; 1 µs later an incomplete commitment closes the barge's list with
SEAL_MISSING (4) and ES51. Table 07-13: AU_READYQ answers and pops its oldest entry. R153: the generator is the instance of seed, nonce, barge,
network and instance byte.
R152, R162: an accepted challenge joins the queue and is issued; CLOSE ends the list, and with every challenge ended gives the result; a wrong
CHK, an incomplete commitment or a full queue is a bus error. -/
def Obligations.SealsReadyQueueAndChallenges : Prop :=
  (∀ (s : State) (b : Word) (x : Barge) (e : Fin 64),
    s.barge? b = some x → x.au.entry = some e → x.au.complete = false → x.au.closed = false → x.au.deadline = none →
    missed x.domain s.now x.au.sealDl = true →
    Runs (.sealDeadline b) s fun t =>
      (t.barge? b).map (·.au) = some { x.au with deadline := some s.cycle, cfg := s.reg (R.AUn_CFG e), desc := descOf s e } ∧
      (∀ y ∈ s.barges, y.num ≠ b → y ∈ t.barges) ∧ OnlyChanges s t [] [.barges] []) ∧
  (∀ (s : State) (b : Word) (x : Barge) (e : Fin 64) (c : Nat),
    s.barge? b = some x → x.au.entry = some e → x.au.complete = false → x.au.closed = false → x.au.deadline = some c →
    usCycles 1 ≤ s.cycle - c → x.formed = false → x.audit = 0 →
    Runs (.sealMissingTimeout b) s fun t =>
      ((t.barge? b).map (fun y => (y.audit, y.au.closed)) = some (4, true)) ∧ t.fld (R.AUn_STAT e) 3 0 = 4 ∧
      t.reg R.AU_FAIL_BARGE = b ∧ (t.reg R.AU_IRQ_STAT).getLsbD 2 = true ∧ Asserts s t 51 0 ∧
      OnlyChanges s t [R.AU_IRQ_STAT, R.AUn_STAT e, R.AU_FAIL_BARGE, R.AU_FAIL_INFO, R.AU_FAIL_TCOORD] [.barges, .bc] []) ∧
  (∀ (s : State) (e : Fin 64) (b : Word) (rest : List (Fin 64 × Word)),
    s.au.readyQ = (e, b) :: rest →
    Runs (.readyqPop) s fun t =>
      t.au = { s.au with readyQ := rest, popped := b } ∧ t.bus = .ok (BitVec.ofNat 64 (2 ^ 31 + e.val)) ∧
      OnlyChanges s t [] [.bus, .au] []) ∧
  (∀ (s : State),
    s.au.readyQ = [] →
    Runs (.readyqPop) s fun t =>
      t.bus = .ok 0 ∧ OnlyChanges s t [] [.bus] []) ∧
  (∀ (s : State) (i : Initiator) (v : Word),
    isKeeper i = true → s.admitted i = true → s.se.siteSeed = none →
    Runs (.drbgInstantiate i v) s fun t =>
      t.au = { s.au with drbg := none } ∧ t.bus = .error ∧ Asserts s t 5 0 ∧ OnlyChanges s t [] [.bus, .au, .bc] []) ∧
  (∀ (s : State) (i : Initiator) (v : Word) (seed : BitVec 256),
    isKeeper i = true → s.admitted i = true → s.se.siteSeed = some seed →
    Runs (.drbgInstantiate i v) s fun t =>
      t.au.drbg = some (auditInstance seed s.au.startNonce (s.reg R.AU_DRBG_BARGE) (drbgNet s (bits v 5 0)) (if v.getLsbD 8 then 2 else 1)) ∧
      t.bus = .ok 0 ∧ OnlyChanges s t [] [.bus, .au] []) ∧
  (∀ (s : State) (i : Initiator) (d : Drbg),
    s.admitted i = true → s.au.drbg = some d →
    Runs (.drbgOutRead i) s fun t =>
      t.bus = .ok ((Drbg.next d).1.setWidth 64) ∧ t.au = { s.au with drbg := some (Drbg.next d).2 } ∧
      OnlyChanges s t [] [.bus, .au] []) ∧
  (∀ (s : State) (i : Initiator) (c : BitVec 128) (x : Barge),
    isKeeper i = true → s.admitted i = true → s.barge? (chalBarge c) = some x → x.formed = false → chalRefused s false c = false →
    Runs (.challengeExact i c) s fun t =>
      t.au.queue = s.au.queue ++ [⟨.exact, chalTranspose c, chalEntry c, chalTile c, chalBarge c, chalCoord c, chalSeq c, 0, false, x.bufAddr.toNat, x.bufLen, x.au.desc⟩] ∧
      (t.barge? (chalBarge c)).map (·.au) = some { x.au with issued := x.au.issued + 1, drawn := x.au.drawn + 1 } ∧ t.bus = .ok 0 ∧
      OnlyChanges s t [] [.bus, .barges, .au] []) ∧
  (∀ (s : State) (i : Initiator) (c : BitVec 128) (x : Barge),
    isKeeper i = true → s.admitted i = true → s.barge? (chalBarge c) = some x → x.formed = false → chalRefused s false c = false →
    Runs (.challengeProject i c) s fun t =>
      t.au.queue = s.au.queue ++ [⟨.project, chalTranspose c, chalEntry c, chalTile c, chalBarge c, chalCoord c, chalSeq c, 0, false, x.bufAddr.toNat, x.bufLen, x.au.desc⟩] ∧
      (t.barge? (chalBarge c)).map (·.au) = some { x.au with issued := x.au.issued + 1, drawn := x.au.drawn + 1 } ∧ t.bus = .ok 0 ∧
      OnlyChanges s t [] [.bus, .barges, .au] []) ∧
  (∀ (s : State) (i : Initiator) (c : BitVec 128) (x : Barge),
    isKeeper i = true → s.admitted i = true → s.barge? (chalBarge c) = some x → x.formed = false → chalRefused s false c = false →
    Runs (.challengeInput i c) s fun t =>
      t.au.queue = s.au.queue ++ [⟨.input, chalTranspose c, chalEntry c, chalTile c, chalBarge c, chalCoord c, chalSeq c, 0, false, x.bufAddr.toNat, x.bufLen, x.au.desc⟩] ∧
      (t.barge? (chalBarge c)).map (·.au) = some { x.au with issued := x.au.issued + 1 } ∧ t.bus = .ok 0 ∧
      OnlyChanges s t [] [.bus, .barges, .au] []) ∧
  (∀ (s : State) (i : Initiator) (c : BitVec 128) (x : Barge) (e : Fin 64),
    isKeeper i = true → s.admitted i = true → s.barge? (chalBarge c) = some x → x.formed = false → chalRefused s true c = false →
    s.se.siteSeed.isSome = true → x.au.entry = some e → x.audit = 0 → x.au.ended = x.au.issued → x.au.incomplete = false →
    x.au.drawn ≠ 0 →
    Runs (.challengeClose i c) s fun t =>
      ((t.barge? (chalBarge c)).map (fun y => (y.audit, y.au.closed)) = some (1, true)) ∧ t.fld (R.AUn_STAT e) 3 0 = 1 ∧
      t.reg (R.AUn_PASS e) = s.reg (R.AUn_PASS e) + 1 ∧ (t.reg R.AU_IRQ_STAT).getLsbD 1 = true ∧ t.au = s.au ∧
      OnlyChanges s t [R.AU_IRQ_STAT, R.AUn_STAT e, R.AUn_PASS e] [.bus, .barges] []) ∧
  (∀ (s : State) (i : Initiator) (c : BitVec 128),
    isKeeper i = true → s.admitted i = true → chkOk c = false →
    Runs (.challengeExact i c) s fun t =>
      t.bus = .error ∧ Asserts s t 5 0 ∧ OnlyChanges s t [] [.bus, .bc] [])

/-- R157 to R160: bytes whose re-seal agrees go to an audit tile, a read error is retried up to READ_RETRY times and then UNREADABLE (6) with ES52; an
equal run ends its challenge, the last one with PASS, a differing one MISMATCH (2) with ES48. R165, R166: coverage is the mean of the window;
a cap below FLOOR raises ES50. -/
def Obligations.AuditRunsAndCoverage : Prop :=
  (∀ (s : State) (bs : List Byte) (c : Challenge) (a : Nat),
    readHead s = some c → s.au.reading = none → tileReached s c = true → tilePlace s c bs.length = some a →
    resealOk s c bs = true → c.method ≠ .input →
    Runs (.challengeReadDone (.bytes bs)) s fun t =>
      (t.au = { s.au with queue := s.au.queue.tail, running := s.au.running ++ [c], tiles := ⟨c.barge, c.tcoord, a, bs.length⟩ :: s.au.tiles.filter fun y => !(y.barge = c.barge && y.tcoord = c.tcoord) }) ∧
      t.bytes a bs.length = bs ∧ OnlyChanges s t [R.LNu_OVF (lnPort (chalPort s c)), R.LN_IRQ_STAT] [.au, .ln] [(a, bs.length)]) ∧
  (∀ (s : State) (c : Challenge),
    readHead s = some c → s.au.reading = none → c.tries < s.fld R.AU_CTRL 3 2 → tileReached s c = true →
    Runs (.challengeReadError) s fun t =>
      t.au = { s.au with queue := s.au.queue.tail, reading := some { c with tries := c.tries + 1 } } ∧
      Asserts s t (24 + (chalPort s c).val) 0 ∧
      OnlyChanges s t [R.LNu_OVF (lnPort (chalPort s c)), R.LN_IRQ_STAT] [.au, .bc, .ln] []) ∧
  (∀ (s : State) (c : Challenge) (r : TileRead),
    readHead s = some c → s.au.reading = none → c.tries < s.fld R.AU_CTRL 3 2 → tileReached s c = false →
    Runs (.challengeReadDone r) s fun t =>
      t.au = { s.au with queue := s.au.queue.tail, reading := some { c with tries := c.tries + 1 } } ∧ OnlyChanges s t [] [.au] []) ∧
  (∀ (s : State) (c : Challenge) (x : Barge) (e : Fin 64),
    s.au.reading = some c → s.barge? c.barge = some x → x.au.entry = some e → x.formed = false → x.audit = 0 →
    s.fld R.AU_CTRL 3 2 ≤ c.tries → tileReached s c = false →
    Runs (.challengeReadError) s fun t =>
      ((t.barge? c.barge).map (fun y => (y.audit, y.au.ended)) = some (6, x.au.ended + 1)) ∧ t.fld (R.AUn_STAT e) 3 0 = 6 ∧
      t.reg R.AU_FAIL_TCOORD = c.tcoord ∧ Asserts s t 52 0 ∧ t.au = { s.au with reading := none } ∧
      OnlyChanges s t [R.AU_IRQ_STAT, R.AUn_STAT e, R.AU_FAIL_BARGE, R.AU_FAIL_INFO, R.AU_FAIL_TCOORD] [.au, .barges, .bc] []) ∧
  (∀ (s : State) (b : Word) (q : Half) (c : Challenge) (x : Barge) (e : Fin 64),
    runningOf s b q = some c → inputsWait s b = false → s.se.siteSeed.isSome = true → auditCheck s c = some none →
    s.barge? b = some x → x.formed = false → x.au.entry = some e → x.audit = 0 → x.au.closed = true →
    x.au.ended + 1 = x.au.issued → x.au.incomplete = false → x.au.drawn ≠ 0 →
    Runs (.auditTileDone b q .complete) s fun t =>
      ((t.barge? b).map (fun y => (y.audit, y.au.ended)) = some (1, x.au.issued)) ∧
      t.reg (R.AUn_PASS e) = s.reg (R.AUn_PASS e) + 1 ∧ t.au.running = s.au.running.filter (· ≠ c) ∧ t.au.store = s.au.store ∧
      t.au.queue = s.au.queue ∧ OnlyChanges s t [R.AU_IRQ_STAT, R.AUn_STAT e, R.AUn_PASS e] [.au, .barges] []) ∧
  (∀ (s : State) (b : Word) (q : Half) (k : Nat) (c : Challenge) (x : Barge) (e : Fin 64),
    runningOf s b q = some c → inputsWait s b = false → s.se.siteSeed.isSome = true → auditCheck s c = some (some k) →
    s.barge? b = some x → x.au.entry = some e → x.formed = false → x.audit = 0 →
    Runs (.auditTileDone b q .complete) s fun t =>
      (t.barge? b).map (·.audit) = some 2 ∧ t.reg R.AU_FAIL_ELEM = BitVec.ofNat 32 k ∧ t.reg R.AU_FAIL_TCOORD = c.tcoord ∧
      t.reg R.AU_FAIL_BARGE = b ∧ Asserts s t 48 0 ∧
      OnlyChanges s t ((R.AU_FAIL_ELEM :: [R.AU_IRQ_STAT, R.AUn_STAT e, R.AU_FAIL_BARGE, R.AU_FAIL_INFO, R.AU_FAIL_TCOORD])) [.au, .barges, .bc] []) ∧
  (∀ (s : State) (b : Word) (q : Half) (c : Challenge) (x : Barge),
    runningOf s b q = some c → inputsWait s b = false → s.se.siteSeed = none → chalLayer s c = none →
    s.barge? b = some x → x.formed = false → x.au.closed = false →
    Runs (.auditTileDone b q .complete) s fun t =>
      ((t.barge? b).map (fun y => (y.audit, y.au.ended, y.au.incomplete)) = some (x.audit, x.au.ended + 1, true)) ∧
      Asserts s t 52 0 ∧ t.au.running = s.au.running.filter (· ≠ c) ∧ OnlyChanges s t [] [.au, .barges, .bc] []) ∧
  (∀ (s : State) (b : Word) (q : Half) (c : Challenge) (n : Nat),
    runningOf s b q = some c → s.flag R.AU_CTRL 1 = true → c.reissued = false → otherTile s c.atile.toNat = some n →
    Runs (.auditTileDone b q .lost) s fun t =>
      t.au.running = s.au.running.filter (· ≠ c) ++ [{ c with atile := BitVec.ofNat 5 n, reissued := true }] ∧
      t.au.queue = s.au.queue ∧ OnlyChanges s t [] [.au] []) ∧
  (∀ (s : State) (i : Initiator) (v : Word),
    isKeeper i = true → s.admitted i = true → s.fld (R.AUn_GOAL (bits v 5 0)) 31 16 = 0 →
    Runs (.coveragePush i v) s fun t =>
      let e := Fin.ofNat 64 (bits v 5 0); let all := ((v >>> 16).setWidth 16 :: s.au.cover[e]).take 511; let l := all.take (s.fld (R.AUn_WIN e) 8 0)
      t.au.cover[e] = all ∧ t.reg (R.AUn_COV e) = BitVec.ofNat 32 ((l.map BitVec.toNat).sum / max l.length 1 + 65536 * l.length) ∧
      (∀ k : Fin 64, k ≠ e → t.au.cover[k] = s.au.cover[k]) ∧ OnlyChanges s t [R.AUn_COV (bits v 5 0)] [.bus, .au] []) ∧
  (∀ (s : State) (i : Initiator) (e : Fin 64) (v : Word),
    isKeeper i = true → s.admitted i = true → v.toNat < s.fld (R.AUn_GOAL e) 31 16 →
    Runs (.capWrite i e v) s fun t =>
      t.reg (R.AUn_CAP e) = v ∧ t.reg R.AU_IRQ_STAT = s.reg R.AU_IRQ_STAT ||| 8#32 ∧ Asserts s t 50 0 ∧
      OnlyChanges s t [R.AUn_CAP e, R.AU_IRQ_STAT] [.bus, .bc] [])

/-- R169, Table 08-2: SN_LIB_VERIFY of the inactive bank starts a verification, whose finding becomes its status; a valid bank gives its manifest.
R173, R174: SN_LOAD starts a bring-in, which leaves the slot RESIDENT with its part in the tile's SRAM, or EMPTY with ES55.
R176 to R182: a check reports once: PASS where every rule passes, PLAUS (2) with ES54 where a rule fails, RUN_FAULT (6) for a lost run; an
envelope likewise over its rules, RANGE (2) with ES54. -/
def Obligations.LibrariesModelsPlausibilityAndEnvelopes : Prop :=
  (∀ (s : State) (i : Initiator) (v : Word),
    s.mayWrite i R.SN_LIB_VERIFY = true → v.getLsbD 0 ≠ activeBank s →
    Runs (.libVerify i v) s fun t =>
      t.sn = { s.sn with verifying := some (s.sn.verifying.getD (v.getLsbD 0)) } ∧
      t.se.sm3 = (if s.sn.verifying.isSome then s.se.sm3 else s.se.sm3 ++ [.library]) ∧
      (if v.getLsbD 0 then t.fld R.SN_LIB_STAT 7 4 else t.fld R.SN_LIB_STAT 3 0) = 1 ∧ t.bus = .ok 0 ∧
      OnlyChanges s t [R.SN_LIB_STAT] [.bus, .sn, .se] []) ∧
  (∀ (s : State) (b : Bool) (ms : List Model),
    s.sn.verifying = some b → sm3Serves s .library = true → holdUncIn s (bankBase s b) (libSize s) = none →
    ms.length < 4096 → ms.all (modelFormed s) = true →
    Runs (.libVerifyDone (.valid ms)) s fun t =>
      t.se.sm3 = s.se.sm3.erase .library ∧ manifest t b = ms ∧ t.sn.verifying = none ∧
      (if b then t.fld R.SN_LIB_STAT 7 4 else t.fld R.SN_LIB_STAT 3 0) = 2 ∧ t.fld R.SN_LIB_STAT 19 8 = ms.length ∧
      t.reg R.SN_IRQ_STAT = s.reg R.SN_IRQ_STAT ||| 64#32 ∧ OnlyChanges s t [R.SN_LIB_STAT, R.SN_IRQ_STAT] [.sn, .se] []) ∧
  (∀ (s : State) (b : Bool) (r : LibFinding),
    s.sn.verifying = some b → sm3Serves s .library = true → holdUncIn s (bankBase s b) (libSize s) = none →
    libCode (libFinding s r) ≠ 2 → libCode (libFinding s r) ≠ 6 →
    Runs (.libVerifyDone r) s fun t =>
      t.sn = { s.sn with verifying := none } ∧
      (if b then t.fld R.SN_LIB_STAT 7 4 else t.fld R.SN_LIB_STAT 3 0) = libCode (libFinding s r) ∧
      t.reg R.SN_IRQ_STAT = s.reg R.SN_IRQ_STAT ||| 64#32 ∧ OnlyChanges s t [R.SN_LIB_STAT, R.SN_IRQ_STAT] [.sn, .se] []) ∧
  (∀ (s : State) (b : Bool) (r : LibFinding),
    s.sn.verifying = some b → sm3Serves s .library = true → libRead s b (libFinding s r) = .holdError →
    Runs (.libVerifyDone r) s fun t =>
      t.sn = { s.sn with verifying := none } ∧ (if b then t.fld R.SN_LIB_STAT 7 4 else t.fld R.SN_LIB_STAT 3 0) = 6 ∧
      Asserts s t 64 0 ∧
      OnlyChanges s t (([R.HD_UNC_ADDR_LO, R.HD_UNC_ADDR_HI, R.HD_IRQ_STAT, R.LN_IRQ_STAT, R.SN_LIB_STAT, R.SN_IRQ_STAT] ++ (List.range 64).map R.LNu_OVF)) [.sn, .se, .hd, .bc, .ln] []) ∧
  (∀ (s : State) (i : Initiator) (v : Word) (g k : Nat),
    isKeeper i = true → s.admitted i = true → s.sn.load = none → loadPlan s (BitVec.ofNat 12 (bits v 11 0)) (Fin.ofNat 64 (bits v 17 12)) = .inr (g, k) →
    groupBroken s g = false →
    Runs (.modelLoad i v) s fun t =>
      let r := Fin.ofNat 64 (bits v 17 12)
      t.sn.slots[r] = ⟨.loading, BitVec.ofNat 12 (bits v 11 0), BitVec.ofNat 2 k, Fin.ofNat 8 g⟩ ∧
      t.sn.load = some (r, BitVec.ofNat 12 (bits v 11 0), BitVec.ofNat 2 k) ∧
      t.reg R.SN_LOAD_STAT = BitVec.ofNat 32 (17 + 32 * bits v 17 12 + 4096 * bits v 11 0) ∧
      (∀ q : Fin 64, q ≠ r → t.sn.slots[q] = s.sn.slots[q]) ∧ OnlyChanges s t [R.SN_LOAD_STAT] [.bus, .sn] []) ∧
  (∀ (s : State) (i : Initiator) (v : Word) (c : Nat),
    isKeeper i = true → s.admitted i = true → s.sn.load = none → loadPlan s (BitVec.ofNat 12 (bits v 11 0)) (Fin.ofNat 64 (bits v 17 12)) = .inl c →
    ((slotGroup s (Fin.ofNat 64 (bits v 17 12)).val).map (groupBroken s)).getD false = false →
    Runs (.modelLoad i v) s fun t =>
      t.reg R.SN_LOAD_STAT = BitVec.ofNat 32 (c + 32 * bits v 17 12 + 4096 * bits v 11 0) ∧
      OnlyChanges s t [R.SN_LOAD_STAT] [.bus] []) ∧
  (∀ (s : State) (r : Fin 64) (m : BitVec 12) (k : BitVec 2) (v : Variant) (l p : Nat),
    s.sn.load = some (r, m, k) → s.sn.slots[r].state = .loading → holdUncIn s (slotImage s r).1 (slotImage s r).2 = none →
    partsMatch s r = true → s.ports.seq = [] → slotVariant s s.sn.slots[r] = some v → slotTiles s s.sn.slots[r] = [l] →
    holder s l = some p →
    Runs (.modelLoadDone .read) s fun t =>
      let at_ := slotOffset s s.sn.slots[r].group.val (r.val - slotFirst s s.sn.slots[r].group.val)
      t.sn.slots[r] = { s.sn.slots[r] with state := .resident } ∧ t.sn.load = none ∧
      t.reg R.SN_LOAD_STAT = BitVec.ofNat 32 (32 * r.val + 4096 * m.toNat) ∧
      t.bytes (tileByte p at_) (1024 * v.partKib) = s.bytes (bankBase s (activeBank s) + v.off + 8 * v.tiles) (1024 * v.partKib) ∧
      OnlyChanges s t [R.SN_LOAD_STAT, R.SN_IRQ_STAT] [.sn, .ports, .tiles] [(tileByte p (slotOffset s s.sn.slots[r].group.val (r.val - slotFirst s s.sn.slots[r].group.val)), 1024 * v.partKib)]) ∧
  (∀ (s : State) (r : Fin 64) (m : BitVec 12) (k : BitVec 2),
    s.sn.load = some (r, m, k) →
    Runs (.modelLoadDone .holdError) s fun t =>
      t.sn.slots[r] = emptySlot ∧ t.sn.load = none ∧ t.reg R.SN_LOAD_STAT = BitVec.ofNat 32 (6 + 32 * r.val + 4096 * m.toNat) ∧
      (((t.bc.lines.drop s.bc.lines.length).map fun l => (l.src, l.chan)) = [(64#7, 0#6), (55#7, 0#6)]) ∧
      OnlyChanges s t (([R.HD_UNC_ADDR_LO, R.HD_UNC_ADDR_HI, R.HD_IRQ_STAT, R.LN_IRQ_STAT, R.SN_LOAD_STAT, R.SN_IRQ_STAT] ++ (List.range 64).map R.LNu_OVF)) [.sn, .hd, .bc, .ln] []) ∧
  (∀ (s : State) (r : Fin 64) (m : BitVec 12) (k : BitVec 2),
    s.sn.load = some (r, m, k) → s.sn.slots[r].state = .loading → holdUncIn s (slotImage s r).1 (slotImage s r).2 = none →
    partsMatch s r = false →
    Runs (.modelLoadDone .read) s fun t =>
      t.sn.slots[r] = emptySlot ∧ t.sn.load = none ∧ t.reg R.SN_LOAD_STAT = BitVec.ofNat 32 (5 + 32 * r.val + 4096 * m.toNat) ∧
      Asserts s t 55 0 ∧ OnlyChanges s t [R.SN_LOAD_STAT, R.SN_IRQ_STAT] [.sn, .bc] []) ∧
  (∀ (s : State) (b : Word) (x : Fin 64) (y : Barge) (ws : List (Half × List Byte)) (u : SnRun) (v : List Byte),
    s.barge? b = some y → checkOpen s y x = true → y.formed = false → (y.checks.any fun c => c.1 = x) = false →
    y.refLast = true → doneRun s b x = some u → preCodes s x y (.windows ws) .read = [] → runView s u = some v →
    ((checkRules s x).zipIdx.all fun p => ruleCode s x y ws v p.2 p.1 == (1, false)) = true →
    Runs (.plausibilityEval b x (.windows ws) .read) s fun t =>
      (t.barge? b).map (·.checks) = some (y.checks ++ [(x, 1, some u.token)]) ∧ t.fld (R.SCHKx_STAT x) 3 0 = 1 ∧
      t.reg (R.SCHKx_PASS x) = s.reg (R.SCHKx_PASS x) + 1 ∧ t.sn = s.sn ∧
      OnlyChanges s t [R.SCHKx_STAT x, R.SCHKx_PASS x] [.barges] []) ∧
  (∀ (s : State) (b : Word) (x : Fin 64) (y : Barge) (ws : List (Half × List Byte)) (u : SnRun) (v : List Byte) (k : Nat),
    s.barge? b = some y → checkOpen s y x = true → y.formed = false → (y.checks.any fun c => c.1 = x) = false →
    y.refLast = true → doneRun s b x = some u → preCodes s x y (.windows ws) .read = [] → runView s u = some v →
    worstRule ((checkRules s x).zipIdx.map fun p => ruleCode s x y ws v p.2 p.1) = (2, k) →
    Runs (.plausibilityEval b x (.windows ws) .read) s fun t =>
      (t.barge? b).map (·.checks) = some (y.checks ++ [(x, 2, some u.token)]) ∧ t.fld (R.SCHKx_STAT x) 3 0 = 2 ∧
      t.reg R.SN_FAIL_BARGE = b ∧ t.reg R.SN_FAIL_INFO = BitVec.ofNat 32 (2 + 32 * x.val + 65536 * k) ∧ Asserts s t 54 0 ∧
      OnlyChanges s t [R.SCHKx_STAT x, R.SN_FAIL_BARGE, R.SN_FAIL_INFO, R.SN_IRQ_STAT] [.barges, .sn, .bc] []) ∧
  (∀ (s : State) (b : Word) (x : Fin 64) (y : Barge) (a : AccRead) (u : SnRun) (w : ViewRead) (c : BitVec 4),
    s.barge? b = some y → checkOpen s y x = true → y.formed = false → (y.checks.any fun c => c.1 = x) = false →
    doneRun s b x = some u → minBy (fun c d => decide (c < d)) (preCodes s x y a w) = some c →
    Runs (.plausibilityEval b x a w) s fun t =>
      (t.barge? b).map (·.checks) = some (y.checks ++ [(x, c, some u.token)]) ∧ t.fld (R.SCHKx_STAT x) 3 0 = c.toNat ∧ t.sn = s.sn ∧
      t.bc = (if y.refLast then valuesRead s y a else s).bc ∧
      OnlyChanges s t (([R.SCHKx_STAT x, R.SN_FAIL_BARGE, R.SN_FAIL_INFO, R.SN_IRQ_STAT, R.LN_IRQ_STAT] ++ (List.range 64).map R.LNu_OVF)) [.barges, .bc, .ln] []) ∧
  (∀ (s : State) (b : Word) (x : Fin 64) (y : Barge) (a : AccRead) (v : ViewRead),
    s.barge? b = some y → checkOpen s y x = true → y.formed = false → (y.checks.any fun c => c.1 = x) = false →
    y.refLast = false → checkUnavailable s x = false → checkLost s y x = true → doneRun s b x = none →
    Runs (.plausibilityEval b x a v) s fun t =>
      (t.barge? b).map (·.checks) = some (y.checks ++ [(x, 6, none)]) ∧ t.fld (R.SCHKx_STAT x) 3 0 = 6 ∧ t.sn = s.sn ∧
      OnlyChanges s t [R.SCHKx_STAT x, R.SN_FAIL_BARGE, R.SN_FAIL_INFO, R.SN_IRQ_STAT] [.barges] []) ∧
  (∀ (s : State) (b : Word) (x : Fin 64) (y : Barge) (a : AccRead) (v : ViewRead),
    s.barge? b = some y → checkOpen s y x = true → y.formed = false → (y.checks.any fun c => c.1 = x) = false →
    checkUnavailable s x = true → doneRun s b x = none → (y.refLast = true → a ≠ .unreadable) →
    Runs (.plausibilityEval b x a v) s fun t =>
      (t.barge? b).map (·.checks) = some (y.checks ++ [(x, 5, none)]) ∧ t.fld (R.SCHKx_STAT x) 3 0 = 5 ∧ t.sn = s.sn ∧
      OnlyChanges s t [R.SCHKx_STAT x, R.SN_FAIL_BARGE, R.SN_FAIL_INFO, R.SN_IRQ_STAT] [.barges] []) ∧
  (∀ (s : State) (b : Word) (y : Barge) (e : Fin 64) (ws : List (Half × List Byte)),
    s.barge? b = some y → envOfId s (netId y) = some e → sentOn s = true → y.lamp = none → y.stage = .delivered →
    y.refLast = true → y.env = 0 → loggedLate s 4 b = false → y.formed = false → envJudge s y e ws = (1, 0) →
    Runs (.envelopeEval b (.windows ws)) s fun t =>
      (t.barge? b).map (·.env) = some 1 ∧ t.fld (R.ENVx_STAT e) 3 0 = 1 ∧ t.reg (R.ENVx_PASS e) = s.reg (R.ENVx_PASS e) + 1 ∧
      t.sn.refs = ⟨BitVec.ofNat 16 (netId y), b, y.origin, ws⟩ :: s.sn.refs.filter (·.net ≠ BitVec.ofNat 16 (netId y)) ∧
      OnlyChanges s t [R.ENVx_STAT e, R.ENVx_PASS e] [.barges, .sn] []) ∧
  (∀ (s : State) (b : Word) (y : Barge) (e : Fin 64) (ws : List (Half × List Byte)) (k : Nat),
    s.barge? b = some y → envOfId s (netId y) = some e → sentOn s = true → y.lamp = none → y.stage = .delivered →
    y.refLast = true → y.env = 0 → loggedLate s 4 b = false → y.formed = false → envJudge s y e ws = (2, k) →
    Runs (.envelopeEval b (.windows ws)) s fun t =>
      (t.barge? b).map (·.env) = some 2 ∧ t.fld (R.ENVx_STAT e) 3 0 = 2 ∧ t.reg R.SN_FAIL_BARGE = b ∧
      t.reg R.SN_FAIL_INFO = BitVec.ofNat 32 (18 + 32 * e.val + 65536 * k) ∧ Asserts s t 54 0 ∧
      OnlyChanges s t [R.ENVx_STAT e, R.SN_FAIL_BARGE, R.SN_FAIL_INFO, R.SN_IRQ_STAT] [.barges, .sn, .bc] [])

/-- R185, R187: a lamp whose record is absent at its deadline is MISSING (4) with ES55; the age test raises ES53 once for a passed lamp that is no
longer fresh. R190 to R192: a slice starts entry 15 on an idle tile or is deferred; a tile older than LFI raises ES49 once. -/
def Obligations.LampsAndSelfTest : Prop :=
  (∀ (s : State) (b : Word) (y : Barge) (l : Fin 256),
    s.barge? b = some y → y.lamp = some l → y.stage = .delivered → late s.now.t y.lampDue = true → lampLacks s y = true →
    y.lampRes = 0 → y.formed = false →
    Runs (.lampDeadline b) s fun t =>
      (t.barge? b).map (·.lampRes) = some 4 ∧ t.fld (R.LMPl_STAT l) 3 0 = 4 ∧
      t.fld (R.LMPl_STAT l) 31 16 = min (s.fld (R.LMPl_STAT l) 31 16 + 1) 0xFFFF ∧
      t.reg R.SN_IRQ_STAT = s.reg R.SN_IRQ_STAT ||| 8#32 ∧ Asserts s t 55 0 ∧
      OnlyChanges s t [R.LMPl_STAT l, R.SN_IRQ_STAT] [.barges, .bc] []) ∧
  (∀ (s : State),
    Runs (.lampAgeTest) s fun t =>
      (∀ l : Fin 256, (s.flag (R.LMPl_CFG l) 0 && s.flag (R.LMPl_STAT l) 4 && !s.flag (R.LMPl_STAT l) 5 && !lampFresh s l) = true → t.reg (R.LMPl_STAT l) = s.reg (R.LMPl_STAT l) ||| 0x20#32) ∧
      (∀ l : Fin 256, (s.flag (R.LMPl_CFG l) 0 && s.flag (R.LMPl_STAT l) 4 && !s.flag (R.LMPl_STAT l) 5 && !lampFresh s l) = false → t.reg (R.LMPl_STAT l) = s.reg (R.LMPl_STAT l)) ∧
      OnlyChanges s t (((List.range 256).map R.LMPl_STAT)) [.bc] []) ∧
  (∀ (s : State) (i : Initiator) (v : Word) (p : Fin 36),
    isKeeper i = true → s.admitted i = true → bits v 5 0 = p.val → s.flag R.ST_CTRL 0 = true → s.tiles[p].run = .idle →
    workQueued s p = false → gateOpen s = true → entryStart s p 15 ≠ 0 →
    Runs (.selftestStart i v) s fun t =>
      t.tiles[p].run = issuing s p ∧ t.tiles[p].entry = 15 ∧ t.tiles[p].pc = entryStart s p 15 ∧ t.reg (R.TL_CYCLES p) = 0 ∧
      (∀ q : Fin 36, q ≠ p → t.tiles[q] = s.tiles[q]) ∧
      OnlyChanges s t ((R.TL_CYCLES p :: (List.range 64).map R.RESr_RUNS)) [.bus, .tiles, .sn] []) ∧
  (∀ (s : State) (i : Initiator) (v : Word) (p : Fin 36),
    isKeeper i = true → s.admitted i = true → bits v 5 0 = p.val → s.tiles[p].run ≠ .idle →
    Runs (.selftestStart i v) s fun t =>
      t.fld R.ST_DEFER 31 0 = min (s.fld R.ST_DEFER 31 0 + 1) 0xFFFFFFFF ∧ t.reg R.SN_IRQ_STAT = s.reg R.SN_IRQ_STAT ||| 0x20#32 ∧
      OnlyChanges s t [R.ST_DEFER, R.SN_IRQ_STAT] [.bus] []) ∧
  (∀ (s : State) (p : Fin 36),
    tileActive s p = true → s.fld R.ST_CTRL 31 16 < aktAge s p → s.sn.aktLate.contains p = false →
    Runs (.selftestAgeExceeded p) s fun t =>
      t.sn = { s.sn with aktLate := s.sn.aktLate ++ [p] } ∧ Asserts s t 49 0 ∧ OnlyChanges s t [] [.sn, .bc] [])

/-- R27, R28, R43, R198, R199: a decided barge gets one final record with the next RSEQ, its verdict in byte 1; at its deadline from the evidence
present; a PENDING barge whose decision is not PASS is REVOKED (6) with ES57; formers that differ abandon it with ES61.
R30, R195, R200, R210: the oldest formed record is released: to the enabled SPI mailbox, the recorder, and, when final, its barge ends. R207: a
VALID pin whose record is older than TMO falls with ES63. R208: a readback mismatch raises ES62. -/
def Obligations.VerdictsRecordsReleaseAndPins : Prop :=
  (∀ (s : State) (b : Word) (x : Barge) (n : Fin 64) (v : Verdict),
    s.barge? b = some x → s.wr.ready = true → x.checks = [] → itsTurn s x = true → x.net = some n → x.formed = false →
    verdictNow s x = some v → x.pendRseq = none → v.cause ≠ 3 → v.code ≠ 6 →
    Runs (.verdictForm b false) s fun t =>
      ((t.lc.formed.drop s.lc.formed.length).map (fun r => (r.barge, r.isFinal, r.pend, r.rseq, recVerdict r.bytes)) = [(b, true, false, s.reg R.LC_RSEQ, v.code.toNat)]) ∧
      t.lc.formed.take s.lc.formed.length = s.lc.formed ∧ t.reg R.LC_RSEQ = State.nextSeq (s.reg R.LC_RSEQ) ∧
      ((t.barge? b).map (fun y => (y.formed, y.final)) = some (true, some (v.code, v.cause))) ∧
      t.reg R.LC_IRQ_STAT = s.reg R.LC_IRQ_STAT ||| 1#32 ∧ t.fld (R.NETx_STAT n) 3 0 = v.code.toNat ∧
      (v.code = 1 → t.reg (R.NETx_PASS n) = s.reg (R.NETx_PASS n) + 1) ∧ t.bc.lines = s.bc.lines ∧
      OnlyChanges s t [R.LC_RSEQ, R.LC_IRQ_STAT, R.NETx_STAT n, R.NETx_PASS n, R.LC_LATE, R.LC_REVOKES] [.lc, .au, .barges, .bc] []) ∧
  (∀ (s : State) (b : Word) (x : Barge) (n : Fin 64) (v : Verdict) (q : Word),
    s.barge? b = some x → s.wr.ready = true → x.checks = [] → itsTurn s x = true → x.net = some n → x.formed = false →
    verdictNow s x = some v → x.pendRseq = some q → v.cause ≠ 3 → v.code ≠ 1 →
    Runs (.verdictForm b false) s fun t =>
      ((t.lc.formed.drop s.lc.formed.length).map (fun r => (r.barge, r.isFinal, r.pend, r.rseq, recVerdict r.bytes)) = [(b, true, false, s.reg R.LC_RSEQ, 6)]) ∧
      t.lc.formed.take s.lc.formed.length = s.lc.formed ∧ t.reg R.LC_RSEQ = State.nextSeq (s.reg R.LC_RSEQ) ∧
      (t.barge? b).map (·.formed) = some true ∧ t.fld R.LC_REVOKES 31 0 = min (s.fld R.LC_REVOKES 31 0 + 1) 0xFFFFFFFF ∧
      t.fld (R.NETx_STAT n) 3 0 = 6 ∧ Asserts s t 57 0 ∧
      OnlyChanges s t [R.LC_RSEQ, R.LC_IRQ_STAT, R.NETx_STAT n, R.NETx_PASS n, R.LC_LATE, R.LC_REVOKES] [.lc, .au, .barges, .bc] []) ∧
  (∀ (s : State) (b : Word) (x : Barge),
    s.barge? b = some x → s.wr.ready = true → itsTurn s x = true → x.formed = false → verdictNow s x = none →
    pendable s x = true → pendingCount s < s.fld R.LC_CTRL 5 1 →
    Runs (.verdictForm b false) s fun t =>
      ((t.lc.formed.drop s.lc.formed.length).map (fun r => (r.barge, r.isFinal, r.pend, r.rseq, recVerdict r.bytes)) = [(b, false, true, s.reg R.LC_RSEQ, 5)]) ∧
      t.lc.formed.take s.lc.formed.length = s.lc.formed ∧ t.reg R.LC_RSEQ = State.nextSeq (s.reg R.LC_RSEQ) ∧
      (t.barge? b).map (·.pendRseq) = some (some (s.reg R.LC_RSEQ)) ∧ OnlyChanges s t [R.LC_RSEQ] [.lc, .barges] []) ∧
  (∀ (s : State) (b : Word) (x : Barge),
    s.barge? b = some x → s.wr.ready = true → itsTurn s x = true → x.formed = false → (verdictNow s x).isSome = true →
    Runs (.verdictForm b true) s fun t =>
      ((t.barge? b).map (fun y => (y.formerBad, y.final)) = some (true, some (7, 10))) ∧ t.lc = s.lc ∧ Asserts s t 61 0 ∧
      OnlyChanges s t [] [.barges, .bc] []) ∧
  (∀ (s : State) (b : Word) (x : Barge) (n : Fin 64) (v : Verdict),
    s.barge? b = some x → s.wr.ready = true → x.checks = [] → itsTurn s x = true → x.net = some n → x.formed = false →
    isFinal s x = false → missed x.domain s.now x.verdict = true → decideBarge s x = some v → x.pendRseq = none →
    v.cause = 3 → v.code ≠ 6 →
    Runs (.verdictDeadlineMissed b) s fun t =>
      ((t.lc.formed.drop s.lc.formed.length).map (fun r => (r.barge, r.isFinal, r.pend, r.rseq, recVerdict r.bytes)) = [(b, true, false, s.reg R.LC_RSEQ, v.code.toNat)]) ∧
      t.lc.formed.take s.lc.formed.length = s.lc.formed ∧ t.reg R.LC_RSEQ = State.nextSeq (s.reg R.LC_RSEQ) ∧
      (t.barge? b).map (·.formed) = some true ∧ (t.reg R.LC_IRQ_STAT).getLsbD 2 = true ∧
      t.fld R.LC_LATE 31 0 = min (s.fld R.LC_LATE 31 0 + 1) 0xFFFFFFFF ∧ Asserts s t 56 0 ∧
      OnlyChanges s t [R.LC_RSEQ, R.LC_IRQ_STAT, R.NETx_STAT n, R.NETx_PASS n, R.LC_LATE, R.LC_REVOKES] [.lc, .au, .barges, .bc] []) ∧
  (∀ (s : State) (b : Word) (x : Barge) (n : Fin 64),
    s.barge? b = some x → s.wr.ready = true → x.checks = [] → itsTurn s x = true → x.net = some n → nextAbandon s = some x →
    isFinal s x = false → x.safeState = true →
    Runs (.abandonRecord) s fun t =>
      ((t.lc.formed.drop s.lc.formed.length).map (fun r => (r.barge, r.isFinal, r.pend, r.rseq, recVerdict r.bytes)) = [(b, true, false, s.reg R.LC_RSEQ, if x.pendRseq.isSome then 6 else 7)]) ∧
      t.lc.formed.take s.lc.formed.length = s.lc.formed ∧ t.reg R.LC_RSEQ = State.nextSeq (s.reg R.LC_RSEQ) ∧
      (t.barge? b).map (·.formed) = some true ∧ t.fld (R.NETx_STAT n) 3 0 = (if x.pendRseq.isSome then 6 else 7) ∧
      OnlyChanges s t [R.LC_RSEQ, R.LC_IRQ_STAT, R.NETx_STAT n, R.NETx_PASS n, R.LC_LATE, R.LC_REVOKES] [.lc, .au, .barges, .bc] []) ∧
  (∀ (s : State) (r : Rec) (rest : List Rec),
    s.wr.ready = true → s.lc.formed = r :: rest → r.isFinal = true → r.start = false → s.flag R.SPI_CFG 0 = true →
    s.lc.records.length < 1024 → (∀ c : Fin 2, s.flag (R.CANc_CFG c) 0 = false) → (s.hd.filled = true → shutHold s (recBase s + 64 * ((s.reg R.HD_REC_HEAD).toNat % logSlots s)) 64 = false) →
    Runs (.recordRelease) s fun t =>
      t.lc.formed = rest ∧ t.lc.records = s.lc.records ++ [r] ∧ t.barges = s.barges.filter (·.num ≠ r.barge) ∧
      (∀ b ∈ t.sl.ring, b.barge = r.barge → b.freed = true) ∧ (∀ e ∈ t.au.store, e.barge ≠ r.barge) ∧
      (∀ e ∈ t.mi.store, e.barge ≠ r.barge) ∧
      OnlyChanges s t ((R.HD_REC_HEAD :: R.HD_IRQ_STAT :: R.SN_LIB_STAT :: R.LN_IRQ_STAT :: (List.range 4).map R.BRKn_REQ ++ (List.range 64).map R.LNu_OVF)) [.sl, .mr, .mi, .au, .sn, .lc, .hd, .sio, .barges, .ln, .se] [(recBase s + 64 * ((s.reg R.HD_REC_HEAD).toNat % logSlots s), 64)]) ∧
  (∀ (s : State) (v : Fin 4),
    s.lc.valids[v].level = true → s.fld (R.VALv_CFG v) 23 8 ≤ msSince s s.lc.valids[v].released →
    Runs (.validTimeout v) s fun t =>
      t.lc.valids[v] = { s.lc.valids[v] with level := false, stale := true } ∧
      (∀ w : Fin 4, w ≠ v → t.lc.valids[w] = s.lc.valids[w]) ∧ Asserts s t 63 0 ∧
      OnlyChanges s t (((List.range 4).map R.BRKn_REQ)) [.lc, .bc, .sio] []) ∧
  (∀ (s : State) (p : GatePin),
    Runs (.pinReadbackMismatch p) s fun t =>
      Asserts s t 62 0 ∧ t.bc.levels = s.bc.levels ∧ OnlyChanges s t [] [.bc] [])

/-- R209, R210, Tables 09-6, 09-7: MB_NEXT windows the oldest record, MB_DATA reads it half-word by half-word, MB_ACK with its RSEQ removes it, a
wrong value is refused (ST 2); the notices likewise; a bad frame counts, answers its status and raises ES59. -/
def Obligations.SpiMailbox : Prop :=
  (∀ (s : State) (r : Rec) (rest : List Rec),
    s.flag R.SPI_CFG 0 = true → s.lc.records = r :: rest →
    Runs (.mbNext 1#16) s fun t =>
      t.lc = { s.lc with recWin := ⟨r.bytes, some (r.rseq.setWidth 16), 0⟩, spiSt := 0, spiData := 0, spiCnt := s.lc.spiCnt + 1 } ∧
      OnlyChanges s t [] [.lc] []) ∧
  (∀ (s : State) (v : Half),
    s.flag R.SPI_CFG 0 = true → s.lc.records = [] →
    Runs (.mbNext v) s fun t =>
      t.lc = { s.lc with spiSt := 2, spiData := 0, spiCnt := s.lc.spiCnt + 1 } ∧ OnlyChanges s t [] [.lc] []) ∧
  (∀ (s : State) (k : Half),
    s.flag R.SPI_CFG 0 = true → s.lc.recWin.key = some k → s.lc.recWin.ptr < 32 →
    Runs (.mbData) s fun t =>
      t.lc = { s.lc with recWin := { s.lc.recWin with ptr := s.lc.recWin.ptr + 1 }, spiSt := 0, spiData := halfAt s.lc.recWin.bytes s.lc.recWin.ptr, spiCnt := s.lc.spiCnt + 1 } ∧
      OnlyChanges s t [] [.lc] []) ∧
  (∀ (s : State) (v : Half),
    s.flag R.SPI_CFG 0 = true → s.lc.recWin.key = some v →
    Runs (.mbAck v) s fun t =>
      t.lc = { s.lc with records := s.lc.records.tail, recWin := ⟨[], none, 0⟩, spiSt := 0, spiData := 0, spiCnt := s.lc.spiCnt + 1 } ∧
      OnlyChanges s t [] [.lc] []) ∧
  (∀ (s : State) (v : Half),
    s.flag R.SPI_CFG 0 = true → s.lc.recWin.key ≠ some v →
    Runs (.mbAck v) s fun t =>
      t.lc = { s.lc with spiSt := 2, spiData := 0, spiCnt := s.lc.spiCnt + 1 } ∧ OnlyChanges s t [] [.lc] []) ∧
  (∀ (s : State) (n : Word × List Byte) (rest : List (Word × List Byte)),
    s.flag R.SPI_CFG 0 = true → s.lc.notices = n :: rest →
    Runs (.ntNext 1#16) s fun t =>
      t.lc = { s.lc with ntWin := ⟨n.2, some (n.1.setWidth 16), 0⟩, spiSt := 0, spiData := 0, spiCnt := s.lc.spiCnt + 1 } ∧
      OnlyChanges s t [] [.lc] []) ∧
  (∀ (s : State) (k : Half),
    s.flag R.SPI_CFG 0 = true → s.lc.ntWin.key = some k → s.lc.ntWin.ptr < 16 →
    Runs (.ntData) s fun t =>
      t.lc = { s.lc with ntWin := { s.lc.ntWin with ptr := s.lc.ntWin.ptr + 1 }, spiSt := 0, spiData := halfAt s.lc.ntWin.bytes s.lc.ntWin.ptr, spiCnt := s.lc.spiCnt + 1 } ∧
      OnlyChanges s t [] [.lc] []) ∧
  (∀ (s : State) (v : Half),
    s.flag R.SPI_CFG 0 = true → s.lc.ntWin.key = some v →
    Runs (.ntAck v) s fun t =>
      (t.lc = { s.lc with notices := s.lc.notices.filter (fun n => n.1.setWidth 16 ≠ v), ntWin := ⟨[], none, 0⟩, spiSt := 0, spiData := 0, spiCnt := s.lc.spiCnt + 1 }) ∧
      OnlyChanges s t [] [.lc] []) ∧
  (∀ (s : State),
    s.flag R.SPI_CFG 0 = true →
    Runs (.mbTimeLo) s fun t =>
      t.lc = { s.lc with timeHi := (s.timeNs >>> 16).setWidth 16, spiSt := 0, spiData := s.timeNs.setWidth 16, spiCnt := s.lc.spiCnt + 1 } ∧
      OnlyChanges s t [] [.lc] []) ∧
  (∀ (s : State) (w : Word),
    s.flag R.SPI_CFG 0 = true → spiCrc w ≠ w.setWidth 8 →
    Runs (.spiFrameBad (.bits w)) s fun t =>
      t.lc = { s.lc with crcErrs := min (s.lc.crcErrs + 1) 255, spiSt := 1, spiData := 0, spiCnt := s.lc.spiCnt + 1 } ∧
      Asserts s t 59 0 ∧ OnlyChanges s t [] [.lc, .bc] []) ∧
  (∀ (s : State),
    s.flag R.SPI_CFG 0 = true →
    Runs (.spiFrameBad .framing) s fun t =>
      t.lc = { s.lc with frameErrs := min (s.lc.frameErrs + 1) 255, spiSt := 3, spiData := 0, spiCnt := s.lc.spiCnt + 1 } ∧
      Asserts s t 59 0 ∧ OnlyChanges s t [] [.lc, .bc] [])

/-- R212: a frame that has left frees the bus for the next one; one that stays past CANc_TX_TO, error passive and bus-off raise ES60; a received
frame is acknowledged and discarded. -/
def Obligations.CanControllers : Prop :=
  (∀ (s : State) (c : Fin 2) (f : CanFrame),
    s.lc.cans[c].onBus = some f → s.lc.cans[c].busOff = false →
    Runs (.canFrameSent c) s fun t =>
      t.lc.cans[c].onBus = s.lc.cans[c].queue.head? ∧ t.lc.cans[c].queue = s.lc.cans[c].queue.tail ∧ t.lc.cans[c].busOff = false ∧
      (∀ d : Fin 2, d ≠ c → t.lc.cans[d] = s.lc.cans[d]) ∧ OnlyChanges s t [] [.lc] []) ∧
  (∀ (s : State) (c : Fin 2) (f : CanFrame),
    s.lc.cans[c].onBus = some f → usCycles (s.fld (R.CANc_TX_TO c) 15 0) ≤ s.cycle - s.lc.cans[c].started →
    Runs (.canTxTimeout c) s fun t =>
      Asserts s t 60 0 ∧ OnlyChanges s t [] [.bc] []) ∧
  (∀ (s : State) (c : Fin 2),
    Runs (.canBusOff c .busOff) s fun t =>
      t.lc.cans[c].busOff = true ∧ t.lc.cans[c].onBus = none ∧
      t.lc.cans[c].queue = s.lc.cans[c].onBus.toList ++ s.lc.cans[c].queue ∧ Asserts s t 60 0 ∧
      (∀ d : Fin 2, d ≠ c → t.lc.cans[d] = s.lc.cans[d]) ∧ OnlyChanges s t [] [.lc, .bc] []) ∧
  (∀ (s : State) (c : Fin 2),
    Runs (.canBusOff c .errorPassive) s fun t =>
      t.lc.cans[c].passive = true ∧ t.lc.cans[c].queue = s.lc.cans[c].queue ∧ Asserts s t 60 0 ∧
      (∀ d : Fin 2, d ≠ c → t.lc.cans[d] = s.lc.cans[d]) ∧ OnlyChanges s t [] [.lc, .bc] []) ∧
  (∀ (s : State) (c : Fin 2),
    Runs (.canFrameReceived c) s fun t =>
      t.lc.cans[c].queue = s.lc.cans[c].queue ∧ t.lc.cans[c].onBus = s.lc.cans[c].onBus ∧
      (∀ d : Fin 2, d ≠ c → t.lc.cans[d] = s.lc.cans[d]) ∧ OnlyChanges s t [] [.lc] [])

/-- R226, R228, R229: SOURCE_EVENT takes the oldest asserted line; an event of a source that is neither reserved, retired, glinted nor masked is
counted under its policy, with ERR_STAT, the event registers and a log slot; below its threshold nothing reacts. R227, R236: a retired
channel's event has no effect, a masked one sets CONSEQ_STAT alone. -/
def Obligations.EventsAreCounted : Prop :=
  (∀ (s : State) (l : Line) (rest : List Line),
    s.bc.lines = l :: rest → isReservedSource (l.src.toNat) = false → channelExists (l.src.toNat) (l.chan.toNat) = true →
    unitRetired s (l.src.toNat) (l.chan.toNat) = false → isMasked s (l.src.toNat) (l.chan.toNat) = false →
    glintOn s l = none → spareFails s l = false → (countUp s (s.reg (R.POLs_CFG l.src.toNat)) (s.reg (R.POLs_W l.src.toNat)) l.src (countChan l.src.toNat l.chan)).count < s.fld (R.POLs_CFG l.src.toNat) 11 4 →
    (s.hd.filled = true → shutHold s (recBase s + 64 * ((s.reg R.HD_REC_HEAD).toNat % logSlots s)) 64 = false) →
    Runs (.sourceEvent .line) s fun t =>
      let c := countUp s (s.reg (R.POLs_CFG l.src.toNat)) (s.reg (R.POLs_W l.src.toNat)) l.src (countChan l.src.toNat l.chan)
      t.bc.lines = rest ∧ counterOf t l.src (countChan l.src.toNat l.chan) = some c ∧
      t.reg (R.POLs_CNT l.src.toNat) = BitVec.ofNat 32 (min c.count 255 + 256 * c.chan.toNat) ∧
      t.flag (R.ERR_STATn (l.src.toNat / 32)) (l.src.toNat % 32) = true ∧ t.reg R.BC_EVT_T = s.now.t ∧ t.bc.safe = s.bc.safe ∧
      OnlyChanges s t ([R.BC_FIRST, R.ERR_STATn (l.src.toNat / 32), R.BC_EVT_T, R.POLs_CNT l.src.toNat, R.BC_IRQ_STAT, R.HD_REC_HEAD, R.HD_IRQ_STAT, R.SN_LIB_STAT, R.LN_IRQ_STAT] ++ (List.range 64).map R.LNu_OVF) [.bc, .hd, .sn, .ln, .se] [(recBase s + 64 * ((s.reg R.HD_REC_HEAD).toNat % logSlots s), 64)]) ∧
  (∀ (s : State) (l : Line) (rest : List Line),
    s.bc.lines = l :: rest → (isReservedSource l.src.toNat || !channelExists l.src.toNat l.chan.toNat || unitRetired s l.src.toNat l.chan.toNat) = true →
    Runs (.sourceEvent .line) s fun t =>
      t.bc = { s.bc with lines := rest } ∧ OnlyChanges s t [] [.bc] []) ∧
  (∀ (s : State) (l : Line) (rest : List Line),
    s.bc.lines = l :: rest → isReservedSource (l.src.toNat) = false → channelExists (l.src.toNat) (l.chan.toNat) = true →
    unitRetired s (l.src.toNat) (l.chan.toNat) = false → isMasked s l.src.toNat l.chan.toNat = true →
    glintOn s l = none →
    Runs (.sourceEvent .line) s fun t =>
      t.bc = { s.bc with lines := rest } ∧ t.flag (R.CONSEQ_STATn (l.src.toNat / 32)) (l.src.toNat % 32) = true ∧
      (t.reg R.BC_IRQ_STAT).getLsbD 4 = true ∧ OnlyChanges s t [R.CONSEQ_STATn (l.src.toNat / 32), R.BC_IRQ_STAT] [.bc] []) ∧
  (∀ (s : State) (k : BitVec 7),
    k ≠ 120#7 →
    Runs (.sourceEvent (.levelOff k)) s fun t =>
      t.bc = { s.bc with levels := s.bc.levels.filter (· ≠ k) } ∧ OnlyChanges s t [] [.bc] []) ∧
  (∀ (s : State) (i : Initiator) (v : Word),
    isKeeper i = true → s.admitted i = true → bits v 31 16 = 0xF0CE → inService s = true → isReservedSource (bits v 6 0) = false →
    channelExists (bits v 6 0) (bits v 13 8) = true → unitRetired s (bits v 6 0) (bits v 13 8) = false →
    isMasked s (bits v 6 0) (bits v 13 8) = false → (s.bc.glints.all fun g => g.src != BitVec.ofNat 7 (bits v 6 0)) = true →
    spareFails s ⟨BitVec.ofNat 7 (bits v 6 0), BitVec.ofNat 6 (bits v 13 8), 0, none, s.cycle⟩ = false →
    (countUp s (s.reg (R.POLs_CFG (bits v 6 0))) (s.reg (R.POLs_W (bits v 6 0))) (BitVec.ofNat 7 (bits v 6 0)) (countChan (bits v 6 0) (BitVec.ofNat 6 (bits v 13 8)))).count < s.fld (R.POLs_CFG (bits v 6 0)) 11 4 →
    (s.hd.filled = true → shutHold s (recBase s + 64 * ((s.reg R.HD_REC_HEAD).toNat % logSlots s)) 64 = false) →
    Runs (.bcForce i v) s fun t =>
      t.flag (R.ERR_STATn (bits v 6 0 / 32)) (bits v 6 0 % 32) = true ∧ t.reg R.BC_EVT_T = s.now.t ∧ t.bus = .ok 0 ∧
      t.bc.lines = s.bc.lines ∧
      OnlyChanges s t ([R.BC_FIRST, R.ERR_STATn (bits v 6 0 / 32), R.BC_EVT_T, R.POLs_CNT (bits v 6 0), R.BC_IRQ_STAT, R.HD_REC_HEAD, R.HD_IRQ_STAT, R.SN_LIB_STAT, R.LN_IRQ_STAT] ++ (List.range 64).map R.LNu_OVF) [.bus, .bc, .hd, .sn, .ln, .se] [(recBase s + 64 * ((s.reg R.HD_REC_HEAD).toNat % logSlots s), 64)]) ∧
  (∀ (s : State) (source : BitVec 7) (channel : BitVec 6),
    Runs (.countWindowClose source channel) s fun t =>
      (t.bc.counters = s.bc.counters.map fun c => if c.src == source && c.chan == countChan source.toNat channel && !windowOpen s (s.reg (R.POLs_CFG source.toNat)) (s.reg (R.POLs_W source.toNat)) c then { c with isOpen := false } else c) ∧
      OnlyChanges s t [] [.bc] [])

/-- R232, R233, Table 11-1: a source that becomes severe with class C3, and a disagreement of the reaction paths for more than 2 TCLK, bring the safe state: SAFE_N and
VALID low, brake gates off, both ports held OFF, Sluice suspended, undecided barges abandoned, TRIG pins inactive; BC_SAFE_CAUSE names the
first. The gates of a channel that has not left APPLIED are off beforehand.
R231, R232, R236, R238, R240: BC_MASK_OPEN opens an interval from the next cycle on, which ends; the PWRCUT_N pulse ends; a glint opens its
window, goes over to readback and counts its result; BC_RET_CLR frees a retired tile in SERVICE. -/
def Obligations.SafeStateMasksAndGlints : Prop :=
  (∀ (s : State) (l : Line) (rest : List Line),
    s.bc.lines = l :: rest → isReservedSource (l.src.toNat) = false → channelExists (l.src.toNat) (l.chan.toNat) = true →
    unitRetired s (l.src.toNat) (l.chan.toNat) = false → isMasked s (l.src.toNat) (l.chan.toNat) = false →
    glintOn s l = none → retKind l.src.toNat = none → l.src ≠ 121#7 → s.fld (R.POLs_CFG l.src.toNat) 2 0 = 3 →
    s.fld (R.POLs_CFG l.src.toNat) 11 4 = 1 → s.bc.safeSaved = false → (∀ n : Fin 4, leftApplied s.sio.brakes[n] = false → s.sio.brakes[n].hsg = false ∧ s.sio.brakes[n].lsg = false) →
    Runs (.sourceEvent .line) s fun t =>
      SafeState t ∧ PinsFollow t ∧ t.bc.safe = true ∧ t.bc.lineA = true ∧ t.bc.lineB = true ∧ t.sl.suspended = true ∧
      (∀ n : Fin 2, t.mr.ports[n].perst = true ∧ t.mr.ports[n].state = .off ∧ t.mr.ports[n].heldOff = true) ∧
      ((t.barges.all fun y => isFinal t y || y.safeState) = true) ∧ (∀ j : Fin 8, t.mp.trigs[j] = none) ∧
      t.flag (R.SEVERE_STATn (l.src.toNat / 32)) (l.src.toNat % 32) = true ∧
      t.reg R.BC_SAFE_CAUSE = BitVec.ofNat 32 (l.src.toNat + 0x300 + 2 ^ 31) ∧ t.reg R.BC_SAFE_T = s.now.t ∧
      t.bc.pwrcut = s.bc.pwrcut) ∧
  (∀ (s : State) (c : Nat),
    s.bc.split = some c → 2 < s.cycle - c → s.bc.safeSaved = false → (∀ n : Fin 4, leftApplied s.sio.brakes[n] = false → s.sio.brakes[n].hsg = false ∧ s.sio.brakes[n].lsg = false) →
    Runs (.reactionPathDisagree .lasts) s fun t =>
      SafeState t ∧ PinsFollow t ∧ t.bc.safe = true ∧ t.bc.lineA = true ∧ t.bc.lineB = true ∧ t.sl.suspended = true ∧
      (∀ n : Fin 2, t.mr.ports[n].perst = true ∧ t.mr.ports[n].state = .off ∧ t.mr.ports[n].heldOff = true) ∧
      ((t.barges.all fun y => isFinal t y || y.safeState) = true) ∧ (∀ j : Fin 8, t.mp.trigs[j] = none) ∧ t.bc.path = true ∧
      t.reg R.BC_SAFE_CAUSE = BitVec.ofNat 32 (0xFF + 0x300 + 2 ^ 31) ∧ (t.reg R.BC_IRQ_STAT).getLsbD 1 = true ∧
      t.bc.pwrcut = s.bc.pwrcut) ∧
  (∀ (s : State),
    s.bc.lineB = false → (∀ n : Fin 4, leftApplied s.sio.brakes[n] = false → s.sio.brakes[n].hsg = false ∧ s.sio.brakes[n].lsg = false) →
    Runs (.reactionPathDisagree (.flips true)) s fun t =>
      PinsFollow t ∧ SafeState t ∧ t.bc.lineB = true ∧ t.bc.lineA = s.bc.lineA ∧ t.bc.safe = s.bc.safe ∧
      (∀ n : Fin 2, t.mr.ports[n].perst = true ∧ t.mr.ports[n].state = .off ∧ t.mr.ports[n].heldOff = true)) ∧
  (∀ (s : State) (i : Initiator) (v : Word),
    isKeeper i = true → s.admitted i = true → polMask s (bits v 6 0) ≠ 0 → s.fld (R.POLs_MINT (bits v 6 0)) 6 0 ≠ 0 →
    Runs (.bcMaskOpen i v) s fun t =>
      t.bc = { s.bc with masks := s.bc.masks ++ [⟨BitVec.ofNat 7 (bits v 6 0), BitVec.ofNat 6 (bits v 13 8), polMask s (bits v 6 0), s.cycle + 1, s.cycle + usCycles (s.fld (R.POLs_MINT (bits v 6 0)) 6 0)⟩] } ∧
      t.bus = .ok 0 ∧ OnlyChanges s t [] [.bus, .bc] []) ∧
  (∀ (s : State),
    (s.bc.levels.all fun k => !(s.bc.masks.any fun m => decide (m.until_ ≤ s.cycle) && m.bits.getLsbD k.toNat)) = true →
    Runs (.maskIntervalEnd) s fun t =>
      (t.bc = { s.bc with masks := s.bc.masks.filter fun m => decide (s.cycle < m.until_) }) ∧ OnlyChanges s t [] [.bc] []) ∧
  (∀ (s : State) (k : BitVec 7),
    s.bc.levels = [k] → isLevelSource k.toNat = true → (s.bc.masks.all fun m => decide (m.until_ ≤ s.cycle)) = true →
    (s.bc.masks.any fun m => m.bits.getLsbD k.toNat) = true → (s.bc.glints.all fun g => g.src != k) = true →
    (countUp s (s.reg (R.POLs_CFG k.toNat)) (s.reg (R.POLs_W k.toNat)) k 0).count < s.fld (R.POLs_CFG k.toNat) 11 4 →
    (s.hd.filled = true → shutHold s (recBase s + 64 * ((s.reg R.HD_REC_HEAD).toNat % logSlots s)) 64 = false) →
    Runs (.maskIntervalEnd) s fun t =>
      t.bc.masks = [] ∧ t.bc.levels = s.bc.levels ∧ t.flag (R.ERR_STATn (k.toNat / 32)) (k.toNat % 32) = true ∧
      counterOf t k 0 = some (countUp s (s.reg (R.POLs_CFG k.toNat)) (s.reg (R.POLs_W k.toNat)) k 0) ∧ t.reg R.BC_EVT_T = s.now.t ∧
      OnlyChanges s t ([R.BC_FIRST, R.ERR_STATn (k.toNat / 32), R.BC_EVT_T, R.POLs_CNT k.toNat, R.BC_IRQ_STAT, R.HD_REC_HEAD, R.HD_IRQ_STAT, R.SN_LIB_STAT, R.LN_IRQ_STAT] ++ (List.range 64).map R.LNu_OVF) [.bc, .hd, .sn, .ln, .se] [(recBase s + 64 * ((s.reg R.HD_REC_HEAD).toNat % logSlots s), 64)]) ∧
  (∀ (s : State) (c : Nat),
    s.bc.pwrcut = some c → c ≤ s.cycle →
    Runs (.pwrcutPulseEnd) s fun t =>
      t.bc = { s.bc with pwrcut := none } ∧ OnlyChanges s t [] [.bc] []) ∧
  (∀ (s : State) (unit : BitVec 6),
    unit.toNat < 16 → glintDue s 5 unit.toNat false = true →
    Runs (.glintIssue (.checker 5 unit false)) s fun t =>
      let k := glintKey 5 unit.toNat false
      t.bc.glints = s.bc.glints ++ [⟨k, !s.wr.ready && (lastGlint s k).isNone, 80, 0, BitVec.ofNat 16 (0x10 + unit.toNat), 80, s.reg (R.POLs_CFG 80), s.reg (R.POLs_W 80), polMask s 80, s.fld (R.POLs_MINT 80) 6 0, s.cycle + 32, 32, false, false, false, false, false⟩] ∧
      t.bc.issued = s.bc.issued.filter (·.1 ≠ k) ++ [(k, s.cycle)] ∧
      t.ty = { s.ty with nextGlint := Fin.ofNat 16 (unit.toNat + 1) } ∧ OnlyChanges s t [] [.bc, .ty] []) ∧
  (∀ (s : State) (row : Fin 9) (unit : BitVec 6) (sel : Bool),
    s.wr.ready = true → glintNamed row.val unit.toNat sel = true → glintDue s row.val unit.toNat sel = true →
    glintSkipped s row.val unit.toNat (glintTarget s row.val unit.toNat sel) = true →
    Runs (.glintIssue (.checker row unit sel)) s fun t =>
      t.fld R.BC_GLINT_STAT 15 0 = (s.fld R.BC_GLINT_STAT 15 0 + 1) % 65536 ∧ t.bc.glints = s.bc.glints ∧
      lastGlint t (glintKey row.val unit.toNat sel) = some s.cycle ∧ OnlyChanges s t [R.BC_GLINT_STAT] [.bc, .ty] []) ∧
  (∀ (s : State) (r : PathReadback),
    s.wr.ready = false → 5 ≤ s.wr.step → lastGlint s 9 = none → r.inputs = BitVec.allOnes 128 → r.lineA = 0x1F →
    r.lineB = 0x1F →
    Runs (.glintIssue (.path r)) s fun t =>
      t.bc.passed = s.bc.passed ++ [9] ∧ t.fld R.BC_GLINT_STAT 15 0 = (s.fld R.BC_GLINT_STAT 15 0 + 1) % 65536 ∧
      t.bc.startGlintOk = s.bc.startGlintOk ∧ OnlyChanges s t [R.BC_GLINT_STAT] [.bc] []) ∧
  (∀ (s : State) (r : PathReadback),
    s.wr.ready = false → 5 ≤ s.wr.step → lastGlint s 9 = none → (r.inputs ≠ BitVec.allOnes 128 ∨ r.lineA ≠ 0x1F ∨ r.lineB ≠ 0x1F) →
    Runs (.glintIssue (.path r)) s fun t =>
      t.bc.startGlintOk = false ∧ t.bc.passed = s.bc.passed ∧ t.fld R.BC_GLINT_STAT 18 16 = 1 ∧
      OnlyChanges s t [R.BC_GLINT_STAT, R.BC_IRQ_STAT] [.bc] []) ∧
  (∀ (s : State),
    Runs (.glintWindowEnd) s fun t =>
      (∀ g ∈ s.bc.glints, g.readback = false → g.windowEnd ≤ s.cycle → { g with readback := true } ∈ t.bc.glints) ∧
      t.bc.glints.length = s.bc.glints.length ∧ t.bc.lines = s.bc.lines ∧ OnlyChanges s t [] [.bc] []) ∧
  (∀ (s : State) (g : Glint),
    s.bc.glints.filter (fun x => x.readback && decide (x.windowEnd + x.length ≤ s.cycle)) = [g] → s.bc.glints.find? (fun x => x.src == g.src && x.chan == g.chan) = some g →
    (s.bc.lines.all fun l => l.src != g.src || l.chan != g.chan) = true → glintCode g = 0 → s.bc.deferred = [] →
    Runs (.glintReadbackEnd) s fun t =>
      (t.bc.glints = s.bc.glints.filter fun x => !(x.src == g.src && x.chan == g.chan)) ∧
      t.fld R.BC_GLINT_STAT 15 0 = (s.fld R.BC_GLINT_STAT 15 0 + 1) % 65536 ∧
      t.bc.passed = s.bc.passed ++ (if g.atStart then [g.key] else []) ∧ t.bc.lines = s.bc.lines ∧
      OnlyChanges s t [R.BC_GLINT_STAT] [.bc] []) ∧
  (∀ (s : State) (i : Initiator) (unit : BitVec 6),
    isKeeper i = true → s.admitted i = true → unit.toNat < 16 → (s.bc.glints.all fun g => g.src != 80#7) = true →
    Runs (.bcGlintReq i (BitVec.ofNat 32 (5 + 16 * unit.toNat))) s fun t =>
      t.bc.glints = s.bc.glints ++ [⟨glintKey 5 unit.toNat false, false, 80, 0, BitVec.ofNat 16 (0x10 + unit.toNat), 80, s.reg (R.POLs_CFG 80), s.reg (R.POLs_W 80), polMask s 80, s.fld (R.POLs_MINT 80) 6 0, s.cycle + 32, 32, false, false, false, false, false⟩] ∧
      t.bus = .ok 0 ∧ OnlyChanges s t [] [.bus, .bc] []) ∧
  (∀ (s : State) (i : Initiator),
    isKeeper i = true → s.admitted i = true → glintSkipped s 4 0 (glintTarget s 4 0 false) = false →
    Runs (.bcGlintReq i 4#32) s fun t =>
      t.bc.glints = s.bc.glints ++ [⟨4, false, BitVec.ofNat 7 (glintSource (glintBit s)), 0, BitVec.ofNat 16 (glintBit s), 37, s.reg (R.POLs_CFG 37), s.reg (R.POLs_W 37), polMask s 37, s.fld (R.POLs_MINT 37) 6 0, s.cycle + 4, 4, false, false, false, false, false⟩] ∧
      t.fld R.GLINT_STAT 23 16 = (glintBit s + 1) % 256 ∧ t.fld R.GLINT_STAT 15 0 = s.fld R.GLINT_STAT 15 0 ∧ t.bus = .ok 0 ∧
      OnlyChanges s t [R.GLINT_STAT] [.bus, .bc] []) ∧
  (∀ (s : State) (i : Initiator) (v : Word),
    isKeeper i = true → s.admitted i = true → glintNamed (bits v 3 0) (bits v 9 4) (v.getLsbD 10) = false →
    Runs (.bcGlintReq i v) s fun t =>
      t.bus = .error ∧ Asserts s t 5 0 ∧ OnlyChanges s t [] [.bus, .bc] []) ∧
  (∀ (s : State) (i : Initiator) (v : Word) (p : Fin 36),
    isKeeper i = true → s.admitted i = true → bits v 31 16 = 0xC1EA → inService s = true → s.flag (R.BC_RETi_INFO (bits v 5 0)) 31 = true →
    s.flag (R.BC_RETi_INFO (bits v 5 0)) 13 = true → retKind (s.fld (R.BC_RETi_INFO (bits v 5 0)) 6 0) = some .tile →
    s.fld (R.BC_RETi_INFO (bits v 5 0)) 12 7 = p.val →
    Runs (.bcRetClr i v) s fun t =>
      t.reg (R.BC_RETi_INFO (bits v 5 0)) = s.reg (R.BC_RETi_INFO (bits v 5 0)) &&& ~~~ 0x2000#32 ∧ t.reg (R.TL_RETIRE p) = 0 ∧
      t.tiles[p] = { s.tiles[p] with run := .off } ∧
      ((t.bc.counters.all fun c => retKind c.src.toNat != some .tile || c.chan.toNat != p.val) = true) ∧ t.bus = .ok 0 ∧
      OnlyChanges s t ((R.BC_RETi_INFO (bits v 5 0) :: R.TL_RETIRE p :: (List.range 128).map R.POLs_CNT)) [.bus, .bc, .tiles] [])

/-- R246 to R248: the first key arms, the second inside the window serves; a service before OPEN fails EARLY (2), another value BAD_KEY (3), the count
at CLOSE LATE (1), an arm of 10 ticks KEY_LAPSE (4): each raises the watchdog's source, counts, and pulses WDO_N where asked. R252: a failure
that an open glint window absorbs pulses and resets nothing. -/
def Obligations.WatchdogService : Prop :=
  (∀ (s : State) (i : Initiator) (w : Fin 4),
    ownerCode i = dogDomain s w + 1 → s.admitted i = true → dogOn s w = true → s.wd.dogs[w].armed = none →
    Runs (.wdtKeyArm i w) s fun t =>
      t.wd.dogs[w] = { s.wd.dogs[w] with armed := some (dogNow s w) } ∧ (∀ v : Fin 4, v ≠ w → t.wd.dogs[v] = s.wd.dogs[v]) ∧
      t.bus = .ok 0 ∧ OnlyChanges s t [] [.bus, .wd] []) ∧
  (∀ (s : State) (i : Initiator) (w : Fin 4) (a : Nat),
    ownerCode i = dogDomain s w + 1 → s.admitted i = true → dogOn s w = true → s.wd.dogs[w].armed = some a →
    dogNow s w - a < 10 → s.fld (R.WDTw_OPEN w) 23 0 ≤ dogCount s w → dogCount s w < s.fld (R.WDTw_CLOSE w) 23 0 →
    Runs (.wdtKeyService i w) s fun t =>
      t.wd.dogs[w] = { s.wd.dogs[w] with base := some (dogNow s w), armed := none } ∧
      t.fld (R.WDTw_STAT w) 31 16 = (s.fld (R.WDTw_STAT w) 31 16 + 1) % 65536 ∧ t.bc = s.bc ∧
      (∀ v : Fin 4, v ≠ w → t.wd.dogs[v] = s.wd.dogs[v]) ∧ OnlyChanges s t [R.WDTw_STAT w] [.bus, .wd] []) ∧
  (∀ (s : State) (i : Initiator) (w : Fin 4) (a : Nat),
    ownerCode i = dogDomain s w + 1 → s.admitted i = true → dogOn s w = true → s.flag (R.WDTw_CFG w) 2 = false →
    glintGates s w .early = false → s.wd.dogs[w].armed = some a → dogNow s w - a < 10 → dogCount s w < s.fld (R.WDTw_OPEN w) 23 0 →
    Runs (.wdtKeyService i w) s fun t =>
      t.fld (R.WDTw_STAT w) 2 0 = 2 ∧ t.fld (R.WDTw_STAT w) 15 8 = min (s.fld (R.WDTw_STAT w) 15 8 + 1) 255 ∧
      t.reg R.WD_IRQ_STAT = s.reg R.WD_IRQ_STAT ||| BitVec.ofNat 32 (2 ^ w.val) ∧
      t.wd.dogs[w] = { s.wd.dogs[w] with base := some (dogNow s w), armed := none } ∧
      (s.flag (R.WDTw_CFG w) 1 = true → t.wd.wdo = some (s.wd.ticks + 1000 * s.fld R.WD_CTRL 6 0)) ∧ Asserts s t (88 + w.val) 0 ∧
      (∀ v : Fin 4, v ≠ w → t.wd.dogs[v] = s.wd.dogs[v]) ∧ OnlyChanges s t [R.WDTw_STAT w, R.WD_IRQ_STAT] [.bus, .wd, .bc] []) ∧
  (∀ (s : State) (i : Initiator) (w : Fin 4) (a : Nat),
    ownerCode i = dogDomain s w + 1 → s.admitted i = true → dogOn s w = true → glintGates s w .early = true →
    s.wd.dogs[w].armed = some a → dogNow s w - a < 10 → dogCount s w < s.fld (R.WDTw_OPEN w) 23 0 →
    Runs (.wdtKeyService i w) s fun t =>
      t.fld (R.WDTw_STAT w) 2 0 = 2 ∧ t.wd.wdo = s.wd.wdo ∧
      t.wd.dogs[w] = { s.wd.dogs[w] with base := some (dogNow s w), armed := none } ∧ Asserts s t (88 + w.val) 0 ∧
      (∀ v : Fin 4, v ≠ w → t.wd.dogs[v] = s.wd.dogs[v]) ∧ OnlyChanges s t [R.WDTw_STAT w, R.WD_IRQ_STAT] [.bus, .wd, .bc] []) ∧
  (∀ (s : State) (i : Initiator) (w : Fin 4) (v : Half),
    ownerCode i = dogDomain s w + 1 → s.admitted i = true → dogOn s w = true → s.flag (R.WDTw_CFG w) 2 = false →
    glintGates s w .badKey = false → ((s.wd.dogs[w].armed = none ∧ v ≠ 0x5A5A ∧ ¬(v = 0xA5A5 ∧ s.wd.dogs[w].lateAt = some s.wd.ticks)) ∨ (s.wd.dogs[w].armed.isSome = true ∧ v ≠ 0xA5A5)) →
    (s.wd.dogs[w].armed.all fun a => decide (dogNow s w - a < 10)) = true →
    Runs (.wdtBadKey i w v) s fun t =>
      t.fld (R.WDTw_STAT w) 2 0 = 3 ∧ t.fld (R.WDTw_STAT w) 15 8 = min (s.fld (R.WDTw_STAT w) 15 8 + 1) 255 ∧
      t.reg R.WD_IRQ_STAT = s.reg R.WD_IRQ_STAT ||| BitVec.ofNat 32 (2 ^ w.val) ∧
      t.wd.dogs[w] = { s.wd.dogs[w] with base := some (dogNow s w), armed := none } ∧
      (s.flag (R.WDTw_CFG w) 1 = true → t.wd.wdo = some (s.wd.ticks + 1000 * s.fld R.WD_CTRL 6 0)) ∧ Asserts s t (88 + w.val) 0 ∧
      (∀ v : Fin 4, v ≠ w → t.wd.dogs[v] = s.wd.dogs[v]) ∧ OnlyChanges s t [R.WDTw_STAT w, R.WD_IRQ_STAT] [.bus, .wd, .bc] []) ∧
  (∀ (s : State) (i : Initiator) (w : Fin 4),
    ownerCode i = dogDomain s w + 1 → s.admitted i = true → dogOn s w = true → s.wd.dogs[w].armed = none →
    s.wd.dogs[w].lateAt = some s.wd.ticks →
    Runs (.wdtKeyService i w) s fun t =>
      t.wd.dogs[w] = { s.wd.dogs[w] with lateAt := none } ∧ (∀ v : Fin 4, v ≠ w → t.wd.dogs[v] = s.wd.dogs[v]) ∧ t.bus = .ok 0 ∧
      OnlyChanges s t [] [.bus, .wd] []) ∧
  (∀ (s : State) (w : Fin 4),
    s.flag (R.WDTw_CFG w) 2 = false → glintGates s w .late = false → dogOn s w = true → s.wd.dogs[w].base.isSome = true →
    s.wd.dogs[w].frozen = none → s.fld (R.WDTw_CLOSE w) 23 0 ≤ dogCount s w →
    Runs (.wdtLate w) s fun t =>
      t.fld (R.WDTw_STAT w) 2 0 = 1 ∧ t.fld (R.WDTw_STAT w) 15 8 = min (s.fld (R.WDTw_STAT w) 15 8 + 1) 255 ∧
      t.reg R.WD_IRQ_STAT = s.reg R.WD_IRQ_STAT ||| BitVec.ofNat 32 (2 ^ w.val) ∧
      t.wd.dogs[w] = { s.wd.dogs[w] with base := some (dogNow s w), armed := none, lateAt := if s.wd.dogs[w].armed.isSome then some s.wd.ticks else none } ∧
      (s.flag (R.WDTw_CFG w) 1 = true → t.wd.wdo = some (s.wd.ticks + 1000 * s.fld R.WD_CTRL 6 0)) ∧ Asserts s t (88 + w.val) 0 ∧
      (∀ v : Fin 4, v ≠ w → t.wd.dogs[v] = s.wd.dogs[v]) ∧ OnlyChanges s t [R.WDTw_STAT w, R.WD_IRQ_STAT] [.wd, .bc] []) ∧
  (∀ (s : State) (w : Fin 4) (a : Nat),
    s.flag (R.WDTw_CFG w) 2 = false → glintGates s w .keyLapse = false → dogOn s w = true → s.wd.dogs[w].frozen = none →
    s.wd.dogs[w].armed = some a → 10 ≤ dogNow s w - a →
    Runs (.wdtKeyLapse w) s fun t =>
      t.fld (R.WDTw_STAT w) 2 0 = 4 ∧ t.fld (R.WDTw_STAT w) 15 8 = min (s.fld (R.WDTw_STAT w) 15 8 + 1) 255 ∧
      t.reg R.WD_IRQ_STAT = s.reg R.WD_IRQ_STAT ||| BitVec.ofNat 32 (2 ^ w.val) ∧
      t.wd.dogs[w] = { s.wd.dogs[w] with base := some (dogNow s w), armed := none } ∧
      (s.flag (R.WDTw_CFG w) 1 = true → t.wd.wdo = some (s.wd.ticks + 1000 * s.fld R.WD_CTRL 6 0)) ∧ Asserts s t (88 + w.val) 0 ∧
      (∀ v : Fin 4, v ≠ w → t.wd.dogs[v] = s.wd.dogs[v]) ∧ OnlyChanges s t [R.WDTw_STAT w, R.WD_IRQ_STAT] [.wd, .bc] []) ∧
  (∀ (s : State) (i : Initiator) (w : Fin 4) (a : Nat),
    ownerCode i = dogDomain s w + 1 → s.admitted i = true → dogOn s w = true → s.flag (R.WDTw_CFG w) 2 = false →
    glintGates s w .keyLapse = false → s.wd.dogs[w].armed = some a → 10 ≤ dogNow s w - a →
    Runs (.wdtKeyService i w) s fun t =>
      t.fld (R.WDTw_STAT w) 2 0 = 4 ∧ t.fld (R.WDTw_STAT w) 15 8 = min (s.fld (R.WDTw_STAT w) 15 8 + 1) 255 ∧
      t.reg R.WD_IRQ_STAT = s.reg R.WD_IRQ_STAT ||| BitVec.ofNat 32 (2 ^ w.val) ∧
      t.wd.dogs[w] = { s.wd.dogs[w] with base := some (dogNow s w), armed := none } ∧
      (s.flag (R.WDTw_CFG w) 1 = true → t.wd.wdo = some (s.wd.ticks + 1000 * s.fld R.WD_CTRL 6 0)) ∧ Asserts s t (88 + w.val) 0 ∧
      (∀ v : Fin 4, v ≠ w → t.wd.dogs[v] = s.wd.dogs[v]) ∧ OnlyChanges s t [R.WDTw_STAT w, R.WD_IRQ_STAT] [.bus, .wd, .bc] []) ∧
  (∀ (s : State) (i : Initiator) (w : Fin 4) (v : Half),
    ownerCode i = dogDomain s w + 1 → s.admitted i = true → dogOn s w = true → s.flag (R.WDTw_CFG w) 2 = true →
    s.wd.dogs[w].armed = none → v ≠ 0x5A5A → s.wd.dogs[w].lateAt = none →
    Runs (.wdtBadKey i w v) s fun t =>
      t.fld (R.WDTw_STAT w) 2 0 = 3 ∧ t.fld (R.WDTw_STAT w) 15 8 = min (s.fld (R.WDTw_STAT w) 15 8 + 1) 255 ∧
      t.wd.dogs[w].armed = none ∧ (glintGates s w .badKey = false → t.wd.dogs[w].base = none)) ∧
  (∀ (s : State) (i : Initiator) (w : Fin 4) (a : Nat),
    ownerCode i = dogDomain s w + 1 → s.admitted i = true → dogOn s w = true → s.flag (R.WDTw_CFG w) 2 = true →
    s.wd.dogs[w].armed = some a → dogNow s w - a < 10 → dogCount s w < s.fld (R.WDTw_OPEN w) 23 0 →
    Runs (.wdtKeyService i w) s fun t =>
      t.fld (R.WDTw_STAT w) 2 0 = 2 ∧ t.fld (R.WDTw_STAT w) 15 8 = min (s.fld (R.WDTw_STAT w) 15 8 + 1) 255 ∧
      t.wd.dogs[w].armed = none ∧ (glintGates s w .early = false → t.wd.dogs[w].base = none)) ∧
  (∀ (s : State) (w : Fin 4) (a : Nat),
    s.flag (R.WDTw_CFG w) 2 = true → dogOn s w = true → s.wd.dogs[w].frozen = none → s.wd.dogs[w].armed = some a →
    10 ≤ dogNow s w - a →
    Runs (.wdtKeyLapse w) s fun t =>
      t.fld (R.WDTw_STAT w) 2 0 = 4 ∧ t.fld (R.WDTw_STAT w) 15 8 = min (s.fld (R.WDTw_STAT w) 15 8 + 1) 255 ∧
      t.wd.dogs[w].armed = none ∧ (glintGates s w .keyLapse = false → t.wd.dogs[w].base = none)) ∧
  (∀ (s : State) (i : Initiator) (w : Fin 4),
    ownerCode i ≠ dogDomain s w + 1 → isKeeper i = true → s.scrapped = false →
    Runs (.wdtKeyArm i w) s fun t =>
      t.bus = .error ∧ t.wd = s.wd ∧ Asserts s t 5 0 ∧ OnlyChanges s t [] [.bus, .bc] [])

/-- R248, R250, R327: a failure with RST set resets its domain, recorded in the WD_RST registers, and the watchdog waits for it to leave reset. R253 to
R257: check-ins count; a boundary with too few raises ES92 and starts a new cycle. -/
def Obligations.WatchdogResetAndTasks : Prop :=
  (∀ (s : State) (w : Fin 4),
    dogOn s w = true → s.wd.dogs[w].base.isSome = true → s.wd.dogs[w].frozen = none → s.fld (R.WDTw_CLOSE w) 23 0 ≤ dogCount s w →
    s.flag (R.WDTw_CFG w) 2 = true → dogDomain s w = 0 → glintGates s w .late = false → domainHeld s w = false →
    causedNow s = false → s.kc.pairs[0] ≠ .lost →
    Runs (.wdtLate w) s fun t =>
      t.wd.dogs[w].base = none ∧ t.kc.pairs[0] = .standby ∧ t.fld R.WD_RST_CNT 15 0 = min (s.fld R.WD_RST_CNT 15 0 + 1) 0xFFFF ∧
      t.reg R.WD_RST_CAUSE = 0x80000000#32 ||| BitVec.ofNat 32 (w.val + 4) ∧ t.reg R.WD_RST_START = s.reg R.BC_STARTS ∧
      (∀ j, j < 0x80000 → t.byte (0x10000000 + j) = 0) ∧ (∀ a : Fin 4, t.byte (0x10000000 + a.val) = 0)) ∧
  (∀ (s : State) (e : Nat),
    s.wd.wdo = some e → e ≤ s.wd.ticks →
    Runs (.wdoPulseEnd) s fun t =>
      t.wd = { s.wd with wdo := none, wdoBad := none } ∧ OnlyChanges s t [] [.wd] []) ∧
  (∀ (s : State) (l : Bool) (c : Nat),
    l ≠ s.wd.wdo.isNone → s.wd.wdoBad = some (c, false) → 8 ≤ s.cycle - c →
    Runs (.wdoReadbackMismatch l) s fun t =>
      Asserts s t 95 0 ∧ t.wd = { s.wd with wdoBad := some (c, true) } ∧ OnlyChanges s t [] [.wd, .bc] []) ∧
  (∀ (s : State) (l : Bool),
    l ≠ s.wd.wdo.isNone → s.wd.wdoBad = none →
    Runs (.wdoReadbackMismatch l) s fun t =>
      t.wd = { s.wd with wdoBad := some (s.cycle, false) } ∧ OnlyChanges s t [] [.wd] []) ∧
  (∀ (s : State) (l : Bool),
    l = s.wd.wdo.isNone →
    Runs (.wdoReadbackMismatch l) s fun t =>
      t.wd = { s.wd with wdoBad := none } ∧ OnlyChanges s t [] [.wd] []) ∧
  (∀ (s : State) (i : Initiator) (v : Word),
    isKeeper i = true → s.admitted i = true → inService s = true → bits v 31 16 = 0x3C3C →
    Runs (.wdRstClr i v) s fun t =>
      t.reg R.WD_RST_CNT = 0 ∧ t.reg R.WD_RST_CAUSE = 0 ∧ t.reg R.WD_RST_START = 0 ∧ t.bus = .ok 0 ∧
      OnlyChanges s t [R.WD_RST_CNT, R.WD_RST_CAUSE, R.WD_RST_START] [.bus] []) ∧
  (∀ (s : State) (i : Initiator) (v : Word) (e : Fin 64),
    isKeeper i = true → s.admitted i = true → runsTasks s i = true → bits v 5 0 = e.val → s.flag (R.TSe_CFG e) 0 = true →
    s.flag (R.TSe_CFG e) 1 = false → s.wd.entities[e].frozen = none → ((endsAt s e).all fun c => decide (s.cycle ≤ c)) = true →
    s.fld (R.TSe_CFG e) 30 27 = 0 → s.wd.entities[e].count + 1 ≤ s.fld (R.TSe_CFG e) 26 19 →
    Runs (.tsCheckin i v) s fun t =>
      t.wd.entities[e] = { s.wd.entities[e] with count := s.wd.entities[e].count + 1 } ∧
      (∀ k : Fin 64, k ≠ e → t.wd.entities[k] = s.wd.entities[k]) ∧ t.bus = .ok 0 ∧ OnlyChanges s t [] [.bus, .wd] []) ∧
  (∀ (s : State) (i : Initiator) (v : Word) (e : Fin 64),
    isKeeper i = true → s.admitted i = true → runsTasks s i = true → bits v 5 0 = e.val → s.flag (R.TSe_CFG e) 0 = true →
    s.flag (R.TSe_CFG e) 1 = false → s.wd.entities[e].frozen = none → ((endsAt s e).all fun c => decide (s.cycle ≤ c)) = true →
    s.fld (R.TSe_CFG e) 30 27 = 0 → s.fld (R.TSe_CFG e) 26 19 < s.wd.entities[e].count + 1 → s.wd.entities[e].overRaised = false →
    Runs (.tsCheckin i v) s fun t =>
      t.wd.entities[e] = { s.wd.entities[e] with count := s.wd.entities[e].count + 1, overRaised := true } ∧
      t.fld (R.TSe_FAILS e) 31 16 = min (s.fld (R.TSe_FAILS e) 31 16 + 1) 0xFFFF ∧ t.fld R.TS_STAT 5 0 = e ∧
      t.fld R.TS_STAT 7 6 = 2 ∧ Asserts s t 93 0 ∧ OnlyChanges s t [R.TSe_FAILS e, R.TS_STAT, R.WD_IRQ_STAT] [.bus, .wd, .bc] []) ∧
  (∀ (s : State) (i : Initiator) (v : Word) (e : Fin 64) (c : Nat),
    isKeeper i = true → s.admitted i = true → runsTasks s i = true → bits v 5 0 = e.val → judged s e = true →
    s.flag (R.TSe_CFG e) 1 = false → endsAt s e = some c → c < s.cycle → s.fld (R.TSe_CFG e) 18 11 ≤ s.wd.entities[e].count →
    s.flag (R.TSe_CFG e) 31 = false → s.fld (R.TSe_CFG e) 30 27 = 0 → 1 ≤ s.fld (R.TSe_CFG e) 26 19 →
    Runs (.tsCheckin i v) s fun t =>
      t.wd.entities[e] = { s.wd.entities[e] with count := 1, overRaised := false, first := false, began := c, endAt := none } ∧
      (∀ k : Fin 64, k ≠ e → t.wd.entities[k] = s.wd.entities[k]) ∧ t.bus = .ok 0 ∧ OnlyChanges s t [] [.bus, .wd] []) ∧
  (∀ (s : State) (e : Fin 64) (c : Nat),
    judged s e = true → endsAt s e = some c → c < s.cycle → landsBy s e c = false → s.wd.entities[e].first = false →
    s.fld (R.TSe_CFG e) 18 11 ≤ s.wd.entities[e].count → s.flag (R.TSe_CFG e) 31 = false →
    Runs (.taskBoundary e) s fun t =>
      t.wd.entities[e] = { s.wd.entities[e] with count := 0, overRaised := false, first := false, began := c, endAt := none } ∧
      (∀ k : Fin 64, k ≠ e → t.wd.entities[k] = s.wd.entities[k]) ∧ OnlyChanges s t [] [.wd] []) ∧
  (∀ (s : State) (i : Initiator) (v : Word),
    isKeeper i = true → s.admitted i = true → runsTasks s i = false →
    Runs (.tsCheckin i v) s fun t =>
      t.wd = s.wd ∧ t.bus = .ok 0 ∧ OnlyChanges s t [] [.bus] []) ∧
  (∀ (s : State) (e : Fin 64) (c : Nat),
    judged s e = true → endsAt s e = some c → c < s.cycle → landsBy s e c = false → s.wd.entities[e].first = false →
    s.wd.entities[e].count < s.fld (R.TSe_CFG e) 18 11 → s.flag (R.TSe_CFG e) 31 = false →
    Runs (.taskBoundary e) s fun t =>
      t.wd.entities[e].count = 0 ∧ t.fld (R.TSe_FAILS e) 15 0 = min (s.fld (R.TSe_FAILS e) 15 0 + 1) 0xFFFF ∧
      t.fld R.TS_STAT 5 0 = e ∧ t.fld R.TS_STAT 7 6 = 1 ∧ Asserts s t 92 0 ∧
      OnlyChanges s t [R.TSe_FAILS e, R.TS_STAT, R.WD_IRQ_STAT] [.wd, .bc] []) ∧
  (∀ (s : State) (k : Fin 2) (d : Domain),
    d = (if k = 0 then .k0 else .k1) → s.kc.pairs[k] ≠ .standby →
    Runs (.domainLeavesReset d) s fun t =>
      (∀ w : Fin 4, dogDomain s w = k.val → dogOn s w = true → s.wd.dogs[w].base = none → t.wd.dogs[w] = { s.wd.dogs[w] with base := some (dogNow s w) }) ∧
      (∀ w : Fin 4, dogDomain s w ≠ k.val → t.wd.dogs[w] = s.wd.dogs[w]) ∧ OnlyChanges s t [] [.wd] []) ∧
  (∀ (s : State) (k : Fin 2) (d : Domain),
    d = (if k = 0 then .k0 else .k1) → s.kc.pairs[k] = .standby →
    Runs (.domainLeavesReset d) s fun t =>
      t.bytes (tcmBase k) s.hd.keeper.length = s.hd.keeper ∧ t.bc.glintFrom[k] = s.cycle ∧ t.kc = s.kc ∧
      OnlyChanges s t [] [.wd, .bc] [(tcmBase k, s.hd.keeper.length)]) ∧
  (∀ (s : State),
    Runs (.domainLeavesReset .harbour) s fun t =>
      (∀ w : Fin 4, dogDomain s w = 2 → dogOn s w = true → s.wd.dogs[w].base = none → t.wd.dogs[w] = { s.wd.dogs[w] with base := some (dogNow s w) }) ∧
      (∀ w : Fin 4, dogDomain s w ≠ 2 → t.wd.dogs[w] = s.wd.dogs[w]) ∧ OnlyChanges s t [] [.wd] [])

/-- R264, R265, R267: a release request of an APPLIED channel that meets every condition turns LSG on alone, HSG follows the confirmation within
SETTLE, and the channel is RELEASED once nodes and current agree within DECAY; a step that comes later has failed; a request whose conditions
fail is cleared again; an apply request turns both gates off. R263, R272: a reading that leaves a class or the current wrong beyond its time
locks the channel out with ES96 or ES97.
R268 to R271: a test pulse turns both gates off on one RELEASED channel at a time; at SETTLE it passes, or fails with ES98 and the lock-out; its end turns
both gates on; an off transition with both-off evidence that came within SETTLE and persists counts as a passed test. -/
def Obligations.BrakeChannelsAndTestPulses : Prop :=
  (∀ (s : State) (i : Initiator) (n : Fin 4),
    isKeeper i = true → s.admitted i = true → s.sio.brakes[n].state = .applied → mayRelease s n = true →
    Runs (.brakeReleaseRequest i n) s fun t =>
      t.sio.brakes[n].state = .releasing1 ∧ t.sio.brakes[n].hsg = false ∧ t.sio.brakes[n].lsg = true ∧
      t.sio.brakes[n].offFrom = none ∧ (∀ k : Fin 4, k ≠ n → t.sio.brakes[k] = s.sio.brakes[k]) ∧
      (s.sio.brakes[n].lsg = false → t.sio.brakes[n].since = s.cycle) ∧ t.flag (R.BRKn_REQ n) 0 = true ∧ t.bus = .ok 0 ∧
      OnlyChanges s t [R.BRKn_REQ n] [.bus, .sio] []) ∧
  (∀ (s : State) (i : Initiator) (n : Fin 4),
    isKeeper i = true → s.admitted i = true → leftApplied s.sio.brakes[n] = false → mayRelease s n = false →
    Runs (.brakeReleaseRequest i n) s fun t =>
      t.sio = s.sio ∧ t.flag (R.BRKn_REQ n) 0 = false ∧ OnlyChanges s t [R.BRKn_REQ n] [.bus] []) ∧
  (∀ (s : State) (i : Initiator) (n : Fin 4),
    isKeeper i = true → s.admitted i = true → leftApplied s.sio.brakes[n] = true →
    Runs (.brakeApplyRequest i n) s fun t =>
      t.sio.brakes[n].state = .applied ∧ t.sio.brakes[n].hsg = false ∧ t.sio.brakes[n].lsg = false ∧
      t.sio.brakes[n].offFrom = some (offBegan s s.sio.brakes[n]) ∧ (∀ k : Fin 4, k ≠ n → t.sio.brakes[k] = s.sio.brakes[k]) ∧
      t.flag (R.BRKn_REQ n) 0 = false ∧ OnlyChanges s t [R.BRKn_REQ n] [.bus, .sio] []) ∧
  (∀ (s : State) (n : Fin 4) (r : BrakeReading),
    s.sio.brakes[n].state = .releasing1 → s.cycle - s.sio.brakes[n].since ≤ settleTime s n → r.hi = .low →
    r.lo = .low →
    Runs (.releaseLsgConfirmed n r) s fun t =>
      t.sio.brakes[n].state = .releasing2 ∧ t.sio.brakes[n].hsg = true ∧ t.sio.brakes[n].lsg = true ∧ t.sio.brakes[n].reading = r ∧
      (∀ k : Fin 4, k ≠ n → t.sio.brakes[k] = s.sio.brakes[k]) ∧ (s.sio.brakes[n].hsg = false → t.sio.brakes[n].since = s.cycle) ∧
      OnlyChanges s t [] [.sio] []) ∧
  (∀ (s : State) (n : Fin 4) (r : BrakeReading),
    s.sio.brakes[n].state = .releasing1 → settleTime s n < s.cycle - s.sio.brakes[n].since → isLocked s n = false →
    s.flag (R.BRKn_CFG n) 0 = true →
    Runs (.releaseLsgConfirmed n r) s fun t =>
      t.sio.brakes[n].state = .locked ∧ t.sio.brakes[n].hsg = false ∧ t.sio.brakes[n].lsg = false ∧
      (∀ k : Fin 4, k ≠ n → t.sio.brakes[k] = s.sio.brakes[k]) ∧
      t.reg (R.BRKn_LOCK n) = BitVec.ofNat 32 (0x21 + 256 * s.fld R.BC_STARTS 7 0) ∧ t.flag (R.BRKn_REQ n) 0 = false ∧
      (t.reg R.SIO_IRQ_STAT).getLsbD 0 = true ∧ Asserts s t 96 n ∧
      OnlyChanges s t [R.BRKn_REQ n, R.BRKn_LOCK n, R.SIO_IRQ_STAT] [.sio, .bc] []) ∧
  (∀ (s : State) (n : Fin 4) (r : BrakeReading) (c : Nat),
    s.sio.brakes[n].state = .releasing2 → (s.cycle - s.sio.brakes[n].since ≤ settleTime s n ∨ firstRight s.sio.brakes[n] c ≤ settleTime s n) →
    s.cycle - s.sio.brakes[n].since ≤ decay s n → r.hi = .high → r.lo = .low → currentOn s n r = true →
    Runs (.releaseComplete n r c) s fun t =>
      t.sio.brakes[n].state = .released ∧ t.sio.brakes[n].hsg = true ∧ t.sio.brakes[n].lsg = true ∧ t.sio.brakes[n].reading = r ∧
      t.sio.brakes[n].tpFrom = s.cycle ∧ t.sio.brakes[n].tpRan = s.sio.brakes[n].tpRan ∧
      (∀ k : Fin 4, k ≠ n → t.sio.brakes[k] = s.sio.brakes[k]) ∧ OnlyChanges s t [] [.sio] []) ∧
  (∀ (s : State) (n : Fin 4) (r : BrakeReading) (c : Nat),
    s.sio.brakes[n].state = .releasing2 → settleTime s n < s.cycle - s.sio.brakes[n].since → settleTime s n < firstRight s.sio.brakes[n] c →
    isLocked s n = false → s.flag (R.BRKn_CFG n) 0 = true →
    Runs (.releaseComplete n r c) s fun t =>
      t.sio.brakes[n].state = .locked ∧ t.sio.brakes[n].hsg = false ∧ t.sio.brakes[n].lsg = false ∧
      (∀ k : Fin 4, k ≠ n → t.sio.brakes[k] = s.sio.brakes[k]) ∧
      t.reg (R.BRKn_LOCK n) = BitVec.ofNat 32 (0x21 + 256 * s.fld R.BC_STARTS 7 0) ∧ t.flag (R.BRKn_REQ n) 0 = false ∧
      (t.reg R.SIO_IRQ_STAT).getLsbD 0 = true ∧ Asserts s t 96 n ∧
      OnlyChanges s t [R.BRKn_REQ n, R.BRKn_LOCK n, R.SIO_IRQ_STAT] [.sio, .bc] []) ∧
  (∀ (s : State) (n : Fin 4) (r : BrakeReading) (c : Nat),
    s.sio.brakes[n].state = .releasing2 → (s.cycle - s.sio.brakes[n].since ≤ settleTime s n ∨ firstRight s.sio.brakes[n] c ≤ settleTime s n) →
    decay s n < s.cycle - s.sio.brakes[n].since → isLocked s n = false → s.flag (R.BRKn_CFG n) 0 = true →
    Runs (.releaseComplete n r c) s fun t =>
      t.sio.brakes[n].state = .locked ∧ t.sio.brakes[n].hsg = false ∧ t.sio.brakes[n].lsg = false ∧
      (∀ k : Fin 4, k ≠ n → t.sio.brakes[k] = s.sio.brakes[k]) ∧
      t.reg (R.BRKn_LOCK n) = BitVec.ofNat 32 (0x31 + 256 * s.fld R.BC_STARTS 7 0) ∧ t.flag (R.BRKn_REQ n) 0 = false ∧
      (t.reg R.SIO_IRQ_STAT).getLsbD 0 = true ∧ Asserts s t 97 n ∧
      OnlyChanges s t [R.BRKn_REQ n, R.BRKn_LOCK n, R.SIO_IRQ_STAT] [.sio, .bc] []) ∧
  (∀ (s : State) (n : Fin 4) (r : BrakeReading),
    switchFault (readBrake s n r) n = true → isLocked s n = false → s.flag (R.BRKn_CFG n) 0 = true →
    Runs (.brakeReadbackFault n r) s fun t =>
      t.sio.brakes[n].state = .locked ∧ t.sio.brakes[n].hsg = false ∧ t.sio.brakes[n].lsg = false ∧
      (∀ k : Fin 4, k ≠ n → t.sio.brakes[k] = s.sio.brakes[k]) ∧
      t.reg (R.BRKn_LOCK n) = BitVec.ofNat 32 (0x21 + 256 * s.fld R.BC_STARTS 7 0) ∧ t.flag (R.BRKn_REQ n) 0 = false ∧
      (t.reg R.SIO_IRQ_STAT).getLsbD 0 = true ∧ Asserts s t 96 n ∧
      OnlyChanges s t [R.BRKn_REQ n, R.BRKn_LOCK n, R.SIO_IRQ_STAT] [.sio, .bc] []) ∧
  (∀ (s : State) (n : Fin 4) (r : BrakeReading),
    switchFault (readBrake s n r) n = false → currentFault (readBrake s n r) n = true → isLocked s n = false →
    s.flag (R.BRKn_CFG n) 0 = true →
    Runs (.brakeReadbackFault n r) s fun t =>
      t.sio.brakes[n].state = .locked ∧ t.sio.brakes[n].hsg = false ∧ t.sio.brakes[n].lsg = false ∧
      (∀ k : Fin 4, k ≠ n → t.sio.brakes[k] = s.sio.brakes[k]) ∧
      t.reg (R.BRKn_LOCK n) = BitVec.ofNat 32 (0x31 + 256 * s.fld R.BC_STARTS 7 0) ∧ t.flag (R.BRKn_REQ n) 0 = false ∧
      (t.reg R.SIO_IRQ_STAT).getLsbD 0 = true ∧ Asserts s t 97 n ∧
      OnlyChanges s t [R.BRKn_REQ n, R.BRKn_LOCK n, R.SIO_IRQ_STAT] [.sio, .bc] []) ∧
  (∀ (s : State) (mv : Half),
    (mv.toNat < s.fld R.BRK_VS_CFG 15 0 ∨ s.fld R.BRK_VS_CFG 31 16 < mv.toNat) → (s.bc.levels.contains 102#7) = false →
    Runs (.brakeSupplyFault mv) s fun t =>
      t.sio.supply = mv ∧ t.bc.levels.contains 102#7 = true ∧
      (∀ n : Fin 4, isLocked t n = true ∧ (isLocked s n = false → t.sio.brakes[n].hsg = false ∧ t.sio.brakes[n].lsg = false)) ∧
      Asserts s t 102 0 ∧
      OnlyChanges s t (((List.range 4).map R.BRKn_REQ ++ (List.range 4).map R.BRKn_LOCK ++ [R.SIO_IRQ_STAT])) [.sio, .bc] []) ∧
  (∀ (s : State) (n : Fin 4),
    s.sio.brakes[n].state = .released → pulsePeriod s n ≤ tpCount s s.sio.brakes[n] → decay s n ≤ s.cycle - s.sio.brakes[n].tpFrom →
    s.sio.brakes.all (fun x => x.state != .test) = true →
    Runs (.testPulseStart n) s fun t =>
      t.sio.brakes[n].state = .test ∧ t.sio.brakes[n].hsg = false ∧ t.sio.brakes[n].lsg = false ∧
      t.sio.brakes[n].judge = some s.cycle ∧ t.sio.brakes[n].tpRan = tpCount s s.sio.brakes[n] ∧
      (∀ k : Fin 4, k ≠ n → t.sio.brakes[k] = s.sio.brakes[k]) ∧ (s.sio.brakes[n].hsg = true → t.sio.brakes[n].since = s.cycle) ∧
      OnlyChanges s t [] [.sio] []) ∧
  (∀ (s : State) (n : Fin 4) (r : BrakeReading) (c : Nat),
    s.sio.brakes[n].judge = some c → settleTime s n ≤ s.cycle - c → bothOff r = true →
    Runs (.testPulseJudge n r) s fun t =>
      t.sio.brakes[n].judge = none ∧ t.sio.brakes[n].testAt = s.cycle ∧ t.sio.brakes[n].tpRan = 0 ∧
      t.sio.brakes[n].tpFrom = s.cycle ∧ t.sio.brakes[n].state = s.sio.brakes[n].state ∧ t.sio.brakes[n].hsg = s.sio.brakes[n].hsg ∧
      t.sio.brakes[n].lsg = s.sio.brakes[n].lsg ∧ t.fld (R.BRKn_TESTS n) 15 0 = (s.fld (R.BRKn_TESTS n) 15 0 + 1) % 65536 ∧
      t.reg R.SIO_IRQ_STAT = s.reg R.SIO_IRQ_STAT ||| 4#32 ∧ (∀ k : Fin 4, k ≠ n → t.sio.brakes[k] = s.sio.brakes[k]) ∧
      OnlyChanges s t [R.BRKn_TESTS n, R.SIO_IRQ_STAT] [.sio] []) ∧
  (∀ (s : State) (n : Fin 4) (r : BrakeReading) (c : Nat),
    s.sio.brakes[n].judge = some c → settleTime s n ≤ s.cycle - c → bothOff r = false → isLocked s n = false →
    s.flag (R.BRKn_CFG n) 0 = true →
    Runs (.testPulseJudge n r) s fun t =>
      t.sio.brakes[n].state = .locked ∧ t.sio.brakes[n].hsg = false ∧ t.sio.brakes[n].lsg = false ∧
      (∀ k : Fin 4, k ≠ n → t.sio.brakes[k] = s.sio.brakes[k]) ∧
      t.reg (R.BRKn_LOCK n) = BitVec.ofNat 32 (0x41 + 256 * s.fld R.BC_STARTS 7 0) ∧ t.flag (R.BRKn_REQ n) 0 = false ∧
      (t.reg R.SIO_IRQ_STAT).getLsbD 0 = true ∧ Asserts s t 98 n ∧
      t.fld (R.BRKn_TESTS n) 31 16 = min (s.fld (R.BRKn_TESTS n) 31 16 + 1) 0xFFFF ∧
      OnlyChanges s t ((R.BRKn_TESTS n :: [R.BRKn_REQ n, R.BRKn_LOCK n, R.SIO_IRQ_STAT])) [.sio, .bc] []) ∧
  (∀ (s : State) (n : Fin 4),
    s.sio.brakes[n].state = .test → s.sio.brakes[n].judge = none → pulseWidth s n ≤ s.cycle - s.sio.brakes[n].since →
    Runs (.testPulseEnd n) s fun t =>
      t.sio.brakes[n].state = .released ∧ t.sio.brakes[n].hsg = true ∧ t.sio.brakes[n].lsg = true ∧
      t.sio.brakes[n].afterPulse = true ∧ t.sio.brakes[n].tpFrom = s.cycle ∧ t.sio.brakes[n].tpRan = s.sio.brakes[n].tpRan ∧
      (∀ k : Fin 4, k ≠ n → t.sio.brakes[k] = s.sio.brakes[k]) ∧ (s.sio.brakes[n].hsg = false → t.sio.brakes[n].since = s.cycle) ∧
      OnlyChanges s t [] [.sio] []) ∧
  (∀ (s : State) (n : Fin 4) (r : BrakeReading) (c : Nat) (w : Brake),
    s.sio.brakes[n].offFrom = some c → (readBrake s n r).sio.brakes[n] = w → w.nodes.ok = true → w.nodes.from_ ≤ c + settleTime s n →
    w.current.ok = true → w.current.from_ ≤ c + decay s n →
    Runs (.offTransitionPass n r) s fun t =>
      t.sio.brakes[n] = { w with offFrom := none, testAt := s.cycle, tpRan := 0, tpFrom := s.cycle } ∧
      t.fld (R.BRKn_TESTS n) 15 0 = (s.fld (R.BRKn_TESTS n) 15 0 + 1) % 65536 ∧
      (∀ k : Fin 4, k ≠ n → t.sio.brakes[k] = s.sio.brakes[k]) ∧ OnlyChanges s t [R.BRKn_TESTS n, R.SIO_IRQ_STAT] [.sio] [])

/-- R274: a press of 200 ms to 3,000 ms begun READY with a locked channel clears the lock-outs whose evidence is good; a shorter or longer one is
rejected with ES101. R275, R276: the contacts give the state, a disagreement past DISC and two failed pulses FAULT with ES99. R278: three wrong
returns open the loop, after READY with ES100; before, it blocks READY. -/
def Obligations.LoAckSafeInputsAndSealLoop : Prop :=
  (∀ (s : State),
    Runs (.loAckPressStart) s fun t =>
      (t.sio = { s.sio with pressAt := some s.cycle, pressValid := s.wr.ready && (List.range 4).any fun n => isLocked s (Fin.ofNat 4 n) }) ∧
      OnlyChanges s t [] [.sio] []) ∧
  (∀ (s : State) (c : Nat),
    s.sio.pressAt = some c → msCycles 200 ≤ s.cycle - c → s.cycle - c ≤ msCycles 3000 → s.sio.pressValid = true →
    Runs (.loAckPress) s fun t =>
      (∀ n : Fin 4, isLocked s n = true → mayUnlock s n = true → isLocked t n = false ∧ t.sio.brakes[n].state = if s.flag (R.BRKn_CFG n) 0 then .applied else .off) ∧
      (∀ n : Fin 4, isLocked s n = true → mayUnlock s n = false → isLocked t n = true) ∧
      (∀ n : Fin 4, isLocked s n = false → t.sio.brakes[n] = s.sio.brakes[n]) ∧ t.fld R.LO_STAT 16 16 = 1 ∧ t.sio.pressAt = none ∧
      OnlyChanges s t (((List.range 4).map R.BRKn_LOCK ++ [R.LO_STAT, R.SIO_IRQ_STAT])) [.sio] []) ∧
  (∀ (s : State) (c : Nat),
    s.sio.pressAt = some c → (s.cycle - c < msCycles 200 ∨ msCycles 3000 < s.cycle - c) →
    Runs (.loAckPress) s fun t =>
      t.fld R.LO_STAT 16 16 = 0 ∧ t.fld R.LO_STAT 31 24 = min (s.fld R.LO_STAT 31 24 + 1) 255 ∧ Asserts s t 101 0 ∧
      t.sio.brakes = s.sio.brakes ∧ OnlyChanges s t [R.LO_STAT] [.sio, .bc] []) ∧
  (∀ (s : State) (n : Fin 8) (a b : Bool),
    s.flag (R.SINi_CFG n) 0 = true → discOver s n = false →
    Runs (.sinContactChange n a b) s fun t =>
      t.sio.sins[n].state = sinNext (s.flag (R.SINi_CFG n) 1) s.sio.sins[n].state a b ∧ t.sio.sins[n].a = a ∧ t.sio.sins[n].b = b ∧
      (∀ k : Fin 8, k ≠ n → t.sio.sins[k] = s.sio.sins[k]) ∧
      (∀ k : Fin 4, leftApplied s.sio.brakes[k] = true → mayRelease t k = false → t.sio.brakes[k].hsg = false ∧ t.sio.brakes[k].lsg = false) ∧
      OnlyChanges s t (((List.range 4).map R.BRKn_REQ ++ [R.SIO_IRQ_STAT])) [.sio] []) ∧
  (∀ (s : State) (n : Fin 8),
    s.sio.sins[n].state = .discrepant → msCycles (s.fld (R.SINi_CFG n) 24 16) ≤ s.cycle - s.sio.sins[n].since →
    Runs (.sinDiscrepancyTimeout n) s fun t =>
      t.sio.sins[n] = { s.sio.sins[n] with state := .fault, faults := min (s.sio.sins[n].faults + 1) 0xFFFF } ∧
      (t.reg R.SIO_IRQ_STAT).getLsbD 1 = true ∧ Asserts s t 99 0 ∧ (∀ k : Fin 8, k ≠ n → t.sio.sins[k] = s.sio.sins[k]) ∧
      OnlyChanges s t (((List.range 4).map R.BRKn_REQ ++ [R.SIO_IRQ_STAT])) [.sio, .bc] []) ∧
  (∀ (s : State) (n : Fin 8),
    s.flag (R.SINi_CFG n) 0 = true → s.flag (R.SINi_CFG n) 2 = true → s.flag R.SIO_CTRL 1 = true → s.sio.sins[n].a = true →
    s.sio.sins[n].b = true → pulseDue s false = true → s.sio.sins[n].badA = 1 → s.sio.sins[n].state ≠ .fault →
    (∀ k : Fin 8, k ≠ n → s.flag (R.SINi_CFG k) 0 = false) →
    Runs (.sinTestPulse false 0xFF#8 0xFF#8) s fun t =>
      t.sio.sins[n] = { s.sio.sins[n] with state := .fault, cross := true, badA := 2, faults := min (s.sio.sins[n].faults + 1) 0xFFFF } ∧
      t.sio.tpaAt = some s.cycle ∧ Asserts s t 99 0 ∧ (∀ k : Fin 8, k ≠ n → t.sio.sins[k] = s.sio.sins[k]) ∧
      OnlyChanges s t (((List.range 4).map R.BRKn_REQ ++ [R.SIO_IRQ_STAT])) [.sio, .bc] []) ∧
  (∀ (s : State) (r g : Bool),
    s.wr.step ≠ 0 → since? s s.sio.loopAt (usCycles 10) = true → s.wr.ready = true → (r == Config.sealLoopBit s.sio.loopPos) = g →
    Runs (.sealLoopStep r) s fun t =>
      t.sio = { s.sio with loopBad := if g then 0 else s.sio.loopBad + 1, loopPos := s.sio.loopPos + 1, loopAt := some s.cycle, loopGood := if g then true else if 2 ≤ s.sio.loopBad then false else s.sio.loopGood } ∧
      (g = false → s.sio.loopBad = 2 → Asserts s t 100 0) ∧ OnlyChanges s t [] [.sio, .bc] []) ∧
  (∀ (s : State) (r : Bool),
    5 ≤ s.wr.step → since? s s.sio.loopAt (usCycles 10) = true → s.wr.ready = false → r ≠ Config.sealLoopBit s.sio.loopPos →
    s.sio.loopBad = 2 →
    Runs (.sealLoopStep r) s fun t =>
      t.sio.loopGood = false ∧ t.sio.loopBad = 3 ∧ t.wr.fail = (if s.wr.fail = 0 then 4 else s.wr.fail) ∧ t.wr.ready = false)

/-- R355 to R362: a unit its owner configures and starts folds the start value in NATIVE, takes bytes least significant first, gives its result and
counts the alive values of COMPAT; another writer is refused with ES83; a wrong alive value raises ES82; a detected glint raises its unit's
syndrome on ES80. -/
def Obligations.TallyUnits : Prop :=
  (∀ (s : State) (i : Initiator) (u : Fin 16) (v : Word),
    s.mayWrite i (R.TLYu_CFG u) = true → ownsUnit s i u = true → cfgAccepted v = true →
    Runs (.tallyCfgWrite i u v) s fun t =>
      t.reg (R.TLYu_CFG u) = v &&& 0x37#32 ∧ t.ty.units[u] = { s.ty.units[u] with isOpen := false, alive := 0, lastAlive := none } ∧
      (∀ k : Fin 16, k ≠ u → t.ty.units[k] = s.ty.units[k]) ∧ OnlyChanges s t [R.TLYu_CFG u] [.bus, .ty] []) ∧
  (∀ (s : State) (i : Initiator) (u : Fin 16) (v : Word),
    s.mayWrite i (R.TLYu_CFG u) = true → ownsUnit s i u = true →
    Runs (.tallyStart i u v) s fun t =>
      t.ty.units[u] = { busyFor s.cycle (if unitMode s u = 1 then 4 else 0) s.ty.units[u] with crc := if unitMode s u = 1 then crcFeed (unitKind s u) (unitKind s u).init (bytesLE 4 v.toNat) else (unitKind s u).init, isOpen := true, fed := 0, faulty := false } ∧
      (∀ k : Fin 16, k ≠ u → t.ty.units[k] = s.ty.units[k]) ∧ OnlyChanges s t [] [.bus, .ty] []) ∧
  (∀ (s : State) (i : Initiator) (u : Fin 16) (v : Byte),
    s.mayWrite i (R.TLYu_CFG u) = true → ownsUnit s i u = true → s.ty.units[u].isOpen = true →
    Runs (.tallyIn8 i u v) s fun t =>
      t.ty.units[u] = { busyFor s.cycle 1 s.ty.units[u] with crc := crcFeed (unitKind s u) s.ty.units[u].crc [v], fed := min (s.ty.units[u].fed + 1) 0xFFFFFF } ∧
      (∀ k : Fin 16, k ≠ u → t.ty.units[k] = s.ty.units[k]) ∧ t.bus = .ok 0 ∧ OnlyChanges s t [] [.bus, .ty] []) ∧
  (∀ (s : State) (i : Initiator) (u : Fin 16) (v : Half),
    s.mayWrite i (R.TLYu_CFG u) = true → ownsUnit s i u = true → s.ty.units[u].isOpen = true →
    Runs (.tallyIn16 i u v) s fun t =>
      t.ty.units[u] = { busyFor s.cycle 2 s.ty.units[u] with crc := crcFeed (unitKind s u) s.ty.units[u].crc (bytesLE 2 v.toNat), fed := min (s.ty.units[u].fed + 2) 0xFFFFFF } ∧
      (∀ k : Fin 16, k ≠ u → t.ty.units[k] = s.ty.units[k]) ∧ t.bus = .ok 0 ∧ OnlyChanges s t [] [.bus, .ty] []) ∧
  (∀ (s : State) (i : Initiator) (u : Fin 16) (v : Word),
    s.mayWrite i (R.TLYu_CFG u) = true → ownsUnit s i u = true → s.ty.units[u].isOpen = true →
    Runs (.tallyIn32 i u v) s fun t =>
      t.ty.units[u] = { busyFor s.cycle 4 s.ty.units[u] with crc := crcFeed (unitKind s u) s.ty.units[u].crc (bytesLE 4 v.toNat), fed := min (s.ty.units[u].fed + 4) 0xFFFFFF } ∧
      (∀ k : Fin 16, k ≠ u → t.ty.units[k] = s.ty.units[k]) ∧ t.bus = .ok 0 ∧ OnlyChanges s t [] [.bus, .ty] []) ∧
  (∀ (s : State) (i : Initiator) (u : Fin 16),
    s.admitted i = true → (isKeeper i || ownsUnit s i u) = true → s.ty.units[u].faulty = false → s.ty.units[u].isOpen = true →
    Runs (.tallyResLo i u) s fun t =>
      t.bus = .ok (((unitResult s u).setWidth 32).setWidth 64) ∧ t.reg64 (R.TLYu_RES_LO u) = unitResult s u ∧
      OnlyChanges s t [R.TLYu_RES_LO u, R.TLYu_RES_LO u + 4] [.bus] []) ∧
  (∀ (s : State) (i : Initiator) (u : Fin 16),
    s.admitted i = true → (isKeeper i || ownsUnit s i u) = true → unitMode s u = 2 →
    Runs (.tallyAlive i u) s fun t =>
      t.bus = .ok (s.ty.units[u].alive.setWidth 64) ∧ t.ty.units[u] = { s.ty.units[u] with alive := s.ty.units[u].alive + 1 } ∧
      (∀ k : Fin 16, k ≠ u → t.ty.units[k] = s.ty.units[k]) ∧ OnlyChanges s t [] [.bus, .ty] []) ∧
  (∀ (s : State) (i : Initiator) (u : Fin 16) (v : Word),
    s.mayWrite i (R.TLYu_CFG u) = true → ownsUnit s i u = true → unitMode s u = 2 →
    Runs (.tallyAliveChk i u v) s fun t =>
      t.ty.units[u] = { s.ty.units[u] with lastAlive := some (v.setWidth 4) } ∧
      t.fld (R.TLYu_ALIVE_STAT u) 1 0 = aliveCode s.ty.units[u].lastAlive (v.setWidth 4) ∧
      t.fld (R.TLYu_ALIVE_STAT u) 7 4 = bits v 3 0 ∧ (aliveCode s.ty.units[u].lastAlive (v.setWidth 4) ≠ 1 → Asserts s t 82 0) ∧
      OnlyChanges s t [R.TLYu_ALIVE_STAT u] [.bus, .ty, .bc] []) ∧
  (∀ (s : State) (g : Glint),
    tallyWindow s = some g →
    Runs (.tallyGlint true) s fun t =>
      t.reg R.TLY_GLINTS = s.reg R.TLY_GLINTS + 1 ∧
      (∀ k : Fin 16, t.ty.units[k] = (if k.val = g.syn.toNat % 16 then busyFor s.cycle 6 s.ty.units[k] else s.ty.units[k])) ∧
      t.bc.glints = (glintRan s g).bc.glints ∧ Asserts s t 80 0 ∧ OnlyChanges s t [R.TLY_GLINTS] [.ty, .bc] []) ∧
  (∀ (s : State) (d : Bool),
    tallyWindow s = none →
    Runs (.tallyGlint d) s fun t =>
      t = s ∧ OnlyChanges s t [] [] []) ∧
  (∀ (s : State) (i : Initiator) (u : Fin 16) (v : Word),
    s.mayWrite i (R.TLYu_CFG u) = true → ownsUnit s i u = false → isKeeper i = true →
    Runs (.tallyStart i u v) s fun t =>
      t.bus = .error ∧ t.ty = s.ty ∧ t.fld R.TLY_ERR 3 0 = u ∧ t.fld R.TLY_ERR 7 4 = 3 ∧ OnlyChanges s t [R.TLY_ERR] [.bus, .bc] [])

/-- R291, R292, R346: a tamper detector starts the wipe, sets its bit, counts, and raises ES125; the keys are gone at once; 12,288 TCLK later the Vault
reads zero, a part that does not raises ES76, as does a wipe that lasts 50 µs.
R285 to R290: a request is judged in order and answered in LC_STAT; an accepted one wipes the Vault, records the new state and resets the companion
with the LIFE_CYCLE cause; so does provisioning, which fuses the root hash and a device key. -/
def Obligations.VaultWipesAndLifeCycle : Prop :=
  (∀ (s : State) (k : TamperKind),
    Runs (.tamperDetect k) s fun t =>
      t.se = { s.se with wiping := some s.cycle, wipeCause := 1, deviceKey := none, siteSeed := none } ∧
      (t.reg R.TAMPER_STAT).getLsbD (tamperBit k) = true ∧ t.fld R.TAMPER_STAT 15 8 = min (s.fld R.TAMPER_STAT 15 8 + 1) 255 ∧
      t.fld R.WIPE_CNT 15 0 = min (s.fld R.WIPE_CNT 15 0 + 1) 0xFFFF ∧ t.fld R.WIPE_CNT 17 16 = 1 ∧ Asserts s t 125 0 ∧
      OnlyChanges s t [R.TAMPER_STAT, R.WIPE_CNT] [.se, .bc] []) ∧
  (∀ (s : State) (b : BitVec 8) (c : Nat),
    s.se.wiping = some c → 12288 ≤ s.cycle - c →
    Runs (.vaultWipeDone b) s fun t =>
      t.se = { s.se with wiping := none, deviceKey := none, siteSeed := none } ∧ t.bs = { s.bs with vaultOk := ~~~b } ∧
      t.reg R.BS_IRQ_STAT = s.reg R.BS_IRQ_STAT ||| 0x10#32 ∧ (∀ a, 0x24000000 ≤ a → a < 0x24200000 → t.byte a = 0) ∧
      (b = 0 → t.bc = s.bc) ∧ (b ≠ 0 → Asserts s t 76 0) ∧ OnlyChanges s t [R.BS_IRQ_STAT] [.se, .bs, .bc] [(0x24000000, 0x200000)]) ∧
  (∀ (s : State) (c : Nat),
    s.se.wiping = some c → s.se.wipeCause ≠ 0 → usCycles 50 ≤ s.cycle - c →
    Runs (.vaultWipeTimeout) s fun t =>
      Asserts s t 76 0 ∧ OnlyChanges s t [] [.bc] []) ∧
  (∀ (s : State) (i : Initiator) (v : Word),
    isKeeper i = true → s.admitted i = true → lcCode s v ≠ 1 →
    Runs (.lcRequest i v) s fun t =>
      t.reg R.LC_STAT_SEAL = BitVec.ofNat 32 (lcCode s v) ∧ t.bus = .ok 0 ∧ OnlyChanges s t [R.LC_STAT_SEAL] [.bus] []) ∧
  (∀ (s : State) (i : Initiator) (v : Word),
    isKeeper i = true → s.admitted i = true → committing s = true →
    Runs (.lcRequest i v) s fun t =>
      t.reg R.LC_STAT_SEAL = 6 ∧ t.se = s.se ∧ OnlyChanges s t [R.LC_STAT_SEAL] [.bus] []) ∧
  (∀ (s : State) (i : Initiator) (v : Word),
    isKeeper i = true → s.admitted i = true → lcCode s v = 1 →
    Runs (.lcRequest i v) s fun t =>
      (bits v 2 0 = 2 → t.se.life = .field ∧ t.se.svc = false) ∧ (bits v 2 0 = 3 → t.se.svc = true) ∧
      (bits v 2 0 = 4 → t.se.life = .scrapped ∧ t.se.wrapped = none) ∧ (bits v 2 0 ≠ 4 → t.se.wrapped = s.se.wrapped) ∧
      t.se.deviceKey = none ∧ t.fld R.RST_CAUSE 3 0 = 5 ∧ t.fld R.WIPE_CNT 15 0 = min (s.fld R.WIPE_CNT 15 0 + 1) 0xFFFF ∧
      t.fld R.WIPE_CNT 17 16 = 2 ∧ t.wr.step = 0 ∧ (∀ a, 0x24000000 ≤ a → a < 0x24200000 → t.byte a = 0) ∧
      t.se.rootHash = s.se.rootHash ∧ SafeState t ∧ t.pending = s.pending) ∧
  (∀ (s : State) (i : Initiator) (v : Word),
    isKeeper i = true → s.admitted i = true → committing s = false → bits v 31 16 = 0x1C5E → s.se.life = .service →
    bits v 2 0 = 2 →
    Runs (.lcRequest i v) s fun t =>
      t.se.life = .field ∧ t.se.svc = false ∧ t.fld R.RST_CAUSE 3 0 = 5) ∧
  (∀ (s : State) (h : BitVec 256),
    s.se.life = .blank → s.wr.step = 2 →
    Runs (.provisioningRequest h) s fun t =>
      t.se.rootHash = some h ∧ t.se.wrapped = some (Sm2.keyFrom (Config.random s.draws)) ∧ t.se.life = .provisioned ∧
      t.se.deviceKey = none ∧ t.fld R.RST_CAUSE 3 0 = 5 ∧ t.fld R.WIPE_CNT 15 0 = min (s.fld R.WIPE_CNT 15 0 + 1) 0xFFFF ∧
      t.fld R.WIPE_CNT 17 16 = 2 ∧ t.wr.step = 0 ∧ (∀ a, 0x24000000 ≤ a → a < 0x24200000 → t.byte a = 0) ∧ SafeState t ∧
      t.pending = s.pending) ∧
  (∀ (s : State) (h : BitVec 256),
    s.se.life ≠ .blank ∨ s.wr.step ≠ 2 →
    Runs (.provisioningRequest h) s fun t =>
      OnlyChanges s t [] [] [])

/-- R294, R302: golden requests are served in order, and a region whose SM3 matches is verified; an attestation with the device key makes the report with
its signature, without it is REFUSED. -/
def Obligations.GoldenRegionsAndAttestation : Prop :=
  (∀ (s : State) (i : Initiator) (v : Word),
    s.mayWrite i R.SE_GOLD_REQ = true →
    Runs (.goldenVerify i v) s fun t =>
      t.se = { s.se with golds := s.se.golds ++ [Fin.ofNat 64 (bits v 5 0)], sm3 := s.se.sm3 ++ [.golden] } ∧ t.bus = .ok 0 ∧
      OnlyChanges s t [] [.bus, .se] []) ∧
  (∀ (s : State) (ok : Bool) (k : Fin 64) (r : List (Fin 64)),
    s.se.golds = k :: r → sm3Serves s .golden = true → goldUnread s k ok = none → goldMatches s k = false →
    Runs (.goldenVerifyDone ok) s fun t =>
      t.se = { s.se with golds := r, sm3 := s.se.sm3.erase .golden } ∧ t.reg R.SE_IRQ_STAT = s.reg R.SE_IRQ_STAT ||| 4#32 ∧
      OnlyChanges s t [R.SE_IRQ_STAT] [.se] []) ∧
  (∀ (s : State) (ok : Bool) (k : Fin 64) (r : List (Fin 64)),
    s.se.golds = k :: r → sm3Serves s .golden = true → goldUnread s k ok = none → goldMatches s k = true →
    Runs (.goldenVerifyDone ok) s fun t =>
      t.se = { s.se with golds := r, sm3 := s.se.sm3.erase .golden } ∧ goldVerified t k.val = true ∧
      (∀ j : Fin 64, j ≠ k → goldVerified t j.val = goldVerified s j.val) ∧ t.reg R.SE_IRQ_STAT = s.reg R.SE_IRQ_STAT ||| 4#32 ∧
      OnlyChanges s t [R.SE_IRQ_STAT, R.SE_GOLD_OK_LO, R.SE_GOLD_OK_HI] [.se] []) ∧
  (∀ (s : State) (ok : Bool) (k : Fin 64) (r : List (Fin 64)) (g : Golden),
    s.se.golds = k :: r → sm3Serves s .golden = true → goldUnread s k ok = some g →
    Runs (.goldenVerifyDone ok) s fun t =>
      t.se = { s.se with golds := r, sm3 := s.se.sm3.erase .golden } ∧ t.reg R.SE_GOLD_OK_LO = s.reg R.SE_GOLD_OK_LO ∧
      t.reg R.SE_GOLD_OK_HI = s.reg R.SE_GOLD_OK_HI ∧ Asserts s t 64 0 ∧ t.reg R.HD_IRQ_STAT = s.reg R.HD_IRQ_STAT ||| 1#32 ∧
      t.reg R.SE_IRQ_STAT = s.reg R.SE_IRQ_STAT ||| 4#32 ∧
      (∀ w, holdUncIn s g.addr g.len = some w → t.reg R.HD_UNC_ADDR_LO = BitVec.ofNat 32 w ∧ t.reg R.HD_UNC_ADDR_HI = BitVec.ofNat 32 (w / 2 ^ 32)) ∧
      OnlyChanges s t ([R.SE_IRQ_STAT, R.HD_UNC_ADDR_LO, R.HD_UNC_ADDR_HI, R.HD_IRQ_STAT, R.LN_IRQ_STAT] ++ (List.range 16).map (fun c => R.LNu_OVF (36 + c))) [.se, .hd, .bc, .ln] []) ∧
  (∀ (s : State) (i : Initiator) (d : BitVec 256),
    s.mayWrite i R.SE_ATT_CMD = true → s.se.attReq = none → s.se.deviceKey = some d →
    Runs (.attestationStart i) s fun t =>
      t.se = { s.se with attReq := some (reportBody s), sm3 := s.se.sm3 ++ [.attest] } ∧ t.reg R.SE_ATT_STAT = 1 ∧
      OnlyChanges s t [R.SE_ATT_STAT] [.bus, .se] []) ∧
  (∀ (s : State) (i : Initiator),
    s.mayWrite i R.SE_ATT_CMD = true → s.se.deviceKey = none →
    Runs (.attestationStart i) s fun t =>
      t.reg R.SE_ATT_STAT = 3 ∧ t.se = s.se ∧ OnlyChanges s t [R.SE_ATT_STAT] [.bus] []) ∧
  (∀ (s : State) (b : List Byte) (d : BitVec 256),
    s.se.attReq = some b → s.se.deviceKey = some d → sm3Serves s .attest = true →
    Runs (.attestationDone) s fun t =>
      t.se = { s.se with attReq := none, sm3 := s.se.sm3.erase .attest, attOut := b ++ Sm2.sign d (Config.random s.draws) b } ∧
      t.reg R.SE_ATT_STAT = 2 ∧ t.reg R.SE_IRQ_STAT = s.reg R.SE_IRQ_STAT ||| 2#32 ∧
      OnlyChanges s t [R.SE_ATT_STAT, R.SE_IRQ_STAT] [.se] []) ∧
  (∀ (s : State),
    sm3Serves s .attest = false ∨ s.se.attReq = none →
    Runs (.attestationDone) s fun t =>
      OnlyChanges s t [] [] []) ∧
  (∀ (s : State) (ok : Bool),
    sm3Serves s .golden = false ∨ s.se.golds = [] →
    Runs (.goldenVerifyDone ok) s fun t =>
      OnlyChanges s t [] [] [])

/-- R299 to R301: START is DISABLED without COMMIT_EN, else CHECK begins; each phase follows the one before it; the slot in use is never written; RECORD ends
DONE; an ABORT ends it at the next boundary with ABORTED and no commit record; a failed operation ends it with its code. -/
def Obligations.ImageCommits : Prop :=
  (∀ (s : State) (i : Initiator) (c : Contents),
    s.mayWrite i R.SE_COMMIT_CMD = true → committing s = false → (s.flag R.SE_CTRL 0 || s.se.defaults) = true →
    Runs (.commitStart i c) s fun t =>
      t.se = { s.se with commitSrc := (s.reg64 R.SE_COMMIT_SRC_LO).toNat % 2 ^ 40, commitLen := (s.reg R.SE_COMMIT_LEN).toNat, commitContents := c, commitRec := none, commitAbort := false, sm3 := s.se.sm3 ++ [.commit], commit := .check, commitResult := 0, phaseAt := s.cycle } ∧
      t.reg R.SE_COMMIT_STAT = 1 ∧ OnlyChanges s t [R.SE_COMMIT_STAT] [.bus, .se] []) ∧
  (∀ (s : State) (i : Initiator) (c : Contents),
    s.mayWrite i R.SE_COMMIT_CMD = true → committing s = false → s.flag R.SE_CTRL 0 = false → s.se.defaults = false →
    Runs (.commitStart i c) s fun t =>
      t.se = { s.se with commit := .idle, commitResult := 5, phaseAt := s.cycle } ∧ t.reg R.SE_COMMIT_STAT = 0x50 ∧
      OnlyChanges s t [R.SE_COMMIT_STAT] [.bus, .se] []) ∧
  (∀ (s : State) (i : Initiator),
    s.mayWrite i R.SE_COMMIT_CMD = true → committing s = true →
    Runs (.commitAbort i) s fun t =>
      t.se = { s.se with commitAbort := true } ∧ OnlyChanges s t [] [.bus, .se] []) ∧
  (∀ (s : State) (r : PhaseResult),
    committing s = true → s.se.commitAbort = true →
    Runs (.commitPhaseDone r) s fun t =>
      t.se.commit = .idle ∧ t.se.commitResult = 8 ∧ t.se.commitAbort = false ∧ t.reg R.SE_COMMIT_STAT = 0x80 ∧
      t.reg R.SE_IRQ_STAT = s.reg R.SE_IRQ_STAT ||| 1#32 ∧
      (if targetB s then t.se.slotB.commit = none ∧ t.se.slotA = s.se.slotA else t.se.slotA.commit = none ∧ t.se.slotB = s.se.slotB) ∧
      OnlyChanges s t [R.SE_COMMIT_STAT, R.SE_IRQ_STAT] [.se] []) ∧
  (∀ (s : State),
    s.se.commit = .check → s.se.commitAbort = false → sm3Serves s .commit = true →
    Runs (.commitPhaseDone .ok) s fun t =>
      (checkCode s (commitImage s) = 0 → t.se = { s.se with commitRec := some (commitRecord s (commitImage s)), commit := .intent, commitResult := 0, sm3 := s.se.sm3.erase .commit, phaseAt := s.cycle } ∧ t.reg R.SE_COMMIT_STAT = 2 ∧ t.reg R.SE_IRQ_STAT = s.reg R.SE_IRQ_STAT) ∧
      (checkCode s (commitImage s) ≠ 0 → t.se = { s.se with commit := .idle, commitResult := BitVec.ofNat 4 (checkCode s (commitImage s)), commitAbort := false, sm3 := s.se.sm3.erase .commit, phaseAt := s.cycle } ∧ t.reg R.SE_IRQ_STAT = s.reg R.SE_IRQ_STAT ||| 1#32) ∧
      OnlyChanges s t [R.SE_COMMIT_STAT, R.SE_IRQ_STAT] [.se] []) ∧
  (∀ (s : State),
    s.se.commit = .intent → s.se.commitAbort = false →
    Runs (.commitPhaseDone .ok) s fun t =>
      t.se.commit = .erase ∧
      (if targetB s then t.se.slotB = { s.se.slotB with intent := s.se.commitRec, commit := none, blank := false } ∧ t.se.slotA = s.se.slotA else t.se.slotA = { s.se.slotA with intent := s.se.commitRec, commit := none, blank := false } ∧ t.se.slotB = s.se.slotB) ∧
      OnlyChanges s t [R.SE_COMMIT_STAT] [.se] []) ∧
  (∀ (s : State),
    s.se.commit = .erase → s.se.commitAbort = false →
    Runs (.commitPhaseDone .ok) s fun t =>
      t.se.commit = .program ∧
      (if targetB s then t.se.slotB = { s.se.slotB with data := none } ∧ t.se.slotA = s.se.slotA else t.se.slotA = { s.se.slotA with data := none } ∧ t.se.slotB = s.se.slotB) ∧
      OnlyChanges s t [R.SE_COMMIT_STAT] [.se] []) ∧
  (∀ (s : State),
    s.se.commit = .program → s.se.commitAbort = false →
    Runs (.commitPhaseDone .ok) s fun t =>
      t.se.commit = .verify ∧
      (if targetB s then t.se.slotB = { s.se.slotB with data := some (commitImage s) } ∧ t.se.slotA = s.se.slotA else t.se.slotA = { s.se.slotA with data := some (commitImage s) } ∧ t.se.slotB = s.se.slotB) ∧
      OnlyChanges s t [R.SE_COMMIT_STAT] [.se] []) ∧
  (∀ (s : State),
    s.se.commit = .verify → s.se.commitAbort = false → sm3Serves s .commit = true → readBackOk s = true →
    Runs (.commitPhaseDone .ok) s fun t =>
      t.se = { s.se with commit := .record, commitResult := 0, sm3 := s.se.sm3.erase .commit, phaseAt := s.cycle } ∧
      t.reg R.SE_COMMIT_STAT = 6 ∧ OnlyChanges s t [R.SE_COMMIT_STAT] [.se] []) ∧
  (∀ (s : State),
    s.se.commit = .verify → s.se.commitAbort = false → sm3Serves s .commit = true → readBackOk s = false →
    Runs (.commitPhaseDone .ok) s fun t =>
      t.se = { s.se with commit := .idle, commitResult := 7, commitAbort := false, sm3 := s.se.sm3.erase .commit, phaseAt := s.cycle } ∧
      t.reg R.SE_COMMIT_STAT = 0x70 ∧ t.reg R.SE_IRQ_STAT = s.reg R.SE_IRQ_STAT ||| 1#32 ∧
      OnlyChanges s t [R.SE_COMMIT_STAT, R.SE_IRQ_STAT] [.se] []) ∧
  (∀ (s : State),
    s.se.commit = .record → s.se.commitAbort = false →
    Runs (.commitPhaseDone .ok) s fun t =>
      t.se.commit = .done ∧ t.se.commitResult = 1 ∧ t.reg R.SE_COMMIT_STAT = 0x17 ∧
      t.reg R.SE_IRQ_STAT = s.reg R.SE_IRQ_STAT ||| 1#32 ∧
      (if targetB s then t.se.slotB = { s.se.slotB with commit := s.se.commitRec } ∧ t.se.slotA = s.se.slotA else t.se.slotA = { s.se.slotA with commit := s.se.commitRec } ∧ t.se.slotB = s.se.slotB) ∧
      OnlyChanges s t [R.SE_COMMIT_STAT, R.SE_IRQ_STAT] [.se] []) ∧
  (∀ (s : State),
    committing s = true → s.se.commitAbort = false → s.se.commit ≠ .check → phaseWaits s = false →
    Runs (.commitPhaseDone .failed) s fun t =>
      t.se.commit = .idle ∧ t.se.commitResult = BitVec.ofNat 4 (if s.se.commit = .verify then 7 else 6) ∧
      (if targetB s then t.se.slotB.commit = none ∧ t.se.slotA = s.se.slotA else t.se.slotA.commit = none ∧ t.se.slotB = s.se.slotB) ∧
      OnlyChanges s t [R.SE_COMMIT_STAT, R.SE_IRQ_STAT] [.se] []) ∧
  (∀ (s : State),
    committing s = true → s.se.commitAbort = false → s.se.commit ≠ .check → phaseWaits s = false →
    Runs (.commitPhaseDone .flashError) s fun t =>
      t.se.commit = .idle ∧ t.se.commitResult = 6 ∧ t.reg R.SE_COMMIT_STAT = 0x60 ∧
      t.reg R.SE_IRQ_STAT = s.reg R.SE_IRQ_STAT ||| 1#32 ∧
      (if targetB s then t.se.slotB.commit = none ∧ t.se.slotA = s.se.slotA else t.se.slotA.commit = none ∧ t.se.slotB = s.se.slotB) ∧
      OnlyChanges s t [R.SE_COMMIT_STAT, R.SE_IRQ_STAT] [.se] []) ∧
  (∀ (s : State) (r : PhaseResult),
    phaseWaits s = true → s.se.commitAbort = false →
    Runs (.commitPhaseDone r) s fun t =>
      OnlyChanges s t [] [] [])

/-- R303: BEGIN from IDLE makes the pair the owner with nothing written; a staged write of the owner in FILLING or LEVELLED goes to its copy and returns
to FILLING; LEVEL, DISCARD and expiry; what the rule refuses is a bus error that changes nothing.
R304 to R306: LEVEL ends LEVEL_OK and LEVELLED, or with the first conflict and its registers, back in FILLING; OPEN of a levelled stage is checked again
and puts the written copies in effect with OPENED, or is STALE; OPEN with no levelled stage is NOT_LEVELLED. -/
def Obligations.LockCycleCommandsLevelAndOpen : Prop :=
  (∀ (s : State) (i : Initiator),
    isKeeper i = true → s.admitted i = true → s.kc.pairs[(if i = .k1 then 1 else 0 : Fin 2)] ≠ .standby →
    s.lk.state = .idle →
    Runs (.lkBegin i) s fun t =>
      t.lk = { s.lk with state := .filling, owner := some i, begun := s.cycle, stage := [] } ∧ t.bus = .ok 0 ∧
      OnlyChanges s t [] [.bus, .lk] []) ∧
  (∀ (s : State) (i : Initiator),
    isKeeper i = true → s.admitted i = true → s.kc.pairs[(if i = .k1 then 1 else 0 : Fin 2)] ≠ .standby →
    s.lk.state ≠ .idle →
    Runs (.lkBegin i) s fun t =>
      t.bus = .error ∧ t.lk = s.lk ∧ Asserts s t 5 0 ∧ OnlyChanges s t [] [.bus, .bc] []) ∧
  (∀ (s : State) (i : Initiator) (a : Nat) (v : Word),
    isKeeper i = true → s.admitted i = true → s.kc.pairs[(if i = .k1 then 1 else 0 : Fin 2)] ≠ .standby →
    isStaged (homeAddr a) = true → s.lk.owner = some i → (s.lk.state = .filling ∨ s.lk.state = .levelled) →
    Runs (.stagedWrite i a v) s fun t =>
      t.lk = { s.lk with state := .filling, stage := s.lk.stage.filter (·.1 ≠ homeAddr a) ++ [(homeAddr a, v)] } ∧ t.bus = .ok 0 ∧
      OnlyChanges s t [] [.bus, .lk] []) ∧
  (∀ (s : State) (i : Initiator) (a : Nat) (v : Word),
    isKeeper i = true → s.admitted i = true → s.kc.pairs[(if i = .k1 then 1 else 0 : Fin 2)] ≠ .standby →
    isStaged (homeAddr a) = true → (s.lk.owner ≠ some i ∨ s.lk.state = .idle ∨ s.lk.state = .levelling) →
    Runs (.stagedWrite i a v) s fun t =>
      t.bus = .error ∧ t.lk = s.lk ∧ Asserts s t 5 0 ∧ OnlyChanges s t [] [.bus, .bc] []) ∧
  (∀ (s : State) (i : Initiator),
    isKeeper i = true → s.admitted i = true → s.kc.pairs[(if i = .k1 then 1 else 0 : Fin 2)] ≠ .standby →
    s.lk.state = .filling → s.lk.owner = some i →
    Runs (.lkLevel i) s fun t =>
      t.lk = { s.lk with state := .levelling } ∧ t.bus = .ok 0 ∧ OnlyChanges s t [] [.bus, .lk] []) ∧
  (∀ (s : State) (i : Initiator),
    isKeeper i = true → s.admitted i = true → s.kc.pairs[(if i = .k1 then 1 else 0 : Fin 2)] ≠ .standby →
    (s.lk.state ≠ .filling ∨ s.lk.owner ≠ some i) →
    Runs (.lkLevel i) s fun t =>
      t.bus = .error ∧ t.lk = s.lk ∧ Asserts s t 5 0 ∧ OnlyChanges s t [] [.bus, .bc] []) ∧
  (∀ (s : State) (i : Initiator),
    isKeeper i = true → s.admitted i = true → s.kc.pairs[(if i = .k1 then 1 else 0 : Fin 2)] ≠ .standby →
    s.lk.state ≠ .idle → s.lk.owner = some i →
    Runs (.lkDiscard i) s fun t =>
      t.lk = { s.lk with state := .idle, owner := none, code := 7, stage := [] } ∧ t.bus = .ok 0 ∧
      OnlyChanges s t [] [.bus, .lk] []) ∧
  (∀ (s : State) (i : Initiator),
    isKeeper i = true → s.admitted i = true → s.kc.pairs[(if i = .k1 then 1 else 0 : Fin 2)] ≠ .standby →
    (s.lk.state = .idle ∨ s.lk.owner ≠ some i) →
    Runs (.lkDiscard i) s fun t =>
      t.bus = .error ∧ t.lk = s.lk ∧ Asserts s t 5 0 ∧ OnlyChanges s t [] [.bus, .bc] []) ∧
  (∀ (s : State),
    s.lk.state ≠ .idle → msCycles (s.fld R.LK_HOLD 15 0) ≤ s.cycle - s.lk.begun →
    Runs (.stageExpired) s fun t =>
      t.lk = { s.lk with state := .idle, owner := none, code := 8, stage := [] } ∧ OnlyChanges s t [] [.lk] []) ∧
  (∀ (s : State),
    s.lk.state = .levelling → levelStage s = none →
    Runs (.levelDone) s fun t =>
      t.lk = { s.lk with state := .levelled, code := 0 } ∧ t.reg R.SE_IRQ_STAT = s.reg R.SE_IRQ_STAT ||| 8#32 ∧
      OnlyChanges s t [R.SE_IRQ_STAT] [.lk] []) ∧
  (∀ (s : State),
    s.lk.state = .levelling →
    Runs (.levelDone) s fun t =>
      (levelStage s = none → t.lk = { s.lk with state := .levelled, code := 0 } ∧ t.reg R.LK_CONF_ADDR1 = s.reg R.LK_CONF_ADDR1) ∧
      (levelStage s ≠ none → t.lk = { s.lk with state := .filling, code := BitVec.ofNat 4 (((levelStage s).map (·.code)).getD 0) }) ∧
      (∀ c, levelStage s = some c → t.reg R.LK_CONF_ADDR1 = BitVec.ofNat 32 c.a ∧ t.reg R.LK_CONF_ADDR2 = BitVec.ofNat 32 c.b) ∧
      t.reg R.SE_IRQ_STAT = s.reg R.SE_IRQ_STAT ||| 8#32 ∧
      OnlyChanges s t [R.LK_CONF_ADDR1, R.LK_CONF_ADDR2, R.SE_IRQ_STAT] [.lk] []) ∧
  (∀ (s : State) (i : Initiator),
    isKeeper i = true → s.admitted i = true → s.kc.pairs[(if i = .k1 then 1 else 0 : Fin 2)] ≠ .standby →
    s.lk.state = .levelled → s.lk.owner = some i → levelStage s ≠ none →
    Runs (.lkOpen i) s fun t =>
      t.lk = { s.lk with state := .filling, code := 6 } ∧ t.bus = .ok 0 ∧ OnlyChanges s t [] [.bus, .lk] []) ∧
  (∀ (s : State) (i : Initiator),
    isKeeper i = true → s.admitted i = true → s.kc.pairs[(if i = .k1 then 1 else 0 : Fin 2)] ≠ .standby →
    s.lk.state = .levelled → s.lk.owner = some i → levelStage s = none →
    Runs (.lkOpen i) s fun t =>
      t.lk = { s.lk with state := .idle, owner := none, code := 0xA, opens := s.lk.opens + 1, stage := [], openedAt := some s.cycle } ∧
      t.reg R.LK_OPEN_T = s.now.t ∧ (∀ k : Fin 128, t.reg (R.POLs_CFG k) = (withStage s).reg (R.POLs_CFG k)) ∧
      (t.reg R.SE_IRQ_STAT).getLsbD 3 = true ∧ t.bus = .ok 0 ∧ t.se = s.se ∧ t.kc = s.kc ∧ t.hd = s.hd ∧ t.wr = s.wr ∧ t.mi = s.mi ∧
      t.ln = s.ln ∧ t.ports = s.ports ∧ t.cycle = s.cycle ∧ t.mem = s.mem ∧ t.pending = s.pending) ∧
  (∀ (s : State) (i : Initiator),
    isKeeper i = true → s.admitted i = true → s.kc.pairs[(if i = .k1 then 1 else 0 : Fin 2)] ≠ .standby →
    s.lk.state = .idle → s.lk.openedAt = some s.cycle →
    Runs (.lkOpen i) s fun t =>
      t.lk = s.lk ∧ t.bus = .ok 0 ∧ OnlyChanges s t [] [.bus] []) ∧
  (∀ (s : State) (i : Initiator),
    isKeeper i = true → s.admitted i = true → s.kc.pairs[(if i = .k1 then 1 else 0 : Fin 2)] ≠ .standby →
    (s.lk.state = .idle → s.lk.openedAt ≠ some s.cycle) → (s.lk.state = .idle ∨ (s.lk.owner = some i ∧ s.lk.state ≠ .levelled)) →
    Runs (.lkOpen i) s fun t =>
      t.lk = { s.lk with code := 9 } ∧ t.bus = .ok 0 ∧ OnlyChanges s t [] [.bus, .lk] []) ∧
  (∀ (s : State) (i : Initiator),
    isKeeper i = true → s.admitted i = true → s.kc.pairs[(if i = .k1 then 1 else 0 : Fin 2)] ≠ .standby →
    s.lk.state ≠ .idle → s.lk.owner ≠ some i →
    Runs (.lkOpen i) s fun t =>
      t.bus = .error ∧ t.lk = s.lk ∧ Asserts s t 5 0 ∧ OnlyChanges s t [] [.bus, .bc] [])

/-- R309 to R311: POWER_GOOD begins the start with BC_STARTS advanced, TIME_NS at 0 and fresh nonces; step 1 clears the Vault, step 2 unwraps the device key;
a step that fails ends the start with its code of Table 15-3; step 9 has START_TMO. -/
def Obligations.StartBegins : Prop :=
  (∀ (s : State),
    s.wr.step = 0 →
    Runs (.powerGood) s fun t =>
      t.wr.step = 1 ∧ t.cycle = 0 ∧ t.reg R.BC_STARTS = s.reg R.BC_STARTS + 1 ∧
      t.se = { s.se with nonce := (Config.random (s.draws + 1)).setWidth 64, wiping := some 0, wipeCause := 0 } ∧
      t.au = { s.au with startNonce := (Config.random s.draws).setWidth 64 } ∧ (∀ n : Fin 2, t.mr.ports[n].retired = false) ∧
      t.ln.cyc = 0 ∧ t.sio = s.sio ∧ t.mem = s.mem ∧
      OnlyChanges s t ((R.BC_STARTS :: (List.range 64).map R.BC_RETi_INFO)) [.cycle, .se, .au, .mr, .wr, .bc, .ln] []) ∧
  (∀ (s : State) (c : Nat),
    s.wr.ready = false → s.wr.fail = 0 → s.wr.step = 1 → s.se.wiping = some c →
    Runs (.startStepComplete .ok) s fun t =>
      t.wr = { s.wr with step := 2 } ∧ t.se = { s.se with deviceKey := none, siteSeed := none, wiping := none } ∧
      (∀ a, 0x24000000 ≤ a → a < 0x24200000 → t.byte a = 0) ∧ t.bs = { s.bs with vaultOk := 0xFF } ∧
      OnlyChanges s t [] [.wr, .se, .bs] [(0x24000000, 0x200000)]) ∧
  (∀ (s : State),
    s.wr.ready = false → s.wr.fail = 0 → s.wr.step = 1 → s.se.wiping = none →
    Runs (.startStepComplete .ok) s fun t =>
      t.wr = { s.wr with step := 2 } ∧ OnlyChanges s t [] [.wr] []) ∧
  (∀ (s : State),
    s.wr.ready = false → s.wr.fail = 0 → s.wr.step = 2 → s.se.deviceKey = none → (s.se.life = .provisioned ∨ s.se.life = .field) →
    Runs (.startStepComplete .ok) s fun t =>
      t.wr = { s.wr with step := 3 } ∧
      t.se = { s.se with deviceKey := s.se.wrapped, life := if s.se.svc = true ∧ s.se.life = .field then .service else s.se.life } ∧
      OnlyChanges s t [] [.wr, .se] []) ∧
  (∀ (s : State) (p f : Byte),
    s.wr.ready = false → s.wr.fail = 0 → s.wr.step = 4 → p.toNat = s.fld R.SEAL_EXPECT 7 0 → f = 0 →
    s.sio.loopGood = true →
    Runs (.startStepComplete (.sealSwitches p f)) s fun t =>
      t.wr = { s.wr with step := 5 } ∧
      t.sio = { s.sio with sealPattern := p, sealFloat := f, sealMatch := true, loopGoodStart := true } ∧
      t.tp = { s.tp with upAt := some s.cycle, siteSeenAt := s.cycle } ∧ OnlyChanges s t [] [.wr, .sio, .tp] []) ∧
  (∀ (s : State) (p f : Byte),
    s.wr.ready = false → s.wr.fail = 0 → s.wr.step = 4 → (p.toNat ≠ s.fld R.SEAL_EXPECT 7 0 ∨ f ≠ 0 ∨ s.sio.loopGood = false) →
    s.wr.seq = .off →
    Runs (.startStepComplete (.sealSwitches p f)) s fun t =>
      t.wr = { s.wr with fail := 4 } ∧ t.sio.sealPattern = p ∧ t.sio.sealFloat = f ∧ t.tp = s.tp ∧
      OnlyChanges s t [] [.wr, .sio] []) ∧
  (∀ (s : State) (c : BitVec 4),
    s.wr.ready = false → s.wr.fail = 0 → (s.wr.step = 5 ∧ c = 5 ∨ s.wr.step = 6 ∧ c = 7) → s.wr.seq = .off →
    Runs (.startStepComplete (.fail c)) s fun t =>
      t.wr = { s.wr with fail := c } ∧ OnlyChanges s t [] [.wr] []) ∧
  (∀ (s : State) (c : BitVec 4),
    s.wr.ready = false → s.wr.fail = 0 → s.wr.step = 7 → c = 8 → s.wr.seq = .off →
    Runs (.startStepComplete (.fail c)) s fun t =>
      t.wr = { s.wr with fail := 8 } ∧ Asserts s t 66 0 ∧ OnlyChanges s t [] [.wr, .bc] []) ∧
  (∀ (s : State) (c : BitVec 4),
    s.wr.ready = false → s.wr.fail = 0 → (s.wr.step = 8 ∨ s.wr.step = 9) → s.hd.filled = false → c = 8 →
    s.wr.seq = .off →
    Runs (.startStepComplete (.fail c)) s fun t =>
      t.wr = { s.wr with step := 7, fail := 8 } ∧ OnlyChanges s t [] [.wr] []) ∧
  (∀ (s : State) (ts : Vector BrakeTest 4),
    s.wr.ready = false → s.wr.fail = 0 → s.wr.step = 5 → supplyInWindow s = true → (∀ n ∈ brakesOn s, brakeTestOk s n ts[n] = true) →
    Runs (.startStepComplete (.brakeTest ts)) s fun t =>
      t.sio = { s.sio with startTested := true } ∧ OnlyChanges s t [] [.sio] []) ∧
  (∀ (s : State) (ts : Vector BrakeTest 4) (n : Fin 4),
    s.wr.ready = false → s.wr.fail = 0 → s.wr.step = 5 → supplyInWindow s = true → n ∈ brakesOn s → brakeTestOk s n ts[n] = false →
    s.wr.seq = .off →
    Runs (.startStepComplete (.brakeTest ts)) s fun t =>
      t.wr = { s.wr with fail := 6 } ∧ isLocked t n = true ∧ t.sio.startTested = s.sio.startTested ∧
      OnlyChanges s t [R.BRKn_LOCK 0, R.BRKn_LOCK 1, R.BRKn_LOCK 2, R.BRKn_LOCK 3, R.BRKn_REQ 0, R.BRKn_REQ 1, R.BRKn_REQ 2, R.BRKn_REQ 3, R.SIO_IRQ_STAT] [.wr, .sio] []) ∧
  (∀ (s : State),
    s.wr.ready = false → s.wr.fail = 0 → s.wr.step = 7 → s.flag R.SEQ_CTRL 0 = false →
    Runs (.startStepComplete .ok) s fun t =>
      t.wr = { s.wr with step := 9, step9At := some s.cycle } ∧ (∀ c : Fin 16, t.hd.trained[c] = true) ∧
      OnlyChanges s t [] [.wr, .hd] []) ∧
  (∀ (s : State) (c : Nat),
    s.wr.step9At = some c → s.wr.ready = false → s.wr.fail = 0 → msCycles (s.fld R.START_TMO 15 0) ≤ s.cycle - c →
    s.wr.seq = .off →
    Runs (.startTimeout) s fun t =>
      t.wr = { s.wr with fail := 0xC } ∧ OnlyChanges s t [] [.wr] [])

/-- R324 to R328: every reset kind puts the block at its reset values but for what Table 15-8 keeps: retained registers, kept memory, OTP and flash; the cause and
the one before stand in RST_CAUSE; the outputs are at their safe levels and the start is to come. -/
def Obligations.CompanionResets : Prop :=
  (∀ (s : State),
    Runs (.pinReset) s fun t =>
      t.fld R.RST_CAUSE 3 0 = 3 ∧ t.fld R.RST_CAUSE 7 4 = s.fld R.RST_CAUSE 3 0 ∧
      (∀ a, isRetained a = true → a ≠ R.RST_CAUSE → t.reg a = s.reg a) ∧
      (∀ a, isRetained a = false → (∀ p : Fin 36, a ≠ R.TL_MAP p) → a ≠ R.GEOM_TOKEN 0 → t.reg a = resetOf a) ∧
      t.reg (R.GEOM_TOKEN 0) = gradeToken s.grade ∧ t.fused = s.fused ∧
      (∀ a, t.byte a = if byteKept s .pin a then s.byte a else 0) ∧ t.se.rootHash = s.se.rootHash ∧ t.se.wrapped = s.se.wrapped ∧
      t.se.minVer = s.se.minVer ∧ t.se.deviceKey = none ∧ t.se.svc = s.se.svc ∧ t.wr.step = 0 ∧ t.wr.ready = false ∧
      t.wr.accEn = 0 ∧ t.lk.state = .idle ∧ t.barges = [] ∧ SafeState t ∧ t.grade = s.grade ∧ t.pending = s.pending) ∧
  (∀ (s : State) (i : Initiator) (v : Word),
    isKeeper i = true → s.admitted i = true → v = 0x5E7A0001 →
    Runs (.rstReq i v) s fun t =>
      t.fld R.RST_CAUSE 3 0 = 4 ∧ t.fld R.RST_CAUSE 7 4 = s.fld R.RST_CAUSE 3 0 ∧ t.se.svc = s.se.svc ∧ t.wr.step = 0 ∧
      SafeState t ∧ t.pending = s.pending) ∧
  (∀ (s : State) (i : Initiator) (v : Word),
    isKeeper i = true → s.admitted i = true → v ≠ 0x5E7A0001 →
    Runs (.rstReq i v) s fun t =>
      t.bus = .error ∧ Asserts s t 5 0 ∧ OnlyChanges s t [] [.bus, .bc] []) ∧
  (∀ (s : State),
    Runs (.brownout false) s fun t =>
      t.fld R.RST_CAUSE 3 0 = 2 ∧ t.fld R.RST_CAUSE 7 4 = s.fld R.RST_CAUSE 3 0 ∧
      (∀ a, isRetained a = true → a ≠ R.RST_CAUSE → t.reg a = s.reg a) ∧ (∀ a, a < 0x100000000 → t.byte a = 0) ∧
      t.se.svc = s.se.svc ∧ t.wr.step = 0 ∧ SafeState t ∧ t.pending = s.pending) ∧
  (∀ (s : State),
    Runs (.brownout true) s fun t =>
      t.fld R.RST_CAUSE 3 0 = 1 ∧ t.fld R.RST_CAUSE 7 4 = 0 ∧
      (∀ a, a ≠ R.RST_CAUSE → (∀ p : Fin 36, a ≠ R.TL_MAP p) → a ≠ R.GEOM_TOKEN 0 → t.reg a = resetOf a) ∧
      t.reg (R.GEOM_TOKEN 0) = gradeToken s.grade ∧ t.grade = s.grade ∧ t.fused = s.fused ∧ t.mem = [] ∧ t.se.svc = false ∧
      t.wr.step = 0 ∧ SafeState t ∧ t.pending = s.pending)

/-- R316 to R318: an own rail outside its window is recorded with ES120; two readings above TJ_LIMIT in a row assert ES124; a conversion gives the rail's value
and counts runs inside and outside the window of an armed channel. -/
def Obligations.RailsTemperatureAndAdcs : Prop :=
  (∀ (s : State) (m : Fin 8),
    s.bc.levels.contains 120#7 = false → m ≠ 4 → m ≠ 5 →
    Runs (.ownRailFault m .above) s fun t =>
      t.wr = { s.wr with ownAbove := s.wr.ownAbove ||| BitVec.ofNat 8 (2 ^ m.val), ownBelow := s.wr.ownBelow &&& ~~~(BitVec.ofNat 8 (2 ^ m.val)) } ∧
      t.reg R.OWN_LAST = BitVec.ofNat 32 (m.val + 8 + 2 ^ 31) ∧ t.reg R.WR_IRQ_STAT = s.reg R.WR_IRQ_STAT ||| 4#32 ∧
      t.bc.lines = s.bc.lines ++ [⟨120, 0, BitVec.ofNat 16 (m.val + 8), none, s.cycle⟩] ∧
      OnlyChanges s t [R.OWN_LAST, R.WR_IRQ_STAT] [.wr, .bc] []) ∧
  (∀ (s : State) (m : Fin 8),
    s.bc.levels.contains 120#7 = true → (m = 4 ∨ m = 5) → s.hd.trained.all (!·) = true →
    Runs (.ownRailFault m .below) s fun t =>
      t.wr = { s.wr with ownBelow := s.wr.ownBelow ||| BitVec.ofNat 8 (2 ^ m.val), ownAbove := s.wr.ownAbove &&& ~~~(BitVec.ofNat 8 (2 ^ m.val)) } ∧
      t.reg R.OWN_LAST = BitVec.ofNat 32 (m.val + 2 ^ 31) ∧ t.flag R.RST_CAUSE 8 = false ∧
      OnlyChanges s t [R.OWN_LAST, R.WR_IRQ_STAT, R.RST_CAUSE] [.wr] []) ∧
  (∀ (s : State) (m : Fin 8),
    Runs (.ownRailFault m .inside) s fun t =>
      t.wr = { s.wr with ownBelow := s.wr.ownBelow &&& ~~~(BitVec.ofNat 8 (2 ^ m.val)), ownAbove := s.wr.ownAbove &&& ~~~(BitVec.ofNat 8 (2 ^ m.val)) } ∧
      (t.bc.levels.contains 120#7 = true ↔ s.bc.levels.contains 120#7 = true ∧ (t.wr.ownBelow ≠ 0 ∨ t.wr.ownAbove ≠ 0)) ∧
      t.bc.lines = s.bc.lines ∧ OnlyChanges s t [] [.wr, .bc] []) ∧
  (∀ (s : State) (x : Half) (n : BitVec 3),
    readDue s s.wr.tjAt (usCycles 100) = true → (BitVec.ofNat 16 (s.fld R.TJ_LIMIT 15 0)).toInt < x.toInt →
    1 ≤ s.wr.tjRun → s.bc.levels.contains 124#7 = false →
    Runs (.tjSample x n) s fun t =>
      t.wr = { s.wr with tjLast := x, tjSensor := n, tjRun := s.wr.tjRun + 1, tjAt := some s.cycle } ∧ Asserts s t 124 0 ∧
      t.bc.levels.contains 124#7 = true ∧ OnlyChanges s t [] [.wr, .bc] []) ∧
  (∀ (s : State) (x : Half) (n : BitVec 3),
    readDue s s.wr.tjAt (usCycles 100) = true → x.toInt ≤ (BitVec.ofNat 16 (s.fld R.TJ_LIMIT 15 0)).toInt →
    Runs (.tjSample x n) s fun t =>
      t.wr = { s.wr with tjLast := x, tjSensor := n, tjRun := 0, tjAt := some s.cycle } ∧ t.bc.levels.contains 124#7 = false ∧
      t.bc.lines = s.bc.lines ∧ OnlyChanges s t [] [.wr, .bc] []) ∧
  (∀ (s : State) (x : Half) (n : BitVec 3),
    readDue s s.wr.tjAt (usCycles 100) = false →
    Runs (.tjSample x n) s fun t =>
      t = s ∧ OnlyChanges s t [] [] []) ∧
  (∀ (s : State) (i : Initiator) (v : Word),
    isKeeper i = true → s.admitted i = true →
    Runs (.adcTrig i v) s fun t =>
      t.wr = { s.wr with adcDue := s.wr.adcDue ++ ((List.range 16).filter (bits v 15 0).testBit).map (Fin.ofNat 16) } ∧
      t.bus = .ok 0 ∧ OnlyChanges s t [] [.bus, .wr] []) ∧
  (∀ (s : State) (c : Fin 16) (x : BitVec 12),
    adcConverts s c = true → s.wr.adcs[c].armed = false →
    Runs (.adcConversion c x) s fun t =>
      t.wr.adcs[c].mv = BitVec.ofNat 16 (x.toNat * s.fld (R.ACHc_CFG c) 31 16 / 4096) ∧ t.wr.adcs[c].code = x ∧
      t.wr.adcs[c].badRun = 0 ∧ (∀ d : Fin 16, d ≠ c → t.wr.adcs[d] = s.wr.adcs[d]) ∧ t.wr.adcDue = s.wr.adcDue.erase c ∧
      OnlyChanges s t [] [.wr, .bc] []) ∧
  (∀ (s : State) (c : Fin 16) (x : BitVec 12),
    adcConverts s c = true → s.wr.adcs[c].armed = true → x.toNat * s.fld (R.ACHc_CFG c) 31 16 / 4096 < s.fld (R.ACHc_WIN c) 15 0 →
    filt s c ≤ s.wr.adcs[c].badRun + 1 → s.bc.levels.contains 121#7 = false →
    Runs (.adcConversion c x) s fun t =>
      t.wr.adcs[c].inWin = false ∧ t.wr.adcs[c].goodRun = 0 ∧ t.wr.adcs[c].badRun = s.wr.adcs[c].badRun + 1 ∧ Asserts s t 121 0 ∧
      t.wr.seq = s.wr.seq ∧ OnlyChanges s t [] [.wr, .bc] [])

/-- R319, R320, R322: UP is refused unless the sequencer is OFF; a delay that has run begins the next step; a wait that is met starts its delay; a wait that times
out, or a PMBus step that fails, is ES123 with its step and code and starts the down sequence; an ACC_EN readback that differs for more than 8 cycles is ES123 once.
R320, R323: DOWN drives PERST low on every port, DOWN_LEAD later the last pin raised falls, DOWN_GAP apart the rest, disarming its channels; a PMBus master
runs one transaction, a preset before a Keeper one, and reports each end. -/
def Obligations.SequencerUpDownAndPmbus : Prop :=
  (∀ (s : State) (i : Initiator),
    isKeeper i = true → s.admitted i = true → s.wr.seq ≠ .off →
    Runs (.seqCmdUp i) s fun t =>
      t.bus = .error ∧ t.wr = s.wr ∧ Asserts s t 5 0 ∧ OnlyChanges s t [] [.bus, .bc] []) ∧
  (∀ (s : State) (i : Initiator),
    isKeeper i = true → s.admitted i = true → s.wr.seq = .off → s.wr.fail = 0 → 8 ≤ s.wr.step.toNat →
    s.fld (R.SEQs_CFG 0) 3 0 = 6 →
    Runs (.seqCmdUp i) s fun t =>
      (t.wr = { s.wr with seq := .up, seqTab := (List.range 16).map (fun k => (s.reg (R.SEQs_CFG k), s.reg (R.SEQs_DLY k))), seqFailed := false, seqFailStep := 0, seqFailCode := 0, seqStep := 0, seqDelay := true, seqSince := s.cycle, seqPmb := none }) ∧
      t.bus = .ok 0 ∧ OnlyChanges s t [] [.bus, .wr] []) ∧
  (∀ (s : State) (i : Initiator),
    isKeeper i = true → s.admitted i = true → s.wr.seq = .off → (s.wr.fail ≠ 0 ∨ s.wr.step.toNat < 8) →
    Runs (.seqCmdUp i) s fun t =>
      t.bus = .ok 0 ∧ OnlyChanges s t [] [.bus] []) ∧
  (∀ (s : State),
    s.wr.seq = .up → s.wr.seqDelay = true → usCycles (seqDly s s.wr.seqStep) ≤ s.cycle - s.wr.seqSince →
    s.wr.seqStep < 15 → seqField s (s.wr.seqStep + 1) 3 0 = 0 → s.wr.step ≠ 8 →
    Runs (.seqStepDone .done) s fun t =>
      t.wr = { s.wr with seq := .on, seqStep := s.wr.seqStep + 1, seqDelay := false, seqSince := s.cycle, seqPmb := none } ∧
      t.mr = { s.mr with railsUp := some s.cycle } ∧ t.reg R.WR_IRQ_STAT = s.reg R.WR_IRQ_STAT ||| 1#32 ∧
      OnlyChanges s t [R.WR_IRQ_STAT] [.wr, .mr] []) ∧
  (∀ (s : State),
    s.wr.seq = .up → s.wr.seqDelay = false → seqMet s s.wr.seqStep = true → (seqWaits s s.wr.seqStep = true → s.cycle - s.wr.seqSince ≤ msCycles (seqField s s.wr.seqStep 15 8)) →
    Runs (.seqStepDone .done) s fun t =>
      t.wr = { s.wr with seqDelay := true, seqSince := s.cycle } ∧ OnlyChanges s t [] [.wr] []) ∧
  (∀ (s : State),
    s.wr.seq = .up → s.wr.seqDelay = false → seqWaits s s.wr.seqStep = true → seqMet s s.wr.seqStep = false →
    msCycles (seqField s s.wr.seqStep 15 8) ≤ s.cycle - s.wr.seqSince → s.wr.step ≠ 8 → serving s 0 = false →
    serving s 1 = false →
    Runs (.seqStepDone .timeout) s fun t =>
      t.wr = { s.wr with seq := .down, seqFailed := true, seqFailStep := BitVec.ofNat 4 s.wr.seqStep, seqFailCode := 1, seqDelay := false, seqSince := s.cycle } ∧
      t.mr.railsUp = none ∧ t.mr.ports[(0 : Fin 2)].state = .off ∧ t.mr.ports[(1 : Fin 2)].state = .off ∧
      (t.reg R.WR_IRQ_STAT).getLsbD 1 = true ∧ Asserts s t 123 0 ∧
      OnlyChanges s t [R.WR_IRQ_STAT, R.MR_IRQ_STAT] [.wr, .mr, .bc] []) ∧
  (∀ (s : State),
    s.wr.seq = .up → s.wr.seqDelay = false → seqWaits s s.wr.seqStep = true → seqMet s s.wr.seqStep = true →
    msCycles (seqField s s.wr.seqStep 15 8) < s.cycle - s.wr.seqSince → s.wr.step ≠ 8 → serving s 0 = false →
    serving s 1 = false →
    Runs (.seqStepDone .done) s fun t =>
      t.wr = { s.wr with seq := .down, seqFailed := true, seqFailStep := BitVec.ofNat 4 s.wr.seqStep, seqFailCode := 1, seqDelay := false, seqSince := s.cycle } ∧
      t.mr.railsUp = none ∧ Asserts s t 123 0 ∧ OnlyChanges s t [R.WR_IRQ_STAT, R.MR_IRQ_STAT] [.wr, .mr, .bc] []) ∧
  (∀ (s : State) (c : BitVec 3),
    s.wr.seq = .up → s.wr.seqDelay = false → s.wr.seqPmb = some c → c ≠ 0 → s.wr.step ≠ 8 → serving s 0 = false →
    serving s 1 = false →
    Runs (.seqStepDone .pmbusFailed) s fun t =>
      t.wr = { s.wr with seq := .down, seqFailed := true, seqFailStep := BitVec.ofNat 4 s.wr.seqStep, seqFailCode := 2, seqDelay := false, seqSince := s.cycle } ∧
      Asserts s t 123 0 ∧ OnlyChanges s t [R.WR_IRQ_STAT, R.MR_IRQ_STAT] [.wr, .mr, .bc] []) ∧
  (∀ (s : State) (n : Fin 8) (l : Bool),
    l = s.wr.accEn.getLsbD n.val →
    Runs (.accEnReadbackMismatch n l) s fun t =>
      t.wr = { s.wr with accBad := s.wr.accBad.set n none } ∧ OnlyChanges s t [] [.wr] []) ∧
  (∀ (s : State) (n : Fin 8) (l : Bool),
    l ≠ s.wr.accEn.getLsbD n.val → s.wr.accBad[n] = none →
    Runs (.accEnReadbackMismatch n l) s fun t =>
      t.wr = { s.wr with accBad := s.wr.accBad.set n (some (s.cycle, false)) } ∧ OnlyChanges s t [] [.wr] []) ∧
  (∀ (s : State) (n : Fin 8) (l : Bool) (c : Nat),
    l ≠ s.wr.accEn.getLsbD n.val → s.wr.accBad[n] = some (c, false) → 8 ≤ s.cycle - c →
    Runs (.accEnReadbackMismatch n l) s fun t =>
      t.wr = { s.wr with accBad := s.wr.accBad.set n (some (c, true)) } ∧ Asserts s t 123 0 ∧ OnlyChanges s t [] [.wr, .bc] []) ∧
  (∀ (s : State) (n : Fin 8) (l b : Bool) (c : Nat),
    l ≠ s.wr.accEn.getLsbD n.val → s.wr.accBad[n] = some (c, b) → (b = true ∨ s.cycle - c < 8) →
    Runs (.accEnReadbackMismatch n l) s fun t =>
      t = s ∧ OnlyChanges s t [] [] []) ∧
  (∀ (s : State) (i : Initiator),
    isKeeper i = true → s.admitted i = true → s.wr.seq ≠ .down → serving s 0 = false → serving s 1 = false →
    Runs (.seqCmdDown i) s fun t =>
      t.wr = { s.wr with seq := .down, seqDelay := false, seqSince := s.cycle } ∧ t.mr.railsUp = none ∧
      t.mr.ports[(0 : Fin 2)].state = .off ∧ t.mr.ports[(1 : Fin 2)].state = .off ∧ (∀ n : Fin 2, t.mr.ports[n].perst = true) ∧
      t.bus = .ok 0 ∧ OnlyChanges s t [R.MR_IRQ_STAT] [.bus, .wr, .mr] []) ∧
  (∀ (s : State) (i : Initiator),
    isKeeper i = true → s.admitted i = true → s.wr.seq = .down →
    Runs (.seqCmdDown i) s fun t =>
      t.bus = .ok 0 ∧ OnlyChanges s t [] [.bus] []) ∧
  (∀ (s : State) (p : Fin 8) (r : List (Fin 8)),
    s.wr.seq = .down → s.wr.raised = r ++ [p] → r ≠ [] → (if s.wr.seqDelay then msCycles (s.fld R.SEQ_CTRL 15 8) else usCycles (s.fld R.SEQ_CTRL 31 16)) ≤ s.cycle - s.wr.seqSince →
    Runs (.downSequenceStep) s fun t =>
      t.wr.raised = r ∧ t.wr.accEn = s.wr.accEn &&& ~~~(BitVec.ofNat 8 (2 ^ p.val)) ∧ t.wr.seq = .down ∧ t.wr.seqDelay = true ∧
      t.wr.seqSince = s.cycle ∧ (∀ c : Fin 16, (channelsOfPin s p.val).contains c.val = true → t.wr.adcs[c].armed = false) ∧
      OnlyChanges s t [] [.wr, .bc] []) ∧
  (∀ (s : State) (p : Fin 8),
    s.wr.seq = .down → s.wr.raised = [p] → (if s.wr.seqDelay then msCycles (s.fld R.SEQ_CTRL 15 8) else usCycles (s.fld R.SEQ_CTRL 31 16)) ≤ s.cycle - s.wr.seqSince →
    Runs (.downSequenceStep) s fun t =>
      t.wr.raised = [] ∧ t.wr.accEn = s.wr.accEn &&& ~~~(BitVec.ofNat 8 (2 ^ p.val)) ∧
      t.wr.seq = (if s.wr.seqFailed then .failed else .off) ∧ t.wr.seqFailed = false ∧ (∀ c : Fin 16, t.wr.adcs[c].armed = false) ∧
      OnlyChanges s t [] [.wr, .bc] []) ∧
  (∀ (s : State),
    s.wr.seq = .down → s.wr.raised = [] → (if s.wr.seqDelay then msCycles (s.fld R.SEQ_CTRL 15 8) else usCycles (s.fld R.SEQ_CTRL 31 16)) ≤ s.cycle - s.wr.seqSince →
    Runs (.downSequenceStep) s fun t =>
      t.wr.seq = (if s.wr.seqFailed then .failed else .off) ∧ t.wr.accEn = s.wr.accEn ∧ OnlyChanges s t [] [.wr, .bc] []) ∧
  (∀ (s : State) (i : Initiator) (b : Fin 2) (v : Word) (z : List Byte),
    isKeeper i = true → s.admitted i = true → s.wr.pmbs[b] = ⟨none, none, none, z⟩ →
    Runs (.pmbusTransfer i b v) s fun t =>
      t.wr = { s.wr with pmbs := s.wr.pmbs.set b ⟨some (.keeper v), none, none, smbusSent s b (.keeper v)⟩ } ∧
      t.flag (R.PMBb_STAT b) 0 = true ∧ t.bus = .ok 0 ∧ OnlyChanges s t [R.PMBb_STAT b] [.bus, .wr] []) ∧
  (∀ (s : State) (i : Initiator) (b : Fin 2) (v : Word) (x : PmbXfer) (q : Option (Fin 8)) (y : Option Word) (z : List Byte),
    isKeeper i = true → s.admitted i = true → s.wr.pmbs[b] = ⟨some x, q, y, z⟩ →
    Runs (.pmbusTransfer i b v) s fun t =>
      t.wr = { s.wr with pmbs := s.wr.pmbs.set b ⟨some x, q, some v, z⟩ } ∧ OnlyChanges s t [R.PMBb_STAT b] [.bus, .wr] []) ∧
  (∀ (s : State) (b : Fin 2) (d : Half) (e : Byte) (w : Word) (y : Option Word) (z : List Byte),
    s.wr.pmbs[b] = ⟨some (.keeper w), none, y, z⟩ → bits w 17 16 = 3 → (pecOn s b = true → pecOf (z ++ bytesLE 2 d.toNat) = e) →
    Runs (.pmbusDone b (.done d e)) s fun t =>
      t.reg (R.PMBb_DATA b) = d.setWidth 32 ∧ t.fld (R.PMBb_STAT b) 3 1 = 0 ∧ t.reg R.WR_IRQ_STAT = s.reg R.WR_IRQ_STAT ||| 8#32 ∧
      t.wr = { s.wr with pmbs := s.wr.pmbs.set b ⟨y.map .keeper, none, none, (match y with | some w => smbusSent t b (.keeper w) | none => z)⟩ } ∧
      OnlyChanges s t [R.PMBb_DATA b, R.PMBb_STAT b, R.WR_IRQ_STAT] [.wr] []) ∧
  (∀ (s : State) (b : Fin 2) (d : Half) (e : Byte) (w : Word) (z : List Byte),
    s.wr.pmbs[b] = ⟨some (.keeper w), none, none, z⟩ → bits w 17 16 = 2 → (pecOn s b = true → pecOf (z ++ bytesLE 1 d.toNat) = e) →
    Runs (.pmbusDone b (.done d e)) s fun t =>
      t.reg (R.PMBb_DATA b) = (d &&& 0xFF#16).setWidth 32 ∧ t.fld (R.PMBb_STAT b) 3 1 = 0 ∧ t.flag (R.PMBb_STAT b) 0 = false ∧
      t.wr = { s.wr with pmbs := s.wr.pmbs.set b ⟨none, none, none, z⟩ } ∧
      OnlyChanges s t [R.PMBb_DATA b, R.PMBb_STAT b, R.WR_IRQ_STAT] [.wr] []) ∧
  (∀ (s : State) (b : Fin 2) (d : Half) (e : Byte) (w : Word) (z : List Byte),
    s.wr.pmbs[b] = ⟨some (.keeper w), none, none, z⟩ → bits w 17 16 < 2 →
    Runs (.pmbusDone b (.done d e)) s fun t =>
      t.fld (R.PMBb_STAT b) 3 1 = 0 ∧ t.flag (R.PMBb_STAT b) 0 = false ∧ t.reg R.WR_IRQ_STAT = s.reg R.WR_IRQ_STAT ||| 8#32 ∧
      t.wr = { s.wr with pmbs := s.wr.pmbs.set b ⟨none, none, none, z⟩ } ∧ OnlyChanges s t [R.PMBb_STAT b, R.WR_IRQ_STAT] [.wr] []) ∧
  (∀ (s : State) (b : Fin 2) (d : Half) (e : Byte) (w : Word) (z : List Byte),
    s.wr.pmbs[b] = ⟨some (.keeper w), none, none, z⟩ → 2 ≤ bits w 17 16 → pecOn s b = true → pecOf (z ++ readBytes w d) ≠ e →
    Runs (.pmbusDone b (.done d e)) s fun t =>
      t.fld (R.PMBb_STAT b) 3 1 = 2 ∧ t.reg (R.PMBb_DATA b) = s.reg (R.PMBb_DATA b) ∧
      t.reg R.WR_IRQ_STAT = s.reg R.WR_IRQ_STAT ||| 16#32 ∧ t.wr = { s.wr with pmbs := s.wr.pmbs.set b ⟨none, none, none, z⟩ } ∧
      Asserts s t 122 0 ∧ OnlyChanges s t [R.PMBb_STAT b, R.WR_IRQ_STAT] [.wr, .bc] []) ∧
  (∀ (s : State) (b : Fin 2) (p : Fin 8) (e : SmbusEnd) (x : PmbXfer) (z : List Byte),
    s.wr.pmbs[b] = ⟨some x, none, none, z⟩ → x = .preset p → e ∈ [SmbusEnd.nack, .timeout, .arbitration] →
    Runs (.pmbusDone b e) s fun t =>
      t.wr = { s.wr with seqPmb := some (BitVec.ofNat 3 (smbusCode s b (xferWord s b x) e)), pmbs := s.wr.pmbs.set b ⟨none, none, none, z⟩ } ∧
      t.fld (R.PMBb_STAT b) 3 1 = (match e with | .nack => 1 | .timeout => 3 | .arbitration => 4 | .done _ _ => 0) ∧
      t.flag (R.PMBb_STAT b) 0 = false ∧ t.reg R.WR_IRQ_STAT = s.reg R.WR_IRQ_STAT ||| 16#32 ∧ Asserts s t 122 0 ∧
      OnlyChanges s t [R.PMBb_STAT b, R.WR_IRQ_STAT] [.wr, .bc] []) ∧
  (∀ (s : State) (b : Fin 2) (x : PmbXfer), bits (xferWord s b x) 17 16 = 1 → pecOn s b = true →
    smbusSent s b x = [BitVec.ofNat 8 (2 * bits (xferWord s b x) 6 0), BitVec.ofNat 8 (bits (xferWord s b x) 15 8)] ++ bytesLE 2 (xferData s b x) ++
      [pecOf ([BitVec.ofNat 8 (2 * bits (xferWord s b x) 6 0), BitVec.ofNat 8 (bits (xferWord s b x) 15 8)] ++ bytesLE 2 (xferData s b x))])

/-- R330, R332, R335, R396, R12, R13: a read of Hold gives its bytes, a write stores them; a corrected word is counted with ES65; an uncorrectable one is a bus error
with ES64 and its address; protected bytes refuse a write with ES70; before the fill an access waits; outside Hold, or for a Keeper pair outside its windows KW0 to KW3 (R391, R397), it is refused.
R333, R334, R337: the scrub reads word after word, counts corrected ones and passes; a device that calls for refresh raises ES67; a failed calibration is counted
with ES66; a Keeper plan entry becomes one log slot, or is lost with ES69. -/
def Obligations.HoldAccessesScrubAndPlans : Prop :=
  (∀ (s : State) (i : Initiator) (a : BitVec 40) (n : Nat) (e : Ecc),
    s.admitted i = true → s.hd.filled = true → inHold s a.toNat n = true → reachesHold s i a.toNat n false = true →
    holdEcc s a.toNat n e = .clean →
    Runs (.holdAccess i a (.read n) e) s fun t =>
      t.bus = .ok (BitVec.ofNat 64 (natLE (s.bytes a.toNat (min n 8)))) ∧
      OnlyChanges s t ((List.range 64).map R.LNu_OVF ++ [R.LN_IRQ_STAT]) [.bus, .ln] []) ∧
  (∀ (s : State) (i : Initiator) (a : BitVec 40) (d : List Byte) (e : Ecc),
    s.admitted i = true → s.hd.filled = true → inHold s a.toNat d.length = true → reachesHold s i a.toNat d.length true = true →
    holdProtected s a.toNat d.length = false → (wholeWords a.toNat d.length = true ∨ holdEcc s a.toNat d.length e = .clean) →
    meets a.toNat d.length (bankBase s (!activeBank s)) (libSize s) = false →
    Runs (.holdAccess i a (.write d) e) s fun t =>
      t.bytes a.toNat d.length = d ∧
      (t.hd = { s.hd with unc := s.hd.unc.filter (fun w => !(wordsOf a.toNat d.length).contains w) }) ∧ t.bus = .ok 0 ∧
      OnlyChanges s t ((List.range 64).map R.LNu_OVF ++ [R.LN_IRQ_STAT]) [.bus, .hd, .ln] [(a.toNat, d.length)]) ∧
  (∀ (s : State) (i : Initiator) (a : BitVec 40) (d : List Byte) (e : Ecc),
    s.admitted i = true → s.hd.filled = true → inHold s a.toNat d.length = true → reachesHold s i a.toNat d.length true = true →
    holdProtected s a.toNat d.length = false → (wholeWords a.toNat d.length = true ∨ holdEcc s a.toNat d.length e = .clean) →
    meets a.toNat d.length (bankBase s (!activeBank s)) (libSize s) = true →
    Runs (.holdAccess i a (.write d) e) s fun t =>
      t.bytes a.toNat d.length = d ∧ (if activeBank s then t.fld R.SN_LIB_STAT 3 0 else t.fld R.SN_LIB_STAT 7 4) = 0 ∧
      t.sn.verifying ≠ some (!activeBank s) ∧
      t.se = { s.se with sm3 := if s.sn.verifying = some (!activeBank s) then s.se.sm3.erase .library else s.se.sm3 } ∧
      t.bus = .ok 0 ∧
      OnlyChanges s t ((List.range 64).map R.LNu_OVF ++ [R.LN_IRQ_STAT, R.SN_LIB_STAT]) [.bus, .hd, .ln, .sn, .se] [(a.toNat, d.length)]) ∧
  (∀ (s : State) (i : Initiator) (a : BitVec 40) (n : Nat) (e : Ecc),
    s.admitted i = true → s.hd.filled = true → inHold s a.toNat n = true → reachesHold s i a.toNat n false = true →
    holdEcc s a.toNat n e = .corrected →
    Runs (.holdAccess i a (.read n) e) s fun t =>
      t.bus = .ok (BitVec.ofNat 64 (natLE (s.bytes a.toNat (min n 8)))) ∧
      t.fld R.HD_CORR 31 0 = min (s.fld R.HD_CORR 31 0 + 1) 0xFFFFFFFF ∧
      t.fld (R.HD_CHc_STAT (holdChannel a.toNat)) 31 16 = min (s.fld (R.HD_CHc_STAT (holdChannel a.toNat)) 31 16 + 1) 0xFFFF ∧
      Asserts s t 65 0 ∧
      OnlyChanges s t ((List.range 64).map R.LNu_OVF ++ [R.LN_IRQ_STAT, R.HD_CORR, R.HD_CHc_STAT (holdChannel a.toNat)]) [.bus, .bc, .ln] []) ∧
  (∀ (s : State) (i : Initiator) (a : BitVec 40) (n : Nat) (e : Ecc),
    s.admitted i = true → s.hd.filled = true → inHold s a.toNat n = true → reachesHold s i a.toNat n false = true →
    holdEcc s a.toNat n e = .uncorrectable →
    Runs (.holdAccess i a (.read n) e) s fun t =>
      let w := (holdUncIn s a.toNat n).getD a.toNat
      t.bus = .error ∧ t.reg R.HD_UNC_ADDR_LO = BitVec.ofNat 32 w ∧ t.reg R.HD_UNC_ADDR_HI = BitVec.ofNat 32 (w / 2 ^ 32) ∧
      t.reg R.HD_IRQ_STAT = s.reg R.HD_IRQ_STAT ||| 1#32 ∧ t.hd.unc.contains (16 * (w / 16)) = true ∧
      ((t.bc.lines.drop s.bc.lines.length).map (fun l => (l.src, l.chan)) = (64#7, 0#6) :: (if isKeeper i then [(5#7, 0#6)] else [])) ∧
      OnlyChanges s t ((List.range 64).map R.LNu_OVF ++ [R.LN_IRQ_STAT, R.HD_UNC_ADDR_LO, R.HD_UNC_ADDR_HI, R.HD_IRQ_STAT]) [.bus, .hd, .bc, .ln] []) ∧
  (∀ (s : State) (i : Initiator) (a : BitVec 40) (d : List Byte) (e : Ecc),
    s.admitted i = true → s.hd.filled = true → inHold s a.toNat d.length = true → reachesHold s i a.toNat d.length true = true →
    holdProtected s a.toNat d.length = true →
    Runs (.holdAccess i a (.write d) e) s fun t =>
      t.bus = .error ∧ t.reg R.HD_IRQ_STAT = s.reg R.HD_IRQ_STAT ||| 2#32 ∧
      ((t.bc.lines.drop s.bc.lines.length).map (fun l => (l.src, l.chan)) = (if isKeeper i then [(5#7, 0#6)] else []) ++ [(70#7, 0#6)]) ∧
      OnlyChanges s t [R.HD_IRQ_STAT] [.bus, .bc] []) ∧
  (∀ (s : State) (i : Initiator) (a : BitVec 40) (p : MemOp) (e : Ecc),
    s.admitted i = true → inHold s a.toNat (opLen p) = true → reachesHold s i a.toNat (opLen p) (isWrite p) = true →
    s.hd.filled = false →
    Runs (.holdAccess i a p e) s fun t =>
      t.bus = .none ∧ t.hd = { s.hd with waits := s.hd.waits ++ [⟨i, a.toNat, p, e⟩] } ∧ OnlyChanges s t [] [.bus, .hd] []) ∧
  (∀ (s : State) (i : Initiator) (a : BitVec 40) (p : MemOp) (e : Ecc),
    (inHold s a.toNat (opLen p) = false ∨ reachesHold s i a.toNat (opLen p) (isWrite p) = false) → s.scrapped = false →
    Runs (.holdAccess i a p e) s fun t =>
      t.bus = .error ∧ Asserts s t (if isKeeper i then 5 else 10) 0 ∧ OnlyChanges s t [] [.bus, .bc] []) ∧
  (∀ (s : State) (e : Ecc),
    s.hd.filled = true → s.flag R.HD_CTRL 0 = true → s.flag R.HD_CTRL 1 = true → scrubDue s = true →
    holdEcc s (holdBase + s.hd.scrub) 16 e = .clean → s.hd.scrub + 16 < holdUsable s →
    Runs (.scrubRead e) s fun t =>
      t.hd = { s.hd with scrub := s.hd.scrub + 16 } ∧ OnlyChanges s t [] [.hd] []) ∧
  (∀ (s : State) (e : Ecc),
    s.hd.filled = true → s.flag R.HD_CTRL 0 = true → s.flag R.HD_CTRL 1 = true → scrubDue s = true →
    holdEcc s (holdBase + s.hd.scrub) 16 e = .clean → holdUsable s ≤ s.hd.scrub + 16 →
    Runs (.scrubRead e) s fun t =>
      t.hd = { s.hd with scrub := 0, scrubPassAt := s.cycle, scrubFrom := s.hd.scrubFrom + scrubPeriod s } ∧
      t.fld R.HD_SCRUB_STAT 31 16 = (s.fld R.HD_SCRUB_STAT 31 16 + 1) % 65536 ∧ t.reg R.HD_IRQ_STAT = s.reg R.HD_IRQ_STAT ||| 8#32 ∧
      OnlyChanges s t [R.HD_SCRUB_STAT, R.HD_IRQ_STAT] [.hd] []) ∧
  (∀ (s : State) (e : Ecc),
    s.hd.filled = true → s.flag R.HD_CTRL 0 = true → s.flag R.HD_CTRL 1 = true → scrubDue s = true →
    holdEcc s (holdBase + s.hd.scrub) 16 e = .corrected → s.hd.scrub + 16 < holdUsable s →
    Runs (.scrubRead e) s fun t =>
      t.hd = { s.hd with scrub := s.hd.scrub + 16 } ∧ t.fld R.HD_CORR 31 0 = min (s.fld R.HD_CORR 31 0 + 1) 0xFFFFFFFF ∧
      Asserts s t 65 0 ∧
      OnlyChanges s t ((List.range 64).map R.LNu_OVF ++ [R.LN_IRQ_STAT, R.HD_CORR, R.HD_CHc_STAT (holdChannel (holdBase + s.hd.scrub))]) [.hd, .bc, .ln] []) ∧
  (∀ (s : State) (e : Ecc),
    s.hd.filled = true → s.flag R.HD_CTRL 0 = true → s.flag R.HD_CTRL 1 = true → scrubDue s = true →
    holdEcc s (holdBase + s.hd.scrub) 16 e = .uncorrectable → s.hd.scrub + 16 < holdUsable s →
    Runs (.scrubRead e) s fun t =>
      t.hd.scrub = s.hd.scrub + 16 ∧ t.hd.unc.contains (16 * ((holdBase + s.hd.scrub) / 16)) = true ∧
      t.reg R.HD_UNC_ADDR_LO = BitVec.ofNat 32 (holdBase + s.hd.scrub) ∧ t.reg R.HD_IRQ_STAT = s.reg R.HD_IRQ_STAT ||| 1#32 ∧
      Asserts s t 64 0 ∧
      OnlyChanges s t ((List.range 64).map R.LNu_OVF ++ [R.LN_IRQ_STAT, R.HD_UNC_ADDR_LO, R.HD_UNC_ADDR_HI, R.HD_IRQ_STAT]) [.hd, .bc, .ln] []) ∧
  (∀ (s : State) (e : Ecc),
    (s.hd.filled = false ∨ s.flag R.HD_CTRL 0 = false ∨ s.flag R.HD_CTRL 1 = false ∨ scrubDue s = false) →
    Runs (.scrubRead e) s fun t =>
      t = s ∧ OnlyChanges s t [] [] []) ∧
  (∀ (s : State) (c : Fin 16) (r : BitVec 5),
    readDue s s.hd.rateAt[c] (msCycles 16) = true →
    Runs (.refreshRateCheck c r) s fun t =>
      t.hd = { s.hd with rates := s.hd.rates.set c r, rateAt := s.hd.rateAt.set c (some s.cycle) } ∧
      (Config.refreshAlarm r = true → t.bc.levels.contains 67#7 = true ∧ t.reg R.HD_IRQ_STAT = s.reg R.HD_IRQ_STAT ||| 16#32) ∧
      (Config.refreshAlarm r = true → s.bc.levels.contains 67#7 = false → Asserts s t 67 0) ∧
      (Config.refreshAlarm r = false → t.reg R.HD_IRQ_STAT = s.reg R.HD_IRQ_STAT ∧ t.ln = s.ln) ∧
      OnlyChanges s t ((List.range 64).map R.LNu_OVF ++ [R.LN_IRQ_STAT, R.HD_IRQ_STAT]) [.hd, .bc, .ln] []) ∧
  (∀ (s : State) (c : Fin 16) (r : BitVec 5),
    readDue s s.hd.rateAt[c] (msCycles 16) = false →
    Runs (.refreshRateCheck c r) s fun t =>
      t = s ∧ OnlyChanges s t [] [] []) ∧
  (∀ (s : State) (c : Fin 16),
    readDue s s.hd.zqAt[c] (msCycles 100) = true →
    Runs (.zqCalibration c true) s fun t =>
      t.hd = { s.hd with zqAt := s.hd.zqAt.set c (some s.cycle) } ∧ OnlyChanges s t [] [.hd] []) ∧
  (∀ (s : State) (c : Fin 16),
    readDue s s.hd.zqAt[c] (msCycles 100) = true →
    Runs (.zqCalibration c false) s fun t =>
      t.hd = { s.hd with zqAt := s.hd.zqAt.set c (some s.cycle) } ∧
      t.fld (R.HD_CHc_STAT c) 15 8 = min (s.fld (R.HD_CHc_STAT c) 15 8 + 1) 0xFF ∧ Asserts s t 66 0 ∧
      OnlyChanges s t ((List.range 64).map R.LNu_OVF ++ [R.LN_IRQ_STAT, R.HD_CHc_STAT c]) [.hd, .bc, .ln] []) ∧
  (∀ (s : State) (c : Fin 16) (ok : Bool),
    readDue s s.hd.zqAt[c] (msCycles 100) = false →
    Runs (.zqCalibration c ok) s fun t =>
      t = s ∧ OnlyChanges s t [] [] []) ∧
  (∀ (s : State) (i : Initiator) (v : Word),
    isKeeper i = true → s.admitted i = true →
    Runs (.recorderPlanAppend i v true) s fun t =>
      t.reg (R.HD_REC_PUTn 15) = v ∧ t.fld R.HD_REC_LOST 31 0 = min (s.fld R.HD_REC_LOST 31 0 + 1) 0xFFFFFFFF ∧ Asserts s t 69 0 ∧
      t.bus = .ok 0 ∧ OnlyChanges s t [R.HD_REC_PUTn 15, R.HD_REC_LOST] [.bus, .bc] []) ∧
  (∀ (s : State) (i : Initiator) (v : Word) (h : Nat),
    isKeeper i = true → s.admitted i = true → s.hd.filled = true → 0 < logSlots s → h = (s.reg R.HD_REC_HEAD).toNat % logSlots s →
    shutHold s (recBase s + 64 * h) 64 = false →
    Runs (.recorderPlanAppend i v false) s fun t =>
      t.reg R.HD_REC_HEAD = BitVec.ofNat 32 ((h + 1) % logSlots s) ∧
      (t.bytes (recBase s + 64 * h) 64 = withSlotChk ((List.range 15).flatMap (fun n => bytesLE 4 (s.reg (R.HD_REC_PUTn n)).toNat)) h) ∧
      t.reg (R.HD_REC_PUTn 15) = v ∧ t.hd.recTimes = (s.cycle :: s.hd.recTimes).take (logSlots s) ∧ t.bus = .ok 0 ∧
      OnlyChanges s t ((List.range 64).map R.LNu_OVF ++ [R.LN_IRQ_STAT, R.HD_REC_PUTn 15, R.HD_REC_HEAD, R.HD_IRQ_STAT, R.SN_LIB_STAT]) [.bus, .hd, .sn, .se, .ln] [(recBase s + 64 * h, 64)]) ∧
  (∀ (s : State) (i : Initiator) (v : Word) (h : Nat),
    isKeeper i = true → s.admitted i = true → s.hd.filled = true → 0 < logSlots s → h = (s.reg R.HD_REC_HEAD).toNat % logSlots s →
    shutHold s (recBase s + 64 * h) 64 = true →
    Runs (.recorderPlanAppend i v false) s fun t =>
      t.reg (R.HD_REC_PUTn 15) = v ∧ t.fld R.HD_REC_LOST 31 0 = min (s.fld R.HD_REC_LOST 31 0 + 1) 0xFFFFFFFF ∧
      t.reg R.HD_IRQ_STAT = s.reg R.HD_IRQ_STAT ||| 2#32 ∧
      ((t.bc.lines.drop s.bc.lines.length).map (fun l => (l.src, l.chan)) = [(70#7, 0#6), (69#7, 0#6)]) ∧ t.bus = .ok 0 ∧
      OnlyChanges s t [R.HD_REC_PUTn 15, R.HD_REC_LOST, R.HD_IRQ_STAT] [.bus, .bc] []) ∧
  (∀ (s : State) (i : Initiator) (v : Word),
    isKeeper i = true → s.admitted i = true → s.hd.filled = false →
    Runs (.recorderPlanAppend i v false) s fun t =>
      (t.hd = { s.hd with recWait := s.hd.recWait ++ [⟨true, (List.range 15).flatMap (fun n => bytesLE 4 (s.reg (R.HD_REC_PUTn n)).toNat)⟩] }) ∧
      t.reg (R.HD_REC_PUTn 15) = v ∧ t.bus = .ok 0 ∧ OnlyChanges s t [R.HD_REC_PUTn 15] [.bus, .hd] [])

/-- R340 to R342, R349: an accepted request sets PENDING; one that is refused is a bus error with ES74 and its code; at idle the bank, cleared where asked, passes to
its new owner; the current owner's code cancels. -/
def Obligations.BankHandovers : Prop :=
  (∀ (s : State) (i : Initiator) (b : Fin 64) (v : Word),
    s.mayWrite i (R.BANKb_OWN b) = true → handoverCode s i b v = 0 → s.bs.banks[b].next = none →
    Runs (.bankHandoverRequest i b v) s fun t =>
      t.bs.banks[b] = { s.bs.banks[b] with next := some (BitVec.ofNat 4 (bits v 3 0)), clear := v.getLsbD 4, code := 0, askedAt := s.cycle, idleAt := if bankIdle s b then some s.cycle else none } ∧
      (∀ k : Fin 64, k ≠ b → t.bs.banks[k] = s.bs.banks[k]) ∧ t.reg (R.BANKb_OWN b) = v &&& 0x1F#32 ∧ t.bus = .ok 0 ∧
      OnlyChanges s t [R.BANKb_OWN b] [.bus, .bs] []) ∧
  (∀ (s : State) (i : Initiator) (b : Fin 64) (v : Word),
    s.mayWrite i (R.BANKb_OWN b) = true → handoverCode s i b v = 0 → s.bs.banks[b].next.isSome = true →
    Runs (.bankHandoverRequest i b v) s fun t =>
      t.bs.banks[b] = { s.bs.banks[b] with next := none, clear := false, code := 0, idleAt := none } ∧
      (∀ k : Fin 64, k ≠ b → t.bs.banks[k] = s.bs.banks[k]) ∧ OnlyChanges s t [R.BANKb_OWN b] [.bus, .bs] []) ∧
  (∀ (s : State) (i : Initiator) (b : Fin 64) (v : Word),
    i = .harbour → s.mayWrite i (R.BANKb_OWN b) = true → actsFor s i b = false →
    Runs (.bankHandoverRequest i b v) s fun t =>
      t.bs.banks[b] = { s.bs.banks[b] with code := 1 } ∧ (∀ k : Fin 64, k ≠ b → t.bs.banks[k] = s.bs.banks[k]) ∧ t.bus = .error ∧
      t.reg R.BS_IRQ_STAT = s.reg R.BS_IRQ_STAT ||| 2#32 ∧ Asserts s t 74 0 ∧ OnlyChanges s t [R.BS_IRQ_STAT] [.bus, .bs, .bc] []) ∧
  (∀ (s : State) (b : Fin 64) (o : BitVec 4),
    s.bs.banks[b].next = some o → bankIdle s b = true → s.bs.banks[b].clear = false →
    Runs (.bankHandoverComplete b) s fun t =>
      t.bs.banks[b] = { s.bs.banks[b] with owner := o, next := none, clear := false, idleAt := none } ∧
      (∀ k : Fin 64, k ≠ b → t.bs.banks[k] = s.bs.banks[k]) ∧ t.reg R.BS_IRQ_STAT = s.reg R.BS_IRQ_STAT ||| 1#32 ∧
      OnlyChanges s t [R.BS_IRQ_STAT] [.bs] []) ∧
  (∀ (s : State) (b : Fin 64) (o : BitVec 4) (c : Nat),
    s.bs.banks[b].next = some o → bankIdle s b = true → s.bs.banks[b].clear = true → s.bs.banks[b].idleAt = some c →
    32768 ≤ s.cycle - c →
    Runs (.bankHandoverComplete b) s fun t =>
      t.bs.banks[b] = { s.bs.banks[b] with owner := o, next := none, clear := false, idleAt := none } ∧
      (∀ k : Fin 64, k ≠ b → t.bs.banks[k] = s.bs.banks[k]) ∧
      (∀ a, 0x20000000 + 0x80000 * b.val ≤ a → a < 0x20000000 + 0x80000 * b.val + 0x80000 → t.byte a = 0) ∧
      OnlyChanges s t [R.BS_IRQ_STAT] [.bs] [(0x20000000 + 0x80000 * b.val, 0x80000)]) ∧
  (∀ (s : State) (b : Fin 64),
    (s.bs.banks[b].next = none ∨ bankIdle s b = false) →
    Runs (.bankHandoverComplete b) s fun t =>
      t = s ∧ OnlyChanges s t [] [] []) ∧
  (∀ (s : State) (b : Fin 64),
    s.bs.banks[b].next.isSome = true → bankIdle s b = true → s.bs.banks[b].clear = true → (∀ c, s.bs.banks[b].idleAt = some c → s.cycle - c < 32768) →
    Runs (.bankHandoverComplete b) s fun t =>
      t.bs.banks[b] = { s.bs.banks[b] with idleAt := some (s.bs.banks[b].idleAt.getD s.cycle) } ∧
      (∀ k : Fin 64, k ≠ b → t.bs.banks[k] = s.bs.banks[k]) ∧ OnlyChanges s t [] [.bs] []) ∧
  (∀ (s : State) (i : Initiator) (v : Word),
    isKeeper i = true → s.admitted i = true → bits v 5 0 < 32 →
    Runs (.bsLostClr i v) s fun t =>
      t.reg R.BS_LOST_LO = s.reg R.BS_LOST_LO &&& ~~~(BitVec.ofNat 32 (2 ^ bits v 5 0)) ∧ t.bus = .ok 0 ∧
      OnlyChanges s t [R.BS_LOST_LO] [.bus] []) ∧
  (∀ (s : State) (i : Initiator) (v : Word),
    isKeeper i = true → s.admitted i = true → 32 ≤ bits v 5 0 →
    Runs (.bsLostClr i v) s fun t =>
      t.reg R.BS_LOST_HI = s.reg R.BS_LOST_HI &&& ~~~(BitVec.ofNat 32 (2 ^ (bits v 5 0 - 32))) ∧
      OnlyChanges s t [R.BS_LOST_HI] [.bus] [])

/-- R347 to R350: a run starts for the owner while its engine is free; segments follow each other; a destroying run leaves zeros; a failing run marks the bank FAILED
with ES77; a restore that fails gives RESTORE, ES72 and the bank's contents lost. -/
def Obligations.MarchTests : Prop :=
  (∀ (s : State) (i : Initiator) (v : Word) (b : Fin 64),
    s.mayWrite i R.BS_MARCH_CMD = true → b = Fin.ofNat 64 (bits v 5 0) → v.getLsbD 9 = true → v.getLsbD 8 = false →
    s.wr.ready = true → actsFor s i b = true → s.bs.marches.any (fun m => m.bank.val % 8 == b.val % 8) = false →
    Runs (.marchStart i v) s fun t =>
      t.bs = { s.bs with marches := s.bs.marches ++ [⟨b, false, 0, s.cycle⟩] } ∧ t.bus = .ok 0 ∧ OnlyChanges s t [] [.bus, .bs] []) ∧
  (∀ (s : State) (i : Initiator) (v : Word) (b : Fin 64),
    s.mayWrite i R.BS_MARCH_CMD = true → b = Fin.ofNat 64 (bits v 5 0) → v.getLsbD 9 = true → v.getLsbD 8 = true →
    s.wr.ready = true → actsFor s i b = true → s.bs.marches.any (fun m => m.bank.val % 8 == b.val % 8) = false →
    Runs (.marchStart i v) s fun t =>
      t.bs = { s.bs with marches := s.bs.marches ++ [⟨b, true, 0, s.cycle⟩] } ∧
      t.reg R.BS_MARCH_RUN = BitVec.ofNat 32 (b.val + 2 ^ 31) ∧ OnlyChanges s t [R.BS_MARCH_RUN] [.bus, .bs] []) ∧
  (∀ (s : State) (i : Initiator) (v : Word),
    s.mayWrite i R.BS_MARCH_CMD = true → v.getLsbD 9 = false →
    Runs (.marchStart i v) s fun t =>
      t.bus = .ok 0 ∧ OnlyChanges s t [] [.bus] []) ∧
  (∀ (s : State) (i : Initiator) (v : Word) (b : Fin 64),
    isKeeper i = true → s.mayWrite i R.BS_MARCH_CMD = true → b = Fin.ofNat 64 (bits v 5 0) → v.getLsbD 9 = true →
    (s.wr.ready = false ∨ actsFor s i b = false ∨ s.bs.marches.any (fun m => m.bank.val % 8 == b.val % 8) = true) →
    Runs (.marchStart i v) s fun t =>
      t.reg R.BS_MARCH_STAT = BitVec.ofNat 32 (5 + 16 * b.val) ∧ t.bs = s.bs ∧ t.bus = .error ∧ Asserts s t 5 0 ∧
      OnlyChanges s t [R.BS_MARCH_STAT] [.bus, .bc] []) ∧
  (∀ (s : State) (b : Fin 64) (m : March),
    s.bs.marches = [m] → m.bank = b → m.preserve = true → m.seg < 128 → segLen * (m.seg + 1) ≤ s.cycle - m.begun →
    s.bs.waits = [] →
    Runs (.marchSegmentDone b .good) s fun t =>
      t.bs = { s.bs with marches := [{ m with seg := m.seg + 1 }] } ∧ OnlyChanges s t [] [.bs] []) ∧
  (∀ (s : State) (b : Fin 64) (m : March) (w : BitVec 15) (k : Bool),
    marchOn s b = some m → m.bank = b → m.preserve = true → m.seg < 128 → segLen * (m.seg + 1) ≤ s.cycle - m.begun →
    s.bs.waits = [] → s.fld R.BS_MARCH_RUN 5 0 = b.val → s.wr.ready = true →
    Runs (.marchSegmentDone b (.bad w k)) s fun t =>
      (t.bs.marches = s.bs.marches.filter (fun x => x.bank ≠ b)) ∧ t.bs.banks = s.bs.banks ∧
      t.reg R.BS_MARCH_STAT = BitVec.ofNat 32 (4 + 16 * b.val + 2 ^ 16 * w.toNat) ∧ t.reg R.BS_MARCH_RUN = 0 ∧
      t.reg R.BS_IRQ_STAT = s.reg R.BS_IRQ_STAT ||| 12#32 ∧
      (if b.val < 32 then (t.reg R.BS_LOST_LO).getLsbD b.val = true else (t.reg R.BS_LOST_HI).getLsbD (b.val - 32) = true) ∧
      Asserts s t 72 0 ∧
      OnlyChanges s t [R.BS_MARCH_STAT, R.BS_MARCH_RUN, R.BS_IRQ_STAT, if b.val < 32 then R.BS_LOST_LO else R.BS_LOST_HI] [.bs, .bc] []) ∧
  (∀ (s : State) (b : Fin 64) (m : March),
    marchOn s b = some m → m.bank = b → m.preserve = false → 458752 ≤ s.cycle - m.begun → s.wr.step ≠ 6 →
    Runs (.marchDone b .good) s fun t =>
      (t.bs.marches = s.bs.marches.filter (fun x => x.bank ≠ b)) ∧ t.bs.banks = s.bs.banks ∧
      t.reg R.BS_MARCH_STAT = BitVec.ofNat 32 (1 + 16 * b.val) ∧ t.reg R.BS_IRQ_STAT = s.reg R.BS_IRQ_STAT ||| 4#32 ∧
      (∀ a, 0x20000000 + 0x80000 * b.val ≤ a → a < 0x20000000 + 0x80000 * b.val + 0x80000 → t.byte a = 0) ∧
      OnlyChanges s t [R.BS_MARCH_STAT, R.BS_IRQ_STAT] [.bs] [(0x20000000 + 0x80000 * b.val, 0x80000)]) ∧
  (∀ (s : State) (b : Fin 64) (m : March),
    marchOn s b = some m → m.bank = b → m.preserve = true → 128 ≤ m.seg → 524288 ≤ s.cycle - m.begun →
    s.fld R.BS_MARCH_RUN 5 0 = b.val → s.wr.step ≠ 6 →
    Runs (.marchDone b .good) s fun t =>
      (t.bs.marches = s.bs.marches.filter (fun x => x.bank ≠ b)) ∧ t.bs.banks = s.bs.banks ∧
      t.reg R.BS_MARCH_STAT = BitVec.ofNat 32 (1 + 16 * b.val) ∧ t.reg R.BS_MARCH_RUN = 0 ∧
      t.reg R.BS_IRQ_STAT = s.reg R.BS_IRQ_STAT ||| 4#32 ∧
      OnlyChanges s t [R.BS_MARCH_STAT, R.BS_MARCH_RUN, R.BS_IRQ_STAT] [.bs] []) ∧
  (∀ (s : State) (b : Fin 64) (m : March) (r : MarchFinding),
    marchOn s b = some m → (s.cycle - m.begun < marchLen m ∨ (m.preserve = true ∧ m.seg < 128)) →
    Runs (.marchDone b r) s fun t =>
      t = s ∧ OnlyChanges s t [] [] []) ∧
  (∀ (s : State) (b : Fin 64) (m : March) (i : Initiator) (a n : Nat),
    s.bs.marches = [m] → m.bank = b → m.preserve = true → m.seg < 128 → segLen * (m.seg + 1) ≤ s.cycle - m.begun →
    s.bs.waits = [⟨i, a, .read n, .clean⟩] → banksOf a n = [b] → s.hd.filled = true → s.bs.banks[b].failed = false →
    meets a n (0x20000000 + 0x80000 * b.val + 4096 * (m.seg + 1)) 4096 = false →
    Runs (.marchSegmentDone b .good) s fun t =>
      t.bs = { s.bs with marches := [{ m with seg := m.seg + 1 }], waits := [] } ∧
      t.bus = .ok (BitVec.ofNat 64 (natLE (s.bytes a (min n 8)))) ∧ OnlyChanges s t [] [.bus, .bs] []) ∧
  (∀ (s : State) (b : Fin 64) (m : March) (w : BitVec 15) (k : Bool),
    marchOn s b = some m → m.bank = b → m.preserve = false → 458752 ≤ s.cycle - m.begun → s.wr.ready = true →
    Runs (.marchDone b (.bad w k)) s fun t =>
      t.bs.banks[b] = { s.bs.banks[b] with failed := true } ∧ (∀ k : Fin 64, k ≠ b → t.bs.banks[k] = s.bs.banks[k]) ∧
      (t.bs.marches = s.bs.marches.filter (fun x => x.bank ≠ b)) ∧
      t.reg R.BS_MARCH_STAT = BitVec.ofNat 32 ((if k then 3 else 2) + 16 * b.val + 2 ^ 16 * w.toNat) ∧
      t.reg R.BS_IRQ_STAT = s.reg R.BS_IRQ_STAT ||| 12#32 ∧ Asserts s t 77 0 ∧
      OnlyChanges s t [R.BS_MARCH_STAT, R.BS_IRQ_STAT] [.bs, .bc] [(0x20000000 + 0x80000 * b.val, 0x80000)]) ∧
  (∀ (s : State) (b : Fin 64) (m : March),
    marchOn s b = some m → m.bank = b → m.preserve = false → 458752 ≤ s.cycle - m.begun → s.wr.step = 6 →
    b.val + 8 < 64 →
    Runs (.marchDone b .good) s fun t =>
      (t.bs.marches = s.bs.marches.filter (fun x => x.bank ≠ b) ++ [⟨Fin.ofNat 64 (b.val + 8), marchKeeps s (b.val + 8), 0, s.cycle⟩]) ∧
      t.reg R.BS_MARCH_STAT = BitVec.ofNat 32 (1 + 16 * b.val) ∧
      (∀ a, 0x20000000 + 0x80000 * b.val ≤ a → a < 0x20000000 + 0x80000 * b.val + 0x80000 → t.byte a = 0) ∧
      OnlyChanges s t [R.BS_MARCH_STAT, R.BS_MARCH_RUN, R.BS_IRQ_STAT] [.bs] [(0x20000000 + 0x80000 * b.val, 0x80000)]) ∧
  (∀ (s : State) (b : Fin 64) (m : March) (w : BitVec 15) (k : Bool),
    marchOn s b = some m → m.bank = b → m.preserve = false → 458752 ≤ s.cycle - m.begun → s.wr.ready = false →
    s.wr.fail = 0 → s.wr.seq = .off →
    Runs (.marchDone b (.bad w k)) s fun t =>
      t.wr = { s.wr with fail := 7 } ∧ (t.bs.marches = s.bs.marches.filter (fun x => x.bank ≠ b)) ∧ t.bs.banks = s.bs.banks ∧
      t.reg R.BS_MARCH_STAT = BitVec.ofNat 32 ((if k then 3 else 2) + 16 * b.val + 2 ^ 16 * w.toNat) ∧
      OnlyChanges s t [R.BS_MARCH_STAT, R.BS_IRQ_STAT] [.bs, .wr] [(0x20000000 + 0x80000 * b.val, 0x80000)]) ∧
  (∀ (s : State) (b : Fin 64) (m : March) (w : BitVec 15) (k : Bool),
    marchOn s b = some m → m.bank = b → m.preserve = true → m.seg < 128 → segLen * (m.seg + 1) ≤ s.cycle - m.begun →
    s.bs.waits = [] → s.wr.ready = false → s.wr.fail = 0 → s.wr.seq = .off →
    Runs (.marchSegmentDone b (.bad w k)) s fun t =>
      t.wr = { s.wr with fail := 7 } ∧ (t.bs.marches = s.bs.marches.filter (fun x => x.bank ≠ b)) ∧
      t.reg R.BS_MARCH_STAT = BitVec.ofNat 32 (4 + 16 * b.val + 2 ^ 16 * w.toNat) ∧
      (if b.val < 32 then (t.reg R.BS_LOST_LO).getLsbD b.val = true else (t.reg R.BS_LOST_HI).getLsbD (b.val - 32) = true) ∧
      Asserts s t 72 0 ∧
      OnlyChanges s t [R.BS_MARCH_STAT, R.BS_MARCH_RUN, R.BS_IRQ_STAT, if b.val < 32 then R.BS_LOST_LO else R.BS_LOST_HI] [.bs, .bc, .wr] [])

/-- R340, R341, R345, R347, R397, R138: a core reads its TCM, Basin and the tiles' SRAM and writes what Table 19-3 allows; a foreign bank, a reserved address and part 0
of the Vault are refused, a pending or marching bank answers a bus error and is counted; an uncorrectable word is a bus error with its memory's source. -/
def Obligations.OnChipAccesses : Prop :=
  (∀ (s : State) (i : Initiator) (a : Word) (n : Nat) (e : Ecc),
    s.admitted i = true → (chipMem a.toNat n = some (.tcm 0) ∨ chipMem a.toNat n = some (.tcm 1)) → isKeeper i = true →
    codeFinding e = .clean →
    Runs (.onChipSramAccess i a (.read n) e) s fun t =>
      t.bus = .ok (BitVec.ofNat 64 (natLE (s.bytes a.toNat (min n 8)))) ∧ OnlyChanges s t [] [.bus] []) ∧
  (∀ (s : State) (i : Initiator) (a : Word) (n : Nat) (e : Ecc),
    s.admitted i = true → chipMem a.toNat n = some (.tcm 1) → isKeeper i = true → codeFinding e = .corrected →
    Runs (.onChipSramAccess i a (.read n) e) s fun t =>
      t.bus = .ok (BitVec.ofNat 64 (natLE (s.bytes a.toNat (min n 8)))) ∧
      t.fld R.KC_TCM_CORR 31 16 = min (s.fld R.KC_TCM_CORR 31 16 + 1) 0xFFFF ∧ Asserts s t 4 0 ∧
      OnlyChanges s t [R.KC_TCM_CORR] [.bus, .bc] []) ∧
  (∀ (s : State) (i : Initiator) (a : Word) (n : Nat) (e : Ecc) (k : Fin 2),
    s.admitted i = true → chipMem a.toNat n = some (.tcm k) → isKeeper i = true → codeFinding e = .uncorrectable →
    Runs (.onChipSramAccess i a (.read n) e) s fun t =>
      t.bus = .error ∧ ((t.bc.lines.drop s.bc.lines.length).map (fun l => (l.src, l.chan)) = [(3#7, 0#6), (5#7, 0#6)]) ∧
      OnlyChanges s t [] [.bus, .bc] []) ∧
  (∀ (s : State) (i : Initiator) (a : Word) (d : List Byte) (e : Ecc) (k : Fin 2),
    s.admitted i = true → chipMem a.toNat d.length = some (.tcm k) → i = pairInit k → (wholeWords a.toNat d.length = true ∨ codeFinding e = .clean) →
    Runs (.onChipSramAccess i a (.write d) e) s fun t =>
      t.bytes a.toNat d.length = d ∧ t.bus = .ok 0 ∧ OnlyChanges s t [] [.bus] [(a.toNat, d.length)]) ∧
  (∀ (s : State) (i : Initiator) (a : Word) (d : List Byte) (e : Ecc),
    s.admitted i = true → chipMem a.toNat d.length = some .basin → banksAdmit s (.core i) true a.toNat d.length = true →
    basinWaits s a.toNat d.length = false → (wholeWords a.toNat d.length = true ∨ codeFinding e = .clean) →
    Runs (.onChipSramAccess i a (.write d) e) s fun t =>
      t.bytes a.toNat d.length = d ∧ t.bus = .ok 0 ∧ OnlyChanges s t [] [.bus] [(a.toNat, d.length)]) ∧
  (∀ (s : State) (i : Initiator) (a : Word) (n : Nat) (e : Ecc),
    s.admitted i = true → chipMem a.toNat n = some .basin → banksAdmit s (.core i) false a.toNat n = true →
    basinWaits s a.toNat n = false → codeFinding e = .clean →
    Runs (.onChipSramAccess i a (.read n) e) s fun t =>
      t.bus = .ok (BitVec.ofNat 64 (natLE (s.bytes a.toNat (min n 8)))) ∧ OnlyChanges s t [] [.bus] []) ∧
  (∀ (s : State) (i : Initiator) (a : Word) (p : MemOp) (e : Ecc),
    s.admitted i = true → chipMem a.toNat (opLen p) = some .basin → banksAdmit s (.core i) (isWrite p) a.toNat (opLen p) = true →
    basinWaits s a.toNat (opLen p) = true →
    Runs (.onChipSramAccess i a p e) s fun t =>
      t.bus = .none ∧ t.bs = { s.bs with waits := s.bs.waits ++ [⟨i, a.toNat, p, e⟩] } ∧ OnlyChanges s t [] [.bus, .bs] []) ∧
  (∀ (s : State) (i : Initiator) (a : Word) (d : List Byte) (e : Ecc),
    s.admitted i = true → chipMem a.toNat d.length = some .basin → banksAdmit s (.core i) true a.toNat d.length = false →
    (banksOf a.toNat d.length).any (bankBlocked s) = false →
    Runs (.onChipSramAccess i a (.write d) e) s fun t =>
      t.bus = .error ∧ t.reg R.BS_IRQ_STAT = s.reg R.BS_IRQ_STAT ||| 2#32 ∧
      ((t.bc.lines.drop s.bc.lines.length).map (fun l => (l.src, l.chan)) = (if isKeeper i then [(5#7, 0#6)] else []) ++ [(74#7, 0#6)]) ∧
      OnlyChanges s t [R.BS_IRQ_STAT] [.bus, .bc] []) ∧
  (∀ (s : State) (i : Initiator) (a : Word) (p : MemOp) (e : Ecc) (b : Fin 64),
    s.admitted i = true → chipMem a.toNat (opLen p) = some .basin → (banksOf a.toNat (opLen p)) = [b] →
    s.bs.banks[b].next.isSome = true →
    Runs (.onChipSramAccess i a p e) s fun t =>
      t.bus = .error ∧ t.bs.banks[b] = { s.bs.banks[b] with refused := min (s.bs.banks[b].refused + 1) 0xFFFF } ∧
      (∀ k : Fin 64, k ≠ b → t.bs.banks[k] = s.bs.banks[k]) ∧ OnlyChanges s t [] [.bus, .bs, .bc] []) ∧
  (∀ (s : State) (i : Initiator) (a : Word) (n : Nat) (e : Ecc),
    s.admitted i = true → chipMem a.toNat n = some .vault → vaultAdmits s i a.toNat = true → codeFinding e = .clean →
    Runs (.onChipSramAccess i a (.read n) e) s fun t =>
      t.bus = .ok (BitVec.ofNat 64 (natLE (s.bytes a.toNat (min n 8)))) ∧ OnlyChanges s t [] [.bus] []) ∧
  (∀ (s : State) (i : Initiator) (a : Word) (n : Nat) (e : Ecc),
    s.admitted i = true → i = .harbour → chipMem a.toNat n = some .vault → s.se.wiping = none →
    Runs (.onChipSramAccess i a (.read n) e) s fun t =>
      t.bus = .error ∧ t.reg R.BS_IRQ_STAT = s.reg R.BS_IRQ_STAT ||| 2#32 ∧ Asserts s t 74 0 ∧
      OnlyChanges s t [R.BS_IRQ_STAT] [.bus, .bc] []) ∧
  (∀ (s : State) (i : Initiator) (a : Word) (p : Fin 36) (d : List Byte) (e : Ecc),
    s.admitted i = true → isKeeper i = true → chipMem a.toNat d.length = some (.tile p) → (wholeWords a.toNat d.length = true ∨ codeFinding e = .clean) →
    Runs (.onChipSramAccess i a (.write d) e) s fun t =>
      t.bytes a.toNat d.length = d ∧ t.bus = .ok 0 ∧ (∀ q : Fin 36, t.tiles[q] = { s.tiles[q] with saved := t.tiles[q].saved }) ∧
      (∀ q : Fin 36, q ≠ p → t.tiles[q] = s.tiles[q]) ∧ OnlyChanges s t [] [.bus, .tiles, .ports] [(a.toNat, d.length)]) ∧
  (∀ (s : State) (i : Initiator) (a : Word) (p : Fin 36) (n : Nat) (e : Ecc),
    s.admitted i = true → chipMem a.toNat n = some (.tile p) → s.ports.seq = [] → codeFinding e = .clean →
    Runs (.onChipSramAccess i a (.read n) e) s fun t =>
      t.bus = .ok (BitVec.ofNat 64 (natLE (s.bytes a.toNat (min n 8)))) ∧ OnlyChanges s t [] [.bus] []) ∧
  (∀ (s : State) (i : Initiator) (a : Word) (p : Fin 36) (n : Nat) (e : Ecc),
    s.admitted i = true → chipMem a.toNat n = some (.tile p) → codeFinding e = .uncorrectable → tileHeld s p = false →
    Runs (.onChipSramAccess i a (.read n) e) s fun t =>
      t.bus = .error ∧ t.tiles[p].run = .faulted ∧ (t.reg (R.TL_FAULT p)).getLsbD 0 = true) ∧
  (∀ (s : State) (i : Initiator) (a : Word) (p : MemOp) (e : Ecc),
    s.scrapped = false → chipMem a.toNat (opLen p) = none →
    Runs (.onChipSramAccess i a p e) s fun t =>
      t.bus = .error ∧ Asserts s t (if isKeeper i then 5 else 10) 0 ∧ OnlyChanges s t [] [.bus, .bc] []) ∧
  (∀ (s : State) (i : Initiator) (a : Word) (n : Nat) (e : Ecc),
    s.admitted i = true → chipMem a.toNat n = some .rom → codeFinding e = .clean →
    Runs (.onChipSramAccess i a (.read n) e) s fun t =>
      t.bus = .ok s.free.1 ∧ OnlyChanges s t [] [.bus] []) ∧
  (∀ (s : State) (i : Initiator) (a : Word) (d : List Byte) (e : Ecc),
    s.scrapped = false → chipMem a.toNat d.length = some .rom →
    Runs (.onChipSramAccess i a (.write d) e) s fun t =>
      t.bus = .error ∧ Asserts s t (if isKeeper i then 5 else 10) 0 ∧ OnlyChanges s t [] [.bus, .bc] []) ∧
  (∀ (s : State) (i : Initiator) (a : Word) (k : Fin 8) (d : List Byte) (e : Ecc),
    s.admitted i = true → isKeeper i = false → a.toNat = 0x32800000 + 8 * k.val → d.length = 8 → codeFinding e = .clean →
    Runs (.onChipSramAccess i a (.write d) e) s fun t =>
      t.kc.platform = { s.kc.platform with mtimecmp := s.kc.platform.mtimecmp.set k (BitVec.ofNat 64 (natLE d)) } ∧
      t.kc.pairs = s.kc.pairs ∧ t.bus = .ok 0 ∧ OnlyChanges s t [] [.bus, .kc] []) ∧
  (∀ (s : State) (i : Initiator) (a : Word) (e : Ecc),
    s.admitted i = true → isKeeper i = false → a.toNat = 0x32807FF8 → codeFinding e = .clean →
    Runs (.onChipSramAccess i a (.read 8) e) s fun t =>
      t.bus = .ok (s.kc.platform.mtime + BitVec.ofNat 64 ((s.cycle - s.kc.platform.mtimeAt) / 30)) ∧ OnlyChanges s t [] [.bus] []) ∧
  (∀ (s : State) (i : Initiator) (a : Word) (p : MemOp) (e : Ecc),
    s.scrapped = false → isKeeper i = true → chipMem a.toNat (opLen p) = some .platform →
    Runs (.onChipSramAccess i a p e) s fun t =>
      t.bus = .error ∧ Asserts s t 5 0 ∧ OnlyChanges s t [] [.bus, .bc] [])

/-- R366, R367, R375, Table 18-12: a node sends one HELLO on each port that carries frames; a HELLO shows the neighbour; 4 ms of silence take it away with
ES118; a bad frame is discarded with ES113, a lost link is ES112; a frame with no hops left is counted as failed without an event. -/
def Obligations.HelloAndLinks : Prop :=
  (∀ (s : State),
    readDue s s.tp.helloAt (msCycles 1) = true → s.tp.ports.all (!·.disabled) = true → tpOn s = true →
    (∀ q : Fin 4, s.flag (R.TPq_CFG q) 0 = decide (q.val < 2)) →
    Runs (.helloSend) s fun t =>
      (t.tp = { s.tp with helloAt := some s.cycle, seq := s.tp.seq + 2, out := ([(0 : Fin 4), 1].map (fun q => (q, (⟨s.cycle, false, ownAddr s, 64, s.tp.seq + BitVec.ofNat 32 q.val, .hello ⟨shownRole s, s.sio.sealPattern, portPos s q, s.tp.addr.isSome, q, BitVec.ofNat 4 (servoCode s.tp.servos[0].state + 4 * servoCode s.tp.servos[1].state)⟩⟩ : Zholi)))).foldl queueFrame s.tp.out }) ∧
      OnlyChanges s t ((List.range 64).map R.LNu_OVF ++ [R.LN_IRQ_STAT]) [.tp, .ln] []) ∧
  (∀ (s : State),
    readDue s s.tp.helloAt (msCycles 1) = false →
    Runs (.helloSend) s fun t =>
      t = s ∧ OnlyChanges s t [] [] []) ∧
  (∀ (s : State) (q : Fin 4) (h : ZHead) (m : HelloMsg),
    tpUsable s q = true → h.hops ≠ 0 → q = 0 → tpRole s = 1 → s.tp.acting = false →
    Runs (.hello q h m) s fun t =>
      t.tp = { s.tp with ports := s.tp.ports.set q { s.tp.ports[q] with link := true, neighbour := some h.src, nAssigned := m.assigned, nPos := m.pos, lastHello := s.cycle } } ∧
      t.reg (R.TPq_FRAMES q) = s.reg (R.TPq_FRAMES q) + 1 ∧
      OnlyChanges s t ((List.range 64).map R.LNu_OVF ++ [R.LN_IRQ_STAT, R.TPq_FRAMES q]) [.tp, .ln] []) ∧
  (∀ (s : State) (q : Fin 4) (h : ZHead) (m : HelloMsg),
    tpUsable s q = true → h.hops ≠ 0 → q = 1 → tpRole s = 1 → s.tp.acting = false →
    Runs (.hello q h m) s fun t =>
      t.tp.pos = s.tp.pos.set 0 (m.pos + 1) ∧
      t.tp.ports[q] = { s.tp.ports[q] with link := true, neighbour := some h.src, nAssigned := m.assigned, nPos := m.pos, lastHello := s.cycle } ∧
      (∀ p : Fin 4, p ≠ q → t.tp.ports[p] = s.tp.ports[p]) ∧
      OnlyChanges s t ((List.range 64).map R.LNu_OVF ++ [R.LN_IRQ_STAT, R.TPq_FRAMES q]) [.tp, .ln] []) ∧
  (∀ (s : State) (q : Fin 4) (h : ZHead) (m : HelloMsg),
    tpUsable s q = true → h.hops = 0 →
    Runs (.hello q h m) s fun t =>
      t.fld (R.TPq_ERR q) 15 0 = min (s.fld (R.TPq_ERR q) 15 0 + 1) 0xFFFF ∧ t.reg (R.TPq_FRAMES q) = s.reg (R.TPq_FRAMES q) + 1 ∧
      t.tp = s.tp ∧ OnlyChanges s t ((List.range 64).map R.LNu_OVF ++ [R.LN_IRQ_STAT, R.TPq_ERR q, R.TPq_FRAMES q]) [.ln] []) ∧
  (∀ (s : State) (q : Fin 4),
    tpUsable s q = true → s.tp.ports[q].neighbour.isSome = true → s.tp.ports[q].lastHello + msCycles 4 ≤ s.cycle →
    Runs (.neighbourSilent q) s fun t =>
      t.tp.ports[q] = { s.tp.ports[q] with neighbour := none, nAssigned := false } ∧
      (∀ p : Fin 4, p ≠ q → t.tp.ports[p] = s.tp.ports[p]) ∧ t.reg R.TP_IRQ_STAT = s.reg R.TP_IRQ_STAT ||| 8#32 ∧
      Asserts s t 118 q ∧ OnlyChanges s t ((List.range 64).map R.LNu_OVF ++ [R.LN_IRQ_STAT, R.TP_IRQ_STAT]) [.tp, .bc, .ln] []) ∧
  (∀ (s : State) (q : Fin 4) (x : RawFrame),
    tpUsable s q = true → framePasses x = false → cutFrame x.bytes = none →
    Runs (.zholiFrameBad q x) s fun t =>
      t.fld (R.TPq_ERR q) 15 0 = min (s.fld (R.TPq_ERR q) 15 0 + 1) 0xFFFF ∧ Asserts s t 113 q ∧
      OnlyChanges s t ((List.range 64).map R.LNu_OVF ++ [R.LN_IRQ_STAT, R.TPq_ERR q]) [.bc, .ln] []) ∧
  (∀ (s : State) (q : Fin 4) (x : RawFrame) (h : ZHead) (b : ZBody),
    tpUsable s q = true → framePasses x = false → cutFrame x.bytes = some (h, b) →
    Runs (.zholiFrameBad q x) s fun t =>
      t.fld (R.TPq_ERR q) 15 0 = min (s.fld (R.TPq_ERR q) 15 0 + 1) 0xFFFF ∧ Asserts s t 113 q ∧
      (t.tp = { s.tp with out := ((((if upperPort q || h.hops == 0 || isOwn s h then [] else cutPorts s q h b).filter (tpUsable s)).map (fun r => (r, (⟨s.cycle, true, h.src, h.hops - 1, h.seq, b⟩ : Zholi))))).foldl queueFrame s.tp.out }) ∧
      OnlyChanges s t ((List.range 64).map R.LNu_OVF ++ [R.LN_IRQ_STAT, R.TPq_ERR q]) [.tp, .bc, .ln] []) ∧
  (∀ (s : State) (q : Fin 4) (x : RawFrame),
    (tpUsable s q = false ∨ framePasses x = true) →
    Runs (.zholiFrameBad q x) s fun t =>
      t = s ∧ OnlyChanges s t [] [] []) ∧
  (∀ (s : State) (q : Fin 4),
    tpUsable s q = true →
    Runs (.tpLinkLoss q false) s fun t =>
      t.tp.ports[q] = { s.tp.ports[q] with link := false } ∧ (∀ p : Fin 4, p ≠ q → t.tp.ports[p] = s.tp.ports[p]) ∧
      Asserts s t 112 q ∧ OnlyChanges s t ((List.range 64).map R.LNu_OVF ++ [R.LN_IRQ_STAT]) [.tp, .bc, .ln] []) ∧
  (∀ (s : State) (q : Fin 4),
    tpUsable s q = true →
    Runs (.tpLinkLoss q true) s fun t =>
      t.fld (R.TPq_ERR q) 31 16 = min (s.fld (R.TPq_ERR q) 31 16 + 1) 0xFFFF ∧ Asserts s t 112 q ∧
      OnlyChanges s t ((List.range 64).map R.LNu_OVF ++ [R.LN_IRQ_STAT, R.TPq_ERR q]) [.bc, .ln] []) ∧
  (∀ (s : State) (q : Fin 4) (d : Word),
    tpUsable s q = true → readDue s s.tp.ports[q].pdelayAt (msCycles 1000) = true →
    Runs (.peerDelay q d) s fun t =>
      t.tp = { s.tp with ports := s.tp.ports.set q { s.tp.ports[q] with pdelay := d, pdelayAt := some s.cycle }, out := queueFrame s.tp.out (q, ⟨s.cycle, false, ownAddr s, 0, 0, .ptp ⟨.pdelayReq, .site, 0, 0⟩⟩) } ∧
      t.reg (R.TPq_FRAMES q) = s.reg (R.TPq_FRAMES q) + 2 ∧
      OnlyChanges s t ((List.range 64).map R.LNu_OVF ++ [R.LN_IRQ_STAT, R.TPq_FRAMES q]) [.tp, .ln] []) ∧
  (∀ (s : State) (q : Fin 4) (d : Word),
    (tpUsable s q = false ∨ readDue s s.tp.ports[q].pdelayAt (msCycles 1000) = false) →
    Runs (.peerDelay q d) s fun t =>
      t = s ∧ OnlyChanges s t [] [] [])

/-- R369 to R371: a node without an address claims, again after 100 ms; the responsible master assigns or passes on; an ASSIGN for the node gives its address or ES116;
a table is checked, acknowledged, in effect where it passes, and passed on. -/
def Obligations.AddressesAndTables : Prop :=
  (∀ (s : State),
    tpOn s = true → tpRole s = 1 → s.tp.addr = none → s.tp.code = 0 → s.tp.claimAt = none →
    Runs (.claimSend) s fun t =>
      (t.tp = { s.tp with claimAt := some s.cycle, seq := s.tp.seq + 1, out := (((([0, 1] : List (Fin 4)).filter (tpUsable s)).map (fun r => (r, (⟨s.cycle, false, (0 : BitVec 4) ++ s.sio.sealPattern, 64, s.tp.seq, .claim ⟨1, s.sio.sealPattern, 0, s.tp.pos[0]⟩⟩ : Zholi))))).foldl queueFrame s.tp.out }) ∧
      OnlyChanges s t ((List.range 64).map R.LNu_OVF ++ [R.LN_IRQ_STAT]) [.tp, .ln] []) ∧
  (∀ (s : State) (c : Nat),
    tpOn s = true → tpRole s = 1 → s.tp.addr = none → (s.tp.code = 0 ∨ s.tp.code = 6) → s.tp.claimAt = some c →
    c + msCycles 100 ≤ s.cycle →
    Runs (.claimSend) s fun t =>
      (t.tp = { s.tp with code := 6, claimAt := some s.cycle, seq := s.tp.seq + 1, out := (((([0, 1] : List (Fin 4)).filter (tpUsable s)).map (fun r => (r, (⟨s.cycle, false, (0 : BitVec 4) ++ s.sio.sealPattern, 64, s.tp.seq, .claim ⟨1, s.sio.sealPattern, 0, s.tp.pos[0]⟩⟩ : Zholi))))).foldl queueFrame s.tp.out }) ∧
      OnlyChanges s t ((List.range 64).map R.LNu_OVF ++ [R.LN_IRQ_STAT]) [.tp, .ln] []) ∧
  (∀ (s : State) (q : Fin 4) (h : ZHead) (m : ClaimMsg),
    tpUsable s q = true → h.hops ≠ 0 → isOwn s h = false → tpRole s = 1 → s.tp.acting = false →
    Runs (.claim q h m) s fun t =>
      (t.tp = { s.tp with out := (((([otherPort q]).filter (tpUsable s)).map (fun r => (r, (⟨s.cycle, false, h.src, h.hops - 1, h.seq, .claim m⟩ : Zholi))))).foldl queueFrame s.tp.out }) ∧
      t.reg (R.TPq_FRAMES q) = s.reg (R.TPq_FRAMES q) + 1 ∧
      OnlyChanges s t ((List.range 64).map R.LNu_OVF ++ [R.LN_IRQ_STAT, R.TPq_FRAMES q]) [.tp, .ln] []) ∧
  (∀ (s : State) (q : Fin 4) (h : ZHead) (m : ClaimMsg) (a : BitVec 12),
    tpUsable s q = true → h.hops ≠ 0 → isOwn s h = false → tpRole s = 2 → s.tp.acting = false → q = 0 →
    m.role = 1 → s.tp.addr = some a → wholeRefused s = false → sealCell m.pattern = sealCell s.sio.sealPattern →
    entPresent s.tp.cell[idx16 (sealNode m.pattern)] = false →
    Runs (.claim q h m) s fun t =>
      t.tp.cell = s.tp.cell.set (idx16 (sealNode m.pattern)) (mkEntry m.pos false (addrZone a ++ m.pattern)) ∧
      t.tp.gens[0] = s.tp.gens[0] + 1 ∧ t.tp.seq = s.tp.seq + 2 ∧ t.tp.acks = s.tp.acks.filter (·.1 ≠ .cell) ∧
      (t.tp.out = (((([0, 1] : List (Fin 4)).filter (tpUsable s)).map (fun r => (r, (⟨s.cycle, false, ownAddr s, 64, s.tp.seq, .assign ⟨m.pattern, m.pos, 1, addrZone a⟩⟩ : Zholi)))) ++ ((([0, 1] : List (Fin 4)).filter (tpUsable s)).map (fun r => (r, (⟨s.cycle, false, ownAddr s, 64, s.tp.seq + 1, .route ⟨.cell, t.tp.gens[0], t.tp.cell, false⟩⟩ : Zholi))))).foldl queueFrame s.tp.out) ∧
      OnlyChanges s t ((List.range 64).map R.LNu_OVF ++ [R.LN_IRQ_STAT, R.TPq_FRAMES q, R.TP_ROUTE_GEN]) [.tp, .ln] []) ∧
  (∀ (s : State) (q : Fin 4) (h : ZHead) (m : AssignMsg),
    tpUsable s q = true → h.hops ≠ 0 → isOwn s h = false → tpRole s = 1 → m.pattern = s.sio.sealPattern →
    m.pos = portPos s q → m.code = 1 → s.tp.addr = none →
    Runs (.assign q h m) s fun t =>
      t.tp = { s.tp with code := 1, addr := some (m.zone ++ s.sio.sealPattern) } ∧
      t.reg R.TP_IRQ_STAT = s.reg R.TP_IRQ_STAT ||| 1#32 ∧ t.reg (R.TPq_FRAMES q) = s.reg (R.TPq_FRAMES q) + 1 ∧
      OnlyChanges s t ((List.range 64).map R.LNu_OVF ++ [R.LN_IRQ_STAT, R.TPq_FRAMES q, R.TP_IRQ_STAT]) [.tp, .ln] []) ∧
  (∀ (s : State) (q : Fin 4) (h : ZHead) (m : AssignMsg),
    tpUsable s q = true → h.hops ≠ 0 → isOwn s h = false → tpRole s = 1 → m.pattern = s.sio.sealPattern →
    m.pos = portPos s q → m.code ≠ 1 → s.tp.code ≠ m.code →
    Runs (.assign q h m) s fun t =>
      t.tp = { s.tp with code := m.code } ∧ Asserts s t 116 0 ∧
      OnlyChanges s t ((List.range 64).map R.LNu_OVF ++ [R.LN_IRQ_STAT, R.TPq_FRAMES q, R.TP_IRQ_STAT]) [.tp, .bc, .ln] []) ∧
  (∀ (s : State) (q : Fin 4) (h : ZHead) (m : RouteMsg),
    tpUsable s q = true → h.hops ≠ 0 → isOwn s h = false → tpRole s = 1 → m.table = .cell → routeCode s m = 1 →
    Runs (.route q h m) s fun t =>
      t.tp.cell = m.entries ∧ t.tp.gens = s.tp.gens.set 0 m.gen ∧ t.tp.zone = s.tp.zone ∧ t.tp.site = s.tp.site ∧
      t.tp.addr = s.tp.addr ∧ t.tp.seq = s.tp.seq + 1 ∧ t.reg R.TP_ROUTE_STAT = 1 ∧
      t.reg R.TP_IRQ_STAT = s.reg R.TP_IRQ_STAT ||| 2#32 ∧
      (t.tp.out = (((([q] : List (Fin 4)).filter (tpUsable s)).map (fun r => (r, (⟨s.cycle, false, ownAddr s, 64, s.tp.seq, .routeAck ⟨.cell, m.gen, idx16 (sealNode s.sio.sealPattern), 1⟩⟩ : Zholi)))) ++ ((([otherPort q]).filter (tpUsable s)).map (fun r => (r, (⟨s.cycle, false, h.src, h.hops - 1, h.seq, .route m⟩ : Zholi))))).foldl queueFrame s.tp.out) ∧
      OnlyChanges s t ((List.range 64).map R.LNu_OVF ++ [R.LN_IRQ_STAT, R.TPq_FRAMES q, R.TP_ROUTE_STAT, R.TP_IRQ_STAT, R.TP_ROUTE_GEN]) [.tp, .ln] []) ∧
  (∀ (s : State) (q : Fin 4) (h : ZHead) (m : RouteMsg),
    tpUsable s q = true → h.hops ≠ 0 → isOwn s h = false → m.table = .cell → routeCode s m ≠ 1 → routeCode s m ≠ 3 →
    Runs (.route q h m) s fun t =>
      t.tp.cell = s.tp.cell ∧ t.tp.gens = s.tp.gens ∧ t.reg R.TP_ROUTE_STAT = BitVec.ofNat 32 (routeCode s m).toNat ∧
      Asserts s t 115 0 ∧
      OnlyChanges s t ((List.range 64).map R.LNu_OVF ++ [R.LN_IRQ_STAT, R.TPq_FRAMES q, R.TP_ROUTE_STAT, R.TP_IRQ_STAT]) [.tp, .bc, .ln] []) ∧
  (∀ (s : State) (q : Fin 4) (h : ZHead) (m : AckMsg),
    tpUsable s q = true → h.hops ≠ 0 → isOwn s h = false → m.table = .cell → isCellMaster s = true →
    m.code = 1 → m.gen = s.tp.gens[0] → entAddr s.tp.cell[m.entry] = h.src →
    Runs (.routeAck q h m) s fun t =>
      t.tp = { s.tp with acks := s.tp.acks.filter (· ≠ (.cell, m.entry)) ++ [(.cell, m.entry)] } ∧
      t.reg (R.TPq_FRAMES q) = s.reg (R.TPq_FRAMES q) + 1 ∧
      OnlyChanges s t ((List.range 64).map R.LNu_OVF ++ [R.LN_IRQ_STAT, R.TPq_FRAMES q]) [.tp, .ln] []) ∧
  (∀ (s : State) (q : Fin 4) (h : ZHead) (m : AckMsg),
    tpUsable s q = true → h.hops ≠ 0 → isOwn s h = false → m.table = .cell → isCellMaster s = true →
    (m.code ≠ 1 ∨ m.gen ≠ s.tp.gens[0] ∨ entAddr s.tp.cell[m.entry] ≠ h.src) →
    Runs (.routeAck q h m) s fun t =>
      t.tp = s.tp ∧ t.reg (R.TPq_FRAMES q) = s.reg (R.TPq_FRAMES q) + 1 ∧
      OnlyChanges s t ((List.range 64).map R.LNu_OVF ++ [R.LN_IRQ_STAT, R.TPq_FRAMES q]) [.ln] []) ∧
  (∀ (s : State) (q : Fin 4) (h : ZHead) (m : AckMsg),
    tpUsable s q = true → h.hops ≠ 0 → isOwn s h = false → fromSiteMaster s q h.src = false → m.table = .cell →
    isCellMaster s = false →
    Runs (.routeAck q h m) s fun t =>
      (t.tp = { s.tp with out := (((([otherPort q]).filter (tpUsable s)).map (fun r => (r, (⟨s.cycle, false, h.src, h.hops - 1, h.seq, .routeAck m⟩ : Zholi))))).foldl queueFrame s.tp.out }) ∧
      OnlyChanges s t ((List.range 64).map R.LNu_OVF ++ [R.LN_IRQ_STAT, R.TPq_FRAMES q]) [.tp, .ln] [])

/-- R372 to R374: a deliberate stop sends copy 0 on TP0 and TP1 at once, copies 1 and 2 500 ns apart, copy 3 every 1 ms until it is cancelled; the first new copy of a
stop in scope is acted on, each new copy is passed on, any other is dropped. -/
def Obligations.Stops : Prop :=
  (∀ (s : State) (i : Initiator) (v : Word) (c : Scope),
    isKeeper i = true → s.admitted i = true → bits v 31 16 = 0x570F → v.getLsbD 2 = false → scopeOf (bits v 1 0) = some c →
    tpOn s = true →
    Runs (.stopTx i v) s fun t =>
      t.tp.stopId = s.tp.stopId + 1 ∧
      t.tp.sending = s.tp.sending ++ [⟨c, 0, 0, true, s.tp.stopId + 1, (tbValue s 0).setWidth 32, 1, s.cycle + nsCycles 500, true, s.cycle⟩] ∧
      t.tp.seen = s.tp.seen.filter (·.origin != ownAddr s) ++ [⟨ownAddr s, (s.reg R.BC_STARTS).setWidth 16, s.tp.stopId + 1, 0xF⟩] ∧
      t.tp.seq = s.tp.seq + 1 ∧ t.fld R.TP_STOP_CNT 31 16 = min (s.fld R.TP_STOP_CNT 31 16 + 1) 0xFFFF ∧
      (t.tp.out = ((((([0, 1] ++ if (isCellMaster s && c != .cell) || (isZoneMaster s && c == .site) then [2, 3] else []) : List (Fin 4)).filter (tpUsable s)).map (fun r => (r, (⟨s.cycle, false, ownAddr s, 64, s.tp.seq, .stop ⟨c, 0, ownAddr s, true, s.tp.addr.isNone, 0, 0, (s.reg R.BC_STARTS).setWidth 16, (tbValue s 0).setWidth 32, s.tp.stopId + 1⟩⟩ : Zholi))))).foldl queueFrame s.tp.out) ∧
      t.bus = .ok 0 ∧ OnlyChanges s t ((List.range 64).map R.LNu_OVF ++ [R.LN_IRQ_STAT, R.TP_STOP_CNT]) [.bus, .tp, .ln] []) ∧
  (∀ (s : State) (i : Initiator) (v : Word),
    isKeeper i = true → s.admitted i = true → bits v 31 16 = 0x570F → v.getLsbD 2 = true →
    Runs (.stopCancel i v) s fun t =>
      t.tp = { s.tp with sending := s.tp.sending.filterMap cancelStop } ∧ t.bus = .ok 0 ∧ OnlyChanges s t [] [.bus, .tp] []) ∧
  (∀ (s : State) (x : StopSend),
    s.tp.sending = [x] → x.due ≤ s.cycle →
    Runs (.stopCopy) s fun t =>
      t.tp.sending = (if x.next = 3 then [{ x with due := s.cycle + msCycles 1 }] else if x.next = 2 ∧ x.repeats = false then [] else [{ x with next := x.next + 1, due := if x.next = 2 then x.from_ + msCycles 1 else s.cycle + nsCycles 500 }]) ∧
      t.tp.seq = s.tp.seq + 1 ∧
      (t.tp.out = ((((([0, 1] ++ if (isCellMaster s && x.scope != .cell) || (isZoneMaster s && x.scope == .site) then [2, 3] else []) : List (Fin 4)).filter (tpUsable s)).map (fun r => (r, (⟨s.cycle, false, ownAddr s, 64, s.tp.seq, .stop ⟨x.scope, x.next, ownAddr s, x.deliberate, s.tp.addr.isNone, x.source, x.cls, (s.reg R.BC_STARTS).setWidth 16, x.tOrigin, x.id⟩⟩ : Zholi))))).foldl queueFrame s.tp.out) ∧
      OnlyChanges s t ((List.range 64).map R.LNu_OVF ++ [R.LN_IRQ_STAT]) [.tp, .ln] []) ∧
  (∀ (s : State),
    (s.tp.sending.all (fun x => decide (s.cycle < x.due)) = true) →
    Runs (.stopCopy) s fun t =>
      t = s ∧ OnlyChanges s t [] [] []) ∧
  (∀ (s : State) (q : Fin 4) (h : ZHead) (m : StopMsg),
    tpUsable s q = true → h.hops ≠ 0 → fromSiteMaster s q h.src = false → newCopy (seenOf s m.origin) m = false →
    Runs (.stop q h m) s fun t =>
      t.tp = s.tp ∧ t.reg (R.TPq_FRAMES q) = s.reg (R.TPq_FRAMES q) + 1 ∧
      OnlyChanges s t ((List.range 64).map R.LNu_OVF ++ [R.LN_IRQ_STAT, R.TPq_FRAMES q]) [.ln] []) ∧
  (∀ (s : State) (q : Fin 4) (h : ZHead) (m : StopMsg),
    tpUsable s q = true → h.hops ≠ 0 → fromSiteMaster s q h.src = true → newCopy (seenOf s m.origin) m = false →
    Runs (.stop q h m) s fun t =>
      t.tp = { s.tp with siteSeenAt := s.cycle } ∧ t.reg (R.TPq_FRAMES q) = s.reg (R.TPq_FRAMES q) + 1 ∧
      OnlyChanges s t ((List.range 64).map R.LNu_OVF ++ [R.LN_IRQ_STAT, R.TPq_FRAMES q]) [.tp, .ln] []) ∧
  (∀ (s : State) (q : Fin 4) (h : ZHead) (m : StopMsg),
    tpUsable s q = true → h.hops ≠ 0 → newStop (seenOf s m.origin) m = true → inScope s m = true → (if s.lk.openedAt = some s.cycle then s.tp.inBefore else s.reg R.TP_STOP_CFG).getLsbD (4 + scopeCode m.scope) = true →
    Runs (.stop q h m) s fun t =>
      t.reg R.TP_STOP_LAST = BitVec.ofNat 32 (m.origin.toNat + 2 ^ 12 * scopeCode m.scope + 2 ^ 14 * m.source.toNat + 2 ^ 21 * bit m.deliberate + 2 ^ 31) ∧
      t.reg R.TP_STOP_T = s.now.t ∧ t.fld R.TP_STOP_CNT 15 0 = min (s.fld R.TP_STOP_CNT 15 0 + 1) 0xFFFF ∧
      t.reg R.TP_IRQ_STAT = s.reg R.TP_IRQ_STAT ||| 4#32 ∧ t.reg (R.TPq_FRAMES q) = s.reg (R.TPq_FRAMES q) + 1 ∧ Asserts s t 114 0 ∧
      t.tp.seen = s.tp.seen.filter (·.origin != m.origin) ++ [⟨m.origin, m.starts, m.stopId, BitVec.ofNat 4 (2 ^ m.copy.toNat)⟩] ∧
      (t.tp.out = ((((stopPorts s q m).filter (tpUsable s)).map (fun r => (r, (⟨s.cycle, false, h.src, h.hops - 1, h.seq, .stop m⟩ : Zholi))))).foldl queueFrame s.tp.out) ∧
      OnlyChanges s t ((List.range 64).map R.LNu_OVF ++ [R.LN_IRQ_STAT, R.TPq_FRAMES q, R.TP_STOP_LAST, R.TP_STOP_T, R.TP_STOP_CNT, R.TP_IRQ_STAT]) [.tp, .bc, .ln] []) ∧
  (∀ (s : State) (q : Fin 4) (h : ZHead) (m : StopMsg),
    tpUsable s q = true → h.hops ≠ 0 → newStop (seenOf s m.origin) m = true → inScope s m = true → (if s.lk.openedAt = some s.cycle then s.tp.inBefore else s.reg R.TP_STOP_CFG).getLsbD (4 + scopeCode m.scope) = false →
    Runs (.stop q h m) s fun t =>
      t.reg R.TP_STOP_T = s.now.t ∧ t.fld R.TP_STOP_CNT 15 0 = min (s.fld R.TP_STOP_CNT 15 0 + 1) 0xFFFF ∧
      t.reg R.TP_IRQ_STAT = s.reg R.TP_IRQ_STAT ||| 4#32 ∧
      (t.tp.out = ((((stopPorts s q m).filter (tpUsable s)).map (fun r => (r, (⟨s.cycle, false, h.src, h.hops - 1, h.seq, .stop m⟩ : Zholi))))).foldl queueFrame s.tp.out) ∧
      OnlyChanges s t ((List.range 64).map R.LNu_OVF ++ [R.LN_IRQ_STAT, R.TPq_FRAMES q, R.TP_STOP_LAST, R.TP_STOP_T, R.TP_STOP_CNT, R.TP_IRQ_STAT]) [.tp, .ln] []) ∧
  (∀ (s : State) (q : Fin 4) (h : ZHead) (m : StopMsg),
    tpUsable s q = true → h.hops ≠ 0 → newCopy (seenOf s m.origin) m = true → newStop (seenOf s m.origin) m = false →
    Runs (.stop q h m) s fun t =>
      (t.tp.out = ((((stopPorts s q m).filter (tpUsable s)).map (fun r => (r, (⟨s.cycle, false, h.src, h.hops - 1, h.seq, .stop m⟩ : Zholi))))).foldl queueFrame s.tp.out) ∧
      t.tp.seq = s.tp.seq ∧ OnlyChanges s t ((List.range 64).map R.LNu_OVF ++ [R.LN_IRQ_STAT, R.TPq_FRAMES q]) [.tp, .ln] [])

/-- R367, R371, R380: a DATA frame for this node goes into Harbour's receive ring, or is dropped and counted on a full one; a node without an address passes it
on; a broadcast goes round its ring and to Harbour in scope; filled transmit slots are sent. -/
def Obligations.DataBroadcastsAndHarbourRings : Prop :=
  (∀ (s : State) (q : Fin 4) (h : ZHead) (m : DataMsg),
    tpUsable s q = true → h.hops ≠ 0 → isOwn s h = false → fromSiteMaster s q h.src = false → s.tp.addr = none →
    Runs (.data q h m) s fun t =>
      (t.tp = { s.tp with out := (((([otherPort q]).filter (tpUsable s)).map (fun r => (r, (⟨s.cycle, false, h.src, h.hops - 1, h.seq, .data m⟩ : Zholi))))).foldl queueFrame s.tp.out }) ∧
      t.reg (R.TPq_FRAMES q) = s.reg (R.TPq_FRAMES q) + 1 ∧
      OnlyChanges s t ((List.range 64).map R.LNu_OVF ++ [R.LN_IRQ_STAT, R.TPq_FRAMES q]) [.tp, .ln] []) ∧
  (∀ (s : State) (q : Fin 4) (h : ZHead) (m : DataMsg) (a : BitVec 12) (p : Nat),
    tpUsable s q = true → h.hops ≠ 0 → isOwn s h = false → fromSiteMaster s q h.src = false → s.tp.addr = some a →
    dataTarget s m = some a → hqOurs s = true → hqRx s ≠ 0 → p = s.fld R.TP_HRX_PROD 7 0 → (p + 1) % hqRx s ≠ s.fld R.TP_HRX_CONS 7 0 →
    m.payload.length ≤ 256 →
    Runs (.data q h m) s fun t =>
      t.bytes (hqSlot s (hqTx s + p) + 16) m.payload.length = m.payload ∧ t.fld R.TP_HRX_PROD 7 0 = (p + 1) % hqRx s ∧
      t.reg R.TP_IRQ_STAT = s.reg R.TP_IRQ_STAT ||| 16#32 ∧ t.reg (R.TPq_FRAMES q) = s.reg (R.TPq_FRAMES q) + 1 ∧ t.tp = s.tp ∧
      OnlyChanges s t ((List.range 64).map R.LNu_OVF ++ [R.LN_IRQ_STAT, R.TPq_FRAMES q, R.TP_HRX_PROD, R.TP_IRQ_STAT]) [.ln] [(hqSlot s (hqTx s + p), 512)]) ∧
  (∀ (s : State) (q : Fin 4) (h : ZHead) (m : DataMsg) (a : BitVec 12),
    tpUsable s q = true → h.hops ≠ 0 → isOwn s h = false → fromSiteMaster s q h.src = false → s.tp.addr = some a →
    dataTarget s m = some a → (hqOurs s = false ∨ (s.fld R.TP_HRX_PROD 7 0 + 1) % hqRx s = s.fld R.TP_HRX_CONS 7 0) →
    Runs (.data q h m) s fun t =>
      t.fld R.TP_HRX_DROP 31 0 = min (s.fld R.TP_HRX_DROP 31 0 + 1) 0xFFFFFFFF ∧
      t.reg (R.TPq_FRAMES q) = s.reg (R.TPq_FRAMES q) + 1 ∧
      OnlyChanges s t ((List.range 64).map R.LNu_OVF ++ [R.LN_IRQ_STAT, R.TPq_FRAMES q, R.TP_HRX_DROP]) [.ln] []) ∧
  (∀ (s : State) (q : Fin 4) (h : ZHead) (m : BcastMsg),
    tpUsable s q = true → h.hops ≠ 0 → isOwn s h = false → tpRole s = 1 → s.tp.acting = false → bcastScope s h.src m.scope = false →
    Runs (.bcast q h m) s fun t =>
      (t.tp = { s.tp with out := (((([otherPort q]).filter (tpUsable s)).map (fun r => (r, (⟨s.cycle, false, h.src, h.hops - 1, h.seq, .bcast m⟩ : Zholi))))).foldl queueFrame s.tp.out }) ∧
      t.reg (R.TPq_FRAMES q) = s.reg (R.TPq_FRAMES q) + 1 ∧
      OnlyChanges s t ((List.range 64).map R.LNu_OVF ++ [R.LN_IRQ_STAT, R.TPq_FRAMES q]) [.tp, .ln] []) ∧
  (∀ (s : State) (q : Fin 4) (h : ZHead) (m : BcastMsg) (p : Nat),
    tpUsable s q = true → h.hops ≠ 0 → isOwn s h = false → tpRole s = 1 → s.tp.acting = false → bcastScope s h.src m.scope = true →
    hqOurs s = true → hqRx s ≠ 0 → p = s.fld R.TP_HRX_PROD 7 0 → (p + 1) % hqRx s ≠ s.fld R.TP_HRX_CONS 7 0 →
    m.payload.length ≤ 256 →
    Runs (.bcast q h m) s fun t =>
      t.bytes (hqSlot s (hqTx s + p) + 16) m.payload.length = m.payload ∧ t.fld R.TP_HRX_PROD 7 0 = (p + 1) % hqRx s ∧
      (t.tp = { s.tp with out := (((([otherPort q]).filter (tpUsable s)).map (fun r => (r, (⟨s.cycle, false, h.src, h.hops - 1, h.seq, .bcast m⟩ : Zholi))))).foldl queueFrame s.tp.out }) ∧
      OnlyChanges s t ((List.range 64).map R.LNu_OVF ++ [R.LN_IRQ_STAT, R.TPq_FRAMES q, R.TP_HRX_PROD, R.TP_IRQ_STAT]) [.tp, .ln] [(hqSlot s (hqTx s + p), 512)]) ∧
  (∀ (s : State) (i : Initiator) (v : Word),
    s.mayWrite i R.TP_HTX_PROD = true → (hqOurs s = false ∨ hqTx s = 0 ∨ tpOn s = false ∨ bits v 7 0 = s.fld R.TP_HTX_CONS 7 0 ∧ bits v 7 0 < hqTx s) →
    Runs (.harbourTx i v) s fun t =>
      t.fld R.TP_HTX_PROD 7 0 = bits v 7 0 ∧ t.fld R.TP_HTX_CONS 7 0 = s.fld R.TP_HTX_CONS 7 0 ∧ t.tp = s.tp ∧ t.bus = .ok 0 ∧
      OnlyChanges s t [R.TP_HTX_PROD, R.TP_HTX_CONS] [.bus] []) ∧
  (∀ (s : State) (i : Initiator) (v : Word),
    s.mayWrite i R.TP_HTX_PROD = true → hqOurs s = true → hqTx s ≠ 0 → tpOn s = true →
    Runs (.harbourTx i v) s fun t =>
      t.fld R.TP_HTX_PROD 7 0 = bits v 7 0 ∧ t.fld R.TP_HTX_CONS 7 0 = bits v 7 0 % hqTx s ∧ t.bus = .ok 0 ∧
      t.tp.ports = s.tp.ports ∧
      OnlyChanges s t ((List.range 64).map R.LNu_OVF ++ [R.LN_IRQ_STAT, R.TP_HTX_PROD, R.TP_HTX_CONS]) [.bus, .tp, .ln] [])

/-- R376 to R378: the first Sync enters ACQUIRE with one step above 1 µs; another grandmaster, or three lost intervals, give HOLDOVER; eight Syncs end it; a holdover
older than TB_HOLD_MAX is ES111; a standby site master takes over with a new site table. -/
def Obligations.FabricTime : Prop :=
  (∀ (s : State) (q : Fin 4) (tb : TimeBase) (o : BitVec 64) (g : BitVec 12),
    timeEnabled s tb = true → isGm s tb = false → tpUsable s q = true → s.tp.servos[servoIdx tb].state = .free →
    Runs (.ptpSync q tb o g) s fun t =>
      t.tp.servos[servoIdx tb].state = .acquire ∧ t.tp.servos[servoIdx tb].gm = g ∧ t.tp.servos[servoIdx tb].parent = q ∧
      t.tp.servos[servoIdx tb].lastSync = s.cycle ∧
      t.tp.servos[servoIdx tb].offset = BitVec.ofInt 32 (o.toInt - (BitVec.ofNat 16 (s.fld (R.TPq_ASYM q) 15 0)).toInt) ∧
      t.tp.servos[servoIdx tb].run = 0 ∧ t.tp.servos[servoIdx tb].stepped = true ∧
      (s.tp.servos[servoIdx tb].stepped = false → 10000 < ((o.toInt - (BitVec.ofNat 16 (s.fld (R.TPq_ASYM q) 15 0)).toInt)).natAbs → t.tp.servos[servoIdx tb].base = s.tp.servos[servoIdx tb].base - BitVec.ofInt 64 ((o.toInt - (BitVec.ofNat 16 (s.fld (R.TPq_ASYM q) 15 0)).toInt) / 10)) ∧
      (((o.toInt - (BitVec.ofNat 16 (s.fld (R.TPq_ASYM q) 15 0)).toInt)).natAbs ≤ 10000 → t.tp.servos[servoIdx tb].base = s.tp.servos[servoIdx tb].base) ∧
      (∀ j : Fin 2, j ≠ servoIdx tb → t.tp.servos[j] = s.tp.servos[j]) ∧ t.reg (R.TPq_FRAMES q) = s.reg (R.TPq_FRAMES q) + 2 ∧
      (t.tp.out = ((((timeRelay s q tb).filter (tpUsable s)).map (fun r => (r, (⟨s.cycle, false, ownAddr s, 0, 0, .ptp ⟨.sync, tb, g, s.tp.ports[q].pdelay⟩⟩ : Zholi)))) ++ (((timeRelay s q tb).filter (tpUsable s)).map (fun r => (r, (⟨s.cycle, false, ownAddr s, 0, 0, .ptp ⟨.followUp, tb, g, s.tp.ports[q].pdelay⟩⟩ : Zholi))))).foldl queueFrame s.tp.out) ∧
      OnlyChanges s t ((List.range 64).map R.LNu_OVF ++ [R.LN_IRQ_STAT, R.TPq_FRAMES q]) [.tp, .ln] []) ∧
  (∀ (s : State) (q : Fin 4) (tb : TimeBase) (o : BitVec 64) (g : BitVec 12),
    timeEnabled s tb = true → isGm s tb = false → tpUsable s q = true → (s.tp.servos[servoIdx tb].state = .acquire ∨ s.tp.servos[servoIdx tb].state = .locked) →
    s.tp.servos[servoIdx tb].gm ≠ g →
    Runs (.ptpSync q tb o g) s fun t =>
      t.tp.servos[servoIdx tb].state = .holdover ∧ t.tp.servos[servoIdx tb].run = 0 ∧ t.tp.servos[servoIdx tb].gm = g ∧
      t.tp.servos[servoIdx tb].holding.isSome = true ∧ (∀ j : Fin 2, j ≠ servoIdx tb → t.tp.servos[j] = s.tp.servos[j]) ∧
      OnlyChanges s t ((List.range 64).map R.LNu_OVF ++ [R.LN_IRQ_STAT, R.TPq_FRAMES q]) [.tp, .ln] []) ∧
  (∀ (s : State) (q : Fin 4) (tb : TimeBase) (o : BitVec 64) (g : BitVec 12),
    timeEnabled s tb = true → isGm s tb = false → tpUsable s q = true → s.tp.servos[servoIdx tb].state = .holdover →
    s.tp.servos[servoIdx tb].run = 7 →
    Runs (.ptpSync q tb o g) s fun t =>
      t.tp.servos[servoIdx tb].state = .acquire ∧ t.tp.servos[servoIdx tb].run = 0 ∧
      (∀ j : Fin 2, j ≠ servoIdx tb → t.tp.servos[j] = s.tp.servos[j]) ∧
      OnlyChanges s t ((List.range 64).map R.LNu_OVF ++ [R.LN_IRQ_STAT, R.TPq_FRAMES q]) [.tp, .ln] []) ∧
  (∀ (s : State) (q : Fin 4) (tb : TimeBase) (o : BitVec 64) (g : BitVec 12),
    timeEnabled s tb = true → isGm s tb = false → tpUsable s q = true → s.tp.servos[servoIdx tb].state = .acquire →
    s.tp.servos[servoIdx tb].gm = g → ((o.toInt - (BitVec.ofNat 16 (s.fld (R.TPq_ASYM q) 15 0)).toInt)).natAbs < 10 * s.fld R.TP_TOFF_LIM 7 0 →
    s.tp.servos[servoIdx tb].run = 15 →
    Runs (.ptpSync q tb o g) s fun t =>
      t.tp.servos[servoIdx tb].state = .locked ∧ t.tp.servos[servoIdx tb].run = 0 ∧ t.tp.servos[servoIdx tb].holding = none ∧
      (∀ j : Fin 2, j ≠ servoIdx tb → t.tp.servos[j] = s.tp.servos[j]) ∧
      OnlyChanges s t ((List.range 64).map R.LNu_OVF ++ [R.LN_IRQ_STAT, R.TPq_FRAMES q]) [.tp, .bc, .ln] []) ∧
  (∀ (s : State) (q : Fin 4) (tb : TimeBase) (o : BitVec 64) (g : BitVec 12),
    timeEnabled s tb = true → isGm s tb = false → tpUsable s q = true → s.tp.servos[servoIdx tb].state = .locked →
    s.tp.servos[servoIdx tb].gm = g → 10 * s.fld R.TP_TOFF_LIM 7 0 < ((o.toInt - (BitVec.ofNat 16 (s.fld (R.TPq_ASYM q) 15 0)).toInt)).natAbs →
    s.tp.servos[servoIdx tb].run = 7 →
    Runs (.ptpSync q tb o g) s fun t =>
      t.tp.servos[servoIdx tb].state = .acquire ∧ Asserts s t 117 0 ∧
      (∀ j : Fin 2, j ≠ servoIdx tb → t.tp.servos[j] = s.tp.servos[j]) ∧
      OnlyChanges s t ((List.range 64).map R.LNu_OVF ++ [R.LN_IRQ_STAT, R.TPq_FRAMES q]) [.tp, .bc, .ln] []) ∧
  (∀ (s : State) (q : Fin 4) (tb : TimeBase) (o : BitVec 64) (g : BitVec 12),
    timeEnabled s tb = true → isGm s tb = true → tpUsable s q = true →
    Runs (.ptpSync q tb o g) s fun t =>
      t.tp = s.tp ∧ t.reg (R.TPq_FRAMES q) = s.reg (R.TPq_FRAMES q) + 2 ∧
      OnlyChanges s t ((List.range 64).map R.LNu_OVF ++ [R.LN_IRQ_STAT, R.TPq_FRAMES q]) [.ln] []) ∧
  (∀ (s : State) (tb : TimeBase),
    timeEnabled s tb = true → isGm s tb = false → (s.tp.servos[servoIdx tb].state = .acquire ∨ s.tp.servos[servoIdx tb].state = .locked) →
    s.tp.servos[servoIdx tb].lastSync + 3 * (750000000 / 2 ^ s.fld R.TP_TIME_CFG 2 0) ≤ s.cycle →
    Runs (.syncLoss tb) s fun t =>
      t.tp.servos[servoIdx tb] = { s.tp.servos[servoIdx tb] with state := .holdover, run := 0, holding := some (s.tp.servos[servoIdx tb].holding.getD s.cycle) } ∧
      (∀ j : Fin 2, j ≠ servoIdx tb → t.tp.servos[j] = s.tp.servos[j]) ∧ OnlyChanges s t [] [.tp] []) ∧
  (∀ (s : State) (tb : TimeBase),
    (s.reg R.TB_HOLD_MAX).toNat < holdAge s (servoIdx tb) → s.bc.levels.contains 111#7 = false →
    Runs (.holdoverAgeExceeded tb) s fun t =>
      t.bc.levels.contains 111#7 = true ∧ Asserts s t 111 0 ∧ OnlyChanges s t [] [.bc] []) ∧
  (∀ (s : State),
    tpOn s = true → tpRole s = 3 → s.flag R.TP_CFG 3 = true → s.tp.acting = false → s.tp.siteSeenAt + msCycles (s.fld R.TP_CFG 25 16) ≤ s.cycle →
    Runs (.siteFailover) s fun t =>
      t.tp.acting = true ∧ t.tp.gens[2] = s.tp.gens[2] + 1 ∧ t.tp.servos[0].state = .free ∧ t.tp.servos[0].rate = 0 ∧
      tbValue t 0 = tbValue s 0 ∧ t.tp.servos[1] = s.tp.servos[1] ∧ t.tp.site = s.tp.site ∧ t.tp.seq = s.tp.seq + 1 ∧
      (t.tp.out = (((([0, 1, 2, 3] : List (Fin 4)).filter (tpUsable s)).map (fun r => (r, (⟨s.cycle, false, ownAddr s, 64, s.tp.seq, .route ⟨.site, s.tp.gens[2] + 1, s.tp.site, false⟩⟩ : Zholi))))).foldl queueFrame s.tp.out) ∧
      OnlyChanges s t ((List.range 64).map R.LNu_OVF ++ [R.LN_IRQ_STAT, R.TP_ROUTE_GEN]) [.tp, .bc, .ln] [])

/-- R385, R386, R391, R392, R242: a mismatch that both halves report is ES0 or ES1, halves that disagree and a parity error ES2 or ES7; the access never leaves the
pair; a pair writes its own windows, an access goes on as translated or is refused with ES5.
R387, R208, R251, R259: a debugger's halt stops the pair and freezes what watches it; in FIELD it holds SAFE_N low and raises ES6; a resume gives the pair its state
back and moves every frozen count on. -/
def Obligations.KeeperChecksHaltsAndWindows : Prop :=
  (∀ (s : State) (k : Fin 2) (w : BitVec 16),
    pairChecked s k = true → w.toNat / 16 % 4 = 3 →
    Runs (.lockstepMismatch k w) s fun t =>
      t.fld (R.KC_Kp_MISM k) 31 16 = min (s.fld (R.KC_Kp_MISM k) 31 16 + 1) 0xFFFF ∧ t.bus = .none ∧
      t.fld (R.KC_Kp_MISM k) 5 0 = w.toNat % 8 + 48 ∧ Asserts s t k 0 ∧ OnlyChanges s t [R.KC_Kp_MISM k] [.bus, .bc] []) ∧
  (∀ (s : State) (k : Fin 2) (w : BitVec 16),
    pairChecked s k = true → (w.toNat / 16 % 4 = 1 ∨ w.toNat / 16 % 4 = 2) →
    Runs (.lockstepMismatch k w) s fun t =>
      t.fld (R.KC_Kp_MISM k) 31 16 = min (s.fld (R.KC_Kp_MISM k) 31 16 + 1) 0xFFFF ∧ t.bus = .none ∧
      t.fld (R.KC_Kp_MISM k) 5 0 = w.toNat % 8 + 16 * (w.toNat / 16 % 4) ∧ Asserts s t (if k = 0 then 2 else 7) 0 ∧
      OnlyChanges s t [R.KC_Kp_MISM k] [.bus, .bc] []) ∧
  (∀ (s : State) (k : Fin 2),
    pairChecked s k = true →
    Runs (.delayParityError k) s fun t =>
      t.reg (R.KC_Kp_MISM k) = s.reg (R.KC_Kp_MISM k) ||| 8#32 ∧ t.bus = .none ∧ Asserts s t (if k = 0 then 2 else 7) 0 ∧
      OnlyChanges s t [R.KC_Kp_MISM k] [.bus, .bc] []) ∧
  (∀ (s : State) (k : Fin 2) (w : BitVec 16),
    (pairChecked s k = false ∨ w.toNat / 16 % 4 = 0) →
    Runs (.lockstepMismatch k w) s fun t =>
      t = s ∧ OnlyChanges s t [] [] []) ∧
  (∀ (s : State) (i : Initiator) (k : Fin 2) (n : Fin 4) (v : Word),
    i = pairInit k → s.admitted i = true →
    Runs (.keeperWindowWrite i k n v) s fun t =>
      t.reg (R.KC_Kp_KWn_CFG k n) = v &&& 0x07FF0003#32 ∧ t.bus = .ok 0 ∧ OnlyChanges s t [R.KC_Kp_KWn_CFG k n] [.bus] []) ∧
  (∀ (s : State) (i : Initiator) (k : Fin 2) (n : Fin 4) (v : Word),
    s.scrapped = false → isKeeper i = true → i ≠ pairInit k →
    Runs (.keeperWindowWrite i k n v) s fun t =>
      t.bus = .error ∧ Asserts s t 5 0 ∧ OnlyChanges s t [] [.bus, .bc] []) ∧
  (∀ (s : State) (k : Fin 2) (n : Fin 4) (v : Word),
    s.scrapped = false →
    Runs (.keeperWindowWrite .harbour k n v) s fun t =>
      t.bus = .error ∧ Asserts s t 10 0 ∧ OnlyChanges s t [] [.bus, .bc] []) ∧
  (∀ (s : State) (k : Fin 2) (a : Word) (w : Bool),
    s.admitted (pairInit k) = true → a.getLsbD 31 = false →
    Runs (.keeperWindowAccess k a w) s fun t =>
      t.kc = { s.kc with lastAddr := some (a.setWidth 40) } ∧ t.bus = .ok 0 ∧ OnlyChanges s t [] [.bus, .kc] []) ∧
  (∀ (s : State) (k : Fin 2) (a : Word) (w : Bool),
    s.admitted (pairInit k) = true → a.getLsbD 31 = true → s.flag (R.KC_Kp_KWn_CFG k (bits a 30 29)) 0 = true →
    (w = true → s.flag (R.KC_Kp_KWn_CFG k (bits a 30 29)) 1 = true) →
    Runs (.keeperWindowAccess k a w) s fun t =>
      t.kc = { s.kc with lastAddr := some (BitVec.ofNat 40 (s.fld (R.KC_Kp_KWn_CFG k (bits a 30 29)) 26 16 * 2 ^ 29 + bits a 28 0)) } ∧
      OnlyChanges s t [] [.bus, .kc] []) ∧
  (∀ (s : State) (k : Fin 2) (a : Word) (w : Bool),
    s.scrapped = false → a.getLsbD 31 = true → (s.flag (R.KC_Kp_KWn_CFG k (bits a 30 29)) 0 = false ∨ (w = true ∧ s.flag (R.KC_Kp_KWn_CFG k (bits a 30 29)) 1 = false)) →
    Runs (.keeperWindowAccess k a w) s fun t =>
      t.bus = .error ∧ t.kc = s.kc ∧ Asserts s t 5 0 ∧ OnlyChanges s t [] [.bus, .bc] []) ∧
  (∀ (s : State) (k : Fin 2) (a : Word) (w : Bool),
    s.scrapped = false → s.admitted (pairInit k) = false →
    Runs (.keeperWindowAccess k a w) s fun t =>
      t.bus = .error ∧ t.kc = s.kc ∧ Asserts s t 5 0 ∧ OnlyChanges s t [] [.bus, .bc] []) ∧
  (∀ (s : State) (k : Fin 2),
    pairChecked s k = false →
    Runs (.delayParityError k) s fun t =>
      t = s ∧ OnlyChanges s t [] [] []) ∧
  (∀ (s : State),
    Runs (.clockMonitorFault) s fun t =>
      Asserts s t 127 0 ∧ OnlyChanges s t [] [.bc] []) ∧
  (∀ (s : State) (k : Fin 2),
    pairChecked s k = true → s.se.life = .field →
    Runs (.keeperHalt (.pair k)) s fun t =>
      t.kc = { s.kc with pairs := s.kc.pairs.set k .halted, before := s.kc.before.set k s.kc.pairs[k] } ∧ t.safeHigh = false ∧
      (s.wr.ready = true → t.lc.closed = true) ∧ ((s.wr.ready = true → (t.barges.all fun y => isFinal t y || y.safeState) = true)) ∧
      PinsFollow t ∧ (∀ n : Fin 4, leftApplied s.sio.brakes[n] = true → t.sio.brakes[n].hsg = false ∧ t.sio.brakes[n].lsg = false) ∧
      (∀ d : Fin 4, t.wd.dogs[d] = syncDog (domainStopped t (dogDomain s d)) s.wd.ticks s.wd.dogs[d]) ∧
      (∀ d : Fin 4, dogDomain s d = k.val → s.wd.dogs[d].frozen = none → t.wd.dogs[d] = { s.wd.dogs[d] with frozen := some s.wd.ticks }) ∧
      (∀ e : Fin 64, t.wd.entities[e] = syncEntity ((boundTo s e 0 && pairStopped t 0) || (boundTo s e 1 && pairStopped t 1)) s.cycle s.wd.entities[e]) ∧
      Asserts s t 6 0 ∧
      OnlyChanges s t ((List.range 4).map R.BRKn_REQ ++ (List.range 256).map R.LMPl_STAT) [.kc, .wd, .lc, .sio, .bc, .barges] []) ∧
  (∀ (s : State) (k : Fin 2),
    pairChecked s k = true → s.se.life ≠ .field → s.se.life ≠ .scrapped →
    Runs (.keeperHalt (.pair k)) s fun t =>
      t.kc = { s.kc with pairs := s.kc.pairs.set k .halted, before := s.kc.before.set k s.kc.pairs[k] } ∧ t.bc = s.bc ∧
      t.safeHigh = s.safeHigh ∧ (∀ d : Fin 4, t.wd.dogs[d] = syncDog (domainStopped t (dogDomain s d)) s.wd.ticks s.wd.dogs[d]) ∧
      (∀ d : Fin 4, dogDomain s d = k.val → s.wd.dogs[d].frozen = none → t.wd.dogs[d] = { s.wd.dogs[d] with frozen := some s.wd.ticks }) ∧
      (∀ e : Fin 64, t.wd.entities[e] = syncEntity ((boundTo s e 0 && pairStopped t 0) || (boundTo s e 1 && pairStopped t 1)) s.cycle s.wd.entities[e]) ∧
      (∀ e : Fin 64, boundTo s e k.val = true → t.wd.entities[e].frozen.isSome = true) ∧
      OnlyChanges s t ((List.range 4).map R.BRKn_REQ ++ (List.range 256).map R.LMPl_STAT) [.kc, .wd, .lc, .sio, .barges] []) ∧
  (∀ (s : State) (k : Fin 2),
    s.kc.pairs[k] = .halted →
    Runs (.keeperResume (.pair k)) s fun t =>
      t.kc = { s.kc with pairs := s.kc.pairs.set k s.kc.before[k] } ∧
      (∀ d : Fin 4, t.wd.dogs[d] = syncDog (domainStopped t (dogDomain s d)) s.wd.ticks s.wd.dogs[d]) ∧
      (∀ e : Fin 64, t.wd.entities[e] = syncEntity ((boundTo s e 0 && pairStopped t 0) || (boundTo s e 1 && pairStopped t 1)) s.cycle s.wd.entities[e]) ∧
      t.bc = { s.bc with glintFrom := s.bc.glintFrom.set k (s.cycle + msCycles 10) } ∧
      OnlyChanges s t ((List.range 4).map R.BRKn_REQ ++ (List.range 256).map R.LMPl_STAT) [.kc, .wd, .lc, .sio, .bc, .barges] []) ∧
  (∀ (s : State) (n : Fin 8),
    s.se.life ≠ .scrapped → s.kc.harbourHalted.contains n = false →
    Runs (.keeperHalt (.harbour n)) s fun t =>
      t.kc = { s.kc with harbourHalted := s.kc.harbourHalted ++ [n] } ∧
      (∀ d : Fin 4, t.wd.dogs[d] = syncDog (domainStopped t (dogDomain s d)) s.wd.ticks s.wd.dogs[d]) ∧
      (∀ e : Fin 64, t.wd.entities[e] = syncEntity ((boundTo s e 0 && pairStopped t 0) || (boundTo s e 1 && pairStopped t 1)) s.cycle s.wd.entities[e]) ∧
      (∀ d : Fin 4, 2 ≤ dogDomain s d → s.wd.dogs[d].frozen = none → t.wd.dogs[d].frozen = some s.wd.ticks) ∧
      OnlyChanges s t [] [.kc, .wd] []) ∧
  (∀ (s : State) (n : Fin 8),
    Runs (.keeperResume (.harbour n)) s fun t =>
      t.kc = { s.kc with harbourHalted := s.kc.harbourHalted.filter (· ≠ n) } ∧
      (∀ d : Fin 4, t.wd.dogs[d] = syncDog (domainStopped t (dogDomain s d)) s.wd.ticks s.wd.dogs[d]) ∧
      (∀ e : Fin 64, t.wd.entities[e] = syncEntity ((boundTo s e 0 && pairStopped t 0) || (boundTo s e 1 && pairStopped t 1)) s.cycle s.wd.entities[e]) ∧
      OnlyChanges s t [] [.kc, .wd] []) ∧
  (∀ (s : State) (c : HaltTarget),
    s.se.life = .scrapped →
    Runs (.keeperHalt c) s fun t =>
      t = s ∧ OnlyChanges s t [] [] [])

/-- R401, R405, R406, R408: an event selection is stored as written; CLR zeroes a unit's counters, FREEZE holds them; a bandwidth window ends with its rates; a dump is
captured at once, or skipped while one is written, and stands in its slot when done. -/
def Obligations.LanternCountersWindowsAndDumps : Prop :=
  (∀ (s : State) (i : Initiator) (u : Fin 64) (k : Fin 8) (v : Word),
    u.val < 60 → s.mayWrite i (R.LNu_EVSELk u k) = true →
    Runs (.evselWrite i u k v) s fun t =>
      t.reg (R.LNu_EVSELk u k) = v &&& 0x7FF#32 ∧ lnSel t u k = lnSel s u k ∧ t.ln = { s.ln with selOld := t.ln.selOld } ∧
      t.bus = .ok 0 ∧ OnlyChanges s t [R.LNu_EVSELk u k] [.bus, .ln] []) ∧
  (∀ (s : State) (i : Initiator) (u : Fin 64) (k : Fin 8) (v : Word),
    60 ≤ u.val → s.mayWrite i (R.LNu_EVSELk u k) = true →
    Runs (.evselWrite i u k v) s fun t =>
      t.bus = .ok 0 ∧ OnlyChanges s t [] [.bus] []) ∧
  (∀ (s : State) (i : Initiator) (u : Fin 64),
    s.mayWrite i (R.LNu_CTL u) = true →
    Runs (.lnCtlClr i u) s fun t =>
      t.ln = { s.ln with cnt := s.ln.cnt.set u (Vector.replicate 8 0), cleared := s.ln.cleared ++ [u] } ∧ t.reg (R.LNu_OVF u) = 0 ∧
      t.bus = .ok 0 ∧ OnlyChanges s t [R.LNu_OVF u] [.bus, .ln] []) ∧
  (∀ (s : State) (i : Initiator) (u : Fin 64) (f : Bool),
    s.mayWrite i (R.LNu_CTL u) = true →
    Runs (.lnCtlFreeze i u f) s fun t =>
      t.flag (R.LNu_CTL u) 0 = f ∧ t.bus = .ok 0 ∧ OnlyChanges s t [R.LNu_CTL u] [.bus] []) ∧
  (∀ (s : State) (i : Initiator) (v : Word),
    s.mayWrite i (R.LN_BW_WIN) = true → v &&& 0xFFFFF#32 ≠ 0 →
    Runs (.lnBwWinWrite i v) s fun t =>
      t.reg R.LN_BW_WIN = v &&& 0xFFFFF#32 ∧ t.ln = { s.ln with bwBytes := Vector.replicate 64 (0, 0), bwSince := s.cycle } ∧
      t.bus = .ok 0 ∧ OnlyChanges s t [R.LN_BW_WIN] [.bus, .ln] []) ∧
  (∀ (s : State) (i : Initiator) (v : Word),
    s.mayWrite i (R.LN_BW_WIN) = true → v &&& 0xFFFFF#32 = 0 →
    Runs (.lnBwWinWrite i v) s fun t =>
      t.ln = s.ln ∧ t.bus = .ok 0 ∧ OnlyChanges s t [] [.bus] []) ∧
  (∀ (s : State) (w : Nat),
    w = s.fld R.LN_BW_WIN 19 0 → s.ln.bwSince + usCycles w ≤ s.cycle →
    Runs (.bwWindowEnd) s fun t =>
      (∀ u : Fin 64, lnIsPort u = true → t.reg (R.LNu_BW_RD u) = BitVec.ofNat 32 (s.ln.bwBytes[u].1 / w) ∧ t.reg (R.LNu_BW_WR u) = BitVec.ofNat 32 (s.ln.bwBytes[u].2 / w)) ∧
      t.ln = { s.ln with bwBytes := Vector.replicate 64 (0, 0), bwSince := s.cycle } ∧
      OnlyChanges s t (((List.range 64).filter lnIsPort).flatMap (fun u => [R.LNu_BW_RD u, R.LNu_BW_WR u])) [.ln] []) ∧
  (∀ (s : State),
    s.cycle < s.ln.bwSince + usCycles (s.fld R.LN_BW_WIN 19 0) →
    Runs (.bwWindowEnd) s fun t =>
      t = s ∧ OnlyChanges s t [] [] []) ∧
  (∀ (s : State) (q : Fin 4) (pcs : Bool),
    tpUsable s q = true → (∀ k : Fin 8, lnChained s (lnTp q) k = false) →
    Runs (.tpLinkLoss q pcs) s fun t =>
      (∀ k : Fin 8, t.ln.cnt[lnTp q][k] = s.ln.cnt[lnTp q][k] + (if lnRuns s (lnTp q) k && bits (lnSel s (lnTp q) k) 7 0 == 0x24 then 1 else 0)) ∧
      (∀ u : Fin 64, u ≠ lnTp q → t.ln.cnt[u] = s.ln.cnt[u]) ∧
      OnlyChanges s t ((List.range 64).map R.LNu_OVF ++ [R.LN_IRQ_STAT, R.TPq_ERR q]) [.tp, .bc, .ln] []) ∧
  (∀ (s : State) (i : Initiator) (v : Word),
    s.mayWrite i (R.LN_DUMP_NOW) = true → v = 1 → s.flag R.LN_DUMP_CFG 6 = true → s.ln.dumpBusy = false →
    Runs (.dumpStart i v) s fun t =>
      t.ln = { s.ln with dump := some (dumpBytes s 0xFF), dumpBusy := true } ∧ t.reg R.LN_DUMP_SEQ = s.reg R.LN_DUMP_SEQ + 1 ∧
      t.bus = .ok 0 ∧ OnlyChanges s t [R.LN_DUMP_SEQ] [.bus, .ln] []) ∧
  (∀ (s : State) (i : Initiator) (v : Word),
    s.mayWrite i (R.LN_DUMP_NOW) = true → v = 1 → s.flag R.LN_DUMP_CFG 6 = true → s.ln.dumpBusy = true →
    Runs (.dumpStart i v) s fun t =>
      t.fld R.LN_DUMP_SKIP 31 0 = min (s.fld R.LN_DUMP_SKIP 31 0 + 1) 0xFFFFFFFF ∧
      t.reg R.LN_IRQ_STAT = s.reg R.LN_IRQ_STAT ||| 2#32 ∧ t.ln = s.ln ∧ OnlyChanges s t [R.LN_DUMP_SKIP, R.LN_IRQ_STAT] [.bus] []) ∧
  (∀ (s : State) (b : List Byte) (h a : Nat),
    s.ln.dump = some b → h = s.fld R.LN_DUMP_HEAD 5 0 → a = 0x20000000 + 0x80000 * s.fld R.LN_DUMP_CFG 5 0 + 0x2000 * h →
    banksAdmit s .lantern true a b.length = true →
    Runs (.dumpDone) s fun t =>
      t.bytes a b.length = b ∧ t.ln = { s.ln with dump := none, dumpBusy := false } ∧
      t.reg R.LN_DUMP_HEAD = BitVec.ofNat 32 ((h + 1) % 64) ∧ t.reg R.LN_IRQ_STAT = s.reg R.LN_IRQ_STAT ||| 1#32 ∧
      OnlyChanges s t [R.LN_DUMP_HEAD, R.LN_IRQ_STAT] [.ln] [(a, b.length)]) ∧
  (∀ (s : State) (b : List Byte) (h a : Nat),
    s.ln.dump = some b → h = s.fld R.LN_DUMP_HEAD 5 0 → a = 0x20000000 + 0x80000 * s.fld R.LN_DUMP_CFG 5 0 + 0x2000 * h →
    banksAdmit s .lantern true a b.length = false →
    Runs (.dumpDone) s fun t =>
      t.ln = { s.ln with dump := none, dumpBusy := false } ∧ t.reg R.LN_DUMP_HEAD = BitVec.ofNat 32 ((h + 1) % 64) ∧
      t.reg R.LN_IRQ_STAT = s.reg R.LN_IRQ_STAT ||| 1#32 ∧
      OnlyChanges s t [R.LN_DUMP_HEAD, R.LN_IRQ_STAT, R.BS_IRQ_STAT] [.ln, .bs, .bc] []) ∧
  (∀ (s : State),
    s.ln.dump = none →
    Runs (.dumpDone) s fun t =>
      t = s ∧ OnlyChanges s t [] [] []) ∧
  (∀ (s : State) (i : Initiator) (v : Word),
    s.mayWrite i (R.LN_DUMP_NOW) = true → (v ≠ 1 ∨ s.flag R.LN_DUMP_CFG 6 = false) →
    Runs (.dumpStart i v) s fun t =>
      t.bus = .ok 0 ∧ OnlyChanges s t [] [.bus] [])

/-- R6, R8, R9, R396: a write to a register with no command of its own changes its bits as Table 00-5 says, keeping reserved, RO and RR bits; an unassigned offset
ignores it; a narrow or unaligned write, and one outside the map, is a bus error without effect. -/
def Obligations.RegisterWrites : Prop :=
  (∀ (s : State) (i : Initiator) (a : Nat) (v : Word) (r : RegRow),
    inRegWindow a = true → a % 4 = 0 → isStaged (homeAddr a) = false → (writeRoute i a v s).isNone = true →
    regRow a = some r → r.keeper = false → s.mayWrite i a = true → (instanceAt (R.SE_TOKENn 0) 4 32 a).isNone = true →
    Runs (.registerWrite i a 4 v) s fun t =>
      t.reg (homeAddr a) = accessWrite r (s.reg (homeAddr a)) (s.setNow (homeAddr a)) v ∧
      (r.rw = 0 → r.wo = 0 → r.w1s = 0 → t.reg (homeAddr a) = s.reg (homeAddr a) &&& ~~~ (v &&& r.w1c &&& ~~~ s.setNow (homeAddr a))) ∧
      t.bus = .ok 0 ∧ OnlyChanges s t [homeAddr a] [.bus] []) ∧
  (∀ (s : State) (i : Initiator) (a : Nat) (v : Word) (r : RegRow),
    inRegWindow a = true → a % 4 = 0 → isStaged (homeAddr a) = false → (writeRoute i a v s).isNone = true →
    regRow a = some r → r.keeper = true → isKeeper i = true → s.admitted i = true → (instanceAt (R.SE_TOKENn 0) 4 32 a).isNone = true →
    Runs (.registerWrite i a 4 v) s fun t =>
      t.reg (homeAddr a) = accessWrite r (s.reg (homeAddr a)) (s.setNow (homeAddr a)) v ∧
      (r.rw = 0 → r.wo = 0 → r.w1s = 0 → t.reg (homeAddr a) = s.reg (homeAddr a) &&& ~~~ (v &&& r.w1c &&& ~~~ s.setNow (homeAddr a))) ∧
      t.bus = .ok 0 ∧ OnlyChanges s t [homeAddr a] [.bus] []) ∧
  (∀ (s : State) (i : Initiator) (n : Fin 32) (v : Word),
    s.mayWrite i (R.SE_TOKENn n) = true →
    Runs (.registerWrite i (R.SE_TOKENn n) 4 v) s fun t =>
      t.se = { s.se with token := s.se.token.set n v } ∧ t.bus = .ok 0 ∧ OnlyChanges s t [] [.bus, .se] []) ∧
  (∀ (s : State) (i : Initiator) (a : Nat) (v : Word),
    inRegWindow a = true → a % 4 = 0 → isStaged (homeAddr a) = false → (writeRoute i a v s).isNone = true →
    regRow a = none → s.scrapped = false → isKeeper i = false → s.mayWrite i a = false →
    Runs (.registerWrite i a 4 v) s fun t =>
      t.bus = .error ∧ Asserts s t 10 0 ∧ OnlyChanges s t [] [.bus, .bc] []) ∧
  (∀ (s : State) (i : Initiator) (a : Nat) (v : Word),
    inRegWindow a = true → a % 4 = 0 → isStaged (homeAddr a) = false → (writeRoute i a v s).isNone = true →
    regRow a = none → s.mayWrite i a = true →
    Runs (.registerWrite i a 4 v) s fun t =>
      t.bus = .ok 0 ∧ OnlyChanges s t [] [.bus] []) ∧
  (∀ (s : State) (i : Initiator) (a : Nat) (v : Word) (n : Nat),
    s.scrapped = false → inRegWindow a = true → (n ≠ 4 ∨ a % 4 ≠ 0) →
    Runs (.registerWrite i a n v) s fun t =>
      t.bus = .error ∧
      ((t.bc.lines.drop s.bc.lines.length).map (fun l => (l.src, l.chan)) = (if isKeeper i then [(5#7, 0#6)] else if writeAllowed s i a then [] else [(10#7, 0#6)])) ∧
      OnlyChanges s t [] [.bus, .bc] []) ∧
  (∀ (s : State) (i : Initiator) (a : Nat) (v : Word) (n : Nat),
    s.scrapped = false → inRegWindow a = false →
    Runs (.registerWrite i a n v) s fun t =>
      t.bus = .error ∧ Asserts s t (if isKeeper i then 5 else 10) 0 ∧ OnlyChanges s t [] [.bus, .bc] []) ∧
  (∀ (s : State) (i : Initiator) (a : Nat) (v : Word) (r : RegRow),
    inRegWindow a = true → a % 4 = 0 → isStaged (homeAddr a) = false → (writeRoute i a v s).isNone = true →
    regRow a = some r → s.scrapped = false → i = .harbour → (r.keeper = true ∨ s.mayWrite i a = false) →
    Runs (.registerWrite i a 4 v) s fun t =>
      t.bus = .error ∧ Asserts s t 10 0 ∧ OnlyChanges s t [] [.bus, .bc] [])
end

