-- ==== Sys2Proof/Laws/Cells.lean ====
section
/-! SUPPORT. Laws/Cells.lean: reading after writing sparse storage, and the canonical form kept by every operation on it. -/

namespace Sys2Proof.Machine.Cells

variable {α : Type}

/-! ### Reading after writing -/

theorem get_erase_same (d : Nat → α) (k : Nat) : ∀ m : List (Nat × α), get d (erase k m) k = d k
  | [] => rfl
  | (a, v) :: m => by
    by_cases h : a = k
    · simp [erase, h, get_erase_same d k m]
    · simp [erase, h, get, get_erase_same d k m]

theorem get_erase_ne (d : Nat → α) {k j : Nat} (h : j ≠ k) : ∀ m : List (Nat × α), get d (erase k m) j = get d m j
  | [] => rfl
  | (a, v) :: m => by
    by_cases ha : a = k
    · have : ¬ a = j := by omega
      simp [erase, ha, get, get_erase_ne d h m]
      omega
    · simp only [erase, ha, get, get_erase_ne d h m, if_false]

theorem get_insert_ne (d : Nat → α) {k j : Nat} (v : α) (h : j ≠ k) : ∀ m : List (Nat × α), get d (insert k v m) j = get d m j
  | [] => by simp [insert, get]; omega
  | (a, w) :: m => by
    by_cases hk : k < a
    · have : ¬ k = j := by omega
      simp [insert, hk, get, this]
    · simp only [insert, hk, get, get_insert_ne d v h m, if_false]

theorem get_insert_same (d : Nat → α) (k : Nat) (v : α) : ∀ m : List (Nat × α), (∀ e ∈ m, e.1 ≠ k) → get d (insert k v m) k = v
  | [], _ => by simp [insert, get]
  | (a, w) :: m, h => by
    have ha : a ≠ k := h (a, w) (by simp)
    by_cases hk : k < a
    · simp [insert, hk, get]
    · simp [insert, hk, get, ha]
      exact get_insert_same d k v m fun e he => h e (by simp [he])

theorem mem_erase {k : Nat} : ∀ {m : List (Nat × α)} {e : Nat × α}, e ∈ erase k m → e ∈ m ∧ e.1 ≠ k
  | (a, v) :: m, e, h => by
    by_cases ha : a = k
    · simp [erase, ha] at h
      exact ⟨by simp [(mem_erase h).1], (mem_erase h).2⟩
    · simp [erase, ha] at h
      rcases h with rfl | h
      · exact ⟨by simp, ha⟩
      · exact ⟨by simp [(mem_erase h).1], (mem_erase h).2⟩

variable [DecidableEq α]

/-- A read after a write to the same key gives the value written. -/
@[simp] theorem get_set_same (d : Nat → α) (m : List (Nat × α)) (k : Nat) (v : α) : get d (set d m k v) k = v := by
  unfold set
  split
  · next h => rw [get_erase_same, h]
  · exact get_insert_same d k v _ fun e he => (mem_erase he).2

/-- A write leaves every other key alone. -/
theorem get_set_ne (d : Nat → α) (m : List (Nat × α)) {k j : Nat} (v : α) (h : j ≠ k) : get d (set d m k v) j = get d m j := by
  unfold set
  split
  · exact get_erase_ne d h m
  · rw [get_insert_ne d v h, get_erase_ne d h]

/-- A write of a list leaves every key outside it alone. -/
theorem get_setRange_out (d : Nat → α) {j : Nat} : ∀ (vs : List α) (m : List (Nat × α)) (k : Nat), (j < k ∨ k + vs.length ≤ j) →
    get d (setRange d m k vs) j = get d m j
  | [], _, _, _ => rfl
  | v :: vs, m, k, h => by
    have hl : (v :: vs).length = vs.length + 1 := rfl
    rw [setRange, get_setRange_out d vs _ _ (by omega), get_set_ne d m v (by omega)]

/-- A write of a list puts its values at consecutive keys. -/
theorem get_setRange_in (d : Nat → α) : ∀ (vs : List α) (m : List (Nat × α)) (k i : Nat) (h : i < vs.length),
    get d (setRange d m k vs) (k + i) = vs[i]
  | v :: vs, m, k, 0, _ => by
    rw [setRange, get_setRange_out d vs _ _ (by omega)]
    simp
  | v :: vs, m, k, i + 1, h => by
    have := get_setRange_in d vs (set d m k v) (k + 1) i (by simpa using h)
    rw [setRange]
    simpa [Nat.add_assoc, Nat.add_comm 1 i] using this

/-! ### The canonical form -/

theorem wfFrom_head {d : Nat → α} {lo : Option Nat} {a : Nat} {v : α} {m : List (Nat × α)} (h : wfFrom d lo ((a, v) :: m) = true) :
    (∀ l, lo = some l → l < a) ∧ v ≠ d a ∧ wfFrom d (some a) m = true := by
  cases lo <;> simp_all [wfFrom]

theorem wfFrom_cons {d : Nat → α} {lo : Option Nat} {a : Nat} {v : α} {m : List (Nat × α)} (h1 : ∀ l, lo = some l → l < a) (h2 : v ≠ d a)
    (h3 : wfFrom d (some a) m = true) : wfFrom d lo ((a, v) :: m) = true := by
  cases lo <;> simp_all [wfFrom]

theorem wfFrom_le {d : Nat → α} {l a : Nat} (hl : l ≤ a) : ∀ {m : List (Nat × α)}, wfFrom d (some a) m = true → wfFrom d (some l) m = true
  | [], _ => rfl
  | (_, _) :: _, h => by
    obtain ⟨h1, h2, h3⟩ := wfFrom_head h
    exact wfFrom_cons (fun l' hl' => by have := h1 a rfl; cases hl'; omega) h2 h3

theorem wfFrom_any {d : Nat → α} {lo : Option Nat} {m : List (Nat × α)} (h : wfFrom d lo m = true) : wfFrom d none m = true := by
  cases m with
  | nil => rfl
  | cons e m =>
    obtain ⟨_, h2, h3⟩ := wfFrom_head h
    exact wfFrom_cons (by simp) h2 h3

/-- Dropping entries keeps the canonical form. -/
theorem wfFrom_filter {d : Nat → α} (p : Nat × α → Bool) : ∀ {lo : Option Nat} {m : List (Nat × α)}, wfFrom d lo m = true →
    wfFrom d lo (m.filter p) = true
  | lo, [], h => h
  | lo, (a, v) :: m, h => by
    obtain ⟨h1, h2, h3⟩ := wfFrom_head h
    have ih := wfFrom_filter p h3
    by_cases hp : p (a, v) = true
    · simpa [hp] using wfFrom_cons h1 h2 ih
    · simp only [hp, List.filter_cons, Bool.false_eq_true, if_false]
      cases lo with
      | none => exact wfFrom_any ih
      | some l => exact wfFrom_le (Nat.le_of_lt (h1 l rfl)) ih

omit [DecidableEq α] in
theorem erase_eq_filter (k : Nat) : ∀ m : List (Nat × α), erase k m = m.filter fun e => decide (e.1 ≠ k)
  | [] => rfl
  | (a, v) :: m => by by_cases h : a = k <;> simp [erase, h, erase_eq_filter k m]

theorem wfFrom_insert {d : Nat → α} {k : Nat} {v : α} (hv : v ≠ d k) : ∀ {lo : Option Nat} {m : List (Nat × α)}, (∀ l, lo = some l → l < k) →
    (∀ e ∈ m, e.1 ≠ k) → wfFrom d lo m = true → wfFrom d lo (insert k v m) = true
  | lo, [], hlo, _, _ => wfFrom_cons hlo hv rfl
  | lo, (a, w) :: m, hlo, hm, h => by
    obtain ⟨h1, h2, h3⟩ := wfFrom_head h
    have ha : a ≠ k := hm (a, w) (by simp)
    by_cases hk : k < a
    · simp only [insert, hk, if_true]
      exact wfFrom_cons hlo hv (wfFrom_cons (fun l hl => by cases hl; exact hk) h2 h3)
    · simp only [insert, hk, if_false]
      exact wfFrom_cons h1 h2 (wfFrom_insert hv (fun l hl => by cases hl; omega) (fun e he => hm e (by simp [he])) h3)

/-- A write keeps the canonical form. -/
theorem wf_set {d : Nat → α} {m : List (Nat × α)} (k : Nat) (v : α) (h : wf d m = true) : wf d (set d m k v) = true := by
  have he : wfFrom d none (erase k m) = true := by rw [erase_eq_filter]; exact wfFrom_filter _ h
  unfold set wf
  split
  · exact he
  · next hv => exact wfFrom_insert hv (by simp) (fun e hm => (mem_erase hm).2) he

theorem wf_setRange {d : Nat → α} : ∀ {m : List (Nat × α)} (k : Nat) (vs : List α), wf d m = true → wf d (setRange d m k vs) = true
  | _, _, [], h => h
  | _, k, v :: vs, h => wf_setRange (k + 1) vs (wf_set k v h)

theorem wf_clear {d : Nat → α} {m : List (Nat × α)} (k n : Nat) (h : wf d m = true) : wf d (clear m k n) = true := wfFrom_filter _ h

theorem wf_replace {d : Nat → α} {m : List (Nat × α)} (k n : Nat) (es : List (Nat × α)) (h : wf d m = true) : wf d (replace d m k n es) = true := by
  unfold replace
  generalize hc : clear m k n = c
  have hw : wf d c = true := hc ▸ wf_clear k n h
  clear hc h
  induction es generalizing c with
  | nil => exact hw
  | cons e es ih => exact ih _ (wf_set _ _ hw)

/-! ### Clearing and replacing -/

omit [DecidableEq α] in
theorem get_filter_out (d : Nat → α) (p : Nat × α → Bool) {j : Nat} (hj : ∀ v, p (j, v) = true) : ∀ m : List (Nat × α), get d (m.filter p) j = get d m j
  | [] => rfl
  | (a, v) :: m => by
    by_cases ha : a = j
    · subst ha
      simp [hj, get]
    · by_cases hp : p (a, v) = true <;> simp [hp, get, ha, get_filter_out d p hj m]

omit [DecidableEq α] in
/-- Clearing a range leaves every key outside it alone. -/
theorem get_clear_out (d : Nat → α) (m : List (Nat × α)) {k n j : Nat} (h : j < k ∨ k + n ≤ j) : get d (clear m k n) j = get d m j :=
  get_filter_out d _ (fun _ => by simpa using h) m

/-- Replacing a range leaves every key outside it alone, where the entries lie inside it. -/
theorem get_replace_out (d : Nat → α) (m : List (Nat × α)) {k n j : Nat} (es : List (Nat × α)) (he : ∀ e ∈ es, e.1 < n)
    (h : j < k ∨ k + n ≤ j) : get d (replace d m k n es) j = get d m j := by
  unfold replace
  rw [← get_clear_out d m h]
  generalize clear m k n = c
  induction es generalizing c with
  | nil => rfl
  | cons e es ih =>
    have := he e (by simp)
    rw [List.foldl_cons, ih (fun x hx => he x (by simp [hx])), get_set_ne d c e.2 (by omega)]

end Sys2Proof.Machine.Cells
end

