-- ==== Sys2Proof/Laws/State.lean ====
section
/-! SUPPORT. Laws/State.lean: what each named update of the state leaves as it was, one lemma per field, and what a register or a byte
reads after it. -/

namespace Sys2Proof.Machine.State

/-! ### setReg -/

@[simp] theorem setReg_grade (s : State) (a : Nat) (v : Word) : (s.setReg a v).grade = s.grade := rfl
@[simp] theorem setReg_fused (s : State) (a : Nat) (v : Word) : (s.setReg a v).fused = s.fused := rfl
@[simp] theorem setReg_cycle (s : State) (a : Nat) (v : Word) : (s.setReg a v).cycle = s.cycle := rfl
@[simp] theorem setReg_bus (s : State) (a : Nat) (v : Word) : (s.setReg a v).bus = s.bus := rfl
@[simp] theorem setReg_mem (s : State) (a : Nat) (v : Word) : (s.setReg a v).mem = s.mem := rfl
@[simp] theorem setReg_mp (s : State) (a : Nat) (v : Word) : (s.setReg a v).mp = s.mp := rfl
@[simp] theorem setReg_sl (s : State) (a : Nat) (v : Word) : (s.setReg a v).sl = s.sl := rfl
@[simp] theorem setReg_barges (s : State) (a : Nat) (v : Word) : (s.setReg a v).barges = s.barges := rfl
@[simp] theorem setReg_mr (s : State) (a : Nat) (v : Word) : (s.setReg a v).mr = s.mr := rfl
@[simp] theorem setReg_mi (s : State) (a : Nat) (v : Word) : (s.setReg a v).mi = s.mi := rfl
@[simp] theorem setReg_tiles (s : State) (a : Nat) (v : Word) : (s.setReg a v).tiles = s.tiles := rfl
@[simp] theorem setReg_au (s : State) (a : Nat) (v : Word) : (s.setReg a v).au = s.au := rfl
@[simp] theorem setReg_sn (s : State) (a : Nat) (v : Word) : (s.setReg a v).sn = s.sn := rfl
@[simp] theorem setReg_lc (s : State) (a : Nat) (v : Word) : (s.setReg a v).lc = s.lc := rfl
@[simp] theorem setReg_bc (s : State) (a : Nat) (v : Word) : (s.setReg a v).bc = s.bc := rfl
@[simp] theorem setReg_wd (s : State) (a : Nat) (v : Word) : (s.setReg a v).wd = s.wd := rfl
@[simp] theorem setReg_sio (s : State) (a : Nat) (v : Word) : (s.setReg a v).sio = s.sio := rfl
@[simp] theorem setReg_se (s : State) (a : Nat) (v : Word) : (s.setReg a v).se = s.se := rfl
@[simp] theorem setReg_lk (s : State) (a : Nat) (v : Word) : (s.setReg a v).lk = s.lk := rfl
@[simp] theorem setReg_wr (s : State) (a : Nat) (v : Word) : (s.setReg a v).wr = s.wr := rfl
@[simp] theorem setReg_hd (s : State) (a : Nat) (v : Word) : (s.setReg a v).hd = s.hd := rfl
@[simp] theorem setReg_bs (s : State) (a : Nat) (v : Word) : (s.setReg a v).bs = s.bs := rfl
@[simp] theorem setReg_ty (s : State) (a : Nat) (v : Word) : (s.setReg a v).ty = s.ty := rfl
@[simp] theorem setReg_tp (s : State) (a : Nat) (v : Word) : (s.setReg a v).tp = s.tp := rfl
@[simp] theorem setReg_kc (s : State) (a : Nat) (v : Word) : (s.setReg a v).kc = s.kc := rfl
@[simp] theorem setReg_ln (s : State) (a : Nat) (v : Word) : (s.setReg a v).ln = s.ln := rfl
@[simp] theorem setReg_freeIdx (s : State) (a : Nat) (v : Word) : (s.setReg a v).freeIdx = s.freeIdx := rfl
@[simp] theorem setReg_draws (s : State) (a : Nat) (v : Word) : (s.setReg a v).draws = s.draws := rfl
@[simp] theorem setReg_hwSets (s : State) (a : Nat) (v : Word) : (s.setReg a v).hwSets = s.hwSets := rfl
@[simp] theorem setReg_ports (s : State) (a : Nat) (v : Word) : (s.setReg a v).ports = s.ports := rfl
@[simp] theorem setReg_pending (s : State) (a : Nat) (v : Word) : (s.setReg a v).pending = s.pending := rfl

/-! ### setReg64 -/

@[simp] theorem setReg64_grade (s : State) (a : Nat) (v : DWord) : (s.setReg64 a v).grade = s.grade := rfl
@[simp] theorem setReg64_fused (s : State) (a : Nat) (v : DWord) : (s.setReg64 a v).fused = s.fused := rfl
@[simp] theorem setReg64_cycle (s : State) (a : Nat) (v : DWord) : (s.setReg64 a v).cycle = s.cycle := rfl
@[simp] theorem setReg64_bus (s : State) (a : Nat) (v : DWord) : (s.setReg64 a v).bus = s.bus := rfl
@[simp] theorem setReg64_mem (s : State) (a : Nat) (v : DWord) : (s.setReg64 a v).mem = s.mem := rfl
@[simp] theorem setReg64_mp (s : State) (a : Nat) (v : DWord) : (s.setReg64 a v).mp = s.mp := rfl
@[simp] theorem setReg64_sl (s : State) (a : Nat) (v : DWord) : (s.setReg64 a v).sl = s.sl := rfl
@[simp] theorem setReg64_barges (s : State) (a : Nat) (v : DWord) : (s.setReg64 a v).barges = s.barges := rfl
@[simp] theorem setReg64_mr (s : State) (a : Nat) (v : DWord) : (s.setReg64 a v).mr = s.mr := rfl
@[simp] theorem setReg64_mi (s : State) (a : Nat) (v : DWord) : (s.setReg64 a v).mi = s.mi := rfl
@[simp] theorem setReg64_tiles (s : State) (a : Nat) (v : DWord) : (s.setReg64 a v).tiles = s.tiles := rfl
@[simp] theorem setReg64_au (s : State) (a : Nat) (v : DWord) : (s.setReg64 a v).au = s.au := rfl
@[simp] theorem setReg64_sn (s : State) (a : Nat) (v : DWord) : (s.setReg64 a v).sn = s.sn := rfl
@[simp] theorem setReg64_lc (s : State) (a : Nat) (v : DWord) : (s.setReg64 a v).lc = s.lc := rfl
@[simp] theorem setReg64_bc (s : State) (a : Nat) (v : DWord) : (s.setReg64 a v).bc = s.bc := rfl
@[simp] theorem setReg64_wd (s : State) (a : Nat) (v : DWord) : (s.setReg64 a v).wd = s.wd := rfl
@[simp] theorem setReg64_sio (s : State) (a : Nat) (v : DWord) : (s.setReg64 a v).sio = s.sio := rfl
@[simp] theorem setReg64_se (s : State) (a : Nat) (v : DWord) : (s.setReg64 a v).se = s.se := rfl
@[simp] theorem setReg64_lk (s : State) (a : Nat) (v : DWord) : (s.setReg64 a v).lk = s.lk := rfl
@[simp] theorem setReg64_wr (s : State) (a : Nat) (v : DWord) : (s.setReg64 a v).wr = s.wr := rfl
@[simp] theorem setReg64_hd (s : State) (a : Nat) (v : DWord) : (s.setReg64 a v).hd = s.hd := rfl
@[simp] theorem setReg64_bs (s : State) (a : Nat) (v : DWord) : (s.setReg64 a v).bs = s.bs := rfl
@[simp] theorem setReg64_ty (s : State) (a : Nat) (v : DWord) : (s.setReg64 a v).ty = s.ty := rfl
@[simp] theorem setReg64_tp (s : State) (a : Nat) (v : DWord) : (s.setReg64 a v).tp = s.tp := rfl
@[simp] theorem setReg64_kc (s : State) (a : Nat) (v : DWord) : (s.setReg64 a v).kc = s.kc := rfl
@[simp] theorem setReg64_ln (s : State) (a : Nat) (v : DWord) : (s.setReg64 a v).ln = s.ln := rfl
@[simp] theorem setReg64_freeIdx (s : State) (a : Nat) (v : DWord) : (s.setReg64 a v).freeIdx = s.freeIdx := rfl
@[simp] theorem setReg64_draws (s : State) (a : Nat) (v : DWord) : (s.setReg64 a v).draws = s.draws := rfl
@[simp] theorem setReg64_hwSets (s : State) (a : Nat) (v : DWord) : (s.setReg64 a v).hwSets = s.hwSets := rfl
@[simp] theorem setReg64_ports (s : State) (a : Nat) (v : DWord) : (s.setReg64 a v).ports = s.ports := rfl
@[simp] theorem setReg64_pending (s : State) (a : Nat) (v : DWord) : (s.setReg64 a v).pending = s.pending := rfl

/-! ### setFld -/

@[simp] theorem setFld_grade (s : State) (a hi lo v : Nat) : (s.setFld a hi lo v).grade = s.grade := rfl
@[simp] theorem setFld_fused (s : State) (a hi lo v : Nat) : (s.setFld a hi lo v).fused = s.fused := rfl
@[simp] theorem setFld_cycle (s : State) (a hi lo v : Nat) : (s.setFld a hi lo v).cycle = s.cycle := rfl
@[simp] theorem setFld_bus (s : State) (a hi lo v : Nat) : (s.setFld a hi lo v).bus = s.bus := rfl
@[simp] theorem setFld_mem (s : State) (a hi lo v : Nat) : (s.setFld a hi lo v).mem = s.mem := rfl
@[simp] theorem setFld_mp (s : State) (a hi lo v : Nat) : (s.setFld a hi lo v).mp = s.mp := rfl
@[simp] theorem setFld_sl (s : State) (a hi lo v : Nat) : (s.setFld a hi lo v).sl = s.sl := rfl
@[simp] theorem setFld_barges (s : State) (a hi lo v : Nat) : (s.setFld a hi lo v).barges = s.barges := rfl
@[simp] theorem setFld_mr (s : State) (a hi lo v : Nat) : (s.setFld a hi lo v).mr = s.mr := rfl
@[simp] theorem setFld_mi (s : State) (a hi lo v : Nat) : (s.setFld a hi lo v).mi = s.mi := rfl
@[simp] theorem setFld_tiles (s : State) (a hi lo v : Nat) : (s.setFld a hi lo v).tiles = s.tiles := rfl
@[simp] theorem setFld_au (s : State) (a hi lo v : Nat) : (s.setFld a hi lo v).au = s.au := rfl
@[simp] theorem setFld_sn (s : State) (a hi lo v : Nat) : (s.setFld a hi lo v).sn = s.sn := rfl
@[simp] theorem setFld_lc (s : State) (a hi lo v : Nat) : (s.setFld a hi lo v).lc = s.lc := rfl
@[simp] theorem setFld_bc (s : State) (a hi lo v : Nat) : (s.setFld a hi lo v).bc = s.bc := rfl
@[simp] theorem setFld_wd (s : State) (a hi lo v : Nat) : (s.setFld a hi lo v).wd = s.wd := rfl
@[simp] theorem setFld_sio (s : State) (a hi lo v : Nat) : (s.setFld a hi lo v).sio = s.sio := rfl
@[simp] theorem setFld_se (s : State) (a hi lo v : Nat) : (s.setFld a hi lo v).se = s.se := rfl
@[simp] theorem setFld_lk (s : State) (a hi lo v : Nat) : (s.setFld a hi lo v).lk = s.lk := rfl
@[simp] theorem setFld_wr (s : State) (a hi lo v : Nat) : (s.setFld a hi lo v).wr = s.wr := rfl
@[simp] theorem setFld_hd (s : State) (a hi lo v : Nat) : (s.setFld a hi lo v).hd = s.hd := rfl
@[simp] theorem setFld_bs (s : State) (a hi lo v : Nat) : (s.setFld a hi lo v).bs = s.bs := rfl
@[simp] theorem setFld_ty (s : State) (a hi lo v : Nat) : (s.setFld a hi lo v).ty = s.ty := rfl
@[simp] theorem setFld_tp (s : State) (a hi lo v : Nat) : (s.setFld a hi lo v).tp = s.tp := rfl
@[simp] theorem setFld_kc (s : State) (a hi lo v : Nat) : (s.setFld a hi lo v).kc = s.kc := rfl
@[simp] theorem setFld_ln (s : State) (a hi lo v : Nat) : (s.setFld a hi lo v).ln = s.ln := rfl
@[simp] theorem setFld_freeIdx (s : State) (a hi lo v : Nat) : (s.setFld a hi lo v).freeIdx = s.freeIdx := rfl
@[simp] theorem setFld_draws (s : State) (a hi lo v : Nat) : (s.setFld a hi lo v).draws = s.draws := rfl
@[simp] theorem setFld_hwSets (s : State) (a hi lo v : Nat) : (s.setFld a hi lo v).hwSets = s.hwSets := rfl
@[simp] theorem setFld_ports (s : State) (a hi lo v : Nat) : (s.setFld a hi lo v).ports = s.ports := rfl
@[simp] theorem setFld_pending (s : State) (a hi lo v : Nat) : (s.setFld a hi lo v).pending = s.pending := rfl

/-! ### orReg -/

@[simp] theorem orReg_grade (s : State) (a : Nat) (m : Word) : (s.orReg a m).grade = s.grade := rfl
@[simp] theorem orReg_fused (s : State) (a : Nat) (m : Word) : (s.orReg a m).fused = s.fused := rfl
@[simp] theorem orReg_cycle (s : State) (a : Nat) (m : Word) : (s.orReg a m).cycle = s.cycle := rfl
@[simp] theorem orReg_bus (s : State) (a : Nat) (m : Word) : (s.orReg a m).bus = s.bus := rfl
@[simp] theorem orReg_mem (s : State) (a : Nat) (m : Word) : (s.orReg a m).mem = s.mem := rfl
@[simp] theorem orReg_mp (s : State) (a : Nat) (m : Word) : (s.orReg a m).mp = s.mp := rfl
@[simp] theorem orReg_sl (s : State) (a : Nat) (m : Word) : (s.orReg a m).sl = s.sl := rfl
@[simp] theorem orReg_barges (s : State) (a : Nat) (m : Word) : (s.orReg a m).barges = s.barges := rfl
@[simp] theorem orReg_mr (s : State) (a : Nat) (m : Word) : (s.orReg a m).mr = s.mr := rfl
@[simp] theorem orReg_mi (s : State) (a : Nat) (m : Word) : (s.orReg a m).mi = s.mi := rfl
@[simp] theorem orReg_tiles (s : State) (a : Nat) (m : Word) : (s.orReg a m).tiles = s.tiles := rfl
@[simp] theorem orReg_au (s : State) (a : Nat) (m : Word) : (s.orReg a m).au = s.au := rfl
@[simp] theorem orReg_sn (s : State) (a : Nat) (m : Word) : (s.orReg a m).sn = s.sn := rfl
@[simp] theorem orReg_lc (s : State) (a : Nat) (m : Word) : (s.orReg a m).lc = s.lc := rfl
@[simp] theorem orReg_bc (s : State) (a : Nat) (m : Word) : (s.orReg a m).bc = s.bc := rfl
@[simp] theorem orReg_wd (s : State) (a : Nat) (m : Word) : (s.orReg a m).wd = s.wd := rfl
@[simp] theorem orReg_sio (s : State) (a : Nat) (m : Word) : (s.orReg a m).sio = s.sio := rfl
@[simp] theorem orReg_se (s : State) (a : Nat) (m : Word) : (s.orReg a m).se = s.se := rfl
@[simp] theorem orReg_lk (s : State) (a : Nat) (m : Word) : (s.orReg a m).lk = s.lk := rfl
@[simp] theorem orReg_wr (s : State) (a : Nat) (m : Word) : (s.orReg a m).wr = s.wr := rfl
@[simp] theorem orReg_hd (s : State) (a : Nat) (m : Word) : (s.orReg a m).hd = s.hd := rfl
@[simp] theorem orReg_bs (s : State) (a : Nat) (m : Word) : (s.orReg a m).bs = s.bs := rfl
@[simp] theorem orReg_ty (s : State) (a : Nat) (m : Word) : (s.orReg a m).ty = s.ty := rfl
@[simp] theorem orReg_tp (s : State) (a : Nat) (m : Word) : (s.orReg a m).tp = s.tp := rfl
@[simp] theorem orReg_kc (s : State) (a : Nat) (m : Word) : (s.orReg a m).kc = s.kc := rfl
@[simp] theorem orReg_ln (s : State) (a : Nat) (m : Word) : (s.orReg a m).ln = s.ln := rfl
@[simp] theorem orReg_freeIdx (s : State) (a : Nat) (m : Word) : (s.orReg a m).freeIdx = s.freeIdx := rfl
@[simp] theorem orReg_draws (s : State) (a : Nat) (m : Word) : (s.orReg a m).draws = s.draws := rfl
@[simp] theorem orReg_ports (s : State) (a : Nat) (m : Word) : (s.orReg a m).ports = s.ports := rfl
@[simp] theorem orReg_pending (s : State) (a : Nat) (m : Word) : (s.orReg a m).pending = s.pending := rfl

/-! ### clearReg -/

@[simp] theorem clearReg_grade (s : State) (a : Nat) (m : Word) : (s.clearReg a m).grade = s.grade := rfl
@[simp] theorem clearReg_fused (s : State) (a : Nat) (m : Word) : (s.clearReg a m).fused = s.fused := rfl
@[simp] theorem clearReg_cycle (s : State) (a : Nat) (m : Word) : (s.clearReg a m).cycle = s.cycle := rfl
@[simp] theorem clearReg_bus (s : State) (a : Nat) (m : Word) : (s.clearReg a m).bus = s.bus := rfl
@[simp] theorem clearReg_mem (s : State) (a : Nat) (m : Word) : (s.clearReg a m).mem = s.mem := rfl
@[simp] theorem clearReg_mp (s : State) (a : Nat) (m : Word) : (s.clearReg a m).mp = s.mp := rfl
@[simp] theorem clearReg_sl (s : State) (a : Nat) (m : Word) : (s.clearReg a m).sl = s.sl := rfl
@[simp] theorem clearReg_barges (s : State) (a : Nat) (m : Word) : (s.clearReg a m).barges = s.barges := rfl
@[simp] theorem clearReg_mr (s : State) (a : Nat) (m : Word) : (s.clearReg a m).mr = s.mr := rfl
@[simp] theorem clearReg_mi (s : State) (a : Nat) (m : Word) : (s.clearReg a m).mi = s.mi := rfl
@[simp] theorem clearReg_tiles (s : State) (a : Nat) (m : Word) : (s.clearReg a m).tiles = s.tiles := rfl
@[simp] theorem clearReg_au (s : State) (a : Nat) (m : Word) : (s.clearReg a m).au = s.au := rfl
@[simp] theorem clearReg_sn (s : State) (a : Nat) (m : Word) : (s.clearReg a m).sn = s.sn := rfl
@[simp] theorem clearReg_lc (s : State) (a : Nat) (m : Word) : (s.clearReg a m).lc = s.lc := rfl
@[simp] theorem clearReg_bc (s : State) (a : Nat) (m : Word) : (s.clearReg a m).bc = s.bc := rfl
@[simp] theorem clearReg_wd (s : State) (a : Nat) (m : Word) : (s.clearReg a m).wd = s.wd := rfl
@[simp] theorem clearReg_sio (s : State) (a : Nat) (m : Word) : (s.clearReg a m).sio = s.sio := rfl
@[simp] theorem clearReg_se (s : State) (a : Nat) (m : Word) : (s.clearReg a m).se = s.se := rfl
@[simp] theorem clearReg_lk (s : State) (a : Nat) (m : Word) : (s.clearReg a m).lk = s.lk := rfl
@[simp] theorem clearReg_wr (s : State) (a : Nat) (m : Word) : (s.clearReg a m).wr = s.wr := rfl
@[simp] theorem clearReg_hd (s : State) (a : Nat) (m : Word) : (s.clearReg a m).hd = s.hd := rfl
@[simp] theorem clearReg_bs (s : State) (a : Nat) (m : Word) : (s.clearReg a m).bs = s.bs := rfl
@[simp] theorem clearReg_ty (s : State) (a : Nat) (m : Word) : (s.clearReg a m).ty = s.ty := rfl
@[simp] theorem clearReg_tp (s : State) (a : Nat) (m : Word) : (s.clearReg a m).tp = s.tp := rfl
@[simp] theorem clearReg_kc (s : State) (a : Nat) (m : Word) : (s.clearReg a m).kc = s.kc := rfl
@[simp] theorem clearReg_ln (s : State) (a : Nat) (m : Word) : (s.clearReg a m).ln = s.ln := rfl
@[simp] theorem clearReg_freeIdx (s : State) (a : Nat) (m : Word) : (s.clearReg a m).freeIdx = s.freeIdx := rfl
@[simp] theorem clearReg_draws (s : State) (a : Nat) (m : Word) : (s.clearReg a m).draws = s.draws := rfl
@[simp] theorem clearReg_hwSets (s : State) (a : Nat) (m : Word) : (s.clearReg a m).hwSets = s.hwSets := rfl
@[simp] theorem clearReg_ports (s : State) (a : Nat) (m : Word) : (s.clearReg a m).ports = s.ports := rfl
@[simp] theorem clearReg_pending (s : State) (a : Nat) (m : Word) : (s.clearReg a m).pending = s.pending := rfl

/-! ### setBit -/

@[simp] theorem setBit_grade (s : State) (a b : Nat) : (s.setBit a b).grade = s.grade := rfl
@[simp] theorem setBit_fused (s : State) (a b : Nat) : (s.setBit a b).fused = s.fused := rfl
@[simp] theorem setBit_cycle (s : State) (a b : Nat) : (s.setBit a b).cycle = s.cycle := rfl
@[simp] theorem setBit_bus (s : State) (a b : Nat) : (s.setBit a b).bus = s.bus := rfl
@[simp] theorem setBit_mem (s : State) (a b : Nat) : (s.setBit a b).mem = s.mem := rfl
@[simp] theorem setBit_mp (s : State) (a b : Nat) : (s.setBit a b).mp = s.mp := rfl
@[simp] theorem setBit_sl (s : State) (a b : Nat) : (s.setBit a b).sl = s.sl := rfl
@[simp] theorem setBit_barges (s : State) (a b : Nat) : (s.setBit a b).barges = s.barges := rfl
@[simp] theorem setBit_mr (s : State) (a b : Nat) : (s.setBit a b).mr = s.mr := rfl
@[simp] theorem setBit_mi (s : State) (a b : Nat) : (s.setBit a b).mi = s.mi := rfl
@[simp] theorem setBit_tiles (s : State) (a b : Nat) : (s.setBit a b).tiles = s.tiles := rfl
@[simp] theorem setBit_au (s : State) (a b : Nat) : (s.setBit a b).au = s.au := rfl
@[simp] theorem setBit_sn (s : State) (a b : Nat) : (s.setBit a b).sn = s.sn := rfl
@[simp] theorem setBit_lc (s : State) (a b : Nat) : (s.setBit a b).lc = s.lc := rfl
@[simp] theorem setBit_bc (s : State) (a b : Nat) : (s.setBit a b).bc = s.bc := rfl
@[simp] theorem setBit_wd (s : State) (a b : Nat) : (s.setBit a b).wd = s.wd := rfl
@[simp] theorem setBit_sio (s : State) (a b : Nat) : (s.setBit a b).sio = s.sio := rfl
@[simp] theorem setBit_se (s : State) (a b : Nat) : (s.setBit a b).se = s.se := rfl
@[simp] theorem setBit_lk (s : State) (a b : Nat) : (s.setBit a b).lk = s.lk := rfl
@[simp] theorem setBit_wr (s : State) (a b : Nat) : (s.setBit a b).wr = s.wr := rfl
@[simp] theorem setBit_hd (s : State) (a b : Nat) : (s.setBit a b).hd = s.hd := rfl
@[simp] theorem setBit_bs (s : State) (a b : Nat) : (s.setBit a b).bs = s.bs := rfl
@[simp] theorem setBit_ty (s : State) (a b : Nat) : (s.setBit a b).ty = s.ty := rfl
@[simp] theorem setBit_tp (s : State) (a b : Nat) : (s.setBit a b).tp = s.tp := rfl
@[simp] theorem setBit_kc (s : State) (a b : Nat) : (s.setBit a b).kc = s.kc := rfl
@[simp] theorem setBit_ln (s : State) (a b : Nat) : (s.setBit a b).ln = s.ln := rfl
@[simp] theorem setBit_freeIdx (s : State) (a b : Nat) : (s.setBit a b).freeIdx = s.freeIdx := rfl
@[simp] theorem setBit_draws (s : State) (a b : Nat) : (s.setBit a b).draws = s.draws := rfl
@[simp] theorem setBit_ports (s : State) (a b : Nat) : (s.setBit a b).ports = s.ports := rfl
@[simp] theorem setBit_pending (s : State) (a b : Nat) : (s.setBit a b).pending = s.pending := rfl

/-! ### satAdd -/

@[simp] theorem satAdd_grade (s : State) (a hi lo n : Nat) : (s.satAdd a hi lo n).grade = s.grade := rfl
@[simp] theorem satAdd_fused (s : State) (a hi lo n : Nat) : (s.satAdd a hi lo n).fused = s.fused := rfl
@[simp] theorem satAdd_cycle (s : State) (a hi lo n : Nat) : (s.satAdd a hi lo n).cycle = s.cycle := rfl
@[simp] theorem satAdd_bus (s : State) (a hi lo n : Nat) : (s.satAdd a hi lo n).bus = s.bus := rfl
@[simp] theorem satAdd_mem (s : State) (a hi lo n : Nat) : (s.satAdd a hi lo n).mem = s.mem := rfl
@[simp] theorem satAdd_mp (s : State) (a hi lo n : Nat) : (s.satAdd a hi lo n).mp = s.mp := rfl
@[simp] theorem satAdd_sl (s : State) (a hi lo n : Nat) : (s.satAdd a hi lo n).sl = s.sl := rfl
@[simp] theorem satAdd_barges (s : State) (a hi lo n : Nat) : (s.satAdd a hi lo n).barges = s.barges := rfl
@[simp] theorem satAdd_mr (s : State) (a hi lo n : Nat) : (s.satAdd a hi lo n).mr = s.mr := rfl
@[simp] theorem satAdd_mi (s : State) (a hi lo n : Nat) : (s.satAdd a hi lo n).mi = s.mi := rfl
@[simp] theorem satAdd_tiles (s : State) (a hi lo n : Nat) : (s.satAdd a hi lo n).tiles = s.tiles := rfl
@[simp] theorem satAdd_au (s : State) (a hi lo n : Nat) : (s.satAdd a hi lo n).au = s.au := rfl
@[simp] theorem satAdd_sn (s : State) (a hi lo n : Nat) : (s.satAdd a hi lo n).sn = s.sn := rfl
@[simp] theorem satAdd_lc (s : State) (a hi lo n : Nat) : (s.satAdd a hi lo n).lc = s.lc := rfl
@[simp] theorem satAdd_bc (s : State) (a hi lo n : Nat) : (s.satAdd a hi lo n).bc = s.bc := rfl
@[simp] theorem satAdd_wd (s : State) (a hi lo n : Nat) : (s.satAdd a hi lo n).wd = s.wd := rfl
@[simp] theorem satAdd_sio (s : State) (a hi lo n : Nat) : (s.satAdd a hi lo n).sio = s.sio := rfl
@[simp] theorem satAdd_se (s : State) (a hi lo n : Nat) : (s.satAdd a hi lo n).se = s.se := rfl
@[simp] theorem satAdd_lk (s : State) (a hi lo n : Nat) : (s.satAdd a hi lo n).lk = s.lk := rfl
@[simp] theorem satAdd_wr (s : State) (a hi lo n : Nat) : (s.satAdd a hi lo n).wr = s.wr := rfl
@[simp] theorem satAdd_hd (s : State) (a hi lo n : Nat) : (s.satAdd a hi lo n).hd = s.hd := rfl
@[simp] theorem satAdd_bs (s : State) (a hi lo n : Nat) : (s.satAdd a hi lo n).bs = s.bs := rfl
@[simp] theorem satAdd_ty (s : State) (a hi lo n : Nat) : (s.satAdd a hi lo n).ty = s.ty := rfl
@[simp] theorem satAdd_tp (s : State) (a hi lo n : Nat) : (s.satAdd a hi lo n).tp = s.tp := rfl
@[simp] theorem satAdd_kc (s : State) (a hi lo n : Nat) : (s.satAdd a hi lo n).kc = s.kc := rfl
@[simp] theorem satAdd_ln (s : State) (a hi lo n : Nat) : (s.satAdd a hi lo n).ln = s.ln := rfl
@[simp] theorem satAdd_freeIdx (s : State) (a hi lo n : Nat) : (s.satAdd a hi lo n).freeIdx = s.freeIdx := rfl
@[simp] theorem satAdd_draws (s : State) (a hi lo n : Nat) : (s.satAdd a hi lo n).draws = s.draws := rfl
@[simp] theorem satAdd_hwSets (s : State) (a hi lo n : Nat) : (s.satAdd a hi lo n).hwSets = s.hwSets := rfl
@[simp] theorem satAdd_ports (s : State) (a hi lo n : Nat) : (s.satAdd a hi lo n).ports = s.ports := rfl
@[simp] theorem satAdd_pending (s : State) (a hi lo n : Nat) : (s.satAdd a hi lo n).pending = s.pending := rfl

/-! ### wrapInc -/

@[simp] theorem wrapInc_grade (s : State) (a hi lo : Nat) : (s.wrapInc a hi lo).grade = s.grade := rfl
@[simp] theorem wrapInc_fused (s : State) (a hi lo : Nat) : (s.wrapInc a hi lo).fused = s.fused := rfl
@[simp] theorem wrapInc_cycle (s : State) (a hi lo : Nat) : (s.wrapInc a hi lo).cycle = s.cycle := rfl
@[simp] theorem wrapInc_bus (s : State) (a hi lo : Nat) : (s.wrapInc a hi lo).bus = s.bus := rfl
@[simp] theorem wrapInc_mem (s : State) (a hi lo : Nat) : (s.wrapInc a hi lo).mem = s.mem := rfl
@[simp] theorem wrapInc_mp (s : State) (a hi lo : Nat) : (s.wrapInc a hi lo).mp = s.mp := rfl
@[simp] theorem wrapInc_sl (s : State) (a hi lo : Nat) : (s.wrapInc a hi lo).sl = s.sl := rfl
@[simp] theorem wrapInc_barges (s : State) (a hi lo : Nat) : (s.wrapInc a hi lo).barges = s.barges := rfl
@[simp] theorem wrapInc_mr (s : State) (a hi lo : Nat) : (s.wrapInc a hi lo).mr = s.mr := rfl
@[simp] theorem wrapInc_mi (s : State) (a hi lo : Nat) : (s.wrapInc a hi lo).mi = s.mi := rfl
@[simp] theorem wrapInc_tiles (s : State) (a hi lo : Nat) : (s.wrapInc a hi lo).tiles = s.tiles := rfl
@[simp] theorem wrapInc_au (s : State) (a hi lo : Nat) : (s.wrapInc a hi lo).au = s.au := rfl
@[simp] theorem wrapInc_sn (s : State) (a hi lo : Nat) : (s.wrapInc a hi lo).sn = s.sn := rfl
@[simp] theorem wrapInc_lc (s : State) (a hi lo : Nat) : (s.wrapInc a hi lo).lc = s.lc := rfl
@[simp] theorem wrapInc_bc (s : State) (a hi lo : Nat) : (s.wrapInc a hi lo).bc = s.bc := rfl
@[simp] theorem wrapInc_wd (s : State) (a hi lo : Nat) : (s.wrapInc a hi lo).wd = s.wd := rfl
@[simp] theorem wrapInc_sio (s : State) (a hi lo : Nat) : (s.wrapInc a hi lo).sio = s.sio := rfl
@[simp] theorem wrapInc_se (s : State) (a hi lo : Nat) : (s.wrapInc a hi lo).se = s.se := rfl
@[simp] theorem wrapInc_lk (s : State) (a hi lo : Nat) : (s.wrapInc a hi lo).lk = s.lk := rfl
@[simp] theorem wrapInc_wr (s : State) (a hi lo : Nat) : (s.wrapInc a hi lo).wr = s.wr := rfl
@[simp] theorem wrapInc_hd (s : State) (a hi lo : Nat) : (s.wrapInc a hi lo).hd = s.hd := rfl
@[simp] theorem wrapInc_bs (s : State) (a hi lo : Nat) : (s.wrapInc a hi lo).bs = s.bs := rfl
@[simp] theorem wrapInc_ty (s : State) (a hi lo : Nat) : (s.wrapInc a hi lo).ty = s.ty := rfl
@[simp] theorem wrapInc_tp (s : State) (a hi lo : Nat) : (s.wrapInc a hi lo).tp = s.tp := rfl
@[simp] theorem wrapInc_kc (s : State) (a hi lo : Nat) : (s.wrapInc a hi lo).kc = s.kc := rfl
@[simp] theorem wrapInc_ln (s : State) (a hi lo : Nat) : (s.wrapInc a hi lo).ln = s.ln := rfl
@[simp] theorem wrapInc_freeIdx (s : State) (a hi lo : Nat) : (s.wrapInc a hi lo).freeIdx = s.freeIdx := rfl
@[simp] theorem wrapInc_draws (s : State) (a hi lo : Nat) : (s.wrapInc a hi lo).draws = s.draws := rfl
@[simp] theorem wrapInc_hwSets (s : State) (a hi lo : Nat) : (s.wrapInc a hi lo).hwSets = s.hwSets := rfl
@[simp] theorem wrapInc_ports (s : State) (a hi lo : Nat) : (s.wrapInc a hi lo).ports = s.ports := rfl
@[simp] theorem wrapInc_pending (s : State) (a hi lo : Nat) : (s.wrapInc a hi lo).pending = s.pending := rfl

/-! ### busOk -/

@[simp] theorem busOk_grade (s : State) (v : DWord) : (s.busOk v).grade = s.grade := rfl
@[simp] theorem busOk_fused (s : State) (v : DWord) : (s.busOk v).fused = s.fused := rfl
@[simp] theorem busOk_cycle (s : State) (v : DWord) : (s.busOk v).cycle = s.cycle := rfl
@[simp] theorem busOk_regs (s : State) (v : DWord) : (s.busOk v).regs = s.regs := rfl
@[simp] theorem busOk_mem (s : State) (v : DWord) : (s.busOk v).mem = s.mem := rfl
@[simp] theorem busOk_mp (s : State) (v : DWord) : (s.busOk v).mp = s.mp := rfl
@[simp] theorem busOk_sl (s : State) (v : DWord) : (s.busOk v).sl = s.sl := rfl
@[simp] theorem busOk_barges (s : State) (v : DWord) : (s.busOk v).barges = s.barges := rfl
@[simp] theorem busOk_mr (s : State) (v : DWord) : (s.busOk v).mr = s.mr := rfl
@[simp] theorem busOk_mi (s : State) (v : DWord) : (s.busOk v).mi = s.mi := rfl
@[simp] theorem busOk_tiles (s : State) (v : DWord) : (s.busOk v).tiles = s.tiles := rfl
@[simp] theorem busOk_au (s : State) (v : DWord) : (s.busOk v).au = s.au := rfl
@[simp] theorem busOk_sn (s : State) (v : DWord) : (s.busOk v).sn = s.sn := rfl
@[simp] theorem busOk_lc (s : State) (v : DWord) : (s.busOk v).lc = s.lc := rfl
@[simp] theorem busOk_bc (s : State) (v : DWord) : (s.busOk v).bc = s.bc := rfl
@[simp] theorem busOk_wd (s : State) (v : DWord) : (s.busOk v).wd = s.wd := rfl
@[simp] theorem busOk_sio (s : State) (v : DWord) : (s.busOk v).sio = s.sio := rfl
@[simp] theorem busOk_se (s : State) (v : DWord) : (s.busOk v).se = s.se := rfl
@[simp] theorem busOk_lk (s : State) (v : DWord) : (s.busOk v).lk = s.lk := rfl
@[simp] theorem busOk_wr (s : State) (v : DWord) : (s.busOk v).wr = s.wr := rfl
@[simp] theorem busOk_hd (s : State) (v : DWord) : (s.busOk v).hd = s.hd := rfl
@[simp] theorem busOk_bs (s : State) (v : DWord) : (s.busOk v).bs = s.bs := rfl
@[simp] theorem busOk_ty (s : State) (v : DWord) : (s.busOk v).ty = s.ty := rfl
@[simp] theorem busOk_tp (s : State) (v : DWord) : (s.busOk v).tp = s.tp := rfl
@[simp] theorem busOk_kc (s : State) (v : DWord) : (s.busOk v).kc = s.kc := rfl
@[simp] theorem busOk_ln (s : State) (v : DWord) : (s.busOk v).ln = s.ln := rfl
@[simp] theorem busOk_freeIdx (s : State) (v : DWord) : (s.busOk v).freeIdx = s.freeIdx := rfl
@[simp] theorem busOk_draws (s : State) (v : DWord) : (s.busOk v).draws = s.draws := rfl
@[simp] theorem busOk_hwSets (s : State) (v : DWord) : (s.busOk v).hwSets = s.hwSets := rfl
@[simp] theorem busOk_ports (s : State) (v : DWord) : (s.busOk v).ports = s.ports := rfl
@[simp] theorem busOk_pending (s : State) (v : DWord) : (s.busOk v).pending = s.pending := rfl

/-! ### raiseSyn -/

@[simp] theorem raiseSyn_grade (s : State) (src chan : Nat) (syn : Half) (bs : Option (List Word)) : (s.raiseSyn src chan syn bs).grade = s.grade := rfl
@[simp] theorem raiseSyn_fused (s : State) (src chan : Nat) (syn : Half) (bs : Option (List Word)) : (s.raiseSyn src chan syn bs).fused = s.fused := rfl
@[simp] theorem raiseSyn_cycle (s : State) (src chan : Nat) (syn : Half) (bs : Option (List Word)) : (s.raiseSyn src chan syn bs).cycle = s.cycle := rfl
@[simp] theorem raiseSyn_bus (s : State) (src chan : Nat) (syn : Half) (bs : Option (List Word)) : (s.raiseSyn src chan syn bs).bus = s.bus := rfl
@[simp] theorem raiseSyn_regs (s : State) (src chan : Nat) (syn : Half) (bs : Option (List Word)) : (s.raiseSyn src chan syn bs).regs = s.regs := rfl
@[simp] theorem raiseSyn_mem (s : State) (src chan : Nat) (syn : Half) (bs : Option (List Word)) : (s.raiseSyn src chan syn bs).mem = s.mem := rfl
@[simp] theorem raiseSyn_mp (s : State) (src chan : Nat) (syn : Half) (bs : Option (List Word)) : (s.raiseSyn src chan syn bs).mp = s.mp := rfl
@[simp] theorem raiseSyn_sl (s : State) (src chan : Nat) (syn : Half) (bs : Option (List Word)) : (s.raiseSyn src chan syn bs).sl = s.sl := rfl
@[simp] theorem raiseSyn_barges (s : State) (src chan : Nat) (syn : Half) (bs : Option (List Word)) : (s.raiseSyn src chan syn bs).barges = s.barges := rfl
@[simp] theorem raiseSyn_mr (s : State) (src chan : Nat) (syn : Half) (bs : Option (List Word)) : (s.raiseSyn src chan syn bs).mr = s.mr := rfl
@[simp] theorem raiseSyn_mi (s : State) (src chan : Nat) (syn : Half) (bs : Option (List Word)) : (s.raiseSyn src chan syn bs).mi = s.mi := rfl
@[simp] theorem raiseSyn_tiles (s : State) (src chan : Nat) (syn : Half) (bs : Option (List Word)) : (s.raiseSyn src chan syn bs).tiles = s.tiles := rfl
@[simp] theorem raiseSyn_au (s : State) (src chan : Nat) (syn : Half) (bs : Option (List Word)) : (s.raiseSyn src chan syn bs).au = s.au := rfl
@[simp] theorem raiseSyn_sn (s : State) (src chan : Nat) (syn : Half) (bs : Option (List Word)) : (s.raiseSyn src chan syn bs).sn = s.sn := rfl
@[simp] theorem raiseSyn_lc (s : State) (src chan : Nat) (syn : Half) (bs : Option (List Word)) : (s.raiseSyn src chan syn bs).lc = s.lc := rfl
@[simp] theorem raiseSyn_wd (s : State) (src chan : Nat) (syn : Half) (bs : Option (List Word)) : (s.raiseSyn src chan syn bs).wd = s.wd := rfl
@[simp] theorem raiseSyn_sio (s : State) (src chan : Nat) (syn : Half) (bs : Option (List Word)) : (s.raiseSyn src chan syn bs).sio = s.sio := rfl
@[simp] theorem raiseSyn_se (s : State) (src chan : Nat) (syn : Half) (bs : Option (List Word)) : (s.raiseSyn src chan syn bs).se = s.se := rfl
@[simp] theorem raiseSyn_lk (s : State) (src chan : Nat) (syn : Half) (bs : Option (List Word)) : (s.raiseSyn src chan syn bs).lk = s.lk := rfl
@[simp] theorem raiseSyn_wr (s : State) (src chan : Nat) (syn : Half) (bs : Option (List Word)) : (s.raiseSyn src chan syn bs).wr = s.wr := rfl
@[simp] theorem raiseSyn_hd (s : State) (src chan : Nat) (syn : Half) (bs : Option (List Word)) : (s.raiseSyn src chan syn bs).hd = s.hd := rfl
@[simp] theorem raiseSyn_bs (s : State) (src chan : Nat) (syn : Half) (bs : Option (List Word)) : (s.raiseSyn src chan syn bs).bs = s.bs := rfl
@[simp] theorem raiseSyn_ty (s : State) (src chan : Nat) (syn : Half) (bs : Option (List Word)) : (s.raiseSyn src chan syn bs).ty = s.ty := rfl
@[simp] theorem raiseSyn_tp (s : State) (src chan : Nat) (syn : Half) (bs : Option (List Word)) : (s.raiseSyn src chan syn bs).tp = s.tp := rfl
@[simp] theorem raiseSyn_kc (s : State) (src chan : Nat) (syn : Half) (bs : Option (List Word)) : (s.raiseSyn src chan syn bs).kc = s.kc := rfl
@[simp] theorem raiseSyn_ln (s : State) (src chan : Nat) (syn : Half) (bs : Option (List Word)) : (s.raiseSyn src chan syn bs).ln = s.ln := rfl
@[simp] theorem raiseSyn_freeIdx (s : State) (src chan : Nat) (syn : Half) (bs : Option (List Word)) : (s.raiseSyn src chan syn bs).freeIdx = s.freeIdx := rfl
@[simp] theorem raiseSyn_draws (s : State) (src chan : Nat) (syn : Half) (bs : Option (List Word)) : (s.raiseSyn src chan syn bs).draws = s.draws := rfl
@[simp] theorem raiseSyn_hwSets (s : State) (src chan : Nat) (syn : Half) (bs : Option (List Word)) : (s.raiseSyn src chan syn bs).hwSets = s.hwSets := rfl
@[simp] theorem raiseSyn_ports (s : State) (src chan : Nat) (syn : Half) (bs : Option (List Word)) : (s.raiseSyn src chan syn bs).ports = s.ports := rfl
@[simp] theorem raiseSyn_pending (s : State) (src chan : Nat) (syn : Half) (bs : Option (List Word)) : (s.raiseSyn src chan syn bs).pending = s.pending := rfl

/-! ### raiseOn -/

@[simp] theorem raiseOn_grade (s : State) (src chan : Nat) (bs : Option (List Word)) : (s.raiseOn src chan bs).grade = s.grade := rfl
@[simp] theorem raiseOn_fused (s : State) (src chan : Nat) (bs : Option (List Word)) : (s.raiseOn src chan bs).fused = s.fused := rfl
@[simp] theorem raiseOn_cycle (s : State) (src chan : Nat) (bs : Option (List Word)) : (s.raiseOn src chan bs).cycle = s.cycle := rfl
@[simp] theorem raiseOn_bus (s : State) (src chan : Nat) (bs : Option (List Word)) : (s.raiseOn src chan bs).bus = s.bus := rfl
@[simp] theorem raiseOn_regs (s : State) (src chan : Nat) (bs : Option (List Word)) : (s.raiseOn src chan bs).regs = s.regs := rfl
@[simp] theorem raiseOn_mem (s : State) (src chan : Nat) (bs : Option (List Word)) : (s.raiseOn src chan bs).mem = s.mem := rfl
@[simp] theorem raiseOn_mp (s : State) (src chan : Nat) (bs : Option (List Word)) : (s.raiseOn src chan bs).mp = s.mp := rfl
@[simp] theorem raiseOn_sl (s : State) (src chan : Nat) (bs : Option (List Word)) : (s.raiseOn src chan bs).sl = s.sl := rfl
@[simp] theorem raiseOn_barges (s : State) (src chan : Nat) (bs : Option (List Word)) : (s.raiseOn src chan bs).barges = s.barges := rfl
@[simp] theorem raiseOn_mr (s : State) (src chan : Nat) (bs : Option (List Word)) : (s.raiseOn src chan bs).mr = s.mr := rfl
@[simp] theorem raiseOn_mi (s : State) (src chan : Nat) (bs : Option (List Word)) : (s.raiseOn src chan bs).mi = s.mi := rfl
@[simp] theorem raiseOn_tiles (s : State) (src chan : Nat) (bs : Option (List Word)) : (s.raiseOn src chan bs).tiles = s.tiles := rfl
@[simp] theorem raiseOn_au (s : State) (src chan : Nat) (bs : Option (List Word)) : (s.raiseOn src chan bs).au = s.au := rfl
@[simp] theorem raiseOn_sn (s : State) (src chan : Nat) (bs : Option (List Word)) : (s.raiseOn src chan bs).sn = s.sn := rfl
@[simp] theorem raiseOn_lc (s : State) (src chan : Nat) (bs : Option (List Word)) : (s.raiseOn src chan bs).lc = s.lc := rfl
@[simp] theorem raiseOn_wd (s : State) (src chan : Nat) (bs : Option (List Word)) : (s.raiseOn src chan bs).wd = s.wd := rfl
@[simp] theorem raiseOn_sio (s : State) (src chan : Nat) (bs : Option (List Word)) : (s.raiseOn src chan bs).sio = s.sio := rfl
@[simp] theorem raiseOn_se (s : State) (src chan : Nat) (bs : Option (List Word)) : (s.raiseOn src chan bs).se = s.se := rfl
@[simp] theorem raiseOn_lk (s : State) (src chan : Nat) (bs : Option (List Word)) : (s.raiseOn src chan bs).lk = s.lk := rfl
@[simp] theorem raiseOn_wr (s : State) (src chan : Nat) (bs : Option (List Word)) : (s.raiseOn src chan bs).wr = s.wr := rfl
@[simp] theorem raiseOn_hd (s : State) (src chan : Nat) (bs : Option (List Word)) : (s.raiseOn src chan bs).hd = s.hd := rfl
@[simp] theorem raiseOn_bs (s : State) (src chan : Nat) (bs : Option (List Word)) : (s.raiseOn src chan bs).bs = s.bs := rfl
@[simp] theorem raiseOn_ty (s : State) (src chan : Nat) (bs : Option (List Word)) : (s.raiseOn src chan bs).ty = s.ty := rfl
@[simp] theorem raiseOn_tp (s : State) (src chan : Nat) (bs : Option (List Word)) : (s.raiseOn src chan bs).tp = s.tp := rfl
@[simp] theorem raiseOn_kc (s : State) (src chan : Nat) (bs : Option (List Word)) : (s.raiseOn src chan bs).kc = s.kc := rfl
@[simp] theorem raiseOn_ln (s : State) (src chan : Nat) (bs : Option (List Word)) : (s.raiseOn src chan bs).ln = s.ln := rfl
@[simp] theorem raiseOn_draws (s : State) (src chan : Nat) (bs : Option (List Word)) : (s.raiseOn src chan bs).draws = s.draws := rfl
@[simp] theorem raiseOn_hwSets (s : State) (src chan : Nat) (bs : Option (List Word)) : (s.raiseOn src chan bs).hwSets = s.hwSets := rfl
@[simp] theorem raiseOn_ports (s : State) (src chan : Nat) (bs : Option (List Word)) : (s.raiseOn src chan bs).ports = s.ports := rfl
@[simp] theorem raiseOn_pending (s : State) (src chan : Nat) (bs : Option (List Word)) : (s.raiseOn src chan bs).pending = s.pending := rfl

/-! ### raise -/

@[simp] theorem raise_grade (s : State) (src chan : Nat) : (s.raise src chan).grade = s.grade := rfl
@[simp] theorem raise_fused (s : State) (src chan : Nat) : (s.raise src chan).fused = s.fused := rfl
@[simp] theorem raise_cycle (s : State) (src chan : Nat) : (s.raise src chan).cycle = s.cycle := rfl
@[simp] theorem raise_bus (s : State) (src chan : Nat) : (s.raise src chan).bus = s.bus := rfl
@[simp] theorem raise_regs (s : State) (src chan : Nat) : (s.raise src chan).regs = s.regs := rfl
@[simp] theorem raise_mem (s : State) (src chan : Nat) : (s.raise src chan).mem = s.mem := rfl
@[simp] theorem raise_mp (s : State) (src chan : Nat) : (s.raise src chan).mp = s.mp := rfl
@[simp] theorem raise_sl (s : State) (src chan : Nat) : (s.raise src chan).sl = s.sl := rfl
@[simp] theorem raise_barges (s : State) (src chan : Nat) : (s.raise src chan).barges = s.barges := rfl
@[simp] theorem raise_mr (s : State) (src chan : Nat) : (s.raise src chan).mr = s.mr := rfl
@[simp] theorem raise_mi (s : State) (src chan : Nat) : (s.raise src chan).mi = s.mi := rfl
@[simp] theorem raise_tiles (s : State) (src chan : Nat) : (s.raise src chan).tiles = s.tiles := rfl
@[simp] theorem raise_au (s : State) (src chan : Nat) : (s.raise src chan).au = s.au := rfl
@[simp] theorem raise_sn (s : State) (src chan : Nat) : (s.raise src chan).sn = s.sn := rfl
@[simp] theorem raise_lc (s : State) (src chan : Nat) : (s.raise src chan).lc = s.lc := rfl
@[simp] theorem raise_wd (s : State) (src chan : Nat) : (s.raise src chan).wd = s.wd := rfl
@[simp] theorem raise_sio (s : State) (src chan : Nat) : (s.raise src chan).sio = s.sio := rfl
@[simp] theorem raise_se (s : State) (src chan : Nat) : (s.raise src chan).se = s.se := rfl
@[simp] theorem raise_lk (s : State) (src chan : Nat) : (s.raise src chan).lk = s.lk := rfl
@[simp] theorem raise_wr (s : State) (src chan : Nat) : (s.raise src chan).wr = s.wr := rfl
@[simp] theorem raise_hd (s : State) (src chan : Nat) : (s.raise src chan).hd = s.hd := rfl
@[simp] theorem raise_bs (s : State) (src chan : Nat) : (s.raise src chan).bs = s.bs := rfl
@[simp] theorem raise_ty (s : State) (src chan : Nat) : (s.raise src chan).ty = s.ty := rfl
@[simp] theorem raise_tp (s : State) (src chan : Nat) : (s.raise src chan).tp = s.tp := rfl
@[simp] theorem raise_kc (s : State) (src chan : Nat) : (s.raise src chan).kc = s.kc := rfl
@[simp] theorem raise_ln (s : State) (src chan : Nat) : (s.raise src chan).ln = s.ln := rfl
@[simp] theorem raise_draws (s : State) (src chan : Nat) : (s.raise src chan).draws = s.draws := rfl
@[simp] theorem raise_hwSets (s : State) (src chan : Nat) : (s.raise src chan).hwSets = s.hwSets := rfl
@[simp] theorem raise_ports (s : State) (src chan : Nat) : (s.raise src chan).ports = s.ports := rfl
@[simp] theorem raise_pending (s : State) (src chan : Nat) : (s.raise src chan).pending = s.pending := rfl

/-! ### raiseFor -/

@[simp] theorem raiseFor_grade (s : State) (src : Nat) (b : Word) : (s.raiseFor src b).grade = s.grade := rfl
@[simp] theorem raiseFor_fused (s : State) (src : Nat) (b : Word) : (s.raiseFor src b).fused = s.fused := rfl
@[simp] theorem raiseFor_cycle (s : State) (src : Nat) (b : Word) : (s.raiseFor src b).cycle = s.cycle := rfl
@[simp] theorem raiseFor_bus (s : State) (src : Nat) (b : Word) : (s.raiseFor src b).bus = s.bus := rfl
@[simp] theorem raiseFor_regs (s : State) (src : Nat) (b : Word) : (s.raiseFor src b).regs = s.regs := rfl
@[simp] theorem raiseFor_mem (s : State) (src : Nat) (b : Word) : (s.raiseFor src b).mem = s.mem := rfl
@[simp] theorem raiseFor_mp (s : State) (src : Nat) (b : Word) : (s.raiseFor src b).mp = s.mp := rfl
@[simp] theorem raiseFor_sl (s : State) (src : Nat) (b : Word) : (s.raiseFor src b).sl = s.sl := rfl
@[simp] theorem raiseFor_barges (s : State) (src : Nat) (b : Word) : (s.raiseFor src b).barges = s.barges := rfl
@[simp] theorem raiseFor_mr (s : State) (src : Nat) (b : Word) : (s.raiseFor src b).mr = s.mr := rfl
@[simp] theorem raiseFor_mi (s : State) (src : Nat) (b : Word) : (s.raiseFor src b).mi = s.mi := rfl
@[simp] theorem raiseFor_tiles (s : State) (src : Nat) (b : Word) : (s.raiseFor src b).tiles = s.tiles := rfl
@[simp] theorem raiseFor_au (s : State) (src : Nat) (b : Word) : (s.raiseFor src b).au = s.au := rfl
@[simp] theorem raiseFor_sn (s : State) (src : Nat) (b : Word) : (s.raiseFor src b).sn = s.sn := rfl
@[simp] theorem raiseFor_lc (s : State) (src : Nat) (b : Word) : (s.raiseFor src b).lc = s.lc := rfl
@[simp] theorem raiseFor_wd (s : State) (src : Nat) (b : Word) : (s.raiseFor src b).wd = s.wd := rfl
@[simp] theorem raiseFor_sio (s : State) (src : Nat) (b : Word) : (s.raiseFor src b).sio = s.sio := rfl
@[simp] theorem raiseFor_se (s : State) (src : Nat) (b : Word) : (s.raiseFor src b).se = s.se := rfl
@[simp] theorem raiseFor_lk (s : State) (src : Nat) (b : Word) : (s.raiseFor src b).lk = s.lk := rfl
@[simp] theorem raiseFor_wr (s : State) (src : Nat) (b : Word) : (s.raiseFor src b).wr = s.wr := rfl
@[simp] theorem raiseFor_hd (s : State) (src : Nat) (b : Word) : (s.raiseFor src b).hd = s.hd := rfl
@[simp] theorem raiseFor_bs (s : State) (src : Nat) (b : Word) : (s.raiseFor src b).bs = s.bs := rfl
@[simp] theorem raiseFor_ty (s : State) (src : Nat) (b : Word) : (s.raiseFor src b).ty = s.ty := rfl
@[simp] theorem raiseFor_tp (s : State) (src : Nat) (b : Word) : (s.raiseFor src b).tp = s.tp := rfl
@[simp] theorem raiseFor_kc (s : State) (src : Nat) (b : Word) : (s.raiseFor src b).kc = s.kc := rfl
@[simp] theorem raiseFor_ln (s : State) (src : Nat) (b : Word) : (s.raiseFor src b).ln = s.ln := rfl
@[simp] theorem raiseFor_draws (s : State) (src : Nat) (b : Word) : (s.raiseFor src b).draws = s.draws := rfl
@[simp] theorem raiseFor_hwSets (s : State) (src : Nat) (b : Word) : (s.raiseFor src b).hwSets = s.hwSets := rfl
@[simp] theorem raiseFor_ports (s : State) (src : Nat) (b : Word) : (s.raiseFor src b).ports = s.ports := rfl
@[simp] theorem raiseFor_pending (s : State) (src : Nat) (b : Word) : (s.raiseFor src b).pending = s.pending := rfl

/-! ### store -/

@[simp] theorem store_grade (s : State) (a : Nat) (bs : List Byte) : (s.store a bs).grade = s.grade := rfl
@[simp] theorem store_fused (s : State) (a : Nat) (bs : List Byte) : (s.store a bs).fused = s.fused := rfl
@[simp] theorem store_cycle (s : State) (a : Nat) (bs : List Byte) : (s.store a bs).cycle = s.cycle := rfl
@[simp] theorem store_bus (s : State) (a : Nat) (bs : List Byte) : (s.store a bs).bus = s.bus := rfl
@[simp] theorem store_regs (s : State) (a : Nat) (bs : List Byte) : (s.store a bs).regs = s.regs := rfl
@[simp] theorem store_mp (s : State) (a : Nat) (bs : List Byte) : (s.store a bs).mp = s.mp := rfl
@[simp] theorem store_sl (s : State) (a : Nat) (bs : List Byte) : (s.store a bs).sl = s.sl := rfl
@[simp] theorem store_barges (s : State) (a : Nat) (bs : List Byte) : (s.store a bs).barges = s.barges := rfl
@[simp] theorem store_mr (s : State) (a : Nat) (bs : List Byte) : (s.store a bs).mr = s.mr := rfl
@[simp] theorem store_mi (s : State) (a : Nat) (bs : List Byte) : (s.store a bs).mi = s.mi := rfl
@[simp] theorem store_tiles (s : State) (a : Nat) (bs : List Byte) : (s.store a bs).tiles = s.tiles := rfl
@[simp] theorem store_au (s : State) (a : Nat) (bs : List Byte) : (s.store a bs).au = s.au := rfl
@[simp] theorem store_sn (s : State) (a : Nat) (bs : List Byte) : (s.store a bs).sn = s.sn := rfl
@[simp] theorem store_lc (s : State) (a : Nat) (bs : List Byte) : (s.store a bs).lc = s.lc := rfl
@[simp] theorem store_bc (s : State) (a : Nat) (bs : List Byte) : (s.store a bs).bc = s.bc := rfl
@[simp] theorem store_wd (s : State) (a : Nat) (bs : List Byte) : (s.store a bs).wd = s.wd := rfl
@[simp] theorem store_sio (s : State) (a : Nat) (bs : List Byte) : (s.store a bs).sio = s.sio := rfl
@[simp] theorem store_se (s : State) (a : Nat) (bs : List Byte) : (s.store a bs).se = s.se := rfl
@[simp] theorem store_lk (s : State) (a : Nat) (bs : List Byte) : (s.store a bs).lk = s.lk := rfl
@[simp] theorem store_wr (s : State) (a : Nat) (bs : List Byte) : (s.store a bs).wr = s.wr := rfl
@[simp] theorem store_hd (s : State) (a : Nat) (bs : List Byte) : (s.store a bs).hd = s.hd := rfl
@[simp] theorem store_bs (s : State) (a : Nat) (bs : List Byte) : (s.store a bs).bs = s.bs := rfl
@[simp] theorem store_ty (s : State) (a : Nat) (bs : List Byte) : (s.store a bs).ty = s.ty := rfl
@[simp] theorem store_tp (s : State) (a : Nat) (bs : List Byte) : (s.store a bs).tp = s.tp := rfl
@[simp] theorem store_kc (s : State) (a : Nat) (bs : List Byte) : (s.store a bs).kc = s.kc := rfl
@[simp] theorem store_ln (s : State) (a : Nat) (bs : List Byte) : (s.store a bs).ln = s.ln := rfl
@[simp] theorem store_freeIdx (s : State) (a : Nat) (bs : List Byte) : (s.store a bs).freeIdx = s.freeIdx := rfl
@[simp] theorem store_draws (s : State) (a : Nat) (bs : List Byte) : (s.store a bs).draws = s.draws := rfl
@[simp] theorem store_hwSets (s : State) (a : Nat) (bs : List Byte) : (s.store a bs).hwSets = s.hwSets := rfl
@[simp] theorem store_ports (s : State) (a : Nat) (bs : List Byte) : (s.store a bs).ports = s.ports := rfl
@[simp] theorem store_pending (s : State) (a : Nat) (bs : List Byte) : (s.store a bs).pending = s.pending := rfl

/-! ### wipe -/

@[simp] theorem wipe_grade (s : State) (a n : Nat) : (s.wipe a n).grade = s.grade := rfl
@[simp] theorem wipe_fused (s : State) (a n : Nat) : (s.wipe a n).fused = s.fused := rfl
@[simp] theorem wipe_cycle (s : State) (a n : Nat) : (s.wipe a n).cycle = s.cycle := rfl
@[simp] theorem wipe_bus (s : State) (a n : Nat) : (s.wipe a n).bus = s.bus := rfl
@[simp] theorem wipe_regs (s : State) (a n : Nat) : (s.wipe a n).regs = s.regs := rfl
@[simp] theorem wipe_mp (s : State) (a n : Nat) : (s.wipe a n).mp = s.mp := rfl
@[simp] theorem wipe_sl (s : State) (a n : Nat) : (s.wipe a n).sl = s.sl := rfl
@[simp] theorem wipe_barges (s : State) (a n : Nat) : (s.wipe a n).barges = s.barges := rfl
@[simp] theorem wipe_mr (s : State) (a n : Nat) : (s.wipe a n).mr = s.mr := rfl
@[simp] theorem wipe_mi (s : State) (a n : Nat) : (s.wipe a n).mi = s.mi := rfl
@[simp] theorem wipe_tiles (s : State) (a n : Nat) : (s.wipe a n).tiles = s.tiles := rfl
@[simp] theorem wipe_au (s : State) (a n : Nat) : (s.wipe a n).au = s.au := rfl
@[simp] theorem wipe_sn (s : State) (a n : Nat) : (s.wipe a n).sn = s.sn := rfl
@[simp] theorem wipe_lc (s : State) (a n : Nat) : (s.wipe a n).lc = s.lc := rfl
@[simp] theorem wipe_bc (s : State) (a n : Nat) : (s.wipe a n).bc = s.bc := rfl
@[simp] theorem wipe_wd (s : State) (a n : Nat) : (s.wipe a n).wd = s.wd := rfl
@[simp] theorem wipe_sio (s : State) (a n : Nat) : (s.wipe a n).sio = s.sio := rfl
@[simp] theorem wipe_se (s : State) (a n : Nat) : (s.wipe a n).se = s.se := rfl
@[simp] theorem wipe_lk (s : State) (a n : Nat) : (s.wipe a n).lk = s.lk := rfl
@[simp] theorem wipe_wr (s : State) (a n : Nat) : (s.wipe a n).wr = s.wr := rfl
@[simp] theorem wipe_hd (s : State) (a n : Nat) : (s.wipe a n).hd = s.hd := rfl
@[simp] theorem wipe_bs (s : State) (a n : Nat) : (s.wipe a n).bs = s.bs := rfl
@[simp] theorem wipe_ty (s : State) (a n : Nat) : (s.wipe a n).ty = s.ty := rfl
@[simp] theorem wipe_tp (s : State) (a n : Nat) : (s.wipe a n).tp = s.tp := rfl
@[simp] theorem wipe_kc (s : State) (a n : Nat) : (s.wipe a n).kc = s.kc := rfl
@[simp] theorem wipe_ln (s : State) (a n : Nat) : (s.wipe a n).ln = s.ln := rfl
@[simp] theorem wipe_freeIdx (s : State) (a n : Nat) : (s.wipe a n).freeIdx = s.freeIdx := rfl
@[simp] theorem wipe_draws (s : State) (a n : Nat) : (s.wipe a n).draws = s.draws := rfl
@[simp] theorem wipe_hwSets (s : State) (a n : Nat) : (s.wipe a n).hwSets = s.hwSets := rfl
@[simp] theorem wipe_ports (s : State) (a n : Nat) : (s.wipe a n).ports = s.ports := rfl
@[simp] theorem wipe_pending (s : State) (a n : Nat) : (s.wipe a n).pending = s.pending := rfl

/-! ### copyMem -/

@[simp] theorem copyMem_grade (s : State) (src n dst : Nat) : (s.copyMem src n dst).grade = s.grade := rfl
@[simp] theorem copyMem_fused (s : State) (src n dst : Nat) : (s.copyMem src n dst).fused = s.fused := rfl
@[simp] theorem copyMem_cycle (s : State) (src n dst : Nat) : (s.copyMem src n dst).cycle = s.cycle := rfl
@[simp] theorem copyMem_bus (s : State) (src n dst : Nat) : (s.copyMem src n dst).bus = s.bus := rfl
@[simp] theorem copyMem_regs (s : State) (src n dst : Nat) : (s.copyMem src n dst).regs = s.regs := rfl
@[simp] theorem copyMem_mp (s : State) (src n dst : Nat) : (s.copyMem src n dst).mp = s.mp := rfl
@[simp] theorem copyMem_sl (s : State) (src n dst : Nat) : (s.copyMem src n dst).sl = s.sl := rfl
@[simp] theorem copyMem_barges (s : State) (src n dst : Nat) : (s.copyMem src n dst).barges = s.barges := rfl
@[simp] theorem copyMem_mr (s : State) (src n dst : Nat) : (s.copyMem src n dst).mr = s.mr := rfl
@[simp] theorem copyMem_mi (s : State) (src n dst : Nat) : (s.copyMem src n dst).mi = s.mi := rfl
@[simp] theorem copyMem_tiles (s : State) (src n dst : Nat) : (s.copyMem src n dst).tiles = s.tiles := rfl
@[simp] theorem copyMem_au (s : State) (src n dst : Nat) : (s.copyMem src n dst).au = s.au := rfl
@[simp] theorem copyMem_sn (s : State) (src n dst : Nat) : (s.copyMem src n dst).sn = s.sn := rfl
@[simp] theorem copyMem_lc (s : State) (src n dst : Nat) : (s.copyMem src n dst).lc = s.lc := rfl
@[simp] theorem copyMem_bc (s : State) (src n dst : Nat) : (s.copyMem src n dst).bc = s.bc := rfl
@[simp] theorem copyMem_wd (s : State) (src n dst : Nat) : (s.copyMem src n dst).wd = s.wd := rfl
@[simp] theorem copyMem_sio (s : State) (src n dst : Nat) : (s.copyMem src n dst).sio = s.sio := rfl
@[simp] theorem copyMem_se (s : State) (src n dst : Nat) : (s.copyMem src n dst).se = s.se := rfl
@[simp] theorem copyMem_lk (s : State) (src n dst : Nat) : (s.copyMem src n dst).lk = s.lk := rfl
@[simp] theorem copyMem_wr (s : State) (src n dst : Nat) : (s.copyMem src n dst).wr = s.wr := rfl
@[simp] theorem copyMem_hd (s : State) (src n dst : Nat) : (s.copyMem src n dst).hd = s.hd := rfl
@[simp] theorem copyMem_bs (s : State) (src n dst : Nat) : (s.copyMem src n dst).bs = s.bs := rfl
@[simp] theorem copyMem_ty (s : State) (src n dst : Nat) : (s.copyMem src n dst).ty = s.ty := rfl
@[simp] theorem copyMem_tp (s : State) (src n dst : Nat) : (s.copyMem src n dst).tp = s.tp := rfl
@[simp] theorem copyMem_kc (s : State) (src n dst : Nat) : (s.copyMem src n dst).kc = s.kc := rfl
@[simp] theorem copyMem_ln (s : State) (src n dst : Nat) : (s.copyMem src n dst).ln = s.ln := rfl
@[simp] theorem copyMem_freeIdx (s : State) (src n dst : Nat) : (s.copyMem src n dst).freeIdx = s.freeIdx := rfl
@[simp] theorem copyMem_draws (s : State) (src n dst : Nat) : (s.copyMem src n dst).draws = s.draws := rfl
@[simp] theorem copyMem_hwSets (s : State) (src n dst : Nat) : (s.copyMem src n dst).hwSets = s.hwSets := rfl
@[simp] theorem copyMem_ports (s : State) (src n dst : Nat) : (s.copyMem src n dst).ports = s.ports := rfl
@[simp] theorem copyMem_pending (s : State) (src n dst : Nat) : (s.copyMem src n dst).pending = s.pending := rfl

/-! ### updBarge -/

@[simp] theorem updBarge_grade (s : State) (b : Word) (f : Barge → Barge) : (s.updBarge b f).grade = s.grade := rfl
@[simp] theorem updBarge_fused (s : State) (b : Word) (f : Barge → Barge) : (s.updBarge b f).fused = s.fused := rfl
@[simp] theorem updBarge_cycle (s : State) (b : Word) (f : Barge → Barge) : (s.updBarge b f).cycle = s.cycle := rfl
@[simp] theorem updBarge_bus (s : State) (b : Word) (f : Barge → Barge) : (s.updBarge b f).bus = s.bus := rfl
@[simp] theorem updBarge_regs (s : State) (b : Word) (f : Barge → Barge) : (s.updBarge b f).regs = s.regs := rfl
@[simp] theorem updBarge_mem (s : State) (b : Word) (f : Barge → Barge) : (s.updBarge b f).mem = s.mem := rfl
@[simp] theorem updBarge_mp (s : State) (b : Word) (f : Barge → Barge) : (s.updBarge b f).mp = s.mp := rfl
@[simp] theorem updBarge_sl (s : State) (b : Word) (f : Barge → Barge) : (s.updBarge b f).sl = s.sl := rfl
@[simp] theorem updBarge_mr (s : State) (b : Word) (f : Barge → Barge) : (s.updBarge b f).mr = s.mr := rfl
@[simp] theorem updBarge_mi (s : State) (b : Word) (f : Barge → Barge) : (s.updBarge b f).mi = s.mi := rfl
@[simp] theorem updBarge_tiles (s : State) (b : Word) (f : Barge → Barge) : (s.updBarge b f).tiles = s.tiles := rfl
@[simp] theorem updBarge_au (s : State) (b : Word) (f : Barge → Barge) : (s.updBarge b f).au = s.au := rfl
@[simp] theorem updBarge_sn (s : State) (b : Word) (f : Barge → Barge) : (s.updBarge b f).sn = s.sn := rfl
@[simp] theorem updBarge_lc (s : State) (b : Word) (f : Barge → Barge) : (s.updBarge b f).lc = s.lc := rfl
@[simp] theorem updBarge_bc (s : State) (b : Word) (f : Barge → Barge) : (s.updBarge b f).bc = s.bc := rfl
@[simp] theorem updBarge_wd (s : State) (b : Word) (f : Barge → Barge) : (s.updBarge b f).wd = s.wd := rfl
@[simp] theorem updBarge_sio (s : State) (b : Word) (f : Barge → Barge) : (s.updBarge b f).sio = s.sio := rfl
@[simp] theorem updBarge_se (s : State) (b : Word) (f : Barge → Barge) : (s.updBarge b f).se = s.se := rfl
@[simp] theorem updBarge_lk (s : State) (b : Word) (f : Barge → Barge) : (s.updBarge b f).lk = s.lk := rfl
@[simp] theorem updBarge_wr (s : State) (b : Word) (f : Barge → Barge) : (s.updBarge b f).wr = s.wr := rfl
@[simp] theorem updBarge_hd (s : State) (b : Word) (f : Barge → Barge) : (s.updBarge b f).hd = s.hd := rfl
@[simp] theorem updBarge_bs (s : State) (b : Word) (f : Barge → Barge) : (s.updBarge b f).bs = s.bs := rfl
@[simp] theorem updBarge_ty (s : State) (b : Word) (f : Barge → Barge) : (s.updBarge b f).ty = s.ty := rfl
@[simp] theorem updBarge_tp (s : State) (b : Word) (f : Barge → Barge) : (s.updBarge b f).tp = s.tp := rfl
@[simp] theorem updBarge_kc (s : State) (b : Word) (f : Barge → Barge) : (s.updBarge b f).kc = s.kc := rfl
@[simp] theorem updBarge_ln (s : State) (b : Word) (f : Barge → Barge) : (s.updBarge b f).ln = s.ln := rfl
@[simp] theorem updBarge_freeIdx (s : State) (b : Word) (f : Barge → Barge) : (s.updBarge b f).freeIdx = s.freeIdx := rfl
@[simp] theorem updBarge_draws (s : State) (b : Word) (f : Barge → Barge) : (s.updBarge b f).draws = s.draws := rfl
@[simp] theorem updBarge_hwSets (s : State) (b : Word) (f : Barge → Barge) : (s.updBarge b f).hwSets = s.hwSets := rfl
@[simp] theorem updBarge_ports (s : State) (b : Word) (f : Barge → Barge) : (s.updBarge b f).ports = s.ports := rfl
@[simp] theorem updBarge_pending (s : State) (b : Word) (f : Barge → Barge) : (s.updBarge b f).pending = s.pending := rfl

/-! ### Reading registers and memory after an update -/

@[simp] theorem setReg_byte (s : State) (a : Nat) (v : Word) (k : Nat) : (s.setReg a v).byte k = s.byte k := rfl
@[simp] theorem setReg64_byte (s : State) (a : Nat) (v : DWord) (k : Nat) : (s.setReg64 a v).byte k = s.byte k := rfl
@[simp] theorem setFld_byte (s : State) (a hi lo v : Nat) (k : Nat) : (s.setFld a hi lo v).byte k = s.byte k := rfl
@[simp] theorem orReg_byte (s : State) (a : Nat) (m : Word) (k : Nat) : (s.orReg a m).byte k = s.byte k := rfl
@[simp] theorem clearReg_byte (s : State) (a : Nat) (m : Word) (k : Nat) : (s.clearReg a m).byte k = s.byte k := rfl
@[simp] theorem setBit_byte (s : State) (a b : Nat) (k : Nat) : (s.setBit a b).byte k = s.byte k := rfl
@[simp] theorem satAdd_byte (s : State) (a hi lo n : Nat) (k : Nat) : (s.satAdd a hi lo n).byte k = s.byte k := rfl
@[simp] theorem wrapInc_byte (s : State) (a hi lo : Nat) (k : Nat) : (s.wrapInc a hi lo).byte k = s.byte k := rfl
@[simp] theorem busOk_reg (s : State) (v : DWord) (k : Nat) : (s.busOk v).reg k = s.reg k := rfl
@[simp] theorem busOk_byte (s : State) (v : DWord) (k : Nat) : (s.busOk v).byte k = s.byte k := rfl
@[simp] theorem raiseSyn_reg (s : State) (src chan : Nat) (syn : Half) (bs : Option (List Word)) (k : Nat) : (s.raiseSyn src chan syn bs).reg k = s.reg k := rfl
@[simp] theorem raiseSyn_byte (s : State) (src chan : Nat) (syn : Half) (bs : Option (List Word)) (k : Nat) : (s.raiseSyn src chan syn bs).byte k = s.byte k := rfl
@[simp] theorem raiseOn_reg (s : State) (src chan : Nat) (bs : Option (List Word)) (k : Nat) : (s.raiseOn src chan bs).reg k = s.reg k := rfl
@[simp] theorem raiseOn_byte (s : State) (src chan : Nat) (bs : Option (List Word)) (k : Nat) : (s.raiseOn src chan bs).byte k = s.byte k := rfl
@[simp] theorem raise_reg (s : State) (src chan : Nat) (k : Nat) : (s.raise src chan).reg k = s.reg k := rfl
@[simp] theorem raise_byte (s : State) (src chan : Nat) (k : Nat) : (s.raise src chan).byte k = s.byte k := rfl
@[simp] theorem raiseFor_reg (s : State) (src : Nat) (b : Word) (k : Nat) : (s.raiseFor src b).reg k = s.reg k := rfl
@[simp] theorem raiseFor_byte (s : State) (src : Nat) (b : Word) (k : Nat) : (s.raiseFor src b).byte k = s.byte k := rfl
@[simp] theorem store_reg (s : State) (a : Nat) (bs : List Byte) (k : Nat) : (s.store a bs).reg k = s.reg k := rfl
@[simp] theorem wipe_reg (s : State) (a n : Nat) (k : Nat) : (s.wipe a n).reg k = s.reg k := rfl
@[simp] theorem copyMem_reg (s : State) (src n dst : Nat) (k : Nat) : (s.copyMem src n dst).reg k = s.reg k := rfl
@[simp] theorem updBarge_reg (s : State) (b : Word) (f : Barge → Barge) (k : Nat) : (s.updBarge b f).reg k = s.reg k := rfl
@[simp] theorem updBarge_byte (s : State) (b : Word) (f : Barge → Barge) (k : Nat) : (s.updBarge b f).byte k = s.byte k := rfl

@[simp] theorem setReg_reg_same (s : State) (a : Nat) (v : Word) : (s.setReg a v).reg a = v := by simp [setReg, reg]

theorem setReg_reg_ne (s : State) {a k : Nat} (v : Word) (h : k ≠ a) : (s.setReg a v).reg k = s.reg k := Cells.get_set_ne _ _ _ h

theorem setReg_reg (s : State) (a k : Nat) (v : Word) : (s.setReg a v).reg k = if k = a then v else s.reg k := by
  split
  · next h => rw [h, setReg_reg_same]
  · next h => exact setReg_reg_ne s v h

@[simp] theorem setFld_reg_same (s : State) (a hi lo v : Nat) : (s.setFld a hi lo v).reg a = putBits (s.reg a) hi lo v := setReg_reg_same _ _ _
theorem setFld_reg_ne (s : State) {a k : Nat} (hi lo v : Nat) (h : k ≠ a) : (s.setFld a hi lo v).reg k = s.reg k := setReg_reg_ne _ _ h
@[simp] theorem orReg_reg_same (s : State) (a : Nat) (m : Word) : (s.orReg a m).reg a = s.reg a ||| m := setReg_reg_same _ _ _
theorem orReg_reg_ne (s : State) {a k : Nat} (m : Word) (h : k ≠ a) : (s.orReg a m).reg k = s.reg k := setReg_reg_ne _ _ h
@[simp] theorem clearReg_reg_same (s : State) (a : Nat) (m : Word) : (s.clearReg a m).reg a = s.reg a &&& ~~~ m := setReg_reg_same _ _ _
theorem clearReg_reg_ne (s : State) {a k : Nat} (m : Word) (h : k ≠ a) : (s.clearReg a m).reg k = s.reg k := setReg_reg_ne _ _ h
@[simp] theorem setBit_reg_same (s : State) (a b : Nat) : (s.setBit a b).reg a = s.reg a ||| BitVec.ofNat 32 (2 ^ b) := setReg_reg_same _ _ _
theorem setBit_reg_ne (s : State) {a k : Nat} (b : Nat) (h : k ≠ a) : (s.setBit a b).reg k = s.reg k := setReg_reg_ne _ _ h

/-- A store leaves every byte outside it alone. -/
theorem store_byte_out (s : State) (bs : List Byte) {a k : Nat} (h : k < a ∨ a + bs.length ≤ k) : (s.store a bs).byte k = s.byte k :=
  Cells.get_setRange_out _ _ _ _ h

/-- A store puts its bytes at consecutive addresses. -/
theorem store_byte_in (s : State) (bs : List Byte) (a i : Nat) (h : i < bs.length) : (s.store a bs).byte (a + i) = bs[i] :=
  Cells.get_setRange_in _ _ _ _ _ h

/-- A wipe leaves every byte outside it alone. -/
theorem wipe_byte_out (s : State) {a n k : Nat} (h : k < a ∨ a + n ≤ k) : (s.wipe a n).byte k = s.byte k := Cells.get_clear_out _ _ h

theorem window_lt (m : List (Nat × Byte)) (k n : Nat) : ∀ e ∈ Cells.window m k n, e.1 < n := by
  intro e he
  simp only [Cells.window, List.mem_map, List.mem_filter, Bool.and_eq_true, decide_eq_true_eq] at he
  obtain ⟨c, ⟨_, h1, h2⟩, rfl⟩ := he
  exact (by omega : c.1 - k < n)

/-- A copy leaves every byte outside its destination alone. -/
theorem copyMem_byte_out (s : State) {src n dst k : Nat} (h : k < dst ∨ dst + n ≤ k) : (s.copyMem src n dst).byte k = s.byte k :=
  Cells.get_replace_out _ _ _ (window_lt _ _ _) h

/-! ### The canonical forms -/

theorem store_wf {s : State} (a : Nat) (bs : List Byte) (h : Memory.wf s.mem) : Memory.wf (s.store a bs).mem := Cells.wf_setRange _ _ h
theorem wipe_wf {s : State} (a n : Nat) (h : Memory.wf s.mem) : Memory.wf (s.wipe a n).mem := Cells.wf_clear _ _ h
theorem copyMem_wf {s : State} (src n dst : Nat) (h : Memory.wf s.mem) : Memory.wf (s.copyMem src n dst).mem := Cells.wf_replace _ _ _ h
theorem setReg_wf {s : State} (a : Nat) (v : Word) (h : Cells.wf resetOf s.regs = true) : Cells.wf resetOf (s.setReg a v).regs = true := Cells.wf_set _ _ h

end Sys2Proof.Machine.State
end

