-- ==== Sys2Proof/Laws/Frames.lean ====
section
/-! SUPPORT. Laws/Frames.lean: what each shared operation can change, in the terms of `OnlyChanges`: a proof of a frame goes through the
operations of a meaning from the last to the first. -/

namespace Sys2Proof.Machine.OnlyChanges

variable {o s t : State} {r : List Nat} {p : List Part} {m : List (Nat × Nat)}

@[simp] theorem refl (s : State) (r : List Nat) (p : List Part) (m : List (Nat × Nat)) : OnlyChanges s s r p m where
  grade := rfl
  fused := rfl
  queue := rfl
  reg := fun _ _ => rfl
  part := fun q _ => by cases q <;> rfl
  byte := fun _ _ => rfl

/-- Two frames in a row. -/
theorem trans (h : OnlyChanges o s r p m) (k : OnlyChanges s t r p m) : OnlyChanges o t r p m where
  grade := k.grade.trans h.grade
  fused := k.fused.trans h.fused
  queue := k.queue.trans h.queue
  reg := fun a ha => (k.reg a ha).trans (h.reg a ha)
  part := fun q hq => by
    have h1 := h.part q hq
    have h2 := k.part q hq
    cases q <;> exact Eq.trans h2 h1
  byte := fun a ha => (k.byte a ha).trans (h.byte a ha)

/-- A frame with fewer entries is a frame with more. -/
theorem mono {r' : List Nat} {p' : List Part} {m' : List (Nat × Nat)} (h : OnlyChanges s t r p m) (hr : r ⊆ r') (hp : p ⊆ p') (hm : m ⊆ m') :
    OnlyChanges s t r' p' m' where
  grade := h.grade
  fused := h.fused
  queue := h.queue
  reg := fun a ha => h.reg a fun hh => ha (hr hh)
  part := fun q hq => h.part q fun hh => hq (List.cons_subset_cons _ (List.cons_subset_cons _ hp) hh)
  byte := fun a ha => h.byte a fun x hx => ha x (hm hx)

@[simp] theorem ite {c : Prop} [Decidable c] (h : OnlyChanges o s r p m) (k : OnlyChanges o t r p m) : OnlyChanges o (if c then s else t) r p m := by
  split
  · exact h
  · exact k

/-! ### Registers -/

@[simp] theorem setReg {a : Nat} {v : Word} (h : OnlyChanges o s r p m) (ha : a ∈ r) : OnlyChanges o (s.setReg a v) r p m where
  grade := h.grade
  fused := h.fused
  queue := h.queue
  reg := fun k hk => (State.setReg_reg_ne s v fun e => hk (by rw [e]; exact ha)).trans (h.reg k hk)
  part := fun q hq => by
    have := h.part q hq
    cases q <;> first | exact this | exact absurd (by simp) hq
  byte := h.byte
@[simp] theorem setReg64 {a : Nat} {v : DWord} (h : OnlyChanges o s r p m) (ha : a ∈ r) (hb : a + 4 ∈ r) : OnlyChanges o (s.setReg64 a v) r p m :=
  (h.setReg ha).setReg hb
@[simp] theorem setFld {a hi lo v : Nat} (h : OnlyChanges o s r p m) (ha : a ∈ r) : OnlyChanges o (s.setFld a hi lo v) r p m := h.setReg ha
@[simp] theorem clearReg {a : Nat} {v : Word} (h : OnlyChanges o s r p m) (ha : a ∈ r) : OnlyChanges o (s.clearReg a v) r p m := h.setReg ha
@[simp] theorem satAdd {a hi lo n : Nat} (h : OnlyChanges o s r p m) (ha : a ∈ r) : OnlyChanges o (s.satAdd a hi lo n) r p m := h.setReg ha
@[simp] theorem wrapInc {a hi lo : Nat} (h : OnlyChanges o s r p m) (ha : a ∈ r) : OnlyChanges o (s.wrapInc a hi lo) r p m := h.setReg ha

/-! ### Parts of the state -/

@[simp] theorem bus {x} (h : OnlyChanges o s r p m) (hp : Part.bus ∈ p) : OnlyChanges o { s with bus := x } r p m where
  grade := h.grade
  fused := h.fused
  queue := h.queue
  reg := h.reg
  part := fun q hq => by
    have := h.part q hq
    cases q <;> first | exact absurd (List.mem_cons_of_mem _ (List.mem_cons_of_mem _ hp)) hq | exact this
  byte := h.byte
@[simp] theorem mp {x} (h : OnlyChanges o s r p m) (hp : Part.mp ∈ p) : OnlyChanges o { s with mp := x } r p m where
  grade := h.grade
  fused := h.fused
  queue := h.queue
  reg := h.reg
  part := fun q hq => by
    have := h.part q hq
    cases q <;> first | exact absurd (List.mem_cons_of_mem _ (List.mem_cons_of_mem _ hp)) hq | exact this
  byte := h.byte
@[simp] theorem sl {x} (h : OnlyChanges o s r p m) (hp : Part.sl ∈ p) : OnlyChanges o { s with sl := x } r p m where
  grade := h.grade
  fused := h.fused
  queue := h.queue
  reg := h.reg
  part := fun q hq => by
    have := h.part q hq
    cases q <;> first | exact absurd (List.mem_cons_of_mem _ (List.mem_cons_of_mem _ hp)) hq | exact this
  byte := h.byte
@[simp] theorem barges {x} (h : OnlyChanges o s r p m) (hp : Part.barges ∈ p) : OnlyChanges o { s with barges := x } r p m where
  grade := h.grade
  fused := h.fused
  queue := h.queue
  reg := h.reg
  part := fun q hq => by
    have := h.part q hq
    cases q <;> first | exact absurd (List.mem_cons_of_mem _ (List.mem_cons_of_mem _ hp)) hq | exact this
  byte := h.byte
@[simp] theorem mr {x} (h : OnlyChanges o s r p m) (hp : Part.mr ∈ p) : OnlyChanges o { s with mr := x } r p m where
  grade := h.grade
  fused := h.fused
  queue := h.queue
  reg := h.reg
  part := fun q hq => by
    have := h.part q hq
    cases q <;> first | exact absurd (List.mem_cons_of_mem _ (List.mem_cons_of_mem _ hp)) hq | exact this
  byte := h.byte
@[simp] theorem mi {x} (h : OnlyChanges o s r p m) (hp : Part.mi ∈ p) : OnlyChanges o { s with mi := x } r p m where
  grade := h.grade
  fused := h.fused
  queue := h.queue
  reg := h.reg
  part := fun q hq => by
    have := h.part q hq
    cases q <;> first | exact absurd (List.mem_cons_of_mem _ (List.mem_cons_of_mem _ hp)) hq | exact this
  byte := h.byte
@[simp] theorem tiles {x} (h : OnlyChanges o s r p m) (hp : Part.tiles ∈ p) : OnlyChanges o { s with tiles := x } r p m where
  grade := h.grade
  fused := h.fused
  queue := h.queue
  reg := h.reg
  part := fun q hq => by
    have := h.part q hq
    cases q <;> first | exact absurd (List.mem_cons_of_mem _ (List.mem_cons_of_mem _ hp)) hq | exact this
  byte := h.byte
@[simp] theorem au {x} (h : OnlyChanges o s r p m) (hp : Part.au ∈ p) : OnlyChanges o { s with au := x } r p m where
  grade := h.grade
  fused := h.fused
  queue := h.queue
  reg := h.reg
  part := fun q hq => by
    have := h.part q hq
    cases q <;> first | exact absurd (List.mem_cons_of_mem _ (List.mem_cons_of_mem _ hp)) hq | exact this
  byte := h.byte
@[simp] theorem sn {x} (h : OnlyChanges o s r p m) (hp : Part.sn ∈ p) : OnlyChanges o { s with sn := x } r p m where
  grade := h.grade
  fused := h.fused
  queue := h.queue
  reg := h.reg
  part := fun q hq => by
    have := h.part q hq
    cases q <;> first | exact absurd (List.mem_cons_of_mem _ (List.mem_cons_of_mem _ hp)) hq | exact this
  byte := h.byte
@[simp] theorem lc {x} (h : OnlyChanges o s r p m) (hp : Part.lc ∈ p) : OnlyChanges o { s with lc := x } r p m where
  grade := h.grade
  fused := h.fused
  queue := h.queue
  reg := h.reg
  part := fun q hq => by
    have := h.part q hq
    cases q <;> first | exact absurd (List.mem_cons_of_mem _ (List.mem_cons_of_mem _ hp)) hq | exact this
  byte := h.byte
@[simp] theorem bc {x} (h : OnlyChanges o s r p m) (hp : Part.bc ∈ p) : OnlyChanges o { s with bc := x } r p m where
  grade := h.grade
  fused := h.fused
  queue := h.queue
  reg := h.reg
  part := fun q hq => by
    have := h.part q hq
    cases q <;> first | exact absurd (List.mem_cons_of_mem _ (List.mem_cons_of_mem _ hp)) hq | exact this
  byte := h.byte
@[simp] theorem wd {x} (h : OnlyChanges o s r p m) (hp : Part.wd ∈ p) : OnlyChanges o { s with wd := x } r p m where
  grade := h.grade
  fused := h.fused
  queue := h.queue
  reg := h.reg
  part := fun q hq => by
    have := h.part q hq
    cases q <;> first | exact absurd (List.mem_cons_of_mem _ (List.mem_cons_of_mem _ hp)) hq | exact this
  byte := h.byte
@[simp] theorem sio {x} (h : OnlyChanges o s r p m) (hp : Part.sio ∈ p) : OnlyChanges o { s with sio := x } r p m where
  grade := h.grade
  fused := h.fused
  queue := h.queue
  reg := h.reg
  part := fun q hq => by
    have := h.part q hq
    cases q <;> first | exact absurd (List.mem_cons_of_mem _ (List.mem_cons_of_mem _ hp)) hq | exact this
  byte := h.byte
@[simp] theorem se {x} (h : OnlyChanges o s r p m) (hp : Part.se ∈ p) : OnlyChanges o { s with se := x } r p m where
  grade := h.grade
  fused := h.fused
  queue := h.queue
  reg := h.reg
  part := fun q hq => by
    have := h.part q hq
    cases q <;> first | exact absurd (List.mem_cons_of_mem _ (List.mem_cons_of_mem _ hp)) hq | exact this
  byte := h.byte
@[simp] theorem lk {x} (h : OnlyChanges o s r p m) (hp : Part.lk ∈ p) : OnlyChanges o { s with lk := x } r p m where
  grade := h.grade
  fused := h.fused
  queue := h.queue
  reg := h.reg
  part := fun q hq => by
    have := h.part q hq
    cases q <;> first | exact absurd (List.mem_cons_of_mem _ (List.mem_cons_of_mem _ hp)) hq | exact this
  byte := h.byte
@[simp] theorem wr {x} (h : OnlyChanges o s r p m) (hp : Part.wr ∈ p) : OnlyChanges o { s with wr := x } r p m where
  grade := h.grade
  fused := h.fused
  queue := h.queue
  reg := h.reg
  part := fun q hq => by
    have := h.part q hq
    cases q <;> first | exact absurd (List.mem_cons_of_mem _ (List.mem_cons_of_mem _ hp)) hq | exact this
  byte := h.byte
@[simp] theorem hd {x} (h : OnlyChanges o s r p m) (hp : Part.hd ∈ p) : OnlyChanges o { s with hd := x } r p m where
  grade := h.grade
  fused := h.fused
  queue := h.queue
  reg := h.reg
  part := fun q hq => by
    have := h.part q hq
    cases q <;> first | exact absurd (List.mem_cons_of_mem _ (List.mem_cons_of_mem _ hp)) hq | exact this
  byte := h.byte
@[simp] theorem bs {x} (h : OnlyChanges o s r p m) (hp : Part.bs ∈ p) : OnlyChanges o { s with bs := x } r p m where
  grade := h.grade
  fused := h.fused
  queue := h.queue
  reg := h.reg
  part := fun q hq => by
    have := h.part q hq
    cases q <;> first | exact absurd (List.mem_cons_of_mem _ (List.mem_cons_of_mem _ hp)) hq | exact this
  byte := h.byte
@[simp] theorem ty {x} (h : OnlyChanges o s r p m) (hp : Part.ty ∈ p) : OnlyChanges o { s with ty := x } r p m where
  grade := h.grade
  fused := h.fused
  queue := h.queue
  reg := h.reg
  part := fun q hq => by
    have := h.part q hq
    cases q <;> first | exact absurd (List.mem_cons_of_mem _ (List.mem_cons_of_mem _ hp)) hq | exact this
  byte := h.byte
@[simp] theorem tp {x} (h : OnlyChanges o s r p m) (hp : Part.tp ∈ p) : OnlyChanges o { s with tp := x } r p m where
  grade := h.grade
  fused := h.fused
  queue := h.queue
  reg := h.reg
  part := fun q hq => by
    have := h.part q hq
    cases q <;> first | exact absurd (List.mem_cons_of_mem _ (List.mem_cons_of_mem _ hp)) hq | exact this
  byte := h.byte
@[simp] theorem kc {x} (h : OnlyChanges o s r p m) (hp : Part.kc ∈ p) : OnlyChanges o { s with kc := x } r p m where
  grade := h.grade
  fused := h.fused
  queue := h.queue
  reg := h.reg
  part := fun q hq => by
    have := h.part q hq
    cases q <;> first | exact absurd (List.mem_cons_of_mem _ (List.mem_cons_of_mem _ hp)) hq | exact this
  byte := h.byte
@[simp] theorem ln {x} (h : OnlyChanges o s r p m) (hp : Part.ln ∈ p) : OnlyChanges o { s with ln := x } r p m where
  grade := h.grade
  fused := h.fused
  queue := h.queue
  reg := h.reg
  part := fun q hq => by
    have := h.part q hq
    cases q <;> first | exact absurd (List.mem_cons_of_mem _ (List.mem_cons_of_mem _ hp)) hq | exact this
  byte := h.byte
@[simp] theorem ports {x} (h : OnlyChanges o s r p m) (hp : Part.ports ∈ p) : OnlyChanges o { s with ports := x } r p m where
  grade := h.grade
  fused := h.fused
  queue := h.queue
  reg := h.reg
  part := fun q hq => by
    have := h.part q hq
    cases q <;> first | exact absurd (List.mem_cons_of_mem _ (List.mem_cons_of_mem _ hp)) hq | exact this
  byte := h.byte

/-- The model's own counters are in no frame. -/
@[simp] theorem freeIdx {x : Nat} (h : OnlyChanges o s r p m) : OnlyChanges o { s with freeIdx := x } r p m where
  grade := h.grade
  fused := h.fused
  queue := h.queue
  reg := h.reg
  part := fun q hq => by
    have := h.part q hq
    cases q <;> first | exact this | exact absurd (by simp) hq
  byte := h.byte
@[simp] theorem draws {x : Nat} (h : OnlyChanges o s r p m) : OnlyChanges o { s with draws := x } r p m where
  grade := h.grade
  fused := h.fused
  queue := h.queue
  reg := h.reg
  part := fun q hq => by
    have := h.part q hq
    cases q <;> first | exact this | exact absurd (by simp) hq
  byte := h.byte
@[simp] theorem hwSets {x : List (Nat × Word)} (h : OnlyChanges o s r p m) : OnlyChanges o { s with hwSets := x } r p m where
  grade := h.grade
  fused := h.fused
  queue := h.queue
  reg := h.reg
  part := fun q hq => by
    have := h.part q hq
    cases q <;> first | exact this | exact absurd (by simp) hq
  byte := h.byte
@[simp] theorem free (h : OnlyChanges o s r p m) : OnlyChanges o s.free.2 r p m := h.freeIdx
@[simp] theorem draw (h : OnlyChanges o s r p m) : OnlyChanges o s.draw.2 r p m := h.draws

/-! ### Bits that hardware sets -/

@[simp] theorem orReg {a : Nat} {v : Word} (h : OnlyChanges o s r p m) (ha : a ∈ r) : OnlyChanges o (s.orReg a v) r p m := (h.setReg ha).hwSets
@[simp] theorem setBit {a b : Nat} (h : OnlyChanges o s r p m) (ha : a ∈ r) : OnlyChanges o (s.setBit a b) r p m := h.orReg ha

/-! ### Error lines, bus responses, barges -/

@[simp] theorem raiseSyn {src chan : Nat} {syn : Half} {bs : Option (List Word)} (h : OnlyChanges o s r p m) (hp : Part.bc ∈ p) :
    OnlyChanges o (s.raiseSyn src chan syn bs) r p m := h.bc hp
@[simp] theorem raiseOn {src chan : Nat} {bs : Option (List Word)} (h : OnlyChanges o s r p m) (hp : Part.bc ∈ p) :
    OnlyChanges o (s.raiseOn src chan bs) r p m := h.free.raiseSyn hp
@[simp] theorem raise {src chan : Nat} (h : OnlyChanges o s r p m) (hp : Part.bc ∈ p) : OnlyChanges o (s.raise src chan) r p m := h.raiseOn hp
@[simp] theorem raiseFor {src : Nat} {b : Word} (h : OnlyChanges o s r p m) (hp : Part.bc ∈ p) : OnlyChanges o (s.raiseFor src b) r p m := h.raiseOn hp
@[simp] theorem level {src : Nat} {on : Bool} (h : OnlyChanges o s r p m) (hp : Part.bc ∈ p) : OnlyChanges o (s.level src on) r p m := by
  unfold State.level
  split
  · split
    · exact h
    · exact (h.bc hp).raise hp
  · exact h.bc hp
@[simp] theorem busOk {v : DWord} (h : OnlyChanges o s r p m) (hp : Part.bus ∈ p) : OnlyChanges o (s.busOk v) r p m := h.bus hp
@[simp] theorem busError {i : Initiator} (h : OnlyChanges o s r p m) (hp : Part.bus ∈ p) (hq : Part.bc ∈ p) : OnlyChanges o (s.busError i) r p m := by
  unfold State.busError
  split
  · exact h.bus hp
  · cases i <;> first | exact (h.bus hp).raise hq | exact h.bus hp
@[simp] theorem refuse {i : Initiator} (h : OnlyChanges o s r p m) (hp : Part.bus ∈ p) (hq : Part.bc ∈ p) : OnlyChanges o (s.refuse i) r p m := by
  unfold State.refuse
  split
  · exact h.busError hp hq
  · exact h.busError hp hq
  · split
    · exact h.busError hp hq
    · exact (h.busError hp hq).raise hq
@[simp] theorem updBarge {b : Word} {f : Barge → Barge} (h : OnlyChanges o s r p m) (hp : Part.barges ∈ p) : OnlyChanges o (s.updBarge b f) r p m :=
  h.barges hp

/-! ### Memory -/

@[simp] theorem store {a : Nat} {bs : List Byte} (h : OnlyChanges o s r p m) (hm : (a, bs.length) ∈ m) : OnlyChanges o (s.store a bs) r p m where
  grade := h.grade
  fused := h.fused
  queue := h.queue
  reg := h.reg
  part := fun q hq => by
    have := h.part q hq
    cases q <;> first | exact this | exact absurd (by simp) hq
  byte := fun k hk => (State.store_byte_out s bs (hk _ hm)).trans (h.byte k hk)
@[simp] theorem wipe {a n : Nat} (h : OnlyChanges o s r p m) (hm : (a, n) ∈ m) : OnlyChanges o (s.wipe a n) r p m where
  grade := h.grade
  fused := h.fused
  queue := h.queue
  reg := h.reg
  part := fun q hq => by
    have := h.part q hq
    cases q <;> first | exact this | exact absurd (by simp) hq
  byte := fun k hk => (State.wipe_byte_out s (hk _ hm)).trans (h.byte k hk)
@[simp] theorem copyMem {a n b : Nat} (h : OnlyChanges o s r p m) (hm : (b, n) ∈ m) : OnlyChanges o (s.copyMem a n b) r p m where
  grade := h.grade
  fused := h.fused
  queue := h.queue
  reg := h.reg
  part := fun q hq => by
    have := h.part q hq
    cases q <;> first | exact this | exact absurd (by simp) hq
  byte := fun k hk => (State.copyMem_byte_out s (hk _ hm)).trans (h.byte k hk)

end Sys2Proof.Machine.OnlyChanges
end

