-- ==== Sys2Proof/Laws/Keeps.lean ====
section
/-! SUPPORT. Laws/Keeps.lean: how `Keeps` goes through the forms of a definition (a record update, a condition, a fold), and what each
shared update of Machine/Ops.lean keeps. The files Laws/Keeps*.lean say the same of every operation of every block: which parts it can
change. -/

namespace Sys2Proof.Machine

theorem Sub.of {n l ps : List Part} (h : l ⊆ ps) (hs : (n.all fun q => l.contains q) = true) : n ⊆ ps := by
  intro q hq
  have := List.all_eq_true.mp hs q hq
  exact h (by simpa using this)

theorem AllNext.next {P : State → Prop} {s : State} (h : P s) : AllNext (.next s) P := by
  constructor
  intro t e
  cases e
  exact h

theorem AllNext.ite {P : State → Prop} {c : Prop} [Decidable c] {a b : Out} (h : AllNext a P) (k : AllNext b P) :
    AllNext (if c then a else b) P := by
  split
  · exact h
  · exact k

/-- Every next state of an outcome that may be absent has `P`. -/
structure OptNext (o : Option Out) (P : State → Prop) : Prop where
  all : ∀ x, o = some x → AllNext x P

theorem OptNext.some {P : State → Prop} {x : Out} (h : AllNext x P) : OptNext (some x) P := ⟨fun _ e => by cases e; exact h⟩
theorem OptNext.none {P : State → Prop} : OptNext none P := ⟨fun _ e => nomatch e⟩
theorem OptNext.or {P : State → Prop} {a b : Option Out} (h : OptNext a P) (k : OptNext b P) : OptNext (a <|> b) P :=
  ⟨fun x e => by
    cases a with
    | none => exact k.all x (by simpa using e)
    | some y => exact h.all x (by simpa using e)⟩
theorem OptNext.map {P : State → Prop} {α : Type} {a : Option α} {f : α → Out} (h : ∀ x, AllNext (f x) P) : OptNext (a.map f) P :=
  ⟨fun x e => by
    cases a with
    | none => cases e
    | some y => cases e; exact h y⟩
theorem OptNext.ite {P : State → Prop} {c : Prop} [Decidable c] {a b : Option Out} (h : OptNext a P) (k : OptNext b P) :
    OptNext (if c then a else b) P := by
  split
  · exact h
  · exact k
/-- A row of a table of meanings. -/
theorem OptNext.find {P : State → Prop} {l : List (Nat × (Initiator → Word → State → Out))} {i : Initiator} {v : Word} {s : State}
    {q : Nat × (Initiator → Word → State → Out) → Bool} (h : ∀ f ∈ l, AllNext (f.2 i v s) P) : OptNext ((l.find? q).map fun f => f.2 i v s) P :=
  ⟨fun x e => by
    cases hf : l.find? q with
    | none => rw [hf] at e; cases e
    | some f => rw [hf] at e; cases e; exact h f (List.mem_of_find?_eq_some hf)⟩

theorem OptNext.cons {P : State → Prop} {l : List (Nat × (Initiator → Word → State → Out))} {i : Initiator} {v : Word} {s : State}
    {a : Nat} {m : Initiator → Word → State → Out} (h : AllNext (m i v s) P) (k : ∀ f ∈ l, AllNext (f.2 i v s) P) :
    ∀ f ∈ (a, m) :: l, AllNext (f.2 i v s) P := by
  intro f hf
  rcases List.mem_cons.mp hf with rfl | hf
  · exact h
  · exact k f hf
theorem OptNext.nil {P : State → Prop} {i : Initiator} {v : Word} {s : State} :
    ∀ f ∈ ([] : List (Nat × (Initiator → Word → State → Out))), AllNext (f.2 i v s) P := fun _ hf => nomatch hf

namespace Keeps

variable {ps : List Part} {o s t : State}

theorem refl (ps : List Part) (s : State) : Keeps ps s s where
  grade := rfl
  fused := rfl
  queue := rfl
  canon := id
  part := fun q _ => by cases q <;> rfl

/-- Two in a row. -/
theorem trans (h : Keeps ps o s) (k : Keeps ps s t) : Keeps ps o t where
  grade := k.grade.trans h.grade
  fused := k.fused.trans h.fused
  queue := k.queue.trans h.queue
  canon := fun c => k.canon (h.canon c)
  part := fun q hq => by
    have h1 := h.part q hq
    have h2 := k.part q hq
    cases q <;> exact Eq.trans h2 h1

/-- With more parts. -/
theorem mono {ps' : List Part} (h : Keeps ps s t) (hs : ps ⊆ ps') : Keeps ps' s t where
  grade := h.grade
  fused := h.fused
  queue := h.queue
  canon := h.canon
  part := fun q hq => h.part q fun hh => hq (hs hh)

theorem ite {c : Prop} [Decidable c] (h : Keeps ps o s) (k : Keeps ps o t) : Keeps ps o (if c then s else t) := by
  split
  · exact h
  · exact k

theorem foldl {α : Type} {f : State → α → State} {l : List α} (h : Keeps ps o s) (hf : ∀ x a, Keeps ps o x → Keeps ps o (f x a)) :
    Keeps ps o (l.foldl f s) := by
  induction l generalizing s with
  | nil => exact h
  | cons a l ih => exact ih (hf _ _ h)

theorem foldN {f : State → Nat → State} {n : Nat} (h : Keeps ps o s) (hf : ∀ x a, Keeps ps o x → Keeps ps o (f x a)) :
    Keeps ps o (Machine.foldN n f s) := foldl h hf

theorem foldr {α : Type} {f : α → State → State} {l : List α} (h : Keeps ps o s) (hf : ∀ a x, Keeps ps o x → Keeps ps o (f a x)) :
    Keeps ps o (l.foldr f s) := by
  induction l with
  | nil => exact h
  | cons a l ih => exact hf _ _ ih

theorem foldlFst {α β : Type} {f : State × β → α → State × β} {l : List α} {x : State × β} (h : Keeps ps o x.1)
    (hf : ∀ y a, Keeps ps o y.1 → Keeps ps o (f y a).1) : Keeps ps o (l.foldl f x).1 := by
  induction l generalizing x with
  | nil => exact h
  | cons a l ih => exact ih (hf _ _ h)

/-! ### Record updates -/

theorem bus {x} (h : Keeps ps o s) (hp : [Part.bus] ⊆ ps) : Keeps ps o { s with bus := x } where
  grade := h.grade
  fused := h.fused
  queue := h.queue
  canon := h.canon
  part := fun q hq => by
    have := h.part q hq
    cases q <;> first | exact this | exact absurd (hp (List.mem_singleton.mpr rfl)) hq

theorem mp {x} (h : Keeps ps o s) (hp : [Part.mp] ⊆ ps) : Keeps ps o { s with mp := x } where
  grade := h.grade
  fused := h.fused
  queue := h.queue
  canon := h.canon
  part := fun q hq => by
    have := h.part q hq
    cases q <;> first | exact this | exact absurd (hp (List.mem_singleton.mpr rfl)) hq

theorem sl {x} (h : Keeps ps o s) (hp : [Part.sl] ⊆ ps) : Keeps ps o { s with sl := x } where
  grade := h.grade
  fused := h.fused
  queue := h.queue
  canon := h.canon
  part := fun q hq => by
    have := h.part q hq
    cases q <;> first | exact this | exact absurd (hp (List.mem_singleton.mpr rfl)) hq

theorem barges {x} (h : Keeps ps o s) (hp : [Part.barges] ⊆ ps) : Keeps ps o { s with barges := x } where
  grade := h.grade
  fused := h.fused
  queue := h.queue
  canon := h.canon
  part := fun q hq => by
    have := h.part q hq
    cases q <;> first | exact this | exact absurd (hp (List.mem_singleton.mpr rfl)) hq

theorem mr {x} (h : Keeps ps o s) (hp : [Part.mr] ⊆ ps) : Keeps ps o { s with mr := x } where
  grade := h.grade
  fused := h.fused
  queue := h.queue
  canon := h.canon
  part := fun q hq => by
    have := h.part q hq
    cases q <;> first | exact this | exact absurd (hp (List.mem_singleton.mpr rfl)) hq

theorem mi {x} (h : Keeps ps o s) (hp : [Part.mi] ⊆ ps) : Keeps ps o { s with mi := x } where
  grade := h.grade
  fused := h.fused
  queue := h.queue
  canon := h.canon
  part := fun q hq => by
    have := h.part q hq
    cases q <;> first | exact this | exact absurd (hp (List.mem_singleton.mpr rfl)) hq

theorem tiles {x} (h : Keeps ps o s) (hp : [Part.tiles] ⊆ ps) : Keeps ps o { s with tiles := x } where
  grade := h.grade
  fused := h.fused
  queue := h.queue
  canon := h.canon
  part := fun q hq => by
    have := h.part q hq
    cases q <;> first | exact this | exact absurd (hp (List.mem_singleton.mpr rfl)) hq

theorem au {x} (h : Keeps ps o s) (hp : [Part.au] ⊆ ps) : Keeps ps o { s with au := x } where
  grade := h.grade
  fused := h.fused
  queue := h.queue
  canon := h.canon
  part := fun q hq => by
    have := h.part q hq
    cases q <;> first | exact this | exact absurd (hp (List.mem_singleton.mpr rfl)) hq

theorem sn {x} (h : Keeps ps o s) (hp : [Part.sn] ⊆ ps) : Keeps ps o { s with sn := x } where
  grade := h.grade
  fused := h.fused
  queue := h.queue
  canon := h.canon
  part := fun q hq => by
    have := h.part q hq
    cases q <;> first | exact this | exact absurd (hp (List.mem_singleton.mpr rfl)) hq

theorem lc {x} (h : Keeps ps o s) (hp : [Part.lc] ⊆ ps) : Keeps ps o { s with lc := x } where
  grade := h.grade
  fused := h.fused
  queue := h.queue
  canon := h.canon
  part := fun q hq => by
    have := h.part q hq
    cases q <;> first | exact this | exact absurd (hp (List.mem_singleton.mpr rfl)) hq

theorem bc {x} (h : Keeps ps o s) (hp : [Part.bc] ⊆ ps) : Keeps ps o { s with bc := x } where
  grade := h.grade
  fused := h.fused
  queue := h.queue
  canon := h.canon
  part := fun q hq => by
    have := h.part q hq
    cases q <;> first | exact this | exact absurd (hp (List.mem_singleton.mpr rfl)) hq

theorem wd {x} (h : Keeps ps o s) (hp : [Part.wd] ⊆ ps) : Keeps ps o { s with wd := x } where
  grade := h.grade
  fused := h.fused
  queue := h.queue
  canon := h.canon
  part := fun q hq => by
    have := h.part q hq
    cases q <;> first | exact this | exact absurd (hp (List.mem_singleton.mpr rfl)) hq

theorem sio {x} (h : Keeps ps o s) (hp : [Part.sio] ⊆ ps) : Keeps ps o { s with sio := x } where
  grade := h.grade
  fused := h.fused
  queue := h.queue
  canon := h.canon
  part := fun q hq => by
    have := h.part q hq
    cases q <;> first | exact this | exact absurd (hp (List.mem_singleton.mpr rfl)) hq

theorem se {x} (h : Keeps ps o s) (hp : [Part.se] ⊆ ps) : Keeps ps o { s with se := x } where
  grade := h.grade
  fused := h.fused
  queue := h.queue
  canon := h.canon
  part := fun q hq => by
    have := h.part q hq
    cases q <;> first | exact this | exact absurd (hp (List.mem_singleton.mpr rfl)) hq

theorem lk {x} (h : Keeps ps o s) (hp : [Part.lk] ⊆ ps) : Keeps ps o { s with lk := x } where
  grade := h.grade
  fused := h.fused
  queue := h.queue
  canon := h.canon
  part := fun q hq => by
    have := h.part q hq
    cases q <;> first | exact this | exact absurd (hp (List.mem_singleton.mpr rfl)) hq

theorem wr {x} (h : Keeps ps o s) (hp : [Part.wr] ⊆ ps) : Keeps ps o { s with wr := x } where
  grade := h.grade
  fused := h.fused
  queue := h.queue
  canon := h.canon
  part := fun q hq => by
    have := h.part q hq
    cases q <;> first | exact this | exact absurd (hp (List.mem_singleton.mpr rfl)) hq

theorem hd {x} (h : Keeps ps o s) (hp : [Part.hd] ⊆ ps) : Keeps ps o { s with hd := x } where
  grade := h.grade
  fused := h.fused
  queue := h.queue
  canon := h.canon
  part := fun q hq => by
    have := h.part q hq
    cases q <;> first | exact this | exact absurd (hp (List.mem_singleton.mpr rfl)) hq

theorem bs {x} (h : Keeps ps o s) (hp : [Part.bs] ⊆ ps) : Keeps ps o { s with bs := x } where
  grade := h.grade
  fused := h.fused
  queue := h.queue
  canon := h.canon
  part := fun q hq => by
    have := h.part q hq
    cases q <;> first | exact this | exact absurd (hp (List.mem_singleton.mpr rfl)) hq

theorem ty {x} (h : Keeps ps o s) (hp : [Part.ty] ⊆ ps) : Keeps ps o { s with ty := x } where
  grade := h.grade
  fused := h.fused
  queue := h.queue
  canon := h.canon
  part := fun q hq => by
    have := h.part q hq
    cases q <;> first | exact this | exact absurd (hp (List.mem_singleton.mpr rfl)) hq

theorem tp {x} (h : Keeps ps o s) (hp : [Part.tp] ⊆ ps) : Keeps ps o { s with tp := x } where
  grade := h.grade
  fused := h.fused
  queue := h.queue
  canon := h.canon
  part := fun q hq => by
    have := h.part q hq
    cases q <;> first | exact this | exact absurd (hp (List.mem_singleton.mpr rfl)) hq

theorem kc {x} (h : Keeps ps o s) (hp : [Part.kc] ⊆ ps) : Keeps ps o { s with kc := x } where
  grade := h.grade
  fused := h.fused
  queue := h.queue
  canon := h.canon
  part := fun q hq => by
    have := h.part q hq
    cases q <;> first | exact this | exact absurd (hp (List.mem_singleton.mpr rfl)) hq

theorem ln {x} (h : Keeps ps o s) (hp : [Part.ln] ⊆ ps) : Keeps ps o { s with ln := x } where
  grade := h.grade
  fused := h.fused
  queue := h.queue
  canon := h.canon
  part := fun q hq => by
    have := h.part q hq
    cases q <;> first | exact this | exact absurd (hp (List.mem_singleton.mpr rfl)) hq

theorem cycle {x} (h : Keeps ps o s) (hp : [Part.cycle] ⊆ ps) : Keeps ps o { s with cycle := x } where
  grade := h.grade
  fused := h.fused
  queue := h.queue
  canon := h.canon
  part := fun q hq => by
    have := h.part q hq
    cases q <;> first | exact this | exact absurd (hp (List.mem_singleton.mpr rfl)) hq

theorem ports {x} (h : Keeps ps o s) (hp : [Part.ports] ⊆ ps) : Keeps ps o { s with ports := x } where
  grade := h.grade
  fused := h.fused
  queue := h.queue
  canon := h.canon
  part := fun q hq => by
    have := h.part q hq
    cases q <;> first | exact this | exact absurd (hp (List.mem_singleton.mpr rfl)) hq

theorem freeIdx {x : Nat} (h : Keeps ps o s) : Keeps ps o { s with freeIdx := x } where
  grade := h.grade
  fused := h.fused
  queue := h.queue
  canon := h.canon
  part := fun q hq => by have := h.part q hq; cases q <;> exact this

theorem hwSets {x : List (Nat × Word)} (h : Keeps ps o s) : Keeps ps o { s with hwSets := x } where
  grade := h.grade
  fused := h.fused
  queue := h.queue
  canon := h.canon
  part := fun q hq => by have := h.part q hq; cases q <;> exact this

theorem draws {x : Nat} (h : Keeps ps o s) : Keeps ps o { s with draws := x } where
  grade := h.grade
  fused := h.fused
  queue := h.queue
  canon := h.canon
  part := fun q hq => by have := h.part q hq; cases q <;> exact this

/-- New register cells in canonical form. -/
theorem regs {x : List (Nat × Word)} (h : Keeps ps o s) (hp : [Part.regs] ⊆ ps) (hx : Canonical s → Cells.wf resetOf x = true) :
    Keeps ps o { s with regs := x } where
  grade := h.grade
  fused := h.fused
  queue := h.queue
  canon := fun c => ⟨(h.canon c).1, hx (h.canon c)⟩
  part := fun q hq => by
    have := h.part q hq
    cases q <;> first | exact this | exact absurd (hp (List.mem_singleton.mpr rfl)) hq

/-- New register cells that are canonical where the first state was. -/
theorem regsFrom {x : List (Nat × Word)} (h : Keeps ps o s) (hp : [Part.regs] ⊆ ps) (hx : Canonical o → Cells.wf resetOf x = true) :
    Keeps ps o { s with regs := x } where
  grade := h.grade
  fused := h.fused
  queue := h.queue
  canon := fun c => ⟨(h.canon c).1, hx c⟩
  part := fun q hq => by
    have := h.part q hq
    cases q <;> first | exact this | exact absurd (hp (List.mem_singleton.mpr rfl)) hq

/-- New memory in canonical form. -/
theorem mem {x : List Host.Cell} (h : Keeps ps o s) (hp : [Part.mem] ⊆ ps) (hx : Canonical s → Memory.wf x) :
    Keeps ps o { s with mem := x } where
  grade := h.grade
  fused := h.fused
  queue := h.queue
  canon := fun c => ⟨hx (h.canon c), (h.canon c).2⟩
  part := fun q hq => by
    have := h.part q hq
    cases q <;> first | exact this | exact absurd (hp (List.mem_singleton.mpr rfl)) hq

end Keeps

/-! ### The updates of memory and registers -/

theorem State.setReg_keeps {ps : List Part} {o s : State} {a1 a2} (h : Keeps ps o s) (hp : [Part.regs] ⊆ ps) : Keeps ps o (State.setReg s a1 a2) :=
  h.regs hp fun c => Cells.wf_set _ _ c.2
theorem State.store_keeps {ps : List Part} {o s : State} {a1 a2} (h : Keeps ps o s) (hp : [Part.mem] ⊆ ps) : Keeps ps o (State.store s a1 a2) :=
  h.mem hp fun c => Cells.wf_setRange _ _ c.1
theorem State.wipe_keeps {ps : List Part} {o s : State} {a1 a2} (h : Keeps ps o s) (hp : [Part.mem] ⊆ ps) : Keeps ps o (State.wipe s a1 a2) :=
  h.mem hp fun c => Cells.wf_clear _ _ c.1
theorem State.copyMem_keeps {ps : List Part} {o s : State} {a1 a2 a3} (h : Keeps ps o s) (hp : [Part.mem] ⊆ ps) :
    Keeps ps o (State.copyMem s a1 a2 a3) :=
  h.mem hp fun c => Cells.wf_replace _ _ _ c.1

end Sys2Proof.Machine
end

