-- ==== Sys2Proof/Laws/KeepsOps.lean ====
section
/-! SUPPORT. Laws/KeepsOps.lean: which parts of the state each operation of Machine/Ops.lean can change. -/

namespace Sys2Proof.Machine

theorem State.updBarge_keeps {ps : List Part} {o s : State} {a1 a2} (h : Keeps ps o s) (hp : [.barges] ⊆ ps) :
    Keeps ps o (State.updBarge s a1 a2) := by
  unfold State.updBarge
  repeat' first
    | with_reducible exact h
    | with_reducible assumption
    | with_reducible refine Sub.of hp ?_
    | exact rfl
    | intro _
    | with_reducible apply AllNext.next
    | with_reducible apply Keeps.ite
    | with_reducible apply AllNext.ite
    | with_reducible apply Keeps.foldl
    | with_reducible apply Keeps.foldN
    | with_reducible apply Keeps.foldr
    | with_reducible apply Keeps.foldlFst
    | split
    | with_reducible apply Keeps.barges
    | dsimp only
    | assumption

theorem State.setFld_keeps {ps : List Part} {o s : State} {a1 a2 a3 a4} (h : Keeps ps o s) (hp : [.regs] ⊆ ps) :
    Keeps ps o (State.setFld s a1 a2 a3 a4) := by
  unfold State.setFld
  repeat' first
    | with_reducible exact h
    | with_reducible assumption
    | with_reducible refine Sub.of hp ?_
    | exact rfl
    | intro _
    | with_reducible apply State.setReg_keeps
    | with_reducible apply AllNext.next
    | with_reducible apply Keeps.ite
    | with_reducible apply AllNext.ite
    | with_reducible apply Keeps.foldl
    | with_reducible apply Keeps.foldN
    | with_reducible apply Keeps.foldr
    | with_reducible apply Keeps.foldlFst
    | split
    | dsimp only
    | assumption

theorem State.satAdd_keeps {ps : List Part} {o s : State} {a1 a2 a3 a4} (h : Keeps ps o s) (hp : [.regs] ⊆ ps) :
    Keeps ps o (State.satAdd s a1 a2 a3 a4) := by
  unfold State.satAdd
  repeat' first
    | with_reducible exact h
    | with_reducible assumption
    | with_reducible refine Sub.of hp ?_
    | exact rfl
    | intro _
    | with_reducible apply State.setFld_keeps
    | with_reducible apply AllNext.next
    | with_reducible apply Keeps.ite
    | with_reducible apply AllNext.ite
    | with_reducible apply Keeps.foldl
    | with_reducible apply Keeps.foldN
    | with_reducible apply Keeps.foldr
    | with_reducible apply Keeps.foldlFst
    | split
    | dsimp only
    | assumption

theorem State.wrapInc_keeps {ps : List Part} {o s : State} {a1 a2 a3} (h : Keeps ps o s) (hp : [.regs] ⊆ ps) :
    Keeps ps o (State.wrapInc s a1 a2 a3) := by
  unfold State.wrapInc
  repeat' first
    | with_reducible exact h
    | with_reducible assumption
    | with_reducible refine Sub.of hp ?_
    | exact rfl
    | intro _
    | with_reducible apply State.setFld_keeps
    | with_reducible apply AllNext.next
    | with_reducible apply Keeps.ite
    | with_reducible apply AllNext.ite
    | with_reducible apply Keeps.foldl
    | with_reducible apply Keeps.foldN
    | with_reducible apply Keeps.foldr
    | with_reducible apply Keeps.foldlFst
    | split
    | dsimp only
    | assumption

theorem State.orReg_keeps {ps : List Part} {o s : State} {a1 a2} (h : Keeps ps o s) (hp : [.regs] ⊆ ps) :
    Keeps ps o (State.orReg s a1 a2) := by
  unfold State.orReg
  repeat' first
    | with_reducible exact h
    | with_reducible assumption
    | with_reducible refine Sub.of hp ?_
    | exact rfl
    | intro _
    | with_reducible apply State.setReg_keeps
    | with_reducible apply AllNext.next
    | with_reducible apply Keeps.ite
    | with_reducible apply AllNext.ite
    | with_reducible apply Keeps.foldl
    | with_reducible apply Keeps.foldN
    | with_reducible apply Keeps.foldr
    | with_reducible apply Keeps.foldlFst
    | split
    | with_reducible apply Keeps.hwSets
    | dsimp only
    | assumption

theorem State.setBit_keeps {ps : List Part} {o s : State} {a1 a2} (h : Keeps ps o s) (hp : [.regs] ⊆ ps) :
    Keeps ps o (State.setBit s a1 a2) := by
  unfold State.setBit
  repeat' first
    | with_reducible exact h
    | with_reducible assumption
    | with_reducible refine Sub.of hp ?_
    | exact rfl
    | intro _
    | with_reducible apply State.orReg_keeps
    | with_reducible apply AllNext.next
    | with_reducible apply Keeps.ite
    | with_reducible apply AllNext.ite
    | with_reducible apply Keeps.foldl
    | with_reducible apply Keeps.foldN
    | with_reducible apply Keeps.foldr
    | with_reducible apply Keeps.foldlFst
    | split
    | dsimp only
    | assumption

theorem State.withBarge_keeps {ps : List Part} {o s : State} {a1} {f} (hf : ∀ x, Keeps ps o (f x)) (h : Keeps ps o s) :
    Keeps ps o (State.withBarge s a1 f) := by
  unfold State.withBarge
  repeat' first
    | with_reducible exact h
    | with_reducible assumption
    | intro _
    | with_reducible apply hf
    | with_reducible apply AllNext.next
    | with_reducible apply Keeps.ite
    | with_reducible apply AllNext.ite
    | with_reducible apply Keeps.foldl
    | with_reducible apply Keeps.foldN
    | with_reducible apply Keeps.foldr
    | with_reducible apply Keeps.foldlFst
    | split
    | dsimp only
    | assumption

theorem State.free_keeps {ps : List Part} {o s : State} (h : Keeps ps o s) :
    Keeps ps o (State.free s).2 := by
  unfold State.free
  repeat' first
    | with_reducible exact h
    | with_reducible assumption
    | intro _
    | with_reducible apply AllNext.next
    | with_reducible apply Keeps.ite
    | with_reducible apply AllNext.ite
    | with_reducible apply Keeps.foldl
    | with_reducible apply Keeps.foldN
    | with_reducible apply Keeps.foldr
    | with_reducible apply Keeps.foldlFst
    | split
    | with_reducible apply Keeps.freeIdx
    | dsimp only
    | assumption

theorem State.raiseSyn_keeps {ps : List Part} {o s : State} {a1 a2 a3 a4} (h : Keeps ps o s) (hp : [.bc] ⊆ ps) :
    Keeps ps o (State.raiseSyn s a1 a2 a3 a4) := by
  unfold State.raiseSyn
  repeat' first
    | with_reducible exact h
    | with_reducible assumption
    | with_reducible refine Sub.of hp ?_
    | exact rfl
    | intro _
    | with_reducible apply AllNext.next
    | with_reducible apply Keeps.ite
    | with_reducible apply AllNext.ite
    | with_reducible apply Keeps.foldl
    | with_reducible apply Keeps.foldN
    | with_reducible apply Keeps.foldr
    | with_reducible apply Keeps.foldlFst
    | split
    | with_reducible apply Keeps.bc
    | dsimp only
    | assumption

theorem State.raiseOn_keeps {ps : List Part} {o s : State} {a1 a2 a3} (h : Keeps ps o s) (hp : [.bc] ⊆ ps) :
    Keeps ps o (State.raiseOn s a1 a2 a3) := by
  unfold State.raiseOn
  repeat' first
    | with_reducible exact h
    | with_reducible assumption
    | with_reducible refine Sub.of hp ?_
    | exact rfl
    | intro _
    | with_reducible apply State.free_keeps
    | with_reducible apply State.raiseSyn_keeps
    | with_reducible apply AllNext.next
    | with_reducible apply Keeps.ite
    | with_reducible apply AllNext.ite
    | with_reducible apply Keeps.foldl
    | with_reducible apply Keeps.foldN
    | with_reducible apply Keeps.foldr
    | with_reducible apply Keeps.foldlFst
    | split
    | dsimp only
    | assumption

theorem State.raiseFor_keeps {ps : List Part} {o s : State} {a1 a2} (h : Keeps ps o s) (hp : [.bc] ⊆ ps) :
    Keeps ps o (State.raiseFor s a1 a2) := by
  unfold State.raiseFor
  repeat' first
    | with_reducible exact h
    | with_reducible assumption
    | with_reducible refine Sub.of hp ?_
    | exact rfl
    | intro _
    | with_reducible apply State.raiseOn_keeps
    | with_reducible apply AllNext.next
    | with_reducible apply Keeps.ite
    | with_reducible apply AllNext.ite
    | with_reducible apply Keeps.foldl
    | with_reducible apply Keeps.foldN
    | with_reducible apply Keeps.foldr
    | with_reducible apply Keeps.foldlFst
    | split
    | dsimp only
    | assumption

theorem State.raise_keeps {ps : List Part} {o s : State} {a1 a2} (h : Keeps ps o s) (hp : [.bc] ⊆ ps) :
    Keeps ps o (State.raise s a1 a2) := by
  unfold State.raise
  repeat' first
    | with_reducible exact h
    | with_reducible assumption
    | with_reducible refine Sub.of hp ?_
    | exact rfl
    | intro _
    | with_reducible apply State.raiseOn_keeps
    | with_reducible apply AllNext.next
    | with_reducible apply Keeps.ite
    | with_reducible apply AllNext.ite
    | with_reducible apply Keeps.foldl
    | with_reducible apply Keeps.foldN
    | with_reducible apply Keeps.foldr
    | with_reducible apply Keeps.foldlFst
    | split
    | dsimp only
    | assumption

theorem State.busOk_keeps {ps : List Part} {o s : State} {a1} (h : Keeps ps o s) (hp : [.bus] ⊆ ps) :
    Keeps ps o (State.busOk s a1) := by
  unfold State.busOk
  repeat' first
    | with_reducible exact h
    | with_reducible assumption
    | with_reducible refine Sub.of hp ?_
    | exact rfl
    | intro _
    | with_reducible apply AllNext.next
    | with_reducible apply Keeps.ite
    | with_reducible apply AllNext.ite
    | with_reducible apply Keeps.foldl
    | with_reducible apply Keeps.foldN
    | with_reducible apply Keeps.foldr
    | with_reducible apply Keeps.foldlFst
    | split
    | with_reducible apply Keeps.bus
    | dsimp only
    | assumption

theorem State.busError_keeps {ps : List Part} {o s : State} {a1} (h : Keeps ps o s) (hp : [.bus, .bc] ⊆ ps) :
    Keeps ps o (State.busError s a1) := by
  unfold State.busError
  repeat' first
    | with_reducible exact h
    | with_reducible assumption
    | with_reducible refine Sub.of hp ?_
    | exact rfl
    | intro _
    | with_reducible apply State.raise_keeps
    | with_reducible apply AllNext.next
    | with_reducible apply Keeps.ite
    | with_reducible apply AllNext.ite
    | with_reducible apply Keeps.foldl
    | with_reducible apply Keeps.foldN
    | with_reducible apply Keeps.foldr
    | with_reducible apply Keeps.foldlFst
    | split
    | with_reducible apply Keeps.bus
    | dsimp only
    | assumption

theorem State.refuse_keeps {ps : List Part} {o s : State} {a1} (h : Keeps ps o s) (hp : [.bus, .bc] ⊆ ps) :
    Keeps ps o (State.refuse s a1) := by
  unfold State.refuse
  repeat' first
    | with_reducible exact h
    | with_reducible assumption
    | with_reducible refine Sub.of hp ?_
    | exact rfl
    | intro _
    | with_reducible apply State.raise_keeps
    | with_reducible apply State.busError_keeps
    | with_reducible apply AllNext.next
    | with_reducible apply Keeps.ite
    | with_reducible apply AllNext.ite
    | with_reducible apply Keeps.foldl
    | with_reducible apply Keeps.foldN
    | with_reducible apply Keeps.foldr
    | with_reducible apply Keeps.foldlFst
    | split
    | dsimp only
    | assumption

theorem State.keeperWrite_keeps {ps : List Part} {o s : State} {a1} {f} (hf : ∀ x, Keeps ps o x → Keeps ps o (f x)) (h : Keeps ps o s) (hp : [.bus, .bc] ⊆ ps) :
    Keeps ps o (State.keeperWrite s a1 f) := by
  unfold State.keeperWrite
  repeat' first
    | with_reducible exact h
    | with_reducible assumption
    | with_reducible refine Sub.of hp ?_
    | exact rfl
    | intro _
    | with_reducible apply State.refuse_keeps
    | with_reducible apply State.busOk_keeps
    | with_reducible apply hf
    | with_reducible apply AllNext.next
    | with_reducible apply Keeps.ite
    | with_reducible apply AllNext.ite
    | with_reducible apply Keeps.foldl
    | with_reducible apply Keeps.foldN
    | with_reducible apply Keeps.foldr
    | with_reducible apply Keeps.foldlFst
    | split
    | dsimp only
    | assumption

theorem State.level_keeps {ps : List Part} {o s : State} {a1 a2} (h : Keeps ps o s) (hp : [.bc] ⊆ ps) :
    Keeps ps o (State.level s a1 a2) := by
  unfold State.level
  repeat' first
    | with_reducible exact h
    | with_reducible assumption
    | with_reducible refine Sub.of hp ?_
    | exact rfl
    | intro _
    | with_reducible apply State.raise_keeps
    | with_reducible apply AllNext.next
    | with_reducible apply Keeps.ite
    | with_reducible apply AllNext.ite
    | with_reducible apply Keeps.foldl
    | with_reducible apply Keeps.foldN
    | with_reducible apply Keeps.foldr
    | with_reducible apply Keeps.foldlFst
    | split
    | with_reducible apply Keeps.bc
    | dsimp only
    | assumption

theorem State.clearReg_keeps {ps : List Part} {o s : State} {a1 a2} (h : Keeps ps o s) (hp : [.regs] ⊆ ps) :
    Keeps ps o (State.clearReg s a1 a2) := by
  unfold State.clearReg
  repeat' first
    | with_reducible exact h
    | with_reducible assumption
    | with_reducible refine Sub.of hp ?_
    | exact rfl
    | intro _
    | with_reducible apply State.setReg_keeps
    | with_reducible apply AllNext.next
    | with_reducible apply Keeps.ite
    | with_reducible apply AllNext.ite
    | with_reducible apply Keeps.foldl
    | with_reducible apply Keeps.foldN
    | with_reducible apply Keeps.foldr
    | with_reducible apply Keeps.foldlFst
    | split
    | dsimp only
    | assumption

theorem State.openWrite_keeps {ps : List Part} {o s : State} {a1 a2} {f} (hf : ∀ x, Keeps ps o x → Keeps ps o (f x)) (h : Keeps ps o s) (hp : [.bus, .bc] ⊆ ps) :
    Keeps ps o (State.openWrite s a1 a2 f) := by
  unfold State.openWrite
  repeat' first
    | with_reducible exact h
    | with_reducible assumption
    | with_reducible refine Sub.of hp ?_
    | exact rfl
    | intro _
    | with_reducible apply State.refuse_keeps
    | with_reducible apply State.busOk_keeps
    | with_reducible apply hf
    | with_reducible apply AllNext.next
    | with_reducible apply Keeps.ite
    | with_reducible apply AllNext.ite
    | with_reducible apply Keeps.foldl
    | with_reducible apply Keeps.foldN
    | with_reducible apply Keeps.foldr
    | with_reducible apply Keeps.foldlFst
    | split
    | dsimp only
    | assumption

theorem State.setReg64_keeps {ps : List Part} {o s : State} {a1 a2} (h : Keeps ps o s) (hp : [.regs] ⊆ ps) :
    Keeps ps o (State.setReg64 s a1 a2) := by
  unfold State.setReg64
  repeat' first
    | with_reducible exact h
    | with_reducible assumption
    | with_reducible refine Sub.of hp ?_
    | exact rfl
    | intro _
    | with_reducible apply State.setReg_keeps
    | with_reducible apply AllNext.next
    | with_reducible apply Keeps.ite
    | with_reducible apply AllNext.ite
    | with_reducible apply Keeps.foldl
    | with_reducible apply Keeps.foldN
    | with_reducible apply Keeps.foldr
    | with_reducible apply Keeps.foldlFst
    | split
    | dsimp only
    | assumption

theorem State.draw_keeps {ps : List Part} {o s : State} (h : Keeps ps o s) :
    Keeps ps o (State.draw s).2 := by
  unfold State.draw
  repeat' first
    | with_reducible exact h
    | with_reducible assumption
    | intro _
    | with_reducible apply AllNext.next
    | with_reducible apply Keeps.ite
    | with_reducible apply AllNext.ite
    | with_reducible apply Keeps.foldl
    | with_reducible apply Keeps.foldN
    | with_reducible apply Keeps.foldr
    | with_reducible apply Keeps.foldlFst
    | split
    | with_reducible apply Keeps.draws
    | dsimp only
    | assumption

end Sys2Proof.Machine
end

