-- ==== Sys2Proof/Laws/KeepsCounters.lean ====
section
/-! SUPPORT. Laws/KeepsCounters.lean: which parts of the state each operation of Machine/Counters.lean can change. -/

namespace Sys2Proof.Machine

theorem updLn_keeps {ps : List Part} {o s : State} {a1} (h : Keeps ps o s) (hp : [.ln] ⊆ ps) :
    Keeps ps o (updLn s a1) := by
  unfold updLn
  repeat' first
    | with_reducible exact h
    | with_reducible assumption
    | with_reducible refine Sub.of hp ?_
    | exact rfl
    | intro _
    | with_reducible apply AllNext.next
    | with_reducible apply Keeps.ite
    | with_reducible apply AllNext.ite
    | with_reducible apply Keeps.foldl
    | with_reducible apply Keeps.foldN
    | with_reducible apply Keeps.foldr
    | with_reducible apply Keeps.foldlFst
    | split
    | with_reducible apply Keeps.ln
    | dsimp only
    | assumption

theorem lnAdd_keeps {ps : List Part} {o s : State} {a1 a2 a3} (h : Keeps ps o s) (hp : [.ln, .regs] ⊆ ps) :
    Keeps ps o (lnAdd s a1 a2 a3).1 := by
  unfold lnAdd
  repeat' first
    | with_reducible exact h
    | with_reducible assumption
    | with_reducible refine Sub.of hp ?_
    | exact rfl
    | intro _
    | with_reducible apply State.setBit_keeps
    | with_reducible apply updLn_keeps
    | with_reducible apply AllNext.next
    | with_reducible apply Keeps.ite
    | with_reducible apply AllNext.ite
    | with_reducible apply Keeps.foldl
    | with_reducible apply Keeps.foldN
    | with_reducible apply Keeps.foldr
    | with_reducible apply Keeps.foldlFst
    | split
    | dsimp only
    | assumption

theorem lnCountOn_keeps {ps : List Part} {o s : State} {a1 a2 a3} (h : Keeps ps o s) (hp : [.ln, .regs] ⊆ ps) :
    Keeps ps o (lnCountOn a1 a2 s a3) := by
  unfold lnCountOn
  repeat' first
    | with_reducible exact h
    | with_reducible assumption
    | with_reducible refine Sub.of hp ?_
    | exact rfl
    | intro _
    | with_reducible apply lnAdd_keeps
    | with_reducible apply AllNext.next
    | with_reducible apply Keeps.ite
    | with_reducible apply AllNext.ite
    | with_reducible apply Keeps.foldl
    | with_reducible apply Keeps.foldN
    | with_reducible apply Keeps.foldr
    | with_reducible apply Keeps.foldlFst
    | split
    | dsimp only
    | assumption

theorem lnEvent_keeps {ps : List Part} {o s : State} {a1 a2 a3 a4} (h : Keeps ps o s) (hp : [.ln, .regs] ⊆ ps) :
    Keeps ps o (lnEvent s a1 a2 a3 a4) := by
  unfold lnEvent
  repeat' first
    | with_reducible exact h
    | with_reducible assumption
    | with_reducible refine Sub.of hp ?_
    | exact rfl
    | intro _
    | with_reducible apply lnCountOn_keeps
    | with_reducible apply AllNext.next
    | with_reducible apply Keeps.ite
    | with_reducible apply AllNext.ite
    | with_reducible apply Keeps.foldl
    | with_reducible apply Keeps.foldN
    | with_reducible apply Keeps.foldr
    | with_reducible apply Keeps.foldlFst
    | split
    | dsimp only
    | assumption

theorem lnBytes_keeps {ps : List Part} {o s : State} {a1 a2 a3} (h : Keeps ps o s) (hp : [.ln, .regs] ⊆ ps) :
    Keeps ps o (lnBytes s a1 a2 a3) := by
  unfold lnBytes
  repeat' first
    | with_reducible exact h
    | with_reducible assumption
    | with_reducible refine Sub.of hp ?_
    | exact rfl
    | intro _
    | with_reducible apply lnEvent_keeps
    | with_reducible apply updLn_keeps
    | with_reducible apply AllNext.next
    | with_reducible apply Keeps.ite
    | with_reducible apply AllNext.ite
    | with_reducible apply Keeps.foldl
    | with_reducible apply Keeps.foldN
    | with_reducible apply Keeps.foldr
    | with_reducible apply Keeps.foldlFst
    | split
    | dsimp only
    | assumption

theorem lnErr_keeps {ps : List Part} {o s : State} {a1} (h : Keeps ps o s) (hp : [.ln, .regs] ⊆ ps) :
    Keeps ps o (lnErr s a1) := by
  unfold lnErr
  repeat' first
    | with_reducible exact h
    | with_reducible assumption
    | with_reducible refine Sub.of hp ?_
    | exact rfl
    | intro _
    | with_reducible apply lnEvent_keeps
    | with_reducible apply AllNext.next
    | with_reducible apply Keeps.ite
    | with_reducible apply AllNext.ite
    | with_reducible apply Keeps.foldl
    | with_reducible apply Keeps.foldN
    | with_reducible apply Keeps.foldr
    | with_reducible apply Keeps.foldlFst
    | split
    | dsimp only
    | assumption

theorem lnLevels_keeps {ps : List Part} {o s : State} {a1} (h : Keeps ps o s) (hp : [.ln, .regs] ⊆ ps) :
    Keeps ps o (lnLevels s a1) := by
  unfold lnLevels
  repeat' first
    | with_reducible exact h
    | with_reducible assumption
    | with_reducible refine Sub.of hp ?_
    | exact rfl
    | intro _
    | with_reducible apply lnEvent_keeps
    | with_reducible apply AllNext.next
    | with_reducible apply Keeps.ite
    | with_reducible apply AllNext.ite
    | with_reducible apply Keeps.foldl
    | with_reducible apply Keeps.foldN
    | with_reducible apply Keeps.foldr
    | with_reducible apply Keeps.foldlFst
    | split
    | dsimp only
    | assumption

end Sys2Proof.Machine
end

