-- ==== Sys2Proof/Laws/KeepsBanks.lean ====
section
/-! SUPPORT. Laws/KeepsBanks.lean: which parts of the state each operation of Machine/Banks.lean can change. -/

namespace Sys2Proof.Machine

theorem updHd_keeps {ps : List Part} {o s : State} {a1} (h : Keeps ps o s) (hp : [.hd] ⊆ ps) :
    Keeps ps o (updHd s a1) := by
  unfold updHd
  repeat' first
    | with_reducible exact h
    | with_reducible assumption
    | with_reducible refine Sub.of hp ?_
    | exact rfl
    | intro _
    | with_reducible apply AllNext.next
    | with_reducible apply Keeps.ite
    | with_reducible apply AllNext.ite
    | with_reducible apply Keeps.foldl
    | with_reducible apply Keeps.foldN
    | with_reducible apply Keeps.foldr
    | with_reducible apply Keeps.foldlFst
    | split
    | with_reducible apply Keeps.hd
    | dsimp only
    | assumption

theorem holdUncorrectable_keeps {ps : List Part} {o s : State} {a1} (h : Keeps ps o s) (hp : [.bc, .hd, .ln, .regs] ⊆ ps) :
    Keeps ps o (holdUncorrectable s a1) := by
  unfold holdUncorrectable
  repeat' first
    | with_reducible exact h
    | with_reducible assumption
    | with_reducible refine Sub.of hp ?_
    | exact rfl
    | intro _
    | with_reducible apply State.setBit_keeps
    | with_reducible apply State.raise_keeps
    | with_reducible apply State.setReg_keeps
    | with_reducible apply lnErr_keeps
    | with_reducible apply updHd_keeps
    | with_reducible apply AllNext.next
    | with_reducible apply Keeps.ite
    | with_reducible apply AllNext.ite
    | with_reducible apply Keeps.foldl
    | with_reducible apply Keeps.foldN
    | with_reducible apply Keeps.foldr
    | with_reducible apply Keeps.foldlFst
    | split
    | dsimp only
    | assumption

theorem updBank_keeps {ps : List Part} {o s : State} {a1 a2} (h : Keeps ps o s) (hp : [.bs] ⊆ ps) :
    Keeps ps o (updBank s a1 a2) := by
  unfold updBank
  repeat' first
    | with_reducible exact h
    | with_reducible assumption
    | with_reducible refine Sub.of hp ?_
    | exact rfl
    | intro _
    | with_reducible apply AllNext.next
    | with_reducible apply Keeps.ite
    | with_reducible apply AllNext.ite
    | with_reducible apply Keeps.foldl
    | with_reducible apply Keeps.foldN
    | with_reducible apply Keeps.foldr
    | with_reducible apply Keeps.foldlFst
    | split
    | with_reducible apply Keeps.bs
    | dsimp only
    | assumption

theorem bankCount_keeps {ps : List Part} {o s : State} {a1} (h : Keeps ps o s) (hp : [.bs] ⊆ ps) :
    Keeps ps o (bankCount s a1) := by
  unfold bankCount
  repeat' first
    | with_reducible exact h
    | with_reducible assumption
    | with_reducible refine Sub.of hp ?_
    | exact rfl
    | intro _
    | with_reducible apply updBank_keeps
    | with_reducible apply AllNext.next
    | with_reducible apply Keeps.ite
    | with_reducible apply AllNext.ite
    | with_reducible apply Keeps.foldl
    | with_reducible apply Keeps.foldN
    | with_reducible apply Keeps.foldr
    | with_reducible apply Keeps.foldlFst
    | split
    | dsimp only
    | assumption

theorem holdBytes_keeps {ps : List Part} {o s : State} {a1 a2 a3} (h : Keeps ps o s) (hp : [.ln, .regs] ⊆ ps) :
    Keeps ps o (holdBytes s a1 a2 a3) := by
  unfold holdBytes
  repeat' first
    | with_reducible exact h
    | with_reducible assumption
    | with_reducible refine Sub.of hp ?_
    | exact rfl
    | intro _
    | with_reducible apply lnBytes_keeps
    | with_reducible apply AllNext.next
    | with_reducible apply Keeps.ite
    | with_reducible apply AllNext.ite
    | with_reducible apply Keeps.foldl
    | with_reducible apply Keeps.foldN
    | with_reducible apply Keeps.foldr
    | with_reducible apply Keeps.foldlFst
    | split
    | dsimp only
    | assumption

theorem holdRewritten_keeps {ps : List Part} {o s : State} {a1 a2} (h : Keeps ps o s) (hp : [.hd] ⊆ ps) :
    Keeps ps o (holdRewritten s a1 a2) := by
  unfold holdRewritten
  repeat' first
    | with_reducible exact h
    | with_reducible assumption
    | with_reducible refine Sub.of hp ?_
    | exact rfl
    | intro _
    | with_reducible apply updHd_keeps
    | with_reducible apply AllNext.next
    | with_reducible apply Keeps.ite
    | with_reducible apply AllNext.ite
    | with_reducible apply Keeps.foldl
    | with_reducible apply Keeps.foldN
    | with_reducible apply Keeps.foldr
    | with_reducible apply Keeps.foldlFst
    | split
    | dsimp only
    | assumption

theorem sm3Drop_keeps {ps : List Part} {o s : State} {a1} (h : Keeps ps o s) (hp : [.se] ⊆ ps) :
    Keeps ps o (sm3Drop s a1) := by
  unfold sm3Drop
  repeat' first
    | with_reducible exact h
    | with_reducible assumption
    | with_reducible refine Sub.of hp ?_
    | exact rfl
    | intro _
    | with_reducible apply AllNext.next
    | with_reducible apply Keeps.ite
    | with_reducible apply AllNext.ite
    | with_reducible apply Keeps.foldl
    | with_reducible apply Keeps.foldN
    | with_reducible apply Keeps.foldr
    | with_reducible apply Keeps.foldlFst
    | split
    | with_reducible apply Keeps.se
    | dsimp only
    | assumption

theorem setLibStat_keeps {ps : List Part} {o s : State} {a1 a2} (h : Keeps ps o s) (hp : [.regs] ⊆ ps) :
    Keeps ps o (setLibStat s a1 a2) := by
  unfold setLibStat
  repeat' first
    | with_reducible exact h
    | with_reducible assumption
    | with_reducible refine Sub.of hp ?_
    | exact rfl
    | intro _
    | with_reducible apply State.setFld_keeps
    | with_reducible apply AllNext.next
    | with_reducible apply Keeps.ite
    | with_reducible apply AllNext.ite
    | with_reducible apply Keeps.foldl
    | with_reducible apply Keeps.foldN
    | with_reducible apply Keeps.foldr
    | with_reducible apply Keeps.foldlFst
    | split
    | dsimp only
    | assumption

theorem libraryTouched_keeps {ps : List Part} {o s : State} {a1 a2} (h : Keeps ps o s) (hp : [.sn, .se, .regs] ⊆ ps) :
    Keeps ps o (libraryTouched s a1 a2) := by
  unfold libraryTouched
  repeat' first
    | with_reducible exact h
    | with_reducible assumption
    | with_reducible refine Sub.of hp ?_
    | exact rfl
    | intro _
    | with_reducible apply sm3Drop_keeps
    | with_reducible apply setLibStat_keeps
    | with_reducible apply AllNext.next
    | with_reducible apply Keeps.ite
    | with_reducible apply AllNext.ite
    | with_reducible apply Keeps.foldl
    | with_reducible apply Keeps.foldN
    | with_reducible apply Keeps.foldr
    | with_reducible apply Keeps.foldlFst
    | split
    | with_reducible apply Keeps.sn
    | dsimp only
    | assumption

theorem putHold_keeps {ps : List Part} {o s : State} {a1 a2} (h : Keeps ps o s) (hp : [.sn, .se, .hd, .ln, .regs, .mem] ⊆ ps) :
    Keeps ps o (putHold s a1 a2) := by
  unfold putHold
  repeat' first
    | with_reducible exact h
    | with_reducible assumption
    | with_reducible refine Sub.of hp ?_
    | exact rfl
    | intro _
    | with_reducible apply State.store_keeps
    | with_reducible apply holdBytes_keeps
    | with_reducible apply holdRewritten_keeps
    | with_reducible apply libraryTouched_keeps
    | with_reducible apply AllNext.next
    | with_reducible apply Keeps.ite
    | with_reducible apply AllNext.ite
    | with_reducible apply Keeps.foldl
    | with_reducible apply Keeps.foldN
    | with_reducible apply Keeps.foldr
    | with_reducible apply Keeps.foldlFst
    | split
    | dsimp only
    | assumption

theorem basinRefused_keeps {ps : List Part} {o s : State} (h : Keeps ps o s) (hp : [.bc, .regs] ⊆ ps) :
    Keeps ps o (basinRefused s) := by
  unfold basinRefused
  repeat' first
    | with_reducible exact h
    | with_reducible assumption
    | with_reducible refine Sub.of hp ?_
    | exact rfl
    | intro _
    | with_reducible apply State.setBit_keeps
    | with_reducible apply State.raise_keeps
    | with_reducible apply AllNext.next
    | with_reducible apply Keeps.ite
    | with_reducible apply AllNext.ite
    | with_reducible apply Keeps.foldl
    | with_reducible apply Keeps.foldN
    | with_reducible apply Keeps.foldr
    | with_reducible apply Keeps.foldlFst
    | split
    | dsimp only
    | assumption

theorem basinUncorrectable_keeps {ps : List Part} {o s : State} {a1} (h : Keeps ps o s) (hp : [.bc, .regs] ⊆ ps) :
    Keeps ps o (basinUncorrectable s a1) := by
  unfold basinUncorrectable
  repeat' first
    | with_reducible exact h
    | with_reducible assumption
    | with_reducible refine Sub.of hp ?_
    | exact rfl
    | intro _
    | with_reducible apply State.setReg_keeps
    | with_reducible apply State.raise_keeps
    | with_reducible apply AllNext.next
    | with_reducible apply Keeps.ite
    | with_reducible apply AllNext.ite
    | with_reducible apply Keeps.foldl
    | with_reducible apply Keeps.foldN
    | with_reducible apply Keeps.foldr
    | with_reducible apply Keeps.foldlFst
    | split
    | dsimp only
    | assumption

theorem basinCorrected_keeps {ps : List Part} {o s : State} (h : Keeps ps o s) (hp : [.bc, .regs] ⊆ ps) :
    Keeps ps o (basinCorrected s) := by
  unfold basinCorrected
  repeat' first
    | with_reducible exact h
    | with_reducible assumption
    | with_reducible refine Sub.of hp ?_
    | exact rfl
    | intro _
    | with_reducible apply State.satAdd_keeps
    | with_reducible apply State.raise_keeps
    | with_reducible apply AllNext.next
    | with_reducible apply Keeps.ite
    | with_reducible apply AllNext.ite
    | with_reducible apply Keeps.foldl
    | with_reducible apply Keeps.foldN
    | with_reducible apply Keeps.foldr
    | with_reducible apply Keeps.foldlFst
    | split
    | dsimp only
    | assumption

theorem sm3Ask_keeps {ps : List Part} {o s : State} {a1} (h : Keeps ps o s) (hp : [.se] ⊆ ps) :
    Keeps ps o (sm3Ask s a1) := by
  unfold sm3Ask
  repeat' first
    | with_reducible exact h
    | with_reducible assumption
    | with_reducible refine Sub.of hp ?_
    | exact rfl
    | intro _
    | with_reducible apply AllNext.next
    | with_reducible apply Keeps.ite
    | with_reducible apply AllNext.ite
    | with_reducible apply Keeps.foldl
    | with_reducible apply Keeps.foldN
    | with_reducible apply Keeps.foldr
    | with_reducible apply Keeps.foldlFst
    | split
    | with_reducible apply Keeps.se
    | dsimp only
    | assumption

theorem holdCorrected_keeps {ps : List Part} {o s : State} {a1} (h : Keeps ps o s) (hp : [.bc, .ln, .regs] ⊆ ps) :
    Keeps ps o (holdCorrected s a1) := by
  unfold holdCorrected
  repeat' first
    | with_reducible exact h
    | with_reducible assumption
    | with_reducible refine Sub.of hp ?_
    | exact rfl
    | intro _
    | with_reducible apply lnErr_keeps
    | with_reducible apply State.satAdd_keeps
    | with_reducible apply State.raise_keeps
    | with_reducible apply AllNext.next
    | with_reducible apply Keeps.ite
    | with_reducible apply AllNext.ite
    | with_reducible apply Keeps.foldl
    | with_reducible apply Keeps.foldN
    | with_reducible apply Keeps.foldr
    | with_reducible apply Keeps.foldlFst
    | split
    | dsimp only
    | assumption

theorem holdRefusal_keeps {ps : List Part} {o s : State} (h : Keeps ps o s) (hp : [.bc, .regs] ⊆ ps) :
    Keeps ps o (holdRefusal s) := by
  unfold holdRefusal
  repeat' first
    | with_reducible exact h
    | with_reducible assumption
    | with_reducible refine Sub.of hp ?_
    | exact rfl
    | intro _
    | with_reducible apply State.setBit_keeps
    | with_reducible apply State.raise_keeps
    | with_reducible apply AllNext.next
    | with_reducible apply Keeps.ite
    | with_reducible apply AllNext.ite
    | with_reducible apply Keeps.foldl
    | with_reducible apply Keeps.foldN
    | with_reducible apply Keeps.foldr
    | with_reducible apply Keeps.foldlFst
    | split
    | dsimp only
    | assumption

theorem bankRefusal_keeps {ps : List Part} {o s : State} {a1 a2 a3 a4} (h : Keeps ps o s) (hp : [.bc, .bs, .regs] ⊆ ps) :
    Keeps ps o (bankRefusal s a1 a2 a3 a4) := by
  unfold bankRefusal
  repeat' first
    | with_reducible exact h
    | with_reducible assumption
    | with_reducible refine Sub.of hp ?_
    | exact rfl
    | intro _
    | with_reducible apply basinRefused_keeps
    | with_reducible apply bankCount_keeps
    | with_reducible apply AllNext.next
    | with_reducible apply Keeps.ite
    | with_reducible apply AllNext.ite
    | with_reducible apply Keeps.foldl
    | with_reducible apply Keeps.foldN
    | with_reducible apply Keeps.foldr
    | with_reducible apply Keeps.foldlFst
    | split
    | dsimp only
    | assumption

theorem holdBadRead_keeps {ps : List Part} {o s : State} {a1 a2} (h : Keeps ps o s) (hp : [.bc, .hd, .ln, .regs] ⊆ ps) :
    Keeps ps o (holdBadRead s a1 a2) := by
  unfold holdBadRead
  repeat' first
    | with_reducible exact h
    | with_reducible assumption
    | with_reducible refine Sub.of hp ?_
    | exact rfl
    | intro _
    | with_reducible apply State.free_keeps
    | with_reducible apply holdUncorrectable_keeps
    | with_reducible apply AllNext.next
    | with_reducible apply Keeps.ite
    | with_reducible apply AllNext.ite
    | with_reducible apply Keeps.foldl
    | with_reducible apply Keeps.foldN
    | with_reducible apply Keeps.foldr
    | with_reducible apply Keeps.foldlFst
    | split
    | dsimp only
    | assumption

end Sys2Proof.Machine
end

