-- ==== Sys2Proof/Laws/KeepsRecorder.lean ====
section
/-! SUPPORT. Laws/KeepsRecorder.lean: which parts of the state each operation of Machine/Recorder.lean can change. -/

namespace Sys2Proof.Machine

theorem noteShort_keeps {ps : List Part} {o s : State} (h : Keeps ps o s) (hp : [.regs] ⊆ ps) :
    Keeps ps o (noteShort s) := by
  unfold noteShort
  repeat' first
    | with_reducible exact h
    | with_reducible assumption
    | with_reducible refine Sub.of hp ?_
    | exact rfl
    | intro _
    | with_reducible apply State.setBit_keeps
    | with_reducible apply AllNext.next
    | with_reducible apply Keeps.ite
    | with_reducible apply AllNext.ite
    | with_reducible apply Keeps.foldl
    | with_reducible apply Keeps.foldN
    | with_reducible apply Keeps.foldr
    | with_reducible apply Keeps.foldlFst
    | split
    | dsimp only
    | assumption

theorem slotLost_keeps {ps : List Part} {o s : State} (h : Keeps ps o s) (hp : [.bc, .regs] ⊆ ps) :
    Keeps ps o (slotLost s) := by
  unfold slotLost
  repeat' first
    | with_reducible exact h
    | with_reducible assumption
    | with_reducible refine Sub.of hp ?_
    | exact rfl
    | intro _
    | with_reducible apply State.satAdd_keeps
    | with_reducible apply State.raise_keeps
    | with_reducible apply AllNext.next
    | with_reducible apply Keeps.ite
    | with_reducible apply AllNext.ite
    | with_reducible apply Keeps.foldl
    | with_reducible apply Keeps.foldN
    | with_reducible apply Keeps.foldr
    | with_reducible apply Keeps.foldlFst
    | split
    | dsimp only
    | assumption

theorem writeSlot_keeps {ps : List Part} {o s : State} {a1} (h : Keeps ps o s) (hp : [.sn, .bc, .se, .hd, .ln, .regs, .mem] ⊆ ps) :
    Keeps ps o (writeSlot s a1) := by
  unfold writeSlot
  repeat' first
    | with_reducible exact h
    | with_reducible assumption
    | with_reducible refine Sub.of hp ?_
    | exact rfl
    | intro _
    | with_reducible apply State.setReg_keeps
    | with_reducible apply putHold_keeps
    | with_reducible apply noteShort_keeps
    | with_reducible apply holdRefusal_keeps
    | with_reducible apply slotLost_keeps
    | with_reducible apply AllNext.next
    | with_reducible apply Keeps.ite
    | with_reducible apply AllNext.ite
    | with_reducible apply Keeps.foldl
    | with_reducible apply Keeps.foldN
    | with_reducible apply Keeps.foldr
    | with_reducible apply Keeps.foldlFst
    | split
    | with_reducible apply Keeps.hd
    | dsimp only
    | assumption

theorem logSlot_keeps {ps : List Part} {o s : State} {a1} (h : Keeps ps o s) (hp : [.sn, .bc, .se, .hd, .ln, .regs, .mem] ⊆ ps) :
    Keeps ps o (logSlot s a1) := by
  unfold logSlot
  repeat' first
    | with_reducible exact h
    | with_reducible assumption
    | with_reducible refine Sub.of hp ?_
    | exact rfl
    | intro _
    | with_reducible apply writeSlot_keeps
    | with_reducible apply AllNext.next
    | with_reducible apply Keeps.ite
    | with_reducible apply AllNext.ite
    | with_reducible apply Keeps.foldl
    | with_reducible apply Keeps.foldN
    | with_reducible apply Keeps.foldr
    | with_reducible apply Keeps.foldlFst
    | split
    | with_reducible apply Keeps.hd
    | dsimp only
    | assumption

theorem logNotice_keeps {ps : List Part} {o s : State} {a1} (h : Keeps ps o s) (hp : [.sn, .bc, .se, .hd, .ln, .regs, .mem] ⊆ ps) :
    Keeps ps o (logNotice s a1) := by
  unfold logNotice
  repeat' first
    | with_reducible exact h
    | with_reducible assumption
    | with_reducible refine Sub.of hp ?_
    | exact rfl
    | intro _
    | with_reducible apply logSlot_keeps
    | with_reducible apply AllNext.next
    | with_reducible apply Keeps.ite
    | with_reducible apply AllNext.ite
    | with_reducible apply Keeps.foldl
    | with_reducible apply Keeps.foldN
    | with_reducible apply Keeps.foldr
    | with_reducible apply Keeps.foldlFst
    | split
    | dsimp only
    | assumption

theorem logEvent_keeps {ps : List Part} {o s : State} {a1 a2 a3 a4 a5 a6} (h : Keeps ps o s) (hp : [.sn, .bc, .se, .hd, .ln, .regs, .mem] ⊆ ps) :
    Keeps ps o (logEvent s a1 a2 a3 a4 a5 a6) := by
  unfold logEvent
  repeat' first
    | with_reducible exact h
    | with_reducible assumption
    | with_reducible refine Sub.of hp ?_
    | exact rfl
    | intro _
    | with_reducible apply logSlot_keeps
    | with_reducible apply AllNext.next
    | with_reducible apply Keeps.ite
    | with_reducible apply AllNext.ite
    | with_reducible apply Keeps.foldl
    | with_reducible apply Keeps.foldN
    | with_reducible apply Keeps.foldr
    | with_reducible apply Keeps.foldlFst
    | split
    | dsimp only
    | assumption

theorem logRecord_keeps {ps : List Part} {o s : State} {a1} (h : Keeps ps o s) (hp : [.sn, .bc, .se, .hd, .ln, .regs, .mem] ⊆ ps) :
    Keeps ps o (logRecord s a1) := by
  unfold logRecord
  repeat' first
    | with_reducible exact h
    | with_reducible assumption
    | with_reducible refine Sub.of hp ?_
    | exact rfl
    | intro _
    | with_reducible apply logSlot_keeps
    | with_reducible apply AllNext.next
    | with_reducible apply Keeps.ite
    | with_reducible apply AllNext.ite
    | with_reducible apply Keeps.foldl
    | with_reducible apply Keeps.foldN
    | with_reducible apply Keeps.foldr
    | with_reducible apply Keeps.foldlFst
    | split
    | dsimp only
    | assumption

theorem logDelivery_keeps {ps : List Part} {o s : State} {a1 a2 a3} (h : Keeps ps o s) (hp : [.sn, .bc, .se, .hd, .ln, .regs, .mem] ⊆ ps) :
    Keeps ps o (logDelivery s a1 a2 a3) := by
  unfold logDelivery
  repeat' first
    | with_reducible exact h
    | with_reducible assumption
    | with_reducible refine Sub.of hp ?_
    | exact rfl
    | intro _
    | with_reducible apply logSlot_keeps
    | with_reducible apply AllNext.next
    | with_reducible apply Keeps.ite
    | with_reducible apply AllNext.ite
    | with_reducible apply Keeps.foldl
    | with_reducible apply Keeps.foldN
    | with_reducible apply Keeps.foldr
    | with_reducible apply Keeps.foldlFst
    | split
    | dsimp only
    | assumption

end Sys2Proof.Machine
end

