-- ==== Sys2Proof/Laws/KeepsFlow.lean ====
section
/-! SUPPORT. Laws/KeepsFlow.lean: which parts of the state each operation of Machine/Flow.lean can change. -/

namespace Sys2Proof.Machine

theorem updEntry_keeps {ps : List Part} {o s : State} {a1 a2} (h : Keeps ps o s) (hp : [.barges, .lc] ⊆ ps) :
    Keeps ps o (updEntry s a1 a2) := by
  unfold updEntry
  repeat' first
    | with_reducible exact h
    | with_reducible assumption
    | with_reducible refine Sub.of hp ?_
    | exact rfl
    | intro _
    | with_reducible apply State.updBarge_keeps
    | with_reducible apply AllNext.next
    | with_reducible apply Keeps.ite
    | with_reducible apply AllNext.ite
    | with_reducible apply Keeps.foldl
    | with_reducible apply Keeps.foldN
    | with_reducible apply Keeps.foldr
    | with_reducible apply Keeps.foldlFst
    | split
    | with_reducible apply Keeps.lc
    | dsimp only
    | assumption

theorem settle_keeps {ps : List Part} {o s : State} {a1} (h : Keeps ps o s) (hp : [.barges] ⊆ ps) :
    Keeps ps o (settle s a1) := by
  unfold settle
  repeat' first
    | with_reducible exact h
    | with_reducible assumption
    | with_reducible refine Sub.of hp ?_
    | exact rfl
    | intro _
    | with_reducible apply State.updBarge_keeps
    | with_reducible apply State.withBarge_keeps
    | with_reducible apply AllNext.next
    | with_reducible apply Keeps.ite
    | with_reducible apply AllNext.ite
    | with_reducible apply Keeps.foldl
    | with_reducible apply Keeps.foldN
    | with_reducible apply Keeps.foldr
    | with_reducible apply Keeps.foldlFst
    | split
    | dsimp only
    | assumption

theorem reportAudit_keeps {ps : List Part} {o s : State} {a1 a2} (h : Keeps ps o s) (hp : [.barges] ⊆ ps) :
    Keeps ps o (reportAudit s a1 a2) := by
  unfold reportAudit
  repeat' first
    | with_reducible exact h
    | with_reducible assumption
    | with_reducible refine Sub.of hp ?_
    | exact rfl
    | intro _
    | with_reducible apply State.updBarge_keeps
    | with_reducible apply settle_keeps
    | with_reducible apply AllNext.next
    | with_reducible apply Keeps.ite
    | with_reducible apply AllNext.ite
    | with_reducible apply Keeps.foldl
    | with_reducible apply Keeps.foldN
    | with_reducible apply Keeps.foldr
    | with_reducible apply Keeps.foldlFst
    | split
    | dsimp only
    | assumption

theorem logLate_keeps {ps : List Part} {o s : State} {a1 a2 a3} (h : Keeps ps o s) (hp : [.lc] ⊆ ps) :
    Keeps ps o (logLate s a1 a2 a3) := by
  unfold logLate
  repeat' first
    | with_reducible exact h
    | with_reducible assumption
    | with_reducible refine Sub.of hp ?_
    | exact rfl
    | intro _
    | with_reducible apply AllNext.next
    | with_reducible apply Keeps.ite
    | with_reducible apply AllNext.ite
    | with_reducible apply Keeps.foldl
    | with_reducible apply Keeps.foldN
    | with_reducible apply Keeps.foldr
    | with_reducible apply Keeps.foldlFst
    | split
    | with_reducible apply Keeps.lc
    | dsimp only
    | assumption

theorem logOnce_keeps {ps : List Part} {o s : State} {a1 a2 a3} (h : Keeps ps o s) (hp : [.lc] ⊆ ps) :
    Keeps ps o (logOnce s a1 a2 a3) := by
  unfold logOnce
  repeat' first
    | with_reducible exact h
    | with_reducible assumption
    | with_reducible refine Sub.of hp ?_
    | exact rfl
    | intro _
    | with_reducible apply logLate_keeps
    | with_reducible apply AllNext.next
    | with_reducible apply Keeps.ite
    | with_reducible apply AllNext.ite
    | with_reducible apply Keeps.foldl
    | with_reducible apply Keeps.foldN
    | with_reducible apply Keeps.foldr
    | with_reducible apply Keeps.foldlFst
    | split
    | dsimp only
    | assumption

theorem reporting_keeps {ps : List Part} {o s : State} {a1 a2 a3} {f} (hf : ∀ x, Keeps ps o (f x)) (h : Keeps ps o s) (hp : [.lc] ⊆ ps) :
    Keeps ps o (reporting s a1 a2 a3 f) := by
  unfold reporting
  split
  · split
    · exact logOnce_keeps h (Sub.of hp rfl)
    · exact hf _
  · exact logOnce_keeps h (Sub.of hp rfl)

theorem withEntry_keeps {ps : List Part} {o s : State} {a1} {f} (hf : ∀ x, Keeps ps o (f x)) (h : Keeps ps o s) :
    Keeps ps o (withEntry s a1 f) := by
  unfold withEntry
  repeat' first
    | with_reducible exact h
    | with_reducible assumption
    | intro _
    | with_reducible apply hf
    | with_reducible apply AllNext.next
    | with_reducible apply Keeps.ite
    | with_reducible apply AllNext.ite
    | with_reducible apply Keeps.foldl
    | with_reducible apply Keeps.foldN
    | with_reducible apply Keeps.foldr
    | with_reducible apply Keeps.foldlFst
    | split
    | dsimp only
    | assumption

theorem updPort_keeps {ps : List Part} {o s : State} {a1 a2} (h : Keeps ps o s) (hp : [.mr] ⊆ ps) :
    Keeps ps o (updPort s a1 a2) := by
  unfold updPort
  repeat' first
    | with_reducible exact h
    | with_reducible assumption
    | with_reducible refine Sub.of hp ?_
    | exact rfl
    | intro _
    | with_reducible apply AllNext.next
    | with_reducible apply Keeps.ite
    | with_reducible apply AllNext.ite
    | with_reducible apply Keeps.foldl
    | with_reducible apply Keeps.foldN
    | with_reducible apply Keeps.foldr
    | with_reducible apply Keeps.foldlFst
    | split
    | with_reducible apply Keeps.mr
    | dsimp only
    | assumption

theorem portOff_keeps {ps : List Part} {o s : State} {a1} (h : Keeps ps o s) (hp : [.mr, .regs] ⊆ ps) :
    Keeps ps o (portOff s a1) := by
  unfold portOff
  repeat' first
    | with_reducible exact h
    | with_reducible assumption
    | with_reducible refine Sub.of hp ?_
    | exact rfl
    | intro _
    | with_reducible apply State.setBit_keeps
    | with_reducible apply updPort_keeps
    | with_reducible apply AllNext.next
    | with_reducible apply Keeps.ite
    | with_reducible apply AllNext.ite
    | with_reducible apply Keeps.foldl
    | with_reducible apply Keeps.foldN
    | with_reducible apply Keeps.foldr
    | with_reducible apply Keeps.foldlFst
    | split
    | dsimp only
    | assumption

theorem giveLamp_keeps {ps : List Part} {o s : State} {a1 a2} (h : Keeps ps o s) (hp : [.barges, .lc, .bc, .regs] ⊆ ps) :
    Keeps ps o (giveLamp s a1 a2) := by
  unfold giveLamp
  repeat' first
    | with_reducible exact h
    | with_reducible assumption
    | with_reducible refine Sub.of hp ?_
    | exact rfl
    | intro _
    | with_reducible apply settle_keeps
    | with_reducible apply State.setBit_keeps
    | with_reducible apply State.raiseFor_keeps
    | with_reducible apply State.satAdd_keeps
    | with_reducible apply State.setReg_keeps
    | with_reducible apply State.updBarge_keeps
    | with_reducible apply State.setFld_keeps
    | with_reducible apply logLate_keeps
    | with_reducible apply State.withBarge_keeps
    | with_reducible apply AllNext.next
    | with_reducible apply Keeps.ite
    | with_reducible apply AllNext.ite
    | with_reducible apply Keeps.foldl
    | with_reducible apply Keeps.foldN
    | with_reducible apply Keeps.foldr
    | with_reducible apply Keeps.foldlFst
    | split
    | dsimp only
    | assumption

theorem abandonPort_keeps {ps : List Part} {o s : State} {a1} (h : Keeps ps o s) (hp : [.barges, .lc, .bc, .regs] ⊆ ps) :
    Keeps ps o (abandonPort s a1) := by
  unfold abandonPort
  repeat' first
    | with_reducible exact h
    | with_reducible assumption
    | with_reducible refine Sub.of hp ?_
    | exact rfl
    | intro _
    | with_reducible apply State.updBarge_keeps
    | with_reducible apply giveLamp_keeps
    | with_reducible apply AllNext.next
    | with_reducible apply Keeps.ite
    | with_reducible apply AllNext.ite
    | with_reducible apply Keeps.foldl
    | with_reducible apply Keeps.foldN
    | with_reducible apply Keeps.foldr
    | with_reducible apply Keeps.foldlFst
    | split
    | dsimp only
    | assumption

theorem emptyQueues_keeps {ps : List Part} {o s : State} {a1} (h : Keeps ps o s) (hp : [.mr] ⊆ ps) :
    Keeps ps o (emptyQueues s a1) := by
  unfold emptyQueues
  repeat' first
    | with_reducible exact h
    | with_reducible assumption
    | with_reducible refine Sub.of hp ?_
    | exact rfl
    | intro _
    | with_reducible apply AllNext.next
    | with_reducible apply Keeps.ite
    | with_reducible apply AllNext.ite
    | with_reducible apply Keeps.foldl
    | with_reducible apply Keeps.foldN
    | with_reducible apply Keeps.foldr
    | with_reducible apply Keeps.foldlFst
    | split
    | with_reducible apply Keeps.mr
    | dsimp only
    | assumption

theorem agePort_keeps {ps : List Part} {o s : State} {a1} (h : Keeps ps o s) (hp : [.mr] ⊆ ps) :
    Keeps ps o (agePort s a1) := by
  unfold agePort
  repeat' first
    | with_reducible exact h
    | with_reducible assumption
    | with_reducible refine Sub.of hp ?_
    | exact rfl
    | intro _
    | with_reducible apply AllNext.next
    | with_reducible apply Keeps.ite
    | with_reducible apply AllNext.ite
    | with_reducible apply Keeps.foldl
    | with_reducible apply Keeps.foldN
    | with_reducible apply Keeps.foldr
    | with_reducible apply Keeps.foldlFst
    | split
    | with_reducible apply Keeps.mr
    | dsimp only
    | assumption

theorem lampLoses_keeps {ps : List Part} {o s : State} {a1} (h : Keeps ps o s) (hp : [.bc, .regs] ⊆ ps) :
    Keeps ps o (lampLoses s a1) := by
  unfold lampLoses
  repeat' first
    | with_reducible exact h
    | with_reducible assumption
    | with_reducible refine Sub.of hp ?_
    | exact rfl
    | intro _
    | with_reducible apply State.raise_keeps
    | with_reducible apply State.setFld_keeps
    | with_reducible apply AllNext.next
    | with_reducible apply Keeps.ite
    | with_reducible apply AllNext.ite
    | with_reducible apply Keeps.foldl
    | with_reducible apply Keeps.foldN
    | with_reducible apply Keeps.foldr
    | with_reducible apply Keeps.foldlFst
    | split
    | dsimp only
    | assumption

theorem lampsLose_keeps {ps : List Part} {o s : State} {a1} (h : Keeps ps o s) (hp : [.bc, .regs] ⊆ ps) :
    Keeps ps o (lampsLose s a1) := by
  unfold lampsLose
  repeat' first
    | with_reducible exact h
    | with_reducible assumption
    | with_reducible refine Sub.of hp ?_
    | exact rfl
    | intro _
    | with_reducible apply lampLoses_keeps
    | with_reducible apply AllNext.next
    | with_reducible apply Keeps.ite
    | with_reducible apply AllNext.ite
    | with_reducible apply Keeps.foldl
    | with_reducible apply Keeps.foldN
    | with_reducible apply Keeps.foldr
    | with_reducible apply Keeps.foldlFst
    | split
    | dsimp only
    | assumption

theorem leaveServing_keeps {ps : List Part} {o s : State} {a1} (h : Keeps ps o s) (hp : [.barges, .mr, .lc, .bc, .regs] ⊆ ps) :
    Keeps ps o (leaveServing s a1) := by
  unfold leaveServing
  repeat' first
    | with_reducible exact h
    | with_reducible assumption
    | with_reducible refine Sub.of hp ?_
    | exact rfl
    | intro _
    | with_reducible apply portOff_keeps
    | with_reducible apply abandonPort_keeps
    | with_reducible apply emptyQueues_keeps
    | with_reducible apply agePort_keeps
    | with_reducible apply lampsLose_keeps
    | with_reducible apply AllNext.next
    | with_reducible apply Keeps.ite
    | with_reducible apply AllNext.ite
    | with_reducible apply Keeps.foldl
    | with_reducible apply Keeps.foldN
    | with_reducible apply Keeps.foldr
    | with_reducible apply Keeps.foldlFst
    | split
    | dsimp only
    | assumption

theorem reportTwin_keeps {ps : List Part} {o s : State} {a1 a2} (h : Keeps ps o s) (hp : [.barges] ⊆ ps) :
    Keeps ps o (reportTwin s a1 a2) := by
  unfold reportTwin
  repeat' first
    | with_reducible exact h
    | with_reducible assumption
    | with_reducible refine Sub.of hp ?_
    | exact rfl
    | intro _
    | with_reducible apply State.updBarge_keeps
    | with_reducible apply settle_keeps
    | with_reducible apply AllNext.next
    | with_reducible apply Keeps.ite
    | with_reducible apply AllNext.ite
    | with_reducible apply Keeps.foldl
    | with_reducible apply Keeps.foldN
    | with_reducible apply Keeps.foldr
    | with_reducible apply Keeps.foldlFst
    | split
    | dsimp only
    | assumption

theorem ringRelease_keeps {ps : List Part} {o s : State} {a1} (h : Keeps ps o s) (hp : [.sl] ⊆ ps) :
    Keeps ps o (ringRelease s a1) := by
  unfold ringRelease
  repeat' first
    | with_reducible exact h
    | with_reducible assumption
    | with_reducible refine Sub.of hp ?_
    | exact rfl
    | intro _
    | with_reducible apply AllNext.next
    | with_reducible apply Keeps.ite
    | with_reducible apply AllNext.ite
    | with_reducible apply Keeps.foldl
    | with_reducible apply Keeps.foldN
    | with_reducible apply Keeps.foldr
    | with_reducible apply Keeps.foldlFst
    | split
    | with_reducible apply Keeps.sl
    | dsimp only
    | assumption

theorem finalStats_keeps {ps : List Part} {o s : State} {a1 a2 a3} (h : Keeps ps o s) (hp : [.bc, .regs] ⊆ ps) :
    Keeps ps o (finalStats s a1 a2 a3) := by
  unfold finalStats
  repeat' first
    | with_reducible exact h
    | with_reducible assumption
    | with_reducible refine Sub.of hp ?_
    | exact rfl
    | intro _
    | with_reducible apply State.raiseFor_keeps
    | with_reducible apply State.satAdd_keeps
    | with_reducible apply State.wrapInc_keeps
    | with_reducible apply State.setFld_keeps
    | with_reducible apply State.setBit_keeps
    | with_reducible apply AllNext.next
    | with_reducible apply Keeps.ite
    | with_reducible apply AllNext.ite
    | with_reducible apply Keeps.foldl
    | with_reducible apply Keeps.foldN
    | with_reducible apply Keeps.foldr
    | with_reducible apply Keeps.foldlFst
    | split
    | dsimp only
    | assumption

theorem takeRseq_keeps {ps : List Part} {o s : State} (h : Keeps ps o s) (hp : [.regs] ⊆ ps) :
    Keeps ps o (takeRseq s).2 := by
  unfold takeRseq
  repeat' first
    | with_reducible exact h
    | with_reducible assumption
    | with_reducible refine Sub.of hp ?_
    | exact rfl
    | intro _
    | with_reducible apply State.setReg_keeps
    | with_reducible apply AllNext.next
    | with_reducible apply Keeps.ite
    | with_reducible apply AllNext.ite
    | with_reducible apply Keeps.foldl
    | with_reducible apply Keeps.foldN
    | with_reducible apply Keeps.foldr
    | with_reducible apply Keeps.foldlFst
    | split
    | dsimp only
    | assumption

theorem retag_keeps {ps : List Part} {o s : State} {a1} (h : Keeps ps o s) (hp : [.barges, .sn, .regs] ⊆ ps) :
    Keeps ps o (retag s a1) := by
  unfold retag
  repeat' first
    | with_reducible exact h
    | with_reducible assumption
    | with_reducible refine Sub.of hp ?_
    | exact rfl
    | intro _
    | with_reducible apply State.updBarge_keeps
    | with_reducible apply State.setFld_keeps
    | with_reducible apply State.setReg_keeps
    | with_reducible apply AllNext.next
    | with_reducible apply Keeps.ite
    | with_reducible apply AllNext.ite
    | with_reducible apply Keeps.foldl
    | with_reducible apply Keeps.foldN
    | with_reducible apply Keeps.foldr
    | with_reducible apply Keeps.foldlFst
    | split
    | with_reducible apply Keeps.sn
    | dsimp only
    | assumption

theorem formFinal_keeps {ps : List Part} {o s : State} {a1 a2} (h : Keeps ps o s) (hp : [.barges, .au, .sn, .lc, .bc, .regs] ⊆ ps) :
    Keeps ps o (formFinal s a1 a2) := by
  unfold formFinal
  refine State.withBarge_keeps (fun x => ?_) h
  refine finalStats_keeps (State.updBarge_keeps (Keeps.trans (takeRseq_keeps (retag_keeps h ?_) ?_) ⟨rfl, rfl, rfl, id, fun q hq => ?_⟩) ?_) ?_
  · exact Sub.of hp rfl
  · exact Sub.of hp rfl
  · cases q <;> first | rfl | exact absurd (hp (by simp)) hq
  · exact Sub.of hp rfl
  · exact Sub.of hp rfl

theorem tryPending_keeps {ps : List Part} {o s : State} {a1} (h : Keeps ps o s) (hp : [.barges, .lc, .regs] ⊆ ps) :
    Keeps ps o (tryPending s a1) := by
  unfold tryPending
  repeat' first
    | with_reducible exact h
    | with_reducible assumption
    | with_reducible refine Sub.of hp ?_
    | exact rfl
    | intro _
    | with_reducible apply takeRseq_keeps
    | with_reducible apply State.updBarge_keeps
    | with_reducible apply State.satAdd_keeps
    | with_reducible apply State.withBarge_keeps
    | with_reducible apply AllNext.next
    | with_reducible apply Keeps.ite
    | with_reducible apply AllNext.ite
    | with_reducible apply Keeps.foldl
    | with_reducible apply Keeps.foldN
    | with_reducible apply Keeps.foldr
    | with_reducible apply Keeps.foldlFst
    | split
    | with_reducible apply Keeps.lc
    | dsimp only
    | assumption

theorem ringLow_keeps {ps : List Part} {o s : State} (h : Keeps ps o s) (hp : [.regs] ⊆ ps) :
    Keeps ps o (ringLow s) := by
  unfold ringLow
  repeat' first
    | with_reducible exact h
    | with_reducible assumption
    | with_reducible refine Sub.of hp ?_
    | exact rfl
    | intro _
    | with_reducible apply State.setBit_keeps
    | with_reducible apply AllNext.next
    | with_reducible apply Keeps.ite
    | with_reducible apply AllNext.ite
    | with_reducible apply Keeps.foldl
    | with_reducible apply Keeps.foldN
    | with_reducible apply Keeps.foldr
    | with_reducible apply Keeps.foldlFst
    | split
    | dsimp only
    | assumption

theorem ringWrite_keeps {ps : List Part} {o s : State} {a1 a2 a3} (h : Keeps ps o s) (hp : [.sl, .sn, .se, .hd, .ln, .regs, .mem] ⊆ ps) :
    Keeps ps o (ringWrite s a1 a2 a3) := by
  unfold ringWrite
  repeat' first
    | with_reducible exact h
    | with_reducible assumption
    | with_reducible refine Sub.of hp ?_
    | exact rfl
    | intro _
    | with_reducible apply ringLow_keeps
    | with_reducible apply putHold_keeps
    | with_reducible apply AllNext.next
    | with_reducible apply Keeps.ite
    | with_reducible apply AllNext.ite
    | with_reducible apply Keeps.foldl
    | with_reducible apply Keeps.foldN
    | with_reducible apply Keeps.foldr
    | with_reducible apply Keeps.foldlFst
    | split
    | with_reducible apply Keeps.sl
    | dsimp only
    | assumption

theorem fillSlot_keeps {ps : List Part} {o s : State} {a1 a2 a3 a4} (h : Keeps ps o s) (hp : [.mr] ⊆ ps) :
    Keeps ps o (fillSlot a1 a2 a3 s a4) := by
  unfold fillSlot
  repeat' first
    | with_reducible exact h
    | with_reducible assumption
    | with_reducible refine Sub.of hp ?_
    | exact rfl
    | intro _
    | with_reducible apply AllNext.next
    | with_reducible apply Keeps.ite
    | with_reducible apply AllNext.ite
    | with_reducible apply Keeps.foldl
    | with_reducible apply Keeps.foldN
    | with_reducible apply Keeps.foldr
    | with_reducible apply Keeps.foldlFst
    | split
    | with_reducible apply Keeps.mr
    | dsimp only
    | assumption

theorem takeBarge_keeps {ps : List Part} {o s : State} (h : Keeps ps o s) (hp : [.regs] ⊆ ps) :
    Keeps ps o (takeBarge s).2 := by
  unfold takeBarge
  repeat' first
    | with_reducible exact h
    | with_reducible assumption
    | with_reducible refine Sub.of hp ?_
    | exact rfl
    | intro _
    | with_reducible apply State.setReg_keeps
    | with_reducible apply AllNext.next
    | with_reducible apply Keeps.ite
    | with_reducible apply AllNext.ite
    | with_reducible apply Keeps.foldl
    | with_reducible apply Keeps.foldN
    | with_reducible apply Keeps.foldr
    | with_reducible apply Keeps.foldlFst
    | split
    | dsimp only
    | assumption

theorem openBarge_keeps {ps : List Part} {o s : State} {a1 a2 a3} (h : Keeps ps o s) (hp : [.barges, .regs] ⊆ ps) :
    Keeps ps o (openBarge s a1 a2 a3).2 := by
  unfold openBarge
  repeat' first
    | with_reducible exact h
    | with_reducible assumption
    | with_reducible refine Sub.of hp ?_
    | exact rfl
    | intro _
    | with_reducible apply State.setReg_keeps
    | with_reducible apply takeBarge_keeps
    | with_reducible apply AllNext.next
    | with_reducible apply Keeps.ite
    | with_reducible apply AllNext.ite
    | with_reducible apply Keeps.foldl
    | with_reducible apply Keeps.foldN
    | with_reducible apply Keeps.foldr
    | with_reducible apply Keeps.foldlFst
    | split
    | with_reducible apply Keeps.barges
    | dsimp only
    | assumption

theorem failSet_keeps {ps : List Part} {o s : State} {a1} (h : Keeps ps o s) (hp : [.barges, .bc] ⊆ ps) :
    Keeps ps o (failSet s a1) := by
  unfold failSet
  repeat' first
    | with_reducible exact h
    | with_reducible assumption
    | with_reducible refine Sub.of hp ?_
    | exact rfl
    | intro _
    | with_reducible apply State.updBarge_keeps
    | with_reducible apply State.raiseFor_keeps
    | with_reducible apply settle_keeps
    | with_reducible apply AllNext.next
    | with_reducible apply Keeps.ite
    | with_reducible apply AllNext.ite
    | with_reducible apply Keeps.foldl
    | with_reducible apply Keeps.foldN
    | with_reducible apply Keeps.foldr
    | with_reducible apply Keeps.foldlFst
    | split
    | dsimp only
    | assumption

theorem putMatrix_keeps {ps : List Part} {o s : State} {a1 a2 a3} (h : Keeps ps o s) (hp : [.au, .bc, .bs, .regs, .mem] ⊆ ps) :
    Keeps ps o (putMatrix s a1 a2 a3) := by
  unfold putMatrix
  repeat' first
    | with_reducible exact h
    | with_reducible assumption
    | with_reducible refine Sub.of hp ?_
    | exact rfl
    | intro _
    | with_reducible apply bankRefusal_keeps
    | with_reducible apply State.store_keeps
    | with_reducible apply AllNext.next
    | with_reducible apply Keeps.ite
    | with_reducible apply AllNext.ite
    | with_reducible apply Keeps.foldl
    | with_reducible apply Keeps.foldN
    | with_reducible apply Keeps.foldr
    | with_reducible apply Keeps.foldlFst
    | split
    | with_reducible apply Keeps.au
    | dsimp only
    | assumption

theorem writeMatrices_keeps {ps : List Part} {o s : State} {a1 a2 a3} (h : Keeps ps o s) (hp : [.au, .bc, .bs, .regs, .mem] ⊆ ps) :
    Keeps ps o (writeMatrices s a1 a2 a3) := by
  unfold writeMatrices
  repeat' first
    | with_reducible exact h
    | with_reducible assumption
    | with_reducible refine Sub.of hp ?_
    | exact rfl
    | intro _
    | with_reducible apply putMatrix_keeps
    | with_reducible apply AllNext.next
    | with_reducible apply Keeps.ite
    | with_reducible apply AllNext.ite
    | with_reducible apply Keeps.foldl
    | with_reducible apply Keeps.foldN
    | with_reducible apply Keeps.foldr
    | with_reducible apply Keeps.foldlFst
    | split
    | dsimp only
    | assumption

theorem undeliver_keeps {ps : List Part} {o s : State} {a1 a2} (h : Keeps ps o s) (hp : [.barges, .lc, .bc, .regs] ⊆ ps) :
    Keeps ps o (undeliver s a1 a2) := by
  unfold undeliver
  repeat' first
    | with_reducible exact h
    | with_reducible assumption
    | with_reducible refine Sub.of hp ?_
    | exact rfl
    | intro _
    | with_reducible apply giveLamp_keeps
    | with_reducible apply State.raiseFor_keeps
    | with_reducible apply settle_keeps
    | with_reducible apply State.updBarge_keeps
    | with_reducible apply AllNext.next
    | with_reducible apply Keeps.ite
    | with_reducible apply AllNext.ite
    | with_reducible apply Keeps.foldl
    | with_reducible apply Keeps.foldN
    | with_reducible apply Keeps.foldr
    | with_reducible apply Keeps.foldlFst
    | split
    | dsimp only
    | assumption

theorem deliver_keeps {ps : List Part} {o s : State} {a1} (h : Keeps ps o s) (hp : [.barges, .mr, .au, .sn, .lc, .bc, .se, .hd, .bs, .ln, .regs, .mem] ⊆ ps) :
    Keeps ps o (deliver s a1) := by
  unfold deliver
  repeat' first
    | with_reducible exact h
    | with_reducible assumption
    | with_reducible refine Sub.of hp ?_
    | exact rfl
    | intro _
    | with_reducible apply settle_keeps
    | with_reducible apply writeMatrices_keeps
    | with_reducible apply logDelivery_keeps
    | with_reducible apply State.updBarge_keeps
    | with_reducible apply fillSlot_keeps
    | with_reducible apply undeliver_keeps
    | with_reducible apply State.withBarge_keeps
    | with_reducible apply AllNext.next
    | with_reducible apply Keeps.ite
    | with_reducible apply AllNext.ite
    | with_reducible apply Keeps.foldl
    | with_reducible apply Keeps.foldN
    | with_reducible apply Keeps.foldr
    | with_reducible apply Keeps.foldlFst
    | split
    | with_reducible apply Keeps.sn
    | dsimp only
    | assumption

theorem startSlot_keeps {ps : List Part} {o s : State} {a1 a2} (h : Keeps ps o s) (hp : [.sl, .barges, .mr, .au, .sn, .lc, .bc, .se, .hd, .bs, .ln, .regs, .mem] ⊆ ps) :
    Keeps ps o (startSlot s a1 a2) := by
  unfold startSlot
  repeat' first
    | with_reducible exact h
    | with_reducible assumption
    | with_reducible refine Sub.of hp ?_
    | exact rfl
    | intro _
    | with_reducible apply deliver_keeps
    | with_reducible apply AllNext.next
    | with_reducible apply Keeps.ite
    | with_reducible apply AllNext.ite
    | with_reducible apply Keeps.foldl
    | with_reducible apply Keeps.foldN
    | with_reducible apply Keeps.foldr
    | with_reducible apply Keeps.foldlFst
    | split
    | with_reducible apply Keeps.sl
    | dsimp only
    | assumption

theorem ringRefuse_keeps {ps : List Part} {o s : State} {a1} (h : Keeps ps o s) (hp : [.barges, .bc] ⊆ ps) :
    Keeps ps o (ringRefuse s a1) := by
  unfold ringRefuse
  repeat' first
    | with_reducible exact h
    | with_reducible assumption
    | with_reducible refine Sub.of hp ?_
    | exact rfl
    | intro _
    | with_reducible apply State.updBarge_keeps
    | with_reducible apply State.raiseFor_keeps
    | with_reducible apply settle_keeps
    | with_reducible apply AllNext.next
    | with_reducible apply Keeps.ite
    | with_reducible apply AllNext.ite
    | with_reducible apply Keeps.foldl
    | with_reducible apply Keeps.foldN
    | with_reducible apply Keeps.foldr
    | with_reducible apply Keeps.foldlFst
    | split
    | dsimp only
    | assumption

theorem closeSet_keeps {ps : List Part} {o s : State} {a1 a2} (h : Keeps ps o s) (hp : [.sl, .barges, .mr, .au, .sn, .lc, .bc, .se, .hd, .bs, .ln, .regs, .mem] ⊆ ps) :
    Keeps ps o (closeSet s a1 a2) := by
  unfold closeSet
  repeat' first
    | with_reducible exact h
    | with_reducible assumption
    | with_reducible refine Sub.of hp ?_
    | exact rfl
    | intro _
    | with_reducible apply deliver_keeps
    | with_reducible apply State.raiseFor_keeps
    | with_reducible apply settle_keeps
    | with_reducible apply State.updBarge_keeps
    | with_reducible apply ringWrite_keeps
    | with_reducible apply holdRefusal_keeps
    | with_reducible apply ringRefuse_keeps
    | with_reducible apply State.withBarge_keeps
    | with_reducible apply AllNext.next
    | with_reducible apply Keeps.ite
    | with_reducible apply AllNext.ite
    | with_reducible apply Keeps.foldl
    | with_reducible apply Keeps.foldN
    | with_reducible apply Keeps.foldr
    | with_reducible apply Keeps.foldlFst
    | split
    | dsimp only
    | assumption

theorem releaseLamp_keeps {ps : List Part} {o s : State} {a1 a2} (h : Keeps ps o s) (hp : [.sl, .barges, .mr, .au, .sn, .lc, .bc, .se, .hd, .bs, .ln, .regs, .mem] ⊆ ps) :
    Keeps ps o (releaseLamp s a1 a2) := by
  unfold releaseLamp
  repeat' first
    | with_reducible exact h
    | with_reducible assumption
    | with_reducible refine Sub.of hp ?_
    | exact rfl
    | intro _
    | with_reducible apply startSlot_keeps
    | with_reducible apply takeBarge_keeps
    | with_reducible apply AllNext.next
    | with_reducible apply Keeps.ite
    | with_reducible apply AllNext.ite
    | with_reducible apply Keeps.foldl
    | with_reducible apply Keeps.foldN
    | with_reducible apply Keeps.foldr
    | with_reducible apply Keeps.foldlFst
    | split
    | with_reducible apply Keeps.sl
    | with_reducible apply Keeps.barges
    | dsimp only
    | assumption

end Sys2Proof.Machine
end

