-- ==== Sys2Proof/Laws/KeepsResults.lean ====
section
/-! SUPPORT. Laws/KeepsResults.lean: which parts of the state each operation of Machine/Results.lean can change. -/

namespace Sys2Proof.Machine

theorem auditStat_keeps {ps : List Part} {o s : State} {a1 a2 a3} (h : Keeps ps o s) (hp : [.regs] ⊆ ps) :
    Keeps ps o (auditStat s a1 a2 a3) := by
  unfold auditStat
  repeat' first
    | with_reducible exact h
    | with_reducible assumption
    | with_reducible refine Sub.of hp ?_
    | exact rfl
    | intro _
    | with_reducible apply State.satAdd_keeps
    | with_reducible apply State.wrapInc_keeps
    | with_reducible apply State.setBit_keeps
    | with_reducible apply State.setFld_keeps
    | with_reducible apply AllNext.next
    | with_reducible apply Keeps.ite
    | with_reducible apply AllNext.ite
    | with_reducible apply Keeps.foldl
    | with_reducible apply Keeps.foldN
    | with_reducible apply Keeps.foldr
    | with_reducible apply Keeps.foldlFst
    | split
    | dsimp only
    | assumption

theorem auditFail_keeps {ps : List Part} {o s : State} {a1 a2 a3 a4} (h : Keeps ps o s) (hp : [.regs] ⊆ ps) :
    Keeps ps o (auditFail s a1 a2 a3 a4) := by
  unfold auditFail
  repeat' first
    | with_reducible exact h
    | with_reducible assumption
    | with_reducible refine Sub.of hp ?_
    | exact rfl
    | intro _
    | with_reducible apply State.setReg_keeps
    | with_reducible apply State.setBit_keeps
    | with_reducible apply AllNext.next
    | with_reducible apply Keeps.ite
    | with_reducible apply AllNext.ite
    | with_reducible apply Keeps.foldl
    | with_reducible apply Keeps.foldN
    | with_reducible apply Keeps.foldr
    | with_reducible apply Keeps.foldlFst
    | split
    | dsimp only
    | assumption

theorem giveAudit_keeps {ps : List Part} {o s : State} {a1 a2 a3} (h : Keeps ps o s) (hp : [.barges, .lc, .regs] ⊆ ps) :
    Keeps ps o (giveAudit s a1 a2 a3) := by
  unfold giveAudit
  repeat' first
    | with_reducible exact h
    | with_reducible assumption
    | with_reducible refine Sub.of hp ?_
    | exact rfl
    | intro _
    | with_reducible apply auditStat_keeps
    | with_reducible apply reportAudit_keeps
    | with_reducible apply auditFail_keeps
    | with_reducible apply reporting_keeps
    | with_reducible apply AllNext.next
    | with_reducible apply Keeps.ite
    | with_reducible apply AllNext.ite
    | with_reducible apply Keeps.foldl
    | with_reducible apply Keeps.foldN
    | with_reducible apply Keeps.foldr
    | with_reducible apply Keeps.foldlFst
    | split
    | dsimp only
    | assumption

theorem breach_keeps {ps : List Part} {o s : State} {a1 a2 a3 a4} (h : Keeps ps o s) (hp : [.barges, .lc, .bc, .regs] ⊆ ps) :
    Keeps ps o (breach s a1 a2 a3 a4) := by
  unfold breach
  repeat' first
    | with_reducible exact h
    | with_reducible assumption
    | with_reducible refine Sub.of hp ?_
    | exact rfl
    | intro _
    | with_reducible apply State.setBit_keeps
    | with_reducible apply State.raiseFor_keeps
    | with_reducible apply giveAudit_keeps
    | with_reducible apply State.setReg_keeps
    | with_reducible apply AllNext.next
    | with_reducible apply Keeps.ite
    | with_reducible apply AllNext.ite
    | with_reducible apply Keeps.foldl
    | with_reducible apply Keeps.foldN
    | with_reducible apply Keeps.foldr
    | with_reducible apply Keeps.foldlFst
    | split
    | dsimp only
    | assumption

theorem mnetStat_keeps {ps : List Part} {o s : State} {a1 a2 a3} (h : Keeps ps o s) (hp : [.regs] ⊆ ps) :
    Keeps ps o (mnetStat s a1 a2 a3) := by
  unfold mnetStat
  repeat' first
    | with_reducible exact h
    | with_reducible assumption
    | with_reducible refine Sub.of hp ?_
    | exact rfl
    | intro _
    | with_reducible apply State.satAdd_keeps
    | with_reducible apply State.wrapInc_keeps
    | with_reducible apply State.setFld_keeps
    | with_reducible apply AllNext.next
    | with_reducible apply Keeps.ite
    | with_reducible apply AllNext.ite
    | with_reducible apply Keeps.foldl
    | with_reducible apply Keeps.foldN
    | with_reducible apply Keeps.foldr
    | with_reducible apply Keeps.foldlFst
    | split
    | dsimp only
    | assumption

theorem mirrorFail_keeps {ps : List Part} {o s : State} {a1 a2 a3 a4 a5} (h : Keeps ps o s) (hp : [.regs] ⊆ ps) :
    Keeps ps o (mirrorFail s a1 a2 a3 a4 a5) := by
  unfold mirrorFail
  repeat' first
    | with_reducible exact h
    | with_reducible assumption
    | with_reducible refine Sub.of hp ?_
    | exact rfl
    | intro _
    | with_reducible apply State.setReg_keeps
    | with_reducible apply AllNext.next
    | with_reducible apply Keeps.ite
    | with_reducible apply AllNext.ite
    | with_reducible apply Keeps.foldl
    | with_reducible apply Keeps.foldN
    | with_reducible apply Keeps.foldr
    | with_reducible apply Keeps.foldlFst
    | split
    | dsimp only
    | assumption

theorem giveLampTwin_keeps {ps : List Part} {o s : State} {a1 a2 a3 a4 a5 a6} (h : Keeps ps o s) (hp : [.barges, .lc, .bc, .regs] ⊆ ps) :
    Keeps ps o (giveLampTwin s a1 a2 a3 a4 a5 a6) := by
  unfold giveLampTwin
  repeat' first
    | with_reducible exact h
    | with_reducible assumption
    | with_reducible refine Sub.of hp ?_
    | exact rfl
    | intro _
    | with_reducible apply State.setFld_keeps
    | with_reducible apply giveLamp_keeps
    | with_reducible apply mirrorFail_keeps
    | with_reducible apply State.updBarge_keeps
    | with_reducible apply AllNext.next
    | with_reducible apply Keeps.ite
    | with_reducible apply AllNext.ite
    | with_reducible apply Keeps.foldl
    | with_reducible apply Keeps.foldN
    | with_reducible apply Keeps.foldr
    | with_reducible apply Keeps.foldlFst
    | split
    | dsimp only
    | assumption

theorem giveTwin_keeps {ps : List Part} {o s : State} {a1 a2 a3 a4 a5} (h : Keeps ps o s) (hp : [.barges, .lc, .bc, .regs] ⊆ ps) :
    Keeps ps o (giveTwin s a1 a2 a3 a4 a5) := by
  unfold giveTwin
  repeat' first
    | with_reducible exact h
    | with_reducible assumption
    | with_reducible refine Sub.of hp ?_
    | exact rfl
    | intro _
    | with_reducible apply mnetStat_keeps
    | with_reducible apply reportTwin_keeps
    | with_reducible apply mirrorFail_keeps
    | with_reducible apply giveLampTwin_keeps
    | with_reducible apply reporting_keeps
    | with_reducible apply AllNext.next
    | with_reducible apply Keeps.ite
    | with_reducible apply AllNext.ite
    | with_reducible apply Keeps.foldl
    | with_reducible apply Keeps.foldN
    | with_reducible apply Keeps.foldr
    | with_reducible apply Keeps.foldlFst
    | split
    | dsimp only
    | assumption

end Sys2Proof.Machine
end

