-- ==== Sys2Proof/Laws/KeepsWindows.lean ====
section
/-! SUPPORT. Laws/KeepsWindows.lean: which parts of the state each operation of Machine/Windows.lean can change. -/

namespace Sys2Proof.Machine

theorem linkEvent_keeps {ps : List Part} {o s : State} {a1} (h : Keeps ps o s) (hp : [.bc, .ln, .regs] ⊆ ps) :
    Keeps ps o (linkEvent s a1) := by
  unfold linkEvent
  repeat' first
    | with_reducible exact h
    | with_reducible assumption
    | with_reducible refine Sub.of hp ?_
    | exact rfl
    | intro _
    | with_reducible apply lnErr_keeps
    | with_reducible apply State.raise_keeps
    | with_reducible apply AllNext.next
    | with_reducible apply Keeps.ite
    | with_reducible apply AllNext.ite
    | with_reducible apply Keeps.foldl
    | with_reducible apply Keeps.foldN
    | with_reducible apply Keeps.foldr
    | with_reducible apply Keeps.foldlFst
    | split
    | dsimp only
    | assumption

end Sys2Proof.Machine
end

