-- ==== Sys2Proof/Laws/KeepsAudit.lean ====
section
/-! SUPPORT. Laws/KeepsAudit.lean: which parts of the state each operation of Machine/Audit.lean can change. -/

namespace Sys2Proof.Machine

theorem updAu_keeps {ps : List Part} {o s : State} {a1} (h : Keeps ps o s) (hp : [.au] ⊆ ps) :
    Keeps ps o (updAu s a1) := by
  unfold updAu
  repeat' first
    | with_reducible exact h
    | with_reducible assumption
    | with_reducible refine Sub.of hp ?_
    | exact rfl
    | intro _
    | with_reducible apply AllNext.next
    | with_reducible apply Keeps.ite
    | with_reducible apply AllNext.ite
    | with_reducible apply Keeps.foldl
    | with_reducible apply Keeps.foldN
    | with_reducible apply Keeps.foldr
    | with_reducible apply Keeps.foldlFst
    | split
    | with_reducible apply Keeps.au
    | dsimp only
    | assumption

theorem updAuRec_keeps {ps : List Part} {o s : State} {a1 a2} (h : Keeps ps o s) (hp : [.barges, .lc] ⊆ ps) :
    Keeps ps o (updAuRec s a1 a2) := by
  unfold updAuRec
  repeat' first
    | with_reducible exact h
    | with_reducible assumption
    | with_reducible refine Sub.of hp ?_
    | exact rfl
    | intro _
    | with_reducible apply updEntry_keeps
    | with_reducible apply AllNext.next
    | with_reducible apply Keeps.ite
    | with_reducible apply AllNext.ite
    | with_reducible apply Keeps.foldl
    | with_reducible apply Keeps.foldN
    | with_reducible apply Keeps.foldr
    | with_reducible apply Keeps.foldlFst
    | split
    | dsimp only
    | assumption

theorem auditEnd_keeps {ps : List Part} {o s : State} {a1} (h : Keeps ps o s) (hp : [.barges, .lc, .regs] ⊆ ps) :
    Keeps ps o (auditEnd s a1) := by
  unfold auditEnd
  repeat' first
    | with_reducible exact h
    | with_reducible assumption
    | with_reducible refine Sub.of hp ?_
    | exact rfl
    | intro _
    | with_reducible apply giveAudit_keeps
    | with_reducible apply State.withBarge_keeps
    | with_reducible apply AllNext.next
    | with_reducible apply Keeps.ite
    | with_reducible apply AllNext.ite
    | with_reducible apply Keeps.foldl
    | with_reducible apply Keeps.foldN
    | with_reducible apply Keeps.foldr
    | with_reducible apply Keeps.foldlFst
    | split
    | dsimp only
    | assumption

theorem endChallenge_keeps {ps : List Part} {o s : State} {a1} (h : Keeps ps o s) (hp : [.barges, .lc, .regs] ⊆ ps) :
    Keeps ps o (endChallenge s a1) := by
  unfold endChallenge
  repeat' first
    | with_reducible exact h
    | with_reducible assumption
    | with_reducible refine Sub.of hp ?_
    | exact rfl
    | intro _
    | with_reducible apply updAuRec_keeps
    | with_reducible apply auditEnd_keeps
    | with_reducible apply AllNext.next
    | with_reducible apply Keeps.ite
    | with_reducible apply AllNext.ite
    | with_reducible apply Keeps.foldl
    | with_reducible apply Keeps.foldN
    | with_reducible apply Keeps.foldr
    | with_reducible apply Keeps.foldlFst
    | split
    | dsimp only
    | assumption

theorem challengeResult_keeps {ps : List Part} {o s : State} {a1 a2} {f} (hf : ∀ x, Keeps ps o (f x)) (h : Keeps ps o s) (hp : [.barges, .lc, .regs] ⊆ ps) :
    Keeps ps o (challengeResult s a1 a2 f) := by
  unfold challengeResult
  repeat' first
    | with_reducible exact h
    | with_reducible assumption
    | with_reducible refine Sub.of hp ?_
    | exact rfl
    | intro _
    | with_reducible apply endChallenge_keeps
    | with_reducible apply reporting_keeps
    | with_reducible apply hf
    | with_reducible apply AllNext.next
    | with_reducible apply Keeps.ite
    | with_reducible apply AllNext.ite
    | with_reducible apply Keeps.foldl
    | with_reducible apply Keeps.foldN
    | with_reducible apply Keeps.foldr
    | with_reducible apply Keeps.foldlFst
    | split
    | dsimp only
    | assumption

theorem passChallenge_keeps {ps : List Part} {o s : State} {a1} (h : Keeps ps o s) (hp : [.barges, .lc, .regs] ⊆ ps) :
    Keeps ps o (passChallenge s a1) := by
  unfold passChallenge
  repeat' first
    | with_reducible exact h
    | with_reducible assumption
    | with_reducible refine Sub.of hp ?_
    | exact rfl
    | intro _
    | with_reducible apply challengeResult_keeps
    | with_reducible apply AllNext.next
    | with_reducible apply Keeps.ite
    | with_reducible apply AllNext.ite
    | with_reducible apply Keeps.foldl
    | with_reducible apply Keeps.foldN
    | with_reducible apply Keeps.foldr
    | with_reducible apply Keeps.foldlFst
    | split
    | dsimp only
    | assumption

theorem resealBreach_keeps {ps : List Part} {o s : State} {a1} (h : Keeps ps o s) (hp : [.barges, .lc, .bc, .regs] ⊆ ps) :
    Keeps ps o (resealBreach s a1) := by
  unfold resealBreach
  repeat' first
    | with_reducible exact h
    | with_reducible assumption
    | with_reducible refine Sub.of hp ?_
    | exact rfl
    | intro _
    | with_reducible apply breach_keeps
    | with_reducible apply challengeResult_keeps
    | with_reducible apply AllNext.next
    | with_reducible apply Keeps.ite
    | with_reducible apply AllNext.ite
    | with_reducible apply Keeps.foldl
    | with_reducible apply Keeps.foldN
    | with_reducible apply Keeps.foldr
    | with_reducible apply Keeps.foldlFst
    | split
    | dsimp only
    | assumption

theorem keepTile_keeps {ps : List Part} {o s : State} {a1 a2 a3} (h : Keeps ps o s) (hp : [.au, .mem] ⊆ ps) :
    Keeps ps o (keepTile a1 a2 a3 s) := by
  unfold keepTile
  repeat' first
    | with_reducible exact h
    | with_reducible assumption
    | with_reducible refine Sub.of hp ?_
    | exact rfl
    | intro _
    | with_reducible apply State.store_keeps
    | with_reducible apply updAu_keeps
    | with_reducible apply AllNext.next
    | with_reducible apply Keeps.ite
    | with_reducible apply AllNext.ite
    | with_reducible apply Keeps.foldl
    | with_reducible apply Keeps.foldN
    | with_reducible apply Keeps.foldr
    | with_reducible apply Keeps.foldlFst
    | split
    | dsimp only
    | assumption

theorem tileRead_keeps {ps : List Part} {o s : State} {a1 a2 a3} (h : Keeps ps o s) (hp : [.barges, .au, .lc, .bc, .regs, .mem] ⊆ ps) :
    Keeps ps o (tileRead s a1 a2 a3) := by
  unfold tileRead
  repeat' first
    | with_reducible exact h
    | with_reducible assumption
    | with_reducible refine Sub.of hp ?_
    | exact rfl
    | intro _
    | with_reducible apply updAu_keeps
    | with_reducible apply passChallenge_keeps
    | with_reducible apply resealBreach_keeps
    | with_reducible apply keepTile_keeps
    | with_reducible apply AllNext.next
    | with_reducible apply Keeps.ite
    | with_reducible apply AllNext.ite
    | with_reducible apply Keeps.foldl
    | with_reducible apply Keeps.foldN
    | with_reducible apply Keeps.foldr
    | with_reducible apply Keeps.foldlFst
    | split
    | dsimp only
    | assumption

theorem takeRead_keeps {ps : List Part} {o s : State} (h : Keeps ps o s) (hp : [.au] ⊆ ps) :
    Keeps ps o (takeRead s) := by
  unfold takeRead
  repeat' first
    | with_reducible exact h
    | with_reducible assumption
    | with_reducible refine Sub.of hp ?_
    | exact rfl
    | intro _
    | with_reducible apply updAu_keeps
    | with_reducible apply AllNext.next
    | with_reducible apply Keeps.ite
    | with_reducible apply AllNext.ite
    | with_reducible apply Keeps.foldl
    | with_reducible apply Keeps.foldN
    | with_reducible apply Keeps.foldr
    | with_reducible apply Keeps.foldlFst
    | split
    | dsimp only
    | assumption

theorem incompleteChallenge_keeps {ps : List Part} {o s : State} {a1} (h : Keeps ps o s) (hp : [.barges, .lc, .bc, .regs] ⊆ ps) :
    Keeps ps o (incompleteChallenge s a1) := by
  unfold incompleteChallenge
  repeat' first
    | with_reducible exact h
    | with_reducible assumption
    | with_reducible refine Sub.of hp ?_
    | exact rfl
    | intro _
    | with_reducible apply State.raiseFor_keeps
    | with_reducible apply updAuRec_keeps
    | with_reducible apply challengeResult_keeps
    | with_reducible apply AllNext.next
    | with_reducible apply Keeps.ite
    | with_reducible apply AllNext.ite
    | with_reducible apply Keeps.foldl
    | with_reducible apply Keeps.foldN
    | with_reducible apply Keeps.foldr
    | with_reducible apply Keeps.foldlFst
    | split
    | dsimp only
    | assumption

theorem failChallenge_keeps {ps : List Part} {o s : State} {a1 a2 a3} (h : Keeps ps o s) (hp : [.barges, .lc, .bc, .regs] ⊆ ps) :
    Keeps ps o (failChallenge s a1 a2 a3) := by
  unfold failChallenge
  repeat' first
    | with_reducible exact h
    | with_reducible assumption
    | with_reducible refine Sub.of hp ?_
    | exact rfl
    | intro _
    | with_reducible apply State.raiseFor_keeps
    | with_reducible apply giveAudit_keeps
    | with_reducible apply challengeResult_keeps
    | with_reducible apply AllNext.next
    | with_reducible apply Keeps.ite
    | with_reducible apply AllNext.ite
    | with_reducible apply Keeps.foldl
    | with_reducible apply Keeps.foldN
    | with_reducible apply Keeps.foldr
    | with_reducible apply Keeps.foldlFst
    | split
    | dsimp only
    | assumption

theorem readFailed_keeps {ps : List Part} {o s : State} {a1} (h : Keeps ps o s) (hp : [.barges, .au, .lc, .bc, .regs] ⊆ ps) :
    Keeps ps o (readFailed s a1) := by
  unfold readFailed
  repeat' first
    | with_reducible exact h
    | with_reducible assumption
    | with_reducible refine Sub.of hp ?_
    | exact rfl
    | intro _
    | with_reducible apply failChallenge_keeps
    | with_reducible apply updAu_keeps
    | with_reducible apply takeRead_keeps
    | with_reducible apply AllNext.next
    | with_reducible apply Keeps.ite
    | with_reducible apply AllNext.ite
    | with_reducible apply Keeps.foldl
    | with_reducible apply Keeps.foldN
    | with_reducible apply Keeps.foldr
    | with_reducible apply Keeps.foldlFst
    | split
    | dsimp only
    | assumption

theorem execChallengeReadDone_keeps {ps : List Part} {o s : State} {a1} (h : Keeps ps o s) (hp : [.barges, .au, .lc, .bc, .ln, .regs, .mem] ⊆ ps) :
    AllNext (execChallengeReadDone a1 s) (Keeps ps o) := by
  unfold execChallengeReadDone
  repeat' first
    | with_reducible exact h
    | with_reducible assumption
    | with_reducible refine Sub.of hp ?_
    | exact rfl
    | intro _
    | with_reducible apply tileRead_keeps
    | with_reducible apply lnBytes_keeps
    | with_reducible apply takeRead_keeps
    | with_reducible apply incompleteChallenge_keeps
    | with_reducible apply readFailed_keeps
    | with_reducible apply AllNext.next
    | with_reducible apply Keeps.ite
    | with_reducible apply AllNext.ite
    | with_reducible apply Keeps.foldl
    | with_reducible apply Keeps.foldN
    | with_reducible apply Keeps.foldr
    | with_reducible apply Keeps.foldlFst
    | split
    | dsimp only
    | assumption

theorem execChallengeReadError_keeps {ps : List Part} {o s : State} (h : Keeps ps o s) (hp : [.barges, .au, .lc, .bc, .ln, .regs] ⊆ ps) :
    AllNext (execChallengeReadError s) (Keeps ps o) := by
  unfold execChallengeReadError
  repeat' first
    | with_reducible exact h
    | with_reducible assumption
    | with_reducible refine Sub.of hp ?_
    | exact rfl
    | intro _
    | with_reducible apply linkEvent_keeps
    | with_reducible apply readFailed_keeps
    | with_reducible apply AllNext.next
    | with_reducible apply Keeps.ite
    | with_reducible apply AllNext.ite
    | with_reducible apply Keeps.foldl
    | with_reducible apply Keeps.foldN
    | with_reducible apply Keeps.foldr
    | with_reducible apply Keeps.foldlFst
    | split
    | dsimp only
    | assumption

theorem commitSeals_keeps {ps : List Part} {o s : State} {a1 a2} (h : Keeps ps o s) (hp : [.barges, .au, .lc, .regs] ⊆ ps) :
    Keeps ps o (commitSeals s a1 a2) := by
  unfold commitSeals
  repeat' first
    | with_reducible exact h
    | with_reducible assumption
    | with_reducible refine Sub.of hp ?_
    | exact rfl
    | intro _
    | with_reducible apply updAu_keeps
    | with_reducible apply State.setBit_keeps
    | with_reducible apply updAuRec_keeps
    | with_reducible apply AllNext.next
    | with_reducible apply Keeps.ite
    | with_reducible apply AllNext.ite
    | with_reducible apply Keeps.foldl
    | with_reducible apply Keeps.foldN
    | with_reducible apply Keeps.foldr
    | with_reducible apply Keeps.foldlFst
    | split
    | dsimp only
    | assumption

theorem execDrbgOutRead_keeps {ps : List Part} {o s : State} {a1} (h : Keeps ps o s) (hp : [.bus, .au, .bc] ⊆ ps) :
    AllNext (execDrbgOutRead a1 s) (Keeps ps o) := by
  unfold execDrbgOutRead
  repeat' first
    | with_reducible exact h
    | with_reducible assumption
    | with_reducible refine Sub.of hp ?_
    | exact rfl
    | intro _
    | with_reducible apply updAu_keeps
    | with_reducible apply State.busOk_keeps
    | with_reducible apply State.refuse_keeps
    | with_reducible apply AllNext.next
    | with_reducible apply Keeps.ite
    | with_reducible apply AllNext.ite
    | with_reducible apply Keeps.foldl
    | with_reducible apply Keeps.foldN
    | with_reducible apply Keeps.foldr
    | with_reducible apply Keeps.foldlFst
    | split
    | with_reducible apply Keeps.bus
    | dsimp only
    | assumption

theorem storeSeal_keeps {ps : List Part} {o s : State} {a1 a2} (h : Keeps ps o s) (hp : [.barges, .au, .lc, .bc, .regs] ⊆ ps) :
    Keeps ps o (storeSeal s a1 a2) := by
  unfold storeSeal
  repeat' first
    | with_reducible exact h
    | with_reducible assumption
    | with_reducible refine Sub.of hp ?_
    | exact rfl
    | intro _
    | with_reducible apply commitSeals_keeps
    | with_reducible apply updAu_keeps
    | with_reducible apply State.raiseFor_keeps
    | with_reducible apply giveAudit_keeps
    | with_reducible apply State.satAdd_keeps
    | with_reducible apply AllNext.next
    | with_reducible apply Keeps.ite
    | with_reducible apply AllNext.ite
    | with_reducible apply Keeps.foldl
    | with_reducible apply Keeps.foldN
    | with_reducible apply Keeps.foldr
    | with_reducible apply Keeps.foldlFst
    | split
    | dsimp only
    | assumption

theorem pruneTiles_keeps {ps : List Part} {o s : State} (h : Keeps ps o s) (hp : [.au] ⊆ ps) :
    Keeps ps o (pruneTiles s) := by
  unfold pruneTiles
  repeat' first
    | with_reducible exact h
    | with_reducible assumption
    | with_reducible refine Sub.of hp ?_
    | exact rfl
    | intro _
    | with_reducible apply updAu_keeps
    | with_reducible apply AllNext.next
    | with_reducible apply Keeps.ite
    | with_reducible apply AllNext.ite
    | with_reducible apply Keeps.foldl
    | with_reducible apply Keeps.foldN
    | with_reducible apply Keeps.foldr
    | with_reducible apply Keeps.foldlFst
    | split
    | dsimp only
    | assumption

theorem stopChallenge_keeps {ps : List Part} {o s : State} {a1} (h : Keeps ps o s) (hp : [.au] ⊆ ps) :
    Keeps ps o (stopChallenge s a1) := by
  unfold stopChallenge
  repeat' first
    | with_reducible exact h
    | with_reducible assumption
    | with_reducible refine Sub.of hp ?_
    | exact rfl
    | intro _
    | with_reducible apply updAu_keeps
    | with_reducible apply AllNext.next
    | with_reducible apply Keeps.ite
    | with_reducible apply AllNext.ite
    | with_reducible apply Keeps.foldl
    | with_reducible apply Keeps.foldN
    | with_reducible apply Keeps.foldr
    | with_reducible apply Keeps.foldlFst
    | split
    | dsimp only
    | assumption

theorem loseChallenge_keeps {ps : List Part} {o s : State} {a1} (h : Keeps ps o s) (hp : [.barges, .au, .lc, .bc, .regs] ⊆ ps) :
    Keeps ps o (loseChallenge s a1) := by
  unfold loseChallenge
  repeat' first
    | with_reducible exact h
    | with_reducible assumption
    | with_reducible refine Sub.of hp ?_
    | exact rfl
    | intro _
    | with_reducible apply incompleteChallenge_keeps
    | with_reducible apply pruneTiles_keeps
    | with_reducible apply updAu_keeps
    | with_reducible apply stopChallenge_keeps
    | with_reducible apply AllNext.next
    | with_reducible apply Keeps.ite
    | with_reducible apply AllNext.ite
    | with_reducible apply Keeps.foldl
    | with_reducible apply Keeps.foldN
    | with_reducible apply Keeps.foldr
    | with_reducible apply Keeps.foldlFst
    | split
    | dsimp only
    | assumption

theorem loseAuditTile_keeps {ps : List Part} {o s : State} {a1} (h : Keeps ps o s) (hp : [.barges, .au, .lc, .bc, .regs] ⊆ ps) :
    Keeps ps o (loseAuditTile s a1) := by
  unfold loseAuditTile
  repeat' first
    | with_reducible exact h
    | with_reducible assumption
    | with_reducible refine Sub.of hp ?_
    | exact rfl
    | intro _
    | with_reducible apply loseChallenge_keeps
    | with_reducible apply AllNext.next
    | with_reducible apply Keeps.ite
    | with_reducible apply AllNext.ite
    | with_reducible apply Keeps.foldl
    | with_reducible apply Keeps.foldN
    | with_reducible apply Keeps.foldr
    | with_reducible apply Keeps.foldlFst
    | split
    | dsimp only
    | assumption

theorem queueChallenge_keeps {ps : List Part} {o s : State} {a1 a2 a3} (h : Keeps ps o s) (hp : [.bus, .barges, .au, .lc, .bc, .regs] ⊆ ps) :
    Keeps ps o (queueChallenge a1 a2 a3 s) := by
  unfold queueChallenge
  repeat' first
    | with_reducible exact h
    | with_reducible assumption
    | with_reducible refine Sub.of hp ?_
    | exact rfl
    | intro _
    | with_reducible apply updAu_keeps
    | with_reducible apply updAuRec_keeps
    | with_reducible apply auditEnd_keeps
    | with_reducible apply State.withBarge_keeps
    | with_reducible apply State.busError_keeps
    | with_reducible apply State.keeperWrite_keeps
    | with_reducible apply AllNext.next
    | with_reducible apply Keeps.ite
    | with_reducible apply AllNext.ite
    | with_reducible apply Keeps.foldl
    | with_reducible apply Keeps.foldN
    | with_reducible apply Keeps.foldr
    | with_reducible apply Keeps.foldlFst
    | split
    | dsimp only
    | assumption

theorem execChallengeProject_keeps {ps : List Part} {o s : State} {a1 a2} (h : Keeps ps o s) (hp : [.bus, .barges, .au, .lc, .bc, .regs] ⊆ ps) :
    AllNext (execChallengeProject a1 a2 s) (Keeps ps o) := by
  unfold execChallengeProject
  repeat' first
    | with_reducible exact h
    | with_reducible assumption
    | with_reducible refine Sub.of hp ?_
    | exact rfl
    | intro _
    | with_reducible apply queueChallenge_keeps
    | with_reducible apply AllNext.next
    | with_reducible apply Keeps.ite
    | with_reducible apply AllNext.ite
    | with_reducible apply Keeps.foldl
    | with_reducible apply Keeps.foldN
    | with_reducible apply Keeps.foldr
    | with_reducible apply Keeps.foldlFst
    | split
    | dsimp only
    | assumption

theorem execChallengeInput_keeps {ps : List Part} {o s : State} {a1 a2} (h : Keeps ps o s) (hp : [.bus, .barges, .au, .lc, .bc, .regs] ⊆ ps) :
    AllNext (execChallengeInput a1 a2 s) (Keeps ps o) := by
  unfold execChallengeInput
  repeat' first
    | with_reducible exact h
    | with_reducible assumption
    | with_reducible refine Sub.of hp ?_
    | exact rfl
    | intro _
    | with_reducible apply queueChallenge_keeps
    | with_reducible apply AllNext.next
    | with_reducible apply Keeps.ite
    | with_reducible apply AllNext.ite
    | with_reducible apply Keeps.foldl
    | with_reducible apply Keeps.foldN
    | with_reducible apply Keeps.foldr
    | with_reducible apply Keeps.foldlFst
    | split
    | dsimp only
    | assumption

theorem execChallengeExact_keeps {ps : List Part} {o s : State} {a1 a2} (h : Keeps ps o s) (hp : [.bus, .barges, .au, .lc, .bc, .regs] ⊆ ps) :
    AllNext (execChallengeExact a1 a2 s) (Keeps ps o) := by
  unfold execChallengeExact
  repeat' first
    | with_reducible exact h
    | with_reducible assumption
    | with_reducible refine Sub.of hp ?_
    | exact rfl
    | intro _
    | with_reducible apply queueChallenge_keeps
    | with_reducible apply AllNext.next
    | with_reducible apply Keeps.ite
    | with_reducible apply AllNext.ite
    | with_reducible apply Keeps.foldl
    | with_reducible apply Keeps.foldN
    | with_reducible apply Keeps.foldr
    | with_reducible apply Keeps.foldlFst
    | split
    | dsimp only
    | assumption

theorem execChallengeClose_keeps {ps : List Part} {o s : State} {a1 a2} (h : Keeps ps o s) (hp : [.bus, .barges, .au, .lc, .bc, .regs] ⊆ ps) :
    AllNext (execChallengeClose a1 a2 s) (Keeps ps o) := by
  unfold execChallengeClose
  repeat' first
    | with_reducible exact h
    | with_reducible assumption
    | with_reducible refine Sub.of hp ?_
    | exact rfl
    | intro _
    | with_reducible apply queueChallenge_keeps
    | with_reducible apply AllNext.next
    | with_reducible apply Keeps.ite
    | with_reducible apply AllNext.ite
    | with_reducible apply Keeps.foldl
    | with_reducible apply Keeps.foldN
    | with_reducible apply Keeps.foldr
    | with_reducible apply Keeps.foldlFst
    | split
    | dsimp only
    | assumption

theorem noteBad_keeps {ps : List Part} {o s : State} {a1} (h : Keeps ps o s) (hp : [.bc, .hd, .ln, .regs] ⊆ ps) :
    Keeps ps o (noteBad s a1) := by
  unfold noteBad
  repeat' first
    | with_reducible exact h
    | with_reducible assumption
    | with_reducible refine Sub.of hp ?_
    | exact rfl
    | intro _
    | with_reducible apply holdUncorrectable_keeps
    | with_reducible apply AllNext.next
    | with_reducible apply Keeps.ite
    | with_reducible apply AllNext.ite
    | with_reducible apply Keeps.foldl
    | with_reducible apply Keeps.foldN
    | with_reducible apply Keeps.foldr
    | with_reducible apply Keeps.foldlFst
    | split
    | dsimp only
    | assumption

theorem judgeChallenge_keeps {ps : List Part} {o s : State} {a1} (h : Keeps ps o s) (hp : [.barges, .au, .lc, .bc, .hd, .ln, .regs] ⊆ ps) :
    Keeps ps o (judgeChallenge s a1) := by
  unfold judgeChallenge
  repeat' first
    | with_reducible exact h
    | with_reducible assumption
    | with_reducible refine Sub.of hp ?_
    | exact rfl
    | intro _
    | with_reducible apply State.setReg_keeps
    | with_reducible apply failChallenge_keeps
    | with_reducible apply passChallenge_keeps
    | with_reducible apply stopChallenge_keeps
    | with_reducible apply noteBad_keeps
    | with_reducible apply incompleteChallenge_keeps
    | with_reducible apply AllNext.next
    | with_reducible apply Keeps.ite
    | with_reducible apply AllNext.ite
    | with_reducible apply Keeps.foldl
    | with_reducible apply Keeps.foldN
    | with_reducible apply Keeps.foldr
    | with_reducible apply Keeps.foldlFst
    | split
    | dsimp only
    | assumption

theorem execAuditTileDone_keeps {ps : List Part} {o s : State} {a1 a2 a3} (h : Keeps ps o s) (hp : [.barges, .au, .lc, .bc, .hd, .ln, .regs] ⊆ ps) :
    AllNext (execAuditTileDone a1 a2 a3 s) (Keeps ps o) := by
  unfold execAuditTileDone
  repeat' first
    | with_reducible exact h
    | with_reducible assumption
    | with_reducible refine Sub.of hp ?_
    | exact rfl
    | intro _
    | with_reducible apply judgeChallenge_keeps
    | with_reducible apply stopChallenge_keeps
    | with_reducible apply incompleteChallenge_keeps
    | with_reducible apply pruneTiles_keeps
    | with_reducible apply loseChallenge_keeps
    | with_reducible apply AllNext.next
    | with_reducible apply Keeps.ite
    | with_reducible apply AllNext.ite
    | with_reducible apply Keeps.foldl
    | with_reducible apply Keeps.foldN
    | with_reducible apply Keeps.foldr
    | with_reducible apply Keeps.foldlFst
    | split
    | dsimp only
    | assumption

theorem execReadyqPop_keeps {ps : List Part} {o s : State} (h : Keeps ps o s) (hp : [.bus, .au] ⊆ ps) :
    AllNext (execReadyqPop s) (Keeps ps o) := by
  unfold execReadyqPop
  repeat' first
    | with_reducible exact h
    | with_reducible assumption
    | with_reducible refine Sub.of hp ?_
    | exact rfl
    | intro _
    | with_reducible apply updAu_keeps
    | with_reducible apply State.busOk_keeps
    | with_reducible apply AllNext.next
    | with_reducible apply Keeps.ite
    | with_reducible apply AllNext.ite
    | with_reducible apply Keeps.foldl
    | with_reducible apply Keeps.foldN
    | with_reducible apply Keeps.foldr
    | with_reducible apply Keeps.foldlFst
    | split
    | dsimp only
    | assumption

theorem valuesFail_keeps {ps : List Part} {o s : State} {a1} (h : Keeps ps o s) (hp : [.bc, .ln, .regs] ⊆ ps) :
    Keeps ps o (valuesFail s a1) := by
  unfold valuesFail
  repeat' first
    | with_reducible exact h
    | with_reducible assumption
    | with_reducible refine Sub.of hp ?_
    | exact rfl
    | intro _
    | with_reducible apply linkEvent_keeps
    | with_reducible apply AllNext.next
    | with_reducible apply Keeps.ite
    | with_reducible apply AllNext.ite
    | with_reducible apply Keeps.foldl
    | with_reducible apply Keeps.foldN
    | with_reducible apply Keeps.foldr
    | with_reducible apply Keeps.foldlFst
    | split
    | dsimp only
    | assumption

theorem execSealMissingTimeout_keeps {ps : List Part} {o s : State} {a1} (h : Keeps ps o s) (hp : [.barges, .lc, .bc, .regs] ⊆ ps) :
    AllNext (execSealMissingTimeout a1 s) (Keeps ps o) := by
  unfold execSealMissingTimeout
  repeat' first
    | with_reducible exact h
    | with_reducible assumption
    | with_reducible refine Sub.of hp ?_
    | exact rfl
    | intro _
    | with_reducible apply State.raiseFor_keeps
    | with_reducible apply giveAudit_keeps
    | with_reducible apply logLate_keeps
    | with_reducible apply updAuRec_keeps
    | with_reducible apply withEntry_keeps
    | with_reducible apply AllNext.next
    | with_reducible apply Keeps.ite
    | with_reducible apply AllNext.ite
    | with_reducible apply Keeps.foldl
    | with_reducible apply Keeps.foldN
    | with_reducible apply Keeps.foldr
    | with_reducible apply Keeps.foldlFst
    | split
    | dsimp only
    | assumption

theorem execCoveragePush_keeps {ps : List Part} {o s : State} {a1 a2} (h : Keeps ps o s) (hp : [.bus, .au, .bc, .regs] ⊆ ps) :
    AllNext (execCoveragePush a1 a2 s) (Keeps ps o) := by
  unfold execCoveragePush
  repeat' first
    | with_reducible exact h
    | with_reducible assumption
    | with_reducible refine Sub.of hp ?_
    | exact rfl
    | intro _
    | with_reducible apply State.setBit_keeps
    | with_reducible apply State.raise_keeps
    | with_reducible apply State.setReg_keeps
    | with_reducible apply updAu_keeps
    | with_reducible apply State.keeperWrite_keeps
    | with_reducible apply AllNext.next
    | with_reducible apply Keeps.ite
    | with_reducible apply AllNext.ite
    | with_reducible apply Keeps.foldl
    | with_reducible apply Keeps.foldN
    | with_reducible apply Keeps.foldr
    | with_reducible apply Keeps.foldlFst
    | split
    | dsimp only
    | assumption

theorem execSealDeadline_keeps {ps : List Part} {o s : State} {a1} (h : Keeps ps o s) (hp : [.barges, .lc] ⊆ ps) :
    AllNext (execSealDeadline a1 s) (Keeps ps o) := by
  unfold execSealDeadline
  repeat' first
    | with_reducible exact h
    | with_reducible assumption
    | with_reducible refine Sub.of hp ?_
    | exact rfl
    | intro _
    | with_reducible apply updAuRec_keeps
    | with_reducible apply withEntry_keeps
    | with_reducible apply AllNext.next
    | with_reducible apply Keeps.ite
    | with_reducible apply AllNext.ite
    | with_reducible apply Keeps.foldl
    | with_reducible apply Keeps.foldN
    | with_reducible apply Keeps.foldr
    | with_reducible apply Keeps.foldlFst
    | split
    | dsimp only
    | assumption

theorem execCapWrite_keeps {ps : List Part} {o s : State} {a1 a2 a3} (h : Keeps ps o s) (hp : [.bus, .bc, .regs] ⊆ ps) :
    AllNext (execCapWrite a1 a2 a3 s) (Keeps ps o) := by
  unfold execCapWrite
  repeat' first
    | with_reducible exact h
    | with_reducible assumption
    | with_reducible refine Sub.of hp ?_
    | exact rfl
    | intro _
    | with_reducible apply State.setBit_keeps
    | with_reducible apply State.raise_keeps
    | with_reducible apply State.setReg_keeps
    | with_reducible apply State.keeperWrite_keeps
    | with_reducible apply AllNext.next
    | with_reducible apply Keeps.ite
    | with_reducible apply AllNext.ite
    | with_reducible apply Keeps.foldl
    | with_reducible apply Keeps.foldN
    | with_reducible apply Keeps.foldr
    | with_reducible apply Keeps.foldlFst
    | split
    | dsimp only
    | assumption

theorem execDrbgInstantiate_keeps {ps : List Part} {o s : State} {a1 a2} (h : Keeps ps o s) (hp : [.bus, .au, .bc] ⊆ ps) :
    AllNext (execDrbgInstantiate a1 a2 s) (Keeps ps o) := by
  unfold execDrbgInstantiate
  repeat' first
    | with_reducible exact h
    | with_reducible assumption
    | with_reducible refine Sub.of hp ?_
    | exact rfl
    | intro _
    | with_reducible apply State.busError_keeps
    | with_reducible apply updAu_keeps
    | with_reducible apply State.keeperWrite_keeps
    | with_reducible apply AllNext.next
    | with_reducible apply Keeps.ite
    | with_reducible apply AllNext.ite
    | with_reducible apply Keeps.foldl
    | with_reducible apply Keeps.foldN
    | with_reducible apply Keeps.foldr
    | with_reducible apply Keeps.foldlFst
    | split
    | dsimp only
    | assumption

end Sys2Proof.Machine
end

