-- ==== Sys2Proof/Laws/KeepsBrakes.lean ====
section
/-! SUPPORT. Laws/KeepsBrakes.lean: which parts of the state each operation of Machine/Brakes.lean can change. -/

namespace Sys2Proof.Machine

theorem updBrake_keeps {ps : List Part} {o s : State} {a1 a2} (h : Keeps ps o s) (hp : [.sio] ⊆ ps) :
    Keeps ps o (updBrake s a1 a2) := by
  unfold updBrake
  repeat' first
    | with_reducible exact h
    | with_reducible assumption
    | with_reducible refine Sub.of hp ?_
    | exact rfl
    | intro _
    | with_reducible apply AllNext.next
    | with_reducible apply Keeps.ite
    | with_reducible apply AllNext.ite
    | with_reducible apply Keeps.foldl
    | with_reducible apply Keeps.foldN
    | with_reducible apply Keeps.foldr
    | with_reducible apply Keeps.foldlFst
    | split
    | with_reducible apply Keeps.sio
    | dsimp only
    | assumption

theorem enterBrake_keeps {ps : List Part} {o s : State} {a1 a2 a3 a4} (h : Keeps ps o s) (hp : [.sio] ⊆ ps) :
    Keeps ps o (enterBrake s a1 a2 a3 a4) := by
  unfold enterBrake
  repeat' first
    | with_reducible exact h
    | with_reducible assumption
    | with_reducible refine Sub.of hp ?_
    | exact rfl
    | intro _
    | with_reducible apply updBrake_keeps
    | with_reducible apply AllNext.next
    | with_reducible apply Keeps.ite
    | with_reducible apply AllNext.ite
    | with_reducible apply Keeps.foldl
    | with_reducible apply Keeps.foldN
    | with_reducible apply Keeps.foldr
    | with_reducible apply Keeps.foldlFst
    | split
    | dsimp only
    | assumption

theorem gatesOff_keeps {ps : List Part} {o s : State} {a1 a2} (h : Keeps ps o s) (hp : [.sio] ⊆ ps) :
    Keeps ps o (gatesOff s a1 a2) := by
  unfold gatesOff
  repeat' first
    | with_reducible exact h
    | with_reducible assumption
    | with_reducible refine Sub.of hp ?_
    | exact rfl
    | intro _
    | with_reducible apply enterBrake_keeps
    | with_reducible apply updBrake_keeps
    | with_reducible apply AllNext.next
    | with_reducible apply Keeps.ite
    | with_reducible apply AllNext.ite
    | with_reducible apply Keeps.foldl
    | with_reducible apply Keeps.foldN
    | with_reducible apply Keeps.foldr
    | with_reducible apply Keeps.foldlFst
    | split
    | dsimp only
    | assumption

theorem lockChannel_keeps {ps : List Part} {o s : State} {a1 a2} (h : Keeps ps o s) (hp : [.sio, .regs] ⊆ ps) :
    Keeps ps o (lockChannel s a1 a2) := by
  unfold lockChannel
  repeat' first
    | with_reducible exact h
    | with_reducible assumption
    | with_reducible refine Sub.of hp ?_
    | exact rfl
    | intro _
    | with_reducible apply State.setReg_keeps
    | with_reducible apply State.setBit_keeps
    | with_reducible apply gatesOff_keeps
    | with_reducible apply State.setFld_keeps
    | with_reducible apply AllNext.next
    | with_reducible apply Keeps.ite
    | with_reducible apply AllNext.ite
    | with_reducible apply Keeps.foldl
    | with_reducible apply Keeps.foldN
    | with_reducible apply Keeps.foldr
    | with_reducible apply Keeps.foldlFst
    | split
    | dsimp only
    | assumption

theorem lockAll_keeps {ps : List Part} {o s : State} {a1} (h : Keeps ps o s) (hp : [.sio, .regs] ⊆ ps) :
    Keeps ps o (lockAll s a1) := by
  unfold lockAll
  repeat' first
    | with_reducible exact h
    | with_reducible assumption
    | with_reducible refine Sub.of hp ?_
    | exact rfl
    | intro _
    | with_reducible apply lockChannel_keeps
    | with_reducible apply AllNext.next
    | with_reducible apply Keeps.ite
    | with_reducible apply AllNext.ite
    | with_reducible apply Keeps.foldl
    | with_reducible apply Keeps.foldN
    | with_reducible apply Keeps.foldr
    | with_reducible apply Keeps.foldlFst
    | split
    | dsimp only
    | assumption

theorem offDemand_keeps {ps : List Part} {o s : State} {a1} (h : Keeps ps o s) (hp : [.sio, .regs] ⊆ ps) :
    Keeps ps o (offDemand s a1) := by
  unfold offDemand
  repeat' first
    | with_reducible exact h
    | with_reducible assumption
    | with_reducible refine Sub.of hp ?_
    | exact rfl
    | intro _
    | with_reducible apply gatesOff_keeps
    | with_reducible apply State.setFld_keeps
    | with_reducible apply AllNext.next
    | with_reducible apply Keeps.ite
    | with_reducible apply AllNext.ite
    | with_reducible apply Keeps.foldl
    | with_reducible apply Keeps.foldN
    | with_reducible apply Keeps.foldr
    | with_reducible apply Keeps.foldlFst
    | split
    | dsimp only
    | assumption

theorem brakesCheck_keeps {ps : List Part} {o s : State} (h : Keeps ps o s) (hp : [.sio, .regs] ⊆ ps) :
    Keeps ps o (brakesCheck s) := by
  unfold brakesCheck
  repeat' first
    | with_reducible exact h
    | with_reducible assumption
    | with_reducible refine Sub.of hp ?_
    | exact rfl
    | intro _
    | with_reducible apply offDemand_keeps
    | with_reducible apply AllNext.next
    | with_reducible apply Keeps.ite
    | with_reducible apply AllNext.ite
    | with_reducible apply Keeps.foldl
    | with_reducible apply Keeps.foldN
    | with_reducible apply Keeps.foldr
    | with_reducible apply Keeps.foldlFst
    | split
    | dsimp only
    | assumption

theorem supplyFault_keeps {ps : List Part} {o s : State} (h : Keeps ps o s) (hp : [.bc, .sio, .regs] ⊆ ps) :
    Keeps ps o (supplyFault s) := by
  unfold supplyFault
  repeat' first
    | with_reducible exact h
    | with_reducible assumption
    | with_reducible refine Sub.of hp ?_
    | exact rfl
    | intro _
    | with_reducible apply State.level_keeps
    | with_reducible apply lockAll_keeps
    | with_reducible apply AllNext.next
    | with_reducible apply Keeps.ite
    | with_reducible apply AllNext.ite
    | with_reducible apply Keeps.foldl
    | with_reducible apply Keeps.foldN
    | with_reducible apply Keeps.foldr
    | with_reducible apply Keeps.foldlFst
    | split
    | dsimp only
    | assumption

theorem lockStart_keeps {ps : List Part} {o s : State} {a1} (h : Keeps ps o s) (hp : [.sio, .regs] ⊆ ps) :
    Keeps ps o (lockStart s a1) := by
  unfold lockStart
  repeat' first
    | with_reducible exact h
    | with_reducible assumption
    | with_reducible refine Sub.of hp ?_
    | exact rfl
    | intro _
    | with_reducible apply lockChannel_keeps
    | with_reducible apply State.setFld_keeps
    | with_reducible apply AllNext.next
    | with_reducible apply Keeps.ite
    | with_reducible apply AllNext.ite
    | with_reducible apply Keeps.foldl
    | with_reducible apply Keeps.foldN
    | with_reducible apply Keeps.foldr
    | with_reducible apply Keeps.foldlFst
    | split
    | dsimp only
    | assumption

theorem readBrake_keeps {ps : List Part} {o s : State} {a1 a2} (h : Keeps ps o s) (hp : [.sio] ⊆ ps) :
    Keeps ps o (readBrake s a1 a2) := by
  unfold readBrake
  repeat' first
    | with_reducible exact h
    | with_reducible assumption
    | with_reducible refine Sub.of hp ?_
    | exact rfl
    | intro _
    | with_reducible apply updBrake_keeps
    | with_reducible apply AllNext.next
    | with_reducible apply Keeps.ite
    | with_reducible apply AllNext.ite
    | with_reducible apply Keeps.foldl
    | with_reducible apply Keeps.foldN
    | with_reducible apply Keeps.foldr
    | with_reducible apply Keeps.foldlFst
    | split
    | dsimp only
    | assumption

end Sys2Proof.Machine
end

