-- ==== Sys2Proof/Laws/KeepsChamber.lean ====
section
/-! SUPPORT. Laws/KeepsChamber.lean: which parts of the state each operation of Machine/Chamber.lean can change. -/

namespace Sys2Proof.Machine

theorem closeChamber_keeps {ps : List Part} {o s : State} (h : Keeps ps o s) (hp : [.barges, .lc, .bc, .regs] ⊆ ps) : Keeps ps o (closeChamber s) := by
  unfold closeChamber
  refine Keeps.foldl (Keeps.trans h ⟨rfl, rfl, rfl, id, fun q hq => ?_⟩) fun x b hx => giveLamp_keeps hx (Sub.of hp rfl)
  cases q <;> first | rfl | exact absurd (hp (by simp)) hq

theorem pinsFollow_keeps {ps : List Part} {o s : State} (h : Keeps ps o s) (hp : [.barges, .lc, .bc, .sio, .regs] ⊆ ps) :
    Keeps ps o (pinsFollow s) := by
  unfold pinsFollow
  repeat' first
    | with_reducible exact h
    | with_reducible assumption
    | with_reducible refine Sub.of hp ?_
    | exact rfl
    | intro _
    | with_reducible apply closeChamber_keeps
    | with_reducible apply brakesCheck_keeps
    | with_reducible apply AllNext.next
    | with_reducible apply Keeps.ite
    | with_reducible apply AllNext.ite
    | with_reducible apply Keeps.foldl
    | with_reducible apply Keeps.foldN
    | with_reducible apply Keeps.foldr
    | with_reducible apply Keeps.foldlFst
    | split
    | with_reducible apply Keeps.lc
    | dsimp only
    | assumption

theorem updCan_keeps {ps : List Part} {o s : State} {a1 a2} (h : Keeps ps o s) (hp : [.lc] ⊆ ps) :
    Keeps ps o (updCan s a1 a2) := by
  unfold updCan
  repeat' first
    | with_reducible exact h
    | with_reducible assumption
    | with_reducible refine Sub.of hp ?_
    | exact rfl
    | intro _
    | with_reducible apply AllNext.next
    | with_reducible apply Keeps.ite
    | with_reducible apply AllNext.ite
    | with_reducible apply Keeps.foldl
    | with_reducible apply Keeps.foldN
    | with_reducible apply Keeps.foldr
    | with_reducible apply Keeps.foldlFst
    | split
    | with_reducible apply Keeps.lc
    | dsimp only
    | assumption

theorem canQueue_keeps {ps : List Part} {o s : State} {a1 a2 a3} (h : Keeps ps o s) (hp : [.lc, .bc, .regs] ⊆ ps) :
    Keeps ps o (canQueue s a1 a2 a3) := by
  unfold canQueue
  repeat' first
    | with_reducible exact h
    | with_reducible assumption
    | with_reducible refine Sub.of hp ?_
    | exact rfl
    | intro _
    | with_reducible apply State.satAdd_keeps
    | with_reducible apply State.setBit_keeps
    | with_reducible apply State.raiseOn_keeps
    | with_reducible apply updCan_keeps
    | with_reducible apply AllNext.next
    | with_reducible apply Keeps.ite
    | with_reducible apply AllNext.ite
    | with_reducible apply Keeps.foldl
    | with_reducible apply Keeps.foldN
    | with_reducible apply Keeps.foldr
    | with_reducible apply Keeps.foldlFst
    | split
    | dsimp only
    | assumption

theorem canNotice_keeps {ps : List Part} {o s : State} {a1 a2} (h : Keeps ps o s) (hp : [.lc, .bc, .regs] ⊆ ps) :
    Keeps ps o (canNotice a1 s a2) := by
  unfold canNotice
  repeat' first
    | with_reducible exact h
    | with_reducible assumption
    | with_reducible refine Sub.of hp ?_
    | exact rfl
    | intro _
    | with_reducible apply canQueue_keeps
    | with_reducible apply AllNext.next
    | with_reducible apply Keeps.ite
    | with_reducible apply AllNext.ite
    | with_reducible apply Keeps.foldl
    | with_reducible apply Keeps.foldN
    | with_reducible apply Keeps.foldr
    | with_reducible apply Keeps.foldlFst
    | split
    | dsimp only
    | assumption

theorem formNotice_keeps {ps : List Part} {o s : State} {a1 a2 a3 a4} (h : Keeps ps o s) (hp : [.sn, .lc, .bc, .se, .hd, .ln, .regs, .mem] ⊆ ps) :
    Keeps ps o (formNotice s a1 a2 a3 a4) := by
  unfold formNotice
  repeat' first
    | with_reducible exact h
    | with_reducible assumption
    | with_reducible refine Sub.of hp ?_
    | exact rfl
    | intro _
    | with_reducible apply canNotice_keeps
    | with_reducible apply logNotice_keeps
    | with_reducible apply State.setReg_keeps
    | with_reducible apply AllNext.next
    | with_reducible apply Keeps.ite
    | with_reducible apply AllNext.ite
    | with_reducible apply Keeps.foldl
    | with_reducible apply Keeps.foldN
    | with_reducible apply Keeps.foldr
    | with_reducible apply Keeps.foldlFst
    | split
    | with_reducible apply Keeps.lc
    | dsimp only
    | assumption

theorem updVal_keeps {ps : List Part} {o s : State} {a1 a2} (h : Keeps ps o s) (hp : [.lc] ⊆ ps) :
    Keeps ps o (updVal s a1 a2) := by
  unfold updVal
  repeat' first
    | with_reducible exact h
    | with_reducible assumption
    | with_reducible refine Sub.of hp ?_
    | exact rfl
    | intro _
    | with_reducible apply AllNext.next
    | with_reducible apply Keeps.ite
    | with_reducible apply AllNext.ite
    | with_reducible apply Keeps.foldl
    | with_reducible apply Keeps.foldN
    | with_reducible apply Keeps.foldr
    | with_reducible apply Keeps.foldlFst
    | split
    | with_reducible apply Keeps.lc
    | dsimp only
    | assumption

theorem valRefresh_keeps {ps : List Part} {o s : State} {a1} (h : Keeps ps o s) (hp : [.lc] ⊆ ps) :
    Keeps ps o (valRefresh s a1) := by
  unfold valRefresh
  repeat' first
    | with_reducible exact h
    | with_reducible assumption
    | with_reducible refine Sub.of hp ?_
    | exact rfl
    | intro _
    | with_reducible apply updVal_keeps
    | with_reducible apply AllNext.next
    | with_reducible apply Keeps.ite
    | with_reducible apply AllNext.ite
    | with_reducible apply Keeps.foldl
    | with_reducible apply Keeps.foldN
    | with_reducible apply Keeps.foldr
    | with_reducible apply Keeps.foldlFst
    | split
    | dsimp only
    | assumption

theorem formStart_keeps {ps : List Part} {o s : State} (h : Keeps ps o s) (hp : [.lc, .regs] ⊆ ps) :
    Keeps ps o (formStart s) := by
  unfold formStart
  repeat' first
    | with_reducible exact h
    | with_reducible assumption
    | with_reducible refine Sub.of hp ?_
    | exact rfl
    | intro _
    | with_reducible apply State.setReg_keeps
    | with_reducible apply AllNext.next
    | with_reducible apply Keeps.ite
    | with_reducible apply AllNext.ite
    | with_reducible apply Keeps.foldl
    | with_reducible apply Keeps.foldN
    | with_reducible apply Keeps.foldr
    | with_reducible apply Keeps.foldlFst
    | split
    | with_reducible apply Keeps.lc
    | dsimp only
    | assumption

theorem execCanBusOff_keeps {ps : List Part} {o s : State} {a1 a2} (h : Keeps ps o s) (hp : [.lc, .bc] ⊆ ps) :
    AllNext (execCanBusOff a1 a2 s) (Keeps ps o) := by
  unfold execCanBusOff
  repeat' first
    | with_reducible exact h
    | with_reducible assumption
    | with_reducible refine Sub.of hp ?_
    | exact rfl
    | intro _
    | with_reducible apply updCan_keeps
    | with_reducible apply State.raise_keeps
    | with_reducible apply AllNext.next
    | with_reducible apply Keeps.ite
    | with_reducible apply AllNext.ite
    | with_reducible apply Keeps.foldl
    | with_reducible apply Keeps.foldN
    | with_reducible apply Keeps.foldr
    | with_reducible apply Keeps.foldlFst
    | split
    | dsimp only
    | assumption

theorem spiReply_keeps {ps : List Part} {o s : State} {a1 a2} (h : Keeps ps o s) (hp : [.lc] ⊆ ps) :
    Keeps ps o (spiReply s a1 a2) := by
  unfold spiReply
  repeat' first
    | with_reducible exact h
    | with_reducible assumption
    | with_reducible refine Sub.of hp ?_
    | exact rfl
    | intro _
    | with_reducible apply AllNext.next
    | with_reducible apply Keeps.ite
    | with_reducible apply AllNext.ite
    | with_reducible apply Keeps.foldl
    | with_reducible apply Keeps.foldN
    | with_reducible apply Keeps.foldr
    | with_reducible apply Keeps.foldlFst
    | split
    | with_reducible apply Keeps.lc
    | dsimp only
    | assumption

theorem spiRecord_keeps {ps : List Part} {o s : State} {a1} (h : Keeps ps o s) (hp : [.lc, .bc, .regs] ⊆ ps) :
    Keeps ps o (spiRecord a1 s) := by
  unfold spiRecord
  repeat' first
    | with_reducible exact h
    | with_reducible assumption
    | with_reducible refine Sub.of hp ?_
    | exact rfl
    | intro _
    | with_reducible apply State.setBit_keeps
    | with_reducible apply State.raiseOn_keeps
    | with_reducible apply AllNext.next
    | with_reducible apply Keeps.ite
    | with_reducible apply AllNext.ite
    | with_reducible apply Keeps.foldl
    | with_reducible apply Keeps.foldN
    | with_reducible apply Keeps.foldr
    | with_reducible apply Keeps.foldlFst
    | split
    | with_reducible apply Keeps.lc
    | dsimp only
    | assumption

theorem execMbAck_keeps {ps : List Part} {o s : State} {a1} (h : Keeps ps o s) (hp : [.lc] ⊆ ps) :
    AllNext (execMbAck a1 s) (Keeps ps o) := by
  unfold execMbAck
  repeat' first
    | with_reducible exact h
    | with_reducible assumption
    | with_reducible refine Sub.of hp ?_
    | exact rfl
    | intro _
    | with_reducible apply spiReply_keeps
    | with_reducible apply AllNext.next
    | with_reducible apply Keeps.ite
    | with_reducible apply AllNext.ite
    | with_reducible apply Keeps.foldl
    | with_reducible apply Keeps.foldN
    | with_reducible apply Keeps.foldr
    | with_reducible apply Keeps.foldlFst
    | split
    | with_reducible apply Keeps.lc
    | dsimp only
    | assumption

theorem execMbData_keeps {ps : List Part} {o s : State} (h : Keeps ps o s) (hp : [.lc] ⊆ ps) :
    AllNext (execMbData s) (Keeps ps o) := by
  unfold execMbData
  repeat' first
    | with_reducible exact h
    | with_reducible assumption
    | with_reducible refine Sub.of hp ?_
    | exact rfl
    | intro _
    | with_reducible apply spiReply_keeps
    | with_reducible apply AllNext.next
    | with_reducible apply Keeps.ite
    | with_reducible apply AllNext.ite
    | with_reducible apply Keeps.foldl
    | with_reducible apply Keeps.foldN
    | with_reducible apply Keeps.foldr
    | with_reducible apply Keeps.foldlFst
    | split
    | with_reducible apply Keeps.lc
    | dsimp only
    | assumption

theorem endBarge_keeps {ps : List Part} {o s : State} {a1} (h : Keeps ps o s) (hp : [.sl, .barges, .mr, .mi, .au, .sn, .lc] ⊆ ps) :
    Keeps ps o (endBarge s a1) := by
  unfold endBarge
  refine Keeps.trans (ringRelease_keeps (a1 := a1) h ?_) ⟨rfl, rfl, rfl, id, fun q hq => ?_⟩
  · exact Sub.of hp rfl
  · cases q <;> first | rfl | exact absurd (hp (by simp)) hq

theorem valRecord_keeps {ps : List Part} {o s : State} {a1 a2} (h : Keeps ps o s) (hp : [.lc] ⊆ ps) :
    Keeps ps o (valRecord a1 s a2) := by
  unfold valRecord
  repeat' first
    | with_reducible exact h
    | with_reducible assumption
    | with_reducible refine Sub.of hp ?_
    | exact rfl
    | intro _
    | with_reducible apply updVal_keeps
    | with_reducible apply AllNext.next
    | with_reducible apply Keeps.ite
    | with_reducible apply AllNext.ite
    | with_reducible apply Keeps.foldl
    | with_reducible apply Keeps.foldN
    | with_reducible apply Keeps.foldr
    | with_reducible apply Keeps.foldlFst
    | split
    | dsimp only
    | assumption

theorem noteNewest_keeps {ps : List Part} {o s : State} {a1} (h : Keeps ps o s) (hp : [.lc] ⊆ ps) :
    Keeps ps o (noteNewest a1 s) := by
  unfold noteNewest
  repeat' first
    | with_reducible exact h
    | with_reducible assumption
    | with_reducible refine Sub.of hp ?_
    | exact rfl
    | intro _
    | with_reducible apply AllNext.next
    | with_reducible apply Keeps.ite
    | with_reducible apply AllNext.ite
    | with_reducible apply Keeps.foldl
    | with_reducible apply Keeps.foldN
    | with_reducible apply Keeps.foldr
    | with_reducible apply Keeps.foldlFst
    | split
    | with_reducible apply Keeps.lc
    | dsimp only
    | assumption

theorem canRecord_keeps {ps : List Part} {o s : State} {a1 a2} (h : Keeps ps o s) (hp : [.lc, .bc, .regs] ⊆ ps) :
    Keeps ps o (canRecord a1 s a2) := by
  unfold canRecord
  repeat' first
    | with_reducible exact h
    | with_reducible assumption
    | with_reducible refine Sub.of hp ?_
    | exact rfl
    | intro _
    | with_reducible apply updCan_keeps
    | with_reducible apply canQueue_keeps
    | with_reducible apply AllNext.next
    | with_reducible apply Keeps.ite
    | with_reducible apply AllNext.ite
    | with_reducible apply Keeps.foldl
    | with_reducible apply Keeps.foldN
    | with_reducible apply Keeps.foldr
    | with_reducible apply Keeps.foldlFst
    | split
    | dsimp only
    | assumption

theorem releaseRec_keeps {ps : List Part} {o s : State} {a1} (h : Keeps ps o s) (hp : [.sl, .barges, .mr, .mi, .au, .sn, .lc, .bc, .sio, .se, .hd, .ln, .regs, .mem] ⊆ ps) :
    Keeps ps o (releaseRec s a1) := by
  unfold releaseRec
  repeat' first
    | with_reducible exact h
    | with_reducible assumption
    | with_reducible refine Sub.of hp ?_
    | exact rfl
    | intro _
    | with_reducible apply endBarge_keeps
    | with_reducible apply brakesCheck_keeps
    | with_reducible apply valRecord_keeps
    | with_reducible apply noteNewest_keeps
    | with_reducible apply logRecord_keeps
    | with_reducible apply spiRecord_keeps
    | with_reducible apply canRecord_keeps
    | with_reducible apply AllNext.next
    | with_reducible apply Keeps.ite
    | with_reducible apply AllNext.ite
    | with_reducible apply Keeps.foldl
    | with_reducible apply Keeps.foldN
    | with_reducible apply Keeps.foldr
    | with_reducible apply Keeps.foldlFst
    | split
    | dsimp only
    | assumption

theorem execNtData_keeps {ps : List Part} {o s : State} (h : Keeps ps o s) (hp : [.lc] ⊆ ps) :
    AllNext (execNtData s) (Keeps ps o) := by
  unfold execNtData
  repeat' first
    | with_reducible exact h
    | with_reducible assumption
    | with_reducible refine Sub.of hp ?_
    | exact rfl
    | intro _
    | with_reducible apply spiReply_keeps
    | with_reducible apply AllNext.next
    | with_reducible apply Keeps.ite
    | with_reducible apply AllNext.ite
    | with_reducible apply Keeps.foldl
    | with_reducible apply Keeps.foldN
    | with_reducible apply Keeps.foldr
    | with_reducible apply Keeps.foldlFst
    | split
    | with_reducible apply Keeps.lc
    | dsimp only
    | assumption

theorem execAbandonRecord_keeps {ps : List Part} {o s : State} (h : Keeps ps o s) (hp : [.barges, .au, .sn, .lc, .bc, .regs] ⊆ ps) :
    AllNext (execAbandonRecord s) (Keeps ps o) := by
  unfold execAbandonRecord
  repeat' first
    | with_reducible exact h
    | with_reducible assumption
    | with_reducible refine Sub.of hp ?_
    | exact rfl
    | intro _
    | with_reducible apply formFinal_keeps
    | with_reducible apply AllNext.next
    | with_reducible apply Keeps.ite
    | with_reducible apply AllNext.ite
    | with_reducible apply Keeps.foldl
    | with_reducible apply Keeps.foldN
    | with_reducible apply Keeps.foldr
    | with_reducible apply Keeps.foldlFst
    | split
    | dsimp only
    | assumption

theorem execCanTxTimeout_keeps {ps : List Part} {o s : State} {a1} (h : Keeps ps o s) (hp : [.bc] ⊆ ps) :
    AllNext (execCanTxTimeout a1 s) (Keeps ps o) := by
  unfold execCanTxTimeout
  repeat' first
    | with_reducible exact h
    | with_reducible assumption
    | with_reducible refine Sub.of hp ?_
    | exact rfl
    | intro _
    | with_reducible apply State.raise_keeps
    | with_reducible apply AllNext.next
    | with_reducible apply Keeps.ite
    | with_reducible apply AllNext.ite
    | with_reducible apply Keeps.foldl
    | with_reducible apply Keeps.foldN
    | with_reducible apply Keeps.foldr
    | with_reducible apply Keeps.foldlFst
    | split
    | dsimp only
    | assumption

theorem execMbTimeLo_keeps {ps : List Part} {o s : State} (h : Keeps ps o s) (hp : [.lc] ⊆ ps) :
    AllNext (execMbTimeLo s) (Keeps ps o) := by
  unfold execMbTimeLo
  repeat' first
    | with_reducible exact h
    | with_reducible assumption
    | with_reducible refine Sub.of hp ?_
    | exact rfl
    | intro _
    | with_reducible apply spiReply_keeps
    | with_reducible apply AllNext.next
    | with_reducible apply Keeps.ite
    | with_reducible apply AllNext.ite
    | with_reducible apply Keeps.foldl
    | with_reducible apply Keeps.foldN
    | with_reducible apply Keeps.foldr
    | with_reducible apply Keeps.foldlFst
    | split
    | with_reducible apply Keeps.lc
    | dsimp only
    | assumption

theorem spiRead_keeps {ps : List Part} {o s : State} {a1} (h : Keeps ps o s) (hp : [.lc] ⊆ ps) :
    AllNext (spiRead a1 s) (Keeps ps o) := by
  unfold spiRead
  repeat' first
    | with_reducible exact h
    | with_reducible assumption
    | with_reducible refine Sub.of hp ?_
    | exact rfl
    | intro _
    | with_reducible apply execMbTimeLo_keeps
    | with_reducible apply execNtData_keeps
    | with_reducible apply execMbData_keeps
    | with_reducible apply spiReply_keeps
    | with_reducible apply AllNext.next
    | with_reducible apply Keeps.ite
    | with_reducible apply AllNext.ite
    | with_reducible apply Keeps.foldl
    | with_reducible apply Keeps.foldN
    | with_reducible apply Keeps.foldr
    | with_reducible apply Keeps.foldlFst
    | split
    | with_reducible apply Keeps.lc
    | dsimp only
    | assumption

theorem execNtAck_keeps {ps : List Part} {o s : State} {a1} (h : Keeps ps o s) (hp : [.lc] ⊆ ps) :
    AllNext (execNtAck a1 s) (Keeps ps o) := by
  unfold execNtAck
  repeat' first
    | with_reducible exact h
    | with_reducible assumption
    | with_reducible refine Sub.of hp ?_
    | exact rfl
    | intro _
    | with_reducible apply spiReply_keeps
    | with_reducible apply AllNext.next
    | with_reducible apply Keeps.ite
    | with_reducible apply AllNext.ite
    | with_reducible apply Keeps.foldl
    | with_reducible apply Keeps.foldN
    | with_reducible apply Keeps.foldr
    | with_reducible apply Keeps.foldlFst
    | split
    | with_reducible apply Keeps.lc
    | dsimp only
    | assumption

theorem execNtNext_keeps {ps : List Part} {o s : State} {a1} (h : Keeps ps o s) (hp : [.lc] ⊆ ps) :
    AllNext (execNtNext a1 s) (Keeps ps o) := by
  unfold execNtNext
  repeat' first
    | with_reducible exact h
    | with_reducible assumption
    | with_reducible refine Sub.of hp ?_
    | exact rfl
    | intro _
    | with_reducible apply spiReply_keeps
    | with_reducible apply AllNext.next
    | with_reducible apply Keeps.ite
    | with_reducible apply AllNext.ite
    | with_reducible apply Keeps.foldl
    | with_reducible apply Keeps.foldN
    | with_reducible apply Keeps.foldr
    | with_reducible apply Keeps.foldlFst
    | split
    | with_reducible apply Keeps.lc
    | dsimp only
    | assumption

theorem execMbNext_keeps {ps : List Part} {o s : State} {a1} (h : Keeps ps o s) (hp : [.lc] ⊆ ps) :
    AllNext (execMbNext a1 s) (Keeps ps o) := by
  unfold execMbNext
  repeat' first
    | with_reducible exact h
    | with_reducible assumption
    | with_reducible refine Sub.of hp ?_
    | exact rfl
    | intro _
    | with_reducible apply spiReply_keeps
    | with_reducible apply AllNext.next
    | with_reducible apply Keeps.ite
    | with_reducible apply AllNext.ite
    | with_reducible apply Keeps.foldl
    | with_reducible apply Keeps.foldN
    | with_reducible apply Keeps.foldr
    | with_reducible apply Keeps.foldlFst
    | split
    | with_reducible apply Keeps.lc
    | dsimp only
    | assumption

theorem spiWrite_keeps {ps : List Part} {o s : State} {a1 a2} (h : Keeps ps o s) (hp : [.lc] ⊆ ps) :
    AllNext (spiWrite a1 a2 s) (Keeps ps o) := by
  unfold spiWrite
  repeat' first
    | with_reducible exact h
    | with_reducible assumption
    | with_reducible refine Sub.of hp ?_
    | exact rfl
    | intro _
    | with_reducible apply spiReply_keeps
    | with_reducible apply execNtAck_keeps
    | with_reducible apply execNtNext_keeps
    | with_reducible apply execMbAck_keeps
    | with_reducible apply execMbNext_keeps
    | with_reducible apply AllNext.next
    | with_reducible apply Keeps.ite
    | with_reducible apply AllNext.ite
    | with_reducible apply Keeps.foldl
    | with_reducible apply Keeps.foldN
    | with_reducible apply Keeps.foldr
    | with_reducible apply Keeps.foldlFst
    | split
    | dsimp only
    | assumption

theorem execSpiFrameBad_keeps {ps : List Part} {o s : State} {a1} (h : Keeps ps o s) (hp : [.lc, .bc] ⊆ ps) :
    AllNext (execSpiFrameBad a1 s) (Keeps ps o) := by
  unfold execSpiFrameBad
  repeat' first
    | with_reducible exact h
    | with_reducible assumption
    | with_reducible refine Sub.of hp ?_
    | exact rfl
    | intro _
    | with_reducible apply spiRead_keeps
    | with_reducible apply spiWrite_keeps
    | with_reducible apply spiReply_keeps
    | with_reducible apply State.raise_keeps
    | with_reducible apply AllNext.next
    | with_reducible apply Keeps.ite
    | with_reducible apply AllNext.ite
    | with_reducible apply Keeps.foldl
    | with_reducible apply Keeps.foldN
    | with_reducible apply Keeps.foldr
    | with_reducible apply Keeps.foldlFst
    | split
    | with_reducible apply Keeps.lc
    | dsimp only
    | assumption

theorem execRecordRelease_keeps {ps : List Part} {o s : State} (h : Keeps ps o s) (hp : [.sl, .barges, .mr, .mi, .au, .sn, .lc, .bc, .sio, .se, .hd, .ln, .regs, .mem] ⊆ ps) :
    AllNext (execRecordRelease s) (Keeps ps o) := by
  unfold execRecordRelease
  repeat' first
    | with_reducible exact h
    | with_reducible assumption
    | with_reducible refine Sub.of hp ?_
    | exact rfl
    | intro _
    | with_reducible apply releaseRec_keeps
    | with_reducible apply AllNext.next
    | with_reducible apply Keeps.ite
    | with_reducible apply AllNext.ite
    | with_reducible apply Keeps.foldl
    | with_reducible apply Keeps.foldN
    | with_reducible apply Keeps.foldr
    | with_reducible apply Keeps.foldlFst
    | split
    | with_reducible apply Keeps.lc
    | dsimp only
    | assumption

theorem execVerdictForm_keeps {ps : List Part} {o s : State} {a1 a2} (h : Keeps ps o s) (hp : [.barges, .au, .sn, .lc, .bc, .regs] ⊆ ps) :
    AllNext (execVerdictForm a1 a2 s) (Keeps ps o) := by
  unfold execVerdictForm
  repeat' first
    | with_reducible exact h
    | with_reducible assumption
    | with_reducible refine Sub.of hp ?_
    | exact rfl
    | intro _
    | with_reducible apply tryPending_keeps
    | with_reducible apply formFinal_keeps
    | with_reducible apply State.updBarge_keeps
    | with_reducible apply State.raiseFor_keeps
    | with_reducible apply State.withBarge_keeps
    | with_reducible apply AllNext.next
    | with_reducible apply Keeps.ite
    | with_reducible apply AllNext.ite
    | with_reducible apply Keeps.foldl
    | with_reducible apply Keeps.foldN
    | with_reducible apply Keeps.foldr
    | with_reducible apply Keeps.foldlFst
    | split
    | dsimp only
    | assumption

theorem execPinReadbackMismatch_keeps {ps : List Part} {o s : State} {a1} (h : Keeps ps o s) (hp : [.bc] ⊆ ps) :
    AllNext (execPinReadbackMismatch a1 s) (Keeps ps o) := by
  unfold execPinReadbackMismatch
  repeat' first
    | with_reducible exact h
    | with_reducible assumption
    | with_reducible refine Sub.of hp ?_
    | exact rfl
    | intro _
    | with_reducible apply State.raise_keeps
    | with_reducible apply AllNext.next
    | with_reducible apply Keeps.ite
    | with_reducible apply AllNext.ite
    | with_reducible apply Keeps.foldl
    | with_reducible apply Keeps.foldN
    | with_reducible apply Keeps.foldr
    | with_reducible apply Keeps.foldlFst
    | split
    | dsimp only
    | assumption

theorem execVerdictDeadlineMissed_keeps {ps : List Part} {o s : State} {a1} (h : Keeps ps o s) (hp : [.barges, .au, .sn, .lc, .bc, .regs] ⊆ ps) :
    AllNext (execVerdictDeadlineMissed a1 s) (Keeps ps o) := by
  unfold execVerdictDeadlineMissed
  repeat' first
    | with_reducible exact h
    | with_reducible assumption
    | with_reducible refine Sub.of hp ?_
    | exact rfl
    | intro _
    | with_reducible apply formFinal_keeps
    | with_reducible apply State.withBarge_keeps
    | with_reducible apply AllNext.next
    | with_reducible apply Keeps.ite
    | with_reducible apply AllNext.ite
    | with_reducible apply Keeps.foldl
    | with_reducible apply Keeps.foldN
    | with_reducible apply Keeps.foldr
    | with_reducible apply Keeps.foldlFst
    | split
    | dsimp only
    | assumption

theorem execValidTimeout_keeps {ps : List Part} {o s : State} {a1} (h : Keeps ps o s) (hp : [.lc, .bc, .sio, .regs] ⊆ ps) :
    AllNext (execValidTimeout a1 s) (Keeps ps o) := by
  unfold execValidTimeout
  repeat' first
    | with_reducible exact h
    | with_reducible assumption
    | with_reducible refine Sub.of hp ?_
    | exact rfl
    | intro _
    | with_reducible apply updVal_keeps
    | with_reducible apply State.raise_keeps
    | with_reducible apply brakesCheck_keeps
    | with_reducible apply AllNext.next
    | with_reducible apply Keeps.ite
    | with_reducible apply AllNext.ite
    | with_reducible apply Keeps.foldl
    | with_reducible apply Keeps.foldN
    | with_reducible apply Keeps.foldr
    | with_reducible apply Keeps.foldlFst
    | split
    | dsimp only
    | assumption

theorem execCanFrameReceived_keeps {ps : List Part} {o s : State} {a1} (h : Keeps ps o s) (hp : [.lc] ⊆ ps) :
    AllNext (execCanFrameReceived a1 s) (Keeps ps o) := by
  unfold execCanFrameReceived
  repeat' first
    | with_reducible exact h
    | with_reducible assumption
    | with_reducible refine Sub.of hp ?_
    | exact rfl
    | intro _
    | with_reducible apply updCan_keeps
    | with_reducible apply AllNext.next
    | with_reducible apply Keeps.ite
    | with_reducible apply AllNext.ite
    | with_reducible apply Keeps.foldl
    | with_reducible apply Keeps.foldN
    | with_reducible apply Keeps.foldr
    | with_reducible apply Keeps.foldlFst
    | split
    | dsimp only
    | assumption

theorem execCanFrameSent_keeps {ps : List Part} {o s : State} {a1} (h : Keeps ps o s) (hp : [.lc] ⊆ ps) :
    AllNext (execCanFrameSent a1 s) (Keeps ps o) := by
  unfold execCanFrameSent
  repeat' first
    | with_reducible exact h
    | with_reducible assumption
    | with_reducible refine Sub.of hp ?_
    | exact rfl
    | intro _
    | with_reducible apply updCan_keeps
    | with_reducible apply AllNext.next
    | with_reducible apply Keeps.ite
    | with_reducible apply AllNext.ite
    | with_reducible apply Keeps.foldl
    | with_reducible apply Keeps.foldN
    | with_reducible apply Keeps.foldr
    | with_reducible apply Keeps.foldlFst
    | split
    | dsimp only
    | assumption

end Sys2Proof.Machine
end

