-- ==== Sys2Proof/Laws/KeepsGroups.lean ====
section
/-! SUPPORT. Laws/KeepsGroups.lean: which parts of the state each operation of Machine/Groups.lean can change. -/

namespace Sys2Proof.Machine

theorem updTile_keeps {ps : List Part} {o s : State} {a1 a2} (h : Keeps ps o s) (hp : [.tiles] ⊆ ps) :
    Keeps ps o (updTile s a1 a2) := by
  unfold updTile
  repeat' first
    | with_reducible exact h
    | with_reducible assumption
    | with_reducible refine Sub.of hp ?_
    | exact rfl
    | intro _
    | with_reducible apply AllNext.next
    | with_reducible apply Keeps.ite
    | with_reducible apply AllNext.ite
    | with_reducible apply Keeps.foldl
    | with_reducible apply Keeps.foldN
    | with_reducible apply Keeps.foldr
    | with_reducible apply Keeps.foldlFst
    | split
    | with_reducible apply Keeps.tiles
    | dsimp only
    | assumption

theorem emptySlotsOf_keeps {ps : List Part} {o s : State} {a1} (h : Keeps ps o s) (hp : [.sn] ⊆ ps) :
    Keeps ps o (emptySlotsOf s a1) := by
  unfold emptySlotsOf
  repeat' first
    | with_reducible exact h
    | with_reducible assumption
    | with_reducible refine Sub.of hp ?_
    | exact rfl
    | intro _
    | with_reducible apply AllNext.next
    | with_reducible apply Keeps.ite
    | with_reducible apply AllNext.ite
    | with_reducible apply Keeps.foldl
    | with_reducible apply Keeps.foldN
    | with_reducible apply Keeps.foldr
    | with_reducible apply Keeps.foldlFst
    | split
    | with_reducible apply Keeps.sn
    | dsimp only
    | assumption

theorem retestModels_keeps {ps : List Part} {o s : State} (h : Keeps ps o s) (hp : [.sn, .bc, .regs] ⊆ ps) :
    Keeps ps o (retestModels s) := by
  unfold retestModels
  repeat' first
    | with_reducible exact h
    | with_reducible assumption
    | with_reducible refine Sub.of hp ?_
    | exact rfl
    | intro _
    | with_reducible apply State.setBit_keeps
    | with_reducible apply State.raise_keeps
    | with_reducible apply AllNext.next
    | with_reducible apply Keeps.ite
    | with_reducible apply AllNext.ite
    | with_reducible apply Keeps.foldl
    | with_reducible apply Keeps.foldN
    | with_reducible apply Keeps.foldr
    | with_reducible apply Keeps.foldlFst
    | split
    | with_reducible apply Keeps.sn
    | dsimp only
    | assumption

theorem updSlot_keeps {ps : List Part} {o s : State} {a1 a2} (h : Keeps ps o s) (hp : [.sn] ⊆ ps) :
    Keeps ps o (updSlot s a1 a2) := by
  unfold updSlot
  repeat' first
    | with_reducible exact h
    | with_reducible assumption
    | with_reducible refine Sub.of hp ?_
    | exact rfl
    | intro _
    | with_reducible apply AllNext.next
    | with_reducible apply Keeps.ite
    | with_reducible apply AllNext.ite
    | with_reducible apply Keeps.foldl
    | with_reducible apply Keeps.foldN
    | with_reducible apply Keeps.foldr
    | with_reducible apply Keeps.foldlFst
    | split
    | with_reducible apply Keeps.sn
    | dsimp only
    | assumption

end Sys2Proof.Machine
end

