-- ==== Sys2Proof/Laws/KeepsMasks.lean ====
section
/-! SUPPORT. Laws/KeepsMasks.lean: which parts of the state each operation of Machine/Masks.lean can change. -/

namespace Sys2Proof.Machine

theorem openInterval_keeps {ps : List Part} {o s : State} {a1 a2 a3 a4} (h : Keeps ps o s) (hp : [.bc] ⊆ ps) :
    Keeps ps o (openInterval s a1 a2 a3 a4) := by
  unfold openInterval
  repeat' first
    | with_reducible exact h
    | with_reducible assumption
    | with_reducible refine Sub.of hp ?_
    | exact rfl
    | intro _
    | with_reducible apply AllNext.next
    | with_reducible apply Keeps.ite
    | with_reducible apply AllNext.ite
    | with_reducible apply Keeps.foldl
    | with_reducible apply Keeps.foldN
    | with_reducible apply Keeps.foldr
    | with_reducible apply Keeps.foldlFst
    | split
    | with_reducible apply Keeps.bc
    | dsimp only
    | assumption

theorem openMask_keeps {ps : List Part} {o s : State} {a1 a2} (h : Keeps ps o s) (hp : [.bc] ⊆ ps) :
    Keeps ps o (openMask s a1 a2) := by
  unfold openMask
  repeat' first
    | with_reducible exact h
    | with_reducible assumption
    | with_reducible refine Sub.of hp ?_
    | exact rfl
    | intro _
    | with_reducible apply openInterval_keeps
    | with_reducible apply AllNext.next
    | with_reducible apply Keeps.ite
    | with_reducible apply AllNext.ite
    | with_reducible apply Keeps.foldl
    | with_reducible apply Keeps.foldN
    | with_reducible apply Keeps.foldr
    | with_reducible apply Keeps.foldlFst
    | split
    | dsimp only
    | assumption

theorem glintRan_keeps {ps : List Part} {o s : State} {a1} (h : Keeps ps o s) (hp : [.bc] ⊆ ps) :
    Keeps ps o (glintRan s a1) := by
  unfold glintRan
  repeat' first
    | with_reducible exact h
    | with_reducible assumption
    | with_reducible refine Sub.of hp ?_
    | exact rfl
    | intro _
    | with_reducible apply AllNext.next
    | with_reducible apply Keeps.ite
    | with_reducible apply AllNext.ite
    | with_reducible apply Keeps.foldl
    | with_reducible apply Keeps.foldN
    | with_reducible apply Keeps.foldr
    | with_reducible apply Keeps.foldlFst
    | split
    | with_reducible apply Keeps.bc
    | dsimp only
    | assumption

end Sys2Proof.Machine
end

