-- ==== Sys2Proof/Laws/KeepsMilepost.lean ====
section
/-! SUPPORT. Laws/KeepsMilepost.lean: which parts of the state each operation of Machine/Milepost.lean can change. -/

namespace Sys2Proof.Machine

theorem setQuality_keeps {ps : List Part} {o s : State} {a1} (h : Keeps ps o s) (hp : [.mp, .bc, .regs] ⊆ ps) :
    Keeps ps o (setQuality s a1) := by
  unfold setQuality
  repeat' first
    | with_reducible exact h
    | with_reducible assumption
    | with_reducible refine Sub.of hp ?_
    | exact rfl
    | intro _
    | with_reducible apply State.setBit_keeps
    | with_reducible apply State.raise_keeps
    | with_reducible apply AllNext.next
    | with_reducible apply Keeps.ite
    | with_reducible apply AllNext.ite
    | with_reducible apply Keeps.foldl
    | with_reducible apply Keeps.foldN
    | with_reducible apply Keeps.foldr
    | with_reducible apply Keeps.foldlFst
    | split
    | with_reducible apply Keeps.mp
    | dsimp only
    | assumption

theorem updEnc_keeps {ps : List Part} {o s : State} {a1 a2} (h : Keeps ps o s) (hp : [.mp] ⊆ ps) :
    Keeps ps o (updEnc s a1 a2) := by
  unfold updEnc
  repeat' first
    | with_reducible exact h
    | with_reducible assumption
    | with_reducible refine Sub.of hp ?_
    | exact rfl
    | intro _
    | with_reducible apply AllNext.next
    | with_reducible apply Keeps.ite
    | with_reducible apply AllNext.ite
    | with_reducible apply Keeps.foldl
    | with_reducible apply Keeps.foldN
    | with_reducible apply Keeps.foldr
    | with_reducible apply Keeps.foldlFst
    | split
    | with_reducible apply Keeps.mp
    | dsimp only
    | assumption

theorem loseEncoder_keeps {ps : List Part} {o s : State} {a1} (h : Keeps ps o s) (hp : [.mp, .bc, .regs] ⊆ ps) :
    Keeps ps o (loseEncoder s a1) := by
  unfold loseEncoder
  repeat' first
    | with_reducible exact h
    | with_reducible assumption
    | with_reducible refine Sub.of hp ?_
    | exact rfl
    | intro _
    | with_reducible apply setQuality_keeps
    | with_reducible apply updEnc_keeps
    | with_reducible apply AllNext.next
    | with_reducible apply Keeps.ite
    | with_reducible apply AllNext.ite
    | with_reducible apply Keeps.foldl
    | with_reducible apply Keeps.foldN
    | with_reducible apply Keeps.foldr
    | with_reducible apply Keeps.foldlFst
    | split
    | dsimp only
    | assumption

theorem trigPulse_keeps {ps : List Part} {o s : State} {a1 a2} (h : Keeps ps o s) (hp : [.mp] ⊆ ps) :
    Keeps ps o (trigPulse s a1 a2) := by
  unfold trigPulse
  repeat' first
    | with_reducible exact h
    | with_reducible assumption
    | with_reducible refine Sub.of hp ?_
    | exact rfl
    | intro _
    | with_reducible apply AllNext.next
    | with_reducible apply Keeps.ite
    | with_reducible apply AllNext.ite
    | with_reducible apply Keeps.foldl
    | with_reducible apply Keeps.foldN
    | with_reducible apply Keeps.foldr
    | with_reducible apply Keeps.foldlFst
    | split
    | with_reducible apply Keeps.mp
    | dsimp only
    | assumption

theorem trigMask_keeps {ps : List Part} {o s : State} {a1 a2} (h : Keeps ps o s) (hp : [.mp] ⊆ ps) :
    Keeps ps o (trigMask s a1 a2) := by
  unfold trigMask
  repeat' first
    | with_reducible exact h
    | with_reducible assumption
    | with_reducible refine Sub.of hp ?_
    | exact rfl
    | intro _
    | with_reducible apply trigPulse_keeps
    | with_reducible apply AllNext.next
    | with_reducible apply Keeps.ite
    | with_reducible apply AllNext.ite
    | with_reducible apply Keeps.foldl
    | with_reducible apply Keeps.foldN
    | with_reducible apply Keeps.foldr
    | with_reducible apply Keeps.foldlFst
    | split
    | dsimp only
    | assumption

theorem execPostqPop_keeps {ps : List Part} {o s : State} (h : Keeps ps o s) (hp : [.bus, .mp, .regs] ⊆ ps) :
    AllNext (execPostqPop s) (Keeps ps o) := by
  unfold execPostqPop
  repeat' first
    | with_reducible exact h
    | with_reducible assumption
    | with_reducible refine Sub.of hp ?_
    | exact rfl
    | intro _
    | with_reducible apply State.setReg_keeps
    | with_reducible apply State.busOk_keeps
    | with_reducible apply AllNext.next
    | with_reducible apply Keeps.ite
    | with_reducible apply AllNext.ite
    | with_reducible apply Keeps.foldl
    | with_reducible apply Keeps.foldN
    | with_reducible apply Keeps.foldr
    | with_reducible apply Keeps.foldlFst
    | split
    | with_reducible apply Keeps.mp
    | dsimp only
    | assumption

theorem estimateOne_keeps {ps : List Part} {o s : State} {a1} (h : Keeps ps o s) (hp : [.mp, .regs] ⊆ ps) :
    Keeps ps o (estimateOne s a1) := by
  unfold estimateOne
  repeat' first
    | with_reducible exact h
    | with_reducible assumption
    | with_reducible refine Sub.of hp ?_
    | exact rfl
    | intro _
    | with_reducible apply State.setReg_keeps
    | with_reducible apply updEnc_keeps
    | with_reducible apply AllNext.next
    | with_reducible apply Keeps.ite
    | with_reducible apply AllNext.ite
    | with_reducible apply Keeps.foldl
    | with_reducible apply Keeps.foldN
    | with_reducible apply Keeps.foldr
    | with_reducible apply Keeps.foldlFst
    | split
    | dsimp only
    | assumption

theorem estimateAll_keeps {ps : List Part} {o s : State} (h : Keeps ps o s) (hp : [.mp, .bc, .regs] ⊆ ps) :
    Keeps ps o (estimateAll s) := by
  unfold estimateAll
  repeat' first
    | with_reducible exact h
    | with_reducible assumption
    | with_reducible refine Sub.of hp ?_
    | exact rfl
    | intro _
    | with_reducible apply State.level_keeps
    | with_reducible apply estimateOne_keeps
    | with_reducible apply AllNext.next
    | with_reducible apply Keeps.ite
    | with_reducible apply AllNext.ite
    | with_reducible apply Keeps.foldl
    | with_reducible apply Keeps.foldN
    | with_reducible apply Keeps.foldr
    | with_reducible apply Keeps.foldlFst
    | split
    | with_reducible apply Keeps.mp
    | dsimp only
    | assumption

theorem execSpeedEstimate_keeps {ps : List Part} {o s : State} (h : Keeps ps o s) (hp : [.mp, .bc, .regs] ⊆ ps) :
    AllNext (execSpeedEstimate s) (Keeps ps o) := by
  unfold execSpeedEstimate
  repeat' first
    | with_reducible exact h
    | with_reducible assumption
    | with_reducible refine Sub.of hp ?_
    | exact rfl
    | intro _
    | with_reducible apply estimateAll_keeps
    | with_reducible apply AllNext.next
    | with_reducible apply Keeps.ite
    | with_reducible apply AllNext.ite
    | with_reducible apply Keeps.foldl
    | with_reducible apply Keeps.foldN
    | with_reducible apply Keeps.foldr
    | with_reducible apply Keeps.foldlFst
    | split
    | dsimp only
    | assumption

theorem tickTravel_keeps {ps : List Part} {o s : State} (h : Keeps ps o s) (hp : [.mp] ⊆ ps) :
    Keeps ps o (tickTravel s) := by
  unfold tickTravel
  repeat' first
    | with_reducible exact h
    | with_reducible assumption
    | with_reducible refine Sub.of hp ?_
    | exact rfl
    | intro _
    | with_reducible apply AllNext.next
    | with_reducible apply Keeps.ite
    | with_reducible apply AllNext.ite
    | with_reducible apply Keeps.foldl
    | with_reducible apply Keeps.foldN
    | with_reducible apply Keeps.foldr
    | with_reducible apply Keeps.foldlFst
    | split
    | with_reducible apply Keeps.mp
    | dsimp only
    | assumption

theorem addTravel_keeps {ps : List Part} {o s : State} {a1 a2} (h : Keeps ps o s) (hp : [.mp] ⊆ ps) :
    Keeps ps o (addTravel s a1 a2) := by
  unfold addTravel
  repeat' first
    | with_reducible exact h
    | with_reducible assumption
    | with_reducible refine Sub.of hp ?_
    | exact rfl
    | intro _
    | with_reducible apply AllNext.next
    | with_reducible apply Keeps.ite
    | with_reducible apply AllNext.ite
    | with_reducible apply Keeps.foldl
    | with_reducible apply Keeps.foldN
    | with_reducible apply Keeps.foldr
    | with_reducible apply Keeps.foldlFst
    | split
    | with_reducible apply Keeps.mp
    | dsimp only
    | assumption

theorem encMove_keeps {ps : List Part} {o s : State} {a1 a2 a3} (h : Keeps ps o s) (hp : [.mp] ⊆ ps) :
    Keeps ps o (encMove s a1 a2 a3) := by
  unfold encMove
  repeat' first
    | with_reducible exact h
    | with_reducible assumption
    | with_reducible refine Sub.of hp ?_
    | exact rfl
    | intro _
    | with_reducible apply addTravel_keeps
    | with_reducible apply updEnc_keeps
    | with_reducible apply AllNext.next
    | with_reducible apply Keeps.ite
    | with_reducible apply AllNext.ite
    | with_reducible apply Keeps.foldl
    | with_reducible apply Keeps.foldN
    | with_reducible apply Keeps.foldr
    | with_reducible apply Keeps.foldlFst
    | split
    | with_reducible apply Keeps.mp
    | dsimp only
    | assumption

theorem encError_keeps {ps : List Part} {o s : State} {a1 a2} (h : Keeps ps o s) (hp : [.bc, .regs] ⊆ ps) :
    Keeps ps o (encError s a1 a2) := by
  unfold encError
  repeat' first
    | with_reducible exact h
    | with_reducible assumption
    | with_reducible refine Sub.of hp ?_
    | exact rfl
    | intro _
    | with_reducible apply State.setBit_keeps
    | with_reducible apply State.raise_keeps
    | with_reducible apply AllNext.next
    | with_reducible apply Keeps.ite
    | with_reducible apply AllNext.ite
    | with_reducible apply Keeps.foldl
    | with_reducible apply Keeps.foldN
    | with_reducible apply Keeps.foldr
    | with_reducible apply Keeps.foldlFst
    | split
    | dsimp only
    | assumption

theorem execSingleTimeout_keeps {ps : List Part} {o s : State} (h : Keeps ps o s) (hp : [.mp, .bc, .regs] ⊆ ps) :
    AllNext (execSingleTimeout s) (Keeps ps o) := by
  unfold execSingleTimeout
  repeat' first
    | with_reducible exact h
    | with_reducible assumption
    | with_reducible refine Sub.of hp ?_
    | exact rfl
    | intro _
    | with_reducible apply setQuality_keeps
    | with_reducible apply AllNext.next
    | with_reducible apply Keeps.ite
    | with_reducible apply AllNext.ite
    | with_reducible apply Keeps.foldl
    | with_reducible apply Keeps.foldN
    | with_reducible apply Keeps.foldr
    | with_reducible apply Keeps.foldlFst
    | split
    | dsimp only
    | assumption

theorem execSsiRead_keeps {ps : List Part} {o s : State} {a1 a2} (h : Keeps ps o s) (hp : [.mp, .bc, .regs] ⊆ ps) :
    AllNext (execSsiRead a1 a2 s) (Keeps ps o) := by
  unfold execSsiRead
  repeat' first
    | with_reducible exact h
    | with_reducible assumption
    | with_reducible refine Sub.of hp ?_
    | exact rfl
    | intro _
    | with_reducible apply encMove_keeps
    | with_reducible apply State.setReg_keeps
    | with_reducible apply loseEncoder_keeps
    | with_reducible apply encError_keeps
    | with_reducible apply updEnc_keeps
    | with_reducible apply AllNext.next
    | with_reducible apply Keeps.ite
    | with_reducible apply AllNext.ite
    | with_reducible apply Keeps.foldl
    | with_reducible apply Keeps.foldN
    | with_reducible apply Keeps.foldr
    | with_reducible apply Keeps.foldlFst
    | split
    | dsimp only
    | assumption

theorem execZPulse_keeps {ps : List Part} {o s : State} {a1} (h : Keeps ps o s) (hp : [.mp, .bc, .regs] ⊆ ps) :
    AllNext (execZPulse a1 s) (Keeps ps o) := by
  unfold execZPulse
  repeat' first
    | with_reducible exact h
    | with_reducible assumption
    | with_reducible refine Sub.of hp ?_
    | exact rfl
    | intro _
    | with_reducible apply encError_keeps
    | with_reducible apply updEnc_keeps
    | with_reducible apply AllNext.next
    | with_reducible apply Keeps.ite
    | with_reducible apply AllNext.ite
    | with_reducible apply Keeps.foldl
    | with_reducible apply Keeps.foldN
    | with_reducible apply Keeps.foldr
    | with_reducible apply Keeps.foldlFst
    | split
    | dsimp only
    | assumption

theorem execTimerCompareReached_keeps {ps : List Part} {o s : State} {a1} (h : Keeps ps o s) (hp : [.mp, .regs] ⊆ ps) :
    AllNext (execTimerCompareReached a1 s) (Keeps ps o) := by
  unfold execTimerCompareReached
  repeat' first
    | with_reducible exact h
    | with_reducible assumption
    | with_reducible refine Sub.of hp ?_
    | exact rfl
    | intro _
    | with_reducible apply State.setReg64_keeps
    | with_reducible apply trigMask_keeps
    | with_reducible apply State.setBit_keeps
    | with_reducible apply AllNext.next
    | with_reducible apply Keeps.ite
    | with_reducible apply AllNext.ite
    | with_reducible apply Keeps.foldl
    | with_reducible apply Keeps.foldN
    | with_reducible apply Keeps.foldr
    | with_reducible apply Keeps.foldlFst
    | split
    | dsimp only
    | assumption

theorem quadCount_keeps {ps : List Part} {o s : State} {a1 a2 a3} (h : Keeps ps o s) (hp : [.mp, .regs] ⊆ ps) :
    Keeps ps o (quadCount s a1 a2 a3) := by
  unfold quadCount
  repeat' first
    | with_reducible exact h
    | with_reducible assumption
    | with_reducible refine Sub.of hp ?_
    | exact rfl
    | intro _
    | with_reducible apply encMove_keeps
    | with_reducible apply updEnc_keeps
    | with_reducible apply State.setReg_keeps
    | with_reducible apply AllNext.next
    | with_reducible apply Keeps.ite
    | with_reducible apply AllNext.ite
    | with_reducible apply Keeps.foldl
    | with_reducible apply Keeps.foldN
    | with_reducible apply Keeps.foldr
    | with_reducible apply Keeps.foldlFst
    | split
    | dsimp only
    | assumption

theorem execEncoderLineFault_keeps {ps : List Part} {o s : State} {a1} (h : Keeps ps o s) (hp : [.mp, .bc, .regs] ⊆ ps) :
    AllNext (execEncoderLineFault a1 s) (Keeps ps o) := by
  unfold execEncoderLineFault
  repeat' first
    | with_reducible exact h
    | with_reducible assumption
    | with_reducible refine Sub.of hp ?_
    | exact rfl
    | intro _
    | with_reducible apply encError_keeps
    | with_reducible apply loseEncoder_keeps
    | with_reducible apply AllNext.next
    | with_reducible apply Keeps.ite
    | with_reducible apply AllNext.ite
    | with_reducible apply Keeps.foldl
    | with_reducible apply Keeps.foldN
    | with_reducible apply Keeps.foldr
    | with_reducible apply Keeps.foldlFst
    | split
    | dsimp only
    | assumption

theorem execReadLoLatch_keeps {ps : List Part} {o s : State} {a1 a2} (h : Keeps ps o s) (hp : [.bus, .mp, .bc] ⊆ ps) :
    AllNext (execReadLoLatch a1 a2 s) (Keeps ps o) := by
  unfold execReadLoLatch
  repeat' first
    | with_reducible exact h
    | with_reducible assumption
    | with_reducible refine Sub.of hp ?_
    | exact rfl
    | intro _
    | with_reducible apply State.refuse_keeps
    | with_reducible apply State.busOk_keeps
    | with_reducible apply AllNext.next
    | with_reducible apply Keeps.ite
    | with_reducible apply AllNext.ite
    | with_reducible apply Keeps.foldl
    | with_reducible apply Keeps.foldN
    | with_reducible apply Keeps.foldr
    | with_reducible apply Keeps.foldlFst
    | split
    | with_reducible apply Keeps.mp
    | dsimp only
    | assumption

theorem execCapturePop_keeps {ps : List Part} {o s : State} {a1 a2} (h : Keeps ps o s) (hp : [.bus, .mp, .bc] ⊆ ps) :
    AllNext (execCapturePop a1 a2 s) (Keeps ps o) := by
  unfold execCapturePop
  repeat' first
    | with_reducible exact h
    | with_reducible assumption
    | with_reducible refine Sub.of hp ?_
    | exact rfl
    | intro _
    | with_reducible apply State.busOk_keeps
    | with_reducible apply State.refuse_keeps
    | with_reducible apply AllNext.next
    | with_reducible apply Keeps.ite
    | with_reducible apply AllNext.ite
    | with_reducible apply Keeps.foldl
    | with_reducible apply Keeps.foldN
    | with_reducible apply Keeps.foldr
    | with_reducible apply Keeps.foldlFst
    | split
    | with_reducible apply Keeps.mp
    | dsimp only
    | assumption

theorem execCaptureEdge_keeps {ps : List Part} {o s : State} {a1 a2} (h : Keeps ps o s) (hp : [.mp, .bc, .regs] ⊆ ps) :
    AllNext (execCaptureEdge a1 a2 s) (Keeps ps o) := by
  unfold execCaptureEdge
  repeat' first
    | with_reducible exact h
    | with_reducible assumption
    | with_reducible refine Sub.of hp ?_
    | exact rfl
    | intro _
    | with_reducible apply State.raise_keeps
    | with_reducible apply State.setBit_keeps
    | with_reducible apply AllNext.next
    | with_reducible apply Keeps.ite
    | with_reducible apply AllNext.ite
    | with_reducible apply Keeps.foldl
    | with_reducible apply Keeps.foldN
    | with_reducible apply Keeps.foldr
    | with_reducible apply Keeps.foldlFst
    | split
    | with_reducible apply Keeps.mp
    | dsimp only
    | assumption

theorem execTrigPulseEnd_keeps {ps : List Part} {o s : State} {a1} (h : Keeps ps o s) (hp : [.mp] ⊆ ps) :
    AllNext (execTrigPulseEnd a1 s) (Keeps ps o) := by
  unfold execTrigPulseEnd
  repeat' first
    | with_reducible exact h
    | with_reducible assumption
    | with_reducible refine Sub.of hp ?_
    | exact rfl
    | intro _
    | with_reducible apply AllNext.next
    | with_reducible apply Keeps.ite
    | with_reducible apply AllNext.ite
    | with_reducible apply Keeps.foldl
    | with_reducible apply Keeps.foldN
    | with_reducible apply Keeps.foldr
    | with_reducible apply Keeps.foldlFst
    | split
    | with_reducible apply Keeps.mp
    | dsimp only
    | assumption

theorem execTimeIntegrityFault_keeps {ps : List Part} {o s : State} {a1} (h : Keeps ps o s) (hp : [.mp, .bc] ⊆ ps) :
    AllNext (execTimeIntegrityFault a1 s) (Keeps ps o) := by
  unfold execTimeIntegrityFault
  repeat' first
    | with_reducible exact h
    | with_reducible assumption
    | with_reducible refine Sub.of hp ?_
    | exact rfl
    | intro _
    | with_reducible apply State.raise_keeps
    | with_reducible apply AllNext.next
    | with_reducible apply Keeps.ite
    | with_reducible apply AllNext.ite
    | with_reducible apply Keeps.foldl
    | with_reducible apply Keeps.foldN
    | with_reducible apply Keeps.foldr
    | with_reducible apply Keeps.foldlFst
    | split
    | with_reducible apply Keeps.mp
    | dsimp only
    | assumption

theorem execTincWrite_keeps {ps : List Part} {o s : State} {a1 a2 a3 a4} (h : Keeps ps o s) (hp : [.bus, .bc, .regs] ⊆ ps) :
    AllNext (execTincWrite a1 a2 a3 a4 s) (Keeps ps o) := by
  unfold execTincWrite
  repeat' first
    | with_reducible exact h
    | with_reducible assumption
    | with_reducible refine Sub.of hp ?_
    | exact rfl
    | intro _
    | with_reducible apply State.setReg_keeps
    | with_reducible apply State.openWrite_keeps
    | with_reducible apply AllNext.next
    | with_reducible apply Keeps.ite
    | with_reducible apply AllNext.ite
    | with_reducible apply Keeps.foldl
    | with_reducible apply Keeps.foldN
    | with_reducible apply Keeps.foldr
    | with_reducible apply Keeps.foldlFst
    | split
    | dsimp only
    | assumption

theorem execQuadratureEdge_keeps {ps : List Part} {o s : State} {a1 a2 a3} (h : Keeps ps o s) (hp : [.mp, .bc, .regs] ⊆ ps) :
    AllNext (execQuadratureEdge a1 a2 a3 s) (Keeps ps o) := by
  unfold execQuadratureEdge
  repeat' first
    | with_reducible exact h
    | with_reducible assumption
    | with_reducible refine Sub.of hp ?_
    | exact rfl
    | intro _
    | with_reducible apply quadCount_keeps
    | with_reducible apply encError_keeps
    | with_reducible apply updEnc_keeps
    | with_reducible apply AllNext.next
    | with_reducible apply Keeps.ite
    | with_reducible apply AllNext.ite
    | with_reducible apply Keeps.foldl
    | with_reducible apply Keeps.foldN
    | with_reducible apply Keeps.foldr
    | with_reducible apply Keeps.foldlFst
    | split
    | dsimp only
    | assumption

theorem tickTimer_keeps {ps : List Part} {o s : State} {a1} (h : Keeps ps o s) (hp : [.mp] ⊆ ps) :
    Keeps ps o (tickTimer s a1) := by
  unfold tickTimer
  repeat' first
    | with_reducible exact h
    | with_reducible assumption
    | with_reducible refine Sub.of hp ?_
    | exact rfl
    | intro _
    | with_reducible apply AllNext.next
    | with_reducible apply Keeps.ite
    | with_reducible apply AllNext.ite
    | with_reducible apply Keeps.foldl
    | with_reducible apply Keeps.foldN
    | with_reducible apply Keeps.foldr
    | with_reducible apply Keeps.foldlFst
    | split
    | with_reducible apply Keeps.mp
    | dsimp only
    | assumption

end Sys2Proof.Machine
end

