-- ==== Sys2Proof/Laws/KeepsRails.lean ====
section
/-! SUPPORT. Laws/KeepsRails.lean: which parts of the state each operation of Machine/Rails.lean can change. -/

namespace Sys2Proof.Machine

theorem updWr_keeps {ps : List Part} {o s : State} {a1} (h : Keeps ps o s) (hp : [.wr] ⊆ ps) :
    Keeps ps o (updWr s a1) := by
  unfold updWr
  repeat' first
    | with_reducible exact h
    | with_reducible assumption
    | with_reducible refine Sub.of hp ?_
    | exact rfl
    | intro _
    | with_reducible apply AllNext.next
    | with_reducible apply Keeps.ite
    | with_reducible apply AllNext.ite
    | with_reducible apply Keeps.foldl
    | with_reducible apply Keeps.foldN
    | with_reducible apply Keeps.foldr
    | with_reducible apply Keeps.foldlFst
    | split
    | with_reducible apply Keeps.wr
    | dsimp only
    | assumption

theorem adcLevel_keeps {ps : List Part} {o s : State} (h : Keeps ps o s) (hp : [.bc] ⊆ ps) :
    Keeps ps o (adcLevel s) := by
  unfold adcLevel
  repeat' first
    | with_reducible exact h
    | with_reducible assumption
    | with_reducible refine Sub.of hp ?_
    | exact rfl
    | intro _
    | with_reducible apply State.level_keeps
    | with_reducible apply AllNext.next
    | with_reducible apply Keeps.ite
    | with_reducible apply AllNext.ite
    | with_reducible apply Keeps.foldl
    | with_reducible apply Keeps.foldN
    | with_reducible apply Keeps.foldr
    | with_reducible apply Keeps.foldlFst
    | split
    | dsimp only
    | assumption

theorem disarm_keeps {ps : List Part} {o s : State} {a1} (h : Keeps ps o s) (hp : [.bc, .wr] ⊆ ps) :
    Keeps ps o (disarm s a1) := by
  unfold disarm
  repeat' first
    | with_reducible exact h
    | with_reducible assumption
    | with_reducible refine Sub.of hp ?_
    | exact rfl
    | intro _
    | with_reducible apply updWr_keeps
    | with_reducible apply adcLevel_keeps
    | with_reducible apply AllNext.next
    | with_reducible apply Keeps.ite
    | with_reducible apply AllNext.ite
    | with_reducible apply Keeps.foldl
    | with_reducible apply Keeps.foldN
    | with_reducible apply Keeps.foldr
    | with_reducible apply Keeps.foldlFst
    | split
    | dsimp only
    | assumption

theorem cutRails_keeps {ps : List Part} {o s : State} (h : Keeps ps o s) (hp : [.mr, .bc, .wr] ⊆ ps) :
    Keeps ps o (cutRails s) := by
  unfold cutRails
  repeat' first
    | with_reducible exact h
    | with_reducible assumption
    | with_reducible refine Sub.of hp ?_
    | exact rfl
    | intro _
    | with_reducible apply updWr_keeps
    | with_reducible apply disarm_keeps
    | with_reducible apply AllNext.next
    | with_reducible apply Keeps.ite
    | with_reducible apply AllNext.ite
    | with_reducible apply Keeps.foldl
    | with_reducible apply Keeps.foldN
    | with_reducible apply Keeps.foldr
    | with_reducible apply Keeps.foldlFst
    | split
    | with_reducible apply Keeps.mr
    | dsimp only
    | assumption

theorem startSafe_keeps {ps : List Part} {o s : State} (h : Keeps ps o s) (hp : [.wr] ⊆ ps) :
    Keeps ps o (startSafe s) := by
  unfold startSafe
  repeat' first
    | with_reducible exact h
    | with_reducible assumption
    | with_reducible refine Sub.of hp ?_
    | exact rfl
    | intro _
    | with_reducible apply updWr_keeps
    | with_reducible apply AllNext.next
    | with_reducible apply Keeps.ite
    | with_reducible apply AllNext.ite
    | with_reducible apply Keeps.foldl
    | with_reducible apply Keeps.foldN
    | with_reducible apply Keeps.foldr
    | with_reducible apply Keeps.foldlFst
    | split
    | dsimp only
    | assumption

theorem startDown_keeps {ps : List Part} {o s : State} (h : Keeps ps o s) (hp : [.barges, .mr, .lc, .bc, .wr, .regs] ⊆ ps) :
    Keeps ps o (startDown s) := by
  unfold startDown
  repeat' first
    | with_reducible exact h
    | with_reducible assumption
    | with_reducible refine Sub.of hp ?_
    | exact rfl
    | intro _
    | with_reducible apply updWr_keeps
    | with_reducible apply leaveServing_keeps
    | with_reducible apply AllNext.next
    | with_reducible apply Keeps.ite
    | with_reducible apply AllNext.ite
    | with_reducible apply Keeps.foldl
    | with_reducible apply Keeps.foldN
    | with_reducible apply Keeps.foldr
    | with_reducible apply Keeps.foldlFst
    | split
    | with_reducible apply Keeps.mr
    | dsimp only
    | assumption

theorem startFail_keeps {ps : List Part} {o s : State} {a1} (h : Keeps ps o s) (hp : [.barges, .mr, .lc, .bc, .wr, .regs] ⊆ ps) :
    Keeps ps o (startFail s a1) := by
  unfold startFail
  repeat' first
    | with_reducible exact h
    | with_reducible assumption
    | with_reducible refine Sub.of hp ?_
    | exact rfl
    | intro _
    | with_reducible apply startDown_keeps
    | with_reducible apply updWr_keeps
    | with_reducible apply AllNext.next
    | with_reducible apply Keeps.ite
    | with_reducible apply AllNext.ite
    | with_reducible apply Keeps.foldl
    | with_reducible apply Keeps.foldN
    | with_reducible apply Keeps.foldr
    | with_reducible apply Keeps.foldlFst
    | split
    | dsimp only
    | assumption

end Sys2Proof.Machine
end

