-- ==== Sys2Proof/Laws/KeepsTally.lean ====
section
/-! SUPPORT. Laws/KeepsTally.lean: which parts of the state each operation of Machine/Tally.lean can change. -/

namespace Sys2Proof.Machine

theorem updUnit_keeps {ps : List Part} {o s : State} {a1 a2} (h : Keeps ps o s) (hp : [.ty] ⊆ ps) :
    Keeps ps o (updUnit s a1 a2) := by
  unfold updUnit
  repeat' first
    | with_reducible exact h
    | with_reducible assumption
    | with_reducible refine Sub.of hp ?_
    | exact rfl
    | intro _
    | with_reducible apply AllNext.next
    | with_reducible apply Keeps.ite
    | with_reducible apply AllNext.ite
    | with_reducible apply Keeps.foldl
    | with_reducible apply Keeps.foldN
    | with_reducible apply Keeps.foldr
    | with_reducible apply Keeps.foldlFst
    | split
    | with_reducible apply Keeps.ty
    | dsimp only
    | assumption

theorem endUnit_keeps {ps : List Part} {o s : State} {a1} (h : Keeps ps o s) (hp : [.ty, .regs] ⊆ ps) :
    Keeps ps o (endUnit s a1) := by
  unfold endUnit
  repeat' first
    | with_reducible exact h
    | with_reducible assumption
    | with_reducible refine Sub.of hp ?_
    | exact rfl
    | intro _
    | with_reducible apply State.setReg_keeps
    | with_reducible apply updUnit_keeps
    | with_reducible apply AllNext.next
    | with_reducible apply Keeps.ite
    | with_reducible apply AllNext.ite
    | with_reducible apply Keeps.foldl
    | with_reducible apply Keeps.foldN
    | with_reducible apply Keeps.foldr
    | with_reducible apply Keeps.foldlFst
    | split
    | dsimp only
    | assumption

theorem endUnitsOf_keeps {ps : List Part} {o s : State} {a1} (h : Keeps ps o s) (hp : [.ty, .regs] ⊆ ps) :
    Keeps ps o (endUnitsOf s a1) := by
  unfold endUnitsOf
  repeat' first
    | with_reducible exact h
    | with_reducible assumption
    | with_reducible refine Sub.of hp ?_
    | exact rfl
    | intro _
    | with_reducible apply endUnit_keeps
    | with_reducible apply AllNext.next
    | with_reducible apply Keeps.ite
    | with_reducible apply AllNext.ite
    | with_reducible apply Keeps.foldl
    | with_reducible apply Keeps.foldN
    | with_reducible apply Keeps.foldr
    | with_reducible apply Keeps.foldlFst
    | split
    | dsimp only
    | assumption

theorem tallyForeign_keeps {ps : List Part} {o s : State} {a1 a2} (h : Keeps ps o s) (hp : [.bus, .bc, .regs] ⊆ ps) :
    Keeps ps o (tallyForeign s a1 a2) := by
  unfold tallyForeign
  repeat' first
    | with_reducible exact h
    | with_reducible assumption
    | with_reducible refine Sub.of hp ?_
    | exact rfl
    | intro _
    | with_reducible apply State.busError_keeps
    | with_reducible apply State.raiseSyn_keeps
    | with_reducible apply State.setFld_keeps
    | with_reducible apply AllNext.next
    | with_reducible apply Keeps.ite
    | with_reducible apply AllNext.ite
    | with_reducible apply Keeps.foldl
    | with_reducible apply Keeps.foldN
    | with_reducible apply Keeps.foldr
    | with_reducible apply Keeps.foldlFst
    | split
    | dsimp only
    | assumption

theorem tallyWrite_keeps {ps : List Part} {o s : State} {a1 a2} {f} (hf : ∀ x, Keeps ps o x → Keeps ps o (f x)) (h : Keeps ps o s) (hp : [.bus, .bc, .regs] ⊆ ps) :
    Keeps ps o (tallyWrite s a1 a2 f) := by
  unfold tallyWrite
  repeat' first
    | with_reducible exact h
    | with_reducible assumption
    | with_reducible refine Sub.of hp ?_
    | exact rfl
    | intro _
    | with_reducible apply State.refuse_keeps
    | with_reducible apply tallyForeign_keeps
    | with_reducible apply State.busOk_keeps
    | with_reducible apply hf
    | with_reducible apply AllNext.next
    | with_reducible apply Keeps.ite
    | with_reducible apply AllNext.ite
    | with_reducible apply Keeps.foldl
    | with_reducible apply Keeps.foldN
    | with_reducible apply Keeps.foldr
    | with_reducible apply Keeps.foldlFst
    | split
    | dsimp only
    | assumption

theorem execTallyAliveChk_keeps {ps : List Part} {o s : State} {a1 a2 a3} (h : Keeps ps o s) (hp : [.bus, .bc, .ty, .regs] ⊆ ps) :
    AllNext (execTallyAliveChk a1 a2 a3 s) (Keeps ps o) := by
  unfold execTallyAliveChk
  repeat' first
    | with_reducible exact h
    | with_reducible assumption
    | with_reducible refine Sub.of hp ?_
    | exact rfl
    | intro _
    | with_reducible apply State.satAdd_keeps
    | with_reducible apply State.raise_keeps
    | with_reducible apply State.setFld_keeps
    | with_reducible apply updUnit_keeps
    | with_reducible apply tallyWrite_keeps
    | with_reducible apply AllNext.next
    | with_reducible apply Keeps.ite
    | with_reducible apply AllNext.ite
    | with_reducible apply Keeps.foldl
    | with_reducible apply Keeps.foldN
    | with_reducible apply Keeps.foldr
    | with_reducible apply Keeps.foldlFst
    | split
    | dsimp only
    | assumption

theorem feedUnit_keeps {ps : List Part} {o s : State} {a1 a2 a3} (h : Keeps ps o s) (hp : [.bus, .bc, .ty] ⊆ ps) :
    Keeps ps o (feedUnit s a1 a2 a3) := by
  unfold feedUnit
  repeat' first
    | with_reducible exact h
    | with_reducible assumption
    | with_reducible refine Sub.of hp ?_
    | exact rfl
    | intro _
    | with_reducible apply State.busError_keeps
    | with_reducible apply updUnit_keeps
    | with_reducible apply AllNext.next
    | with_reducible apply Keeps.ite
    | with_reducible apply AllNext.ite
    | with_reducible apply Keeps.foldl
    | with_reducible apply Keeps.foldN
    | with_reducible apply Keeps.foldr
    | with_reducible apply Keeps.foldlFst
    | split
    | dsimp only
    | assumption

theorem execTallyIn32_keeps {ps : List Part} {o s : State} {a1 a2 a3} (h : Keeps ps o s) (hp : [.bus, .bc, .ty, .regs] ⊆ ps) :
    AllNext (execTallyIn32 a1 a2 a3 s) (Keeps ps o) := by
  unfold execTallyIn32
  repeat' first
    | with_reducible exact h
    | with_reducible assumption
    | with_reducible refine Sub.of hp ?_
    | exact rfl
    | intro _
    | with_reducible apply feedUnit_keeps
    | with_reducible apply tallyWrite_keeps
    | with_reducible apply AllNext.next
    | with_reducible apply Keeps.ite
    | with_reducible apply AllNext.ite
    | with_reducible apply Keeps.foldl
    | with_reducible apply Keeps.foldN
    | with_reducible apply Keeps.foldr
    | with_reducible apply Keeps.foldlFst
    | split
    | dsimp only
    | assumption

theorem execTallyIn16_keeps {ps : List Part} {o s : State} {a1 a2 a3} (h : Keeps ps o s) (hp : [.bus, .bc, .ty, .regs] ⊆ ps) :
    AllNext (execTallyIn16 a1 a2 a3 s) (Keeps ps o) := by
  unfold execTallyIn16
  repeat' first
    | with_reducible exact h
    | with_reducible assumption
    | with_reducible refine Sub.of hp ?_
    | exact rfl
    | intro _
    | with_reducible apply feedUnit_keeps
    | with_reducible apply tallyWrite_keeps
    | with_reducible apply AllNext.next
    | with_reducible apply Keeps.ite
    | with_reducible apply AllNext.ite
    | with_reducible apply Keeps.foldl
    | with_reducible apply Keeps.foldN
    | with_reducible apply Keeps.foldr
    | with_reducible apply Keeps.foldlFst
    | split
    | dsimp only
    | assumption

theorem execTallyIn8_keeps {ps : List Part} {o s : State} {a1 a2 a3} (h : Keeps ps o s) (hp : [.bus, .bc, .ty, .regs] ⊆ ps) :
    AllNext (execTallyIn8 a1 a2 a3 s) (Keeps ps o) := by
  unfold execTallyIn8
  repeat' first
    | with_reducible exact h
    | with_reducible assumption
    | with_reducible refine Sub.of hp ?_
    | exact rfl
    | intro _
    | with_reducible apply feedUnit_keeps
    | with_reducible apply tallyWrite_keeps
    | with_reducible apply AllNext.next
    | with_reducible apply Keeps.ite
    | with_reducible apply AllNext.ite
    | with_reducible apply Keeps.foldl
    | with_reducible apply Keeps.foldN
    | with_reducible apply Keeps.foldr
    | with_reducible apply Keeps.foldlFst
    | split
    | dsimp only
    | assumption

theorem execTallyStart_keeps {ps : List Part} {o s : State} {a1 a2 a3} (h : Keeps ps o s) (hp : [.bus, .bc, .ty, .regs] ⊆ ps) :
    AllNext (execTallyStart a1 a2 a3 s) (Keeps ps o) := by
  unfold execTallyStart
  repeat' first
    | with_reducible exact h
    | with_reducible assumption
    | with_reducible refine Sub.of hp ?_
    | exact rfl
    | intro _
    | with_reducible apply updUnit_keeps
    | with_reducible apply tallyWrite_keeps
    | with_reducible apply AllNext.next
    | with_reducible apply Keeps.ite
    | with_reducible apply AllNext.ite
    | with_reducible apply Keeps.foldl
    | with_reducible apply Keeps.foldN
    | with_reducible apply Keeps.foldr
    | with_reducible apply Keeps.foldlFst
    | split
    | dsimp only
    | assumption

theorem execTallyCfgWrite_keeps {ps : List Part} {o s : State} {a1 a2 a3} (h : Keeps ps o s) (hp : [.bus, .bc, .ty, .regs] ⊆ ps) :
    AllNext (execTallyCfgWrite a1 a2 a3 s) (Keeps ps o) := by
  unfold execTallyCfgWrite
  repeat' first
    | with_reducible exact h
    | with_reducible assumption
    | with_reducible refine Sub.of hp ?_
    | exact rfl
    | intro _
    | with_reducible apply State.busError_keeps
    | with_reducible apply State.setReg_keeps
    | with_reducible apply updUnit_keeps
    | with_reducible apply tallyWrite_keeps
    | with_reducible apply AllNext.next
    | with_reducible apply Keeps.ite
    | with_reducible apply AllNext.ite
    | with_reducible apply Keeps.foldl
    | with_reducible apply Keeps.foldN
    | with_reducible apply Keeps.foldr
    | with_reducible apply Keeps.foldlFst
    | split
    | dsimp only
    | assumption

theorem tallyRead_keeps {ps : List Part} {o s : State} {a1 a2} {f} (hf : ∀ x, Keeps ps o x → Keeps ps o (f x)) (h : Keeps ps o s) (hp : [.bus, .bc] ⊆ ps) :
    Keeps ps o (tallyRead s a1 a2 f) := by
  unfold tallyRead
  repeat' first
    | with_reducible exact h
    | with_reducible assumption
    | with_reducible refine Sub.of hp ?_
    | exact rfl
    | intro _
    | with_reducible apply State.refuse_keeps
    | with_reducible apply hf
    | with_reducible apply AllNext.next
    | with_reducible apply Keeps.ite
    | with_reducible apply AllNext.ite
    | with_reducible apply Keeps.foldl
    | with_reducible apply Keeps.foldN
    | with_reducible apply Keeps.foldr
    | with_reducible apply Keeps.foldlFst
    | split
    | dsimp only
    | assumption

theorem execTallyResLo_keeps {ps : List Part} {o s : State} {a1 a2} (h : Keeps ps o s) (hp : [.bus, .bc, .regs] ⊆ ps) :
    AllNext (execTallyResLo a1 a2 s) (Keeps ps o) := by
  unfold execTallyResLo
  repeat' first
    | with_reducible exact h
    | with_reducible assumption
    | with_reducible refine Sub.of hp ?_
    | exact rfl
    | intro _
    | with_reducible apply State.setReg64_keeps
    | with_reducible apply State.busOk_keeps
    | with_reducible apply State.busError_keeps
    | with_reducible apply tallyRead_keeps
    | with_reducible apply AllNext.next
    | with_reducible apply Keeps.ite
    | with_reducible apply AllNext.ite
    | with_reducible apply Keeps.foldl
    | with_reducible apply Keeps.foldN
    | with_reducible apply Keeps.foldr
    | with_reducible apply Keeps.foldlFst
    | split
    | dsimp only
    | assumption

theorem execTallyAlive_keeps {ps : List Part} {o s : State} {a1 a2} (h : Keeps ps o s) (hp : [.bus, .bc, .ty] ⊆ ps) :
    AllNext (execTallyAlive a1 a2 s) (Keeps ps o) := by
  unfold execTallyAlive
  repeat' first
    | with_reducible exact h
    | with_reducible assumption
    | with_reducible refine Sub.of hp ?_
    | exact rfl
    | intro _
    | with_reducible apply State.busOk_keeps
    | with_reducible apply updUnit_keeps
    | with_reducible apply tallyRead_keeps
    | with_reducible apply AllNext.next
    | with_reducible apply Keeps.ite
    | with_reducible apply AllNext.ite
    | with_reducible apply Keeps.foldl
    | with_reducible apply Keeps.foldN
    | with_reducible apply Keeps.foldr
    | with_reducible apply Keeps.foldlFst
    | split
    | dsimp only
    | assumption

theorem execTallyGlint_keeps {ps : List Part} {o s : State} {a1} (h : Keeps ps o s) (hp : [.bc, .ty, .regs] ⊆ ps) :
    AllNext (execTallyGlint a1 s) (Keeps ps o) := by
  unfold execTallyGlint
  repeat' first
    | with_reducible exact h
    | with_reducible assumption
    | with_reducible refine Sub.of hp ?_
    | exact rfl
    | intro _
    | with_reducible apply State.raiseSyn_keeps
    | with_reducible apply glintRan_keeps
    | with_reducible apply updUnit_keeps
    | with_reducible apply State.wrapInc_keeps
    | with_reducible apply AllNext.next
    | with_reducible apply Keeps.ite
    | with_reducible apply AllNext.ite
    | with_reducible apply Keeps.foldl
    | with_reducible apply Keeps.foldN
    | with_reducible apply Keeps.foldr
    | with_reducible apply Keeps.foldlFst
    | split
    | dsimp only
    | assumption

end Sys2Proof.Machine
end

