-- ==== Sys2Proof/Laws/KeepsResets.lean ====
section
/-! SUPPORT. Laws/KeepsResets.lean: which parts of the state each operation of Machine/Resets.lean can change. -/

namespace Sys2Proof.Machine

theorem dropStage_keeps {ps : List Part} {o s : State} {a1} (h : Keeps ps o s) (hp : [.lk] ⊆ ps) :
    Keeps ps o (dropStage s a1) := by
  unfold dropStage
  repeat' first
    | with_reducible exact h
    | with_reducible assumption
    | with_reducible refine Sub.of hp ?_
    | exact rfl
    | intro _
    | with_reducible apply AllNext.next
    | with_reducible apply Keeps.ite
    | with_reducible apply AllNext.ite
    | with_reducible apply Keeps.foldl
    | with_reducible apply Keeps.foldN
    | with_reducible apply Keeps.foldr
    | with_reducible apply Keeps.foldlFst
    | split
    | with_reducible apply Keeps.lk
    | dsimp only
    | assumption

theorem dropStageOf_keeps {ps : List Part} {o s : State} {a1} (h : Keeps ps o s) (hp : [.lk] ⊆ ps) :
    Keeps ps o (dropStageOf s a1) := by
  unfold dropStageOf
  repeat' first
    | with_reducible exact h
    | with_reducible assumption
    | with_reducible refine Sub.of hp ?_
    | exact rfl
    | intro _
    | with_reducible apply dropStage_keeps
    | with_reducible apply AllNext.next
    | with_reducible apply Keeps.ite
    | with_reducible apply AllNext.ite
    | with_reducible apply Keeps.foldl
    | with_reducible apply Keeps.foldN
    | with_reducible apply Keeps.foldr
    | with_reducible apply Keeps.foldlFst
    | split
    | dsimp only
    | assumption

theorem updEntity_keeps {ps : List Part} {o s : State} {a1 a2} (h : Keeps ps o s) (hp : [.wd] ⊆ ps) :
    Keeps ps o (updEntity s a1 a2) := by
  unfold updEntity
  repeat' first
    | with_reducible exact h
    | with_reducible assumption
    | with_reducible refine Sub.of hp ?_
    | exact rfl
    | intro _
    | with_reducible apply AllNext.next
    | with_reducible apply Keeps.ite
    | with_reducible apply AllNext.ite
    | with_reducible apply Keeps.foldl
    | with_reducible apply Keeps.foldN
    | with_reducible apply Keeps.foldr
    | with_reducible apply Keeps.foldlFst
    | split
    | with_reducible apply Keeps.wd
    | dsimp only
    | assumption

theorem updDog_keeps {ps : List Part} {o s : State} {a1 a2} (h : Keeps ps o s) (hp : [.wd] ⊆ ps) :
    Keeps ps o (updDog s a1 a2) := by
  unfold updDog
  repeat' first
    | with_reducible exact h
    | with_reducible assumption
    | with_reducible refine Sub.of hp ?_
    | exact rfl
    | intro _
    | with_reducible apply AllNext.next
    | with_reducible apply Keeps.ite
    | with_reducible apply AllNext.ite
    | with_reducible apply Keeps.foldl
    | with_reducible apply Keeps.foldN
    | with_reducible apply Keeps.foldr
    | with_reducible apply Keeps.foldlFst
    | split
    | with_reducible apply Keeps.wd
    | dsimp only
    | assumption

theorem syncFreeze_keeps {ps : List Part} {o s : State} (h : Keeps ps o s) (hp : [.wd] ⊆ ps) :
    Keeps ps o (syncFreeze s) := by
  unfold syncFreeze
  repeat' first
    | with_reducible exact h
    | with_reducible assumption
    | with_reducible refine Sub.of hp ?_
    | exact rfl
    | intro _
    | with_reducible apply updEntity_keeps
    | with_reducible apply updDog_keeps
    | with_reducible apply AllNext.next
    | with_reducible apply Keeps.ite
    | with_reducible apply AllNext.ite
    | with_reducible apply Keeps.foldl
    | with_reducible apply Keeps.foldN
    | with_reducible apply Keeps.foldr
    | with_reducible apply Keeps.foldlFst
    | split
    | dsimp only
    | assumption

theorem setPair_keeps {ps : List Part} {o s : State} {a1 a2} (h : Keeps ps o s) (hp : [.wd, .kc] ⊆ ps) :
    Keeps ps o (setPair s a1 a2) := by
  unfold setPair
  repeat' first
    | with_reducible exact h
    | with_reducible assumption
    | with_reducible refine Sub.of hp ?_
    | exact rfl
    | intro _
    | with_reducible apply syncFreeze_keeps
    | with_reducible apply AllNext.next
    | with_reducible apply Keeps.ite
    | with_reducible apply AllNext.ite
    | with_reducible apply Keeps.foldl
    | with_reducible apply Keeps.foldN
    | with_reducible apply Keeps.foldr
    | with_reducible apply Keeps.foldlFst
    | split
    | with_reducible apply Keeps.kc
    | dsimp only
    | assumption

theorem standby_keeps {ps : List Part} {o s : State} {a1} (h : Keeps ps o s) (hp : [.wd, .lk, .kc] ⊆ ps) :
    Keeps ps o (standby s a1) := by
  unfold standby
  repeat' first
    | with_reducible exact h
    | with_reducible assumption
    | with_reducible refine Sub.of hp ?_
    | exact rfl
    | intro _
    | with_reducible apply dropStageOf_keeps
    | with_reducible apply setPair_keeps
    | with_reducible apply AllNext.next
    | with_reducible apply Keeps.ite
    | with_reducible apply AllNext.ite
    | with_reducible apply Keeps.foldl
    | with_reducible apply Keeps.foldN
    | with_reducible apply Keeps.foldr
    | with_reducible apply Keeps.foldlFst
    | split
    | dsimp only
    | assumption

theorem survive_keeps {ps : List Part} {o s : State} {a1} (h : Keeps ps o s) (hp : [.wd, .lk, .kc] ⊆ ps) :
    Keeps ps o (survive s a1) := by
  unfold survive
  repeat' first
    | with_reducible exact h
    | with_reducible assumption
    | with_reducible refine Sub.of hp ?_
    | exact rfl
    | intro _
    | with_reducible apply standby_keeps
    | with_reducible apply dropStageOf_keeps
    | with_reducible apply AllNext.next
    | with_reducible apply Keeps.ite
    | with_reducible apply AllNext.ite
    | with_reducible apply Keeps.foldl
    | with_reducible apply Keeps.foldN
    | with_reducible apply Keeps.foldr
    | with_reducible apply Keeps.foldlFst
    | split
    | with_reducible apply Keeps.kc
    | dsimp only
    | assumption

theorem endPairReads_keeps {ps : List Part} {o s : State} {a1} (h : Keeps ps o s) (hp : [.mr, .hd, .bs] ⊆ ps) : Keeps ps o (endPairReads s a1) where
  grade := h.grade
  fused := h.fused
  queue := h.queue
  canon := h.canon
  part := fun q hq => by
    have := h.part q hq
    cases q <;> first | exact this | exact absurd (hp (by simp)) hq

theorem losePair_keeps {ps : List Part} {o s : State} {a1} (h : Keeps ps o s) (hp : [.mr, .wd, .lk, .hd, .bs, .ty, .kc, .regs] ⊆ ps) :
    Keeps ps o (losePair s a1) := by
  unfold losePair
  repeat' first
    | with_reducible exact h
    | with_reducible assumption
    | with_reducible refine Sub.of hp ?_
    | exact rfl
    | intro _
    | with_reducible apply survive_keeps
    | with_reducible apply endUnitsOf_keeps
    | with_reducible apply dropStageOf_keeps
    | with_reducible apply setPair_keeps
    | with_reducible apply endPairReads_keeps
    | with_reducible apply AllNext.next
    | with_reducible apply Keeps.ite
    | with_reducible apply AllNext.ite
    | with_reducible apply Keeps.foldl
    | with_reducible apply Keeps.foldN
    | with_reducible apply Keeps.foldr
    | with_reducible apply Keeps.foldlFst
    | split
    | dsimp only
    | assumption

theorem harbourReset_keeps {ps : List Part} {o s : State} (h : Keeps ps o s) (hp : [.bc, .ty, .regs] ⊆ ps) :
    Keeps ps o (harbourReset s) := by
  unfold harbourReset
  repeat' first
    | with_reducible exact h
    | with_reducible assumption
    | with_reducible refine Sub.of hp ?_
    | exact rfl
    | intro _
    | with_reducible apply endUnitsOf_keeps
    | with_reducible apply State.raise_keeps
    | with_reducible apply AllNext.next
    | with_reducible apply Keeps.ite
    | with_reducible apply AllNext.ite
    | with_reducible apply Keeps.foldl
    | with_reducible apply Keeps.foldN
    | with_reducible apply Keeps.foldr
    | with_reducible apply Keeps.foldlFst
    | split
    | dsimp only
    | assumption

theorem pairReset_keeps {ps : List Part} {o s : State} {a1} (h : Keeps ps o s) (hp : [.wd, .lk, .ty, .kc, .regs, .mem] ⊆ ps) :
    Keeps ps o (pairReset s a1) := by
  unfold pairReset
  repeat' first
    | with_reducible exact h
    | with_reducible assumption
    | with_reducible refine Sub.of hp ?_
    | exact rfl
    | intro _
    | with_reducible apply endUnitsOf_keeps
    | with_reducible apply State.wipe_keeps
    | with_reducible apply standby_keeps
    | with_reducible apply AllNext.next
    | with_reducible apply Keeps.ite
    | with_reducible apply AllNext.ite
    | with_reducible apply Keeps.foldl
    | with_reducible apply Keeps.foldN
    | with_reducible apply Keeps.foldr
    | with_reducible apply Keeps.foldlFst
    | split
    | dsimp only
    | assumption

end Sys2Proof.Machine
end

