-- ==== Sys2Proof/Laws/KeepsRuns.lean ====
section
/-! SUPPORT. Laws/KeepsRuns.lean: which parts of the state each operation of Machine/Runs.lean can change. -/

namespace Sys2Proof.Machine

theorem dropRun_keeps {ps : List Part} {o s : State} {a1} (h : Keeps ps o s) (hp : [.sn] ⊆ ps) :
    Keeps ps o (dropRun s a1) := by
  unfold dropRun
  repeat' first
    | with_reducible exact h
    | with_reducible assumption
    | with_reducible refine Sub.of hp ?_
    | exact rfl
    | intro _
    | with_reducible apply AllNext.next
    | with_reducible apply Keeps.ite
    | with_reducible apply AllNext.ite
    | with_reducible apply Keeps.foldl
    | with_reducible apply Keeps.foldN
    | with_reducible apply Keeps.foldr
    | with_reducible apply Keeps.foldlFst
    | split
    | with_reducible apply Keeps.sn
    | dsimp only
    | assumption

theorem lampView_keeps {ps : List Part} {o s : State} {a1 a2} (h : Keeps ps o s) (hp : [.barges, .lc, .bc, .regs] ⊆ ps) :
    Keeps ps o (lampView s a1 a2) := by
  unfold lampView
  repeat' first
    | with_reducible exact h
    | with_reducible assumption
    | with_reducible refine Sub.of hp ?_
    | exact rfl
    | intro _
    | with_reducible apply giveLamp_keeps
    | with_reducible apply giveTwin_keeps
    | with_reducible apply State.updBarge_keeps
    | with_reducible apply State.withBarge_keeps
    | with_reducible apply AllNext.next
    | with_reducible apply Keeps.ite
    | with_reducible apply AllNext.ite
    | with_reducible apply Keeps.foldl
    | with_reducible apply Keeps.foldN
    | with_reducible apply Keeps.foldr
    | with_reducible apply Keeps.foldlFst
    | split
    | dsimp only
    | assumption

theorem updRuns_keeps {ps : List Part} {o s : State} {a1} (h : Keeps ps o s) (hp : [.sn] ⊆ ps) :
    Keeps ps o (updRuns s a1) := by
  unfold updRuns
  repeat' first
    | with_reducible exact h
    | with_reducible assumption
    | with_reducible refine Sub.of hp ?_
    | exact rfl
    | intro _
    | with_reducible apply AllNext.next
    | with_reducible apply Keeps.ite
    | with_reducible apply AllNext.ite
    | with_reducible apply Keeps.foldl
    | with_reducible apply Keeps.foldN
    | with_reducible apply Keeps.foldr
    | with_reducible apply Keeps.foldlFst
    | split
    | with_reducible apply Keeps.sn
    | dsimp only
    | assumption

theorem putRun_keeps {ps : List Part} {o s : State} {a1} (h : Keeps ps o s) (hp : [.sn] ⊆ ps) :
    Keeps ps o (putRun s a1) := by
  unfold putRun
  repeat' first
    | with_reducible exact h
    | with_reducible assumption
    | with_reducible refine Sub.of hp ?_
    | exact rfl
    | intro _
    | with_reducible apply updRuns_keeps
    | with_reducible apply AllNext.next
    | with_reducible apply Keeps.ite
    | with_reducible apply AllNext.ite
    | with_reducible apply Keeps.foldl
    | with_reducible apply Keeps.foldN
    | with_reducible apply Keeps.foldr
    | with_reducible apply Keeps.foldlFst
    | split
    | dsimp only
    | assumption

theorem loseRun_keeps {ps : List Part} {o s : State} {a1} (h : Keeps ps o s) (hp : [.barges, .sn, .lc, .bc, .regs] ⊆ ps) :
    Keeps ps o (loseRun s a1) := by
  unfold loseRun
  repeat' first
    | with_reducible exact h
    | with_reducible assumption
    | with_reducible refine Sub.of hp ?_
    | exact rfl
    | intro _
    | with_reducible apply dropRun_keeps
    | with_reducible apply lampView_keeps
    | with_reducible apply putRun_keeps
    | with_reducible apply AllNext.next
    | with_reducible apply Keeps.ite
    | with_reducible apply AllNext.ite
    | with_reducible apply Keeps.foldl
    | with_reducible apply Keeps.foldN
    | with_reducible apply Keeps.foldr
    | with_reducible apply Keeps.foldlFst
    | split
    | dsimp only
    | assumption

theorem loseRunsOn_keeps {ps : List Part} {o s : State} {a1} (h : Keeps ps o s) (hp : [.barges, .sn, .lc, .bc, .regs] ⊆ ps) :
    Keeps ps o (loseRunsOn s a1) := by
  unfold loseRunsOn
  repeat' first
    | with_reducible exact h
    | with_reducible assumption
    | with_reducible refine Sub.of hp ?_
    | exact rfl
    | intro _
    | with_reducible apply loseRun_keeps
    | with_reducible apply AllNext.next
    | with_reducible apply Keeps.ite
    | with_reducible apply AllNext.ite
    | with_reducible apply Keeps.foldl
    | with_reducible apply Keeps.foldN
    | with_reducible apply Keeps.foldr
    | with_reducible apply Keeps.foldlFst
    | split
    | dsimp only
    | assumption

theorem lampGaps_keeps {ps : List Part} {o s : State} (h : Keeps ps o s) (hp : [.barges, .lc, .bc, .regs] ⊆ ps) :
    Keeps ps o (lampGaps s) := by
  unfold lampGaps
  repeat' first
    | with_reducible exact h
    | with_reducible assumption
    | with_reducible refine Sub.of hp ?_
    | exact rfl
    | intro _
    | with_reducible apply lampView_keeps
    | with_reducible apply AllNext.next
    | with_reducible apply Keeps.ite
    | with_reducible apply AllNext.ite
    | with_reducible apply Keeps.foldl
    | with_reducible apply Keeps.foldN
    | with_reducible apply Keeps.foldr
    | with_reducible apply Keeps.foldlFst
    | split
    | dsimp only
    | assumption

theorem markGap_keeps {ps : List Part} {o s : State} {a1} (h : Keeps ps o s) (hp : [.barges] ⊆ ps) :
    Keeps ps o (markGap a1 s) := by
  unfold markGap
  repeat' first
    | with_reducible exact h
    | with_reducible assumption
    | with_reducible refine Sub.of hp ?_
    | exact rfl
    | intro _
    | with_reducible apply AllNext.next
    | with_reducible apply Keeps.ite
    | with_reducible apply AllNext.ite
    | with_reducible apply Keeps.foldl
    | with_reducible apply Keeps.foldN
    | with_reducible apply Keeps.foldr
    | with_reducible apply Keeps.foldlFst
    | split
    | with_reducible apply Keeps.barges
    | dsimp only
    | assumption

theorem slotRests_keeps {ps : List Part} {o s : State} {a1 a2} (h : Keeps ps o s) (hp : [.sn] ⊆ ps) :
    Keeps ps o (slotRests s a1 a2) := by
  unfold slotRests
  repeat' first
    | with_reducible exact h
    | with_reducible assumption
    | with_reducible refine Sub.of hp ?_
    | exact rfl
    | intro _
    | with_reducible apply updSlot_keeps
    | with_reducible apply AllNext.next
    | with_reducible apply Keeps.ite
    | with_reducible apply AllNext.ite
    | with_reducible apply Keeps.foldl
    | with_reducible apply Keeps.foldN
    | with_reducible apply Keeps.foldr
    | with_reducible apply Keeps.foldlFst
    | split
    | dsimp only
    | assumption

theorem completeRun_keeps {ps : List Part} {o s : State} {a1} (h : Keeps ps o s) (hp : [.barges, .sn, .lc, .bc, .regs] ⊆ ps) :
    Keeps ps o (completeRun s a1) := by
  unfold completeRun
  repeat' first
    | with_reducible exact h
    | with_reducible assumption
    | with_reducible refine Sub.of hp ?_
    | exact rfl
    | intro _
    | with_reducible apply dropRun_keeps
    | with_reducible apply lampView_keeps
    | with_reducible apply putRun_keeps
    | with_reducible apply AllNext.next
    | with_reducible apply Keeps.ite
    | with_reducible apply AllNext.ite
    | with_reducible apply Keeps.foldl
    | with_reducible apply Keeps.foldN
    | with_reducible apply Keeps.foldr
    | with_reducible apply Keeps.foldlFst
    | split
    | dsimp only
    | assumption

theorem runEnds_keeps {ps : List Part} {o s : State} {a1 a2} (h : Keeps ps o s) (hp : [.barges, .sn, .lc, .bc, .regs] ⊆ ps) :
    Keeps ps o (runEnds s a1 a2) := by
  unfold runEnds
  repeat' first
    | with_reducible exact h
    | with_reducible assumption
    | with_reducible refine Sub.of hp ?_
    | exact rfl
    | intro _
    | with_reducible apply completeRun_keeps
    | with_reducible apply loseRun_keeps
    | with_reducible apply putRun_keeps
    | with_reducible apply dropRun_keeps
    | with_reducible apply AllNext.next
    | with_reducible apply Keeps.ite
    | with_reducible apply AllNext.ite
    | with_reducible apply Keeps.foldl
    | with_reducible apply Keeps.foldN
    | with_reducible apply Keeps.foldr
    | with_reducible apply Keeps.foldlFst
    | split
    | dsimp only
    | assumption

theorem slotEnds_keeps {ps : List Part} {o s : State} {a1 a2 a3} (h : Keeps ps o s) (hp : [.barges, .sn, .lc, .bc, .regs] ⊆ ps) :
    Keeps ps o (slotEnds s a1 a2 a3) := by
  unfold slotEnds
  repeat' first
    | with_reducible exact h
    | with_reducible assumption
    | with_reducible refine Sub.of hp ?_
    | exact rfl
    | intro _
    | with_reducible apply slotRests_keeps
    | with_reducible apply runEnds_keeps
    | with_reducible apply AllNext.next
    | with_reducible apply Keeps.ite
    | with_reducible apply AllNext.ite
    | with_reducible apply Keeps.foldl
    | with_reducible apply Keeps.foldN
    | with_reducible apply Keeps.foldr
    | with_reducible apply Keeps.foldlFst
    | split
    | dsimp only
    | assumption

theorem slotRuns_keeps {ps : List Part} {o s : State} {a1} (h : Keeps ps o s) (hp : [.sn, .regs] ⊆ ps) :
    Keeps ps o (slotRuns s a1) := by
  unfold slotRuns
  repeat' first
    | with_reducible exact h
    | with_reducible assumption
    | with_reducible refine Sub.of hp ?_
    | exact rfl
    | intro _
    | with_reducible apply updSlot_keeps
    | with_reducible apply State.wrapInc_keeps
    | with_reducible apply AllNext.next
    | with_reducible apply Keeps.ite
    | with_reducible apply AllNext.ite
    | with_reducible apply Keeps.foldl
    | with_reducible apply Keeps.foldN
    | with_reducible apply Keeps.foldr
    | with_reducible apply Keeps.foldlFst
    | split
    | dsimp only
    | assumption

theorem joinRun_keeps {ps : List Part} {o s : State} {a1 a2} (h : Keeps ps o s) (hp : [.sn] ⊆ ps) :
    Keeps ps o (joinRun s a1 a2) := by
  unfold joinRun
  repeat' first
    | with_reducible exact h
    | with_reducible assumption
    | with_reducible refine Sub.of hp ?_
    | exact rfl
    | intro _
    | with_reducible apply updRuns_keeps
    | with_reducible apply AllNext.next
    | with_reducible apply Keeps.ite
    | with_reducible apply AllNext.ite
    | with_reducible apply Keeps.foldl
    | with_reducible apply Keeps.foldN
    | with_reducible apply Keeps.foldr
    | with_reducible apply Keeps.foldlFst
    | split
    | with_reducible apply Keeps.sn
    | dsimp only
    | assumption

theorem slotBegins_keeps {ps : List Part} {o s : State} {a1 a2} (h : Keeps ps o s) (hp : [.sn, .regs] ⊆ ps) :
    Keeps ps o (slotBegins s a1 a2) := by
  unfold slotBegins
  repeat' first
    | with_reducible exact h
    | with_reducible assumption
    | with_reducible refine Sub.of hp ?_
    | exact rfl
    | intro _
    | with_reducible apply slotRuns_keeps
    | with_reducible apply joinRun_keeps
    | with_reducible apply AllNext.next
    | with_reducible apply Keeps.ite
    | with_reducible apply AllNext.ite
    | with_reducible apply Keeps.foldl
    | with_reducible apply Keeps.foldN
    | with_reducible apply Keeps.foldr
    | with_reducible apply Keeps.foldlFst
    | split
    | dsimp only
    | assumption

end Sys2Proof.Machine
end

