-- ==== Sys2Proof/Laws/KeepsSluice.lean ====
section
/-! SUPPORT. Laws/KeepsSluice.lean: which parts of the state each operation of Machine/Sluice.lean can change. -/

namespace Sys2Proof.Machine

theorem updStr_keeps {ps : List Part} {o s : State} {a1 a2} (h : Keeps ps o s) (hp : [.sl] ⊆ ps) :
    Keeps ps o (updStr s a1 a2) := by
  unfold updStr
  repeat' first
    | with_reducible exact h
    | with_reducible assumption
    | with_reducible refine Sub.of hp ?_
    | exact rfl
    | intro _
    | with_reducible apply AllNext.next
    | with_reducible apply Keeps.ite
    | with_reducible apply AllNext.ite
    | with_reducible apply Keeps.foldl
    | with_reducible apply Keeps.foldN
    | with_reducible apply Keeps.foldr
    | with_reducible apply Keeps.foldlFst
    | split
    | with_reducible apply Keeps.sl
    | dsimp only
    | assumption

theorem memberDone_keeps {ps : List Part} {o s : State} {a1 a2 a3 a4} (h : Keeps ps o s) (hp : [.barges] ⊆ ps) :
    Keeps ps o (memberDone s a1 a2 a3 a4) := by
  unfold memberDone
  repeat' first
    | with_reducible exact h
    | with_reducible assumption
    | with_reducible refine Sub.of hp ?_
    | exact rfl
    | intro _
    | with_reducible apply State.updBarge_keeps
    | with_reducible apply AllNext.next
    | with_reducible apply Keeps.ite
    | with_reducible apply AllNext.ite
    | with_reducible apply Keeps.foldl
    | with_reducible apply Keeps.foldN
    | with_reducible apply Keeps.foldr
    | with_reducible apply Keeps.foldlFst
    | split
    | dsimp only
    | assumption

theorem frameRetired_keeps {ps : List Part} {o s : State} {a1} (h : Keeps ps o s) (hp : [.sl, .barges, .regs] ⊆ ps) :
    Keeps ps o (frameRetired s a1) := by
  unfold frameRetired
  repeat' first
    | with_reducible exact h
    | with_reducible assumption
    | with_reducible refine Sub.of hp ?_
    | exact rfl
    | intro _
    | with_reducible apply memberDone_keeps
    | with_reducible apply updStr_keeps
    | with_reducible apply State.satAdd_keeps
    | with_reducible apply AllNext.next
    | with_reducible apply Keeps.ite
    | with_reducible apply AllNext.ite
    | with_reducible apply Keeps.foldl
    | with_reducible apply Keeps.foldN
    | with_reducible apply Keeps.foldr
    | with_reducible apply Keeps.foldlFst
    | split
    | dsimp only
    | assumption

theorem dueRestart_keeps {ps : List Part} {o s : State} {a1 a2} (h : Keeps ps o s) (hp : [.sl] ⊆ ps) :
    Keeps ps o (dueRestart s a1 a2) := by
  unfold dueRestart
  repeat' first
    | with_reducible exact h
    | with_reducible assumption
    | with_reducible refine Sub.of hp ?_
    | exact rfl
    | intro _
    | with_reducible apply updStr_keeps
    | with_reducible apply AllNext.next
    | with_reducible apply Keeps.ite
    | with_reducible apply AllNext.ite
    | with_reducible apply Keeps.foldl
    | with_reducible apply Keeps.foldN
    | with_reducible apply Keeps.foldr
    | with_reducible apply Keeps.foldlFst
    | split
    | dsimp only
    | assumption

theorem restartAll_keeps {ps : List Part} {o s : State} {a1} (h : Keeps ps o s) (hp : [.sl] ⊆ ps) :
    Keeps ps o (restartAll s a1) := by
  unfold restartAll
  repeat' first
    | with_reducible exact h
    | with_reducible assumption
    | with_reducible refine Sub.of hp ?_
    | exact rfl
    | intro _
    | with_reducible apply dueRestart_keeps
    | with_reducible apply AllNext.next
    | with_reducible apply Keeps.ite
    | with_reducible apply AllNext.ite
    | with_reducible apply Keeps.foldl
    | with_reducible apply Keeps.foldN
    | with_reducible apply Keeps.foldr
    | with_reducible apply Keeps.foldlFst
    | split
    | dsimp only
    | assumption

theorem execStrRestart_keeps {ps : List Part} {o s : State} {a1 a2 a3} (h : Keeps ps o s) (hp : [.bus, .sl, .bc] ⊆ ps) :
    AllNext (execStrRestart a1 a2 a3 s) (Keeps ps o) := by
  unfold execStrRestart
  repeat' first
    | with_reducible exact h
    | with_reducible assumption
    | with_reducible refine Sub.of hp ?_
    | exact rfl
    | intro _
    | with_reducible apply dueRestart_keeps
    | with_reducible apply State.keeperWrite_keeps
    | with_reducible apply AllNext.next
    | with_reducible apply Keeps.ite
    | with_reducible apply AllNext.ite
    | with_reducible apply Keeps.foldl
    | with_reducible apply Keeps.foldN
    | with_reducible apply Keeps.foldr
    | with_reducible apply Keeps.foldlFst
    | split
    | dsimp only
    | assumption

theorem strEvent_keeps {ps : List Part} {o s : State} {a1 a2} (h : Keeps ps o s) (hp : [.bc, .ln, .regs] ⊆ ps) :
    Keeps ps o (strEvent s a1 a2) := by
  unfold strEvent
  repeat' first
    | with_reducible exact h
    | with_reducible assumption
    | with_reducible refine Sub.of hp ?_
    | exact rfl
    | intro _
    | with_reducible apply lnErr_keeps
    | with_reducible apply State.raise_keeps
    | with_reducible apply AllNext.next
    | with_reducible apply Keeps.ite
    | with_reducible apply AllNext.ite
    | with_reducible apply Keeps.foldl
    | with_reducible apply Keeps.foldN
    | with_reducible apply Keeps.foldr
    | with_reducible apply Keeps.foldlFst
    | split
    | dsimp only
    | assumption

theorem setLink_keeps {ps : List Part} {o s : State} {a1 a2} (h : Keeps ps o s) (hp : [.sl] ⊆ ps) :
    Keeps ps o (setLink s a1 a2) := by
  unfold setLink
  repeat' first
    | with_reducible exact h
    | with_reducible assumption
    | with_reducible refine Sub.of hp ?_
    | exact rfl
    | intro _
    | with_reducible apply AllNext.next
    | with_reducible apply Keeps.ite
    | with_reducible apply AllNext.ite
    | with_reducible apply Keeps.foldl
    | with_reducible apply Keeps.foldN
    | with_reducible apply Keeps.foldr
    | with_reducible apply Keeps.foldlFst
    | split
    | with_reducible apply Keeps.sl
    | dsimp only
    | assumption

theorem execSensorLinkLoss_keeps {ps : List Part} {o s : State} {a1} (h : Keeps ps o s) (hp : [.sl, .bc, .ln, .regs] ⊆ ps) :
    AllNext (execSensorLinkLoss a1 s) (Keeps ps o) := by
  unfold execSensorLinkLoss
  repeat' first
    | with_reducible exact h
    | with_reducible assumption
    | with_reducible refine Sub.of hp ?_
    | exact rfl
    | intro _
    | with_reducible apply updStr_keeps
    | with_reducible apply strEvent_keeps
    | with_reducible apply State.setBit_keeps
    | with_reducible apply setLink_keeps
    | with_reducible apply AllNext.next
    | with_reducible apply Keeps.ite
    | with_reducible apply AllNext.ite
    | with_reducible apply Keeps.foldl
    | with_reducible apply Keeps.foldN
    | with_reducible apply Keeps.foldr
    | with_reducible apply Keeps.foldlFst
    | split
    | dsimp only
    | assumption

theorem countDiscard_keeps {ps : List Part} {o s : State} {a1 a2} (h : Keeps ps o s) (hp : [.regs] ⊆ ps) :
    Keeps ps o (countDiscard s a1 a2) := by
  unfold countDiscard
  repeat' first
    | with_reducible exact h
    | with_reducible assumption
    | with_reducible refine Sub.of hp ?_
    | exact rfl
    | intro _
    | with_reducible apply State.satAdd_keeps
    | with_reducible apply AllNext.next
    | with_reducible apply Keeps.ite
    | with_reducible apply AllNext.ite
    | with_reducible apply Keeps.foldl
    | with_reducible apply Keeps.foldN
    | with_reducible apply Keeps.foldr
    | with_reducible apply Keeps.foldlFst
    | split
    | dsimp only
    | assumption

theorem tryClose_keeps {ps : List Part} {o s : State} {a1 a2} (h : Keeps ps o s) (hp : [.sl, .barges, .mr, .au, .sn, .lc, .bc, .se, .hd, .bs, .ln, .regs, .mem] ⊆ ps) :
    Keeps ps o (tryClose s a1 a2) := by
  unfold tryClose
  repeat' first
    | with_reducible exact h
    | with_reducible assumption
    | with_reducible refine Sub.of hp ?_
    | exact rfl
    | intro _
    | with_reducible apply closeSet_keeps
    | with_reducible apply State.withBarge_keeps
    | with_reducible apply AllNext.next
    | with_reducible apply Keeps.ite
    | with_reducible apply AllNext.ite
    | with_reducible apply Keeps.foldl
    | with_reducible apply Keeps.foldN
    | with_reducible apply Keeps.foldr
    | with_reducible apply Keeps.foldlFst
    | split
    | dsimp only
    | assumption

theorem raiseStatus_keeps {ps : List Part} {o s : State} {a1 a2 a3} (h : Keeps ps o s) (hp : [.bc, .ln, .regs] ⊆ ps) :
    Keeps ps o (raiseStatus s a1 a2 a3) := by
  unfold raiseStatus
  repeat' first
    | with_reducible exact h
    | with_reducible assumption
    | with_reducible refine Sub.of hp ?_
    | exact rfl
    | intro _
    | with_reducible apply strEvent_keeps
    | with_reducible apply AllNext.next
    | with_reducible apply Keeps.ite
    | with_reducible apply AllNext.ite
    | with_reducible apply Keeps.foldl
    | with_reducible apply Keeps.foldN
    | with_reducible apply Keeps.foldr
    | with_reducible apply Keeps.foldlFst
    | split
    | dsimp only
    | assumption

theorem frameFails_keeps {ps : List Part} {o s : State} {a1 a2 a3} (h : Keeps ps o s) (hp : [.sl, .barges, .bc, .ln, .regs] ⊆ ps) :
    Keeps ps o (frameFails s a1 a2 a3) := by
  unfold frameFails
  repeat' first
    | with_reducible exact h
    | with_reducible assumption
    | with_reducible refine Sub.of hp ?_
    | exact rfl
    | intro _
    | with_reducible apply raiseStatus_keeps
    | with_reducible apply memberDone_keeps
    | with_reducible apply State.satAdd_keeps
    | with_reducible apply State.setBit_keeps
    | with_reducible apply updStr_keeps
    | with_reducible apply AllNext.next
    | with_reducible apply Keeps.ite
    | with_reducible apply AllNext.ite
    | with_reducible apply Keeps.foldl
    | with_reducible apply Keeps.foldN
    | with_reducible apply Keeps.foldr
    | with_reducible apply Keeps.foldlFst
    | split
    | dsimp only
    | assumption

theorem finishFrame_keeps {ps : List Part} {o s : State} {a1 a2 a3 a4} (h : Keeps ps o s) (hp : [.sl, .barges, .mr, .au, .sn, .lc, .bc, .se, .hd, .bs, .ln, .regs, .mem] ⊆ ps) :
    Keeps ps o (finishFrame s a1 a2 a3 a4) := by
  unfold finishFrame
  repeat' first
    | with_reducible exact h
    | with_reducible assumption
    | with_reducible refine Sub.of hp ?_
    | exact rfl
    | intro _
    | with_reducible apply tryClose_keeps
    | with_reducible apply State.satAdd_keeps
    | with_reducible apply memberDone_keeps
    | with_reducible apply State.setBit_keeps
    | with_reducible apply strEvent_keeps
    | with_reducible apply updStr_keeps
    | with_reducible apply frameFails_keeps
    | with_reducible apply AllNext.next
    | with_reducible apply Keeps.ite
    | with_reducible apply AllNext.ite
    | with_reducible apply Keeps.foldl
    | with_reducible apply Keeps.foldN
    | with_reducible apply Keeps.foldr
    | with_reducible apply Keeps.foldlFst
    | split
    | dsimp only
    | assumption

theorem execCsiFrameEnd_keeps {ps : List Part} {o s : State} {a1 a2} (h : Keeps ps o s) (hp : [.sl, .barges, .mr, .au, .sn, .lc, .bc, .se, .hd, .bs, .ln, .regs, .mem] ⊆ ps) :
    AllNext (execCsiFrameEnd a1 a2 s) (Keeps ps o) := by
  unfold execCsiFrameEnd
  repeat' first
    | with_reducible exact h
    | with_reducible assumption
    | with_reducible refine Sub.of hp ?_
    | exact rfl
    | intro _
    | with_reducible apply countDiscard_keeps
    | with_reducible apply updStr_keeps
    | with_reducible apply strEvent_keeps
    | with_reducible apply finishFrame_keeps
    | with_reducible apply AllNext.next
    | with_reducible apply Keeps.ite
    | with_reducible apply AllNext.ite
    | with_reducible apply Keeps.foldl
    | with_reducible apply Keeps.foldN
    | with_reducible apply Keeps.foldr
    | with_reducible apply Keeps.foldlFst
    | split
    | dsimp only
    | assumption

theorem overrun_keeps {ps : List Part} {o s : State} {a1} (h : Keeps ps o s) (hp : [.barges, .bc] ⊆ ps) :
    Keeps ps o (overrun s a1) := by
  unfold overrun
  repeat' first
    | with_reducible exact h
    | with_reducible assumption
    | with_reducible refine Sub.of hp ?_
    | exact rfl
    | intro _
    | with_reducible apply failSet_keeps
    | with_reducible apply AllNext.next
    | with_reducible apply Keeps.ite
    | with_reducible apply AllNext.ite
    | with_reducible apply Keeps.foldl
    | with_reducible apply Keeps.foldN
    | with_reducible apply Keeps.foldr
    | with_reducible apply Keeps.foldlFst
    | split
    | dsimp only
    | assumption

theorem retryMask_keeps {ps : List Part} {o s : State} {a1 a2} (h : Keeps ps o s) (hp : [.bc] ⊆ ps) :
    Keeps ps o (retryMask s a1 a2) := by
  unfold retryMask
  repeat' first
    | with_reducible exact h
    | with_reducible assumption
    | with_reducible refine Sub.of hp ?_
    | exact rfl
    | intro _
    | with_reducible apply openMask_keeps
    | with_reducible apply AllNext.next
    | with_reducible apply Keeps.ite
    | with_reducible apply AllNext.ite
    | with_reducible apply Keeps.foldl
    | with_reducible apply Keeps.foldN
    | with_reducible apply Keeps.foldr
    | with_reducible apply Keeps.foldlFst
    | split
    | dsimp only
    | assumption

theorem placeMember_keeps {ps : List Part} {o s : State} {a1 a2} (h : Keeps ps o s) (hp : [.barges] ⊆ ps) :
    Keeps ps o (placeMember s a1 a2) := by
  unfold placeMember
  repeat' first
    | with_reducible exact h
    | with_reducible assumption
    | with_reducible refine Sub.of hp ?_
    | exact rfl
    | intro _
    | with_reducible apply State.updBarge_keeps
    | with_reducible apply AllNext.next
    | with_reducible apply Keeps.ite
    | with_reducible apply AllNext.ite
    | with_reducible apply Keeps.foldl
    | with_reducible apply Keeps.foldN
    | with_reducible apply Keeps.foldr
    | with_reducible apply Keeps.foldlFst
    | split
    | dsimp only
    | assumption

theorem placeFrame_keeps {ps : List Part} {o s : State} {a1 a2} (h : Keeps ps o s) (hp : [.barges, .bc, .regs] ⊆ ps) :
    Keeps ps o (placeFrame s a1 a2).2.2 := by
  unfold placeFrame
  repeat' first
    | with_reducible exact h
    | with_reducible assumption
    | with_reducible refine Sub.of hp ?_
    | exact rfl
    | intro _
    | with_reducible apply overrun_keeps
    | with_reducible apply openBarge_keeps
    | with_reducible apply retryMask_keeps
    | with_reducible apply placeMember_keeps
    | with_reducible apply AllNext.next
    | with_reducible apply Keeps.ite
    | with_reducible apply AllNext.ite
    | with_reducible apply Keeps.foldl
    | with_reducible apply Keeps.foldN
    | with_reducible apply Keeps.foldr
    | with_reducible apply Keeps.foldlFst
    | split
    | dsimp only
    | assumption

theorem startFrame_keeps {ps : List Part} {o s : State} {a1 a2 a3 a4} (h : Keeps ps o s) (hp : [.sl, .barges, .bc, .regs] ⊆ ps) :
    Keeps ps o (startFrame s a1 a2 a3 a4) := by
  unfold startFrame
  repeat' first
    | with_reducible exact h
    | with_reducible assumption
    | with_reducible refine Sub.of hp ?_
    | exact rfl
    | intro _
    | with_reducible apply updStr_keeps
    | with_reducible apply placeFrame_keeps
    | with_reducible apply AllNext.next
    | with_reducible apply Keeps.ite
    | with_reducible apply AllNext.ite
    | with_reducible apply Keeps.foldl
    | with_reducible apply Keeps.foldN
    | with_reducible apply Keeps.foldr
    | with_reducible apply Keeps.foldlFst
    | split
    | dsimp only
    | assumption

theorem execCsiFrameStart_keeps {ps : List Part} {o s : State} {a1} (h : Keeps ps o s) (hp : [.sl, .barges, .mr, .au, .sn, .lc, .bc, .se, .hd, .bs, .ln, .regs, .mem] ⊆ ps) :
    AllNext (execCsiFrameStart a1 s) (Keeps ps o) := by
  unfold execCsiFrameStart
  repeat' first
    | with_reducible exact h
    | with_reducible assumption
    | with_reducible refine Sub.of hp ?_
    | exact rfl
    | intro _
    | with_reducible apply startFrame_keeps
    | with_reducible apply finishFrame_keeps
    | with_reducible apply frameRetired_keeps
    | with_reducible apply AllNext.next
    | with_reducible apply Keeps.ite
    | with_reducible apply AllNext.ite
    | with_reducible apply Keeps.foldl
    | with_reducible apply Keeps.foldN
    | with_reducible apply Keeps.foldr
    | with_reducible apply Keeps.foldlFst
    | split
    | dsimp only
    | assumption

theorem takeSegment_keeps {ps : List Part} {o s : State} {a1 a2 a3} (h : Keeps ps o s) (hp : [.sl, .barges, .mr, .au, .sn, .lc, .bc, .se, .hd, .bs, .ln, .regs, .mem] ⊆ ps) :
    Keeps ps o (takeSegment s a1 a2 a3) := by
  unfold takeSegment
  repeat' first
    | with_reducible exact h
    | with_reducible assumption
    | with_reducible refine Sub.of hp ?_
    | exact rfl
    | intro _
    | with_reducible apply updStr_keeps
    | with_reducible apply finishFrame_keeps
    | with_reducible apply AllNext.next
    | with_reducible apply Keeps.ite
    | with_reducible apply AllNext.ite
    | with_reducible apply Keeps.foldl
    | with_reducible apply Keeps.foldN
    | with_reducible apply Keeps.foldr
    | with_reducible apply Keeps.foldlFst
    | split
    | dsimp only
    | assumption

theorem ethErrors_keeps {ps : List Part} {o s : State} {a1} (h : Keeps ps o s) (hp : [.regs] ⊆ ps) :
    Keeps ps o (ethErrors s a1) := by
  unfold ethErrors
  repeat' first
    | with_reducible exact h
    | with_reducible assumption
    | with_reducible refine Sub.of hp ?_
    | exact rfl
    | intro _
    | with_reducible apply State.setBit_keeps
    | with_reducible apply AllNext.next
    | with_reducible apply Keeps.ite
    | with_reducible apply AllNext.ite
    | with_reducible apply Keeps.foldl
    | with_reducible apply Keeps.foldN
    | with_reducible apply Keeps.foldr
    | with_reducible apply Keeps.foldlFst
    | split
    | dsimp only
    | assumption

theorem execEthSegment_keeps {ps : List Part} {o s : State} {a1 a2} (h : Keeps ps o s) (hp : [.sl, .barges, .mr, .au, .sn, .lc, .bc, .se, .hd, .bs, .ln, .regs, .mem] ⊆ ps) :
    AllNext (execEthSegment a1 a2 s) (Keeps ps o) := by
  unfold execEthSegment
  repeat' first
    | with_reducible exact h
    | with_reducible assumption
    | with_reducible refine Sub.of hp ?_
    | exact rfl
    | intro _
    | with_reducible apply updStr_keeps
    | with_reducible apply strEvent_keeps
    | with_reducible apply startFrame_keeps
    | with_reducible apply takeSegment_keeps
    | with_reducible apply finishFrame_keeps
    | with_reducible apply frameRetired_keeps
    | with_reducible apply lnBytes_keeps
    | with_reducible apply countDiscard_keeps
    | with_reducible apply ethErrors_keeps
    | with_reducible apply AllNext.next
    | with_reducible apply Keeps.ite
    | with_reducible apply AllNext.ite
    | with_reducible apply Keeps.foldl
    | with_reducible apply Keeps.foldN
    | with_reducible apply Keeps.foldr
    | with_reducible apply Keeps.foldlFst
    | split
    | dsimp only
    | assumption

theorem lateFrames_keeps {ps : List Part} {o s : State} {a1} (h : Keeps ps o s) (hp : [.sl, .barges, .mr, .au, .sn, .lc, .bc, .se, .hd, .bs, .ln, .regs, .mem] ⊆ ps) :
    Keeps ps o (lateFrames s a1) := by
  unfold lateFrames
  repeat' first
    | with_reducible exact h
    | with_reducible assumption
    | with_reducible refine Sub.of hp ?_
    | exact rfl
    | intro _
    | with_reducible apply finishFrame_keeps
    | with_reducible apply AllNext.next
    | with_reducible apply Keeps.ite
    | with_reducible apply AllNext.ite
    | with_reducible apply Keeps.foldl
    | with_reducible apply Keeps.foldN
    | with_reducible apply Keeps.foldr
    | with_reducible apply Keeps.foldlFst
    | split
    | dsimp only
    | assumption

theorem execAssemblyDeadline_keeps {ps : List Part} {o s : State} {a1} (h : Keeps ps o s) (hp : [.sl, .barges, .mr, .au, .sn, .lc, .bc, .se, .hd, .bs, .ln, .regs, .mem] ⊆ ps) :
    AllNext (execAssemblyDeadline a1 s) (Keeps ps o) := by
  unfold execAssemblyDeadline
  repeat' first
    | with_reducible exact h
    | with_reducible assumption
    | with_reducible refine Sub.of hp ?_
    | exact rfl
    | intro _
    | with_reducible apply failSet_keeps
    | with_reducible apply lateFrames_keeps
    | with_reducible apply AllNext.next
    | with_reducible apply Keeps.ite
    | with_reducible apply AllNext.ite
    | with_reducible apply Keeps.foldl
    | with_reducible apply Keeps.foldN
    | with_reducible apply Keeps.foldr
    | with_reducible apply Keeps.foldlFst
    | split
    | dsimp only
    | assumption

theorem execLinkRegain_keeps {ps : List Part} {o s : State} {a1} (h : Keeps ps o s) (hp : [.sl] ⊆ ps) :
    AllNext (execLinkRegain a1 s) (Keeps ps o) := by
  unfold execLinkRegain
  repeat' first
    | with_reducible exact h
    | with_reducible assumption
    | with_reducible refine Sub.of hp ?_
    | exact rfl
    | intro _
    | with_reducible apply dueRestart_keeps
    | with_reducible apply setLink_keeps
    | with_reducible apply AllNext.next
    | with_reducible apply Keeps.ite
    | with_reducible apply AllNext.ite
    | with_reducible apply Keeps.foldl
    | with_reducible apply Keeps.foldN
    | with_reducible apply Keeps.foldr
    | with_reducible apply Keeps.foldlFst
    | split
    | dsimp only
    | assumption

theorem execEthUnmatchedFrame_keeps {ps : List Part} {o s : State} {a1} (h : Keeps ps o s) (hp : [.regs] ⊆ ps) :
    AllNext (execEthUnmatchedFrame a1 s) (Keeps ps o) := by
  unfold execEthUnmatchedFrame
  repeat' first
    | with_reducible exact h
    | with_reducible assumption
    | with_reducible refine Sub.of hp ?_
    | exact rfl
    | intro _
    | with_reducible apply countDiscard_keeps
    | with_reducible apply AllNext.next
    | with_reducible apply Keeps.ite
    | with_reducible apply AllNext.ite
    | with_reducible apply Keeps.foldl
    | with_reducible apply Keeps.foldN
    | with_reducible apply Keeps.foldr
    | with_reducible apply Keeps.foldlFst
    | split
    | dsimp only
    | assumption

theorem csiPacketOn_keeps {ps : List Part} {o s : State} {a1 a2 a3} (h : Keeps ps o s) (hp : [.sl, .bc, .ln, .regs] ⊆ ps) :
    Keeps ps o (csiPacketOn a1 a2 s a3) := by
  unfold csiPacketOn
  repeat' first
    | with_reducible exact h
    | with_reducible assumption
    | with_reducible refine Sub.of hp ?_
    | exact rfl
    | intro _
    | with_reducible apply countDiscard_keeps
    | with_reducible apply updStr_keeps
    | with_reducible apply strEvent_keeps
    | with_reducible apply AllNext.next
    | with_reducible apply Keeps.ite
    | with_reducible apply AllNext.ite
    | with_reducible apply Keeps.foldl
    | with_reducible apply Keeps.foldN
    | with_reducible apply Keeps.foldr
    | with_reducible apply Keeps.foldlFst
    | split
    | dsimp only
    | assumption

theorem countUnseated_keeps {ps : List Part} {o s : State} {a1 a2 a3 a4} (h : Keeps ps o s) (hp : [.regs] ⊆ ps) :
    Keeps ps o (countUnseated a1 a2 a3 a4 s) := by
  unfold countUnseated
  repeat' first
    | with_reducible exact h
    | with_reducible assumption
    | with_reducible refine Sub.of hp ?_
    | exact rfl
    | intro _
    | with_reducible apply countDiscard_keeps
    | with_reducible apply AllNext.next
    | with_reducible apply Keeps.ite
    | with_reducible apply AllNext.ite
    | with_reducible apply Keeps.foldl
    | with_reducible apply Keeps.foldN
    | with_reducible apply Keeps.foldr
    | with_reducible apply Keeps.foldlFst
    | split
    | dsimp only
    | assumption

theorem execCsiLongPacket_keeps {ps : List Part} {o s : State} {a1 a2} (h : Keeps ps o s) (hp : [.sl, .bc, .ln, .regs] ⊆ ps) :
    AllNext (execCsiLongPacket a1 a2 s) (Keeps ps o) := by
  unfold execCsiLongPacket
  repeat' first
    | with_reducible exact h
    | with_reducible assumption
    | with_reducible refine Sub.of hp ?_
    | exact rfl
    | intro _
    | with_reducible apply csiPacketOn_keeps
    | with_reducible apply countUnseated_keeps
    | with_reducible apply lnBytes_keeps
    | with_reducible apply countDiscard_keeps
    | with_reducible apply State.setBit_keeps
    | with_reducible apply AllNext.next
    | with_reducible apply Keeps.ite
    | with_reducible apply AllNext.ite
    | with_reducible apply Keeps.foldl
    | with_reducible apply Keeps.foldN
    | with_reducible apply Keeps.foldr
    | with_reducible apply Keeps.foldlFst
    | split
    | dsimp only
    | assumption

theorem execLampSlotEnd_keeps {ps : List Part} {o s : State} (h : Keeps ps o s) (hp : [.sl, .barges, .mr, .au, .sn, .lc, .bc, .se, .hd, .bs, .ln, .regs, .mem] ⊆ ps) :
    AllNext (execLampSlotEnd s) (Keeps ps o) := by
  unfold execLampSlotEnd
  repeat' first
    | with_reducible exact h
    | with_reducible assumption
    | with_reducible refine Sub.of hp ?_
    | exact rfl
    | intro _
    | with_reducible apply startSlot_keeps
    | with_reducible apply deliver_keeps
    | with_reducible apply AllNext.next
    | with_reducible apply Keeps.ite
    | with_reducible apply AllNext.ite
    | with_reducible apply Keeps.foldl
    | with_reducible apply Keeps.foldN
    | with_reducible apply Keeps.foldr
    | with_reducible apply Keeps.foldlFst
    | split
    | with_reducible apply Keeps.sl
    | dsimp only
    | assumption

end Sys2Proof.Machine
end

