-- ==== Sys2Proof/Laws/KeepsGuards.lean ====
section
/-! SUPPORT. Laws/KeepsGuards.lean: which parts of the state each operation of Machine/Guards.lean can change. -/

namespace Sys2Proof.Machine

theorem extRefusal_keeps {ps : List Part} {o s : State} {a1 a2 a3} (h : Keeps ps o s) (hp : [.bc, .bs, .regs] ⊆ ps) :
    Keeps ps o (extRefusal s a1 a2 a3) := by
  unfold extRefusal
  repeat' first
    | with_reducible exact h
    | with_reducible assumption
    | with_reducible refine Sub.of hp ?_
    | exact rfl
    | intro _
    | with_reducible apply holdRefusal_keeps
    | with_reducible apply basinRefused_keeps
    | with_reducible apply bankRefusal_keeps
    | with_reducible apply AllNext.next
    | with_reducible apply Keeps.ite
    | with_reducible apply AllNext.ite
    | with_reducible apply Keeps.foldl
    | with_reducible apply Keeps.foldN
    | with_reducible apply Keeps.foldr
    | with_reducible apply Keeps.foldlFst
    | split
    | dsimp only
    | assumption

end Sys2Proof.Machine
end

