-- ==== Sys2Proof/Laws/KeepsTiles.lean ====
section
/-! SUPPORT. Laws/KeepsTiles.lean: which parts of the state each operation of Machine/Tiles.lean can change. -/

namespace Sys2Proof.Machine

theorem freeChan_keeps {ps : List Part} {o s : State} {a1 a2} (h : Keeps ps o s) (hp : [.tiles] ⊆ ps) :
    Keeps ps o (freeChan s a1 a2) := by
  unfold freeChan
  repeat' first
    | with_reducible exact h
    | with_reducible assumption
    | with_reducible refine Sub.of hp ?_
    | exact rfl
    | intro _
    | with_reducible apply updTile_keeps
    | with_reducible apply AllNext.next
    | with_reducible apply Keeps.ite
    | with_reducible apply AllNext.ite
    | with_reducible apply Keeps.foldl
    | with_reducible apply Keeps.foldN
    | with_reducible apply Keeps.foldr
    | with_reducible apply Keeps.foldlFst
    | split
    | dsimp only
    | assumption

theorem netCopy_keeps {ps : List Part} {o s : State} {a1 a2 a3} (h : Keeps ps o s) (hp : [.mem] ⊆ ps) :
    Keeps ps o (netCopy s a1 a2 a3) := by
  unfold netCopy
  repeat' first
    | with_reducible exact h
    | with_reducible assumption
    | with_reducible refine Sub.of hp ?_
    | exact rfl
    | intro _
    | with_reducible apply State.copyMem_keeps
    | with_reducible apply State.store_keeps
    | with_reducible apply AllNext.next
    | with_reducible apply Keeps.ite
    | with_reducible apply AllNext.ite
    | with_reducible apply Keeps.foldl
    | with_reducible apply Keeps.foldN
    | with_reducible apply Keeps.foldr
    | with_reducible apply Keeps.foldlFst
    | split
    | dsimp only
    | assumption

theorem netWrites_keeps {ps : List Part} {o s : State} {a1 a2} (h : Keeps ps o s) (hp : [.ports] ⊆ ps) :
    Keeps ps o (netWrites s a1 a2) := by
  unfold netWrites
  repeat' first
    | with_reducible exact h
    | with_reducible assumption
    | with_reducible refine Sub.of hp ?_
    | exact rfl
    | intro _
    | with_reducible apply AllNext.next
    | with_reducible apply Keeps.ite
    | with_reducible apply AllNext.ite
    | with_reducible apply Keeps.foldl
    | with_reducible apply Keeps.foldN
    | with_reducible apply Keeps.foldr
    | with_reducible apply Keeps.foldlFst
    | split
    | with_reducible apply Keeps.ports
    | dsimp only
    | assumption

theorem clearSaved_keeps {ps : List Part} {o s : State} {a1 a2 a3} (h : Keeps ps o s) (hp : [.tiles] ⊆ ps) :
    Keeps ps o (clearSaved s a1 a2 a3) := by
  unfold clearSaved
  repeat' first
    | with_reducible exact h
    | with_reducible assumption
    | with_reducible refine Sub.of hp ?_
    | exact rfl
    | intro _
    | with_reducible apply updTile_keeps
    | with_reducible apply AllNext.next
    | with_reducible apply Keeps.ite
    | with_reducible apply AllNext.ite
    | with_reducible apply Keeps.foldl
    | with_reducible apply Keeps.foldN
    | with_reducible apply Keeps.foldr
    | with_reducible apply Keeps.foldlFst
    | split
    | dsimp only
    | assumption

theorem copyIn_keeps {ps : List Part} {o s : State} {a1 a2 a3 a4} (h : Keeps ps o s) (hp : [.tiles, .ports, .mem] ⊆ ps) :
    Keeps ps o (copyIn s a1 a2 a3 a4) := by
  unfold copyIn
  repeat' first
    | with_reducible exact h
    | with_reducible assumption
    | with_reducible refine Sub.of hp ?_
    | exact rfl
    | intro _
    | with_reducible apply netWrites_keeps
    | with_reducible apply netCopy_keeps
    | with_reducible apply clearSaved_keeps
    | with_reducible apply AllNext.next
    | with_reducible apply Keeps.ite
    | with_reducible apply AllNext.ite
    | with_reducible apply Keeps.foldl
    | with_reducible apply Keeps.foldN
    | with_reducible apply Keeps.foldr
    | with_reducible apply Keeps.foldlFst
    | split
    | dsimp only
    | assumption

theorem dmaCount_keeps {ps : List Part} {o s : State} {a1 a2 a3 a4} (h : Keeps ps o s) (hp : [.tiles, .ln, .regs] ⊆ ps) :
    Keeps ps o (dmaCount s a1 a2 a3 a4) := by
  unfold dmaCount
  repeat' first
    | with_reducible exact h
    | with_reducible assumption
    | with_reducible refine Sub.of hp ?_
    | exact rfl
    | intro _
    | with_reducible apply holdBytes_keeps
    | with_reducible apply updTile_keeps
    | with_reducible apply lnEvent_keeps
    | with_reducible apply AllNext.next
    | with_reducible apply Keeps.ite
    | with_reducible apply AllNext.ite
    | with_reducible apply Keeps.foldl
    | with_reducible apply Keeps.foldN
    | with_reducible apply Keeps.foldr
    | with_reducible apply Keeps.foldlFst
    | split
    | dsimp only
    | assumption

theorem moveRow_keeps {ps : List Part} {o s : State} {a1 a2 a3 a4} (h : Keeps ps o s) (hp : [.tiles, .sn, .se, .hd, .ln, .ports, .regs, .mem] ⊆ ps) :
    Keeps ps o (moveRow s a1 a2 a3 a4) := by
  unfold moveRow
  repeat' first
    | with_reducible exact h
    | with_reducible assumption
    | with_reducible refine Sub.of hp ?_
    | exact rfl
    | intro _
    | with_reducible apply netCopy_keeps
    | with_reducible apply holdRewritten_keeps
    | with_reducible apply libraryTouched_keeps
    | with_reducible apply copyIn_keeps
    | with_reducible apply dmaCount_keeps
    | with_reducible apply AllNext.next
    | with_reducible apply Keeps.ite
    | with_reducible apply AllNext.ite
    | with_reducible apply Keeps.foldl
    | with_reducible apply Keeps.foldN
    | with_reducible apply Keeps.foldr
    | with_reducible apply Keeps.foldlFst
    | split
    | dsimp only
    | assumption

theorem moveRows_keeps {ps : List Part} {o : State} {a1 a2 a3} (n : Nat) : ∀ {s : State} {a4 : Nat}, Keeps ps o s →
    [.tiles, .sn, .bc, .se, .hd, .bs, .ln, .ports, .regs, .mem] ⊆ ps → Keeps ps o (moveRows a1 a2 a3 n a4 s).1 := by
  induction n with
  | zero => exact fun h _ => h
  | succ n ih =>
    intro s a4 h hp
    unfold moveRows
    split
    · exact extRefusal_keeps h (Sub.of hp rfl)
    · exact ih (moveRow_keeps h (Sub.of hp rfl)) hp

theorem movePart_keeps {ps : List Part} {o s : State} {a1 a2 a3} (h : Keeps ps o s) (hp : [.tiles, .sn, .bc, .se, .hd, .bs, .ln, .ports, .regs, .mem] ⊆ ps) :
    Keeps ps o (movePart s a1 a2 a3) := by
  unfold movePart
  repeat' first
    | with_reducible exact h
    | with_reducible assumption
    | with_reducible refine Sub.of hp ?_
    | exact rfl
    | intro _
    | with_reducible apply moveRow_keeps
    | with_reducible apply moveRows_keeps
    | with_reducible apply State.free_keeps
    | with_reducible apply AllNext.next
    | with_reducible apply Keeps.ite
    | with_reducible apply AllNext.ite
    | with_reducible apply Keeps.foldl
    | with_reducible apply Keeps.foldN
    | with_reducible apply Keeps.foldr
    | with_reducible apply Keeps.foldlFst
    | split
    | dsimp only
    | assumption

theorem killChan_keeps {ps : List Part} {o s : State} {a1 a2} (h : Keeps ps o s) (hp : [.tiles, .sn, .bc, .se, .hd, .bs, .ln, .ports, .regs, .mem] ⊆ ps) :
    Keeps ps o (killChan a1 s a2) := by
  unfold killChan
  repeat' first
    | with_reducible exact h
    | with_reducible assumption
    | with_reducible refine Sub.of hp ?_
    | exact rfl
    | intro _
    | with_reducible apply freeChan_keeps
    | with_reducible apply movePart_keeps
    | with_reducible apply State.raise_keeps
    | with_reducible apply AllNext.next
    | with_reducible apply Keeps.ite
    | with_reducible apply AllNext.ite
    | with_reducible apply Keeps.foldl
    | with_reducible apply Keeps.foldN
    | with_reducible apply Keeps.foldr
    | with_reducible apply Keeps.foldlFst
    | split
    | dsimp only
    | assumption

theorem tileLost_keeps {ps : List Part} {o s : State} {a1} (h : Keeps ps o s) (hp : [.barges, .au, .lc, .bc, .regs] ⊆ ps) :
    Keeps ps o (tileLost s a1) := by
  unfold tileLost
  repeat' first
    | with_reducible exact h
    | with_reducible assumption
    | with_reducible refine Sub.of hp ?_
    | exact rfl
    | intro _
    | with_reducible apply loseAuditTile_keeps
    | with_reducible apply AllNext.next
    | with_reducible apply Keeps.ite
    | with_reducible apply AllNext.ite
    | with_reducible apply Keeps.foldl
    | with_reducible apply Keeps.foldN
    | with_reducible apply Keeps.foldr
    | with_reducible apply Keeps.foldlFst
    | split
    | dsimp only
    | assumption

theorem tileExit_keeps {ps : List Part} {o s : State} {a1 a2} (h : Keeps ps o s) (hp : [.regs] ⊆ ps) :
    Keeps ps o (tileExit s a1 a2) := by
  unfold tileExit
  repeat' first
    | with_reducible exact h
    | with_reducible assumption
    | with_reducible refine Sub.of hp ?_
    | exact rfl
    | intro _
    | with_reducible apply State.setReg_keeps
    | with_reducible apply AllNext.next
    | with_reducible apply Keeps.ite
    | with_reducible apply AllNext.ite
    | with_reducible apply Keeps.foldl
    | with_reducible apply Keeps.foldN
    | with_reducible apply Keeps.foldr
    | with_reducible apply Keeps.foldlFst
    | split
    | dsimp only
    | assumption

theorem markFault_keeps {ps : List Part} {o s : State} {a1 a2} (h : Keeps ps o s) (hp : [.bc, .regs] ⊆ ps) :
    Keeps ps o (markFault s a1 a2) := by
  unfold markFault
  repeat' first
    | with_reducible exact h
    | with_reducible assumption
    | with_reducible refine Sub.of hp ?_
    | exact rfl
    | intro _
    | with_reducible apply State.setBit_keeps
    | with_reducible apply State.raise_keeps
    | with_reducible apply State.setReg_keeps
    | with_reducible apply AllNext.next
    | with_reducible apply Keeps.ite
    | with_reducible apply AllNext.ite
    | with_reducible apply Keeps.foldl
    | with_reducible apply Keeps.foldN
    | with_reducible apply Keeps.foldr
    | with_reducible apply Keeps.foldlFst
    | split
    | dsimp only
    | assumption

theorem tileFault_keeps {ps : List Part} {o s : State} {a1 a2} (h : Keeps ps o s) (hp : [.barges, .tiles, .au, .sn, .lc, .bc, .regs] ⊆ ps) :
    Keeps ps o (tileFault s a1 a2) := by
  unfold tileFault
  repeat' first
    | with_reducible exact h
    | with_reducible assumption
    | with_reducible refine Sub.of hp ?_
    | exact rfl
    | intro _
    | with_reducible apply updTile_keeps
    | with_reducible apply tileExit_keeps
    | with_reducible apply slotEnds_keeps
    | with_reducible apply tileLost_keeps
    | with_reducible apply markFault_keeps
    | with_reducible apply AllNext.next
    | with_reducible apply Keeps.ite
    | with_reducible apply AllNext.ite
    | with_reducible apply Keeps.foldl
    | with_reducible apply Keeps.foldN
    | with_reducible apply Keeps.foldr
    | with_reducible apply Keeps.foldlFst
    | split
    | dsimp only
    | assumption

theorem tileCorrected_keeps {ps : List Part} {o s : State} {a1 a2} (h : Keeps ps o s) (hp : [.bc, .ln, .regs] ⊆ ps) :
    Keeps ps o (tileCorrected s a1 a2) := by
  unfold tileCorrected
  repeat' first
    | with_reducible exact h
    | with_reducible assumption
    | with_reducible refine Sub.of hp ?_
    | exact rfl
    | intro _
    | with_reducible apply lnEvent_keeps
    | with_reducible apply State.raise_keeps
    | with_reducible apply State.satAdd_keeps
    | with_reducible apply AllNext.next
    | with_reducible apply Keeps.ite
    | with_reducible apply AllNext.ite
    | with_reducible apply Keeps.foldl
    | with_reducible apply Keeps.foldN
    | with_reducible apply Keeps.foldr
    | with_reducible apply Keeps.foldlFst
    | split
    | dsimp only
    | assumption

theorem sramNet_keeps {ps : List Part} {o s : State} {a1 a2 a3} (h : Keeps ps o s) (hp : [.tiles, .ports, .mem] ⊆ ps) :
    Keeps ps o (sramNet s a1 a2 a3) := by
  unfold sramNet
  repeat' first
    | with_reducible exact h
    | with_reducible assumption
    | with_reducible refine Sub.of hp ?_
    | exact rfl
    | intro _
    | with_reducible apply netWrites_keeps
    | with_reducible apply State.store_keeps
    | with_reducible apply clearSaved_keeps
    | with_reducible apply AllNext.next
    | with_reducible apply Keeps.ite
    | with_reducible apply AllNext.ite
    | with_reducible apply Keeps.foldl
    | with_reducible apply Keeps.foldN
    | with_reducible apply Keeps.foldr
    | with_reducible apply Keeps.foldlFst
    | split
    | dsimp only
    | assumption

theorem execTlEventSet_keeps {ps : List Part} {o s : State} {a1 a2 a3} (h : Keeps ps o s) (hp : [.bus, .bc, .regs] ⊆ ps) :
    AllNext (execTlEventSet a1 a2 a3 s) (Keeps ps o) := by
  unfold execTlEventSet
  repeat' first
    | with_reducible exact h
    | with_reducible assumption
    | with_reducible refine Sub.of hp ?_
    | exact rfl
    | intro _
    | with_reducible apply State.setReg_keeps
    | with_reducible apply State.keeperWrite_keeps
    | with_reducible apply AllNext.next
    | with_reducible apply Keeps.ite
    | with_reducible apply AllNext.ite
    | with_reducible apply Keeps.foldl
    | with_reducible apply Keeps.foldN
    | with_reducible apply Keeps.foldr
    | with_reducible apply Keeps.foldlFst
    | split
    | dsimp only
    | assumption

theorem execTlDbgHalt_keeps {ps : List Part} {o s : State} {a1 a2} (h : Keeps ps o s) (hp : [.bus, .tiles, .bc, .regs] ⊆ ps) :
    AllNext (execTlDbgHalt a1 a2 s) (Keeps ps o) := by
  unfold execTlDbgHalt
  repeat' first
    | with_reducible exact h
    | with_reducible assumption
    | with_reducible refine Sub.of hp ?_
    | exact rfl
    | intro _
    | with_reducible apply updTile_keeps
    | with_reducible apply State.setReg_keeps
    | with_reducible apply State.keeperWrite_keeps
    | with_reducible apply AllNext.next
    | with_reducible apply Keeps.ite
    | with_reducible apply AllNext.ite
    | with_reducible apply Keeps.foldl
    | with_reducible apply Keeps.foldN
    | with_reducible apply Keeps.foldr
    | with_reducible apply Keeps.foldlFst
    | split
    | dsimp only
    | assumption

theorem tileCounts_keeps {ps : List Part} {o s : State} {a1 a2 a3} (h : Keeps ps o s) (hp : [.bc, .ln, .regs] ⊆ ps) :
    Keeps ps o (tileCounts s a1 a2 a3) := by
  unfold tileCounts
  repeat' first
    | with_reducible exact h
    | with_reducible assumption
    | with_reducible refine Sub.of hp ?_
    | exact rfl
    | intro _
    | with_reducible apply tileCorrected_keeps
    | with_reducible apply AllNext.next
    | with_reducible apply Keeps.ite
    | with_reducible apply AllNext.ite
    | with_reducible apply Keeps.foldl
    | with_reducible apply Keeps.foldN
    | with_reducible apply Keeps.foldr
    | with_reducible apply Keeps.foldlFst
    | split
    | dsimp only
    | assumption

theorem tileEccs_keeps {ps : List Part} {o s : State} {a1 a2 a3} {f} (hf : ∀ x, Keeps ps o x → Keeps ps o (f x)) (h : Keeps ps o s) (hp : [.barges, .tiles, .au, .sn, .lc, .bc, .ln, .regs] ⊆ ps) :
    Keeps ps o (tileEccs s a1 a2 a3 f) := by
  unfold tileEccs
  repeat' first
    | with_reducible exact h
    | with_reducible assumption
    | with_reducible refine Sub.of hp ?_
    | exact rfl
    | intro _
    | with_reducible apply tileCounts_keeps
    | with_reducible apply tileFault_keeps
    | with_reducible apply hf
    | with_reducible apply AllNext.next
    | with_reducible apply Keeps.ite
    | with_reducible apply AllNext.ite
    | with_reducible apply Keeps.foldl
    | with_reducible apply Keeps.foldN
    | with_reducible apply Keeps.foldr
    | with_reducible apply Keeps.foldlFst
    | split
    | dsimp only
    | assumption

theorem sramWrite_keeps {ps : List Part} {o s : State} {a1 a2 a3} (h : Keeps ps o s) (hp : [.tiles, .ports, .mem] ⊆ ps) :
    Keeps ps o (sramWrite s a1 a2 a3) := by
  unfold sramWrite
  repeat' first
    | with_reducible exact h
    | with_reducible assumption
    | with_reducible refine Sub.of hp ?_
    | exact rfl
    | intro _
    | with_reducible apply clearSaved_keeps
    | with_reducible apply State.store_keeps
    | with_reducible apply AllNext.next
    | with_reducible apply Keeps.ite
    | with_reducible apply AllNext.ite
    | with_reducible apply Keeps.foldl
    | with_reducible apply Keeps.foldN
    | with_reducible apply Keeps.foldr
    | with_reducible apply Keeps.foldlFst
    | split
    | with_reducible apply Keeps.ports
    | dsimp only
    | assumption

theorem loadGroup_keeps {ps : List Part} {o s : State} {a1 a2 a3} (h : Keeps ps o s) (hp : [.tiles] ⊆ ps) :
    Keeps ps o (loadGroup s a1 a2 a3) := by
  unfold loadGroup
  repeat' first
    | with_reducible exact h
    | with_reducible assumption
    | with_reducible refine Sub.of hp ?_
    | exact rfl
    | intro _
    | with_reducible apply updTile_keeps
    | with_reducible apply AllNext.next
    | with_reducible apply Keeps.ite
    | with_reducible apply AllNext.ite
    | with_reducible apply Keeps.foldl
    | with_reducible apply Keeps.foldN
    | with_reducible apply Keeps.foldr
    | with_reducible apply Keeps.foldlFst
    | split
    | dsimp only
    | assumption

theorem loaderCycle_keeps {ps : List Part} {o s : State} {a1 a2} (h : Keeps ps o s) (hp : [.tiles, .ln, .regs] ⊆ ps) :
    Keeps ps o (loaderCycle s a1 a2) := by
  unfold loaderCycle
  repeat' first
    | with_reducible exact h
    | with_reducible assumption
    | with_reducible refine Sub.of hp ?_
    | exact rfl
    | intro _
    | with_reducible apply loadGroup_keeps
    | with_reducible apply lnEvent_keeps
    | with_reducible apply updTile_keeps
    | with_reducible apply AllNext.next
    | with_reducible apply Keeps.ite
    | with_reducible apply AllNext.ite
    | with_reducible apply Keeps.foldl
    | with_reducible apply Keeps.foldN
    | with_reducible apply Keeps.foldr
    | with_reducible apply Keeps.foldlFst
    | split
    | dsimp only
    | assumption

theorem tileEcc_keeps {ps : List Part} {o s : State} {a1 a2 a3} {f} (hf : ∀ x, Keeps ps o x → Keeps ps o (f x)) (h : Keeps ps o s) (hp : [.barges, .tiles, .au, .sn, .lc, .bc, .ln, .regs] ⊆ ps) :
    Keeps ps o (tileEcc s a1 a2 a3 f) := by
  unfold tileEcc
  repeat' first
    | with_reducible exact h
    | with_reducible assumption
    | with_reducible refine Sub.of hp ?_
    | exact rfl
    | intro _
    | with_reducible apply tileFault_keeps
    | with_reducible apply tileCorrected_keeps
    | with_reducible apply hf
    | with_reducible apply AllNext.next
    | with_reducible apply Keeps.ite
    | with_reducible apply AllNext.ite
    | with_reducible apply Keeps.foldl
    | with_reducible apply Keeps.foldN
    | with_reducible apply Keeps.foldr
    | with_reducible apply Keeps.foldlFst
    | split
    | dsimp only
    | assumption

theorem execTlDbgResume_keeps {ps : List Part} {o s : State} {a1 a2} (h : Keeps ps o s) (hp : [.bus, .tiles, .bc, .regs] ⊆ ps) :
    AllNext (execTlDbgResume a1 a2 s) (Keeps ps o) := by
  unfold execTlDbgResume
  repeat' first
    | with_reducible exact h
    | with_reducible assumption
    | with_reducible refine Sub.of hp ?_
    | exact rfl
    | intro _
    | with_reducible apply updTile_keeps
    | with_reducible apply State.setReg_keeps
    | with_reducible apply State.keeperWrite_keeps
    | with_reducible apply AllNext.next
    | with_reducible apply Keeps.ite
    | with_reducible apply AllNext.ite
    | with_reducible apply Keeps.foldl
    | with_reducible apply Keeps.foldN
    | with_reducible apply Keeps.foldr
    | with_reducible apply Keeps.foldlFst
    | split
    | dsimp only
    | assumption

theorem execTlReset_keeps {ps : List Part} {o s : State} {a1 a2 a3} (h : Keeps ps o s) (hp : [.bus, .barges, .tiles, .sn, .lc, .bc, .se, .hd, .bs, .ln, .ports, .regs, .mem] ⊆ ps) :
    AllNext (execTlReset a1 a2 a3 s) (Keeps ps o) := by
  unfold execTlReset
  repeat' first
    | with_reducible exact h
    | with_reducible assumption
    | with_reducible refine Sub.of hp ?_
    | exact rfl
    | intro _
    | with_reducible apply updTile_keeps
    | with_reducible apply State.setReg_keeps
    | with_reducible apply slotEnds_keeps
    | with_reducible apply killChan_keeps
    | with_reducible apply State.keeperWrite_keeps
    | with_reducible apply AllNext.next
    | with_reducible apply Keeps.ite
    | with_reducible apply AllNext.ite
    | with_reducible apply Keeps.foldl
    | with_reducible apply Keeps.foldN
    | with_reducible apply Keeps.foldr
    | with_reducible apply Keeps.foldlFst
    | split
    | dsimp only
    | assumption

theorem stopRun_keeps {ps : List Part} {o s : State} {a1 a2} (h : Keeps ps o s) (hp : [.tiles] ⊆ ps) :
    Keeps ps o (stopRun s a1 a2) := by
  unfold stopRun
  repeat' first
    | with_reducible exact h
    | with_reducible assumption
    | with_reducible refine Sub.of hp ?_
    | exact rfl
    | intro _
    | with_reducible apply updTile_keeps
    | with_reducible apply AllNext.next
    | with_reducible apply Keeps.ite
    | with_reducible apply AllNext.ite
    | with_reducible apply Keeps.foldl
    | with_reducible apply Keeps.foldN
    | with_reducible apply Keeps.foldr
    | with_reducible apply Keeps.foldlFst
    | split
    | dsimp only
    | assumption

theorem execTlStopPause_keeps {ps : List Part} {o s : State} {a1 a2} (h : Keeps ps o s) (hp : [.bus, .tiles, .bc] ⊆ ps) :
    AllNext (execTlStopPause a1 a2 s) (Keeps ps o) := by
  unfold execTlStopPause
  repeat' first
    | with_reducible exact h
    | with_reducible assumption
    | with_reducible refine Sub.of hp ?_
    | exact rfl
    | intro _
    | with_reducible apply State.busError_keeps
    | with_reducible apply stopRun_keeps
    | with_reducible apply State.keeperWrite_keeps
    | with_reducible apply AllNext.next
    | with_reducible apply Keeps.ite
    | with_reducible apply AllNext.ite
    | with_reducible apply Keeps.foldl
    | with_reducible apply Keeps.foldN
    | with_reducible apply Keeps.foldr
    | with_reducible apply Keeps.foldlFst
    | split
    | dsimp only
    | assumption

theorem execTlStopAbort_keeps {ps : List Part} {o s : State} {a1 a2} (h : Keeps ps o s) (hp : [.bus, .tiles, .bc] ⊆ ps) :
    AllNext (execTlStopAbort a1 a2 s) (Keeps ps o) := by
  unfold execTlStopAbort
  repeat' first
    | with_reducible exact h
    | with_reducible assumption
    | with_reducible refine Sub.of hp ?_
    | exact rfl
    | intro _
    | with_reducible apply stopRun_keeps
    | with_reducible apply State.keeperWrite_keeps
    | with_reducible apply AllNext.next
    | with_reducible apply Keeps.ite
    | with_reducible apply AllNext.ite
    | with_reducible apply Keeps.foldl
    | with_reducible apply Keeps.foldN
    | with_reducible apply Keeps.foldr
    | with_reducible apply Keeps.foldlFst
    | split
    | dsimp only
    | assumption

theorem beginRun_keeps {ps : List Part} {o s : State} {a1 a2 a3} (h : Keeps ps o s) (hp : [.tiles, .sn, .regs] ⊆ ps) :
    Keeps ps o (beginRun s a1 a2 a3) := by
  unfold beginRun
  repeat' first
    | with_reducible exact h
    | with_reducible assumption
    | with_reducible refine Sub.of hp ?_
    | exact rfl
    | intro _
    | with_reducible apply updTile_keeps
    | with_reducible apply slotBegins_keeps
    | with_reducible apply State.setReg_keeps
    | with_reducible apply AllNext.next
    | with_reducible apply Keeps.ite
    | with_reducible apply AllNext.ite
    | with_reducible apply Keeps.foldl
    | with_reducible apply Keeps.foldN
    | with_reducible apply Keeps.foldr
    | with_reducible apply Keeps.foldlFst
    | split
    | dsimp only
    | assumption

theorem failStart_keeps {ps : List Part} {o s : State} {a1 a2 a3 a4} (h : Keeps ps o s) (hp : [.barges, .tiles, .au, .sn, .lc, .bc, .regs] ⊆ ps) :
    Keeps ps o (failStart s a1 a2 a3 a4) := by
  unfold failStart
  repeat' first
    | with_reducible exact h
    | with_reducible assumption
    | with_reducible refine Sub.of hp ?_
    | exact rfl
    | intro _
    | with_reducible apply updTile_keeps
    | with_reducible apply tileFault_keeps
    | with_reducible apply AllNext.next
    | with_reducible apply Keeps.ite
    | with_reducible apply AllNext.ite
    | with_reducible apply Keeps.foldl
    | with_reducible apply Keeps.foldN
    | with_reducible apply Keeps.foldr
    | with_reducible apply Keeps.foldlFst
    | split
    | dsimp only
    | assumption

theorem loadTile_keeps {ps : List Part} {o s : State} {a1} (h : Keeps ps o s) (hp : [.tiles, .regs] ⊆ ps) :
    Keeps ps o (loadTile s a1) := by
  unfold loadTile
  repeat' first
    | with_reducible exact h
    | with_reducible assumption
    | with_reducible refine Sub.of hp ?_
    | exact rfl
    | intro _
    | with_reducible apply updTile_keeps
    | with_reducible apply State.setReg_keeps
    | with_reducible apply AllNext.next
    | with_reducible apply Keeps.ite
    | with_reducible apply AllNext.ite
    | with_reducible apply Keeps.foldl
    | with_reducible apply Keeps.foldN
    | with_reducible apply Keeps.foldr
    | with_reducible apply Keeps.foldlFst
    | split
    | dsimp only
    | assumption

theorem resumeRun_keeps {ps : List Part} {o s : State} {a1 a2 a3} (h : Keeps ps o s) (hp : [.barges, .tiles, .au, .sn, .lc, .bc, .regs] ⊆ ps) :
    Keeps ps o (resumeRun s a1 a2 a3) := by
  unfold resumeRun
  repeat' first
    | with_reducible exact h
    | with_reducible assumption
    | with_reducible refine Sub.of hp ?_
    | exact rfl
    | intro _
    | with_reducible apply failStart_keeps
    | with_reducible apply loadTile_keeps
    | with_reducible apply slotBegins_keeps
    | with_reducible apply updTile_keeps
    | with_reducible apply AllNext.next
    | with_reducible apply Keeps.ite
    | with_reducible apply AllNext.ite
    | with_reducible apply Keeps.foldl
    | with_reducible apply Keeps.foldN
    | with_reducible apply Keeps.foldr
    | with_reducible apply Keeps.foldlFst
    | split
    | dsimp only
    | assumption

theorem execTlStart_keeps {ps : List Part} {o s : State} {a1 a2 a3 a4} (h : Keeps ps o s) (hp : [.bus, .barges, .tiles, .au, .sn, .lc, .bc, .ln, .regs] ⊆ ps) :
    AllNext (execTlStart a1 a2 a3 a4 s) (Keeps ps o) := by
  unfold execTlStart
  repeat' first
    | with_reducible exact h
    | with_reducible assumption
    | with_reducible refine Sub.of hp ?_
    | exact rfl
    | intro _
    | with_reducible apply beginRun_keeps
    | with_reducible apply resumeRun_keeps
    | with_reducible apply failStart_keeps
    | with_reducible apply tileCounts_keeps
    | with_reducible apply State.busError_keeps
    | with_reducible apply State.keeperWrite_keeps
    | with_reducible apply AllNext.next
    | with_reducible apply Keeps.ite
    | with_reducible apply AllNext.ite
    | with_reducible apply Keeps.foldl
    | with_reducible apply Keeps.foldN
    | with_reducible apply Keeps.foldr
    | with_reducible apply Keeps.foldlFst
    | split
    | dsimp only
    | assumption

theorem dmaBadWord_keeps {ps : List Part} {o s : State} {a1 a2} (h : Keeps ps o s) :
    Keeps ps o (dmaBadWord s a1 a2).2 := by
  unfold dmaBadWord
  repeat' first
    | with_reducible exact h
    | with_reducible assumption
    | intro _
    | with_reducible apply State.free_keeps
    | with_reducible apply AllNext.next
    | with_reducible apply Keeps.ite
    | with_reducible apply AllNext.ite
    | with_reducible apply Keeps.foldl
    | with_reducible apply Keeps.foldN
    | with_reducible apply Keeps.foldr
    | with_reducible apply Keeps.foldlFst
    | split
    | dsimp only
    | assumption

theorem netUncorrectable_keeps {ps : List Part} {o s : State} {a1} (h : Keeps ps o s) (hp : [.barges, .tiles, .au, .sn, .lc, .bc, .hd, .ln, .regs] ⊆ ps) :
    Keeps ps o (netUncorrectable s a1) := by
  unfold netUncorrectable
  repeat' first
    | with_reducible exact h
    | with_reducible assumption
    | with_reducible refine Sub.of hp ?_
    | exact rfl
    | intro _
    | with_reducible apply basinUncorrectable_keeps
    | with_reducible apply tileFault_keeps
    | with_reducible apply holdUncorrectable_keeps
    | with_reducible apply AllNext.next
    | with_reducible apply Keeps.ite
    | with_reducible apply AllNext.ite
    | with_reducible apply Keeps.foldl
    | with_reducible apply Keeps.foldN
    | with_reducible apply Keeps.foldr
    | with_reducible apply Keeps.foldlFst
    | split
    | dsimp only
    | assumption

theorem dmaFault_keeps {ps : List Part} {o s : State} {a1 a2} (h : Keeps ps o s) (hp : [.barges, .tiles, .au, .sn, .lc, .bc, .regs] ⊆ ps) :
    Keeps ps o (dmaFault s a1 a2) := by
  unfold dmaFault
  repeat' first
    | with_reducible exact h
    | with_reducible assumption
    | with_reducible refine Sub.of hp ?_
    | exact rfl
    | intro _
    | with_reducible apply tileFault_keeps
    | with_reducible apply markFault_keeps
    | with_reducible apply AllNext.next
    | with_reducible apply Keeps.ite
    | with_reducible apply AllNext.ite
    | with_reducible apply Keeps.foldl
    | with_reducible apply Keeps.foldN
    | with_reducible apply Keeps.foldr
    | with_reducible apply Keeps.foldlFst
    | split
    | dsimp only
    | assumption

theorem execDmaTimeout_keeps {ps : List Part} {o s : State} {a1 a2} (h : Keeps ps o s) (hp : [.barges, .tiles, .au, .sn, .lc, .bc, .se, .hd, .bs, .ln, .ports, .regs, .mem] ⊆ ps) :
    AllNext (execDmaTimeout a1 a2 s) (Keeps ps o) := by
  unfold execDmaTimeout
  repeat' first
    | with_reducible exact h
    | with_reducible assumption
    | with_reducible refine Sub.of hp ?_
    | exact rfl
    | intro _
    | with_reducible apply freeChan_keeps
    | with_reducible apply movePart_keeps
    | with_reducible apply dmaFault_keeps
    | with_reducible apply AllNext.next
    | with_reducible apply Keeps.ite
    | with_reducible apply AllNext.ite
    | with_reducible apply Keeps.foldl
    | with_reducible apply Keeps.foldN
    | with_reducible apply Keeps.foldr
    | with_reducible apply Keeps.foldlFst
    | split
    | dsimp only
    | assumption

theorem dmaBad_keeps {ps : List Part} {o s : State} {a1 a2 a3} (h : Keeps ps o s) (hp : [.barges, .tiles, .au, .sn, .lc, .bc, .se, .hd, .bs, .ln, .ports, .regs, .mem] ⊆ ps) :
    Keeps ps o (dmaBad s a1 a2 a3) := by
  unfold dmaBad
  repeat' first
    | with_reducible exact h
    | with_reducible assumption
    | with_reducible refine Sub.of hp ?_
    | exact rfl
    | intro _
    | with_reducible apply netUncorrectable_keeps
    | with_reducible apply dmaFault_keeps
    | with_reducible apply movePart_keeps
    | with_reducible apply dmaBadWord_keeps
    | with_reducible apply AllNext.next
    | with_reducible apply Keeps.ite
    | with_reducible apply AllNext.ite
    | with_reducible apply Keeps.foldl
    | with_reducible apply Keeps.foldN
    | with_reducible apply Keeps.foldr
    | with_reducible apply Keeps.foldlFst
    | split
    | dsimp only
    | assumption

theorem execCycleLimit_keeps {ps : List Part} {o s : State} {a1} (h : Keeps ps o s) (hp : [.barges, .tiles, .au, .sn, .lc, .bc, .regs] ⊆ ps) :
    AllNext (execCycleLimit a1 s) (Keeps ps o) := by
  unfold execCycleLimit
  repeat' first
    | with_reducible exact h
    | with_reducible assumption
    | with_reducible refine Sub.of hp ?_
    | exact rfl
    | intro _
    | with_reducible apply tileFault_keeps
    | with_reducible apply AllNext.next
    | with_reducible apply Keeps.ite
    | with_reducible apply AllNext.ite
    | with_reducible apply Keeps.foldl
    | with_reducible apply Keeps.foldN
    | with_reducible apply Keeps.foldr
    | with_reducible apply Keeps.foldlFst
    | split
    | dsimp only
    | assumption

theorem netCorrected_keeps {ps : List Part} {o s : State} {a1} (h : Keeps ps o s) (hp : [.bc, .ln, .regs] ⊆ ps) :
    Keeps ps o (netCorrected s a1) := by
  unfold netCorrected
  repeat' first
    | with_reducible exact h
    | with_reducible assumption
    | with_reducible refine Sub.of hp ?_
    | exact rfl
    | intro _
    | with_reducible apply basinCorrected_keeps
    | with_reducible apply tileCorrected_keeps
    | with_reducible apply holdCorrected_keeps
    | with_reducible apply AllNext.next
    | with_reducible apply Keeps.ite
    | with_reducible apply AllNext.ite
    | with_reducible apply Keeps.foldl
    | with_reducible apply Keeps.foldN
    | with_reducible apply Keeps.foldr
    | with_reducible apply Keeps.foldlFst
    | split
    | dsimp only
    | assumption

theorem dmaCorrected_keeps {ps : List Part} {o s : State} {a1 a2 a3} (h : Keeps ps o s) (hp : [.bc, .ln, .regs] ⊆ ps) :
    Keeps ps o (dmaCorrected s a1 a2 a3) := by
  unfold dmaCorrected
  repeat' first
    | with_reducible exact h
    | with_reducible assumption
    | with_reducible refine Sub.of hp ?_
    | exact rfl
    | intro _
    | with_reducible apply State.free_keeps
    | with_reducible apply netCorrected_keeps
    | with_reducible apply AllNext.next
    | with_reducible apply Keeps.ite
    | with_reducible apply AllNext.ite
    | with_reducible apply Keeps.foldl
    | with_reducible apply Keeps.foldN
    | with_reducible apply Keeps.foldr
    | with_reducible apply Keeps.foldlFst
    | split
    | dsimp only
    | assumption

theorem moveAll_keeps {ps : List Part} {o s : State} {a1 a2 a3} (h : Keeps ps o s) (hp : [.barges, .tiles, .au, .sn, .lc, .bc, .se, .hd, .bs, .ln, .ports, .regs, .mem] ⊆ ps) :
    Keeps ps o (moveAll s a1 a2 a3) := by
  unfold moveAll
  repeat' first
    | with_reducible exact h
    | with_reducible assumption
    | with_reducible refine Sub.of hp ?_
    | exact rfl
    | intro _
    | with_reducible apply dmaFault_keeps
    | with_reducible apply moveRows_keeps
    | with_reducible apply AllNext.next
    | with_reducible apply Keeps.ite
    | with_reducible apply AllNext.ite
    | with_reducible apply Keeps.foldl
    | with_reducible apply Keeps.foldN
    | with_reducible apply Keeps.foldr
    | with_reducible apply Keeps.foldlFst
    | split
    | dsimp only
    | assumption

theorem execDmaTransferDone_keeps {ps : List Part} {o s : State} {a1 a2 a3} (h : Keeps ps o s) (hp : [.barges, .tiles, .au, .sn, .lc, .bc, .se, .hd, .bs, .ln, .ports, .regs, .mem] ⊆ ps) :
    AllNext (execDmaTransferDone a1 a2 a3 s) (Keeps ps o) := by
  unfold execDmaTransferDone
  repeat' first
    | with_reducible exact h
    | with_reducible assumption
    | with_reducible refine Sub.of hp ?_
    | exact rfl
    | intro _
    | with_reducible apply moveAll_keeps
    | with_reducible apply dmaCorrected_keeps
    | with_reducible apply dmaBad_keeps
    | with_reducible apply movePart_keeps
    | with_reducible apply dmaFault_keeps
    | with_reducible apply freeChan_keeps
    | with_reducible apply AllNext.next
    | with_reducible apply Keeps.ite
    | with_reducible apply AllNext.ite
    | with_reducible apply Keeps.foldl
    | with_reducible apply Keeps.foldN
    | with_reducible apply Keeps.foldr
    | with_reducible apply Keeps.foldlFst
    | split
    | dsimp only
    | assumption

theorem execTileResetDone_keeps {ps : List Part} {o s : State} {a1 a2} (h : Keeps ps o s) (hp : [.tiles, .bc] ⊆ ps) :
    AllNext (execTileResetDone a1 a2 s) (Keeps ps o) := by
  unfold execTileResetDone
  repeat' first
    | with_reducible exact h
    | with_reducible assumption
    | with_reducible refine Sub.of hp ?_
    | exact rfl
    | intro _
    | with_reducible apply updTile_keeps
    | with_reducible apply State.raise_keeps
    | with_reducible apply AllNext.next
    | with_reducible apply Keeps.ite
    | with_reducible apply AllNext.ite
    | with_reducible apply Keeps.foldl
    | with_reducible apply Keeps.foldN
    | with_reducible apply Keeps.foldr
    | with_reducible apply Keeps.foldlFst
    | split
    | dsimp only
    | assumption

theorem execMmaDrained_keeps {ps : List Part} {o s : State} {a1} (h : Keeps ps o s) (hp : [.tiles] ⊆ ps) :
    AllNext (execMmaDrained a1 s) (Keeps ps o) := by
  unfold execMmaDrained
  repeat' first
    | with_reducible exact h
    | with_reducible assumption
    | with_reducible refine Sub.of hp ?_
    | exact rfl
    | intro _
    | with_reducible apply updTile_keeps
    | with_reducible apply AllNext.next
    | with_reducible apply Keeps.ite
    | with_reducible apply AllNext.ite
    | with_reducible apply Keeps.foldl
    | with_reducible apply Keeps.foldN
    | with_reducible apply Keeps.foldr
    | with_reducible apply Keeps.foldlFst
    | split
    | dsimp only
    | assumption

theorem saveTile_keeps {ps : List Part} {o s : State} {a1} (h : Keeps ps o s) (hp : [.tiles, .mem] ⊆ ps) :
    Keeps ps o (saveTile s a1) := by
  unfold saveTile
  exact updTile_keeps (h.mem (Sub.of hp rfl) fun c => Cells.wf_replace _ _ _ c.1) (Sub.of hp rfl)

theorem execTileStopComplete_keeps {ps : List Part} {o s : State} {a1 a2} (h : Keeps ps o s) (hp : [.barges, .tiles, .au, .sn, .lc, .bc, .ln, .regs, .mem] ⊆ ps) :
    AllNext (execTileStopComplete a1 a2 s) (Keeps ps o) := by
  unfold execTileStopComplete
  repeat' first
    | with_reducible exact h
    | with_reducible assumption
    | with_reducible refine Sub.of hp ?_
    | exact rfl
    | intro _
    | with_reducible apply slotEnds_keeps
    | with_reducible apply saveTile_keeps
    | with_reducible apply slotRests_keeps
    | with_reducible apply loaderCycle_keeps
    | with_reducible apply tileEccs_keeps
    | with_reducible apply updTile_keeps
    | with_reducible apply tileExit_keeps
    | with_reducible apply AllNext.next
    | with_reducible apply Keeps.ite
    | with_reducible apply AllNext.ite
    | with_reducible apply Keeps.foldl
    | with_reducible apply Keeps.foldN
    | with_reducible apply Keeps.foldr
    | with_reducible apply Keeps.foldlFst
    | split
    | dsimp only
    | assumption

end Sys2Proof.Machine
end

