-- ==== Sys2Proof/Laws/KeepsTowpath.lean ====
section
/-! SUPPORT. Laws/KeepsTowpath.lean: which parts of the state each operation of Machine/Towpath.lean can change. -/

namespace Sys2Proof.Machine

theorem updTp_keeps {ps : List Part} {o s : State} {a1} (h : Keeps ps o s) (hp : [.tp] ⊆ ps) :
    Keeps ps o (updTp s a1) := by
  unfold updTp
  repeat' first
    | with_reducible exact h
    | with_reducible assumption
    | with_reducible refine Sub.of hp ?_
    | exact rfl
    | intro _
    | with_reducible apply AllNext.next
    | with_reducible apply Keeps.ite
    | with_reducible apply AllNext.ite
    | with_reducible apply Keeps.foldl
    | with_reducible apply Keeps.foldN
    | with_reducible apply Keeps.foldr
    | with_reducible apply Keeps.foldlFst
    | split
    | with_reducible apply Keeps.tp
    | dsimp only
    | assumption

theorem handTo_keeps {ps : List Part} {o s : State} {a1 a2} (h : Keeps ps o s) (hp : [.tp, .ln, .regs] ⊆ ps) :
    Keeps ps o (handTo s a1 a2) := by
  unfold handTo
  repeat' first
    | with_reducible exact h
    | with_reducible assumption
    | with_reducible refine Sub.of hp ?_
    | exact rfl
    | intro _
    | with_reducible apply updTp_keeps
    | with_reducible apply lnBytes_keeps
    | with_reducible apply AllNext.next
    | with_reducible apply Keeps.ite
    | with_reducible apply AllNext.ite
    | with_reducible apply Keeps.foldl
    | with_reducible apply Keeps.foldN
    | with_reducible apply Keeps.foldr
    | with_reducible apply Keeps.foldlFst
    | split
    | dsimp only
    | assumption

theorem originate_keeps {ps : List Part} {o s : State} {a1 a2} (h : Keeps ps o s) (hp : [.tp, .ln, .regs] ⊆ ps) :
    Keeps ps o (originate s a1 a2) := by
  unfold originate
  repeat' first
    | with_reducible exact h
    | with_reducible assumption
    | with_reducible refine Sub.of hp ?_
    | exact rfl
    | intro _
    | with_reducible apply updTp_keeps
    | with_reducible apply handTo_keeps
    | with_reducible apply AllNext.next
    | with_reducible apply Keeps.ite
    | with_reducible apply AllNext.ite
    | with_reducible apply Keeps.foldl
    | with_reducible apply Keeps.foldN
    | with_reducible apply Keeps.foldr
    | with_reducible apply Keeps.foldlFst
    | split
    | dsimp only
    | assumption

theorem sendCopy_keeps {ps : List Part} {o s : State} {a1 a2} (h : Keeps ps o s) (hp : [.tp, .ln, .regs] ⊆ ps) :
    Keeps ps o (sendCopy s a1 a2) := by
  unfold sendCopy
  repeat' first
    | with_reducible exact h
    | with_reducible assumption
    | with_reducible refine Sub.of hp ?_
    | exact rfl
    | intro _
    | with_reducible apply originate_keeps
    | with_reducible apply AllNext.next
    | with_reducible apply Keeps.ite
    | with_reducible apply AllNext.ite
    | with_reducible apply Keeps.foldl
    | with_reducible apply Keeps.foldN
    | with_reducible apply Keeps.foldr
    | with_reducible apply Keeps.foldlFst
    | split
    | dsimp only
    | assumption

theorem noteStop_keeps {ps : List Part} {o s : State} {a1 a2 a3 a4} (h : Keeps ps o s) (hp : [.tp] ⊆ ps) :
    Keeps ps o (noteStop s a1 a2 a3 a4) := by
  unfold noteStop
  repeat' first
    | with_reducible exact h
    | with_reducible assumption
    | with_reducible refine Sub.of hp ?_
    | exact rfl
    | intro _
    | with_reducible apply updTp_keeps
    | with_reducible apply AllNext.next
    | with_reducible apply Keeps.ite
    | with_reducible apply AllNext.ite
    | with_reducible apply Keeps.foldl
    | with_reducible apply Keeps.foldN
    | with_reducible apply Keeps.foldr
    | with_reducible apply Keeps.foldlFst
    | split
    | dsimp only
    | assumption

theorem stopSend_keeps {ps : List Part} {o s : State} {a1 a2 a3 a4} (h : Keeps ps o s) (hp : [.tp, .ln, .regs] ⊆ ps) :
    Keeps ps o (stopSend s a1 a2 a3 a4) := by
  unfold stopSend
  repeat' first
    | with_reducible exact h
    | with_reducible assumption
    | with_reducible refine Sub.of hp ?_
    | exact rfl
    | intro _
    | with_reducible apply sendCopy_keeps
    | with_reducible apply State.satAdd_keeps
    | with_reducible apply noteStop_keeps
    | with_reducible apply updTp_keeps
    | with_reducible apply AllNext.next
    | with_reducible apply Keeps.ite
    | with_reducible apply AllNext.ite
    | with_reducible apply Keeps.foldl
    | with_reducible apply Keeps.foldN
    | with_reducible apply Keeps.foldr
    | with_reducible apply Keeps.foldlFst
    | split
    | dsimp only
    | assumption

theorem updTpPort_keeps {ps : List Part} {o s : State} {a1 a2} (h : Keeps ps o s) (hp : [.tp] ⊆ ps) :
    Keeps ps o (updTpPort s a1 a2) := by
  unfold updTpPort
  repeat' first
    | with_reducible exact h
    | with_reducible assumption
    | with_reducible refine Sub.of hp ?_
    | exact rfl
    | intro _
    | with_reducible apply updTp_keeps
    | with_reducible apply AllNext.next
    | with_reducible apply Keeps.ite
    | with_reducible apply AllNext.ite
    | with_reducible apply Keeps.foldl
    | with_reducible apply Keeps.foldN
    | with_reducible apply Keeps.foldr
    | with_reducible apply Keeps.foldlFst
    | split
    | dsimp only
    | assumption

theorem sendSlot_keeps {ps : List Part} {o s : State} {a1} (h : Keeps ps o s) (hp : [.tp, .ln, .regs] ⊆ ps) :
    Keeps ps o (sendSlot s a1) := by
  unfold sendSlot
  repeat' first
    | with_reducible exact h
    | with_reducible assumption
    | with_reducible refine Sub.of hp ?_
    | exact rfl
    | intro _
    | with_reducible apply originate_keeps
    | with_reducible apply AllNext.next
    | with_reducible apply Keeps.ite
    | with_reducible apply AllNext.ite
    | with_reducible apply Keeps.foldl
    | with_reducible apply Keeps.foldN
    | with_reducible apply Keeps.foldr
    | with_reducible apply Keeps.foldlFst
    | split
    | dsimp only
    | assumption

theorem execHarbourTx_keeps {ps : List Part} {o s : State} {a1 a2} (h : Keeps ps o s) (hp : [.bus, .bc, .tp, .ln, .regs] ⊆ ps) :
    AllNext (execHarbourTx a1 a2 s) (Keeps ps o) := by
  unfold execHarbourTx
  repeat' first
    | with_reducible exact h
    | with_reducible assumption
    | with_reducible refine Sub.of hp ?_
    | exact rfl
    | intro _
    | with_reducible apply sendSlot_keeps
    | with_reducible apply State.setReg_keeps
    | with_reducible apply State.openWrite_keeps
    | with_reducible apply AllNext.next
    | with_reducible apply Keeps.ite
    | with_reducible apply AllNext.ite
    | with_reducible apply Keeps.foldl
    | with_reducible apply Keeps.foldN
    | with_reducible apply Keeps.foldr
    | with_reducible apply Keeps.foldlFst
    | split
    | dsimp only
    | assumption

theorem stopTxWrite_keeps {ps : List Part} {o s : State} {a1 a2} (h : Keeps ps o s) (hp : [.bus, .bc, .tp, .ln, .regs] ⊆ ps) :
    Keeps ps o (stopTxWrite s a1 a2) := by
  unfold stopTxWrite
  repeat' first
    | with_reducible exact h
    | with_reducible assumption
    | with_reducible refine Sub.of hp ?_
    | exact rfl
    | intro _
    | with_reducible apply stopSend_keeps
    | with_reducible apply updTp_keeps
    | with_reducible apply State.keeperWrite_keeps
    | with_reducible apply AllNext.next
    | with_reducible apply Keeps.ite
    | with_reducible apply AllNext.ite
    | with_reducible apply Keeps.foldl
    | with_reducible apply Keeps.foldN
    | with_reducible apply Keeps.foldr
    | with_reducible apply Keeps.foldlFst
    | split
    | dsimp only
    | assumption

theorem execStopTx_keeps {ps : List Part} {o s : State} {a1 a2} (h : Keeps ps o s) (hp : [.bus, .bc, .tp, .ln, .regs] ⊆ ps) :
    AllNext (execStopTx a1 a2 s) (Keeps ps o) := by
  unfold execStopTx
  repeat' first
    | with_reducible exact h
    | with_reducible assumption
    | with_reducible refine Sub.of hp ?_
    | exact rfl
    | intro _
    | with_reducible apply stopTxWrite_keeps
    | with_reducible apply AllNext.next
    | with_reducible apply Keeps.ite
    | with_reducible apply AllNext.ite
    | with_reducible apply Keeps.foldl
    | with_reducible apply Keeps.foldN
    | with_reducible apply Keeps.foldr
    | with_reducible apply Keeps.foldlFst
    | split
    | dsimp only
    | assumption

theorem forward_keeps {ps : List Part} {o s : State} {a1 a2 a3} (h : Keeps ps o s) (hp : [.tp, .ln, .regs] ⊆ ps) :
    Keeps ps o (forward s a1 a2 a3) := by
  unfold forward
  repeat' first
    | with_reducible exact h
    | with_reducible assumption
    | with_reducible refine Sub.of hp ?_
    | exact rfl
    | intro _
    | with_reducible apply handTo_keeps
    | with_reducible apply AllNext.next
    | with_reducible apply Keeps.ite
    | with_reducible apply AllNext.ite
    | with_reducible apply Keeps.foldl
    | with_reducible apply Keeps.foldN
    | with_reducible apply Keeps.foldr
    | with_reducible apply Keeps.foldlFst
    | split
    | dsimp only
    | assumption

theorem siteSeen_keeps {ps : List Part} {o s : State} (h : Keeps ps o s) (hp : [.tp] ⊆ ps) :
    Keeps ps o (siteSeen s) := by
  unfold siteSeen
  repeat' first
    | with_reducible exact h
    | with_reducible assumption
    | with_reducible refine Sub.of hp ?_
    | exact rfl
    | intro _
    | with_reducible apply updTp_keeps
    | with_reducible apply AllNext.next
    | with_reducible apply Keeps.ite
    | with_reducible apply AllNext.ite
    | with_reducible apply Keeps.foldl
    | with_reducible apply Keeps.foldN
    | with_reducible apply Keeps.foldr
    | with_reducible apply Keeps.foldlFst
    | split
    | dsimp only
    | assumption

theorem countFrame_keeps {ps : List Part} {o s : State} {a1 a2} (h : Keeps ps o s) (hp : [.ln, .regs] ⊆ ps) :
    Keeps ps o (countFrame s a1 a2) := by
  unfold countFrame
  repeat' first
    | with_reducible exact h
    | with_reducible assumption
    | with_reducible refine Sub.of hp ?_
    | exact rfl
    | intro _
    | with_reducible apply lnBytes_keeps
    | with_reducible apply State.setReg_keeps
    | with_reducible apply AllNext.next
    | with_reducible apply Keeps.ite
    | with_reducible apply AllNext.ite
    | with_reducible apply Keeps.foldl
    | with_reducible apply Keeps.foldN
    | with_reducible apply Keeps.foldr
    | with_reducible apply Keeps.foldlFst
    | split
    | dsimp only
    | assumption

theorem receive_keeps {ps : List Part} {o s : State} {a1 a2 a3} {f} (hf : ∀ x, Keeps ps o x → Keeps ps o (f x)) (h : Keeps ps o s) (hp : [.tp, .ln, .regs] ⊆ ps) :
    Keeps ps o (receive s a1 a2 a3 f) := by
  unfold receive
  repeat' first
    | with_reducible exact h
    | with_reducible assumption
    | with_reducible refine Sub.of hp ?_
    | exact rfl
    | intro _
    | with_reducible apply siteSeen_keeps
    | with_reducible apply State.satAdd_keeps
    | with_reducible apply countFrame_keeps
    | with_reducible apply hf
    | with_reducible apply AllNext.next
    | with_reducible apply Keeps.ite
    | with_reducible apply AllNext.ite
    | with_reducible apply Keeps.foldl
    | with_reducible apply Keeps.foldN
    | with_reducible apply Keeps.foldr
    | with_reducible apply Keeps.foldlFst
    | split
    | dsimp only
    | assumption

theorem execRouteAck_keeps {ps : List Part} {o s : State} {a1 a2 a3} (h : Keeps ps o s) (hp : [.tp, .ln, .regs] ⊆ ps) :
    AllNext (execRouteAck a1 a2 a3 s) (Keeps ps o) := by
  unfold execRouteAck
  repeat' first
    | with_reducible exact h
    | with_reducible assumption
    | with_reducible refine Sub.of hp ?_
    | exact rfl
    | intro _
    | with_reducible apply forward_keeps
    | with_reducible apply updTp_keeps
    | with_reducible apply receive_keeps
    | with_reducible apply AllNext.next
    | with_reducible apply Keeps.ite
    | with_reducible apply AllNext.ite
    | with_reducible apply Keeps.foldl
    | with_reducible apply Keeps.foldN
    | with_reducible apply Keeps.foldr
    | with_reducible apply Keeps.foldlFst
    | split
    | dsimp only
    | assumption

theorem execStopCancel_keeps {ps : List Part} {o s : State} {a1 a2} (h : Keeps ps o s) (hp : [.bus, .bc, .tp, .ln, .regs] ⊆ ps) :
    AllNext (execStopCancel a1 a2 s) (Keeps ps o) := by
  unfold execStopCancel
  repeat' first
    | with_reducible exact h
    | with_reducible assumption
    | with_reducible refine Sub.of hp ?_
    | exact rfl
    | intro _
    | with_reducible apply stopTxWrite_keeps
    | with_reducible apply AllNext.next
    | with_reducible apply Keeps.ite
    | with_reducible apply AllNext.ite
    | with_reducible apply Keeps.foldl
    | with_reducible apply Keeps.foldN
    | with_reducible apply Keeps.foldr
    | with_reducible apply Keeps.foldlFst
    | split
    | dsimp only
    | assumption

theorem updServo_keeps {ps : List Part} {o s : State} {a1 a2} (h : Keeps ps o s) (hp : [.tp] ⊆ ps) :
    Keeps ps o (updServo s a1 a2) := by
  unfold updServo
  repeat' first
    | with_reducible exact h
    | with_reducible assumption
    | with_reducible refine Sub.of hp ?_
    | exact rfl
    | intro _
    | with_reducible apply updTp_keeps
    | with_reducible apply AllNext.next
    | with_reducible apply Keeps.ite
    | with_reducible apply AllNext.ite
    | with_reducible apply Keeps.foldl
    | with_reducible apply Keeps.foldN
    | with_reducible apply Keeps.foldr
    | with_reducible apply Keeps.foldlFst
    | split
    | dsimp only
    | assumption

theorem holdLevel_keeps {ps : List Part} {o s : State} (h : Keeps ps o s) (hp : [.bc] ⊆ ps) :
    Keeps ps o (holdLevel s) := by
  unfold holdLevel
  repeat' first
    | with_reducible exact h
    | with_reducible assumption
    | with_reducible refine Sub.of hp ?_
    | exact rfl
    | intro _
    | with_reducible apply State.level_keeps
    | with_reducible apply AllNext.next
    | with_reducible apply Keeps.ite
    | with_reducible apply AllNext.ite
    | with_reducible apply Keeps.foldl
    | with_reducible apply Keeps.foldN
    | with_reducible apply Keeps.foldr
    | with_reducible apply Keeps.foldlFst
    | split
    | dsimp only
    | assumption

theorem setRate_keeps {ps : List Part} {o s : State} {a1 a2} (h : Keeps ps o s) (hp : [.tp] ⊆ ps) :
    Keeps ps o (setRate s a1 a2) := by
  unfold setRate
  repeat' first
    | with_reducible exact h
    | with_reducible assumption
    | with_reducible refine Sub.of hp ?_
    | exact rfl
    | intro _
    | with_reducible apply updServo_keeps
    | with_reducible apply AllNext.next
    | with_reducible apply Keeps.ite
    | with_reducible apply AllNext.ite
    | with_reducible apply Keeps.foldl
    | with_reducible apply Keeps.foldN
    | with_reducible apply Keeps.foldr
    | with_reducible apply Keeps.foldlFst
    | split
    | dsimp only
    | assumption

theorem servoSync_keeps {ps : List Part} {o s : State} {a1 a2} (h : Keeps ps o s) (hp : [.bc, .tp] ⊆ ps) :
    Keeps ps o (servoSync s a1 a2) := by
  unfold servoSync
  repeat' first
    | with_reducible exact h
    | with_reducible assumption
    | with_reducible refine Sub.of hp ?_
    | exact rfl
    | intro _
    | with_reducible apply State.raise_keeps
    | with_reducible apply updServo_keeps
    | with_reducible apply holdLevel_keeps
    | with_reducible apply State.free_keeps
    | with_reducible apply setRate_keeps
    | with_reducible apply AllNext.next
    | with_reducible apply Keeps.ite
    | with_reducible apply AllNext.ite
    | with_reducible apply Keeps.foldl
    | with_reducible apply Keeps.foldN
    | with_reducible apply Keeps.foldr
    | with_reducible apply Keeps.foldlFst
    | split
    | with_reducible apply Keeps.freeIdx
    | dsimp only
    | assumption

theorem toHoldover_keeps {ps : List Part} {o s : State} {a1} (h : Keeps ps o s) (hp : [.tp] ⊆ ps) :
    Keeps ps o (toHoldover s a1) := by
  unfold toHoldover
  repeat' first
    | with_reducible exact h
    | with_reducible assumption
    | with_reducible refine Sub.of hp ?_
    | exact rfl
    | intro _
    | with_reducible apply updServo_keeps
    | with_reducible apply AllNext.next
    | with_reducible apply Keeps.ite
    | with_reducible apply AllNext.ite
    | with_reducible apply Keeps.foldl
    | with_reducible apply Keeps.foldN
    | with_reducible apply Keeps.foldr
    | with_reducible apply Keeps.foldlFst
    | split
    | dsimp only
    | assumption

theorem firstAcquire_keeps {ps : List Part} {o s : State} {a1 a2} (h : Keeps ps o s) (hp : [.tp] ⊆ ps) :
    Keeps ps o (firstAcquire s a1 a2) := by
  unfold firstAcquire
  repeat' first
    | with_reducible exact h
    | with_reducible assumption
    | with_reducible refine Sub.of hp ?_
    | exact rfl
    | intro _
    | with_reducible apply updServo_keeps
    | with_reducible apply AllNext.next
    | with_reducible apply Keeps.ite
    | with_reducible apply AllNext.ite
    | with_reducible apply Keeps.foldl
    | with_reducible apply Keeps.foldN
    | with_reducible apply Keeps.foldr
    | with_reducible apply Keeps.foldlFst
    | split
    | dsimp only
    | assumption

theorem hearSite_keeps {ps : List Part} {o s : State} {a1} (h : Keeps ps o s) (hp : [.tp] ⊆ ps) :
    Keeps ps o (hearSite s a1) := by
  unfold hearSite
  repeat' first
    | with_reducible exact h
    | with_reducible assumption
    | with_reducible refine Sub.of hp ?_
    | exact rfl
    | intro _
    | with_reducible apply siteSeen_keeps
    | with_reducible apply updTp_keeps
    | with_reducible apply AllNext.next
    | with_reducible apply Keeps.ite
    | with_reducible apply AllNext.ite
    | with_reducible apply Keeps.foldl
    | with_reducible apply Keeps.foldN
    | with_reducible apply Keeps.foldr
    | with_reducible apply Keeps.foldlFst
    | split
    | dsimp only
    | assumption

theorem sendTime_keeps {ps : List Part} {o s : State} {a1 a2} (h : Keeps ps o s) (hp : [.tp, .ln, .regs] ⊆ ps) :
    Keeps ps o (sendTime s a1 a2) := by
  unfold sendTime
  repeat' first
    | with_reducible exact h
    | with_reducible assumption
    | with_reducible refine Sub.of hp ?_
    | exact rfl
    | intro _
    | with_reducible apply handTo_keeps
    | with_reducible apply AllNext.next
    | with_reducible apply Keeps.ite
    | with_reducible apply AllNext.ite
    | with_reducible apply Keeps.foldl
    | with_reducible apply Keeps.foldN
    | with_reducible apply Keeps.foldr
    | with_reducible apply Keeps.foldlFst
    | split
    | dsimp only
    | assumption

theorem sendSync_keeps {ps : List Part} {o s : State} {a1 a2 a3 a4} (h : Keeps ps o s) (hp : [.tp, .ln, .regs] ⊆ ps) :
    Keeps ps o (sendSync s a1 a2 a3 a4) := by
  unfold sendSync
  repeat' first
    | with_reducible exact h
    | with_reducible assumption
    | with_reducible refine Sub.of hp ?_
    | exact rfl
    | intro _
    | with_reducible apply sendTime_keeps
    | with_reducible apply AllNext.next
    | with_reducible apply Keeps.ite
    | with_reducible apply AllNext.ite
    | with_reducible apply Keeps.foldl
    | with_reducible apply Keeps.foldN
    | with_reducible apply Keeps.foldr
    | with_reducible apply Keeps.foldlFst
    | split
    | dsimp only
    | assumption

theorem countSync_keeps {ps : List Part} {o s : State} {a1 a2 a3} (h : Keeps ps o s) (hp : [.ln, .regs] ⊆ ps) :
    Keeps ps o (countSync s a1 a2 a3) := by
  unfold countSync
  repeat' first
    | with_reducible exact h
    | with_reducible assumption
    | with_reducible refine Sub.of hp ?_
    | exact rfl
    | intro _
    | with_reducible apply countFrame_keeps
    | with_reducible apply AllNext.next
    | with_reducible apply Keeps.ite
    | with_reducible apply AllNext.ite
    | with_reducible apply Keeps.foldl
    | with_reducible apply Keeps.foldN
    | with_reducible apply Keeps.foldr
    | with_reducible apply Keeps.foldlFst
    | split
    | dsimp only
    | assumption

theorem execPtpSync_keeps {ps : List Part} {o s : State} {a1 a2 a3 a4} (h : Keeps ps o s) (hp : [.bc, .tp, .ln, .regs] ⊆ ps) :
    AllNext (execPtpSync a1 a2 a3 a4 s) (Keeps ps o) := by
  unfold execPtpSync
  repeat' first
    | with_reducible exact h
    | with_reducible assumption
    | with_reducible refine Sub.of hp ?_
    | exact rfl
    | intro _
    | with_reducible apply servoSync_keeps
    | with_reducible apply toHoldover_keeps
    | with_reducible apply firstAcquire_keeps
    | with_reducible apply updServo_keeps
    | with_reducible apply hearSite_keeps
    | with_reducible apply sendSync_keeps
    | with_reducible apply countSync_keeps
    | with_reducible apply AllNext.next
    | with_reducible apply Keeps.ite
    | with_reducible apply AllNext.ite
    | with_reducible apply Keeps.foldl
    | with_reducible apply Keeps.foldN
    | with_reducible apply Keeps.foldr
    | with_reducible apply Keeps.foldlFst
    | split
    | dsimp only
    | assumption

theorem setGen_keeps {ps : List Part} {o s : State} {a1 a2} (h : Keeps ps o s) (hp : [.tp, .regs] ⊆ ps) :
    Keeps ps o (setGen s a1 a2) := by
  unfold setGen
  repeat' first
    | with_reducible exact h
    | with_reducible assumption
    | with_reducible refine Sub.of hp ?_
    | exact rfl
    | intro _
    | with_reducible apply State.setReg_keeps
    | with_reducible apply updTp_keeps
    | with_reducible apply AllNext.next
    | with_reducible apply Keeps.ite
    | with_reducible apply AllNext.ite
    | with_reducible apply Keeps.foldl
    | with_reducible apply Keeps.foldN
    | with_reducible apply Keeps.foldr
    | with_reducible apply Keeps.foldlFst
    | split
    | dsimp only
    | assumption

theorem newTable_keeps {ps : List Part} {o s : State} {a1} (h : Keeps ps o s) (hp : [.tp, .ln, .regs] ⊆ ps) :
    Keeps ps o (newTable s a1) := by
  unfold newTable
  repeat' first
    | with_reducible exact h
    | with_reducible assumption
    | with_reducible refine Sub.of hp ?_
    | exact rfl
    | intro _
    | with_reducible apply originate_keeps
    | with_reducible apply updTp_keeps
    | with_reducible apply setGen_keeps
    | with_reducible apply AllNext.next
    | with_reducible apply Keeps.ite
    | with_reducible apply AllNext.ite
    | with_reducible apply Keeps.foldl
    | with_reducible apply Keeps.foldN
    | with_reducible apply Keeps.foldr
    | with_reducible apply Keeps.foldlFst
    | split
    | dsimp only
    | assumption

theorem execNeighbourSilent_keeps {ps : List Part} {o s : State} {a1} (h : Keeps ps o s) (hp : [.bc, .tp, .ln, .regs] ⊆ ps) :
    AllNext (execNeighbourSilent a1 s) (Keeps ps o) := by
  unfold execNeighbourSilent
  repeat' first
    | with_reducible exact h
    | with_reducible assumption
    | with_reducible refine Sub.of hp ?_
    | exact rfl
    | intro _
    | with_reducible apply lnErr_keeps
    | with_reducible apply updTpPort_keeps
    | with_reducible apply State.setBit_keeps
    | with_reducible apply State.raise_keeps
    | with_reducible apply AllNext.next
    | with_reducible apply Keeps.ite
    | with_reducible apply AllNext.ite
    | with_reducible apply Keeps.foldl
    | with_reducible apply Keeps.foldN
    | with_reducible apply Keeps.foldr
    | with_reducible apply Keeps.foldlFst
    | split
    | dsimp only
    | assumption

theorem execSyncLoss_keeps {ps : List Part} {o s : State} {a1} (h : Keeps ps o s) (hp : [.tp] ⊆ ps) :
    AllNext (execSyncLoss a1 s) (Keeps ps o) := by
  unfold execSyncLoss
  repeat' first
    | with_reducible exact h
    | with_reducible assumption
    | with_reducible refine Sub.of hp ?_
    | exact rfl
    | intro _
    | with_reducible apply toHoldover_keeps
    | with_reducible apply updServo_keeps
    | with_reducible apply AllNext.next
    | with_reducible apply Keeps.ite
    | with_reducible apply AllNext.ite
    | with_reducible apply Keeps.foldl
    | with_reducible apply Keeps.foldN
    | with_reducible apply Keeps.foldr
    | with_reducible apply Keeps.foldlFst
    | split
    | dsimp only
    | assumption

theorem toHarbour_keeps {ps : List Part} {o s : State} {a1} (h : Keeps ps o s) (hp : [.regs, .mem] ⊆ ps) :
    Keeps ps o (toHarbour s a1) := by
  unfold toHarbour
  repeat' first
    | with_reducible exact h
    | with_reducible assumption
    | with_reducible refine Sub.of hp ?_
    | exact rfl
    | intro _
    | with_reducible apply State.setReg_keeps
    | with_reducible apply State.setBit_keeps
    | with_reducible apply State.store_keeps
    | with_reducible apply State.satAdd_keeps
    | with_reducible apply AllNext.next
    | with_reducible apply Keeps.ite
    | with_reducible apply AllNext.ite
    | with_reducible apply Keeps.foldl
    | with_reducible apply Keeps.foldN
    | with_reducible apply Keeps.foldr
    | with_reducible apply Keeps.foldlFst
    | split
    | dsimp only
    | assumption

theorem setTable_keeps {ps : List Part} {o s : State} {a1 a2} (h : Keeps ps o s) (hp : [.tp] ⊆ ps) :
    Keeps ps o (setTable s a1 a2) := by
  unfold setTable
  repeat' first
    | with_reducible exact h
    | with_reducible assumption
    | with_reducible refine Sub.of hp ?_
    | exact rfl
    | intro _
    | with_reducible apply updTp_keeps
    | with_reducible apply AllNext.next
    | with_reducible apply Keeps.ite
    | with_reducible apply AllNext.ite
    | with_reducible apply Keeps.foldl
    | with_reducible apply Keeps.foldN
    | with_reducible apply Keeps.foldr
    | with_reducible apply Keeps.foldlFst
    | split
    | dsimp only
    | assumption

theorem execRoute_keeps {ps : List Part} {o s : State} {a1 a2 a3} (h : Keeps ps o s) (hp : [.bc, .tp, .ln, .regs] ⊆ ps) :
    AllNext (execRoute a1 a2 a3 s) (Keeps ps o) := by
  unfold execRoute
  repeat' first
    | with_reducible exact h
    | with_reducible assumption
    | with_reducible refine Sub.of hp ?_
    | exact rfl
    | intro _
    | with_reducible apply forward_keeps
    | with_reducible apply originate_keeps
    | with_reducible apply State.raise_keeps
    | with_reducible apply setTable_keeps
    | with_reducible apply setGen_keeps
    | with_reducible apply State.setBit_keeps
    | with_reducible apply State.setReg_keeps
    | with_reducible apply hearSite_keeps
    | with_reducible apply receive_keeps
    | with_reducible apply AllNext.next
    | with_reducible apply Keeps.ite
    | with_reducible apply AllNext.ite
    | with_reducible apply Keeps.foldl
    | with_reducible apply Keeps.foldN
    | with_reducible apply Keeps.foldr
    | with_reducible apply Keeps.foldlFst
    | split
    | dsimp only
    | assumption

theorem execData_keeps {ps : List Part} {o s : State} {a1 a2 a3} (h : Keeps ps o s) (hp : [.tp, .ln, .regs, .mem] ⊆ ps) :
    AllNext (execData a1 a2 a3 s) (Keeps ps o) := by
  unfold execData
  repeat' first
    | with_reducible exact h
    | with_reducible assumption
    | with_reducible refine Sub.of hp ?_
    | exact rfl
    | intro _
    | with_reducible apply toHarbour_keeps
    | with_reducible apply forward_keeps
    | with_reducible apply receive_keeps
    | with_reducible apply AllNext.next
    | with_reducible apply Keeps.ite
    | with_reducible apply AllNext.ite
    | with_reducible apply Keeps.foldl
    | with_reducible apply Keeps.foldN
    | with_reducible apply Keeps.foldr
    | with_reducible apply Keeps.foldlFst
    | split
    | dsimp only
    | assumption

theorem gmSends_keeps {ps : List Part} {o s : State} {a1} (h : Keeps ps o s) (hp : [.tp, .ln, .regs] ⊆ ps) :
    Keeps ps o (gmSends s a1) := by
  unfold gmSends
  repeat' first
    | with_reducible exact h
    | with_reducible assumption
    | with_reducible refine Sub.of hp ?_
    | exact rfl
    | intro _
    | with_reducible apply sendSync_keeps
    | with_reducible apply sendTime_keeps
    | with_reducible apply updTp_keeps
    | with_reducible apply AllNext.next
    | with_reducible apply Keeps.ite
    | with_reducible apply AllNext.ite
    | with_reducible apply Keeps.foldl
    | with_reducible apply Keeps.foldN
    | with_reducible apply Keeps.foldr
    | with_reducible apply Keeps.foldlFst
    | split
    | dsimp only
    | assumption

theorem honourStop_keeps {ps : List Part} {o s : State} {a1} (h : Keeps ps o s) (hp : [.bc, .regs] ⊆ ps) :
    Keeps ps o (honourStop s a1) := by
  unfold honourStop
  repeat' first
    | with_reducible exact h
    | with_reducible assumption
    | with_reducible refine Sub.of hp ?_
    | exact rfl
    | intro _
    | with_reducible apply State.satAdd_keeps
    | with_reducible apply State.setBit_keeps
    | with_reducible apply State.setReg_keeps
    | with_reducible apply State.raise_keeps
    | with_reducible apply AllNext.next
    | with_reducible apply Keeps.ite
    | with_reducible apply AllNext.ite
    | with_reducible apply Keeps.foldl
    | with_reducible apply Keeps.foldN
    | with_reducible apply Keeps.foldr
    | with_reducible apply Keeps.foldlFst
    | split
    | dsimp only
    | assumption

theorem setEntry_keeps {ps : List Part} {o s : State} {a1 a2 a3} (h : Keeps ps o s) (hp : [.tp] ⊆ ps) :
    Keeps ps o (setEntry s a1 a2 a3) := by
  unfold setEntry
  repeat' first
    | with_reducible exact h
    | with_reducible assumption
    | with_reducible refine Sub.of hp ?_
    | exact rfl
    | intro _
    | with_reducible apply setTable_keeps
    | with_reducible apply AllNext.next
    | with_reducible apply Keeps.ite
    | with_reducible apply AllNext.ite
    | with_reducible apply Keeps.foldl
    | with_reducible apply Keeps.foldN
    | with_reducible apply Keeps.foldr
    | with_reducible apply Keeps.foldlFst
    | split
    | dsimp only
    | assumption

theorem sendAssign_keeps {ps : List Part} {o s : State} {a1 a2} (h : Keeps ps o s) (hp : [.bc, .tp, .ln, .regs] ⊆ ps) :
    Keeps ps o (sendAssign s a1 a2) := by
  unfold sendAssign
  repeat' first
    | with_reducible exact h
    | with_reducible assumption
    | with_reducible refine Sub.of hp ?_
    | exact rfl
    | intro _
    | with_reducible apply State.raise_keeps
    | with_reducible apply originate_keeps
    | with_reducible apply AllNext.next
    | with_reducible apply Keeps.ite
    | with_reducible apply AllNext.ite
    | with_reducible apply Keeps.foldl
    | with_reducible apply Keeps.foldN
    | with_reducible apply Keeps.foldr
    | with_reducible apply Keeps.foldlFst
    | split
    | dsimp only
    | assumption

theorem refuseAll_keeps {ps : List Part} {o s : State} {a1 a2} (h : Keeps ps o s) (hp : [.bc, .tp, .ln, .regs] ⊆ ps) :
    Keeps ps o (refuseAll s a1 a2) := by
  unfold refuseAll
  repeat' first
    | with_reducible exact h
    | with_reducible assumption
    | with_reducible refine Sub.of hp ?_
    | exact rfl
    | intro _
    | with_reducible apply setEntry_keeps
    | with_reducible apply sendAssign_keeps
    | with_reducible apply AllNext.next
    | with_reducible apply Keeps.ite
    | with_reducible apply AllNext.ite
    | with_reducible apply Keeps.foldl
    | with_reducible apply Keeps.foldN
    | with_reducible apply Keeps.foldr
    | with_reducible apply Keeps.foldlFst
    | split
    | dsimp only
    | assumption

theorem takeAssign_keeps {ps : List Part} {o s : State} {a1} (h : Keeps ps o s) (hp : [.bc, .tp, .ln, .regs] ⊆ ps) :
    Keeps ps o (takeAssign s a1) := by
  unfold takeAssign
  repeat' first
    | with_reducible exact h
    | with_reducible assumption
    | with_reducible refine Sub.of hp ?_
    | exact rfl
    | intro _
    | with_reducible apply refuseAll_keeps
    | with_reducible apply State.raise_keeps
    | with_reducible apply setEntry_keeps
    | with_reducible apply newTable_keeps
    | with_reducible apply State.setBit_keeps
    | with_reducible apply updTp_keeps
    | with_reducible apply AllNext.next
    | with_reducible apply Keeps.ite
    | with_reducible apply AllNext.ite
    | with_reducible apply Keeps.foldl
    | with_reducible apply Keeps.foldN
    | with_reducible apply Keeps.foldr
    | with_reducible apply Keeps.foldlFst
    | split
    | dsimp only
    | assumption

theorem execAssign_keeps {ps : List Part} {o s : State} {a1 a2 a3} (h : Keeps ps o s) (hp : [.bc, .tp, .ln, .regs] ⊆ ps) :
    AllNext (execAssign a1 a2 a3 s) (Keeps ps o) := by
  unfold execAssign
  repeat' first
    | with_reducible exact h
    | with_reducible assumption
    | with_reducible refine Sub.of hp ?_
    | exact rfl
    | intro _
    | with_reducible apply forward_keeps
    | with_reducible apply takeAssign_keeps
    | with_reducible apply receive_keeps
    | with_reducible apply AllNext.next
    | with_reducible apply Keeps.ite
    | with_reducible apply AllNext.ite
    | with_reducible apply Keeps.foldl
    | with_reducible apply Keeps.foldN
    | with_reducible apply Keeps.foldr
    | with_reducible apply Keeps.foldlFst
    | split
    | dsimp only
    | assumption

theorem noteCopy_keeps {ps : List Part} {o s : State} {a1} (h : Keeps ps o s) (hp : [.tp] ⊆ ps) :
    Keeps ps o (noteCopy s a1) := by
  unfold noteCopy
  repeat' first
    | with_reducible exact h
    | with_reducible assumption
    | with_reducible refine Sub.of hp ?_
    | exact rfl
    | intro _
    | with_reducible apply noteStop_keeps
    | with_reducible apply AllNext.next
    | with_reducible apply Keeps.ite
    | with_reducible apply AllNext.ite
    | with_reducible apply Keeps.foldl
    | with_reducible apply Keeps.foldN
    | with_reducible apply Keeps.foldr
    | with_reducible apply Keeps.foldlFst
    | split
    | dsimp only
    | assumption

theorem execStop_keeps {ps : List Part} {o s : State} {a1 a2 a3} (h : Keeps ps o s) (hp : [.bc, .tp, .ln, .regs] ⊆ ps) :
    AllNext (execStop a1 a2 a3 s) (Keeps ps o) := by
  unfold execStop
  repeat' first
    | with_reducible exact h
    | with_reducible assumption
    | with_reducible refine Sub.of hp ?_
    | exact rfl
    | intro _
    | with_reducible apply honourStop_keeps
    | with_reducible apply noteCopy_keeps
    | with_reducible apply forward_keeps
    | with_reducible apply receive_keeps
    | with_reducible apply AllNext.next
    | with_reducible apply Keeps.ite
    | with_reducible apply AllNext.ite
    | with_reducible apply Keeps.foldl
    | with_reducible apply Keeps.foldN
    | with_reducible apply Keeps.foldr
    | with_reducible apply Keeps.foldlFst
    | split
    | dsimp only
    | assumption

theorem execStopCopy_keeps {ps : List Part} {o s : State} (h : Keeps ps o s) (hp : [.tp, .ln, .regs] ⊆ ps) :
    AllNext (execStopCopy s) (Keeps ps o) := by
  unfold execStopCopy
  repeat' first
    | with_reducible exact h
    | with_reducible assumption
    | with_reducible refine Sub.of hp ?_
    | exact rfl
    | intro _
    | with_reducible apply updTp_keeps
    | with_reducible apply sendCopy_keeps
    | with_reducible apply AllNext.next
    | with_reducible apply Keeps.ite
    | with_reducible apply AllNext.ite
    | with_reducible apply Keeps.foldl
    | with_reducible apply Keeps.foldN
    | with_reducible apply Keeps.foldr
    | with_reducible apply Keeps.foldlFst
    | split
    | dsimp only
    | assumption

theorem newTables_keeps {ps : List Part} {o s : State} (h : Keeps ps o s) (hp : [.tp, .ln, .regs] ⊆ ps) :
    Keeps ps o (newTables s) := by
  unfold newTables
  repeat' first
    | with_reducible exact h
    | with_reducible assumption
    | with_reducible refine Sub.of hp ?_
    | exact rfl
    | intro _
    | with_reducible apply newTable_keeps
    | with_reducible apply AllNext.next
    | with_reducible apply Keeps.ite
    | with_reducible apply AllNext.ite
    | with_reducible apply Keeps.foldl
    | with_reducible apply Keeps.foldN
    | with_reducible apply Keeps.foldr
    | with_reducible apply Keeps.foldlFst
    | split
    | dsimp only
    | assumption

theorem refuseEntry_keeps {ps : List Part} {o s : State} {a1 a2 a3 a4 a5} (h : Keeps ps o s) (hp : [.bc, .tp, .ln, .regs] ⊆ ps) :
    Keeps ps o (refuseEntry s a1 a2 a3 a4 a5) := by
  unfold refuseEntry
  repeat' first
    | with_reducible exact h
    | with_reducible assumption
    | with_reducible refine Sub.of hp ?_
    | exact rfl
    | intro _
    | with_reducible apply takeAssign_keeps
    | with_reducible apply setEntry_keeps
    | with_reducible apply sendAssign_keeps
    | with_reducible apply AllNext.next
    | with_reducible apply Keeps.ite
    | with_reducible apply AllNext.ite
    | with_reducible apply Keeps.foldl
    | with_reducible apply Keeps.foldN
    | with_reducible apply Keeps.foldr
    | with_reducible apply Keeps.foldlFst
    | split
    | dsimp only
    | assumption

theorem judgeClaim_keeps {ps : List Part} {o s : State} {a1 a2 a3 a4 a5 a6} (h : Keeps ps o s) (hp : [.bc, .tp, .ln, .regs] ⊆ ps) :
    Keeps ps o (judgeClaim s a1 a2 a3 a4 a5 a6) := by
  unfold judgeClaim
  repeat' first
    | with_reducible exact h
    | with_reducible assumption
    | with_reducible refine Sub.of hp ?_
    | exact rfl
    | intro _
    | with_reducible apply refuseEntry_keeps
    | with_reducible apply setEntry_keeps
    | with_reducible apply sendAssign_keeps
    | with_reducible apply newTable_keeps
    | with_reducible apply AllNext.next
    | with_reducible apply Keeps.ite
    | with_reducible apply AllNext.ite
    | with_reducible apply Keeps.foldl
    | with_reducible apply Keeps.foldN
    | with_reducible apply Keeps.foldr
    | with_reducible apply Keeps.foldlFst
    | split
    | dsimp only
    | assumption

theorem judgeCell_keeps {ps : List Part} {o s : State} {a1} (h : Keeps ps o s) (hp : [.bc, .tp, .ln, .regs] ⊆ ps) :
    Keeps ps o (judgeCell s a1) := by
  unfold judgeCell
  repeat' first
    | with_reducible exact h
    | with_reducible assumption
    | with_reducible refine Sub.of hp ?_
    | exact rfl
    | intro _
    | with_reducible apply judgeClaim_keeps
    | with_reducible apply sendAssign_keeps
    | with_reducible apply AllNext.next
    | with_reducible apply Keeps.ite
    | with_reducible apply AllNext.ite
    | with_reducible apply Keeps.foldl
    | with_reducible apply Keeps.foldN
    | with_reducible apply Keeps.foldr
    | with_reducible apply Keeps.foldlFst
    | split
    | dsimp only
    | assumption

theorem learnPos_keeps {ps : List Part} {o s : State} {a1 a2} (h : Keeps ps o s) (hp : [.tp] ⊆ ps) :
    Keeps ps o (learnPos s a1 a2) := by
  unfold learnPos
  repeat' first
    | with_reducible exact h
    | with_reducible assumption
    | with_reducible refine Sub.of hp ?_
    | exact rfl
    | intro _
    | with_reducible apply updTp_keeps
    | with_reducible apply AllNext.next
    | with_reducible apply Keeps.ite
    | with_reducible apply AllNext.ite
    | with_reducible apply Keeps.foldl
    | with_reducible apply Keeps.foldN
    | with_reducible apply Keeps.foldr
    | with_reducible apply Keeps.foldlFst
    | split
    | dsimp only
    | assumption

theorem execHello_keeps {ps : List Part} {o s : State} {a1 a2 a3} (h : Keeps ps o s) (hp : [.tp, .ln, .regs] ⊆ ps) :
    AllNext (execHello a1 a2 a3 s) (Keeps ps o) := by
  unfold execHello
  repeat' first
    | with_reducible exact h
    | with_reducible assumption
    | with_reducible refine Sub.of hp ?_
    | exact rfl
    | intro _
    | with_reducible apply newTables_keeps
    | with_reducible apply hearSite_keeps
    | with_reducible apply learnPos_keeps
    | with_reducible apply updTpPort_keeps
    | with_reducible apply receive_keeps
    | with_reducible apply AllNext.next
    | with_reducible apply Keeps.ite
    | with_reducible apply AllNext.ite
    | with_reducible apply Keeps.foldl
    | with_reducible apply Keeps.foldN
    | with_reducible apply Keeps.foldr
    | with_reducible apply Keeps.foldlFst
    | split
    | dsimp only
    | assumption

theorem execClaimSend_keeps {ps : List Part} {o s : State} (h : Keeps ps o s) (hp : [.tp, .ln, .regs] ⊆ ps) :
    AllNext (execClaimSend s) (Keeps ps o) := by
  unfold execClaimSend
  repeat' first
    | with_reducible exact h
    | with_reducible assumption
    | with_reducible refine Sub.of hp ?_
    | exact rfl
    | intro _
    | with_reducible apply setEntry_keeps
    | with_reducible apply originate_keeps
    | with_reducible apply updTp_keeps
    | with_reducible apply AllNext.next
    | with_reducible apply Keeps.ite
    | with_reducible apply AllNext.ite
    | with_reducible apply Keeps.foldl
    | with_reducible apply Keeps.foldN
    | with_reducible apply Keeps.foldr
    | with_reducible apply Keeps.foldlFst
    | split
    | dsimp only
    | assumption

theorem execHelloSend_keeps {ps : List Part} {o s : State} (h : Keeps ps o s) (hp : [.tp, .ln, .regs] ⊆ ps) :
    AllNext (execHelloSend s) (Keeps ps o) := by
  unfold execHelloSend
  repeat' first
    | with_reducible exact h
    | with_reducible assumption
    | with_reducible refine Sub.of hp ?_
    | exact rfl
    | intro _
    | with_reducible apply originate_keeps
    | with_reducible apply updTp_keeps
    | with_reducible apply AllNext.next
    | with_reducible apply Keeps.ite
    | with_reducible apply AllNext.ite
    | with_reducible apply Keeps.foldl
    | with_reducible apply Keeps.foldN
    | with_reducible apply Keeps.foldr
    | with_reducible apply Keeps.foldlFst
    | split
    | dsimp only
    | assumption

theorem execTpLinkLoss_keeps {ps : List Part} {o s : State} {a1 a2} (h : Keeps ps o s) (hp : [.bc, .tp, .ln, .regs] ⊆ ps) :
    AllNext (execTpLinkLoss a1 a2 s) (Keeps ps o) := by
  unfold execTpLinkLoss
  repeat' first
    | with_reducible exact h
    | with_reducible assumption
    | with_reducible refine Sub.of hp ?_
    | exact rfl
    | intro _
    | with_reducible apply updTpPort_keeps
    | with_reducible apply State.satAdd_keeps
    | with_reducible apply lnErr_keeps
    | with_reducible apply State.raise_keeps
    | with_reducible apply AllNext.next
    | with_reducible apply Keeps.ite
    | with_reducible apply AllNext.ite
    | with_reducible apply Keeps.foldl
    | with_reducible apply Keeps.foldN
    | with_reducible apply Keeps.foldr
    | with_reducible apply Keeps.foldlFst
    | split
    | dsimp only
    | assumption

theorem execPeerDelay_keeps {ps : List Part} {o s : State} {a1 a2} (h : Keeps ps o s) (hp : [.tp, .ln, .regs] ⊆ ps) :
    AllNext (execPeerDelay a1 a2 s) (Keeps ps o) := by
  unfold execPeerDelay
  repeat' first
    | with_reducible exact h
    | with_reducible assumption
    | with_reducible refine Sub.of hp ?_
    | exact rfl
    | intro _
    | with_reducible apply updTpPort_keeps
    | with_reducible apply sendTime_keeps
    | with_reducible apply countFrame_keeps
    | with_reducible apply AllNext.next
    | with_reducible apply Keeps.ite
    | with_reducible apply AllNext.ite
    | with_reducible apply Keeps.foldl
    | with_reducible apply Keeps.foldN
    | with_reducible apply Keeps.foldr
    | with_reducible apply Keeps.foldlFst
    | split
    | dsimp only
    | assumption

theorem execHoldoverAgeExceeded_keeps {ps : List Part} {o s : State} {a1} (h : Keeps ps o s) (hp : [.bc] ⊆ ps) :
    AllNext (execHoldoverAgeExceeded a1 s) (Keeps ps o) := by
  unfold execHoldoverAgeExceeded
  repeat' first
    | with_reducible exact h
    | with_reducible assumption
    | with_reducible refine Sub.of hp ?_
    | exact rfl
    | intro _
    | with_reducible apply holdLevel_keeps
    | with_reducible apply AllNext.next
    | with_reducible apply Keeps.ite
    | with_reducible apply AllNext.ite
    | with_reducible apply Keeps.foldl
    | with_reducible apply Keeps.foldN
    | with_reducible apply Keeps.foldr
    | with_reducible apply Keeps.foldlFst
    | split
    | dsimp only
    | assumption

theorem tickTime_keeps {ps : List Part} {o s : State} (h : Keeps ps o s) (hp : [.tp, .ln, .regs] ⊆ ps) :
    Keeps ps o (tickTime s) := by
  unfold tickTime
  repeat' first
    | with_reducible exact h
    | with_reducible assumption
    | with_reducible refine Sub.of hp ?_
    | exact rfl
    | intro _
    | with_reducible apply gmSends_keeps
    | with_reducible apply AllNext.next
    | with_reducible apply Keeps.ite
    | with_reducible apply AllNext.ite
    | with_reducible apply Keeps.foldl
    | with_reducible apply Keeps.foldN
    | with_reducible apply Keeps.foldr
    | with_reducible apply Keeps.foldlFst
    | split
    | dsimp only
    | assumption

theorem execZholiFrameBad_keeps {ps : List Part} {o s : State} {a1 a2} (h : Keeps ps o s) (hp : [.bc, .tp, .ln, .regs] ⊆ ps) :
    AllNext (execZholiFrameBad a1 a2 s) (Keeps ps o) := by
  unfold execZholiFrameBad
  repeat' first
    | with_reducible exact h
    | with_reducible assumption
    | with_reducible refine Sub.of hp ?_
    | exact rfl
    | intro _
    | with_reducible apply handTo_keeps
    | with_reducible apply lnErr_keeps
    | with_reducible apply State.satAdd_keeps
    | with_reducible apply State.raise_keeps
    | with_reducible apply AllNext.next
    | with_reducible apply Keeps.ite
    | with_reducible apply AllNext.ite
    | with_reducible apply Keeps.foldl
    | with_reducible apply Keeps.foldN
    | with_reducible apply Keeps.foldr
    | with_reducible apply Keeps.foldlFst
    | split
    | dsimp only
    | assumption

theorem judgeNode_keeps {ps : List Part} {o s : State} {a1} (h : Keeps ps o s) (hp : [.bc, .tp, .ln, .regs] ⊆ ps) :
    Keeps ps o (judgeNode s a1) := by
  unfold judgeNode
  repeat' first
    | with_reducible exact h
    | with_reducible assumption
    | with_reducible refine Sub.of hp ?_
    | exact rfl
    | intro _
    | with_reducible apply judgeClaim_keeps
    | with_reducible apply newTable_keeps
    | with_reducible apply sendAssign_keeps
    | with_reducible apply updTp_keeps
    | with_reducible apply AllNext.next
    | with_reducible apply Keeps.ite
    | with_reducible apply AllNext.ite
    | with_reducible apply Keeps.foldl
    | with_reducible apply Keeps.foldN
    | with_reducible apply Keeps.foldr
    | with_reducible apply Keeps.foldlFst
    | split
    | dsimp only
    | assumption

theorem execClaim_keeps {ps : List Part} {o s : State} {a1 a2 a3} (h : Keeps ps o s) (hp : [.bc, .tp, .ln, .regs] ⊆ ps) :
    AllNext (execClaim a1 a2 a3 s) (Keeps ps o) := by
  unfold execClaim
  repeat' first
    | with_reducible exact h
    | with_reducible assumption
    | with_reducible refine Sub.of hp ?_
    | exact rfl
    | intro _
    | with_reducible apply forward_keeps
    | with_reducible apply judgeClaim_keeps
    | with_reducible apply judgeCell_keeps
    | with_reducible apply judgeNode_keeps
    | with_reducible apply receive_keeps
    | with_reducible apply AllNext.next
    | with_reducible apply Keeps.ite
    | with_reducible apply AllNext.ite
    | with_reducible apply Keeps.foldl
    | with_reducible apply Keeps.foldN
    | with_reducible apply Keeps.foldr
    | with_reducible apply Keeps.foldlFst
    | split
    | dsimp only
    | assumption

theorem execSiteFailover_keeps {ps : List Part} {o s : State} (h : Keeps ps o s) (hp : [.bc, .tp, .ln, .regs] ⊆ ps) :
    AllNext (execSiteFailover s) (Keeps ps o) := by
  unfold execSiteFailover
  repeat' first
    | with_reducible exact h
    | with_reducible assumption
    | with_reducible refine Sub.of hp ?_
    | exact rfl
    | intro _
    | with_reducible apply newTable_keeps
    | with_reducible apply updServo_keeps
    | with_reducible apply holdLevel_keeps
    | with_reducible apply setRate_keeps
    | with_reducible apply updTp_keeps
    | with_reducible apply AllNext.next
    | with_reducible apply Keeps.ite
    | with_reducible apply AllNext.ite
    | with_reducible apply Keeps.foldl
    | with_reducible apply Keeps.foldN
    | with_reducible apply Keeps.foldr
    | with_reducible apply Keeps.foldlFst
    | split
    | dsimp only
    | assumption

theorem execBcast_keeps {ps : List Part} {o s : State} {a1 a2 a3} (h : Keeps ps o s) (hp : [.tp, .ln, .regs, .mem] ⊆ ps) :
    AllNext (execBcast a1 a2 a3 s) (Keeps ps o) := by
  unfold execBcast
  repeat' first
    | with_reducible exact h
    | with_reducible assumption
    | with_reducible refine Sub.of hp ?_
    | exact rfl
    | intro _
    | with_reducible apply toHarbour_keeps
    | with_reducible apply forward_keeps
    | with_reducible apply receive_keeps
    | with_reducible apply AllNext.next
    | with_reducible apply Keeps.ite
    | with_reducible apply AllNext.ite
    | with_reducible apply Keeps.foldl
    | with_reducible apply Keeps.foldN
    | with_reducible apply Keeps.foldr
    | with_reducible apply Keeps.foldlFst
    | split
    | dsimp only
    | assumption

end Sys2Proof.Machine
end

