-- ==== Sys2Proof/Laws/KeepsBeacon.lean ====
section
/-! SUPPORT. Laws/KeepsBeacon.lean: which parts of the state each operation of Machine/Beacon.lean can change. -/

namespace Sys2Proof.Machine

theorem updBc_keeps {ps : List Part} {o s : State} {a1} (h : Keeps ps o s) (hp : [.bc] ⊆ ps) :
    Keeps ps o (updBc s a1) := by
  unfold updBc
  repeat' first
    | with_reducible exact h
    | with_reducible assumption
    | with_reducible refine Sub.of hp ?_
    | exact rfl
    | intro _
    | with_reducible apply AllNext.next
    | with_reducible apply Keeps.ite
    | with_reducible apply AllNext.ite
    | with_reducible apply Keeps.foldl
    | with_reducible apply Keeps.foldN
    | with_reducible apply Keeps.foldr
    | with_reducible apply Keeps.foldlFst
    | split
    | with_reducible apply Keeps.bc
    | dsimp only
    | assumption

theorem takeC4_keeps {ps : List Part} {o s : State} (h : Keeps ps o s) (hp : [.mr, .bc, .sio, .wr, .regs] ⊆ ps) :
    Keeps ps o (takeC4 s) := by
  unfold takeC4
  repeat' first
    | with_reducible exact h
    | with_reducible assumption
    | with_reducible refine Sub.of hp ?_
    | exact rfl
    | intro _
    | with_reducible apply cutRails_keeps
    | with_reducible apply lockAll_keeps
    | with_reducible apply updBc_keeps
    | with_reducible apply AllNext.next
    | with_reducible apply Keeps.ite
    | with_reducible apply AllNext.ite
    | with_reducible apply Keeps.foldl
    | with_reducible apply Keeps.foldN
    | with_reducible apply Keeps.foldr
    | with_reducible apply Keeps.foldlFst
    | split
    | dsimp only
    | assumption

theorem updGlint_keeps {ps : List Part} {o s : State} {a1 a2} (h : Keeps ps o s) (hp : [.bc] ⊆ ps) :
    Keeps ps o (updGlint s a1 a2) := by
  unfold updGlint
  repeat' first
    | with_reducible exact h
    | with_reducible assumption
    | with_reducible refine Sub.of hp ?_
    | exact rfl
    | intro _
    | with_reducible apply updBc_keeps
    | with_reducible apply AllNext.next
    | with_reducible apply Keeps.ite
    | with_reducible apply AllNext.ite
    | with_reducible apply Keeps.foldl
    | with_reducible apply Keeps.foldN
    | with_reducible apply Keeps.foldr
    | with_reducible apply Keeps.foldlFst
    | split
    | dsimp only
    | assumption

theorem reactionStop_keeps {ps : List Part} {o s : State} {a1 a2} (h : Keeps ps o s) (hp : [.tp, .ln, .regs] ⊆ ps) :
    Keeps ps o (reactionStop s a1 a2) := by
  unfold reactionStop
  repeat' first
    | with_reducible exact h
    | with_reducible assumption
    | with_reducible refine Sub.of hp ?_
    | exact rfl
    | intro _
    | with_reducible apply stopSend_keeps
    | with_reducible apply AllNext.next
    | with_reducible apply Keeps.ite
    | with_reducible apply AllNext.ite
    | with_reducible apply Keeps.foldl
    | with_reducible apply Keeps.foldN
    | with_reducible apply Keeps.foldr
    | with_reducible apply Keeps.foldlFst
    | split
    | dsimp only
    | assumption

theorem safeOutputs_keeps {ps : List Part} {o s : State} (h : Keeps ps o s) (hp : [.barges, .mr, .lc, .bc, .sio, .regs] ⊆ ps) :
    Keeps ps o (safeOutputs s) := by
  unfold safeOutputs
  repeat' first
    | with_reducible exact h
    | with_reducible assumption
    | with_reducible refine Sub.of hp ?_
    | exact rfl
    | intro _
    | with_reducible apply leaveServing_keeps
    | with_reducible apply updPort_keeps
    | with_reducible apply pinsFollow_keeps
    | with_reducible apply AllNext.next
    | with_reducible apply Keeps.ite
    | with_reducible apply AllNext.ite
    | with_reducible apply Keeps.foldl
    | with_reducible apply Keeps.foldN
    | with_reducible apply Keeps.foldr
    | with_reducible apply Keeps.foldlFst
    | split
    | dsimp only
    | assumption

theorem enterSafe_keeps {ps : List Part} {o s : State} (h : Keeps ps o s) (hp : [.mp, .sl, .barges, .mr, .lc, .bc, .sio, .wr, .regs] ⊆ ps) :
    Keeps ps o (enterSafe s) := by
  unfold enterSafe
  repeat' first
    | with_reducible exact h
    | with_reducible assumption
    | with_reducible refine Sub.of hp ?_
    | exact rfl
    | intro _
    | with_reducible apply startSafe_keeps
    | with_reducible apply safeOutputs_keeps
    | with_reducible apply closeChamber_keeps
    | with_reducible apply updBc_keeps
    | with_reducible apply AllNext.next
    | with_reducible apply Keeps.ite
    | with_reducible apply AllNext.ite
    | with_reducible apply Keeps.foldl
    | with_reducible apply Keeps.foldN
    | with_reducible apply Keeps.foldr
    | with_reducible apply Keeps.foldlFst
    | split
    | with_reducible apply Keeps.mp
    | with_reducible apply Keeps.sl
    | dsimp only
    | assumption

theorem saveSafe_keeps {ps : List Part} {o s : State} {a1 a2} (h : Keeps ps o s) (hp : [.bc, .regs] ⊆ ps) :
    Keeps ps o (saveSafe s a1 a2) := by
  unfold saveSafe
  repeat' first
    | with_reducible exact h
    | with_reducible assumption
    | with_reducible refine Sub.of hp ?_
    | exact rfl
    | intro _
    | with_reducible apply State.setReg_keeps
    | with_reducible apply updBc_keeps
    | with_reducible apply AllNext.next
    | with_reducible apply Keeps.ite
    | with_reducible apply AllNext.ite
    | with_reducible apply Keeps.foldl
    | with_reducible apply Keeps.foldN
    | with_reducible apply Keeps.foldr
    | with_reducible apply Keeps.foldlFst
    | split
    | dsimp only
    | assumption

theorem safeReaction_keeps {ps : List Part} {o s : State} {a1 a2 a3} (h : Keeps ps o s) (hp : [.mp, .sl, .barges, .mr, .lc, .bc, .sio, .wr, .tp, .ln, .regs] ⊆ ps) :
    Keeps ps o (safeReaction s a1 a2 a3) := by
  unfold safeReaction
  repeat' first
    | with_reducible exact h
    | with_reducible assumption
    | with_reducible refine Sub.of hp ?_
    | exact rfl
    | intro _
    | with_reducible apply reactionStop_keeps
    | with_reducible apply takeC4_keeps
    | with_reducible apply enterSafe_keeps
    | with_reducible apply openInterval_keeps
    | with_reducible apply saveSafe_keeps
    | with_reducible apply AllNext.next
    | with_reducible apply Keeps.ite
    | with_reducible apply AllNext.ite
    | with_reducible apply Keeps.foldl
    | with_reducible apply Keeps.foldN
    | with_reducible apply Keeps.foldr
    | with_reducible apply Keeps.foldlFst
    | split
    | dsimp only
    | assumption

theorem noticeOf_keeps {ps : List Part} {o s : State} {a1 a2 a3} (h : Keeps ps o s) (hp : [.sn, .lc, .bc, .se, .hd, .ln, .regs, .mem] ⊆ ps) :
    Keeps ps o (noticeOf s a1 a2 a3) := by
  unfold noticeOf
  repeat' first
    | with_reducible exact h
    | with_reducible assumption
    | with_reducible refine Sub.of hp ?_
    | exact rfl
    | intro _
    | with_reducible apply formNotice_keeps
    | with_reducible apply AllNext.next
    | with_reducible apply Keeps.ite
    | with_reducible apply AllNext.ite
    | with_reducible apply Keeps.foldl
    | with_reducible apply Keeps.foldN
    | with_reducible apply Keeps.foldr
    | with_reducible apply Keeps.foldlFst
    | split
    | dsimp only
    | assumption

theorem failNamed_keeps {ps : List Part} {o s : State} {a1} (h : Keeps ps o s) (hp : [.barges] ⊆ ps) :
    Keeps ps o (failNamed s a1) := by
  unfold failNamed
  repeat' first
    | with_reducible exact h
    | with_reducible assumption
    | with_reducible refine Sub.of hp ?_
    | exact rfl
    | intro _
    | with_reducible apply AllNext.next
    | with_reducible apply Keeps.ite
    | with_reducible apply AllNext.ite
    | with_reducible apply Keeps.foldl
    | with_reducible apply Keeps.foldN
    | with_reducible apply Keeps.foldr
    | with_reducible apply Keeps.foldlFst
    | split
    | with_reducible apply Keeps.barges
    | dsimp only
    | assumption

theorem react_keeps {ps : List Part} {o s : State} {a1 a2} (h : Keeps ps o s) (hp : [.mp, .sl, .barges, .mr, .sn, .lc, .bc, .sio, .se, .wr, .hd, .tp, .ln, .regs, .mem] ⊆ ps) :
    Keeps ps o (react s a1 a2) := by
  unfold react
  repeat' first
    | with_reducible exact h
    | with_reducible assumption
    | with_reducible refine Sub.of hp ?_
    | exact rfl
    | intro _
    | with_reducible apply safeReaction_keeps
    | with_reducible apply noticeOf_keeps
    | with_reducible apply failNamed_keeps
    | with_reducible apply State.setBit_keeps
    | with_reducible apply AllNext.next
    | with_reducible apply Keeps.ite
    | with_reducible apply AllNext.ite
    | with_reducible apply Keeps.foldl
    | with_reducible apply Keeps.foldN
    | with_reducible apply Keeps.foldr
    | with_reducible apply Keeps.foldlFst
    | split
    | dsimp only
    | assumption

theorem retireTile_keeps {ps : List Part} {o s : State} {a1 a2} (h : Keeps ps o s) (hp : [.barges, .tiles, .au, .sn, .lc, .bc, .se, .hd, .bs, .ln, .ports, .regs, .mem] ⊆ ps) :
    Keeps ps o (retireTile s a1 a2) := by
  unfold retireTile
  repeat' first
    | with_reducible exact h
    | with_reducible assumption
    | with_reducible refine Sub.of hp ?_
    | exact rfl
    | intro _
    | with_reducible apply State.raise_keeps
    | with_reducible apply State.setFld_keeps
    | with_reducible apply loseRunsOn_keeps
    | with_reducible apply lampGaps_keeps
    | with_reducible apply State.setReg_keeps
    | with_reducible apply updTile_keeps
    | with_reducible apply killChan_keeps
    | with_reducible apply emptySlotsOf_keeps
    | with_reducible apply tileLost_keeps
    | with_reducible apply AllNext.next
    | with_reducible apply Keeps.ite
    | with_reducible apply AllNext.ite
    | with_reducible apply Keeps.foldl
    | with_reducible apply Keeps.foldN
    | with_reducible apply Keeps.foldr
    | with_reducible apply Keeps.foldlFst
    | split
    | with_reducible apply Keeps.sn
    | dsimp only
    | assumption

theorem retireStream_keeps {ps : List Part} {o s : State} {a1} (h : Keeps ps o s) (hp : [.sl, .barges, .bc, .regs] ⊆ ps) :
    Keeps ps o (retireStream s a1) := by
  unfold retireStream
  repeat' first
    | with_reducible exact h
    | with_reducible assumption
    | with_reducible refine Sub.of hp ?_
    | exact rfl
    | intro _
    | with_reducible apply State.raise_keeps
    | with_reducible apply updStr_keeps
    | with_reducible apply State.setBit_keeps
    | with_reducible apply frameRetired_keeps
    | with_reducible apply AllNext.next
    | with_reducible apply Keeps.ite
    | with_reducible apply AllNext.ite
    | with_reducible apply Keeps.foldl
    | with_reducible apply Keeps.foldN
    | with_reducible apply Keeps.foldr
    | with_reducible apply Keeps.foldlFst
    | split
    | with_reducible apply Keeps.sl
    | dsimp only
    | assumption

theorem writeRetirement_keeps {ps : List Part} {o s : State} {a1 a2} (h : Keeps ps o s) (hp : [.bc, .regs] ⊆ ps) :
    Keeps ps o (writeRetirement s a1 a2) := by
  unfold writeRetirement
  repeat' first
    | with_reducible exact h
    | with_reducible assumption
    | with_reducible refine Sub.of hp ?_
    | exact rfl
    | intro _
    | with_reducible apply State.setReg_keeps
    | with_reducible apply updBc_keeps
    | with_reducible apply State.setBit_keeps
    | with_reducible apply AllNext.next
    | with_reducible apply Keeps.ite
    | with_reducible apply AllNext.ite
    | with_reducible apply Keeps.foldl
    | with_reducible apply Keeps.foldN
    | with_reducible apply Keeps.foldr
    | with_reducible apply Keeps.foldlFst
    | split
    | dsimp only
    | assumption

theorem retireUnit_keeps {ps : List Part} {o s : State} {a1 a2} (h : Keeps ps o s) (hp : [.mp, .sl, .barges, .mr, .tiles, .au, .sn, .lc, .bc, .wd, .se, .lk, .hd, .bs, .ty, .tp, .kc, .ln, .ports, .regs, .mem] ⊆ ps) :
    Keeps ps o (retireUnit s a1 a2) := by
  unfold retireUnit
  repeat' first
    | with_reducible exact h
    | with_reducible assumption
    | with_reducible refine Sub.of hp ?_
    | exact rfl
    | intro _
    | with_reducible apply losePair_keeps
    | with_reducible apply updTpPort_keeps
    | with_reducible apply loseEncoder_keeps
    | with_reducible apply retireTile_keeps
    | with_reducible apply leaveServing_keeps
    | with_reducible apply updPort_keeps
    | with_reducible apply retireStream_keeps
    | with_reducible apply updBc_keeps
    | with_reducible apply writeRetirement_keeps
    | with_reducible apply AllNext.next
    | with_reducible apply Keeps.ite
    | with_reducible apply AllNext.ite
    | with_reducible apply Keeps.foldl
    | with_reducible apply Keeps.foldN
    | with_reducible apply Keeps.foldr
    | with_reducible apply Keeps.foldlFst
    | split
    | dsimp only
    | assumption

theorem setSource_keeps {ps : List Part} {o s : State} {a1 a2} (h : Keeps ps o s) (hp : [.regs] ⊆ ps) :
    Keeps ps o (setSource s a1 a2) := by
  unfold setSource
  repeat' first
    | with_reducible exact h
    | with_reducible assumption
    | with_reducible refine Sub.of hp ?_
    | exact rfl
    | intro _
    | with_reducible apply State.setBit_keeps
    | with_reducible apply AllNext.next
    | with_reducible apply Keeps.ite
    | with_reducible apply AllNext.ite
    | with_reducible apply Keeps.foldl
    | with_reducible apply Keeps.foldN
    | with_reducible apply Keeps.foldr
    | with_reducible apply Keeps.foldlFst
    | split
    | dsimp only
    | assumption

theorem severe_keeps {ps : List Part} {o s : State} {a1 a2} (h : Keeps ps o s) (hp : [.mp, .sl, .barges, .mr, .tiles, .au, .sn, .lc, .bc, .wd, .sio, .se, .lk, .wr, .hd, .bs, .ty, .tp, .kc, .ln, .ports, .regs, .mem] ⊆ ps) :
    Keeps ps o (severe s a1 a2) := by
  unfold severe
  repeat' first
    | with_reducible exact h
    | with_reducible assumption
    | with_reducible refine Sub.of hp ?_
    | exact rfl
    | intro _
    | with_reducible apply openInterval_keeps
    | with_reducible apply react_keeps
    | with_reducible apply startDown_keeps
    | with_reducible apply retireUnit_keeps
    | with_reducible apply setSource_keeps
    | with_reducible apply AllNext.next
    | with_reducible apply Keeps.ite
    | with_reducible apply AllNext.ite
    | with_reducible apply Keeps.foldl
    | with_reducible apply Keeps.foldN
    | with_reducible apply Keeps.foldr
    | with_reducible apply Keeps.foldlFst
    | split
    | dsimp only
    | assumption

theorem putCounter_keeps {ps : List Part} {o s : State} {a1 a2} (h : Keeps ps o s) (hp : [.bc, .regs] ⊆ ps) :
    Keeps ps o (putCounter s a1 a2) := by
  unfold putCounter
  repeat' first
    | with_reducible exact h
    | with_reducible assumption
    | with_reducible refine Sub.of hp ?_
    | exact rfl
    | intro _
    | with_reducible apply State.setReg_keeps
    | with_reducible apply updBc_keeps
    | with_reducible apply AllNext.next
    | with_reducible apply Keeps.ite
    | with_reducible apply AllNext.ite
    | with_reducible apply Keeps.foldl
    | with_reducible apply Keeps.foldN
    | with_reducible apply Keeps.foldr
    | with_reducible apply Keeps.foldlFst
    | split
    | dsimp only
    | assumption

theorem countEvent_keeps {ps : List Part} {o s : State} {a1 a2} (h : Keeps ps o s) (hp : [.mp, .sl, .barges, .mr, .tiles, .au, .sn, .lc, .bc, .wd, .sio, .se, .lk, .wr, .hd, .bs, .ty, .tp, .kc, .ln, .ports, .regs, .mem] ⊆ ps) :
    Keeps ps o (countEvent s a1 a2) := by
  unfold countEvent
  repeat' first
    | with_reducible exact h
    | with_reducible assumption
    | with_reducible refine Sub.of hp ?_
    | exact rfl
    | intro _
    | with_reducible apply State.setBit_keeps
    | with_reducible apply severe_keeps
    | with_reducible apply logEvent_keeps
    | with_reducible apply putCounter_keeps
    | with_reducible apply updBc_keeps
    | with_reducible apply setSource_keeps
    | with_reducible apply State.setReg_keeps
    | with_reducible apply AllNext.next
    | with_reducible apply Keeps.ite
    | with_reducible apply AllNext.ite
    | with_reducible apply Keeps.foldl
    | with_reducible apply Keeps.foldN
    | with_reducible apply Keeps.foldr
    | with_reducible apply Keeps.foldlFst
    | split
    | dsimp only
    | assumption

theorem maskedEvent_keeps {ps : List Part} {o s : State} {a1} (h : Keeps ps o s) (hp : [.regs] ⊆ ps) :
    Keeps ps o (maskedEvent s a1) := by
  unfold maskedEvent
  repeat' first
    | with_reducible exact h
    | with_reducible assumption
    | with_reducible refine Sub.of hp ?_
    | exact rfl
    | intro _
    | with_reducible apply setSource_keeps
    | with_reducible apply State.setBit_keeps
    | with_reducible apply AllNext.next
    | with_reducible apply Keeps.ite
    | with_reducible apply AllNext.ite
    | with_reducible apply Keeps.foldl
    | with_reducible apply Keeps.foldN
    | with_reducible apply Keeps.foldr
    | with_reducible apply Keeps.foldlFst
    | split
    | dsimp only
    | assumption

theorem plainEvent_keeps {ps : List Part} {o s : State} {a1} (h : Keeps ps o s) (hp : [.mp, .sl, .barges, .mr, .tiles, .au, .sn, .lc, .bc, .wd, .sio, .se, .lk, .wr, .hd, .bs, .ty, .tp, .kc, .ln, .ports, .regs, .mem] ⊆ ps) :
    Keeps ps o (plainEvent s a1) := by
  unfold plainEvent
  repeat' first
    | with_reducible exact h
    | with_reducible assumption
    | with_reducible refine Sub.of hp ?_
    | exact rfl
    | intro _
    | with_reducible apply countEvent_keeps
    | with_reducible apply maskedEvent_keeps
    | with_reducible apply AllNext.next
    | with_reducible apply Keeps.ite
    | with_reducible apply AllNext.ite
    | with_reducible apply Keeps.foldl
    | with_reducible apply Keeps.foldN
    | with_reducible apply Keeps.foldr
    | with_reducible apply Keeps.foldlFst
    | split
    | dsimp only
    | assumption

theorem takeEvent_keeps {ps : List Part} {o s : State} {a1} (h : Keeps ps o s) (hp : [.mp, .sl, .barges, .mr, .tiles, .au, .sn, .lc, .bc, .wd, .sio, .se, .lk, .wr, .hd, .bs, .ty, .tp, .kc, .ln, .ports, .regs, .mem] ⊆ ps) :
    Keeps ps o (takeEvent s a1) := by
  unfold takeEvent
  repeat' first
    | with_reducible exact h
    | with_reducible assumption
    | with_reducible refine Sub.of hp ?_
    | exact rfl
    | intro _
    | with_reducible apply updGlint_keeps
    | with_reducible apply plainEvent_keeps
    | with_reducible apply AllNext.next
    | with_reducible apply Keeps.ite
    | with_reducible apply AllNext.ite
    | with_reducible apply Keeps.foldl
    | with_reducible apply Keeps.foldN
    | with_reducible apply Keeps.foldr
    | with_reducible apply Keeps.foldlFst
    | split
    | dsimp only
    | assumption

theorem execBcForce_keeps {ps : List Part} {o s : State} {a1 a2} (h : Keeps ps o s) (hp : [.bus, .mp, .sl, .barges, .mr, .tiles, .au, .sn, .lc, .bc, .wd, .sio, .se, .lk, .wr, .hd, .bs, .ty, .tp, .kc, .ln, .ports, .regs, .mem] ⊆ ps) :
    AllNext (execBcForce a1 a2 s) (Keeps ps o) := by
  unfold execBcForce
  repeat' first
    | with_reducible exact h
    | with_reducible assumption
    | with_reducible refine Sub.of hp ?_
    | exact rfl
    | intro _
    | with_reducible apply State.free_keeps
    | with_reducible apply takeEvent_keeps
    | with_reducible apply State.busError_keeps
    | with_reducible apply State.keeperWrite_keeps
    | with_reducible apply AllNext.next
    | with_reducible apply Keeps.ite
    | with_reducible apply AllNext.ite
    | with_reducible apply Keeps.foldl
    | with_reducible apply Keeps.foldN
    | with_reducible apply Keeps.foldr
    | with_reducible apply Keeps.foldlFst
    | split
    | dsimp only
    | assumption

theorem lineFlips_keeps {ps : List Part} {o s : State} {a1} (h : Keeps ps o s) (hp : [.barges, .mr, .lc, .bc, .sio, .regs] ⊆ ps) :
    Keeps ps o (lineFlips a1 s) := by
  unfold lineFlips
  repeat' first
    | with_reducible exact h
    | with_reducible assumption
    | with_reducible refine Sub.of hp ?_
    | exact rfl
    | intro _
    | with_reducible apply safeOutputs_keeps
    | with_reducible apply updBc_keeps
    | with_reducible apply AllNext.next
    | with_reducible apply Keeps.ite
    | with_reducible apply AllNext.ite
    | with_reducible apply Keeps.foldl
    | with_reducible apply Keeps.foldN
    | with_reducible apply Keeps.foldr
    | with_reducible apply Keeps.foldlFst
    | split
    | with_reducible apply Keeps.mr
    | dsimp only
    | assumption

theorem tallyFault_keeps {ps : List Part} {o s : State} {a1} (h : Keeps ps o s) (hp : [.ty, .regs] ⊆ ps) :
    Keeps ps o (tallyFault s a1) := by
  unfold tallyFault
  repeat' first
    | with_reducible exact h
    | with_reducible assumption
    | with_reducible refine Sub.of hp ?_
    | exact rfl
    | intro _
    | with_reducible apply updUnit_keeps
    | with_reducible apply State.setReg_keeps
    | with_reducible apply AllNext.next
    | with_reducible apply Keeps.ite
    | with_reducible apply AllNext.ite
    | with_reducible apply Keeps.foldl
    | with_reducible apply Keeps.foldN
    | with_reducible apply Keeps.foldr
    | with_reducible apply Keeps.foldlFst
    | split
    | dsimp only
    | assumption

theorem clearDeferred_keeps {ps : List Part} {o s : State} (h : Keeps ps o s) (hp : [.bc, .regs] ⊆ ps) :
    Keeps ps o (clearDeferred s) := by
  unfold clearDeferred
  repeat' first
    | with_reducible exact h
    | with_reducible assumption
    | with_reducible refine Sub.of hp ?_
    | exact rfl
    | intro _
    | with_reducible apply updBc_keeps
    | with_reducible apply State.setReg_keeps
    | with_reducible apply AllNext.next
    | with_reducible apply Keeps.ite
    | with_reducible apply AllNext.ite
    | with_reducible apply Keeps.foldl
    | with_reducible apply Keeps.foldN
    | with_reducible apply Keeps.foldr
    | with_reducible apply Keeps.foldlFst
    | split
    | dsimp only
    | assumption

theorem glintStat_keeps {ps : List Part} {o s : State} {a1 a2 a3 a4} (h : Keeps ps o s) (hp : [.bc, .sio, .regs] ⊆ ps) :
    Keeps ps o (glintStat s a1 a2 a3 a4) := by
  unfold glintStat
  repeat' first
    | with_reducible exact h
    | with_reducible assumption
    | with_reducible refine Sub.of hp ?_
    | exact rfl
    | intro _
    | with_reducible apply lockChannel_keeps
    | with_reducible apply State.setFld_keeps
    | with_reducible apply State.setBit_keeps
    | with_reducible apply updBc_keeps
    | with_reducible apply State.wrapInc_keeps
    | with_reducible apply AllNext.next
    | with_reducible apply Keeps.ite
    | with_reducible apply AllNext.ite
    | with_reducible apply Keeps.foldl
    | with_reducible apply Keeps.foldN
    | with_reducible apply Keeps.foldr
    | with_reducible apply Keeps.foldlFst
    | split
    | dsimp only
    | assumption

theorem judgeGlint_keeps {ps : List Part} {o s : State} {a1} (h : Keeps ps o s) (hp : [.mp, .sl, .barges, .mr, .tiles, .au, .sn, .lc, .bc, .wd, .sio, .se, .lk, .wr, .hd, .bs, .ty, .tp, .kc, .ln, .ports, .regs, .mem] ⊆ ps) :
    Keeps ps o (judgeGlint s a1) := by
  unfold judgeGlint
  repeat' first
    | with_reducible exact h
    | with_reducible assumption
    | with_reducible refine Sub.of hp ?_
    | exact rfl
    | intro _
    | with_reducible apply clearDeferred_keeps
    | with_reducible apply State.free_keeps
    | with_reducible apply countEvent_keeps
    | with_reducible apply maskedEvent_keeps
    | with_reducible apply glintStat_keeps
    | with_reducible apply updBc_keeps
    | with_reducible apply AllNext.next
    | with_reducible apply Keeps.ite
    | with_reducible apply AllNext.ite
    | with_reducible apply Keeps.foldl
    | with_reducible apply Keeps.foldN
    | with_reducible apply Keeps.foldr
    | with_reducible apply Keeps.foldlFst
    | split
    | dsimp only
    | assumption

theorem execCountWindowClose_keeps {ps : List Part} {o s : State} {a1 a2} (h : Keeps ps o s) (hp : [.bc] ⊆ ps) :
    AllNext (execCountWindowClose a1 a2 s) (Keeps ps o) := by
  unfold execCountWindowClose
  repeat' first
    | with_reducible exact h
    | with_reducible assumption
    | with_reducible refine Sub.of hp ?_
    | exact rfl
    | intro _
    | with_reducible apply updBc_keeps
    | with_reducible apply AllNext.next
    | with_reducible apply Keeps.ite
    | with_reducible apply AllNext.ite
    | with_reducible apply Keeps.foldl
    | with_reducible apply Keeps.foldN
    | with_reducible apply Keeps.foldr
    | with_reducible apply Keeps.foldlFst
    | split
    | dsimp only
    | assumption

theorem advanceBit_keeps {ps : List Part} {o s : State} {a1} (h : Keeps ps o s) (hp : [.regs] ⊆ ps) :
    Keeps ps o (advanceBit s a1) := by
  unfold advanceBit
  repeat' first
    | with_reducible exact h
    | with_reducible assumption
    | with_reducible refine Sub.of hp ?_
    | exact rfl
    | intro _
    | with_reducible apply State.setFld_keeps
    | with_reducible apply AllNext.next
    | with_reducible apply Keeps.ite
    | with_reducible apply AllNext.ite
    | with_reducible apply Keeps.foldl
    | with_reducible apply Keeps.foldN
    | with_reducible apply Keeps.foldr
    | with_reducible apply Keeps.foldlFst
    | split
    | dsimp only
    | assumption

theorem issueGlint_keeps {ps : List Part} {o s : State} {a1 a2 a3 a4} (h : Keeps ps o s) (hp : [.bc, .sio, .regs] ⊆ ps) :
    Keeps ps o (issueGlint s a1 a2 a3 a4) := by
  unfold issueGlint
  repeat' first
    | with_reducible exact h
    | with_reducible assumption
    | with_reducible refine Sub.of hp ?_
    | exact rfl
    | intro _
    | with_reducible apply advanceBit_keeps
    | with_reducible apply updBc_keeps
    | with_reducible apply State.free_keeps
    | with_reducible apply glintStat_keeps
    | with_reducible apply AllNext.next
    | with_reducible apply Keeps.ite
    | with_reducible apply AllNext.ite
    | with_reducible apply Keeps.foldl
    | with_reducible apply Keeps.foldN
    | with_reducible apply Keeps.foldr
    | with_reducible apply Keeps.foldlFst
    | split
    | dsimp only
    | assumption

theorem execBcGlintReq_keeps {ps : List Part} {o s : State} {a1 a2} (h : Keeps ps o s) (hp : [.bus, .bc, .sio, .regs] ⊆ ps) :
    AllNext (execBcGlintReq a1 a2 s) (Keeps ps o) := by
  unfold execBcGlintReq
  repeat' first
    | with_reducible exact h
    | with_reducible assumption
    | with_reducible refine Sub.of hp ?_
    | exact rfl
    | intro _
    | with_reducible apply State.busError_keeps
    | with_reducible apply issueGlint_keeps
    | with_reducible apply State.keeperWrite_keeps
    | with_reducible apply AllNext.next
    | with_reducible apply Keeps.ite
    | with_reducible apply AllNext.ite
    | with_reducible apply Keeps.foldl
    | with_reducible apply Keeps.foldN
    | with_reducible apply Keeps.foldr
    | with_reducible apply Keeps.foldlFst
    | split
    | dsimp only
    | assumption

theorem noteGlint_keeps {ps : List Part} {o s : State} {a1} (h : Keeps ps o s) (hp : [.bc, .ty] ⊆ ps) :
    Keeps ps o (noteGlint s a1) := by
  unfold noteGlint
  repeat' first
    | with_reducible exact h
    | with_reducible assumption
    | with_reducible refine Sub.of hp ?_
    | exact rfl
    | intro _
    | with_reducible apply updBc_keeps
    | with_reducible apply AllNext.next
    | with_reducible apply Keeps.ite
    | with_reducible apply AllNext.ite
    | with_reducible apply Keeps.foldl
    | with_reducible apply Keeps.foldN
    | with_reducible apply Keeps.foldr
    | with_reducible apply Keeps.foldlFst
    | split
    | with_reducible apply Keeps.ty
    | dsimp only
    | assumption

theorem pathGlint_keeps {ps : List Part} {o s : State} {a1} (h : Keeps ps o s) (hp : [.bc, .sio, .ty, .regs] ⊆ ps) :
    Keeps ps o (pathGlint s a1) := by
  unfold pathGlint
  repeat' first
    | with_reducible exact h
    | with_reducible assumption
    | with_reducible refine Sub.of hp ?_
    | exact rfl
    | intro _
    | with_reducible apply glintStat_keeps
    | with_reducible apply noteGlint_keeps
    | with_reducible apply AllNext.next
    | with_reducible apply Keeps.ite
    | with_reducible apply AllNext.ite
    | with_reducible apply Keeps.foldl
    | with_reducible apply Keeps.foldN
    | with_reducible apply Keeps.foldr
    | with_reducible apply Keeps.foldlFst
    | split
    | dsimp only
    | assumption

theorem execGlintIssue_keeps {ps : List Part} {o s : State} {a1} (h : Keeps ps o s) (hp : [.bc, .sio, .ty, .regs] ⊆ ps) :
    AllNext (execGlintIssue a1 s) (Keeps ps o) := by
  unfold execGlintIssue
  repeat' first
    | with_reducible exact h
    | with_reducible assumption
    | with_reducible refine Sub.of hp ?_
    | exact rfl
    | intro _
    | with_reducible apply pathGlint_keeps
    | with_reducible apply noteGlint_keeps
    | with_reducible apply issueGlint_keeps
    | with_reducible apply AllNext.next
    | with_reducible apply Keeps.ite
    | with_reducible apply AllNext.ite
    | with_reducible apply Keeps.foldl
    | with_reducible apply Keeps.foldN
    | with_reducible apply Keeps.foldr
    | with_reducible apply Keeps.foldlFst
    | split
    | dsimp only
    | assumption

theorem execSourceEvent_keeps {ps : List Part} {o s : State} {a1} (h : Keeps ps o s) (hp : [.mp, .sl, .barges, .mr, .tiles, .au, .sn, .lc, .bc, .wd, .sio, .se, .lk, .wr, .hd, .bs, .ty, .tp, .kc, .ln, .ports, .regs, .mem] ⊆ ps) :
    AllNext (execSourceEvent a1 s) (Keeps ps o) := by
  unfold execSourceEvent
  repeat' first
    | with_reducible exact h
    | with_reducible assumption
    | with_reducible refine Sub.of hp ?_
    | exact rfl
    | intro _
    | with_reducible apply updWr_keeps
    | with_reducible apply tallyFault_keeps
    | with_reducible apply updBc_keeps
    | with_reducible apply takeEvent_keeps
    | with_reducible apply AllNext.next
    | with_reducible apply Keeps.ite
    | with_reducible apply AllNext.ite
    | with_reducible apply Keeps.foldl
    | with_reducible apply Keeps.foldN
    | with_reducible apply Keeps.foldr
    | with_reducible apply Keeps.foldlFst
    | split
    | dsimp only
    | assumption

theorem endGlint_keeps {ps : List Part} {o s : State} {a1} (h : Keeps ps o s) (hp : [.mp, .sl, .barges, .mr, .tiles, .au, .sn, .lc, .bc, .wd, .sio, .se, .lk, .wr, .hd, .bs, .ty, .tp, .kc, .ln, .ports, .regs, .mem] ⊆ ps) :
    Keeps ps o (endGlint s a1) := by
  unfold endGlint
  repeat' first
    | with_reducible exact h
    | with_reducible assumption
    | with_reducible refine Sub.of hp ?_
    | exact rfl
    | intro _
    | with_reducible apply judgeGlint_keeps
    | with_reducible apply updBc_keeps
    | with_reducible apply takeEvent_keeps
    | with_reducible apply AllNext.next
    | with_reducible apply Keeps.ite
    | with_reducible apply AllNext.ite
    | with_reducible apply Keeps.foldl
    | with_reducible apply Keeps.foldN
    | with_reducible apply Keeps.foldr
    | with_reducible apply Keeps.foldlFst
    | split
    | dsimp only
    | assumption

theorem pathFails_keeps {ps : List Part} {o s : State} (h : Keeps ps o s) (hp : [.mp, .sl, .barges, .mr, .sn, .lc, .bc, .sio, .se, .wr, .hd, .tp, .ln, .regs, .mem] ⊆ ps) :
    Keeps ps o (pathFails s) := by
  unfold pathFails
  repeat' first
    | with_reducible exact h
    | with_reducible assumption
    | with_reducible refine Sub.of hp ?_
    | exact rfl
    | intro _
    | with_reducible apply noticeOf_keeps
    | with_reducible apply safeReaction_keeps
    | with_reducible apply State.setBit_keeps
    | with_reducible apply logEvent_keeps
    | with_reducible apply updBc_keeps
    | with_reducible apply AllNext.next
    | with_reducible apply Keeps.ite
    | with_reducible apply AllNext.ite
    | with_reducible apply Keeps.foldl
    | with_reducible apply Keeps.foldN
    | with_reducible apply Keeps.foldr
    | with_reducible apply Keeps.foldlFst
    | split
    | dsimp only
    | assumption

theorem execReactionPathDisagree_keeps {ps : List Part} {o s : State} {a1} (h : Keeps ps o s) (hp : [.mp, .sl, .barges, .mr, .sn, .lc, .bc, .sio, .se, .wr, .hd, .tp, .ln, .regs, .mem] ⊆ ps) :
    AllNext (execReactionPathDisagree a1 s) (Keeps ps o) := by
  unfold execReactionPathDisagree
  repeat' first
    | with_reducible exact h
    | with_reducible assumption
    | with_reducible refine Sub.of hp ?_
    | exact rfl
    | intro _
    | with_reducible apply pathFails_keeps
    | with_reducible apply lineFlips_keeps
    | with_reducible apply AllNext.next
    | with_reducible apply Keeps.ite
    | with_reducible apply AllNext.ite
    | with_reducible apply Keeps.foldl
    | with_reducible apply Keeps.foldN
    | with_reducible apply Keeps.foldr
    | with_reducible apply Keeps.foldlFst
    | split
    | dsimp only
    | assumption

theorem execGlintWindowEnd_keeps {ps : List Part} {o s : State} (h : Keeps ps o s) (hp : [.bc] ⊆ ps) :
    AllNext (execGlintWindowEnd s) (Keeps ps o) := by
  unfold execGlintWindowEnd
  repeat' first
    | with_reducible exact h
    | with_reducible assumption
    | with_reducible refine Sub.of hp ?_
    | exact rfl
    | intro _
    | with_reducible apply updBc_keeps
    | with_reducible apply AllNext.next
    | with_reducible apply Keeps.ite
    | with_reducible apply AllNext.ite
    | with_reducible apply Keeps.foldl
    | with_reducible apply Keeps.foldN
    | with_reducible apply Keeps.foldr
    | with_reducible apply Keeps.foldlFst
    | split
    | dsimp only
    | assumption

theorem execMaskIntervalEnd_keeps {ps : List Part} {o s : State} (h : Keeps ps o s) (hp : [.mp, .sl, .barges, .mr, .tiles, .au, .sn, .lc, .bc, .wd, .sio, .se, .lk, .wr, .hd, .bs, .ty, .tp, .kc, .ln, .ports, .regs, .mem] ⊆ ps) :
    AllNext (execMaskIntervalEnd s) (Keeps ps o) := by
  unfold execMaskIntervalEnd
  repeat' first
    | with_reducible exact h
    | with_reducible assumption
    | with_reducible refine Sub.of hp ?_
    | exact rfl
    | intro _
    | with_reducible apply State.free_keeps
    | with_reducible apply takeEvent_keeps
    | with_reducible apply updBc_keeps
    | with_reducible apply AllNext.next
    | with_reducible apply Keeps.ite
    | with_reducible apply AllNext.ite
    | with_reducible apply Keeps.foldl
    | with_reducible apply Keeps.foldN
    | with_reducible apply Keeps.foldr
    | with_reducible apply Keeps.foldlFst
    | split
    | dsimp only
    | assumption

theorem execBcRetClr_keeps {ps : List Part} {o s : State} {a1 a2} (h : Keeps ps o s) (hp : [.bus, .tiles, .bc, .regs] ⊆ ps) :
    AllNext (execBcRetClr a1 a2 s) (Keeps ps o) := by
  unfold execBcRetClr
  repeat' first
    | with_reducible exact h
    | with_reducible assumption
    | with_reducible refine Sub.of hp ?_
    | exact rfl
    | intro _
    | with_reducible apply updTile_keeps
    | with_reducible apply updBc_keeps
    | with_reducible apply State.clearReg_keeps
    | with_reducible apply State.setReg_keeps
    | with_reducible apply State.busError_keeps
    | with_reducible apply State.keeperWrite_keeps
    | with_reducible apply AllNext.next
    | with_reducible apply Keeps.ite
    | with_reducible apply AllNext.ite
    | with_reducible apply Keeps.foldl
    | with_reducible apply Keeps.foldN
    | with_reducible apply Keeps.foldr
    | with_reducible apply Keeps.foldlFst
    | split
    | dsimp only
    | assumption

theorem execGlintReadbackEnd_keeps {ps : List Part} {o s : State} (h : Keeps ps o s) (hp : [.mp, .sl, .barges, .mr, .tiles, .au, .sn, .lc, .bc, .wd, .sio, .se, .lk, .wr, .hd, .bs, .ty, .tp, .kc, .ln, .ports, .regs, .mem] ⊆ ps) :
    AllNext (execGlintReadbackEnd s) (Keeps ps o) := by
  unfold execGlintReadbackEnd
  repeat' first
    | with_reducible exact h
    | with_reducible assumption
    | with_reducible refine Sub.of hp ?_
    | exact rfl
    | intro _
    | with_reducible apply endGlint_keeps
    | with_reducible apply AllNext.next
    | with_reducible apply Keeps.ite
    | with_reducible apply AllNext.ite
    | with_reducible apply Keeps.foldl
    | with_reducible apply Keeps.foldN
    | with_reducible apply Keeps.foldr
    | with_reducible apply Keeps.foldlFst
    | split
    | dsimp only
    | assumption

theorem execBcMaskOpen_keeps {ps : List Part} {o s : State} {a1 a2} (h : Keeps ps o s) (hp : [.bus, .bc] ⊆ ps) :
    AllNext (execBcMaskOpen a1 a2 s) (Keeps ps o) := by
  unfold execBcMaskOpen
  repeat' first
    | with_reducible exact h
    | with_reducible assumption
    | with_reducible refine Sub.of hp ?_
    | exact rfl
    | intro _
    | with_reducible apply openMask_keeps
    | with_reducible apply State.keeperWrite_keeps
    | with_reducible apply AllNext.next
    | with_reducible apply Keeps.ite
    | with_reducible apply AllNext.ite
    | with_reducible apply Keeps.foldl
    | with_reducible apply Keeps.foldN
    | with_reducible apply Keeps.foldr
    | with_reducible apply Keeps.foldlFst
    | split
    | dsimp only
    | assumption

theorem execPwrcutPulseEnd_keeps {ps : List Part} {o s : State} (h : Keeps ps o s) (hp : [.bc] ⊆ ps) :
    AllNext (execPwrcutPulseEnd s) (Keeps ps o) := by
  unfold execPwrcutPulseEnd
  repeat' first
    | with_reducible exact h
    | with_reducible assumption
    | with_reducible refine Sub.of hp ?_
    | exact rfl
    | intro _
    | with_reducible apply updBc_keeps
    | with_reducible apply AllNext.next
    | with_reducible apply Keeps.ite
    | with_reducible apply AllNext.ite
    | with_reducible apply Keeps.foldl
    | with_reducible apply Keeps.foldN
    | with_reducible apply Keeps.foldr
    | with_reducible apply Keeps.foldlFst
    | split
    | dsimp only
    | assumption

end Sys2Proof.Machine
end

