-- ==== Sys2Proof/Laws/KeepsKeeper.lean ====
section
/-! SUPPORT. Laws/KeepsKeeper.lean: which parts of the state each operation of Machine/Keeper.lean can change. -/

namespace Sys2Proof.Machine

theorem execClockMonitorFault_keeps {ps : List Part} {o s : State} (h : Keeps ps o s) (hp : [.bc] ⊆ ps) :
    AllNext (execClockMonitorFault s) (Keeps ps o) := by
  unfold execClockMonitorFault
  repeat' first
    | with_reducible exact h
    | with_reducible assumption
    | with_reducible refine Sub.of hp ?_
    | exact rfl
    | intro _
    | with_reducible apply State.raise_keeps
    | with_reducible apply AllNext.next
    | with_reducible apply Keeps.ite
    | with_reducible apply AllNext.ite
    | with_reducible apply Keeps.foldl
    | with_reducible apply Keeps.foldN
    | with_reducible apply Keeps.foldr
    | with_reducible apply Keeps.foldlFst
    | split
    | dsimp only
    | assumption

theorem execKeeperWindowAccess_keeps {ps : List Part} {o s : State} {a1 a2 a3} (h : Keeps ps o s) (hp : [.bus, .bc, .kc] ⊆ ps) :
    AllNext (execKeeperWindowAccess a1 a2 a3 s) (Keeps ps o) := by
  unfold execKeeperWindowAccess
  repeat' first
    | with_reducible exact h
    | with_reducible assumption
    | with_reducible refine Sub.of hp ?_
    | exact rfl
    | intro _
    | with_reducible apply State.busOk_keeps
    | with_reducible apply State.busError_keeps
    | with_reducible apply AllNext.next
    | with_reducible apply Keeps.ite
    | with_reducible apply AllNext.ite
    | with_reducible apply Keeps.foldl
    | with_reducible apply Keeps.foldN
    | with_reducible apply Keeps.foldr
    | with_reducible apply Keeps.foldlFst
    | split
    | with_reducible apply Keeps.kc
    | dsimp only
    | assumption

theorem resumePair_keeps {ps : List Part} {o s : State} {a1} (h : Keeps ps o s) (hp : [.barges, .lc, .bc, .wd, .sio, .kc, .regs] ⊆ ps) :
    Keeps ps o (resumePair a1 s) := by
  unfold resumePair
  repeat' first
    | with_reducible exact h
    | with_reducible assumption
    | with_reducible refine Sub.of hp ?_
    | exact rfl
    | intro _
    | with_reducible apply pinsFollow_keeps
    | with_reducible apply setPair_keeps
    | with_reducible apply AllNext.next
    | with_reducible apply Keeps.ite
    | with_reducible apply AllNext.ite
    | with_reducible apply Keeps.foldl
    | with_reducible apply Keeps.foldN
    | with_reducible apply Keeps.foldr
    | with_reducible apply Keeps.foldlFst
    | split
    | with_reducible apply Keeps.bc
    | dsimp only
    | assumption

theorem execKeeperResume_keeps {ps : List Part} {o s : State} {a1} (h : Keeps ps o s) (hp : [.barges, .lc, .bc, .wd, .sio, .kc, .regs] ⊆ ps) :
    AllNext (execKeeperResume a1 s) (Keeps ps o) := by
  unfold execKeeperResume
  repeat' first
    | with_reducible exact h
    | with_reducible assumption
    | with_reducible refine Sub.of hp ?_
    | exact rfl
    | intro _
    | with_reducible apply syncFreeze_keeps
    | with_reducible apply resumePair_keeps
    | with_reducible apply AllNext.next
    | with_reducible apply Keeps.ite
    | with_reducible apply AllNext.ite
    | with_reducible apply Keeps.foldl
    | with_reducible apply Keeps.foldN
    | with_reducible apply Keeps.foldr
    | with_reducible apply Keeps.foldlFst
    | split
    | with_reducible apply Keeps.kc
    | dsimp only
    | assumption

theorem haltPair_keeps {ps : List Part} {o s : State} {a1} (h : Keeps ps o s) (hp : [.barges, .lc, .bc, .wd, .sio, .kc, .regs] ⊆ ps) :
    Keeps ps o (haltPair a1 s) := by
  unfold haltPair
  repeat' first
    | with_reducible exact h
    | with_reducible assumption
    | with_reducible refine Sub.of hp ?_
    | exact rfl
    | intro _
    | with_reducible apply State.raise_keeps
    | with_reducible apply pinsFollow_keeps
    | with_reducible apply setPair_keeps
    | with_reducible apply AllNext.next
    | with_reducible apply Keeps.ite
    | with_reducible apply AllNext.ite
    | with_reducible apply Keeps.foldl
    | with_reducible apply Keeps.foldN
    | with_reducible apply Keeps.foldr
    | with_reducible apply Keeps.foldlFst
    | split
    | with_reducible apply Keeps.kc
    | dsimp only
    | assumption

theorem suppress_keeps {ps : List Part} {o s : State} (h : Keeps ps o s) (hp : [.bus] ⊆ ps) :
    Keeps ps o (suppress s) := by
  unfold suppress
  repeat' first
    | with_reducible exact h
    | with_reducible assumption
    | with_reducible refine Sub.of hp ?_
    | exact rfl
    | intro _
    | with_reducible apply AllNext.next
    | with_reducible apply Keeps.ite
    | with_reducible apply AllNext.ite
    | with_reducible apply Keeps.foldl
    | with_reducible apply Keeps.foldN
    | with_reducible apply Keeps.foldr
    | with_reducible apply Keeps.foldlFst
    | split
    | with_reducible apply Keeps.bus
    | dsimp only
    | assumption

theorem recordMismatch_keeps {ps : List Part} {o s : State} {a1 a2} (h : Keeps ps o s) (hp : [.regs] ⊆ ps) :
    Keeps ps o (recordMismatch s a1 a2) := by
  unfold recordMismatch
  repeat' first
    | with_reducible exact h
    | with_reducible assumption
    | with_reducible refine Sub.of hp ?_
    | exact rfl
    | intro _
    | with_reducible apply State.setFld_keeps
    | with_reducible apply State.satAdd_keeps
    | with_reducible apply AllNext.next
    | with_reducible apply Keeps.ite
    | with_reducible apply AllNext.ite
    | with_reducible apply Keeps.foldl
    | with_reducible apply Keeps.foldN
    | with_reducible apply Keeps.foldr
    | with_reducible apply Keeps.foldlFst
    | split
    | dsimp only
    | assumption

theorem execKeeperWindowWrite_keeps {ps : List Part} {o s : State} {a1 a2 a3 a4} (h : Keeps ps o s) (hp : [.bus, .bc, .regs] ⊆ ps) :
    AllNext (execKeeperWindowWrite a1 a2 a3 a4 s) (Keeps ps o) := by
  unfold execKeeperWindowWrite
  repeat' first
    | with_reducible exact h
    | with_reducible assumption
    | with_reducible refine Sub.of hp ?_
    | exact rfl
    | intro _
    | with_reducible apply State.refuse_keeps
    | with_reducible apply State.busOk_keeps
    | with_reducible apply State.setReg_keeps
    | with_reducible apply AllNext.next
    | with_reducible apply Keeps.ite
    | with_reducible apply AllNext.ite
    | with_reducible apply Keeps.foldl
    | with_reducible apply Keeps.foldN
    | with_reducible apply Keeps.foldr
    | with_reducible apply Keeps.foldlFst
    | split
    | dsimp only
    | assumption

theorem execDelayParityError_keeps {ps : List Part} {o s : State} {a1} (h : Keeps ps o s) (hp : [.bus, .bc, .regs] ⊆ ps) :
    AllNext (execDelayParityError a1 s) (Keeps ps o) := by
  unfold execDelayParityError
  repeat' first
    | with_reducible exact h
    | with_reducible assumption
    | with_reducible refine Sub.of hp ?_
    | exact rfl
    | intro _
    | with_reducible apply suppress_keeps
    | with_reducible apply State.setBit_keeps
    | with_reducible apply State.raise_keeps
    | with_reducible apply AllNext.next
    | with_reducible apply Keeps.ite
    | with_reducible apply AllNext.ite
    | with_reducible apply Keeps.foldl
    | with_reducible apply Keeps.foldN
    | with_reducible apply Keeps.foldr
    | with_reducible apply Keeps.foldlFst
    | split
    | dsimp only
    | assumption

theorem execLockstepMismatch_keeps {ps : List Part} {o s : State} {a1 a2} (h : Keeps ps o s) (hp : [.bus, .bc, .regs] ⊆ ps) :
    AllNext (execLockstepMismatch a1 a2 s) (Keeps ps o) := by
  unfold execLockstepMismatch
  repeat' first
    | with_reducible exact h
    | with_reducible assumption
    | with_reducible refine Sub.of hp ?_
    | exact rfl
    | intro _
    | with_reducible apply suppress_keeps
    | with_reducible apply recordMismatch_keeps
    | with_reducible apply State.raise_keeps
    | with_reducible apply AllNext.next
    | with_reducible apply Keeps.ite
    | with_reducible apply AllNext.ite
    | with_reducible apply Keeps.foldl
    | with_reducible apply Keeps.foldN
    | with_reducible apply Keeps.foldr
    | with_reducible apply Keeps.foldlFst
    | split
    | dsimp only
    | assumption

theorem execKeeperHalt_keeps {ps : List Part} {o s : State} {a1} (h : Keeps ps o s) (hp : [.barges, .lc, .bc, .wd, .sio, .kc, .regs] ⊆ ps) :
    AllNext (execKeeperHalt a1 s) (Keeps ps o) := by
  unfold execKeeperHalt
  repeat' first
    | with_reducible exact h
    | with_reducible assumption
    | with_reducible refine Sub.of hp ?_
    | exact rfl
    | intro _
    | with_reducible apply syncFreeze_keeps
    | with_reducible apply haltPair_keeps
    | with_reducible apply AllNext.next
    | with_reducible apply Keeps.ite
    | with_reducible apply AllNext.ite
    | with_reducible apply Keeps.foldl
    | with_reducible apply Keeps.foldN
    | with_reducible apply Keeps.foldr
    | with_reducible apply Keeps.foldlFst
    | split
    | with_reducible apply Keeps.kc
    | dsimp only
    | assumption

end Sys2Proof.Machine
end

