-- ==== Sys2Proof/Laws/KeepsLevel.lean ====
section
/-! SUPPORT. Laws/KeepsLevel.lean: which parts of the state each operation of Machine/Level.lean can change. -/

namespace Sys2Proof.Machine

theorem withStage_keeps {ps : List Part} {o s : State} (h : Keeps ps o s) (hp : [.regs] ⊆ ps) :
    Keeps ps o (withStage s) := by
  unfold withStage
  repeat' first
    | with_reducible exact h
    | with_reducible assumption
    | with_reducible refine Sub.of hp ?_
    | exact rfl
    | intro _
    | with_reducible apply State.setReg_keeps
    | with_reducible apply AllNext.next
    | with_reducible apply Keeps.ite
    | with_reducible apply AllNext.ite
    | with_reducible apply Keeps.foldl
    | with_reducible apply Keeps.foldN
    | with_reducible apply Keeps.foldr
    | with_reducible apply Keeps.foldlFst
    | split
    | dsimp only
    | assumption

end Sys2Proof.Machine
end

