-- ==== Sys2Proof/Laws/KeepsSafeIo.lean ====
section
/-! SUPPORT. Laws/KeepsSafeIo.lean: which parts of the state each operation of Machine/SafeIo.lean can change. -/

namespace Sys2Proof.Machine

theorem updSin_keeps {ps : List Part} {o s : State} {a1 a2} (h : Keeps ps o s) (hp : [.sio] ⊆ ps) :
    Keeps ps o (updSin s a1 a2) := by
  unfold updSin
  repeat' first
    | with_reducible exact h
    | with_reducible assumption
    | with_reducible refine Sub.of hp ?_
    | exact rfl
    | intro _
    | with_reducible apply AllNext.next
    | with_reducible apply Keeps.ite
    | with_reducible apply AllNext.ite
    | with_reducible apply Keeps.foldl
    | with_reducible apply Keeps.foldN
    | with_reducible apply Keeps.foldr
    | with_reducible apply Keeps.foldlFst
    | split
    | with_reducible apply Keeps.sio
    | dsimp only
    | assumption

theorem execBrakeApplyRequest_keeps {ps : List Part} {o s : State} {a1 a2} (h : Keeps ps o s) (hp : [.bus, .bc, .sio, .regs] ⊆ ps) :
    AllNext (execBrakeApplyRequest a1 a2 s) (Keeps ps o) := by
  unfold execBrakeApplyRequest
  repeat' first
    | with_reducible exact h
    | with_reducible assumption
    | with_reducible refine Sub.of hp ?_
    | exact rfl
    | intro _
    | with_reducible apply gatesOff_keeps
    | with_reducible apply State.setFld_keeps
    | with_reducible apply State.keeperWrite_keeps
    | with_reducible apply AllNext.next
    | with_reducible apply Keeps.ite
    | with_reducible apply AllNext.ite
    | with_reducible apply Keeps.foldl
    | with_reducible apply Keeps.foldN
    | with_reducible apply Keeps.foldr
    | with_reducible apply Keeps.foldlFst
    | split
    | dsimp only
    | assumption

theorem execBrakeReleaseRequest_keeps {ps : List Part} {o s : State} {a1 a2} (h : Keeps ps o s) (hp : [.bus, .bc, .sio, .regs] ⊆ ps) :
    AllNext (execBrakeReleaseRequest a1 a2 s) (Keeps ps o) := by
  unfold execBrakeReleaseRequest
  repeat' first
    | with_reducible exact h
    | with_reducible assumption
    | with_reducible refine Sub.of hp ?_
    | exact rfl
    | intro _
    | with_reducible apply enterBrake_keeps
    | with_reducible apply updBrake_keeps
    | with_reducible apply State.setFld_keeps
    | with_reducible apply State.keeperWrite_keeps
    | with_reducible apply AllNext.next
    | with_reducible apply Keeps.ite
    | with_reducible apply AllNext.ite
    | with_reducible apply Keeps.foldl
    | with_reducible apply Keeps.foldN
    | with_reducible apply Keeps.foldr
    | with_reducible apply Keeps.foldlFst
    | split
    | dsimp only
    | assumption

theorem brakeFault_keeps {ps : List Part} {o s : State} {a1 a2 a3} (h : Keeps ps o s) (hp : [.bc, .sio, .regs] ⊆ ps) :
    Keeps ps o (brakeFault s a1 a2 a3) := by
  unfold brakeFault
  repeat' first
    | with_reducible exact h
    | with_reducible assumption
    | with_reducible refine Sub.of hp ?_
    | exact rfl
    | intro _
    | with_reducible apply State.raiseSyn_keeps
    | with_reducible apply lockChannel_keeps
    | with_reducible apply AllNext.next
    | with_reducible apply Keeps.ite
    | with_reducible apply AllNext.ite
    | with_reducible apply Keeps.foldl
    | with_reducible apply Keeps.foldN
    | with_reducible apply Keeps.foldr
    | with_reducible apply Keeps.foldlFst
    | split
    | dsimp only
    | assumption

theorem execReleaseLsgConfirmed_keeps {ps : List Part} {o s : State} {a1 a2} (h : Keeps ps o s) (hp : [.bc, .sio, .regs] ⊆ ps) :
    AllNext (execReleaseLsgConfirmed a1 a2 s) (Keeps ps o) := by
  unfold execReleaseLsgConfirmed
  repeat' first
    | with_reducible exact h
    | with_reducible assumption
    | with_reducible refine Sub.of hp ?_
    | exact rfl
    | intro _
    | with_reducible apply enterBrake_keeps
    | with_reducible apply brakeFault_keeps
    | with_reducible apply readBrake_keeps
    | with_reducible apply AllNext.next
    | with_reducible apply Keeps.ite
    | with_reducible apply AllNext.ite
    | with_reducible apply Keeps.foldl
    | with_reducible apply Keeps.foldN
    | with_reducible apply Keeps.foldr
    | with_reducible apply Keeps.foldlFst
    | split
    | dsimp only
    | assumption

theorem testPassed_keeps {ps : List Part} {o s : State} {a1} (h : Keeps ps o s) (hp : [.sio, .regs] ⊆ ps) :
    Keeps ps o (testPassed s a1) := by
  unfold testPassed
  repeat' first
    | with_reducible exact h
    | with_reducible assumption
    | with_reducible refine Sub.of hp ?_
    | exact rfl
    | intro _
    | with_reducible apply updBrake_keeps
    | with_reducible apply State.wrapInc_keeps
    | with_reducible apply State.setBit_keeps
    | with_reducible apply AllNext.next
    | with_reducible apply Keeps.ite
    | with_reducible apply AllNext.ite
    | with_reducible apply Keeps.foldl
    | with_reducible apply Keeps.foldN
    | with_reducible apply Keeps.foldr
    | with_reducible apply Keeps.foldlFst
    | split
    | dsimp only
    | assumption

theorem execBrakeReadbackFault_keeps {ps : List Part} {o s : State} {a1 a2} (h : Keeps ps o s) (hp : [.bc, .sio, .regs] ⊆ ps) :
    AllNext (execBrakeReadbackFault a1 a2 s) (Keeps ps o) := by
  unfold execBrakeReadbackFault
  repeat' first
    | with_reducible exact h
    | with_reducible assumption
    | with_reducible refine Sub.of hp ?_
    | exact rfl
    | intro _
    | with_reducible apply brakeFault_keeps
    | with_reducible apply readBrake_keeps
    | with_reducible apply AllNext.next
    | with_reducible apply Keeps.ite
    | with_reducible apply AllNext.ite
    | with_reducible apply Keeps.foldl
    | with_reducible apply Keeps.foldN
    | with_reducible apply Keeps.foldr
    | with_reducible apply Keeps.foldlFst
    | split
    | dsimp only
    | assumption

theorem sinFault_keeps {ps : List Part} {o s : State} {a1 a2} (h : Keeps ps o s) (hp : [.bc, .sio, .regs] ⊆ ps) :
    Keeps ps o (sinFault s a1 a2) := by
  unfold sinFault
  repeat' first
    | with_reducible exact h
    | with_reducible assumption
    | with_reducible refine Sub.of hp ?_
    | exact rfl
    | intro _
    | with_reducible apply State.raise_keeps
    | with_reducible apply State.raiseSyn_keeps
    | with_reducible apply brakesCheck_keeps
    | with_reducible apply State.setBit_keeps
    | with_reducible apply updSin_keeps
    | with_reducible apply AllNext.next
    | with_reducible apply Keeps.ite
    | with_reducible apply AllNext.ite
    | with_reducible apply Keeps.foldl
    | with_reducible apply Keeps.foldN
    | with_reducible apply Keeps.foldr
    | with_reducible apply Keeps.foldlFst
    | split
    | dsimp only
    | assumption

theorem sinContacts_keeps {ps : List Part} {o s : State} {a1 a2 a3} (h : Keeps ps o s) (hp : [.sio, .regs] ⊆ ps) :
    Keeps ps o (sinContacts a1 a2 a3 s) := by
  unfold sinContacts
  repeat' first
    | with_reducible exact h
    | with_reducible assumption
    | with_reducible refine Sub.of hp ?_
    | exact rfl
    | intro _
    | with_reducible apply State.setBit_keeps
    | with_reducible apply brakesCheck_keeps
    | with_reducible apply updSin_keeps
    | with_reducible apply AllNext.next
    | with_reducible apply Keeps.ite
    | with_reducible apply AllNext.ite
    | with_reducible apply Keeps.foldl
    | with_reducible apply Keeps.foldN
    | with_reducible apply Keeps.foldr
    | with_reducible apply Keeps.foldlFst
    | split
    | dsimp only
    | assumption

theorem execSinContactChange_keeps {ps : List Part} {o s : State} {a1 a2 a3} (h : Keeps ps o s) (hp : [.bc, .sio, .regs] ⊆ ps) :
    AllNext (execSinContactChange a1 a2 a3 s) (Keeps ps o) := by
  unfold execSinContactChange
  repeat' first
    | with_reducible exact h
    | with_reducible assumption
    | with_reducible refine Sub.of hp ?_
    | exact rfl
    | intro _
    | with_reducible apply updSin_keeps
    | with_reducible apply sinFault_keeps
    | with_reducible apply sinContacts_keeps
    | with_reducible apply AllNext.next
    | with_reducible apply Keeps.ite
    | with_reducible apply AllNext.ite
    | with_reducible apply Keeps.foldl
    | with_reducible apply Keeps.foldN
    | with_reducible apply Keeps.foldr
    | with_reducible apply Keeps.foldlFst
    | split
    | dsimp only
    | assumption

theorem pulseOne_keeps {ps : List Part} {o s : State} {a1 a2 a3 a4} (h : Keeps ps o s) (hp : [.bc, .sio, .regs] ⊆ ps) :
    Keeps ps o (pulseOne a1 a2 a3 s a4) := by
  unfold pulseOne
  repeat' first
    | with_reducible exact h
    | with_reducible assumption
    | with_reducible refine Sub.of hp ?_
    | exact rfl
    | intro _
    | with_reducible apply sinFault_keeps
    | with_reducible apply updSin_keeps
    | with_reducible apply AllNext.next
    | with_reducible apply Keeps.ite
    | with_reducible apply AllNext.ite
    | with_reducible apply Keeps.foldl
    | with_reducible apply Keeps.foldN
    | with_reducible apply Keeps.foldr
    | with_reducible apply Keeps.foldlFst
    | split
    | dsimp only
    | assumption

theorem execSinTestPulse_keeps {ps : List Part} {o s : State} {a1 a2 a3} (h : Keeps ps o s) (hp : [.bc, .sio, .regs] ⊆ ps) :
    AllNext (execSinTestPulse a1 a2 a3 s) (Keeps ps o) := by
  unfold execSinTestPulse
  repeat' first
    | with_reducible exact h
    | with_reducible assumption
    | with_reducible refine Sub.of hp ?_
    | exact rfl
    | intro _
    | with_reducible apply pulseOne_keeps
    | with_reducible apply AllNext.next
    | with_reducible apply Keeps.ite
    | with_reducible apply AllNext.ite
    | with_reducible apply Keeps.foldl
    | with_reducible apply Keeps.foldN
    | with_reducible apply Keeps.foldr
    | with_reducible apply Keeps.foldlFst
    | split
    | with_reducible apply Keeps.sio
    | dsimp only
    | assumption

theorem execOffTransitionPass_keeps {ps : List Part} {o s : State} {a1 a2} (h : Keeps ps o s) (hp : [.sio, .regs] ⊆ ps) :
    AllNext (execOffTransitionPass a1 a2 s) (Keeps ps o) := by
  unfold execOffTransitionPass
  repeat' first
    | with_reducible exact h
    | with_reducible assumption
    | with_reducible refine Sub.of hp ?_
    | exact rfl
    | intro _
    | with_reducible apply updBrake_keeps
    | with_reducible apply testPassed_keeps
    | with_reducible apply readBrake_keeps
    | with_reducible apply AllNext.next
    | with_reducible apply Keeps.ite
    | with_reducible apply AllNext.ite
    | with_reducible apply Keeps.foldl
    | with_reducible apply Keeps.foldN
    | with_reducible apply Keeps.foldr
    | with_reducible apply Keeps.foldlFst
    | split
    | dsimp only
    | assumption

theorem execLoAckPressStart_keeps {ps : List Part} {o s : State} (h : Keeps ps o s) (hp : [.sio] ⊆ ps) :
    AllNext (execLoAckPressStart s) (Keeps ps o) := by
  unfold execLoAckPressStart
  repeat' first
    | with_reducible exact h
    | with_reducible assumption
    | with_reducible refine Sub.of hp ?_
    | exact rfl
    | intro _
    | with_reducible apply AllNext.next
    | with_reducible apply Keeps.ite
    | with_reducible apply AllNext.ite
    | with_reducible apply Keeps.foldl
    | with_reducible apply Keeps.foldN
    | with_reducible apply Keeps.foldr
    | with_reducible apply Keeps.foldlFst
    | split
    | with_reducible apply Keeps.sio
    | dsimp only
    | assumption

theorem sealLoop_keeps {ps : List Part} {o s : State} {a1} (h : Keeps ps o s) (hp : [.barges, .mr, .lc, .bc, .sio, .wr, .regs] ⊆ ps) :
    Keeps ps o (sealLoop a1 s) := by
  unfold sealLoop
  repeat' first
    | with_reducible exact h
    | with_reducible assumption
    | with_reducible refine Sub.of hp ?_
    | exact rfl
    | intro _
    | with_reducible apply startFail_keeps
    | with_reducible apply State.raise_keeps
    | with_reducible apply AllNext.next
    | with_reducible apply Keeps.ite
    | with_reducible apply AllNext.ite
    | with_reducible apply Keeps.foldl
    | with_reducible apply Keeps.foldN
    | with_reducible apply Keeps.foldr
    | with_reducible apply Keeps.foldlFst
    | split
    | with_reducible apply Keeps.sio
    | dsimp only
    | assumption

theorem execSealLoopStep_keeps {ps : List Part} {o s : State} {a1} (h : Keeps ps o s) (hp : [.barges, .mr, .lc, .bc, .sio, .wr, .regs] ⊆ ps) :
    AllNext (execSealLoopStep a1 s) (Keeps ps o) := by
  unfold execSealLoopStep
  repeat' first
    | with_reducible exact h
    | with_reducible assumption
    | with_reducible refine Sub.of hp ?_
    | exact rfl
    | intro _
    | with_reducible apply sealLoop_keeps
    | with_reducible apply AllNext.next
    | with_reducible apply Keeps.ite
    | with_reducible apply AllNext.ite
    | with_reducible apply Keeps.foldl
    | with_reducible apply Keeps.foldN
    | with_reducible apply Keeps.foldr
    | with_reducible apply Keeps.foldlFst
    | split
    | dsimp only
    | assumption

theorem execTestPulseJudge_keeps {ps : List Part} {o s : State} {a1 a2} (h : Keeps ps o s) (hp : [.bc, .sio, .regs] ⊆ ps) :
    AllNext (execTestPulseJudge a1 a2 s) (Keeps ps o) := by
  unfold execTestPulseJudge
  repeat' first
    | with_reducible exact h
    | with_reducible assumption
    | with_reducible refine Sub.of hp ?_
    | exact rfl
    | intro _
    | with_reducible apply State.satAdd_keeps
    | with_reducible apply State.setBit_keeps
    | with_reducible apply brakeFault_keeps
    | with_reducible apply testPassed_keeps
    | with_reducible apply updBrake_keeps
    | with_reducible apply readBrake_keeps
    | with_reducible apply AllNext.next
    | with_reducible apply Keeps.ite
    | with_reducible apply AllNext.ite
    | with_reducible apply Keeps.foldl
    | with_reducible apply Keeps.foldN
    | with_reducible apply Keeps.foldr
    | with_reducible apply Keeps.foldlFst
    | split
    | dsimp only
    | assumption

theorem execReleaseComplete_keeps {ps : List Part} {o s : State} {a1 a2 a3} (h : Keeps ps o s) (hp : [.bc, .sio, .regs] ⊆ ps) :
    AllNext (execReleaseComplete a1 a2 a3 s) (Keeps ps o) := by
  unfold execReleaseComplete
  repeat' first
    | with_reducible exact h
    | with_reducible assumption
    | with_reducible refine Sub.of hp ?_
    | exact rfl
    | intro _
    | with_reducible apply enterBrake_keeps
    | with_reducible apply brakeFault_keeps
    | with_reducible apply readBrake_keeps
    | with_reducible apply AllNext.next
    | with_reducible apply Keeps.ite
    | with_reducible apply AllNext.ite
    | with_reducible apply Keeps.foldl
    | with_reducible apply Keeps.foldN
    | with_reducible apply Keeps.foldr
    | with_reducible apply Keeps.foldlFst
    | split
    | dsimp only
    | assumption

theorem execTestPulseStart_keeps {ps : List Part} {o s : State} {a1} (h : Keeps ps o s) (hp : [.sio] ⊆ ps) :
    AllNext (execTestPulseStart a1 s) (Keeps ps o) := by
  unfold execTestPulseStart
  repeat' first
    | with_reducible exact h
    | with_reducible assumption
    | with_reducible refine Sub.of hp ?_
    | exact rfl
    | intro _
    | with_reducible apply enterBrake_keeps
    | with_reducible apply updBrake_keeps
    | with_reducible apply AllNext.next
    | with_reducible apply Keeps.ite
    | with_reducible apply AllNext.ite
    | with_reducible apply Keeps.foldl
    | with_reducible apply Keeps.foldN
    | with_reducible apply Keeps.foldr
    | with_reducible apply Keeps.foldlFst
    | split
    | dsimp only
    | assumption

theorem execBrakeSupplyFault_keeps {ps : List Part} {o s : State} {a1} (h : Keeps ps o s) (hp : [.bc, .sio, .regs] ⊆ ps) :
    AllNext (execBrakeSupplyFault a1 s) (Keeps ps o) := by
  unfold execBrakeSupplyFault
  repeat' first
    | with_reducible exact h
    | with_reducible assumption
    | with_reducible refine Sub.of hp ?_
    | exact rfl
    | intro _
    | with_reducible apply supplyFault_keeps
    | with_reducible apply State.level_keeps
    | with_reducible apply AllNext.next
    | with_reducible apply Keeps.ite
    | with_reducible apply AllNext.ite
    | with_reducible apply Keeps.foldl
    | with_reducible apply Keeps.foldN
    | with_reducible apply Keeps.foldr
    | with_reducible apply Keeps.foldlFst
    | split
    | with_reducible apply Keeps.sio
    | dsimp only
    | assumption

theorem execSinDiscrepancyTimeout_keeps {ps : List Part} {o s : State} {a1} (h : Keeps ps o s) (hp : [.bc, .sio, .regs] ⊆ ps) :
    AllNext (execSinDiscrepancyTimeout a1 s) (Keeps ps o) := by
  unfold execSinDiscrepancyTimeout
  repeat' first
    | with_reducible exact h
    | with_reducible assumption
    | with_reducible refine Sub.of hp ?_
    | exact rfl
    | intro _
    | with_reducible apply sinFault_keeps
    | with_reducible apply AllNext.next
    | with_reducible apply Keeps.ite
    | with_reducible apply AllNext.ite
    | with_reducible apply Keeps.foldl
    | with_reducible apply Keeps.foldN
    | with_reducible apply Keeps.foldr
    | with_reducible apply Keeps.foldlFst
    | split
    | dsimp only
    | assumption

theorem execTestPulseEnd_keeps {ps : List Part} {o s : State} {a1} (h : Keeps ps o s) (hp : [.sio] ⊆ ps) :
    AllNext (execTestPulseEnd a1 s) (Keeps ps o) := by
  unfold execTestPulseEnd
  repeat' first
    | with_reducible exact h
    | with_reducible assumption
    | with_reducible refine Sub.of hp ?_
    | exact rfl
    | intro _
    | with_reducible apply enterBrake_keeps
    | with_reducible apply updBrake_keeps
    | with_reducible apply AllNext.next
    | with_reducible apply Keeps.ite
    | with_reducible apply AllNext.ite
    | with_reducible apply Keeps.foldl
    | with_reducible apply Keeps.foldN
    | with_reducible apply Keeps.foldr
    | with_reducible apply Keeps.foldlFst
    | split
    | dsimp only
    | assumption

theorem unlockOne_keeps {ps : List Part} {o s : State} {a1} (h : Keeps ps o s) (hp : [.sio, .regs] ⊆ ps) :
    Keeps ps o (unlockOne s a1) := by
  unfold unlockOne
  repeat' first
    | with_reducible exact h
    | with_reducible assumption
    | with_reducible refine Sub.of hp ?_
    | exact rfl
    | intro _
    | with_reducible apply State.setBit_keeps
    | with_reducible apply State.setReg_keeps
    | with_reducible apply gatesOff_keeps
    | with_reducible apply AllNext.next
    | with_reducible apply Keeps.ite
    | with_reducible apply AllNext.ite
    | with_reducible apply Keeps.foldl
    | with_reducible apply Keeps.foldN
    | with_reducible apply Keeps.foldr
    | with_reducible apply Keeps.foldlFst
    | split
    | dsimp only
    | assumption

theorem execLoAckPress_keeps {ps : List Part} {o s : State} (h : Keeps ps o s) (hp : [.bc, .sio, .regs] ⊆ ps) :
    AllNext (execLoAckPress s) (Keeps ps o) := by
  unfold execLoAckPress
  repeat' first
    | with_reducible exact h
    | with_reducible assumption
    | with_reducible refine Sub.of hp ?_
    | exact rfl
    | intro _
    | with_reducible apply unlockOne_keeps
    | with_reducible apply State.satAdd_keeps
    | with_reducible apply State.raise_keeps
    | with_reducible apply State.setFld_keeps
    | with_reducible apply AllNext.next
    | with_reducible apply Keeps.ite
    | with_reducible apply AllNext.ite
    | with_reducible apply Keeps.foldl
    | with_reducible apply Keeps.foldN
    | with_reducible apply Keeps.foldr
    | with_reducible apply Keeps.foldlFst
    | split
    | with_reducible apply Keeps.sio
    | dsimp only
    | assumption

end Sys2Proof.Machine
end

