-- ==== Sys2Proof/Laws/KeepsLockCycle.lean ====
section
/-! SUPPORT. Laws/KeepsLockCycle.lean: which parts of the state each operation of Machine/LockCycle.lean can change. -/

namespace Sys2Proof.Machine

theorem keepStopCfg_keeps {ps : List Part} {o s : State} (h : Keeps ps o s) (hp : [.tp] ⊆ ps) :
    Keeps ps o (keepStopCfg s) := by
  unfold keepStopCfg
  repeat' first
    | with_reducible exact h
    | with_reducible assumption
    | with_reducible refine Sub.of hp ?_
    | exact rfl
    | intro _
    | with_reducible apply AllNext.next
    | with_reducible apply Keeps.ite
    | with_reducible apply AllNext.ite
    | with_reducible apply Keeps.foldl
    | with_reducible apply Keeps.foldN
    | with_reducible apply Keeps.foldr
    | with_reducible apply Keeps.foldlFst
    | split
    | with_reducible apply Keeps.tp
    | dsimp only
    | assumption

theorem openQuality_keeps {ps : List Part} {o s : State} {a1} (h : Keeps ps o s) (hp : [.mp, .bc, .regs] ⊆ ps) :
    Keeps ps o (openQuality a1 s) := by
  unfold openQuality
  repeat' first
    | with_reducible exact h
    | with_reducible assumption
    | with_reducible refine Sub.of hp ?_
    | exact rfl
    | intro _
    | with_reducible apply setQuality_keeps
    | with_reducible apply AllNext.next
    | with_reducible apply Keeps.ite
    | with_reducible apply AllNext.ite
    | with_reducible apply Keeps.foldl
    | with_reducible apply Keeps.foldN
    | with_reducible apply Keeps.foldr
    | with_reducible apply Keeps.foldlFst
    | split
    | with_reducible apply Keeps.mp
    | dsimp only
    | assumption

theorem openBrake_keeps {ps : List Part} {o s : State} {a1 a2} (h : Keeps ps o s) (hp : [.sio, .regs] ⊆ ps) :
    Keeps ps o (openBrake a1 s a2) := by
  unfold openBrake
  repeat' first
    | with_reducible exact h
    | with_reducible assumption
    | with_reducible refine Sub.of hp ?_
    | exact rfl
    | intro _
    | with_reducible apply State.setFld_keeps
    | with_reducible apply gatesOff_keeps
    | with_reducible apply AllNext.next
    | with_reducible apply Keeps.ite
    | with_reducible apply AllNext.ite
    | with_reducible apply Keeps.foldl
    | with_reducible apply Keeps.foldN
    | with_reducible apply Keeps.foldr
    | with_reducible apply Keeps.foldlFst
    | split
    | dsimp only
    | assumption

theorem openSin_keeps {ps : List Part} {o s : State} {a1 a2} (h : Keeps ps o s) (hp : [.sio] ⊆ ps) :
    Keeps ps o (openSin a1 s a2) := by
  unfold openSin
  repeat' first
    | with_reducible exact h
    | with_reducible assumption
    | with_reducible refine Sub.of hp ?_
    | exact rfl
    | intro _
    | with_reducible apply updSin_keeps
    | with_reducible apply AllNext.next
    | with_reducible apply Keeps.ite
    | with_reducible apply AllNext.ite
    | with_reducible apply Keeps.foldl
    | with_reducible apply Keeps.foldN
    | with_reducible apply Keeps.foldr
    | with_reducible apply Keeps.foldlFst
    | split
    | dsimp only
    | assumption

theorem openVal_keeps {ps : List Part} {o s : State} {a1 a2} (h : Keeps ps o s) (hp : [.lc] ⊆ ps) :
    Keeps ps o (openVal a1 s a2) := by
  unfold openVal
  repeat' first
    | with_reducible exact h
    | with_reducible assumption
    | with_reducible refine Sub.of hp ?_
    | exact rfl
    | intro _
    | with_reducible apply valRefresh_keeps
    | with_reducible apply AllNext.next
    | with_reducible apply Keeps.ite
    | with_reducible apply AllNext.ite
    | with_reducible apply Keeps.foldl
    | with_reducible apply Keeps.foldN
    | with_reducible apply Keeps.foldr
    | with_reducible apply Keeps.foldlFst
    | split
    | dsimp only
    | assumption

theorem openUnit_keeps {ps : List Part} {o s : State} {a1 a2} (h : Keeps ps o s) (hp : [.ty, .regs] ⊆ ps) :
    Keeps ps o (openUnit a1 s a2) := by
  unfold openUnit
  repeat' first
    | with_reducible exact h
    | with_reducible assumption
    | with_reducible refine Sub.of hp ?_
    | exact rfl
    | intro _
    | with_reducible apply endUnit_keeps
    | with_reducible apply AllNext.next
    | with_reducible apply Keeps.ite
    | with_reducible apply AllNext.ite
    | with_reducible apply Keeps.foldl
    | with_reducible apply Keeps.foldN
    | with_reducible apply Keeps.foldr
    | with_reducible apply Keeps.foldlFst
    | split
    | dsimp only
    | assumption

theorem openCover_keeps {ps : List Part} {o s : State} {a1 a2} (h : Keeps ps o s) (hp : [.au, .regs] ⊆ ps) :
    Keeps ps o (openCover a1 s a2) := by
  unfold openCover
  repeat' first
    | with_reducible exact h
    | with_reducible assumption
    | with_reducible refine Sub.of hp ?_
    | exact rfl
    | intro _
    | with_reducible apply State.setReg_keeps
    | with_reducible apply AllNext.next
    | with_reducible apply Keeps.ite
    | with_reducible apply AllNext.ite
    | with_reducible apply Keeps.foldl
    | with_reducible apply Keeps.foldN
    | with_reducible apply Keeps.foldr
    | with_reducible apply Keeps.foldlFst
    | split
    | with_reducible apply Keeps.au
    | dsimp only
    | assumption

theorem openStream_keeps {ps : List Part} {o s : State} {a1 a2} (h : Keeps ps o s) (hp : [.sl] ⊆ ps) :
    Keeps ps o (openStream a1 s a2) := by
  unfold openStream
  repeat' first
    | with_reducible exact h
    | with_reducible assumption
    | with_reducible refine Sub.of hp ?_
    | exact rfl
    | intro _
    | with_reducible apply dueRestart_keeps
    | with_reducible apply AllNext.next
    | with_reducible apply Keeps.ite
    | with_reducible apply AllNext.ite
    | with_reducible apply Keeps.foldl
    | with_reducible apply Keeps.foldN
    | with_reducible apply Keeps.foldr
    | with_reducible apply Keeps.foldlFst
    | split
    | dsimp only
    | assumption

theorem openEntity_keeps {ps : List Part} {o s : State} {a1 a2} (h : Keeps ps o s) (hp : [.wd] ⊆ ps) :
    Keeps ps o (openEntity a1 s a2) := by
  unfold openEntity
  repeat' first
    | with_reducible exact h
    | with_reducible assumption
    | with_reducible refine Sub.of hp ?_
    | exact rfl
    | intro _
    | with_reducible apply updEntity_keeps
    | with_reducible apply AllNext.next
    | with_reducible apply Keeps.ite
    | with_reducible apply AllNext.ite
    | with_reducible apply Keeps.foldl
    | with_reducible apply Keeps.foldN
    | with_reducible apply Keeps.foldr
    | with_reducible apply Keeps.foldlFst
    | split
    | dsimp only
    | assumption

theorem openDog_keeps {ps : List Part} {o s : State} {a1 a2} (h : Keeps ps o s) (hp : [.wd] ⊆ ps) :
    Keeps ps o (openDog a1 s a2) := by
  unfold openDog
  repeat' first
    | with_reducible exact h
    | with_reducible assumption
    | with_reducible refine Sub.of hp ?_
    | exact rfl
    | intro _
    | with_reducible apply updDog_keeps
    | with_reducible apply AllNext.next
    | with_reducible apply Keeps.ite
    | with_reducible apply AllNext.ite
    | with_reducible apply Keeps.foldl
    | with_reducible apply Keeps.foldN
    | with_reducible apply Keeps.foldr
    | with_reducible apply Keeps.foldlFst
    | split
    | dsimp only
    | assumption

theorem openEncoder_keeps {ps : List Part} {o s : State} {a1 a2} (h : Keeps ps o s) (hp : [.mp] ⊆ ps) :
    Keeps ps o (openEncoder a1 s a2) := by
  unfold openEncoder
  repeat' first
    | with_reducible exact h
    | with_reducible assumption
    | with_reducible refine Sub.of hp ?_
    | exact rfl
    | intro _
    | with_reducible apply updEnc_keeps
    | with_reducible apply AllNext.next
    | with_reducible apply Keeps.ite
    | with_reducible apply AllNext.ite
    | with_reducible apply Keeps.foldl
    | with_reducible apply Keeps.foldN
    | with_reducible apply Keeps.foldr
    | with_reducible apply Keeps.foldlFst
    | split
    | dsimp only
    | assumption

theorem openCounters_keeps {ps : List Part} {o s : State} {a1} (h : Keeps ps o s) (hp : [.bc, .regs] ⊆ ps) :
    Keeps ps o (openCounters a1 s) := by
  unfold openCounters
  repeat' first
    | with_reducible exact h
    | with_reducible assumption
    | with_reducible refine Sub.of hp ?_
    | exact rfl
    | intro _
    | with_reducible apply State.setReg_keeps
    | with_reducible apply AllNext.next
    | with_reducible apply Keeps.ite
    | with_reducible apply AllNext.ite
    | with_reducible apply Keeps.foldl
    | with_reducible apply Keeps.foldN
    | with_reducible apply Keeps.foldr
    | with_reducible apply Keeps.foldlFst
    | split
    | with_reducible apply Keeps.bc
    | dsimp only
    | assumption

theorem openLibrary_keeps {ps : List Part} {o s : State} {a1} (h : Keeps ps o s) (hp : [.sn] ⊆ ps) :
    Keeps ps o (openLibrary a1 s) := by
  unfold openLibrary
  repeat' first
    | with_reducible exact h
    | with_reducible assumption
    | with_reducible refine Sub.of hp ?_
    | exact rfl
    | intro _
    | with_reducible apply AllNext.next
    | with_reducible apply Keeps.ite
    | with_reducible apply AllNext.ite
    | with_reducible apply Keeps.foldl
    | with_reducible apply Keeps.foldN
    | with_reducible apply Keeps.foldr
    | with_reducible apply Keeps.foldlFst
    | split
    | with_reducible apply Keeps.sn
    | dsimp only
    | assumption

theorem openPosts_keeps {ps : List Part} {o s : State} {a1} (h : Keeps ps o s) (hp : [.mp] ⊆ ps) :
    Keeps ps o (openPosts a1 s) := by
  unfold openPosts
  repeat' first
    | with_reducible exact h
    | with_reducible assumption
    | with_reducible refine Sub.of hp ?_
    | exact rfl
    | intro _
    | with_reducible apply AllNext.next
    | with_reducible apply Keeps.ite
    | with_reducible apply AllNext.ite
    | with_reducible apply Keeps.foldl
    | with_reducible apply Keeps.foldN
    | with_reducible apply Keeps.foldr
    | with_reducible apply Keeps.foldlFst
    | split
    | with_reducible apply Keeps.mp
    | dsimp only
    | assumption

theorem openBanks_keeps {ps : List Part} {o s : State} {a1} (h : Keeps ps o s) (hp : [.bs] ⊆ ps) :
    Keeps ps o (openBanks a1 s) := by
  unfold openBanks
  repeat' first
    | with_reducible exact h
    | with_reducible assumption
    | with_reducible refine Sub.of hp ?_
    | exact rfl
    | intro _
    | with_reducible apply updBank_keeps
    | with_reducible apply AllNext.next
    | with_reducible apply Keeps.ite
    | with_reducible apply AllNext.ite
    | with_reducible apply Keeps.foldl
    | with_reducible apply Keeps.foldN
    | with_reducible apply Keeps.foldr
    | with_reducible apply Keeps.foldlFst
    | split
    | dsimp only
    | assumption

theorem openTile_keeps {ps : List Part} {o s : State} {a1 a2} (h : Keeps ps o s) (hp : [.barges, .tiles, .au, .sn, .lc, .bc, .regs] ⊆ ps) :
    Keeps ps o (openTile a1 s a2) := by
  unfold openTile
  repeat' first
    | with_reducible exact h
    | with_reducible assumption
    | with_reducible refine Sub.of hp ?_
    | exact rfl
    | intro _
    | with_reducible apply tileLost_keeps
    | with_reducible apply loseRunsOn_keeps
    | with_reducible apply updTile_keeps
    | with_reducible apply State.setFld_keeps
    | with_reducible apply AllNext.next
    | with_reducible apply Keeps.ite
    | with_reducible apply AllNext.ite
    | with_reducible apply Keeps.foldl
    | with_reducible apply Keeps.foldN
    | with_reducible apply Keeps.foldr
    | with_reducible apply Keeps.foldlFst
    | split
    | with_reducible apply Keeps.sn
    | dsimp only
    | assumption

theorem openSlots_keeps {ps : List Part} {o s : State} {a1} (h : Keeps ps o s) (hp : [.sn] ⊆ ps) :
    Keeps ps o (openSlots s a1) := by
  unfold openSlots
  repeat' first
    | with_reducible exact h
    | with_reducible assumption
    | with_reducible refine Sub.of hp ?_
    | exact rfl
    | intro _
    | with_reducible apply emptySlotsOf_keeps
    | with_reducible apply AllNext.next
    | with_reducible apply Keeps.ite
    | with_reducible apply AllNext.ite
    | with_reducible apply Keeps.foldl
    | with_reducible apply Keeps.foldN
    | with_reducible apply Keeps.foldr
    | with_reducible apply Keeps.foldlFst
    | split
    | dsimp only
    | assumption

theorem openPort_keeps {ps : List Part} {o s : State} {a1 a2} (h : Keeps ps o s) (hp : [.barges, .mr, .lc, .bc, .regs] ⊆ ps) :
    Keeps ps o (openPort a1 s a2) := by
  unfold openPort
  repeat' first
    | with_reducible exact h
    | with_reducible assumption
    | with_reducible refine Sub.of hp ?_
    | exact rfl
    | intro _
    | with_reducible apply leaveServing_keeps
    | with_reducible apply AllNext.next
    | with_reducible apply Keeps.ite
    | with_reducible apply AllNext.ite
    | with_reducible apply Keeps.foldl
    | with_reducible apply Keeps.foldN
    | with_reducible apply Keeps.foldr
    | with_reducible apply Keeps.foldlFst
    | split
    | dsimp only
    | assumption

theorem applyStage_keeps {ps : List Part} {o s : State} (h : Keeps ps o s) (hp : [.mp, .sl, .barges, .mr, .tiles, .au, .sn, .lc, .bc, .wd, .sio, .bs, .ty, .regs] ⊆ ps) :
    Keeps ps o (applyStage s) := by
  unfold applyStage
  repeat' first
    | with_reducible exact h
    | with_reducible assumption
    | with_reducible refine Sub.of hp ?_
    | exact rfl
    | intro _
    | with_reducible apply openQuality_keeps
    | with_reducible apply markGap_keeps
    | with_reducible apply brakesCheck_keeps
    | with_reducible apply retestModels_keeps
    | with_reducible apply openBrake_keeps
    | with_reducible apply openSin_keeps
    | with_reducible apply openVal_keeps
    | with_reducible apply openUnit_keeps
    | with_reducible apply openCover_keeps
    | with_reducible apply openStream_keeps
    | with_reducible apply openEntity_keeps
    | with_reducible apply syncFreeze_keeps
    | with_reducible apply openDog_keeps
    | with_reducible apply openEncoder_keeps
    | with_reducible apply openCounters_keeps
    | with_reducible apply openLibrary_keeps
    | with_reducible apply openPosts_keeps
    | with_reducible apply openBanks_keeps
    | with_reducible apply openTile_keeps
    | with_reducible apply openSlots_keeps
    | with_reducible apply openPort_keeps
    | with_reducible apply withStage_keeps
    | with_reducible apply AllNext.next
    | with_reducible apply Keeps.ite
    | with_reducible apply AllNext.ite
    | with_reducible apply Keeps.foldl
    | with_reducible apply Keeps.foldN
    | with_reducible apply Keeps.foldr
    | with_reducible apply Keeps.foldlFst
    | split
    | with_reducible apply Keeps.sn
    | refine Keeps.regsFrom ?_ (Sub.of hp rfl) fun c => ((withStage_keeps (Keeps.refl _ _) (List.Subset.refl _)).canon (h.canon c)).2
    | dsimp only
    | assumption

theorem openStage_keeps {ps : List Part} {o s : State} (h : Keeps ps o s) (hp : [.mp, .sl, .barges, .mr, .tiles, .au, .sn, .lc, .bc, .wd, .sio, .lk, .bs, .ty, .tp, .regs] ⊆ ps) :
    Keeps ps o (openStage s) := by
  unfold openStage
  repeat' first
    | with_reducible exact h
    | with_reducible assumption
    | with_reducible refine Sub.of hp ?_
    | exact rfl
    | intro _
    | with_reducible apply State.setReg_keeps
    | with_reducible apply State.setBit_keeps
    | with_reducible apply keepStopCfg_keeps
    | with_reducible apply applyStage_keeps
    | with_reducible apply AllNext.next
    | with_reducible apply Keeps.ite
    | with_reducible apply AllNext.ite
    | with_reducible apply Keeps.foldl
    | with_reducible apply Keeps.foldN
    | with_reducible apply Keeps.foldr
    | with_reducible apply Keeps.foldlFst
    | split
    | with_reducible apply Keeps.lk
    | dsimp only
    | assumption

theorem lockWrite_keeps {ps : List Part} {o s : State} {a1} {f} (hf : ∀ x, Keeps ps o x → Keeps ps o (f x)) (h : Keeps ps o s) (hp : [.bus, .bc] ⊆ ps) :
    Keeps ps o (lockWrite s a1 f) := by
  unfold lockWrite
  repeat' first
    | with_reducible exact h
    | with_reducible assumption
    | with_reducible refine Sub.of hp ?_
    | exact rfl
    | intro _
    | with_reducible apply State.busError_keeps
    | with_reducible apply State.keeperWrite_keeps
    | with_reducible apply hf
    | with_reducible apply AllNext.next
    | with_reducible apply Keeps.ite
    | with_reducible apply AllNext.ite
    | with_reducible apply Keeps.foldl
    | with_reducible apply Keeps.foldN
    | with_reducible apply Keeps.foldr
    | with_reducible apply Keeps.foldlFst
    | split
    | dsimp only
    | assumption

theorem execLkBegin_keeps {ps : List Part} {o s : State} {a1} (h : Keeps ps o s) (hp : [.bus, .bc, .lk] ⊆ ps) :
    AllNext (execLkBegin a1 s) (Keeps ps o) := by
  unfold execLkBegin
  repeat' first
    | with_reducible exact h
    | with_reducible assumption
    | with_reducible refine Sub.of hp ?_
    | exact rfl
    | intro _
    | with_reducible apply State.busError_keeps
    | with_reducible apply lockWrite_keeps
    | with_reducible apply AllNext.next
    | with_reducible apply Keeps.ite
    | with_reducible apply AllNext.ite
    | with_reducible apply Keeps.foldl
    | with_reducible apply Keeps.foldN
    | with_reducible apply Keeps.foldr
    | with_reducible apply Keeps.foldlFst
    | split
    | with_reducible apply Keeps.lk
    | dsimp only
    | assumption

theorem stageCopy_keeps {ps : List Part} {o s : State} {a1 a2} (h : Keeps ps o s) (hp : [.lk] ⊆ ps) :
    Keeps ps o (stageCopy s a1 a2) := by
  unfold stageCopy
  repeat' first
    | with_reducible exact h
    | with_reducible assumption
    | with_reducible refine Sub.of hp ?_
    | exact rfl
    | intro _
    | with_reducible apply AllNext.next
    | with_reducible apply Keeps.ite
    | with_reducible apply AllNext.ite
    | with_reducible apply Keeps.foldl
    | with_reducible apply Keeps.foldN
    | with_reducible apply Keeps.foldr
    | with_reducible apply Keeps.foldlFst
    | split
    | with_reducible apply Keeps.lk
    | dsimp only
    | assumption

theorem execStagedWrite_keeps {ps : List Part} {o s : State} {a1 a2 a3} (h : Keeps ps o s) (hp : [.bus, .bc, .lk] ⊆ ps) :
    AllNext (execStagedWrite a1 a2 a3 s) (Keeps ps o) := by
  unfold execStagedWrite
  repeat' first
    | with_reducible exact h
    | with_reducible assumption
    | with_reducible refine Sub.of hp ?_
    | exact rfl
    | intro _
    | with_reducible apply State.busError_keeps
    | with_reducible apply stageCopy_keeps
    | with_reducible apply lockWrite_keeps
    | with_reducible apply AllNext.next
    | with_reducible apply Keeps.ite
    | with_reducible apply AllNext.ite
    | with_reducible apply Keeps.foldl
    | with_reducible apply Keeps.foldN
    | with_reducible apply Keeps.foldr
    | with_reducible apply Keeps.foldlFst
    | split
    | dsimp only
    | assumption

theorem execStageExpired_keeps {ps : List Part} {o s : State} (h : Keeps ps o s) (hp : [.lk] ⊆ ps) :
    AllNext (execStageExpired s) (Keeps ps o) := by
  unfold execStageExpired
  repeat' first
    | with_reducible exact h
    | with_reducible assumption
    | with_reducible refine Sub.of hp ?_
    | exact rfl
    | intro _
    | with_reducible apply dropStage_keeps
    | with_reducible apply AllNext.next
    | with_reducible apply Keeps.ite
    | with_reducible apply AllNext.ite
    | with_reducible apply Keeps.foldl
    | with_reducible apply Keeps.foldN
    | with_reducible apply Keeps.foldr
    | with_reducible apply Keeps.foldlFst
    | split
    | dsimp only
    | assumption

theorem execLevelDone_keeps {ps : List Part} {o s : State} (h : Keeps ps o s) (hp : [.lk, .regs] ⊆ ps) :
    AllNext (execLevelDone s) (Keeps ps o) := by
  unfold execLevelDone
  repeat' first
    | with_reducible exact h
    | with_reducible assumption
    | with_reducible refine Sub.of hp ?_
    | exact rfl
    | intro _
    | with_reducible apply State.setReg_keeps
    | with_reducible apply State.setBit_keeps
    | with_reducible apply AllNext.next
    | with_reducible apply Keeps.ite
    | with_reducible apply AllNext.ite
    | with_reducible apply Keeps.foldl
    | with_reducible apply Keeps.foldN
    | with_reducible apply Keeps.foldr
    | with_reducible apply Keeps.foldlFst
    | split
    | with_reducible apply Keeps.lk
    | dsimp only
    | assumption

theorem tryOpen_keeps {ps : List Part} {o s : State} (h : Keeps ps o s) (hp : [.mp, .sl, .barges, .mr, .tiles, .au, .sn, .lc, .bc, .wd, .sio, .lk, .bs, .ty, .tp, .regs] ⊆ ps) :
    Keeps ps o (tryOpen s) := by
  unfold tryOpen
  repeat' first
    | with_reducible exact h
    | with_reducible assumption
    | with_reducible refine Sub.of hp ?_
    | exact rfl
    | intro _
    | with_reducible apply openStage_keeps
    | with_reducible apply AllNext.next
    | with_reducible apply Keeps.ite
    | with_reducible apply AllNext.ite
    | with_reducible apply Keeps.foldl
    | with_reducible apply Keeps.foldN
    | with_reducible apply Keeps.foldr
    | with_reducible apply Keeps.foldlFst
    | split
    | with_reducible apply Keeps.lk
    | dsimp only
    | assumption

theorem execLkLevel_keeps {ps : List Part} {o s : State} {a1} (h : Keeps ps o s) (hp : [.bus, .bc, .lk] ⊆ ps) :
    AllNext (execLkLevel a1 s) (Keeps ps o) := by
  unfold execLkLevel
  repeat' first
    | with_reducible exact h
    | with_reducible assumption
    | with_reducible refine Sub.of hp ?_
    | exact rfl
    | intro _
    | with_reducible apply State.busError_keeps
    | with_reducible apply lockWrite_keeps
    | with_reducible apply AllNext.next
    | with_reducible apply Keeps.ite
    | with_reducible apply AllNext.ite
    | with_reducible apply Keeps.foldl
    | with_reducible apply Keeps.foldN
    | with_reducible apply Keeps.foldr
    | with_reducible apply Keeps.foldlFst
    | split
    | with_reducible apply Keeps.lk
    | dsimp only
    | assumption

theorem execLkOpen_keeps {ps : List Part} {o s : State} {a1} (h : Keeps ps o s) (hp : [.bus, .mp, .sl, .barges, .mr, .tiles, .au, .sn, .lc, .bc, .wd, .sio, .lk, .bs, .ty, .tp, .regs] ⊆ ps) :
    AllNext (execLkOpen a1 s) (Keeps ps o) := by
  unfold execLkOpen
  repeat' first
    | with_reducible exact h
    | with_reducible assumption
    | with_reducible refine Sub.of hp ?_
    | exact rfl
    | intro _
    | with_reducible apply tryOpen_keeps
    | with_reducible apply State.busError_keeps
    | with_reducible apply lockWrite_keeps
    | with_reducible apply AllNext.next
    | with_reducible apply Keeps.ite
    | with_reducible apply AllNext.ite
    | with_reducible apply Keeps.foldl
    | with_reducible apply Keeps.foldN
    | with_reducible apply Keeps.foldr
    | with_reducible apply Keeps.foldlFst
    | split
    | with_reducible apply Keeps.lk
    | dsimp only
    | assumption

theorem execLkDiscard_keeps {ps : List Part} {o s : State} {a1} (h : Keeps ps o s) (hp : [.bus, .bc, .lk] ⊆ ps) :
    AllNext (execLkDiscard a1 s) (Keeps ps o) := by
  unfold execLkDiscard
  repeat' first
    | with_reducible exact h
    | with_reducible assumption
    | with_reducible refine Sub.of hp ?_
    | exact rfl
    | intro _
    | with_reducible apply State.busError_keeps
    | with_reducible apply dropStage_keeps
    | with_reducible apply lockWrite_keeps
    | with_reducible apply AllNext.next
    | with_reducible apply Keeps.ite
    | with_reducible apply AllNext.ite
    | with_reducible apply Keeps.foldl
    | with_reducible apply Keeps.foldN
    | with_reducible apply Keeps.foldr
    | with_reducible apply Keeps.foldlFst
    | split
    | dsimp only
    | assumption

end Sys2Proof.Machine
end

