-- ==== Sys2Proof/Laws/KeepsMemory.lean ====
section
/-! SUPPORT. Laws/KeepsMemory.lean: which parts of the state each operation of Machine/Memory.lean can change. -/

namespace Sys2Proof.Machine

theorem marchStat_keeps {ps : List Part} {o s : State} {a1 a2 a3} (h : Keeps ps o s) (hp : [.regs] ⊆ ps) :
    Keeps ps o (marchStat s a1 a2 a3) := by
  unfold marchStat
  repeat' first
    | with_reducible exact h
    | with_reducible assumption
    | with_reducible refine Sub.of hp ?_
    | exact rfl
    | intro _
    | with_reducible apply State.setReg_keeps
    | with_reducible apply AllNext.next
    | with_reducible apply Keeps.ite
    | with_reducible apply AllNext.ite
    | with_reducible apply Keeps.foldl
    | with_reducible apply Keeps.foldN
    | with_reducible apply Keeps.foldr
    | with_reducible apply Keeps.foldlFst
    | split
    | dsimp only
    | assumption

theorem updBs_keeps {ps : List Part} {o s : State} {a1} (h : Keeps ps o s) (hp : [.bs] ⊆ ps) :
    Keeps ps o (updBs s a1) := by
  unfold updBs
  repeat' first
    | with_reducible exact h
    | with_reducible assumption
    | with_reducible refine Sub.of hp ?_
    | exact rfl
    | intro _
    | with_reducible apply AllNext.next
    | with_reducible apply Keeps.ite
    | with_reducible apply AllNext.ite
    | with_reducible apply Keeps.foldl
    | with_reducible apply Keeps.foldN
    | with_reducible apply Keeps.foldr
    | with_reducible apply Keeps.foldlFst
    | split
    | with_reducible apply Keeps.bs
    | dsimp only
    | assumption

theorem marchEnds_keeps {ps : List Part} {o s : State} {a1 a2 a3} (h : Keeps ps o s) (hp : [.bs, .regs] ⊆ ps) :
    Keeps ps o (marchEnds s a1 a2 a3) := by
  unfold marchEnds
  repeat' first
    | with_reducible exact h
    | with_reducible assumption
    | with_reducible refine Sub.of hp ?_
    | exact rfl
    | intro _
    | with_reducible apply marchStat_keeps
    | with_reducible apply State.setBit_keeps
    | with_reducible apply State.setReg_keeps
    | with_reducible apply updBs_keeps
    | with_reducible apply AllNext.next
    | with_reducible apply Keeps.ite
    | with_reducible apply AllNext.ite
    | with_reducible apply Keeps.foldl
    | with_reducible apply Keeps.foldN
    | with_reducible apply Keeps.foldr
    | with_reducible apply Keeps.foldlFst
    | split
    | dsimp only
    | assumption

theorem marchFailed_keeps {ps : List Part} {o s : State} {a1 a2 a3} (h : Keeps ps o s) (hp : [.barges, .mr, .lc, .bc, .wr, .bs, .regs] ⊆ ps) :
    Keeps ps o (marchFailed s a1 a2 a3) := by
  unfold marchFailed
  repeat' first
    | with_reducible exact h
    | with_reducible assumption
    | with_reducible refine Sub.of hp ?_
    | exact rfl
    | intro _
    | with_reducible apply startFail_keeps
    | with_reducible apply State.raise_keeps
    | with_reducible apply updBank_keeps
    | with_reducible apply marchEnds_keeps
    | with_reducible apply AllNext.next
    | with_reducible apply Keeps.ite
    | with_reducible apply AllNext.ite
    | with_reducible apply Keeps.foldl
    | with_reducible apply Keeps.foldN
    | with_reducible apply Keeps.foldr
    | with_reducible apply Keeps.foldlFst
    | split
    | dsimp only
    | assumption

theorem chipUncorrectable_keeps {ps : List Part} {o s : State} {a1 a2} (h : Keeps ps o s) (hp : [.barges, .tiles, .au, .sn, .lc, .bc, .regs] ⊆ ps) :
    Keeps ps o (chipUncorrectable s a1 a2) := by
  unfold chipUncorrectable
  repeat' first
    | with_reducible exact h
    | with_reducible assumption
    | with_reducible refine Sub.of hp ?_
    | exact rfl
    | intro _
    | with_reducible apply tileFault_keeps
    | with_reducible apply State.setReg_keeps
    | with_reducible apply basinUncorrectable_keeps
    | with_reducible apply State.raise_keeps
    | with_reducible apply AllNext.next
    | with_reducible apply Keeps.ite
    | with_reducible apply AllNext.ite
    | with_reducible apply Keeps.foldl
    | with_reducible apply Keeps.foldN
    | with_reducible apply Keeps.foldr
    | with_reducible apply Keeps.foldlFst
    | split
    | dsimp only
    | assumption

theorem chipCorrected_keeps {ps : List Part} {o s : State} {a1} (h : Keeps ps o s) (hp : [.bc, .ln, .regs] ⊆ ps) :
    Keeps ps o (chipCorrected s a1) := by
  unfold chipCorrected
  repeat' first
    | with_reducible exact h
    | with_reducible assumption
    | with_reducible refine Sub.of hp ?_
    | exact rfl
    | intro _
    | with_reducible apply tileCorrected_keeps
    | with_reducible apply basinCorrected_keeps
    | with_reducible apply State.satAdd_keeps
    | with_reducible apply State.raise_keeps
    | with_reducible apply AllNext.next
    | with_reducible apply Keeps.ite
    | with_reducible apply AllNext.ite
    | with_reducible apply Keeps.foldl
    | with_reducible apply Keeps.foldN
    | with_reducible apply Keeps.foldr
    | with_reducible apply Keeps.foldlFst
    | split
    | dsimp only
    | assumption

theorem readData_keeps {ps : List Part} {o s : State} {a1 a2} (h : Keeps ps o s) (hp : [.bus] ⊆ ps) :
    Keeps ps o (readData s a1 a2) := by
  unfold readData
  repeat' first
    | with_reducible exact h
    | with_reducible assumption
    | with_reducible refine Sub.of hp ?_
    | exact rfl
    | intro _
    | with_reducible apply State.busOk_keeps
    | with_reducible apply AllNext.next
    | with_reducible apply Keeps.ite
    | with_reducible apply AllNext.ite
    | with_reducible apply Keeps.foldl
    | with_reducible apply Keeps.foldN
    | with_reducible apply Keeps.foldr
    | with_reducible apply Keeps.foldlFst
    | split
    | dsimp only
    | assumption

theorem setMtimer_keeps {ps : List Part} {o s : State} {a1 a2} (h : Keeps ps o s) (hp : [.kc] ⊆ ps) :
    Keeps ps o (setMtimer s a1 a2) := by
  unfold setMtimer
  repeat' first
    | with_reducible exact h
    | with_reducible assumption
    | with_reducible refine Sub.of hp ?_
    | exact rfl
    | intro _
    | with_reducible apply AllNext.next
    | with_reducible apply Keeps.ite
    | with_reducible apply AllNext.ite
    | with_reducible apply Keeps.foldl
    | with_reducible apply Keeps.foldN
    | with_reducible apply Keeps.foldr
    | with_reducible apply Keeps.foldlFst
    | split
    | with_reducible apply Keeps.kc
    | dsimp only
    | assumption

theorem platformServe_keeps {ps : List Part} {o s : State} {a1 a2} (h : Keeps ps o s) (hp : [.bus, .kc] ⊆ ps) :
    Keeps ps o (platformServe s a1 a2) := by
  unfold platformServe
  repeat' first
    | with_reducible exact h
    | with_reducible assumption
    | with_reducible refine Sub.of hp ?_
    | exact rfl
    | intro _
    | with_reducible apply State.free_keeps
    | with_reducible apply setMtimer_keeps
    | with_reducible apply State.busOk_keeps
    | with_reducible apply AllNext.next
    | with_reducible apply Keeps.ite
    | with_reducible apply AllNext.ite
    | with_reducible apply Keeps.foldl
    | with_reducible apply Keeps.foldN
    | with_reducible apply Keeps.foldr
    | with_reducible apply Keeps.foldlFst
    | split
    | dsimp only
    | assumption

theorem chipServe_keeps {ps : List Part} {o s : State} {a1 a2 a3} (h : Keeps ps o s) (hp : [.bus, .tiles, .kc, .ports, .mem] ⊆ ps) :
    Keeps ps o (chipServe s a1 a2 a3) := by
  unfold chipServe
  repeat' first
    | with_reducible exact h
    | with_reducible assumption
    | with_reducible refine Sub.of hp ?_
    | exact rfl
    | intro _
    | with_reducible apply State.store_keeps
    | with_reducible apply readData_keeps
    | with_reducible apply sramNet_keeps
    | with_reducible apply platformServe_keeps
    | with_reducible apply State.free_keeps
    | with_reducible apply State.busOk_keeps
    | with_reducible apply AllNext.next
    | with_reducible apply Keeps.ite
    | with_reducible apply AllNext.ite
    | with_reducible apply Keeps.foldl
    | with_reducible apply Keeps.foldN
    | with_reducible apply Keeps.foldr
    | with_reducible apply Keeps.foldlFst
    | split
    | dsimp only
    | assumption

theorem chipAccess_keeps {ps : List Part} {o s : State} {a1 a2 a3 a4 a5} (h : Keeps ps o s) (hp : [.bus, .barges, .tiles, .au, .sn, .lc, .bc, .kc, .ln, .ports, .regs, .mem] ⊆ ps) :
    Keeps ps o (chipAccess s a1 a2 a3 a4 a5) := by
  unfold chipAccess
  repeat' first
    | with_reducible exact h
    | with_reducible assumption
    | with_reducible refine Sub.of hp ?_
    | exact rfl
    | intro _
    | with_reducible apply chipUncorrectable_keeps
    | with_reducible apply State.busError_keeps
    | with_reducible apply chipCorrected_keeps
    | with_reducible apply chipServe_keeps
    | with_reducible apply AllNext.next
    | with_reducible apply Keeps.ite
    | with_reducible apply AllNext.ite
    | with_reducible apply Keeps.foldl
    | with_reducible apply Keeps.foldN
    | with_reducible apply Keeps.foldr
    | with_reducible apply Keeps.foldlFst
    | split
    | dsimp only
    | assumption

theorem serveOne_keeps {ps : List Part} {o s : State} {a1} (h : Keeps ps o s) (hp : [.bus, .barges, .tiles, .au, .sn, .lc, .bc, .bs, .kc, .ln, .ports, .regs, .mem] ⊆ ps) :
    Keeps ps o (serveOne s a1) := by
  unfold serveOne
  repeat' first
    | with_reducible exact h
    | with_reducible assumption
    | with_reducible refine Sub.of hp ?_
    | exact rfl
    | intro _
    | with_reducible apply chipAccess_keeps
    | with_reducible apply State.busError_keeps
    | with_reducible apply updBs_keeps
    | with_reducible apply AllNext.next
    | with_reducible apply Keeps.ite
    | with_reducible apply AllNext.ite
    | with_reducible apply Keeps.foldl
    | with_reducible apply Keeps.foldN
    | with_reducible apply Keeps.foldr
    | with_reducible apply Keeps.foldlFst
    | split
    | dsimp only
    | assumption

theorem serveBasin_keeps {ps : List Part} {o s : State} (h : Keeps ps o s) (hp : [.bus, .barges, .tiles, .au, .sn, .lc, .bc, .bs, .kc, .ln, .ports, .regs, .mem] ⊆ ps) :
    Keeps ps o (serveBasin s) := by
  unfold serveBasin
  repeat' first
    | with_reducible exact h
    | with_reducible assumption
    | with_reducible refine Sub.of hp ?_
    | exact rfl
    | intro _
    | with_reducible apply updBs_keeps
    | with_reducible apply serveOne_keeps
    | with_reducible apply AllNext.next
    | with_reducible apply Keeps.ite
    | with_reducible apply AllNext.ite
    | with_reducible apply Keeps.foldl
    | with_reducible apply Keeps.foldN
    | with_reducible apply Keeps.foldr
    | with_reducible apply Keeps.foldlFst
    | split
    | dsimp only
    | assumption

theorem handoverRefused_keeps {ps : List Part} {o s : State} {a1 a2 a3} (h : Keeps ps o s) (hp : [.bus, .bc, .bs, .regs] ⊆ ps) :
    Keeps ps o (handoverRefused s a1 a2 a3) := by
  unfold handoverRefused
  repeat' first
    | with_reducible exact h
    | with_reducible assumption
    | with_reducible refine Sub.of hp ?_
    | exact rfl
    | intro _
    | with_reducible apply updBank_keeps
    | with_reducible apply State.busError_keeps
    | with_reducible apply State.setBit_keeps
    | with_reducible apply State.raise_keeps
    | with_reducible apply AllNext.next
    | with_reducible apply Keeps.ite
    | with_reducible apply AllNext.ite
    | with_reducible apply Keeps.foldl
    | with_reducible apply Keeps.foldN
    | with_reducible apply Keeps.foldr
    | with_reducible apply Keeps.foldlFst
    | split
    | dsimp only
    | assumption

theorem execZqCalibration_keeps {ps : List Part} {o s : State} {a1 a2} (h : Keeps ps o s) (hp : [.bc, .hd, .ln, .regs] ⊆ ps) :
    AllNext (execZqCalibration a1 a2 s) (Keeps ps o) := by
  unfold execZqCalibration
  repeat' first
    | with_reducible exact h
    | with_reducible assumption
    | with_reducible refine Sub.of hp ?_
    | exact rfl
    | intro _
    | with_reducible apply lnErr_keeps
    | with_reducible apply State.satAdd_keeps
    | with_reducible apply State.raise_keeps
    | with_reducible apply updHd_keeps
    | with_reducible apply AllNext.next
    | with_reducible apply Keeps.ite
    | with_reducible apply AllNext.ite
    | with_reducible apply Keeps.foldl
    | with_reducible apply Keeps.foldN
    | with_reducible apply Keeps.foldr
    | with_reducible apply Keeps.foldlFst
    | split
    | dsimp only
    | assumption

theorem bankLost_keeps {ps : List Part} {o s : State} {a1} (h : Keeps ps o s) (hp : [.regs] ⊆ ps) :
    Keeps ps o (bankLost s a1) := by
  unfold bankLost
  repeat' first
    | with_reducible exact h
    | with_reducible assumption
    | with_reducible refine Sub.of hp ?_
    | exact rfl
    | intro _
    | with_reducible apply State.setBit_keeps
    | with_reducible apply AllNext.next
    | with_reducible apply Keeps.ite
    | with_reducible apply AllNext.ite
    | with_reducible apply Keeps.foldl
    | with_reducible apply Keeps.foldN
    | with_reducible apply Keeps.foldr
    | with_reducible apply Keeps.foldlFst
    | split
    | dsimp only
    | assumption

theorem execMarchSegmentDone_keeps {ps : List Part} {o s : State} {a1 a2} (h : Keeps ps o s) (hp : [.bus, .barges, .mr, .tiles, .au, .sn, .lc, .bc, .wr, .bs, .kc, .ln, .ports, .regs, .mem] ⊆ ps) :
    AllNext (execMarchSegmentDone a1 a2 s) (Keeps ps o) := by
  unfold execMarchSegmentDone
  repeat' first
    | with_reducible exact h
    | with_reducible assumption
    | with_reducible refine Sub.of hp ?_
    | exact rfl
    | intro _
    | with_reducible apply startFail_keeps
    | with_reducible apply marchEnds_keeps
    | with_reducible apply State.raise_keeps
    | with_reducible apply bankLost_keeps
    | with_reducible apply updBs_keeps
    | with_reducible apply serveBasin_keeps
    | with_reducible apply AllNext.next
    | with_reducible apply Keeps.ite
    | with_reducible apply AllNext.ite
    | with_reducible apply Keeps.foldl
    | with_reducible apply Keeps.foldN
    | with_reducible apply Keeps.foldr
    | with_reducible apply Keeps.foldlFst
    | split
    | dsimp only
    | assumption

theorem accessWaits_keeps {ps : List Part} {o s : State} (h : Keeps ps o s) (hp : [.bus] ⊆ ps) :
    Keeps ps o (accessWaits s) := by
  unfold accessWaits
  repeat' first
    | with_reducible exact h
    | with_reducible assumption
    | with_reducible refine Sub.of hp ?_
    | exact rfl
    | intro _
    | with_reducible apply AllNext.next
    | with_reducible apply Keeps.ite
    | with_reducible apply AllNext.ite
    | with_reducible apply Keeps.foldl
    | with_reducible apply Keeps.foldN
    | with_reducible apply Keeps.foldr
    | with_reducible apply Keeps.foldlFst
    | split
    | with_reducible apply Keeps.bus
    | dsimp only
    | assumption

theorem basinAccess_keeps {ps : List Part} {o s : State} {a1 a2 a3 a4} (h : Keeps ps o s) (hp : [.bus, .barges, .tiles, .au, .sn, .lc, .bc, .bs, .kc, .ln, .ports, .regs, .mem] ⊆ ps) :
    Keeps ps o (basinAccess a1 a2 a3 a4 s) := by
  unfold basinAccess
  repeat' first
    | with_reducible exact h
    | with_reducible assumption
    | with_reducible refine Sub.of hp ?_
    | exact rfl
    | intro _
    | with_reducible apply chipAccess_keeps
    | with_reducible apply accessWaits_keeps
    | with_reducible apply updBs_keeps
    | with_reducible apply State.busError_keeps
    | with_reducible apply bankRefusal_keeps
    | with_reducible apply AllNext.next
    | with_reducible apply Keeps.ite
    | with_reducible apply AllNext.ite
    | with_reducible apply Keeps.foldl
    | with_reducible apply Keeps.foldN
    | with_reducible apply Keeps.foldr
    | with_reducible apply Keeps.foldlFst
    | split
    | dsimp only
    | assumption

theorem execOnChipSramAccess_keeps {ps : List Part} {o s : State} {a1 a2 a3 a4} (h : Keeps ps o s) (hp : [.bus, .barges, .tiles, .au, .sn, .lc, .bc, .bs, .kc, .ln, .ports, .regs, .mem] ⊆ ps) :
    AllNext (execOnChipSramAccess a1 a2 a3 a4 s) (Keeps ps o) := by
  unfold execOnChipSramAccess
  repeat' first
    | with_reducible exact h
    | with_reducible assumption
    | with_reducible refine Sub.of hp ?_
    | exact rfl
    | intro _
    | with_reducible apply State.setBit_keeps
    | with_reducible apply State.raise_keeps
    | with_reducible apply State.busError_keeps
    | with_reducible apply chipAccess_keeps
    | with_reducible apply basinAccess_keeps
    | with_reducible apply State.refuse_keeps
    | with_reducible apply AllNext.next
    | with_reducible apply Keeps.ite
    | with_reducible apply AllNext.ite
    | with_reducible apply Keeps.foldl
    | with_reducible apply Keeps.foldN
    | with_reducible apply Keeps.foldr
    | with_reducible apply Keeps.foldlFst
    | split
    | dsimp only
    | assumption

theorem holdServe_keeps {ps : List Part} {o s : State} {a1 a2} (h : Keeps ps o s) (hp : [.bus, .sn, .se, .hd, .ln, .regs, .mem] ⊆ ps) :
    Keeps ps o (holdServe s a1 a2) := by
  unfold holdServe
  repeat' first
    | with_reducible exact h
    | with_reducible assumption
    | with_reducible refine Sub.of hp ?_
    | exact rfl
    | intro _
    | with_reducible apply putHold_keeps
    | with_reducible apply State.busOk_keeps
    | with_reducible apply holdBytes_keeps
    | with_reducible apply readData_keeps
    | with_reducible apply AllNext.next
    | with_reducible apply Keeps.ite
    | with_reducible apply AllNext.ite
    | with_reducible apply Keeps.foldl
    | with_reducible apply Keeps.foldN
    | with_reducible apply Keeps.foldr
    | with_reducible apply Keeps.foldlFst
    | split
    | dsimp only
    | assumption

theorem holdAdmitted_keeps {ps : List Part} {o s : State} {a1 a2 a3 a4} (h : Keeps ps o s) (hp : [.bus, .sn, .bc, .se, .hd, .ln, .regs, .mem] ⊆ ps) :
    Keeps ps o (holdAdmitted a1 a2 a3 a4 s) := by
  unfold holdAdmitted
  repeat' first
    | with_reducible exact h
    | with_reducible assumption
    | with_reducible refine Sub.of hp ?_
    | exact rfl
    | intro _
    | with_reducible apply holdUncorrectable_keeps
    | with_reducible apply holdCorrected_keeps
    | with_reducible apply holdServe_keeps
    | with_reducible apply State.busError_keeps
    | with_reducible apply holdRefusal_keeps
    | with_reducible apply AllNext.next
    | with_reducible apply Keeps.ite
    | with_reducible apply AllNext.ite
    | with_reducible apply Keeps.foldl
    | with_reducible apply Keeps.foldN
    | with_reducible apply Keeps.foldr
    | with_reducible apply Keeps.foldlFst
    | split
    | dsimp only
    | assumption

theorem serveHold_keeps {ps : List Part} {o s : State} (h : Keeps ps o s) (hp : [.bus, .sn, .bc, .se, .hd, .ln, .regs, .mem] ⊆ ps) :
    Keeps ps o (serveHold s) := by
  unfold serveHold
  repeat' first
    | with_reducible exact h
    | with_reducible assumption
    | with_reducible refine Sub.of hp ?_
    | exact rfl
    | intro _
    | with_reducible apply updHd_keeps
    | with_reducible apply holdAdmitted_keeps
    | with_reducible apply AllNext.next
    | with_reducible apply Keeps.ite
    | with_reducible apply AllNext.ite
    | with_reducible apply Keeps.foldl
    | with_reducible apply Keeps.foldN
    | with_reducible apply Keeps.foldr
    | with_reducible apply Keeps.foldlFst
    | split
    | dsimp only
    | assumption

theorem scrubNext_keeps {ps : List Part} {o s : State} (h : Keeps ps o s) (hp : [.hd, .regs] ⊆ ps) :
    Keeps ps o (scrubNext s) := by
  unfold scrubNext
  repeat' first
    | with_reducible exact h
    | with_reducible assumption
    | with_reducible refine Sub.of hp ?_
    | exact rfl
    | intro _
    | with_reducible apply State.wrapInc_keeps
    | with_reducible apply State.setBit_keeps
    | with_reducible apply updHd_keeps
    | with_reducible apply AllNext.next
    | with_reducible apply Keeps.ite
    | with_reducible apply AllNext.ite
    | with_reducible apply Keeps.foldl
    | with_reducible apply Keeps.foldN
    | with_reducible apply Keeps.foldr
    | with_reducible apply Keeps.foldlFst
    | split
    | dsimp only
    | assumption

theorem execScrubRead_keeps {ps : List Part} {o s : State} {a1} (h : Keeps ps o s) (hp : [.bc, .hd, .ln, .regs] ⊆ ps) :
    AllNext (execScrubRead a1 s) (Keeps ps o) := by
  unfold execScrubRead
  repeat' first
    | with_reducible exact h
    | with_reducible assumption
    | with_reducible refine Sub.of hp ?_
    | exact rfl
    | intro _
    | with_reducible apply holdUncorrectable_keeps
    | with_reducible apply holdCorrected_keeps
    | with_reducible apply scrubNext_keeps
    | with_reducible apply AllNext.next
    | with_reducible apply Keeps.ite
    | with_reducible apply AllNext.ite
    | with_reducible apply Keeps.foldl
    | with_reducible apply Keeps.foldN
    | with_reducible apply Keeps.foldr
    | with_reducible apply Keeps.foldlFst
    | split
    | dsimp only
    | assumption

theorem execBankHandoverRequest_keeps {ps : List Part} {o s : State} {a1 a2 a3} (h : Keeps ps o s) (hp : [.bus, .bc, .bs, .regs] ⊆ ps) :
    AllNext (execBankHandoverRequest a1 a2 a3 s) (Keeps ps o) := by
  unfold execBankHandoverRequest
  repeat' first
    | with_reducible exact h
    | with_reducible assumption
    | with_reducible refine Sub.of hp ?_
    | exact rfl
    | intro _
    | with_reducible apply updBank_keeps
    | with_reducible apply State.setReg_keeps
    | with_reducible apply handoverRefused_keeps
    | with_reducible apply State.openWrite_keeps
    | with_reducible apply AllNext.next
    | with_reducible apply Keeps.ite
    | with_reducible apply AllNext.ite
    | with_reducible apply Keeps.foldl
    | with_reducible apply Keeps.foldN
    | with_reducible apply Keeps.foldr
    | with_reducible apply Keeps.foldlFst
    | split
    | dsimp only
    | assumption

theorem execBankHandoverComplete_keeps {ps : List Part} {o s : State} {a1} (h : Keeps ps o s) (hp : [.bs, .regs, .mem] ⊆ ps) :
    AllNext (execBankHandoverComplete a1 s) (Keeps ps o) := by
  unfold execBankHandoverComplete
  repeat' first
    | with_reducible exact h
    | with_reducible assumption
    | with_reducible refine Sub.of hp ?_
    | exact rfl
    | intro _
    | with_reducible apply State.setBit_keeps
    | with_reducible apply State.wipe_keeps
    | with_reducible apply updBank_keeps
    | with_reducible apply AllNext.next
    | with_reducible apply Keeps.ite
    | with_reducible apply AllNext.ite
    | with_reducible apply Keeps.foldl
    | with_reducible apply Keeps.foldN
    | with_reducible apply Keeps.foldr
    | with_reducible apply Keeps.foldlFst
    | split
    | dsimp only
    | assumption

theorem beginMarch_keeps {ps : List Part} {o s : State} {a1 a2} (h : Keeps ps o s) (hp : [.bs, .regs] ⊆ ps) :
    Keeps ps o (beginMarch s a1 a2) := by
  unfold beginMarch
  repeat' first
    | with_reducible exact h
    | with_reducible assumption
    | with_reducible refine Sub.of hp ?_
    | exact rfl
    | intro _
    | with_reducible apply State.setReg_keeps
    | with_reducible apply updBs_keeps
    | with_reducible apply AllNext.next
    | with_reducible apply Keeps.ite
    | with_reducible apply AllNext.ite
    | with_reducible apply Keeps.foldl
    | with_reducible apply Keeps.foldN
    | with_reducible apply Keeps.foldr
    | with_reducible apply Keeps.foldlFst
    | split
    | dsimp only
    | assumption

theorem marchGoesOn_keeps {ps : List Part} {o s : State} {a1} (h : Keeps ps o s) (hp : [.bs, .regs] ⊆ ps) :
    Keeps ps o (marchGoesOn s a1) := by
  unfold marchGoesOn
  repeat' first
    | with_reducible exact h
    | with_reducible assumption
    | with_reducible refine Sub.of hp ?_
    | exact rfl
    | intro _
    | with_reducible apply beginMarch_keeps
    | with_reducible apply AllNext.next
    | with_reducible apply Keeps.ite
    | with_reducible apply AllNext.ite
    | with_reducible apply Keeps.foldl
    | with_reducible apply Keeps.foldN
    | with_reducible apply Keeps.foldr
    | with_reducible apply Keeps.foldlFst
    | split
    | dsimp only
    | assumption

theorem execMarchDone_keeps {ps : List Part} {o s : State} {a1 a2} (h : Keeps ps o s) (hp : [.barges, .mr, .lc, .bc, .wr, .bs, .regs, .mem] ⊆ ps) :
    AllNext (execMarchDone a1 a2 s) (Keeps ps o) := by
  unfold execMarchDone
  repeat' first
    | with_reducible exact h
    | with_reducible assumption
    | with_reducible refine Sub.of hp ?_
    | exact rfl
    | intro _
    | with_reducible apply marchFailed_keeps
    | with_reducible apply marchEnds_keeps
    | with_reducible apply marchGoesOn_keeps
    | with_reducible apply State.wipe_keeps
    | with_reducible apply AllNext.next
    | with_reducible apply Keeps.ite
    | with_reducible apply AllNext.ite
    | with_reducible apply Keeps.foldl
    | with_reducible apply Keeps.foldN
    | with_reducible apply Keeps.foldr
    | with_reducible apply Keeps.foldlFst
    | split
    | dsimp only
    | assumption

theorem execRecorderPlanAppend_keeps {ps : List Part} {o s : State} {a1 a2 a3} (h : Keeps ps o s) (hp : [.bus, .sn, .bc, .se, .hd, .ln, .regs, .mem] ⊆ ps) :
    AllNext (execRecorderPlanAppend a1 a2 a3 s) (Keeps ps o) := by
  unfold execRecorderPlanAppend
  repeat' first
    | with_reducible exact h
    | with_reducible assumption
    | with_reducible refine Sub.of hp ?_
    | exact rfl
    | intro _
    | with_reducible apply logSlot_keeps
    | with_reducible apply slotLost_keeps
    | with_reducible apply State.setReg_keeps
    | with_reducible apply State.keeperWrite_keeps
    | with_reducible apply AllNext.next
    | with_reducible apply Keeps.ite
    | with_reducible apply AllNext.ite
    | with_reducible apply Keeps.foldl
    | with_reducible apply Keeps.foldN
    | with_reducible apply Keeps.foldr
    | with_reducible apply Keeps.foldlFst
    | split
    | dsimp only
    | assumption

theorem holdAccess_keeps {ps : List Part} {o s : State} {a1 a2 a3 a4} (h : Keeps ps o s) (hp : [.bus, .sn, .bc, .se, .hd, .ln, .regs, .mem] ⊆ ps) :
    Keeps ps o (holdAccess a1 a2 a3 a4 s) := by
  unfold holdAccess
  repeat' first
    | with_reducible exact h
    | with_reducible assumption
    | with_reducible refine Sub.of hp ?_
    | exact rfl
    | intro _
    | with_reducible apply holdAdmitted_keeps
    | with_reducible apply accessWaits_keeps
    | with_reducible apply updHd_keeps
    | with_reducible apply State.refuse_keeps
    | with_reducible apply AllNext.next
    | with_reducible apply Keeps.ite
    | with_reducible apply AllNext.ite
    | with_reducible apply Keeps.foldl
    | with_reducible apply Keeps.foldN
    | with_reducible apply Keeps.foldr
    | with_reducible apply Keeps.foldlFst
    | split
    | dsimp only
    | assumption

theorem execHoldAccess_keeps {ps : List Part} {o s : State} {a1 a2 a3 a4} (h : Keeps ps o s) (hp : [.bus, .sn, .bc, .se, .hd, .ln, .regs, .mem] ⊆ ps) :
    AllNext (execHoldAccess a1 a2 a3 a4 s) (Keeps ps o) := by
  unfold execHoldAccess
  repeat' first
    | with_reducible exact h
    | with_reducible assumption
    | with_reducible refine Sub.of hp ?_
    | exact rfl
    | intro _
    | with_reducible apply holdAccess_keeps
    | with_reducible apply AllNext.next
    | with_reducible apply Keeps.ite
    | with_reducible apply AllNext.ite
    | with_reducible apply Keeps.foldl
    | with_reducible apply Keeps.foldN
    | with_reducible apply Keeps.foldr
    | with_reducible apply Keeps.foldlFst
    | split
    | dsimp only
    | assumption

theorem execBsLostClr_keeps {ps : List Part} {o s : State} {a1 a2} (h : Keeps ps o s) (hp : [.bus, .bc, .regs] ⊆ ps) :
    AllNext (execBsLostClr a1 a2 s) (Keeps ps o) := by
  unfold execBsLostClr
  repeat' first
    | with_reducible exact h
    | with_reducible assumption
    | with_reducible refine Sub.of hp ?_
    | exact rfl
    | intro _
    | with_reducible apply State.clearReg_keeps
    | with_reducible apply State.keeperWrite_keeps
    | with_reducible apply AllNext.next
    | with_reducible apply Keeps.ite
    | with_reducible apply AllNext.ite
    | with_reducible apply Keeps.foldl
    | with_reducible apply Keeps.foldN
    | with_reducible apply Keeps.foldr
    | with_reducible apply Keeps.foldlFst
    | split
    | dsimp only
    | assumption

theorem execRefreshRateCheck_keeps {ps : List Part} {o s : State} {a1 a2} (h : Keeps ps o s) (hp : [.bc, .hd, .ln, .regs] ⊆ ps) :
    AllNext (execRefreshRateCheck a1 a2 s) (Keeps ps o) := by
  unfold execRefreshRateCheck
  repeat' first
    | with_reducible exact h
    | with_reducible assumption
    | with_reducible refine Sub.of hp ?_
    | exact rfl
    | intro _
    | with_reducible apply lnErr_keeps
    | with_reducible apply State.setBit_keeps
    | with_reducible apply State.level_keeps
    | with_reducible apply updHd_keeps
    | with_reducible apply AllNext.next
    | with_reducible apply Keeps.ite
    | with_reducible apply AllNext.ite
    | with_reducible apply Keeps.foldl
    | with_reducible apply Keeps.foldN
    | with_reducible apply Keeps.foldr
    | with_reducible apply Keeps.foldlFst
    | split
    | dsimp only
    | assumption

theorem execMarchStart_keeps {ps : List Part} {o s : State} {a1 a2} (h : Keeps ps o s) (hp : [.bus, .bc, .bs, .regs] ⊆ ps) :
    AllNext (execMarchStart a1 a2 s) (Keeps ps o) := by
  unfold execMarchStart
  repeat' first
    | with_reducible exact h
    | with_reducible assumption
    | with_reducible refine Sub.of hp ?_
    | exact rfl
    | intro _
    | with_reducible apply beginMarch_keeps
    | with_reducible apply State.busError_keeps
    | with_reducible apply marchStat_keeps
    | with_reducible apply State.openWrite_keeps
    | with_reducible apply AllNext.next
    | with_reducible apply Keeps.ite
    | with_reducible apply AllNext.ite
    | with_reducible apply Keeps.foldl
    | with_reducible apply Keeps.foldN
    | with_reducible apply Keeps.foldr
    | with_reducible apply Keeps.foldlFst
    | split
    | dsimp only
    | assumption

end Sys2Proof.Machine
end

