-- ==== Sys2Proof/Laws/KeepsMirror.lean ====
section
/-! SUPPORT. Laws/KeepsMirror.lean: which parts of the state each operation of Machine/Mirror.lean can change. -/

namespace Sys2Proof.Machine

theorem mirrorEvent_keeps {ps : List Part} {o s : State} {a1 a2 a3 a4} (h : Keeps ps o s) (hp : [.bc, .regs] ⊆ ps) :
    Keeps ps o (mirrorEvent s a1 a2 a3 a4) := by
  unfold mirrorEvent
  repeat' first
    | with_reducible exact h
    | with_reducible assumption
    | with_reducible refine Sub.of hp ?_
    | exact rfl
    | intro _
    | with_reducible apply State.setBit_keeps
    | with_reducible apply State.raiseSyn_keeps
    | with_reducible apply AllNext.next
    | with_reducible apply Keeps.ite
    | with_reducible apply AllNext.ite
    | with_reducible apply Keeps.foldl
    | with_reducible apply Keeps.foldN
    | with_reducible apply Keeps.foldr
    | with_reducible apply Keeps.foldlFst
    | split
    | dsimp only
    | assumption

theorem lampWindow_keeps {ps : List Part} {o s : State} {a1} (h : Keeps ps o s) (hp : [.barges, .lc, .bc, .regs] ⊆ ps) :
    Keeps ps o (lampWindow s a1) := by
  unfold lampWindow
  repeat' first
    | with_reducible exact h
    | with_reducible assumption
    | with_reducible refine Sub.of hp ?_
    | exact rfl
    | intro _
    | with_reducible apply giveTwin_keeps
    | with_reducible apply State.withBarge_keeps
    | with_reducible apply State.updBarge_keeps
    | with_reducible apply AllNext.next
    | with_reducible apply Keeps.ite
    | with_reducible apply AllNext.ite
    | with_reducible apply Keeps.foldl
    | with_reducible apply Keeps.foldN
    | with_reducible apply Keeps.foldr
    | with_reducible apply Keeps.foldlFst
    | split
    | dsimp only
    | assumption

theorem updMi_keeps {ps : List Part} {o s : State} {a1} (h : Keeps ps o s) (hp : [.mi] ⊆ ps) :
    Keeps ps o (updMi s a1) := by
  unfold updMi
  repeat' first
    | with_reducible exact h
    | with_reducible assumption
    | with_reducible refine Sub.of hp ?_
    | exact rfl
    | intro _
    | with_reducible apply AllNext.next
    | with_reducible apply Keeps.ite
    | with_reducible apply AllNext.ite
    | with_reducible apply Keeps.foldl
    | with_reducible apply Keeps.foldN
    | with_reducible apply Keeps.foldr
    | with_reducible apply Keeps.foldlFst
    | split
    | with_reducible apply Keeps.mi
    | dsimp only
    | assumption

theorem storeRec_keeps {ps : List Part} {o s : State} {a1} (h : Keeps ps o s) (hp : [.mi] ⊆ ps) :
    Keeps ps o (storeRec a1 s) := by
  unfold storeRec
  repeat' first
    | with_reducible exact h
    | with_reducible assumption
    | with_reducible refine Sub.of hp ?_
    | exact rfl
    | intro _
    | with_reducible apply updMi_keeps
    | with_reducible apply AllNext.next
    | with_reducible apply Keeps.ite
    | with_reducible apply AllNext.ite
    | with_reducible apply Keeps.foldl
    | with_reducible apply Keeps.foldN
    | with_reducible apply Keeps.foldr
    | with_reducible apply Keeps.foldlFst
    | split
    | dsimp only
    | assumption

theorem execMissingResult_keeps {ps : List Part} {o s : State} {a1} (h : Keeps ps o s) (hp : [.barges, .lc, .bc, .regs] ⊆ ps) :
    AllNext (execMissingResult a1 s) (Keeps ps o) := by
  unfold execMissingResult
  repeat' first
    | with_reducible exact h
    | with_reducible assumption
    | with_reducible refine Sub.of hp ?_
    | exact rfl
    | intro _
    | with_reducible apply State.setBit_keeps
    | with_reducible apply State.raiseFor_keeps
    | with_reducible apply giveTwin_keeps
    | with_reducible apply withEntry_keeps
    | with_reducible apply AllNext.next
    | with_reducible apply Keeps.ite
    | with_reducible apply AllNext.ite
    | with_reducible apply Keeps.foldl
    | with_reducible apply Keeps.foldN
    | with_reducible apply Keeps.foldr
    | with_reducible apply Keeps.foldlFst
    | split
    | dsimp only
    | assumption

theorem mirrorGlintPair_keeps {ps : List Part} {o s : State} {a1 a2 a3} (h : Keeps ps o s) (hp : [.bc, .regs] ⊆ ps) :
    Keeps ps o (mirrorGlintPair a1 a2 a3 s) := by
  unfold mirrorGlintPair
  repeat' first
    | with_reducible exact h
    | with_reducible assumption
    | with_reducible refine Sub.of hp ?_
    | exact rfl
    | intro _
    | with_reducible apply State.raiseSyn_keeps
    | with_reducible apply State.setBit_keeps
    | with_reducible apply State.raise_keeps
    | with_reducible apply AllNext.next
    | with_reducible apply Keeps.ite
    | with_reducible apply AllNext.ite
    | with_reducible apply Keeps.foldl
    | with_reducible apply Keeps.foldN
    | with_reducible apply Keeps.foldr
    | with_reducible apply Keeps.foldlFst
    | split
    | dsimp only
    | assumption

theorem execMirrorGlint_keeps {ps : List Part} {o s : State} {a1} (h : Keeps ps o s) (hp : [.bc, .regs] ⊆ ps) :
    AllNext (execMirrorGlint a1 s) (Keeps ps o) := by
  unfold execMirrorGlint
  repeat' first
    | with_reducible exact h
    | with_reducible assumption
    | with_reducible refine Sub.of hp ?_
    | exact rfl
    | intro _
    | with_reducible apply State.setBit_keeps
    | with_reducible apply State.raise_keeps
    | with_reducible apply mirrorGlintPair_keeps
    | with_reducible apply State.wrapInc_keeps
    | with_reducible apply State.setFld_keeps
    | with_reducible apply glintRan_keeps
    | with_reducible apply AllNext.next
    | with_reducible apply Keeps.ite
    | with_reducible apply AllNext.ite
    | with_reducible apply Keeps.foldl
    | with_reducible apply Keeps.foldN
    | with_reducible apply Keeps.foldr
    | with_reducible apply Keeps.foldlFst
    | split
    | dsimp only
    | assumption

theorem windowDone_keeps {ps : List Part} {o s : State} {a1 a2} (h : Keeps ps o s) (hp : [.barges, .lc, .bc, .regs] ⊆ ps) :
    Keeps ps o (windowDone s a1 a2) := by
  unfold windowDone
  repeat' first
    | with_reducible exact h
    | with_reducible assumption
    | with_reducible refine Sub.of hp ?_
    | exact rfl
    | intro _
    | with_reducible apply giveTwin_keeps
    | with_reducible apply withEntry_keeps
    | with_reducible apply updEntry_keeps
    | with_reducible apply AllNext.next
    | with_reducible apply Keeps.ite
    | with_reducible apply AllNext.ite
    | with_reducible apply Keeps.foldl
    | with_reducible apply Keeps.foldN
    | with_reducible apply Keeps.foldr
    | with_reducible apply Keeps.foldlFst
    | split
    | dsimp only
    | assumption

theorem liveResult_keeps {ps : List Part} {o s : State} {a1 a2 a3 a4 a5} (h : Keeps ps o s) (hp : [.barges, .lc, .bc, .regs] ⊆ ps) :
    Keeps ps o (liveResult s a1 a2 a3 a4 a5) := by
  unfold liveResult
  repeat' first
    | with_reducible exact h
    | with_reducible assumption
    | with_reducible refine Sub.of hp ?_
    | exact rfl
    | intro _
    | with_reducible apply windowDone_keeps
    | with_reducible apply giveTwin_keeps
    | with_reducible apply mirrorEvent_keeps
    | with_reducible apply AllNext.next
    | with_reducible apply Keeps.ite
    | with_reducible apply AllNext.ite
    | with_reducible apply Keeps.foldl
    | with_reducible apply Keeps.foldN
    | with_reducible apply Keeps.foldr
    | with_reducible apply Keeps.foldlFst
    | split
    | dsimp only
    | assumption

theorem deadResult_keeps {ps : List Part} {o s : State} {a1 a2 a3 a4 a5 a6} (h : Keeps ps o s) (hp : [.barges, .lc, .bc, .regs] ⊆ ps) :
    Keeps ps o (deadResult s a1 a2 a3 a4 a5 a6) := by
  unfold deadResult
  repeat' first
    | with_reducible exact h
    | with_reducible assumption
    | with_reducible refine Sub.of hp ?_
    | exact rfl
    | intro _
    | with_reducible apply giveTwin_keeps
    | with_reducible apply State.satAdd_keeps
    | with_reducible apply State.setReg_keeps
    | with_reducible apply mirrorEvent_keeps
    | with_reducible apply AllNext.next
    | with_reducible apply Keeps.ite
    | with_reducible apply AllNext.ite
    | with_reducible apply Keeps.foldl
    | with_reducible apply Keeps.foldN
    | with_reducible apply Keeps.foldr
    | with_reducible apply Keeps.foldlFst
    | split
    | dsimp only
    | assumption

theorem comparePair_keeps {ps : List Part} {o s : State} {a1 a2 a3} (h : Keeps ps o s) (hp : [.barges, .lc, .bc, .regs] ⊆ ps) :
    Keeps ps o (comparePair s a1 a2 a3) := by
  unfold comparePair
  repeat' first
    | with_reducible exact h
    | with_reducible assumption
    | with_reducible refine Sub.of hp ?_
    | exact rfl
    | intro _
    | with_reducible apply liveResult_keeps
    | with_reducible apply deadResult_keeps
    | with_reducible apply AllNext.next
    | with_reducible apply Keeps.ite
    | with_reducible apply AllNext.ite
    | with_reducible apply Keeps.foldl
    | with_reducible apply Keeps.foldN
    | with_reducible apply Keeps.foldr
    | with_reducible apply Keeps.foldlFst
    | split
    | dsimp only
    | assumption

theorem compareLamp_keeps {ps : List Part} {o s : State} {a1 a2 a3 a4} (h : Keeps ps o s) (hp : [.barges, .lc, .bc, .hd, .ln, .regs] ⊆ ps) :
    Keeps ps o (compareLamp s a1 a2 a3 a4) := by
  unfold compareLamp
  repeat' first
    | with_reducible exact h
    | with_reducible assumption
    | with_reducible refine Sub.of hp ?_
    | exact rfl
    | intro _
    | with_reducible apply lampWindow_keeps
    | with_reducible apply holdBadRead_keeps
    | with_reducible apply giveTwin_keeps
    | with_reducible apply AllNext.next
    | with_reducible apply Keeps.ite
    | with_reducible apply AllNext.ite
    | with_reducible apply Keeps.foldl
    | with_reducible apply Keeps.foldN
    | with_reducible apply Keeps.foldr
    | with_reducible apply Keeps.foldlFst
    | split
    | dsimp only
    | assumption

theorem freeRec_keeps {ps : List Part} {o s : State} {a1} (h : Keeps ps o s) (hp : [.mi] ⊆ ps) :
    Keeps ps o (freeRec a1 s) := by
  unfold freeRec
  repeat' first
    | with_reducible exact h
    | with_reducible assumption
    | with_reducible refine Sub.of hp ?_
    | exact rfl
    | intro _
    | with_reducible apply updMi_keeps
    | with_reducible apply AllNext.next
    | with_reducible apply Keeps.ite
    | with_reducible apply AllNext.ite
    | with_reducible apply Keeps.foldl
    | with_reducible apply Keeps.foldN
    | with_reducible apply Keeps.foldr
    | with_reducible apply Keeps.foldlFst
    | split
    | dsimp only
    | assumption

theorem compareRec_keeps {ps : List Part} {o s : State} {a1 a2} (h : Keeps ps o s) (hp : [.barges, .mi, .lc, .bc, .hd, .ln, .regs] ⊆ ps) :
    Keeps ps o (compareRec s a1 a2) := by
  unfold compareRec
  repeat' first
    | with_reducible exact h
    | with_reducible assumption
    | with_reducible refine Sub.of hp ?_
    | exact rfl
    | intro _
    | with_reducible apply comparePair_keeps
    | with_reducible apply liveResult_keeps
    | with_reducible apply storeRec_keeps
    | with_reducible apply compareLamp_keeps
    | with_reducible apply freeRec_keeps
    | with_reducible apply State.wrapInc_keeps
    | with_reducible apply AllNext.next
    | with_reducible apply Keeps.ite
    | with_reducible apply AllNext.ite
    | with_reducible apply Keeps.foldl
    | with_reducible apply Keeps.foldN
    | with_reducible apply Keeps.foldr
    | with_reducible apply Keeps.foldlFst
    | split
    | dsimp only
    | assumption

theorem queueRec_keeps {ps : List Part} {o s : State} {a1} (h : Keeps ps o s) (hp : [.mi] ⊆ ps) :
    Keeps ps o (queueRec a1 s) := by
  unfold queueRec
  repeat' first
    | with_reducible exact h
    | with_reducible assumption
    | with_reducible refine Sub.of hp ?_
    | exact rfl
    | intro _
    | with_reducible apply updMi_keeps
    | with_reducible apply AllNext.next
    | with_reducible apply Keeps.ite
    | with_reducible apply AllNext.ite
    | with_reducible apply Keeps.foldl
    | with_reducible apply Keeps.foldN
    | with_reducible apply Keeps.foldr
    | with_reducible apply Keeps.foldlFst
    | split
    | dsimp only
    | assumption

theorem skipDead_keeps {ps : List Part} {o s : State} {a1 a2} (h : Keeps ps o s) (hp : [.mi, .bc] ⊆ ps) :
    Keeps ps o (skipDead s a1 a2) := by
  unfold skipDead
  repeat' first
    | with_reducible exact h
    | with_reducible assumption
    | with_reducible refine Sub.of hp ?_
    | exact rfl
    | intro _
    | with_reducible apply updMi_keeps
    | with_reducible apply State.raiseFor_keeps
    | with_reducible apply AllNext.next
    | with_reducible apply Keeps.ite
    | with_reducible apply AllNext.ite
    | with_reducible apply Keeps.foldl
    | with_reducible apply Keeps.foldN
    | with_reducible apply Keeps.foldr
    | with_reducible apply Keeps.foldlFst
    | split
    | dsimp only
    | assumption

theorem takeLive_keeps {ps : List Part} {o s : State} {a1 a2} (h : Keeps ps o s) (hp : [.mi, .bc] ⊆ ps) :
    Keeps ps o (takeLive s a1 a2) := by
  unfold takeLive
  repeat' first
    | with_reducible exact h
    | with_reducible assumption
    | with_reducible refine Sub.of hp ?_
    | exact rfl
    | intro _
    | with_reducible apply storeRec_keeps
    | with_reducible apply queueRec_keeps
    | with_reducible apply skipDead_keeps
    | with_reducible apply AllNext.next
    | with_reducible apply Keeps.ite
    | with_reducible apply AllNext.ite
    | with_reducible apply Keeps.foldl
    | with_reducible apply Keeps.foldN
    | with_reducible apply Keeps.foldr
    | with_reducible apply Keeps.foldlFst
    | split
    | dsimp only
    | assumption

theorem takeDead_keeps {ps : List Part} {o s : State} {a1} (h : Keeps ps o s) (hp : [.barges, .mi, .lc] ⊆ ps) :
    Keeps ps o (takeDead s a1) := by
  unfold takeDead
  repeat' first
    | with_reducible exact h
    | with_reducible assumption
    | with_reducible refine Sub.of hp ?_
    | exact rfl
    | intro _
    | with_reducible apply storeRec_keeps
    | with_reducible apply queueRec_keeps
    | with_reducible apply updEntry_keeps
    | with_reducible apply AllNext.next
    | with_reducible apply Keeps.ite
    | with_reducible apply AllNext.ite
    | with_reducible apply Keeps.foldl
    | with_reducible apply Keeps.foldN
    | with_reducible apply Keeps.foldr
    | with_reducible apply Keeps.foldlFst
    | split
    | dsimp only
    | assumption

theorem takeRecord_keeps {ps : List Part} {o s : State} {a1} (h : Keeps ps o s) (hp : [.barges, .mi, .lc, .bc, .regs] ⊆ ps) :
    Keeps ps o (takeRecord s a1) := by
  unfold takeRecord
  repeat' first
    | with_reducible exact h
    | with_reducible assumption
    | with_reducible refine Sub.of hp ?_
    | exact rfl
    | intro _
    | with_reducible apply takeLive_keeps
    | with_reducible apply takeDead_keeps
    | with_reducible apply State.setBit_keeps
    | with_reducible apply giveTwin_keeps
    | with_reducible apply State.satAdd_keeps
    | with_reducible apply State.raiseFor_keeps
    | with_reducible apply withEntry_keeps
    | with_reducible apply AllNext.next
    | with_reducible apply Keeps.ite
    | with_reducible apply AllNext.ite
    | with_reducible apply Keeps.foldl
    | with_reducible apply Keeps.foldN
    | with_reducible apply Keeps.foldr
    | with_reducible apply Keeps.foldlFst
    | split
    | dsimp only
    | assumption

theorem execMirrorCompare_keeps {ps : List Part} {o s : State} {a1} (h : Keeps ps o s) (hp : [.barges, .mi, .lc, .bc, .hd, .ln, .regs] ⊆ ps) :
    AllNext (execMirrorCompare a1 s) (Keeps ps o) := by
  unfold execMirrorCompare
  repeat' first
    | with_reducible exact h
    | with_reducible assumption
    | with_reducible refine Sub.of hp ?_
    | exact rfl
    | intro _
    | with_reducible apply compareRec_keeps
    | with_reducible apply State.setBit_keeps
    | with_reducible apply State.wrapInc_keeps
    | with_reducible apply freeRec_keeps
    | with_reducible apply State.raiseFor_keeps
    | with_reducible apply giveTwin_keeps
    | with_reducible apply withEntry_keeps
    | with_reducible apply updMi_keeps
    | with_reducible apply AllNext.next
    | with_reducible apply Keeps.ite
    | with_reducible apply AllNext.ite
    | with_reducible apply Keeps.foldl
    | with_reducible apply Keeps.foldN
    | with_reducible apply Keeps.foldr
    | with_reducible apply Keeps.foldlFst
    | split
    | dsimp only
    | assumption

theorem freeSigSlot_keeps {ps : List Part} {o s : State} {a1 a2} (h : Keeps ps o s) (hp : [.mr, .regs] ⊆ ps) :
    Keeps ps o (freeSigSlot s a1 a2) := by
  unfold freeSigSlot
  repeat' first
    | with_reducible exact h
    | with_reducible assumption
    | with_reducible refine Sub.of hp ?_
    | exact rfl
    | intro _
    | with_reducible apply State.wrapInc_keeps
    | with_reducible apply AllNext.next
    | with_reducible apply Keeps.ite
    | with_reducible apply AllNext.ite
    | with_reducible apply Keeps.foldl
    | with_reducible apply Keeps.foldN
    | with_reducible apply Keeps.foldr
    | with_reducible apply Keeps.foldlFst
    | split
    | with_reducible apply Keeps.mr
    | dsimp only
    | assumption

theorem execSigRecordHandover_keeps {ps : List Part} {o s : State} (h : Keeps ps o s) (hp : [.barges, .mr, .mi, .lc, .bc, .regs] ⊆ ps) :
    AllNext (execSigRecordHandover s) (Keeps ps o) := by
  unfold execSigRecordHandover
  repeat' first
    | with_reducible exact h
    | with_reducible assumption
    | with_reducible refine Sub.of hp ?_
    | exact rfl
    | intro _
    | with_reducible apply freeSigSlot_keeps
    | with_reducible apply takeRecord_keeps
    | with_reducible apply AllNext.next
    | with_reducible apply Keeps.ite
    | with_reducible apply AllNext.ite
    | with_reducible apply Keeps.foldl
    | with_reducible apply Keeps.foldN
    | with_reducible apply Keeps.foldr
    | with_reducible apply Keeps.foldlFst
    | split
    | with_reducible apply Keeps.mr
    | dsimp only
    | assumption

theorem execWindowDeadline_keeps {ps : List Part} {o s : State} {a1} (h : Keeps ps o s) (hp : [.barges, .lc] ⊆ ps) :
    AllNext (execWindowDeadline a1 s) (Keeps ps o) := by
  unfold execWindowDeadline
  repeat' first
    | with_reducible exact h
    | with_reducible assumption
    | with_reducible refine Sub.of hp ?_
    | exact rfl
    | intro _
    | with_reducible apply updEntry_keeps
    | with_reducible apply withEntry_keeps
    | with_reducible apply AllNext.next
    | with_reducible apply Keeps.ite
    | with_reducible apply AllNext.ite
    | with_reducible apply Keeps.foldl
    | with_reducible apply Keeps.foldN
    | with_reducible apply Keeps.foldr
    | with_reducible apply Keeps.foldlFst
    | split
    | dsimp only
    | assumption

theorem execSilentClr_keeps {ps : List Part} {o s : State} {a1 a2} (h : Keeps ps o s) (hp : [.bus, .bc, .regs] ⊆ ps) :
    AllNext (execSilentClr a1 a2 s) (Keeps ps o) := by
  unfold execSilentClr
  repeat' first
    | with_reducible exact h
    | with_reducible assumption
    | with_reducible refine Sub.of hp ?_
    | exact rfl
    | intro _
    | with_reducible apply State.setReg_keeps
    | with_reducible apply State.keeperWrite_keeps
    | with_reducible apply AllNext.next
    | with_reducible apply Keeps.ite
    | with_reducible apply AllNext.ite
    | with_reducible apply Keeps.foldl
    | with_reducible apply Keeps.foldN
    | with_reducible apply Keeps.foldr
    | with_reducible apply Keeps.foldlFst
    | split
    | dsimp only
    | assumption

end Sys2Proof.Machine
end

