-- ==== Sys2Proof/Laws/KeepsWatchdogs.lean ====
section
/-! SUPPORT. Laws/KeepsWatchdogs.lean: which parts of the state each operation of Machine/Watchdogs.lean can change. -/

namespace Sys2Proof.Machine

theorem restartEntities_keeps {ps : List Part} {o s : State} {a1} (h : Keeps ps o s) (hp : [.wd] ⊆ ps) :
    Keeps ps o (restartEntities s a1) := by
  unfold restartEntities
  repeat' first
    | with_reducible exact h
    | with_reducible assumption
    | with_reducible refine Sub.of hp ?_
    | exact rfl
    | intro _
    | with_reducible apply updEntity_keeps
    | with_reducible apply AllNext.next
    | with_reducible apply Keeps.ite
    | with_reducible apply AllNext.ite
    | with_reducible apply Keeps.foldl
    | with_reducible apply Keeps.foldN
    | with_reducible apply Keeps.foldr
    | with_reducible apply Keeps.foldlFst
    | split
    | dsimp only
    | assumption

theorem taskStat_keeps {ps : List Part} {o s : State} {a1 a2} (h : Keeps ps o s) (hp : [.regs] ⊆ ps) :
    Keeps ps o (taskStat s a1 a2) := by
  unfold taskStat
  repeat' first
    | with_reducible exact h
    | with_reducible assumption
    | with_reducible refine Sub.of hp ?_
    | exact rfl
    | intro _
    | with_reducible apply State.setFld_keeps
    | with_reducible apply State.setBit_keeps
    | with_reducible apply AllNext.next
    | with_reducible apply Keeps.ite
    | with_reducible apply AllNext.ite
    | with_reducible apply Keeps.foldl
    | with_reducible apply Keeps.foldN
    | with_reducible apply Keeps.foldr
    | with_reducible apply Keeps.foldlFst
    | split
    | dsimp only
    | assumption

theorem seqFail_keeps {ps : List Part} {o s : State} {a1} (h : Keeps ps o s) (hp : [.bc, .wd, .regs] ⊆ ps) :
    Keeps ps o (seqFail s a1) := by
  unfold seqFail
  repeat' first
    | with_reducible exact h
    | with_reducible assumption
    | with_reducible refine Sub.of hp ?_
    | exact rfl
    | intro _
    | with_reducible apply updEntity_keeps
    | with_reducible apply State.raiseSyn_keeps
    | with_reducible apply taskStat_keeps
    | with_reducible apply AllNext.next
    | with_reducible apply Keeps.ite
    | with_reducible apply AllNext.ite
    | with_reducible apply Keeps.foldl
    | with_reducible apply Keeps.foldN
    | with_reducible apply Keeps.foldr
    | with_reducible apply Keeps.foldlFst
    | split
    | dsimp only
    | assumption

theorem boundary_keeps {ps : List Part} {o s : State} {a1 a2} (h : Keeps ps o s) (hp : [.bc, .wd, .regs] ⊆ ps) :
    Keeps ps o (boundary s a1 a2) := by
  unfold boundary
  repeat' first
    | with_reducible exact h
    | with_reducible assumption
    | with_reducible refine Sub.of hp ?_
    | exact rfl
    | intro _
    | with_reducible apply updEntity_keeps
    | with_reducible apply seqFail_keeps
    | with_reducible apply State.satAdd_keeps
    | with_reducible apply State.raiseSyn_keeps
    | with_reducible apply taskStat_keeps
    | with_reducible apply AllNext.next
    | with_reducible apply Keeps.ite
    | with_reducible apply AllNext.ite
    | with_reducible apply Keeps.foldl
    | with_reducible apply Keeps.foldN
    | with_reducible apply Keeps.foldr
    | with_reducible apply Keeps.foldlFst
    | split
    | dsimp only
    | assumption

theorem closeBy_keeps {ps : List Part} {o s : State} {a1 a2} (h : Keeps ps o s) (hp : [.bc, .wd, .regs] ⊆ ps) :
    Keeps ps o (closeBy s a1 a2) := by
  unfold closeBy
  repeat' first
    | with_reducible exact h
    | with_reducible assumption
    | with_reducible refine Sub.of hp ?_
    | exact rfl
    | intro _
    | with_reducible apply boundary_keeps
    | with_reducible apply AllNext.next
    | with_reducible apply Keeps.ite
    | with_reducible apply AllNext.ite
    | with_reducible apply Keeps.foldl
    | with_reducible apply Keeps.foldN
    | with_reducible apply Keeps.foldr
    | with_reducible apply Keeps.foldlFst
    | split
    | dsimp only
    | assumption

theorem countCheckin_keeps {ps : List Part} {o s : State} {a1} (h : Keeps ps o s) (hp : [.bc, .wd, .regs] ⊆ ps) :
    Keeps ps o (countCheckin s a1) := by
  unfold countCheckin
  repeat' first
    | with_reducible exact h
    | with_reducible assumption
    | with_reducible refine Sub.of hp ?_
    | exact rfl
    | intro _
    | with_reducible apply State.satAdd_keeps
    | with_reducible apply State.raiseSyn_keeps
    | with_reducible apply taskStat_keeps
    | with_reducible apply updEntity_keeps
    | with_reducible apply AllNext.next
    | with_reducible apply Keeps.ite
    | with_reducible apply AllNext.ite
    | with_reducible apply Keeps.foldl
    | with_reducible apply Keeps.foldN
    | with_reducible apply Keeps.foldr
    | with_reducible apply Keeps.foldlFst
    | split
    | dsimp only
    | assumption

theorem accelCheckin_keeps {ps : List Part} {o s : State} {a1 a2 a3} (h : Keeps ps o s) (hp : [.bc, .wd, .regs] ⊆ ps) :
    Keeps ps o (accelCheckin s a1 a2 a3) := by
  unfold accelCheckin
  repeat' first
    | with_reducible exact h
    | with_reducible assumption
    | with_reducible refine Sub.of hp ?_
    | exact rfl
    | intro _
    | with_reducible apply closeBy_keeps
    | with_reducible apply countCheckin_keeps
    | with_reducible apply AllNext.next
    | with_reducible apply Keeps.ite
    | with_reducible apply AllNext.ite
    | with_reducible apply Keeps.foldl
    | with_reducible apply Keeps.foldN
    | with_reducible apply Keeps.foldr
    | with_reducible apply Keeps.foldlFst
    | split
    | dsimp only
    | assumption

theorem closePast_keeps {ps : List Part} {o s : State} {a1} (h : Keeps ps o s) (hp : [.bc, .wd, .regs] ⊆ ps) :
    Keeps ps o (closePast s a1) := by
  unfold closePast
  repeat' first
    | with_reducible exact h
    | with_reducible assumption
    | with_reducible refine Sub.of hp ?_
    | exact rfl
    | intro _
    | with_reducible apply closeBy_keeps
    | with_reducible apply AllNext.next
    | with_reducible apply Keeps.ite
    | with_reducible apply AllNext.ite
    | with_reducible apply Keeps.foldl
    | with_reducible apply Keeps.foldN
    | with_reducible apply Keeps.foldr
    | with_reducible apply Keeps.foldlFst
    | split
    | dsimp only
    | assumption

theorem postBoundaries_keeps {ps : List Part} {o s : State} {a1} (h : Keeps ps o s) (hp : [.bc, .wd, .regs] ⊆ ps) :
    Keeps ps o (postBoundaries s a1) := by
  unfold postBoundaries
  repeat' first
    | with_reducible exact h
    | with_reducible assumption
    | with_reducible refine Sub.of hp ?_
    | exact rfl
    | intro _
    | with_reducible apply closePast_keeps
    | with_reducible apply updEntity_keeps
    | with_reducible apply AllNext.next
    | with_reducible apply Keeps.ite
    | with_reducible apply AllNext.ite
    | with_reducible apply Keeps.foldl
    | with_reducible apply Keeps.foldN
    | with_reducible apply Keeps.foldr
    | with_reducible apply Keeps.foldlFst
    | split
    | dsimp only
    | assumption

theorem dogServed_keeps {ps : List Part} {o s : State} {a1} (h : Keeps ps o s) (hp : [.wd, .regs] ⊆ ps) :
    Keeps ps o (dogServed s a1) := by
  unfold dogServed
  repeat' first
    | with_reducible exact h
    | with_reducible assumption
    | with_reducible refine Sub.of hp ?_
    | exact rfl
    | intro _
    | with_reducible apply updDog_keeps
    | with_reducible apply State.wrapInc_keeps
    | with_reducible apply AllNext.next
    | with_reducible apply Keeps.ite
    | with_reducible apply AllNext.ite
    | with_reducible apply Keeps.foldl
    | with_reducible apply Keeps.foldN
    | with_reducible apply Keeps.foldr
    | with_reducible apply Keeps.foldlFst
    | split
    | dsimp only
    | assumption

theorem holdDomain_keeps {ps : List Part} {o s : State} {a1 a2} (h : Keeps ps o s) (hp : [.wd] ⊆ ps) :
    Keeps ps o (holdDomain s a1 a2) := by
  unfold holdDomain
  repeat' first
    | with_reducible exact h
    | with_reducible assumption
    | with_reducible refine Sub.of hp ?_
    | exact rfl
    | intro _
    | with_reducible apply AllNext.next
    | with_reducible apply Keeps.ite
    | with_reducible apply AllNext.ite
    | with_reducible apply Keeps.foldl
    | with_reducible apply Keeps.foldN
    | with_reducible apply Keeps.foldr
    | with_reducible apply Keeps.foldlFst
    | split
    | with_reducible apply Keeps.wd
    | dsimp only
    | assumption

theorem nameCause_keeps {ps : List Part} {o s : State} {a1 a2} (h : Keeps ps o s) (hp : [.wd, .regs] ⊆ ps) :
    Keeps ps o (nameCause s a1 a2) := by
  unfold nameCause
  repeat' first
    | with_reducible exact h
    | with_reducible assumption
    | with_reducible refine Sub.of hp ?_
    | exact rfl
    | intro _
    | with_reducible apply State.setReg_keeps
    | with_reducible apply AllNext.next
    | with_reducible apply Keeps.ite
    | with_reducible apply AllNext.ite
    | with_reducible apply Keeps.foldl
    | with_reducible apply Keeps.foldN
    | with_reducible apply Keeps.foldr
    | with_reducible apply Keeps.foldlFst
    | split
    | with_reducible apply Keeps.wd
    | dsimp only
    | assumption

theorem dogReset_keeps {ps : List Part} {o s : State} {a1 a2} (h : Keeps ps o s) (hp : [.bc, .wd, .lk, .ty, .kc, .regs, .mem] ⊆ ps) :
    Keeps ps o (dogReset s a1 a2) := by
  unfold dogReset
  repeat' first
    | with_reducible exact h
    | with_reducible assumption
    | with_reducible refine Sub.of hp ?_
    | exact rfl
    | intro _
    | with_reducible apply harbourReset_keeps
    | with_reducible apply pairReset_keeps
    | with_reducible apply State.setReg_keeps
    | with_reducible apply holdDomain_keeps
    | with_reducible apply State.satAdd_keeps
    | with_reducible apply nameCause_keeps
    | with_reducible apply AllNext.next
    | with_reducible apply Keeps.ite
    | with_reducible apply AllNext.ite
    | with_reducible apply Keeps.foldl
    | with_reducible apply Keeps.foldN
    | with_reducible apply Keeps.foldr
    | with_reducible apply Keeps.foldlFst
    | split
    | dsimp only
    | assumption

theorem dogFail_keeps {ps : List Part} {o s : State} {a1 a2} (h : Keeps ps o s) (hp : [.bc, .wd, .lk, .ty, .kc, .regs, .mem] ⊆ ps) :
    Keeps ps o (dogFail s a1 a2) := by
  unfold dogFail
  repeat' first
    | with_reducible exact h
    | with_reducible assumption
    | with_reducible refine Sub.of hp ?_
    | exact rfl
    | intro _
    | with_reducible apply dogReset_keeps
    | with_reducible apply updDog_keeps
    | with_reducible apply State.setBit_keeps
    | with_reducible apply State.setFld_keeps
    | with_reducible apply State.satAdd_keeps
    | with_reducible apply State.raiseSyn_keeps
    | with_reducible apply AllNext.next
    | with_reducible apply Keeps.ite
    | with_reducible apply AllNext.ite
    | with_reducible apply Keeps.foldl
    | with_reducible apply Keeps.foldN
    | with_reducible apply Keeps.foldr
    | with_reducible apply Keeps.foldlFst
    | split
    | with_reducible apply Keeps.wd
    | dsimp only
    | assumption

theorem keyWrite_keeps {ps : List Part} {o s : State} {a1 a2 a3} (h : Keeps ps o s) (hp : [.bus, .bc, .wd, .lk, .ty, .kc, .regs, .mem] ⊆ ps) :
    Keeps ps o (keyWrite a1 a2 a3 s) := by
  unfold keyWrite
  repeat' first
    | with_reducible exact h
    | with_reducible assumption
    | with_reducible refine Sub.of hp ?_
    | exact rfl
    | intro _
    | with_reducible apply dogServed_keeps
    | with_reducible apply dogFail_keeps
    | with_reducible apply updDog_keeps
    | with_reducible apply State.busOk_keeps
    | with_reducible apply State.refuse_keeps
    | with_reducible apply State.busError_keeps
    | with_reducible apply AllNext.next
    | with_reducible apply Keeps.ite
    | with_reducible apply AllNext.ite
    | with_reducible apply Keeps.foldl
    | with_reducible apply Keeps.foldN
    | with_reducible apply Keeps.foldr
    | with_reducible apply Keeps.foldlFst
    | split
    | dsimp only
    | assumption

theorem execWdtBadKey_keeps {ps : List Part} {o s : State} {a1 a2 a3} (h : Keeps ps o s) (hp : [.bus, .bc, .wd, .lk, .ty, .kc, .regs, .mem] ⊆ ps) :
    AllNext (execWdtBadKey a1 a2 a3 s) (Keeps ps o) := by
  unfold execWdtBadKey
  repeat' first
    | with_reducible exact h
    | with_reducible assumption
    | with_reducible refine Sub.of hp ?_
    | exact rfl
    | intro _
    | with_reducible apply keyWrite_keeps
    | with_reducible apply AllNext.next
    | with_reducible apply Keeps.ite
    | with_reducible apply AllNext.ite
    | with_reducible apply Keeps.foldl
    | with_reducible apply Keeps.foldN
    | with_reducible apply Keeps.foldr
    | with_reducible apply Keeps.foldlFst
    | split
    | dsimp only
    | assumption

theorem seqCheckin_keeps {ps : List Part} {o s : State} {a1 a2} (h : Keeps ps o s) (hp : [.bc, .wd, .regs] ⊆ ps) :
    Keeps ps o (seqCheckin s a1 a2) := by
  unfold seqCheckin
  repeat' first
    | with_reducible exact h
    | with_reducible assumption
    | with_reducible refine Sub.of hp ?_
    | exact rfl
    | intro _
    | with_reducible apply seqFail_keeps
    | with_reducible apply updEntity_keeps
    | with_reducible apply AllNext.next
    | with_reducible apply Keeps.ite
    | with_reducible apply AllNext.ite
    | with_reducible apply Keeps.foldl
    | with_reducible apply Keeps.foldN
    | with_reducible apply Keeps.foldr
    | with_reducible apply Keeps.foldlFst
    | split
    | dsimp only
    | assumption

theorem execTsCheckin_keeps {ps : List Part} {o s : State} {a1 a2} (h : Keeps ps o s) (hp : [.bus, .bc, .wd, .regs] ⊆ ps) :
    AllNext (execTsCheckin a1 a2 s) (Keeps ps o) := by
  unfold execTsCheckin
  repeat' first
    | with_reducible exact h
    | with_reducible assumption
    | with_reducible refine Sub.of hp ?_
    | exact rfl
    | intro _
    | with_reducible apply closePast_keeps
    | with_reducible apply countCheckin_keeps
    | with_reducible apply seqCheckin_keeps
    | with_reducible apply State.setFld_keeps
    | with_reducible apply State.keeperWrite_keeps
    | with_reducible apply AllNext.next
    | with_reducible apply Keeps.ite
    | with_reducible apply AllNext.ite
    | with_reducible apply Keeps.foldl
    | with_reducible apply Keeps.foldN
    | with_reducible apply Keeps.foldr
    | with_reducible apply Keeps.foldlFst
    | split
    | dsimp only
    | assumption

theorem execWdRstClr_keeps {ps : List Part} {o s : State} {a1 a2} (h : Keeps ps o s) (hp : [.bus, .bc, .regs] ⊆ ps) :
    AllNext (execWdRstClr a1 a2 s) (Keeps ps o) := by
  unfold execWdRstClr
  repeat' first
    | with_reducible exact h
    | with_reducible assumption
    | with_reducible refine Sub.of hp ?_
    | exact rfl
    | intro _
    | with_reducible apply State.setReg_keeps
    | with_reducible apply State.busError_keeps
    | with_reducible apply State.keeperWrite_keeps
    | with_reducible apply AllNext.next
    | with_reducible apply Keeps.ite
    | with_reducible apply AllNext.ite
    | with_reducible apply Keeps.foldl
    | with_reducible apply Keeps.foldN
    | with_reducible apply Keeps.foldr
    | with_reducible apply Keeps.foldlFst
    | split
    | dsimp only
    | assumption

theorem loadTcm_keeps {ps : List Part} {o s : State} {a1 a2} (h : Keeps ps o s) (hp : [.mem] ⊆ ps) :
    Keeps ps o (loadTcm s a1 a2) := by
  unfold loadTcm
  repeat' first
    | with_reducible exact h
    | with_reducible assumption
    | with_reducible refine Sub.of hp ?_
    | exact rfl
    | intro _
    | with_reducible apply State.store_keeps
    | with_reducible apply AllNext.next
    | with_reducible apply Keeps.ite
    | with_reducible apply AllNext.ite
    | with_reducible apply Keeps.foldl
    | with_reducible apply Keeps.foldN
    | with_reducible apply Keeps.foldr
    | with_reducible apply Keeps.foldlFst
    | split
    | dsimp only
    | assumption

theorem execTaskBoundary_keeps {ps : List Part} {o s : State} {a1} (h : Keeps ps o s) (hp : [.bc, .wd, .regs] ⊆ ps) :
    AllNext (execTaskBoundary a1 s) (Keeps ps o) := by
  unfold execTaskBoundary
  repeat' first
    | with_reducible exact h
    | with_reducible assumption
    | with_reducible refine Sub.of hp ?_
    | exact rfl
    | intro _
    | with_reducible apply closePast_keeps
    | with_reducible apply AllNext.next
    | with_reducible apply Keeps.ite
    | with_reducible apply AllNext.ite
    | with_reducible apply Keeps.foldl
    | with_reducible apply Keeps.foldN
    | with_reducible apply Keeps.foldr
    | with_reducible apply Keeps.foldlFst
    | split
    | dsimp only
    | assumption

theorem execWdoPulseEnd_keeps {ps : List Part} {o s : State} (h : Keeps ps o s) (hp : [.wd] ⊆ ps) :
    AllNext (execWdoPulseEnd s) (Keeps ps o) := by
  unfold execWdoPulseEnd
  repeat' first
    | with_reducible exact h
    | with_reducible assumption
    | with_reducible refine Sub.of hp ?_
    | exact rfl
    | intro _
    | with_reducible apply AllNext.next
    | with_reducible apply Keeps.ite
    | with_reducible apply AllNext.ite
    | with_reducible apply Keeps.foldl
    | with_reducible apply Keeps.foldN
    | with_reducible apply Keeps.foldr
    | with_reducible apply Keeps.foldlFst
    | split
    | with_reducible apply Keeps.wd
    | dsimp only
    | assumption

theorem pairGlints_keeps {ps : List Part} {o s : State} {a1} (h : Keeps ps o s) (hp : [.bc] ⊆ ps) :
    Keeps ps o (pairGlints s a1) := by
  unfold pairGlints
  repeat' first
    | with_reducible exact h
    | with_reducible assumption
    | with_reducible refine Sub.of hp ?_
    | exact rfl
    | intro _
    | with_reducible apply AllNext.next
    | with_reducible apply Keeps.ite
    | with_reducible apply AllNext.ite
    | with_reducible apply Keeps.foldl
    | with_reducible apply Keeps.foldN
    | with_reducible apply Keeps.foldr
    | with_reducible apply Keeps.foldlFst
    | split
    | with_reducible apply Keeps.bc
    | dsimp only
    | assumption

theorem pairRestarts_keeps {ps : List Part} {o s : State} {a1} (h : Keeps ps o s) (hp : [.bc, .mem] ⊆ ps) :
    Keeps ps o (pairRestarts s a1) := by
  unfold pairRestarts
  repeat' first
    | with_reducible exact h
    | with_reducible assumption
    | with_reducible refine Sub.of hp ?_
    | exact rfl
    | intro _
    | with_reducible apply loadTcm_keeps
    | with_reducible apply pairGlints_keeps
    | with_reducible apply AllNext.next
    | with_reducible apply Keeps.ite
    | with_reducible apply AllNext.ite
    | with_reducible apply Keeps.foldl
    | with_reducible apply Keeps.foldN
    | with_reducible apply Keeps.foldr
    | with_reducible apply Keeps.foldlFst
    | split
    | dsimp only
    | assumption

theorem restartDogs_keeps {ps : List Part} {o s : State} {a1} (h : Keeps ps o s) (hp : [.wd] ⊆ ps) :
    Keeps ps o (restartDogs s a1) := by
  unfold restartDogs
  repeat' first
    | with_reducible exact h
    | with_reducible assumption
    | with_reducible refine Sub.of hp ?_
    | exact rfl
    | intro _
    | with_reducible apply updDog_keeps
    | with_reducible apply AllNext.next
    | with_reducible apply Keeps.ite
    | with_reducible apply AllNext.ite
    | with_reducible apply Keeps.foldl
    | with_reducible apply Keeps.foldN
    | with_reducible apply Keeps.foldr
    | with_reducible apply Keeps.foldlFst
    | split
    | dsimp only
    | assumption

theorem execDomainLeavesReset_keeps {ps : List Part} {o s : State} {a1} (h : Keeps ps o s) (hp : [.bc, .wd, .mem] ⊆ ps) :
    AllNext (execDomainLeavesReset a1 s) (Keeps ps o) := by
  unfold execDomainLeavesReset
  repeat' first
    | with_reducible exact h
    | with_reducible assumption
    | with_reducible refine Sub.of hp ?_
    | exact rfl
    | intro _
    | with_reducible apply pairRestarts_keeps
    | with_reducible apply restartDogs_keeps
    | with_reducible apply holdDomain_keeps
    | with_reducible apply AllNext.next
    | with_reducible apply Keeps.ite
    | with_reducible apply AllNext.ite
    | with_reducible apply Keeps.foldl
    | with_reducible apply Keeps.foldN
    | with_reducible apply Keeps.foldr
    | with_reducible apply Keeps.foldlFst
    | split
    | dsimp only
    | assumption

theorem execWdoReadbackMismatch_keeps {ps : List Part} {o s : State} {a1} (h : Keeps ps o s) (hp : [.bc, .wd] ⊆ ps) :
    AllNext (execWdoReadbackMismatch a1 s) (Keeps ps o) := by
  unfold execWdoReadbackMismatch
  repeat' first
    | with_reducible exact h
    | with_reducible assumption
    | with_reducible refine Sub.of hp ?_
    | exact rfl
    | intro _
    | with_reducible apply State.raise_keeps
    | with_reducible apply AllNext.next
    | with_reducible apply Keeps.ite
    | with_reducible apply AllNext.ite
    | with_reducible apply Keeps.foldl
    | with_reducible apply Keeps.foldN
    | with_reducible apply Keeps.foldr
    | with_reducible apply Keeps.foldlFst
    | split
    | with_reducible apply Keeps.wd
    | dsimp only
    | assumption

theorem execWdtKeyService_keeps {ps : List Part} {o s : State} {a1 a2} (h : Keeps ps o s) (hp : [.bus, .bc, .wd, .lk, .ty, .kc, .regs, .mem] ⊆ ps) :
    AllNext (execWdtKeyService a1 a2 s) (Keeps ps o) := by
  unfold execWdtKeyService
  repeat' first
    | with_reducible exact h
    | with_reducible assumption
    | with_reducible refine Sub.of hp ?_
    | exact rfl
    | intro _
    | with_reducible apply keyWrite_keeps
    | with_reducible apply AllNext.next
    | with_reducible apply Keeps.ite
    | with_reducible apply AllNext.ite
    | with_reducible apply Keeps.foldl
    | with_reducible apply Keeps.foldN
    | with_reducible apply Keeps.foldr
    | with_reducible apply Keeps.foldlFst
    | split
    | dsimp only
    | assumption

theorem execWdtKeyLapse_keeps {ps : List Part} {o s : State} {a1} (h : Keeps ps o s) (hp : [.bc, .wd, .lk, .ty, .kc, .regs, .mem] ⊆ ps) :
    AllNext (execWdtKeyLapse a1 s) (Keeps ps o) := by
  unfold execWdtKeyLapse
  repeat' first
    | with_reducible exact h
    | with_reducible assumption
    | with_reducible refine Sub.of hp ?_
    | exact rfl
    | intro _
    | with_reducible apply dogFail_keeps
    | with_reducible apply AllNext.next
    | with_reducible apply Keeps.ite
    | with_reducible apply AllNext.ite
    | with_reducible apply Keeps.foldl
    | with_reducible apply Keeps.foldN
    | with_reducible apply Keeps.foldr
    | with_reducible apply Keeps.foldlFst
    | split
    | dsimp only
    | assumption

theorem tickOsc_keeps {ps : List Part} {o s : State} (h : Keeps ps o s) (hp : [.wd] ⊆ ps) :
    Keeps ps o (tickOsc s) := by
  unfold tickOsc
  repeat' first
    | with_reducible exact h
    | with_reducible assumption
    | with_reducible refine Sub.of hp ?_
    | exact rfl
    | intro _
    | with_reducible apply AllNext.next
    | with_reducible apply Keeps.ite
    | with_reducible apply AllNext.ite
    | with_reducible apply Keeps.foldl
    | with_reducible apply Keeps.foldN
    | with_reducible apply Keeps.foldr
    | with_reducible apply Keeps.foldlFst
    | split
    | with_reducible apply Keeps.wd
    | dsimp only
    | assumption

theorem execWdtKeyArm_keeps {ps : List Part} {o s : State} {a1 a2} (h : Keeps ps o s) (hp : [.bus, .bc, .wd, .lk, .ty, .kc, .regs, .mem] ⊆ ps) :
    AllNext (execWdtKeyArm a1 a2 s) (Keeps ps o) := by
  unfold execWdtKeyArm
  repeat' first
    | with_reducible exact h
    | with_reducible assumption
    | with_reducible refine Sub.of hp ?_
    | exact rfl
    | intro _
    | with_reducible apply keyWrite_keeps
    | with_reducible apply AllNext.next
    | with_reducible apply Keeps.ite
    | with_reducible apply AllNext.ite
    | with_reducible apply Keeps.foldl
    | with_reducible apply Keeps.foldN
    | with_reducible apply Keeps.foldr
    | with_reducible apply Keeps.foldlFst
    | split
    | dsimp only
    | assumption

theorem execWdtLate_keeps {ps : List Part} {o s : State} {a1} (h : Keeps ps o s) (hp : [.bc, .wd, .lk, .ty, .kc, .regs, .mem] ⊆ ps) :
    AllNext (execWdtLate a1 s) (Keeps ps o) := by
  unfold execWdtLate
  repeat' first
    | with_reducible exact h
    | with_reducible assumption
    | with_reducible refine Sub.of hp ?_
    | exact rfl
    | intro _
    | with_reducible apply dogFail_keeps
    | with_reducible apply updDog_keeps
    | with_reducible apply AllNext.next
    | with_reducible apply Keeps.ite
    | with_reducible apply AllNext.ite
    | with_reducible apply Keeps.foldl
    | with_reducible apply Keeps.foldN
    | with_reducible apply Keeps.foldr
    | with_reducible apply Keeps.foldlFst
    | split
    | dsimp only
    | assumption

end Sys2Proof.Machine
end

