-- ==== Sys2Proof/Laws/KeepsMooring.lean ====
section
/-! SUPPORT. Laws/KeepsMooring.lean: which parts of the state each operation of Machine/Mooring.lean can change. -/

namespace Sys2Proof.Machine

theorem patrolFetch_keeps {ps : List Part} {o s : State} {a1 a2 a3 a4} (h : Keeps ps o s) (hp : [.bc, .ln, .regs] ⊆ ps) :
    Keeps ps o (patrolFetch s a1 a2 a3 a4).2 := by
  unfold patrolFetch
  repeat' first
    | with_reducible exact h
    | with_reducible assumption
    | with_reducible refine Sub.of hp ?_
    | exact rfl
    | intro _
    | with_reducible apply linkEvent_keeps
    | with_reducible apply AllNext.next
    | with_reducible apply Keeps.ite
    | with_reducible apply AllNext.ite
    | with_reducible apply Keeps.foldl
    | with_reducible apply Keeps.foldN
    | with_reducible apply Keeps.foldr
    | with_reducible apply Keeps.foldlFst
    | split
    | dsimp only
    | assumption

theorem updMr_keeps {ps : List Part} {o s : State} {a1} (h : Keeps ps o s) (hp : [.mr] ⊆ ps) :
    Keeps ps o (updMr s a1) := by
  unfold updMr
  repeat' first
    | with_reducible exact h
    | with_reducible assumption
    | with_reducible refine Sub.of hp ?_
    | exact rfl
    | intro _
    | with_reducible apply AllNext.next
    | with_reducible apply Keeps.ite
    | with_reducible apply AllNext.ite
    | with_reducible apply Keeps.foldl
    | with_reducible apply Keeps.foldN
    | with_reducible apply Keeps.foldr
    | with_reducible apply Keeps.foldlFst
    | split
    | with_reducible apply Keeps.mr
    | dsimp only
    | assumption

theorem holdSlot_keeps {ps : List Part} {o s : State} {a1} (h : Keeps ps o s) (hp : [.mr] ⊆ ps) :
    Keeps ps o (holdSlot s a1) := by
  unfold holdSlot
  repeat' first
    | with_reducible exact h
    | with_reducible assumption
    | with_reducible refine Sub.of hp ?_
    | exact rfl
    | intro _
    | with_reducible apply updMr_keeps
    | with_reducible apply AllNext.next
    | with_reducible apply Keeps.ite
    | with_reducible apply AllNext.ite
    | with_reducible apply Keeps.foldl
    | with_reducible apply Keeps.foldN
    | with_reducible apply Keeps.foldr
    | with_reducible apply Keeps.foldlFst
    | split
    | dsimp only
    | assumption

theorem execAccBootTimeout_keeps {ps : List Part} {o s : State} {a1} (h : Keeps ps o s) (hp : [.mr, .bc, .regs] ⊆ ps) :
    AllNext (execAccBootTimeout a1 s) (Keeps ps o) := by
  unfold execAccBootTimeout
  repeat' first
    | with_reducible exact h
    | with_reducible assumption
    | with_reducible refine Sub.of hp ?_
    | exact rfl
    | intro _
    | with_reducible apply portOff_keeps
    | with_reducible apply State.raise_keeps
    | with_reducible apply AllNext.next
    | with_reducible apply Keeps.ite
    | with_reducible apply AllNext.ite
    | with_reducible apply Keeps.foldl
    | with_reducible apply Keeps.foldN
    | with_reducible apply Keeps.foldr
    | with_reducible apply Keeps.foldlFst
    | split
    | dsimp only
    | assumption

theorem landStore_keeps {ps : List Part} {o s : State} {a1} (h : Keeps ps o s) (hp : [.bc, .regs, .mem] ⊆ ps) :
    Keeps ps o (landStore s a1) := by
  unfold landStore
  repeat' first
    | with_reducible exact h
    | with_reducible assumption
    | with_reducible refine Sub.of hp ?_
    | exact rfl
    | intro _
    | with_reducible apply basinUncorrectable_keeps
    | with_reducible apply basinCorrected_keeps
    | with_reducible apply State.store_keeps
    | with_reducible apply AllNext.next
    | with_reducible apply Keeps.ite
    | with_reducible apply AllNext.ite
    | with_reducible apply Keeps.foldl
    | with_reducible apply Keeps.foldN
    | with_reducible apply Keeps.foldr
    | with_reducible apply Keeps.foldlFst
    | split
    | dsimp only
    | assumption

theorem outError_keeps {ps : List Part} {o s : State} {a1} (h : Keeps ps o s) (hp : [.bus, .bc] ⊆ ps) :
    Keeps ps o (outError s a1) := by
  unfold outError
  repeat' first
    | with_reducible exact h
    | with_reducible assumption
    | with_reducible refine Sub.of hp ?_
    | exact rfl
    | intro _
    | with_reducible apply State.busError_keeps
    | with_reducible apply AllNext.next
    | with_reducible apply Keeps.ite
    | with_reducible apply AllNext.ite
    | with_reducible apply Keeps.foldl
    | with_reducible apply Keeps.foldN
    | with_reducible apply Keeps.foldr
    | with_reducible apply Keeps.foldlFst
    | split
    | with_reducible apply Keeps.bus
    | dsimp only
    | assumption

theorem updRegion_keeps {ps : List Part} {o s : State} {a1 a2} (h : Keeps ps o s) (hp : [.mr] ⊆ ps) :
    Keeps ps o (updRegion s a1 a2) := by
  unfold updRegion
  repeat' first
    | with_reducible exact h
    | with_reducible assumption
    | with_reducible refine Sub.of hp ?_
    | exact rfl
    | intro _
    | with_reducible apply updMr_keeps
    | with_reducible apply AllNext.next
    | with_reducible apply Keeps.ite
    | with_reducible apply AllNext.ite
    | with_reducible apply Keeps.foldl
    | with_reducible apply Keeps.foldN
    | with_reducible apply Keeps.foldr
    | with_reducible apply Keeps.foldlFst
    | split
    | dsimp only
    | assumption

theorem restartPass_keeps {ps : List Part} {o s : State} {a1 a2 a3} (h : Keeps ps o s) (hp : [.mr] ⊆ ps) :
    Keeps ps o (restartPass s a1 a2 a3) := by
  unfold restartPass
  repeat' first
    | with_reducible exact h
    | with_reducible assumption
    | with_reducible refine Sub.of hp ?_
    | exact rfl
    | intro _
    | with_reducible apply updPort_keeps
    | with_reducible apply updRegion_keeps
    | with_reducible apply AllNext.next
    | with_reducible apply Keeps.ite
    | with_reducible apply AllNext.ite
    | with_reducible apply Keeps.foldl
    | with_reducible apply Keeps.foldN
    | with_reducible apply Keeps.foldr
    | with_reducible apply Keeps.foldlFst
    | split
    | dsimp only
    | assumption

theorem patrolBreach_keeps {ps : List Part} {o s : State} {a1 a2} (h : Keeps ps o s) (hp : [.barges, .lc, .bc, .regs] ⊆ ps) :
    Keeps ps o (patrolBreach s a1 a2) := by
  unfold patrolBreach
  repeat' first
    | with_reducible exact h
    | with_reducible assumption
    | with_reducible refine Sub.of hp ?_
    | exact rfl
    | intro _
    | with_reducible apply giveAudit_keeps
    | with_reducible apply State.setBit_keeps
    | with_reducible apply State.raiseOn_keeps
    | with_reducible apply State.setReg_keeps
    | with_reducible apply AllNext.next
    | with_reducible apply Keeps.ite
    | with_reducible apply AllNext.ite
    | with_reducible apply Keeps.foldl
    | with_reducible apply Keeps.foldN
    | with_reducible apply Keeps.foldr
    | with_reducible apply Keeps.foldlFst
    | split
    | dsimp only
    | assumption

theorem goldFetch_keeps {ps : List Part} {o s : State} {a1 a2 a3} (h : Keeps ps o s) (hp : [.bc, .hd, .ln, .regs] ⊆ ps) :
    Keeps ps o (goldFetch s a1 a2 a3).2 := by
  unfold goldFetch
  repeat' first
    | with_reducible exact h
    | with_reducible assumption
    | with_reducible refine Sub.of hp ?_
    | exact rfl
    | intro _
    | with_reducible apply holdBadRead_keeps
    | with_reducible apply holdCorrected_keeps
    | with_reducible apply holdBytes_keeps
    | with_reducible apply AllNext.next
    | with_reducible apply Keeps.ite
    | with_reducible apply AllNext.ite
    | with_reducible apply Keeps.foldl
    | with_reducible apply Keeps.foldN
    | with_reducible apply Keeps.foldr
    | with_reducible apply Keeps.foldlFst
    | split
    | dsimp only
    | assumption

theorem patrolResult_keeps {ps : List Part} {o s : State} {a1 a2 a3 a4} (h : Keeps ps o s) (hp : [.barges, .mr, .lc, .bc, .hd, .ln, .regs] ⊆ ps) :
    Keeps ps o (patrolResult s a1 a2 a3 a4) := by
  unfold patrolResult
  repeat' first
    | with_reducible exact h
    | with_reducible assumption
    | with_reducible refine Sub.of hp ?_
    | exact rfl
    | intro _
    | with_reducible apply State.setBit_keeps
    | with_reducible apply patrolBreach_keeps
    | with_reducible apply updRegion_keeps
    | with_reducible apply State.raise_keeps
    | with_reducible apply goldFetch_keeps
    | with_reducible apply patrolFetch_keeps
    | with_reducible apply AllNext.next
    | with_reducible apply Keeps.ite
    | with_reducible apply AllNext.ite
    | with_reducible apply Keeps.foldl
    | with_reducible apply Keeps.foldN
    | with_reducible apply Keeps.foldr
    | with_reducible apply Keeps.foldlFst
    | split
    | dsimp only
    | assumption

theorem patrolNext_keeps {ps : List Part} {o s : State} {a1 a2 a3} (h : Keeps ps o s) (hp : [.mr] ⊆ ps) :
    Keeps ps o (patrolNext s a1 a2 a3) := by
  unfold patrolNext
  repeat' first
    | with_reducible exact h
    | with_reducible assumption
    | with_reducible refine Sub.of hp ?_
    | exact rfl
    | intro _
    | with_reducible apply updRegion_keeps
    | with_reducible apply updPort_keeps
    | with_reducible apply AllNext.next
    | with_reducible apply Keeps.ite
    | with_reducible apply AllNext.ite
    | with_reducible apply Keeps.foldl
    | with_reducible apply Keeps.foldN
    | with_reducible apply Keeps.foldr
    | with_reducible apply Keeps.foldlFst
    | split
    | dsimp only
    | assumption

theorem execPatrolBlock_keeps {ps : List Part} {o s : State} {a1 a2} (h : Keeps ps o s) (hp : [.barges, .mr, .lc, .bc, .hd, .ln, .regs] ⊆ ps) :
    AllNext (execPatrolBlock a1 a2 s) (Keeps ps o) := by
  unfold execPatrolBlock
  repeat' first
    | with_reducible exact h
    | with_reducible assumption
    | with_reducible refine Sub.of hp ?_
    | exact rfl
    | intro _
    | with_reducible apply lnBytes_keeps
    | with_reducible apply patrolResult_keeps
    | with_reducible apply patrolNext_keeps
    | with_reducible apply updPort_keeps
    | with_reducible apply AllNext.next
    | with_reducible apply Keeps.ite
    | with_reducible apply AllNext.ite
    | with_reducible apply Keeps.foldl
    | with_reducible apply Keeps.foldN
    | with_reducible apply Keeps.foldr
    | with_reducible apply Keeps.foldlFst
    | split
    | dsimp only
    | assumption

theorem unsupported_keeps {ps : List Part} {o s : State} (h : Keeps ps o s) (hp : [.mr, .bc] ⊆ ps) :
    Keeps ps o (unsupported s) := by
  unfold unsupported
  repeat' first
    | with_reducible exact h
    | with_reducible assumption
    | with_reducible refine Sub.of hp ?_
    | exact rfl
    | intro _
    | with_reducible apply updMr_keeps
    | with_reducible apply State.raise_keeps
    | with_reducible apply AllNext.next
    | with_reducible apply Keeps.ite
    | with_reducible apply AllNext.ite
    | with_reducible apply Keeps.foldl
    | with_reducible apply Keeps.foldN
    | with_reducible apply Keeps.foldr
    | with_reducible apply Keeps.foldlFst
    | split
    | dsimp only
    | assumption

theorem landWrite_keeps {ps : List Part} {o s : State} {a1 a2 a3 a4} (h : Keeps ps o s) (hp : [.mr, .bc, .bs, .regs] ⊆ ps) :
    Keeps ps o (landWrite s a1 a2 a3 a4) := by
  unfold landWrite
  repeat' first
    | with_reducible exact h
    | with_reducible assumption
    | with_reducible refine Sub.of hp ?_
    | exact rfl
    | intro _
    | with_reducible apply updMr_keeps
    | with_reducible apply holdSlot_keeps
    | with_reducible apply bankRefusal_keeps
    | with_reducible apply unsupported_keeps
    | with_reducible apply AllNext.next
    | with_reducible apply Keeps.ite
    | with_reducible apply AllNext.ite
    | with_reducible apply Keeps.foldl
    | with_reducible apply Keeps.foldN
    | with_reducible apply Keeps.foldr
    | with_reducible apply Keeps.foldlFst
    | split
    | dsimp only
    | assumption

theorem stampTaken_keeps {ps : List Part} {o s : State} {a1 a2 a3} (h : Keeps ps o s) (hp : [.barges, .regs] ⊆ ps) :
    Keeps ps o (stampTaken s a1 a2 a3) := by
  unfold stampTaken
  repeat' first
    | with_reducible exact h
    | with_reducible assumption
    | with_reducible refine Sub.of hp ?_
    | exact rfl
    | intro _
    | with_reducible apply State.setReg_keeps
    | with_reducible apply AllNext.next
    | with_reducible apply Keeps.ite
    | with_reducible apply AllNext.ite
    | with_reducible apply Keeps.foldl
    | with_reducible apply Keeps.foldN
    | with_reducible apply Keeps.foldr
    | with_reducible apply Keeps.foldlFst
    | split
    | with_reducible apply Keeps.barges
    | dsimp only
    | assumption

theorem dataRead_keeps {ps : List Part} {o s : State} {a1 a2 a3 a4} (h : Keeps ps o s) (hp : [.barges, .mr, .bc, .hd, .ln, .regs] ⊆ ps) :
    Keeps ps o (dataRead s a1 a2 a3 a4) := by
  unfold dataRead
  repeat' first
    | with_reducible exact h
    | with_reducible assumption
    | with_reducible refine Sub.of hp ?_
    | exact rfl
    | intro _
    | with_reducible apply holdBadRead_keeps
    | with_reducible apply holdCorrected_keeps
    | with_reducible apply updMr_keeps
    | with_reducible apply stampTaken_keeps
    | with_reducible apply holdBytes_keeps
    | with_reducible apply AllNext.next
    | with_reducible apply Keeps.ite
    | with_reducible apply AllNext.ite
    | with_reducible apply Keeps.foldl
    | with_reducible apply Keeps.foldN
    | with_reducible apply Keeps.foldr
    | with_reducible apply Keeps.foldlFst
    | split
    | dsimp only
    | assumption

theorem inboundBytes_keeps {ps : List Part} {o s : State} {a1 a2} (h : Keeps ps o s) (hp : [.ln, .regs] ⊆ ps) :
    Keeps ps o (inboundBytes a1 a2 s) := by
  unfold inboundBytes
  repeat' first
    | with_reducible exact h
    | with_reducible assumption
    | with_reducible refine Sub.of hp ?_
    | exact rfl
    | intro _
    | with_reducible apply lnBytes_keeps
    | with_reducible apply AllNext.next
    | with_reducible apply Keeps.ite
    | with_reducible apply AllNext.ite
    | with_reducible apply Keeps.foldl
    | with_reducible apply Keeps.foldN
    | with_reducible apply Keeps.foldr
    | with_reducible apply Keeps.foldlFst
    | split
    | dsimp only
    | assumption

theorem deliverMsi_keeps {ps : List Part} {o s : State} {a1} (h : Keeps ps o s) (hp : [.kc] ⊆ ps) :
    Keeps ps o (deliverMsi s a1) := by
  unfold deliverMsi
  repeat' first
    | with_reducible exact h
    | with_reducible assumption
    | with_reducible refine Sub.of hp ?_
    | exact rfl
    | intro _
    | with_reducible apply AllNext.next
    | with_reducible apply Keeps.ite
    | with_reducible apply AllNext.ite
    | with_reducible apply Keeps.foldl
    | with_reducible apply Keeps.foldN
    | with_reducible apply Keeps.foldr
    | with_reducible apply Keeps.foldlFst
    | split
    | with_reducible apply Keeps.kc
    | dsimp only
    | assumption

theorem execInboundRequest_keeps {ps : List Part} {o s : State} {a1 a2 a3} (h : Keeps ps o s) (hp : [.barges, .mr, .bc, .hd, .bs, .kc, .ln, .regs] ⊆ ps) :
    AllNext (execInboundRequest a1 a2 a3 s) (Keeps ps o) := by
  unfold execInboundRequest
  repeat' first
    | with_reducible exact h
    | with_reducible assumption
    | with_reducible refine Sub.of hp ?_
    | exact rfl
    | intro _
    | with_reducible apply landWrite_keeps
    | with_reducible apply dataRead_keeps
    | with_reducible apply inboundBytes_keeps
    | with_reducible apply unsupported_keeps
    | with_reducible apply updMr_keeps
    | with_reducible apply deliverMsi_keeps
    | with_reducible apply AllNext.next
    | with_reducible apply Keeps.ite
    | with_reducible apply AllNext.ite
    | with_reducible apply Keeps.foldl
    | with_reducible apply Keeps.foldN
    | with_reducible apply Keeps.foldr
    | with_reducible apply Keeps.foldlFst
    | split
    | dsimp only
    | assumption

theorem freeSealSlot_keeps {ps : List Part} {o s : State} {a1 a2} (h : Keeps ps o s) (hp : [.mr, .regs] ⊆ ps) :
    Keeps ps o (freeSealSlot s a1 a2) := by
  unfold freeSealSlot
  repeat' first
    | with_reducible exact h
    | with_reducible assumption
    | with_reducible refine Sub.of hp ?_
    | exact rfl
    | intro _
    | with_reducible apply State.wrapInc_keeps
    | with_reducible apply AllNext.next
    | with_reducible apply Keeps.ite
    | with_reducible apply AllNext.ite
    | with_reducible apply Keeps.foldl
    | with_reducible apply Keeps.foldN
    | with_reducible apply Keeps.foldr
    | with_reducible apply Keeps.foldlFst
    | split
    | with_reducible apply Keeps.mr
    | dsimp only
    | assumption

theorem consumeSlot_keeps {ps : List Part} {o s : State} {a1} (h : Keeps ps o s) (hp : [.mr, .regs] ⊆ ps) :
    Keeps ps o (consumeSlot s a1) := by
  unfold consumeSlot
  repeat' first
    | with_reducible exact h
    | with_reducible assumption
    | with_reducible refine Sub.of hp ?_
    | exact rfl
    | intro _
    | with_reducible apply freeSigSlot_keeps
    | with_reducible apply freeSealSlot_keeps
    | with_reducible apply AllNext.next
    | with_reducible apply Keeps.ite
    | with_reducible apply AllNext.ite
    | with_reducible apply Keeps.foldl
    | with_reducible apply Keeps.foldN
    | with_reducible apply Keeps.foldr
    | with_reducible apply Keeps.foldlFst
    | split
    | dsimp only
    | assumption

theorem enterPort_keeps {ps : List Part} {o s : State} {a1 a2} (h : Keeps ps o s) (hp : [.mr, .regs] ⊆ ps) :
    Keeps ps o (enterPort s a1 a2) := by
  unfold enterPort
  repeat' first
    | with_reducible exact h
    | with_reducible assumption
    | with_reducible refine Sub.of hp ?_
    | exact rfl
    | intro _
    | with_reducible apply updPort_keeps
    | with_reducible apply State.setBit_keeps
    | with_reducible apply AllNext.next
    | with_reducible apply Keeps.ite
    | with_reducible apply AllNext.ite
    | with_reducible apply Keeps.foldl
    | with_reducible apply Keeps.foldN
    | with_reducible apply Keeps.foldr
    | with_reducible apply Keeps.foldlFst
    | split
    | dsimp only
    | assumption

theorem execPerstDelayEnd_keeps {ps : List Part} {o s : State} {a1} (h : Keeps ps o s) (hp : [.mr, .regs] ⊆ ps) :
    AllNext (execPerstDelayEnd a1 s) (Keeps ps o) := by
  unfold execPerstDelayEnd
  repeat' first
    | with_reducible exact h
    | with_reducible assumption
    | with_reducible refine Sub.of hp ?_
    | exact rfl
    | intro _
    | with_reducible apply updPort_keeps
    | with_reducible apply enterPort_keeps
    | with_reducible apply AllNext.next
    | with_reducible apply Keeps.ite
    | with_reducible apply AllNext.ite
    | with_reducible apply Keeps.foldl
    | with_reducible apply Keeps.foldN
    | with_reducible apply Keeps.foldr
    | with_reducible apply Keeps.foldlFst
    | split
    | dsimp only
    | assumption

theorem linkFail_keeps {ps : List Part} {o s : State} {a1} (h : Keeps ps o s) (hp : [.mr, .bc, .ln, .regs] ⊆ ps) :
    Keeps ps o (linkFail s a1) := by
  unfold linkFail
  repeat' first
    | with_reducible exact h
    | with_reducible assumption
    | with_reducible refine Sub.of hp ?_
    | exact rfl
    | intro _
    | with_reducible apply portOff_keeps
    | with_reducible apply linkEvent_keeps
    | with_reducible apply openMask_keeps
    | with_reducible apply AllNext.next
    | with_reducible apply Keeps.ite
    | with_reducible apply AllNext.ite
    | with_reducible apply Keeps.foldl
    | with_reducible apply Keeps.foldN
    | with_reducible apply Keeps.foldr
    | with_reducible apply Keeps.foldlFst
    | split
    | dsimp only
    | assumption

theorem execLinkUp_keeps {ps : List Part} {o s : State} {a1 a2 a3 a4} (h : Keeps ps o s) (hp : [.mr, .bc, .ln, .regs] ⊆ ps) :
    AllNext (execLinkUp a1 a2 a3 a4 s) (Keeps ps o) := by
  unfold execLinkUp
  repeat' first
    | with_reducible exact h
    | with_reducible assumption
    | with_reducible refine Sub.of hp ?_
    | exact rfl
    | intro _
    | with_reducible apply updPort_keeps
    | with_reducible apply enterPort_keeps
    | with_reducible apply linkFail_keeps
    | with_reducible apply AllNext.next
    | with_reducible apply Keeps.ite
    | with_reducible apply AllNext.ite
    | with_reducible apply Keeps.foldl
    | with_reducible apply Keeps.foldN
    | with_reducible apply Keeps.foldr
    | with_reducible apply Keeps.foldlFst
    | split
    | dsimp only
    | assumption

theorem execAccReset_keeps {ps : List Part} {o s : State} {a1 a2 a3} (h : Keeps ps o s) (hp : [.bus, .barges, .mr, .lc, .bc, .regs] ⊆ ps) :
    AllNext (execAccReset a1 a2 a3 s) (Keeps ps o) := by
  unfold execAccReset
  repeat' first
    | with_reducible exact h
    | with_reducible assumption
    | with_reducible refine Sub.of hp ?_
    | exact rfl
    | intro _
    | with_reducible apply leaveServing_keeps
    | with_reducible apply State.keeperWrite_keeps
    | with_reducible apply AllNext.next
    | with_reducible apply Keeps.ite
    | with_reducible apply AllNext.ite
    | with_reducible apply Keeps.foldl
    | with_reducible apply Keeps.foldN
    | with_reducible apply Keeps.foldr
    | with_reducible apply Keeps.foldlFst
    | split
    | dsimp only
    | assumption

theorem execAccTherm_keeps {ps : List Part} {o s : State} {a1 a2} (h : Keeps ps o s) (hp : [.mr, .bc] ⊆ ps) :
    AllNext (execAccTherm a1 a2 s) (Keeps ps o) := by
  unfold execAccTherm
  repeat' first
    | with_reducible exact h
    | with_reducible assumption
    | with_reducible refine Sub.of hp ?_
    | exact rfl
    | intro _
    | with_reducible apply State.raise_keeps
    | with_reducible apply updPort_keeps
    | with_reducible apply AllNext.next
    | with_reducible apply Keeps.ite
    | with_reducible apply AllNext.ite
    | with_reducible apply Keeps.foldl
    | with_reducible apply Keeps.foldN
    | with_reducible apply Keeps.foldr
    | with_reducible apply Keeps.foldlFst
    | split
    | dsimp only
    | assumption

theorem execPortStart_keeps {ps : List Part} {o s : State} {a1} (h : Keeps ps o s) (hp : [.mr] ⊆ ps) :
    AllNext (execPortStart a1 s) (Keeps ps o) := by
  unfold execPortStart
  repeat' first
    | with_reducible exact h
    | with_reducible assumption
    | with_reducible refine Sub.of hp ?_
    | exact rfl
    | intro _
    | with_reducible apply updPort_keeps
    | with_reducible apply AllNext.next
    | with_reducible apply Keeps.ite
    | with_reducible apply AllNext.ite
    | with_reducible apply Keeps.foldl
    | with_reducible apply Keeps.foldN
    | with_reducible apply Keeps.foldr
    | with_reducible apply Keeps.foldlFst
    | split
    | dsimp only
    | assumption

theorem dropRead_keeps {ps : List Part} {o s : State} {a1 a2} (h : Keeps ps o s) (hp : [.mr] ⊆ ps) :
    Keeps ps o (dropRead s a1 a2) := by
  unfold dropRead
  repeat' first
    | with_reducible exact h
    | with_reducible assumption
    | with_reducible refine Sub.of hp ?_
    | exact rfl
    | intro _
    | with_reducible apply updPort_keeps
    | with_reducible apply AllNext.next
    | with_reducible apply Keeps.ite
    | with_reducible apply AllNext.ite
    | with_reducible apply Keeps.foldl
    | with_reducible apply Keeps.foldN
    | with_reducible apply Keeps.foldr
    | with_reducible apply Keeps.foldlFst
    | split
    | dsimp only
    | assumption

theorem readFails_keeps {ps : List Part} {o s : State} {a1 a2} (h : Keeps ps o s) (hp : [.bus, .mr, .bc, .ln, .regs] ⊆ ps) :
    Keeps ps o (readFails s a1 a2) := by
  unfold readFails
  repeat' first
    | with_reducible exact h
    | with_reducible assumption
    | with_reducible refine Sub.of hp ?_
    | exact rfl
    | intro _
    | with_reducible apply dropRead_keeps
    | with_reducible apply outError_keeps
    | with_reducible apply linkEvent_keeps
    | with_reducible apply AllNext.next
    | with_reducible apply Keeps.ite
    | with_reducible apply AllNext.ite
    | with_reducible apply Keeps.foldl
    | with_reducible apply Keeps.foldN
    | with_reducible apply Keeps.foldr
    | with_reducible apply Keeps.foldlFst
    | split
    | dsimp only
    | assumption

theorem execLtssmRecovery_keeps {ps : List Part} {o s : State} {a1} (h : Keeps ps o s) (hp : [.bc, .ln, .regs] ⊆ ps) :
    AllNext (execLtssmRecovery a1 s) (Keeps ps o) := by
  unfold execLtssmRecovery
  repeat' first
    | with_reducible exact h
    | with_reducible assumption
    | with_reducible refine Sub.of hp ?_
    | exact rfl
    | intro _
    | with_reducible apply State.satAdd_keeps
    | with_reducible apply linkEvent_keeps
    | with_reducible apply openMask_keeps
    | with_reducible apply AllNext.next
    | with_reducible apply Keeps.ite
    | with_reducible apply AllNext.ite
    | with_reducible apply Keeps.foldl
    | with_reducible apply Keeps.foldN
    | with_reducible apply Keeps.foldr
    | with_reducible apply Keeps.foldlFst
    | split
    | dsimp only
    | assumption

theorem enterServing_keeps {ps : List Part} {o s : State} {a1} (h : Keeps ps o s) (hp : [.sl, .mr, .wd, .regs] ⊆ ps) :
    Keeps ps o (enterServing s a1) := by
  unfold enterServing
  repeat' first
    | with_reducible exact h
    | with_reducible assumption
    | with_reducible refine Sub.of hp ?_
    | exact rfl
    | intro _
    | with_reducible apply restartAll_keeps
    | with_reducible apply restartEntities_keeps
    | with_reducible apply updPort_keeps
    | with_reducible apply enterPort_keeps
    | with_reducible apply AllNext.next
    | with_reducible apply Keeps.ite
    | with_reducible apply AllNext.ite
    | with_reducible apply Keeps.foldl
    | with_reducible apply Keeps.foldN
    | with_reducible apply Keeps.foldr
    | with_reducible apply Keeps.foldlFst
    | split
    | dsimp only
    | assumption

theorem execAccReadyRise_keeps {ps : List Part} {o s : State} {a1} (h : Keeps ps o s) (hp : [.sl, .mr, .bc, .wd, .regs] ⊆ ps) :
    AllNext (execAccReadyRise a1 s) (Keeps ps o) := by
  unfold execAccReadyRise
  repeat' first
    | with_reducible exact h
    | with_reducible assumption
    | with_reducible refine Sub.of hp ?_
    | exact rfl
    | intro _
    | with_reducible apply enterServing_keeps
    | with_reducible apply portOff_keeps
    | with_reducible apply State.raise_keeps
    | with_reducible apply updPort_keeps
    | with_reducible apply AllNext.next
    | with_reducible apply Keeps.ite
    | with_reducible apply AllNext.ite
    | with_reducible apply Keeps.foldl
    | with_reducible apply Keeps.foldN
    | with_reducible apply Keeps.foldr
    | with_reducible apply Keeps.foldlFst
    | split
    | dsimp only
    | assumption

theorem execOutboundCompletion_keeps {ps : List Part} {o s : State} {a1 a2 a3} (h : Keeps ps o s) (hp : [.bus, .mr, .bc, .ln, .regs] ⊆ ps) :
    AllNext (execOutboundCompletion a1 a2 a3 s) (Keeps ps o) := by
  unfold execOutboundCompletion
  repeat' first
    | with_reducible exact h
    | with_reducible assumption
    | with_reducible refine Sub.of hp ?_
    | exact rfl
    | intro _
    | with_reducible apply readFails_keeps
    | with_reducible apply dropRead_keeps
    | with_reducible apply lnBytes_keeps
    | with_reducible apply State.busOk_keeps
    | with_reducible apply AllNext.next
    | with_reducible apply Keeps.ite
    | with_reducible apply AllNext.ite
    | with_reducible apply Keeps.foldl
    | with_reducible apply Keeps.foldN
    | with_reducible apply Keeps.foldr
    | with_reducible apply Keeps.foldlFst
    | split
    | dsimp only
    | assumption

theorem execAccReadyFall_keeps {ps : List Part} {o s : State} {a1} (h : Keeps ps o s) (hp : [.barges, .mr, .lc, .bc, .regs] ⊆ ps) :
    AllNext (execAccReadyFall a1 s) (Keeps ps o) := by
  unfold execAccReadyFall
  repeat' first
    | with_reducible exact h
    | with_reducible assumption
    | with_reducible refine Sub.of hp ?_
    | exact rfl
    | intro _
    | with_reducible apply leaveServing_keeps
    | with_reducible apply State.raise_keeps
    | with_reducible apply updPort_keeps
    | with_reducible apply AllNext.next
    | with_reducible apply Keeps.ite
    | with_reducible apply AllNext.ite
    | with_reducible apply Keeps.foldl
    | with_reducible apply Keeps.foldN
    | with_reducible apply Keeps.foldr
    | with_reducible apply Keeps.foldlFst
    | split
    | dsimp only
    | assumption

theorem acceptSig_keeps {ps : List Part} {o s : State} {a1 a2} (h : Keeps ps o s) (hp : [.barges, .mr, .lc, .bc, .wd, .regs] ⊆ ps) :
    Keeps ps o (acceptSig s a1 a2) := by
  unfold acceptSig
  repeat' first
    | with_reducible exact h
    | with_reducible assumption
    | with_reducible refine Sub.of hp ?_
    | exact rfl
    | intro _
    | with_reducible apply tryPending_keeps
    | with_reducible apply accelCheckin_keeps
    | with_reducible apply State.updBarge_keeps
    | with_reducible apply updMr_keeps
    | with_reducible apply AllNext.next
    | with_reducible apply Keeps.ite
    | with_reducible apply AllNext.ite
    | with_reducible apply Keeps.foldl
    | with_reducible apply Keeps.foldN
    | with_reducible apply Keeps.foldr
    | with_reducible apply Keeps.foldlFst
    | split
    | dsimp only
    | assumption

theorem rejectRec_keeps {ps : List Part} {o s : State} {a1 a2 a3} (h : Keeps ps o s) (hp : [.barges, .lc, .bc, .regs] ⊆ ps) :
    Keeps ps o (rejectRec s a1 a2 a3) := by
  unfold rejectRec
  repeat' first
    | with_reducible exact h
    | with_reducible assumption
    | with_reducible refine Sub.of hp ?_
    | exact rfl
    | intro _
    | with_reducible apply State.raise_keeps
    | with_reducible apply giveTwin_keeps
    | with_reducible apply State.withBarge_keeps
    | with_reducible apply State.raiseFor_keeps
    | with_reducible apply breach_keeps
    | with_reducible apply logLate_keeps
    | with_reducible apply State.setReg_keeps
    | with_reducible apply State.satAdd_keeps
    | with_reducible apply State.setBit_keeps
    | with_reducible apply AllNext.next
    | with_reducible apply Keeps.ite
    | with_reducible apply AllNext.ite
    | with_reducible apply Keeps.foldl
    | with_reducible apply Keeps.foldN
    | with_reducible apply Keeps.foldr
    | with_reducible apply Keeps.foldlFst
    | split
    | dsimp only
    | assumption

theorem landRecord_keeps {ps : List Part} {o s : State} {a1 a2} (h : Keeps ps o s) (hp : [.barges, .mr, .au, .lc, .bc, .wd, .regs, .mem] ⊆ ps) :
    Keeps ps o (landRecord s a1 a2) := by
  unfold landRecord
  repeat' first
    | with_reducible exact h
    | with_reducible assumption
    | with_reducible refine Sub.of hp ?_
    | exact rfl
    | intro _
    | with_reducible apply acceptSig_keeps
    | with_reducible apply storeSeal_keeps
    | with_reducible apply State.updBarge_keeps
    | with_reducible apply consumeSlot_keeps
    | with_reducible apply landStore_keeps
    | with_reducible apply rejectRec_keeps
    | with_reducible apply AllNext.next
    | with_reducible apply Keeps.ite
    | with_reducible apply AllNext.ite
    | with_reducible apply Keeps.foldl
    | with_reducible apply Keeps.foldN
    | with_reducible apply Keeps.foldr
    | with_reducible apply Keeps.foldlFst
    | split
    | dsimp only
    | assumption

theorem execLandingWrite_keeps {ps : List Part} {o s : State} (h : Keeps ps o s) (hp : [.barges, .mr, .au, .lc, .bc, .wd, .regs, .mem] ⊆ ps) :
    AllNext (execLandingWrite s) (Keeps ps o) := by
  unfold execLandingWrite
  repeat' first
    | with_reducible exact h
    | with_reducible assumption
    | with_reducible refine Sub.of hp ?_
    | exact rfl
    | intro _
    | with_reducible apply landRecord_keeps
    | with_reducible apply landStore_keeps
    | with_reducible apply updMr_keeps
    | with_reducible apply AllNext.next
    | with_reducible apply Keeps.ite
    | with_reducible apply AllNext.ite
    | with_reducible apply Keeps.foldl
    | with_reducible apply Keeps.foldN
    | with_reducible apply Keeps.foldr
    | with_reducible apply Keeps.foldlFst
    | split
    | dsimp only
    | assumption

theorem endReads_keeps {ps : List Part} {o s : State} {a1} (h : Keeps ps o s) (hp : [.bus, .mr, .bc, .ln, .regs] ⊆ ps) :
    Keeps ps o (endReads s a1) := by
  unfold endReads
  repeat' first
    | with_reducible exact h
    | with_reducible assumption
    | with_reducible refine Sub.of hp ?_
    | exact rfl
    | intro _
    | with_reducible apply readFails_keeps
    | with_reducible apply AllNext.next
    | with_reducible apply Keeps.ite
    | with_reducible apply AllNext.ite
    | with_reducible apply Keeps.foldl
    | with_reducible apply Keeps.foldN
    | with_reducible apply Keeps.foldr
    | with_reducible apply Keeps.foldlFst
    | split
    | dsimp only
    | assumption

theorem execAccFault_keeps {ps : List Part} {o s : State} {a1 a2} (h : Keeps ps o s) (hp : [.barges, .mr, .lc, .bc, .regs] ⊆ ps) :
    AllNext (execAccFault a1 a2 s) (Keeps ps o) := by
  unfold execAccFault
  repeat' first
    | with_reducible exact h
    | with_reducible assumption
    | with_reducible refine Sub.of hp ?_
    | exact rfl
    | intro _
    | with_reducible apply leaveServing_keeps
    | with_reducible apply State.raise_keeps
    | with_reducible apply updPort_keeps
    | with_reducible apply AllNext.next
    | with_reducible apply Keeps.ite
    | with_reducible apply AllNext.ite
    | with_reducible apply Keeps.foldl
    | with_reducible apply Keeps.foldN
    | with_reducible apply Keeps.foldr
    | with_reducible apply Keeps.foldlFst
    | split
    | dsimp only
    | assumption

theorem execCompletionTimeout_keeps {ps : List Part} {o s : State} {a1 a2} (h : Keeps ps o s) (hp : [.bus, .mr, .bc, .ln, .regs] ⊆ ps) :
    AllNext (execCompletionTimeout a1 a2 s) (Keeps ps o) := by
  unfold execCompletionTimeout
  repeat' first
    | with_reducible exact h
    | with_reducible assumption
    | with_reducible refine Sub.of hp ?_
    | exact rfl
    | intro _
    | with_reducible apply readFails_keeps
    | with_reducible apply AllNext.next
    | with_reducible apply Keeps.ite
    | with_reducible apply AllNext.ite
    | with_reducible apply Keeps.foldl
    | with_reducible apply Keeps.foldN
    | with_reducible apply Keeps.foldr
    | with_reducible apply Keeps.foldlFst
    | split
    | dsimp only
    | assumption

theorem execLinkUpTimeout_keeps {ps : List Part} {o s : State} {a1} (h : Keeps ps o s) (hp : [.mr, .bc, .ln, .regs] ⊆ ps) :
    AllNext (execLinkUpTimeout a1 s) (Keeps ps o) := by
  unfold execLinkUpTimeout
  repeat' first
    | with_reducible exact h
    | with_reducible assumption
    | with_reducible refine Sub.of hp ?_
    | exact rfl
    | intro _
    | with_reducible apply linkFail_keeps
    | with_reducible apply AllNext.next
    | with_reducible apply Keeps.ite
    | with_reducible apply AllNext.ite
    | with_reducible apply Keeps.foldl
    | with_reducible apply Keeps.foldN
    | with_reducible apply Keeps.foldr
    | with_reducible apply Keeps.foldlFst
    | split
    | dsimp only
    | assumption

theorem addRead_keeps {ps : List Part} {o s : State} {a1 a2 a3} (h : Keeps ps o s) (hp : [.mr] ⊆ ps) :
    Keeps ps o (addRead s a1 a2 a3) := by
  unfold addRead
  repeat' first
    | with_reducible exact h
    | with_reducible assumption
    | with_reducible refine Sub.of hp ?_
    | exact rfl
    | intro _
    | with_reducible apply updPort_keeps
    | with_reducible apply AllNext.next
    | with_reducible apply Keeps.ite
    | with_reducible apply AllNext.ite
    | with_reducible apply Keeps.foldl
    | with_reducible apply Keeps.foldN
    | with_reducible apply Keeps.foldr
    | with_reducible apply Keeps.foldlFst
    | split
    | dsimp only
    | assumption

theorem sendReq_keeps {ps : List Part} {o s : State} {a1 a2 a3 a4 a5} (h : Keeps ps o s) (hp : [.bus, .mr, .ln, .regs] ⊆ ps) :
    Keeps ps o (sendReq s a1 a2 a3 a4 a5) := by
  unfold sendReq
  repeat' first
    | with_reducible exact h
    | with_reducible assumption
    | with_reducible refine Sub.of hp ?_
    | exact rfl
    | intro _
    | with_reducible apply addRead_keeps
    | with_reducible apply State.busOk_keeps
    | with_reducible apply lnBytes_keeps
    | with_reducible apply updPort_keeps
    | with_reducible apply AllNext.next
    | with_reducible apply Keeps.ite
    | with_reducible apply AllNext.ite
    | with_reducible apply Keeps.foldl
    | with_reducible apply Keeps.foldN
    | with_reducible apply Keeps.foldr
    | with_reducible apply Keeps.foldlFst
    | split
    | with_reducible apply Keeps.bus
    | dsimp only
    | assumption

theorem execOutboundAccess_keeps {ps : List Part} {o s : State} {a1 a2 a3 a4} (h : Keeps ps o s) (hp : [.bus, .mr, .bc, .ln, .regs] ⊆ ps) :
    AllNext (execOutboundAccess a1 a2 a3 a4 s) (Keeps ps o) := by
  unfold execOutboundAccess
  repeat' first
    | with_reducible exact h
    | with_reducible assumption
    | with_reducible refine Sub.of hp ?_
    | exact rfl
    | intro _
    | with_reducible apply restartPass_keeps
    | with_reducible apply sendReq_keeps
    | with_reducible apply outError_keeps
    | with_reducible apply AllNext.next
    | with_reducible apply Keeps.ite
    | with_reducible apply AllNext.ite
    | with_reducible apply Keeps.foldl
    | with_reducible apply Keeps.foldN
    | with_reducible apply Keeps.foldr
    | with_reducible apply Keeps.foldlFst
    | split
    | dsimp only
    | assumption

theorem execUncorrectableErrorMessage_keeps {ps : List Part} {o s : State} {a1 a2} (h : Keeps ps o s) (hp : [.bc, .ln, .regs] ⊆ ps) :
    AllNext (execUncorrectableErrorMessage a1 a2 s) (Keeps ps o) := by
  unfold execUncorrectableErrorMessage
  repeat' first
    | with_reducible exact h
    | with_reducible assumption
    | with_reducible refine Sub.of hp ?_
    | exact rfl
    | intro _
    | with_reducible apply State.satAdd_keeps
    | with_reducible apply linkEvent_keeps
    | with_reducible apply AllNext.next
    | with_reducible apply Keeps.ite
    | with_reducible apply AllNext.ite
    | with_reducible apply Keeps.foldl
    | with_reducible apply Keeps.foldN
    | with_reducible apply Keeps.foldr
    | with_reducible apply Keeps.foldlFst
    | split
    | dsimp only
    | assumption

theorem execCfgRequest_keeps {ps : List Part} {o s : State} {a1 a2 a3 a4} (h : Keeps ps o s) (hp : [.bus, .mr, .bc, .ln, .regs] ⊆ ps) :
    AllNext (execCfgRequest a1 a2 a3 a4 s) (Keeps ps o) := by
  unfold execCfgRequest
  repeat' first
    | with_reducible exact h
    | with_reducible assumption
    | with_reducible refine Sub.of hp ?_
    | exact rfl
    | intro _
    | with_reducible apply sendReq_keeps
    | with_reducible apply State.busError_keeps
    | with_reducible apply State.raise_keeps
    | with_reducible apply State.refuse_keeps
    | with_reducible apply AllNext.next
    | with_reducible apply Keeps.ite
    | with_reducible apply AllNext.ite
    | with_reducible apply Keeps.foldl
    | with_reducible apply Keeps.foldN
    | with_reducible apply Keeps.foldr
    | with_reducible apply Keeps.foldlFst
    | split
    | dsimp only
    | assumption

theorem execLinkDown_keeps {ps : List Part} {o s : State} {a1} (h : Keeps ps o s) (hp : [.bus, .barges, .mr, .lc, .bc, .ln, .regs] ⊆ ps) :
    AllNext (execLinkDown a1 s) (Keeps ps o) := by
  unfold execLinkDown
  repeat' first
    | with_reducible exact h
    | with_reducible assumption
    | with_reducible refine Sub.of hp ?_
    | exact rfl
    | intro _
    | with_reducible apply State.satAdd_keeps
    | with_reducible apply leaveServing_keeps
    | with_reducible apply linkEvent_keeps
    | with_reducible apply openMask_keeps
    | with_reducible apply endReads_keeps
    | with_reducible apply AllNext.next
    | with_reducible apply Keeps.ite
    | with_reducible apply AllNext.ite
    | with_reducible apply Keeps.foldl
    | with_reducible apply Keeps.foldN
    | with_reducible apply Keeps.foldr
    | with_reducible apply Keeps.foldlFst
    | split
    | dsimp only
    | assumption

end Sys2Proof.Machine
end

