-- ==== Sys2Proof/Laws/KeepsPosts.lean ====
section
/-! SUPPORT. Laws/KeepsPosts.lean: which parts of the state each operation of Machine/Posts.lean can change. -/

namespace Sys2Proof.Machine

theorem postMissed_keeps {ps : List Part} {o s : State} {a1 a2} (h : Keeps ps o s) (hp : [.regs] ⊆ ps) :
    Keeps ps o (postMissed s a1 a2) := by
  unfold postMissed
  repeat' first
    | with_reducible exact h
    | with_reducible assumption
    | with_reducible refine Sub.of hp ?_
    | exact rfl
    | intro _
    | with_reducible apply State.satAdd_keeps
    | with_reducible apply AllNext.next
    | with_reducible apply Keeps.ite
    | with_reducible apply AllNext.ite
    | with_reducible apply Keeps.foldl
    | with_reducible apply Keeps.foldN
    | with_reducible apply Keeps.foldr
    | with_reducible apply Keeps.foldlFst
    | split
    | dsimp only
    | assumption

theorem postLost_keeps {ps : List Part} {o s : State} {a1} (h : Keeps ps o s) (hp : [.regs] ⊆ ps) :
    Keeps ps o (postLost s a1) := by
  unfold postLost
  repeat' first
    | with_reducible exact h
    | with_reducible assumption
    | with_reducible refine Sub.of hp ?_
    | exact rfl
    | intro _
    | with_reducible apply postMissed_keeps
    | with_reducible apply AllNext.next
    | with_reducible apply Keeps.ite
    | with_reducible apply AllNext.ite
    | with_reducible apply Keeps.foldl
    | with_reducible apply Keeps.foldN
    | with_reducible apply Keeps.foldr
    | with_reducible apply Keeps.foldlFst
    | split
    | dsimp only
    | assumption

theorem updMp_keeps {ps : List Part} {o s : State} {a1} (h : Keeps ps o s) (hp : [.mp] ⊆ ps) :
    Keeps ps o (updMp s a1) := by
  unfold updMp
  repeat' first
    | with_reducible exact h
    | with_reducible assumption
    | with_reducible refine Sub.of hp ?_
    | exact rfl
    | intro _
    | with_reducible apply AllNext.next
    | with_reducible apply Keeps.ite
    | with_reducible apply AllNext.ite
    | with_reducible apply Keeps.foldl
    | with_reducible apply Keeps.foldN
    | with_reducible apply Keeps.foldr
    | with_reducible apply Keeps.foldlFst
    | split
    | with_reducible apply Keeps.mp
    | dsimp only
    | assumption

theorem postTask_keeps {ps : List Part} {o s : State} {a1} (h : Keeps ps o s) (hp : [.mp, .bc, .regs] ⊆ ps) :
    Keeps ps o (postTask s a1) := by
  unfold postTask
  repeat' first
    | with_reducible exact h
    | with_reducible assumption
    | with_reducible refine Sub.of hp ?_
    | exact rfl
    | intro _
    | with_reducible apply updMp_keeps
    | with_reducible apply State.setBit_keeps
    | with_reducible apply postLost_keeps
    | with_reducible apply State.raise_keeps
    | with_reducible apply AllNext.next
    | with_reducible apply Keeps.ite
    | with_reducible apply AllNext.ite
    | with_reducible apply Keeps.foldl
    | with_reducible apply Keeps.foldN
    | with_reducible apply Keeps.foldr
    | with_reducible apply Keeps.foldlFst
    | split
    | dsimp only
    | assumption

theorem postAct_keeps {ps : List Part} {o s : State} {a1 a2} (h : Keeps ps o s) (hp : [.mp, .sl, .barges, .mr, .tiles, .au, .sn, .lc, .bc, .wd, .sio, .se, .lk, .wr, .hd, .bs, .ty, .tp, .ln, .regs, .mem] ⊆ ps) :
    Keeps ps o (postAct s a1 a2) := by
  unfold postAct
  repeat' first
    | with_reducible exact h
    | with_reducible assumption
    | with_reducible refine Sub.of hp ?_
    | exact rfl
    | intro _
    | with_reducible apply dumpNow_keeps
    | with_reducible apply trigMask_keeps
    | with_reducible apply adcInsert_keeps
    | with_reducible apply tryOpen_keeps
    | with_reducible apply releaseLamp_keeps
    | with_reducible apply lampGaps_keeps
    | with_reducible apply postLost_keeps
    | with_reducible apply postTask_keeps
    | with_reducible apply AllNext.next
    | with_reducible apply Keeps.ite
    | with_reducible apply AllNext.ite
    | with_reducible apply Keeps.foldl
    | with_reducible apply Keeps.foldN
    | with_reducible apply Keeps.foldr
    | with_reducible apply Keeps.foldlFst
    | split
    | dsimp only
    | assumption

theorem rearm_keeps {ps : List Part} {o s : State} {a1 a2 a3 a4} (h : Keeps ps o s) (hp : [.regs] ⊆ ps) :
    Keeps ps o (rearm s a1 a2 a3 a4).1 := by
  unfold rearm
  repeat' first
    | with_reducible exact h
    | with_reducible assumption
    | with_reducible refine Sub.of hp ?_
    | exact rfl
    | intro _
    | with_reducible apply State.setReg64_keeps
    | with_reducible apply AllNext.next
    | with_reducible apply Keeps.ite
    | with_reducible apply AllNext.ite
    | with_reducible apply Keeps.foldl
    | with_reducible apply Keeps.foldN
    | with_reducible apply Keeps.foldr
    | with_reducible apply Keeps.foldlFst
    | split
    | dsimp only
    | assumption

theorem rearmPost_keeps {ps : List Part} {o s : State} {a1} (h : Keeps ps o s) (hp : [.mp, .regs] ⊆ ps) :
    Keeps ps o (rearmPost s a1).1 := by
  unfold rearmPost
  repeat' first
    | with_reducible exact h
    | with_reducible assumption
    | with_reducible refine Sub.of hp ?_
    | exact rfl
    | intro _
    | with_reducible apply State.setReg64_keeps
    | with_reducible apply updMp_keeps
    | with_reducible apply rearm_keeps
    | with_reducible apply State.setFld_keeps
    | with_reducible apply AllNext.next
    | with_reducible apply Keeps.ite
    | with_reducible apply AllNext.ite
    | with_reducible apply Keeps.foldl
    | with_reducible apply Keeps.foldN
    | with_reducible apply Keeps.foldr
    | with_reducible apply Keeps.foldlFst
    | split
    | dsimp only
    | assumption

theorem readyPost_keeps {ps : List Part} {o s : State} {a1} (h : Keeps ps o s) (hp : [.mp, .regs] ⊆ ps) :
    Keeps ps o (readyPost s a1) := by
  unfold readyPost
  repeat' first
    | with_reducible exact h
    | with_reducible assumption
    | with_reducible refine Sub.of hp ?_
    | exact rfl
    | intro _
    | with_reducible apply rearmPost_keeps
    | with_reducible apply AllNext.next
    | with_reducible apply Keeps.ite
    | with_reducible apply AllNext.ite
    | with_reducible apply Keeps.foldl
    | with_reducible apply Keeps.foldN
    | with_reducible apply Keeps.foldr
    | with_reducible apply Keeps.foldlFst
    | split
    | dsimp only
    | assumption

theorem withPosts_keeps {ps : List Part} {o s : State} {a1} (h : Keeps ps o s) (hp : [.regs] ⊆ ps) : Keeps ps o (withPosts s a1) := by
  unfold withPosts
  exact Keeps.foldl (h.regs (Sub.of hp rfl) fun c => Cells.wfFrom_filter _ c.2) fun x c hx => State.setReg_keeps hx (Sub.of hp rfl)

theorem rearmRelease_keeps {ps : List Part} {o s : State} {a1} (h : Keeps ps o s) (hp : [.mp, .bc, .regs] ⊆ ps) :
    Keeps ps o (rearmRelease a1 s) := by
  unfold rearmRelease
  repeat' first
    | with_reducible exact h
    | with_reducible assumption
    | with_reducible refine Sub.of hp ?_
    | exact rfl
    | intro _
    | with_reducible apply State.raise_keeps
    | with_reducible apply postMissed_keeps
    | with_reducible apply State.satAdd_keeps
    | with_reducible apply rearmPost_keeps
    | with_reducible apply AllNext.next
    | with_reducible apply Keeps.ite
    | with_reducible apply AllNext.ite
    | with_reducible apply Keeps.foldl
    | with_reducible apply Keeps.foldN
    | with_reducible apply Keeps.foldr
    | with_reducible apply Keeps.foldlFst
    | split
    | dsimp only
    | assumption

theorem underTable_keeps {ps : List Part} {o s : State} {f} (hf : ∀ x, Keeps ps o x → Keeps ps o (f x)) (h : Keeps ps o s) (hp : [.mp, .regs] ⊆ ps) :
    Keeps ps o (underTable f s) := by
  unfold underTable
  repeat' first
    | with_reducible exact h
    | with_reducible assumption
    | with_reducible refine Sub.of hp ?_
    | exact rfl
    | intro _
    | with_reducible apply State.setReg_keeps
    | with_reducible apply withPosts_keeps
    | with_reducible apply updMp_keeps
    | with_reducible apply hf
    | with_reducible apply AllNext.next
    | with_reducible apply Keeps.ite
    | with_reducible apply AllNext.ite
    | with_reducible apply Keeps.foldl
    | with_reducible apply Keeps.foldN
    | with_reducible apply Keeps.foldr
    | with_reducible apply Keeps.foldlFst
    | split
    | with_reducible apply Keeps.mp
    | dsimp only
    | assumption

theorem releasePost_keeps {ps : List Part} {o s : State} {a1} (h : Keeps ps o s) (hp : [.mp, .sl, .barges, .mr, .tiles, .au, .sn, .lc, .bc, .wd, .sio, .se, .lk, .wr, .hd, .bs, .ty, .tp, .ln, .regs, .mem] ⊆ ps) :
    Keeps ps o (releasePost s a1) := by
  unfold releasePost
  repeat' first
    | with_reducible exact h
    | with_reducible assumption
    | with_reducible refine Sub.of hp ?_
    | exact rfl
    | intro _
    | with_reducible apply rearmRelease_keeps
    | with_reducible apply underTable_keeps
    | with_reducible apply postBoundaries_keeps
    | with_reducible apply postAct_keeps
    | with_reducible apply AllNext.next
    | with_reducible apply Keeps.ite
    | with_reducible apply AllNext.ite
    | with_reducible apply Keeps.foldl
    | with_reducible apply Keeps.foldN
    | with_reducible apply Keeps.foldr
    | with_reducible apply Keeps.foldlFst
    | split
    | dsimp only
    | assumption

theorem execPostRelease_keeps {ps : List Part} {o s : State} (h : Keeps ps o s) (hp : [.mp, .sl, .barges, .mr, .tiles, .au, .sn, .lc, .bc, .wd, .sio, .se, .lk, .wr, .hd, .bs, .ty, .tp, .ln, .regs, .mem] ⊆ ps) :
    AllNext (execPostRelease s) (Keeps ps o) := by
  unfold execPostRelease
  repeat' first
    | with_reducible exact h
    | with_reducible assumption
    | with_reducible refine Sub.of hp ?_
    | exact rfl
    | intro _
    | with_reducible apply updMp_keeps
    | with_reducible apply releasePost_keeps
    | with_reducible apply AllNext.next
    | with_reducible apply Keeps.ite
    | with_reducible apply AllNext.ite
    | with_reducible apply Keeps.foldl
    | with_reducible apply Keeps.foldN
    | with_reducible apply Keeps.foldr
    | with_reducible apply Keeps.foldlFst
    | split
    | dsimp only
    | assumption

theorem execPostReached_keeps {ps : List Part} {o s : State} {a1} (h : Keeps ps o s) (hp : [.mp] ⊆ ps) :
    AllNext (execPostReached a1 s) (Keeps ps o) := by
  unfold execPostReached
  repeat' first
    | with_reducible exact h
    | with_reducible assumption
    | with_reducible refine Sub.of hp ?_
    | exact rfl
    | intro _
    | with_reducible apply updMp_keeps
    | with_reducible apply AllNext.next
    | with_reducible apply Keeps.ite
    | with_reducible apply AllNext.ite
    | with_reducible apply Keeps.foldl
    | with_reducible apply Keeps.foldN
    | with_reducible apply Keeps.foldr
    | with_reducible apply Keeps.foldlFst
    | split
    | dsimp only
    | assumption

end Sys2Proof.Machine
end

