-- ==== Sys2Proof/Laws/KeepsRestart.lean ====
section
/-! SUPPORT. Laws/KeepsRestart.lean: which parts of the state each operation of Machine/Restart.lean can change. -/

namespace Sys2Proof.Machine

theorem markTiles_keeps {ps : List Part} {o s : State} {a1} (h : Keeps ps o s) (hp : [.regs] ⊆ ps) : Keeps ps o (markTiles a1 s) := by
  unfold markTiles
  refine Keeps.foldN h fun x k hx => ?_
  split
  · exact State.setFld_keeps hx (Sub.of hp rfl)
  · split
    · exact State.setFld_keeps hx (Sub.of hp rfl)
    · exact hx

theorem regsAfter_wf {s : State} (c : ResetCause) (h : Canonical s) : Cells.wf resetOf (regsAfter s c) = true := by
  have base : Canonical { s with regs := if c == ResetCause.powerOn then [] else s.regs.filter fun p => isRetained p.1 } := by
    refine ⟨h.1, ?_⟩
    dsimp only
    split
    · rfl
    · exact Cells.wfFrom_filter _ h.2
  have marked : ∀ x : State, Canonical x → ∀ v g l, Cells.wf resetOf (markTiles l ((x.setReg R.RST_CAUSE v).setReg (R.GEOM_TOKEN 0) g)).regs = true :=
    fun x hx v g l => ((markTiles_keeps (State.setReg_keeps (State.setReg_keeps (Keeps.refl [Part.regs] x) (List.Subset.refl _))
      (List.Subset.refl _)) (List.Subset.refl _)).canon hx).2
  exact marked _ base _ _ _

theorem companionReset_keeps {ps : List Part} {o s : State} {a1} (h : Keeps ps o s)
    (hp : [.bus, .mp, .sl, .barges, .mr, .mi, .tiles, .au, .sn, .lc, .bc, .wd, .sio, .se, .lk, .wr, .hd, .bs, .ty, .tp, .kc, .ln, .cycle, .ports, .regs, .mem] ⊆ ps) :
    Keeps ps o (companionReset s a1) where
  grade := h.grade
  fused := h.fused
  queue := h.queue
  canon := fun c => ⟨Cells.wfFrom_filter _ (h.canon c).1, regsAfter_wf a1 (h.canon c)⟩
  part := fun q hq => absurd (hp (by cases q <;> simp)) hq

theorem execRstReq_keeps {ps : List Part} {o s : State} {a1 a2} (h : Keeps ps o s) (hp : [.bus, .mp, .sl, .barges, .mr, .mi, .tiles, .au, .sn, .lc, .bc, .wd, .sio, .se, .lk, .wr, .hd, .bs, .ty, .tp, .kc, .ln, .cycle, .ports, .regs, .mem] ⊆ ps) :
    AllNext (execRstReq a1 a2 s) (Keeps ps o) := by
  unfold execRstReq
  repeat' first
    | with_reducible exact h
    | with_reducible assumption
    | with_reducible refine Sub.of hp ?_
    | exact rfl
    | intro _
    | with_reducible apply State.busError_keeps
    | with_reducible apply companionReset_keeps
    | with_reducible apply State.keeperWrite_keeps
    | with_reducible apply AllNext.next
    | with_reducible apply Keeps.ite
    | with_reducible apply AllNext.ite
    | with_reducible apply Keeps.foldl
    | with_reducible apply Keeps.foldN
    | with_reducible apply Keeps.foldr
    | with_reducible apply Keeps.foldlFst
    | split
    | dsimp only
    | assumption

theorem execBrownout_keeps {ps : List Part} {o s : State} {a1} (h : Keeps ps o s) (hp : [.bus, .mp, .sl, .barges, .mr, .mi, .tiles, .au, .sn, .lc, .bc, .wd, .sio, .se, .lk, .wr, .hd, .bs, .ty, .tp, .kc, .ln, .cycle, .ports, .regs, .mem] ⊆ ps) :
    AllNext (execBrownout a1 s) (Keeps ps o) := by
  unfold execBrownout
  repeat' first
    | with_reducible exact h
    | with_reducible assumption
    | with_reducible refine Sub.of hp ?_
    | exact rfl
    | intro _
    | with_reducible apply companionReset_keeps
    | with_reducible apply AllNext.next
    | with_reducible apply Keeps.ite
    | with_reducible apply AllNext.ite
    | with_reducible apply Keeps.foldl
    | with_reducible apply Keeps.foldN
    | with_reducible apply Keeps.foldr
    | with_reducible apply Keeps.foldlFst
    | split
    | dsimp only
    | assumption

theorem execPinReset_keeps {ps : List Part} {o s : State} (h : Keeps ps o s) (hp : [.bus, .mp, .sl, .barges, .mr, .mi, .tiles, .au, .sn, .lc, .bc, .wd, .sio, .se, .lk, .wr, .hd, .bs, .ty, .tp, .kc, .ln, .cycle, .ports, .regs, .mem] ⊆ ps) :
    AllNext (execPinReset s) (Keeps ps o) := by
  unfold execPinReset
  repeat' first
    | with_reducible exact h
    | with_reducible assumption
    | with_reducible refine Sub.of hp ?_
    | exact rfl
    | intro _
    | with_reducible apply companionReset_keeps
    | with_reducible apply AllNext.next
    | with_reducible apply Keeps.ite
    | with_reducible apply AllNext.ite
    | with_reducible apply Keeps.foldl
    | with_reducible apply Keeps.foldN
    | with_reducible apply Keeps.foldr
    | with_reducible apply Keeps.foldlFst
    | split
    | dsimp only
    | assumption

end Sys2Proof.Machine
end

