-- ==== Sys2Proof/Laws/KeepsStart.lean ====
section
/-! SUPPORT. Laws/KeepsStart.lean: which parts of the state each operation of Machine/Start.lean can change. -/

namespace Sys2Proof.Machine

theorem clearVault_keeps {ps : List Part} {o s : State} {a1} (h : Keeps ps o s) (hp : [.se, .bs, .mem] ⊆ ps) :
    Keeps ps o (clearVault s a1) := by
  unfold clearVault
  repeat' first
    | with_reducible exact h
    | with_reducible assumption
    | with_reducible refine Sub.of hp ?_
    | exact rfl
    | intro _
    | with_reducible apply State.wipe_keeps
    | with_reducible apply AllNext.next
    | with_reducible apply Keeps.ite
    | with_reducible apply AllNext.ite
    | with_reducible apply Keeps.foldl
    | with_reducible apply Keeps.foldN
    | with_reducible apply Keeps.foldr
    | with_reducible apply Keeps.foldlFst
    | split
    | with_reducible apply Keeps.se
    | with_reducible apply Keeps.bs
    | dsimp only
    | assumption

theorem openStart_keeps {ps : List Part} {o s : State} {a1} (h : Keeps ps o s) (hp : [.mp, .sl, .barges, .mr, .tiles, .au, .sn, .lc, .bc, .wd, .sio, .lk, .bs, .ty, .tp, .regs] ⊆ ps) :
    Keeps ps o (openStart s a1) := by
  unfold openStart
  repeat' first
    | with_reducible exact h
    | with_reducible assumption
    | with_reducible refine Sub.of hp ?_
    | exact rfl
    | intro _
    | with_reducible apply openStage_keeps
    | with_reducible apply AllNext.next
    | with_reducible apply Keeps.ite
    | with_reducible apply AllNext.ite
    | with_reducible apply Keeps.foldl
    | with_reducible apply Keeps.foldN
    | with_reducible apply Keeps.foldr
    | with_reducible apply Keeps.foldlFst
    | split
    | with_reducible apply Keeps.lk
    | dsimp only
    | assumption

theorem marchAll_keeps {ps : List Part} {o s : State} (h : Keeps ps o s) (hp : [.tiles, .bs, .regs, .mem] ⊆ ps) :
    Keeps ps o (marchAll s) := by
  unfold marchAll
  repeat' first
    | with_reducible exact h
    | with_reducible assumption
    | with_reducible refine Sub.of hp ?_
    | exact rfl
    | intro _
    | with_reducible apply updBs_keeps
    | with_reducible apply State.setReg_keeps
    | with_reducible apply updTile_keeps
    | with_reducible apply State.wipe_keeps
    | with_reducible apply AllNext.next
    | with_reducible apply Keeps.ite
    | with_reducible apply AllNext.ite
    | with_reducible apply Keeps.foldl
    | with_reducible apply Keeps.foldN
    | with_reducible apply Keeps.foldr
    | with_reducible apply Keeps.foldlFst
    | split
    | dsimp only
    | assumption

theorem toStep_keeps {ps : List Part} {o s : State} {a1} (h : Keeps ps o s) (hp : [.wr] ⊆ ps) :
    Keeps ps o (toStep s a1) := by
  unfold toStep
  repeat' first
    | with_reducible exact h
    | with_reducible assumption
    | with_reducible refine Sub.of hp ?_
    | exact rfl
    | intro _
    | with_reducible apply updWr_keeps
    | with_reducible apply AllNext.next
    | with_reducible apply Keeps.ite
    | with_reducible apply AllNext.ite
    | with_reducible apply Keeps.foldl
    | with_reducible apply Keeps.foldN
    | with_reducible apply Keeps.foldr
    | with_reducible apply Keeps.foldlFst
    | split
    | dsimp only
    | assumption

theorem relevel_keeps {ps : List Part} {o s : State} (h : Keeps ps o s) (hp : [.mp, .sl, .barges, .mr, .tiles, .au, .sn, .lc, .bc, .wd, .sio, .se, .lk, .wr, .bs, .ty, .tp, .regs, .mem] ⊆ ps) :
    Keeps ps o (relevel s) := by
  unfold relevel
  repeat' first
    | with_reducible exact h
    | with_reducible assumption
    | with_reducible refine Sub.of hp ?_
    | exact rfl
    | intro _
    | with_reducible apply openStart_keeps
    | with_reducible apply marchAll_keeps
    | with_reducible apply toStep_keeps
    | with_reducible apply startFail_keeps
    | with_reducible apply AllNext.next
    | with_reducible apply Keeps.ite
    | with_reducible apply AllNext.ite
    | with_reducible apply Keeps.foldl
    | with_reducible apply Keeps.foldN
    | with_reducible apply Keeps.foldr
    | with_reducible apply Keeps.foldlFst
    | split
    | with_reducible apply Keeps.se
    | dsimp only
    | assumption

theorem marchFails_keeps {ps : List Part} {o s : State} {a1 a2} (h : Keeps ps o s) (hp : [.mp, .sl, .barges, .mr, .tiles, .au, .sn, .lc, .bc, .wd, .sio, .se, .lk, .wr, .hd, .bs, .ty, .tp, .kc, .ln, .ports, .regs, .mem] ⊆ ps) :
    Keeps ps o (marchFails s a1 a2) := by
  unfold marchFails
  repeat' first
    | with_reducible exact h
    | with_reducible assumption
    | with_reducible refine Sub.of hp ?_
    | exact rfl
    | intro _
    | with_reducible apply retireUnit_keeps
    | with_reducible apply relevel_keeps
    | with_reducible apply startFail_keeps
    | with_reducible apply AllNext.next
    | with_reducible apply Keeps.ite
    | with_reducible apply AllNext.ite
    | with_reducible apply Keeps.foldl
    | with_reducible apply Keeps.foldN
    | with_reducible apply Keeps.foldr
    | with_reducible apply Keeps.foldlFst
    | split
    | dsimp only
    | assumption

theorem stepImage_keeps {ps : List Part} {o s : State} (h : Keeps ps o s) (hp : [.mp, .sl, .barges, .mr, .tiles, .au, .sn, .lc, .bc, .wd, .sio, .se, .lk, .wr, .bs, .ty, .tp, .regs, .mem] ⊆ ps) :
    Keeps ps o (stepImage s) := by
  unfold stepImage
  repeat' first
    | with_reducible exact h
    | with_reducible assumption
    | with_reducible refine Sub.of hp ?_
    | exact rfl
    | intro _
    | with_reducible apply loadTcm_keeps
    | with_reducible apply toStep_keeps
    | with_reducible apply openStart_keeps
    | with_reducible apply startFail_keeps
    | with_reducible apply AllNext.next
    | with_reducible apply Keeps.ite
    | with_reducible apply AllNext.ite
    | with_reducible apply Keeps.foldl
    | with_reducible apply Keeps.foldN
    | with_reducible apply Keeps.foldr
    | with_reducible apply Keeps.foldlFst
    | split
    | with_reducible apply Keeps.se
    | dsimp only
    | assumption

theorem lampReleases_keeps {ps : List Part} {o : State} (l : List StartLamp) : ∀ {s : State}, Keeps ps o s → [.sl, .barges, .mr, .au, .sn, .lc, .bc, .se, .hd, .bs, .ln, .regs, .mem] ⊆ ps →
    Keeps ps o (lampReleases l s).2 := by
  induction l with
  | nil => exact fun h _ => h
  | cons x l ih =>
    intro s h hp
    unfold lampReleases
    split
    · exact ih h hp
    · split
      · exact h
      · exact ih (lampGaps_keeps (releaseLamp_keeps h (Sub.of hp rfl)) (Sub.of hp rfl)) hp

theorem loadTiles_keeps {ps : List Part} {o s : State} {a1} (h : Keeps ps o s) (hp : [.mem] ⊆ ps) :
    Keeps ps o (loadTiles s a1) := by
  unfold loadTiles
  repeat' first
    | with_reducible exact h
    | with_reducible assumption
    | with_reducible refine Sub.of hp ?_
    | exact rfl
    | intro _
    | with_reducible apply State.store_keeps
    | with_reducible apply AllNext.next
    | with_reducible apply Keeps.ite
    | with_reducible apply AllNext.ite
    | with_reducible apply Keeps.foldl
    | with_reducible apply Keeps.foldN
    | with_reducible apply Keeps.foldr
    | with_reducible apply Keeps.foldlFst
    | split
    | dsimp only
    | assumption

theorem stepSeal_keeps {ps : List Part} {o s : State} {a1 a2} (h : Keeps ps o s) (hp : [.barges, .mr, .lc, .bc, .sio, .wr, .tp, .regs] ⊆ ps) :
    Keeps ps o (stepSeal s a1 a2) := by
  unfold stepSeal
  repeat' first
    | with_reducible exact h
    | with_reducible assumption
    | with_reducible refine Sub.of hp ?_
    | exact rfl
    | intro _
    | with_reducible apply updTp_keeps
    | with_reducible apply toStep_keeps
    | with_reducible apply startFail_keeps
    | with_reducible apply AllNext.next
    | with_reducible apply Keeps.ite
    | with_reducible apply AllNext.ite
    | with_reducible apply Keeps.foldl
    | with_reducible apply Keeps.foldN
    | with_reducible apply Keeps.foldr
    | with_reducible apply Keeps.foldlFst
    | split
    | with_reducible apply Keeps.sio
    | dsimp only
    | assumption

theorem endRetirements_keeps {ps : List Part} {o s : State} (h : Keeps ps o s) (hp : [.bc, .regs] ⊆ ps) :
    Keeps ps o (endRetirements s) := by
  unfold endRetirements
  repeat' first
    | with_reducible exact h
    | with_reducible assumption
    | with_reducible refine Sub.of hp ?_
    | exact rfl
    | intro _
    | with_reducible apply updBc_keeps
    | with_reducible apply State.setFld_keeps
    | with_reducible apply AllNext.next
    | with_reducible apply Keeps.ite
    | with_reducible apply AllNext.ite
    | with_reducible apply Keeps.foldl
    | with_reducible apply Keeps.foldN
    | with_reducible apply Keeps.foldr
    | with_reducible apply Keeps.foldlFst
    | split
    | dsimp only
    | assumption

theorem execPowerGood_keeps {ps : List Part} {o s : State} (h : Keeps ps o s) (hp : [.mr, .au, .bc, .se, .wr, .ln, .cycle, .regs] ⊆ ps) :
    AllNext (execPowerGood s) (Keeps ps o) := by
  unfold execPowerGood
  repeat' first
    | with_reducible exact h
    | with_reducible assumption
    | with_reducible refine Sub.of hp ?_
    | exact rfl
    | intro _
    | with_reducible apply updWr_keeps
    | with_reducible apply toStep_keeps
    | with_reducible apply State.draw_keeps
    | with_reducible apply State.wrapInc_keeps
    | with_reducible apply endRetirements_keeps
    | with_reducible apply updLn_keeps
    | with_reducible apply newWindows_keeps
    | with_reducible apply AllNext.next
    | with_reducible apply Keeps.ite
    | with_reducible apply AllNext.ite
    | with_reducible apply Keeps.foldl
    | with_reducible apply Keeps.foldN
    | with_reducible apply Keeps.foldr
    | with_reducible apply Keeps.foldlFst
    | split
    | with_reducible apply Keeps.mr
    | with_reducible apply Keeps.au
    | with_reducible apply Keeps.se
    | with_reducible apply Keeps.cycle
    | dsimp only
    | assumption

theorem lampResults_keeps {ps : List Part} {o s : State} (h : Keeps ps o s) (hp : [.barges, .mr, .lc, .bc, .wr, .regs] ⊆ ps) :
    Keeps ps o (lampResults s) := by
  unfold lampResults
  repeat' first
    | with_reducible exact h
    | with_reducible assumption
    | with_reducible refine Sub.of hp ?_
    | exact rfl
    | intro _
    | with_reducible apply startFail_keeps
    | with_reducible apply updWr_keeps
    | with_reducible apply AllNext.next
    | with_reducible apply Keeps.ite
    | with_reducible apply AllNext.ite
    | with_reducible apply Keeps.foldl
    | with_reducible apply Keeps.foldN
    | with_reducible apply Keeps.foldr
    | with_reducible apply Keeps.foldlFst
    | split
    | dsimp only
    | assumption

theorem lampPump_keeps {ps : List Part} {o s : State} (h : Keeps ps o s) (hp : [.sl, .barges, .mr, .au, .sn, .lc, .bc, .se, .wr, .hd, .bs, .ln, .regs, .mem] ⊆ ps) :
    Keeps ps o (lampPump s) := by
  unfold lampPump
  repeat' first
    | with_reducible exact h
    | with_reducible assumption
    | with_reducible refine Sub.of hp ?_
    | exact rfl
    | intro _
    | with_reducible apply updWr_keeps
    | with_reducible apply lampReleases_keeps
    | with_reducible apply lampResults_keeps
    | with_reducible apply AllNext.next
    | with_reducible apply Keeps.ite
    | with_reducible apply AllNext.ite
    | with_reducible apply Keeps.foldl
    | with_reducible apply Keeps.foldN
    | with_reducible apply Keeps.foldr
    | with_reducible apply Keeps.foldlFst
    | split
    | dsimp only
    | assumption

theorem tickStart_keeps {ps : List Part} {o s : State} (h : Keeps ps o s) (hp : [.sl, .barges, .mr, .au, .sn, .lc, .bc, .se, .wr, .hd, .bs, .ln, .regs, .mem] ⊆ ps) :
    Keeps ps o (tickStart s) := by
  unfold tickStart
  repeat' first
    | with_reducible exact h
    | with_reducible assumption
    | with_reducible refine Sub.of hp ?_
    | exact rfl
    | intro _
    | with_reducible apply lampPump_keeps
    | with_reducible apply updWr_keeps
    | with_reducible apply AllNext.next
    | with_reducible apply Keeps.ite
    | with_reducible apply AllNext.ite
    | with_reducible apply Keeps.foldl
    | with_reducible apply Keeps.foldN
    | with_reducible apply Keeps.foldr
    | with_reducible apply Keeps.foldlFst
    | split
    | dsimp only
    | assumption

theorem rollForward_keeps {ps : List Part} {o s : State} (h : Keeps ps o s) (hp : [.se] ⊆ ps) :
    Keeps ps o (rollForward s) := by
  unfold rollForward
  repeat' first
    | with_reducible exact h
    | with_reducible assumption
    | with_reducible refine Sub.of hp ?_
    | exact rfl
    | intro _
    | with_reducible apply AllNext.next
    | with_reducible apply Keeps.ite
    | with_reducible apply AllNext.ite
    | with_reducible apply Keeps.foldl
    | with_reducible apply Keeps.foldN
    | with_reducible apply Keeps.foldr
    | with_reducible apply Keeps.foldlFst
    | split
    | with_reducible apply Keeps.se
    | dsimp only
    | assumption

theorem becomeReady_keeps {ps : List Part} {o s : State} (h : Keeps ps o s) (hp : [.mp, .sl, .mr, .lc, .bc, .se, .wr, .regs] ⊆ ps) :
    Keeps ps o (becomeReady s) := by
  unfold becomeReady
  repeat' first
    | with_reducible exact h
    | with_reducible assumption
    | with_reducible refine Sub.of hp ?_
    | exact rfl
    | intro _
    | with_reducible apply updBc_keeps
    | with_reducible apply formStart_keeps
    | with_reducible apply readyPost_keeps
    | with_reducible apply rollForward_keeps
    | with_reducible apply restartAll_keeps
    | with_reducible apply updWr_keeps
    | with_reducible apply AllNext.next
    | with_reducible apply Keeps.ite
    | with_reducible apply AllNext.ite
    | with_reducible apply Keeps.foldl
    | with_reducible apply Keeps.foldN
    | with_reducible apply Keeps.foldr
    | with_reducible apply Keeps.foldlFst
    | split
    | with_reducible apply Keeps.sl
    | with_reducible apply Keeps.mr
    | dsimp only
    | assumption

theorem stepReady_keeps {ps : List Part} {o s : State} (h : Keeps ps o s) (hp : [.mp, .sl, .barges, .mr, .au, .sn, .lc, .bc, .se, .wr, .hd, .bs, .ln, .regs, .mem] ⊆ ps) :
    Keeps ps o (stepReady s) := by
  unfold stepReady
  repeat' first
    | with_reducible exact h
    | with_reducible assumption
    | with_reducible refine Sub.of hp ?_
    | exact rfl
    | intro _
    | with_reducible apply becomeReady_keeps
    | with_reducible apply startFail_keeps
    | with_reducible apply lampPump_keeps
    | with_reducible apply AllNext.next
    | with_reducible apply Keeps.ite
    | with_reducible apply AllNext.ite
    | with_reducible apply Keeps.foldl
    | with_reducible apply Keeps.foldN
    | with_reducible apply Keeps.foldr
    | with_reducible apply Keeps.foldlFst
    | split
    | dsimp only
    | assumption

theorem execStartTimeout_keeps {ps : List Part} {o s : State} (h : Keeps ps o s) (hp : [.barges, .mr, .lc, .bc, .wr, .regs] ⊆ ps) :
    AllNext (execStartTimeout s) (Keeps ps o) := by
  unfold execStartTimeout
  repeat' first
    | with_reducible exact h
    | with_reducible assumption
    | with_reducible refine Sub.of hp ?_
    | exact rfl
    | intro _
    | with_reducible apply startFail_keeps
    | with_reducible apply AllNext.next
    | with_reducible apply Keeps.ite
    | with_reducible apply AllNext.ite
    | with_reducible apply Keeps.foldl
    | with_reducible apply Keeps.foldN
    | with_reducible apply Keeps.foldr
    | with_reducible apply Keeps.foldlFst
    | split
    | dsimp only
    | assumption

theorem stepRom_keeps {ps : List Part} {o s : State} (h : Keeps ps o s) (hp : [.se, .wr] ⊆ ps) :
    Keeps ps o (stepRom s) := by
  unfold stepRom
  repeat' first
    | with_reducible exact h
    | with_reducible assumption
    | with_reducible refine Sub.of hp ?_
    | exact rfl
    | intro _
    | with_reducible apply toStep_keeps
    | with_reducible apply AllNext.next
    | with_reducible apply Keeps.ite
    | with_reducible apply AllNext.ite
    | with_reducible apply Keeps.foldl
    | with_reducible apply Keeps.foldN
    | with_reducible apply Keeps.foldr
    | with_reducible apply Keeps.foldlFst
    | split
    | with_reducible apply Keeps.se
    | dsimp only
    | assumption

theorem clearHold_keeps {ps : List Part} {o s : State} {a1} (h : Keeps ps o s) (hp : [.mem] ⊆ ps) : Keeps ps o (clearHold s a1) :=
  h.mem hp fun c => Cells.wfFrom_filter _ c.1

theorem stepLamps_keeps {ps : List Part} {o s : State} (h : Keeps ps o s) (hp : [.sl, .barges, .mr, .au, .sn, .lc, .bc, .se, .wr, .hd, .bs, .ln, .regs, .mem] ⊆ ps) :
    Keeps ps o (stepLamps s) := by
  unfold stepLamps
  repeat' first
    | with_reducible exact h
    | with_reducible assumption
    | with_reducible refine Sub.of hp ?_
    | exact rfl
    | intro _
    | with_reducible apply toStep_keeps
    | with_reducible apply updWr_keeps
    | with_reducible apply lampPump_keeps
    | with_reducible apply AllNext.next
    | with_reducible apply Keeps.ite
    | with_reducible apply AllNext.ite
    | with_reducible apply Keeps.foldl
    | with_reducible apply Keeps.foldN
    | with_reducible apply Keeps.foldr
    | with_reducible apply Keeps.foldlFst
    | split
    | dsimp only
    | assumption

theorem fillEnds_keeps {ps : List Part} {o s : State} (h : Keeps ps o s) (hp : [.bus, .sl, .barges, .tiles, .au, .sn, .lc, .bc, .se, .wr, .hd, .bs, .kc, .ln, .ports, .regs, .mem] ⊆ ps) :
    Keeps ps o (fillEnds s) := by
  unfold fillEnds
  repeat' first
    | with_reducible exact h
    | with_reducible assumption
    | with_reducible refine Sub.of hp ?_
    | exact rfl
    | intro _
    | with_reducible apply writeSlot_keeps
    | with_reducible apply serveHold_keeps
    | with_reducible apply serveBasin_keeps
    | with_reducible apply storeHoldData_keeps
    | with_reducible apply loadTiles_keeps
    | with_reducible apply State.wipe_keeps
    | with_reducible apply updWr_keeps
    | with_reducible apply updHd_keeps
    | with_reducible apply State.setReg_keeps
    | with_reducible apply clearHold_keeps
    | with_reducible apply AllNext.next
    | with_reducible apply Keeps.ite
    | with_reducible apply AllNext.ite
    | with_reducible apply Keeps.foldl
    | with_reducible apply Keeps.foldN
    | with_reducible apply Keeps.foldr
    | with_reducible apply Keeps.foldlFst
    | split
    | with_reducible apply Keeps.sl
    | dsimp only
    | assumption

theorem stepTrained_keeps {ps : List Part} {o s : State} (h : Keeps ps o s) (hp : [.barges, .mr, .lc, .bc, .wr, .hd, .regs] ⊆ ps) :
    Keeps ps o (stepTrained s) := by
  unfold stepTrained
  repeat' first
    | with_reducible exact h
    | with_reducible assumption
    | with_reducible refine Sub.of hp ?_
    | exact rfl
    | intro _
    | with_reducible apply updWr_keeps
    | with_reducible apply toStep_keeps
    | with_reducible apply startUp_keeps
    | with_reducible apply AllNext.next
    | with_reducible apply Keeps.ite
    | with_reducible apply AllNext.ite
    | with_reducible apply Keeps.foldl
    | with_reducible apply Keeps.foldN
    | with_reducible apply Keeps.foldr
    | with_reducible apply Keeps.foldlFst
    | split
    | with_reducible apply Keeps.hd
    | dsimp only
    | assumption

theorem markLost_keeps {ps : List Part} {o s : State} {a1} (h : Keeps ps o s) (hp : [.regs] ⊆ ps) :
    Keeps ps o (markLost s a1) := by
  unfold markLost
  repeat' first
    | with_reducible exact h
    | with_reducible assumption
    | with_reducible refine Sub.of hp ?_
    | exact rfl
    | intro _
    | with_reducible apply State.setBit_keeps
    | with_reducible apply AllNext.next
    | with_reducible apply Keeps.ite
    | with_reducible apply AllNext.ite
    | with_reducible apply Keeps.foldl
    | with_reducible apply Keeps.foldN
    | with_reducible apply Keeps.foldr
    | with_reducible apply Keeps.foldlFst
    | split
    | dsimp only
    | assumption

theorem lostBanks_keeps {ps : List Part} {o s : State} (h : Keeps ps o s) (hp : [.bc, .regs] ⊆ ps) :
    Keeps ps o (lostBanks s) := by
  unfold lostBanks
  repeat' first
    | with_reducible exact h
    | with_reducible assumption
    | with_reducible refine Sub.of hp ?_
    | exact rfl
    | intro _
    | with_reducible apply State.setReg_keeps
    | with_reducible apply markLost_keeps
    | with_reducible apply State.raise_keeps
    | with_reducible apply AllNext.next
    | with_reducible apply Keeps.ite
    | with_reducible apply AllNext.ite
    | with_reducible apply Keeps.foldl
    | with_reducible apply Keeps.foldN
    | with_reducible apply Keeps.foldr
    | with_reducible apply Keeps.foldlFst
    | split
    | dsimp only
    | assumption

theorem stepMarch_keeps {ps : List Part} {o s : State} (h : Keeps ps o s) (hp : [.bs, .regs] ⊆ ps) :
    Keeps ps o (stepMarch s) := by
  unfold stepMarch
  repeat' first
    | with_reducible exact h
    | with_reducible assumption
    | with_reducible refine Sub.of hp ?_
    | exact rfl
    | intro _
    | with_reducible apply beginMarch_keeps
    | with_reducible apply AllNext.next
    | with_reducible apply Keeps.ite
    | with_reducible apply AllNext.ite
    | with_reducible apply Keeps.foldl
    | with_reducible apply Keeps.foldN
    | with_reducible apply Keeps.foldr
    | with_reducible apply Keeps.foldlFst
    | split
    | dsimp only
    | assumption

theorem stepGlint_keeps {ps : List Part} {o s : State} (h : Keeps ps o s) (hp : [.barges, .mr, .lc, .bc, .sio, .wr, .bs, .regs] ⊆ ps) :
    Keeps ps o (stepGlint s) := by
  unfold stepGlint
  repeat' first
    | with_reducible exact h
    | with_reducible assumption
    | with_reducible refine Sub.of hp ?_
    | exact rfl
    | intro _
    | with_reducible apply lostBanks_keeps
    | with_reducible apply toStep_keeps
    | with_reducible apply stepMarch_keeps
    | with_reducible apply startFail_keeps
    | with_reducible apply supplyFault_keeps
    | with_reducible apply AllNext.next
    | with_reducible apply Keeps.ite
    | with_reducible apply AllNext.ite
    | with_reducible apply Keeps.foldl
    | with_reducible apply Keeps.foldN
    | with_reducible apply Keeps.foldr
    | with_reducible apply Keeps.foldlFst
    | split
    | dsimp only
    | assumption

theorem stepOk_keeps {ps : List Part} {o s : State} (h : Keeps ps o s) (hp : [.bus, .mp, .sl, .barges, .mr, .tiles, .au, .sn, .lc, .bc, .wd, .sio, .se, .lk, .wr, .hd, .bs, .ty, .tp, .kc, .ln, .ports, .regs, .mem] ⊆ ps) :
    Keeps ps o (stepOk s) := by
  unfold stepOk
  repeat' first
    | with_reducible exact h
    | with_reducible assumption
    | with_reducible refine Sub.of hp ?_
    | exact rfl
    | intro _
    | with_reducible apply stepReady_keeps
    | with_reducible apply stepLamps_keeps
    | with_reducible apply fillEnds_keeps
    | with_reducible apply stepTrained_keeps
    | with_reducible apply marchAll_keeps
    | with_reducible apply stepGlint_keeps
    | with_reducible apply stepImage_keeps
    | with_reducible apply stepRom_keeps
    | with_reducible apply clearVault_keeps
    | with_reducible apply toStep_keeps
    | with_reducible apply AllNext.next
    | with_reducible apply Keeps.ite
    | with_reducible apply AllNext.ite
    | with_reducible apply Keeps.foldl
    | with_reducible apply Keeps.foldN
    | with_reducible apply Keeps.foldr
    | with_reducible apply Keeps.foldlFst
    | split
    | with_reducible apply Keeps.se
    | dsimp only
    | assumption

theorem stepFails_keeps {ps : List Part} {o s : State} {a1} (h : Keeps ps o s) (hp : [.barges, .mr, .lc, .bc, .wr, .regs] ⊆ ps) :
    Keeps ps o (stepFails s a1) := by
  unfold stepFails
  repeat' first
    | with_reducible exact h
    | with_reducible assumption
    | with_reducible refine Sub.of hp ?_
    | exact rfl
    | intro _
    | with_reducible apply toStep_keeps
    | with_reducible apply startFail_keeps
    | with_reducible apply State.raise_keeps
    | with_reducible apply AllNext.next
    | with_reducible apply Keeps.ite
    | with_reducible apply AllNext.ite
    | with_reducible apply Keeps.foldl
    | with_reducible apply Keeps.foldN
    | with_reducible apply Keeps.foldr
    | with_reducible apply Keeps.foldlFst
    | split
    | dsimp only
    | assumption

theorem brakeStart_keeps {ps : List Part} {o s : State} {a1} (h : Keeps ps o s) (hp : [.barges, .mr, .lc, .bc, .sio, .wr, .regs] ⊆ ps) :
    Keeps ps o (brakeStart s a1) := by
  unfold brakeStart
  repeat' first
    | with_reducible exact h
    | with_reducible assumption
    | with_reducible refine Sub.of hp ?_
    | exact rfl
    | intro _
    | with_reducible apply lockStart_keeps
    | with_reducible apply startFail_keeps
    | with_reducible apply supplyFault_keeps
    | with_reducible apply AllNext.next
    | with_reducible apply Keeps.ite
    | with_reducible apply AllNext.ite
    | with_reducible apply Keeps.foldl
    | with_reducible apply Keeps.foldN
    | with_reducible apply Keeps.foldr
    | with_reducible apply Keeps.foldlFst
    | split
    | with_reducible apply Keeps.sio
    | dsimp only
    | assumption

theorem execStartStepComplete_keeps {ps : List Part} {o s : State} {a1} (h : Keeps ps o s) (hp : [.bus, .mp, .sl, .barges, .mr, .tiles, .au, .sn, .lc, .bc, .wd, .sio, .se, .lk, .wr, .hd, .bs, .ty, .tp, .kc, .ln, .ports, .regs, .mem] ⊆ ps) :
    AllNext (execStartStepComplete a1 s) (Keeps ps o) := by
  unfold execStartStepComplete
  repeat' first
    | with_reducible exact h
    | with_reducible assumption
    | with_reducible refine Sub.of hp ?_
    | exact rfl
    | intro _
    | with_reducible apply stepFails_keeps
    | with_reducible apply marchFails_keeps
    | with_reducible apply brakeStart_keeps
    | with_reducible apply stepSeal_keeps
    | with_reducible apply stepOk_keeps
    | with_reducible apply fillEnds_keeps
    | with_reducible apply AllNext.next
    | with_reducible apply Keeps.ite
    | with_reducible apply AllNext.ite
    | with_reducible apply Keeps.foldl
    | with_reducible apply Keeps.foldN
    | with_reducible apply Keeps.foldr
    | with_reducible apply Keeps.foldlFst
    | split
    | dsimp only
    | assumption

end Sys2Proof.Machine
end

