-- ==== Sys2Proof/Laws/KeepsSeal.lean ====
section
/-! SUPPORT. Laws/KeepsSeal.lean: which parts of the state each operation of Machine/Seal.lean can change. -/

namespace Sys2Proof.Machine

theorem updSe_keeps {ps : List Part} {o s : State} {a1} (h : Keeps ps o s) (hp : [.se] ⊆ ps) :
    Keeps ps o (updSe s a1) := by
  unfold updSe
  repeat' first
    | with_reducible exact h
    | with_reducible assumption
    | with_reducible refine Sub.of hp ?_
    | exact rfl
    | intro _
    | with_reducible apply AllNext.next
    | with_reducible apply Keeps.ite
    | with_reducible apply AllNext.ite
    | with_reducible apply Keeps.foldl
    | with_reducible apply Keeps.foldN
    | with_reducible apply Keeps.foldr
    | with_reducible apply Keeps.foldlFst
    | split
    | with_reducible apply Keeps.se
    | dsimp only
    | assumption

theorem execAttestationStart_keeps {ps : List Part} {o s : State} {a1} (h : Keeps ps o s) (hp : [.bus, .bc, .se, .regs] ⊆ ps) :
    AllNext (execAttestationStart a1 s) (Keeps ps o) := by
  unfold execAttestationStart
  repeat' first
    | with_reducible exact h
    | with_reducible assumption
    | with_reducible refine Sub.of hp ?_
    | exact rfl
    | intro _
    | with_reducible apply updSe_keeps
    | with_reducible apply sm3Ask_keeps
    | with_reducible apply State.setReg_keeps
    | with_reducible apply State.openWrite_keeps
    | with_reducible apply AllNext.next
    | with_reducible apply Keeps.ite
    | with_reducible apply AllNext.ite
    | with_reducible apply Keeps.foldl
    | with_reducible apply Keeps.foldN
    | with_reducible apply Keeps.foldr
    | with_reducible apply Keeps.foldlFst
    | split
    | dsimp only
    | assumption

theorem execGoldenVerify_keeps {ps : List Part} {o s : State} {a1 a2} (h : Keeps ps o s) (hp : [.bus, .bc, .se] ⊆ ps) :
    AllNext (execGoldenVerify a1 a2 s) (Keeps ps o) := by
  unfold execGoldenVerify
  repeat' first
    | with_reducible exact h
    | with_reducible assumption
    | with_reducible refine Sub.of hp ?_
    | exact rfl
    | intro _
    | with_reducible apply updSe_keeps
    | with_reducible apply sm3Ask_keeps
    | with_reducible apply State.openWrite_keeps
    | with_reducible apply AllNext.next
    | with_reducible apply Keeps.ite
    | with_reducible apply AllNext.ite
    | with_reducible apply Keeps.foldl
    | with_reducible apply Keeps.foldN
    | with_reducible apply Keeps.foldr
    | with_reducible apply Keeps.foldlFst
    | split
    | dsimp only
    | assumption

theorem execCommitAbort_keeps {ps : List Part} {o s : State} {a1} (h : Keeps ps o s) (hp : [.bus, .bc, .se] ⊆ ps) :
    AllNext (execCommitAbort a1 s) (Keeps ps o) := by
  unfold execCommitAbort
  repeat' first
    | with_reducible exact h
    | with_reducible assumption
    | with_reducible refine Sub.of hp ?_
    | exact rfl
    | intro _
    | with_reducible apply updSe_keeps
    | with_reducible apply State.openWrite_keeps
    | with_reducible apply AllNext.next
    | with_reducible apply Keeps.ite
    | with_reducible apply AllNext.ite
    | with_reducible apply Keeps.foldl
    | with_reducible apply Keeps.foldN
    | with_reducible apply Keeps.foldr
    | with_reducible apply Keeps.foldlFst
    | split
    | dsimp only
    | assumption

theorem countWipe_keeps {ps : List Part} {o s : State} {a1} (h : Keeps ps o s) (hp : [.regs] ⊆ ps) :
    Keeps ps o (countWipe s a1) := by
  unfold countWipe
  repeat' first
    | with_reducible exact h
    | with_reducible assumption
    | with_reducible refine Sub.of hp ?_
    | exact rfl
    | intro _
    | with_reducible apply State.satAdd_keeps
    | with_reducible apply State.setFld_keeps
    | with_reducible apply AllNext.next
    | with_reducible apply Keeps.ite
    | with_reducible apply AllNext.ite
    | with_reducible apply Keeps.foldl
    | with_reducible apply Keeps.foldN
    | with_reducible apply Keeps.foldr
    | with_reducible apply Keeps.foldlFst
    | split
    | dsimp only
    | assumption

theorem execLcRequest_keeps {ps : List Part} {o s : State} {a1 a2} (h : Keeps ps o s) (hp : [.bus, .mp, .sl, .barges, .mr, .mi, .tiles, .au, .sn, .lc, .bc, .wd, .sio, .se, .lk, .wr, .hd, .bs, .ty, .tp, .kc, .ln, .cycle, .ports, .regs, .mem] ⊆ ps) :
    AllNext (execLcRequest a1 a2 s) (Keeps ps o) := by
  unfold execLcRequest
  repeat' first
    | with_reducible exact h
    | with_reducible assumption
    | with_reducible refine Sub.of hp ?_
    | exact rfl
    | intro _
    | with_reducible apply State.setReg_keeps
    | with_reducible apply countWipe_keeps
    | with_reducible apply clearVault_keeps
    | with_reducible apply updSe_keeps
    | with_reducible apply companionReset_keeps
    | with_reducible apply State.keeperWrite_keeps
    | with_reducible apply AllNext.next
    | with_reducible apply Keeps.ite
    | with_reducible apply AllNext.ite
    | with_reducible apply Keeps.foldl
    | with_reducible apply Keeps.foldN
    | with_reducible apply Keeps.foldr
    | with_reducible apply Keeps.foldlFst
    | split
    | dsimp only
    | assumption

theorem execAttestationDone_keeps {ps : List Part} {o s : State} (h : Keeps ps o s) (hp : [.se, .regs] ⊆ ps) :
    AllNext (execAttestationDone s) (Keeps ps o) := by
  unfold execAttestationDone
  repeat' first
    | with_reducible exact h
    | with_reducible assumption
    | with_reducible refine Sub.of hp ?_
    | exact rfl
    | intro _
    | with_reducible apply State.setBit_keeps
    | with_reducible apply State.draw_keeps
    | with_reducible apply State.setReg_keeps
    | with_reducible apply updSe_keeps
    | with_reducible apply sm3Drop_keeps
    | with_reducible apply AllNext.next
    | with_reducible apply Keeps.ite
    | with_reducible apply AllNext.ite
    | with_reducible apply Keeps.foldl
    | with_reducible apply Keeps.foldN
    | with_reducible apply Keeps.foldr
    | with_reducible apply Keeps.foldlFst
    | split
    | dsimp only
    | assumption

theorem updTarget_keeps {ps : List Part} {o s : State} {a1} (h : Keeps ps o s) (hp : [.se] ⊆ ps) :
    Keeps ps o (updTarget s a1) := by
  unfold updTarget
  repeat' first
    | with_reducible exact h
    | with_reducible assumption
    | with_reducible refine Sub.of hp ?_
    | exact rfl
    | intro _
    | with_reducible apply updSe_keeps
    | with_reducible apply AllNext.next
    | with_reducible apply Keeps.ite
    | with_reducible apply AllNext.ite
    | with_reducible apply Keeps.foldl
    | with_reducible apply Keeps.foldN
    | with_reducible apply Keeps.foldr
    | with_reducible apply Keeps.foldlFst
    | split
    | dsimp only
    | assumption

theorem toPhase_keeps {ps : List Part} {o s : State} {a1 a2} (h : Keeps ps o s) (hp : [.se, .regs] ⊆ ps) :
    Keeps ps o (toPhase s a1 a2) := by
  unfold toPhase
  repeat' first
    | with_reducible exact h
    | with_reducible assumption
    | with_reducible refine Sub.of hp ?_
    | exact rfl
    | intro _
    | with_reducible apply State.setReg_keeps
    | with_reducible apply updSe_keeps
    | with_reducible apply AllNext.next
    | with_reducible apply Keeps.ite
    | with_reducible apply AllNext.ite
    | with_reducible apply Keeps.foldl
    | with_reducible apply Keeps.foldN
    | with_reducible apply Keeps.foldr
    | with_reducible apply Keeps.foldlFst
    | split
    | dsimp only
    | assumption

theorem commitEnds_keeps {ps : List Part} {o s : State} {a1} (h : Keeps ps o s) (hp : [.se, .regs] ⊆ ps) :
    Keeps ps o (commitEnds s a1) := by
  unfold commitEnds
  repeat' first
    | with_reducible exact h
    | with_reducible assumption
    | with_reducible refine Sub.of hp ?_
    | exact rfl
    | intro _
    | with_reducible apply updSe_keeps
    | with_reducible apply sm3Drop_keeps
    | with_reducible apply toPhase_keeps
    | with_reducible apply State.setBit_keeps
    | with_reducible apply AllNext.next
    | with_reducible apply Keeps.ite
    | with_reducible apply AllNext.ite
    | with_reducible apply Keeps.foldl
    | with_reducible apply Keeps.foldN
    | with_reducible apply Keeps.foldr
    | with_reducible apply Keeps.foldlFst
    | split
    | dsimp only
    | assumption

theorem phaseOk_keeps {ps : List Part} {o s : State} (h : Keeps ps o s) (hp : [.se, .regs] ⊆ ps) :
    Keeps ps o (phaseOk s) := by
  unfold phaseOk
  repeat' first
    | with_reducible exact h
    | with_reducible assumption
    | with_reducible refine Sub.of hp ?_
    | exact rfl
    | intro _
    | with_reducible apply State.setBit_keeps
    | with_reducible apply sm3Ask_keeps
    | with_reducible apply updTarget_keeps
    | with_reducible apply commitEnds_keeps
    | with_reducible apply updSe_keeps
    | with_reducible apply sm3Drop_keeps
    | with_reducible apply toPhase_keeps
    | with_reducible apply AllNext.next
    | with_reducible apply Keeps.ite
    | with_reducible apply AllNext.ite
    | with_reducible apply Keeps.foldl
    | with_reducible apply Keeps.foldN
    | with_reducible apply Keeps.foldr
    | with_reducible apply Keeps.foldlFst
    | split
    | dsimp only
    | assumption

theorem spoilTarget_keeps {ps : List Part} {o s : State} (h : Keeps ps o s) (hp : [.se] ⊆ ps) :
    Keeps ps o (spoilTarget s) := by
  unfold spoilTarget
  repeat' first
    | with_reducible exact h
    | with_reducible assumption
    | with_reducible refine Sub.of hp ?_
    | exact rfl
    | intro _
    | with_reducible apply updTarget_keeps
    | with_reducible apply AllNext.next
    | with_reducible apply Keeps.ite
    | with_reducible apply AllNext.ite
    | with_reducible apply Keeps.foldl
    | with_reducible apply Keeps.foldN
    | with_reducible apply Keeps.foldr
    | with_reducible apply Keeps.foldlFst
    | split
    | with_reducible apply Keeps.freeIdx
    | dsimp only
    | assumption

theorem abortTarget_keeps {ps : List Part} {o s : State} (h : Keeps ps o s) (hp : [.se] ⊆ ps) :
    Keeps ps o (abortTarget s) := by
  unfold abortTarget
  repeat' first
    | with_reducible exact h
    | with_reducible assumption
    | with_reducible refine Sub.of hp ?_
    | exact rfl
    | intro _
    | with_reducible apply spoilTarget_keeps
    | with_reducible apply updTarget_keeps
    | with_reducible apply AllNext.next
    | with_reducible apply Keeps.ite
    | with_reducible apply AllNext.ite
    | with_reducible apply Keeps.foldl
    | with_reducible apply Keeps.foldN
    | with_reducible apply Keeps.foldr
    | with_reducible apply Keeps.foldlFst
    | split
    | dsimp only
    | assumption

theorem execCommitPhaseDone_keeps {ps : List Part} {o s : State} {a1} (h : Keeps ps o s) (hp : [.se, .regs] ⊆ ps) :
    AllNext (execCommitPhaseDone a1 s) (Keeps ps o) := by
  unfold execCommitPhaseDone
  repeat' first
    | with_reducible exact h
    | with_reducible assumption
    | with_reducible refine Sub.of hp ?_
    | exact rfl
    | intro _
    | with_reducible apply spoilTarget_keeps
    | with_reducible apply phaseOk_keeps
    | with_reducible apply abortTarget_keeps
    | with_reducible apply commitEnds_keeps
    | with_reducible apply AllNext.next
    | with_reducible apply Keeps.ite
    | with_reducible apply AllNext.ite
    | with_reducible apply Keeps.foldl
    | with_reducible apply Keeps.foldN
    | with_reducible apply Keeps.foldr
    | with_reducible apply Keeps.foldlFst
    | split
    | dsimp only
    | assumption

theorem execGoldenVerifyDone_keeps {ps : List Part} {o s : State} {a1} (h : Keeps ps o s) (hp : [.bc, .se, .hd, .ln, .regs] ⊆ ps) :
    AllNext (execGoldenVerifyDone a1 s) (Keeps ps o) := by
  unfold execGoldenVerifyDone
  repeat' first
    | with_reducible exact h
    | with_reducible assumption
    | with_reducible refine Sub.of hp ?_
    | exact rfl
    | intro _
    | with_reducible apply holdBadRead_keeps
    | with_reducible apply updSe_keeps
    | with_reducible apply sm3Drop_keeps
    | with_reducible apply State.setBit_keeps
    | with_reducible apply AllNext.next
    | with_reducible apply Keeps.ite
    | with_reducible apply AllNext.ite
    | with_reducible apply Keeps.foldl
    | with_reducible apply Keeps.foldN
    | with_reducible apply Keeps.foldr
    | with_reducible apply Keeps.foldlFst
    | split
    | dsimp only
    | assumption

theorem execVaultWipeTimeout_keeps {ps : List Part} {o s : State} (h : Keeps ps o s) (hp : [.bc] ⊆ ps) :
    AllNext (execVaultWipeTimeout s) (Keeps ps o) := by
  unfold execVaultWipeTimeout
  repeat' first
    | with_reducible exact h
    | with_reducible assumption
    | with_reducible refine Sub.of hp ?_
    | exact rfl
    | intro _
    | with_reducible apply State.raise_keeps
    | with_reducible apply AllNext.next
    | with_reducible apply Keeps.ite
    | with_reducible apply AllNext.ite
    | with_reducible apply Keeps.foldl
    | with_reducible apply Keeps.foldN
    | with_reducible apply Keeps.foldr
    | with_reducible apply Keeps.foldlFst
    | split
    | dsimp only
    | assumption

theorem startWipe_keeps {ps : List Part} {o s : State} {a1} (h : Keeps ps o s) (hp : [.se, .regs] ⊆ ps) :
    Keeps ps o (startWipe s a1) := by
  unfold startWipe
  repeat' first
    | with_reducible exact h
    | with_reducible assumption
    | with_reducible refine Sub.of hp ?_
    | exact rfl
    | intro _
    | with_reducible apply countWipe_keeps
    | with_reducible apply updSe_keeps
    | with_reducible apply AllNext.next
    | with_reducible apply Keeps.ite
    | with_reducible apply AllNext.ite
    | with_reducible apply Keeps.foldl
    | with_reducible apply Keeps.foldN
    | with_reducible apply Keeps.foldr
    | with_reducible apply Keeps.foldlFst
    | split
    | dsimp only
    | assumption

theorem execTamperDetect_keeps {ps : List Part} {o s : State} {a1} (h : Keeps ps o s) (hp : [.bc, .se, .regs] ⊆ ps) :
    AllNext (execTamperDetect a1 s) (Keeps ps o) := by
  unfold execTamperDetect
  repeat' first
    | with_reducible exact h
    | with_reducible assumption
    | with_reducible refine Sub.of hp ?_
    | exact rfl
    | intro _
    | with_reducible apply State.setBit_keeps
    | with_reducible apply State.satAdd_keeps
    | with_reducible apply startWipe_keeps
    | with_reducible apply State.raise_keeps
    | with_reducible apply AllNext.next
    | with_reducible apply Keeps.ite
    | with_reducible apply AllNext.ite
    | with_reducible apply Keeps.foldl
    | with_reducible apply Keeps.foldN
    | with_reducible apply Keeps.foldr
    | with_reducible apply Keeps.foldlFst
    | split
    | dsimp only
    | assumption

theorem execVaultWipeDone_keeps {ps : List Part} {o s : State} {a1} (h : Keeps ps o s) (hp : [.bc, .se, .bs, .regs, .mem] ⊆ ps) :
    AllNext (execVaultWipeDone a1 s) (Keeps ps o) := by
  unfold execVaultWipeDone
  repeat' first
    | with_reducible exact h
    | with_reducible assumption
    | with_reducible refine Sub.of hp ?_
    | exact rfl
    | intro _
    | with_reducible apply State.raise_keeps
    | with_reducible apply State.setBit_keeps
    | with_reducible apply updSe_keeps
    | with_reducible apply clearVault_keeps
    | with_reducible apply AllNext.next
    | with_reducible apply Keeps.ite
    | with_reducible apply AllNext.ite
    | with_reducible apply Keeps.foldl
    | with_reducible apply Keeps.foldN
    | with_reducible apply Keeps.foldr
    | with_reducible apply Keeps.foldlFst
    | split
    | dsimp only
    | assumption

theorem execProvisioningRequest_keeps {ps : List Part} {o s : State} {a1} (h : Keeps ps o s) (hp : [.bus, .mp, .sl, .barges, .mr, .mi, .tiles, .au, .sn, .lc, .bc, .wd, .sio, .se, .lk, .wr, .hd, .bs, .ty, .tp, .kc, .ln, .cycle, .ports, .regs, .mem] ⊆ ps) :
    AllNext (execProvisioningRequest a1 s) (Keeps ps o) := by
  unfold execProvisioningRequest
  repeat' first
    | with_reducible exact h
    | with_reducible assumption
    | with_reducible refine Sub.of hp ?_
    | exact rfl
    | intro _
    | with_reducible apply countWipe_keeps
    | with_reducible apply clearVault_keeps
    | with_reducible apply updSe_keeps
    | with_reducible apply companionReset_keeps
    | with_reducible apply State.draw_keeps
    | with_reducible apply AllNext.next
    | with_reducible apply Keeps.ite
    | with_reducible apply AllNext.ite
    | with_reducible apply Keeps.foldl
    | with_reducible apply Keeps.foldN
    | with_reducible apply Keeps.foldr
    | with_reducible apply Keeps.foldlFst
    | split
    | dsimp only
    | assumption

theorem execCommitStart_keeps {ps : List Part} {o s : State} {a1 a2} (h : Keeps ps o s) (hp : [.bus, .bc, .se, .regs] ⊆ ps) :
    AllNext (execCommitStart a1 a2 s) (Keeps ps o) := by
  unfold execCommitStart
  repeat' first
    | with_reducible exact h
    | with_reducible assumption
    | with_reducible refine Sub.of hp ?_
    | exact rfl
    | intro _
    | with_reducible apply sm3Ask_keeps
    | with_reducible apply updSe_keeps
    | with_reducible apply toPhase_keeps
    | with_reducible apply State.openWrite_keeps
    | with_reducible apply AllNext.next
    | with_reducible apply Keeps.ite
    | with_reducible apply AllNext.ite
    | with_reducible apply Keeps.foldl
    | with_reducible apply Keeps.foldN
    | with_reducible apply Keeps.foldr
    | with_reducible apply Keeps.foldlFst
    | split
    | dsimp only
    | assumption

end Sys2Proof.Machine
end

