-- ==== Sys2Proof/Laws/KeepsRegisters.lean ====
section
/-! SUPPORT. Laws/KeepsRegisters.lean: which parts of the state each operation of Machine/Registers.lean can change. -/

namespace Sys2Proof.Machine

theorem lkWrite_keeps {ps : List Part} {o s : State} {a1 a2} (h : Keeps ps o s) (hp : [.bus, .mp, .sl, .barges, .mr, .tiles, .au, .sn, .lc, .bc, .wd, .sio, .lk, .bs, .ty, .tp, .regs] ⊆ ps) :
    AllNext (lkWrite a1 a2 s) (Keeps ps o) := by
  unfold lkWrite
  repeat' first
    | with_reducible exact h
    | with_reducible assumption
    | with_reducible refine Sub.of hp ?_
    | exact rfl
    | intro _
    | with_reducible apply State.busError_keeps
    | with_reducible apply State.keeperWrite_keeps
    | with_reducible apply execLkDiscard_keeps
    | with_reducible apply execLkOpen_keeps
    | with_reducible apply execLkLevel_keeps
    | with_reducible apply execLkBegin_keeps
    | with_reducible apply AllNext.next
    | with_reducible apply Keeps.ite
    | with_reducible apply AllNext.ite
    | with_reducible apply Keeps.foldl
    | with_reducible apply Keeps.foldN
    | with_reducible apply Keeps.foldr
    | with_reducible apply Keeps.foldlFst
    | split
    | dsimp only
    | assumption

theorem tlDbgWrite_keeps {ps : List Part} {o s : State} {a1 a2 a3} (h : Keeps ps o s) (hp : [.bus, .barges, .tiles, .au, .sn, .lc, .bc, .ln, .ports, .regs, .mem] ⊆ ps) :
    AllNext (tlDbgWrite a1 a2 a3 s) (Keeps ps o) := by
  unfold tlDbgWrite
  repeat' first
    | with_reducible exact h
    | with_reducible assumption
    | with_reducible refine Sub.of hp ?_
    | exact rfl
    | intro _
    | with_reducible apply execTlDbgHalt_keeps
    | with_reducible apply execTlDbgStep_keeps
    | with_reducible apply execTlDbgResume_keeps
    | with_reducible apply AllNext.next
    | with_reducible apply Keeps.ite
    | with_reducible apply AllNext.ite
    | with_reducible apply Keeps.foldl
    | with_reducible apply Keeps.foldN
    | with_reducible apply Keeps.foldr
    | with_reducible apply Keeps.foldlFst
    | split
    | dsimp only
    | assumption

theorem tlStopWrite_keeps {ps : List Part} {o s : State} {a1 a2 a3} (h : Keeps ps o s) (hp : [.bus, .tiles, .bc] ⊆ ps) :
    AllNext (tlStopWrite a1 a2 a3 s) (Keeps ps o) := by
  unfold tlStopWrite
  repeat' first
    | with_reducible exact h
    | with_reducible assumption
    | with_reducible refine Sub.of hp ?_
    | exact rfl
    | intro _
    | with_reducible apply State.keeperWrite_keeps
    | with_reducible apply execTlStopPause_keeps
    | with_reducible apply execTlStopAbort_keeps
    | with_reducible apply AllNext.next
    | with_reducible apply Keeps.ite
    | with_reducible apply AllNext.ite
    | with_reducible apply Keeps.foldl
    | with_reducible apply Keeps.foldN
    | with_reducible apply Keeps.foldr
    | with_reducible apply Keeps.foldlFst
    | split
    | dsimp only
    | assumption

theorem tileRoute_keeps {ps : List Part} {o s : State} {a1 a2 a3} (h : Keeps ps o s) (hp : [.bus, .barges, .tiles, .au, .sn, .lc, .bc, .se, .hd, .bs, .ln, .ports, .regs, .mem] ⊆ ps) :
    OptNext (tileRoute a1 a2 a3 s) (Keeps ps o) := by
  unfold tileRoute
  repeat' first
    | with_reducible exact h
    | with_reducible assumption
    | with_reducible refine Sub.of hp ?_
    | exact rfl
    | intro _
    | with_reducible apply execTlEventSet_keeps
    | with_reducible apply tlDbgWrite_keeps
    | with_reducible apply execTlReset_keeps
    | with_reducible apply tlStopWrite_keeps
    | with_reducible apply execTlStart_keeps
    | with_reducible apply AllNext.next
    | with_reducible apply Keeps.ite
    | with_reducible apply AllNext.ite
    | with_reducible apply OptNext.or
    | with_reducible apply OptNext.map
    | with_reducible apply OptNext.some
    | with_reducible apply OptNext.none
    | with_reducible apply OptNext.ite
    | with_reducible apply Keeps.foldl
    | with_reducible apply Keeps.foldN
    | with_reducible apply Keeps.foldr
    | with_reducible apply Keeps.foldlFst
    | split
    | dsimp only
    | assumption

theorem lnCtlWrite_keeps {ps : List Part} {o s : State} {a1 a2 a3} (h : Keeps ps o s) (hp : [.bus, .bc, .ln, .regs] ⊆ ps) :
    AllNext (lnCtlWrite a1 a2 a3 s) (Keeps ps o) := by
  unfold lnCtlWrite
  have hf : AllNext (execLnCtlFreeze a1 a2 (a3.getLsbD 0) s) (Keeps ps o) := execLnCtlFreeze_keeps h (Sub.of hp rfl)
  split
  · next t e =>
    have ht := hf.all t e
    split
    · exact execLnCtlClr_keeps ht (Sub.of hp rfl)
    · exact AllNext.next ht
  · exact hf

theorem brakeWrite_keeps {ps : List Part} {o s : State} {a1 a2 a3} (h : Keeps ps o s) (hp : [.bus, .bc, .sio, .regs] ⊆ ps) :
    AllNext (brakeWrite a1 a2 a3 s) (Keeps ps o) := by
  unfold brakeWrite
  repeat' first
    | with_reducible exact h
    | with_reducible assumption
    | with_reducible refine Sub.of hp ?_
    | exact rfl
    | intro _
    | with_reducible apply execBrakeApplyRequest_keeps
    | with_reducible apply execBrakeReleaseRequest_keeps
    | with_reducible apply AllNext.next
    | with_reducible apply Keeps.ite
    | with_reducible apply AllNext.ite
    | with_reducible apply Keeps.foldl
    | with_reducible apply Keeps.foldN
    | with_reducible apply Keeps.foldr
    | with_reducible apply Keeps.foldlFst
    | split
    | dsimp only
    | assumption

theorem rowRoute_keeps {ps : List Part} {o s : State} {a1 a2 a3} (h : Keeps ps o s) (hp : [.bus, .sl, .barges, .mr, .lc, .bc, .wd, .sio, .lk, .wr, .bs, .ty, .kc, .ln, .regs, .mem] ⊆ ps) :
    OptNext (rowRoute a1 a2 a3 s) (Keeps ps o) := by
  unfold rowRoute
  repeat' first
    | with_reducible exact h
    | with_reducible assumption
    | with_reducible refine Sub.of hp ?_
    | exact rfl
    | intro _
    | with_reducible apply execEvselWrite_keeps
    | with_reducible apply lnCtlWrite_keeps
    | with_reducible apply execKeeperWindowWrite_keeps
    | with_reducible apply execBankHandoverRequest_keeps
    | with_reducible apply execPmbusTransfer_keeps
    | with_reducible apply brakeWrite_keeps
    | with_reducible apply execWdtBadKey_keeps
    | with_reducible apply execCapWrite_keeps
    | with_reducible apply execCfgRequest_keeps
    | with_reducible apply execAccReset_keeps
    | with_reducible apply execStrRestart_keeps
    | with_reducible apply execTincWrite_keeps
    | with_reducible apply AllNext.next
    | with_reducible apply Keeps.ite
    | with_reducible apply AllNext.ite
    | with_reducible apply OptNext.or
    | with_reducible apply OptNext.map
    | with_reducible apply OptNext.some
    | with_reducible apply OptNext.none
    | with_reducible apply OptNext.ite
    | with_reducible apply Keeps.foldl
    | with_reducible apply Keeps.foldN
    | with_reducible apply Keeps.foldr
    | with_reducible apply Keeps.foldlFst
    | split
    | dsimp only
    | assumption

theorem attWrite_keeps {ps : List Part} {o s : State} {a1 a2} (h : Keeps ps o s) (hp : [.bus, .bc, .se, .regs] ⊆ ps) :
    AllNext (attWrite a1 a2 s) (Keeps ps o) := by
  unfold attWrite
  repeat' first
    | with_reducible exact h
    | with_reducible assumption
    | with_reducible refine Sub.of hp ?_
    | exact rfl
    | intro _
    | with_reducible apply State.openWrite_keeps
    | with_reducible apply execAttestationStart_keeps
    | with_reducible apply AllNext.next
    | with_reducible apply Keeps.ite
    | with_reducible apply AllNext.ite
    | with_reducible apply Keeps.foldl
    | with_reducible apply Keeps.foldN
    | with_reducible apply Keeps.foldr
    | with_reducible apply Keeps.foldlFst
    | split
    | dsimp only
    | assumption

theorem plainWrite_keeps {ps : List Part} {o s : State} {a1 a2 a3} (h : Keeps ps o s) (hp : [.se, .regs] ⊆ ps) :
    Keeps ps o (plainWrite a1 a2 a3 s) := by
  unfold plainWrite
  repeat' first
    | with_reducible exact h
    | with_reducible assumption
    | with_reducible refine Sub.of hp ?_
    | exact rfl
    | intro _
    | with_reducible apply State.setReg_keeps
    | with_reducible apply AllNext.next
    | with_reducible apply Keeps.ite
    | with_reducible apply AllNext.ite
    | with_reducible apply Keeps.foldl
    | with_reducible apply Keeps.foldN
    | with_reducible apply Keeps.foldr
    | with_reducible apply Keeps.foldlFst
    | split
    | with_reducible apply Keeps.se
    | dsimp only
    | assumption

theorem registerWrite_keeps {ps : List Part} {o s : State} {a1 a2 a3} (h : Keeps ps o s) (hp : [.bus, .bc, .se, .regs] ⊆ ps) :
    Keeps ps o (registerWrite a1 a2 a3 s) := by
  unfold registerWrite
  repeat' first
    | with_reducible exact h
    | with_reducible assumption
    | with_reducible refine Sub.of hp ?_
    | exact rfl
    | intro _
    | with_reducible apply plainWrite_keeps
    | with_reducible apply State.keeperWrite_keeps
    | with_reducible apply State.openWrite_keeps
    | with_reducible apply AllNext.next
    | with_reducible apply Keeps.ite
    | with_reducible apply AllNext.ite
    | with_reducible apply Keeps.foldl
    | with_reducible apply Keeps.foldN
    | with_reducible apply Keeps.foldr
    | with_reducible apply Keeps.foldlFst
    | split
    | dsimp only
    | assumption

theorem seqWrite_keeps {ps : List Part} {o s : State} {a1 a2} (h : Keeps ps o s) (hp : [.bus, .barges, .mr, .lc, .bc, .wr, .regs] ⊆ ps) :
    AllNext (seqWrite a1 a2 s) (Keeps ps o) := by
  unfold seqWrite
  repeat' first
    | with_reducible exact h
    | with_reducible assumption
    | with_reducible refine Sub.of hp ?_
    | exact rfl
    | intro _
    | with_reducible apply State.keeperWrite_keeps
    | with_reducible apply execSeqCmdUp_keeps
    | with_reducible apply execSeqCmdDown_keeps
    | with_reducible apply AllNext.next
    | with_reducible apply Keeps.ite
    | with_reducible apply AllNext.ite
    | with_reducible apply Keeps.foldl
    | with_reducible apply Keeps.foldN
    | with_reducible apply Keeps.foldr
    | with_reducible apply Keeps.foldlFst
    | split
    | dsimp only
    | assumption

theorem commitWrite_keeps {ps : List Part} {o s : State} {a1 a2} (h : Keeps ps o s) (hp : [.bus, .bc, .se] ⊆ ps) :
    AllNext (commitWrite a1 a2 s) (Keeps ps o) := by
  unfold commitWrite
  repeat' first
    | with_reducible exact h
    | with_reducible assumption
    | with_reducible refine Sub.of hp ?_
    | exact rfl
    | intro _
    | with_reducible apply State.openWrite_keeps
    | with_reducible apply execCommitAbort_keeps
    | with_reducible apply AllNext.next
    | with_reducible apply Keeps.ite
    | with_reducible apply AllNext.ite
    | with_reducible apply Keeps.foldl
    | with_reducible apply Keeps.foldN
    | with_reducible apply Keeps.foldr
    | with_reducible apply Keeps.foldlFst
    | split
    | dsimp only
    | assumption

theorem chalWrite_keeps {ps : List Part} {o s : State} {a1 a2} (h : Keeps ps o s) (hp : [.bus, .barges, .au, .lc, .bc, .regs] ⊆ ps) :
    AllNext (chalWrite a1 a2 s) (Keeps ps o) := by
  unfold chalWrite
  repeat' first
    | with_reducible exact h
    | with_reducible assumption
    | with_reducible refine Sub.of hp ?_
    | exact rfl
    | intro _
    | with_reducible apply execChallengeClose_keeps
    | with_reducible apply execChallengeInput_keeps
    | with_reducible apply execChallengeProject_keeps
    | with_reducible apply execChallengeExact_keeps
    | with_reducible apply AllNext.next
    | with_reducible apply Keeps.ite
    | with_reducible apply AllNext.ite
    | with_reducible apply Keeps.foldl
    | with_reducible apply Keeps.foldN
    | with_reducible apply Keeps.foldr
    | with_reducible apply Keeps.foldlFst
    | split
    | dsimp only
    | assumption

theorem singleRoute_keeps {ps : List Part} {o s : State} {a1 a2 a3} (h : Keeps ps o s) (hp : [.bus, .mp, .sl, .barges, .mr, .mi, .tiles, .au, .sn, .lc, .bc, .wd, .sio, .se, .lk, .wr, .hd, .bs, .ty, .tp, .kc, .ln, .cycle, .ports, .regs, .mem] ⊆ ps) :
    OptNext (singleRoute a1 a2 a3 s) (Keeps ps o) := by
  unfold singleRoute
  refine OptNext.find ?_
  refine OptNext.cons (execSilentClr_keeps h (Sub.of hp rfl)) ?_
  refine OptNext.cons (execDrbgInstantiate_keeps h (Sub.of hp rfl)) ?_
  refine OptNext.cons (chalWrite_keeps h (Sub.of hp rfl)) ?_
  refine OptNext.cons (execCoveragePush_keeps h (Sub.of hp rfl)) ?_
  refine OptNext.cons (execLibVerify_keeps h (Sub.of hp rfl)) ?_
  refine OptNext.cons (execModelLoad_keeps h (Sub.of hp rfl)) ?_
  refine OptNext.cons (execSelftestStart_keeps h (Sub.of hp rfl)) ?_
  refine OptNext.cons (execBcMaskOpen_keeps h (Sub.of hp rfl)) ?_
  refine OptNext.cons (execBcGlintReq_keeps h (Sub.of hp rfl)) ?_
  refine OptNext.cons (execBcForce_keeps h (Sub.of hp rfl)) ?_
  refine OptNext.cons (execBcRetClr_keeps h (Sub.of hp rfl)) ?_
  refine OptNext.cons (execWdRstClr_keeps h (Sub.of hp rfl)) ?_
  refine OptNext.cons (execTsCheckin_keeps h (Sub.of hp rfl)) ?_
  refine OptNext.cons (execLcRequest_keeps h (Sub.of hp rfl)) ?_
  refine OptNext.cons (commitWrite_keeps h (Sub.of hp rfl)) ?_
  refine OptNext.cons (attWrite_keeps h (Sub.of hp rfl)) ?_
  refine OptNext.cons (execGoldenVerify_keeps h (Sub.of hp rfl)) ?_
  refine OptNext.cons (lkWrite_keeps h (Sub.of hp rfl)) ?_
  refine OptNext.cons (execRstReq_keeps h (Sub.of hp rfl)) ?_
  refine OptNext.cons (execAdcTrig_keeps h (Sub.of hp rfl)) ?_
  refine OptNext.cons (seqWrite_keeps h (Sub.of hp rfl)) ?_
  refine OptNext.cons (execRecorderPlanAppend_keeps h (Sub.of hp rfl)) ?_
  refine OptNext.cons (execBsLostClr_keeps h (Sub.of hp rfl)) ?_
  refine OptNext.cons (execMarchStart_keeps h (Sub.of hp rfl)) ?_
  refine OptNext.cons (execStopTx_keeps h (Sub.of hp rfl)) ?_
  refine OptNext.cons (execHarbourTx_keeps h (Sub.of hp rfl)) ?_
  refine OptNext.cons (execLnBwWinWrite_keeps h (Sub.of hp rfl)) ?_
  refine OptNext.cons (execDumpStart_keeps h (Sub.of hp rfl)) ?_
  exact OptNext.nil

theorem tallyRoute_keeps {ps : List Part} {o s : State} {a1 a2 a3} (h : Keeps ps o s) (hp : [.bus, .bc, .ty, .regs] ⊆ ps) :
    OptNext (tallyRoute a1 a2 a3 s) (Keeps ps o) := by
  unfold tallyRoute
  repeat' first
    | with_reducible exact h
    | with_reducible assumption
    | with_reducible refine Sub.of hp ?_
    | exact rfl
    | intro _
    | with_reducible apply tallyWrite_keeps
    | with_reducible apply execTallyAliveChk_keeps
    | with_reducible apply execTallyIn32_keeps
    | with_reducible apply execTallyIn16_keeps
    | with_reducible apply execTallyIn8_keeps
    | with_reducible apply execTallyStart_keeps
    | with_reducible apply execTallyCfgWrite_keeps
    | with_reducible apply AllNext.next
    | with_reducible apply Keeps.ite
    | with_reducible apply AllNext.ite
    | with_reducible apply OptNext.or
    | with_reducible apply OptNext.map
    | with_reducible apply OptNext.some
    | with_reducible apply OptNext.none
    | with_reducible apply OptNext.ite
    | with_reducible apply Keeps.foldl
    | with_reducible apply Keeps.foldN
    | with_reducible apply Keeps.foldr
    | with_reducible apply Keeps.foldlFst
    | split
    | dsimp only
    | assumption

theorem writeRoute_keeps {ps : List Part} {o s : State} {a1 a2 a3} (h : Keeps ps o s) (hp : [.bus, .mp, .sl, .barges, .mr, .mi, .tiles, .au, .sn, .lc, .bc, .wd, .sio, .se, .lk, .wr, .hd, .bs, .ty, .tp, .kc, .ln, .cycle, .ports, .regs, .mem] ⊆ ps) :
    OptNext (writeRoute a1 a2 a3 s) (Keeps ps o) := by
  unfold writeRoute
  repeat' first
    | with_reducible exact h
    | with_reducible assumption
    | with_reducible refine Sub.of hp ?_
    | exact rfl
    | intro _
    | with_reducible apply singleRoute_keeps
    | with_reducible apply rowRoute_keeps
    | with_reducible apply tallyRoute_keeps
    | with_reducible apply tileRoute_keeps
    | with_reducible apply AllNext.next
    | with_reducible apply Keeps.ite
    | with_reducible apply AllNext.ite
    | with_reducible apply OptNext.or
    | with_reducible apply OptNext.map
    | with_reducible apply OptNext.some
    | with_reducible apply OptNext.none
    | with_reducible apply OptNext.ite
    | with_reducible apply Keeps.foldl
    | with_reducible apply Keeps.foldN
    | with_reducible apply Keeps.foldr
    | with_reducible apply Keeps.foldlFst
    | split
    | dsimp only
    | assumption

theorem execRegisterWrite_keeps {ps : List Part} {o s : State} {a1 a2 a3 a4} (h : Keeps ps o s) (hp : [.bus, .mp, .sl, .barges, .mr, .mi, .tiles, .au, .sn, .lc, .bc, .wd, .sio, .se, .lk, .wr, .hd, .bs, .ty, .tp, .kc, .ln, .cycle, .ports, .regs, .mem] ⊆ ps) :
    AllNext (execRegisterWrite a1 a2 a3 a4 s) (Keeps ps o) := by
  unfold execRegisterWrite
  split
  · exact AllNext.next (State.refuse_keeps h (Sub.of hp rfl))
  · split
    · exact AllNext.next (Keeps.ite (State.busError_keeps h (Sub.of hp rfl)) (State.refuse_keeps h (Sub.of hp rfl)))
    · split
      · exact execStagedWrite_keeps h (Sub.of hp rfl)
      · have hr : OptNext (writeRoute a1 a2 a4 s) (Keeps ps o) := writeRoute_keeps h (Sub.of hp rfl)
        split
        · next x e => exact hr.all x e
        · exact AllNext.next (registerWrite_keeps h (Sub.of hp rfl))

end Sys2Proof.Machine
end

