-- ==== Sys2Proof/Laws/KeepsTick.lean ====
section
/-! SUPPORT. Laws/KeepsTick.lean: which parts of the state each operation of Machine/Tick.lean can change. -/

namespace Sys2Proof.Machine

theorem endTiles_keeps {ps : List Part} {o s : State} (h : Keeps ps o s) (hp : [.tiles, .ln, .regs] ⊆ ps) :
    Keeps ps o (endTiles s) := by
  unfold endTiles
  repeat' first
    | with_reducible exact h
    | with_reducible assumption
    | with_reducible refine Sub.of hp ?_
    | exact rfl
    | intro _
    | with_reducible apply bankRetry_keeps
    | with_reducible apply AllNext.next
    | with_reducible apply Keeps.ite
    | with_reducible apply AllNext.ite
    | with_reducible apply Keeps.foldl
    | with_reducible apply Keeps.foldN
    | with_reducible apply Keeps.foldr
    | with_reducible apply Keeps.foldlFst
    | split
    | dsimp only
    | assumption

theorem beginTiles_keeps {ps : List Part} {o s : State} (h : Keeps ps o s) (hp : [.tiles, .ln, .regs] ⊆ ps) :
    Keeps ps o (beginTiles s) := by
  unfold beginTiles
  repeat' first
    | with_reducible exact h
    | with_reducible assumption
    | with_reducible refine Sub.of hp ?_
    | exact rfl
    | intro _
    | with_reducible apply tileCycle_keeps
    | with_reducible apply AllNext.next
    | with_reducible apply Keeps.ite
    | with_reducible apply AllNext.ite
    | with_reducible apply Keeps.foldl
    | with_reducible apply Keeps.foldN
    | with_reducible apply Keeps.foldr
    | with_reducible apply Keeps.foldlFst
    | split
    | dsimp only
    | assumption

end Sys2Proof.Machine
end

