-- ==== Sys2Proof/Laws/KeepsView.lean ====
section
/-! SUPPORT. Laws/KeepsView.lean: which parts of the state each operation of Machine/View.lean can change. -/

namespace Sys2Proof.Machine

theorem readAccess_keeps {ps : List Part} {o s : State} {a1 a2 a3 a4} (h : Keeps ps o s) (hp : [.bus, .bc] ⊆ ps) :
    Keeps ps o (readAccess s a1 a2 a3 a4) := by
  unfold readAccess
  repeat' first
    | with_reducible exact h
    | with_reducible assumption
    | with_reducible refine Sub.of hp ?_
    | exact rfl
    | intro _
    | with_reducible apply State.busError_keeps
    | with_reducible apply State.refuse_keeps
    | with_reducible apply State.busOk_keeps
    | with_reducible apply AllNext.next
    | with_reducible apply Keeps.ite
    | with_reducible apply AllNext.ite
    | with_reducible apply Keeps.foldl
    | with_reducible apply Keeps.foldN
    | with_reducible apply Keeps.foldr
    | with_reducible apply Keeps.foldlFst
    | split
    | with_reducible apply Keeps.bus
    | dsimp only
    | assumption

end Sys2Proof.Machine
end

