-- ==== Sys2Proof/Laws/Level.lean ====
section
/-! SUPPORT. Laws/Level.lean: what the level step answers: the first of several conflicts is one of them, so that a single broken rule
refuses a stage. -/

namespace Sys2Proof.Machine

/-- A fold whose function keeps something keeps something. -/
theorem Level.foldl_isSome {f : Option Conflict → Conflict → Option Conflict} (hf : ∀ d c, (f (some d) c).isSome = true) :
    ∀ (cs : List Conflict) (d : Conflict), (cs.foldl f (some d)).isSome = true
  | [], _ => rfl
  | c :: cs, d => by
    obtain ⟨e, he⟩ := Option.isSome_iff_exists.mp (hf d c)
    rw [List.foldl_cons, he]
    exact Level.foldl_isSome hf cs e

/-- A list with a conflict has a first one. -/
theorem Level.first_ne_none {cs : List Conflict} (h : cs ≠ []) : Level.first cs ≠ none := by
  cases cs with
  | nil => exact absurd rfl h
  | cons c cs =>
    unfold Level.first
    rw [List.foldl_cons]
    refine Option.isSome_iff_ne_none.mp (Level.foldl_isSome (fun d c => ?_) cs c)
    dsimp only
    split <;> rfl

/-- A stage with any conflict is refused. -/
theorem levelStage_ne_none {s : State} {c : Conflict} (h : c ∈ Level.all s (withStage s)) : levelStage s ≠ none :=
  Level.first_ne_none fun he => by simp [he] at h

/-- A stage that leaves V_MAX at 0 is refused (R39). -/
theorem levelStage_ne_none_of_v_max {s : State} (h : (withStage s).reg R.V_MAX = 0) : levelStage s ≠ none := by
  refine levelStage_ne_none (c := ⟨1, R.V_MAX, 0⟩) ?_
  have : (⟨1, R.V_MAX, 0⟩ : Conflict) ∈ Level.milepost (withStage s) := by simp [Level.milepost, Level.range, h]
  simp only [Level.all, List.mem_append]
  simp [this]

end Sys2Proof.Machine
end

