-- ==== Sys2Proof/WellFormed.lean ====
section
/-! DEFINITION. WellFormed.lean: which commands the outside world can send. Beside the operand types the manual sets few limits: an
access is 1 to 64 bytes long, a register write 1, 2 or 4 bytes, a request of the accelerator 1 to 4,096 bytes; a link trains at one of
its speeds and widths; commands that share a register are told apart by the value written. -/

namespace Sys2Proof

/-- A memory access of a core, up to a cache line. -/
def wfMemOp : MemOp → Bool
  | .read n => decide (0 < n ∧ n ≤ 64)
  | .write bs => decide (0 < bs.length ∧ bs.length ≤ 64)

/-- A request of the accelerator: a read asks for at most 512 bytes, a write brings at most 256 (Table 23-8). -/
def wfInReq : InReq → Bool
  | .msi _ => true
  | .read _ n _ => decide (0 < n ∧ n ≤ 512)
  | .write _ bs _ => decide (0 < bs.length ∧ bs.length ≤ 256)

/-- A 40-bit address of the map (R396). -/
def wfAddr (a : Nat) : Bool := decide (a < 2 ^ 40)

/-- Link speeds are generations 1 to 5, widths powers of two up to 16 (R71). -/
def wfLink (speed : BitVec 3) (width : BitVec 5) : Bool :=
  decide (1 ≤ speed.toNat ∧ speed.toNat ≤ 5) && [1, 2, 4, 8, 16].contains width.toNat

/-- TP_STOP_TX.CANCEL. -/
def isCancel (v : Word) : Bool := v.getLsbD 2

/-- A watchdog key. -/
def isKey (v : Half) : Bool := v == 0x5A5A || v == 0xA5A5

/-- The commands with a limit of their own; every other one is well formed. -/
def WellFormed (i : Instr) : Bool :=
  match i with
  | .registerWrite _ a n _ => wfAddr a && [1, 2, 4].contains n
  | .stagedWrite _ a _ => wfAddr a
  | .holdAccess _ _ op _ => wfMemOp op
  | .onChipSramAccess _ _ op _ => wfMemOp op
  | .inboundRequest _ _ r => wfInReq r
  | .linkUp _ speed width _ => wfLink speed width
  | .wdtBadKey _ _ v => !isKey v
  | .stopTx _ v => !isCancel v
  | .stopCancel _ v => isCancel v
  | .quadratureEdge .. | .zPulse .. | .ssiRead .. | .encoderLineFault .. | .singleTimeout | .speedEstimate | .readLoLatch ..
  | .verdictDeadlineMissed .. | .postReached .. | .postRelease | .postqPop | .tincWrite .. | .timerCompareReached ..
  | .captureEdge .. | .capturePop .. | .trigPulseEnd .. | .csiFrameStart .. | .csiLongPacket .. | .csiFrameEnd ..
  | .ethSegment .. | .ethUnmatchedFrame .. | .linkRegain .. | .sensorLinkLoss .. | .strRestart .. | .assemblyDeadline ..
  | .lampSlotEnd | .cfgRequest .. | .outboundAccess .. | .outboundCompletion .. | .completionTimeout .. | .landingWrite
  | .patrolBlock .. | .portStart .. | .perstDelayEnd .. | .linkUpTimeout .. | .accReadyRise .. | .accBootTimeout ..
  | .accReadyFall .. | .accFault .. | .accTherm .. | .linkDown .. | .ltssmRecovery .. | .accReset .. | .sigRecordHandover
  | .mirrorCompare .. | .windowDeadline .. | .missingResult .. | .mirrorGlint .. | .silentClr .. | .tlStart ..
  | .tlStopAbort .. | .tlStopPause .. | .tileStopComplete .. | .tlReset .. | .tileResetDone .. | .tlDbgHalt ..
  | .tlDbgStep .. | .tlDbgResume .. | .tlEventSet .. | .opNop .. | .opHalt .. | .opLoop .. | .opJmp .. | .opBnz ..
  | .opWaite .. | .opSige .. | .opAddi .. | .opAdd .. | .opSub .. | .opMuli .. | .opLds .. | .opSts .. | .opWld ..
  | .opWsw .. | .opMma .. | .mmaDrained .. | .opAccr .. | .opAccw .. | .opVld .. | .opVst .. | .opVop .. | .opVops ..
  | .opVreq .. | .opVlut .. | .opVred .. | .opDma .. | .opDwait .. | .opAkt .. | .dmaTransferDone .. | .dmaTimeout ..
  | .cycleLimit .. | .sealDeadline .. | .sealMissingTimeout .. | .readyqPop | .drbgInstantiate .. | .drbgOutRead ..
  | .challengeExact .. | .challengeProject .. | .challengeInput .. | .challengeClose .. | .challengeReadDone ..
  | .challengeReadError | .auditTileDone .. | .coveragePush .. | .capWrite .. | .libVerify .. | .libVerifyDone ..
  | .modelLoad .. | .modelLoadDone .. | .plausibilityEval .. | .envelopeEval .. | .lampDeadline .. | .lampAgeTest
  | .selftestStart .. | .selftestAgeExceeded .. | .verdictForm .. | .recordRelease | .abandonRecord | .validTimeout ..
  | .pinReadbackMismatch .. | .spiFrameBad .. | .mbNext .. | .mbData | .mbAck .. | .ntNext .. | .ntData | .ntAck ..
  | .mbTimeLo | .canFrameSent .. | .canTxTimeout .. | .canBusOff .. | .canFrameReceived .. | .sourceEvent ..
  | .countWindowClose .. | .bcMaskOpen .. | .maskIntervalEnd | .pwrcutPulseEnd | .reactionPathDisagree .. | .glintIssue ..
  | .glintWindowEnd | .glintReadbackEnd | .bcGlintReq .. | .bcForce .. | .bcRetClr .. | .wdtKeyArm .. | .wdtKeyService ..
  | .wdtLate .. | .wdtKeyLapse .. | .wdoPulseEnd | .wdoReadbackMismatch .. | .wdRstClr .. | .tsCheckin .. | .taskBoundary ..
  | .brakeReleaseRequest .. | .brakeApplyRequest .. | .releaseLsgConfirmed .. | .releaseComplete .. | .brakeReadbackFault ..
  | .testPulseStart .. | .testPulseJudge .. | .testPulseEnd .. | .brakeSupplyFault .. | .loAckPress | .sinContactChange ..
  | .sinDiscrepancyTimeout .. | .sinTestPulse .. | .sealLoopStep .. | .lcRequest .. | .tamperDetect .. | .vaultWipeDone ..
  | .vaultWipeTimeout | .goldenVerify .. | .goldenVerifyDone .. | .commitStart .. | .commitAbort .. | .commitPhaseDone ..
  | .attestationStart .. | .attestationDone | .lkBegin .. | .lkLevel .. | .levelDone | .lkOpen .. | .lkDiscard ..
  | .stageExpired | .powerGood | .startStepComplete .. | .startTimeout | .ownRailFault .. | .brownout .. | .tjSample ..
  | .adcConversion .. | .adcTrig .. | .seqCmdUp .. | .seqCmdDown .. | .seqStepDone .. | .downSequenceStep
  | .accEnReadbackMismatch .. | .pmbusTransfer .. | .pmbusDone .. | .pinReset | .rstReq .. | .scrubRead ..
  | .refreshRateCheck .. | .zqCalibration .. | .recorderPlanAppend .. | .bankHandoverRequest .. | .bankHandoverComplete ..
  | .marchStart .. | .marchSegmentDone .. | .marchDone .. | .bsLostClr .. | .tallyCfgWrite .. | .tallyStart .. | .tallyIn8 ..
  | .tallyIn16 .. | .tallyIn32 .. | .tallyResLo .. | .tallyAlive .. | .tallyAliveChk .. | .tallyGlint .. | .helloSend
  | .zholiFrameBad .. | .hello .. | .claim .. | .claimSend | .assign .. | .route .. | .routeAck .. | .stop .. | .data ..
  | .bcast .. | .stopCopy | .ptpSync .. | .syncLoss .. | .peerDelay .. | .siteFailover | .neighbourSilent .. | .tpLinkLoss ..
  | .harbourTx .. | .lockstepMismatch .. | .delayParityError .. | .keeperHalt .. | .keeperResume .. | .keeperWindowWrite ..
  | .keeperWindowAccess .. | .evselWrite .. | .lnCtlClr .. | .lnCtlFreeze .. | .lnBwWinWrite .. | .bwWindowEnd
  | .dumpStart .. | .dumpDone | .timeIntegrityFault .. | .clockMonitorFault | .holdoverAgeExceeded ..
  | .uncorrectableErrorMessage .. | .loAckPressStart | .offTransitionPass .. | .domainLeavesReset ..
  | .provisioningRequest .. => true

end Sys2Proof
end

