-- ==== Sys2Proof/Tests/Slice0.lean ====
section
/-! SUPPORT. Tests/Slice0.lean: the smoke test of WellFormed, single-step tests whose expected values are the manual's worked examples,
and for every statement of Certificates/Slice0 that has hypotheses a witness that meets those of each of its clauses. -/

namespace Sys2Proof.Tests

set_option Elab.async false
set_option linter.unusedVariables false

open Sys2Proof Sys2Proof.Machine

/-! ### WellFormed refuses an ill-formed term for each of its checks -/

theorem test_wf_register_write_size : WellFormed (.registerWrite .k0 0x30200018 3 0) = false := by decide
theorem test_wf_register_write_address : WellFormed (.registerWrite .k0 (2 ^ 40) 4 0) = false := by decide
theorem test_wf_staged_write : WellFormed (.stagedWrite .k0 (2 ^ 40) 0) = false := by decide
theorem test_wf_hold_access : WellFormed (.holdAccess .k0 0x100000000 (.read 65) .clean) = false := by decide
theorem test_wf_on_chip_access : WellFormed (.onChipSramAccess .k0 0x10000000 (.write []) .clean) = false := by decide
theorem test_wf_inbound_request : WellFormed (.inboundRequest 0 false (.read 0 513 .clean)) = false := by decide +kernel
theorem test_wf_link_up : WellFormed (.linkUp 0 6 8 0) = false := by decide
theorem test_wf_wdt_bad_key : WellFormed (.wdtBadKey .k0 0 0x5A5A) = false := by decide
theorem test_wf_stop_tx : WellFormed (.stopTx .k0 0x570F0004) = false := by decide
theorem test_wf_stop_cancel : WellFormed (.stopCancel .k0 0x570F0002) = false := by decide
theorem test_wf_accepts : WellFormed (.registerWrite .k0 0x30200018 4 0) = true ∧ WellFormed (.opNop 0 ⟨.clean, [], [], false, none, none⟩) = true := by decide

/-! ### The manual's numbers -/

/-- The state a meaning answers. -/
def ran (o : Out) : State := match o with | .next t => t | _ => State.reset

/-- "123456789". -/
def nine : List Byte := [0x31, 0x32, 0x33, 0x34, 0x35, 0x36, 0x37, 0x38, 0x39]

/-- Table 17-1: the check values. -/
theorem test_crc8_check : crcPlain crc8 nine = 0x4B := by decide +kernel
theorem test_crc16_check : crcPlain crc16 nine = 0x29B1 := by decide +kernel
theorem test_crc32_check : crcPlain crc32 nine = 0xCBF43926 := by decide +kernel
theorem test_crc32c_check : crcPlain crc32c nine = 0xE3069283 := by decide +kernel
theorem test_crc64_check : crcPlain crc64 nine = 0x995DC9BBDF1939FA := by decide +kernel

/-- GB/T 32905, its example of "abc" (the standard R153 names). -/
theorem test_sm3_abc : sm3Nat [0x61, 0x62, 0x63] = 0x66C7F0F462EEEDD9D1F2D46BDC10E4E24167C4875CF2F7A2297DA02B8F4BA8E0 := by decide +kernel

/-- R14's worked case across a wrap: the deadline is missed. -/
theorem test_late_across_wrap : late 0x00000010 0xFFFFFFF0 = true ∧ late 0xFFFFFFF0 0x00000010 = false := by decide

/-- R17's example: 0x3A7 names zone 3, cell 10, node 7. -/
theorem test_address_3a7 : addrZone 0x3A7 = 3 ∧ addrCell 0x3A7 = 10 ∧ addrNode 0x3A7 = 7 := by decide

/-- R391's example: K0 reads 0x12_3456_7000 through KW2. -/
theorem test_keeper_window_example :
    (ran (execKeeperWindowAccess 0 0xD4567000 false (State.reset.setReg (R.KC_Kp_KWn_CFG 0 2) 0x00910001))).kc.lastAddr = some 0x1234567000 := by
  decide +kernel

/-- The scaling example of the Milepost chapter: 16,384 counts of 122.0703125 µm are 2,000,000 µm. -/
theorem test_scale_example : 16384 * (0x7A * 2 ^ 32 + 0x12000000) = 2000000 * 2 ^ 32 := by decide

/-- WDT0 with OPEN 8,000 and CLOSE 12,000, armed, at a count of its tick. -/
def dogAt (count : Nat) : State :=
  let s := ((State.reset.setReg (R.WDTw_CFG 0) 3).setReg (R.WDTw_OPEN 0) 8000).setReg (R.WDTw_CLOSE 0) 12000
  { (s.setReg R.WD_CTRL 1) with cycle := 750 * count, wd := { s.wd with ticks := count, dogs := s.wd.dogs.set 0 ⟨some 0, some count, none, none⟩ } }

/-- Table 12-3: 7,999 is EARLY with syndrome 2, 8,000 and 11,999 are valid, 12,000 is LATE with syndrome 1. -/
theorem test_wdt_7999_early : (ran (execWdtKeyService .k0 0 (dogAt 7999))).bc.lines = [⟨88, 0, 2, none, 5999250⟩] := by decide +kernel
theorem test_wdt_8000_valid : (ran (execWdtKeyService .k0 0 (dogAt 8000))).bc.lines = [] := by decide +kernel
theorem test_wdt_11999_valid : (ran (execWdtKeyService .k0 0 (dogAt 11999))).bc.lines = [] := by decide +kernel
theorem test_wdt_12000_late : (ran (execWdtLate 0 (dogAt 12000))).bc.lines = [⟨88, 0, 1, none, 9000000⟩] := by decide +kernel

/-- E4 of Table 12-4: MIN 1, MAX 1, one check-in counted. -/
def entity4 : State :=
  let s := (State.reset.setReg (R.TSe_CFG 4) 0x00080801).setReg (R.TSe_PER 4) 10000
  { s with cycle := 1537500, wd := { s.wd with entities := s.wd.entities.set 4 { s.wd.entities[4] with count := 1, first := false } } }

/-- Table 12-4: the second check-in of E4 is above MAX: ES93 with syndrome 4. -/
theorem test_e4_over_alive : (ran (execTsCheckin .k0 4 entity4)).bc.lines = [⟨93, 0, 4, none, 1537500⟩] := by decide +kernel

/-- R362 and R17 of the examples: an SE_IRQ_STAT bit is cleared by writing 1, another stays (Table 00-5). -/
theorem test_w1c : (ran (execRegisterWrite .k0 R.SE_IRQ_STAT 4 1 (State.reset.setReg R.SE_IRQ_STAT 3))).reg R.SE_IRQ_STAT = 2 := by decide +kernel

/-- R5: ID is read-only. -/
theorem test_id_read_only : (ran (execRegisterWrite .k0 0x30200000 4 0 State.reset)).reg 0x30200000 = 0x4D500720 := by decide +kernel

/-- R7: Harbour's write of a Keeper-only register is a bus error with ES10. -/
theorem test_keeper_only : (ran (execRegisterWrite .harbour (R.HD_REC_PUTn 3) 4 1 State.reset)).bus = .error := by decide +kernel

/-- The step takes the oldest command. -/
theorem test_step_takes_the_front :
    (ran (step { State.reset with pending := [.clockMonitorFault, .postqPop] })).pending = [.postqPop] := by decide +kernel

/-! ### A stage that levels (R304) -/

/-- Registers that keep every range and relation of R304: rows of first address, stride, count and value, by block. -/
def goodRows : List (Nat × Nat × Nat × Word) :=
  [(R.LMPl_CFG 0, 0x40, 256, 0x100#32), (R.LMPl_MAXI_T 0, 0x40, 256, 1#32), (R.LMPl_MAXI_S 0, 0x40, 256, 1#32), (R.LMPl_DL_T 0, 0x40,
    256, 1#32),
   (R.SCHKx_CFG 0, 0x20, 64, 0x1000000#32), (R.ENVx_CFG 0, 0x20, 64, 0x1000000#32), (R.SGg_CFG 0, 0x10, 8, 0x104#32), (R.SN_LIB_SIZE,
     4, 1, 1#32), (R.ST_CTRL, 4, 1, 0x10000#32)]

/-- Registers by block, continued. -/
def goodRows2 : List (Nat × Nat × Nat × Word) :=
  [(R.NETx_DL_T 0, 0x20, 64, 2#32), (R.MNETx_WDL_T 0, 0x20, 64, 1#32), (R.VALv_CFG 0, 0x10, 4, 0x100#32), (R.CANc_TX_TO 0, 0x40, 2,
    100#32), (R.MI_CTRL, 4, 1, 0xA00#32)]

/-- Registers by block, continued. -/
def goodRows3 : List (Nat × Nat × Nat × Word) :=
  [(R.AUn_BUDGET 0, 0x40, 64, 1#32), (R.AUn_WIN 0, 0x40, 64, 1#32), (R.AUn_SEAL_T 0, 0x40, 64, 1#32), (R.ACHc_CFG 0, 0x10, 16,
    0x10002#32), (R.ACHc_WIN 0, 0x10, 16, 0x10000#32),
   (R.LK_HOLD, 4, 1, 100#32), (R.SEQ_CTRL, 4, 1, 0x640000#32), (R.START_TMO, 4, 1, 10000#32), (R.HD_SCRUB_PER, 4, 1, 10#32), (R.HD_QOS,
     4, 1, 0x1111#32), (R.HD_REC_SIZE, 4, 1, 17#32),
   (R.HD_REC_LOG, 4, 1, 16#32), (R.TP_TOFF_LIM, 4, 1, 3#32), (R.TP_TIME_CFG, 4, 1, 0x6405#32), (R.TP_HQ, 4, 1, 0x10100#32), (R.BANKb_CFG 0, 4, 1, 2#32)]

/-- Registers by block, continued. -/
def goodRows4 : List (Nat × Nat × Nat × Word) :=
  [(R.PATr_CFG 0, 0x20, 64, 0x10000#32), (R.Cc_CFG 0, 0x40, 4, 2#32), (R.Cc_STRIP 0, 0x40, 4, 0x80010#32), (R.RPn_CTRL 0, 0x100, 2,
    0x01010A02#32), (R.RPn_CPL_TO 0, 0x100, 2, 50#32),
   (R.OBWn_e_CFG 0 0, 0x20, 16, 0x280#32), (R.IBWn_e_CFG 0 0, 0x100, 2, 0x62#32), (R.IBWn_e_CFG 0 0, 0x20, 16, 0x60#32)]

/-- Registers by block, continued. -/
def goodRows5 : List (Nat × Nat × Nat × Word) :=
  [(R.TSe_CFG 0, 0x20, 64, 0x80000#32), (R.TSe_PER 0, 0x20, 64, 100#32), (R.WDTw_OPEN 0, 0x20, 4, 1#32), (R.WDTw_CLOSE 0, 0x20, 4, 2#32),
   (R.WDTw_CFG 0, 4, 1, 7#32), (R.WDTw_CFG 1, 4, 1, 15#32), (R.WDTw_CFG 2, 4, 1, 0x10#32), (R.WD_CTRL, 4, 1, 10#32)]

/-- Registers by block, continued. -/
def goodRows6 : List (Nat × Nat × Nat × Word) :=
  [(R.SETk_ASM_T 0, 0x40, 16, 1#32), (R.SETk_ASM_S 0, 0x40, 16, 1#32), (R.TRIGj_WIDTH 0, 0x10, 8, 1#32), (R.SINi_CFG 0, 0x10, 8,
    0x50100#32), (R.ENCn_SSIPER 0, 0x40, 4, 10#32),
   (R.BRKn_TIME 0, 0x40, 4, 0x10A0101#32), (R.BRKn_ILIM 0, 0x40, 4, 0x401#32), (R.V_MAX, 4, 1, 5000#32), (R.DL_STILL, 4, 1, 1000#32),
     (R.SL_RING_SIZE, 4, 1, 1#32), (R.SL_RING_BASE_LO, 4, 1, 0x1000000#32),
   (R.BRK_VS_CFG, 4, 1, 0xFF000000#32), (R.SL_CTRL, 4, 1, 0x30#32)]

/-- Registers by block, continued. -/
def goodRows7 : List (Nat × Nat × Nat × Word) := [(R.TL_CFG 0, 0x10000, 36, 0x10001#32), (R.GEOM_TOKEN 0, 4, 1, 0x100#32)]
/-- The value a list of rows gives a register: the first row that holds it. -/
def goodIn (rs : List (Nat × Nat × Nat × Word)) (a : Nat) : Word :=
  match rs with
  | [] => 0
  | (b, st, n, v) :: rs => if b ≤ a then (if a < b + st * n then (if (a - b) % st = 0 then v else goodIn rs a) else goodIn rs a) else goodIn rs a

/-- By the block of the address; the policies at their defaults. -/
def goodCell (a : Nat) : Word :=
  match a / 0x100000 with
  | 0x313 => goodIn goodRows a
  | 0x308 => goodIn goodRows2 a
  | 0x307 => goodIn goodRows2 a
  | 0x306 => goodIn goodRows4 a
  | 0x301 => goodIn goodRows5 a
  | 0x305 => goodIn goodRows6 a
  | 0x302 => goodIn goodRows6 a
  | 0x303 => goodIn goodRows6 a
  | 0x310 => goodIn goodRows7 a
  | 0x311 => goodIn goodRows7 a
  | 0x312 => goodIn goodRows7 a
  | 0x300 => if 0x30001000 ≤ a ∧ a < 0x30002000 then polDefault ((a - 0x30001000) / 0x20) ((a - 0x30001000) % 0x20) else if a = R.BC_CTRL then 0xA0A00 else 0
  | _ => goodIn goodRows3 a

/-- The value of every register in `good`. -/
def goodReg (a : Nat) : Word := if a < 4294967296 then goodCell a else resetOf a

/-- The same with the stage of `good` in effect: 0x13 in POL7_CFG. -/
def goodV (a : Nat) : Word := if a = 805310688 then 0x2013#32 else goodReg a

section Levelling
open Level
variable {s v : State}
set_option maxRecDepth 100000
set_option linter.unusedSimpArgs false

theorem good_milepost (hv : ∀ a, v.reg a = goodV a) : Level.milepost v = [] := by
  delta milepost ssiOn
  simp only [range, relation, within, each, outside, wordOutside, badTime, diverse, priEnc, secEnc, State.fld, State.flag, hv]
  decide +kernel

theorem good_mooringPort (hv : ∀ a, v.reg a = goodV a) (n : Nat) (hn : n < 2) : Level.mooringPort s v n = [] := by
  obtain rfl | rfl : n = 0 ∨ n = 1 := by omega
  · have h : (List.range 8).filter (ibOn v 0) = [0] := by
      delta ibOn ibKind
      simp only [State.fld, hv]
      decide +kernel
    have h1 : (List.range 8).filter (obOn v 0) = [] := by
      delta obOn
      simp only [State.flag, hv]
      decide +kernel
    have h2 : ibKind v 0 0 = 2 := by
      simp only [ibKind, State.fld, hv]
      decide +kernel
    have h3 : before 0 (fun d => ibOn v 0 d && overlap (ibBus v 0 d) (ibSize v 0 d) (ibBus v 0 0) (ibSize v 0 0)) = none := rfl
    simp only [mooringPort, each, h, h1, List.flatMap_cons, List.flatMap_nil, h2, h3, List.append_nil, relation, range, reference,
      Nat.reduceBEq, Bool.false_and, Bool.false_eq_true, if_false]
    simp only [outside, x16, ibKind, State.fld, State.flag, hv]
    decide +kernel
  · have h : (List.range 8).filter (ibOn v 1) = [0] := by
      delta ibOn ibKind
      simp only [State.fld, hv]
      decide +kernel
    have h1 : (List.range 8).filter (obOn v 1) = [] := by
      delta obOn
      simp only [State.flag, hv]
      decide +kernel
    have h2 : ibKind v 1 0 = 2 := by
      simp only [ibKind, State.fld, hv]
      decide +kernel
    have h3 : before 0 (fun d => ibOn v 1 d && overlap (ibBus v 1 d) (ibSize v 1 d) (ibBus v 1 0) (ibSize v 1 0)) = none := rfl
    simp only [mooringPort, each, h, h1, List.flatMap_cons, List.flatMap_nil, h2, h3, List.append_nil, relation, range, reference,
      Nat.reduceBEq, Bool.false_and, Bool.false_eq_true, if_false]
    simp only [outside, x16, ibKind, State.fld, State.flag, hv]
    decide +kernel

theorem good_mooring (hv : ∀ a, v.reg a = goodV a) : Level.mooring s v = [] := by
  have h : (List.range 64).filter (fun x => mnetOn v x && !v.flag (R.MNETx_CFG x) 18) = [] := by
    delta mnetOn
    simp only [State.flag, hv]
    decide +kernel
  have h1 : ∀ n < 2, patrolPort v n = [] := by
    intro n hn
    have : (List.range 64).filter (fun r => patOn v r && v.fld (R.PATr_CFG r) 1 1 == n) = [] := by
      obtain rfl | rfl : n = 0 ∨ n = 1 := by omega
      all_goals
        simp only [patOn, State.flag, State.fld, hv]
        decide +kernel
    simp only [patrolPort, this]
    rfl
  have h2 : x16 v = false := by
    simp only [x16, State.flag, hv]
    decide +kernel
  simp only [mooring, each, h, h1 0 (by omega), h1 1 (by omega), h2, good_mooringPort hv 0 (by omega),
    good_mooringPort hv 1 (by omega), List.flatMap_nil, List.append_nil, Bool.false_eq_true, if_false]
  simp only [range, outside, patOn, State.fld, State.flag, hv]
  decide +kernel

theorem good_tiles (hv : ∀ a, v.reg a = goodV a) : Level.tiles s v = [] := by
  have h0 : v.fld (R.GEOM_TOKEN 0) 7 0 = 0 := by
    simp only [State.fld, hv]
    decide +kernel
  have h1 : v.fld (R.GEOM_TOKEN 0) 15 8 = 1 := by
    simp only [State.fld, hv]
    decide +kernel
  have h2 : ∀ p < 36, v.fld (R.TL_MAP p) 6 5 = 0 ∧ v.fld (R.TL_MAP p) 8 7 = 0 ∧
      (outside v (R.TL_CFG p) 7 0 1 255 || outside v (R.TL_CFG p) 31 16 1 65535) = false := by
    simp only [outside, State.fld, hv]
    decide +kernel
  simp only [tiles, h0, h1, each, range, state, relation, List.range_zero, List.filter_nil, List.flatMap_nil, List.append_nil,
    bne_self_eq_false, Nat.not_lt_zero, decide_false, Bool.or_self, Bool.false_eq_true, if_false, List.nil_append]
  refine List.flatMap_eq_nil_iff.mpr fun p hp => ?_
  obtain ⟨a, b, c⟩ := h2 p (by simpa using hp)
  simp [a, b, c, tileActive]

theorem good_sentinels (hv : ∀ a, v.reg a = goodV a) (hs : activeBank s = false) : Level.sentinels s v = [] := by
  have h : (List.range 64).filter (schkOn v) = [] := by
    delta schkOn
    simp only [State.flag, hv]
    decide +kernel
  have h1 : (List.range 64).filter (envOn v) = [] := by
    delta envOn
    simp only [State.flag, hv]
    decide +kernel
  have h2 : activeBank v = false := by
    simp only [activeBank, State.flag, hv]
    decide +kernel
  simp only [sentinels, each, h, h1, h2, hs, List.flatMap_nil, List.append_nil, bne_self_eq_false, Bool.false_and]
  simp only [range, state, outside, wordOutside, State.fld, State.flag, hv]
  decide +kernel

theorem good_mirror (hv : ∀ a, v.reg a = goodV a) : Level.mirror v = [] := by
  have h : (List.range 64).filter (mnetOn v) = [] := by
    delta mnetOn
    simp only [State.flag, hv]
    decide +kernel
  simp only [mirror, h, List.flatMap_nil, List.map_nil, List.sum_nil, List.headD_nil, capacity, each, range, outside, badTime,
    wordOutside, State.fld, hv]
  decide +kernel

theorem good_nets (hv : ∀ a, v.reg a = goodV a) : Level.nets v = [] := by
  have h : ∀ x ∈ List.range 64, netOn v x = false := by
    simp only [netOn, State.flag, hv]
    decide +kernel
  have h1 : (List.range 64).filter (netOn v) = [] := by simpa [List.filter_eq_nil_iff] using h
  have h2 : ((List.range 64).any fun x => netOn v x && v.flag (R.NETx_CFG x) 17) = false := by
    rw [List.any_eq_false]; intro x hx; simp [h x hx]
  have h3 : (List.range 2).filter (fun c => v.flag (R.CANc_CFG c) 0) = [] := by
    simp only [State.flag, hv]
    decide +kernel
  simp only [nets, List.flatMap_nil, h1, h2, h3, each, range, outside, badTime, badTravel, netTime, usesTravel, wordOutside, State.fld, hv]
  decide +kernel

theorem good_audit (hv : ∀ a, v.reg a = goodV a) : Level.audit v = [] := by
  have h : (List.range 64).filter (auOn v) = [] := by
    delta auOn
    simp only [State.flag, hv]
    decide +kernel
  simp only [audit, h, List.flatMap_nil, List.map_nil, List.sum_nil, List.headD_nil, each, range, within, capacity, outside, badTime,
    wordOutside, State.fld, hv]
  decide +kernel

theorem good_groups (hv : ∀ a, v.reg a = goodV a) : Level.groups v = [] := by
  have h : (List.range 8).filter (groupOn v) = [] := by
    delta groupOn
    simp only [State.flag, hv]
    decide +kernel
  simp only [groups, h, List.flatMap_nil, List.map_nil, List.sum_nil, List.headD_nil, each, range, outside, capacity, State.fld, hv]
  decide +kernel

theorem good_lamps (hv : ∀ a, v.reg a = goodV a) : Level.lamps v = [] := by
  have h : (List.range 256).filter (lampOn v) = [] := by
    delta lampOn
    simp only [State.flag, hv]
    decide +kernel
  have h1 : (List.range 256).filter (isLampPost v) = [] := by
    delta isLampPost postOn
    simp only [State.flag, State.fld, hv]
    decide +kernel
  simp only [lamps, h, List.flatMap_nil, h1, each, range, outside, wordOutside, State.fld, hv]
  decide +kernel

theorem good_sluice (hv : ∀ a, v.reg a = goodV a) : Level.sluice v = [] := by
  simp only [sluice, range, relation, reference, within, each, before, outside, wordOutside, badTime, badTravel, netOn, setOn, netTime,
    usesTravel, State.fld, State.flag, hv]
  decide +kernel

theorem good_policy (hv : ∀ a, v.reg a = goodV a) : Level.policy v = [] := by
  simp only [policy, range, relation, reference, within, each, before, outside, polMask, State.fld, State.flag, hv]
  decide +kernel

theorem good_watchdogs (hv : ∀ a, v.reg a = goodV a) : Level.watchdogs v = [] := by
  simp only [watchdogs, range, relation, each, outside, State.fld, hv]
  decide +kernel

theorem good_tasks (hv : ∀ a, v.reg a = goodV a) : Level.tasks v = [] := by
  simp only [tasks, range, relation, reference, within, each, netCtx, mnetOn, mnetId, auOn, auId, bargeCtxs, State.fld, State.flag, hv]
  decide +kernel

theorem good_safeIo (hv : ∀ a, v.reg a = goodV a) : Level.safeIo v = [] := by
  simp only [safeIo, range, relation, reference, within, each, outside, State.fld, State.flag, hv]
  decide +kernel

theorem good_weir (hv : ∀ a, v.reg a = goodV a) : Level.weir s v = [] := by
  have h : seqSteps v = [] := by
    simp only [seqSteps, seqAction, State.fld, hv]
    decide +kernel
  have h1 : (range (decide (tjMax s.grade < (BitVec.ofNat 16 (v.fld R.TJ_LIMIT 15 0)).toInt)) R.TJ_LIMIT) = [] := by
    simp only [range, State.fld, hv]
    cases s.grade <;> decide +kernel
  simp only [weir, h, List.flatMap_nil, h1]
  simp only [range, relation, reference, within, each, outside, seqAction, State.fld, State.flag, hv]
  decide +kernel

theorem good_hold (hv : ∀ a, v.reg a = goodV a) : Level.hold v = [] := by
  simp only [hold, ringBase, ringSize, range, relation, reference, within, each, outside, State.fld, State.flag, hv]
  decide +kernel

theorem good_basin (hv : ∀ a, v.reg a = goodV a) (ho : s.mp.opened = false) : Level.basin s v = [] := by
  simp only [basin, range, state, each, outside, State.fld, State.flag, hv, ho, Bool.false_and, Bool.false_eq_true, if_false,
    List.append_nil]
  decide +kernel

theorem good_towpath (hv : ∀ a, v.reg a = goodV a) (ho : s.mp.opened = false) : Level.towpath s v = [] := by
  simp only [towpath, range, relation, within, state, each, outside, rolePorts, ownerAt, State.fld, State.flag, hv, ho,
    Bool.false_eq_true, if_false, List.append_nil]
  decide +kernel

theorem good_keeperLantern (hv : ∀ a, v.reg a = goodV a) (ho : s.mp.opened = false) : Level.keeperLantern s v = [] := by
  simp only [keeperLantern, range, state, ownerAt, State.fld, State.flag, hv, ho, Bool.false_eq_true, if_false]
  decide +kernel

/-- A tabulated function reads back as itself. -/
theorem get_tab (d f : Nat → Word) (n a : Nat) : ∀ b, Cells.get d ((List.range' b n).map fun k => (k,
  f k)) a = if b ≤ a ∧ a < b + n then f a else d a := by
  induction n with
  | zero => intro b; rw [if_neg (by omega)]; rfl
  | succ n ih =>
    intro b
    rw [List.range'_succ, List.map_cons]
    unfold Cells.get
    by_cases h : b = a
    · subst h; simp
    · rw [if_neg h, ih (b + 1)]
      by_cases h2 : b + 1 ≤ a ∧ a < b + 1 + n
      · rw [if_pos h2, if_pos (by omega)]
      · rw [if_neg h2, if_neg (by omega)]

/-- The register table. -/
def goodRegs : List (Nat × Word) := (List.range' 0 4294967296).map fun a => (a, goodReg a)

/-- K0's stage, in a state of the lock cycle, that puts 0x13 into POL7_CFG. -/
def goodAt (st : LkState) : State :=
  { State.reset with
    regs := goodRegs
    cycle := 75000000
    lk := { State.reset.lk with state := st, owner := some .k0, begun := 0, stage := [(805310688, 0x13#32)] } }

theorem goodAt_reg (st : LkState) (a : Nat) : (goodAt st).reg a = goodReg a := by
  show Cells.get resetOf ((List.range' 0 4294967296).map fun k => (k, goodReg k)) a = _
  rw [get_tab]
  unfold goodReg
  split <;> split <;> first | rfl | omega

theorem goodAt_stage_reg (st : LkState) (a : Nat) : (withStage (goodAt st)).reg a = goodV a := by
  have h : withStage (goodAt st) = (goodAt st).setReg 805310688 (stagedValue (goodAt st) 805310688 0x13#32) := rfl
  rw [h, State.setReg_reg]
  unfold goodV
  split
  · next e =>
    subst e
    simp only [stagedValue, goodAt_reg]
    decide +kernel
  · exact goodAt_reg st a

/-- R304: a stage with every range and relation met levels. -/
theorem test_a_stage_levels (st : LkState) : levelStage (goodAt st) = none := by
  have hv := goodAt_stage_reg st
  have ho : (goodAt st).mp.opened = false := rfl
  have hb : activeBank (goodAt st) = false := by
    simp only [activeBank, State.flag, goodAt_reg]
    decide +kernel
  simp only [levelStage, Level.all, good_milepost hv, good_sluice hv, good_mooring hv, good_mirror hv, good_nets hv, good_audit hv,
    good_tiles hv,
    good_groups hv, good_sentinels hv hb, good_lamps hv, good_policy hv, good_watchdogs hv, good_tasks hv, good_safeIo hv,
      good_weir hv, good_hold hv,
    good_basin hv ho, good_towpath hv ho, good_keeperLantern hv ho]
  rfl

end Levelling

/-! ### Witnesses: states and operands that meet the hypotheses of each clause of a statement -/

theorem flipped_ne (x : Bool) : (!x) ≠ x := by cases x <;> decide

def w01Rdy : State := { State.reset with wr := { State.reset.wr with ready := true, step := 10 } }
def w01Enc : State := (State.reset.setReg (R.ENCn_CFG 3) 1#32).setReg64 (R.ENCn_SCALE_LO 3) 0x180000000#64 |>.setReg R.MP_CTRL 3#32
def w01Z : State := { w01Enc with mp := { w01Enc.mp with encs := w01Enc.mp.encs.map fun e => { e with zSeen := true, zCount := 400 } } }
def w01Ssi : State := (State.reset.setReg (R.ENCn_CFG 3) 0x1F003#32).setReg R.MP_CTRL 3#32
def w02Str : State := (((State.reset.setReg R.SL_CTRL 1#32).setReg (R.STRs_CFG 31) 0x5401#32).setReg (R.CSIc_CFG 0) 1#32).setReg (R.STRs_ID 31) 7#32
def w02Fr : Frame := ⟨0, ⟨0, 0⟩, none, [1, 2], none, none, 0, 5, 100000000, false, ⟨0, 0⟩⟩
def w02StrF (f : Frame) : State := { w02Str with sl := { w02Str.sl with streams := w02Str.sl.streams.set 31 { w02Str.sl.streams[31] with frame := some f, lastCnt := 4 } } }
def be02 (n v : Nat) : List Byte := (bytesLE n v).reverse
def w02Hdr (pay : List Byte) (cnt last : Nat) : List Byte :=
  let h := [0x53, 0x4B, 1, BitVec.ofNat 8 last] ++ be02 2 7 ++ be02 2 0 ++ be02 4 cnt ++ be02 8 100000000 ++ be02 4 pay.length
  h ++ be02 4 (crcNative crc32c (BitVec.ofNat 32 cnt) (h ++ pay)).toNat ++ be02 4 0
def w02Good : Frame := { w02Fr with header := some (w02Hdr [1, 2] 5 1) }
def w02Set : State := { (((w02Str.setReg (R.SETk_CFG 15) 1#32).setReg (R.SETk_MEMBERS 15) 0x80000000#32).setReg (R.NETx_CFG 63) 0xF10001#32) with wr := { w02Str.wr with ready := true }, sl := { w02Str.sl with suspended := false }, cycle := 99 }
def w02Per (s : State) : State := s.setReg (R.STRs_PER 31) 0xFFFF0000#32 |>.setReg (R.STRs_TOL 31) 0xFFFF#32
def w02GoodS : State := let s := w02Per (w02StrF w02Good); { s with sl := { s.sl with streams := s.sl.streams.set 31 { s.sl.streams[31] with lastStamp := 100000000 } } }
def w02Eth : State := (((State.reset.setReg R.SL_CTRL 1#32).setReg (R.STRs_CFG 31) 0x0F#32).setReg (R.ETHe_CFG 3) 1#32).setReg (R.STRs_ID 31) 7#32 |>.setReg (R.STRs_FLOW 31) 0x88F7#32
def w02EthF (l : Nat) : EthFrame := ⟨3, 0, none, 0x88F7, none, false, false, w02Hdr [9, 9] 5 l ++ [9, 9]⟩
def w02Asm : State := { State.reset with cycle := 3000, barges := [newEntry 7 ⟨0, 0⟩ 0x1010001#32 0#32] }
def w03P (st : PortState) (f : Port → Port := id) : State :=
  let s := (State.reset.setReg R.MR_CTRL 1#32).setReg (R.RPn_CTRL 1) 0x0A0A0141#32
  { s with cycle := 9000000000, mr := { s.mr with railsUp := some 0, ports := s.mr.ports.set 1 (f { s.mr.ports[1] with state := st }) } }
def w03Ob : State := ((w03P .serving).setReg (R.OBWn_e_CFG 1 7) 0x29F#32).setReg64 (R.OBWn_e_BUS_LO 1 7) 0x8000000000#64
def w03Read (u : OutUser) : State := w03P .serving fun p => { p with reads := [⟨5, u, 8, 0⟩], nextTag := 6 }
def w03Ib (k : Nat) : State := (((w03P .serving).setReg (R.IBWn_e_CFG 1 7) (BitVec.ofNat 32 (0xA0 + k))).setReg64 (R.IBWn_e_BUS_LO 1 7) 0x40000000#64).setReg64 (R.IBWn_e_TGT_LO 1 7) 0x20000000#64
def w03Bank (s : State) : State := { s with bs := { s.bs with banks := s.bs.banks.set 0 { s.bs.banks[0] with owner := 3 } } }
def w03Sig : List Byte := let b := [0x02, 3] ++ bytesLE 2 9 ++ bytesLE 4 77 ++ List.replicate 36 0; b ++ recChk 77 b
def w03Land (bs : List Byte) (a : Nat) : State :=
  let s := ((w03P .serving).setReg (R.Cc_CFG 3) 1#32).setReg (R.Cc_STRIP 3) 0x40000#32
  { s with barges := [{ newEntry 77 ⟨0, 0⟩ 9#32 0#32 with stage := .delivered, ctxs := [3] }], mr := { s.mr with delivered := [(3, 77, 9)], landed := [⟨1, BitVec.ofNat 40 a, bs, 0, ⟨0, 0⟩, some ⟨3, false, 0, 0⟩, false, .clean⟩] }, hd := { s.hd with filled := true } }
def w03Pat (p : Option (Fin 64 × Nat)) : State := ((((w03P .serving fun x => { x with patrol := p }).setReg R.PAT_CTRL 2#32).setReg R.PAT_RATE 1#32).setReg (R.PATr_CFG 63) 0xF0003#32).setReg (R.PATr_LEN 63) 2#32 |>.setReg (R.OBWn_e_CFG 1 7) 0x291#32
def w04Sg (c : Fin 4) (sg : BitVec 128) : SigRec := ⟨c, true, false, 9, 77, 0, 0, 0, sg, 0, ⟨0, 0⟩, 5⟩
def w04Bg : Barge := { newEntry 77 ⟨0, 0⟩ 0x10009#32 0x310009#32 with stage := .delivered, ctxs := [1, 0], mnet := some 63, window := ⟨100, 100⟩ }
def w04Mi (q st h : List SigRec) (b : Barge := w04Bg) : State :=
  let s := (State.reset.setReg R.MI_CTRL 1#32).setReg (R.MNETx_CFG 63) 0x310009#32
  { s with cycle := 3000, barges := [b], mi := ⟨q, st, []⟩, mr := { s.mr with handover := h } }
def w04Gl (src : Nat) (s : State) : State := { s with bc := { s.bc with glints := [⟨0, false, BitVec.ofNat 7 src, 0, 255, 0, 0, 0, 0, 0, 9000, 100, false, false, false, false, false⟩] } }
def enc05 (op d p q fn x imm : Nat) : Nat := op <<< 58 + d <<< 54 + p <<< 50 + q <<< 46 + fn <<< 40 + x <<< 32 + imm
def w05Tm (t : Tile → Tile) : State :=
  let s := State.reset.setReg (R.TL_CFG 35) 0x100001#32
  { s with cycle := 80000, tiles := s.tiles.set 35 (t { s.tiles[35] with run := .running, pc := 0x100, areg := Vector.ofFn fun i => BitVec.ofNat 32 (0x2000 * i.val) }) }
def w05T (w : Nat) (t : Tile → Tile := id) : State := (w05Tm t).store (tileByte 35 0x100) (bytesLE 8 w)
def w05U : SnRun := ⟨3, 77, some 7, 0x120, [34, 35], [35], [34], 0, false, some 5, 16, .going⟩
def w05Run (s : State) : State := { s with sn := { s.sn with runs := [w05U] } }
def ftile05 (t : State) (d : Nat) (f : Nat → Word) : Bool := (List.range 64).all fun i => vlane t.tiles[35] (Fin.ofNat 16 d) i == f i
def w05Saved : State := ((w05Tm fun t => { t with run := .idle, saved := true }).store (tileByte 35 120) [0, 1]).store (tileByte 35 saveBase) (bytesLE 4 0x53564531 ++ [0x20, 1, 0, 0, 0, 0, 0, 0, 3, 0, 0, 0, 9, 0, 0, 0, 8, 1, 0, 0])
def w05Dma : List Byte := bytesLE 8 0x100000000 ++ bytesLE 4 0x3000 ++ bytesLE 2 32 ++ bytesLE 2 1 ++ List.replicate 16 0
def w06Ax (f : AuditRec → AuditRec := id) : Barge := { newEntry 77 ⟨0, 0⟩ 9#32 0#32 with au := f { noAudit with entry := some 63, cfg := 0x10009 } }
def w06Au (f : AuditRec → AuditRec := id) : State := { (State.reset.setReg (R.AUn_CFG 63) 0x30009#32).setReg R.AU_CTRL 5#32 with cycle := 30000, barges := [w06Ax f] }
def w06Seal (v : DWord) : SealEntry := ⟨0, 77, 9, 5, 0, v⟩
def w06Ch : BitVec 128 :=
  let b := (63 : Nat) <<< 16 + 3 <<< 24 + 77 <<< 32 + 5 <<< 64 + 8 <<< 96
  BitVec.ofNat 128 (b + (crcNative crc16 77#32 ((bytesLE 16 b).take 14)).toNat <<< 112)
def w06C (t : Nat) : Challenge := ⟨.exact, false, 63, 3, 77, 5, 8, t, false, 0, 0, 0⟩
def w06Layer : Layer := ⟨0, .s8, .identity, 1, .int32, 0x100000000, 0x100001000, none, 1, 6, 1, 2, 4, 8, false, false, 0x100002000, 0, 0⟩
def w06Im (s : State) : State := { s.setReg (R.OBWn_e_CFG 0 7) 0x291#32 with se := { s.se with useB := some false, slotA := ⟨some ⟨[], ⟨[], [], [(0, [w06Layer])], [], []⟩⟩, none, none, false⟩, siteSeed := some 7 }, bs := { s.bs with banks := s.bs.banks.set 33 { s.bs.banks[33] with owner := 5 } } }
def w06Cm (a : AuditRec) : AuditRec := { a with complete := true, issued := 1, drawn := 1 }
def w06Q (s : State) (f : Audit → Audit) : State := { s with au := f s.au }
def w06Tl (bs : List Byte) (s : State) : State := (w06Q s fun a => { a with tiles := [⟨77, 5, basinBase + 0x1080000, bs.length⟩] }).store (basinBase + 0x1080000) bs
def w07Var : Variant := ⟨1, 0, 1, 0x1000⟩
def w07Mod : Model := ⟨5, false, false, 0, [w07Var]⟩
def w07Sn (f : Sentinels → Sentinels := id) : State :=
  let s := ((((State.reset.setReg R.SN_CTRL 1#32).setReg (R.SGg_CFG 0) 0x80000505#32).setReg (R.SGg_TILES 0) 1#32).setReg (R.TL_MAP 35) 0x20#32).setReg R.SN_LIBA_LO 0x1000#32
  let s := (s.setReg (R.SCHKx_CFG 63) 0x10009#32).setReg (R.SCHKx_MODEL 63) 5#32
  { s with sn := f { s.sn with manifestA := [w07Mod] }, cycle := 900000 }
def w07Vf (f : Sentinels → Sentinels) : State := let s := w07Sn f; { s with se := { s.se with sm3 := [.library] } }
def w07Lo : State := w07Sn fun x => { x with slots := x.slots.set 0 ⟨.loading, 5, 0, 0⟩, load := some (0, 5, 0) }
def w07Db : Barge := { newEntry 77 ⟨0, 0⟩ 9#32 0#32 with stage := .delivered, refLast := true }
def w07B (s : State) (x : Barge := w07Db) : State := { s with barges := [x] }
def w07Rule (cnt : Nat) : List Byte := [1, 0, 0, 0] ++ List.replicate 4 0 ++ [1, 0, 1, 0, 5, 0, 0, 1] ++ bytesLE 4 cnt ++ List.replicate 12 0
def w07Rl (c : Nat) : State := ((w07Sn.setReg (R.SCHKx_CFG 63) 0x1010009#32).setReg (R.SCHKx_RULES_LO 63) 0x8000#32).store 0x8000 (w07Rule c)
def w07En (lo : Nat) : State := ((w07Sn.setReg (R.ENVx_CFG 63) 0x1010009#32).setReg (R.ENVx_TAB_LO 63) 0x8000#32).store 0x8000 ([1, 1, 0, 0] ++ bytesLE 4 0 ++ bytesLE 4 1 ++ bytesLE 4 lo ++ bytesLE 4 0x42C80000)
def w07Nul : Variant := ⟨1, 0, 0, 0x1000⟩
def w07Good (s : State) : State :=
  let s := { s with sn := { s.sn with manifestA := [⟨5, false, false, 0, [w07Nul]⟩] } }
  s.store 0x2000 (bytesLE 8 (crcNative crc64 5#32 []).toNat)
def w07Run (fl : BitVec 3) (o : RunOutcome) : SnRun := ⟨0, 77, some 63, 3, [35], [], [35], fl, false, some 0x9000, 1, o⟩
def w07V (s : State) (fl : BitVec 3 := 4) (o : RunOutcome := .done) : State := { s.store 0x9000 [2] with sn := { s.sn with runs := [w07Run fl o] } }
def w07Lb : Barge := { newEntry 77 ⟨0, 0⟩ 9#32 0#32 with stage := .delivered, lamp := some 255, ctxs := [2], lampDue := 100 }
def w07Idle : State := (({ w07Sn with tiles := w07Sn.tiles.set 35 { w07Sn.tiles[35] with run := .idle } }).setReg R.ST_CTRL 1#32).store (tileByte 35 120) [0, 1]
def w08Cb (f : Barge → Barge := id) : Barge := f { newEntry 77 ⟨0, 0⟩ 0x1020009#32 0#32 with stage := .delivered, net := some 63, sluice := .pass, verdict := ⟨50000, 0⟩ }
def w08Ch (x : Barge) (f : Chamber → Chamber := id) : State :=
  let s := ((State.reset.setReg R.LC_RSEQ 0xFFFFFFFF#32).setReg R.LC_CTRL 0x21#32).setReg R.SPI_CFG 1#32
  { s with cycle := 3000, wr := { s.wr with ready := true }, lc := f s.lc, barges := [x] }
def w08Rec : Rec := ⟨[5, 1, 9], 77, true, true, false, some 63, false, 12, false⟩
def w08Fill (s : State) : State := { s with hd := { s.hd with filled := true } }
def w08F : CanFrame := ⟨5, false, true, [1], false⟩
def w09Bc (f : Beacon → Beacon := id) : State :=
  { State.reset.setReg R.HD_REC_LOG 1#32 with cycle := 30000, wr := { State.reset.wr with ready := true }, bc := f State.reset.bc }
def w09L (src : Nat) : Line := ⟨BitVec.ofNat 7 src, 0, 7, none, 90⟩
def w09Svc (s : State) : State := { s with se := { s.se with life := .service } }
def w09G (rb g o a : Bool) (st : Bool := false) : Glint := ⟨5, st, 80, 0, 0x10, 80, 0, 0, 0, 0, 100, 32, g, o, rb, a, false⟩
def w09Bar : State := { w09Bc (fun b => { b with lines := [w09L 100] }) with barges := [{ newEntry 77 ⟨0, 0⟩ 0x1020009#32 0#32 with stage := .delivered }] }
def w10Dog (f : Watchdog → Watchdog := id) : State :=
  let s := ((State.reset.setReg (R.WDTw_CFG 3) 0x3#32).setReg (R.WDTw_OPEN 3) 10#32).setReg (R.WDTw_CLOSE 3) 100#32
  { (s.setReg R.WD_CTRL 5#32) with cycle := 37500, wd := { s.wd with ticks := 50, dogs := s.wd.dogs.set 3 (f ⟨some 0, none, none, none⟩) } }
def w10Tk (n : Nat) (s : State) : State := { s with wd := { s.wd with ticks := n } }
def w10En (cfg : Word) (f : Entity → Entity := id) : State :=
  let s := State.reset.setReg (R.TSe_CFG 63) cfg
  { s with cycle := 75000000, wd := { s.wd with entities := s.wd.entities.set 63 (f { s.wd.entities[63] with first := false, count := 2, began := 75000000 }) } }
def w10K (s : State) (k : Fin 2) (p : PairState) : State := { s with kc := { s.kc with pairs := s.kc.pairs.set k p } }
def w11Bk (st : BrakeState) (f : Brake → Brake := id) : State :=
  let s := (((State.reset.setReg (R.BRKn_CFG 3) 1#32).setReg R.BRK_VS_CFG 0xFFFF0000#32).setReg (R.BRKn_TIME 3) 0x01010101#32).setReg (R.BRKn_ILIM 3) 0x0A0FFC0A#32 |>.setReg (R.BRKn_LOCK 3) 0#32
  { s with cycle := 3000000000, wr := { s.wr with ready := true }, sio := { s.sio with brakes := s.sio.brakes.set 3 (f { s.sio.brakes[3] with state := st }) } }
def w11Si (st : SinState) (f : Sin → Sin := id) : State :=
  let s := (w11Bk .applied).setReg (R.SINi_CFG 7) 5#32 |>.setReg R.SIO_CTRL 2#32
  { s with sio := { s.sio with sins := s.sio.sins.set 7 (f { s.sio.sins[7] with state := st }) } }
def w11Lk : State := (w11Bk .locked fun b => { b with reading := ⟨.low, .high, 0⟩ }).setReg (R.BRKn_LOCK 3) 1#32

def w11Ty : State :=
  let s := (State.reset.setReg R.TLY_ASSIGN 0x80000000#32).setReg (R.TLYu_CFG 15) 0x12#32
  { s with ty := { s.ty with units := s.ty.units.set 15 { s.ty.units[15] with isOpen := true, crc := 0xFFFFFFFF } } }
def w11Co (l : Option (BitVec 4)) : State := let s := w11Ty.setReg (R.TLYu_CFG 15) 0x20#32; { s with ty := { s.ty with units := s.ty.units.set 15 { s.ty.units[15] with alive := 15, lastAlive := l } } }
def w12Se (f : SealBlock → SealBlock) : State := { State.reset with cycle := 900000, se := f State.reset.se }
def w12Enc (c : CommitPhase) (f : SealBlock → SealBlock := id) : State :=
  { (w12Se fun x => f { x with commit := c }).setReg R.SE_CTRL 1#32 with freeIdx := 4 }
def w12St (f : LockCycle → LockCycle) : State := { State.reset with cycle := 75000000, lk := f { State.reset.lk with begun := 0 } }
def w12Im : Image := ⟨[], ⟨[], [], [], [], []⟩⟩
def w12Gold : Image := ⟨[], ⟨[], [], [], [⟨63, 0x1000000000, 0, BitVec.ofNat 256 (sm3Nat [])⟩], []⟩⟩
def w12Rec : FlashRecord := ⟨false, 0, 1, 0, BitVec.ofNat 256 (sm3Nat [])⟩
def w12Staged (st : LkState) : State := w12St fun k => { k with state := st, owner := some .k0, stage := [(R.POLs_CFG 7, 0x13#32)] }
def w13Wr (f : Weir → Weir) : State := { State.reset with cycle := 75000000, wr := f State.reset.wr }
def w13Step (k : BitVec 4) : State := w13Wr fun w => { w with step := k }
def w13Sq (f : Weir → Weir) : State :=
  let s := ((w13Wr id).setReg (R.ACHc_CFG 15) 0x12340025#32).setReg R.WR_CTRL 7#32
  { s with wr := f { s.wr with seq := .up, seqStep := 3, seqTab := [(0, 0), (0, 0), (0, 0), (0x80010102#32, 5#32)] } }
def w14Hd (f : Hold → Hold) : State :=
  let s : State := { State.reset with cycle := 75000000, hd := f { State.reset.hd with filled := true }, wr := { State.reset.wr with step := 9 } }
  (s.setReg (R.KC_Kp_KWn_CFG 0 0) 0x80003#32).setReg (R.KC_Kp_KWn_CFG 0 1) 0x790003#32
def w14Bn (f : Bank → Bank) : State :=
  let s := w14Hd id
  { s with bs := { s.bs with banks := s.bs.banks.set 63 (f ⟨0, none, false, 0, false, 0, 0, none⟩) }, wr := { s.wr with ready := true } }
def w14Ma (m : March) : State := let s := w14Bn id; { s with bs := { s.bs with marches := [m] } }
def w15Tp (role : Nat) (f : Towpath → Towpath := id) : State :=
  let s := (State.reset.setReg R.TP_CFG (BitVec.ofNat 32 (0x100 + role))).setReg (R.TPq_CFG 0) 1#32 |>.setReg (R.TPq_CFG 1) 1#32 |>.setReg (R.TPq_CFG 2) 1#32 |>.setReg (R.TPq_CFG 3) 1#32
  { s with cycle := 1500000000, sio := { s.sio with sealPattern := 0x23 }, tp := f { s.tp with upAt := some 0, addr := some 0x123 } }
def w15H : ZHead := ⟨0x124, 9, 77⟩
def w15Cut : RawFrame := ⟨headerBytes 0x124 0 8 0 9 0 77 1 ++ [5, 0, 0, 0, 0], false⟩
def w15Msg : StopMsg := ⟨.cell, 1, 0x124, true, false, 5, 4, 3, 9, 8⟩
def w15Hq : State :=
  let s := ((w15Tp 1).setReg R.TP_HQ 0x04043F#32).setReg R.TP_HRX_CONS 2#32
  { s with bs := { s.bs with banks := s.bs.banks.set 63 ⟨2, none, false, 0, false, 0, 0, none⟩ } }
def w15Sv (v : ServoState) (f : Servo → Servo := id) : State :=
  let s := w15Tp 1 fun t => { t with servos := t.servos.set 0 (f { t.servos[0] with state := v, lastSync := 1499000000, gm := 0x111 }) }
  (s.setReg R.TP_TIME_CFG 0x640B#32).setReg R.TP_TOFF_LIM 10#32
def w16Kp (f : Keeper → Keeper := id) : State :=
  { (State.reset.setReg (R.WDTw_CFG 1) 0xF#32).setReg (R.TSe_BIND 63) 0x40000#32 with cycle := 75000000, kc := f State.reset.kc, wr := { State.reset.wr with ready := true } }
def w16Ln (f : Lantern → Lantern := id) : State :=
  { (State.reset.setReg R.LN_BW_WIN 1000#32).setReg R.LN_DUMP_CFG 0x7F#32 with cycle := 75000000, ln := f State.reset.ln }
def wVer : Image := ⟨[0, 0, 0, 0, 0, 0, 0, 5], ⟨[], [], [], [], []⟩⟩

theorem wit_StepRunsTheFrontCommand : State.reset.pending = [] := rfl

theorem wit_EveryStepKeepsTheCanonicalForms : Canonical State.reset ∧ ∃ t, step State.reset = .next t :=
  ⟨⟨by decide, by decide⟩, _, rfl⟩

theorem wit_TheSafeStateIsLeftOnlyByAReset : ∃ s t : State, s.bc.safe = true ∧ step s = .next t :=
  ⟨{ State.reset with bc := { State.reset.bc with safe := true } }, _, rfl, rfl⟩

theorem wit_TheMinimumVersionNeverFalls : ∃ (s : State) (im : Image), s.wr.ready = false ∧ s.wr.fail = 0 ∧ s.wr.step = 10 ∧ s.wr.lamps = [] ∧
    s.wr.safeSinceStart = false ∧ usedImage s = some im ∧ s.flag R.SE_CTRL 1 = true ∧ s.se.minVer < imageSecVer im :=
  ⟨{ State.reset.setReg R.SE_CTRL 2#32 with wr := { State.reset.wr with step := 10 }, se := { State.reset.se with useB := some true, slotB := ⟨some wVer, none, none, false⟩ } }, wVer, by decide +kernel⟩

theorem wit_HarbourNeverWritesAKeeperOnlyField : State.reset.scrapped = false ∧ (∃ r, regRow R.LK_HOLD = some r ∧ r.keeper = true) ∧ R.LK_HOLD % 4 = 0 ∧ isStaged (homeAddr R.LK_HOLD) = true ∧
    (∃ r, regRow (R.HD_REC_PUTn 14) = some r ∧ r.keeper = true) ∧ R.HD_REC_PUTn 14 % 4 = 0 ∧ (writeRoute .harbour (R.HD_REC_PUTn 14) 0 State.reset).isNone = true :=
  ⟨rfl, ⟨_, rfl, rfl⟩, by decide, by decide +kernel, ⟨_, rfl, rfl⟩, by decide, by decide +kernel⟩

theorem wit_WindowRegistersBelongToTheirPair : State.reset.admitted (pairInit 1) = true ∧ (0xFFFFFFFF#32 : Word).getLsbD 31 = true ∧ bits 0xFFFFFFFF#32 30 29 = (3 : Fin 4).val ∧
    State.reset.scrapped = false ∧ isKeeper .k0 = true ∧ Initiator.k0 ≠ pairInit 1 := by decide

theorem wit_ReadsOfRegisters : (State.reset.scrapped = false ∧ inRegWindow R.LK_HOLD = true ∧ (R.LK_HOLD + 2) % 4 ≠ 0) ∧
    (State.reset.admitted .k0 = true ∧ 0x30200FFC / 0x100000 ≠ 0x304 ∧ inRegWindow 0x30200FFC = true ∧ 0x30200FFC < 0x30C01000 ∧ regRow (homeAddr 0x30200FFC) = none) ∧
    ((∃ r, regRow (homeAddr R.LK_HOLD) = some r) ∧ liveAt State.reset .k0 (homeAddr R.LK_HOLD) = none ∧ instanceAt (R.TL_MAP 0) 0x10000 36 (homeAddr R.LK_HOLD) = none) ∧
    (∃ s : State, s.scrapped = true ∧ R.LK_HOLD ∉ [R.SE_STAT, R.DEVICE_ID_LO, R.DEVICE_ID_HI, R.LC_STAT_SEAL]) ∧
    (∃ s : State, s.scrapped = false ∧ inRegWindow 0x30C01000 = true ∧ mayReadReg s .harbour 0x30C01000 = true ∧ userMayRead s 0x30C01000 = false) :=
  ⟨by decide +kernel, by decide +kernel, ⟨⟨_, rfl⟩, by decide +kernel, by decide +kernel⟩, ⟨{ State.reset with se := { State.reset.se with life := .scrapped } }, rfl, by decide⟩,
    ⟨{ State.reset with wr := { State.reset.wr with step := 9 } }, by decide +kernel⟩⟩

theorem wit_LevelRefusesWhatTheRulesName : ∃ s : State, s.lk.state = .levelling ∧ (withStage s).reg R.V_MAX = 0 :=
  ⟨{ State.reset with lk := { State.reset.lk with state := .levelling } }, rfl, by decide +kernel⟩

theorem wit_AStaleStageIsNotOpened : ∃ (s : State) (i : Initiator), isKeeper i = true ∧ s.admitted i = true ∧
    s.kc.pairs[(if i = .k1 then 1 else 0 : Fin 2)] ≠ .standby ∧ s.lk.state = .levelled ∧ s.lk.owner = some i ∧ levelStage s ≠ none :=
  ⟨{ State.reset with lk := { State.reset.lk with state := .levelled, owner := some .k0 } }, .k0, by decide, by decide, by decide, rfl, rfl,
    levelStage_ne_none_of_v_max (by decide +kernel)⟩

theorem wit_LossOfTheAlwaysOnDomainEndsService : ∃ s : State, s.wr.ready = false ∧ s.wr.fail = 0 ∧ s.wr.step = 2 ∧ s.se.deviceKey = none ∧ s.se.life = .field ∧ s.se.svc = false :=
  ⟨{ State.reset with wr := { State.reset.wr with step := 2 }, se := { State.reset.se with life := .field } }, by decide⟩

theorem wit_EncodersCountReadAndAreLost :
    (∃ (s : State) (n : Fin 4) (a : Bool) (b : Bool), encEnabled s n = true ∧ s.flag (R.ENCn_CFG n) 1 = false ∧ ((a !=
      s.mp.encs[n].a) = !(b != s.mp.encs[n].b))) ∧
    (∃ (s : State) (n : Fin 4) (a : Bool) (b : Bool), encEnabled s n = true ∧ s.flag (R.ENCn_CFG n) 1 = false ∧ a ≠ s.mp.encs[n].a ∧
      b ≠ s.mp.encs[n].b) ∧
    (∃ (s : State) (n : Fin 4) (a : Bool) (b : Bool), (encEnabled s n = false ∨ s.flag (R.ENCn_CFG n) 1 = true)) ∧
    (∃ (s : State) (n : Fin 4), encEnabled s n = true ∧ s.flag (R.ENCn_CFG n) 1 = false ∧ s.flag (R.ENCn_CFG n) 3 = true ∧
      s.mp.encs[n].zSeen = true ∧ s.mp.encs[n].zCount = s.reg (R.ENCn_ZPER n)) ∧
    (∃ (s : State) (n : Fin 4), encEnabled s n = true ∧ s.flag (R.ENCn_CFG n) 1 = false ∧ s.flag (R.ENCn_CFG n) 3 = true ∧
      s.mp.encs[n].zSeen = true ∧ s.mp.encs[n].zCount ≠ s.reg (R.ENCn_ZPER n)) ∧
    (∃ (s : State) (n : Fin 4) (f : SsiFrame), ssiDue s n = true ∧ f.err = false ∧ f.stuckLow = false ∧ s.mp.encs[n].ssiLast = none) ∧
    (∃ (s : State) (n : Fin 4) (f : SsiFrame), ssiDue s n = true ∧ f.stuckLow = true ∧ s.mp.encs[n].ssiRun = 0) ∧
    (∃ (s : State) (n : Fin 4), encEnabled s n = true) ∧
    (∃ (s : State), s.mp.quality = .single ∧ (s.reg R.SINGLE_T).toNat ≤ msSince s s.mp.singleSince) :=
  ⟨⟨w01Enc, 3, true, false, by decide +kernel⟩,
   ⟨w01Enc, 3, true, true, by decide +kernel⟩,
   ⟨State.reset, 3, true, false, by decide +kernel⟩,
   ⟨(State.setReg w01Z (R.ENCn_ZPER 3) 400#32).setReg (R.ENCn_CFG 3) 9#32, 3, by decide +kernel⟩,
   ⟨(State.setReg w01Z (R.ENCn_ZPER 3) 401#32).setReg (R.ENCn_CFG 3) 9#32, 3, by decide +kernel⟩,
   ⟨w01Ssi, 3, ⟨0xFFFFFFFF#32, false, false⟩, by decide +kernel⟩,
   ⟨w01Ssi, 3, ⟨5#32, false, true⟩, by decide +kernel⟩,
   ⟨{ w01Enc with mp := { w01Enc.mp with opened := true } }, 3, by decide +kernel⟩,
   ⟨{ w01Enc.setReg R.SINGLE_T 2#32 with cycle := 1500000, mp := { w01Enc.mp with quality := .single } }, by decide +kernel⟩⟩

theorem wit_SpeedTimeLatchesTimersAndCaptures :
    (∃ (s : State), speedDue s = true) ∧
    (∃ (s : State), speedDue s = false) ∧
    (∃ (s : State) (i : Initiator) (q : Quantity), s.admitted i = true ∧ mayReadQuantity s i q = true) ∧
    (∃ (s : State) (i : Initiator) (c : Fin 16) (v : Word), s.mayWrite i (R.TMRc_TINC_INT c) = true) ∧
    (∃ (s : State) (i : Initiator) (c : Fin 16) (v : Word), s.mayWrite i (R.TMRc_TINC_FRAC c) = true) ∧
    (∃ (s : State) (c : Fin 16), timerReached s c = true ∧ s.flag (R.TMRc_CFG c) 1 = true ∧ s.reg (R.TMRc_PER c) ≠ 0) ∧
    (∃ (s : State) (n : Fin 8) (rising : Bool), s.flag (R.CAPi_CFG n) 0 = true ∧ edgeTaken (s.fld (R.CAPi_CFG n) 2 1) rising = true ∧
      s.mp.caps[n].length < 16) ∧
    (∃ (s : State) (n : Fin 8) (rising : Bool), s.flag (R.CAPi_CFG n) 0 = true ∧ edgeTaken (s.fld (R.CAPi_CFG n) 2 1) rising = true ∧
      16 ≤ s.mp.caps[n].length) ∧
    (∃ (s : State) (i : Initiator) (n : Fin 8) (h : DWord × DWord) (rest : List (DWord × DWord)), s.admitted i = true ∧ s.mp.caps[n]
      = h :: rest) ∧
    (∃ (s : State) (j : Fin 8) (e : Nat), s.mp.trigs[j] = some e ∧ e ≤ s.cycle) :=
  ⟨⟨{ w01Enc with mp := { w01Enc.mp with encs := w01Enc.mp.encs.map fun e => { e with moved := 2000 } } }, by decide +kernel⟩,
   ⟨{ State.reset with mp := { State.reset.mp with speedAt := some 0 } }, by decide +kernel⟩,
   ⟨{ w01Rdy with cycle := 0x300000000000 }, .harbour, .timeNs, by decide +kernel⟩,
   ⟨State.reset, .k0, 15, 7#32, by decide +kernel⟩,
   ⟨State.reset, .k0, 15, 7#32, by decide +kernel⟩,
   ⟨((State.reset.setReg (R.TMRc_CFG 15) 0xFF03#32).setReg (R.TMRc_PER 15) 9#32), 15, by decide +kernel⟩,
   ⟨{ State.reset.setReg (R.CAPi_CFG 7) 0x101#32 with cycle := 30 }, 7, true, by decide +kernel⟩,
   ⟨{ State.reset.setReg (R.CAPi_CFG 7) 0x101#32 with mp := { State.reset.mp with caps := Vector.replicate 8 (List.replicate 16 (0, 0)) } },
     7, true, by decide +kernel⟩,
   ⟨{ State.reset with mp := { State.reset.mp with caps := Vector.replicate 8 [(1, 0x500000000)], latches := [((.k1, .captureS 7), 5#32)] } },
     .k1, 7, (1, 0x500000000), [], by decide +kernel⟩,
   ⟨{ State.reset with mp := { State.reset.mp with trigs := Vector.replicate 8 (some 0) } }, 7, 0, by decide +kernel⟩⟩

theorem wit_PostsReachReleaseAndPop :
    (∃ (s : State) (p : Fin 256), s.wr.ready = true ∧ postDue (atCycleStart s) p.val = true ∧ (s.mp.reached.any fun e => decide (e.1
      = p)) = false ∧ s.mp.released ≠ some p) ∧
    (∃ (s : State) (p : Fin 256), s.mp.released = none ∧ nextPost s = some p ∧ postDomain s p.val = 0 ∧ postAction s p.val = 1 ∧
      s.mp.postTable = none ∧ s.reg (R.POSTp_PER_T p.val) ≠ 0 ∧ bound64 s.timeNs (s.reg64 (R.POSTp_VAL_T_LO p.val) + (s.reg
      (R.POSTp_PER_T p.val)).setWidth 64) = false ∧ s.mp.keeperQ.length < 64) ∧
    (∃ (s : State) (p : Fin 256), s.mp.released = none ∧ nextPost s = some p ∧ postAction (atCycleStart s) p.val = 1 ∧
      s.mp.keeperQ.length < 64) ∧
    (∃ (s : State), s.mp.released.isSome = true) ∧
    (∃ (s : State) (e : QEntry) (rest : List QEntry), s.mp.keeperQ = e :: rest) ∧
    (∃ (s : State), s.mp.keeperQ = []) :=
  ⟨⟨{ (w01Rdy.setReg (R.POSTp_CFG 255) 1#32).setReg64 (R.POSTp_VAL_T_LO 255) 4#64 with cycle := 3 }, 255, by decide +kernel⟩,
   ⟨{ ((w01Rdy.setReg (R.POSTp_CFG 255) 0x11#32).setReg64 (R.POSTp_VAL_T_LO 255) 4#64).setReg (R.POSTp_PER_T 255) 4#32 with cycle := 3, mp := { w01Rdy.mp with reached := [(255, 2)] } },
     255, by decide +kernel⟩,
   ⟨{ (w01Rdy.setReg (R.POSTp_CFG 255) 0x21#32) with cycle := 3, mp := { w01Rdy.mp with reached := [(255, 2)], postTable := some ⟨[(R.POSTp_CFG 255, 0x15#32)], [], [], [R.POSTp_CFG 255]⟩ } },
     255, by decide +kernel⟩,
   ⟨{ w01Rdy with mp := { w01Rdy.mp with released := some 3, reached := [(255, 0)] } }, by decide +kernel⟩,
   ⟨{ State.reset with mp := { State.reset.mp with keeperQ := [⟨255, 7, 9⟩] } }, ⟨255, 7, 9⟩, [], by decide +kernel⟩,
   ⟨State.reset, by decide +kernel⟩⟩

theorem wit_CsiFramesBeginFillAndEnd :
    (∃ (s : State) (k : Fin 32), csiOn s k = true ∧ s.sl.streams[k].retired = false ∧ s.sl.streams[k].frame = none ∧ setOf s k =
      none) ∧
    (∃ (s : State) (k : Fin 32) (n : Fin 16) (x : Fin 64), csiOn s k = true ∧ s.sl.streams[k].retired = false ∧ s.sl.streams[k].frame
      = none ∧ setOf s k = some n.val ∧ netOfSet s n = some x ∧ s.sl.suspended = false ∧ s.wr.ready = true ∧ assemblingOf s n = [] ∧
      (∀ y ∈ s.barges, y.num ≠ s.reg R.BARGE_NEXT)) ∧
    (∃ (s : State) (rx : Fin 8) (p : CsiPacket) (k : Fin 32) (f : Frame), s.flag R.SL_CTRL 0 = true ∧ s.flag (R.CSIc_CFG rx) 0 = true
      ∧ (streamsOf s false rx).filter (fun i => s.fld (R.STRs_CFG i) 8 5 == p.vc.toNat) = [k.val] ∧ s.fld (R.STRs_CFG k) 14 9 =
      p.dt.toNat ∧ supportedType p.dt.toNat = true ∧ s.sl.streams[k].retired = false ∧ s.sl.streams[k].frame = some f ∧ p.ecc =
      .clean ∧ p.crcBad = false ∧ p.dt ≠ 0x12) ∧
    (∃ (s : State) (rx : Fin 8) (p : CsiPacket) (k : Fin 32) (f : Frame), s.flag R.SL_CTRL 0 = true ∧ s.flag (R.CSIc_CFG rx) 0 = true
      ∧ (streamsOf s false rx).filter (fun i => s.fld (R.STRs_CFG i) 8 5 == p.vc.toNat) = [k.val] ∧ s.fld (R.STRs_CFG k) 14 9 = 0x12
      ∧ s.sl.streams[k].retired = false ∧ s.sl.streams[k].frame = some f ∧ p.ecc = .clean ∧ p.crcBad = false ∧ p.dt = 0x12) ∧
    (∃ (s : State) (rx : Fin 8) (p : CsiPacket) (k : Fin 32) (f : Frame), s.flag R.SL_CTRL 0 = true ∧ s.flag (R.CSIc_CFG rx) 0 = true
      ∧ (streamsOf s false rx).filter (fun i => s.fld (R.STRs_CFG i) 8 5 == p.vc.toNat) = [k.val] ∧ s.fld (R.STRs_CFG k) 14 9 =
      p.dt.toNat ∧ supportedType p.dt.toNat = true ∧ s.sl.streams[k].retired = false ∧ s.sl.streams[k].frame = some f ∧ p.ecc =
      .clean ∧ p.crcBad = true) ∧
    (∃ (s : State) (k : Fin 32) (env : CloseEnv) (f : Frame), csiOn s k = true ∧ s.sl.streams[k].retired = false ∧
      s.sl.streams[k].frame = some f ∧ f.barge = none ∧ f.retx = false ∧ csiStatus s k f = .ok ∧ hdrRestart (f.header.getD []) =
      false ∧ s.sl.streams[k].restartDue = false ∧ f.cnt - s.sl.streams[k].lastCnt = 1 ∧ stampOk s k s.sl.streams[k] f 1 = true) ∧
    (∃ (s : State) (k : Fin 32) (env : CloseEnv) (f : Frame) (es : Nat), csiOn s k = true ∧ s.sl.streams[k].retired = false ∧
      s.sl.streams[k].frame = some f ∧ f.barge = none ∧ statusSource false (csiStatus s k f) = some es) ∧
    (∃ (s : State) (k : Fin 32) (env : CloseEnv), csiOn s k = true ∧ s.sl.streams[k].retired = false ∧ s.sl.streams[k].frame = none) :=
  ⟨⟨{ w02Str with cycle := 99 }, 31, by decide +kernel⟩,
   ⟨w02Set, 31, 15, 63, by decide +kernel⟩,
   ⟨w02StrF w02Good, 0, ⟨0, 0x2A, .clean, false, [3, 4]⟩, 31, w02Good, by decide +kernel⟩,
   ⟨(w02StrF w02Good).setReg (R.STRs_CFG 31) 0x2401#32, 0, ⟨0, 0x12, .clean, false, [3, 4]⟩, 31, w02Good, by decide +kernel⟩,
   ⟨w02StrF w02Fr, 0, ⟨0, 0x2A, .clean, true, [3, 4]⟩, 31, w02Fr, by decide +kernel⟩,
   ⟨w02GoodS, 31, ⟨false, false⟩, w02Good, by decide +kernel⟩,
   ⟨w02StrF w02Fr, 31, ⟨false, false⟩, w02Fr, 18, by decide +kernel⟩,
   ⟨w02Str, 31, ⟨false, false⟩, by decide +kernel⟩⟩

theorem wit_EthernetSegmentsLinksAndRestarts :
    (∃ (s : State) (e : EthFrame) (env : CloseEnv) (k : Fin 32), s.flag R.SL_CTRL 0 = true ∧ s.flag (R.ETHe_CFG e.port) 0 = true ∧
      flowOf s e = some k.val ∧ e.fcsBad = false ∧ e.pcsBad = false ∧ s.sl.streams[k].retired = false ∧ s.sl.streams[k].frame = none
      ∧ setOf s k = none ∧ 32 ≤ e.payload.length ∧ hdrSegment (e.payload.take 32) = 0 ∧ hdrOk s k (e.payload.take 32) = true ∧
      hdrLast (e.payload.take 32) = false ∧ hdrLen (e.payload.take 32) = (e.payload.drop 32).length ∧ checkOk (e.payload.take 32)
      (e.payload.drop 32) = true) ∧
    (∃ (s : State) (e : EthFrame) (env : CloseEnv) (k : Fin 32), s.flag R.SL_CTRL 0 = true ∧ s.flag (R.ETHe_CFG e.port) 0 = true ∧
      flowOf s e = some k.val ∧ e.fcsBad = false ∧ e.pcsBad = false ∧ s.sl.streams[k].retired = false ∧ s.sl.streams[k].frame = none
      ∧ (e.payload.length < 32 ∨ hdrSegment (e.payload.take 32) ≠ 0)) ∧
    (∃ (s : State) (e : EthFrame), s.flag R.SL_CTRL 0 = true ∧ s.flag (R.ETHe_CFG e.port) 0 = true ∧ flowOf s e = none) ∧
    (∃ (s : State) (p : SensorPort), linkState s p = .lost) ∧
    (∃ (s : State) (p : SensorPort), linkState s p ≠ .lost) ∧
    (∃ (s : State) (k : Fin 32), csiOn s k = true ∧ s.sl.streams[k].retired = true ∧ s.sl.streams[k].frame = none) ∧
    (∃ (s : State) (i : Initiator) (k : Fin 32), isKeeper i = true ∧ s.admitted i = true) ∧
    (∃ (s : State) (e : Nat), s.sl.slotEnd = some e ∧ e ≤ s.cycle ∧ heldBarges s = [] ∧ s.sl.lampWait = []) ∧
    (∃ (s : State) (b : Word) (x : Barge), s.barge? b = some x ∧ assembling s x = true ∧ asmPast s x = true ∧ (∀ k : Fin 32,
      s.sl.streams[k].frame = none)) :=
  ⟨⟨w02Eth, w02EthF 0, ⟨false, false⟩, 31, by decide +kernel⟩,
   ⟨w02Eth, { w02EthF 0 with payload := [0x53, 0x4B, 1, 0, 0, 7, 0, 1] }, ⟨false, false⟩, 31, by decide +kernel⟩,
   ⟨w02Eth, { w02EthF 0 with etherType := 0x8808 }, by decide +kernel⟩,
   ⟨{ w02Eth with sl := { w02Eth.sl with ethLink := Vector.replicate 4 .lost } }, .eth 3, by decide +kernel⟩,
   ⟨w02Eth, .eth 3, by decide +kernel⟩,
   ⟨{ w02Str with sl := { w02Str.sl with streams := w02Str.sl.streams.map fun x => { x with retired := true } } }, 31,
     by decide +kernel⟩,
   ⟨State.reset, .k1, 31, by decide +kernel⟩,
   ⟨{ State.reset with sl := { State.reset.sl with slotEnd := some 0 } }, 0, by decide +kernel⟩,
   ⟨w02Asm, 7, (newEntry 7 ⟨0, 0⟩ 0x1010001#32 0#32), by decide +kernel⟩⟩

theorem wit_LinkRequestsAndReads :
    (∃ (s : State) (i : Initiator) (n : Fin 2) (d : Word), s.admitted i = true) ∧
    (∃ (s : State) (i : Initiator) (n : Fin 2) (d : Word), s.admitted i = true ∧ s.mayWrite i (R.RPn_CFG_DATA n) = true ∧ (isKeeper i
      = true ∨ s.flag (R.RPn_CTRL n) 6 = true)) ∧
    (∃ (s : State) (u : OutUser) (n : Fin 2) (off : BitVec 38) (e : Nat) (len : Nat), userAdmitted s u = true ∧ portPresent s n =
      true ∧ obEntry s n off.toNat = some e ∧ s.flag (R.OBWn_e_CFG n e) (userBit u) = true) ∧
    (∃ (s : State) (u : OutUser) (n : Fin 2) (off : BitVec 38) (e : Nat) (d : List Byte), userAdmitted s u = true ∧ portPresent s n =
      true ∧ obEntry s n off.toNat = some e ∧ s.flag (R.OBWn_e_CFG n e) (userBit u) = true ∧ s.flag (R.OBWn_e_CFG n e) 1 = true) ∧
    (∃ (s : State) (u : OutUser) (n : Fin 2) (off : BitVec 38) (op : MemOp), s.scrapped = false ∧ (portPresent s n = false ∨ obEntry
      s n off.toNat = none) ∧ (∀ k, u ≠ .keeper k)) ∧
    (∃ (s : State) (n : Fin 2) (tag : Nat) (r : OutRead) (v : DWord), readOf s n tag = some r) ∧
    (∃ (s : State) (n : Fin 2) (tag : Nat) (r : OutRead), readOf s n tag = some r ∧ r.user = .harbour ∧ s.scrapped = false) ∧
    (∃ (s : State) (n : Fin 2) (tag : Nat) (r : OutRead), readOf s n tag = some r ∧ (∀ k, r.user ≠ .keeper k) ∧ s.scrapped = false ∧
      usCycles (s.fld (R.RPn_CPL_TO n) 15 0) ≤ s.cycle - r.issued) :=
  ⟨⟨w03P .serving, .k1, 1, 0, by decide +kernel⟩,
   ⟨w03P .serving, .k1, 1, 7, by decide +kernel⟩,
   ⟨w03Ob, .keeper 1, 1, 0x1234#38, 7, 8, by decide +kernel⟩,
   ⟨w03Ob, .engine, 1, 0x1234#38, 7, [1, 2], by decide +kernel⟩,
   ⟨w03Ob, .harbour, 1, 0x3FFFFFFFFF#38, .write [1], by decide +kernel⟩,
   ⟨w03Read (.keeper 1), 1, 5, ⟨5, .keeper 1, 8, 0⟩, 9, by decide +kernel⟩,
   ⟨w03Read .harbour, 1, 5, ⟨5, .harbour, 8, 0⟩, by decide +kernel⟩,
   ⟨w03Read .engine, 1, 5, ⟨5, .engine, 8, 0⟩, by decide +kernel⟩⟩

theorem wit_InboundRequestsLandingAndPatrol :
    (∃ (s : State) (n : Fin 2) (odd : Bool) (a : DWord) (len : Nat) (e : Nat) (o : Nat) (c : Ecc), inboundAt s n 512 a.toNat len =
      some (e, o) ∧ s.fld (R.IBWn_e_CFG n e) 2 0 = 1 ∧ holdEcc s ((s.reg64 (R.IBWn_e_TGT_LO n e)).toNat + o) len c = .clean ∧
      s.barges = []) ∧
    (∃ (s : State) (n : Fin 2) (odd : Bool) (a : DWord) (len : Nat) (e : Nat) (o : Nat) (w : Nat) (c : Ecc), inboundAt s n 512
      a.toNat len = some (e, o) ∧ s.fld (R.IBWn_e_CFG n e) 2 0 = 1 ∧ holdUncIn s ((s.reg64 (R.IBWn_e_TGT_LO n e)).toNat + o) len =
      some w ∧ s.barges = []) ∧
    (∃ (s : State) (n : Fin 2) (odd : Bool) (a : DWord) (bs : List Byte) (e : Nat) (o : Nat) (c : Ecc), inboundAt s n 256 a.toNat
      bs.length = some (e, o) ∧ s.fld (R.IBWn_e_CFG n e) 2 0 = 3 ∧ serving s n = true ∧ banksAdmit s .mooringIn true ((s.reg64
      (R.IBWn_e_TGT_LO n e)).toNat + o) bs.length = true) ∧
    (∃ (s : State) (n : Fin 2) (odd : Bool) (a : DWord) (len : Nat) (c : Ecc), inboundAt s n 512 a.toNat len = none) ∧
    (∃ (s : State) (l : Landed) (rest : List Landed) (a : RingAt), s.mr.landed = l :: rest ∧ l.ring = some a ∧ basinWaits s
      l.addr.toNat l.bytes.length = false ∧ (wholeWords l.addr.toNat l.bytes.length = true ∨ codeFinding l.ecc = .clean) ∧ 2 ≤
      landingCode s a l.overrun l.bytes ∧ landingCode s a l.overrun l.bytes ≤ 6) ∧
    (∃ (s : State) (l : Landed) (rest : List Landed) (a : RingAt), s.mr.landed = l :: rest ∧ l.ring = some a ∧ basinWaits s
      l.addr.toNat l.bytes.length = false ∧ (wholeWords l.addr.toNat l.bytes.length = true ∨ codeFinding l.ecc = .clean) ∧ a.isSeal =
      false ∧ landingCode s a l.overrun l.bytes = 0 ∧ (sigOf a l.bytes l.now).last = false ∧ s.wr.ready = false) ∧
    (∃ (s : State) (n : Fin 2) (bs : List Byte) (r : Fin 64) (k : Nat) (g : Ecc), serving s n = true ∧ s.flag R.PAT_CTRL n.val = true
      ∧ s.fld R.PAT_RATE 12 0 ≠ 0 ∧ patrolDue s n = true ∧ patrolAt s n = some (r, k) ∧ engineReach s n (patBus s r k) 4096 = true ∧
      holdEcc s (patGold s r k) 4096 g = .clean ∧ bs = s.bytes (patGold s r k) 4096 ∧ k + 1 < (s.reg (R.PATr_LEN r)).toNat) ∧
    (∃ (s : State) (n : Fin 2) (bs : List Byte) (r : Fin 64) (k : Nat) (g : Ecc), serving s n = true ∧ s.flag R.PAT_CTRL n.val = true
      ∧ s.fld R.PAT_RATE 12 0 ≠ 0 ∧ patrolDue s n = true ∧ patrolAt s n = some (r, k) ∧ engineReach s n (patBus s r k) 4096 = true ∧
      holdEcc s (patGold s r k) 4096 g = .clean ∧ bs ≠ s.bytes (patGold s r k) 4096 ∧ outstanding s n r = []) :=
  ⟨⟨w03Ib 1, 1, true, 0x40000010#64, 4, 7, 0x10, .clean, by decide +kernel⟩,
   ⟨{ w03Ib 1 with hd := { State.reset.hd with unc := [0x20000010] } }, 1, true, 0x40000010#64, 4, 7, 0x10, 0x20000010, .clean,
     by decide +kernel⟩,
   ⟨w03Bank (w03Ib 3), 1, false, 0x40000010#64, [1, 2], 7, 0x10, .clean, by decide +kernel⟩,
   ⟨w03Ib 1, 1, true, 0x4FFFFFFE#64, 4, .clean, by decide +kernel⟩,
   ⟨w03Land [1, 2] 0x20000000, ⟨1, 0x20000000, [1, 2], 0, ⟨0, 0⟩, some ⟨3, false, 0, 0⟩, false, .clean⟩, [], ⟨3, false, 0, 0⟩,
     by decide +kernel⟩,
   ⟨w03Land w03Sig 0x20000000, ⟨1, 0x20000000, w03Sig, 0, ⟨0, 0⟩, some ⟨3, false, 0, 0⟩, false, .clean⟩, [], ⟨3, false, 0, 0⟩,
     by decide +kernel⟩,
   ⟨w03Pat none, 1, (w03Pat none).bytes (patGold (w03Pat none) 63 0) 4096, 63, 0, .clean, by decide +kernel, by decide +kernel,
     by decide +kernel, by decide +kernel, by decide +kernel, by decide +kernel, by decide +kernel, rfl, by decide +kernel⟩,
   ⟨w03Pat (some (63, 1)), 1, List.replicate 4096 1, 63, 1, .clean, by decide +kernel⟩⟩

theorem wit_PortStatesFromOffToServingAndBack :
    (∃ (s : State) (n : Fin 2), mayStart s n = true) ∧
    (∃ (s : State) (n : Fin 2), mayStart s n = true ∧ s.mr.ports[n].starting = true ∧ msCycles (10 * s.fld (R.RPn_CTRL n) 15 8) ≤
      s.cycle - perstFrom s n) ∧
    (∃ (s : State) (n : Fin 2) (sp : BitVec 3) (wd : BitVec 5) (id : Word), s.mr.ports[n].state = .training ∧ trainLate s n = false ∧
      s.fld (R.RPn_CTRL n) 3 1 ≤ sp.toNat ∧ 4 * 2 ^ s.fld (R.RPn_CTRL n) 5 4 ≤ (trainedWidth s wd).toNat ∧ id = s.reg (R.RPn_ACC_ID
      n)) ∧
    (∃ (s : State) (n : Fin 2), s.mr.ports[n].state = .training ∧ trainLate s n = true) ∧
    (∃ (s : State) (n : Fin 2), s.mr.ports[n].state = .waitReady ∧ bootLate s n = false ∧ s.mr.ports[n].readyLowSeen = true) ∧
    (∃ (s : State) (n : Fin 2), s.mr.ports[n].state = .waitReady ∧ bootLate s n = true) ∧
    (∃ (s : State) (n : Fin 2), serving s n = true) ∧
    (∃ (s : State) (n : Fin 2), serving s n = true ∧ s.mr.ports[n].fault = false) ∧
    (∃ (s : State) (n : Fin 2), s.mr.ports[n].therm = false) ∧
    (∃ (s : State) (n : Fin 2), serving s n = true ∧ s.mr.ports[n].reads = []) ∧
    (∃ (s : State) (n : Fin 2), linkIsUp s n = true) ∧
    (∃ (s : State) (i : Initiator) (n : Fin 2), isKeeper i = true ∧ s.admitted i = true) ∧
    (∃ (s : State) (n : Fin 2), linkIsUp s n = true) :=
  ⟨⟨w03P .off, 1, by decide +kernel⟩,
   ⟨w03P .off fun p => { p with starting := true }, 1, by decide +kernel⟩,
   ⟨w03P .training fun p => { p with entered := 9000000000 }, 1, 5, 4, 0, by decide +kernel⟩,
   ⟨w03P .training, 1, by decide +kernel⟩,
   ⟨w03P .waitReady fun p => { p with readyLowSeen := true, entered := 9000000000 }, 1, by decide +kernel⟩,
   ⟨w03P .waitReady, 1, by decide +kernel⟩,
   ⟨{ w03P .serving with barges := [{ newEntry 77 ⟨0, 0⟩ 9#32 0#32 with stage := .delivered, ctxs := [3] }] }, 1, by decide +kernel⟩,
   ⟨w03P .serving, 1, by decide +kernel⟩,
   ⟨w03P .serving, 1, by decide +kernel⟩,
   ⟨w03P .serving, 1, by decide +kernel⟩,
   ⟨w03P .serving, 1, by decide +kernel⟩,
   ⟨w03P .serving, .k1, 1, by decide +kernel⟩,
   ⟨w03P .serving, 1, by decide +kernel⟩⟩

theorem wit_MirrorComparesDeadlinesAndGlints :
    (∃ (s : State) (r : SigRec) (rest : List SigRec) (x : Barge), s.mr.handover = r :: rest ∧ mirrorFull s = false ∧ mirrorWindow s =
      none ∧ mirrorOn s = true ∧ s.barge? r.barge = some x ∧ windowLate x r = false ∧ orderOk x r = true ∧ r.dead = false ∧
      deadEnabled x = false ∧ isSingle x = false ∧ x.lamp = none ∧ partner s r = none) ∧
    (∃ (s : State) (r : SigRec) (p : SigRec) (rest : List SigRec) (x : Barge), s.mr.handover = r :: rest ∧ mirrorFull s = false ∧
      mirrorWindow s = none ∧ mirrorOn s = true ∧ s.barge? r.barge = some x ∧ windowLate x r = false ∧ orderOk x r = true ∧ r.dead =
      false ∧ deadEnabled x = false ∧ partner s r = some p) ∧
    (∃ (s : State) (r : SigRec) (p : SigRec) (rest : List SigRec) (x : Barge) (m : Fin 64), mirrorWindow s = none ∧ s.mi.queue = r ::
      rest ∧ s.barge? r.barge = some x ∧ x.formed = false ∧ x.lamp = none ∧ isSingle x = false ∧ r.dead = false ∧ partner s r = some
      p ∧ x.twin = 0 ∧ x.mnet = some m ∧ r.digest = x.digest ∧ p.digest = x.digest ∧ r.sig = p.sig ∧ x.winDone.contains r.window =
      false ∧ x.winDone.length + 1 = windowsOf x) ∧
    (∃ (s : State) (r : SigRec) (p : SigRec) (rest : List SigRec) (x : Barge) (m : Fin 64), mirrorWindow s = none ∧ s.mi.queue = r ::
      rest ∧ s.barge? r.barge = some x ∧ x.formed = false ∧ x.lamp = none ∧ isSingle x = false ∧ r.dead = false ∧ partner s r = some
      p ∧ x.twin = 0 ∧ x.mnet = some m ∧ r.digest = x.digest ∧ p.digest = x.digest ∧ r.sig ≠ p.sig) ∧
    (∃ (s : State) (b : Word) (x : Barge), s.barge? b = some x ∧ mirrorOn s = true ∧ x.stage = .delivered ∧ x.lamp = none ∧
      x.windowPast = none ∧ missed x.domain s.now x.window = true) ∧
    (∃ (s : State) (b : Word) (x : Barge) (m : Fin 64) (c : Nat), s.barge? b = some x ∧ x.formed = false ∧ x.lamp = none ∧
      x.windowPast = some c ∧ usCycles 1 ≤ s.cycle - c ∧ x.twin = 0 ∧ missingCode s x ≠ 0 ∧ loggedLate s 1 b = false ∧ x.mnet = some
      m) ∧
    (∃ (s : State) (r : SigRec) (rest : List SigRec) (x : Barge) (m : Fin 64), mirrorWindow s = none ∧ s.mi.queue = r :: rest ∧
      s.barge? r.barge = some x ∧ x.formed = false ∧ x.lamp = none ∧ x.twin = 0 ∧ x.mnet = some m ∧ partner s r = none) ∧
    (∃ (s : State) (e : MirrorEnv), (mirrorWindow s).isSome = true) ∧
    (∃ (s : State) (g : Glint) (h : MirrorGlint), mirrorWindow s = some g ∧ g.ran = false ∧ h.equalP = none ∧ h.equalQ = none ∧
      h.bitP ≠ h.bitQ) ∧
    (∃ (s : State) (g : Glint) (h : MirrorGlint), mirrorWindow s = some g ∧ g.ran = false ∧ g.syn.toNat < 256 ∧ glintGood h
      (g.syn.setWidth 8) = true) ∧
    (∃ (s : State) (i : Initiator), isKeeper i = true ∧ s.admitted i = true) :=
  ⟨⟨w04Mi [] [] [w04Sg 1 7], w04Sg 1 7, [], w04Bg, by decide +kernel⟩,
   ⟨w04Mi [] [w04Sg 0 7] [w04Sg 1 7], w04Sg 1 7, w04Sg 0 7, [], w04Bg, by decide +kernel⟩,
   ⟨w04Mi [w04Sg 1 7] [w04Sg 0 7] [], w04Sg 1 7, w04Sg 0 7, [], w04Bg, 63, by decide +kernel⟩,
   ⟨w04Mi [w04Sg 1 7] [w04Sg 0 8] [], w04Sg 1 7, w04Sg 0 8, [], w04Bg, 63, by decide +kernel⟩,
   ⟨w04Mi [] [] [], 77, w04Bg, by decide +kernel⟩,
   ⟨w04Mi [] [] [] { w04Bg with windowPast := some 0 }, 77, { w04Bg with windowPast := some 0 }, 63, 0, by decide +kernel⟩,
   ⟨w04Mi [w04Sg 1 7] [] [], w04Sg 1 7, [], w04Bg, 63, by decide +kernel⟩,
   ⟨w04Gl 34 (w04Mi [w04Sg 1 7] [] []), .normal, by decide +kernel⟩,
   ⟨w04Gl 34 (State.reset.setReg R.GLINT_STAT 0xFFFFFF#32), ⟨0, false, 34, 0, 255, 0, 0, 0, 0, 0, 9000, 100, false, false, false,
     false, false⟩, ⟨none, none, none, some 3⟩, by decide +kernel⟩,
   ⟨w04Gl 34 (State.reset.setReg R.GLINT_STAT 0x1FFFFFF#32), ⟨0, false, 34, 0, 255, 0, 0, 0, 0, 0, 9000, 100, false, false, false,
     false, false⟩, ⟨none, none, some 255, some 255⟩, by decide +kernel⟩,
   ⟨State.reset.setReg R.SILENT_DIV 5#32, .k0, by decide +kernel⟩⟩

theorem wit_TileScalarAndControl :
    (∃ (s : State) (p : Fin 36) (raw : Nat) (w : Word64) (v : IssueEnv), s.tiles[p].run = .running ∧ fetchWord s p = some raw ∧
      splitWord raw = w ∧ w.op = 0x00 ∧ legal w = true ∧ issueWaits s p w = false ∧ v.parity = false ∧ codeFinding v.fetch = .clean) ∧
    (∃ (s : State) (p : Fin 36) (raw : Nat) (w : Word64) (v : IssueEnv), s.tiles[p].run = .running ∧ fetchWord s p = some raw ∧
      splitWord raw = w ∧ w.op = 0x08 ∧ legal w = true ∧ issueWaits s p w = false ∧ v.parity = false ∧ codeFinding v.fetch = .clean) ∧
    (∃ (s : State) (p : Fin 36) (raw : Nat) (w : Word64) (v : IssueEnv), s.tiles[p].run = .running ∧ fetchWord s p = some raw ∧
      splitWord raw = w ∧ w.op = 0x09 ∧ legal w = true ∧ issueWaits s p w = false ∧ v.parity = false ∧ codeFinding v.fetch = .clean) ∧
    (∃ (s : State) (p : Fin 36) (raw : Nat) (w : Word64) (v : IssueEnv), s.tiles[p].run = .running ∧ fetchWord s p = some raw ∧
      splitWord raw = w ∧ w.op = 0x0A ∧ legal w = true ∧ issueWaits s p w = false ∧ v.parity = false ∧ codeFinding v.fetch = .clean) ∧
    (∃ (s : State) (p : Fin 36) (raw : Nat) (w : Word64) (v : IssueEnv), s.tiles[p].run = .running ∧ fetchWord s p = some raw ∧
      splitWord raw = w ∧ w.op = 0x0B ∧ legal w = true ∧ issueWaits s p w = false ∧ v.parity = false ∧ codeFinding v.fetch = .clean) ∧
    (∃ (s : State) (p : Fin 36) (raw : Nat) (w : Word64) (v : IssueEnv), s.tiles[p].run = .running ∧ fetchWord s p = some raw ∧
      splitWord raw = w ∧ w.op = 0x02 ∧ legal w = true ∧ issueWaits s p w = false ∧ v.parity = false ∧ codeFinding v.fetch = .clean ∧
      s.tiles[p].loops = [] ∧ w.imm ≠ 0) ∧
    (∃ (s : State) (p : Fin 36) (raw : Nat) (w : Word64) (v : IssueEnv), s.tiles[p].run = .running ∧ fetchWord s p = some raw ∧
      splitWord raw = w ∧ w.op = 0x03 ∧ legal w = true ∧ issueWaits s p w = false ∧ v.parity = false ∧ codeFinding v.fetch = .clean) ∧
    (∃ (s : State) (p : Fin 36) (raw : Nat) (w : Word64) (v : IssueEnv), s.tiles[p].run = .running ∧ fetchWord s p = some raw ∧
      splitWord raw = w ∧ w.op = 0x04 ∧ legal w = true ∧ issueWaits s p w = false ∧ v.parity = false ∧ codeFinding v.fetch = .clean) ∧
    (∃ (s : State) (p : Fin 36) (raw : Nat) (w : Word64) (v : IssueEnv), s.tiles[p].run = .running ∧ fetchWord s p = some raw ∧
      splitWord raw = w ∧ w.op = 0x05 ∧ legal w = true ∧ issueWaits s p w = false ∧ v.parity = false ∧ codeFinding v.fetch = .clean) ∧
    (∃ (s : State) (p : Fin 36) (raw : Nat) (w : Word64) (v : IssueEnv), s.tiles[p].run = .running ∧ fetchWord s p = some raw ∧
      splitWord raw = w ∧ w.op = 0x06 ∧ legal w = true ∧ issueWaits s p w = false ∧ v.parity = false ∧ codeFinding v.fetch = .clean) ∧
    (∃ (s : State) (p : Fin 36) (raw : Nat) (w : Word64) (v : IssueEnv), s.tiles[p].run = .running ∧ fetchWord s p = some raw ∧
      splitWord raw = w ∧ w.op = 0x01 ∧ legal w = true ∧ issueWaits s p w = false ∧ v.parity = false ∧ codeFinding v.fetch = .clean ∧
      runOn s p = none) ∧
    (∃ (s : State) (p : Fin 36) (raw : Nat) (w : Word64) (v : IssueEnv) (u : SnRun) (c : Fin 64), s.tiles[p].run = .running ∧
      fetchWord s p = some raw ∧ splitWord raw = w ∧ w.op = 0x01 ∧ legal w = true ∧ issueWaits s p w = false ∧ v.parity = false ∧
      codeFinding v.fetch = .clean ∧ runOn s p = some u ∧ u.check = some c ∧ (u.tiles.all fun q => (p :: u.halted).contains q) =
      true) :=
  ⟨⟨w05T (enc05 0 0 0 0 0 0 0), 35, enc05 0 0 0 0 0 0 0, splitWord (enc05 0 0 0 0 0 0 0), quiet, by decide +kernel⟩,
   ⟨w05T (enc05 8 3 1 0 0 0 0xFFFFFFFF), 35, enc05 8 3 1 0 0 0 0xFFFFFFFF, splitWord (enc05 8 3 1 0 0 0 0xFFFFFFFF), quiet,
     by decide +kernel⟩,
   ⟨w05T (enc05 9 15 1 2 0 0 0), 35, enc05 9 15 1 2 0 0 0, splitWord (enc05 9 15 1 2 0 0 0), quiet, by decide +kernel⟩,
   ⟨w05T (enc05 10 0 1 2 0 0 0), 35, enc05 10 0 1 2 0 0 0, splitWord (enc05 10 0 1 2 0 0 0), quiet, by decide +kernel⟩,
   ⟨w05T (enc05 11 4 15 0 0 0 0x20001), 35, enc05 11 4 15 0 0 0 0x20001, splitWord (enc05 11 4 15 0 0 0 0x20001), quiet,
     by decide +kernel⟩,
   ⟨w05T (enc05 2 7 0 0 0 2 5), 35, enc05 2 7 0 0 0 2 5, splitWord (enc05 2 7 0 0 0 2 5), quiet, by decide +kernel⟩,
   ⟨w05T (enc05 3 0 0 0 0 0 0x200), 35, enc05 3 0 0 0 0 0 0x200, splitWord (enc05 3 0 0 0 0 0 0x200), quiet, by decide +kernel⟩,
   ⟨w05T (enc05 4 0 2 0 0 0 0x200), 35, enc05 4 0 2 0 0 0 0x200, splitWord (enc05 4 0 2 0 0 0 0x200), quiet, by decide +kernel⟩,
   ⟨w05T (enc05 5 0 0 0 15 0 0) |>.setReg (R.TL_EVENT 35) 0xFFFF#32, 35, enc05 5 0 0 0 15 0 0, splitWord (enc05 5 0 0 0 15 0 0),
     quiet, by decide +kernel⟩,
   ⟨w05T (enc05 6 0 0 0 15 0 0), 35, enc05 6 0 0 0 15 0 0, splitWord (enc05 6 0 0 0 15 0 0), quiet, by decide +kernel⟩,
   ⟨w05T (enc05 1 0 0 0 0 0 0) fun t => { t with entry := 3, tag := 0xABCD }, 35, enc05 1 0 0 0 0 0 0, splitWord (enc05 1 0 0 0 0 0
     0), quiet, by decide +kernel⟩,
   ⟨w05T (enc05 1 0 0 0 0 0 0) |> w05Run, 35, enc05 1 0 0 0 0 0 0, splitWord (enc05 1 0 0 0 0 0 0), quiet, w05U, 7,
     by decide +kernel⟩⟩

theorem wit_TileMemoryAndVectors :
    (∃ (s : State) (p : Fin 36) (raw : Nat) (w : Word64) (v : IssueEnv), s.tiles[p].run = .running ∧ fetchWord s p = some raw ∧
      splitWord raw = w ∧ w.op = 0x0C ∧ legal w = true ∧ issueWaits s p w = false ∧ v.parity = false ∧ codeFinding v.fetch = .clean ∧
      badWord v.data = false ∧ correctedWords v.data = 0 ∧ addrOf s.tiles[p] w % 4 = 0 ∧ mayRead s p (addrOf s.tiles[p] w) 4 = true) ∧
    (∃ (s : State) (p : Fin 36) (raw : Nat) (w : Word64) (v : IssueEnv), s.tiles[p].run = .running ∧ fetchWord s p = some raw ∧
      splitWord raw = w ∧ w.op = 0x0D ∧ legal w = true ∧ issueWaits s p w = false ∧ v.parity = false ∧ codeFinding v.fetch = .clean ∧
      badWord v.data = false ∧ correctedWords v.data = 0 ∧ addrOf s.tiles[p] w % 4 = 0 ∧ mayWriteSram s p (addrOf s.tiles[p] w) 4 =
      true) ∧
    (∃ (s : State) (p : Fin 36) (raw : Nat) (w : Word64) (v : IssueEnv) (k : Nat), s.tiles[p].run = .running ∧ fetchWord s p = some
      raw ∧ splitWord raw = w ∧ w.op = 0x18 ∧ legal w = true ∧ issueWaits s p w = false ∧ v.parity = false ∧ codeFinding v.fetch =
      .clean ∧ badWord v.data = false ∧ correctedWords v.data = 0 ∧ formBytes w.fn = some k ∧ addrOf s.tiles[p] w % 16 = 0 ∧ mayRead
      s p (addrOf s.tiles[p] w) (64 * k) = true) ∧
    (∃ (s : State) (p : Fin 36) (raw : Nat) (w : Word64) (v : IssueEnv) (k : Nat), s.tiles[p].run = .running ∧ fetchWord s p = some
      raw ∧ splitWord raw = w ∧ w.op = 0x19 ∧ legal w = true ∧ issueWaits s p w = false ∧ v.parity = false ∧ codeFinding v.fetch =
      .clean ∧ badWord v.data = false ∧ correctedWords v.data = 0 ∧ formBytes w.fn = some k ∧ addrOf s.tiles[p] w % 16 = 0 ∧
      mayWriteSram s p (addrOf s.tiles[p] w) (64 * k) = true) ∧
    (∃ (s : State) (p : Fin 36) (raw : Nat) (w : Word64) (v : IssueEnv), s.tiles[p].run = .running ∧ fetchWord s p = some raw ∧
      splitWord raw = w ∧ w.op = 0x1A ∧ legal w = true ∧ issueWaits s p w = false ∧ v.parity = false ∧ codeFinding v.fetch = .clean) ∧
    (∃ (s : State) (p : Fin 36) (raw : Nat) (w : Word64) (v : IssueEnv), s.tiles[p].run = .running ∧ fetchWord s p = some raw ∧
      splitWord raw = w ∧ w.op = 0x1B ∧ legal w = true ∧ issueWaits s p w = false ∧ v.parity = false ∧ codeFinding v.fetch = .clean) ∧
    (∃ (s : State) (p : Fin 36) (raw : Nat) (w : Word64) (v : IssueEnv), s.tiles[p].run = .running ∧ fetchWord s p = some raw ∧
      splitWord raw = w ∧ w.op = 0x1C ∧ legal w = true ∧ issueWaits s p w = false ∧ v.parity = false ∧ codeFinding v.fetch = .clean ∧
      badWord v.data = false ∧ correctedWords v.data = 0 ∧ (areg s.tiles[p] w.q).toNat % 16 = 0 ∧ mayRead s p (areg s.tiles[p]
      w.q).toNat 1024 = true) ∧
    (∃ (s : State) (p : Fin 36) (raw : Nat) (w : Word64) (v : IssueEnv), s.tiles[p].run = .running ∧ fetchWord s p = some raw ∧
      splitWord raw = w ∧ w.op = 0x1D ∧ legal w = true ∧ issueWaits s p w = false ∧ v.parity = false ∧ codeFinding v.fetch = .clean ∧
      badWord v.data = false ∧ correctedWords v.data = 0 ∧ (areg s.tiles[p] w.q).toNat % 16 = 0 ∧ mayRead s p (areg s.tiles[p]
      w.q).toNat 260 = true) ∧
    (∃ (s : State) (p : Fin 36) (raw : Nat) (w : Word64) (v : IssueEnv), s.tiles[p].run = .running ∧ fetchWord s p = some raw ∧
      splitWord raw = w ∧ w.op = 0x1E ∧ legal w = true ∧ issueWaits s p w = false ∧ v.parity = false ∧ codeFinding v.fetch = .clean) :=
  ⟨⟨w05T (enc05 12 3 1 0 0 0 0x10) |>.store (tileByte 35 0x2010) [1, 2, 3, 4], 35, enc05 12 3 1 0 0 0 0x10, splitWord (enc05 12 3 1 0
     0 0 0x10), quiet, by decide +kernel⟩,
   ⟨w05T (enc05 13 0 1 2 0 0 0x10), 35, enc05 13 0 1 2 0 0 0x10, splitWord (enc05 13 0 1 2 0 0 0x10), quiet, by decide +kernel⟩,
   ⟨w05T (enc05 24 15 1 0 1 0 0x10) |>.store (tileByte 35 0x2010) [1, 0x80, 3, 4], 35, enc05 24 15 1 0 1 0 0x10, splitWord (enc05 24
     15 1 0 1 0 0x10), quiet, 2, by decide +kernel⟩,
   ⟨w05T (enc05 25 0 1 2 3 0 0x10) fun t => { t with vreg := [(128, 0xFF), (191, 7)] }, 35, enc05 25 0 1 2 3 0 0x10, splitWord (enc05
     25 0 1 2 3 0 0x10), quiet, 1, by decide +kernel⟩,
   ⟨w05T (enc05 26 2 2 3 1 0 0) fun t => { t with vreg := [(128, 0xFF), (191, 7), (200, 9)] }, 35, enc05 26 2 2 3 1 0 0, splitWord
     (enc05 26 2 2 3 1 0 0), quiet, by decide +kernel⟩,
   ⟨w05T (enc05 27 2 2 0 0x12 0 0x40000000) fun t => { t with vreg := [(128, 0x3F800000), (191, 7), (200, 9)] }, 35, enc05 27 2 2 0
     0x12 0 0x40000000, splitWord (enc05 27 2 2 0 0x12 0 0x40000000), quiet, by decide +kernel⟩,
   ⟨w05T (enc05 28 2 2 1 0 0 0) (fun t => { t with vreg := [(128, 0xFF), (191, 7), (200, 9)] }) |>.store (tileByte 35 0x2000) [3, 0,
     0, 0, 0xFF, 0xFF, 1, 0, 0, 0, 0, 0, 0xFF], 35, enc05 28 2 2 1 0 0 0, splitWord (enc05 28 2 2 1 0 0 0), quiet, by decide +kernel⟩,
   ⟨w05T (enc05 29 2 2 1 0 0 3) (fun t => { t with vreg := [(128, 0xFF), (191, 7)] }) |>.store (tileByte 35 0x2004) [30], 35, enc05
     29 2 2 1 0 0 3, splitWord (enc05 29 2 2 1 0 0 3), quiet, by decide +kernel⟩,
   ⟨w05T (enc05 30 2 2 0 1 0 0) fun t => { t with vreg := [(128, 0xFF), (191, 7)] }, 35, enc05 30 2 2 0 1 0 0, splitWord (enc05 30 2
     2 0 1 0 0), quiet, by decide +kernel⟩⟩

theorem wit_TileArrayDmaAndAkt :
    (∃ (s : State) (p : Fin 36) (raw : Nat) (w : Word64) (v : IssueEnv) (f : ArrFmt), s.tiles[p].run = .running ∧ fetchWord s p =
      some raw ∧ splitWord raw = w ∧ w.op = 0x10 ∧ legal w = true ∧ issueWaits s p w = false ∧ v.parity = false ∧ codeFinding v.fetch
      = .clean ∧ badWord v.data = false ∧ correctedWords v.data = 0 ∧ arrFmt w.fn = some f ∧ rowsOk s p (areg s.tiles[p] w.p + w.imm)
      (areg s.tiles[p] w.q) f.rows f.rowBytes = true) ∧
    (∃ (s : State) (p : Fin 36) (taken : Half) (l : WeightLoad) (f : ArrFmt) (k : Nat), s.tiles[p].loader = some l ∧ arrFmt l.fmt =
      some f ∧ l.next < f.loadCycles ∧ k ∈ loadRows f l.next ∧ loadBanks l f &&& taken = 0) ∧
    (∃ (s : State) (p : Fin 36) (raw : Nat) (w : Word64) (v : IssueEnv), s.tiles[p].run = .running ∧ fetchWord s p = some raw ∧
      splitWord raw = w ∧ w.op = 0x11 ∧ legal w = true ∧ issueWaits s p w = false ∧ v.parity = false ∧ codeFinding v.fetch = .clean) ∧
    (∃ (s : State) (p : Fin 36) (raw : Nat) (w : Word64) (v : IssueEnv) (f : ArrFmt), s.tiles[p].run = .running ∧ fetchWord s p =
      some raw ∧ splitWord raw = w ∧ w.op = 0x12 ∧ legal w = true ∧ issueWaits s p w = false ∧ v.parity = false ∧ codeFinding v.fetch
      = .clean ∧ badWord v.data = false ∧ correctedWords v.data = 0 ∧ arrFmt (w.fn % 8) = some f ∧ areg s.tiles[p] w.q % 16 = 0 ∧
      rowsOk s p (areg s.tiles[p] w.p) (areg s.tiles[p] w.q) w.imm.toNat f.vecBytes = true ∧ (areg s.tiles[p] w.d).toNat +
      w.imm.toNat ≤ 1024 ∧ (w.fn < 8 → badWord v.acc = false ∧ correctedWords v.acc = 0)) ∧
    (∃ (s : State) (p : Fin 36) (m : MmaFlight) (f : ArrFmt), sameWeights s.tiles[p].wfmt[(if m.buf then 1 else 0 : Fin 2)] f = true) ∧
    (∃ (s : State) (p : Fin 36) (raw : Nat) (w : Word64) (v : IssueEnv), s.tiles[p].run = .running ∧ fetchWord s p = some raw ∧
      splitWord raw = w ∧ w.op = 0x13 ∧ legal w = true ∧ issueWaits s p w = false ∧ v.parity = false ∧ codeFinding v.fetch = .clean ∧
      badWord v.acc = false ∧ correctedWords v.acc = 0 ∧ (areg s.tiles[p] w.p).toNat < 1024 ∧ (areg s.tiles[p] w.p).toNat +
      w.imm.toNat < 1024) ∧
    (∃ (s : State) (p : Fin 36) (raw : Nat) (w : Word64) (v : IssueEnv), s.tiles[p].run = .running ∧ fetchWord s p = some raw ∧
      splitWord raw = w ∧ w.op = 0x14 ∧ legal w = true ∧ issueWaits s p w = false ∧ v.parity = false ∧ codeFinding v.fetch = .clean ∧
      (areg s.tiles[p] w.d).toNat < 1024 ∧ (areg s.tiles[p] w.d).toNat + w.imm.toNat < 1024) ∧
    (∃ (s : State) (p : Fin 36) (raw : Nat) (w : Word64) (v : IssueEnv), s.tiles[p].run = .running ∧ fetchWord s p = some raw ∧
      splitWord raw = w ∧ w.op = 0x20 ∧ legal w = true ∧ issueWaits s p w = false ∧ v.parity = false ∧ codeFinding v.fetch = .clean ∧
      badWord v.data = false ∧ correctedWords v.data = 0 ∧ addrOf s.tiles[p] w % 32 = 0 ∧ mayRead s p (addrOf s.tiles[p] w) 32 =
      true) ∧
    (∃ (s : State) (p : Fin 36) (raw : Nat) (w : Word64) (v : IssueEnv), s.tiles[p].run = .running ∧ fetchWord s p = some raw ∧
      splitWord raw = w ∧ w.op = 0x21 ∧ legal w = true ∧ issueWaits s p w = false ∧ v.parity = false ∧ codeFinding v.fetch = .clean) ∧
    (∃ (s : State) (p : Fin 36) (raw : Nat) (w : Word64) (v : IssueEnv), s.tiles[p].run = .running ∧ fetchWord s p = some raw ∧
      splitWord raw = w ∧ w.op = 0x28 ∧ legal w = true ∧ issueWaits s p w = false ∧ v.parity = false ∧ codeFinding v.fetch = .clean ∧
      v.akt = none) ∧
    (∃ (s : State) (p : Fin 36) (raw : Nat) (w : Word64) (v : IssueEnv) (k : Fin 32), s.tiles[p].run = .running ∧ fetchWord s p =
      some raw ∧ splitWord raw = w ∧ w.op = 0x28 ∧ legal w = true ∧ issueWaits s p w = false ∧ v.parity = false ∧ codeFinding v.fetch
      = .clean ∧ v.akt = some k ∧ runOn s p = none ∧ (s.au.running.filter fun c => decide (c.atile.toNat = tileLogical s p)) = []) :=
  ⟨⟨w05T (enc05 16 0 1 15 0 0 0x10) (fun t => { t with areg := t.areg.set 15 32 }) |>.store (tileByte 35 0x2010) [5, 6], 35, enc05 16
     0 1 15 0 0 0x10, splitWord (enc05 16 0 1 15 0 0 0x10), quiet, .s8, by decide +kernel⟩,
   ⟨{ State.reset with tiles := State.reset.tiles.set 35 { Tile.reset with loader := some ⟨1, 2, 0x2000, 32, 31, 0⟩ } }, 35, 0, ⟨1,
     2, 0x2000, 32, 31, 0⟩, .s4, 63, by decide +kernel⟩,
   ⟨w05T (enc05 17 0 0 0 0 0 0), 35, enc05 17 0 0 0 0 0 0, splitWord (enc05 17 0 0 0 0 0 0), quiet, by decide +kernel⟩,
   ⟨w05T (enc05 18 0 1 15 0 0 1) (fun t => { t with wbuf := #v[[(0, 3), (1, 0xFF), (32, 5)], []], acc := [(1, 9)] }) |>.store
     (tileByte 35 0x2000) [5, 6], 35, enc05 18 0 1 15 0 0 1, splitWord (enc05 18 0 1 15 0 0 1), quiet, .s8, by decide +kernel⟩,
   ⟨State.reset, 0, ⟨true, 0, false, 0, 32, 3, 4, 5, 9, 0⟩, .s8, by decide +kernel⟩,
   ⟨w05T (enc05 19 2 0 0 0 0 1) fun t => { t with acc := [(1, 9), (33, 8)] }, 35, enc05 19 2 0 0 0 0 1, splitWord (enc05 19 2 0 0 0 0
     1), quiet, by decide +kernel⟩,
   ⟨w05T (enc05 20 0 0 2 0 0 1) fun t => { t with vreg := [(128, 0xFF), (191, 7)] }, 35, enc05 20 0 0 2 0 0 1, splitWord (enc05 20 0
     0 2 0 0 1), quiet, by decide +kernel⟩,
   ⟨w05T (enc05 32 0 1 0 3 0 0x20), 35, enc05 32 0 1 0 3 0 0x20, splitWord (enc05 32 0 1 0 3 0 0x20), quiet, by decide +kernel⟩,
   ⟨w05T (enc05 33 0 0 0 3 0 0), 35, enc05 33 0 0 0 3 0 0, splitWord (enc05 33 0 0 0 3 0 0), quiet, by decide +kernel⟩,
   ⟨w05T (enc05 40 0 0 0 0 0 0), 35, enc05 40 0 0 0 0 0 0, splitWord (enc05 40 0 0 0 0 0 0), quiet, by decide +kernel⟩,
   ⟨w05T (enc05 40 0 0 0 0 0 0), 35, enc05 40 0 0 0 0 0 0, splitWord (enc05 40 0 0 0 0 0 0), { quiet with akt := some 31 }, 31,
     by decide +kernel⟩⟩

theorem wit_TileRunsStopsAndResets :
    (∃ (s : State) (i : Initiator) (p : Fin 36) (v : Word) (es : List Ecc), isKeeper i = true ∧ s.admitted i = true ∧ s.tiles[p].run
      = .idle ∧ entryStart s p (bits v 3 0) ≠ 0 ∧ v.getLsbD 4 = false ∧ badWord es = false ∧ correctedWords es = 0) ∧
    (∃ (s : State) (i : Initiator) (p : Fin 36) (v : Word) (es : List Ecc), isKeeper i = true ∧ s.admitted i = true ∧ s.tiles[p].run
      = .idle ∧ entryStart s p (bits v 3 0) ≠ 0 ∧ v.getLsbD 4 = true ∧ s.tiles[p].saved = true ∧ saveGood s p = true ∧ badWord es =
      false ∧ correctedWords es = 0) ∧
    (∃ (s : State) (i : Initiator) (p : Fin 36) (v : Word) (es : List Ecc), isKeeper i = true ∧ s.admitted i = true ∧ (s.tiles[p].run
      ≠ .idle ∨ entryStart s p (bits v 3 0) = 0 ∨ (v.getLsbD 4 = true ∧ s.tiles[p].saved = false))) ∧
    (∃ (s : State) (i : Initiator) (p : Fin 36) (v : Word) (es : List Ecc), isKeeper i = true ∧ s.admitted i = true ∧ s.tiles[p].run
      = .idle ∧ entryStart s p (bits v 3 0) ≠ 0 ∧ v.getLsbD 4 = false ∧ badWord es = true ∧ correctedWords es = 0 ∧ runOn s p = none
      ∧ (s.au.running.filter fun c => decide (c.atile.toNat = tileLogical s p)) = []) ∧
    (∃ (s : State) (i : Initiator) (p : Fin 36), isKeeper i = true ∧ s.admitted i = true ∧ (s.tiles[p].run = .running ∨
      s.tiles[p].run = .halted)) ∧
    (∃ (s : State) (i : Initiator) (p : Fin 36), isKeeper i = true ∧ s.admitted i = true ∧ saveOn s p = true ∧ (s.tiles[p].run =
      .running ∨ s.tiles[p].run = .halted)) ∧
    (∃ (s : State) (p : Fin 36) (es : List Ecc), s.tiles[p].run = .stopping ∧ arrayBusy s.tiles[p] = false ∧ dmaBusy s.tiles[p] =
      false ∧ s.tiles[p].stopPause = false) ∧
    (∃ (s : State) (p : Fin 36) (es : List Ecc), s.tiles[p].run = .stopping ∧ arrayBusy s.tiles[p] = false ∧ dmaBusy s.tiles[p] =
      false ∧ s.tiles[p].stopPause = true ∧ badWord es = false ∧ correctedWords es = 0) ∧
    (∃ (s : State) (i : Initiator) (p : Fin 36), isKeeper i = true ∧ s.admitted i = true ∧ s.tiles[p].run ≠ .off ∧ s.tiles[p].run ≠
      .retired ∧ dmaBusy s.tiles[p] = false) ∧
    (∃ (s : State) (p : Fin 36), s.tiles[p].run = .resetting) ∧
    (∃ (s : State) (i : Initiator) (p : Fin 36), isKeeper i = true ∧ s.admitted i = true ∧ s.tiles[p].run = .running) ∧
    (∃ (s : State) (i : Initiator) (p : Fin 36) (raw : Nat) (w : Word64) (v : IssueEnv), isKeeper i = true ∧ s.admitted i = true ∧
      s.tiles[p].run = .halted ∧ fetchWord s p = some raw ∧ splitWord raw = w ∧ w.op = 0x08 ∧ legal w = true ∧ issueWaits s p w =
      false ∧ v.parity = false ∧ codeFinding v.fetch = .clean) ∧
    (∃ (s : State) (i : Initiator) (p : Fin 36), isKeeper i = true ∧ s.admitted i = true ∧ s.tiles[p].run = .halted) ∧
    (∃ (s : State) (i : Initiator) (p : Fin 36) (v : Word), isKeeper i = true ∧ s.admitted i = true) :=
  ⟨⟨(w05Tm fun t => { t with run := .idle }).store (tileByte 35 120) [0, 1], .k0, 35, 0xABCD000F#32, [], by decide +kernel⟩,
   ⟨w05Saved, .k0, 35, 0x1F#32, [], by decide +kernel⟩,
   ⟨w05Tm id, .k0, 35, 0xABCD000F#32, [], by decide +kernel⟩,
   ⟨(w05Tm fun t => { t with run := .idle }).store (tileByte 35 120) [0, 1], .k0, 35, 0xABCD000F#32, [.twoBits], by decide +kernel⟩,
   ⟨w05Tm id, .k0, 35, by decide +kernel⟩,
   ⟨(w05Tm id).setReg (R.TL_CFG 35) 0x101#32, .k0, 35, by decide +kernel⟩,
   ⟨w05Tm fun t => { t with run := .stopping, entry := 3 }, 35, [], by decide +kernel⟩,
   ⟨w05Tm fun t => { t with run := .stopping, entry := 3, stopPause := true }, 35, [], by decide +kernel⟩,
   ⟨(w05Tm fun t => { t with run := .faulted }).setReg (R.TL_FAULT 35) 8#32, .k0, 35, by decide +kernel⟩,
   ⟨w05Tm fun t => { t with run := .resetting }, 35, by decide +kernel⟩,
   ⟨w05Tm id, .k0, 35, by decide +kernel⟩,
   ⟨w05T (enc05 8 3 1 0 0 0 5) fun t => { t with run := .halted }, .k0, 35, enc05 8 3 1 0 0 0 5, splitWord (enc05 8 3 1 0 0 0 5),
     quiet, by decide +kernel⟩,
   ⟨(w05Tm fun t => { t with run := .halted }).setReg (R.TL_DBG 35) 1#32, .k0, 35, by decide +kernel⟩,
   ⟨w05Tm id, .k0, 35, 0x18001#32, by decide +kernel⟩⟩

theorem wit_TileDmaEndsAndLimits :
    (∃ (s : State) (p : Fin 36) (ch : Fin 4) (es : List Ecc), s.ports.seq = [] ∧ dmaFinding s s.tiles[p].dma[ch].desc es = .clean ∧
      dmaWaits s s.tiles[p].dma[ch].desc = false ∧ s.tiles[p].dma[ch].busy = true ∧ dmaForm s.tiles[p].dma[ch].desc = true ∧ dmaRows
      s.tiles[p].dma[ch].desc = 1 ∧ dmaOut s.tiles[p].dma[ch].desc = false ∧ rowFault s p s.tiles[p].dma[ch].started
      s.tiles[p].dma[ch].desc 0 = none) ∧
    (∃ (s : State) (p : Fin 36) (ch : Fin 4), s.tiles[p].dma[ch].busy = true ∧ dmaForm s.tiles[p].dma[ch].desc = false ∧ dmaLimit s p
      ≤ s.cycle - s.tiles[p].dma[ch].started ∧ s.tiles[p].run = .running ∧ runOn s p = none ∧ (s.au.running.filter fun c => decide
      (c.atile.toNat = tileLogical s p)) = []) ∧
    (∃ (s : State) (p : Fin 36) (ch : Fin 4), s.tiles[p].dma[ch].busy = true ∧ dmaLimit s p ≤ s.cycle - s.tiles[p].dma[ch].started ∧
      s.tiles[p].run = .running) ∧
    (∃ (s : State) (p : Fin 36) (ch : Fin 4), s.tiles[p].dma[ch].busy = true ∧ dmaForm s.tiles[p].dma[ch].desc = false ∧ dmaLimit s p
      ≤ s.cycle - s.tiles[p].dma[ch].started ∧ s.tiles[p].run = .stopping) ∧
    (∃ (s : State) (p : Fin 36) (f : MmaFlight) (rest : List MmaFlight), s.tiles[p].flight = f :: rest ∧ f.passAt + 40 ≤ s.cycle) ∧
    (∃ (s : State) (p : Fin 36), s.tiles[p].run = .running ∧ entryLimit s p s.tiles[p].entry.toNat ≠ 0 ∧ entryLimit s p
      s.tiles[p].entry.toNat ≤ (s.reg (R.TL_CYCLES p)).toNat ∧ runOn s p = none ∧ (s.au.running.filter fun c => decide (c.atile.toNat
      = tileLogical s p)) = []) ∧
    (∃ (s : State) (p : Fin 36) (u : SnRun) (c : Fin 64), s.tiles[p].run = .running ∧ entryLimit s p s.tiles[p].entry.toNat ≠ 0 ∧
      entryLimit s p s.tiles[p].entry.toNat ≤ (s.reg (R.TL_CYCLES p)).toNat ∧ runOn s p = some u ∧ u.check = some c ∧ (s.flag
      R.SN_CTRL 2 = false ∨ u.rerun = true) ∧ (s.au.running.filter fun c => decide (c.atile.toNat = tileLogical s p)) = []) ∧
    (∃ (s : State) (p : Fin 36) (u : SnRun), s.tiles[p].run = .running ∧ entryLimit s p s.tiles[p].entry.toNat ≠ 0 ∧ entryLimit s p
      s.tiles[p].entry.toNat ≤ (s.reg (R.TL_CYCLES p)).toNat ∧ runOn s p = some u ∧ s.flag R.SN_CTRL 2 = true ∧ u.rerun = false ∧
      (s.au.running.filter fun c => decide (c.atile.toNat = tileLogical s p)) = []) ∧
    (∃ (s : State) (p : Fin 36) (w : Word64) (v : IssueEnv), s.tiles[p].run = .running ∧ fetch s p = some w ∧ w.op = 0 ∧ legal w =
      false ∧ issueWaits s p w = false ∧ v.parity = false ∧ codeFinding v.fetch = .clean ∧ runOn s p = none ∧ (s.au.running.filter
      fun c => decide (c.atile.toNat = tileLogical s p)) = []) ∧
    (∃ (s : State) (p : Fin 36) (w : Word64) (v : IssueEnv), s.tiles[p].run = .running ∧ fetch s p = some w ∧ w.op = 0 ∧ v.parity =
      true ∧ runOn s p = none ∧ (s.au.running.filter fun c => decide (c.atile.toNat = tileLogical s p)) = []) ∧
    (∃ (s : State) (p : Fin 36) (w : Word64) (v : IssueEnv), s.tiles[p].run = .running ∧ fetch s p = some w ∧ w.op = 0 ∧ issueWaits s
      p w = true ∧ v.parity = false) :=
  ⟨⟨(w05Tm fun t => { t with dma := t.dma.set 3 ⟨true, w05Dma, 0⟩ }).store 0x100000000 [1, 2, 3], 35, 3, [], by decide +kernel⟩,
   ⟨w05Tm fun t => { t with dma := t.dma.set 3 ⟨true, List.replicate 32 0, 0⟩ }, 35, 3, by decide +kernel⟩,
   ⟨w05Tm fun t => { t with dma := t.dma.set 3 ⟨true, w05Dma, 0⟩ }, 35, 3, by decide +kernel⟩,
   ⟨w05Tm fun t => { t with run := .stopping, dma := t.dma.set 3 ⟨true, List.replicate 32 0, 0⟩ }, 35, 3, by decide +kernel⟩,
   ⟨w05Tm fun t => { t with flight := [⟨true, 0, false, 0, 0, 0, 1, 79959, 79960, 0⟩] }, 35, ⟨true, 0, false, 0, 0, 0, 1, 79959,
     79960, 0⟩, [], by decide +kernel⟩,
   ⟨((w05Tm id).store (tileByte 35 4) [9]).setReg (R.TL_CYCLES 35) 9#32, 35, by decide +kernel⟩,
   ⟨w05Run (((w05Tm id).store (tileByte 35 4) [9]).setReg (R.TL_CYCLES 35) 9#32), 35, w05U, 7, by decide +kernel⟩,
   ⟨(w05Run (((w05Tm id).store (tileByte 35 4) [9]).setReg (R.TL_CYCLES 35) 9#32)).setReg R.SN_CTRL 4#32, 35, w05U,
     by decide +kernel⟩,
   ⟨w05T (enc05 0 0 0 0 0 0 1), 35, splitWord (enc05 0 0 0 0 0 0 1), quiet, by decide +kernel⟩,
   ⟨w05T (enc05 0 0 0 0 0 0 0), 35, splitWord (enc05 0 0 0 0 0 0 0), { quiet with parity := true }, by decide +kernel⟩,
   ⟨w05T (enc05 0 0 0 0 0 0 0) fun t => { t with freeAt := 80001 }, 35, splitWord (enc05 0 0 0 0 0 0 0), quiet, by decide +kernel⟩⟩

theorem wit_SealsReadyQueueAndChallenges :
    (∃ (s : State) (b : Word) (x : Barge) (e : Fin 64), s.barge? b = some x ∧ x.au.entry = some e ∧ x.au.complete = false ∧
      x.au.closed = false ∧ x.au.deadline = none ∧ missed x.domain s.now x.au.sealDl = true) ∧
    (∃ (s : State) (b : Word) (x : Barge) (e : Fin 64) (c : Nat), s.barge? b = some x ∧ x.au.entry = some e ∧ x.au.complete = false ∧
      x.au.closed = false ∧ x.au.deadline = some c ∧ usCycles 1 ≤ s.cycle - c ∧ x.formed = false ∧ x.audit = 0) ∧
    (∃ (s : State) (e : Fin 64) (b : Word) (rest : List (Fin 64 × Word)), s.au.readyQ = (e, b) :: rest) ∧
    (∃ (s : State), s.au.readyQ = []) ∧
    (∃ (s : State) (i : Initiator) (v : Word), isKeeper i = true ∧ s.admitted i = true ∧ s.se.siteSeed = none) ∧
    (∃ (s : State) (i : Initiator) (v : Word) (seed : BitVec 256), isKeeper i = true ∧ s.admitted i = true ∧ s.se.siteSeed = some
      seed) ∧
    (∃ (s : State) (i : Initiator) (d : Drbg), s.admitted i = true ∧ s.au.drbg = some d) ∧
    (∃ (s : State) (i : Initiator) (c : BitVec 128) (x : Barge), isKeeper i = true ∧ s.admitted i = true ∧ s.barge? (chalBarge c) =
      some x ∧ x.formed = false ∧ chalRefused s false c = false) ∧
    (∃ (s : State) (i : Initiator) (c : BitVec 128) (x : Barge), isKeeper i = true ∧ s.admitted i = true ∧ s.barge? (chalBarge c) =
      some x ∧ x.formed = false ∧ chalRefused s false c = false) ∧
    (∃ (s : State) (i : Initiator) (c : BitVec 128) (x : Barge), isKeeper i = true ∧ s.admitted i = true ∧ s.barge? (chalBarge c) =
      some x ∧ x.formed = false ∧ chalRefused s false c = false) ∧
    (∃ (s : State) (i : Initiator) (c : BitVec 128) (x : Barge) (e : Fin 64), isKeeper i = true ∧ s.admitted i = true ∧ s.barge?
      (chalBarge c) = some x ∧ x.formed = false ∧ chalRefused s true c = false ∧ s.se.siteSeed.isSome = true ∧ x.au.entry = some e ∧
      x.audit = 0 ∧ x.au.ended = x.au.issued ∧ x.au.incomplete = false ∧ x.au.drawn ≠ 0) ∧
    (∃ (s : State) (i : Initiator) (c : BitVec 128), isKeeper i = true ∧ s.admitted i = true ∧ chkOk c = false) :=
  ⟨⟨w06Au, 77, w06Ax, 63, by decide +kernel⟩,
   ⟨w06Au fun a => { a with deadline := some 0 }, 77, w06Ax fun a => { a with deadline := some 0 }, 63, 0, by decide +kernel⟩,
   ⟨w06Q w06Au fun a => { a with readyQ := [(63, 77)] }, 63, 77, [], by decide +kernel⟩,
   ⟨w06Au, by decide +kernel⟩,
   ⟨w06Q w06Au fun a => { a with drbg := some ⟨1, 2, 3, [4, 5]⟩ }, .k0, 0x13F#32, by decide +kernel⟩,
   ⟨{ w06Au with se := { w06Au.se with siteSeed := some 7 } }, .k0, 0x13F#32, 7, by decide +kernel⟩,
   ⟨w06Q w06Au fun a => { a with drbg := some ⟨1, 2, 3, [4, 5]⟩ }, .k0, ⟨1, 2, 3, [4, 5]⟩, by decide +kernel⟩,
   ⟨w06Q (w06Au fun a => { w06Cm a with issued := 0, drawn := 0 }) fun a => { a with store := [w06Seal 0] }, .k1, w06Ch, w06Ax fun a
     => { w06Cm a with issued := 0, drawn := 0 }, by decide +kernel⟩,
   ⟨w06Q (w06Au fun a => { w06Cm a with issued := 0, drawn := 0 }) fun a => { a with store := [w06Seal 0] }, .k1, w06Ch, w06Ax fun a
     => { w06Cm a with issued := 0, drawn := 0 }, by decide +kernel⟩,
   ⟨w06Q (w06Au fun a => { w06Cm a with issued := 0, drawn := 0 }) fun a => { a with store := [w06Seal 0] }, .k1, w06Ch, w06Ax fun a
     => { w06Cm a with issued := 0, drawn := 0 }, by decide +kernel⟩,
   ⟨{ w06Au (fun a => { w06Cm a with ended := 1 }) with se := { w06Au.se with siteSeed := some 7 } }, .k1, w06Ch, w06Ax fun a =>
     { w06Cm a with ended := 1 }, 63, by decide +kernel⟩,
   ⟨w06Au, .k1, 0x1#128, by decide +kernel⟩⟩

theorem wit_AuditRunsAndCoverage :
    (∃ (s : State) (bs : List Byte) (c : Challenge) (a : Nat), readHead s = some c ∧ s.au.reading = none ∧ tileReached s c = true ∧
      tilePlace s c bs.length = some a ∧ resealOk s c bs = true ∧ c.method ≠ .input) ∧
    (∃ (s : State) (c : Challenge), readHead s = some c ∧ s.au.reading = none ∧ c.tries < s.fld R.AU_CTRL 3 2 ∧ tileReached s c =
      true) ∧
    (∃ (s : State) (c : Challenge) (r : TileRead), readHead s = some c ∧ s.au.reading = none ∧ c.tries < s.fld R.AU_CTRL 3 2 ∧
      tileReached s c = false) ∧
    (∃ (s : State) (c : Challenge) (x : Barge) (e : Fin 64), s.au.reading = some c ∧ s.barge? c.barge = some x ∧ x.au.entry = some e
      ∧ x.formed = false ∧ x.audit = 0 ∧ s.fld R.AU_CTRL 3 2 ≤ c.tries ∧ tileReached s c = false) ∧
    (∃ (s : State) (b : Word) (q : Half) (c : Challenge) (x : Barge) (e : Fin 64), runningOf s b q = some c ∧ inputsWait s b = false
      ∧ s.se.siteSeed.isSome = true ∧ auditCheck s c = some none ∧ s.barge? b = some x ∧ x.formed = false ∧ x.au.entry = some e ∧
      x.audit = 0 ∧ x.au.closed = true ∧ x.au.ended + 1 = x.au.issued ∧ x.au.incomplete = false ∧ x.au.drawn ≠ 0) ∧
    (∃ (s : State) (b : Word) (q : Half) (k : Nat) (c : Challenge) (x : Barge) (e : Fin 64), runningOf s b q = some c ∧ inputsWait s
      b = false ∧ s.se.siteSeed.isSome = true ∧ auditCheck s c = some (some k) ∧ s.barge? b = some x ∧ x.au.entry = some e ∧ x.formed
      = false ∧ x.audit = 0) ∧
    (∃ (s : State) (b : Word) (q : Half) (c : Challenge) (x : Barge), runningOf s b q = some c ∧ inputsWait s b = false ∧
      s.se.siteSeed = none ∧ chalLayer s c = none ∧ s.barge? b = some x ∧ x.formed = false ∧ x.au.closed = false) ∧
    (∃ (s : State) (b : Word) (q : Half) (c : Challenge) (n : Nat), runningOf s b q = some c ∧ s.flag R.AU_CTRL 1 = true ∧ c.reissued
      = false ∧ otherTile s c.atile.toNat = some n) ∧
    (∃ (s : State) (i : Initiator) (v : Word), isKeeper i = true ∧ s.admitted i = true ∧ s.fld (R.AUn_GOAL (bits v 5 0)) 31 16 = 0) ∧
    (∃ (s : State) (i : Initiator) (e : Fin 64) (v : Word), isKeeper i = true ∧ s.admitted i = true ∧ v.toNat < s.fld (R.AUn_GOAL e)
      31 16) :=
  ⟨⟨w06Im (w06Q (w06Au w06Cm) fun a => { a with queue := [w06C 0], store := [w06Seal (crcNative crc64 5 [1, 2])] }), [1, 2], w06C 0,
     basinBase + 0x1080000, by decide +kernel⟩,
   ⟨w06Im (w06Q (w06Au w06Cm) fun a => { a with queue := [w06C 0], store := [w06Seal 0] }), w06C 0, by decide +kernel⟩,
   ⟨w06Q (w06Au w06Cm) fun a => { a with queue := [w06C 0] }, w06C 0, .bytes [1], by decide +kernel⟩,
   ⟨w06Q (w06Au w06Cm) fun a => { a with reading := some (w06C 1) }, w06C 1, w06Ax w06Cm, 63, by decide +kernel⟩,
   ⟨w06Tl (List.replicate 8 0) (w06Im (w06Q (w06Au fun a => { w06Cm a with closed := true }) fun a =>
     { a with running := [w06C 0] })), 77, 8, w06C 0, w06Ax fun a => { w06Cm a with closed := true }, 63, by decide +kernel⟩,
   ⟨w06Tl [0, 0, 0, 0, 1, 0, 0, 0] (w06Im (w06Q (w06Au w06Cm) fun a => { a with running := [w06C 0] })), 77, 8, 1, w06C 0, w06Ax
     w06Cm, 63, by decide +kernel⟩,
   ⟨w06Q (w06Au w06Cm) fun a => { a with running := [w06C 0] }, 77, 8, w06C 0, w06Ax w06Cm, by decide +kernel⟩,
   ⟨((w06Q (w06Au w06Cm) fun a => { a with running := [w06C 0] }).setReg (R.TL_MAP 9) 0x24#32).setReg R.AU_CTRL 7#32, 77, 8, w06C 0,
     4, by decide +kernel⟩,
   ⟨w06Au.setReg (R.AUn_WIN 63) 2#32, .k1, 0xFFFF003F#32, by decide +kernel⟩,
   ⟨w06Au.setReg (R.AUn_GOAL 63) 0x50000#32, .k1, 63, 4, by decide +kernel⟩⟩

theorem wit_LibrariesModelsPlausibilityAndEnvelopes :
    (∃ (s : State) (i : Initiator) (v : Word), s.mayWrite i R.SN_LIB_VERIFY = true ∧ v.getLsbD 0 ≠ activeBank s) ∧
    (∃ (s : State) (b : Bool) (ms : List Model), s.sn.verifying = some b ∧ sm3Serves s .library = true ∧ holdUncIn s (bankBase s b)
      (libSize s) = none ∧ ms.length < 4096 ∧ ms.all (modelFormed s) = true) ∧
    (∃ (s : State) (b : Bool) (r : LibFinding), s.sn.verifying = some b ∧ sm3Serves s .library = true ∧ holdUncIn s (bankBase s b)
      (libSize s) = none ∧ libCode (libFinding s r) ≠ 2 ∧ libCode (libFinding s r) ≠ 6) ∧
    (∃ (s : State) (b : Bool) (r : LibFinding), s.sn.verifying = some b ∧ sm3Serves s .library = true ∧ libRead s b (libFinding s r)
      = .holdError) ∧
    (∃ (s : State) (i : Initiator) (v : Word) (g : Nat) (k : Nat), isKeeper i = true ∧ s.admitted i = true ∧ s.sn.load = none ∧
      loadPlan s (BitVec.ofNat 12 (bits v 11 0)) (Fin.ofNat 64 (bits v 17 12)) = .inr (g, k) ∧ groupBroken s g = false) ∧
    (∃ (s : State) (i : Initiator) (v : Word) (c : Nat), isKeeper i = true ∧ s.admitted i = true ∧ s.sn.load = none ∧ loadPlan s
      (BitVec.ofNat 12 (bits v 11 0)) (Fin.ofNat 64 (bits v 17 12)) = .inl c ∧ ((slotGroup s (Fin.ofNat 64 (bits v 17 12)).val).map
      (groupBroken s)).getD false = false) ∧
    (∃ (s : State) (r : Fin 64) (m : BitVec 12) (k : BitVec 2) (v : Variant) (l : Nat) (p : Nat), s.sn.load = some (r, m, k) ∧
      s.sn.slots[r].state = .loading ∧ holdUncIn s (slotImage s r).1 (slotImage s r).2 = none ∧ partsMatch s r = true ∧ s.ports.seq =
      [] ∧ slotVariant s s.sn.slots[r] = some v ∧ slotTiles s s.sn.slots[r] = [l] ∧ holder s l = some p) ∧
    (∃ (s : State) (r : Fin 64) (m : BitVec 12) (k : BitVec 2), s.sn.load = some (r, m, k)) ∧
    (∃ (s : State) (r : Fin 64) (m : BitVec 12) (k : BitVec 2), s.sn.load = some (r, m, k) ∧ s.sn.slots[r].state = .loading ∧
      holdUncIn s (slotImage s r).1 (slotImage s r).2 = none ∧ partsMatch s r = false) ∧
    (∃ (s : State) (b : Word) (x : Fin 64) (y : Barge) (ws : List (Half × List Byte)) (u : SnRun) (v : List Byte), s.barge? b = some
      y ∧ checkOpen s y x = true ∧ y.formed = false ∧ (y.checks.any fun c => c.1 = x) = false ∧ y.refLast = true ∧ doneRun s b x =
      some u ∧ preCodes s x y (.windows ws) .read = [] ∧ runView s u = some v ∧ ((checkRules s x).zipIdx.all fun p => ruleCode s x y
      ws v p.2 p.1 == (1, false)) = true) ∧
    (∃ (s : State) (b : Word) (x : Fin 64) (y : Barge) (ws : List (Half × List Byte)) (u : SnRun) (v : List Byte) (k : Nat), s.barge?
      b = some y ∧ checkOpen s y x = true ∧ y.formed = false ∧ (y.checks.any fun c => c.1 = x) = false ∧ y.refLast = true ∧ doneRun s
      b x = some u ∧ preCodes s x y (.windows ws) .read = [] ∧ runView s u = some v ∧ worstRule ((checkRules s x).zipIdx.map fun p =>
      ruleCode s x y ws v p.2 p.1) = (2, k)) ∧
    (∃ (s : State) (b : Word) (x : Fin 64) (y : Barge) (a : AccRead) (u : SnRun) (w : ViewRead) (c : BitVec 4), s.barge? b = some y ∧
      checkOpen s y x = true ∧ y.formed = false ∧ (y.checks.any fun c => c.1 = x) = false ∧ doneRun s b x = some u ∧ minBy (fun c d
      => decide (c < d)) (preCodes s x y a w) = some c) ∧
    (∃ (s : State) (b : Word) (x : Fin 64) (y : Barge) (a : AccRead) (v : ViewRead), s.barge? b = some y ∧ checkOpen s y x = true ∧
      y.formed = false ∧ (y.checks.any fun c => c.1 = x) = false ∧ y.refLast = false ∧ checkUnavailable s x = false ∧ checkLost s y x
      = true ∧ doneRun s b x = none) ∧
    (∃ (s : State) (b : Word) (x : Fin 64) (y : Barge) (a : AccRead) (v : ViewRead), s.barge? b = some y ∧ checkOpen s y x = true ∧
      y.formed = false ∧ (y.checks.any fun c => c.1 = x) = false ∧ checkUnavailable s x = true ∧ doneRun s b x = none ∧ (y.refLast =
      true → a ≠ .unreadable)) ∧
    (∃ (s : State) (b : Word) (y : Barge) (e : Fin 64) (ws : List (Half × List Byte)), s.barge? b = some y ∧ envOfId s (netId y) =
      some e ∧ sentOn s = true ∧ y.lamp = none ∧ y.stage = .delivered ∧ y.refLast = true ∧ y.env = 0 ∧ loggedLate s 4 b = false ∧
      y.formed = false ∧ envJudge s y e ws = (1, 0)) ∧
    (∃ (s : State) (b : Word) (y : Barge) (e : Fin 64) (ws : List (Half × List Byte)) (k : Nat), s.barge? b = some y ∧ envOfId s
      (netId y) = some e ∧ sentOn s = true ∧ y.lamp = none ∧ y.stage = .delivered ∧ y.refLast = true ∧ y.env = 0 ∧ loggedLate s 4 b =
      false ∧ y.formed = false ∧ envJudge s y e ws = (2, k)) :=
  ⟨⟨w07Sn, .k0, 1, by decide +kernel⟩,
   ⟨(w07Vf fun x => { x with verifying := some true }).setReg R.SN_LIB_SIZE 0x100000#32, true, [w07Mod, w07Mod], by decide +kernel⟩,
   ⟨w07Vf fun x => { x with verifying := some true }, true, .valid [w07Mod], by decide +kernel⟩,
   ⟨w07Vf fun x => { x with verifying := some true }, true, .holdError, by decide +kernel⟩,
   ⟨w07Sn, .k0, 5, 0, 0, by decide +kernel⟩,
   ⟨w07Sn, .k0, 0x1006, 3, by decide +kernel⟩,
   ⟨w07Good w07Lo, 0, 5, 0, w07Nul, 0, 35, by decide +kernel⟩,
   ⟨w07Lo, 0, 5, 0, by decide +kernel⟩,
   ⟨{ w07Lo with sn := { w07Lo.sn with manifestA := [] } }, 0, 5, 0, by decide +kernel⟩,
   ⟨w07B (w07V (w07Rl 1)), 77, 63, w07Db, [(0, [9])], w07Run 4 .done, [2], by decide +kernel⟩,
   ⟨w07B (w07V (w07Rl 0)), 77, 63, w07Db, [(0, [9])], w07Run 4 .done, [2], 0, by decide +kernel⟩,
   ⟨w07B (w07V w07Sn 1), 77, 63, w07Db, .unreadable, w07Run 1 .done, .read, 3, by decide +kernel⟩,
   ⟨w07B (w07V w07Sn 4 .lost) { w07Db with refLast := false }, 77, 63, { w07Db with refLast := false }, .unreadable, .read,
     by decide +kernel⟩,
   ⟨w07B (w07Sn fun x => { x with unavail := [5] }), 77, 63, w07Db, .companionError, .read, by decide +kernel⟩,
   ⟨w07B (w07En 0x40000000), 77, w07Db, 63, [(0, [9])], by decide +kernel⟩,
   ⟨w07B (w07En 0x42000000), 77, w07Db, 63, [(0, [9])], 0, by decide +kernel⟩⟩

theorem wit_LampsAndSelfTest :
    (∃ (s : State) (b : Word) (y : Barge) (l : Fin 256), s.barge? b = some y ∧ y.lamp = some l ∧ y.stage = .delivered ∧ late s.now.t
      y.lampDue = true ∧ lampLacks s y = true ∧ y.lampRes = 0 ∧ y.formed = false) ∧
    (∃ (s : State) (i : Initiator) (v : Word) (p : Fin 36), isKeeper i = true ∧ s.admitted i = true ∧ bits v 5 0 = p.val ∧ s.flag
      R.ST_CTRL 0 = true ∧ s.tiles[p].run = .idle ∧ workQueued s p = false ∧ gateOpen s = true ∧ entryStart s p 15 ≠ 0) ∧
    (∃ (s : State) (i : Initiator) (v : Word) (p : Fin 36), isKeeper i = true ∧ s.admitted i = true ∧ bits v 5 0 = p.val ∧
      s.tiles[p].run ≠ .idle) ∧
    (∃ (s : State) (p : Fin 36), tileActive s p = true ∧ s.fld R.ST_CTRL 31 16 < aktAge s p ∧ s.sn.aktLate.contains p = false) :=
  ⟨⟨w07B w07Sn w07Lb, 77, w07Lb, 255, by decide +kernel⟩,
   ⟨w07Idle, .k0, 35, 35, by decide +kernel⟩,
   ⟨w07Sn, .k0, 35, 35, by decide +kernel⟩,
   ⟨{ w07Sn with cycle := 900000000000 }, 35, by decide +kernel⟩⟩

theorem wit_VerdictsRecordsReleaseAndPins :
    (∃ (s : State) (b : Word) (x : Barge) (n : Fin 64) (v : Verdict), s.barge? b = some x ∧ s.wr.ready = true ∧ x.checks = [] ∧
      itsTurn s x = true ∧ x.net = some n ∧ x.formed = false ∧ verdictNow s x = some v ∧ x.pendRseq = none ∧ v.cause ≠ 3 ∧ v.code ≠
      6) ∧
    (∃ (s : State) (b : Word) (x : Barge) (n : Fin 64) (v : Verdict) (q : Word), s.barge? b = some x ∧ s.wr.ready = true ∧ x.checks =
      [] ∧ itsTurn s x = true ∧ x.net = some n ∧ x.formed = false ∧ verdictNow s x = some v ∧ x.pendRseq = some q ∧ v.cause ≠ 3 ∧
      v.code ≠ 1) ∧
    (∃ (s : State) (b : Word) (x : Barge), s.barge? b = some x ∧ s.wr.ready = true ∧ itsTurn s x = true ∧ x.formed = false ∧
      verdictNow s x = none ∧ pendable s x = true ∧ pendingCount s < s.fld R.LC_CTRL 5 1) ∧
    (∃ (s : State) (b : Word) (x : Barge), s.barge? b = some x ∧ s.wr.ready = true ∧ itsTurn s x = true ∧ x.formed = false ∧
      (verdictNow s x).isSome = true) ∧
    (∃ (s : State) (b : Word) (x : Barge) (n : Fin 64) (v : Verdict), s.barge? b = some x ∧ s.wr.ready = true ∧ x.checks = [] ∧
      itsTurn s x = true ∧ x.net = some n ∧ x.formed = false ∧ isFinal s x = false ∧ missed x.domain s.now x.verdict = true ∧
      decideBarge s x = some v ∧ x.pendRseq = none ∧ v.cause = 3 ∧ v.code ≠ 6) ∧
    (∃ (s : State) (b : Word) (x : Barge) (n : Fin 64), s.barge? b = some x ∧ s.wr.ready = true ∧ x.checks = [] ∧ itsTurn s x = true
      ∧ x.net = some n ∧ nextAbandon s = some x ∧ isFinal s x = false ∧ x.safeState = true) ∧
    (∃ (s : State) (r : Rec) (rest : List Rec), s.wr.ready = true ∧ s.lc.formed = r :: rest ∧ r.isFinal = true ∧ r.start = false ∧
      s.flag R.SPI_CFG 0 = true ∧ s.lc.records.length < 1024 ∧ (∀ c : Fin 2, s.flag (R.CANc_CFG c) 0 = false) ∧ (s.hd.filled = true →
      shutHold s (recBase s + 64 * ((s.reg R.HD_REC_HEAD).toNat % logSlots s)) 64 = false)) ∧
    (∃ (s : State) (v : Fin 4), s.lc.valids[v].level = true ∧ s.fld (R.VALv_CFG v) 23 8 ≤ msSince s s.lc.valids[v].released) :=
  ⟨⟨w08Ch (w08Cb), 77, w08Cb, 63, ⟨1, 1, true⟩, by decide +kernel⟩,
   ⟨w08Ch (w08Cb fun x => { x with pendRseq := some 3, final := some (2, 1) }), 77, w08Cb fun x =>
     { x with pendRseq := some 3, final := some (2, 1) }, 63, ⟨2, 1, true⟩, 3, by decide +kernel⟩,
   ⟨w08Ch (w08Cb fun x => { x with netCfg := 0x3020009, refLast := true }), 77, w08Cb fun x =>
     { x with netCfg := 0x3020009, refLast := true }, by decide +kernel⟩,
   ⟨w08Ch w08Cb, 77, w08Cb, by decide +kernel⟩,
   ⟨w08Ch (w08Cb fun x => { x with verdict := ⟨4000, 0⟩, sluice := .none }), 77, w08Cb fun x =>
     { x with verdict := ⟨4000, 0⟩, sluice := .none }, 63, ⟨3, 3, true⟩, by decide +kernel⟩,
   ⟨w08Ch (w08Cb fun x => { x with safeState := true }), 77, w08Cb fun x => { x with safeState := true }, 63, by decide +kernel⟩,
   ⟨w08Fill ((w08Ch w08Cb fun l => { l with formed := [w08Rec] }).setReg R.HD_REC_LOG 1#32), w08Rec, [], by decide +kernel⟩,
   ⟨w08Ch w08Cb fun l => { l with valids := l.valids.set 3 ⟨true, false, none, 0⟩ }, 3, by decide +kernel⟩⟩

theorem wit_SpiMailbox :
    (∃ (s : State) (r : Rec) (rest : List Rec), s.flag R.SPI_CFG 0 = true ∧ s.lc.records = r :: rest) ∧
    (∃ (s : State) (v : Half), s.flag R.SPI_CFG 0 = true ∧ s.lc.records = []) ∧
    (∃ (s : State) (k : Half), s.flag R.SPI_CFG 0 = true ∧ s.lc.recWin.key = some k ∧ s.lc.recWin.ptr < 32) ∧
    (∃ (s : State) (v : Half), s.flag R.SPI_CFG 0 = true ∧ s.lc.recWin.key = some v) ∧
    (∃ (s : State) (v : Half), s.flag R.SPI_CFG 0 = true ∧ s.lc.recWin.key ≠ some v) ∧
    (∃ (s : State) (n : Word × List Byte) (rest : List (Word × List Byte)), s.flag R.SPI_CFG 0 = true ∧ s.lc.notices = n :: rest) ∧
    (∃ (s : State) (k : Half), s.flag R.SPI_CFG 0 = true ∧ s.lc.ntWin.key = some k ∧ s.lc.ntWin.ptr < 16) ∧
    (∃ (s : State) (v : Half), s.flag R.SPI_CFG 0 = true ∧ s.lc.ntWin.key = some v) ∧
    (∃ (s : State), s.flag R.SPI_CFG 0 = true) ∧
    (∃ (s : State) (w : Word), s.flag R.SPI_CFG 0 = true ∧ spiCrc w ≠ w.setWidth 8) ∧
    (∃ (s : State), s.flag R.SPI_CFG 0 = true) :=
  ⟨⟨w08Ch w08Cb fun l => { l with records := [w08Rec] }, w08Rec, [], by decide +kernel⟩,
   ⟨w08Ch w08Cb, 1, by decide +kernel⟩,
   ⟨w08Ch w08Cb fun l => { l with recWin := ⟨List.replicate 63 0 ++ [9], some 3, 31⟩ }, 3, by decide +kernel⟩,
   ⟨w08Ch w08Cb fun l => { l with records := [w08Rec], recWin := ⟨[5], some 12, 3⟩ }, 12, by decide +kernel⟩,
   ⟨w08Ch w08Cb fun l => { l with recWin := ⟨[5], some 12, 3⟩ }, 13, by decide +kernel⟩,
   ⟨w08Ch w08Cb fun l => { l with notices := [(4, [7])] }, (4, [7]), [], by decide +kernel⟩,
   ⟨w08Ch w08Cb fun l => { l with ntWin := ⟨[7, 8], some 4, 0⟩ }, 4, by decide +kernel⟩,
   ⟨w08Ch w08Cb fun l => { l with notices := [(4, [7])], ntWin := ⟨[7, 8], some 4, 0⟩ }, 4, by decide +kernel⟩,
   ⟨{ w08Ch w08Cb with cycle := 30000000 }, by decide +kernel⟩,
   ⟨w08Ch w08Cb, 0x12345678, by decide +kernel⟩,
   ⟨w08Ch w08Cb fun l => { l with frameErrs := 255 }, by decide +kernel⟩⟩

theorem wit_CanControllers :
    (∃ (s : State) (c : Fin 2) (f : CanFrame), s.lc.cans[c].onBus = some f ∧ s.lc.cans[c].busOff = false) ∧
    (∃ (s : State) (c : Fin 2) (f : CanFrame), s.lc.cans[c].onBus = some f ∧ usCycles (s.fld (R.CANc_TX_TO c) 15 0) ≤ s.cycle -
      s.lc.cans[c].started) :=
  ⟨⟨w08Ch w08Cb fun l => { l with cans := l.cans.set 1 { l.cans[1] with onBus := some w08F, queue := [w08F] } }, 1, w08F,
     by decide +kernel⟩,
   ⟨w08Ch w08Cb fun l => { l with cans := l.cans.set 1 { l.cans[1] with onBus := some w08F, queue := [w08F] } }, 1, w08F,
     by decide +kernel⟩⟩

theorem wit_EventsAreCounted :
    (∃ (s : State) (l : Line) (rest : List Line), s.bc.lines = l :: rest ∧ isReservedSource (l.src.toNat) = false ∧ channelExists
      (l.src.toNat) (l.chan.toNat) = true ∧ unitRetired s (l.src.toNat) (l.chan.toNat) = false ∧ isMasked s (l.src.toNat)
      (l.chan.toNat) = false ∧ glintOn s l = none ∧ spareFails s l = false ∧ (countUp s (s.reg (R.POLs_CFG l.src.toNat)) (s.reg
      (R.POLs_W l.src.toNat)) l.src (countChan l.src.toNat l.chan)).count < s.fld (R.POLs_CFG l.src.toNat) 11 4 ∧ (s.hd.filled = true
      → shutHold s (recBase s + 64 * ((s.reg R.HD_REC_HEAD).toNat % logSlots s)) 64 = false)) ∧
    (∃ (s : State) (l : Line) (rest : List Line), s.bc.lines = l :: rest ∧ (isReservedSource l.src.toNat || !channelExists
      l.src.toNat l.chan.toNat || unitRetired s l.src.toNat l.chan.toNat) = true) ∧
    (∃ (s : State) (l : Line) (rest : List Line), s.bc.lines = l :: rest ∧ isReservedSource (l.src.toNat) = false ∧ channelExists
      (l.src.toNat) (l.chan.toNat) = true ∧ unitRetired s (l.src.toNat) (l.chan.toNat) = false ∧ isMasked s l.src.toNat l.chan.toNat
      = true ∧ glintOn s l = none) ∧
    (∃ (s : State) (k : BitVec 7), k ≠ 120#7) ∧
    (∃ (s : State) (i : Initiator) (v : Word), isKeeper i = true ∧ s.admitted i = true ∧ bits v 31 16 = 0xF0CE ∧ inService s = true ∧
      isReservedSource (bits v 6 0) = false ∧ channelExists (bits v 6 0) (bits v 13 8) = true ∧ unitRetired s (bits v 6 0) (bits v 13
      8) = false ∧ isMasked s (bits v 6 0) (bits v 13 8) = false ∧ (s.bc.glints.all fun g => g.src != BitVec.ofNat 7 (bits v 6 0)) =
      true ∧ spareFails s ⟨BitVec.ofNat 7 (bits v 6 0), BitVec.ofNat 6 (bits v 13 8), 0, none, s.cycle⟩ = false ∧ (countUp s (s.reg
      (R.POLs_CFG (bits v 6 0))) (s.reg (R.POLs_W (bits v 6 0))) (BitVec.ofNat 7 (bits v 6 0)) (countChan (bits v 6 0) (BitVec.ofNat
      6 (bits v 13 8)))).count < s.fld (R.POLs_CFG (bits v 6 0)) 11 4 ∧ (s.hd.filled = true → shutHold s (recBase s + 64 * ((s.reg
      R.HD_REC_HEAD).toNat % logSlots s)) 64 = false)) :=
  ⟨⟨w09Bc fun b => { b with lines := [w09L 112, w09L 3] }, w09L 112, [w09L 3], by decide +kernel⟩,
   ⟨w09Bc fun b => { b with lines := [w09L 16], retired := [(18, 0)] }, w09L 16, [], by decide +kernel⟩,
   ⟨w09Bc fun b => { b with lines := [w09L 16], masks := [⟨3, 0, 0x10000, 0, 40000⟩] }, w09L 16, [], by decide +kernel⟩,
   ⟨w09Bc fun b => { b with levels := [121, 67] }, 121, by decide +kernel⟩,
   ⟨w09Svc w09Bc, .k0, 0xF0CE0370#32, by decide +kernel⟩⟩

theorem wit_SafeStateMasksAndGlints :
    (∃ (s : State) (l : Line) (rest : List Line), s.bc.lines = l :: rest ∧ isReservedSource (l.src.toNat) = false ∧ channelExists
      (l.src.toNat) (l.chan.toNat) = true ∧ unitRetired s (l.src.toNat) (l.chan.toNat) = false ∧ isMasked s (l.src.toNat)
      (l.chan.toNat) = false ∧ glintOn s l = none ∧ retKind l.src.toNat = none ∧ l.src ≠ 121#7 ∧ s.fld (R.POLs_CFG l.src.toNat) 2 0 =
      3 ∧ s.fld (R.POLs_CFG l.src.toNat) 11 4 = 1 ∧ s.bc.safeSaved = false ∧ (∀ n : Fin 4, leftApplied s.sio.brakes[n] = false →
      s.sio.brakes[n].hsg = false ∧ s.sio.brakes[n].lsg = false)) ∧
    (∃ (s : State) (c : Nat), s.bc.split = some c ∧ 2 < s.cycle - c ∧ s.bc.safeSaved = false ∧ (∀ n : Fin 4, leftApplied
      s.sio.brakes[n] = false → s.sio.brakes[n].hsg = false ∧ s.sio.brakes[n].lsg = false)) ∧
    (∃ (s : State), s.bc.lineB = false ∧ (∀ n : Fin 4, leftApplied s.sio.brakes[n] = false → s.sio.brakes[n].hsg = false ∧
      s.sio.brakes[n].lsg = false)) ∧
    (∃ (s : State) (i : Initiator) (v : Word), isKeeper i = true ∧ s.admitted i = true ∧ polMask s (bits v 6 0) ≠ 0 ∧ s.fld
      (R.POLs_MINT (bits v 6 0)) 6 0 ≠ 0) ∧
    (∃ (s : State), (s.bc.levels.all fun k => !(s.bc.masks.any fun m => decide (m.until_ ≤ s.cycle) && m.bits.getLsbD k.toNat)) =
      true) ∧
    (∃ (s : State) (k : BitVec 7), s.bc.levels = [k] ∧ isLevelSource k.toNat = true ∧ (s.bc.masks.all fun m => decide (m.until_ ≤
      s.cycle)) = true ∧ (s.bc.masks.any fun m => m.bits.getLsbD k.toNat) = true ∧ (s.bc.glints.all fun g => g.src != k) = true ∧
      (countUp s (s.reg (R.POLs_CFG k.toNat)) (s.reg (R.POLs_W k.toNat)) k 0).count < s.fld (R.POLs_CFG k.toNat) 11 4 ∧ (s.hd.filled
      = true → shutHold s (recBase s + 64 * ((s.reg R.HD_REC_HEAD).toNat % logSlots s)) 64 = false)) ∧
    (∃ (s : State) (c : Nat), s.bc.pwrcut = some c ∧ c ≤ s.cycle) ∧
    (∃ (s : State) (unit : BitVec 6), unit.toNat < 16 ∧ glintDue s 5 unit.toNat false = true) ∧
    (∃ (s : State) (row : Fin 9) (unit : BitVec 6) (sel : Bool), s.wr.ready = true ∧ glintNamed row.val unit.toNat sel = true ∧
      glintDue s row.val unit.toNat sel = true ∧ glintSkipped s row.val unit.toNat (glintTarget s row.val unit.toNat sel) = true) ∧
    (∃ (s : State) (r : PathReadback), s.wr.ready = false ∧ 5 ≤ s.wr.step ∧ lastGlint s 9 = none ∧ r.inputs = BitVec.allOnes 128 ∧
      r.lineA = 0x1F ∧ r.lineB = 0x1F) ∧
    (∃ (s : State) (r : PathReadback), s.wr.ready = false ∧ 5 ≤ s.wr.step ∧ lastGlint s 9 = none ∧ (r.inputs ≠ BitVec.allOnes 128 ∨
      r.lineA ≠ 0x1F ∨ r.lineB ≠ 0x1F)) ∧
    (∃ (s : State) (g : Glint), s.bc.glints.filter (fun x => x.readback && decide (x.windowEnd + x.length ≤ s.cycle)) = [g] ∧
      s.bc.glints.find? (fun x => x.src == g.src && x.chan == g.chan) = some g ∧ (s.bc.lines.all fun l => l.src != g.src || l.chan !=
      g.chan) = true ∧ glintCode g = 0 ∧ s.bc.deferred = []) ∧
    (∃ (s : State) (i : Initiator) (unit : BitVec 6), isKeeper i = true ∧ s.admitted i = true ∧ unit.toNat < 16 ∧ (s.bc.glints.all
      fun g => g.src != 80#7) = true) ∧
    (∃ (s : State) (i : Initiator), isKeeper i = true ∧ s.admitted i = true ∧ glintSkipped s 4 0 (glintTarget s 4 0 false) = false) ∧
    (∃ (s : State) (i : Initiator) (v : Word), isKeeper i = true ∧ s.admitted i = true ∧ glintNamed (bits v 3 0) (bits v 9 4)
      (v.getLsbD 10) = false) ∧
    (∃ (s : State) (i : Initiator) (v : Word) (p : Fin 36), isKeeper i = true ∧ s.admitted i = true ∧ bits v 31 16 = 0xC1EA ∧
      inService s = true ∧ s.flag (R.BC_RETi_INFO (bits v 5 0)) 31 = true ∧ s.flag (R.BC_RETi_INFO (bits v 5 0)) 13 = true ∧ retKind
      (s.fld (R.BC_RETi_INFO (bits v 5 0)) 6 0) = some .tile ∧ s.fld (R.BC_RETi_INFO (bits v 5 0)) 12 7 = p.val) :=
  ⟨⟨w09Bar, w09L 100, [], by decide +kernel⟩,
   ⟨{ w09Bar with bc := { w09Bar.bc with split := some 2, lineB := true } }, 2, by decide +kernel⟩,
   ⟨w09Bar, by decide +kernel⟩,
   ⟨w09Bc, .k1, 0x318#32, by decide +kernel⟩,
   ⟨w09Bc fun b => { b with masks := [⟨3, 0, 1, 0, 30000⟩], levels := [121] }, by decide +kernel⟩,
   ⟨(w09Bc fun b => { b with masks := [⟨3, 0, 0x2000, 0, 30000⟩], levels := [13] }).setReg (R.POLs_CFG 13) 0x40#32, 13,
     by decide +kernel⟩,
   ⟨w09Bc fun b => { b with pwrcut := some 30000 }, 30000, by decide +kernel⟩,
   ⟨{ State.reset with wr := { State.reset.wr with step := 5 } }, 15, by decide +kernel⟩,
   ⟨w09Bc, 6, 41, true, by decide +kernel⟩,
   ⟨{ State.reset with wr := { State.reset.wr with step := 5 } }, ⟨BitVec.allOnes 128, 0x1F, 0x1F⟩, by decide +kernel⟩,
   ⟨{ State.reset with wr := { State.reset.wr with step := 5 } }, ⟨BitVec.allOnes 128, 0x1F, 0x0F⟩, by decide +kernel⟩,
   ⟨w09Bc fun b => { b with glints := [w09G true true false false true] }, w09G true true false false true, by decide +kernel⟩,
   ⟨w09Bc, .k1, 15, by decide +kernel⟩,
   ⟨w09Bc.setReg R.GLINT_STAT 0xFF0003#32, .k1, by decide +kernel⟩,
   ⟨w09Bc, .k1, 9, by decide +kernel⟩,
   ⟨(w09Svc w09Bc).setReg (R.BC_RETi_INFO 63) 0x800031A8#32, .k1, 0xC1EA003F#32, 35, by decide +kernel⟩⟩

theorem wit_WatchdogService :
    (∃ (s : State) (i : Initiator) (w : Fin 4), ownerCode i = dogDomain s w + 1 ∧ s.admitted i = true ∧ dogOn s w = true ∧
      s.wd.dogs[w].armed = none) ∧
    (∃ (s : State) (i : Initiator) (w : Fin 4) (a : Nat), ownerCode i = dogDomain s w + 1 ∧ s.admitted i = true ∧ dogOn s w = true ∧
      s.wd.dogs[w].armed = some a ∧ dogNow s w - a < 10 ∧ s.fld (R.WDTw_OPEN w) 23 0 ≤ dogCount s w ∧ dogCount s w < s.fld
      (R.WDTw_CLOSE w) 23 0) ∧
    (∃ (s : State) (i : Initiator) (w : Fin 4) (a : Nat), ownerCode i = dogDomain s w + 1 ∧ s.admitted i = true ∧ dogOn s w = true ∧
      s.flag (R.WDTw_CFG w) 2 = false ∧ glintGates s w .early = false ∧ s.wd.dogs[w].armed = some a ∧ dogNow s w - a < 10 ∧ dogCount
      s w < s.fld (R.WDTw_OPEN w) 23 0) ∧
    (∃ (s : State) (i : Initiator) (w : Fin 4) (a : Nat), ownerCode i = dogDomain s w + 1 ∧ s.admitted i = true ∧ dogOn s w = true ∧
      glintGates s w .early = true ∧ s.wd.dogs[w].armed = some a ∧ dogNow s w - a < 10 ∧ dogCount s w < s.fld (R.WDTw_OPEN w) 23 0) ∧
    (∃ (s : State) (i : Initiator) (w : Fin 4) (v : Half), ownerCode i = dogDomain s w + 1 ∧ s.admitted i = true ∧ dogOn s w = true ∧
      s.flag (R.WDTw_CFG w) 2 = false ∧ glintGates s w .badKey = false ∧ ((s.wd.dogs[w].armed = none ∧ v ≠ 0x5A5A ∧ ¬(v = 0xA5A5 ∧
      s.wd.dogs[w].lateAt = some s.wd.ticks)) ∨ (s.wd.dogs[w].armed.isSome = true ∧ v ≠ 0xA5A5)) ∧ (s.wd.dogs[w].armed.all fun a =>
      decide (dogNow s w - a < 10)) = true) ∧
    (∃ (s : State) (i : Initiator) (w : Fin 4), ownerCode i = dogDomain s w + 1 ∧ s.admitted i = true ∧ dogOn s w = true ∧
      s.wd.dogs[w].armed = none ∧ s.wd.dogs[w].lateAt = some s.wd.ticks) ∧
    (∃ (s : State) (w : Fin 4), s.flag (R.WDTw_CFG w) 2 = false ∧ glintGates s w .late = false ∧ dogOn s w = true ∧
      s.wd.dogs[w].base.isSome = true ∧ s.wd.dogs[w].frozen = none ∧ s.fld (R.WDTw_CLOSE w) 23 0 ≤ dogCount s w) ∧
    (∃ (s : State) (w : Fin 4) (a : Nat), s.flag (R.WDTw_CFG w) 2 = false ∧ glintGates s w .keyLapse = false ∧ dogOn s w = true ∧
      s.wd.dogs[w].frozen = none ∧ s.wd.dogs[w].armed = some a ∧ 10 ≤ dogNow s w - a) ∧
    (∃ (s : State) (i : Initiator) (w : Fin 4) (a : Nat), ownerCode i = dogDomain s w + 1 ∧ s.admitted i = true ∧ dogOn s w = true ∧
      s.flag (R.WDTw_CFG w) 2 = false ∧ glintGates s w .keyLapse = false ∧ s.wd.dogs[w].armed = some a ∧ 10 ≤ dogNow s w - a) ∧
    (∃ (s : State) (i : Initiator) (w : Fin 4) (v : Half), ownerCode i = dogDomain s w + 1 ∧ s.admitted i = true ∧ dogOn s w = true ∧
      s.flag (R.WDTw_CFG w) 2 = true ∧ s.wd.dogs[w].armed = none ∧ v ≠ 0x5A5A ∧ s.wd.dogs[w].lateAt = none) ∧
    (∃ (s : State) (i : Initiator) (w : Fin 4) (a : Nat), ownerCode i = dogDomain s w + 1 ∧ s.admitted i = true ∧ dogOn s w = true ∧
      s.flag (R.WDTw_CFG w) 2 = true ∧ s.wd.dogs[w].armed = some a ∧ dogNow s w - a < 10 ∧ dogCount s w < s.fld (R.WDTw_OPEN w) 23 0) ∧
    (∃ (s : State) (w : Fin 4) (a : Nat), s.flag (R.WDTw_CFG w) 2 = true ∧ dogOn s w = true ∧ s.wd.dogs[w].frozen = none ∧
      s.wd.dogs[w].armed = some a ∧ 10 ≤ dogNow s w - a) ∧
    (∃ (s : State) (i : Initiator) (w : Fin 4), ownerCode i ≠ dogDomain s w + 1 ∧ isKeeper i = true ∧ s.scrapped = false) :=
  ⟨⟨w10Dog, .k0, 3, by decide +kernel⟩,
   ⟨w10Dog fun d => { d with armed := some 49 }, .k0, 3, 49, by decide +kernel⟩,
   ⟨w10Dog fun d => { d with armed := some 49, base := some 49 }, .k0, 3, 49, by decide +kernel⟩,
   ⟨{ (w10Dog fun d => { d with armed := some 49, base := some 49 }) with bc := { State.reset.bc with glints := [⟨55, false, 91, 0, 2, 91, 0, 0, 0, 0, 40000, 1024, false, false, false, false, false⟩] } },
     .k0, 3, 49, by decide +kernel⟩,
   ⟨w10Dog, .k0, 3, 0xA5A5, by decide +kernel⟩,
   ⟨w10Dog fun d => { d with lateAt := some 50 }, .k0, 3, by decide +kernel⟩,
   ⟨w10Tk 100 w10Dog, 3, by decide +kernel⟩,
   ⟨w10Dog fun d => { d with armed := some 40 }, 3, 40, by decide +kernel⟩,
   ⟨w10Dog fun d => { d with armed := some 40 }, .k0, 3, 40, by decide +kernel⟩,
   ⟨w10Dog.setReg (R.WDTw_CFG 3) 7#32, .k0, 3, 9, by decide +kernel⟩,
   ⟨(w10Dog fun d => { d with armed := some 49, base := some 49 }).setReg (R.WDTw_CFG 3) 7#32, .k0, 3, 49, by decide +kernel⟩,
   ⟨(w10Dog fun d => { d with armed := some 40 }).setReg (R.WDTw_CFG 3) 7#32, 3, 40, by decide +kernel⟩,
   ⟨w10Dog, .k1, 3, by decide +kernel⟩⟩

theorem wit_WatchdogResetAndTasks :
    (∃ (s : State) (w : Fin 4), dogOn s w = true ∧ s.wd.dogs[w].base.isSome = true ∧ s.wd.dogs[w].frozen = none ∧ s.fld (R.WDTw_CLOSE
      w) 23 0 ≤ dogCount s w ∧ s.flag (R.WDTw_CFG w) 2 = true ∧ dogDomain s w = 0 ∧ glintGates s w .late = false ∧ domainHeld s w =
      false ∧ causedNow s = false ∧ s.kc.pairs[0] ≠ .lost) ∧
    (∃ (s : State) (e : Nat), s.wd.wdo = some e ∧ e ≤ s.wd.ticks) ∧
    (∃ (s : State) (l : Bool) (c : Nat), l ≠ s.wd.wdo.isNone ∧ s.wd.wdoBad = some (c, false) ∧ 8 ≤ s.cycle - c) ∧
    (∃ (s : State) (l : Bool), l ≠ s.wd.wdo.isNone ∧ s.wd.wdoBad = none) ∧
    (∃ (s : State) (l : Bool), l = s.wd.wdo.isNone) ∧
    (∃ (s : State) (i : Initiator) (v : Word), isKeeper i = true ∧ s.admitted i = true ∧ inService s = true ∧ bits v 31 16 = 0x3C3C) ∧
    (∃ (s : State) (i : Initiator) (v : Word) (e : Fin 64), isKeeper i = true ∧ s.admitted i = true ∧ runsTasks s i = true ∧ bits v 5
      0 = e.val ∧ s.flag (R.TSe_CFG e) 0 = true ∧ s.flag (R.TSe_CFG e) 1 = false ∧ s.wd.entities[e].frozen = none ∧ ((endsAt s e).all
      fun c => decide (s.cycle ≤ c)) = true ∧ s.fld (R.TSe_CFG e) 30 27 = 0 ∧ s.wd.entities[e].count + 1 ≤ s.fld (R.TSe_CFG e) 26 19) ∧
    (∃ (s : State) (i : Initiator) (v : Word) (e : Fin 64), isKeeper i = true ∧ s.admitted i = true ∧ runsTasks s i = true ∧ bits v 5
      0 = e.val ∧ s.flag (R.TSe_CFG e) 0 = true ∧ s.flag (R.TSe_CFG e) 1 = false ∧ s.wd.entities[e].frozen = none ∧ ((endsAt s e).all
      fun c => decide (s.cycle ≤ c)) = true ∧ s.fld (R.TSe_CFG e) 30 27 = 0 ∧ s.fld (R.TSe_CFG e) 26 19 < s.wd.entities[e].count + 1
      ∧ s.wd.entities[e].overRaised = false) ∧
    (∃ (s : State) (i : Initiator) (v : Word) (e : Fin 64) (c : Nat), isKeeper i = true ∧ s.admitted i = true ∧ runsTasks s i = true
      ∧ bits v 5 0 = e.val ∧ judged s e = true ∧ s.flag (R.TSe_CFG e) 1 = false ∧ endsAt s e = some c ∧ c < s.cycle ∧ s.fld
      (R.TSe_CFG e) 18 11 ≤ s.wd.entities[e].count ∧ s.flag (R.TSe_CFG e) 31 = false ∧ s.fld (R.TSe_CFG e) 30 27 = 0 ∧ 1 ≤ s.fld
      (R.TSe_CFG e) 26 19) ∧
    (∃ (s : State) (e : Fin 64) (c : Nat), judged s e = true ∧ endsAt s e = some c ∧ c < s.cycle ∧ landsBy s e c = false ∧
      s.wd.entities[e].first = false ∧ s.fld (R.TSe_CFG e) 18 11 ≤ s.wd.entities[e].count ∧ s.flag (R.TSe_CFG e) 31 = false) ∧
    (∃ (s : State) (i : Initiator) (v : Word), isKeeper i = true ∧ s.admitted i = true ∧ runsTasks s i = false) ∧
    (∃ (s : State) (e : Fin 64) (c : Nat), judged s e = true ∧ endsAt s e = some c ∧ c < s.cycle ∧ landsBy s e c = false ∧
      s.wd.entities[e].first = false ∧ s.wd.entities[e].count < s.fld (R.TSe_CFG e) 18 11 ∧ s.flag (R.TSe_CFG e) 31 = false) ∧
    (∃ (s : State) (k : Fin 2) (d : Domain), d = (if k = 0 then .k0 else .k1) ∧ s.kc.pairs[k] ≠ .standby) ∧
    (∃ (s : State) (k : Fin 2) (d : Domain), d = (if k = 0 then .k0 else .k1) ∧ s.kc.pairs[k] = .standby) :=
  ⟨⟨((w10Tk 100 w10Dog).setReg (R.WDTw_CFG 3) 5#32).store 0x10000000 [1, 2], 3, by decide +kernel⟩,
   ⟨{ w10Dog with wd := { w10Dog.wd with wdo := some 5 } }, 5, by decide +kernel⟩,
   ⟨{ w10Dog with wd := { w10Dog.wd with wdoBad := some (37492, false) } }, false, 37492, by decide +kernel⟩,
   ⟨w10Dog, false, by decide +kernel⟩,
   ⟨{ w10Dog with wd := { w10Dog.wd with wdoBad := some (37491, false) } }, true, by decide +kernel⟩,
   ⟨{ w10Dog.setReg R.WD_RST_CNT 7#32 with se := { w10Dog.se with life := .service } }, .k0, 0x3C3C0000#32, by decide +kernel⟩,
   ⟨w10En 0x00180001#32, .k0, 63, 63, by decide +kernel⟩,
   ⟨w10En 0x00100001#32, .k0, 63, 63, by decide +kernel⟩,
   ⟨w10En 0x00101001#32 fun x => { x with began := 500 }, .k1, 63, 63, 500, by decide +kernel⟩,
   ⟨w10En 0x00101001#32 fun x => { x with began := 500 }, 63, 500, by decide +kernel⟩,
   ⟨w10K (w10En 0x00180001#32) 0 .standby, .k0, 63, by decide +kernel⟩,
   ⟨w10En 0x00101801#32 fun x => { x with began := 500 }, 63, 500, by decide +kernel⟩,
   ⟨w10Dog fun d => { d with base := none }, 0, .k0, by decide +kernel⟩,
   ⟨let w := w10K w10Dog 1 .standby; { w with hd := { w.hd with keeper := [1, 2, 3] } }, 1, .k1, by decide +kernel⟩⟩

theorem wit_BrakeChannelsAndTestPulses :
    (∃ (s : State) (i : Initiator) (n : Fin 4), isKeeper i = true ∧ s.admitted i = true ∧ s.sio.brakes[n].state = .applied ∧
      mayRelease s n = true) ∧
    (∃ (s : State) (i : Initiator) (n : Fin 4), isKeeper i = true ∧ s.admitted i = true ∧ leftApplied s.sio.brakes[n] = false ∧
      mayRelease s n = false) ∧
    (∃ (s : State) (i : Initiator) (n : Fin 4), isKeeper i = true ∧ s.admitted i = true ∧ leftApplied s.sio.brakes[n] = true) ∧
    (∃ (s : State) (n : Fin 4) (r : BrakeReading), s.sio.brakes[n].state = .releasing1 ∧ s.cycle - s.sio.brakes[n].since ≤ settleTime
      s n ∧ r.hi = .low ∧ r.lo = .low) ∧
    (∃ (s : State) (n : Fin 4) (r : BrakeReading), s.sio.brakes[n].state = .releasing1 ∧ settleTime s n < s.cycle -
      s.sio.brakes[n].since ∧ isLocked s n = false ∧ s.flag (R.BRKn_CFG n) 0 = true) ∧
    (∃ (s : State) (n : Fin 4) (r : BrakeReading) (c : Nat), s.sio.brakes[n].state = .releasing2 ∧ (s.cycle - s.sio.brakes[n].since ≤
      settleTime s n ∨ firstRight s.sio.brakes[n] c ≤ settleTime s n) ∧ s.cycle - s.sio.brakes[n].since ≤ decay s n ∧ r.hi = .high ∧
      r.lo = .low ∧ currentOn s n r = true) ∧
    (∃ (s : State) (n : Fin 4) (r : BrakeReading) (c : Nat), s.sio.brakes[n].state = .releasing2 ∧ settleTime s n < s.cycle -
      s.sio.brakes[n].since ∧ settleTime s n < firstRight s.sio.brakes[n] c ∧ isLocked s n = false ∧ s.flag (R.BRKn_CFG n) 0 = true) ∧
    (∃ (s : State) (n : Fin 4) (r : BrakeReading) (c : Nat), s.sio.brakes[n].state = .releasing2 ∧ (s.cycle - s.sio.brakes[n].since ≤
      settleTime s n ∨ firstRight s.sio.brakes[n] c ≤ settleTime s n) ∧ decay s n < s.cycle - s.sio.brakes[n].since ∧ isLocked s n =
      false ∧ s.flag (R.BRKn_CFG n) 0 = true) ∧
    (∃ (s : State) (n : Fin 4) (r : BrakeReading), switchFault (readBrake s n r) n = true ∧ isLocked s n = false ∧ s.flag (R.BRKn_CFG
      n) 0 = true) ∧
    (∃ (s : State) (n : Fin 4) (r : BrakeReading), switchFault (readBrake s n r) n = false ∧ currentFault (readBrake s n r) n = true
      ∧ isLocked s n = false ∧ s.flag (R.BRKn_CFG n) 0 = true) ∧
    (∃ (s : State) (mv : Half), (mv.toNat < s.fld R.BRK_VS_CFG 15 0 ∨ s.fld R.BRK_VS_CFG 31 16 < mv.toNat) ∧ (s.bc.levels.contains
      102#7) = false) ∧
    (∃ (s : State) (n : Fin 4), s.sio.brakes[n].state = .released ∧ pulsePeriod s n ≤ tpCount s s.sio.brakes[n] ∧ decay s n ≤ s.cycle
      - s.sio.brakes[n].tpFrom ∧ s.sio.brakes.all (fun x => x.state != .test) = true) ∧
    (∃ (s : State) (n : Fin 4) (r : BrakeReading) (c : Nat), s.sio.brakes[n].judge = some c ∧ settleTime s n ≤ s.cycle - c ∧ bothOff
      r = true) ∧
    (∃ (s : State) (n : Fin 4) (r : BrakeReading) (c : Nat), s.sio.brakes[n].judge = some c ∧ settleTime s n ≤ s.cycle - c ∧ bothOff
      r = false ∧ isLocked s n = false ∧ s.flag (R.BRKn_CFG n) 0 = true) ∧
    (∃ (s : State) (n : Fin 4), s.sio.brakes[n].state = .test ∧ s.sio.brakes[n].judge = none ∧ pulseWidth s n ≤ s.cycle -
      s.sio.brakes[n].since) ∧
    (∃ (s : State) (n : Fin 4) (r : BrakeReading) (c : Nat) (w : Brake), s.sio.brakes[n].offFrom = some c ∧ (readBrake s n
      r).sio.brakes[n] = w ∧ w.nodes.ok = true ∧ w.nodes.from_ ≤ c + settleTime s n ∧ w.current.ok = true ∧ w.current.from_ ≤ c +
      decay s n) :=
  ⟨⟨w11Bk .applied, .k0, 3, by decide +kernel⟩,
   ⟨w11Lk, .k0, 3, by decide +kernel⟩,
   ⟨w11Bk .released fun b => { b with hsg := true, lsg := true }, .k0, 3, by decide +kernel⟩,
   ⟨w11Bk .releasing1 fun b => { b with lsg := true, since := 3000000000 }, 3, ⟨.low, .low, 9⟩, by decide +kernel⟩,
   ⟨w11Bk .releasing1 fun b => { b with lsg := true }, 3, ⟨.low, .low, 9⟩, by decide +kernel⟩,
   ⟨w11Bk .releasing2 fun b => { b with lsg := true, hsg := true, since := 3000000000 }, 3, ⟨.high, .low, 500⟩, 7, by decide +kernel⟩,
   ⟨w11Bk .releasing2 fun b => { b with lsg := true, hsg := true }, 3, ⟨.high, .low, 500⟩, 3000000, by decide +kernel⟩,
   ⟨w11Bk .releasing2 fun b => { b with lsg := true, hsg := true, nodes := ⟨true, 0⟩ }, 3, ⟨.high, .low, 500⟩, 7, by decide +kernel⟩,
   ⟨w11Bk .released fun b => { b with lsg := true, hsg := true, reading := ⟨.high, .high, 500⟩, nodes := ⟨false, 0⟩ }, 3, ⟨.high,
     .high, 500⟩, by decide +kernel⟩,
   ⟨w11Bk .released fun b =>
     { b with lsg := true, hsg := true, reading := ⟨.high, .low, 5⟩, nodes := ⟨true, 0⟩, current := ⟨false, 0⟩ }, 3, ⟨.high, .low,
     5⟩, by decide +kernel⟩,
   ⟨(w11Bk .released fun b => { b with lsg := true, hsg := true }).setReg R.BRK_VS_CFG 0xFF00FF#32, 7, by decide +kernel⟩,
   ⟨w11Bk .released fun b => { b with lsg := true, hsg := true }, 3, by decide +kernel⟩,
   ⟨w11Bk .test fun b => { b with judge := some 0 }, 3, ⟨.low, .mid, 0⟩, 0, by decide +kernel⟩,
   ⟨w11Bk .test fun b => { b with judge := some 0 }, 3, ⟨.high, .high, 0⟩, 0, by decide +kernel⟩,
   ⟨w11Bk .test, 3, by decide +kernel⟩,
   ⟨w11Bk .applied fun b => { b with offFrom := some 3000000000 }, 3, ⟨.low, .mid, 0⟩, 3000000000, (readBrake (w11Bk .applied fun b
     => { b with offFrom := some 3000000000 }) 3 ⟨.low, .mid, 0⟩).sio.brakes[(3 : Fin 4)], by decide +kernel⟩⟩

theorem wit_LoAckSafeInputsAndSealLoop :
    (∃ (s : State) (c : Nat), s.sio.pressAt = some c ∧ msCycles 200 ≤ s.cycle - c ∧ s.cycle - c ≤ msCycles 3000 ∧ s.sio.pressValid =
      true) ∧
    (∃ (s : State) (c : Nat), s.sio.pressAt = some c ∧ (s.cycle - c < msCycles 200 ∨ msCycles 3000 < s.cycle - c)) ∧
    (∃ (s : State) (n : Fin 8) (a : Bool) (b : Bool), s.flag (R.SINi_CFG n) 0 = true ∧ discOver s n = false) ∧
    (∃ (s : State) (n : Fin 8), s.sio.sins[n].state = .discrepant ∧ msCycles (s.fld (R.SINi_CFG n) 24 16) ≤ s.cycle -
      s.sio.sins[n].since) ∧
    (∃ (s : State) (n : Fin 8), s.flag (R.SINi_CFG n) 0 = true ∧ s.flag (R.SINi_CFG n) 2 = true ∧ s.flag R.SIO_CTRL 1 = true ∧
      s.sio.sins[n].a = true ∧ s.sio.sins[n].b = true ∧ pulseDue s false = true ∧ s.sio.sins[n].badA = 1 ∧ s.sio.sins[n].state ≠
      .fault ∧ (∀ k : Fin 8, k ≠ n → s.flag (R.SINi_CFG k) 0 = false)) ∧
    (∃ (s : State) (r : Bool) (g : Bool), s.wr.step ≠ 0 ∧ since? s s.sio.loopAt (usCycles 10) = true ∧ s.wr.ready = true ∧ (r ==
      Config.sealLoopBit s.sio.loopPos) = g) ∧
    (∃ (s : State) (r : Bool), 5 ≤ s.wr.step ∧ since? s s.sio.loopAt (usCycles 10) = true ∧ s.wr.ready = false ∧ r ≠
      Config.sealLoopBit s.sio.loopPos ∧ s.sio.loopBad = 2) :=
  ⟨⟨{ w11Lk with sio := { w11Lk.sio with pressAt := some 2500000000, pressValid := true } }, 2500000000, by decide +kernel⟩,
   ⟨{ w11Lk with sio := { w11Lk.sio with pressAt := some 3000000000, pressValid := true } }, 3000000000, by decide +kernel⟩,
   ⟨w11Si .permit, 7, true, false, by decide +kernel⟩,
   ⟨w11Si .discrepant, 7, by decide +kernel⟩,
   ⟨w11Si .permit fun x => { x with a := true, b := true, badA := 1 }, 7, by decide +kernel⟩,
   ⟨{ w11Si .permit with sio := { (w11Si .permit).sio with loopBad := 2 }, wr := { (w11Si .permit).wr with step := 6 } },
     Config.sealLoopBit 0, true, ⟨by decide +kernel, by decide +kernel, by decide +kernel, beq_self_eq_true _⟩⟩,
   ⟨{ w11Si .permit with sio := { (w11Si .permit).sio with loopBad := 2 }, wr := { (w11Si .permit).wr with step := 6, ready := false } },
     !Config.sealLoopBit 0, ⟨by decide +kernel, by decide +kernel, by decide +kernel, flipped_ne _, by decide +kernel⟩⟩⟩

theorem wit_TallyUnits :
    (∃ (s : State) (i : Initiator) (u : Fin 16) (v : Word), s.mayWrite i (R.TLYu_CFG u) = true ∧ ownsUnit s i u = true ∧ cfgAccepted
      v = true) ∧
    (∃ (s : State) (i : Initiator) (u : Fin 16) (v : Word), s.mayWrite i (R.TLYu_CFG u) = true ∧ ownsUnit s i u = true) ∧
    (∃ (s : State) (i : Initiator) (u : Fin 16) (v : Byte), s.mayWrite i (R.TLYu_CFG u) = true ∧ ownsUnit s i u = true ∧
      s.ty.units[u].isOpen = true) ∧
    (∃ (s : State) (i : Initiator) (u : Fin 16) (v : Half), s.mayWrite i (R.TLYu_CFG u) = true ∧ ownsUnit s i u = true ∧
      s.ty.units[u].isOpen = true) ∧
    (∃ (s : State) (i : Initiator) (u : Fin 16) (v : Word), s.mayWrite i (R.TLYu_CFG u) = true ∧ ownsUnit s i u = true ∧
      s.ty.units[u].isOpen = true) ∧
    (∃ (s : State) (i : Initiator) (u : Fin 16), s.admitted i = true ∧ (isKeeper i || ownsUnit s i u) = true ∧ s.ty.units[u].faulty =
      false ∧ s.ty.units[u].isOpen = true) ∧
    (∃ (s : State) (i : Initiator) (u : Fin 16), s.admitted i = true ∧ (isKeeper i || ownsUnit s i u) = true ∧ unitMode s u = 2) ∧
    (∃ (s : State) (i : Initiator) (u : Fin 16) (v : Word), s.mayWrite i (R.TLYu_CFG u) = true ∧ ownsUnit s i u = true ∧ unitMode s u
      = 2) ∧
    (∃ (s : State) (g : Glint), tallyWindow s = some g) ∧
    (∃ (s : State) (d : Bool), tallyWindow s = none) ∧
    (∃ (s : State) (i : Initiator) (u : Fin 16) (v : Word), s.mayWrite i (R.TLYu_CFG u) = true ∧ ownsUnit s i u = false ∧ isKeeper i
      = true) :=
  ⟨⟨w11Ty, .k1, 15, 0x20#32, by decide +kernel⟩,
   ⟨w11Ty, .k1, 15, 77#32, by decide +kernel⟩,
   ⟨w11Ty, .k1, 15, 0x31, by decide +kernel⟩,
   ⟨w11Ty, .k1, 15, 0x3231, by decide +kernel⟩,
   ⟨w11Ty, .k1, 15, 0x34333231, by decide +kernel⟩,
   ⟨w11Ty, .k0, 15, by decide +kernel⟩,
   ⟨w11Co none, .k0, 15, by decide +kernel⟩,
   ⟨w11Co (some 15), .k1, 15, 15#32, by decide +kernel⟩,
   ⟨{ w11Ty with bc := { w11Ty.bc with glints := [⟨5, false, 80, 0, 0x1F, 80, 0, 0, 0, 0, 100, 32, false, false, false, false, false⟩] } },
     ⟨5, false, 80, 0, 0x1F, 80, 0, 0, 0, 0, 100, 32, false, false, false, false, false⟩, by decide +kernel⟩,
   ⟨w11Ty, true, by decide +kernel⟩,
   ⟨w11Ty, .k0, 15, 7#32, by decide +kernel⟩⟩

theorem wit_VaultWipesAndLifeCycle :
    (∃ (s : State) (b : BitVec 8) (c : Nat), s.se.wiping = some c ∧ 12288 ≤ s.cycle - c) ∧
    (∃ (s : State) (c : Nat), s.se.wiping = some c ∧ s.se.wipeCause ≠ 0 ∧ usCycles 50 ≤ s.cycle - c) ∧
    (∃ (s : State) (i : Initiator) (v : Word), isKeeper i = true ∧ s.admitted i = true ∧ lcCode s v ≠ 1) ∧
    (∃ (s : State) (i : Initiator) (v : Word), isKeeper i = true ∧ s.admitted i = true ∧ committing s = true) ∧
    (∃ (s : State) (i : Initiator) (v : Word), isKeeper i = true ∧ s.admitted i = true ∧ lcCode s v = 1) ∧
    (∃ (s : State) (i : Initiator) (v : Word), isKeeper i = true ∧ s.admitted i = true ∧ committing s = false ∧ bits v 31 16 = 0x1C5E
      ∧ s.se.life = .service ∧ bits v 2 0 = 2) ∧
    (∃ (s : State) (h : BitVec 256), s.se.life = .blank ∧ s.wr.step = 2) ∧
    (∃ (s : State) (h : BitVec 256), s.se.life ≠ .blank ∨ s.wr.step ≠ 2) :=
  ⟨⟨(w12Se fun x => { x with wiping := some 0 }).store 0x24000010 [5], 0x80, 0, by decide +kernel⟩,
   ⟨w12Se fun x => { x with wiping := some 0, wipeCause := 1 }, 0, by decide +kernel⟩,
   ⟨w12Se fun x => { x with life := .field }, .k0, 0x1C5E0003#32, by decide +kernel⟩,
   ⟨w12Enc .erase, .k0, 0x1C5E0003#32, by decide +kernel⟩,
   ⟨(w12Se fun x => { x with life := .service, svc := true, deviceKey := some 3, wrapped := some 3 }).store 0x24000010 [5], .k1,
     0x1C5E0002#32, by decide +kernel⟩,
   ⟨(w12Se fun x => { x with life := .service, svc := true, deviceKey := some 3, wrapped := some 3 }).store 0x24000010 [5], .k1,
     0x1C5E0002#32, by decide +kernel⟩,
   ⟨({ (w12Se fun x => { x with life := .blank }) with wr := { State.reset.wr with step := 2 } }).store 0x24000010 [5], 7,
     by decide +kernel⟩,
   ⟨w12Se id, 7, by decide +kernel⟩⟩

theorem wit_GoldenRegionsAndAttestation :
    (∃ (s : State) (i : Initiator) (v : Word), s.mayWrite i R.SE_GOLD_REQ = true) ∧
    (∃ (s : State) (ok : Bool) (k : Fin 64) (r : List (Fin 64)), s.se.golds = k :: r ∧ sm3Serves s .golden = true ∧ goldUnread s k ok
      = none ∧ goldMatches s k = false) ∧
    (∃ (s : State) (ok : Bool) (k : Fin 64) (r : List (Fin 64)), s.se.golds = k :: r ∧ sm3Serves s .golden = true ∧ goldUnread s k ok
      = none ∧ goldMatches s k = true) ∧
    (∃ (s : State) (ok : Bool) (k : Fin 64) (r : List (Fin 64)) (g : Golden), s.se.golds = k :: r ∧ sm3Serves s .golden = true ∧
      goldUnread s k ok = some g) ∧
    (∃ (s : State) (i : Initiator) (d : BitVec 256), s.mayWrite i R.SE_ATT_CMD = true ∧ s.se.attReq = none ∧ s.se.deviceKey = some d) ∧
    (∃ (s : State) (i : Initiator), s.mayWrite i R.SE_ATT_CMD = true ∧ s.se.deviceKey = none) ∧
    (∃ (s : State) (b : List Byte) (d : BitVec 256), s.se.attReq = some b ∧ s.se.deviceKey = some d ∧ sm3Serves s .attest = true) ∧
    (∃ (s : State), sm3Serves s .attest = false ∨ s.se.attReq = none) ∧
    (∃ (s : State) (ok : Bool), sm3Serves s .golden = false ∨ s.se.golds = []) :=
  ⟨⟨w12Se id, .k0, 63, by decide +kernel⟩,
   ⟨w12Se fun x => { x with golds := [63], sm3 := [.golden, .attest] }, true, 63, [], by decide +kernel⟩,
   ⟨w12Se fun x => { x with golds := [63], sm3 := [.golden], useB := some false, slotA := { x.slotA with data := some w12Gold } },
     true, 63, [], by decide +kernel⟩,
   ⟨{ (w12Se fun x => { x with golds := [63], sm3 := [.golden], useB := some false, slotA := { x.slotA with data := some w12Gold } }) with hd := { State.reset.hd with unc := [0xFFFFFFFF0] } },
     false, 63, [], ⟨63, 0x1000000000, 0, BitVec.ofNat 256 (sm3Nat [])⟩, by decide +kernel⟩,
   ⟨w12Se fun x => { x with deviceKey := some 9 }, .k0, 9, by decide +kernel⟩,
   ⟨w12Se id, .k0, by decide +kernel⟩,
   ⟨w12Se fun x => { x with deviceKey := some 9, attReq := some [1], sm3 := [.attest, .golden] }, [1], 9, by decide +kernel⟩,
   ⟨w12Se fun x => { x with attReq := some [1], sm3 := [.golden, .attest] }, by decide +kernel⟩,
   ⟨w12Se fun x => { x with golds := [4], sm3 := [.attest, .golden] }, true, by decide +kernel⟩⟩

theorem wit_ImageCommits :
    (∃ (s : State) (i : Initiator) (c : Contents), s.mayWrite i R.SE_COMMIT_CMD = true ∧ committing s = false ∧ (s.flag R.SE_CTRL 0
      || s.se.defaults) = true) ∧
    (∃ (s : State) (i : Initiator) (c : Contents), s.mayWrite i R.SE_COMMIT_CMD = true ∧ committing s = false ∧ s.flag R.SE_CTRL 0 =
      false ∧ s.se.defaults = false) ∧
    (∃ (s : State) (i : Initiator), s.mayWrite i R.SE_COMMIT_CMD = true ∧ committing s = true) ∧
    (∃ (s : State) (r : PhaseResult), committing s = true ∧ s.se.commitAbort = true) ∧
    (∃ (s : State), s.se.commit = .check ∧ s.se.commitAbort = false ∧ sm3Serves s .commit = true) ∧
    (∃ (s : State), s.se.commit = .intent ∧ s.se.commitAbort = false) ∧
    (∃ (s : State), s.se.commit = .erase ∧ s.se.commitAbort = false) ∧
    (∃ (s : State), s.se.commit = .program ∧ s.se.commitAbort = false) ∧
    (∃ (s : State), s.se.commit = .verify ∧ s.se.commitAbort = false ∧ sm3Serves s .commit = true ∧ readBackOk s = true) ∧
    (∃ (s : State), s.se.commit = .verify ∧ s.se.commitAbort = false ∧ sm3Serves s .commit = true ∧ readBackOk s = false) ∧
    (∃ (s : State), s.se.commit = .record ∧ s.se.commitAbort = false) ∧
    (∃ (s : State), committing s = true ∧ s.se.commitAbort = false ∧ s.se.commit ≠ .check ∧ phaseWaits s = false) ∧
    (∃ (s : State), committing s = true ∧ s.se.commitAbort = false ∧ s.se.commit ≠ .check ∧ phaseWaits s = false) ∧
    (∃ (s : State) (r : PhaseResult), phaseWaits s = true ∧ s.se.commitAbort = false) :=
  ⟨⟨w12Enc .idle fun x => { x with commitResult := 5 }, .k0, w12Im.contents, by decide +kernel⟩,
   ⟨w12Se id, .k0, w12Im.contents, by decide +kernel⟩,
   ⟨w12Enc .verify, .k0, by decide +kernel⟩,
   ⟨w12Enc .program fun x => { x with commitAbort := true, slotA := { x.slotA with commit := some w12Rec } }, .ok, by decide +kernel⟩,
   ⟨w12Enc .check, by decide +kernel⟩,
   ⟨w12Enc .intent fun x => { x with useB := some false }, by decide +kernel⟩,
   ⟨w12Enc .erase fun x => { x with useB := some true }, by decide +kernel⟩,
   ⟨w12Enc .program, by decide +kernel⟩,
   ⟨w12Enc .verify fun x =>
     { x with commitRec := some { w12Rec with digest := imageDigest w12Im }, slotA := { x.slotA with data := some w12Im }, slotB := { x.slotB with data := some w12Im } },
     by decide +kernel⟩,
   ⟨w12Enc .verify fun x => { x with commitRec := none }, by decide +kernel⟩,
   ⟨w12Enc .record, by decide +kernel⟩,
   ⟨w12Enc .verify fun x => { x with useB := some false, slotB := { x.slotB with commit := some w12Rec } }, by decide +kernel⟩,
   ⟨w12Enc .verify fun x => { x with sm3 := [.commit], useB := some false, slotB := { x.slotB with commit := some w12Rec } },
     by decide +kernel⟩,
   ⟨w12Enc .check fun x => { x with sm3 := [.golden, .commit] }, .ok, by decide +kernel⟩⟩

theorem wit_LockCycleCommandsLevelAndOpen :
    (∃ (s : State) (i : Initiator), isKeeper i = true ∧ s.admitted i = true ∧ s.kc.pairs[(if i = .k1 then 1 else 0 : Fin 2)] ≠
      .standby ∧ s.lk.state = .idle) ∧
    (∃ (s : State) (i : Initiator), isKeeper i = true ∧ s.admitted i = true ∧ s.kc.pairs[(if i = .k1 then 1 else 0 : Fin 2)] ≠
      .standby ∧ s.lk.state ≠ .idle) ∧
    (∃ (s : State) (i : Initiator) (a : Nat) (v : Word), isKeeper i = true ∧ s.admitted i = true ∧ s.kc.pairs[(if i = .k1 then 1 else
      0 : Fin 2)] ≠ .standby ∧ isStaged (homeAddr a) = true ∧ s.lk.owner = some i ∧ (s.lk.state = .filling ∨ s.lk.state = .levelled)) ∧
    (∃ (s : State) (i : Initiator) (a : Nat) (v : Word), isKeeper i = true ∧ s.admitted i = true ∧ s.kc.pairs[(if i = .k1 then 1 else
      0 : Fin 2)] ≠ .standby ∧ isStaged (homeAddr a) = true ∧ (s.lk.owner ≠ some i ∨ s.lk.state = .idle ∨ s.lk.state = .levelling)) ∧
    (∃ (s : State) (i : Initiator), isKeeper i = true ∧ s.admitted i = true ∧ s.kc.pairs[(if i = .k1 then 1 else 0 : Fin 2)] ≠
      .standby ∧ s.lk.state = .filling ∧ s.lk.owner = some i) ∧
    (∃ (s : State) (i : Initiator), isKeeper i = true ∧ s.admitted i = true ∧ s.kc.pairs[(if i = .k1 then 1 else 0 : Fin 2)] ≠
      .standby ∧ (s.lk.state ≠ .filling ∨ s.lk.owner ≠ some i)) ∧
    (∃ (s : State) (i : Initiator), isKeeper i = true ∧ s.admitted i = true ∧ s.kc.pairs[(if i = .k1 then 1 else 0 : Fin 2)] ≠
      .standby ∧ s.lk.state ≠ .idle ∧ s.lk.owner = some i) ∧
    (∃ (s : State) (i : Initiator), isKeeper i = true ∧ s.admitted i = true ∧ s.kc.pairs[(if i = .k1 then 1 else 0 : Fin 2)] ≠
      .standby ∧ (s.lk.state = .idle ∨ s.lk.owner ≠ some i)) ∧
    (∃ (s : State), s.lk.state ≠ .idle ∧ msCycles (s.fld R.LK_HOLD 15 0) ≤ s.cycle - s.lk.begun) ∧
    (∃ (s : State), s.lk.state = .levelling ∧ levelStage s = none) ∧
    (∃ (s : State), s.lk.state = .levelling) ∧
    (∃ (s : State) (i : Initiator), isKeeper i = true ∧ s.admitted i = true ∧ s.kc.pairs[(if i = .k1 then 1 else 0 : Fin 2)] ≠
      .standby ∧ s.lk.state = .levelled ∧ s.lk.owner = some i ∧ levelStage s ≠ none) ∧
    (∃ (s : State) (i : Initiator), isKeeper i = true ∧ s.admitted i = true ∧ s.kc.pairs[(if i = .k1 then 1 else 0 : Fin 2)] ≠
      .standby ∧ s.lk.state = .levelled ∧ s.lk.owner = some i ∧ levelStage s = none) ∧
    (∃ (s : State) (i : Initiator), isKeeper i = true ∧ s.admitted i = true ∧ s.kc.pairs[(if i = .k1 then 1 else 0 : Fin 2)] ≠
      .standby ∧ s.lk.state = .idle ∧ s.lk.openedAt = some s.cycle) ∧
    (∃ (s : State) (i : Initiator), isKeeper i = true ∧ s.admitted i = true ∧ s.kc.pairs[(if i = .k1 then 1 else 0 : Fin 2)] ≠
      .standby ∧ (s.lk.state = .idle → s.lk.openedAt ≠ some s.cycle) ∧ (s.lk.state = .idle ∨ (s.lk.owner = some i ∧ s.lk.state ≠
      .levelled))) ∧
    (∃ (s : State) (i : Initiator), isKeeper i = true ∧ s.admitted i = true ∧ s.kc.pairs[(if i = .k1 then 1 else 0 : Fin 2)] ≠
      .standby ∧ s.lk.state ≠ .idle ∧ s.lk.owner ≠ some i) :=
  ⟨⟨w12St id, .k1, by decide +kernel⟩,
   ⟨w12Staged .levelled, .k0, by decide +kernel⟩,
   ⟨w12Staged .levelled, .k0, R.POLs_CFG 7, 5, by decide +kernel⟩,
   ⟨w12Staged .filling, .k1, R.POLs_CFG 7, 5, by decide +kernel⟩,
   ⟨w12Staged .filling, .k0, by decide +kernel⟩,
   ⟨w12Staged .levelled, .k0, by decide +kernel⟩,
   ⟨w12Staged .filling, .k0, by decide +kernel⟩,
   ⟨w12Staged .filling, .k1, by decide +kernel⟩,
   ⟨(w12Staged .levelled).setReg R.LK_HOLD 100#32, by decide +kernel⟩,
   ⟨goodAt .levelling, rfl, test_a_stage_levels _⟩,
   ⟨w12Staged .levelling, by decide +kernel⟩,
   ⟨w12Staged .levelled, .k0, rfl, rfl, by decide, rfl, rfl, levelStage_ne_none_of_v_max (by decide +kernel)⟩,
   ⟨goodAt .levelled, .k0, rfl, rfl, by decide, rfl, rfl, test_a_stage_levels _⟩,
   ⟨w12St fun k => { k with openedAt := some 75000000 }, .k0, by decide +kernel⟩,
   ⟨w12Staged .filling, .k0, by decide +kernel⟩,
   ⟨w12Staged .filling, .k1, by decide +kernel⟩⟩

theorem wit_StartBegins :
    (∃ (s : State), s.wr.step = 0) ∧
    (∃ (s : State) (c : Nat), s.wr.ready = false ∧ s.wr.fail = 0 ∧ s.wr.step = 1 ∧ s.se.wiping = some c) ∧
    (∃ (s : State), s.wr.ready = false ∧ s.wr.fail = 0 ∧ s.wr.step = 1 ∧ s.se.wiping = none) ∧
    (∃ (s : State), s.wr.ready = false ∧ s.wr.fail = 0 ∧ s.wr.step = 2 ∧ s.se.deviceKey = none ∧ (s.se.life = .provisioned ∨
      s.se.life = .field)) ∧
    (∃ (s : State) (p : Byte) (f : Byte), s.wr.ready = false ∧ s.wr.fail = 0 ∧ s.wr.step = 4 ∧ p.toNat = s.fld R.SEAL_EXPECT 7 0 ∧ f
      = 0 ∧ s.sio.loopGood = true) ∧
    (∃ (s : State) (p : Byte) (f : Byte), s.wr.ready = false ∧ s.wr.fail = 0 ∧ s.wr.step = 4 ∧ (p.toNat ≠ s.fld R.SEAL_EXPECT 7 0 ∨ f
      ≠ 0 ∨ s.sio.loopGood = false) ∧ s.wr.seq = .off) ∧
    (∃ (s : State) (c : BitVec 4), s.wr.ready = false ∧ s.wr.fail = 0 ∧ (s.wr.step = 5 ∧ c = 5 ∨ s.wr.step = 6 ∧ c = 7) ∧ s.wr.seq =
      .off) ∧
    (∃ (s : State) (c : BitVec 4), s.wr.ready = false ∧ s.wr.fail = 0 ∧ s.wr.step = 7 ∧ c = 8 ∧ s.wr.seq = .off) ∧
    (∃ (s : State) (c : BitVec 4), s.wr.ready = false ∧ s.wr.fail = 0 ∧ (s.wr.step = 8 ∨ s.wr.step = 9) ∧ s.hd.filled = false ∧ c = 8
      ∧ s.wr.seq = .off) ∧
    (∃ (s : State) (ts : Vector BrakeTest 4), s.wr.ready = false ∧ s.wr.fail = 0 ∧ s.wr.step = 5 ∧ supplyInWindow s = true ∧ (∀ n ∈
      brakesOn s, brakeTestOk s n ts[n] = true)) ∧
    (∃ (s : State) (ts : Vector BrakeTest 4) (n : Fin 4), s.wr.ready = false ∧ s.wr.fail = 0 ∧ s.wr.step = 5 ∧ supplyInWindow s =
      true ∧ n ∈ brakesOn s ∧ brakeTestOk s n ts[n] = false ∧ s.wr.seq = .off) ∧
    (∃ (s : State), s.wr.ready = false ∧ s.wr.fail = 0 ∧ s.wr.step = 7 ∧ s.flag R.SEQ_CTRL 0 = false) ∧
    (∃ (s : State) (c : Nat), s.wr.step9At = some c ∧ s.wr.ready = false ∧ s.wr.fail = 0 ∧ msCycles (s.fld R.START_TMO 15 0) ≤
      s.cycle - c ∧ s.wr.seq = .off) :=
  ⟨⟨w13Step 0, by decide +kernel⟩,
   ⟨let s := (w13Step 1).store 0x24000010 [5]; { s with se := { s.se with wiping := some 3 } }, 3, by decide +kernel⟩,
   ⟨(w13Step 1).store 0x24000010 [5], by decide +kernel⟩,
   ⟨{ w13Step 2 with se := { State.reset.se with life := .field, svc := true, wrapped := some 5 } }, by decide +kernel⟩,
   ⟨let s := (w13Step 4).setReg R.SEAL_EXPECT 9#32; { s with sio := { s.sio with loopGood := true } }, 9, 0, by decide +kernel⟩,
   ⟨w13Step 4, 0, 0x80, by decide +kernel⟩,
   ⟨w13Step 6, 7, by decide +kernel⟩,
   ⟨w13Step 7, 8, by decide +kernel⟩,
   ⟨w13Step 9, 8, by decide +kernel⟩,
   ⟨w13Step 5, Vector.replicate 4 ⟨⟨.mid, .mid, 0⟩, ⟨.mid, .mid, 0⟩, ⟨.mid, .mid, 0⟩, ⟨.mid, .mid, 0⟩⟩, by decide +kernel⟩,
   ⟨(w13Step 5).setReg (R.BRKn_CFG 2) 1#32, Vector.replicate 4 ⟨⟨.high, .low, 100⟩, ⟨.mid, .mid, 0⟩, ⟨.mid, .mid, 0⟩, ⟨.mid, .mid,
     0⟩⟩, 2, by decide +kernel⟩,
   ⟨w13Step 7, by decide +kernel⟩,
   ⟨let s := w13Wr (fun w => { w with step := 9, step9At := some 3 }); s.setReg R.START_TMO 10#32, 3, by decide +kernel⟩⟩

theorem wit_CompanionResets :
    (∃ (s : State) (i : Initiator) (v : Word), isKeeper i = true ∧ s.admitted i = true ∧ v = 0x5E7A0001) ∧
    (∃ (s : State) (i : Initiator) (v : Word), isKeeper i = true ∧ s.admitted i = true ∧ v ≠ 0x5E7A0001) :=
  ⟨⟨w13Step 5, .k1, 0x5E7A0001#32, by decide +kernel⟩,
   ⟨w13Step 5, .k1, 0x5E7A0000#32, by decide +kernel⟩⟩

theorem wit_RailsTemperatureAndAdcs :
    (∃ (s : State) (m : Fin 8), s.bc.levels.contains 120#7 = false ∧ m ≠ 4 ∧ m ≠ 5) ∧
    (∃ (s : State) (m : Fin 8), s.bc.levels.contains 120#7 = true ∧ (m = 4 ∨ m = 5) ∧ s.hd.trained.all (!·) = true) ∧
    (∃ (s : State) (x : Half) (n : BitVec 3), readDue s s.wr.tjAt (usCycles 100) = true ∧ (BitVec.ofNat 16 (s.fld R.TJ_LIMIT 15
      0)).toInt < x.toInt ∧ 1 ≤ s.wr.tjRun ∧ s.bc.levels.contains 124#7 = false) ∧
    (∃ (s : State) (x : Half) (n : BitVec 3), readDue s s.wr.tjAt (usCycles 100) = true ∧ x.toInt ≤ (BitVec.ofNat 16 (s.fld
      R.TJ_LIMIT 15 0)).toInt) ∧
    (∃ (s : State) (x : Half) (n : BitVec 3), readDue s s.wr.tjAt (usCycles 100) = false) ∧
    (∃ (s : State) (i : Initiator) (v : Word), isKeeper i = true ∧ s.admitted i = true) ∧
    (∃ (s : State) (c : Fin 16) (x : BitVec 12), adcConverts s c = true ∧ s.wr.adcs[c].armed = false) ∧
    (∃ (s : State) (c : Fin 16) (x : BitVec 12), adcConverts s c = true ∧ s.wr.adcs[c].armed = true ∧ x.toNat * s.fld (R.ACHc_CFG c)
      31 16 / 4096 < s.fld (R.ACHc_WIN c) 15 0 ∧ filt s c ≤ s.wr.adcs[c].badRun + 1 ∧ s.bc.levels.contains 121#7 = false) :=
  ⟨⟨w13Wr id, 7, by decide +kernel⟩,
   ⟨let s := (w13Wr id).setReg R.RST_CAUSE 0x102#32; { s with bc := { s.bc with levels := [120] } }, 5, by decide +kernel⟩,
   ⟨(w13Wr fun w => { w with tjRun := 1 }).setReg R.TJ_LIMIT 0xFFF0#32, 0xFFF1, 7, by decide +kernel⟩,
   ⟨let s := (w13Wr fun w => { w with tjRun := 2 }).setReg R.TJ_LIMIT 100#32; { s with bc := { s.bc with levels := [124] } }, 0xFFF1,
     7, by decide +kernel⟩,
   ⟨w13Wr fun w => { w with tjAt := some 74999990 }, 5, 7, by decide +kernel⟩,
   ⟨w13Wr id, .k0, 0x8001#32, by decide +kernel⟩,
   ⟨w13Sq id, 15, 0xFFF, by decide +kernel⟩,
   ⟨(w13Sq fun w => { w with adcs := w.adcs.set 15 ⟨0, 0, true, true, 4, 1⟩ }).setReg (R.ACHc_WIN 15) 0xFFFF0100#32, 15, 0x001,
     by decide +kernel⟩⟩

theorem wit_SequencerUpDownAndPmbus :
    (∃ (s : State) (i : Initiator), isKeeper i = true ∧ s.admitted i = true ∧ s.wr.seq ≠ .off) ∧
    (∃ (s : State) (i : Initiator), isKeeper i = true ∧ s.admitted i = true ∧ s.wr.seq = .off ∧ s.wr.fail = 0 ∧ 8 ≤ s.wr.step.toNat ∧
      s.fld (R.SEQs_CFG 0) 3 0 = 6) ∧
    (∃ (s : State) (i : Initiator), isKeeper i = true ∧ s.admitted i = true ∧ s.wr.seq = .off ∧ (s.wr.fail ≠ 0 ∨ s.wr.step.toNat <
      8)) ∧
    (∃ (s : State), s.wr.seq = .up ∧ s.wr.seqDelay = true ∧ usCycles (seqDly s s.wr.seqStep) ≤ s.cycle - s.wr.seqSince ∧ s.wr.seqStep
      < 15 ∧ seqField s (s.wr.seqStep + 1) 3 0 = 0 ∧ s.wr.step ≠ 8) ∧
    (∃ (s : State), s.wr.seq = .up ∧ s.wr.seqDelay = false ∧ seqMet s s.wr.seqStep = true ∧ (seqWaits s s.wr.seqStep = true → s.cycle
      - s.wr.seqSince ≤ msCycles (seqField s s.wr.seqStep 15 8))) ∧
    (∃ (s : State), s.wr.seq = .up ∧ s.wr.seqDelay = false ∧ seqWaits s s.wr.seqStep = true ∧ seqMet s s.wr.seqStep = false ∧
      msCycles (seqField s s.wr.seqStep 15 8) ≤ s.cycle - s.wr.seqSince ∧ s.wr.step ≠ 8 ∧ serving s 0 = false ∧ serving s 1 = false) ∧
    (∃ (s : State), s.wr.seq = .up ∧ s.wr.seqDelay = false ∧ seqWaits s s.wr.seqStep = true ∧ seqMet s s.wr.seqStep = true ∧ msCycles
      (seqField s s.wr.seqStep 15 8) < s.cycle - s.wr.seqSince ∧ s.wr.step ≠ 8 ∧ serving s 0 = false ∧ serving s 1 = false) ∧
    (∃ (s : State) (c : BitVec 3), s.wr.seq = .up ∧ s.wr.seqDelay = false ∧ s.wr.seqPmb = some c ∧ c ≠ 0 ∧ s.wr.step ≠ 8 ∧ serving s
      0 = false ∧ serving s 1 = false) ∧
    (∃ (s : State) (n : Fin 8) (l : Bool), l = s.wr.accEn.getLsbD n.val) ∧
    (∃ (s : State) (n : Fin 8) (l : Bool), l ≠ s.wr.accEn.getLsbD n.val ∧ s.wr.accBad[n] = none) ∧
    (∃ (s : State) (n : Fin 8) (l : Bool) (c : Nat), l ≠ s.wr.accEn.getLsbD n.val ∧ s.wr.accBad[n] = some (c, false) ∧ 8 ≤ s.cycle -
      c) ∧
    (∃ (s : State) (n : Fin 8) (l : Bool) (b : Bool) (c : Nat), l ≠ s.wr.accEn.getLsbD n.val ∧ s.wr.accBad[n] = some (c, b) ∧ (b =
      true ∨ s.cycle - c < 8)) ∧
    (∃ (s : State) (i : Initiator), isKeeper i = true ∧ s.admitted i = true ∧ s.wr.seq ≠ .down ∧ serving s 0 = false ∧ serving s 1 =
      false) ∧
    (∃ (s : State) (i : Initiator), isKeeper i = true ∧ s.admitted i = true ∧ s.wr.seq = .down) ∧
    (∃ (s : State) (p : Fin 8) (r : List (Fin 8)), s.wr.seq = .down ∧ s.wr.raised = r ++ [p] ∧ r ≠ [] ∧ (if s.wr.seqDelay then
      msCycles (s.fld R.SEQ_CTRL 15 8) else usCycles (s.fld R.SEQ_CTRL 31 16)) ≤ s.cycle - s.wr.seqSince) ∧
    (∃ (s : State) (p : Fin 8), s.wr.seq = .down ∧ s.wr.raised = [p] ∧ (if s.wr.seqDelay then msCycles (s.fld R.SEQ_CTRL 15 8) else
      usCycles (s.fld R.SEQ_CTRL 31 16)) ≤ s.cycle - s.wr.seqSince) ∧
    (∃ (s : State), s.wr.seq = .down ∧ s.wr.raised = [] ∧ (if s.wr.seqDelay then msCycles (s.fld R.SEQ_CTRL 15 8) else usCycles
      (s.fld R.SEQ_CTRL 31 16)) ≤ s.cycle - s.wr.seqSince) ∧
    (∃ (s : State) (i : Initiator) (b : Fin 2) (v : Word) (z : List Byte), isKeeper i = true ∧ s.admitted i = true ∧ s.wr.pmbs[b] =
      ⟨none, none, none, z⟩) ∧
    (∃ (s : State) (i : Initiator) (b : Fin 2) (v : Word) (x : PmbXfer) (q : Option (Fin 8)) (y : Option Word) (z : List Byte),
      isKeeper i = true ∧ s.admitted i = true ∧ s.wr.pmbs[b] = ⟨some x, q, y, z⟩) ∧
    (∃ (s : State) (b : Fin 2) (d : Half) (e : Byte) (w : Word) (y : Option Word) (z : List Byte), s.wr.pmbs[b] = ⟨some (.keeper w),
      none, y, z⟩ ∧ bits w 17 16 = 3 ∧ (pecOn s b = true → pecOf (z ++ bytesLE 2 d.toNat) = e)) ∧
    (∃ (s : State) (b : Fin 2) (d : Half) (e : Byte) (w : Word) (z : List Byte), s.wr.pmbs[b] = ⟨some (.keeper w), none, none, z⟩ ∧
      bits w 17 16 = 2 ∧ (pecOn s b = true → pecOf (z ++ bytesLE 1 d.toNat) = e)) ∧
    (∃ (s : State) (b : Fin 2) (d : Half) (e : Byte) (w : Word) (z : List Byte), s.wr.pmbs[b] = ⟨some (.keeper w), none, none, z⟩ ∧
      bits w 17 16 < 2) ∧
    (∃ (s : State) (b : Fin 2) (d : Half) (e : Byte) (w : Word) (z : List Byte), s.wr.pmbs[b] = ⟨some (.keeper w), none, none, z⟩ ∧ 2
      ≤ bits w 17 16 ∧ pecOn s b = true ∧ pecOf (z ++ readBytes w d) ≠ e) ∧
    (∃ (s : State) (b : Fin 2) (p : Fin 8) (e : SmbusEnd) (x : PmbXfer) (z : List Byte), s.wr.pmbs[b] = ⟨some x, none, none, z⟩ ∧ x =
      .preset p ∧ e ∈ [SmbusEnd.nack, .timeout, .arbitration]) ∧
    (∃ (s : State) (b : Fin 2) (x : PmbXfer), bits (xferWord s b x) 17 16 = 1 ∧ pecOn s b = true) :=
  ⟨⟨w13Sq id, .k0, by decide +kernel⟩,
   ⟨(w13Step 8).setReg (R.SEQs_CFG 0) 6#32, .k0, by decide +kernel⟩,
   ⟨w13Step 7, .k0, by decide +kernel⟩,
   ⟨w13Sq fun w => { w with seqStep := 2, seqDelay := true, seqTab := [(0, 0), (0, 0), (6, 5), (0, 0)] }, by decide +kernel⟩,
   ⟨w13Sq fun w => { w with seqSince := 74999000, adcs := w.adcs.set 15 ⟨0, 0, true, true, 2, 0⟩ }, by decide +kernel⟩,
   ⟨w13Sq id, by decide +kernel⟩,
   ⟨w13Sq fun w => { w with adcs := w.adcs.set 15 ⟨0, 0, true, true, 2, 0⟩ }, by decide +kernel⟩,
   ⟨w13Sq fun w => { w with seqPmb := some 4 }, 4, by decide +kernel⟩,
   ⟨w13Sq fun w => { w with accBad := w.accBad.set 7 (some (5, true)) }, 7, false, by decide +kernel⟩,
   ⟨w13Sq id, 7, true, by decide +kernel⟩,
   ⟨w13Sq fun w => { w with accBad := w.accBad.set 7 (some (5, false)) }, 7, true, 5, by decide +kernel⟩,
   ⟨w13Sq fun w => { w with accBad := w.accBad.set 7 (some (5, true)) }, 7, true, true, 5, by decide +kernel⟩,
   ⟨w13Sq id, .k0, by decide +kernel⟩,
   ⟨w13Sq fun w => { w with seq := .down }, .k0, by decide +kernel⟩,
   ⟨w13Sq fun w => { w with seq := .down, raised := [3, 7], accEn := 0x88 }, 7, [3], by decide +kernel⟩,
   ⟨w13Sq fun w =>
     { w with seq := .down, raised := [7], accEn := 0x80, seqFailed := true, adcs := w.adcs.set 15 ⟨0, 0, true, true, 2, 0⟩ }, 7,
     by decide +kernel⟩,
   ⟨w13Sq fun w => { w with seq := .down }, by decide +kernel⟩,
   ⟨w13Sq id, .k0, 1, 0x30000#32, [], by decide +kernel⟩,
   ⟨w13Sq fun w => { w with pmbs := w.pmbs.set 1 ⟨some (.preset 7), none, none, []⟩ }, .k0, 1, 0x30000#32, .preset 7, none, none, [],
     by decide +kernel⟩,
   ⟨w13Sq fun w => { w with pmbs := w.pmbs.set 1 ⟨some (.keeper 0x30000#32), none, some 5, []⟩ }, 1, 0xABCD, 0, 0x30000#32, some 5,
     [], by decide +kernel⟩,
   ⟨(w13Sq fun w => { w with pmbs := w.pmbs.set 1 ⟨some (.keeper 0x20000#32), none, none, [0x2, 0, 3]⟩ }).setReg (R.PMBb_CFG 1) 4#32,
     1, 0xABCD, pecOf [0x2, 0, 3, 0xCD], 0x20000#32, [0x2, 0, 3], by decide +kernel⟩,
   ⟨w13Sq fun w => { w with pmbs := w.pmbs.set 1 ⟨some (.keeper 0x10000#32), none, none, []⟩ }, 1, 0xABCD, 0, 0x10000#32, [],
     by decide +kernel⟩,
   ⟨(w13Sq fun w => { w with pmbs := w.pmbs.set 1 ⟨some (.keeper 0x30000#32), none, none, [0x2, 0, 3]⟩ }).setReg (R.PMBb_CFG 1) 4#32,
     1, 0xABCD, pecOf [0x2, 0, 3, 0xCD], 0x30000#32, [0x2, 0, 3], by decide +kernel⟩,
   ⟨w13Sq fun w => { w with pmbs := w.pmbs.set 1 ⟨some (.preset 7), none, none, []⟩ }, 1, 7, .arbitration, .preset 7, [],
     by decide +kernel⟩,
   ⟨State.reset.setReg (R.PMBb_CFG 1) 4#32, 1, .keeper 0x10000#32, by decide +kernel⟩⟩

theorem wit_HoldAccessesScrubAndPlans :
    (∃ (s : State) (i : Initiator) (a : BitVec 40) (n : Nat) (e : Ecc), s.admitted i = true ∧ s.hd.filled = true ∧ inHold s a.toNat n
      = true ∧ reachesHold s i a.toNat n false = true ∧ holdEcc s a.toNat n e = .clean) ∧
    (∃ (s : State) (i : Initiator) (a : BitVec 40) (d : List Byte) (e : Ecc), s.admitted i = true ∧ s.hd.filled = true ∧ inHold s
      a.toNat d.length = true ∧ reachesHold s i a.toNat d.length true = true ∧ holdProtected s a.toNat d.length = false ∧ (wholeWords
      a.toNat d.length = true ∨ holdEcc s a.toNat d.length e = .clean) ∧ meets a.toNat d.length (bankBase s (!activeBank s)) (libSize
      s) = false) ∧
    (∃ (s : State) (i : Initiator) (a : BitVec 40) (d : List Byte) (e : Ecc), s.admitted i = true ∧ s.hd.filled = true ∧ inHold s
      a.toNat d.length = true ∧ reachesHold s i a.toNat d.length true = true ∧ holdProtected s a.toNat d.length = false ∧ (wholeWords
      a.toNat d.length = true ∨ holdEcc s a.toNat d.length e = .clean) ∧ meets a.toNat d.length (bankBase s (!activeBank s)) (libSize
      s) = true) ∧
    (∃ (s : State) (i : Initiator) (a : BitVec 40) (n : Nat) (e : Ecc), s.admitted i = true ∧ s.hd.filled = true ∧ inHold s a.toNat n
      = true ∧ reachesHold s i a.toNat n false = true ∧ holdEcc s a.toNat n e = .corrected) ∧
    (∃ (s : State) (i : Initiator) (a : BitVec 40) (n : Nat) (e : Ecc), s.admitted i = true ∧ s.hd.filled = true ∧ inHold s a.toNat n
      = true ∧ reachesHold s i a.toNat n false = true ∧ holdEcc s a.toNat n e = .uncorrectable) ∧
    (∃ (s : State) (i : Initiator) (a : BitVec 40) (d : List Byte) (e : Ecc), s.admitted i = true ∧ s.hd.filled = true ∧ inHold s
      a.toNat d.length = true ∧ reachesHold s i a.toNat d.length true = true ∧ holdProtected s a.toNat d.length = true) ∧
    (∃ (s : State) (i : Initiator) (a : BitVec 40) (p : MemOp) (e : Ecc), s.admitted i = true ∧ inHold s a.toNat (opLen p) = true ∧
      reachesHold s i a.toNat (opLen p) (isWrite p) = true ∧ s.hd.filled = false) ∧
    (∃ (s : State) (i : Initiator) (a : BitVec 40) (p : MemOp) (e : Ecc), (inHold s a.toNat (opLen p) = false ∨ reachesHold s i
      a.toNat (opLen p) (isWrite p) = false) ∧ s.scrapped = false) ∧
    (∃ (s : State) (e : Ecc), s.hd.filled = true ∧ s.flag R.HD_CTRL 0 = true ∧ s.flag R.HD_CTRL 1 = true ∧ scrubDue s = true ∧
      holdEcc s (holdBase + s.hd.scrub) 16 e = .clean ∧ s.hd.scrub + 16 < holdUsable s) ∧
    (∃ (s : State) (e : Ecc), s.hd.filled = true ∧ s.flag R.HD_CTRL 0 = true ∧ s.flag R.HD_CTRL 1 = true ∧ scrubDue s = true ∧
      holdEcc s (holdBase + s.hd.scrub) 16 e = .clean ∧ holdUsable s ≤ s.hd.scrub + 16) ∧
    (∃ (s : State) (e : Ecc), s.hd.filled = true ∧ s.flag R.HD_CTRL 0 = true ∧ s.flag R.HD_CTRL 1 = true ∧ scrubDue s = true ∧
      holdEcc s (holdBase + s.hd.scrub) 16 e = .corrected ∧ s.hd.scrub + 16 < holdUsable s) ∧
    (∃ (s : State) (e : Ecc), s.hd.filled = true ∧ s.flag R.HD_CTRL 0 = true ∧ s.flag R.HD_CTRL 1 = true ∧ scrubDue s = true ∧
      holdEcc s (holdBase + s.hd.scrub) 16 e = .uncorrectable ∧ s.hd.scrub + 16 < holdUsable s) ∧
    (∃ (s : State) (e : Ecc), (s.hd.filled = false ∨ s.flag R.HD_CTRL 0 = false ∨ s.flag R.HD_CTRL 1 = false ∨ scrubDue s = false)) ∧
    (∃ (s : State) (c : Fin 16) (r : BitVec 5), readDue s s.hd.rateAt[c] (msCycles 16) = true) ∧
    (∃ (s : State) (c : Fin 16) (r : BitVec 5), readDue s s.hd.rateAt[c] (msCycles 16) = false) ∧
    (∃ (s : State) (c : Fin 16), readDue s s.hd.zqAt[c] (msCycles 100) = true) ∧
    (∃ (s : State) (c : Fin 16), readDue s s.hd.zqAt[c] (msCycles 100) = true) ∧
    (∃ (s : State) (c : Fin 16) (ok : Bool), readDue s s.hd.zqAt[c] (msCycles 100) = false) ∧
    (∃ (s : State) (i : Initiator) (v : Word), isKeeper i = true ∧ s.admitted i = true) ∧
    (∃ (s : State) (i : Initiator) (v : Word) (h : Nat), isKeeper i = true ∧ s.admitted i = true ∧ s.hd.filled = true ∧ 0 < logSlots
      s ∧ h = (s.reg R.HD_REC_HEAD).toNat % logSlots s ∧ shutHold s (recBase s + 64 * h) 64 = false) ∧
    (∃ (s : State) (i : Initiator) (v : Word) (h : Nat), isKeeper i = true ∧ s.admitted i = true ∧ s.hd.filled = true ∧ 0 < logSlots
      s ∧ h = (s.reg R.HD_REC_HEAD).toNat % logSlots s ∧ shutHold s (recBase s + 64 * h) 64 = true) ∧
    (∃ (s : State) (i : Initiator) (v : Word), isKeeper i = true ∧ s.admitted i = true ∧ s.hd.filled = false) :=
  ⟨⟨(w14Hd id).store 0x100000010 [1, 2, 3], .harbour, 0x100000010#40, 8, .clean, by decide +kernel⟩,
   ⟨w14Hd fun h => { h with unc := [0x100000010] }, .harbour, 0x100000010#40, List.replicate 16 7, .twoBits, by decide +kernel⟩,
   ⟨let s := ((((w14Hd id).setReg R.SN_LIB_SIZE 1#32).setReg R.SN_LIBB_LO 0#32).setReg R.SN_LIBB_HI 1#32).setReg R.SN_LIB_STAT
     0x20#32; { s with sn := { s.sn with verifying := some true }, se := { s.se with sm3 := [.attest, .library] } }, .harbour,
     0x100000011#40, [7], .clean, by decide +kernel⟩,
   ⟨(w14Hd id).store 0x100000010 [1, 2, 3], .k0, 0x100000010#40, 4, .oneBit, by decide +kernel⟩,
   ⟨w14Hd id, .k0, 0xF38DFFFF0#40, 8, .wrongAddress, by decide +kernel⟩,
   ⟨(w14Hd id).setReg R.SN_LIB_SIZE 1#32 |>.setReg R.SN_LIBA_LO 0#32 |>.setReg R.SN_LIBA_HI 1#32, .harbour, 0x100000010#40, [7],
     .clean, by decide +kernel⟩,
   ⟨w14Hd fun h => { h with filled := false }, .k0, 0x100000010#40, .read 4, .clean, by decide +kernel⟩,
   ⟨w14Hd id, .k0, 0x121000000#40, .read 4, .clean, by decide +kernel⟩,
   ⟨(w14Hd id).setReg R.HD_CTRL 3#32, .clean, by decide +kernel⟩,
   ⟨(w14Hd fun h => { h with scrub := 0xF38E00000 }).setReg R.HD_CTRL 3#32, .clean, by decide +kernel⟩,
   ⟨(w14Hd id).setReg R.HD_CTRL 3#32, .oneBit, by decide +kernel⟩,
   ⟨(w14Hd id).setReg R.HD_CTRL 3#32, .twoBits, by decide +kernel⟩,
   ⟨w14Hd id, .twoBits, by decide +kernel⟩,
   ⟨w14Hd id, 15, 3, by decide +kernel⟩,
   ⟨w14Hd fun h => { h with rateAt := h.rateAt.set 15 (some 74999999) }, 15, 3, by decide +kernel⟩,
   ⟨w14Hd id, 15, by decide +kernel⟩,
   ⟨w14Hd id, 15, by decide +kernel⟩,
   ⟨w14Hd fun h => { h with zqAt := h.zqAt.set 15 (some 74999999) }, 15, true, by decide +kernel⟩,
   ⟨w14Hd id, .k1, 0xFFFFFFFF#32, by decide +kernel⟩,
   ⟨((w14Hd id).setReg R.HD_REC_LOG 1#32).setReg (R.HD_REC_PUTn 14) 0x01020304#32, .k1, 0xFFFFFFFF#32, 0, by decide +kernel⟩,
   ⟨((((w14Hd id).setReg R.HD_REC_LOG 1#32).setReg R.HD_REC_BASE_HI 1#32).setReg R.SN_LIB_SIZE 1#32).setReg R.SN_LIBA_HI 1#32, .k1,
     0xFFFFFFFF#32, 0, by decide +kernel⟩,
   ⟨w14Hd fun h => { h with filled := false }, .k1, 0xFFFFFFFF#32, by decide +kernel⟩⟩

theorem wit_BankHandovers :
    (∃ (s : State) (i : Initiator) (b : Fin 64) (v : Word), s.mayWrite i (R.BANKb_OWN b) = true ∧ handoverCode s i b v = 0 ∧
      s.bs.banks[b].next = none) ∧
    (∃ (s : State) (i : Initiator) (b : Fin 64) (v : Word), s.mayWrite i (R.BANKb_OWN b) = true ∧ handoverCode s i b v = 0 ∧
      s.bs.banks[b].next.isSome = true) ∧
    (∃ (s : State) (i : Initiator) (b : Fin 64) (v : Word), i = .harbour ∧ s.mayWrite i (R.BANKb_OWN b) = true ∧ actsFor s i b =
      false) ∧
    (∃ (s : State) (b : Fin 64) (o : BitVec 4), s.bs.banks[b].next = some o ∧ bankIdle s b = true ∧ s.bs.banks[b].clear = false) ∧
    (∃ (s : State) (b : Fin 64) (o : BitVec 4) (c : Nat), s.bs.banks[b].next = some o ∧ bankIdle s b = true ∧ s.bs.banks[b].clear =
      true ∧ s.bs.banks[b].idleAt = some c ∧ 32768 ≤ s.cycle - c) ∧
    (∃ (s : State) (b : Fin 64), (s.bs.banks[b].next = none ∨ bankIdle s b = false)) ∧
    (∃ (s : State) (b : Fin 64), s.bs.banks[b].next.isSome = true ∧ bankIdle s b = true ∧ s.bs.banks[b].clear = true ∧ (∀ c,
      s.bs.banks[b].idleAt = some c → s.cycle - c < 32768)) ∧
    (∃ (s : State) (i : Initiator) (v : Word), isKeeper i = true ∧ s.admitted i = true ∧ bits v 5 0 < 32) ∧
    (∃ (s : State) (i : Initiator) (v : Word), isKeeper i = true ∧ s.admitted i = true ∧ 32 ≤ bits v 5 0) :=
  ⟨⟨w14Bn id, .k0, 63, 0x16#32, by decide +kernel⟩,
   ⟨w14Bn fun x => { x with next := some 6, clear := true }, .k0, 63, 0x10#32, by decide +kernel⟩,
   ⟨(w14Bn id).setReg R.KC_HWPERM 0xFFFFFFFF#32, .harbour, 63, 2#32, by decide +kernel⟩,
   ⟨w14Bn fun x => { x with next := some 6 }, 63, 6, by decide +kernel⟩,
   ⟨(w14Bn fun x => { x with next := some 6, clear := true, idleAt := some 5 }).store 0x21FFFFFF [7], 63, 6, 5, by decide +kernel⟩,
   ⟨w14Bn id, 63, by decide +kernel⟩,
   ⟨w14Bn fun x => { x with next := some 6, clear := true }, 63, rfl, by decide +kernel, rfl, fun c h => by cases (show (none :
     Option Nat) = some c from h)⟩,
   ⟨(w14Bn id).setReg R.BS_LOST_LO 0xFFFFFFFF#32, .k0, 31#32, by decide +kernel⟩,
   ⟨(w14Bn id).setReg R.BS_LOST_HI 0xFFFFFFFF#32, .k0, 63#32, by decide +kernel⟩⟩

theorem wit_MarchTests :
    (∃ (s : State) (i : Initiator) (v : Word) (b : Fin 64), s.mayWrite i R.BS_MARCH_CMD = true ∧ b = Fin.ofNat 64 (bits v 5 0) ∧
      v.getLsbD 9 = true ∧ v.getLsbD 8 = false ∧ s.wr.ready = true ∧ actsFor s i b = true ∧ s.bs.marches.any (fun m => m.bank.val % 8
      == b.val % 8) = false) ∧
    (∃ (s : State) (i : Initiator) (v : Word) (b : Fin 64), s.mayWrite i R.BS_MARCH_CMD = true ∧ b = Fin.ofNat 64 (bits v 5 0) ∧
      v.getLsbD 9 = true ∧ v.getLsbD 8 = true ∧ s.wr.ready = true ∧ actsFor s i b = true ∧ s.bs.marches.any (fun m => m.bank.val % 8
      == b.val % 8) = false) ∧
    (∃ (s : State) (i : Initiator) (v : Word), s.mayWrite i R.BS_MARCH_CMD = true ∧ v.getLsbD 9 = false) ∧
    (∃ (s : State) (i : Initiator) (v : Word) (b : Fin 64), isKeeper i = true ∧ s.mayWrite i R.BS_MARCH_CMD = true ∧ b = Fin.ofNat 64
      (bits v 5 0) ∧ v.getLsbD 9 = true ∧ (s.wr.ready = false ∨ actsFor s i b = false ∨ s.bs.marches.any (fun m => m.bank.val % 8 ==
      b.val % 8) = true)) ∧
    (∃ (s : State) (b : Fin 64) (m : March), s.bs.marches = [m] ∧ m.bank = b ∧ m.preserve = true ∧ m.seg < 128 ∧ segLen * (m.seg + 1)
      ≤ s.cycle - m.begun ∧ s.bs.waits = []) ∧
    (∃ (s : State) (b : Fin 64) (m : March) (w : BitVec 15) (k : Bool), marchOn s b = some m ∧ m.bank = b ∧ m.preserve = true ∧ m.seg
      < 128 ∧ segLen * (m.seg + 1) ≤ s.cycle - m.begun ∧ s.bs.waits = [] ∧ s.fld R.BS_MARCH_RUN 5 0 = b.val ∧ s.wr.ready = true) ∧
    (∃ (s : State) (b : Fin 64) (m : March), marchOn s b = some m ∧ m.bank = b ∧ m.preserve = false ∧ 458752 ≤ s.cycle - m.begun ∧
      s.wr.step ≠ 6) ∧
    (∃ (s : State) (b : Fin 64) (m : March), marchOn s b = some m ∧ m.bank = b ∧ m.preserve = true ∧ 128 ≤ m.seg ∧ 524288 ≤ s.cycle -
      m.begun ∧ s.fld R.BS_MARCH_RUN 5 0 = b.val ∧ s.wr.step ≠ 6) ∧
    (∃ (s : State) (b : Fin 64) (m : March) (r : MarchFinding), marchOn s b = some m ∧ (s.cycle - m.begun < marchLen m ∨ (m.preserve
      = true ∧ m.seg < 128))) ∧
    (∃ (s : State) (b : Fin 64) (m : March) (i : Initiator) (a : Nat) (n : Nat), s.bs.marches = [m] ∧ m.bank = b ∧ m.preserve = true
      ∧ m.seg < 128 ∧ segLen * (m.seg + 1) ≤ s.cycle - m.begun ∧ s.bs.waits = [⟨i, a, .read n, .clean⟩] ∧ banksOf a n = [b] ∧
      s.hd.filled = true ∧ s.bs.banks[b].failed = false ∧ meets a n (0x20000000 + 0x80000 * b.val + 4096 * (m.seg + 1)) 4096 = false) ∧
    (∃ (s : State) (b : Fin 64) (m : March) (w : BitVec 15) (k : Bool), marchOn s b = some m ∧ m.bank = b ∧ m.preserve = false ∧
      458752 ≤ s.cycle - m.begun ∧ s.wr.ready = true) ∧
    (∃ (s : State) (b : Fin 64) (m : March), marchOn s b = some m ∧ m.bank = b ∧ m.preserve = false ∧ 458752 ≤ s.cycle - m.begun ∧
      s.wr.step = 6 ∧ b.val + 8 < 64) ∧
    (∃ (s : State) (b : Fin 64) (m : March) (w : BitVec 15) (k : Bool), marchOn s b = some m ∧ m.bank = b ∧ m.preserve = false ∧
      458752 ≤ s.cycle - m.begun ∧ s.wr.ready = false ∧ s.wr.fail = 0 ∧ s.wr.seq = .off) ∧
    (∃ (s : State) (b : Fin 64) (m : March) (w : BitVec 15) (k : Bool), marchOn s b = some m ∧ m.bank = b ∧ m.preserve = true ∧ m.seg
      < 128 ∧ segLen * (m.seg + 1) ≤ s.cycle - m.begun ∧ s.bs.waits = [] ∧ s.wr.ready = false ∧ s.wr.fail = 0 ∧ s.wr.seq = .off) :=
  ⟨⟨w14Bn id, .k0, 0x23F#32, 63, by decide +kernel⟩,
   ⟨w14Bn id, .k0, 0x33F#32, 63, by decide +kernel⟩,
   ⟨w14Bn id, .k0, 0x3F#32, by decide +kernel⟩,
   ⟨w14Ma ⟨55, false, 0, 0⟩, .k0, 0x23F#32, 63, by decide +kernel⟩,
   ⟨w14Ma ⟨63, true, 127, 0⟩, 63, ⟨63, true, 127, 0⟩, by decide +kernel⟩,
   ⟨(w14Ma ⟨63, true, 5, 0⟩).setReg R.BS_MARCH_RUN 0x8000003F#32, 63, ⟨63, true, 5, 0⟩, 77, false, by decide +kernel⟩,
   ⟨(w14Ma ⟨63, false, 0, 0⟩).store 0x21FFFFFF [7], 63, ⟨63, false, 0, 0⟩, by decide +kernel⟩,
   ⟨(w14Ma ⟨63, true, 128, 0⟩).setReg R.BS_MARCH_RUN 0x8000003F#32, 63, ⟨63, true, 128, 0⟩, by decide +kernel⟩,
   ⟨w14Ma ⟨63, true, 127, 0⟩, 63, ⟨63, true, 127, 0⟩, .good, by decide +kernel⟩,
   ⟨let s := w14Ma ⟨63, true, 5, 0⟩; { s with bs := { s.bs with waits := [⟨.k0, 0x21F85000, .read 4, .clean⟩] } }, 63, ⟨63, true, 5,
     0⟩, .k0, 0x21F85000, 4, by decide +kernel⟩,
   ⟨w14Ma ⟨63, false, 0, 0⟩, 63, ⟨63, false, 0, 0⟩, 0x7FFF#15, true, by decide +kernel⟩,
   ⟨let s := ((w14Ma ⟨40, false, 0, 0⟩).store 0x2147FFFF [7]).setReg (R.BANKb_CFG 48) 0x10#32;
     { s with wr := { s.wr with step := 6, ready := false } }, 40, ⟨40, false, 0, 0⟩, by decide +kernel⟩,
   ⟨let s := w14Ma ⟨63, false, 0, 0⟩; { s with wr := { s.wr with step := 6, ready := false } }, 63, ⟨63, false, 0, 0⟩, 0x7FFF#15,
     true, by decide +kernel⟩,
   ⟨let s := w14Ma ⟨3, true, 5, 0⟩; { s with wr := { s.wr with step := 6, ready := false } }, 3, ⟨3, true, 5, 0⟩, 77, false,
     by decide +kernel⟩⟩

theorem wit_OnChipAccesses :
    (∃ (s : State) (i : Initiator) (a : Word) (n : Nat) (e : Ecc), s.admitted i = true ∧ (chipMem a.toNat n = some (.tcm 0) ∨ chipMem
      a.toNat n = some (.tcm 1)) ∧ isKeeper i = true ∧ codeFinding e = .clean) ∧
    (∃ (s : State) (i : Initiator) (a : Word) (n : Nat) (e : Ecc), s.admitted i = true ∧ chipMem a.toNat n = some (.tcm 1) ∧ isKeeper
      i = true ∧ codeFinding e = .corrected) ∧
    (∃ (s : State) (i : Initiator) (a : Word) (n : Nat) (e : Ecc) (k : Fin 2), s.admitted i = true ∧ chipMem a.toNat n = some (.tcm
      k) ∧ isKeeper i = true ∧ codeFinding e = .uncorrectable) ∧
    (∃ (s : State) (i : Initiator) (a : Word) (d : List Byte) (e : Ecc) (k : Fin 2), s.admitted i = true ∧ chipMem a.toNat d.length =
      some (.tcm k) ∧ i = pairInit k ∧ (wholeWords a.toNat d.length = true ∨ codeFinding e = .clean)) ∧
    (∃ (s : State) (i : Initiator) (a : Word) (d : List Byte) (e : Ecc), s.admitted i = true ∧ chipMem a.toNat d.length = some .basin
      ∧ banksAdmit s (.core i) true a.toNat d.length = true ∧ basinWaits s a.toNat d.length = false ∧ (wholeWords a.toNat d.length =
      true ∨ codeFinding e = .clean)) ∧
    (∃ (s : State) (i : Initiator) (a : Word) (n : Nat) (e : Ecc), s.admitted i = true ∧ chipMem a.toNat n = some .basin ∧ banksAdmit
      s (.core i) false a.toNat n = true ∧ basinWaits s a.toNat n = false ∧ codeFinding e = .clean) ∧
    (∃ (s : State) (i : Initiator) (a : Word) (p : MemOp) (e : Ecc), s.admitted i = true ∧ chipMem a.toNat (opLen p) = some .basin ∧
      banksAdmit s (.core i) (isWrite p) a.toNat (opLen p) = true ∧ basinWaits s a.toNat (opLen p) = true) ∧
    (∃ (s : State) (i : Initiator) (a : Word) (d : List Byte) (e : Ecc), s.admitted i = true ∧ chipMem a.toNat d.length = some .basin
      ∧ banksAdmit s (.core i) true a.toNat d.length = false ∧ (banksOf a.toNat d.length).any (bankBlocked s) = false) ∧
    (∃ (s : State) (i : Initiator) (a : Word) (p : MemOp) (e : Ecc) (b : Fin 64), s.admitted i = true ∧ chipMem a.toNat (opLen p) =
      some .basin ∧ (banksOf a.toNat (opLen p)) = [b] ∧ s.bs.banks[b].next.isSome = true) ∧
    (∃ (s : State) (i : Initiator) (a : Word) (n : Nat) (e : Ecc), s.admitted i = true ∧ chipMem a.toNat n = some .vault ∧
      vaultAdmits s i a.toNat = true ∧ codeFinding e = .clean) ∧
    (∃ (s : State) (i : Initiator) (a : Word) (n : Nat) (e : Ecc), s.admitted i = true ∧ i = .harbour ∧ chipMem a.toNat n = some
      .vault ∧ s.se.wiping = none) ∧
    (∃ (s : State) (i : Initiator) (a : Word) (p : Fin 36) (d : List Byte) (e : Ecc), s.admitted i = true ∧ isKeeper i = true ∧
      chipMem a.toNat d.length = some (.tile p) ∧ (wholeWords a.toNat d.length = true ∨ codeFinding e = .clean)) ∧
    (∃ (s : State) (i : Initiator) (a : Word) (p : Fin 36) (n : Nat) (e : Ecc), s.admitted i = true ∧ chipMem a.toNat n = some (.tile
      p) ∧ s.ports.seq = [] ∧ codeFinding e = .clean) ∧
    (∃ (s : State) (i : Initiator) (a : Word) (p : Fin 36) (n : Nat) (e : Ecc), s.admitted i = true ∧ chipMem a.toNat n = some (.tile
      p) ∧ codeFinding e = .uncorrectable ∧ tileHeld s p = false) ∧
    (∃ (s : State) (i : Initiator) (a : Word) (p : MemOp) (e : Ecc), s.scrapped = false ∧ chipMem a.toNat (opLen p) = none) ∧
    (∃ (s : State) (i : Initiator) (a : Word) (n : Nat) (e : Ecc), s.admitted i = true ∧ chipMem a.toNat n = some .rom ∧ codeFinding
      e = .clean) ∧
    (∃ (s : State) (i : Initiator) (a : Word) (d : List Byte) (e : Ecc), s.scrapped = false ∧ chipMem a.toNat d.length = some .rom) ∧
    (∃ (s : State) (i : Initiator) (a : Word) (k : Fin 8) (d : List Byte) (e : Ecc), s.admitted i = true ∧ isKeeper i = false ∧
      a.toNat = 0x32800000 + 8 * k.val ∧ d.length = 8 ∧ codeFinding e = .clean) ∧
    (∃ (s : State) (i : Initiator) (a : Word) (e : Ecc), s.admitted i = true ∧ isKeeper i = false ∧ a.toNat = 0x32807FF8 ∧
      codeFinding e = .clean) ∧
    (∃ (s : State) (i : Initiator) (a : Word) (p : MemOp) (e : Ecc), s.scrapped = false ∧ isKeeper i = true ∧ chipMem a.toNat (opLen
      p) = some .platform) :=
  ⟨⟨(w14Bn id).store 0x1017FFFF [9], .k0, 0x1017FFFF#32, 1, .clean, by decide +kernel⟩,
   ⟨(w14Bn id).store 0x1017FFFF [9], .k0, 0x1017FFFF#32, 1, .oneBit, by decide +kernel⟩,
   ⟨w14Bn id, .k0, 0x1017FFFF#32, 1, .twoBits, 1, by decide +kernel⟩,
   ⟨w14Bn id, .k1, 0x1017FFF0#32, List.replicate 16 3, .twoBits, 1, by decide +kernel⟩,
   ⟨w14Bn id, .k0, 0x21FFFFF0#32, List.replicate 16 3, .clean, by decide +kernel⟩,
   ⟨w14Bn id, .k1, 0x21FFFFF0#32, 8, .clean, by decide +kernel⟩,
   ⟨let s := w14Ma ⟨63, true, 127, 0⟩; s, .k0, 0x21FFFFF0#32, .read 4, .clean, by decide +kernel⟩,
   ⟨w14Bn id, .harbour, 0x21FFFFF0#32, [3], .clean, by decide +kernel⟩,
   ⟨w14Bn fun x => { x with next := some 6 }, .harbour, 0x21FFFFF0#32, .read 4, .clean, 63, by decide +kernel⟩,
   ⟨(w14Bn id).store 0x24040000 [9], .k0, 0x24040000#32, 8, .clean, by decide +kernel⟩,
   ⟨w14Bn id, .harbour, 0x24040000#32, 8, .clean, by decide +kernel⟩,
   ⟨w14Bn id, .k1, 0x40400020#32, 1, [1, 2], .clean, by decide +kernel⟩,
   ⟨(w14Bn id).store 0x40400020 [6], .harbour, 0x40400020#32, 1, 4, .clean, by decide +kernel⟩,
   ⟨let s := w14Bn id; { s with tiles := s.tiles.set 1 { s.tiles[1] with run := .running } }, .harbour, 0x40400020#32, 1, 4,
     .twoBits, by decide +kernel⟩,
   ⟨w14Bn id, .k0, 0x0003FFFF#32, .read 2, .clean, by decide +kernel⟩,
   ⟨w14Bn id, .k0, 0#32, 4, .clean, by decide +kernel⟩,
   ⟨w14Bn id, .k0, 0#32, [1], .clean, by decide +kernel⟩,
   ⟨w14Bn id, .harbour, 0x32800038#32, 7, List.replicate 8 3, .clean, by decide +kernel⟩,
   ⟨w14Bn id, .harbour, 0x32807FF8#32, .clean, by decide +kernel⟩,
   ⟨w14Bn id, .k0, 0x32807FF8#32, .read 4, .clean, by decide +kernel⟩⟩

theorem wit_HelloAndLinks :
    (∃ (s : State), readDue s s.tp.helloAt (msCycles 1) = true ∧ s.tp.ports.all (!·.disabled) = true ∧ tpOn s = true ∧ (∀ q : Fin 4,
      s.flag (R.TPq_CFG q) 0 = decide (q.val < 2))) ∧
    (∃ (s : State), readDue s s.tp.helloAt (msCycles 1) = false) ∧
    (∃ (s : State) (q : Fin 4) (h : ZHead) (m : HelloMsg), tpUsable s q = true ∧ h.hops ≠ 0 ∧ q = 0 ∧ tpRole s = 1 ∧ s.tp.acting =
      false) ∧
    (∃ (s : State) (q : Fin 4) (h : ZHead) (m : HelloMsg), tpUsable s q = true ∧ h.hops ≠ 0 ∧ q = 1 ∧ tpRole s = 1 ∧ s.tp.acting =
      false) ∧
    (∃ (s : State) (q : Fin 4) (h : ZHead) (m : HelloMsg), tpUsable s q = true ∧ h.hops = 0) ∧
    (∃ (s : State) (q : Fin 4), tpUsable s q = true ∧ s.tp.ports[q].neighbour.isSome = true ∧ s.tp.ports[q].lastHello + msCycles 4 ≤
      s.cycle) ∧
    (∃ (s : State) (q : Fin 4) (x : RawFrame), tpUsable s q = true ∧ framePasses x = false ∧ cutFrame x.bytes = none) ∧
    (∃ (s : State) (q : Fin 4) (x : RawFrame) (h : ZHead) (b : ZBody), tpUsable s q = true ∧ framePasses x = false ∧ cutFrame x.bytes
      = some (h, b)) ∧
    (∃ (s : State) (q : Fin 4) (x : RawFrame), (tpUsable s q = false ∨ framePasses x = true)) ∧
    (∃ (s : State) (q : Fin 4), tpUsable s q = true) ∧
    (∃ (s : State) (q : Fin 4), tpUsable s q = true) ∧
    (∃ (s : State) (q : Fin 4) (d : Word), tpUsable s q = true ∧ readDue s s.tp.ports[q].pdelayAt (msCycles 1000) = true) ∧
    (∃ (s : State) (q : Fin 4) (d : Word), (tpUsable s q = false ∨ readDue s s.tp.ports[q].pdelayAt (msCycles 1000) = false)) :=
  ⟨⟨((w15Tp 1).setReg (R.TPq_CFG 2) 0#32).setReg (R.TPq_CFG 3) 0#32, by decide +kernel⟩,
   ⟨w15Tp 1 fun t => { t with helloAt := some 1499999999 }, by decide +kernel⟩,
   ⟨w15Tp 1, 0, w15H, ⟨2, 0x24, 15, true, 1, 5⟩, by decide +kernel⟩,
   ⟨w15Tp 1, 1, w15H, ⟨2, 0x24, 14, true, 1, 5⟩, by decide +kernel⟩,
   ⟨w15Tp 1, 3, { w15H with hops := 0 }, ⟨2, 0x24, 15, true, 1, 5⟩, by decide +kernel⟩,
   ⟨w15Tp 1 fun t => { t with ports := t.ports.set 3 { t.ports[3] with neighbour := some 5 } }, 3, by decide +kernel⟩,
   ⟨w15Tp 1, 3, ⟨[0x18, 0, 5], true⟩, by decide +kernel⟩,
   ⟨w15Tp 1, 1, w15Cut, w15H, .bcast ⟨.cell, [5]⟩, by decide +kernel⟩,
   ⟨State.reset, 3, w15Cut, by decide +kernel⟩,
   ⟨w15Tp 1 fun t => { t with ports := t.ports.set 3 { t.ports[3] with link := true } }, 3, by decide +kernel⟩,
   ⟨w15Tp 1, 3, by decide +kernel⟩,
   ⟨w15Tp 1, 3, 0xFFFFFFFF#32, by decide +kernel⟩,
   ⟨State.reset, 3, 0xFFFFFFFF#32, by decide +kernel⟩⟩

theorem wit_AddressesAndTables :
    (∃ (s : State), tpOn s = true ∧ tpRole s = 1 ∧ s.tp.addr = none ∧ s.tp.code = 0 ∧ s.tp.claimAt = none) ∧
    (∃ (s : State) (c : Nat), tpOn s = true ∧ tpRole s = 1 ∧ s.tp.addr = none ∧ (s.tp.code = 0 ∨ s.tp.code = 6) ∧ s.tp.claimAt = some
      c ∧ c + msCycles 100 ≤ s.cycle) ∧
    (∃ (s : State) (q : Fin 4) (h : ZHead) (m : ClaimMsg), tpUsable s q = true ∧ h.hops ≠ 0 ∧ isOwn s h = false ∧ tpRole s = 1 ∧
      s.tp.acting = false) ∧
    (∃ (s : State) (q : Fin 4) (h : ZHead) (m : ClaimMsg) (a : BitVec 12), tpUsable s q = true ∧ h.hops ≠ 0 ∧ isOwn s h = false ∧
      tpRole s = 2 ∧ s.tp.acting = false ∧ q = 0 ∧ m.role = 1 ∧ s.tp.addr = some a ∧ wholeRefused s = false ∧ sealCell m.pattern =
      sealCell s.sio.sealPattern ∧ entPresent s.tp.cell[idx16 (sealNode m.pattern)] = false) ∧
    (∃ (s : State) (q : Fin 4) (h : ZHead) (m : AssignMsg), tpUsable s q = true ∧ h.hops ≠ 0 ∧ isOwn s h = false ∧ tpRole s = 1 ∧
      m.pattern = s.sio.sealPattern ∧ m.pos = portPos s q ∧ m.code = 1 ∧ s.tp.addr = none) ∧
    (∃ (s : State) (q : Fin 4) (h : ZHead) (m : AssignMsg), tpUsable s q = true ∧ h.hops ≠ 0 ∧ isOwn s h = false ∧ tpRole s = 1 ∧
      m.pattern = s.sio.sealPattern ∧ m.pos = portPos s q ∧ m.code ≠ 1 ∧ s.tp.code ≠ m.code) ∧
    (∃ (s : State) (q : Fin 4) (h : ZHead) (m : RouteMsg), tpUsable s q = true ∧ h.hops ≠ 0 ∧ isOwn s h = false ∧ tpRole s = 1 ∧
      m.table = .cell ∧ routeCode s m = 1) ∧
    (∃ (s : State) (q : Fin 4) (h : ZHead) (m : RouteMsg), tpUsable s q = true ∧ h.hops ≠ 0 ∧ isOwn s h = false ∧ m.table = .cell ∧
      routeCode s m ≠ 1 ∧ routeCode s m ≠ 3) ∧
    (∃ (s : State) (q : Fin 4) (h : ZHead) (m : AckMsg), tpUsable s q = true ∧ h.hops ≠ 0 ∧ isOwn s h = false ∧ m.table = .cell ∧
      isCellMaster s = true ∧ m.code = 1 ∧ m.gen = s.tp.gens[0] ∧ entAddr s.tp.cell[m.entry] = h.src) ∧
    (∃ (s : State) (q : Fin 4) (h : ZHead) (m : AckMsg), tpUsable s q = true ∧ h.hops ≠ 0 ∧ isOwn s h = false ∧ m.table = .cell ∧
      isCellMaster s = true ∧ (m.code ≠ 1 ∨ m.gen ≠ s.tp.gens[0] ∨ entAddr s.tp.cell[m.entry] ≠ h.src)) ∧
    (∃ (s : State) (q : Fin 4) (h : ZHead) (m : AckMsg), tpUsable s q = true ∧ h.hops ≠ 0 ∧ isOwn s h = false ∧ fromSiteMaster s q
      h.src = false ∧ m.table = .cell ∧ isCellMaster s = false) :=
  ⟨⟨w15Tp 1 fun t => { t with addr := none }, by decide +kernel⟩,
   ⟨w15Tp 1 fun t => { t with addr := none, claimAt := some 0 }, 0, by decide +kernel⟩,
   ⟨w15Tp 1, 0, w15H, ⟨1, 0x24, 0, 4⟩, by decide +kernel⟩,
   ⟨w15Tp 2, 0, w15H, ⟨1, 0x2F, 0, 4⟩, 0x123, by decide +kernel⟩,
   ⟨w15Tp 1 fun t => { t with addr := none }, 0, w15H, ⟨0x23, 0, 1, 15⟩, by decide +kernel⟩,
   ⟨w15Tp 1 fun t => { t with addr := none }, 0, w15H, ⟨0x23, 0, 2, 15⟩, by decide +kernel⟩,
   ⟨w15Tp 1, 1, w15H, ⟨.cell, 1, (Vector.replicate 16 0).set 3 (mkEntry 0 false 0x123), false⟩, by decide +kernel⟩,
   ⟨w15Tp 1, 1, w15H, ⟨.cell, 1, Vector.replicate 16 0, true⟩, by decide +kernel⟩,
   ⟨w15Tp 2 fun t => { t with cell := t.cell.set 15 (mkEntry 3 false 0x124) }, 1, w15H, ⟨.cell, 0, 15, 1⟩, by decide +kernel⟩,
   ⟨w15Tp 2, 1, w15H, ⟨.cell, 0, 15, 1⟩, by decide +kernel⟩,
   ⟨w15Tp 1, 1, w15H, ⟨.cell, 0, 15, 1⟩, by decide +kernel⟩⟩

theorem wit_Stops :
    (∃ (s : State) (i : Initiator) (v : Word) (c : Scope), isKeeper i = true ∧ s.admitted i = true ∧ bits v 31 16 = 0x570F ∧
      v.getLsbD 2 = false ∧ scopeOf (bits v 1 0) = some c ∧ tpOn s = true) ∧
    (∃ (s : State) (i : Initiator) (v : Word), isKeeper i = true ∧ s.admitted i = true ∧ bits v 31 16 = 0x570F ∧ v.getLsbD 2 = true) ∧
    (∃ (s : State) (x : StopSend), s.tp.sending = [x] ∧ x.due ≤ s.cycle) ∧
    (∃ (s : State), (s.tp.sending.all (fun x => decide (s.cycle < x.due)) = true)) ∧
    (∃ (s : State) (q : Fin 4) (h : ZHead) (m : StopMsg), tpUsable s q = true ∧ h.hops ≠ 0 ∧ fromSiteMaster s q h.src = false ∧
      newCopy (seenOf s m.origin) m = false) ∧
    (∃ (s : State) (q : Fin 4) (h : ZHead) (m : StopMsg), tpUsable s q = true ∧ h.hops ≠ 0 ∧ fromSiteMaster s q h.src = true ∧
      newCopy (seenOf s m.origin) m = false) ∧
    (∃ (s : State) (q : Fin 4) (h : ZHead) (m : StopMsg), tpUsable s q = true ∧ h.hops ≠ 0 ∧ newStop (seenOf s m.origin) m = true ∧
      inScope s m = true ∧ (if s.lk.openedAt = some s.cycle then s.tp.inBefore else s.reg R.TP_STOP_CFG).getLsbD (4 + scopeCode
      m.scope) = true) ∧
    (∃ (s : State) (q : Fin 4) (h : ZHead) (m : StopMsg), tpUsable s q = true ∧ h.hops ≠ 0 ∧ newStop (seenOf s m.origin) m = true ∧
      inScope s m = true ∧ (if s.lk.openedAt = some s.cycle then s.tp.inBefore else s.reg R.TP_STOP_CFG).getLsbD (4 + scopeCode
      m.scope) = false) ∧
    (∃ (s : State) (q : Fin 4) (h : ZHead) (m : StopMsg), tpUsable s q = true ∧ h.hops ≠ 0 ∧ newCopy (seenOf s m.origin) m = true ∧
      newStop (seenOf s m.origin) m = false) :=
  ⟨⟨w15Tp 1, .k0, 0x570F0002#32, .site, by decide +kernel⟩,
   ⟨w15Tp 1 fun t => { t with sending := [⟨.zone, 0, 0, true, 1, 0, 3, 7, true, 0⟩] }, .k0, 0x570F0004#32, by decide +kernel⟩,
   ⟨w15Tp 1 fun t => { t with sending := [⟨.zone, 0, 0, true, 1, 0, 2, 7, true, 5⟩] }, ⟨.zone, 0, 0, true, 1, 0, 2, 7, true, 5⟩,
     by decide +kernel⟩,
   ⟨w15Tp 1 fun t => { t with sending := [⟨.zone, 0, 0, true, 1, 0, 2, 1500000001, true, 0⟩] }, by decide +kernel⟩,
   ⟨w15Tp 1 fun t => { t with seen := [⟨0x124, 3, 8, 0xF⟩] }, 2, w15H, w15Msg, by decide +kernel⟩,
   ⟨w15Tp 3 fun t => { t with seen := [⟨0x124, 3, 8, 0xF⟩], siteMaster := some 0x124 }, 2, w15H, w15Msg, by decide +kernel⟩,
   ⟨(w15Tp 1).setReg R.TP_STOP_CFG 0x10#32, 1, w15H, w15Msg, by decide +kernel⟩,
   ⟨(w15Tp 1).setReg R.TP_STOP_CFG 0x20#32, 1, w15H, w15Msg, by decide +kernel⟩,
   ⟨w15Tp 1 fun t => { t with seen := [⟨0x124, 3, 8, 1⟩] }, 1, w15H, w15Msg, by decide +kernel⟩⟩

theorem wit_DataBroadcastsAndHarbourRings :
    (∃ (s : State) (q : Fin 4) (h : ZHead) (m : DataMsg), tpUsable s q = true ∧ h.hops ≠ 0 ∧ isOwn s h = false ∧ fromSiteMaster s q
      h.src = false ∧ s.tp.addr = none) ∧
    (∃ (s : State) (q : Fin 4) (h : ZHead) (m : DataMsg) (a : BitVec 12) (p : Nat), tpUsable s q = true ∧ h.hops ≠ 0 ∧ isOwn s h =
      false ∧ fromSiteMaster s q h.src = false ∧ s.tp.addr = some a ∧ dataTarget s m = some a ∧ hqOurs s = true ∧ hqRx s ≠ 0 ∧ p =
      s.fld R.TP_HRX_PROD 7 0 ∧ (p + 1) % hqRx s ≠ s.fld R.TP_HRX_CONS 7 0 ∧ m.payload.length ≤ 256) ∧
    (∃ (s : State) (q : Fin 4) (h : ZHead) (m : DataMsg) (a : BitVec 12), tpUsable s q = true ∧ h.hops ≠ 0 ∧ isOwn s h = false ∧
      fromSiteMaster s q h.src = false ∧ s.tp.addr = some a ∧ dataTarget s m = some a ∧ (hqOurs s = false ∨ (s.fld R.TP_HRX_PROD 7 0
      + 1) % hqRx s = s.fld R.TP_HRX_CONS 7 0)) ∧
    (∃ (s : State) (q : Fin 4) (h : ZHead) (m : BcastMsg), tpUsable s q = true ∧ h.hops ≠ 0 ∧ isOwn s h = false ∧ tpRole s = 1 ∧
      s.tp.acting = false ∧ bcastScope s h.src m.scope = false) ∧
    (∃ (s : State) (q : Fin 4) (h : ZHead) (m : BcastMsg) (p : Nat), tpUsable s q = true ∧ h.hops ≠ 0 ∧ isOwn s h = false ∧ tpRole s
      = 1 ∧ s.tp.acting = false ∧ bcastScope s h.src m.scope = true ∧ hqOurs s = true ∧ hqRx s ≠ 0 ∧ p = s.fld R.TP_HRX_PROD 7 0 ∧ (p
      + 1) % hqRx s ≠ s.fld R.TP_HRX_CONS 7 0 ∧ m.payload.length ≤ 256) ∧
    (∃ (s : State) (i : Initiator) (v : Word), s.mayWrite i R.TP_HTX_PROD = true ∧ (hqOurs s = false ∨ hqTx s = 0 ∨ tpOn s = false ∨
      bits v 7 0 = s.fld R.TP_HTX_CONS 7 0 ∧ bits v 7 0 < hqTx s)) ∧
    (∃ (s : State) (i : Initiator) (v : Word), s.mayWrite i R.TP_HTX_PROD = true ∧ hqOurs s = true ∧ hqTx s ≠ 0 ∧ tpOn s = true) :=
  ⟨⟨w15Tp 1 fun t => { t with addr := none }, 1, w15H, ⟨0x123, 0, [5]⟩, by decide +kernel⟩,
   ⟨w15Hq, 1, w15H, ⟨0x123, 0, [5, 6]⟩, 0x123, 0, by decide +kernel⟩,
   ⟨w15Hq.setReg R.TP_HRX_CONS 1#32, 1, w15H, ⟨0x123, 0, [5, 6]⟩, 0x123, by decide +kernel⟩,
   ⟨w15Tp 1, 1, { w15H with src := 0x224 }, ⟨.zone, [5]⟩, by decide +kernel⟩,
   ⟨w15Hq, 1, w15H, ⟨.cell, [5, 6]⟩, 0, by decide +kernel⟩,
   ⟨w15Tp 1, .k0, 3, by decide +kernel⟩,
   ⟨w15Hq, .k0, 3, by decide +kernel⟩⟩

theorem wit_FabricTime :
    (∃ (s : State) (q : Fin 4) (tb : TimeBase) (o : BitVec 64) (g : BitVec 12), timeEnabled s tb = true ∧ isGm s tb = false ∧
      tpUsable s q = true ∧ s.tp.servos[servoIdx tb].state = .free) ∧
    (∃ (s : State) (q : Fin 4) (tb : TimeBase) (o : BitVec 64) (g : BitVec 12), timeEnabled s tb = true ∧ isGm s tb = false ∧
      tpUsable s q = true ∧ (s.tp.servos[servoIdx tb].state = .acquire ∨ s.tp.servos[servoIdx tb].state = .locked) ∧
      s.tp.servos[servoIdx tb].gm ≠ g) ∧
    (∃ (s : State) (q : Fin 4) (tb : TimeBase) (o : BitVec 64) (g : BitVec 12), timeEnabled s tb = true ∧ isGm s tb = false ∧
      tpUsable s q = true ∧ s.tp.servos[servoIdx tb].state = .holdover ∧ s.tp.servos[servoIdx tb].run = 7) ∧
    (∃ (s : State) (q : Fin 4) (tb : TimeBase) (o : BitVec 64) (g : BitVec 12), timeEnabled s tb = true ∧ isGm s tb = false ∧
      tpUsable s q = true ∧ s.tp.servos[servoIdx tb].state = .acquire ∧ s.tp.servos[servoIdx tb].gm = g ∧ ((o.toInt - (BitVec.ofNat
      16 (s.fld (R.TPq_ASYM q) 15 0)).toInt)).natAbs < 10 * s.fld R.TP_TOFF_LIM 7 0 ∧ s.tp.servos[servoIdx tb].run = 15) ∧
    (∃ (s : State) (q : Fin 4) (tb : TimeBase) (o : BitVec 64) (g : BitVec 12), timeEnabled s tb = true ∧ isGm s tb = false ∧
      tpUsable s q = true ∧ s.tp.servos[servoIdx tb].state = .locked ∧ s.tp.servos[servoIdx tb].gm = g ∧ 10 * s.fld R.TP_TOFF_LIM 7 0
      < ((o.toInt - (BitVec.ofNat 16 (s.fld (R.TPq_ASYM q) 15 0)).toInt)).natAbs ∧ s.tp.servos[servoIdx tb].run = 7) ∧
    (∃ (s : State) (q : Fin 4) (tb : TimeBase) (o : BitVec 64) (g : BitVec 12), timeEnabled s tb = true ∧ isGm s tb = true ∧ tpUsable
      s q = true) ∧
    (∃ (s : State) (tb : TimeBase), timeEnabled s tb = true ∧ isGm s tb = false ∧ (s.tp.servos[servoIdx tb].state = .acquire ∨
      s.tp.servos[servoIdx tb].state = .locked) ∧ s.tp.servos[servoIdx tb].lastSync + 3 * (750000000 / 2 ^ s.fld R.TP_TIME_CFG 2 0) ≤
      s.cycle) ∧
    (∃ (s : State) (tb : TimeBase), (s.reg R.TB_HOLD_MAX).toNat < holdAge s (servoIdx tb) ∧ s.bc.levels.contains 111#7 = false) ∧
    (∃ (s : State), tpOn s = true ∧ tpRole s = 3 ∧ s.flag R.TP_CFG 3 = true ∧ s.tp.acting = false ∧ s.tp.siteSeenAt + msCycles (s.fld
      R.TP_CFG 25 16) ≤ s.cycle) :=
  ⟨⟨w15Sv .free, 0, .site, 20000, 0x111, by decide +kernel⟩,
   ⟨w15Sv .locked, 0, .site, 0, 0x112, by decide +kernel⟩,
   ⟨w15Sv .holdover fun v => { v with run := 7 }, 0, .site, 0, 0x112, by decide +kernel⟩,
   ⟨w15Sv .acquire fun v => { v with run := 15 }, 0, .site, 99, 0x111, by decide +kernel⟩,
   ⟨w15Sv .locked fun v => { v with run := 7 }, 0, .site, 101, 0x111, by decide +kernel⟩,
   ⟨(w15Sv .free).setReg R.TP_CFG 0x104#32, 0, .site, 20000, 0x111, by decide +kernel⟩,
   ⟨w15Sv .locked fun v => { v with lastSync := 0 }, .site, by decide +kernel⟩,
   ⟨w15Sv .holdover fun v => { v with holding := some 0 }, .site, by decide +kernel⟩,
   ⟨(w15Tp 3).setReg R.TP_CFG 0x000A010B#32, by decide +kernel⟩⟩

theorem wit_KeeperChecksHaltsAndWindows :
    (∃ (s : State) (k : Fin 2) (w : BitVec 16), pairChecked s k = true ∧ w.toNat / 16 % 4 = 3) ∧
    (∃ (s : State) (k : Fin 2) (w : BitVec 16), pairChecked s k = true ∧ (w.toNat / 16 % 4 = 1 ∨ w.toNat / 16 % 4 = 2)) ∧
    (∃ (s : State) (k : Fin 2), pairChecked s k = true) ∧
    (∃ (s : State) (k : Fin 2) (w : BitVec 16), (pairChecked s k = false ∨ w.toNat / 16 % 4 = 0)) ∧
    (∃ (s : State) (i : Initiator) (k : Fin 2) (n : Fin 4) (v : Word), i = pairInit k ∧ s.admitted i = true) ∧
    (∃ (s : State) (i : Initiator) (k : Fin 2) (n : Fin 4) (v : Word), s.scrapped = false ∧ isKeeper i = true ∧ i ≠ pairInit k) ∧
    (∃ (s : State) (k : Fin 2) (n : Fin 4) (v : Word), s.scrapped = false) ∧
    (∃ (s : State) (k : Fin 2) (a : Word) (w : Bool), s.admitted (pairInit k) = true ∧ a.getLsbD 31 = false) ∧
    (∃ (s : State) (k : Fin 2) (a : Word) (w : Bool), s.admitted (pairInit k) = true ∧ a.getLsbD 31 = true ∧ s.flag (R.KC_Kp_KWn_CFG
      k (bits a 30 29)) 0 = true ∧ (w = true → s.flag (R.KC_Kp_KWn_CFG k (bits a 30 29)) 1 = true)) ∧
    (∃ (s : State) (k : Fin 2) (a : Word) (w : Bool), s.scrapped = false ∧ a.getLsbD 31 = true ∧ (s.flag (R.KC_Kp_KWn_CFG k (bits a
      30 29)) 0 = false ∨ (w = true ∧ s.flag (R.KC_Kp_KWn_CFG k (bits a 30 29)) 1 = false))) ∧
    (∃ (s : State) (k : Fin 2) (a : Word) (w : Bool), s.scrapped = false ∧ s.admitted (pairInit k) = false) ∧
    (∃ (s : State) (k : Fin 2), pairChecked s k = false) ∧
    (∃ (s : State) (k : Fin 2), pairChecked s k = true ∧ s.se.life = .field) ∧
    (∃ (s : State) (k : Fin 2), pairChecked s k = true ∧ s.se.life ≠ .field ∧ s.se.life ≠ .scrapped) ∧
    (∃ (s : State) (k : Fin 2), s.kc.pairs[k] = .halted) ∧
    (∃ (s : State) (n : Fin 8), s.se.life ≠ .scrapped ∧ s.kc.harbourHalted.contains n = false) ∧
    (∃ (s : State) (c : HaltTarget), s.se.life = .scrapped) :=
  ⟨⟨w16Kp, 1, 0x37, by decide +kernel⟩,
   ⟨w16Kp, 1, 0x21, by decide +kernel⟩,
   ⟨w16Kp, 1, by decide +kernel⟩,
   ⟨w16Kp fun x => { x with pairs := x.pairs.set 1 .halted }, 1, 0x31, by decide +kernel⟩,
   ⟨w16Kp, .k1, 1, 3, 0xFFFFFFFF#32, by decide +kernel⟩,
   ⟨w16Kp, .k0, 1, 3, 0xFFFFFFFF#32, by decide +kernel⟩,
   ⟨w16Kp, 1, 3, 0xFFFFFFFF#32, by decide +kernel⟩,
   ⟨w16Kp, 1, 0x7FFFFFFF#32, true, by decide +kernel⟩,
   ⟨w16Kp.setReg (R.KC_Kp_KWn_CFG 1 3) 0x07FF0001#32, 1, 0xFFFFFFFF#32, false, by decide +kernel⟩,
   ⟨w16Kp.setReg (R.KC_Kp_KWn_CFG 1 3) 0x07FF0001#32, 1, 0xFFFFFFFF#32, true, by decide +kernel⟩,
   ⟨w16Kp fun x => { x with pairs := x.pairs.set 1 .lost }, 1, 0#32, true, by decide +kernel⟩,
   ⟨w16Kp fun x => { x with pairs := x.pairs.set 1 .halted }, 1, by decide +kernel⟩,
   ⟨{ w16Kp with se := { State.reset.se with life := .field }, barges := [{ newEntry 77 ⟨0, 0⟩ 0x1020009#32 0#32 with stage := .delivered }, { newEntry 78 ⟨0, 0⟩ 0x1020009#32 0#32 with lamp := some 7 }] },
     1, by decide +kernel⟩,
   ⟨{ w16Kp with se := { State.reset.se with life := .service } }, 1, by decide +kernel⟩,
   ⟨w16Kp fun x => { x with pairs := x.pairs.set 1 .halted }, 1, by decide +kernel⟩,
   ⟨w16Kp.setReg (R.WDTw_CFG 3) 0x13#32, 7, by decide +kernel⟩,
   ⟨{ w16Kp with se := { State.reset.se with life := .scrapped } }, .harbour 3, by decide +kernel⟩⟩

theorem wit_LanternCountersWindowsAndDumps :
    (∃ (s : State) (i : Initiator) (u : Fin 64) (k : Fin 8) (v : Word), u.val < 60 ∧ s.mayWrite i (R.LNu_EVSELk u k) = true) ∧
    (∃ (s : State) (i : Initiator) (u : Fin 64) (k : Fin 8) (v : Word), 60 ≤ u.val ∧ s.mayWrite i (R.LNu_EVSELk u k) = true) ∧
    (∃ (s : State) (i : Initiator) (u : Fin 64), s.mayWrite i (R.LNu_CTL u) = true) ∧
    (∃ (s : State) (i : Initiator) (u : Fin 64) (f : Bool), s.mayWrite i (R.LNu_CTL u) = true) ∧
    (∃ (s : State) (i : Initiator) (v : Word), s.mayWrite i (R.LN_BW_WIN) = true ∧ v &&& 0xFFFFF#32 ≠ 0) ∧
    (∃ (s : State) (i : Initiator) (v : Word), s.mayWrite i (R.LN_BW_WIN) = true ∧ v &&& 0xFFFFF#32 = 0) ∧
    (∃ (s : State) (w : Nat), w = s.fld R.LN_BW_WIN 19 0 ∧ s.ln.bwSince + usCycles w ≤ s.cycle) ∧
    (∃ (s : State), s.cycle < s.ln.bwSince + usCycles (s.fld R.LN_BW_WIN 19 0)) ∧
    (∃ (s : State) (q : Fin 4) (pcs : Bool), tpUsable s q = true ∧ (∀ k : Fin 8, lnChained s (lnTp q) k = false)) ∧
    (∃ (s : State) (i : Initiator) (v : Word), s.mayWrite i (R.LN_DUMP_NOW) = true ∧ v = 1 ∧ s.flag R.LN_DUMP_CFG 6 = true ∧
      s.ln.dumpBusy = false) ∧
    (∃ (s : State) (i : Initiator) (v : Word), s.mayWrite i (R.LN_DUMP_NOW) = true ∧ v = 1 ∧ s.flag R.LN_DUMP_CFG 6 = true ∧
      s.ln.dumpBusy = true) ∧
    (∃ (s : State) (b : List Byte) (h : Nat) (a : Nat), s.ln.dump = some b ∧ h = s.fld R.LN_DUMP_HEAD 5 0 ∧ a = 0x20000000 + 0x80000
      * s.fld R.LN_DUMP_CFG 5 0 + 0x2000 * h ∧ banksAdmit s .lantern true a b.length = true) ∧
    (∃ (s : State) (b : List Byte) (h : Nat) (a : Nat), s.ln.dump = some b ∧ h = s.fld R.LN_DUMP_HEAD 5 0 ∧ a = 0x20000000 + 0x80000
      * s.fld R.LN_DUMP_CFG 5 0 + 0x2000 * h ∧ banksAdmit s .lantern true a b.length = false) ∧
    (∃ (s : State), s.ln.dump = none) ∧
    (∃ (s : State) (i : Initiator) (v : Word), s.mayWrite i (R.LN_DUMP_NOW) = true ∧ (v ≠ 1 ∨ s.flag R.LN_DUMP_CFG 6 = false)) :=
  ⟨⟨w16Ln, .k0, 59, 7, 0xFFFFFFFF#32, by decide +kernel⟩,
   ⟨w16Ln, .k0, 63, 7, 0xFFFFFFFF#32, by decide +kernel⟩,
   ⟨w16Ln fun l => { l with cnt := l.cnt.set 63 (Vector.replicate 8 5) }, .k0, 63, by decide +kernel⟩,
   ⟨w16Ln, .k0, 63, true, by decide +kernel⟩,
   ⟨w16Ln, .k0, 1#32, by decide +kernel⟩,
   ⟨w16Ln, .k0, 0x100000#32, by decide +kernel⟩,
   ⟨w16Ln fun l => { l with bwBytes := l.bwBytes.set 59 (123456, 99999) }, 1000, by decide +kernel⟩,
   ⟨w16Ln fun l => { l with bwSince := 74999999 }, by decide +kernel⟩,
   ⟨{ ((((w16Ln.setReg R.LN_CTRL 1#32).setReg (R.LNu_EVSELk 59 7) 0x124#32).setReg R.TP_CFG 0x100#32).setReg (R.TPq_CFG 3) 1#32) with tp := { State.reset.tp with upAt := some 0 } },
     3, true, by decide +kernel⟩,
   ⟨w16Ln, .k0, 1#32, by decide +kernel⟩,
   ⟨w16Ln fun l => { l with dumpBusy := true }, .k0, 1#32, by decide +kernel⟩,
   ⟨let s := (w16Ln fun l => { l with dump := some [5, 6], dumpBusy := true }).setReg R.LN_DUMP_HEAD 63#32;
     { s with bs := { s.bs with banks := s.bs.banks.set 63 ⟨6, none, false, 0, false, 0, 0, none⟩ } }, [5, 6], 63, 0x21FFE000,
     by decide +kernel⟩,
   ⟨(w16Ln fun l => { l with dump := some [5, 6], dumpBusy := true }).setReg R.LN_DUMP_HEAD 63#32, [5, 6], 63, 0x21FFE000,
     by decide +kernel⟩,
   ⟨w16Ln, by decide +kernel⟩,
   ⟨w16Ln, .k0, 2#32, by decide +kernel⟩⟩

theorem wit_RegisterWrites :
    (∃ (s : State) (i : Initiator) (a : Nat) (v : Word) (r : RegRow), inRegWindow a = true ∧ a % 4 = 0 ∧ isStaged (homeAddr a) =
      false ∧ (writeRoute i a v s).isNone = true ∧ regRow a = some r ∧ r.keeper = false ∧ s.mayWrite i a = true ∧ (instanceAt
      (R.SE_TOKENn 0) 4 32 a).isNone = true) ∧
    (∃ (s : State) (i : Initiator) (a : Nat) (v : Word) (r : RegRow), inRegWindow a = true ∧ a % 4 = 0 ∧ isStaged (homeAddr a) =
      false ∧ (writeRoute i a v s).isNone = true ∧ regRow a = some r ∧ r.keeper = true ∧ isKeeper i = true ∧ s.admitted i = true ∧
      (instanceAt (R.SE_TOKENn 0) 4 32 a).isNone = true) ∧
    (∃ (s : State) (i : Initiator) (n : Fin 32) (v : Word), s.mayWrite i (R.SE_TOKENn n) = true) ∧
    (∃ (s : State) (i : Initiator) (a : Nat) (v : Word), inRegWindow a = true ∧ a % 4 = 0 ∧ isStaged (homeAddr a) = false ∧
      (writeRoute i a v s).isNone = true ∧ regRow a = none ∧ s.scrapped = false ∧ isKeeper i = false ∧ s.mayWrite i a = false) ∧
    (∃ (s : State) (i : Initiator) (a : Nat) (v : Word), inRegWindow a = true ∧ a % 4 = 0 ∧ isStaged (homeAddr a) = false ∧
      (writeRoute i a v s).isNone = true ∧ regRow a = none ∧ s.mayWrite i a = true) ∧
    (∃ (s : State) (i : Initiator) (a : Nat) (v : Word) (n : Nat), s.scrapped = false ∧ inRegWindow a = true ∧ (n ≠ 4 ∨ a % 4 ≠ 0)) ∧
    (∃ (s : State) (i : Initiator) (a : Nat) (v : Word) (n : Nat), s.scrapped = false ∧ inRegWindow a = false) ∧
    (∃ (s : State) (i : Initiator) (a : Nat) (v : Word) (r : RegRow), inRegWindow a = true ∧ a % 4 = 0 ∧ isStaged (homeAddr a) =
      false ∧ (writeRoute i a v s).isNone = true ∧ regRow a = some r ∧ s.scrapped = false ∧ i = .harbour ∧ (r.keeper = true ∨
      s.mayWrite i a = false)) :=
  ⟨⟨State.reset.setReg R.SE_IRQ_STAT 15#32, .k0, R.SE_IRQ_STAT, 9#32, (regRow R.SE_IRQ_STAT).getD ⟨"", 0, [], 0, false, 0, 0, 0, 0,
     0, 0⟩, by decide +kernel⟩,
   ⟨State.reset, .k1, R.HD_REC_PUTn 14, 0xFFFFFFFF#32, (regRow (R.HD_REC_PUTn 14)).getD ⟨"", 0, [], 0, false, 0, 0, 0, 0, 0, 0⟩,
     by decide +kernel⟩,
   ⟨State.reset, .k1, 31, 0xFFFFFFFF#32, by decide +kernel⟩,
   ⟨State.reset, .harbour, 0x30900FFC, 0xFFFFFFFF#32, by decide +kernel⟩,
   ⟨State.reset, .k1, 0x30900FFC, 0xFFFFFFFF#32, by decide +kernel⟩,
   ⟨State.reset, .harbour, R.SE_IRQ_STAT + 2, 0xFFFFFFFF#32, 4, by decide +kernel⟩,
   ⟨State.reset, .k0, 0x38000000, 0xFFFFFFFF#32, 4, by decide +kernel⟩,
   ⟨State.reset, .harbour, R.HD_REC_PUTn 3, 1#32, (regRow (R.HD_REC_PUTn 3)).getD ⟨"", 0, [], 0, false, 0, 0, 0, 0, 0, 0⟩,
     by decide +kernel⟩⟩

end Sys2Proof.Tests
end

/-! # Milepost: encoders, time, timers, captures and posts (O13, O14, O15)

The rules come first, one per operation of Machine/Milepost.lean and Machine/Posts.lean: what a register, an encoder or the schedule shows
after it, which error line it asserts, and what it can change (`…_onlyChanges`). The three obligations are put together from them at the
end of each part. -/

namespace Sys2Proof.Machine.MilepostLaws

/-! ## Shared operations -/

theorem foldN_succ {α : Type} (n : Nat) (f : α → Nat → α) (a : α) : foldN (n + 1) f a = f (foldN n f a) n := by
  simp [foldN, List.range_succ]

/-- What every step of a fold keeps, the fold keeps. -/
theorem foldN_induction {α : Type} {P : α → Prop} {f : α → Nat → α} {a : α} (n : Nat) (h : P a) (hf : ∀ x k, P x → P (f x k)) :
    P (foldN n f a) := by
  induction n with
  | zero => exact h
  | succ n ih => rw [foldN_succ]; exact hf _ _ ih

theorem level_reg (s : State) (src : Nat) (on : Bool) (k : Nat) : (s.level src on).reg k = s.reg k := by
  unfold State.level
  split
  · split <;> rfl
  · rfl

theorem level_mp (s : State) (src : Nat) (on : Bool) : (s.level src on).mp = s.mp := by
  unfold State.level
  split
  · split <;> rfl
  · rfl

theorem setReg64_reg64 (s : State) (a : Nat) (v : DWord) : (s.setReg64 a v).reg64 a = v := by
  have hlo : ((s.setReg a (v.setWidth 32)).setReg (a + 4) ((v >>> 32).setWidth 32)).reg a = v.setWidth 32 := by
    rw [State.setReg_reg_ne _ _ (by omega), State.setReg_reg_same]
  unfold State.reg64 State.setReg64
  rw [State.setReg_reg_same, hlo]
  ext i hi
  simp only [BitVec.getElem_append, BitVec.getElem_setWidth, BitVec.getLsbD_ushiftRight]
  split
  · next h => rw [BitVec.getLsbD_eq_getElem]
  · next h => rw [show 32 + (i - 32) = i by omega, BitVec.getLsbD_eq_getElem]

theorem reg64_congr {s t : State} {a : Nat} (hlo : t.reg a = s.reg a) (hhi : t.reg (a + 4) = s.reg (a + 4)) : t.reg64 a = s.reg64 a := by
  rw [State.reg64, State.reg64, hlo, hhi]

theorem setReg64_reg_ne (s : State) {a k : Nat} (v : DWord) (h : k ≠ a) (h4 : k ≠ a + 4) : (s.setReg64 a v).reg k = s.reg k :=
  (State.setReg_reg_ne _ _ h4).trans (State.setReg_reg_ne _ _ h)

/-- `raise` asserts its line, in the cycle and after the lines of the state it started from. -/
theorem asserts_raise {s t : State} (src chan : Nat) (hb : t.bc = s.bc) (hc : t.cycle = s.cycle) : Asserts s (t.raise src chan) src chan := by
  rw [Asserts, ← hb, ← hc]
  exact ⟨_, _, rfl⟩

/-! ## Encoders (R33 to R38) -/

/-! ### An encoder's own state -/

theorem updEnc_same (s : State) (n : Fin 4) (f : Encoder → Encoder) : (updEnc s n f).mp.encs[n] = f s.mp.encs[n] :=
  Vector.getElem_set_self n.isLt

theorem updEnc_ne (s : State) {n k : Fin 4} (f : Encoder → Encoder) (h : k ≠ n) : (updEnc s n f).mp.encs[k] = s.mp.encs[k] :=
  Vector.getElem_set_ne n.isLt k.isLt fun e => h (Fin.ext e.symm)

@[simp] theorem updEnc_reg (s : State) (n : Fin 4) (f : Encoder → Encoder) (k : Nat) : (updEnc s n f).reg k = s.reg k := rfl

/-- What every encoder keeps under a change of one. -/
theorem updEnc_congr {α : Type} (g : Encoder → α) {s : State} {n : Fin 4} {f : Encoder → Encoder} (hf : g (f s.mp.encs[n]) = g s.mp.encs[n])
    (k : Fin 4) : g (updEnc s n f).mp.encs[k] = g s.mp.encs[k] := by
  by_cases h : k = n
  · rw [h, updEnc_same, hf]
  · rw [updEnc_ne s f h]

theorem updEnc_onlyChanges {o s : State} {r : List Nat} {p : List Part} {m : List (Nat × Nat)} {n : Fin 4} {f : Encoder → Encoder}
    (h : OnlyChanges o s r p m) (hp : Part.mp ∈ p) : OnlyChanges o (updEnc s n f) r p m := h.mp hp

/-! ### What the meanings read of the state -/

theorem encEnabled_congr {s t : State} {n : Fin 4} (h : t.reg (R.ENCn_CFG n) = s.reg (R.ENCn_CFG n)) : encEnabled t n = encEnabled s n := by
  rw [encEnabled, encEnabled, State.flag, State.flag, h]

theorem encPresent_congr {s t : State} {n : Fin 4} (h : t.reg (R.ENCn_CFG n) = s.reg (R.ENCn_CFG n))
    (hl : t.mp.encs[n].lost = s.mp.encs[n].lost) : encPresent t n = encPresent s n := by
  rw [encPresent, encPresent, encEnabled_congr h, hl]

/-- The source of TRAVEL depends on MP_CTRL, the encoders' configurations and their losses alone. -/
theorem travelSource_congr {s t : State} (hm : t.reg R.MP_CTRL = s.reg R.MP_CTRL)
    (hc : ∀ k : Fin 4, t.reg (R.ENCn_CFG k) = s.reg (R.ENCn_CFG k)) (hl : ∀ k : Fin 4, t.mp.encs[k].lost = s.mp.encs[k].lost) :
    travelSource t = travelSource s := by
  have hpri : priEnc t = priEnc s := by rw [priEnc, priEnc, State.fld, State.fld, hm]
  have hsec : secEnc t = secEnc s := by rw [secEnc, secEnc, State.fld, State.fld, hm]
  simp only [travelSource, hpri, hsec, encPresent_congr (hc _) (hl _)]

theorem encScale_congr {s t : State} {n : Fin 4} (hlo : t.reg (R.ENCn_SCALE_LO n) = s.reg (R.ENCn_SCALE_LO n))
    (hhi : t.reg (R.ENCn_SCALE_LO n + 4) = s.reg (R.ENCn_SCALE_LO n + 4)) : encScale t n = encScale s n :=
  reg64_congr hlo hhi

/-! ### An encoder error -/

theorem encError_reg_same (s : State) (n : Fin 4) (b : Nat) :
    (encError s n b).reg (R.ENCn_STAT n) = s.reg (R.ENCn_STAT n) ||| BitVec.ofNat 32 (2 ^ b) := State.setBit_reg_same _ _ _

theorem encError_asserts {s t : State} (n : Fin 4) (b : Nat) (hb : t.bc = s.bc) (hc : t.cycle = s.cycle) :
    Asserts s (encError t n b) 104 n.val := asserts_raise 104 n hb hc

theorem encError_onlyChanges {o s : State} {r : List Nat} {p : List Part} {m : List (Nat × Nat)} {n : Fin 4} {b : Nat}
    (h : OnlyChanges o s r p m) (hr : R.ENCn_STAT n ∈ r) (hp : Part.bc ∈ p) : OnlyChanges o (encError s n b) r p m :=
  (h.setBit hr).raise hp

/-! ### Movement and TRAVEL -/

/-- Hysteresis touches the direction and the reversed run alone. -/
theorem hystMove_levels (h : Nat) (e : Encoder) (reverse : Bool) (m : Nat) :
    (hystMove h e reverse m).1.a = e.a ∧ (hystMove h e reverse m).1.b = e.b := by
  unfold hystMove
  split
  · exact ⟨rfl, rfl⟩
  · split <;> exact ⟨rfl, rfl⟩

/-- Without a reversed run, counts in the encoder's direction are all travel. -/
theorem hystMove_onward {h : Nat} {e : Encoder} (m : Nat) (he : e.rev = 0) : (hystMove h e e.dir m).2 = m := by
  simp [hystMove, he]

/-- `addTravel` writes TRAVEL and its fraction, and nothing else. -/
theorem addTravel_eq (s : State) (counts : Nat) (scale : DWord) :
    ∃ x y, addTravel s counts scale = { s with mp := { s.mp with travel := x, travelFrac := y } } := ⟨_, _, rfl⟩

/-- TRAVEL with its fraction grows by the scaled counts, over 96 bits (R35). -/
theorem addTravel_toNat (s : State) (counts : Nat) (scale : DWord) :
    ((addTravel s counts scale).mp.travel ++ (addTravel s counts scale).mp.travelFrac).toNat =
      ((s.mp.travel ++ s.mp.travelFrac).toNat + counts * scale.toNat) % 2 ^ 96 := by
  have join (x : DWord) (y : Word) : (x ++ y).toNat = x.toNat * 2 ^ 32 + y.toNat := by
    rw [BitVec.toNat_append, ← Nat.shiftLeft_add_eq_or_of_lt y.isLt, Nat.shiftLeft_eq]
  simp only [join, addTravel, BitVec.toNat_ofNat]
  omega

theorem encMove_reg (s : State) (n : Fin 4) (reverse : Bool) (m k : Nat) : (encMove s n reverse m).reg k = s.reg k := by
  unfold encMove
  dsimp only
  split
  · obtain ⟨x, y, h⟩ := addTravel_eq _ _ _
    rw [h]
    rfl
  · rfl

/-- The movement of an encoder leaves the encoders as `updEnc` does. -/
theorem encMove_encs (s : State) (n : Fin 4) (reverse : Bool) (m : Nat) :
    ∃ x, (encMove s n reverse m).mp.encs =
      (updEnc s n fun e => { (hystMove (s.fld (R.ENCn_CFG n) 11 8) e reverse m).1 with moved := x }).mp.encs := by
  unfold encMove
  dsimp only
  split
  · obtain ⟨x, y, h⟩ := addTravel_eq _ _ _
    rw [h]
    exact ⟨_, rfl⟩
  · exact ⟨_, rfl⟩

theorem encMove_ne (s : State) {n k : Fin 4} (reverse : Bool) (m : Nat) (h : k ≠ n) :
    (encMove s n reverse m).mp.encs[k] = s.mp.encs[k] := by
  obtain ⟨x, hx⟩ := encMove_encs s n reverse m
  rw [hx, updEnc_ne s _ h]

theorem encMove_levels (s : State) (n : Fin 4) (reverse : Bool) (m : Nat) :
    (encMove s n reverse m).mp.encs[n].a = s.mp.encs[n].a ∧ (encMove s n reverse m).mp.encs[n].b = s.mp.encs[n].b := by
  obtain ⟨x, hx⟩ := encMove_encs s n reverse m
  obtain ⟨ha, hb⟩ := hystMove_levels (s.fld (R.ENCn_CFG n) 11 8) s.mp.encs[n] reverse m
  rw [hx, updEnc_same]
  exact ⟨ha, hb⟩

/-- An encoder that TRAVEL does not follow moves no travel. -/
theorem encMove_of_not_source {s : State} {n : Fin 4} (reverse : Bool) (m : Nat) (h : travelSource s ≠ some n) :
    (encMove s n reverse m).mp.travel = s.mp.travel ∧ (encMove s n reverse m).mp.travelFrac = s.mp.travelFrac := by
  unfold encMove
  dsimp only
  rw [if_neg (by simp [h])]
  exact ⟨rfl, rfl⟩

/-- The source of TRAVEL, moving on in its direction, adds its scaled counts (R35). -/
theorem encMove_of_source {s : State} {n : Fin 4} (m : Nat) (h : travelSource s = some n) (hq : s.mp.quality ≠ .estimated)
    (hr : s.mp.encs[n].rev = 0) :
    let t := encMove s n s.mp.encs[n].dir m
    (t.mp.travel ++ t.mp.travelFrac).toNat = ((s.mp.travel ++ s.mp.travelFrac).toNat + m * (encScale s n).toNat) % 2 ^ 96 := by
  have hcounts := hystMove_onward (h := s.fld (R.ENCn_CFG n) 11 8) m hr
  simp only [encMove, h, bne_iff_ne, ne_eq, hq, not_false_eq_true, decide_true, Bool.true_and, if_true]
  rw [addTravel_toNat, hcounts]
  rfl

theorem addTravel_onlyChanges {o s : State} {r : List Nat} {p : List Part} {m : List (Nat × Nat)} {counts : Nat} {scale : DWord}
    (h : OnlyChanges o s r p m) (hp : Part.mp ∈ p) : OnlyChanges o (addTravel s counts scale) r p m := h.mp hp

theorem encMove_onlyChanges {o s : State} {r : List Nat} {p : List Part} {m : List (Nat × Nat)} {n : Fin 4} {reverse : Bool} {k : Nat}
    (h : OnlyChanges o s r p m) (hp : Part.mp ∈ p) : OnlyChanges o (encMove s n reverse k) r p m := by
  have hu := fun f => updEnc_onlyChanges (n := n) (f := f) h hp
  exact .ite (addTravel_onlyChanges ((hu _).mp hp) hp) (hu _)

/-! ### QUADRATURE_EDGE -/

/-- The direction of a count. -/
def quadReverse (s : State) (n : Fin 4) (a b : Bool) : Bool := (!edgeForward s.mp.encs[n] a b) != s.flag (R.ENCn_CFG n) 2

/-- The state with a count and the new levels taken, before the movement. -/
def quadSample (s : State) (n : Fin 4) (a b : Bool) : State :=
  updEnc (s.setReg (R.ENCn_COUNT n) (if quadReverse s n a b then s.reg (R.ENCn_COUNT n) - 1 else s.reg (R.ENCn_COUNT n) + 1)) n
    fun e => { e with a := a, b := b, zCount := e.zCount + 1 }

theorem quadCount_eq (s : State) (n : Fin 4) (a b : Bool) : quadCount s n a b = encMove (quadSample s n a b) n (quadReverse s n a b) 1 := rfl

theorem quadSample_encs (s : State) (n : Fin 4) (a b : Bool) :
    (quadSample s n a b).mp.encs[n] = { s.mp.encs[n] with a := a, b := b, zCount := s.mp.encs[n].zCount + 1 } := updEnc_same _ n _

theorem quadSample_reg_ne (s : State) (n : Fin 4) (a b : Bool) {k : Nat} (h : k ≠ R.ENCn_COUNT n) :
    (quadSample s n a b).reg k = s.reg k := State.setReg_reg_ne s _ h

theorem quadSample_travelSource (s : State) (n : Fin 4) (a b : Bool) : travelSource (quadSample s n a b) = travelSource s := by
  refine travelSource_congr (quadSample_reg_ne s n a b ?_) (fun k => quadSample_reg_ne s n a b ?_) (updEnc_congr Encoder.lost rfl)
  all_goals simp only [R.MP_CTRL, R.ENCn_CFG, R.ENCn_COUNT]; omega

theorem quadSample_encScale (s : State) (n : Fin 4) (a b : Bool) : encScale (quadSample s n a b) n = encScale s n := by
  refine encScale_congr (quadSample_reg_ne s n a b ?_) (quadSample_reg_ne s n a b ?_)
  all_goals simp only [R.ENCn_SCALE_LO, R.ENCn_COUNT]; omega

theorem quadCount_count (s : State) (n : Fin 4) (a b : Bool) : (quadCount s n a b).reg (R.ENCn_COUNT n) =
    if quadReverse s n a b then s.reg (R.ENCn_COUNT n) - 1 else s.reg (R.ENCn_COUNT n) + 1 := by
  rw [quadCount_eq, encMove_reg]
  exact State.setReg_reg_same _ _ _

theorem quadCount_levels (s : State) (n : Fin 4) (a b : Bool) :
    (quadCount s n a b).mp.encs[n].a = a ∧ (quadCount s n a b).mp.encs[n].b = b := by
  obtain ⟨ha, hb⟩ := encMove_levels (quadSample s n a b) n (quadReverse s n a b) 1
  rw [quadCount_eq, ha, hb, quadSample_encs]
  exact ⟨rfl, rfl⟩

theorem quadCount_ne (s : State) {n k : Fin 4} (a b : Bool) (h : k ≠ n) : (quadCount s n a b).mp.encs[k] = s.mp.encs[k] := by
  rw [quadCount_eq, encMove_ne _ _ _ h]
  exact updEnc_ne _ _ h

/-- One count onward of the source of TRAVEL is one ENCn_SCALE of travel (R35). -/
theorem quadCount_of_source {s : State} {n : Fin 4} {a b : Bool} (h : travelSource s = some n) (hq : s.mp.quality ≠ .estimated)
    (hd : s.mp.encs[n].dir = quadReverse s n a b) (hr : s.mp.encs[n].rev = 0) :
    ((quadCount s n a b).mp.travel ++ (quadCount s n a b).mp.travelFrac).toNat =
      ((s.mp.travel ++ s.mp.travelFrac).toNat + (encScale s n).toNat) % 2 ^ 96 := by
  have hdir : (quadSample s n a b).mp.encs[n].dir = quadReverse s n a b := by rw [quadSample_encs, hd]
  have hrev : (quadSample s n a b).mp.encs[n].rev = 0 := by rw [quadSample_encs, hr]
  have := encMove_of_source 1 ((quadSample_travelSource s n a b).trans h) hq hrev
  rwa [hdir, ← quadCount_eq, quadSample_encScale, Nat.one_mul] at this

theorem quadCount_of_not_source {s : State} {n : Fin 4} (a b : Bool) (h : travelSource s ≠ some n) :
    (quadCount s n a b).mp.travel = s.mp.travel ∧ (quadCount s n a b).mp.travelFrac = s.mp.travelFrac :=
  encMove_of_not_source _ 1 fun e => h ((quadSample_travelSource s n a b).symm.trans e)

theorem quadCount_onlyChanges (s : State) (n : Fin 4) (a b : Bool) : OnlyChanges s (quadCount s n a b) [R.ENCn_COUNT n] [.mp] [] :=
  encMove_onlyChanges (updEnc_onlyChanges (.setReg (.refl s _ _ _) (by simp)) (by simp)) (by simp)

theorem execQuadratureEdge_of_count {s : State} {n : Fin 4} {a b : Bool} (he : encEnabled s n = true) (hs : s.flag (R.ENCn_CFG n) 1 = false)
    (h : (a != s.mp.encs[n].a) = !(b != s.mp.encs[n].b)) : execQuadratureEdge n a b s = .next (quadCount s n a b) := by
  have table : ∀ x y : Bool, ((!x) = !(!y)) → (!x && !y) = false ∧ (x && y) = false := by decide
  obtain ⟨hboth, hnone⟩ := table (a == s.mp.encs[n].a) (b == s.mp.encs[n].b) h
  simp only [execQuadratureEdge, he, hs, bne, hboth, hnone, Bool.not_true, Bool.or_false, Bool.false_eq_true, if_false]

theorem execQuadratureEdge_of_illegal {s : State} {n : Fin 4} {a b : Bool} (he : encEnabled s n = true)
    (hs : s.flag (R.ENCn_CFG n) 1 = false) (ha : a ≠ s.mp.encs[n].a) (hb : b ≠ s.mp.encs[n].b) :
    execQuadratureEdge n a b s = .next (encError (updEnc s n fun e => { e with a := a, b := b }) n 0) := by
  have hboth : (a != s.mp.encs[n].a && b != s.mp.encs[n].b) = true := by
    rw [bne_iff_ne.mpr ha, bne_iff_ne.mpr hb, Bool.and_self]
  simp only [execQuadratureEdge, he, hs, hboth, Bool.not_true, Bool.or_false, Bool.false_eq_true, if_false, if_true]

theorem execQuadratureEdge_of_off {s : State} {n : Fin 4} (a b : Bool) (h : encEnabled s n = false ∨ s.flag (R.ENCn_CFG n) 1 = true) :
    execQuadratureEdge n a b s = .next (updEnc s n fun e => { e with a := a, b := b }) := by
  have : (!encEnabled s n || s.flag (R.ENCn_CFG n) 1) = true := by simpa using h
  rw [execQuadratureEdge, this, if_pos rfl]

/-! ### Z_PULSE -/

/-- A Z pulse taken: the count since the last pulse starts again. -/
def zTaken (s : State) (n : Fin 4) : State := updEnc s n fun e => { e with zSeen := true, zCount := 0 }

theorem zTaken_same (s : State) (n : Fin 4) : (zTaken s n).mp.encs[n].zCount = 0 ∧ (zTaken s n).mp.encs[n].zSeen = true := by
  rw [zTaken, updEnc_same]
  exact ⟨rfl, rfl⟩

theorem execZPulse_of_good {s : State} {n : Fin 4} (he : encEnabled s n = true) (hs : s.flag (R.ENCn_CFG n) 1 = false)
    (h : s.mp.encs[n].zCount = s.reg (R.ENCn_ZPER n)) :
    execZPulse n s = .next (zTaken s n) := by
  simp only [execZPulse, zTaken, he, hs, h, bne_self_eq_false, Bool.and_false, Bool.not_true, Bool.or_false, Bool.false_eq_true, if_false]

theorem execZPulse_of_bad {s : State} {n : Fin 4} (he : encEnabled s n = true) (hs : s.flag (R.ENCn_CFG n) 1 = false)
    (hz : s.flag (R.ENCn_CFG n) 3 = true) (hseen : s.mp.encs[n].zSeen = true) (h : s.mp.encs[n].zCount ≠ s.reg (R.ENCn_ZPER n)) :
    execZPulse n s = .next (encError (zTaken s n) n 1) := by
  simp only [execZPulse, zTaken, he, hs, hz, hseen, bne_iff_ne.mpr h, Bool.and_true, Bool.not_true, Bool.or_false, Bool.false_eq_true, if_false,
    if_true]

/-! ### SSI_READ -/

/-- The state of a read that is due, with the cycle of the read noted. -/
def ssiNoted (s : State) (n : Fin 4) : State := updEnc s n fun e => { e with ssiAt := some s.cycle }

/-- An encoder that has not moved is never too far. -/
theorem ssiTooFar_zero (s : State) (n : Fin 4) : ssiTooFar s n 0 = false := by simp [ssiTooFar]

/-- An accepted SSI value. -/
def ssiTaken (s : State) (n : Fin 4) (v : Word) : State := updEnc (ssiNoted s n) n fun e => { e with ssiRun := 0, ssiLast := some v }

theorem ssiTaken_same (s : State) (n : Fin 4) (v : Word) :
    (ssiTaken s n v).mp.encs[n].ssiLast = some v ∧ (ssiTaken s n v).mp.encs[n].ssiRun = 0 := by
  rw [ssiTaken, updEnc_same]
  exact ⟨rfl, rfl⟩

/-- A failed SSI read, counted in its run. -/
def ssiMissed (s : State) (n : Fin 4) : State := updEnc (ssiNoted s n) n fun e => { e with ssiRun := e.ssiRun + 1 }

theorem ssiMissed_same (s : State) (n : Fin 4) :
    (ssiMissed s n).mp.encs[n].ssiRun = s.mp.encs[n].ssiRun + 1 ∧ (ssiMissed s n).mp.encs[n].lost = s.mp.encs[n].lost := by
  rw [ssiMissed, updEnc_same, ssiNoted, updEnc_same]
  exact ⟨rfl, rfl⟩

/-- The first value of an SSI encoder is the count and moves nothing (R34). -/
theorem execSsiRead_of_first {s : State} {n : Fin 4} {f : SsiFrame} (hd : ssiDue s n = true) (he : f.err = false)
    (hl : f.stuckLow = false) (hf : s.mp.encs[n].ssiLast = none) :
    execSsiRead n f s = .next ((ssiTaken s n (ssiValue s n f)).setReg (R.ENCn_COUNT n) (ssiValue s n f)) := by
  simp only [execSsiRead, hd, updEnc_same, hf, he, hl, ssiTooFar_zero, Bool.and_false, Bool.or_false, Bool.not_true, Bool.false_eq_true,
    if_false, if_true]
  rfl

/-- A frame whose line stays low is an error; the first of a run loses nothing (R34). -/
theorem execSsiRead_of_stuck {s : State} {n : Fin 4} {f : SsiFrame} (hd : ssiDue s n = true) (hl : f.stuckLow = true)
    (hr : s.mp.encs[n].ssiRun = 0) :
    execSsiRead n f s = .next (encError (ssiMissed s n) n 2) := by
  simp only [execSsiRead, hd, updEnc_same, hl, hr, Bool.or_true, Bool.true_or, Bool.not_true, Bool.false_eq_true, if_false, if_true,
    Nat.reduceAdd, Nat.reduceLeDiff]
  rfl

/-! ### The quality, and the loss of an encoder -/

theorem setQuality_of_ne {s : State} {q : TravelQ} (h : q ≠ s.mp.quality) : setQuality s q =
    (({ s with mp := { s.mp with quality := q, singleSince := s.cycle } } : State).setBit R.MP_IRQ_STAT 3).raise 106 0 := if_neg h

theorem setQuality_onlyChanges {o s : State} {r : List Nat} {p : List Part} {m : List (Nat × Nat)} {q : TravelQ}
    (h : OnlyChanges o s r p m) (hr : R.MP_IRQ_STAT ∈ r) (hm : Part.mp ∈ p) (hb : Part.bc ∈ p) : OnlyChanges o (setQuality s q) r p m :=
  .ite h (((h.mp hm).setBit hr).raise hb)

theorem setQuality_enc (s : State) (q : TravelQ) (n : Fin 4) : (setQuality s q).mp.encs[n] = s.mp.encs[n] := by
  unfold setQuality
  split <;> rfl

theorem setQuality_travel (s : State) (q : TravelQ) : (setQuality s q).mp.travel = s.mp.travel := by
  unfold setQuality
  split <;> rfl

theorem loseEncoder_lost (s : State) (n : Fin 4) : (loseEncoder s n).mp.encs[n].lost = true := by
  have hupd : (updEnc s n fun e => { e with lost := true }).mp.encs[n].lost = true := by rw [updEnc_same]
  unfold loseEncoder
  split
  · next h => exact h
  · dsimp only
    split
    · rw [setQuality_enc, hupd]
    · exact hupd

theorem loseEncoder_travel (s : State) (n : Fin 4) : (loseEncoder s n).mp.travel = s.mp.travel := by
  unfold loseEncoder
  split
  · rfl
  · dsimp only
    split
    · exact setQuality_travel _ _
    · rfl

theorem loseEncoder_onlyChanges {o s : State} {r : List Nat} {p : List Part} {m : List (Nat × Nat)} {n : Fin 4}
    (h : OnlyChanges o s r p m) (hr : R.MP_IRQ_STAT ∈ r) (hm : Part.mp ∈ p) (hb : Part.bc ∈ p) : OnlyChanges o (loseEncoder s n) r p m := by
  have hu := updEnc_onlyChanges (n := n) (f := fun e => { e with lost := true }) h hm
  exact .ite h (.ite (setQuality_onlyChanges hu hr hm hb) hu)

theorem execEncoderLineFault_of_enabled {s : State} {n : Fin 4} (h : encEnabled s n = true) :
    execEncoderLineFault n s = .next (loseEncoder (encError s n 3) n) := by rw [execEncoderLineFault, if_pos h]

theorem execSingleTimeout_of_over {s : State} (hq : s.mp.quality = .single) (h : (s.reg R.SINGLE_T).toNat ≤ msSince s s.mp.singleSince) :
    execSingleTimeout s = .next (setQuality s .estimated) := by rw [execSingleTimeout, if_pos ⟨hq, h⟩]

/-! ### O13 -/

/-- Settles O13: each clause takes the command's meaning in its case and reads the result off the rules above. -/
theorem encodersCountReadAndAreLost : Obligations.EncodersCountReadAndAreLost := by
  unfold Obligations.EncodersCountReadAndAreLost
  refine ⟨?count, ?illegal, ?off, ?zGood, ?zBad, ?ssiFirst, ?ssiStuck, ?lineFault, ?single⟩
  case count =>
    intro s n a b he hs h
    obtain ⟨ha, hb⟩ := quadCount_levels s n a b
    refine ⟨_, execQuadratureEdge_of_count he hs h, quadCount_count s n a b, ha, hb, fun k hk => quadCount_ne s a b hk, ?_,
      quadCount_of_not_source a b, quadCount_onlyChanges s n a b⟩
    intro hsrc hq hd hr
    exact quadCount_of_source hsrc hq hd hr
  case illegal =>
    intro s n a b he hs ha hb
    exact ⟨_, execQuadratureEdge_of_illegal he hs ha hb, encError_reg_same _ n 0, encError_asserts n 0 rfl rfl, rfl,
      encError_onlyChanges (updEnc_onlyChanges (.refl s _ _ _) (by simp)) (by simp) (by simp)⟩
  case off =>
    intro s n a b h
    exact ⟨_, execQuadratureEdge_of_off a b h, updEnc_same _ n _, fun k hk => updEnc_ne _ _ hk, rfl,
      updEnc_onlyChanges (.refl s _ _ _) (by simp)⟩
  case zGood =>
    intro s n he hs _ _ h
    obtain ⟨hcount, hsaw⟩ := zTaken_same s n
    exact ⟨_, execZPulse_of_good he hs h, hcount, hsaw, fun k hk => updEnc_ne _ _ hk, updEnc_onlyChanges (.refl s _ _ _) (by simp)⟩
  case zBad =>
    intro s n he hs hz hseen h
    obtain ⟨hcount, -⟩ := zTaken_same s n
    exact ⟨_, execZPulse_of_bad he hs hz hseen h, encError_reg_same _ n 1, encError_asserts n 1 rfl rfl, hcount,
      encError_onlyChanges (updEnc_onlyChanges (.refl s _ _ _) (by simp)) (by simp) (by simp)⟩
  case ssiFirst =>
    intro s n f hd he hl hf
    obtain ⟨hlast, hrun⟩ := ssiTaken_same s n (ssiValue s n f)
    exact ⟨_, execSsiRead_of_first hd he hl hf, State.setReg_reg_same _ _ _, hlast, hrun, rfl,
      .setReg (updEnc_onlyChanges (updEnc_onlyChanges (.refl s _ _ _) (by simp)) (by simp)) (by simp)⟩
  case ssiStuck =>
    intro s n f hd hl hr
    obtain ⟨hrun, hlost⟩ := ssiMissed_same s n
    exact ⟨_, execSsiRead_of_stuck hd hl hr, encError_reg_same _ n 2, encError_asserts n 2 rfl rfl, hrun.trans (by rw [hr]), hlost,
      encError_onlyChanges (updEnc_onlyChanges (updEnc_onlyChanges (.refl s _ _ _) (by simp)) (by simp)) (by simp) (by simp)⟩
  case lineFault =>
    intro s n he
    have herr : OnlyChanges s (encError s n 3) [R.ENCn_STAT n, R.MP_IRQ_STAT] [.mp, .bc] [] :=
      encError_onlyChanges (.refl s _ _ _) (by simp) (by simp)
    have hstat : (loseEncoder (encError s n 3) n).reg (R.ENCn_STAT n) = (encError s n 3).reg (R.ENCn_STAT n) := by
      have hlose : OnlyChanges (encError s n 3) (loseEncoder (encError s n 3) n) [R.MP_IRQ_STAT] [.mp, .bc] [] :=
        loseEncoder_onlyChanges (.refl _ _ _ _) (by simp) (by simp) (by simp)
      exact hlose.reg _ (by simp only [List.mem_singleton, R.ENCn_STAT, R.MP_IRQ_STAT]; omega)
    exact ⟨_, execEncoderLineFault_of_enabled he, loseEncoder_lost _ n, hstat.trans (encError_reg_same s n 3), loseEncoder_travel _ n,
      loseEncoder_onlyChanges herr (by simp) (by simp) (by simp)⟩
  case single =>
    intro s hq h
    refine ⟨_, execSingleTimeout_of_over hq h, ?_⟩
    rw [setQuality_of_ne (by rw [hq]; decide)]
    exact ⟨rfl, rfl, State.setBit_reg_same _ _ _, asserts_raise 106 0 rfl rfl, rfl,
      .raise (.setBit (.mp (.refl s _ _ _) (by simp)) (by simp)) (by simp)⟩

/-! ## Speed, time, latches, timers, captures and trigger pins (R36, R40, R41, R48 to R50) -/

/-! ### SPEED_ESTIMATE -/

/-- The registers an estimate writes. -/
def speedRegs : List Nat := [R.SPEEDn 0, R.SPEEDn 1, R.SPEEDn 2, R.SPEEDn 3]

theorem speedn_mem (n : Fin 4) : R.SPEEDn n ∈ speedRegs := by
  match n with
  | 0 => exact .head _
  | 1 => exact .tail _ (.head _)
  | 2 => exact .tail _ (.tail _ (.head _))
  | 3 => exact .tail _ (.tail _ (.tail _ (.head _)))

theorem not_mem_speedRegs {a : Nat} (h : R.SPEEDn 3 < a) : a ∉ speedRegs := by
  simp only [speedRegs, List.mem_cons, List.not_mem_nil, or_false, R.SPEEDn] at h ⊢
  omega

theorem estimateOne_of_enabled {s : State} {n : Fin 4} (h : encEnabled s n = true) :
    estimateOne s n = updEnc (s.setReg (R.SPEEDn n) (BitVec.ofInt 32 (speedOf s n))) n fun e => { e with hist := (e.moved :: e.hist).take 10 } := by
  rw [estimateOne, Fin.ofNat_val_eq_self, if_pos h]

theorem estimateOne_of_disabled {s : State} {n : Fin 4} (h : encEnabled s n = false) : estimateOne s n = s := by
  rw [estimateOne, Fin.ofNat_val_eq_self, h]
  rfl

theorem speedOf_congr {s t : State} {n : Fin 4} (hs : encScale t n = encScale s n) (he : t.mp.encs[n] = s.mp.encs[n]) :
    speedOf t n = speedOf s n := by
  simp only [speedOf, hs, he]

/-- The estimates of the encoders below `k` are made, from the state `s`. -/
structure Estimated (s t : State) (k : Nat) : Prop where
  made : ∀ n : Fin 4, n.val < k → encEnabled s n = true → t.reg (R.SPEEDn n) = BitVec.ofInt 32 (speedOf s n)
  waits : ∀ n : Fin 4, k ≤ n.val → t.mp.encs[n] = s.mp.encs[n]
  off : ∀ n : Fin 4, encEnabled s n = false → t.mp.encs[n] = s.mp.encs[n]
  travel : t.mp.travel = s.mp.travel
  frame : OnlyChanges s t speedRegs [.mp] []

theorem Estimated.step {s t : State} (k : Fin 4) (h : Estimated s t k) : Estimated s (estimateOne t k) (k + 1) := by
  have hcfg : encEnabled t k = encEnabled s k :=
    encEnabled_congr (h.frame.reg _ (not_mem_speedRegs (by simp only [R.SPEEDn, R.ENCn_CFG]; omega)))
  have hscale : encScale t k = encScale s k := by
    refine encScale_congr (h.frame.reg _ (not_mem_speedRegs ?_)) (h.frame.reg _ (not_mem_speedRegs ?_))
    all_goals simp only [R.SPEEDn, R.ENCn_SCALE_LO]; omega
  cases he : encEnabled s k with
  | false =>
    rw [estimateOne_of_disabled (hcfg.trans he)]
    refine ⟨fun n hn hon => h.made n ?_ hon, fun n hn => h.waits n (by omega), h.off, h.travel, h.frame⟩
    have hne : n ≠ k := fun e => by rw [e, he] at hon; cases hon
    omega
  | true =>
    rw [estimateOne_of_enabled (hcfg.trans he), speedOf_congr hscale (h.waits k (Nat.le_refl _))]
    refine ⟨fun n hn hon => ?_, fun n hn => ?_, fun n hoff => ?_, h.travel,
      updEnc_onlyChanges (h.frame.setReg (speedn_mem k)) (by simp)⟩
    · rw [updEnc_reg]
      by_cases hk : n = k
      · rw [hk, State.setReg_reg_same]
      · rw [State.setReg_reg_ne _ _ (by simp only [R.SPEEDn]; omega), h.made n (by omega) hon]
    · rw [updEnc_ne _ _ (by omega), State.setReg_mp, h.waits n (by omega)]
    · have hne : n ≠ k := fun e => by rw [e, he] at hoff; cases hoff
      rw [updEnc_ne _ _ hne, State.setReg_mp, h.off n hoff]

/-- The state of an estimate that begins, its cycle noted. -/
def speedNoted (s : State) : State := { s with mp := { s.mp with speedAt := some s.cycle } }

theorem estimated_all (s : State) : Estimated s (foldN 4 estimateOne s) 4 := by
  have h0 : Estimated s s 0 :=
    ⟨fun n hn => absurd hn (by omega), fun _ _ => rfl, fun _ _ => rfl, rfl, .refl s _ _ _⟩
  exact (((h0.step 0).step 1).step 2).step 3

/-- After the estimates only the runs of Milepost and the level sources move. -/
theorem estimateAll_eq (s : State) : ∃ run still x y, estimateAll s =
    (({ foldN 4 estimateOne (speedNoted s) with
        mp := { (foldN 4 estimateOne (speedNoted s)).mp with failRun := run, stillRun := still } } : State).level 105 x).level 108 y :=
  ⟨_, _, _, _, rfl⟩

/-- An estimate's registers, encoders and travel are those of its four single estimates. -/
theorem estimated_estimateAll (s : State) :
    (∀ n : Fin 4, encEnabled s n = true → (estimateAll s).reg (R.SPEEDn n) = BitVec.ofInt 32 (speedOf s n)) ∧
    (∀ n : Fin 4, encEnabled s n = false → (estimateAll s).mp.encs[n] = s.mp.encs[n]) ∧ (estimateAll s).mp.travel = s.mp.travel ∧
    OnlyChanges s (estimateAll s) speedRegs [.mp, .bc] [] := by
  obtain ⟨hmade, -, hoff, htravel, hframe⟩ := estimated_all (speedNoted s)
  obtain ⟨run, still, x, y, heq⟩ := estimateAll_eq s
  have hnoted : OnlyChanges s (speedNoted s) speedRegs [.mp, .bc] [] := .mp (.refl s _ _ _) (by simp)
  have hfold := hnoted.trans (hframe.mono (List.Subset.refl _) (by simp) (List.Subset.refl _))
  rw [heq]
  refine ⟨fun n hn => ?_, fun n hn => ?_, ?_, ((hfold.mp (by simp)).level (by simp)).level (by simp)⟩
  · rw [level_reg, level_reg]
    exact hmade n (by omega) hn
  · simp only [level_mp]
    exact hoff n hn
  · simp only [level_mp]
    exact htravel

theorem execSpeedEstimate_of_due {s : State} (h : speedDue s = true) : execSpeedEstimate s = .next (estimateAll s) := by
  rw [execSpeedEstimate, if_pos h]

theorem execSpeedEstimate_of_not_due {s : State} (h : speedDue s = false) : execSpeedEstimate s = .next s := by
  rw [execSpeedEstimate, h]
  rfl

/-! ### READ_LO_LATCH -/

/-- A latch taken: the upper half of a quantity, for one initiator. -/
def latchTaken (s : State) (i : Initiator) (q : Quantity) : State :=
  { s with mp := { s.mp with latches := ((i, q), (quantity s q >>> 32).setWidth 32) :: s.mp.latches.filter (·.1 ≠ (i, q)) } }

theorem execReadLoLatch_of_permitted {s : State} {i : Initiator} {q : Quantity} (ha : s.admitted i = true) (hr : mayReadQuantity s i q = true) :
    execReadLoLatch i q s = .next ((latchTaken s i q).busOk (((quantity s q).setWidth 32).setWidth 64)) := by
  rw [execReadLoLatch, ha, hr]
  rfl

theorem latchTaken_same (s : State) (i : Initiator) (q : Quantity) : latched (latchTaken s i q) i q = (quantity s q >>> 32).setWidth 32 := by
  simp [latched, latchTaken]

/-- A latch is its initiator's and its quantity's alone (R41). -/
theorem latchTaken_ne (s : State) {i j : Initiator} {q r : Quantity} (h : (j, r) ≠ (i, q)) :
    latched (latchTaken s i q) j r = latched s j r := by
  have hfind : (latchTaken s i q).mp.latches.find? (·.1 = (j, r)) = s.mp.latches.find? (·.1 = (j, r)) := by
    have hother : ∀ x : (Initiator × Quantity) × Word, x.1 = (j, r) → x.1 ≠ (i, q) := fun x hx => hx ▸ h
    rw [latchTaken, List.find?_cons_of_neg (by simpa using h.symm), List.find?_filter]
    refine congrArg (List.find? · s.mp.latches) (funext fun x => ?_)
    simpa using hother x
  rw [latched, latched, hfind]

/-! ### Trigger pins and timers -/

theorem trigMask_onlyChanges {o s : State} {r : List Nat} {p : List Part} {m : List (Nat × Nat)} {mask srcBit : Nat}
    (h : OnlyChanges o s r p m) (hp : Part.mp ∈ p) : OnlyChanges o (trigMask s mask srcBit) r p m :=
  foldN_induction (P := fun t => OnlyChanges o t r p m) 8 h fun _ _ ht => .ite (.ite (ht.mp hp) ht) ht

theorem trigMask_reg (s : State) (mask srcBit k : Nat) : (trigMask s mask srcBit).reg k = s.reg k :=
  (trigMask_onlyChanges (.refl s [] [.mp] []) (by simp)).reg k (by simp)

theorem trigMask_timers (s : State) (mask srcBit : Nat) : (trigMask s mask srcBit).mp.timers = s.mp.timers := by
  refine foldN_induction (P := fun t : State => t.mp.timers = s.mp.timers) 8 rfl fun t j ht => ?_
  split
  · unfold trigPulse
    split <;> exact ht
  · exact ht

/-- A reached compare: the interrupt flag and the chosen pins. -/
def compareSignalled (s : State) (c : Fin 16) : State := trigMask (s.setBit R.MP_IRQ_STAT 2) (s.fld (R.TMRc_CFG c) 15 8) 1

theorem compareSignalled_irq (s : State) (c : Fin 16) :
    (compareSignalled s c).reg R.MP_IRQ_STAT = s.reg R.MP_IRQ_STAT ||| BitVec.ofNat 32 (2 ^ 2) :=
  (trigMask_reg _ _ _ _).trans (State.setBit_reg_same _ _ _)

theorem compareSignalled_reg (s : State) (c : Fin 16) {k : Nat} (h : k ≠ R.MP_IRQ_STAT) : (compareSignalled s c).reg k = s.reg k :=
  (trigMask_reg _ _ _ _).trans (State.setBit_reg_ne _ _ h)

/-- A reached compare with its interrupt on and a period moves on by the period (R48). -/
theorem execTimerCompareReached_of_reached {s : State} {c : Fin 16} (h : timerReached s c = true) (hi : s.flag (R.TMRc_CFG c) 1 = true)
    (hp : s.reg (R.TMRc_PER c) ≠ 0) : execTimerCompareReached c s = .next ((compareSignalled s c).setReg64 (R.TMRc_CMP_LO c)
      (s.reg64 (R.TMRc_CMP_LO c) + (s.reg (R.TMRc_PER c)).setWidth 64)) := by
  have hcfg : (s.setBit R.MP_IRQ_STAT 2).fld (R.TMRc_CFG c) 15 8 = s.fld (R.TMRc_CFG c) 15 8 := by
    rw [State.fld, State.fld, State.setBit_reg_ne _ _ (by simp only [R.TMRc_CFG, R.MP_IRQ_STAT]; omega)]
  have hper : (compareSignalled s c).reg (R.TMRc_PER c) = s.reg (R.TMRc_PER c) :=
    compareSignalled_reg s c (by simp only [R.TMRc_PER, R.MP_IRQ_STAT]; omega)
  have hcmp : (compareSignalled s c).reg64 (R.TMRc_CMP_LO c) = s.reg64 (R.TMRc_CMP_LO c) := by
    refine reg64_congr (compareSignalled_reg s c ?_) (compareSignalled_reg s c ?_)
    all_goals simp only [R.TMRc_CMP_LO, R.MP_IRQ_STAT]; omega
  rw [← hper] at hp
  simp only [execTimerCompareReached, h, hi, if_true, hcfg]
  rw [← compareSignalled, if_neg hp, hper, hcmp]

/-! ### Captures -/

/-- A capture FIFO replaced. -/
def setCaps (s : State) (n : Fin 8) (l : List (DWord × DWord)) : State := { s with mp := { s.mp with caps := s.mp.caps.set n l } }

theorem setCaps_same (s : State) (n : Fin 8) (l : List (DWord × DWord)) : (setCaps s n l).mp.caps[n] = l := Vector.getElem_set_self n.isLt

theorem setCaps_ne (s : State) {n k : Fin 8} (l : List (DWord × DWord)) (h : k ≠ n) : (setCaps s n l).mp.caps[k] = s.mp.caps[k] :=
  Vector.getElem_set_ne n.isLt k.isLt fun e => h (Fin.ext e.symm)

theorem execCaptureEdge_of_room {s : State} {n : Fin 8} {rising : Bool} (he : s.flag (R.CAPi_CFG n) 0 = true)
    (ht : edgeTaken (s.fld (R.CAPi_CFG n) 2 1) rising = true) (hr : s.mp.caps[n].length < 16) :
    execCaptureEdge n rising s = .next ((setCaps s n (s.mp.caps[n] ++ [(timeBefore s (s.fld (R.CAPi_CFG n) 15 8 + 3), s.mp.travel)])).setBit
      R.MP_IRQ_STAT 1) := by
  rw [execCaptureEdge, he, ht, Bool.and_self, if_pos rfl, if_pos hr]
  rfl

theorem execCaptureEdge_of_full {s : State} {n : Fin 8} {rising : Bool} (he : s.flag (R.CAPi_CFG n) 0 = true)
    (ht : edgeTaken (s.fld (R.CAPi_CFG n) 2 1) rising = true) (hr : 16 ≤ s.mp.caps[n].length) :
    execCaptureEdge n rising s = .next ((s.setBit (R.CAPi_STAT n) 0).raise 110 0) := by
  rw [execCaptureEdge, he, ht, Bool.and_self, if_pos rfl, if_neg (by omega)]

theorem execCapturePop_of_admitted {s : State} {i : Initiator} {n : Fin 8} (h : s.admitted i = true) :
    execCapturePop i n s = .next (setCaps (s.busOk ((latched s i (.captureS n)).setWidth 64)) n s.mp.caps[n].tail) := by
  rw [execCapturePop, h]
  rfl

theorem execTincWrite_of_permitted {s : State} {i : Initiator} {c : Fin 16} {int : Bool} (v : Word)
    (h : s.mayWrite i (if int then R.TMRc_TINC_INT c else R.TMRc_TINC_FRAC c) = true) :
    execTincWrite i c int v s = .next ((s.busOk 0).setReg (if int then R.TMRc_TINC_INT c else R.TMRc_TINC_FRAC c) v) := by
  rw [execTincWrite, State.openWrite, if_pos h]

theorem execTrigPulseEnd_of_over {s : State} {j : Fin 8} {e : Nat} (hj : s.mp.trigs[j] = some e) (h : e ≤ s.cycle) :
    execTrigPulseEnd j s = .next { s with mp := { s.mp with trigs := s.mp.trigs.set j none } } := by
  simp only [execTrigPulseEnd, hj, h, if_true]

/-! ### O14 -/

/-- Settles O14: each clause takes the command's meaning in its case and reads the result off the rules above. -/
theorem speedTimeLatchesTimersAndCaptures : Obligations.SpeedTimeLatchesTimersAndCaptures := by
  unfold Obligations.SpeedTimeLatchesTimersAndCaptures
  refine ⟨?due, ?notDue, ?integrity, ?latch, ?tincInt, ?tincFrac, ?compare, ?room, ?full, ?pop, ?pulse⟩
  case due =>
    intro s h
    exact ⟨_, execSpeedEstimate_of_due h, estimated_estimateAll s⟩
  case notDue =>
    intro s h
    exact ⟨s, execSpeedEstimate_of_not_due h, rfl, .refl s _ _ _⟩
  case integrity =>
    intro s x
    exact ⟨_, rfl, asserts_raise 109 0 rfl rfl, rfl, rfl, .raise (.mp (.refl s _ _ _) (by simp)) (by simp)⟩
  case latch =>
    intro s i q ha hr
    exact ⟨_, execReadLoLatch_of_permitted ha hr, rfl, latchTaken_same s i q, fun j r h => latchTaken_ne s h,
      .busOk (.mp (.refl s _ _ _) (by simp)) (by simp)⟩
  case tincInt =>
    intro s i c v h
    exact ⟨_, execTincWrite_of_permitted v h, State.setReg_reg_same _ _ _, rfl, rfl, .setReg (.busOk (.refl s _ _ _) (by simp)) (by simp)⟩
  case tincFrac =>
    intro s i c v h
    exact ⟨_, execTincWrite_of_permitted v h, State.setReg_reg_same _ _ _, rfl, rfl, .setReg (.busOk (.refl s _ _ _) (by simp)) (by simp)⟩
  case compare =>
    intro s c h hi hp
    have hlo : R.MP_IRQ_STAT ≠ R.TMRc_CMP_LO c := by simp only [R.TMRc_CMP_LO, R.MP_IRQ_STAT]; omega
    have hhi : R.MP_IRQ_STAT ≠ R.TMRc_CMP_LO c + 4 := by simp only [R.TMRc_CMP_LO, R.MP_IRQ_STAT]; omega
    exact ⟨_, execTimerCompareReached_of_reached h hi hp, (setReg64_reg_ne _ _ hlo hhi).trans (compareSignalled_irq s c),
      setReg64_reg64 _ _ _, trigMask_timers _ _ _,
      .setReg64 (trigMask_onlyChanges (.setBit (.refl s _ _ _) (by simp)) (by simp)) (by simp) (by simp)⟩
  case room =>
    intro s n rising he ht hr
    exact ⟨_, execCaptureEdge_of_room he ht hr, setCaps_same s n _, fun k hk => setCaps_ne s _ hk, State.setBit_reg_same _ _ _,
      .setBit (.mp (.refl s _ _ _) (by simp)) (by simp)⟩
  case full =>
    intro s n rising he ht hr
    exact ⟨_, execCaptureEdge_of_full he ht hr, State.setBit_reg_same _ _ _, asserts_raise 110 0 rfl rfl,
      .raise (.setBit (.refl s _ _ _) (by simp)) (by simp)⟩
  case pop =>
    intro s i n head rest ha hcaps
    refine ⟨_, execCapturePop_of_admitted ha, rfl, ?_, fun k hk => setCaps_ne _ _ hk, .mp (.busOk (.refl s _ _ _) (by simp)) (by simp)⟩
    rw [setCaps_same, hcaps, List.tail_cons]
  case pulse =>
    intro s j e hj h
    exact ⟨_, execTrigPulseEnd_of_over hj h, Vector.getElem_set_self j.isLt,
      fun k hk => Vector.getElem_set_ne j.isLt k.isLt fun e => hk (Fin.ext e.symm), .mp (.refl s _ _ _) (by simp)⟩

/-! ## Posts (R44 to R47, R255, R315) -/

/-! ### What a release leaves of Milepost's state -/

/-- Of Milepost's state only the posts' unused bounds differ. -/
def SameButUnused (m m' : Milepost) : Prop := ∃ tu su, m' = { m with postTUnused := tu, postSUnused := su }

theorem SameButUnused.of_eq {m m' : Milepost} (h : m' = m) : SameButUnused m m' := ⟨_, _, h⟩

theorem SameButUnused.trans {a b c : Milepost} (h : SameButUnused a b) (k : SameButUnused b c) : SameButUnused a c := by
  obtain ⟨_, _, rfl⟩ := h
  obtain ⟨tu, su, rfl⟩ := k
  exact ⟨tu, su, rfl⟩

theorem rearmPost_mp (s : State) (p : Nat) : SameButUnused s.mp (rearmPost s p).1.mp := by
  unfold rearmPost
  dsimp only
  split
  case h_1 | h_2 => split <;> exact .of_eq rfl
  case h_3 =>
    split
    · exact .of_eq rfl
    · split <;> split <;> exact ⟨_, _, rfl⟩

theorem rearmRelease_mp (p : Nat) (s : State) : SameButUnused s.mp (rearmRelease p s).mp := by
  have h := rearmPost_mp (s.satAdd (R.POSTp_STAT p) 15 0 1) p
  unfold rearmRelease
  dsimp only
  split
  · exact h
  · split <;> exact h

theorem setRegs_mp {α : Type} (a : α → Nat) (v : State → α → Word) (l : List α) (s : State) :
    (l.foldl (fun s x => s.setReg (a x) (v s x)) s).mp = s.mp := by
  induction l generalizing s with
  | nil => rfl
  | cons x l ih => exact ih _

theorem withPosts_mp (s : State) (t : PostTable) : (withPosts s t).mp = s.mp :=
  setRegs_mp Prod.fst (fun _ => Prod.snd) _ _

/-- A post's own work under an earlier table touches no more of Milepost's state than under the present one. -/
theorem underTable_mp {f : State → State} (hf : ∀ s, SameButUnused s.mp (f s).mp) (s : State) : SameButUnused s.mp (underTable f s).mp := by
  unfold underTable
  split
  · exact hf s
  · next t _ =>
    have hposts : SameButUnused s.mp (updMp (withPosts s t) fun m => { m with postTUnused := t.tUnused, postSUnused := t.sUnused }).mp :=
      ⟨_, _, congrArg (fun m : Milepost => { m with postTUnused := t.tUnused, postSUnused := t.sUnused }) (withPosts_mp s t)⟩
    have hwork := hposts.trans (hf _)
    dsimp only
    rw [setRegs_mp (fun a => a) (fun _ a => s.reg a)]
    exact hwork.trans ⟨_, _, rfl⟩

theorem underTable_cycle (p : Nat) (s : State) : (underTable (rearmRelease p) s).cycle = s.cycle :=
  (underTable_keeps (ps := [.mp, .bc, .regs]) (fun _ h => rearmRelease_keeps h (by simp)) (.refl _ s) (by simp)).part .cycle (by simp)

theorem postBoundaries_mp (s : State) (p : Nat) : (postBoundaries s p).mp = s.mp :=
  (postBoundaries_keeps (ps := [.bc, .wd, .regs]) (.refl _ s) (by simp)).part .mp (by simp)

theorem postBoundaries_cycle (s : State) (p : Nat) : (postBoundaries s p).cycle = s.cycle :=
  (postBoundaries_keeps (ps := [.bc, .wd, .regs]) (.refl _ s) (by simp)).part .cycle (by simp)

/-! ### The task boundaries write the watchdogs' registers alone -/

theorem taskStat_reg (s : State) (e : Fin 64) (c : Nat) {k : Nat} (h : 0x30200000 ≤ k) : (taskStat s e c).reg k = s.reg k := by
  rw [taskStat, State.setBit_reg_ne, State.setFld_reg_ne, State.setFld_reg_ne]
  all_goals simp only [R.TS_STAT, R.WD_IRQ_STAT]; omega

theorem ite_reg {c : Prop} [Decidable c] {a b : State} {k : Nat} {v : Word} (ha : a.reg k = v) (hb : b.reg k = v) :
    (if c then a else b).reg k = v := by
  split
  · exact ha
  · exact hb

theorem boundary_reg (s : State) (e : Fin 64) (c : Nat) {k : Nat} (h : 0x30200000 ≤ k) : (boundary s e c).reg k = s.reg k := by
  have hfails : k ≠ R.TSe_FAILS e := by simp only [R.TSe_FAILS]; omega
  have hunder (x : State) : (taskStat ((x.satAdd (R.TSe_FAILS e) 15 0 1).raiseSyn 92 0 (BitVec.ofNat 16 e.val) none) e 1).reg k = x.reg k := by
    rw [taskStat_reg _ _ _ h]
    exact State.setReg_reg_ne _ _ hfails
  have hseq (x : State) : (seqFail x e).reg k = x.reg k := taskStat_reg _ _ _ h
  exact ite_reg ((hseq _).trans (ite_reg (hunder s) rfl)) (ite_reg (hunder s) rfl)

theorem closePast_reg (s : State) (e : Fin 64) {k : Nat} (h : 0x30200000 ≤ k) : (closePast s e).reg k = s.reg k := by
  unfold closePast closeBy
  split
  · exact ite_reg (boundary_reg _ _ _ h) rfl
  · rfl

theorem postBoundaries_reg (s : State) (p : Nat) {k : Nat} (h : 0x30200000 ≤ k) : (postBoundaries s p).reg k = s.reg k :=
  foldN_induction (P := fun t : State => t.reg k = s.reg k) 64 rfl fun t j ht => ite_reg ((closePast_reg t (Fin.ofNat 64 j) h).trans ht) ht

/-! ### POST_RELEASE -/

/-- The state of a release, its post taken off the reached list. -/
def releaseTaken (s : State) (p : Fin 256) : State :=
  updMp s fun m => { m with reached := m.reached.filter (·.1 ≠ p), released := some p }

/-- The state in which a released post acts: re-armed, the task boundaries at it judged. -/
def releaseReady (s : State) (p : Fin 256) : State := postBoundaries (underTable (rearmRelease p.val) (releaseTaken s p)) p.val

theorem releaseReady_mp (s : State) (p : Fin 256) : SameButUnused (releaseTaken s p).mp (releaseReady s p).mp :=
  (underTable_mp (rearmRelease_mp p.val) _).trans (.of_eq (postBoundaries_mp _ _))

theorem releaseReady_now (s : State) (p : Fin 256) : (releaseReady s p).now = s.now := by
  have hcycle : (releaseReady s p).cycle = s.cycle := (postBoundaries_cycle _ _).trans (underTable_cycle _ _)
  obtain ⟨_, _, hmp⟩ := releaseReady_mp s p
  rw [State.now, State.now, State.timeNs, State.timeNs, hcycle, hmp]
  rfl

theorem atCycleStart_releaseTaken (s : State) (p : Fin 256) (k : Nat) :
    (atCycleStart (releaseTaken s p)).reg k = (atCycleStart s).reg k := by
  have ht : (releaseTaken s p).mp.postTable = s.mp.postTable := rfl
  rw [atCycleStart, atCycleStart, ht]
  cases s.mp.postTable <;> rfl

theorem execPostRelease_of_task {s : State} {p : Fin 256} (hr : s.mp.released = none) (hn : nextPost s = some p)
    (ha : postAction (atCycleStart s) p.val = 1) : execPostRelease s = .next (postTask (releaseReady s p) p.val) := by
  have hact : bits ((atCycleStart (releaseTaken s p)).reg (R.POSTp_CFG p.val)) 7 4 = 1 := by
    rw [atCycleStart_releaseTaken]
    exact ha
  have hpost : releasePost (releaseTaken s p) p.val = postTask (releaseReady s p) p.val := by
    simp only [releasePost, postAct, hact]
    rfl
  simp only [execPostRelease, hr, hn, Option.isSome_none, Bool.false_eq_true, if_false]
  exact congrArg _ hpost

theorem postTask_of_room {s : State} (p : Nat) (h : s.mp.keeperQ.length < 64) : postTask s p =
    (updMp s fun m => { m with keeperQ := m.keeperQ ++ [⟨BitVec.ofNat 8 p, s.now.t, s.now.s⟩] }).setBit R.MP_IRQ_STAT 0 :=
  if_neg (by omega)

/-- The release of a KTASK post (R46, R47): its entry is queued, the post leaves the reached list, and the interrupt is set. -/
theorem task_released {s : State} {p : Fin 256} (hr : s.mp.released = none) (hn : nextPost s = some p)
    (ha : postAction (atCycleStart s) p.val = 1) (hq : s.mp.keeperQ.length < 64) :
    ∃ t, execPostRelease s = .next t ∧ t.mp.keeperQ = s.mp.keeperQ ++ [⟨BitVec.ofNat 8 p.val, s.now.t, s.now.s⟩] ∧
      t.mp.reached = s.mp.reached.filter (fun e => decide (e.1 ≠ p)) ∧ t.mp.released = some p ∧
      (t.reg R.MP_IRQ_STAT).getLsbD 0 = true ∧ ∀ k, k ≠ R.MP_IRQ_STAT → t.reg k = (releaseReady s p).reg k := by
  obtain ⟨_, _, hmp⟩ := releaseReady_mp s p
  have hqueue : (releaseReady s p).mp.keeperQ = s.mp.keeperQ := by rw [hmp]; rfl
  have hreached : (releaseReady s p).mp.reached = s.mp.reached.filter (·.1 ≠ p) := by rw [hmp]; rfl
  have hreleased : (releaseReady s p).mp.released = some p := by rw [hmp]; rfl
  refine ⟨_, execPostRelease_of_task hr hn ha, ?_⟩
  rw [postTask_of_room _ (by rw [hqueue]; exact hq), releaseReady_now]
  refine ⟨congrArg (· ++ _) hqueue, hreached, hreleased, ?_, fun k hk => State.setBit_reg_ne _ _ hk⟩
  rw [State.setBit_reg_same]
  simp

/-- A TIME post whose next value is not reached yet is re-armed by one period, and no period is skipped (R45). -/
theorem rearmPost_time {s : State} {p : Nat} (hd : postDomain s p = 0) (hp : s.reg (R.POSTp_PER_T p) ≠ 0)
    (hb : bound64 s.timeNs (s.reg64 (R.POSTp_VAL_T_LO p) + (s.reg (R.POSTp_PER_T p)).setWidth 64) = false) :
    rearmPost s p = (s.setReg64 (R.POSTp_VAL_T_LO p) (s.reg64 (R.POSTp_VAL_T_LO p) + (s.reg (R.POSTp_PER_T p)).setWidth 64), 0) := by
  simp only [rearmPost, hd, if_neg hp, rearm, advance, hb, Bool.false_eq_true, if_false]

theorem rearmRelease_time {s : State} {p : Nat} (hd : postDomain s p = 0) (hp : s.reg (R.POSTp_PER_T p) ≠ 0)
    (hb : bound64 s.timeNs (s.reg64 (R.POSTp_VAL_T_LO p) + (s.reg (R.POSTp_PER_T p)).setWidth 64) = false) :
    (rearmRelease p s).reg64 (R.POSTp_VAL_T_LO p) = s.reg64 (R.POSTp_VAL_T_LO p) + (s.reg (R.POSTp_PER_T p)).setWidth 64 := by
  have hcounted {k : Nat} (hk : k ≠ R.POSTp_STAT p) : (s.satAdd (R.POSTp_STAT p) 15 0 1).reg k = s.reg k := State.setReg_reg_ne _ _ hk
  have hcfg : postDomain (s.satAdd (R.POSTp_STAT p) 15 0 1) p = postDomain s p := by
    rw [postDomain, postDomain, State.fld, State.fld, hcounted (by simp only [R.POSTp_CFG, R.POSTp_STAT]; omega)]
  have hper : (s.satAdd (R.POSTp_STAT p) 15 0 1).reg (R.POSTp_PER_T p) = s.reg (R.POSTp_PER_T p) :=
    hcounted (by simp only [R.POSTp_PER_T, R.POSTp_STAT]; omega)
  have hval : (s.satAdd (R.POSTp_STAT p) 15 0 1).reg64 (R.POSTp_VAL_T_LO p) = s.reg64 (R.POSTp_VAL_T_LO p) := by
    refine reg64_congr (hcounted ?_) (hcounted ?_)
    all_goals simp only [R.POSTp_VAL_T_LO, R.POSTp_STAT]; omega
  have hrearm := rearmPost_time (hcfg.trans hd) (by rwa [hper]) (by rwa [hper, hval])
  rw [hper, hval] at hrearm
  simp only [rearmRelease, hrearm, if_true]
  exact setReg64_reg64 _ _ _

/-- Where no lock cycle has changed the table in this cycle, the post acts with its value re-armed. -/
theorem releaseReady_time {s : State} {p : Fin 256} (ht : s.mp.postTable = none) (hd : postDomain s p.val = 0)
    (hp : s.reg (R.POSTp_PER_T p.val) ≠ 0)
    (hb : bound64 s.timeNs (s.reg64 (R.POSTp_VAL_T_LO p.val) + (s.reg (R.POSTp_PER_T p.val)).setWidth 64) = false) :
    (releaseReady s p).reg64 (R.POSTp_VAL_T_LO p.val) =
      s.reg64 (R.POSTp_VAL_T_LO p.val) + (s.reg (R.POSTp_PER_T p.val)).setWidth 64 := by
  have hnow : underTable (rearmRelease p.val) (releaseTaken s p) = rearmRelease p.val (releaseTaken s p) := by
    rw [underTable, show (releaseTaken s p).mp.postTable = none from ht]
  have hbound : (releaseReady s p).reg64 (R.POSTp_VAL_T_LO p.val) = (rearmRelease p.val (releaseTaken s p)).reg64 (R.POSTp_VAL_T_LO p.val) := by
    rw [releaseReady, hnow]
    refine reg64_congr (postBoundaries_reg _ _ ?_) (postBoundaries_reg _ _ ?_)
    all_goals simp only [R.POSTp_VAL_T_LO]; omega
  exact hbound.trans (rearmRelease_time (s := releaseTaken s p) hd hp hb)

/-! ### POST_REACHED and POSTQ_POP -/

theorem execPostReached_of_due {s : State} {p : Fin 256} (hr : s.wr.ready = true) (hd : postDue (atCycleStart s) p.val = true)
    (hn : (s.mp.reached.any fun e => decide (e.1 = p)) = false) (hp : s.mp.released ≠ some p) :
    execPostReached p s = .next (updMp s fun m => { m with reached := m.reached ++ [(p, s.cycle)] }) := by
  simp only [execPostReached, hr, hd, hn, bne_iff_ne.mpr hp, Bool.not_false, Bool.and_self, if_true]

theorem execPostRelease_of_released {s : State} (h : s.mp.released.isSome = true) : execPostRelease s = .next s := by
  rw [execPostRelease, if_pos h]

theorem execPostqPop_of_cons {s : State} {e : QEntry} {rest : List QEntry} (h : s.mp.keeperQ = e :: rest) : execPostqPop s =
    .next (((({ s with mp := { s.mp with keeperQ := rest } } : State).setReg R.POSTQ_T e.t).setReg R.POSTQ_S e.s).busOk
      (0x80000000 ||| e.post.setWidth 64)) := by
  rw [execPostqPop, h]

theorem execPostqPop_of_nil {s : State} (h : s.mp.keeperQ = []) : execPostqPop s = .next (s.busOk 0) := by
  rw [execPostqPop, h]

/-! ### O15 -/

/-- Settles O15: each clause takes the command's meaning in its case and reads the result off the rules above. -/
theorem postsReachReleaseAndPop : Obligations.PostsReachReleaseAndPop := by
  unfold Obligations.PostsReachReleaseAndPop
  refine ⟨?reached, ?timeTask, ?task, ?released, ?pop, ?empty⟩
  case reached =>
    intro s p hr hd hn hp
    exact ⟨_, execPostReached_of_due hr hd hn hp, rfl, .mp (.refl s _ _ _) (by simp)⟩
  case timeTask =>
    intro s p hr hn hd ha ht hp hb hq
    have hstart : atCycleStart s = s := by rw [atCycleStart, ht]
    obtain ⟨t, hexec, hqueue, hreached, hreleased, hirq, hreg⟩ := task_released hr hn (by rwa [hstart]) hq
    refine ⟨t, hexec, hqueue, hreached, hreleased, ?_, hirq⟩
    refine (reg64_congr (hreg _ ?_) (hreg _ ?_)).trans (releaseReady_time ht hd hp hb)
    all_goals simp only [R.POSTp_VAL_T_LO, R.MP_IRQ_STAT]; omega
  case task =>
    intro s p hr hn ha hq
    obtain ⟨t, hexec, hqueue, hreached, hreleased, hirq, -⟩ := task_released hr hn ha hq
    exact ⟨t, hexec, hqueue, hreached, hreleased, hirq⟩
  case released =>
    intro s h
    exact ⟨s, execPostRelease_of_released h, rfl, .refl s _ _ _⟩
  case pop =>
    intro s e rest h
    have hstamp : R.POSTQ_T ≠ R.POSTQ_S := by decide
    exact ⟨_, execPostqPop_of_cons h, rfl, (State.setReg_reg_ne _ _ hstamp).trans (State.setReg_reg_same _ _ _),
      State.setReg_reg_same _ _ _, rfl, .busOk (.setReg (.setReg (.mp (.refl s _ _ _) (by simp)) (by simp)) (by simp)) (by simp)⟩
  case empty =>
    intro s h
    exact ⟨_, execPostqPop_of_nil h, rfl, .busOk (.refl s _ _ _) (by simp)⟩

end Sys2Proof.Machine.MilepostLaws

/-! # Mirror: handover, compares, window deadlines and glints (O21)

As for Milepost, one rule per operation of Machine/Mirror.lean comes first. Every compare and deadline ends in `giveTwin`; what that shows
and changes is stated once, for a barge that has no twin result yet (`Undecided`). -/

namespace Sys2Proof.Machine.MirrorLaws

/-! ## Bit fields -/

theorem getLsbD_fieldMask {hi lo j : Nat} (hlo : lo ≤ hi) (hj : j < 32) :
    (fieldMask hi lo).getLsbD j = decide (lo ≤ j ∧ j ≤ hi) := by
  rw [fieldMask, BitVec.getLsbD_ofNat, Nat.testBit_shiftLeft, Nat.testBit_two_pow_sub_one]
  grind

theorem getLsbD_putBits (w : Word) {hi lo j : Nat} (v : Nat) (hlo : lo ≤ hi) (hj : j < 32) :
    (putBits w hi lo v).getLsbD j = if lo ≤ j ∧ j ≤ hi then v.testBit (j - lo) else w.getLsbD j := by
  simp only [putBits, BitVec.getLsbD_or, BitVec.getLsbD_and, BitVec.getLsbD_not, getLsbD_fieldMask hlo hj, BitVec.getLsbD_ofNat,
    Nat.testBit_shiftLeft, hj, decide_true, Bool.true_and]
  split
  · next h => simp [h]
  · next h => simp [h]

theorem testBit_bits (w : Word) (hi lo i : Nat) : (bits w hi lo).testBit i = (decide (i < hi - lo + 1) && w.getLsbD (lo + i)) := by
  rw [bits, Nat.testBit_mod_two_pow, Nat.testBit_shiftRight, BitVec.getLsbD]

/-- A field reads back what was put there, as far as it is wide. -/
theorem bits_putBits_same (w : Word) {hi lo : Nat} (v : Nat) (hlo : lo ≤ hi) (hhi : hi < 32) :
    bits (putBits w hi lo v) hi lo = v % 2 ^ (hi - lo + 1) := by
  refine Nat.eq_of_testBit_eq fun i => ?_
  rw [testBit_bits, Nat.testBit_mod_two_pow]
  by_cases hi' : i < hi - lo + 1
  · rw [getLsbD_putBits w v hlo (by omega), if_pos (by omega), Nat.add_sub_cancel_left]
  · simp [hi']

/-- A field stands where another one is put. -/
theorem bits_putBits_disjoint (w : Word) {hi lo a b : Nat} (v : Nat) (hlo : lo ≤ hi) (hba : b ≤ a) (ha : a < 32) (h : a < lo ∨ hi < b) :
    bits (putBits w hi lo v) a b = bits w a b := by
  refine Nat.eq_of_testBit_eq fun i => ?_
  rw [testBit_bits, testBit_bits]
  by_cases hi' : i < a - b + 1
  · rw [getLsbD_putBits w v hlo (by omega), if_neg (by omega)]
  · simp [hi']

theorem setFld_fld_same (s : State) (a : Nat) {hi lo : Nat} (v : Nat) (hlo : lo ≤ hi) (hhi : hi < 32) :
    (s.setFld a hi lo v).fld a hi lo = v % 2 ^ (hi - lo + 1) := by
  rw [State.fld, State.setFld_reg_same, bits_putBits_same _ _ hlo hhi]

theorem setFld_fld_disjoint (s : State) (a : Nat) {hi lo hi' lo' : Nat} (v : Nat) (hlo : lo ≤ hi) (hlo' : lo' ≤ hi') (hhi' : hi' < 32)
    (h : hi' < lo ∨ hi < lo') : (s.setFld a hi lo v).fld a hi' lo' = s.fld a hi' lo' := by
  rw [State.fld, State.fld, State.setFld_reg_same, bits_putBits_disjoint _ _ hlo hlo' hhi' h]

/-- A count that fills its register wraps with it. -/
theorem wrapInc_reg_same (s : State) (a : Nat) : (s.wrapInc a 31 0).reg a = s.reg a + 1 := by
  have hfld : bits ((s.wrapInc a 31 0).reg a) 31 0 = (bits (s.reg a) 31 0 + 1) % 2 ^ 32 := setFld_fld_same s a _ (by decide) (by decide)
  simp only [bits, Nat.shiftRight_zero, Nat.sub_zero, Nat.reduceAdd] at hfld
  refine BitVec.eq_of_toNat_eq ?_
  rw [BitVec.toNat_add]
  have h := BitVec.isLt ((s.wrapInc a 31 0).reg a)
  have h' := BitVec.isLt (s.reg a)
  rwa [Nat.mod_eq_of_lt h, Nat.mod_eq_of_lt h'] at hfld

theorem setBit_getLsbD (s : State) (a : Nat) {b : Nat} (hb : b < 32) : ((s.setBit a b).reg a).getLsbD b = true := by
  simp only [State.setBit_reg_same, BitVec.getLsbD_or, BitVec.getLsbD_ofNat, Nat.testBit_two_pow_self, hb, decide_true, Bool.and_self,
    Bool.or_true]

/-! ## Error lines -/

/-- `raiseSyn` asserts its line after those that stood, in the same cycle. Only the lines must stand (`MilepostLaws.asserts_raise` asks it of
Beacon's whole state): a glint that runs is noted in Beacon. -/
theorem asserts_raiseSyn {s t : State} (src chan : Nat) (syn : Half) (bs : Option (List Word)) (hb : t.bc.lines = s.bc.lines)
    (hc : t.cycle = s.cycle) : Asserts s (t.raiseSyn src chan syn bs) src chan := by
  rw [Asserts, ← hb, ← hc]
  exact ⟨_, _, rfl⟩

theorem asserts_raise {s t : State} (src chan : Nat) (hb : t.bc.lines = s.bc.lines) (hc : t.cycle = s.cycle) :
    Asserts s (t.raise src chan) src chan := asserts_raiseSyn src chan _ _ hb hc

theorem asserts_raiseFor {s t : State} (src : Nat) (b : Word) (hb : t.bc.lines = s.bc.lines) (hc : t.cycle = s.cycle) :
    Asserts s (t.raiseFor src b) src 0 := asserts_raiseSyn src 0 _ _ hb hc

/-! ## Barges -/

theorem barge?_num {s : State} {b : Word} {x : Barge} (h : s.barge? b = some x) : x.num = b := by
  simpa using List.find?_some h

/-- A change of a barge's entry that keeps its number is what the entry shows next. -/
theorem updBarge_barge? (s : State) (b : Word) {f : Barge → Barge} (hf : ∀ y, (f y).num = y.num) :
    (s.updBarge b f).barge? b = (s.barge? b).map f := by
  have hnum (y : Barge) : (if y.num = b then f y else y).num = y.num := by
    split
    · exact hf y
    · rfl
  rw [State.barge?, State.updBarge, List.find?_map, State.barge?]
  simp only [Function.comp_def, hnum]
  cases hx : s.barges.find? (·.num = b) with
  | none => rfl
  | some x => simp [barge?_num hx]

theorem withEntry_of_barge {s : State} {b : Word} {x : Barge} (f : Barge → State) (h : s.barge? b = some x) : withEntry s b f = f x := by
  rw [withEntry, h]
  rfl

theorem updEntry_of_barge {s : State} {b : Word} {x : Barge} (f : Barge → Barge) (h : s.barge? b = some x) :
    updEntry s b f = s.updBarge b f := by
  rw [updEntry, h]

/-! ## The twin result (R102) -/

/-- The decision after a result settles the barge's verdict, or nothing. -/
theorem settle_cases (s : State) (b : Word) :
    settle s b = s ∨ ∃ v, settle s b = s.updBarge b fun x => { x with final := some v, finalAt := s.cycle } := by
  unfold settle State.withBarge
  split
  · dsimp only
    split
    · exact .inl rfl
    · split
      · split
        · exact .inr ⟨_, rfl⟩
        · exact .inl rfl
      · exact .inl rfl
  · exact .inl rfl

theorem settle_twin (s : State) (b : Word) : ((settle s b).barge? b).map (·.twin) = (s.barge? b).map (·.twin) := by
  obtain h | ⟨v, h⟩ := settle_cases s b
  · rw [h]
  · rw [h, updBarge_barge?, Option.map_map]
    · rfl
    · exact fun _ => rfl

theorem settle_onlyChanges {o s : State} {r : List Nat} {p : List Part} {m : List (Nat × Nat)} {b : Word}
    (h : OnlyChanges o s r p m) (hp : Part.barges ∈ p) : OnlyChanges o (settle s b) r p m := by
  obtain hs | ⟨v, hs⟩ := settle_cases s b
  · rwa [hs]
  · rw [hs]
    exact h.updBarge hp

theorem reportTwin_twin {s : State} {b : Word} {x : Barge} (code : BitVec 4) (h : s.barge? b = some x) :
    ((reportTwin s b code).barge? b).map (·.twin) = some code := by
  rw [reportTwin, settle_twin, updBarge_barge?, h]
  · rfl
  · exact fun _ => rfl

theorem reportTwin_onlyChanges {o s : State} {r : List Nat} {p : List Part} {m : List (Nat × Nat)} {b : Word} {code : BitVec 4}
    (h : OnlyChanges o s r p m) (hp : Part.barges ∈ p) : OnlyChanges o (reportTwin s b code) r p m :=
  settle_onlyChanges (h.updBarge hp) hp

theorem reportTwin_reg (s : State) (b : Word) (code : BitVec 4) (k : Nat) : (reportTwin s b code).reg k = s.reg k :=
  (reportTwin_onlyChanges (.refl s [] [.barges] []) (by simp)).reg k (by simp)

/-- The barge in flight `b`, no lamp's, of Mirror entry `m`, has no twin result and no record yet. -/
structure Undecided (s : State) (b : Word) (x : Barge) (m : Fin 64) : Prop where
  entry : s.barge? b = some x
  unformed : x.formed = false
  notLamp : x.lamp = none
  first : x.twin = 0
  mnet : x.mnet = some m

/-- What leaves the barges alone leaves a barge undecided. -/
theorem Undecided.of_onlyChanges {s t : State} {b : Word} {x : Barge} {m : Fin 64} {r : List Nat} {p : List Part} {l : List (Nat × Nat)}
    (h : Undecided s b x m) (hf : OnlyChanges s t r p l) (hp : Part.barges ∉ p) : Undecided t b x m := by
  have hbarges : t.barges = s.barges := hf.part .barges (by simpa using hp)
  exact ⟨by rw [State.barge?, hbarges]; exact h.entry, h.unformed, h.notLamp, h.first, h.mnet⟩

/-- The first twin result of a barge is taken. -/
theorem giveTwin_of_undecided {s : State} {b : Word} {x : Barge} {m : Fin 64} (h : Undecided s b x m) (code : BitVec 4) (syn win : Nat)
    (dead : Bool) : giveTwin s b code syn win dead =
      reportTwin (mnetStat (if code = 1 then s else mirrorFail s x code syn win dead) (some m) code false) b code := by
  obtain ⟨hentry, hformed, hlamp, hfirst, hmnet⟩ := h
  simp only [giveTwin, reporting, hentry, hformed, hlamp, hfirst, hmnet, bne_self_eq_false, Bool.false_and, Bool.false_eq_true, if_false]

/-- PASS is noted in the entry, in MNETx_STAT and in MNETx_PASS. -/
theorem giveTwin_pass {s : State} {b : Word} {x : Barge} {m : Fin 64} (h : Undecided s b x m) (syn win : Nat) (dead : Bool) :
    ((giveTwin s b 1 syn win dead).barge? b).map (·.twin) = some 1 ∧
    (giveTwin s b 1 syn win dead).reg (R.MNETx_PASS m) = s.reg (R.MNETx_PASS m) + 1 ∧
    (giveTwin s b 1 syn win dead).fld (R.MNETx_STAT m) 3 0 = 1 ∧
    OnlyChanges s (giveTwin s b 1 syn win dead) [R.MNETx_STAT m, R.MNETx_PASS m] [.barges] [] := by
  have hgive : giveTwin s b 1 syn win dead =
      reportTwin ((s.setFld (R.MNETx_STAT m) 3 0 1).wrapInc (R.MNETx_PASS m) 31 0) b 1 := giveTwin_of_undecided h 1 syn win dead
  have hne : R.MNETx_STAT m ≠ R.MNETx_PASS m := by simp only [R.MNETx_STAT, R.MNETx_PASS]; omega
  rw [hgive]
  refine ⟨reportTwin_twin 1 (x := x) h.entry, ?_, ?_, reportTwin_onlyChanges (.wrapInc (.setFld (.refl s _ _ _) (by simp)) (by simp)) (by simp)⟩
  · rw [reportTwin_reg, wrapInc_reg_same, State.setFld_reg_ne _ _ _ _ hne.symm]
  · rw [State.fld, reportTwin_reg, State.wrapInc, State.setFld_reg_ne _ _ _ _ hne]
    exact setFld_fld_same s _ 1 (by decide) (by decide)

/-- From `s` to `t` the failing result `code` was given: it stands in the entry, in MNETx_STAT and in the FAIL registers. -/
structure TwinFailed (s t : State) (b : Word) (x : Barge) (m : Fin 64) (code : BitVec 4) : Prop where
  twin : (t.barge? b).map (·.twin) = some code
  failBarge : t.reg R.FAIL_BARGE = b
  failNet : t.reg R.FAIL_NET = BitVec.ofNat 32 (netId x)
  stat : t.fld (R.MNETx_STAT m) 3 0 = code.toNat
  frame : OnlyChanges s t [R.FAIL_BARGE, R.FAIL_INFO, R.FAIL_NET, R.MNETx_STAT m] [.barges] []

theorem giveTwin_fail {s : State} {b : Word} {x : Barge} {m : Fin 64} (h : Undecided s b x m) {code : BitVec 4} (hc : code ≠ 1)
    (syn win : Nat) (dead : Bool) : TwinFailed s (giveTwin s b code syn win dead) b x m code := by
  have hgive : giveTwin s b code syn win dead = reportTwin
      (((mirrorFail s x code syn win dead).setFld (R.MNETx_STAT m) 3 0 code.toNat).satAdd (R.MNETx_STAT m) 31 16 1) b code := by
    rw [giveTwin_of_undecided h, if_neg hc]
    simp only [mnetStat, if_neg hc, Bool.false_eq_true, if_false]
  have hstat (t : State) (n : Nat) {k : Nat} (hk : k ≠ R.MNETx_STAT m) :
      ((t.setFld (R.MNETx_STAT m) 3 0 n).satAdd (R.MNETx_STAT m) 31 16 1).reg k = t.reg k := by
    rw [State.satAdd, State.setFld_reg_ne _ _ _ _ hk, State.setFld_reg_ne _ _ _ _ hk]
  have hfail : OnlyChanges s (mirrorFail s x code syn win dead) [R.FAIL_BARGE, R.FAIL_INFO, R.FAIL_NET, R.MNETx_STAT m] [.barges] [] :=
    .setReg (.setReg (.setReg (.refl s _ _ _) (by simp)) (by simp)) (by simp)
  rw [hgive]
  refine ⟨reportTwin_twin code (x := x) h.entry, ?_, ?_, ?_, reportTwin_onlyChanges (.satAdd (.setFld hfail (by simp)) (by simp)) (by simp)⟩
  · rw [reportTwin_reg, hstat _ _ (by simp only [R.FAIL_BARGE, R.MNETx_STAT]; omega), mirrorFail, State.setReg_reg_ne _ _ (by decide),
      State.setReg_reg_ne _ _ (by decide), State.setReg_reg_same, barge?_num h.entry]
  · rw [reportTwin_reg, hstat _ _ (by simp only [R.FAIL_NET, R.MNETx_STAT]; omega)]
    exact State.setReg_reg_same _ _ _
  · rw [State.fld, reportTwin_reg]
    refine (setFld_fld_disjoint _ _ _ (by decide) (by decide) (by decide) (by decide)).trans ?_
    rw [setFld_fld_same _ _ _ (by decide) (by decide)]
    exact Nat.mod_eq_of_lt code.isLt

section
variable {o s t : State} {b : Word} {x : Barge} {m : Fin 64} {code : BitVec 4}

theorem TwinFailed.count (h : TwinFailed s t b x m code) : t.reg R.CMP_COUNT = s.reg R.CMP_COUNT :=
  h.frame.reg _ (by
    simp only [List.mem_cons, List.not_mem_nil, or_false, R.CMP_COUNT, R.FAIL_BARGE, R.FAIL_INFO, R.FAIL_NET, R.MNETx_STAT]
    omega)

theorem TwinFailed.irq (h : TwinFailed s t b x m code) : t.reg R.MI_IRQ_STAT = s.reg R.MI_IRQ_STAT :=
  h.frame.reg _ (by
    simp only [List.mem_cons, List.not_mem_nil, or_false, R.MI_IRQ_STAT, R.FAIL_BARGE, R.FAIL_INFO, R.FAIL_NET, R.MNETx_STAT]
    omega)

theorem TwinFailed.mi (h : TwinFailed s t b x m code) : t.mi = s.mi := h.frame.part .mi (by simp)

/-- The result asserts no line beside the one of the event it comes from. -/
theorem TwinFailed.asserts (h : TwinFailed s t b x m code) {src chan : Nat} (ha : Asserts o s src chan) : Asserts o t src chan := by
  have hbc : t.bc = s.bc := h.frame.part .bc (by simp)
  rwa [Asserts, hbc]

theorem TwinFailed.onlyChanges (h : TwinFailed s t b x m code) {r r' : List Nat} {p p' : List Part} {l : List (Nat × Nat)}
    (ho : OnlyChanges o s r' p' l) (hr' : r' ⊆ r) (hp' : p' ⊆ p)
    (hr : [R.FAIL_BARGE, R.FAIL_INFO, R.FAIL_NET, R.MNETx_STAT m] ⊆ r) (hp : Part.barges ∈ p) : OnlyChanges o t r p l :=
  (ho.mono hr' hp' (List.Subset.refl _)).trans (h.frame.mono hr (by simpa using hp) (List.nil_subset _))

end

/-! ## SIG_RECORD_HANDOVER (R100, R112) -/

/-- The state that has taken the oldest record off Mooring and freed its slot. -/
def handedOver (s : State) (r : SigRec) (rest : List SigRec) : State := freeSigSlot { s with mr := { s.mr with handover := rest } } r.copy r.slot

theorem handedOver_cons (s : State) (r : SigRec) (rest : List SigRec) :
    (handedOver s r rest).reg (R.Cc_SIG_CONS r.copy) = s.reg (R.Cc_SIG_CONS r.copy) + 1 := wrapInc_reg_same _ _

theorem handedOver_sigBusy (s : State) (r : SigRec) (rest : List SigRec) :
    (handedOver s r rest).mr.ctxs[r.copy].sigBusy = s.mr.ctxs[r.copy].sigBusy.filter (· ≠ r.slot) :=
  congrArg Ctx.sigBusy (Vector.getElem_set_self r.copy.isLt)

theorem handedOver_mirrorOn (s : State) (r : SigRec) (rest : List SigRec) : mirrorOn (handedOver s r rest) = mirrorOn s := by
  rw [mirrorOn, mirrorOn, State.flag, State.flag]
  refine congrArg (BitVec.getLsbD · 0) (State.setFld_reg_ne _ _ _ _ ?_)
  simp only [R.MI_CTRL, R.Cc_SIG_CONS]
  omega

theorem handedOver_onlyChanges (s : State) (r : SigRec) (rest : List SigRec) :
    OnlyChanges s (handedOver s r rest) [R.Cc_SIG_CONS r.copy] [.mr, .mi] [] :=
  .wrapInc (.mr (.mr (.refl s _ _ _) (by simp)) (by simp)) (by simp)

theorem execSigRecordHandover_of_cons {s : State} {r : SigRec} {rest : List SigRec} (h : s.mr.handover = r :: rest)
    (hf : mirrorFull s = false) (hw : mirrorWindow s = none) : execSigRecordHandover s = .next (takeRecord (handedOver s r rest) r) := by
  simp only [execSigRecordHandover, h, hf, hw, Option.isSome_none, Bool.or_self, Bool.false_eq_true, if_false]
  rfl

/-- A live record in time and in order goes on to `takeLive`. -/
theorem takeRecord_of_live {s : State} {r : SigRec} {x : Barge} (hx : s.barge? r.barge = some x) (hon : mirrorOn s = true)
    (hl : windowLate x r = false) (ho : orderOk x r = true) (hd : r.dead = false) : takeRecord s r = takeLive s x r := by
  rw [takeRecord, withEntry_of_barge _ hx]
  simp only [hon, hl, ho, hd, Bool.false_and, Bool.not_true, Bool.false_eq_true, if_false]

/-- Mirror takes such a record as it is handed over. -/
theorem execSigRecordHandover_of_live {s : State} {r : SigRec} {rest : List SigRec} {x : Barge} (hh : s.mr.handover = r :: rest)
    (hf : mirrorFull s = false) (hw : mirrorWindow s = none) (hx : s.barge? r.barge = some x) (hon : mirrorOn s = true)
    (hl : windowLate x r = false) (ho : orderOk x r = true) (hd : r.dead = false) :
    execSigRecordHandover s = .next (takeLive (handedOver s r rest) x r) := by
  have hentry : (handedOver s r rest).barge? r.barge = some x := hx
  rw [execSigRecordHandover_of_cons hh hf hw, takeRecord_of_live hentry ((handedOver_mirrorOn s r rest).trans hon) hl ho hd]

theorem skipDead_of_disabled {x : Barge} (s : State) (r : SigRec) (h : deadEnabled x = false) : skipDead s x r = s := by
  rw [skipDead, h]
  rfl

theorem takeLive_first {s : State} {r : SigRec} {x : Barge} (hx : s.barge? r.barge = some x) (hd : deadEnabled x = false)
    (hs : isSingle x = false) (hl : x.lamp = none) (hp : partner s r = none) :
    takeLive s x r = updMi s fun m => { m with store := m.store ++ [r] } := by
  have hstore : storeRec r s = updMi s fun m => { m with store := m.store ++ [r] } := by
    rw [storeRec, hx]
    rfl
  simp only [takeLive, skipDead_of_disabled s r hd, hs, hl, hp, Option.isSome_none, Bool.or_self, Bool.false_eq_true, if_false, hstore]

theorem takeLive_second {s : State} {r p : SigRec} {x : Barge} (hd : deadEnabled x = false) (hp : partner s r = some p) :
    takeLive s x r = queueRec r s := by
  simp only [takeLive, skipDead_of_disabled s r hd, hp, Option.isSome_some, Bool.or_true, if_true]

/-! ## MIRROR_COMPARE (R101, R102, R109, R111) -/

/-- The state whose oldest compare is taken off the queue. -/
def compareTaken (s : State) (rest : List SigRec) : State := updMi s fun m => { m with queue := rest }

theorem execMirrorCompare_of_window {s : State} (env : MirrorEnv) (h : (mirrorWindow s).isSome = true) : execMirrorCompare env s = .next s := by
  rw [execMirrorCompare, h]
  rfl

theorem execMirrorCompare_normal {s : State} {r : SigRec} {rest : List SigRec} {x : Barge} (hw : mirrorWindow s = none)
    (hq : s.mi.queue = r :: rest) (hx : s.barge? r.barge = some x) :
    execMirrorCompare .normal s = .next (compareRec (compareTaken s rest) x r) := by
  simp only [execMirrorCompare, hw, Option.isSome_none, Bool.false_eq_true, if_false, hq]
  exact congrArg Host.Outcome.next (withEntry_of_barge _ hx)

/-- Halves that disagree give DUAL with ES37. -/
theorem execMirrorCompare_halvesDisagree {s : State} {r : SigRec} {rest : List SigRec} {x : Barge} (hw : mirrorWindow s = none)
    (hq : s.mi.queue = r :: rest) (hx : s.barge? r.barge = some x) (hp : partner s r = none) :
    execMirrorCompare .halvesDisagree s =
      .next (giveTwin ((((compareTaken s rest).wrapInc R.CMP_COUNT 31 0).setBit R.MI_IRQ_STAT 5).raiseFor 37 r.barge) r.barge 9 0
        r.window.toNat r.dead) := by
  have hp' : partner (updMi s fun m => { m with queue := rest }) r = none := hp
  simp only [execMirrorCompare, hw, Option.isSome_none, Bool.false_eq_true, if_false, hq, hp']
  exact congrArg Host.Outcome.next (withEntry_of_barge _ hx)

/-- The state of a compare of two stored records: counted, the partner's entry freed. -/
def pairTaken (s : State) (p : SigRec) (rest : List SigRec) : State := freeRec p ((compareTaken s rest).wrapInc R.CMP_COUNT 31 0)

theorem pairTaken_count (s : State) (p : SigRec) (rest : List SigRec) : (pairTaken s p rest).reg R.CMP_COUNT = s.reg R.CMP_COUNT + 1 :=
  wrapInc_reg_same _ _

theorem pairTaken_onlyChanges (s : State) (p : SigRec) (rest : List SigRec) : OnlyChanges s (pairTaken s p rest) [R.CMP_COUNT] [.mi] [] :=
  .mi (.wrapInc (.mi (.refl s _ _ _) (by simp)) (by simp)) (by simp)

theorem compareRec_of_pair {s : State} {r p : SigRec} {rest : List SigRec} {x : Barge} (hl : x.lamp = none) (hs : isSingle x = false)
    (hp : partner s r = some p) : compareRec (compareTaken s rest) x r = comparePair (pairTaken s p rest) x r p := by
  have hp' : partner (compareTaken s rest) r = some p := hp
  simp only [compareRec, hp', hl, hs, Bool.false_eq_true, if_false]
  rfl

/-- Under right digests a live compare judges the signatures alone, in whichever order the two records stand. -/
theorem comparePair_of_digests {r p : SigRec} {x : Barge} (s : State) (hd : r.dead = false) (hr : r.digest = x.digest)
    (hp : p.digest = x.digest) :
    ∃ sig, (sig = 0#128 ↔ r.sig = p.sig) ∧ comparePair s x r p = liveResult s x.num r.window sig 0#64 0#64 := by
  refine ⟨(inCtxOrder x r p).1.sig ^^^ (inCtxOrder x r p).2.sig, ?_, ?_⟩
  all_goals unfold inCtxOrder
  · split
    · exact BitVec.xor_eq_zero_iff
    · exact BitVec.xor_eq_zero_iff.trans eq_comm
  · unfold comparePair inCtxOrder
    split <;> simp only [hd, hr, hp, BitVec.xor_self, Bool.false_eq_true, if_false]

theorem liveResult_equal (s : State) (b : Word) (w : Half) : liveResult s b w 0#128 0#64 0#64 = windowDone s b w := by
  simp [liveResult]

theorem liveResult_mismatch (s : State) (b : Word) (w : Half) {sig : BitVec 128} (h : sig ≠ 0#128) : liveResult s b w sig 0#64 0#64 =
    giveTwin (mirrorEvent s 32 0 (lowBit (diffBits sig 0#64 0#64)) b) b 2 (lowBit (diffBits sig 0#64 0#64)) w.toNat false := by
  simp [liveResult, h]

/-- The entry with a window compared and found without difference. -/
def noteWindow (w : Half) (x : Barge) : Barge := { x with winDone := if x.winDone.contains w then x.winDone else x.winDone ++ [w] }

theorem Undecided.noteWindow {s : State} {b : Word} {x : Barge} {m : Fin 64} (h : Undecided s b x m) (w : Half) :
    Undecided (s.updBarge b (noteWindow w)) b (noteWindow w x) m :=
  ⟨by rw [updBarge_barge? s b fun y => (rfl : (MirrorLaws.noteWindow w y).num = y.num), h.entry]; rfl, h.unformed, h.notLamp, h.first,
    h.mnet⟩

theorem noteWindow_eq (w : Half) :
    noteWindow w = fun x => { x with winDone := if x.winDone.contains w then x.winDone else x.winDone ++ [w] } := rfl

/-- The last window compared without difference gives PASS. -/
theorem windowDone_last {s : State} {b : Word} {x : Barge} {m : Fin 64} {w : Half} (h : Undecided s b x m)
    (hw : x.winDone.contains w = false) (hn : x.winDone.length + 1 = windowsOf x) :
    windowDone s b w = giveTwin (s.updBarge b (noteWindow w)) b 1 0 0 false := by
  have hdone : (noteWindow w x).winDone.length = windowsOf (noteWindow w x) := by
    show (if x.winDone.contains w then x.winDone else x.winDone ++ [w]).length = windowsOf x
    rw [hw, ← hn]
    exact List.length_append
  have hupd : updEntry s b (noteWindow w) = s.updBarge b (noteWindow w) := updEntry_of_barge _ h.entry
  unfold windowDone
  dsimp only
  rw [← noteWindow_eq, hupd, withEntry_of_barge _ (h.noteWindow w).entry, if_pos hdone]

theorem setIrq_count (s : State) (b : Nat) : (s.setBit R.MI_IRQ_STAT b).reg R.CMP_COUNT = s.reg R.CMP_COUNT :=
  State.setBit_reg_ne _ _ (by decide)

theorem mirrorEvent_irq (s : State) (es : Nat) {irq : Nat} (syn : Nat) (b : Word) (h : irq < 32) :
    ((mirrorEvent s es irq syn b).reg R.MI_IRQ_STAT).getLsbD irq = true := by
  rw [mirrorEvent, State.raiseSyn_reg, setBit_getLsbD _ _ h]

theorem mirrorEvent_count (s : State) (es irq syn : Nat) (b : Word) : (mirrorEvent s es irq syn b).reg R.CMP_COUNT = s.reg R.CMP_COUNT := by
  rw [mirrorEvent, State.raiseSyn_reg, setIrq_count]

theorem mirrorEvent_asserts {s t : State} (es irq syn : Nat) (b : Word) (hb : t.bc.lines = s.bc.lines) (hc : t.cycle = s.cycle) :
    Asserts s (mirrorEvent t es irq syn b) es 0 := asserts_raiseSyn es 0 _ _ hb hc

theorem mirrorEvent_onlyChanges {o s : State} {r : List Nat} {p : List Part} {m : List (Nat × Nat)} {es irq syn : Nat} {b : Word}
    (h : OnlyChanges o s r p m) (hr : R.MI_IRQ_STAT ∈ r) (hp : Part.bc ∈ p) : OnlyChanges o (mirrorEvent s es irq syn b) r p m :=
  (h.setBit hr).raiseSyn hp

/-! ## WINDOW_DEADLINE and MISSING_RESULT (R106) -/

theorem execWindowDeadline_of_past {s : State} {b : Word} {x : Barge} (hx : s.barge? b = some x) (hon : mirrorOn s = true)
    (hs : x.stage = .delivered) (hl : x.lamp = none) (hp : x.windowPast = none) (hm : missed x.domain s.now x.window = true) :
    execWindowDeadline b s = .next (s.updBarge b fun x => { x with windowPast := some s.cycle }) := by
  rw [execWindowDeadline, withEntry_of_barge _ hx, updEntry_of_barge _ hx]
  simp only [hon, hs, hl, hp, hm, beq_self_eq_true, Option.isNone_none, Bool.and_self, if_true]

/-- A change of one barge's entry leaves the entries of other numbers in the list. -/
theorem mem_updBarge_of_ne {s : State} {b : Word} {y : Barge} (f : Barge → Barge) (hy : y ∈ s.barges) (hn : y.num ≠ b) :
    y ∈ (s.updBarge b f).barges :=
  List.mem_map.mpr ⟨y, hy, if_neg hn⟩

/-- A missing copy is never PASS. -/
theorem missingCode_ne_one (s : State) (x : Barge) : missingCode s x ≠ 1 := by
  unfold missingCode
  split
  · decide
  · split <;> decide
  · split <;> decide

theorem execMissingResult_of_missing {s : State} {b : Word} {x : Barge} {c : Nat} (hx : s.barge? b = some x) (hp : x.windowPast = some c)
    (hc : usCycles 1 ≤ s.cycle - c) (ht : x.twin = 0) (hm : missingCode s x ≠ 0) (hl : loggedLate s 1 b = false) :
    execMissingResult b s = .next (giveTwin ((s.setBit R.MI_IRQ_STAT 1).raiseFor 33 b) b (missingCode s x) 0 0 false) := by
  rw [execMissingResult, withEntry_of_barge _ hx]
  have hwaited : ¬ s.cycle - c < usCycles 1 := by omega
  simp only [hp, hwaited, ht, beq_eq_false_iff_ne.mpr hm, hl, bne_self_eq_false, decide_false, Bool.or_self, Bool.false_eq_true, if_false]

/-! ## MIRROR_GLINT (R109, R110) -/

theorem lowBit_two_pow {w k : Nat} (h : k < w) : lowBit (BitVec.ofNat w (2 ^ k)) = k := by
  have hfind : (List.range w).find? (fun i => (BitVec.ofNat w (2 ^ k)).getLsbD i) = some k := by
    rw [List.find?_range_eq_some]
    simp only [BitVec.getLsbD_ofNat, Nat.testBit_two_pow]
    refine ⟨by simp only [h, decide_true, Bool.and_self], List.mem_range.mpr h, fun j hj => ?_⟩
    simp only [Nat.ne_of_gt hj, decide_false, Bool.and_false, Bool.not_false]
  rw [lowBit, hfind]
  rfl

/-- The operands of the second pair differ at bit k and nowhere before it. -/
theorem glintSyndrome_eq (s : State) {k : Nat} (h : k < 256) : glintSyndrome s k = BitVec.ofNat 8 k := by
  have hdiff : (glintOperands s k).1 ^^^ (glintOperands s k).2 = BitVec.ofNat 256 (2 ^ k) := by
    rw [glintOperands, ← BitVec.xor_assoc, BitVec.xor_self, BitVec.zero_xor]
  rw [glintSyndrome, hdiff, lowBit_two_pow h]

/-- What both halves report of a good glint. -/
theorem glintGood_iff (g : MirrorGlint) (k : Byte) :
    glintGood g k = true ↔ g.equalP = none ∧ g.equalQ = none ∧ g.bitP = some k ∧ g.bitQ = some k := by
  simp only [glintGood, Bool.and_eq_true, beq_iff_eq, and_assoc]

/-- The state of a glint that has run: counted, and its outcome noted. -/
def glintCounted (s : State) (x : Glint) (good : Bool) : State :=
  ((glintRan s x).wrapInc R.GLINT_STAT 15 0).setFld R.GLINT_STAT 24 24 (bit (!good))

theorem glintCounted_count (s : State) (x : Glint) (good : Bool) :
    (glintCounted s x good).fld R.GLINT_STAT 15 0 = (s.fld R.GLINT_STAT 15 0 + 1) % 65536 :=
  (setFld_fld_disjoint _ _ _ (by decide) (by decide) (by decide) (by decide)).trans (setFld_fld_same _ _ _ (by decide) (by decide))

theorem glintCounted_bit (s : State) (x : Glint) (good : Bool) :
    (glintCounted s x good).fld R.GLINT_STAT 23 16 = s.fld R.GLINT_STAT 23 16 :=
  (setFld_fld_disjoint _ _ _ (by decide) (by decide) (by decide) (by decide)).trans
    (setFld_fld_disjoint _ _ _ (by decide) (by decide) (by decide) (by decide))

theorem glintCounted_outcome (s : State) (x : Glint) (good : Bool) : (glintCounted s x good).fld R.GLINT_STAT 24 24 = bit (!good) := by
  rw [glintCounted, setFld_fld_same _ _ _ (by decide) (by decide)]
  cases good <;> rfl

theorem glintCounted_lines (s : State) (x : Glint) (good : Bool) : (glintCounted s x good).bc.lines = s.bc.lines := rfl

theorem glintCounted_cycle (s : State) (x : Glint) (good : Bool) : (glintCounted s x good).cycle = s.cycle := rfl

theorem glintCounted_onlyChanges (s : State) (x : Glint) (good : Bool) {r : List Nat} (h : R.GLINT_STAT ∈ r) :
    OnlyChanges s (glintCounted s x good) r [.bc] [] :=
  .setFld (.wrapInc (.bc (.refl s _ _ _) (by simp)) h) h

/-- A glint whose equal pair shows no difference signals what its other pair shows. -/
theorem execMirrorGlint_of_window {s : State} {x : Glint} {g : MirrorGlint} (hw : mirrorWindow s = some x) (hr : x.ran = false)
    (hp : g.equalP = none) (hq : g.equalQ = none) : execMirrorGlint g s =
      .next (mirrorGlintPair x.src.toNat g.bitP g.bitQ (glintCounted s x (glintGood g (glintSyndrome (glintRan s x) x.syn.toNat)))) := by
  have hfirst : (mirrorWindow s).filter (!·.ran) = some x := by
    rw [hw]
    simp [hr]
  have hequal (t : State) : mirrorGlintPair x.src.toNat none none t = t := rfl
  simp only [execMirrorGlint, hfirst, hp, hq, hequal, Option.isSome_none, Bool.and_false, Bool.false_eq_true, if_false]
  rfl

theorem mirrorGlintPair_of_ne (s : State) (src : Nat) {p q : HalfReport} (h : p ≠ q) :
    mirrorGlintPair src p q s = (s.setBit R.MI_IRQ_STAT 5).raise 37 0 := by
  simp only [mirrorGlintPair, bne_iff_ne.mpr h, if_true]

theorem mirrorGlintPair_of_same (s : State) (src : Nat) (k : Byte) :
    mirrorGlintPair src (some k) (some k) s = s.raiseSyn src 0 (k.setWidth 16) none := by
  simp only [mirrorGlintPair, bne_self_eq_false, Bool.false_eq_true, if_false]

/-! ## SILENT_CLR (R105) -/

theorem execSilentClr_of_keeper {s : State} {i : Initiator} (hk : isKeeper i = true) (ha : s.admitted i = true) :
    execSilentClr i 1#32 s = .next ((s.busOk 0).setReg R.SILENT_DIV 0) := by
  rw [execSilentClr, State.keeperWrite, hk, ha]
  rfl

/-! ## O21 -/

/-- Settles O21: each clause takes the command's meaning in its case and reads the result off the rules above. -/
theorem mirrorComparesDeadlinesAndGlints : Obligations.MirrorComparesDeadlinesAndGlints := by
  unfold Obligations.MirrorComparesDeadlinesAndGlints
  refine ⟨?stored, ?queued, ?pass, ?mismatch, ?deadline, ?missing, ?dual, ?waits, ?glintDual, ?glintGood, ?silent⟩
  case stored =>
    intro s r rest x hh hf hw hon hx hlate ho hdead hen hs hl hp
    have hexec := execSigRecordHandover_of_live hh hf hw hx hon hlate ho hdead
    have hfirst : takeLive (handedOver s r rest) x r = _ := takeLive_first hx hen hs hl hp
    rw [hfirst] at hexec
    exact ⟨_, hexec, rfl, rfl, handedOver_sigBusy s r rest, handedOver_cons s r rest, .mi (handedOver_onlyChanges s r rest) (by simp)⟩
  case queued =>
    intro s r p rest x hh hf hw hon hx hlate ho hdead hen hp
    have hexec := execSigRecordHandover_of_live hh hf hw hx hon hlate ho hdead
    have hsecond : takeLive (handedOver s r rest) x r = _ := takeLive_second hen hp
    rw [hsecond] at hexec
    exact ⟨_, hexec, rfl, rfl, handedOver_sigBusy s r rest, handedOver_cons s r rest, .mi (handedOver_onlyChanges s r rest) (by simp)⟩
  case pass =>
    intro s r p rest x m hw hq hx hformed hl hs hdead hp ht hm hr hpd hsig hwin hn
    have hopen : Undecided (pairTaken s p rest) r.barge x m :=
      .of_onlyChanges ⟨hx, hformed, hl, ht, hm⟩ (pairTaken_onlyChanges s p rest) (by simp)
    obtain ⟨sig, hzero, hpair⟩ := comparePair_of_digests (pairTaken s p rest) hdead hr hpd
    have hexec := execMirrorCompare_normal hw hq hx
    rw [compareRec_of_pair hl hs hp, hpair, hzero.mpr hsig, liveResult_equal, barge?_num hx, windowDone_last hopen hwin hn] at hexec
    obtain ⟨htwin, hpass, hstat, hframe⟩ := giveTwin_pass (hopen.noteWindow r.window) 0 0 false
    have hmi := hframe.part .mi (by simp)
    have hcount := hframe.reg R.CMP_COUNT (by
      simp only [List.mem_cons, List.not_mem_nil, or_false, R.CMP_COUNT, R.MNETx_STAT, R.MNETx_PASS]
      omega)
    have htaken := pairTaken_onlyChanges s p rest
    have hbefore := htaken.reg (R.MNETx_PASS m) (by simp only [List.mem_singleton, R.CMP_COUNT, R.MNETx_PASS]; omega)
    refine ⟨_, hexec, htwin, hcount.trans (pairTaken_count s p rest), hpass.trans (congrArg (· + 1) hbefore), hstat,
      congrArg Mirror.queue hmi, congrArg Mirror.store hmi, ?_⟩
    exact ((htaken.mono (by simp) (by simp) (by simp)).updBarge (by simp)).trans (hframe.mono (by simp) (by simp) (by simp))
  case mismatch =>
    intro s r p rest x m hw hq hx hformed hl hs hdead hp ht hm hr hpd hsig
    obtain ⟨sig, hzero, hpair⟩ := comparePair_of_digests (pairTaken s p rest) hdead hr hpd
    have hexec := execMirrorCompare_normal hw hq hx
    rw [compareRec_of_pair hl hs hp, hpair, liveResult_mismatch _ _ _ fun h => hsig (hzero.mp h), barge?_num hx] at hexec
    have hevent : OnlyChanges s (mirrorEvent (pairTaken s p rest) 32 0 (lowBit (diffBits sig 0#64 0#64)) r.barge)
        [R.CMP_COUNT, R.MI_IRQ_STAT] [.mi, .bc] [] :=
      mirrorEvent_onlyChanges ((pairTaken_onlyChanges s p rest).mono (by simp) (by simp) (by simp)) (by simp) (by simp)
    have hopen := Undecided.of_onlyChanges ⟨hx, hformed, hl, ht, hm⟩ hevent (by simp)
    have hfail := giveTwin_fail hopen (by decide : (2 : BitVec 4) ≠ 1) (lowBit (diffBits sig 0#64 0#64)) r.window.toNat false
    refine ⟨_, hexec, hfail.twin, ?_, ?_, hfail.failBarge, hfail.failNet, hfail.stat,
      hfail.asserts (mirrorEvent_asserts 32 0 _ _ rfl rfl), congrArg Mirror.queue hfail.mi, congrArg Mirror.store hfail.mi,
      hfail.onlyChanges hevent ?_ ?_ ?_ ?_⟩
    · rw [hfail.count, mirrorEvent_count, pairTaken_count]
    · rw [hfail.irq, mirrorEvent_irq _ _ _ _ (by decide)]
    all_goals simp
  case deadline =>
    intro s b x hx hon hs hl hp hm
    refine ⟨_, execWindowDeadline_of_past hx hon hs hl hp hm, ?_, fun y hy hn => mem_updBarge_of_ne _ hy hn,
      .updBarge (.refl s _ _ _) (by simp)⟩
    rw [updBarge_barge?, hx]
    · rfl
    · exact fun _ => rfl
  case missing =>
    intro s b x m c hx hformed hl hp hc ht hmissing hlate hm
    have hevent : OnlyChanges s ((s.setBit R.MI_IRQ_STAT 1).raiseFor 33 b) [R.MI_IRQ_STAT] [.bc] [] :=
      .raiseFor (.setBit (.refl s _ _ _) (by simp)) (by simp)
    have hopen := Undecided.of_onlyChanges ⟨hx, hformed, hl, ht, hm⟩ hevent (by simp)
    have hfail := giveTwin_fail hopen (missingCode_ne_one s x) 0 0 false
    refine ⟨_, execMissingResult_of_missing hx hp hc ht hmissing hlate, hfail.twin, ?_, hfail.failBarge,
      hfail.asserts (asserts_raiseFor 33 b rfl rfl), hfail.onlyChanges hevent ?_ ?_ ?_ ?_⟩
    · rw [hfail.irq, State.raiseFor_reg, setBit_getLsbD _ _ (by decide)]
    all_goals simp
  case dual =>
    intro s r rest x m hw hq hx hformed hl ht hm hp
    have hevent : OnlyChanges s ((((compareTaken s rest).wrapInc R.CMP_COUNT 31 0).setBit R.MI_IRQ_STAT 5).raiseFor 37 r.barge)
        [R.CMP_COUNT, R.MI_IRQ_STAT] [.mi, .bc] [] :=
      .raiseFor (.setBit (.wrapInc (.mi (.refl s _ _ _) (by simp)) (by simp)) (by simp)) (by simp)
    have hopen := Undecided.of_onlyChanges ⟨hx, hformed, hl, ht, hm⟩ hevent (by simp)
    have hfail := giveTwin_fail hopen (by decide : (9 : BitVec 4) ≠ 1) 0 r.window.toNat r.dead
    refine ⟨_, execMirrorCompare_halvesDisagree hw hq hx hp, hfail.twin, ?_, ?_,
      hfail.asserts (asserts_raiseFor 37 r.barge rfl rfl),
      hfail.onlyChanges hevent ?_ ?_ ?_ ?_⟩
    · rw [hfail.count, State.raiseFor_reg, setIrq_count, wrapInc_reg_same]
      rfl
    · rw [hfail.irq, State.raiseFor_reg, setBit_getLsbD _ _ (by decide)]
    all_goals simp
  case waits =>
    intro s e hw
    exact ⟨s, execMirrorCompare_of_window e hw, rfl, .refl s _ _ _⟩
  case glintDual =>
    intro s g h hw hr hp hq hne
    have hbad (k : Byte) : glintGood h k = false := by
      rw [Bool.eq_false_iff, ne_eq, glintGood_iff]
      rintro ⟨-, -, hbp, hbq⟩
      exact hne (hbp.trans hbq.symm)
    have hexec := execMirrorGlint_of_window hw hr hp hq
    rw [hbad, mirrorGlintPair_of_ne _ _ hne] at hexec
    have hfld (hi lo : Nat) : (((glintCounted s g false).setBit R.MI_IRQ_STAT 5).raise 37 0).fld R.GLINT_STAT hi lo =
        (glintCounted s g false).fld R.GLINT_STAT hi lo := by
      rw [State.fld, State.raise_reg, State.setBit_reg_ne _ _ (by decide), State.fld]
    refine ⟨_, hexec, (hfld 15 0).trans (glintCounted_count s g false), (hfld 24 24).trans (glintCounted_outcome s g false), ?_,
      asserts_raise 37 0 (glintCounted_lines s g false) (glintCounted_cycle s g false),
      .raise (.setBit (glintCounted_onlyChanges s g false (by simp)) (by simp)) (by simp)⟩
    rw [State.raise_reg, setBit_getLsbD _ _ (by decide)]
  case glintGood =>
    intro s g h hw hr hsyn hgood
    obtain ⟨hp, hq, hbp, hbq⟩ := (glintGood_iff _ _).mp hgood
    have hexec := execMirrorGlint_of_window hw hr hp hq
    rw [glintSyndrome_eq _ hsyn, BitVec.ofNat_toNat, hgood, hbp, hbq, mirrorGlintPair_of_same] at hexec
    refine ⟨_, hexec, glintCounted_count s g true, glintCounted_bit s g true, glintCounted_outcome s g true,
      asserts_raiseSyn g.src.toNat 0 _ _ (glintCounted_lines s g true) (glintCounted_cycle s g true), ?_,
      .raiseSyn (glintCounted_onlyChanges s g true (by simp)) (by simp)⟩
    simp [State.raiseSyn]
  case silent =>
    intro s i hk ha
    exact ⟨_, execSilentClr_of_keeper hk ha, State.setReg_reg_same _ _ _, rfl, .setReg (.busOk (.refl s _ _ _) (by simp)) (by simp)⟩

end Sys2Proof.Machine.MirrorLaws

/-! # Sentinels, lamps and self-test (O29, O30)

What a lamp's result, the lamp-age test and a slice show and change comes first, and O30 from it. The end of a bring-in follows, with the
state that refutes O29. -/

namespace Sys2Proof.Machine.SentinelLaws

open MirrorLaws

/-! ## Shared operations -/

/-- A one-bit field is set by setting its bit. -/
theorem putBits_bit (w : Word) (b : Nat) : putBits w b b 1 = w ||| BitVec.ofNat 32 (2 ^ b) := by
  refine BitVec.eq_of_getLsbD_eq fun j hj => ?_
  rw [getLsbD_putBits w 1 (Nat.le_refl b) hj, BitVec.getLsbD_or, BitVec.getLsbD_ofNat, Nat.testBit_two_pow]
  by_cases h : b = j
  · simp [h, hj]
  · rw [if_neg (by omega)]
    simp [h]

/-- A saturating count goes up by one, up to its largest value. -/
theorem satAdd_fld_same (s : State) (a : Nat) {hi lo : Nat} (hlo : lo ≤ hi) (hhi : hi < 32) :
    (s.satAdd a hi lo 1).fld a hi lo = min (s.fld a hi lo + 1) (2 ^ (hi - lo + 1) - 1) := by
  have hpos : 0 < 2 ^ (hi - lo + 1) := Nat.two_pow_pos _
  rw [State.satAdd, setFld_fld_same _ _ _ hlo hhi, Nat.mod_eq_of_lt (by omega)]

theorem keeperWrite_of_keeper {s : State} {i : Initiator} (f : State → State) (hk : isKeeper i = true) (ha : s.admitted i = true) :
    s.keeperWrite i f = f (s.busOk 0) := by
  rw [State.keeperWrite, hk, ha]
  rfl

theorem withBarge_of_barge {s : State} {b : Word} {x : Barge} (f : Barge → State) (h : s.barge? b = some x) : s.withBarge b f = f x := by
  rw [State.withBarge, h]

/-- What the decision leaves of a barge's entry: everything but the settled verdict. -/
theorem settle_entry {α : Type} (g : Barge → α) (hg : ∀ x v c, g { x with final := v, finalAt := c } = g x) (s : State) (b : Word) :
    ((settle s b).barge? b).map g = (s.barge? b).map g := by
  obtain h | ⟨v, h⟩ := settle_cases s b
  · rw [h]
  · rw [h, updBarge_barge?, Option.map_map]
    · exact congrArg (Option.map · _) (funext fun x => hg x (some v) s.cycle)
    · exact fun _ => rfl

theorem settle_reg (s : State) (b : Word) (k : Nat) : (settle s b).reg k = s.reg k :=
  (settle_onlyChanges (.refl s [] [.barges] []) (by simp)).reg k (by simp)

theorem settle_bc (s : State) (b : Word) : (settle s b).bc = s.bc :=
  (settle_onlyChanges (.refl s [] [.barges] []) (by simp)).part .bc (by simp)

/-! ## LAMP_DEADLINE (R185) -/

/-- The state in which lamp `l` of barge `b` is noted MISSING: in the entry, in LMPl_STAT and its count, in SN_IRQ_STAT, with ES55. -/
def lampMissing (s : State) (b : Word) (l : Fin 256) : State :=
  ((((s.updBarge b fun x => { x with lampRes := 4 }).setFld (R.LMPl_STAT l) 3 0 4).satAdd (R.LMPl_STAT l) 31 16 1).setBit R.SN_IRQ_STAT 3).raiseFor 55 b

theorem execLampDeadline_of_lacks {s : State} {b : Word} {y : Barge} {l : Fin 256} (hy : s.barge? b = some y) (hl : y.lamp = some l)
    (hs : y.stage = .delivered) (hd : late s.now.t y.lampDue = true) (hm : lampLacks s y = true) (hr : y.lampRes = 0)
    (hf : y.formed = false) : execLampDeadline b s = .next (settle (lampMissing s b l) b) := by
  have hgive : giveLamp s b 4 = settle (lampMissing s b l) b := by
    rw [giveLamp, withBarge_of_barge _ hy]
    simp only [hl, hf, hr, Bool.false_eq_true, if_false, ne_eq, not_true_eq_false]
    rfl
  rw [execLampDeadline, withBarge_of_barge _ hy, hgive]
  simp only [hl, hs, hd, hm, Option.isSome_some, beq_self_eq_true, Bool.and_self, if_true]

theorem lampMissing_entry (s : State) (b : Word) (l : Fin 256) :
    (lampMissing s b l).barge? b = (s.barge? b).map fun x => { x with lampRes := 4 } := by
  have hbarges : (lampMissing s b l).barges = (s.updBarge b fun x => { x with lampRes := 4 }).barges := rfl
  rw [← updBarge_barge?, State.barge?, State.barge?, hbarges]
  exact fun _ => rfl

theorem lampStat_ne_irq (l : Fin 256) : R.LMPl_STAT l ≠ R.SN_IRQ_STAT := by simp only [R.LMPl_STAT, R.SN_IRQ_STAT]; omega

theorem lampMissing_stat (s : State) (b : Word) (l : Fin 256) : (lampMissing s b l).reg (R.LMPl_STAT l) =
    ((s.setFld (R.LMPl_STAT l) 3 0 4).satAdd (R.LMPl_STAT l) 31 16 1).reg (R.LMPl_STAT l) :=
  State.setBit_reg_ne _ _ (lampStat_ne_irq l)

theorem lampMissing_code (s : State) (b : Word) (l : Fin 256) : (lampMissing s b l).fld (R.LMPl_STAT l) 3 0 = 4 := by
  rw [State.fld, lampMissing_stat]
  exact (setFld_fld_disjoint _ _ _ (by decide) (by decide) (by decide) (by decide)).trans (setFld_fld_same s _ 4 (by decide) (by decide))

theorem lampMissing_count (s : State) (b : Word) (l : Fin 256) :
    (lampMissing s b l).fld (R.LMPl_STAT l) 31 16 = min (s.fld (R.LMPl_STAT l) 31 16 + 1) 0xFFFF := by
  rw [State.fld, lampMissing_stat]
  have hcount : (s.setFld (R.LMPl_STAT l) 3 0 4).fld (R.LMPl_STAT l) 31 16 = s.fld (R.LMPl_STAT l) 31 16 :=
    setFld_fld_disjoint _ _ _ (by decide) (by decide) (by decide) (by decide)
  exact (satAdd_fld_same _ _ (by decide) (by decide)).trans (congrArg (fun n => min (n + 1) 0xFFFF) hcount)

theorem lampMissing_irq (s : State) (b : Word) (l : Fin 256) : (lampMissing s b l).reg R.SN_IRQ_STAT = s.reg R.SN_IRQ_STAT ||| 8#32 := by
  have hne := (lampStat_ne_irq l).symm
  rw [lampMissing, State.raiseFor_reg, State.setBit_reg_same, State.satAdd, State.setFld_reg_ne _ _ _ _ hne, State.setFld_reg_ne _ _ _ _ hne]
  rfl

theorem lampMissing_onlyChanges (s : State) (b : Word) (l : Fin 256) :
    OnlyChanges s (lampMissing s b l) [R.LMPl_STAT l, R.SN_IRQ_STAT] [.barges, .bc] [] :=
  .raiseFor (.setBit (.satAdd (.setFld (.updBarge (.refl s _ _ _) (by simp)) (by simp)) (by simp)) (by simp)) (by simp)

/-! ## LAMP_AGE_TEST (R187) -/

/-- An enabled lamp that has passed, and fails the age test for the first time since. -/
def lampFirstStale (s : State) (l : Nat) : Bool :=
  s.flag (R.LMPl_CFG l) 0 && s.flag (R.LMPl_STAT l) 4 && !s.flag (R.LMPl_STAT l) 5 && !lampFresh s l

theorem ageLamp_reg_same (s : State) (l : Nat) : (ageLamp s l).reg (R.LMPl_STAT l) =
    if lampFirstStale s l then s.reg (R.LMPl_STAT l) ||| 0x20#32 else s.reg (R.LMPl_STAT l) := by
  unfold ageLamp
  split
  · next h =>
    rw [lampFirstStale, if_pos h, State.raise_reg, State.setFld_reg_same]
    exact putBits_bit _ 5
  · next h => rw [lampFirstStale, if_neg h]

theorem ageLamp_reg_ne (s : State) {l k : Nat} (h : k ≠ R.LMPl_STAT l) : (ageLamp s l).reg k = s.reg k := by
  unfold ageLamp
  split
  · exact State.setFld_reg_ne _ _ _ _ h
  · rfl

theorem ageLamp_now (s : State) (l : Nat) : (ageLamp s l).now = s.now := by
  unfold ageLamp
  split <;> rfl

/-- Lamps do not share a register: the test of one sees and leaves the others as they were. -/
theorem lampFirstStale_congr {s t : State} {l : Nat} (hnow : t.now = s.now)
    (hreg : ∀ k, 0x31304000 + 0x40 * l ≤ k → k < 0x31304040 + 0x40 * l → t.reg k = s.reg k) : lampFirstStale t l = lampFirstStale s l := by
  have hcfg := hreg (R.LMPl_CFG l) (by simp only [R.LMPl_CFG]; omega) (by simp only [R.LMPl_CFG]; omega)
  have hstat := hreg (R.LMPl_STAT l) (by simp only [R.LMPl_STAT]; omega) (by simp only [R.LMPl_STAT]; omega)
  have hlastT := hreg (R.LMPl_LAST_T l) (by simp only [R.LMPl_LAST_T]; omega) (by simp only [R.LMPl_LAST_T]; omega)
  have hlastS := hreg (R.LMPl_LAST_S l) (by simp only [R.LMPl_LAST_S]; omega) (by simp only [R.LMPl_LAST_S]; omega)
  have hmaxT := hreg (R.LMPl_MAXI_T l) (by simp only [R.LMPl_MAXI_T]; omega) (by simp only [R.LMPl_MAXI_T]; omega)
  have hmaxS := hreg (R.LMPl_MAXI_S l) (by simp only [R.LMPl_MAXI_S]; omega) (by simp only [R.LMPl_MAXI_S]; omega)
  simp only [lampFirstStale, lampFresh, State.flag, hnow, hcfg, hstat, hlastT, hlastS, hmaxT, hmaxS]

/-- The lamps below `n` tested: a register that is not the status of one of them stands. -/
theorem agedLamps_reg (s : State) {n k : Nat} (h : ∀ l < n, k ≠ R.LMPl_STAT l) : (foldN n ageLamp s).reg k = s.reg k := by
  induction n with
  | zero => rfl
  | succ n ih =>
    rw [MilepostLaws.foldN_succ, ageLamp_reg_ne _ (h n (Nat.lt_succ_self n)), ih fun l hl => h l (Nat.lt_succ_of_lt hl)]

theorem agedLamps_now (s : State) (n : Nat) : (foldN n ageLamp s).now = s.now :=
  MilepostLaws.foldN_induction (P := fun t => t.now = s.now) n rfl fun t l ht => (ageLamp_now t l).trans ht

/-- A lamp's status after the test of the lamps below `n`: bit 5 is set exactly where the lamp first fails it. -/
theorem agedLamps_stat (s : State) {n l : Nat} (h : l < n) : (foldN n ageLamp s).reg (R.LMPl_STAT l) =
    if lampFirstStale s l then s.reg (R.LMPl_STAT l) ||| 0x20#32 else s.reg (R.LMPl_STAT l) := by
  induction n with
  | zero => omega
  | succ n ih =>
    rw [MilepostLaws.foldN_succ]
    obtain hl | rfl : l < n ∨ l = n := by omega
    · rw [ageLamp_reg_ne _ (by simp only [R.LMPl_STAT]; omega), ih hl]
    · have hbefore (k : Nat) (hlo : 0x31304000 + 0x40 * l ≤ k) (_ : k < 0x31304040 + 0x40 * l) : (foldN l ageLamp s).reg k = s.reg k :=
        agedLamps_reg s fun j hj => by simp only [R.LMPl_STAT]; omega
      rw [ageLamp_reg_same, lampFirstStale_congr (agedLamps_now s l) hbefore, hbefore]
      all_goals simp only [R.LMPl_STAT]; omega

theorem ageLamp_onlyChanges {o s : State} {r : List Nat} {p : List Part} {m : List (Nat × Nat)} {l : Nat} (h : OnlyChanges o s r p m)
    (hr : R.LMPl_STAT l ∈ r) (hp : Part.bc ∈ p) : OnlyChanges o (ageLamp s l) r p m :=
  .ite (.raise (.setFld h hr) hp) h

theorem agedLamps_onlyChanges (s : State) (n : Nat) :
    OnlyChanges s (foldN n ageLamp s) ((List.range n).map R.LMPl_STAT) [.bc] [] := by
  induction n with
  | zero => exact .refl s _ _ _
  | succ n ih =>
    rw [MilepostLaws.foldN_succ]
    refine ageLamp_onlyChanges (ih.mono ?_ (by simp) (by simp)) (List.mem_map.mpr ⟨n, List.mem_range.mpr (Nat.lt_succ_self n), rfl⟩) (by simp)
    exact List.map_subset _ (List.range_subset.mpr (Nat.le_succ n))

/-! ## SELFTEST_START (R190, R191) -/

theorem slotRuns_onlyChanges {o s : State} {r : List Nat} {p : List Part} {m : List (Nat × Nat)} {x : Fin 64} (h : OnlyChanges o s r p m)
    (hr : R.RESr_RUNS x ∈ r) (hp : Part.sn ∈ p) : OnlyChanges o (slotRuns s x) r p m :=
  .ite h (.wrapInc (.sn h hp) hr)

theorem joinRun_onlyChanges {o s : State} {r : List Nat} {p : List Part} {m : List (Nat × Nat)} {q : Fin 36} {x : Fin 64}
    (h : OnlyChanges o s r p m) (hp : Part.sn ∈ p) : OnlyChanges o (joinRun s q x) r p m := by
  unfold joinRun
  dsimp only
  split
  · exact h.sn hp
  · split
    · exact h
    · exact h.sn hp

theorem slotBegins_onlyChanges {o s : State} {r : List Nat} {p : List Part} {m : List (Nat × Nat)} {q : Fin 36} {e : Nat}
    (h : OnlyChanges o s r p m) (hr : ∀ x : Fin 64, R.RESr_RUNS x ∈ r) (hp : Part.sn ∈ p) : OnlyChanges o (slotBegins s q e) r p m := by
  unfold slotBegins
  split
  · exact h
  · exact .ite h (joinRun_onlyChanges (slotRuns_onlyChanges h (hr _) hp) hp)

/-- Tile `p` set to issue from entry `e`, as a run begins (R132). -/
def tileBegun (s : State) (p : Fin 36) (e : BitVec 4) (tag : Half) : State :=
  updTile (s.setReg (R.TL_CYCLES p) 0) p fun t =>
    { freshIssue t with run := issuing s p, pc := entryStart s p e.toNat, entry := e, tag := tag, saved := false, loops := [],
                        freeAt := s.cycle + 4 }

theorem issuing_setCycles (s : State) (p : Fin 36) (v : Word) : issuing (s.setReg (R.TL_CYCLES p) v) p = issuing s p := by
  rw [issuing, issuing, State.flag, State.flag, State.setReg_reg_ne _ _ (by simp only [R.TL_DBG, R.TL_CYCLES]; omega)]

theorem beginRun_eq (s : State) (p : Fin 36) (e : BitVec 4) (tag : Half) :
    beginRun s p e tag = slotBegins (tileBegun s p e tag) p e.toNat := by
  rw [beginRun, issuing_setCycles]
  rfl

theorem tileBegun_onlyChanges {o s : State} {r : List Nat} {q : List Part} {m : List (Nat × Nat)} {p : Fin 36} {e : BitVec 4} {tag : Half}
    (h : OnlyChanges o s r q m) (hr : R.TL_CYCLES p ∈ r) (hq : Part.tiles ∈ q) : OnlyChanges o (tileBegun s p e tag) r q m :=
  (h.setReg hr).tiles hq

/-- Of the tiles and the cycle count, a run's slot changes nothing. -/
theorem beginRun_tiles (s : State) (p : Fin 36) (e : BitVec 4) (tag : Half) : (beginRun s p e tag).tiles = (tileBegun s p e tag).tiles := by
  rw [beginRun_eq]
  exact (slotBegins_keeps (ps := [.sn, .regs]) (.refl _ _) (by simp)).part .tiles (by simp)

theorem beginRun_cycles (s : State) (p : Fin 36) (e : BitVec 4) (tag : Half) : (beginRun s p e tag).reg (R.TL_CYCLES p) = 0 := by
  have hslot : OnlyChanges (tileBegun s p e tag) (slotBegins (tileBegun s p e tag) p e.toNat) ((List.range 64).map R.RESr_RUNS) [.sn] [] :=
    slotBegins_onlyChanges (.refl _ _ _ _) (fun x => List.mem_map.mpr ⟨x, List.mem_range.mpr x.isLt, rfl⟩) (by simp)
  rw [beginRun_eq, hslot.reg _ (by simp only [List.mem_map, not_exists, not_and, R.TL_CYCLES, R.RESr_RUNS]; omega)]
  exact State.setReg_reg_same _ _ _

theorem beginRun_onlyChanges {o s : State} {r : List Nat} {q : List Part} {m : List (Nat × Nat)} {p : Fin 36} {e : BitVec 4} {tag : Half}
    (h : OnlyChanges o s r q m) (hc : R.TL_CYCLES p ∈ r) (hr : ∀ x : Fin 64, R.RESr_RUNS x ∈ r) (ht : Part.tiles ∈ q) (hs : Part.sn ∈ q) :
    OnlyChanges o (beginRun s p e tag) r q m := by
  rw [beginRun_eq]
  exact slotBegins_onlyChanges (tileBegun_onlyChanges h hc ht) hr hs

theorem tileBegun_same (s : State) (p : Fin 36) (e : BitVec 4) (tag : Half) : (tileBegun s p e tag).tiles[p] =
    { freshIssue s.tiles[p] with run := issuing s p, pc := entryStart s p e.toNat, entry := e, tag := tag, saved := false, loops := [],
                                 freeAt := s.cycle + 4 } :=
  Vector.getElem_set_self p.isLt

theorem tileBegun_ne (s : State) {p q : Fin 36} (e : BitVec 4) (tag : Half) (h : q ≠ p) : (tileBegun s p e tag).tiles[q] = s.tiles[q] :=
  Vector.getElem_set_ne p.isLt q.isLt fun hq => h (Fin.ext hq.symm)

theorem execSelftestStart_of_idle {s : State} {i : Initiator} {v : Word} {p : Fin 36} (hk : isKeeper i = true) (ha : s.admitted i = true)
    (hp : bits v 5 0 = p.val) (hon : s.flag R.ST_CTRL 0 = true) (hi : s.tiles[p].run = .idle) (hw : workQueued s p = false)
    (hg : gateOpen s = true) (he : entryStart s p 15 ≠ 0) : execSelftestStart i v s = .next (beginRun (s.busOk 0) p 15 0) := by
  obtain rfl : p = Fin.ofNat 36 (bits v 5 0) := by rw [hp, Fin.ofNat_val_eq_self]
  rw [execSelftestStart, keeperWrite_of_keeper _ hk ha]
  exact congrArg _ (if_pos ⟨by rw [hp]; exact Fin.isLt _, hon, hi, Bool.eq_false_iff.mp hw, hg, he⟩)

theorem execSelftestStart_of_busy {s : State} {i : Initiator} {v : Word} {p : Fin 36} (hk : isKeeper i = true) (ha : s.admitted i = true)
    (hp : bits v 5 0 = p.val) (hi : s.tiles[p].run ≠ .idle) :
    execSelftestStart i v s = .next (((s.busOk 0).satAdd R.ST_DEFER 31 0 1).setBit R.SN_IRQ_STAT 5) := by
  obtain rfl : p = Fin.ofNat 36 (bits v 5 0) := by rw [hp, Fin.ofNat_val_eq_self]
  rw [execSelftestStart, keeperWrite_of_keeper _ hk ha]
  exact congrArg _ (if_neg fun ⟨_, _, hidle, _⟩ => hi hidle)

/-! ## SELFTEST_AGE_EXCEEDED (R192) -/

theorem execSelftestAgeExceeded_of_late {s : State} {p : Fin 36} (ha : tileActive s p = true) (hl : s.fld R.ST_CTRL 31 16 < aktAge s p)
    (hn : s.sn.aktLate.contains p = false) :
    execSelftestAgeExceeded p s = .next (({ s with sn := { s.sn with aktLate := s.sn.aktLate ++ [p] } } : State).raise 49 0) := by
  simp only [execSelftestAgeExceeded, ha, hl, hn, decide_true, Bool.not_false, Bool.and_self, if_true]

/-! ## O30 -/

/-- Settles O30: each clause takes the command's meaning in its case and reads the result off the rules above. -/
theorem lampsAndSelfTest : Obligations.LampsAndSelfTest := by
  unfold Obligations.LampsAndSelfTest
  refine ⟨?missing, ?ages, ?slice, ?deferred, ?overdue⟩
  case missing =>
    intro s b y l hy hl hs hd hm hr hf
    refine ⟨_, execLampDeadline_of_lacks hy hl hs hd hm hr hf, ?_, ?_, ?_, ?_, ?_,
      settle_onlyChanges (lampMissing_onlyChanges s b l) (by simp)⟩
    · rw [settle_entry _ fun _ _ _ => rfl, lampMissing_entry, hy]
      rfl
    · rw [State.fld, settle_reg]
      exact lampMissing_code s b l
    · rw [State.fld, settle_reg]
      exact lampMissing_count s b l
    · rw [settle_reg, lampMissing_irq]
    · rw [Asserts, settle_bc]
      exact asserts_raiseFor 55 b rfl rfl
  case ages =>
    intro s
    refine ⟨_, rfl, fun l h => ?_, fun l h => ?_, agedLamps_onlyChanges s 256⟩
    · rw [agedLamps_stat s l.isLt, lampFirstStale, if_pos h]
    · rw [agedLamps_stat s l.isLt, lampFirstStale, h]
      rfl
  case slice =>
    intro s i v p hk ha hp hon hi hw hg he
    refine ⟨_, execSelftestStart_of_idle hk ha hp hon hi hw hg he, ?_, ?_, ?_, beginRun_cycles _ p 15 0, fun q hq => ?_,
      beginRun_onlyChanges (.busOk (.refl s _ _ _) (by simp)) (by simp) (fun x => ?_) (by simp) (by simp)⟩
    · rw [beginRun_tiles, tileBegun_same]
      rfl
    · rw [beginRun_tiles, tileBegun_same]
    · rw [beginRun_tiles, tileBegun_same]
      rfl
    · rw [beginRun_tiles, tileBegun_ne _ _ _ hq]
      rfl
    · exact List.mem_cons_of_mem _ (List.mem_map.mpr ⟨x, List.mem_range.mpr x.isLt, rfl⟩)
  case deferred =>
    intro s i v p hk ha hp hi
    have hdefer : R.ST_DEFER ≠ R.SN_IRQ_STAT := by decide
    refine ⟨_, execSelftestStart_of_busy hk ha hp hi, ?_, ?_, .setBit (.satAdd (.busOk (.refl s _ _ _) (by simp)) (by simp)) (by simp)⟩
    · rw [State.fld, State.setBit_reg_ne _ _ hdefer]
      exact satAdd_fld_same (s.busOk 0) _ (by decide) (by decide)
    · rw [State.setBit_reg_same, State.satAdd, State.setFld_reg_ne _ _ _ _ hdefer.symm]
      rfl
  case overdue =>
    intro s p ha hl hn
    exact ⟨_, execSelftestAgeExceeded_of_late ha hl hn, rfl, MirrorLaws.asserts_raise 49 0 rfl rfl,
      .raise (.sn (.refl s _ _ _) (by simp)) (by simp)⟩

/-! ## MODEL_LOAD_DONE (R174) -/

/-- The state whose bring-in is over: SN_LOAD is free, its interrupt set. -/
def loadTaken (s : State) : State := ({ s with sn := { s.sn with load := none } } : State).setBit R.SN_IRQ_STAT 0

theorem loadTaken_bankBase (s : State) (b : Bool) : bankBase (loadTaken s) b = bankBase s b := by
  have hreg {k : Nat} (h : k ≠ R.SN_IRQ_STAT) : (loadTaken s).reg k = s.reg k := State.setBit_reg_ne _ _ h
  simp only [bankBase, State.fld, hreg (by decide : R.SN_LIBA_LO ≠ R.SN_IRQ_STAT), hreg (by decide : R.SN_LIBA_HI ≠ R.SN_IRQ_STAT),
    hreg (by decide : R.SN_LIBB_LO ≠ R.SN_IRQ_STAT), hreg (by decide : R.SN_LIBB_HI ≠ R.SN_IRQ_STAT)]

theorem loadTaken_activeBank (s : State) : activeBank (loadTaken s) = activeBank s :=
  congrArg (BitVec.getLsbD · 1) (State.setBit_reg_ne _ _ (by decide))

theorem loadTaken_slotVariant (s : State) (x : ResSlot) : slotVariant (loadTaken s) x = slotVariant s x := by
  rw [slotVariant, slotVariant, modelOf, modelOf, loadTaken_activeBank]
  rfl

theorem loadTaken_slotImage (s : State) (r : Fin 64) : slotImage (loadTaken s) r = slotImage s r := by
  rw [slotImage, slotImage, loadTaken_slotVariant, loadTaken_activeBank]
  simp only [loadTaken_bankBase]
  rfl

theorem loadTaken_partsMatch (s : State) (r : Fin 64) : partsMatch (loadTaken s) r = partsMatch s r := by
  simp only [partsMatch, loadTaken_slotVariant, loadTaken_activeBank, loadTaken_bankBase]
  rfl

/-- A bring-in read without error whose parts all match is copied to its tiles, and its slot is RESIDENT. -/
theorem execModelLoadDone_of_match {s : State} {r : Fin 64} {m : BitVec 12} {k : BitVec 2} (hl : s.sn.load = some (r, m, k))
    (hs : s.sn.slots[r].state = .loading) (hu : holdUncIn s (slotImage s r).1 (slotImage s r).2 = none) (hp : partsMatch s r = true) :
    execModelLoadDone .read s =
      .next (loadStat (updSlot (copyParts (loadTaken s) r) r fun x => { x with state := .resident }) 0 0 r m.toNat) := by
  have hread : loadRead (loadTaken s) r .read = .read := by
    rw [loadRead, loadTaken_slotImage, show holdUncIn (loadTaken s) (slotImage s r).1 (slotImage s r).2 = none from hu]
    rfl
  have hstate : (loadTaken s).sn.slots[r].state = .loading := hs
  have hmatch : partsMatch (loadTaken s) r = true := (loadTaken_partsMatch s r).trans hp
  rw [loadTaken] at hread hstate hmatch
  simp only [execModelLoadDone, hl, hread, hstate, hmatch, not_true_eq_false, and_false, if_false, if_true]
  rfl

/-- The one part of a variant on one tile is one copy. -/
theorem copyParts_of_one {s : State} {r : Fin 64} {v : Variant} {l p : Nat} (hv : slotVariant s s.sn.slots[r] = some v)
    (ht : slotTiles s s.sn.slots[r] = [l]) (hh : holder s l = some p) :
    copyParts s r = copyIn s (Fin.ofNat 36 p) (bankBase s (activeBank s) + v.off + 8 * v.tiles) (1024 * v.partKib)
      (slotOffset s s.sn.slots[r].group.val (r.val - slotFirst s s.sn.slots[r].group.val)) := by
  simp only [copyParts, hv, ht, foldN, List.length_singleton, List.range_one, List.foldl_cons, List.foldl_nil, List.getElem?_cons_zero,
    Option.getD_some, hh, Nat.mul_zero, Nat.add_zero]

theorem clearSaved_byte (s : State) (p : Fin 36) (a n k : Nat) : (clearSaved s p a n).byte k = s.byte k := by
  unfold clearSaved
  split <;> rfl

/-- Beside no write of a sequencer, a copy into a tile is a copy of memory. -/
theorem copyIn_byte {s : State} (h : s.ports.seq = []) (p : Fin 36) (src n a k : Nat) :
    (copyIn s p src n a).byte k = (s.copyMem src n (tileByte p a)).byte k := by
  have hseq : (netWrites s (tileByte p a) n).ports.seq = [] := h
  rw [copyIn, clearSaved_byte, netCopy, hseq]
  rfl

/-! ## The library and the resident models: O29 -/

theorem natLE_bytesLE (n v : Nat) : natLE (bytesLE n v) = v % 256 ^ n := by
  induction n generalizing v with
  | zero => exact (Nat.mod_one v).symm
  | succ n ih =>
    have hlow : (BitVec.ofNat 8 v).toNat = v % 256 := BitVec.toNat_ofNat _ _
    rw [bytesLE, natLE, ih, hlow, Nat.pow_succ', Nat.mod_mul]

theorem getRange_of_const {α : Type} {d : Nat → α} {m : List (Nat × α)} {v : α} {a : Nat} (h : ∀ k, a ≤ k → Cells.get d m k = v) (n : Nat) :
    Cells.getRange d m a n = List.replicate n v := by
  induction n generalizing a with
  | zero => rfl
  | succ n ih => rw [Cells.getRange, h a (Nat.le_refl a), ih fun k hk => h k (by omega), List.replicate_succ]

/-- The CRC-64 of a part of 1 KiB of zeros, of model 5 (Table 08-1). -/
def zerosCheck : DWord := crcNative crc64 5 (List.replicate 1024 0)

/-- A bring-in about to end: slot 0 takes the one part of model 5, 1 KiB at 0x2008 behind its CRC-64, from bank A at 0x1000 to logical tile 0,
which is tile 35. The part reads as zeros; memory, not in its canonical form, lists the first byte twice. -/
def doublyListed : State :=
  let s := ((((State.reset.setReg R.SN_CTRL 1#32).setReg (R.SGg_CFG 0) 0x80000505#32).setReg (R.SGg_TILES 0) 1#32).setReg (R.TL_MAP 35)
    0x20#32).setReg R.SN_LIBA_LO 0x1000#32
  { s with
    sn := { s.sn with manifestA := [⟨5, false, false, 0, [⟨1, 0, 1, 0x1000⟩]⟩]
                      slots := s.sn.slots.set 0 ⟨.loading, 5, 0, 0⟩
                      load := some (0, 5, 0) }
    mem := ((bytesLE 8 zerosCheck.toNat).zipIdx 0x2000).map Prod.swap ++ [(0x2008, 0), (0x2008, 1)] }

theorem doublyListed_base : bankBase doublyListed (activeBank doublyListed) = 0x1000 := by decide +kernel

theorem doublyListed_check : doublyListed.bytes 0x2000 8 = bytesLE 8 zerosCheck.toNat := rfl

theorem doublyListed_part (n : Nat) : doublyListed.bytes 0x2008 n = List.replicate n 0 := by
  refine getRange_of_const (fun k hk => ?_) n
  simp only [doublyListed, bytesLE, List.zipIdx_cons, List.zipIdx_nil, List.map_cons, List.map_nil, List.cons_append, List.nil_append,
    Prod.swap, Cells.get, memDefault]
  grind

theorem doublyListed_partsMatch : partsMatch doublyListed 0 = true := by
  have hv : slotVariant doublyListed doublyListed.sn.slots[(0 : Fin 64)] = some ⟨1, 0, 1, 0x1000⟩ := rfl
  have hcheck : BitVec.ofNat 64 (natLE (bytesLE 8 zerosCheck.toNat)) = zerosCheck := by
    rw [natLE_bytesLE, Nat.mod_eq_of_lt (show _ < 256 ^ 8 from zerosCheck.isLt), BitVec.ofNat_toNat, BitVec.setWidth_eq]
  simp only [partsMatch, hv, doublyListed_base, List.range_one, List.all_cons, List.all_nil, Bool.and_true, Nat.mul_zero, Nat.add_zero,
    Nat.reduceMul, Nat.reduceAdd]
  rw [doublyListed_part, doublyListed_check, hcheck]
  exact beq_self_eq_true zerosCheck

/-- The copy takes the byte's second entry. -/
theorem doublyListed_copied : ((loadTaken doublyListed).copyMem 0x2008 1024 (tileByte 35 0)).byte (tileByte 35 0) = 1 := rfl

/-- So that byte of the tile differs from the part it was loaded from. -/
theorem doublyListed_loaded {t : State} (h : execModelLoadDone .read doublyListed = .next t) : t.byte (tileByte 35 0) = 1 := by
  have hnext := execModelLoadDone_of_match (s := doublyListed) (r := 0) (m := 5) (k := 0) rfl rfl rfl doublyListed_partsMatch
  rw [hnext, copyParts_of_one (s := loadTaken doublyListed) (v := ⟨1, 0, 1, 0x1000⟩) (l := 0) (p := 35) rfl (by decide +kernel)
    (by decide +kernel)] at h
  obtain rfl := Host.Outcome.next.inj h
  have hoffset : slotOffset (loadTaken doublyListed) (loadTaken doublyListed).sn.slots[(0 : Fin 64)].group.val
      ((0 : Fin 64).val - slotFirst (loadTaken doublyListed) (loadTaken doublyListed).sn.slots[(0 : Fin 64)].group.val) = 0 := by
    decide +kernel
  rw [loadTaken_activeBank, loadTaken_bankBase, doublyListed_base, hoffset]
  exact (copyIn_byte (s := loadTaken doublyListed) rfl 35 0x2008 1024 0 (tileByte 35 0)).trans doublyListed_copied

/-- Refutes O29 in its clause on a good one-tile bring-in, which does not ask for `Canonical s`: where memory lists a byte of the part
twice, a read takes the first entry and the copy into the tile's SRAM the last. -/
theorem not_librariesModelsPlausibilityAndEnvelopes : ¬ Obligations.LibrariesModelsPlausibilityAndEnvelopes := by
  unfold Obligations.LibrariesModelsPlausibilityAndEnvelopes
  rintro ⟨-, -, -, -, -, -, hresident, -⟩
  obtain ⟨t, hexec, -, -, -, hbytes, -⟩ := hresident doublyListed 0 5 0 ⟨1, 0, 1, 0x1000⟩ 0 35 rfl rfl rfl doublyListed_partsMatch rfl rfl
    (by decide +kernel) (by decide +kernel)
  have hoffset : slotOffset doublyListed doublyListed.sn.slots[(0 : Fin 64)].group.val
      ((0 : Fin 64).val - slotFirst doublyListed doublyListed.sn.slots[(0 : Fin 64)].group.val) = 0 := by decide +kernel
  rw [doublyListed_base, hoffset] at hbytes
  have hzeros : t.bytes (tileByte 35 0) 1024 = List.replicate 1024 0 := hbytes.trans (doublyListed_part 1024)
  have hfirst : t.byte (tileByte 35 0) = 0 := Option.some.inj (congrArg List.head? hzeros)
  rw [doublyListed_loaded hexec] at hfirst
  exact absurd hfirst (by decide)

end Sys2Proof.Machine.SentinelLaws
